-- ==== Sys2Proof/Word.lean ====
section
/-! DEFINITION. The words of the machine and the one sparse map that every register file and memory uses. -/

namespace Sys2Proof

abbrev Byte := BitVec 8
abbrev W32 := BitVec 32
abbrev W64 := BitVec 64
abbrev W128 := BitVec 128

/-- One bit per lane of a warp (R1: 128 lanes). -/
abbrev LaneMask := BitVec 128

/-- A sparse map: keys strictly rising, plain data. -/
abbrev SMap (α : Type) := List (Nat × α)

end Sys2Proof
end

