-- ==== Sys2Proof/Syntax.lean ====
section
/-! DEFINITION. The instruction set and the device events: one constructor of `Instr` per row of the opcode table.
Instruction constructors carry decoded operands; event constructors carry what identifies the operation or input. -/

namespace Sys2Proof

/-- Uniform special values of scalar operand codes 96 to 111 (R245). -/
inductive SpecialReg where
  | zero | warpn | nwarp | depth | wgx | wgy | wgz | ngx | ngy | ngz
  | crank | csize | qsize | qseat | core | cycle
  deriving DecidableEq, Repr

/-- A scalar source operand (R245). -/
inductive SOp where
  | reg (n : Fin 96)
  | special (r : SpecialReg)
  deriving DecidableEq, Repr

/-- A vector operand (R244): a direct register or one reached through an index register. -/
inductive VOp where
  | dir (n : Fin 56)
  | ind (j : Fin 8)
  deriving DecidableEq, Repr

/-- A guard (R243): `p = 7` is always true. -/
structure Guard where
  neg : Bool
  p : Fin 8
  deriving DecidableEq, Repr

/-- Integer types (R298). -/
inductive ITy where
  | i32 | n32 | i64 | n64
  deriving DecidableEq, Repr

/-- Bit-pattern types (R298, R300). -/
inductive BTy where
  | b32 | b64
  deriving DecidableEq, Repr

/-- Floating-point types of the vector words (R301). -/
inductive FTy where
  | f32 | f64 | bf16 | f16
  deriving DecidableEq, Repr

/-- Assigned number-format codes (R174); `b8s p` is binary8p(p+1).s and so on. -/
inductive NFC where
  | f32 | f64 | bf16 | f16 | e4m3 | e5m2 | e3m2 | e2m3 | e2m1 | mxi8
  | b8s (p : Fin 7) | b8x (p : Fin 7) | b8z (p : Fin 7)
  deriving DecidableEq, Repr

/-- Rounding modes (R184). -/
inductive RM where
  | rne | rtz | rup | rdn | sr
  deriving DecidableEq, Repr

/-- Address spaces (R17). -/
inductive Space where
  | g | sp | cl | rw | ac
  deriving DecidableEq, Repr

/-- Orderings of XM and ATOM (R241). -/
inductive Ord where
  | relaxed | acquire | release | acqRel
  deriving DecidableEq, Repr

/-- Scopes (R131). -/
inductive Scope where
  | lane | warp | workgroup | cluster | device | system
  deriving DecidableEq, Repr

/-- Conditions of VCMP (R299). -/
inductive Cond where
  | eq | ne | lt | le | gt | ge
  deriving DecidableEq, Repr

/-- Conditions of VFCMP (R302). -/
inductive FCond where
  | ord (c : Cond)
  | un
  deriving DecidableEq, Repr

/-- Conditions of SCMP (R273). -/
inductive SCond where
  | eq | ne | lt | ltn | ge | gen
  deriving DecidableEq, Repr

/-- Operations of VFOPX (R303). -/
inductive FOp where
  | add | sub | mul | fma | div | sqrt
  deriving DecidableEq, Repr

/-- The three kinds of VCVT (R304). -/
inductive CvtKind where
  | ff (d s : NFC)
  | fi (d : ITy) (s : NFC)
  | intf (d : NFC) (s : ITy)
  deriving DecidableEq, Repr

/-- MX element formats (R92), in the order of FE (R332). -/
inductive MxFmt where
  | e4m3 | e5m2 | e3m2 | e2m3 | e2m1 | mxi8
  deriving DecidableEq, Repr

/-- Shuffle modes (R313). -/
inductive ShflMode where
  | idx | up | down | xor
  deriving DecidableEq, Repr

/-- Reduction operators (R315). -/
inductive RedOpr where
  | add | min | max | and | or | xor
  deriving DecidableEq, Repr

/-- Types of VRED and VSCAN (R315). -/
inductive RedTy where
  | i32 | n32 | i64 | n64 | f32 | f64
  deriving DecidableEq, Repr

/-- Key types of VMERGE (R317). -/
inductive MergeTy where
  | n32 | i32 | f32
  deriving DecidableEq, Repr

/-- Modes of an index register (R318). -/
inductive XMode where
  | off | array | ring | stack
  deriving DecidableEq, Repr

/-- Load sizes (R327). -/
inductive LdSize where
  | u8 | s8 | u16 | s16 | b4 | b8 | b16
  deriving DecidableEq, Repr

/-- Store sizes (R327). -/
inductive StSize where
  | u8 | u16 | b4 | b8 | b16
  deriving DecidableEq, Repr

/-- Atomic operations (R337). -/
inductive AOp where
  | add | min | max | and | or | xor | xch | cas | fadd
  deriving DecidableEq, Repr

/-- Orderings of FENCE (R339). -/
inductive FOrd where
  | acquire | release | acqRel
  deriving DecidableEq, Repr

/-- Transformations of COPY (R344). -/
inductive CopyXf where
  | raw | convert | reduce
  deriving DecidableEq, Repr

/-- Reduce operators of COPY and RECVRED (R344, R475). -/
inductive CopyRed where
  | add | min | max
  deriving DecidableEq, Repr

/-- Compares of WAITSEM (R291). -/
inductive SemCmp where
  | eq | ne | ge | lt
  deriving DecidableEq, Repr

/-- Feature words (R279). -/
inductive FeatWord where
  | feat0 | feat1 | implw
  deriving DecidableEq, Repr

/-- What a LOOP sets (R270). -/
inductive LoopSpec where
  | l0 (cnt : SOp) (e : BitVec 15)
  | l1 (cnt : SOp) (e : BitVec 15)
  | both (c0 : SOp) (e0 : BitVec 15) (c1 : SOp) (e1 : BitVec 15)
  deriving DecidableEq, Repr

/-- Guarded three-operand vector words. -/
structure V3 where
  g : Guard
  d : VOp
  a : VOp
  b : VOp
  deriving DecidableEq, Repr

/-- Guarded two-operand vector words. -/
structure V2 where
  g : Guard
  d : VOp
  a : VOp
  deriving DecidableEq, Repr

/-- Predicate words (R271). -/
structure P3 where
  g : Guard
  pd : Fin 7
  pa : Fin 8
  pb : Fin 8
  deriving DecidableEq, Repr

/-- Scalar three-operand words (R273). -/
structure S3 where
  sd : Fin 96
  sa : SOp
  sb : SOp
  deriving DecidableEq, Repr

/-- Compares into a predicate (R299, R302). -/
structure VC where
  g : Guard
  pd : Fin 7
  a : VOp
  b : VOp
  deriving DecidableEq, Repr

/-- The XM word (R241). -/
structure XM where
  base : SOp
  space : Space
  ord : Ord
  scope : Scope
  nol1 : Bool
  imm : BitVec 14
  deriving DecidableEq, Repr

/-- LD and ST operands beside the size (R327). -/
structure MemArgs where
  g : Guard
  d : VOp
  a : VOp
  uofs : Bool
  nov : Bool
  xm : XM
  deriving DecidableEq, Repr

/-- LDMX and STMX operands (R332). -/
structure MxMemArgs where
  g : Guard
  d : VOp
  a : VOp
  fe : MxFmt
  plane : Fin 4
  xm : XM
  deriving DecidableEq, Repr

/-- ATOM operands (R336). -/
structure AtomArgs where
  g : Guard
  d : VOp
  a : VOp
  b : VOp
  base : SOp
  space : Space
  ord : Ord
  scope : Scope
  aop : AOp
  ty : ITy
  noret : Bool
  uofs : Bool
  nov : Bool
  imm : BitVec 7
  deriving DecidableEq, Repr

/-- COPY fields (R344). -/
structure CopyArgs where
  sa : Fin 96
  sb : SOp
  rel : Bool
  xf : CopyXf
  tr : Bool
  smx : Bool
  dmx : Bool
  sums : Bool
  ssp : Space
  dsp : Space
  redop : CopyRed
  tsp : Bool
  deriving DecidableEq, Repr

/-- MMA fields (R358). -/
structure MmaArgs where
  sa : Fin 96
  sb : Fin 96
  sp : Bool
  nsel : Fin 4
  fa : NFC
  fb : NFC
  chk : Bool
  chkt : Bool
  zc : Bool
  toff : BitVec 11
  deriving DecidableEq, Repr

/-- ATTN fields (R373). -/
structure AttnArgs where
  sa : Fin 96
  fqk : NFC
  fv : NFC
  dsel : Fin 4
  ksrc : Bool
  causal : Bool
  init : Bool
  fin : Bool
  deriving DecidableEq, Repr

/-- KVWALK fields (R402). -/
structure KvWalkArgs where
  sa : SOp
  sb : SOp
  sdst : Fin 96
  dsp : Bool
  cntm1 : BitVec 12
  unc : Bool
  stok : SOp
  tsp : Bool
  deriving DecidableEq, Repr

/-- KVAPPEND fields (R405). -/
structure KvAppendArgs where
  sd : SOp
  sa : SOp
  sb : SOp
  ssrc : Fin 96
  ntm1 : BitVec 7
  ssp : Bool
  stok : SOp
  tsp : Bool
  deriving DecidableEq, Repr

/-- KVCOMMIT fields (R407). -/
structure KvCommitArgs where
  sa : SOp
  sb : SOp
  scope : Scope
  stok : SOp
  tsp : Bool
  deriving DecidableEq, Repr

/-- Operands of the geometric predicates (R380, R381). -/
structure GeoArgs where
  g : Guard
  d : VOp
  a : VOp
  b : VOp
  f32 : Bool
  x : Bool
  sos : Bool
  trapnf : Bool
  pd : Fin 8
  deriving DecidableEq, Repr

/-- COLL.LOAD and COLL.RUN fields (R477). -/
structure CollArgs where
  sa : SOp
  sb : SOp
  slot : Fin 64
  stok : SOp
  tsp : Bool
  rel : Bool
  deriving DecidableEq, Repr

/-- A request for the base die (R166): accept a read of a sector, accept a write-back of a line, or finish the oldest. -/
inductive BdEvent where
  | acceptRead (sector : Nat)
  | acceptWrite (sector : Nat)
  | finish
  deriving DecidableEq, Repr

/-- What a host or another module asks of device memory (R473, R471); a line of another module comes with its side band. -/
inductive MemReq where
  | read (pa n : Nat)
  | write (pa : Nat) (bytes : List Byte)
  | readLine (pa : Nat)
  | writeLine (pa : Nat) (data : BitVec 1024) (side : BitVec 64)
  | atomic (pa : Nat) (op : AOp) (ty : ITy) (data cmp : BitVec 64)
  deriving DecidableEq, Repr

/-- Every row of the opcode table: instruction words first, then device events. -/
inductive Instr where
  | nop
  | bra (g : Guard) (off : BitVec 20)
  | call (g : Guard) (off : BitVec 20)
  | ret (g : Guard) (a : VOp)
  | brx (g : Guard) (a : VOp)
  | split (k : Fin 16)
  | join (k : Fin 16)
  | waitk (k : Fin 16)
  | reform (g : Guard) (a : VOp) (n : BitVec 5)
  | loop (l : LoopSpec)
  | bar
  | convene
  | disband
  | exit (g : Guard)
  | pand (x : P3)
  | por (x : P3)
  | pxor (x : P3)
  | pandn (x : P3)
  | trap (code : BitVec 17)
  | sadd (x : S3)
  | ssub (x : S3)
  | sand (x : S3)
  | sor (x : S3)
  | sxor (x : S3)
  | sshl (x : S3)
  | sshr (x : S3)
  | ssra (x : S3)
  | smul (x : S3)
  | smulh (x : S3)
  | smulhn (x : S3)
  | smin (x : S3)
  | sminn (x : S3)
  | smax (x : S3)
  | smaxn (x : S3)
  | scmp (c : SCond) (x : S3)
  | sdiv (x : S3)
  | sdivn (x : S3)
  | srem (x : S3)
  | sremn (x : S3)
  | sclz (sd : Fin 96) (sa : SOp)
  | spopc (sd : Fin 96) (sa : SOp)
  | sbrev (sd : Fin 96) (sa : SOp)
  | saddi (sd : Fin 96) (imm : BitVec 17)
  | smovi (sd : Fin 96) (imm : BitVec 17)
  | sshin (sd : Fin 96) (imm : BitVec 17)
  | rte
  | vadd (t : ITy) (x : V3)
  | vsub (t : ITy) (x : V3)
  | vmul (t : ITy) (x : V3)
  | vmulh (t : ITy) (x : V3)
  | vaddsat (t : ITy) (x : V3)
  | vsubsat (t : ITy) (x : V3)
  | vmin (t : ITy) (x : V3)
  | vmax (t : ITy) (x : V3)
  | vand (t : BTy) (x : V3)
  | vor (t : BTy) (x : V3)
  | vxor (t : BTy) (x : V3)
  | vshl (t : ITy) (x : V3)
  | vshr (t : ITy) (x : V3)
  | vcmp (t : ITy) (c : Cond) (x : VC)
  | vmov (t : BTy) (x : V2)
  | vclz (x : V2)
  | vpopc (x : V2)
  | vbrev (x : V2)
  | vaddi (x : V2) (imm : BitVec 8)
  | vshli (x : V2) (n : BitVec 5)
  | vshri (x : V2) (n : BitVec 5)
  | vsrai (x : V2) (n : BitVec 5)
  | vmovi (g : Guard) (d : VOp) (imm : BitVec 8)
  | vbcast (t : BTy) (g : Guard) (d : VOp) (s : SOp)
  | vreadl (g : Guard) (sd : Fin 96) (a : VOp) (lane : Fin 128)
  | vfadd (t : FTy) (x : V3)
  | vfsub (t : FTy) (x : V3)
  | vfmul (t : FTy) (x : V3)
  | vfma (t : FTy) (x : V3)
  | vfmin (t : FTy) (x : V3)
  | vfmax (t : FTy) (x : V3)
  | vfcmp (t : FTy) (c : FCond) (x : VC)
  | vfdiv (t : FTy) (x : V3)
  | vfsqrt (t : FTy) (x : V2)
  | vfopx (op : FOp) (t : FTy) (rm : RM) (sids : SOp) (x : V3)
  | vcvt (k : CvtKind) (psel : Fin 4) (rm : RM) (sids : SOp) (x : V2)
  | mxmax (x : V2)
  | mxscale (f : MxFmt) (p : Fin 4) (x : V2)
  | mxq (f : MxFmt) (p : Fin 4) (rm : RM) (sids : SOp) (x : V3)
  | mxdq (f : MxFmt) (p : Fin 4) (x : V3)
  | vshfl (m : ShflMode) (x : V3)
  | vred (o : RedOpr) (t : RedTy) (segp : Fin 8) (x : V2)
  | vscan (o : RedOpr) (t : RedTy) (segp : Fin 8) (exc : Bool) (x : V2)
  | vballot (g : Guard) (sd : Fin 96) (p : Fin 8)
  | vmerge (t : MergeTy) (dh : VOp) (org : Bool) (x : V3)
  | vid (lane : Bool) (g : Guard) (d : VOp)
  | xset (j : Fin 8) (mode : XMode) (stp : BitVec 4) (zi : Bool) (sa sb : SOp)
  | xldv (g : Guard) (j : Fin 8) (a : VOp)
  | xgetv (g : Guard) (d : VOp) (j : Fin 8) (desc : Bool)
  | rgrow (t : BitVec 9)
  | rshrink (t : BitVec 9)
  | vclmul (hi : Bool) (x : V3)
  | vmad24 (uns : Bool) (x : V3)
  | ld (sz : LdSize) (x : MemArgs)
  | st (sz : StSize) (x : MemArgs)
  | atom (x : AtomArgs)
  | ldmx (x : MxMemArgs)
  | stmx (x : MxMemArgs)
  | fence (o : FOrd) (sc : Scope)
  | prefetchL2 (sa sb : SOp) (stok : Fin 96) (tsp : Bool)
  | twait (sd : Fin 96) (sa : SOp) (tsp : Bool)
  | ifence
  | copy (x : CopyArgs)
  | collLoad (x : CollArgs)
  | collRun (x : CollArgs)
  | mma (x : MmaArgs)
  | compress (sa sb : Fin 96) (f : NFC)
  | accz (toff : BitVec 11) (nsel : Fin 4)
  | accmvOut (sa : Fin 96) (toff : BitVec 11) (nsel : Fin 4) (df : NFC)
  | accmvIn (sa : Fin 96) (toff : BitVec 11) (nsel : Fin 4) (df : NFC)
  | attn (x : AttnArgs)
  | kvwalk (x : KvWalkArgs)
  | kvappend (x : KvAppendArgs)
  | kvcommit (x : KvCommitArgs)
  | geoOrient2 (x : GeoArgs)
  | geoOrient3 (x : GeoArgs)
  | geoIncirc (x : GeoArgs)
  | geoInsphr (x : GeoArgs)
  | geoSegx (x : GeoArgs)
  | launch (sa sb : SOp) (cfirst : BitVec 5) (ccnt : BitVec 6)
  | waitsem (c : SemCmp) (sa sb : SOp)
  | signalsemSet (sa sb : SOp)
  | signalsemAdd (sa sb : SOp)
  | event (irq : Bool) (sa sb : SOp)
  | csrr (sd : Fin 96) (num : BitVec 12)
  | csrw (ss : SOp) (num : BitVec 12)
  | featq (sd : Fin 96) (f : FeatWord)
  | tlbinvPage (sa sb : SOp)
  | tlbinvCtx
  | tlbinvAll
  -- device events (no encoding)
  | instructionFetch (who lane : Nat)
  | asyncTrapDelivery (who lane : Nat)
  | reformFile (who : Nat)
  | reformBinAge (core bin : Nat)
  | reformBinIssue (core : Nat)
  | blockGrant (core : Nat)
  | growthDeadlock (core : Nat)
  | readmission (core : Nat)
  | blockFill (who blk : Nat)
  | blockWriteback (core idx : Nat)
  | warpRetire (who : Nat)
  | gridRetire (grid : Nat)
  | launchDescriptorRead (op : Nat)
  | launchAccept (op : Nat)
  | pageWalk (req : Nat)
  | faultRecordPost (cluster : Nat)
  | frespReplay (cluster fid : Nat)
  | frespNomap (cluster fid : Nat)
  | frespProt (cluster fid : Nat)
  | fqtailWrite (cluster : Nat) (v : W64)
  | evqtailWrite (stream : Nat) (v : W64)
  | errtailWrite (cluster : Nat) (v : W64)
  | tlbInvalidationComplete (inv : Nat)
  | ldComplete (op : Nat)
  | storePerformed (op : Nat)
  | atomComplete (op : Nat)
  | l1Fill (core idx : Nat)
  | heldInvalidate (core : Nat)
  | baseDieRequest (e : BdEvent)
  | hostMemRequest (r : MemReq)
  | ualRemoteRequest (r : MemReq)
  | ualRequestTimeout (op : Nat)
  | ualPortDown (port : Fin 18)
  | ualPortUp (port : Fin 18)
  | cxcmdLoadslot
  | slotGenerationInstall (slot : Fin 64)
  | cxcmdRecode
  | cxcmdDump
  | copyComplete (op : Nat)
  | prefetchComplete (op : Nat)
  | twaitPoll (who : Nat)
  | matrixOpComplete (op : Nat)
  | attnComplete (op : Nat)
  | emulatedOpComplete (cluster : Nat)
  | kvWordComplete (op : Nat)
  | kvcommitWrite (op : Nat)
  | kvLockRetry (op : Nat)
  | geoStageA (core : Nat)
  | geoExactLane (core : Nat) (op lane : Nat)
  | geoComplete (op : Nat)
  | collLoadExecute (slot : Fin 64)
  | collRunStart (slot : Fin 64)
  | creditArrival (slot : Fin 64) (src : Nat) (stp chunk : Nat) (seq : Nat)
  | chunkArrival (slot : Fin 64) (src : Nat) (stp chunk : Nat) (seq : Nat) (bitmap : List Bool) (lines : List (BitVec 1024 × W64 × BitVec 5))
  | chunkAckArrival (slot : Fin 64) (src : Nat) (stp chunk : Nat) (seq : Nat)
  | datapathPiece (core : Nat)
  | collSignal (slot : Fin 64) (node : Nat)
  | collWaitPoll (slot : Fin 64) (node : Nat)
  | chunkRetransmit (slot : Fin 64) (node : Nat)
  | chunkAbandon (slot : Fin 64) (node : Nat)
  | collRunTimeout (slot : Fin 64)
  | dispatchStep (cluster : Nat)
  | dispatchReserveTimeout (cluster : Nat)
  | partitionChange (core : Nat)
  | preemptBoundary (wg : Nat)
  | preemptHandover (wg : Nat)
  | saveRecordComplete (wg : Nat)
  | warpBump (who : Nat)
  | strctlGo (stream : Nat)
  | strctlHalt (stream : Nat)
  | waitsemPoll (stream : Nat)
  | eventRecordPost (stream : Nat)
  | tlbireqPage
  | tlbireqContext
  | tlbireqAll
  | ctxcmdSuspend
  | ctxcmdResume
  | ctxcmdEnd
  | attcmdQuote
  | attcmdDump
  | bootctlGo
  | bootctlWarm
  | coldReset
  | warmWritebackDone (failed : List Nat)
  | bootSelftestDone (ok : Bool)
  | imageVerified
  | bootZeroingDone
  | bootReady
  | powerWindow (avg : BitVec 12) (junction : Nat)
  | thermalTrip
  | registerWrite (off : Nat) (n : Nat) (v : W64)
  | cxlCacheSnoop (line : Nat) (data : Option (BitVec 1024))
  | linkLevelRetry (port : Fin 18)
  deriving DecidableEq, Repr

end Sys2Proof
end

