-- ==== Sys2Proof/Config.lean ====
section
/-! DEFINITION. What one implementation fixes and the values the spec leaves open. A constant with a body is stated by
the spec for the ADS-ULC48; an `opaque` constant has no body, so nothing can be proved of its value. -/

namespace Sys2Proof.Config

/-- R1: cores, cores per cluster, clusters, warp slots per core. -/
def cores : Nat := 256
def coresPerCluster : Nat := 8
def clusters : Nat := 32
def warpSlots : Nat := 64
def wgSlots : Nat := 64
def streamsPerCluster : Nat := 16

/-- IMPLW.STEP of the shipping part, A1 (R255, R283). -/
def stepping : BitVec 8 := 0x01#8
/-- The stepping that executes the experimental word VCLMUL (R257). -/
def vclmulStepping : BitVec 8 := 0x10#8

/-- The device's own FEAT0 (R281). -/
def feat0 : BitVec 64 := 0x0100000000007FFF#64
/-- The device's own FEAT1 (R282): CLUST 32, PRIO 32, NEST 10, COH 8, WARPS 64, WINB 32. -/
def feat1 : BitVec 64 := 0x0000002020A84020#64

/-- TLB capacities (R115). -/
def coreTlbEntries : Nat := 256
def clusterTlbEntries : Nat := 8192
def walkCacheEntries : Nat := 512
/-- L1: 256 KiB of 128-byte lines. -/
def l1Lines : Nat := 2048
/-- An L2 slice: 4 MiB of 128-byte lines (R1, R88). -/
def l2SliceLines : Nat := 32768
/-- Outstanding memory requests of a core (R1, R82). -/
def requestSlots : Nat := 2048

/-- A value the spec leaves open, drawn with a counter of the state (log entry 6). -/
opaque freeWord : Nat → BitVec 64
/-- Which of `n` places an implementation picks where the spec says the choice is not architectural (log entry 6). -/
opaque freePick : Nat → Nat → Nat
/-- Where a base die places the stored sectors of a frame: the offset of a sector under one draw (R162, log entry 87). -/
opaque placement : Nat → Nat → Nat
/-- The page size a prefetch counts by at an address of a context that no region describes (R102, log entry 16). -/
opaque openPageSize : Nat → Nat → Nat

/-- SHAKE256 with an output of the given number of bytes (R515); the spec names it and does not define it. -/
opaque shake256 : List (BitVec 8) → Nat → List (BitVec 8)
/-- Falcon-1024 verification of a signature over a message under a key (R515). -/
opaque falconVerify : List (BitVec 8) → List (BitVec 8) → List (BitVec 8) → Bool
/-- A Falcon-1024 signature made with the module's identity key (R516). -/
opaque falconSign : List (BitVec 8) → List (BitVec 8)
/-- The identity key's certificate (R516). -/
opaque certificate : List (BitVec 8)
/-- The key digest and the minimum SVN fused in the security controller (R515). -/
opaque fusedDigest : List (BitVec 8)
opaque fusedSvn : Nat

end Sys2Proof.Config
end

