-- ==== Sys2Proof/WellFormed.lean ====
section
/-! DEFINITION. Which decoded instructions the encodings admit (R241 to R245 and each instruction's description).
The decoder yields only these; an event has no encoding, and its well-formedness is the range of its unit numbers. -/

namespace Sys2Proof

/-- R243: the reserved guard is the negation of p7. -/
def Guard.wf (g : Guard) : Bool := !(g.neg && g.p == 7)

/-- R244: a direct pair code is even. -/
def VOp.pairOk : VOp → Bool
  | .dir n => n.val % 2 == 0
  | .ind _ => true

/-- R327: a direct quad code is a multiple of 4. -/
def VOp.quadOk : VOp → Bool
  | .dir n => n.val % 4 == 0
  | .ind _ => true

def ITy.is64 : ITy → Bool
  | .i64 | .n64 => true
  | _ => false

def BTy.is64 : BTy → Bool
  | .b64 => true
  | .b32 => false

def FTy.is64 : FTy → Bool
  | .f64 => true
  | _ => false

def RedTy.is64 : RedTy → Bool
  | .i64 | .n64 | .f64 => true
  | _ => false

def RedTy.isFloat : RedTy → Bool
  | .f32 | .f64 => true
  | _ => false

def VOp.okFor (wide : Bool) (v : VOp) : Bool := !wide || v.pairOk

def V3.wf (wide : Bool) (x : V3) : Bool :=
  x.g.wf && x.d.okFor wide && x.a.okFor wide && x.b.okFor wide

def V2.wf (wide : Bool) (x : V2) : Bool := x.g.wf && x.d.okFor wide && x.a.okFor wide

def VC.wf (wide : Bool) (x : VC) : Bool := x.g.wf && x.a.okFor wide && x.b.okFor wide

/-- Bits of a number format (R176 to R183). -/
def NFC.width : NFC → Nat
  | .f64 => 64
  | .f32 => 32
  | .bf16 | .f16 => 16
  | _ => 8

def ITy.width (t : ITy) : Nat := if t.is64 then 64 else 32

def CvtKind.widthD : CvtKind → Nat
  | .ff d _ | .intf d _ => d.width
  | .fi d _ => d.width

def CvtKind.widthS : CvtKind → Nat
  | .ff _ s | .fi _ s => s.width
  | .intf _ s => s.width

/-- R304: PSEL below 2 with a 16-bit operand, below 4 with narrow operands only, 0 otherwise. -/
def CvtKind.pselOk (k : CvtKind) (p : Fin 4) : Bool :=
  if k.widthD == 16 || k.widthS == 16 then p.val < 2
  else if k.widthD == 8 || k.widthS == 8 then true
  else p.val == 0

/-- R241: SIDS is 0 unless RM is SR. -/
def sidsOk (rm : RM) (s : SOp) : Bool := rm == .sr || s == .reg 0

/-- R241: SCOPE is 0 when ORD is 0. -/
def ordOk (o : Ord) (sc : Scope) : Bool := o != .relaxed || sc == .lane

/-- R327, R332: what XM may hold for a load (`st = false`) or a store. -/
def XM.wf (st : Bool) (x : XM) : Bool :=
  (x.ord == .relaxed || x.ord == (if st then .release else .acquire)) && ordOk x.ord x.scope &&
  (!x.nol1 || x.space == .g) && (x.ord == .relaxed || x.space != .rw)

def Space.isMx : Space → Bool
  | .g | .sp | .cl => true
  | _ => false

/-- R402, R477: a field that names a scalar register or, by code 96, nothing or zero. -/
def SOp.regOrZero : SOp → Bool
  | .reg _ => true
  | .special .zero => true
  | _ => false

def SOp.evenReg (hi : Nat) : SOp → Bool
  | .reg n => n.val % 2 == 0 && n.val ≤ hi
  | _ => false

def evenTo (hi : Nat) (n : Fin 96) : Bool := n.val % 2 == 0 && n.val ≤ hi

def MemArgs.wf (st : Bool) (wide quad : Bool) (x : MemArgs) : Bool :=
  x.g.wf && x.d.okFor wide && (!quad || x.d.quadOk) && (!x.nov || x.a == .dir 0) && x.xm.wf st

def AtomArgs.wf (x : AtomArgs) : Bool :=
  x.g.wf && x.d.okFor x.ty.is64 && x.b.okFor x.ty.is64 && (!x.nov || x.a == .dir 0) &&
  x.space.isMx && ordOk x.ord x.scope &&
  (!x.noret || x.aop == .cas || x.d == .dir 0) &&
  (x.aop != .fadd || x.ty == .i32 || x.ty == .i64)

def MxMemArgs.wf (st : Bool) (x : MxMemArgs) : Bool :=
  x.g.wf && x.d.pairOk && x.xm.wf st && x.xm.space.isMx

def CopyArgs.wf (x : CopyArgs) : Bool :=
  evenTo 88 x.sa && x.sb.regOrZero && (!x.tsp || x.sb != .special .zero) &&
  (x.redop == .add || x.xf == .reduce) &&
  (x.xf != .raw || (!x.tr && !x.smx && !x.dmx && !x.sums)) && (!x.sums || x.xf == .convert)

def GeoArgs.wf (x : GeoArgs) : Bool :=
  x.g.wf && (!x.sos || x.x) && (x.sos || x.b == .dir 0) && (x.f32 || x.a.pairOk)

/-- The instruction words; every other constructor is a device event. -/
def Instr.isWord : Instr → Bool
  | .instructionFetch .. | .asyncTrapDelivery .. | .reformFile .. | .reformBinAge .. | .reformBinIssue ..
  | .blockGrant .. | .growthDeadlock .. | .readmission .. | .blockFill .. | .blockWriteback ..
  | .warpRetire .. | .gridRetire .. | .launchDescriptorRead .. | .launchAccept .. | .pageWalk ..
  | .faultRecordPost .. | .frespReplay .. | .frespNomap .. | .frespProt .. | .fqtailWrite ..
  | .evqtailWrite .. | .errtailWrite .. | .tlbInvalidationComplete .. | .ldComplete .. | .storePerformed ..
  | .atomComplete .. | .l1Fill .. | .heldInvalidate .. | .baseDieRequest .. | .hostMemRequest ..
  | .ualRemoteRequest .. | .ualRequestTimeout .. | .ualPortDown .. | .ualPortUp .. | .cxcmdLoadslot
  | .slotGenerationInstall .. | .cxcmdRecode | .cxcmdDump | .copyComplete .. | .prefetchComplete ..
  | .twaitPoll .. | .matrixOpComplete .. | .attnComplete .. | .emulatedOpComplete .. | .kvWordComplete ..
  | .kvcommitWrite .. | .kvLockRetry .. | .geoStageA .. | .geoExactLane .. | .geoComplete ..
  | .collLoadExecute .. | .collRunStart .. | .creditArrival .. | .chunkArrival .. | .chunkAckArrival ..
  | .datapathPiece .. | .collSignal .. | .collWaitPoll .. | .chunkRetransmit .. | .chunkAbandon ..
  | .collRunTimeout .. | .dispatchStep .. | .dispatchReserveTimeout .. | .partitionChange ..
  | .preemptBoundary .. | .preemptHandover .. | .saveRecordComplete .. | .warpBump .. | .strctlGo ..
  | .strctlHalt .. | .waitsemPoll .. | .eventRecordPost .. | .tlbireqPage | .tlbireqContext | .tlbireqAll
  | .ctxcmdSuspend | .ctxcmdResume | .ctxcmdEnd | .attcmdQuote | .attcmdDump | .bootctlGo | .bootctlWarm
  | .coldReset | .warmWritebackDone .. | .bootSelftestDone .. | .imageVerified | .bootZeroingDone
  | .bootReady | .powerWindow .. | .thermalTrip | .registerWrite .. | .cxlCacheSnoop .. | .linkLevelRetry .. => false
  | _ => true

/-- R251: the instructions with an extension word. -/
def Instr.wide : Instr → Bool
  | .loop _ | .vfopx .. | .vcvt .. | .mxscale .. | .mxq .. | .mxdq .. | .vred .. | .vscan ..
  | .vmerge .. | .xset .. | .ld .. | .st .. | .atom _ | .ldmx _ | .stmx _ | .prefetchL2 ..
  | .copy _ | .collLoad _ | .collRun _ | .mma _ | .compress .. | .accz .. | .accmvOut .. | .accmvIn ..
  | .attn _ | .kvwalk _ | .kvappend _ | .kvcommit _
  | .geoOrient2 _ | .geoOrient3 _ | .geoIncirc _ | .geoInsphr _ | .geoSegx _
  | .launch .. | .waitsem .. | .signalsemSet .. | .signalsemAdd .. => true
  | _ => false

/-- The checks of an instruction word that need nothing but the word (R242 to R245 and each description). -/
def Instr.wf : Instr → Bool
  | .bra g _ | .call g _ | .exit g => g.wf
  | .ret g a | .brx g a => g.wf && a.pairOk
  | .reform g _ n => g.wf && n.toNat ≤ 16
  | .loop (.l0 _ e) | .loop (.l1 _ e) => e != 0
  | .loop (.both _ e0 _ e1) => e0 != 0 && e1 != 0
  | .pand x | .por x | .pxor x | .pandn x => x.g.wf
  | .vadd t x | .vsub t x | .vmul t x | .vmulh t x | .vaddsat t x | .vsubsat t x | .vmin t x | .vmax t x
  | .vshl t x | .vshr t x => x.wf t.is64
  | .vand t x | .vor t x | .vxor t x => x.wf t.is64
  | .vcmp t _ x => x.wf t.is64
  | .vmov t x => x.wf t.is64
  | .vclz x | .vpopc x | .vbrev x | .vaddi x _ | .vshli x _ | .vshri x _ | .vsrai x _ => x.wf false
  | .vmovi g _ _ => g.wf
  | .vbcast t g d _ => g.wf && d.okFor t.is64
  | .vreadl g _ _ _ => g.wf
  | .vfadd t x | .vfsub t x | .vfmul t x | .vfma t x | .vfmin t x | .vfmax t x | .vfdiv t x => x.wf t.is64
  | .vfcmp t _ x => x.wf t.is64
  | .vfsqrt t x => x.wf t.is64
  | .vfopx op t rm s x => x.wf t.is64 && (op != .sqrt || x.b == .dir 0) && sidsOk rm s
  | .vcvt k p rm s x =>
      x.g.wf && x.d.okFor (k.widthD == 64) && x.a.okFor (k.widthS == 64) && k.pselOk p && sidsOk rm s
  | .mxmax x => x.wf false
  | .mxscale _ _ x => x.wf false
  | .mxq _ _ rm s x => x.wf false && sidsOk rm s
  | .mxdq _ _ x => x.wf false
  | .vshfl _ x => x.wf false
  | .vred o t _ x => x.wf t.is64 && (!t.isFloat || o == .add || o == .min || o == .max)
  | .vscan o t _ _ x => x.wf t.is64 && (!t.isFloat || o == .add || o == .min || o == .max)
  | .vballot g sd _ => g.wf && sd.val % 2 == 0
  | .vmerge _ _ _ x => x.wf false
  | .vid _ g _ => g.wf
  | .xset _ m stp _ _ _ => (m != .off && m != .stack) || stp == 0
  | .xldv g _ _ => g.wf
  | .xgetv g _ _ _ => g.wf
  | .vclmul _ x | .vmad24 _ x => x.wf false
  | .ld sz x => x.wf false (sz == .b8) (sz == .b16)
  | .st sz x => x.wf true (sz == .b8) (sz == .b16)
  | .atom x => x.wf
  | .ldmx x => x.wf false
  | .stmx x => x.wf true
  | .copy x => x.wf
  | .collLoad x => x.stok.regOrZero && !x.rel
  | .collRun x => x.stok.regOrZero && x.sa.evenReg 88
  | .mma x => evenTo 94 x.sa && evenTo 94 x.sb && (!x.chkt || x.chk)
  | .compress sa sb _ => evenTo 94 sa && evenTo 94 sb
  | .accmvOut sa _ _ _ | .accmvIn sa _ _ _ => evenTo 94 sa
  | .attn x => evenTo 88 x.sa
  | .kvwalk x => x.sa.regOrZero && x.sb.regOrZero && x.stok.regOrZero
  | .kvappend x => x.sd.regOrZero && x.sa.regOrZero && x.sb.regOrZero && x.stok.regOrZero
  | .kvcommit x =>
      x.sa.regOrZero && x.sb.regOrZero && x.stok.regOrZero && x.scope != .lane && x.scope != .warp
  | .geoOrient2 x | .geoOrient3 x | .geoIncirc x | .geoInsphr x | .geoSegx x => x.wf
  | .launch _ _ _ c => 1 ≤ c.toNat && c.toNat ≤ 32
  | .reformBinAge c _ | .reformBinIssue c | .blockGrant c | .growthDeadlock c | .readmission c
  | .blockWriteback c _ | .l1Fill c _ | .heldInvalidate c | .geoStageA c | .geoExactLane c _ _
  | .datapathPiece c | .partitionChange c => c < 256
  | .faultRecordPost c | .frespReplay c _ | .frespNomap c _ | .frespProt c _ | .fqtailWrite c _
  | .errtailWrite c _ | .emulatedOpComplete c | .dispatchStep c | .dispatchReserveTimeout c => c < 32
  | .evqtailWrite j _ | .strctlGo j | .strctlHalt j | .waitsemPoll j | .eventRecordPost j => j < 512
  | _ => true

end Sys2Proof
end

