-- ==== Sys2Proof/Decode.lean ====
section
/-! DEFINITION. Packets and instruction words: the decoder, total on any words and rejecting by name, and after it the
encoder, both from the encoding tables of the spec (R234 to R258 and each instruction's description). -/

namespace Sys2Proof

/-- Why a word does not decode; every one is an ILLINS at issue (R254). -/
inductive DecodeError where
  | opcode (op : Nat)
  | subop
  | unusedField
  | reservedValue
  | reservedGuard
  | reservedOperand
  | illFormed
  | needsExtension
  deriving DecidableEq, Repr

abbrev Dec := Except DecodeError

/-- A field of a word: `n` bits from bit `lo`. -/
def fld (w : W32) (lo n : Nat) : BitVec n := w.extractLsb' lo n

def bit (w : W32) (k : Nat) : Bool := w.getLsbD k

/-- Refuse with `e` unless `c`. -/
def req (c : Bool) (e : DecodeError) : Dec Unit := if c then .ok () else .error e

/-- R242: an unused field is zero. -/
def zeros (w : W32) (lo n : Nat) : Dec Unit := req (fld w lo n == 0) .unusedField

/-! ### Operand codes -/

def Guard.ofBits (b : BitVec 4) : Guard := ⟨b.getLsbD 3, ⟨(b.extractLsb' 0 3).toNat, by omega⟩⟩

def VOp.ofCode (c : BitVec 6) : VOp :=
  if h : c.toNat < 56 then .dir ⟨c.toNat, h⟩ else .ind ⟨c.toNat - 56, by omega⟩

def SpecialReg.ofIndex : Nat → SpecialReg
  | 0 => .zero | 1 => .warpn | 2 => .nwarp | 3 => .depth | 4 => .wgx | 5 => .wgy | 6 => .wgz
  | 7 => .ngx | 8 => .ngy | 9 => .ngz | 10 => .crank | 11 => .csize | 12 => .qsize | 13 => .qseat
  | 14 => .core | _ => .cycle

/-- A scalar source code (R245): 112 to 127 are reserved. -/
def SOp.ofCode (c : BitVec 7) : Dec SOp :=
  if h : c.toNat < 96 then .ok (.reg ⟨c.toNat, h⟩)
  else if c.toNat < 112 then .ok (.special (SpecialReg.ofIndex (c.toNat - 96)))
  else .error .reservedOperand

/-- A scalar destination code (R245). -/
def sdOfCode (c : BitVec 7) : Dec (Fin 96) :=
  if h : c.toNat < 96 then .ok ⟨c.toNat, h⟩ else .error .reservedOperand

def predOfCode (c : BitVec 3) : Dec (Fin 7) :=
  if h : c.toNat < 7 then .ok ⟨c.toNat, h⟩ else .error .reservedOperand

def fin3 (c : BitVec 3) : Fin 8 := ⟨c.toNat, by omega⟩
def fin2 (c : BitVec 2) : Fin 4 := ⟨c.toNat, by omega⟩
def fin4 (c : BitVec 4) : Fin 16 := ⟨c.toNat, by omega⟩
def fin6 (c : BitVec 6) : Fin 64 := ⟨c.toNat, by omega⟩

def NFC.ofCode (c : BitVec 6) : Dec NFC :=
  match c.toNat with
  | 0 => .ok .f32 | 1 => .ok .f64 | 2 => .ok .bf16 | 3 => .ok .f16 | 4 => .ok .e4m3 | 5 => .ok .e5m2
  | 6 => .ok .e3m2 | 7 => .ok .e2m3 | 8 => .ok .e2m1 | 9 => .ok .mxi8
  | 17 => .ok (.b8s 0) | 18 => .ok (.b8s 1) | 19 => .ok (.b8s 2) | 20 => .ok (.b8s 3)
  | 21 => .ok (.b8s 4) | 22 => .ok (.b8s 5) | 23 => .ok (.b8s 6)
  | 25 => .ok (.b8x 0) | 26 => .ok (.b8x 1) | 27 => .ok (.b8x 2) | 28 => .ok (.b8x 3)
  | 29 => .ok (.b8x 4) | 30 => .ok (.b8x 5) | 31 => .ok (.b8x 6)
  | 33 => .ok (.b8z 0) | 34 => .ok (.b8z 1) | 35 => .ok (.b8z 2) | 36 => .ok (.b8z 3)
  | 37 => .ok (.b8z 4) | 38 => .ok (.b8z 5) | 39 => .ok (.b8z 6)
  | _ => .error .reservedValue

def ITy.ofCode (c : BitVec 2) : ITy :=
  match c.toNat with
  | 0 => .i32 | 1 => .n32 | 2 => .i64 | _ => .n64

/-- The integer type codes of VCVT's NFC fields (R241). -/
def ITy.ofCode6 (c : BitVec 6) : Dec ITy :=
  if c.toNat < 4 then .ok (ITy.ofCode (c.extractLsb' 0 2)) else .error .reservedValue

def BTy.ofCode (c : BitVec 2) : Dec BTy :=
  match c.toNat with
  | 0 => .ok .b32 | 2 => .ok .b64 | _ => .error .subop

def FTy.ofCode (c : BitVec 2) : FTy :=
  match c.toNat with
  | 0 => .f32 | 1 => .f64 | 2 => .bf16 | _ => .f16

def FTy.ofNfc (c : BitVec 6) : Dec FTy :=
  if c.toNat < 4 then .ok (FTy.ofCode (c.extractLsb' 0 2)) else .error .reservedValue

def RM.ofCode (c : BitVec 3) : Dec RM :=
  match c.toNat with
  | 0 => .ok .rne | 1 => .ok .rtz | 2 => .ok .rup | 3 => .ok .rdn | 4 => .ok .sr
  | _ => .error .reservedValue

def Space.ofCode (c : BitVec 3) : Dec Space :=
  match c.toNat with
  | 0 => .ok .g | 1 => .ok .sp | 2 => .ok .cl | 3 => .ok .rw | 4 => .ok .ac
  | _ => .error .reservedValue

def Ord.ofCode (c : BitVec 2) : Ord :=
  match c.toNat with
  | 0 => .relaxed | 1 => .acquire | 2 => .release | _ => .acqRel

def FOrd.ofCode (c : BitVec 2) : Dec FOrd :=
  match c.toNat with
  | 1 => .ok .acquire | 2 => .ok .release | 3 => .ok .acqRel | _ => .error .reservedValue

def Scope.ofCode (c : BitVec 3) : Dec Scope :=
  match c.toNat with
  | 0 => .ok .lane | 1 => .ok .warp | 2 => .ok .workgroup | 3 => .ok .cluster | 4 => .ok .device
  | 5 => .ok .system | _ => .error .reservedValue

def Cond.ofCode (c : BitVec 3) : Dec Cond :=
  match c.toNat with
  | 0 => .ok .eq | 1 => .ok .ne | 2 => .ok .lt | 3 => .ok .le | 4 => .ok .gt | 5 => .ok .ge
  | _ => .error .reservedValue

def FCond.ofCode (c : BitVec 3) : Dec FCond :=
  if c.toNat = 6 then .ok .un
  else match Cond.ofCode c with
    | .ok x => .ok (.ord x)
    | .error e => .error e

def MxFmt.ofFe (c : BitVec 3) : Dec MxFmt :=
  match c.toNat with
  | 0 => .ok .e4m3 | 1 => .ok .e5m2 | 2 => .ok .e3m2 | 3 => .ok .e2m3 | 4 => .ok .e2m1 | 5 => .ok .mxi8
  | _ => .error .reservedValue

def MxFmt.ofNfc (c : BitVec 6) : Dec MxFmt :=
  match c.toNat with
  | 4 => .ok .e4m3 | 5 => .ok .e5m2 | 6 => .ok .e3m2 | 7 => .ok .e2m3 | 8 => .ok .e2m1 | 9 => .ok .mxi8
  | _ => .error .reservedValue

/-! ### Decoders by format -/

def guardOf (w : W32) : Guard := Guard.ofBits (fld w 20 4)
def vdOf (w : W32) : VOp := VOp.ofCode (fld w 14 6)
def vaOf (w : W32) : VOp := VOp.ofCode (fld w 8 6)
def vbOf (w : W32) : VOp := VOp.ofCode (fld w 2 6)
def mOf (w : W32) : BitVec 2 := fld w 0 2
def v3Of (w : W32) : V3 := ⟨guardOf w, vdOf w, vaOf w, vbOf w⟩
def v2Of (w : W32) : V2 := ⟨guardOf w, vdOf w, vaOf w⟩
def imm17Of (w : W32) : BitVec 17 := fld w 0 17

def decV3I (f : ITy → V3 → Instr) (w : W32) : Dec Instr := .ok (f (ITy.ofCode (mOf w)) (v3Of w))

def decV3B (f : BTy → V3 → Instr) (w : W32) : Dec Instr := do
  let t ← BTy.ofCode (mOf w)
  .ok (f t (v3Of w))

def decV3F (f : FTy → V3 → Instr) (w : W32) : Dec Instr := .ok (f (FTy.ofCode (mOf w)) (v3Of w))

/-- S3 with operation chosen by m (R273). -/
def decS3 (w : W32) (f : S3 → Instr) : Dec Instr := do
  let sd ← sdOfCode (fld w 17 7)
  let sa ← SOp.ofCode (fld w 10 7)
  let sb ← SOp.ofCode (fld w 3 7)
  .ok (f ⟨sd, sa, sb⟩)

def dec10 (w : W32) : Dec Instr :=
  match (fld w 0 3).toNat with
  | 0 => decS3 w .sadd | 1 => decS3 w .ssub | 2 => decS3 w .sand | 3 => decS3 w .sor
  | 4 => decS3 w .sxor | 5 => decS3 w .sshl | 6 => decS3 w .sshr | _ => decS3 w .ssra

def dec11 (w : W32) : Dec Instr :=
  match (fld w 0 3).toNat with
  | 0 => decS3 w .smul | 1 => decS3 w .smulh | 2 => decS3 w .smulhn | 3 => decS3 w .smin
  | 4 => decS3 w .sminn | 5 => decS3 w .smax | 6 => decS3 w .smaxn | _ => .error .subop

def dec12 (w : W32) : Dec Instr :=
  match (fld w 0 3).toNat with
  | 0 => decS3 w (.scmp .eq) | 1 => decS3 w (.scmp .ne) | 2 => decS3 w (.scmp .lt)
  | 3 => decS3 w (.scmp .ltn) | 4 => decS3 w (.scmp .ge) | 5 => decS3 w (.scmp .gen)
  | _ => .error .subop

def dec13 (w : W32) : Dec Instr :=
  match (fld w 0 3).toNat with
  | 0 => decS3 w .sdiv | 1 => decS3 w .sdivn | 2 => decS3 w .srem | 3 => decS3 w .sremn
  | _ => .error .subop

/-- S3 with sb = 96 (R273). -/
def dec14 (w : W32) : Dec Instr := do
  let sd ← sdOfCode (fld w 17 7)
  let sa ← SOp.ofCode (fld w 10 7)
  req (fld w 3 7 == 96) .reservedOperand
  match (fld w 0 3).toNat with
  | 0 => .ok (.sclz sd sa) | 1 => .ok (.spopc sd sa) | 2 => .ok (.sbrev sd sa)
  | _ => .error .subop

def decSdImm (w : W32) (f : Fin 96 → BitVec 17 → Instr) : Dec Instr := do
  let sd ← sdOfCode (fld w 17 7)
  .ok (f sd (imm17Of w))

def decMask (w : W32) (f : Fin 16 → Instr) : Dec Instr := do
  zeros w 4 20
  .ok (f (fin4 (fld w 0 4)))

/-- SI words with no field (R269, R285, R343). -/
def decBare (w : W32) (i : Instr) : Dec Instr := do
  zeros w 0 24
  .ok i

def decBr (w : W32) (f : Guard → BitVec 20 → Instr) : Dec Instr := .ok (f (guardOf w) (fld w 0 20))

/-- RET and BRX (R265). -/
def decJump (w : W32) (f : Guard → VOp → Instr) : Dec Instr := do
  zeros w 14 6
  zeros w 0 8
  .ok (f (guardOf w) (vaOf w))

def decReform (w : W32) : Dec Instr := do
  zeros w 14 6
  zeros w 5 3
  .ok (.reform (guardOf w) (vaOf w) (fld w 0 5))

def decLoop (w x : W32) : Dec Instr := do
  zeros w 17 7
  zeros x 31 1
  zeros x 0 1
  let sa ← SOp.ofCode (fld w 10 7)
  let sb ← SOp.ofCode (fld w 3 7)
  match (fld w 0 3).toNat with
  | 1 => do
    req (fld w 3 7 == 0) .unusedField
    zeros x 1 15
    .ok (.loop (.l0 sa (fld x 16 15)))
  | 2 => do
    req (fld w 10 7 == 0) .unusedField
    zeros x 16 15
    .ok (.loop (.l1 sb (fld x 1 15)))
  | 3 => .ok (.loop (.both sa (fld x 16 15) sb (fld x 1 15)))
  | _ => .error .subop

def decExit (w : W32) : Dec Instr := do
  zeros w 0 20
  .ok (.exit (guardOf w))

/-- Predicate logic (R271). -/
def dec0E (w : W32) : Dec Instr := do
  zeros w 17 3
  zeros w 11 3
  zeros w 5 3
  let pd ← predOfCode (fld w 14 3)
  let x : P3 := ⟨guardOf w, pd, fin3 (fld w 8 3), fin3 (fld w 2 3)⟩
  match (mOf w).toNat with
  | 0 => .ok (.pand x) | 1 => .ok (.por x) | 2 => .ok (.pxor x) | _ => .ok (.pandn x)

def decTrap (w : W32) : Dec Instr := do
  zeros w 17 7
  .ok (.trap (imm17Of w))

def decVcmp (w : W32) : Dec Instr := do
  let pd ← predOfCode (fld w 14 3)
  let c ← Cond.ofCode (fld w 17 3)
  .ok (.vcmp (ITy.ofCode (mOf w)) c ⟨guardOf w, pd, vaOf w, vbOf w⟩)

def decVfcmp (w : W32) : Dec Instr := do
  let pd ← predOfCode (fld w 14 3)
  let c ← FCond.ofCode (fld w 17 3)
  .ok (.vfcmp (FTy.ofCode (mOf w)) c ⟨guardOf w, pd, vaOf w, vbOf w⟩)

def decVmov (w : W32) : Dec Instr := do
  zeros w 2 6
  let t ← BTy.ofCode (mOf w)
  .ok (.vmov t (v2Of w))

def dec2F (w : W32) : Dec Instr := do
  zeros w 2 6
  match (mOf w).toNat with
  | 0 => .ok (.vclz (v2Of w)) | 1 => .ok (.vpopc (v2Of w)) | 2 => .ok (.vbrev (v2Of w))
  | _ => .error .subop

def decShi (w : W32) (f : V2 → BitVec 5 → Instr) : Dec Instr := do
  zeros w 5 3
  .ok (f (v2Of w) (fld w 0 5))

def decVmovi (w : W32) : Dec Instr := do
  zeros w 8 6
  .ok (.vmovi (guardOf w) (vdOf w) (fld w 0 8))

def decVbcast (w : W32) : Dec Instr := do
  zeros w 8 6
  let s ← SOp.ofCode (fld w 1 7)
  .ok (.vbcast (if bit w 0 then .b64 else .b32) (guardOf w) (vdOf w) s)

def decVreadl (w : W32) : Dec Instr := do
  let s ← sdOfCode (fld w 1 7)
  .ok (.vreadl (guardOf w) s (vaOf w) ⟨(fld w 0 1).toNat * 64 + (fld w 14 6).toNat, by omega⟩)

def decVfsqrt (w : W32) : Dec Instr := do
  zeros w 2 6
  .ok (.vfsqrt (FTy.ofCode (mOf w)) (v2Of w))

/-- The fields of XN that every converting word checks (R241). -/
structure XNF where
  nd : BitVec 6
  ns : BitVec 6
  rm : RM
  sids : SOp
  psel : Fin 4
  sub : BitVec 3

def decXN (x : W32) : Dec XNF := do
  zeros x 31 1
  zeros x 0 4
  let rm ← RM.ofCode (fld x 16 3)
  let s ← SOp.ofCode (fld x 9 7)
  .ok ⟨fld x 25 6, fld x 19 6, rm, s, fin2 (fld x 7 2), fld x 4 3⟩

def FOp.ofCode (c : BitVec 3) : Dec FOp :=
  match c.toNat with
  | 0 => .ok .add | 1 => .ok .sub | 2 => .ok .mul | 3 => .ok .fma | 4 => .ok .div | 5 => .ok .sqrt
  | _ => .error .subop

def decVfopx (w x : W32) : Dec Instr := do
  zeros w 0 2
  let n ← decXN x
  req (n.nd == n.ns) .reservedValue
  req (n.psel == 0) .unusedField
  let t ← FTy.ofNfc n.nd
  let op ← FOp.ofCode n.sub
  .ok (.vfopx op t n.rm n.sids (v3Of w))

def decVcvt (w x : W32) : Dec Instr := do
  zeros w 2 6
  let n ← decXN x
  req (n.sub == 0) .unusedField
  match (mOf w).toNat with
  | 0 => do
    let d ← NFC.ofCode n.nd
    let s ← NFC.ofCode n.ns
    .ok (.vcvt (.ff d s) n.psel n.rm n.sids (v2Of w))
  | 1 => do
    let d ← ITy.ofCode6 n.nd
    let s ← NFC.ofCode n.ns
    .ok (.vcvt (.fi d s) n.psel n.rm n.sids (v2Of w))
  | 2 => do
    let d ← NFC.ofCode n.nd
    let s ← ITy.ofCode6 n.ns
    .ok (.vcvt (.intf d s) n.psel n.rm n.sids (v2Of w))
  | _ => .error .subop

def decMxmax (w : W32) : Dec Instr := do
  zeros w 0 8
  .ok (.mxmax (v2Of w))

def decMxscale (w x : W32) : Dec Instr := do
  zeros w 0 8
  let n ← decXN x
  req (n.sub == 0 && n.ns == 0 && n.rm == .rne && n.sids == .reg 0) .unusedField
  let f ← MxFmt.ofNfc n.nd
  .ok (.mxscale f n.psel (v2Of w))

def decMxq (w x : W32) : Dec Instr := do
  zeros w 0 2
  let n ← decXN x
  req (n.sub == 0 && n.ns == 0) .unusedField
  let f ← MxFmt.ofNfc n.nd
  .ok (.mxq f n.psel n.rm n.sids (v3Of w))

def decMxdq (w x : W32) : Dec Instr := do
  zeros w 0 2
  let n ← decXN x
  req (n.sub == 0 && n.nd == 0 && n.rm == .rne && n.sids == .reg 0) .unusedField
  let f ← MxFmt.ofNfc n.ns
  .ok (.mxdq f n.psel (v3Of w))

def decVshfl (w : W32) : Dec Instr :=
  .ok (.vshfl (match (mOf w).toNat with | 0 => .idx | 1 => .up | 2 => .down | _ => .xor) (v3Of w))

def RedOpr.ofCode (c : BitVec 4) : Dec RedOpr :=
  match c.toNat with
  | 0 => .ok .add | 1 => .ok .min | 2 => .ok .max | 3 => .ok .and | 4 => .ok .or | 5 => .ok .xor
  | _ => .error .subop

def RedTy.ofCode (c : BitVec 3) : Dec RedTy :=
  match c.toNat with
  | 0 => .ok .i32 | 1 => .ok .n32 | 2 => .ok .i64 | 3 => .ok .n64 | 4 => .ok .f32 | 5 => .ok .f64
  | _ => .error .subop

def decVred (w x : W32) : Dec Instr := do
  zeros w 0 8
  zeros x 31 1
  zeros x 0 21
  let o ← RedOpr.ofCode (fld x 27 4)
  let t ← RedTy.ofCode (fld x 24 3)
  .ok (.vred o t (fin3 (fld x 21 3)) (v2Of w))

def decVscan (w x : W32) : Dec Instr := do
  zeros w 0 8
  zeros x 31 1
  zeros x 0 20
  let o ← RedOpr.ofCode (fld x 27 4)
  let t ← RedTy.ofCode (fld x 24 3)
  .ok (.vscan o t (fin3 (fld x 21 3)) (bit x 20) (v2Of w))

def decVballot (w : W32) : Dec Instr := do
  zeros w 17 3
  zeros w 8 6
  zeros w 0 1
  let s ← sdOfCode (fld w 1 7)
  .ok (.vballot (guardOf w) s (fin3 (fld w 14 3)))

def decVmerge (w x : W32) : Dec Instr := do
  zeros w 0 2
  zeros x 31 1
  zeros x 0 22
  let t ← (match (fld x 29 2).toNat with
    | 0 => .ok .n32 | 1 => .ok .i32 | 2 => .ok .f32 | _ => .error .subop : Dec MergeTy)
  .ok (.vmerge t (VOp.ofCode (fld x 23 6)) (bit x 22) (v3Of w))

def decVid (w : W32) : Dec Instr := do
  zeros w 8 6
  zeros w 1 7
  .ok (.vid (bit w 0) (guardOf w) (vdOf w))

def XMode.ofCode (c : BitVec 2) : XMode :=
  match c.toNat with
  | 0 => .off | 1 => .array | 2 => .ring | _ => .stack

def decXset (w x : W32) : Dec Instr := do
  zeros w 17 7
  zeros x 31 1
  zeros x 0 24
  let sa ← SOp.ofCode (fld w 10 7)
  let sb ← SOp.ofCode (fld w 3 7)
  .ok (.xset (fin3 (fld w 0 3)) (XMode.ofCode (fld x 29 2)) (fld x 25 4) (bit x 24) sa sb)

def decXldv (w : W32) : Dec Instr := do
  zeros w 14 6
  zeros w 3 5
  .ok (.xldv (guardOf w) (fin3 (fld w 0 3)) (vaOf w))

def decXgetv (w : W32) : Dec Instr := do
  zeros w 8 6
  zeros w 4 4
  .ok (.xgetv (guardOf w) (vdOf w) (fin3 (fld w 0 3)) (bit w 3))

def decWindow (w : W32) (f : BitVec 9 → Instr) : Dec Instr := do
  zeros w 9 15
  .ok (f (fld w 0 9))

def decVclmul (w : W32) : Dec Instr := do
  req (!bit w 1) .subop
  .ok (.vclmul (bit w 0) (v3Of w))

def decVmad24 (w : W32) : Dec Instr := do
  req (!bit w 1) .subop
  .ok (.vmad24 (bit w 0) (v3Of w))

def decXM (x : W32) : Dec XM := do
  zeros x 31 1
  let base ← SOp.ofCode (fld x 24 7)
  let sp ← Space.ofCode (fld x 21 3)
  let sc ← Scope.ofCode (fld x 16 3)
  req (!bit x 15) .reservedValue
  .ok ⟨base, sp, Ord.ofCode (fld x 19 2), sc, bit x 14, fld x 0 14⟩

def decLd (w x : W32) : Dec Instr := do
  zeros w 7 1
  zeros w 0 2
  let xm ← decXM x
  let a : MemArgs := ⟨guardOf w, vdOf w, vaOf w, bit w 5, bit w 6, xm⟩
  match (fld w 2 3).toNat with
  | 0 => .ok (.ld .u8 a) | 1 => .ok (.ld .s8 a) | 2 => .ok (.ld .u16 a) | 3 => .ok (.ld .s16 a)
  | 4 => .ok (.ld .b4 a) | 5 => .ok (.ld .b8 a) | 6 => .ok (.ld .b16 a)
  | _ => .error .subop

def decSt (w x : W32) : Dec Instr := do
  zeros w 7 1
  zeros w 0 2
  let xm ← decXM x
  let a : MemArgs := ⟨guardOf w, vdOf w, vaOf w, bit w 5, bit w 6, xm⟩
  match (fld w 2 3).toNat with
  | 0 => .ok (.st .u8 a) | 2 => .ok (.st .u16 a)
  | 4 => .ok (.st .b4 a) | 5 => .ok (.st .b8 a) | 6 => .ok (.st .b16 a)
  | _ => .error .subop

def decMx (w x : W32) (f : MxMemArgs → Instr) : Dec Instr := do
  zeros w 5 3
  let xm ← decXM x
  let fe ← MxFmt.ofFe (fld w 2 3)
  .ok (f ⟨guardOf w, vdOf w, vaOf w, fe, fin2 (mOf w), xm⟩)

def AOp.ofCode (c : BitVec 4) : Dec AOp :=
  match c.toNat with
  | 0 => .ok .add | 1 => .ok .min | 2 => .ok .max | 3 => .ok .and | 4 => .ok .or | 5 => .ok .xor
  | 6 => .ok .xch | 7 => .ok .cas | 8 => .ok .fadd | _ => .error .subop

def decAtom (w x : W32) : Dec Instr := do
  zeros w 0 2
  zeros x 31 1
  let base ← SOp.ofCode (fld x 24 7)
  let sp ← Space.ofCode (fld x 21 3)
  let sc ← Scope.ofCode (fld x 16 3)
  let op ← AOp.ofCode (fld x 12 4)
  .ok (.atom ⟨guardOf w, vdOf w, vaOf w, vbOf w, base, sp, Ord.ofCode (fld x 19 2), sc, op,
    ITy.ofCode (fld x 10 2), bit x 9, bit x 8, bit x 7, fld x 0 7⟩)

def decFence (w : W32) : Dec Instr := do
  zeros w 5 19
  let o ← FOrd.ofCode (fld w 3 2)
  let sc ← Scope.ofCode (fld w 0 3)
  .ok (.fence o sc)

def decPrefetch (w x : W32) : Dec Instr := do
  zeros w 17 7
  zeros w 0 3
  zeros x 31 1
  zeros x 0 23
  let sa ← SOp.ofCode (fld w 10 7)
  let sb ← SOp.ofCode (fld w 3 7)
  let st ← sdOfCode (fld x 24 7)
  .ok (.prefetchL2 sa sb st (bit x 23))

def decTwait (w : W32) : Dec Instr := do
  zeros w 1 9
  let sd ← sdOfCode (fld w 17 7)
  let sa ← SOp.ofCode (fld w 10 7)
  .ok (.twait sd sa (bit w 0))

def CopyXf.ofCode (c : BitVec 2) : Dec CopyXf :=
  match c.toNat with
  | 0 => .ok .raw | 1 => .ok .convert | 2 => .ok .reduce | _ => .error .subop

def CopyRed.ofCode (c : BitVec 2) : Dec CopyRed :=
  match c.toNat with
  | 0 => .ok .add | 1 => .ok .min | 2 => .ok .max | _ => .error .subop

def decCopy (w x : W32) : Dec Instr := do
  zeros w 17 7
  zeros w 0 3
  zeros x 31 1
  zeros x 0 15
  let sa ← sdOfCode (fld w 10 7)
  let sb ← SOp.ofCode (fld w 3 7)
  let xf ← CopyXf.ofCode (fld x 28 2)
  let ssp ← Space.ofCode (fld x 21 3)
  let dsp ← Space.ofCode (fld x 18 3)
  let ro ← CopyRed.ofCode (fld x 16 2)
  .ok (.copy ⟨sa, sb, bit x 30, xf, bit x 27, bit x 26, bit x 25, bit x 24, ssp, dsp, ro, bit x 15⟩)

def decColl (w x : W32) (f : CollArgs → Instr) : Dec Instr := do
  zeros w 17 7
  zeros w 0 3
  zeros x 31 1
  zeros x 0 16
  let sa ← SOp.ofCode (fld w 10 7)
  let sb ← SOp.ofCode (fld w 3 7)
  let st ← SOp.ofCode (fld x 18 7)
  .ok (f ⟨sa, sb, fin6 (fld x 25 6), st, bit x 17, bit x 16⟩)

def decMma (w x : W32) : Dec Instr := do
  zeros w 17 7
  zeros x 31 1
  zeros x 0 5
  let sa ← sdOfCode (fld w 10 7)
  let sb ← sdOfCode (fld w 3 7)
  let fa ← NFC.ofCode (fld x 25 6)
  let fb ← NFC.ofCode (fld x 19 6)
  .ok (.mma ⟨sa, sb, bit w 2, fin2 (mOf w), fa, fb, bit x 18, bit x 17, bit x 16, fld x 5 11⟩)

def decCompress (w x : W32) : Dec Instr := do
  zeros w 17 7
  zeros w 0 3
  zeros x 31 1
  zeros x 0 25
  let sa ← sdOfCode (fld w 10 7)
  let sb ← sdOfCode (fld w 3 7)
  let f ← NFC.ofCode (fld x 25 6)
  .ok (.compress sa sb f)

def decAccz (w x : W32) : Dec Instr := do
  zeros w 0 24
  zeros x 31 1
  zeros x 0 18
  .ok (.accz (fld x 20 11) (fin2 (fld x 18 2)))

def decAccmv (w x : W32) : Dec Instr := do
  zeros w 17 7
  zeros w 3 7
  zeros x 31 1
  zeros x 0 12
  let sa ← sdOfCode (fld w 10 7)
  let df ← NFC.ofCode (fld x 12 6)
  match (fld w 0 3).toNat with
  | 0 => .ok (.accmvOut sa (fld x 20 11) (fin2 (fld x 18 2)) df)
  | 1 => .ok (.accmvIn sa (fld x 20 11) (fin2 (fld x 18 2)) df)
  | _ => .error .subop

def decAttn (w x : W32) : Dec Instr := do
  zeros w 17 7
  zeros w 0 10
  zeros x 31 1
  zeros x 0 13
  let sa ← sdOfCode (fld w 10 7)
  let fqk ← NFC.ofCode (fld x 25 6)
  let fv ← NFC.ofCode (fld x 19 6)
  .ok (.attn ⟨sa, fqk, fv, fin2 (fld x 17 2), bit x 16, bit x 15, bit x 14, bit x 13⟩)

def decKvwalk (w x : W32) : Dec Instr := do
  zeros w 17 7
  zeros w 0 3
  zeros x 31 1
  zeros x 0 2
  let sa ← SOp.ofCode (fld w 10 7)
  let sb ← SOp.ofCode (fld w 3 7)
  let sdst ← sdOfCode (fld x 24 7)
  let st ← SOp.ofCode (fld x 3 7)
  .ok (.kvwalk ⟨sa, sb, sdst, bit x 23, fld x 11 12, bit x 10, st, bit x 2⟩)

def decKvappend (w x : W32) : Dec Instr := do
  zeros w 0 3
  zeros x 31 1
  zeros x 0 8
  let sd ← SOp.ofCode (fld w 17 7)
  let sa ← SOp.ofCode (fld w 10 7)
  let sb ← SOp.ofCode (fld w 3 7)
  let ssrc ← sdOfCode (fld x 24 7)
  let st ← SOp.ofCode (fld x 9 7)
  .ok (.kvappend ⟨sd, sa, sb, ssrc, fld x 17 7, bit x 16, st, bit x 8⟩)

def decKvcommit (w x : W32) : Dec Instr := do
  zeros w 17 7
  zeros x 31 1
  zeros x 0 23
  let sa ← SOp.ofCode (fld w 10 7)
  let sb ← SOp.ofCode (fld w 3 7)
  let sc ← Scope.ofCode (fld w 0 3)
  let st ← SOp.ofCode (fld x 24 7)
  .ok (.kvcommit ⟨sa, sb, sc, st, bit x 23⟩)

def decGeo (w x : W32) (f : GeoArgs → Instr) : Dec Instr := do
  req (!bit w 1) .subop
  zeros x 31 1
  zeros x 0 25
  .ok (f ⟨guardOf w, vdOf w, vaOf w, vbOf w, bit w 0, bit x 30, bit x 29, bit x 28, fin3 (fld x 25 3)⟩)

def decLaunch (w x : W32) : Dec Instr := do
  zeros w 17 7
  zeros w 0 3
  zeros x 31 1
  zeros x 0 20
  let sa ← SOp.ofCode (fld w 10 7)
  let sb ← SOp.ofCode (fld w 3 7)
  .ok (.launch sa sb (fld x 26 5) (fld x 20 6))

def decWaitsem (w x : W32) : Dec Instr := do
  zeros w 17 7
  zeros w 0 3
  zeros x 31 1
  zeros x 0 29
  let sa ← SOp.ofCode (fld w 10 7)
  let sb ← SOp.ofCode (fld w 3 7)
  .ok (.waitsem (match (fld x 29 2).toNat with | 0 => .eq | 1 => .ne | 2 => .ge | _ => .lt) sa sb)

def decSignalsem (w x : W32) : Dec Instr := do
  zeros w 17 7
  zeros w 0 3
  zeros x 31 1
  zeros x 0 29
  let sa ← SOp.ofCode (fld w 10 7)
  let sb ← SOp.ofCode (fld w 3 7)
  match (fld x 29 2).toNat with
  | 0 => .ok (.signalsemSet sa sb) | 1 => .ok (.signalsemAdd sa sb) | _ => .error .subop

def decEvent (w : W32) : Dec Instr := do
  zeros w 17 7
  zeros w 1 2
  let sa ← SOp.ofCode (fld w 10 7)
  let sb ← SOp.ofCode (fld w 3 7)
  .ok (.event (bit w 0) sa sb)

def decCsr (w : W32) : Dec Instr := do
  zeros w 12 3
  match (fld w 15 2).toNat with
  | 0 => do
    let sd ← sdOfCode (fld w 17 7)
    .ok (.csrr sd (fld w 0 12))
  | 1 => do
    let ss ← SOp.ofCode (fld w 17 7)
    .ok (.csrw ss (fld w 0 12))
  | _ => .error .subop

def decFeatq (w : W32) : Dec Instr := do
  let sd ← sdOfCode (fld w 17 7)
  match (imm17Of w).toNat with
  | 0 => .ok (.featq sd .feat0) | 1 => .ok (.featq sd .feat1) | 2 => .ok (.featq sd .implw)
  | _ => .error .subop

def decTlbinv (w : W32) : Dec Instr := do
  zeros w 17 7
  match (fld w 0 3).toNat with
  | 0 => do
    let sa ← SOp.ofCode (fld w 10 7)
    let sb ← SOp.ofCode (fld w 3 7)
    .ok (.tlbinvPage sa sb)
  | 1 => do
    zeros w 3 14
    .ok .tlbinvCtx
  | 2 => do
    zeros w 3 14
    .ok .tlbinvAll
  | _ => .error .subop

/-- Major opcode (R239). -/
def opOf (w : W32) : Nat := (fld w 24 7).toNat

/-- Which major opcodes begin a wide instruction (R257). -/
def wideOp (op : Nat) : Bool :=
  [0x09, 0x41, 0x42, 0x44, 0x45, 0x46, 0x48, 0x49, 0x4B, 0x50, 0x60, 0x61, 0x62, 0x63, 0x64, 0x66,
   0x69, 0x6A, 0x6B, 0x6C, 0x6D, 0x6E, 0x6F, 0x70, 0x71, 0x72, 0x73, 0x74, 0x75, 0x76, 0x77, 0x78,
   0x79, 0x7A, 0x7B].contains op

/-- The opcode map (R257): the instruction a first word and, for a wide one, its extension word stand for.
The chain bit is not looked at. -/
def decodeBody (w x : W32) : Dec Instr :=
  match opOf w with
  | 0x00 => decBare w .nop
  | 0x01 => decBr w .bra
  | 0x02 => decBr w .call
  | 0x03 => decJump w .ret
  | 0x04 => decJump w .brx
  | 0x05 => decMask w .split
  | 0x06 => decMask w .join
  | 0x07 => decMask w .waitk
  | 0x08 => decReform w
  | 0x09 => decLoop w x
  | 0x0A => decBare w .bar
  | 0x0B => decBare w .convene
  | 0x0C => decBare w .disband
  | 0x0D => decExit w
  | 0x0E => dec0E w
  | 0x0F => decTrap w
  | 0x10 => dec10 w
  | 0x11 => dec11 w
  | 0x12 => dec12 w
  | 0x13 => dec13 w
  | 0x14 => dec14 w
  | 0x15 => decSdImm w .saddi
  | 0x16 => decSdImm w .smovi
  | 0x17 => decSdImm w .sshin
  | 0x18 => decBare w .rte
  | 0x20 => decV3I .vadd w
  | 0x21 => decV3I .vsub w
  | 0x22 => decV3I .vmul w
  | 0x23 => decV3I .vmulh w
  | 0x24 => decV3I .vaddsat w
  | 0x25 => decV3I .vsubsat w
  | 0x26 => decV3I .vmin w
  | 0x27 => decV3I .vmax w
  | 0x28 => decV3B .vand w
  | 0x29 => decV3B .vor w
  | 0x2A => decV3B .vxor w
  | 0x2B => decV3I .vshl w
  | 0x2C => decV3I .vshr w
  | 0x2D => decVcmp w
  | 0x2E => decVmov w
  | 0x2F => dec2F w
  | 0x30 => .ok (.vaddi (v2Of w) (fld w 0 8))
  | 0x31 => decShi w .vshli
  | 0x32 => decShi w .vshri
  | 0x33 => decShi w .vsrai
  | 0x34 => decVmovi w
  | 0x35 => decVbcast w
  | 0x36 => decVreadl w
  | 0x38 => decV3F .vfadd w
  | 0x39 => decV3F .vfsub w
  | 0x3A => decV3F .vfmul w
  | 0x3B => decV3F .vfma w
  | 0x3C => decV3F .vfmin w
  | 0x3D => decV3F .vfmax w
  | 0x3E => decVfcmp w
  | 0x3F => decV3F .vfdiv w
  | 0x40 => decVfsqrt w
  | 0x41 => decVfopx w x
  | 0x42 => decVcvt w x
  | 0x43 => decMxmax w
  | 0x44 => decMxscale w x
  | 0x45 => decMxq w x
  | 0x46 => decMxdq w x
  | 0x47 => decVshfl w
  | 0x48 => decVred w x
  | 0x49 => decVscan w x
  | 0x4A => decVballot w
  | 0x4B => decVmerge w x
  | 0x4C => decVid w
  | 0x50 => decXset w x
  | 0x51 => decXldv w
  | 0x52 => decXgetv w
  | 0x53 => decWindow w .rgrow
  | 0x54 => decWindow w .rshrink
  | 0x58 => decVclmul w
  | 0x59 => decVmad24 w
  | 0x60 => decLd w x
  | 0x61 => decSt w x
  | 0x62 => decAtom w x
  | 0x63 => decMx w x .ldmx
  | 0x64 => decMx w x .stmx
  | 0x65 => decFence w
  | 0x66 => decPrefetch w x
  | 0x67 => decTwait w
  | 0x68 => decBare w .ifence
  | 0x69 => decCopy w x
  | 0x6A => decColl w x .collLoad
  | 0x6B => decColl w x .collRun
  | 0x6C => decMma w x
  | 0x6D => decCompress w x
  | 0x6E => decAccz w x
  | 0x6F => decAccmv w x
  | 0x70 => decAttn w x
  | 0x71 => decKvwalk w x
  | 0x72 => decKvappend w x
  | 0x73 => decKvcommit w x
  | 0x74 => decGeo w x .geoOrient2
  | 0x75 => decGeo w x .geoOrient3
  | 0x76 => decGeo w x .geoIncirc
  | 0x77 => decGeo w x .geoInsphr
  | 0x78 => decGeo w x .geoSegx
  | 0x79 => decLaunch w x
  | 0x7A => decWaitsem w x
  | 0x7B => decSignalsem w x
  | 0x7C => decEvent w
  | 0x7D => decCsr w
  | 0x7E => decFeatq w
  | 0x7F => decTlbinv w
  | op => .error (.opcode op)

/-- Decode one instruction: the fields, then the checks of the whole word. -/
def decodeWords (w x : W32) : Dec Instr :=
  match decodeBody w x with
  | .ok i => if i.wf then .ok i else .error .illFormed
  | .error e => .error e

/-! ### Packets -/

/-- A packet: its header and its three slots (R234). -/
structure Packet where
  header : W32
  w0 : W32
  w1 : W32
  w2 : W32
  deriving DecidableEq, Repr

def le32 (b0 b1 b2 b3 : Byte) : W32 := b3 ++ b2 ++ b1 ++ b0

/-- A packet from its 16 bytes, little-endian (R9). -/
def Packet.ofBytes : List Byte → Option Packet
  | [a0, a1, a2, a3, b0, b1, b2, b3, c0, c1, c2, c3, d0, d1, d2, d3] =>
    some ⟨le32 a0 a1 a2 a3, le32 b0 b1 b2 b3, le32 c0 c1 c2 c3, le32 d0 d1 d2 d3⟩
  | _ => none

def bytes32 (w : W32) : List Byte := [w.extractLsb' 0 8, w.extractLsb' 8 8, w.extractLsb' 16 8, w.extractLsb' 24 8]

def Packet.toBytes (p : Packet) : List Byte := bytes32 p.header ++ bytes32 p.w0 ++ bytes32 p.w1 ++ bytes32 p.w2

def Packet.slot (p : Packet) : Nat → W32
  | 0 => p.w0
  | 1 => p.w1
  | _ => p.w2

/-- Flags a packet waits for, bit j for cfj (R235). -/
def Packet.wait (p : Packet) : BitVec 12 := fld p.header 20 12
def Packet.siga (p : Packet) : Nat := (fld p.header 16 4).toNat
def Packet.sigb (p : Packet) : Nat := (fld p.header 12 4).toNat
def Packet.sel (p : Packet) (k : Nat) : Bool := bit p.header (9 + k)
def Packet.yld (p : Packet) : Bool := bit p.header 8

/-- The flag a word beginning in slot `k` counts on (R235, R237). -/
def Packet.flag (p : Packet) (k : Nat) : Option Nat :=
  let f := if p.sel k then p.sigb else p.siga
  if f < 12 then some f else none

/-- The slots at which instructions begin (R251). -/
def Packet.starts (p : Packet) : List Nat :=
  if wideOp (opOf p.w0) then [0, 2] else if wideOp (opOf p.w1) then [0, 1] else [0, 1, 2]

/-- Issue pipes (R247). -/
inductive Pipe where
  | none | v | va | vb | sa | mem | mtx | geo | cpy
  deriving DecidableEq, Repr

/-- The pipe of a major opcode (R257). -/
def pipeOf (op : Nat) : Pipe :=
  if op == 0 then .none
  else if op == 0x0E then .vb
  else if op ≤ 0x18 then .sa
  else if 0x20 ≤ op && op ≤ 0x35 then .v
  else if op == 0x36 then .vb
  else if 0x38 ≤ op && op ≤ 0x3E then .v
  else if 0x3F ≤ op && op ≤ 0x46 then .va
  else if 0x47 ≤ op && op ≤ 0x4C then .vb
  else if 0x50 ≤ op && op ≤ 0x52 then .vb
  else if op == 0x53 || op == 0x54 then .sa
  else if op == 0x58 then .va
  else if op == 0x59 then .v
  else if 0x60 ≤ op && op ≤ 0x68 then .mem
  else if 0x69 ≤ op && op ≤ 0x6B then .cpy
  else if 0x6C ≤ op && op ≤ 0x73 then .mtx
  else if 0x74 ≤ op && op ≤ 0x78 then .geo
  else if 0x79 ≤ op then .sa
  else .none

def branchClass (op : Nat) : Bool := op == 0x01 || op == 0x02 || op == 0x03 || op == 0x04 || op == 0x0D

/-- Solo words (R252, R257). -/
def soloOp (op : Nat) : Bool :=
  [0x06, 0x07, 0x08, 0x09, 0x0A, 0x0B, 0x0C, 0x0F, 0x18, 0x53, 0x54, 0x65, 0x67, 0x68, 0x6C, 0x6D,
   0x6E, 0x6F, 0x70, 0x7A].contains op

/-- The instructions of a packet as (opcode, C). -/
def Packet.heads (p : Packet) : List (Nat × Bool) :=
  p.starts.map fun k => (opOf (p.slot k), bit (p.slot k) 31)

/-- Split into chained groups: runs in which every instruction but the last has C = 1 (R248). -/
def groupsOf : List (Nat × Bool) → List (List Nat)
  | [] => []
  | (op, c) :: rest =>
    match c, groupsOf rest with
    | true, g :: gs => (op :: g) :: gs
    | _, gs => [op] :: gs

/-- Fixed pipes are distinct and the V instructions find a free vector pipe (R248). -/
def groupPipesOk (g : List Nat) : Bool :=
  let fixed := (g.map pipeOf).filter fun p => p != .none && p != .v
  let v := (g.map pipeOf).filter (· == .v)
  let busy := (if fixed.contains .va then 1 else 0) + (if fixed.contains .vb then 1 else 0)
  fixed.Nodup && v.length + busy ≤ 2

/-- The packet checks of R253. -/
def Packet.ok (p : Packet) : Bool :=
  let hs := p.heads
  let gs := groupsOf hs
  fld p.header 0 8 == 0 &&
  (p.siga < 12 || p.siga == 15) && (p.sigb < 12 || p.sigb == 15) &&
  (match hs.getLast? with | some (_, c) => !c | none => false) &&
  (if wideOp (opOf p.w0) then !bit p.w1 31 && !wideOp (opOf p.w2)
   else if wideOp (opOf p.w1) then !bit p.w2 31
   else !wideOp (opOf p.w2)) &&
  gs.all groupPipesOk &&
  hs.all (fun h => !(branchClass h.1 && h.2)) &&
  gs.all (fun g => g.length == 1 || g.all fun op => !soloOp op)

/-! ### The encoder -/

def Guard.bits (g : Guard) : BitVec 4 := BitVec.ofBool g.neg ++ BitVec.ofNat 3 g.p.val

def VOp.code : VOp → BitVec 6
  | .dir n => BitVec.ofNat 6 n.val
  | .ind j => BitVec.ofNat 6 (56 + j.val)

def SpecialReg.index : SpecialReg → Nat
  | .zero => 0 | .warpn => 1 | .nwarp => 2 | .depth => 3 | .wgx => 4 | .wgy => 5 | .wgz => 6
  | .ngx => 7 | .ngy => 8 | .ngz => 9 | .crank => 10 | .csize => 11 | .qsize => 12 | .qseat => 13
  | .core => 14 | .cycle => 15

def SOp.code : SOp → BitVec 7
  | .reg n => BitVec.ofNat 7 n.val
  | .special r => BitVec.ofNat 7 (96 + r.index)

def sdCode (n : Fin 96) : BitVec 7 := BitVec.ofNat 7 n.val
def pdCode (n : Fin 7) : BitVec 3 := BitVec.ofNat 3 n.val
def f8 (n : Fin 8) : BitVec 3 := BitVec.ofNat 3 n.val

def NFC.code : NFC → BitVec 6
  | .f32 => 0 | .f64 => 1 | .bf16 => 2 | .f16 => 3 | .e4m3 => 4 | .e5m2 => 5 | .e3m2 => 6
  | .e2m3 => 7 | .e2m1 => 8 | .mxi8 => 9
  | .b8s p => BitVec.ofNat 6 (17 + p.val)
  | .b8x p => BitVec.ofNat 6 (25 + p.val)
  | .b8z p => BitVec.ofNat 6 (33 + p.val)

def ITy.code : ITy → BitVec 2
  | .i32 => 0 | .n32 => 1 | .i64 => 2 | .n64 => 3
def ITy.code6 (t : ITy) : BitVec 6 := 0#4 ++ t.code
def BTy.code : BTy → BitVec 2
  | .b32 => 0 | .b64 => 2
def FTy.code : FTy → BitVec 2
  | .f32 => 0 | .f64 => 1 | .bf16 => 2 | .f16 => 3
def FTy.nfc (t : FTy) : BitVec 6 := 0#4 ++ t.code
def RM.code : RM → BitVec 3
  | .rne => 0 | .rtz => 1 | .rup => 2 | .rdn => 3 | .sr => 4
def Space.code : Space → BitVec 3
  | .g => 0 | .sp => 1 | .cl => 2 | .rw => 3 | .ac => 4
def Ord.code : Ord → BitVec 2
  | .relaxed => 0 | .acquire => 1 | .release => 2 | .acqRel => 3
def FOrd.code : FOrd → BitVec 2
  | .acquire => 1 | .release => 2 | .acqRel => 3
def Scope.code : Scope → BitVec 3
  | .lane => 0 | .warp => 1 | .workgroup => 2 | .cluster => 3 | .device => 4 | .system => 5
def Cond.code : Cond → BitVec 3
  | .eq => 0 | .ne => 1 | .lt => 2 | .le => 3 | .gt => 4 | .ge => 5
def FCond.code : FCond → BitVec 3
  | .ord c => c.code
  | .un => 6
def SCond.code : SCond → BitVec 3
  | .eq => 0 | .ne => 1 | .lt => 2 | .ltn => 3 | .ge => 4 | .gen => 5
def FOp.code : FOp → BitVec 3
  | .add => 0 | .sub => 1 | .mul => 2 | .fma => 3 | .div => 4 | .sqrt => 5
def MxFmt.fe : MxFmt → BitVec 3
  | .e4m3 => 0 | .e5m2 => 1 | .e3m2 => 2 | .e2m3 => 3 | .e2m1 => 4 | .mxi8 => 5
def MxFmt.nfc : MxFmt → NFC
  | .e4m3 => .e4m3 | .e5m2 => .e5m2 | .e3m2 => .e3m2 | .e2m3 => .e2m3 | .e2m1 => .e2m1 | .mxi8 => .mxi8
def ShflMode.code : ShflMode → BitVec 2
  | .idx => 0 | .up => 1 | .down => 2 | .xor => 3
def RedOpr.code : RedOpr → BitVec 4
  | .add => 0 | .min => 1 | .max => 2 | .and => 3 | .or => 4 | .xor => 5
def RedTy.code : RedTy → BitVec 3
  | .i32 => 0 | .n32 => 1 | .i64 => 2 | .n64 => 3 | .f32 => 4 | .f64 => 5
def MergeTy.code : MergeTy → BitVec 2
  | .n32 => 0 | .i32 => 1 | .f32 => 2
def XMode.code : XMode → BitVec 2
  | .off => 0 | .array => 1 | .ring => 2 | .stack => 3
def LdSize.code : LdSize → BitVec 3
  | .u8 => 0 | .s8 => 1 | .u16 => 2 | .s16 => 3 | .b4 => 4 | .b8 => 5 | .b16 => 6
def StSize.code : StSize → BitVec 3
  | .u8 => 0 | .u16 => 2 | .b4 => 4 | .b8 => 5 | .b16 => 6
def AOp.code : AOp → BitVec 4
  | .add => 0 | .min => 1 | .max => 2 | .and => 3 | .or => 4 | .xor => 5 | .xch => 6 | .cas => 7 | .fadd => 8
def CopyXf.code : CopyXf → BitVec 2
  | .raw => 0 | .convert => 1 | .reduce => 2
def CopyRed.code : CopyRed → BitVec 2
  | .add => 0 | .min => 1 | .max => 2
def SemCmp.code : SemCmp → BitVec 2
  | .eq => 0 | .ne => 1 | .ge => 2 | .lt => 3
def FeatWord.code : FeatWord → BitVec 17
  | .feat0 => 0 | .feat1 => 1 | .implw => 2

def b1 (b : Bool) : BitVec 1 := BitVec.ofBool b

/-- V3 with an 8-bit low part (R240); bit 31 is the chain bit, here 0. -/
def packV (op : BitVec 7) (g : Guard) (d a : BitVec 6) (lo : BitVec 8) : W32 :=
  0#1 ++ op ++ g.bits ++ d ++ a ++ lo

def packV3 (op : BitVec 7) (x : V3) (m : BitVec 2) : W32 := packV op x.g x.d.code x.a.code (x.b.code ++ m)
def packV2 (op : BitVec 7) (x : V2) (lo : BitVec 8) : W32 := packV op x.g x.d.code x.a.code lo
def packVS (op : BitVec 7) (g : Guard) (d a : BitVec 6) (s : BitVec 7) (m : BitVec 1) : W32 :=
  packV op g d a (s ++ m)
def packBR (op : BitVec 7) (g : Guard) (off : BitVec 20) : W32 := 0#1 ++ op ++ g.bits ++ off
def packS3 (op sd sa sb : BitVec 7) (m : BitVec 3) : W32 := 0#1 ++ op ++ sd ++ sa ++ sb ++ m
def packSI (op sd : BitVec 7) (imm : BitVec 17) : W32 := 0#1 ++ op ++ sd ++ imm
def packP (x : P3) (m : BitVec 2) : W32 :=
  packV 0x0E x.g (0#3 ++ pdCode x.pd) (0#3 ++ f8 x.pa) (0#3 ++ f8 x.pb ++ m)
def packXM (x : XM) : W32 :=
  0#1 ++ x.base.code ++ x.space.code ++ x.ord.code ++ x.scope.code ++ 0#1 ++ b1 x.nol1 ++ x.imm
def packXN (nd ns : BitVec 6) (rm : RM) (sids : SOp) (psel : Fin 4) (sub : BitVec 3) : W32 :=
  0#1 ++ nd ++ ns ++ rm.code ++ sids.code ++ BitVec.ofNat 2 psel.val ++ sub ++ 0#4

def encS (op : BitVec 7) (m : BitVec 3) (x : S3) : W32 := packS3 op (sdCode x.sd) x.sa.code x.sb.code m

/-- The words of an instruction, first word and then the extension word of a wide one, with C = 0; none for an event. -/
def encode : Instr → List W32
  | .nop => [0]
  | .bra g o => [packBR 0x01 g o]
  | .call g o => [packBR 0x02 g o]
  | .ret g a => [packV 0x03 g 0 a.code 0]
  | .brx g a => [packV 0x04 g 0 a.code 0]
  | .split k => [packSI 0x05 0 (0#13 ++ BitVec.ofNat 4 k.val)]
  | .join k => [packSI 0x06 0 (0#13 ++ BitVec.ofNat 4 k.val)]
  | .waitk k => [packSI 0x07 0 (0#13 ++ BitVec.ofNat 4 k.val)]
  | .reform g a n => [packV 0x08 g 0 a.code (0#3 ++ n)]
  | .loop (.l0 c e) => [packS3 0x09 0 c.code 0 1, 0#1 ++ e ++ 0#15 ++ 0#1]
  | .loop (.l1 c e) => [packS3 0x09 0 0 c.code 2, 0#1 ++ 0#15 ++ e ++ 0#1]
  | .loop (.both c e d f) => [packS3 0x09 0 c.code d.code 3, 0#1 ++ e ++ f ++ 0#1]
  | .bar => [packSI 0x0A 0 0]
  | .convene => [packSI 0x0B 0 0]
  | .disband => [packSI 0x0C 0 0]
  | .exit g => [packV 0x0D g 0 0 0]
  | .pand x => [packP x 0]
  | .por x => [packP x 1]
  | .pxor x => [packP x 2]
  | .pandn x => [packP x 3]
  | .trap c => [packSI 0x0F 0 c]
  | .sadd x => [encS 0x10 0 x]
  | .ssub x => [encS 0x10 1 x]
  | .sand x => [encS 0x10 2 x]
  | .sor x => [encS 0x10 3 x]
  | .sxor x => [encS 0x10 4 x]
  | .sshl x => [encS 0x10 5 x]
  | .sshr x => [encS 0x10 6 x]
  | .ssra x => [encS 0x10 7 x]
  | .smul x => [encS 0x11 0 x]
  | .smulh x => [encS 0x11 1 x]
  | .smulhn x => [encS 0x11 2 x]
  | .smin x => [encS 0x11 3 x]
  | .sminn x => [encS 0x11 4 x]
  | .smax x => [encS 0x11 5 x]
  | .smaxn x => [encS 0x11 6 x]
  | .scmp c x => [encS 0x12 c.code x]
  | .sdiv x => [encS 0x13 0 x]
  | .sdivn x => [encS 0x13 1 x]
  | .srem x => [encS 0x13 2 x]
  | .sremn x => [encS 0x13 3 x]
  | .sclz d a => [packS3 0x14 (sdCode d) a.code 96 0]
  | .spopc d a => [packS3 0x14 (sdCode d) a.code 96 1]
  | .sbrev d a => [packS3 0x14 (sdCode d) a.code 96 2]
  | .saddi d i => [packSI 0x15 (sdCode d) i]
  | .smovi d i => [packSI 0x16 (sdCode d) i]
  | .sshin d i => [packSI 0x17 (sdCode d) i]
  | .rte => [packSI 0x18 0 0]
  | .vadd t x => [packV3 0x20 x t.code]
  | .vsub t x => [packV3 0x21 x t.code]
  | .vmul t x => [packV3 0x22 x t.code]
  | .vmulh t x => [packV3 0x23 x t.code]
  | .vaddsat t x => [packV3 0x24 x t.code]
  | .vsubsat t x => [packV3 0x25 x t.code]
  | .vmin t x => [packV3 0x26 x t.code]
  | .vmax t x => [packV3 0x27 x t.code]
  | .vand t x => [packV3 0x28 x t.code]
  | .vor t x => [packV3 0x29 x t.code]
  | .vxor t x => [packV3 0x2A x t.code]
  | .vshl t x => [packV3 0x2B x t.code]
  | .vshr t x => [packV3 0x2C x t.code]
  | .vcmp t c x => [packV 0x2D x.g (c.code ++ pdCode x.pd) x.a.code (x.b.code ++ t.code)]
  | .vmov t x => [packV2 0x2E x (0#6 ++ t.code)]
  | .vclz x => [packV2 0x2F x 0]
  | .vpopc x => [packV2 0x2F x 1]
  | .vbrev x => [packV2 0x2F x 2]
  | .vaddi x i => [packV2 0x30 x i]
  | .vshli x n => [packV2 0x31 x (0#3 ++ n)]
  | .vshri x n => [packV2 0x32 x (0#3 ++ n)]
  | .vsrai x n => [packV2 0x33 x (0#3 ++ n)]
  | .vmovi g d i => [packV 0x34 g d.code 0 i]
  | .vbcast t g d s => [packVS 0x35 g d.code 0 s.code (b1 t.is64)]
  | .vreadl g s a l => [packVS 0x36 g (BitVec.ofNat 6 (l.val % 64)) a.code (sdCode s) (BitVec.ofNat 1 (l.val / 64))]
  | .vfadd t x => [packV3 0x38 x t.code]
  | .vfsub t x => [packV3 0x39 x t.code]
  | .vfmul t x => [packV3 0x3A x t.code]
  | .vfma t x => [packV3 0x3B x t.code]
  | .vfmin t x => [packV3 0x3C x t.code]
  | .vfmax t x => [packV3 0x3D x t.code]
  | .vfcmp t c x => [packV 0x3E x.g (c.code ++ pdCode x.pd) x.a.code (x.b.code ++ t.code)]
  | .vfdiv t x => [packV3 0x3F x t.code]
  | .vfsqrt t x => [packV2 0x40 x (0#6 ++ t.code)]
  | .vfopx op t rm s x => [packV3 0x41 x 0, packXN t.nfc t.nfc rm s 0 op.code]
  | .vcvt (.ff d s) p rm sid x => [packV2 0x42 x 0, packXN d.code s.code rm sid p 0]
  | .vcvt (.fi d s) p rm sid x => [packV2 0x42 x 1, packXN d.code6 s.code rm sid p 0]
  | .vcvt (.intf d s) p rm sid x => [packV2 0x42 x 2, packXN d.code s.code6 rm sid p 0]
  | .mxmax x => [packV2 0x43 x 0]
  | .mxscale f p x => [packV2 0x44 x 0, packXN f.nfc.code 0 .rne (.reg 0) p 0]
  | .mxq f p rm s x => [packV3 0x45 x 0, packXN f.nfc.code 0 rm s p 0]
  | .mxdq f p x => [packV3 0x46 x 0, packXN 0 f.nfc.code .rne (.reg 0) p 0]
  | .vshfl m x => [packV3 0x47 x m.code]
  | .vred o t sp x => [packV2 0x48 x 0, 0#1 ++ o.code ++ t.code ++ f8 sp ++ 0#1 ++ 0#20]
  | .vscan o t sp e x => [packV2 0x49 x 0, 0#1 ++ o.code ++ t.code ++ f8 sp ++ b1 e ++ 0#20]
  | .vballot g s p => [packVS 0x4A g (0#3 ++ f8 p) 0 (sdCode s) 0]
  | .vmerge t dh o x => [packV3 0x4B x 0, 0#1 ++ t.code ++ dh.code ++ b1 o ++ 0#22]
  | .vid l g d => [packV 0x4C g d.code 0 (0#7 ++ b1 l)]
  | .xset j m s z sa sb => [packS3 0x50 0 sa.code sb.code (f8 j), 0#1 ++ m.code ++ s ++ b1 z ++ 0#24]
  | .xldv g j a => [packV 0x51 g 0 a.code (0#5 ++ f8 j)]
  | .xgetv g d j ds => [packV 0x52 g d.code 0 (0#4 ++ b1 ds ++ f8 j)]
  | .rgrow t => [packSI 0x53 0 (0#8 ++ t)]
  | .rshrink t => [packSI 0x54 0 (0#8 ++ t)]
  | .vclmul h x => [packV3 0x58 x (0#1 ++ b1 h)]
  | .vmad24 u x => [packV3 0x59 x (0#1 ++ b1 u)]
  | .ld sz x => [packV 0x60 x.g x.d.code x.a.code (0#1 ++ b1 x.nov ++ b1 x.uofs ++ sz.code ++ 0#2), packXM x.xm]
  | .st sz x => [packV 0x61 x.g x.d.code x.a.code (0#1 ++ b1 x.nov ++ b1 x.uofs ++ sz.code ++ 0#2), packXM x.xm]
  | .atom x => [packV 0x62 x.g x.d.code x.a.code (x.b.code ++ 0#2),
      0#1 ++ x.base.code ++ x.space.code ++ x.ord.code ++ x.scope.code ++ x.aop.code ++ x.ty.code ++
      b1 x.noret ++ b1 x.uofs ++ b1 x.nov ++ x.imm]
  | .ldmx x => [packV 0x63 x.g x.d.code x.a.code (0#3 ++ x.fe.fe ++ BitVec.ofNat 2 x.plane.val), packXM x.xm]
  | .stmx x => [packV 0x64 x.g x.d.code x.a.code (0#3 ++ x.fe.fe ++ BitVec.ofNat 2 x.plane.val), packXM x.xm]
  | .fence o s => [packSI 0x65 0 (0#12 ++ o.code ++ s.code)]
  | .prefetchL2 sa sb t tp => [packS3 0x66 0 sa.code sb.code 0, 0#1 ++ sdCode t ++ b1 tp ++ 0#23]
  | .twait d a tp => [packS3 0x67 (sdCode d) a.code 0 (0#2 ++ b1 tp)]
  | .ifence => [packSI 0x68 0 0]
  | .copy x => [packS3 0x69 0 (sdCode x.sa) x.sb.code 0,
      0#1 ++ b1 x.rel ++ x.xf.code ++ b1 x.tr ++ b1 x.smx ++ b1 x.dmx ++ b1 x.sums ++ x.ssp.code ++
      x.dsp.code ++ x.redop.code ++ b1 x.tsp ++ 0#15]
  | .collLoad x => [packS3 0x6A 0 x.sa.code x.sb.code 0,
      0#1 ++ BitVec.ofNat 6 x.slot.val ++ x.stok.code ++ b1 x.tsp ++ b1 x.rel ++ 0#16]
  | .collRun x => [packS3 0x6B 0 x.sa.code x.sb.code 0,
      0#1 ++ BitVec.ofNat 6 x.slot.val ++ x.stok.code ++ b1 x.tsp ++ b1 x.rel ++ 0#16]
  | .mma x => [packS3 0x6C 0 (sdCode x.sa) (sdCode x.sb) (b1 x.sp ++ BitVec.ofNat 2 x.nsel.val),
      0#1 ++ x.fa.code ++ x.fb.code ++ b1 x.chk ++ b1 x.chkt ++ b1 x.zc ++ x.toff ++ 0#5]
  | .compress a b f => [packS3 0x6D 0 (sdCode a) (sdCode b) 0, 0#1 ++ f.code ++ 0#25]
  | .accz t n => [packS3 0x6E 0 0 0 0, 0#1 ++ t ++ BitVec.ofNat 2 n.val ++ 0#18]
  | .accmvOut a t n f => [packS3 0x6F 0 (sdCode a) 0 0, 0#1 ++ t ++ BitVec.ofNat 2 n.val ++ f.code ++ 0#12]
  | .accmvIn a t n f => [packS3 0x6F 0 (sdCode a) 0 1, 0#1 ++ t ++ BitVec.ofNat 2 n.val ++ f.code ++ 0#12]
  | .attn x => [packS3 0x70 0 (sdCode x.sa) 0 0,
      0#1 ++ x.fqk.code ++ x.fv.code ++ BitVec.ofNat 2 x.dsel.val ++ b1 x.ksrc ++ b1 x.causal ++ b1 x.init ++
      b1 x.fin ++ 0#13]
  | .kvwalk x => [packS3 0x71 0 x.sa.code x.sb.code 0,
      0#1 ++ sdCode x.sdst ++ b1 x.dsp ++ x.cntm1 ++ b1 x.unc ++ x.stok.code ++ b1 x.tsp ++ 0#2]
  | .kvappend x => [packS3 0x72 x.sd.code x.sa.code x.sb.code 0,
      0#1 ++ sdCode x.ssrc ++ x.ntm1 ++ b1 x.ssp ++ x.stok.code ++ b1 x.tsp ++ 0#8]
  | .kvcommit x => [packS3 0x73 0 x.sa.code x.sb.code x.scope.code, 0#1 ++ x.stok.code ++ b1 x.tsp ++ 0#23]
  | .geoOrient2 x => encGeo 0x74 x
  | .geoOrient3 x => encGeo 0x75 x
  | .geoIncirc x => encGeo 0x76 x
  | .geoInsphr x => encGeo 0x77 x
  | .geoSegx x => encGeo 0x78 x
  | .launch a b f c => [packS3 0x79 0 a.code b.code 0, 0#1 ++ f ++ c ++ 0#20]
  | .waitsem c a b => [packS3 0x7A 0 a.code b.code 0, 0#1 ++ c.code ++ 0#29]
  | .signalsemSet a b => [packS3 0x7B 0 a.code b.code 0, 0#1 ++ 0#2 ++ 0#29]
  | .signalsemAdd a b => [packS3 0x7B 0 a.code b.code 0, 0#1 ++ 1#2 ++ 0#29]
  | .event q a b => [packS3 0x7C 0 a.code b.code (0#2 ++ b1 q)]
  | .csrr d n => [packSI 0x7D (sdCode d) (0#2 ++ 0#3 ++ n)]
  | .csrw s n => [packSI 0x7D s.code (1#2 ++ 0#3 ++ n)]
  | .featq d f => [packSI 0x7E (sdCode d) f.code]
  | .tlbinvPage a b => [packS3 0x7F 0 a.code b.code 0]
  | .tlbinvCtx => [packS3 0x7F 0 0 0 1]
  | .tlbinvAll => [packS3 0x7F 0 0 0 2]
  | _ => []
where
  encGeo (op : BitVec 7) (x : GeoArgs) : List W32 :=
    [packV op x.g x.d.code x.a.code (x.b.code ++ 0#1 ++ b1 x.f32),
     0#1 ++ b1 x.x ++ b1 x.sos ++ b1 x.trapnf ++ f8 x.pd ++ 0#25]

/-- First and extension word as a pair, 0 where there is none. -/
def encodePair (i : Instr) : W32 × W32 :=
  match encode i with
  | [w] => (w, 0)
  | [w, x] => (w, x)
  | _ => (0, 0)

/-- Set the chain bit of a first word (R239). -/
def withChain (w : W32) : W32 := w ||| 0x80000000#32

/-- The instruction our decoder reads from bits laid out as the opcode table numbers them. -/
def decodeTableWord (nbits w : Nat) : Option Instr :=
  let w' := w % 2 ^ nbits
  match decodeWords (BitVec.ofNat 32 w') (BitVec.ofNat 32 (w' / 2 ^ 32)) with
  | .ok i => some i
  | .error _ => none

end Sys2Proof
end

