-- ==== Sys2Proof/Machine/State.lean ====
section
/-! DEFINITION. The state of the machine as plain data: everything the spec gives the module, the model's own scheduling
inputs, and the machine right after cold reset. -/

namespace Sys2Proof.Machine

/-! ### Warps and streams -/

/-- One lane of one vector register: 32 bits and its poison (R40). -/
structure LaneReg where
  val : W32 := 0
  poison : Bool := false
  deriving DecidableEq, Repr

/-- A block of a register window (R49 to R68). `cells` is keyed `128 * j + lane`. -/
structure Block where
  group : Nat := 0
  row : Nat := 0
  absent : Bool := false
  dirty : Bool := false
  lost : Bool := false
  filling : Bool := false
  cells : SMap LaneReg := []
  deriving DecidableEq, Repr

/-- An index register (R318). -/
structure IdxReg where
  mode : XMode := .off
  step : BitVec 4 := 0
  bound : Nat := 0
  base : Nat := 0
  idx : SMap (BitVec 16) := []
  deriving DecidableEq, Repr

/-- A hardware loop level (R224). -/
structure LoopLvl where
  start : W64 := 0
  stop : W64 := 0
  count : W32 := 0
  reload : W32 := 0
  deriving DecidableEq, Repr

/-- A violation log (R41). -/
structure Viol where
  info : W64 := 0
  addr : W64 := 0
  pc : W64 := 0
  deriving DecidableEq, Repr

/-- A path of a warp (R206). `pc` is a word address, or a packet address for an entry at slot 0. -/
structure Path where
  mask : LaneMask := 0
  pc : W64 := 0
  /-- The packet has been entered: the checks of R253 and the wait of R236 are behind. -/
  inside : Bool := false
  /-- The word at which the path entered its packet (R253). -/
  entry : W64 := 0
  handler : Bool := false
  /-- Set by RTE: a header word is no resume point (R446). -/
  strict : Bool := false
  num : Nat := 0
  /-- Which of the thread's fetches of its packet it stands in (R155). -/
  gen : Nat := 0
  deriving DecidableEq, Repr

/-- Where a parked lane waits (R211, R212, R214). -/
inductive ParkSite where
  | join (k : Fin 16)
  | waitk (k : Fin 16)
  | bar
  deriving DecidableEq, Repr

/-- Lanes parked together at the word `at_`: they came on one path. -/
structure Parked where
  site : ParkSite
  mask : LaneMask
  at_ : W64
  num : Nat := 0
  handler : Bool := false
  /-- Which of the thread's fetches of the packet they stand in (R155). -/
  gen : Nat := 0
  deriving DecidableEq, Repr

/-- A wait of a path that began at the issue of its word and is ended by an event. -/
inductive WaitKind where
  | rgrow (n : Nat)
  | convene
  | disband
  | twait (sd : Fin 96) (addr : Nat) (sp : Bool)
  | quorum
  | reform (a : VOp) (n : Nat) (mask : LaneMask)
  | tlbinv (inv : Nat)
  | sem (c : SemCmp) (addr : Nat) (v : W64)
  | event (irq : Bool) (a b : W64)
  deriving DecidableEq, Repr

/-- A path that waits: `lane` is its lowest lane. -/
structure Waiting where
  kind : WaitKind
  lane : Nat
  since : Nat := 0
  /-- The first identifier given out after its word issued: the operations of the thread before it precede the wait (R135). -/
  before : Nat := 0
  deriving DecidableEq, Repr

/-- One fetched packet (R155); `gen` counts the IFENCEs of the thread before its fetch. -/
structure Fetched where
  addr : Nat
  bits : W128
  gen : Nat := 0
  deriving DecidableEq, Repr

/-- The registers and lane states of a warp or of a stream's thread (R45, R206). -/
structure Warp where
  wg : Nat := 0
  num : Nat := 0
  nwarp : Nat := 1
  ctx : Nat := 0
  prio : Nat := 0
  age : Nat := 0
  s : SMap W64 := []
  p : SMap LaneMask := []
  k : SMap LaneMask := []
  cf : SMap Nat := []
  x : SMap IdxReg := []
  l0 : LoopLvl := {}
  l1 : LoopLvl := {}
  arstat : W32 := 0
  viol : Viol := {}
  curb : Nat := 0
  minb : Nat := 0
  blocks : SMap Block := []
  paths : List Path := []
  parked : List Parked := []
  exited : LaneMask := 0
  filed : LaneMask := 0
  tid : SMap Nat := []
  deriving DecidableEq, Repr

/-- The group of words issuing in one clock (R249): what the warp held before it, what it applies at its end, and the first
identifier given out in it. -/
structure Group where
  snap : Warp
  since : Nat := 0
  incs : SMap Int := []
  flags : W32 := 0
  deriving DecidableEq, Repr

/-- What a warp slot or stream holds beside the registers a word reads and writes. -/
structure WarpCtl where
  tvec : W64 := 0
  inTrap : Bool := false
  cause : Nat := 0
  pabft : Bool := false
  pmtx : Bool := false
  mtxCount : Nat := 0
  abftSeq : Nat := 0
  fatal : Bool := false
  /-- Lanes of the handler's path at entry (R441). -/
  trapMask : LaneMask := 0
  /-- The paths frozen at the entry: whether each had passed its packet's wait (R446 step 4). -/
  frozen : List Path := []
  /-- The lanes parked when the handler was entered, as the frame holds them. -/
  frozenParked : List Parked := []
  /-- The path of this lane traps, and its entry waits for a page of the save area: the warp is frozen meanwhile (R441). -/
  entering : Option Nat := none
  saveNum : Nat := 0
  seated : Bool := false
  arrived : Bool := false
  quorumIssue : Option (W32 × W32 × List W64 × Instr) := none
  quorumFlag : Option Nat := none
  unacked : Nat := 0
  fetched : List Fetched := []
  waits : List Waiting := []
  spilled : Option Nat := none
  /-- Blocks whose write-back failed (R68). -/
  lost : List Nat := []
  yld : Bool := false
  bumped : Bool := false
  lastIssue : Nat := 0
  /-- The lowest lane of the path that issued last (R209). -/
  lastLane : Nat := 127
  /-- By lowest lane, how many packets other paths have begun since a ready path last began one (R209). -/
  passed : SMap Nat := []
  /-- How many IFENCEs the thread has issued (R155). -/
  gen : Nat := 0
  /-- An acquire is owed before the next instruction (R154, R158). -/
  acq : Bool := false
  /-- The window in blocks when the handler was entered, and the lost blocks of it that the handler's blocks stand for (R442). -/
  trapCurb : Nat := 0
  trapLost : List Nat := []
  /-- The path of this lane is to take QMISMATCH at its quorum issue (R216). -/
  mismatch : Option Nat := none
  /-- The quorum issue at which the seat trapped while others of its group waited, and whether a handler has moved the pc from it
  since (R217). -/
  qtrap : Option (W64 × Bool) := none
  /-- The groups of packets in the middle of which the paths of these lanes wait (R249). -/
  heldGroup : List (Nat × Group) := []
  /-- The path of this lane waits for a request slot or an operand-log entry: no other path of the warp issues (R82, R117). -/
  stall : Option Nat := none
  boundary : Bool := false
  deriving DecidableEq, Repr

/-- A control core's command stream (R420). -/
structure Stream where
  state : Nat := 0
  errc : Nat := 0
  ctx : Nat := 0
  strpc : W64 := 0
  strarg : W64 := 0
  evqbase : W64 := 0
  evqhead : W64 := 0
  evqtail : W64 := 0
  held : List (BitVec 256) := []
  haltReq : Bool := false
  suspended : Bool := false
  deriving DecidableEq, Repr

/-! ### Grids and workgroups -/

/-- A launch descriptor (R288), its fields as numbers. -/
structure Descr where
  seed : W128 := 0
  spill : Nat := 0
  args : W64 := 0
  entry : W64 := 0
  ngx : Nat := 1
  ngy : Nat := 1
  ngz : Nat := 1
  part : W32 := 0
  prio : Nat := 0
  csize : Nat := 1
  qlog : Nat := 0
  accg : Nat := 0
  spw : Nat := 0
  minb : Nat := 1
  thr : Nat := 1
  deriving DecidableEq, Repr

/-- A grid from its acceptance (R288, R290) to its retirement; `op` is the LAUNCH that started it. -/
structure Grid where
  id : Nat
  ctx : Nat := 0
  depth : Nat := 0
  parent : Option Nat := none
  op : Nat := 0
  cfirst : Nat := 0
  ccnt : Nat := 1
  descr : Descr := {}
  prio : Nat := 0
  /-- Per cluster, how many of its units have been placed (R425). -/
  placed : SMap Nat := []
  retired : Nat := 0
  children : Nat := 0
  held : Bool := false
  /-- By unit and cluster (32 unit + cluster), the clock since which the unit has been passed over in every step (R428, R429). -/
  passed : SMap Nat := []
  deriving DecidableEq, Repr

/-- A thread in the reform unit (R219). -/
structure RThread where
  tid : Nat
  regs : List LaneReg
  preds : BitVec 7
  idx : List (BitVec 16)
  arstat : W32 := 0
  deriving DecidableEq, Repr

/-- A bin of the reform unit (R221). `src` is the filing warp's state for its first thread (R223). -/
structure Bin where
  id : Nat
  wg : Nat
  pc : W64
  key : W32
  n : Nat
  threads : List RThread
  since : Nat
  ready : Bool := false
  /-- The clock at which it became ready (R64). -/
  readyAt : Nat := 0
  /-- Its threads were suspended with their workgroup: their warp owes an acquire (R158). -/
  acq : Bool := false
  src : Warp
  tvec : W64
  deriving DecidableEq, Repr

inductive WgState where
  | resident | leaving | saving | saved | retired
  deriving DecidableEq, Repr

/-- A workgroup (R202, R26, R71). `sp` and `ac` are keyed by logical byte offset and hold what lies in the core store. -/
structure Wg where
  id : Nat
  grid : Nat := 0
  ctx : Nat := 0
  lin : Nat := 0
  unit : Nat := 0
  rank : Nat := 0
  core : Nat := 0
  slot : Nat := 0
  age : Nat := 0
  st : WgState := .resident
  spxt : SMap W64 := []
  sp : List Host.Cell := []
  spSide : SMap W64 := []
  spPoison : SMap Unit := []
  spSidePoison : SMap Unit := []
  accg : List Nat := []
  ac : List Host.Cell := []
  acPoison : SMap Unit := []
  /-- Spill windows whose contents are still to be written out before the first warp issues (R26, R28). -/
  fillWin : List Nat := []
  /-- Bins of the reform unit that left the core with the workgroup's warps (log entry 70). -/
  bins : List Bin := []
  deriving DecidableEq, Repr

/-! ### Translation and memory operations -/

/-- Access kinds (R41, VIOLINFO.ACC). -/
inductive Acc where
  | load | store | atomic | prefetch | engRead | engWrite | fetch | operand
  deriving DecidableEq, Repr

/-- Violation classes (R42). -/
inductive VClass where
  | noncanon | nomap | prot | sprange | clform | clrank | acrange | mmio
  deriving DecidableEq, Repr

/-- A page being translated for a requester (R114, R119, R124): before its lookup, past a miss, translated, a violation that
a fault's answer gives, a violation that an entry gives, or faulted. -/
inductive TrState where
  | wait
  | need
  | ok (leaf : W64)
  | viol (c : VClass)
  | denied (c : VClass)
  | faulted (fid : Nat)
  deriving DecidableEq, Repr

structure TReq where
  id : Nat
  ctx : Nat
  va : Nat
  acc : Acc
  core : Nat := 0
  who : Nat := 0
  eng : Bool := false
  log : Nat := 0
  /-- Translated again from the root (R125). -/
  root : Bool := false
  /-- It has raised or joined a fault (R119). -/
  once : Bool := false
  st : TrState := .need
  deriving DecidableEq, Repr

/-- A cached translation (R115): the leaf entry of a page. -/
structure TlbEntry where
  ctx : Nat
  va : Nat
  pgsz : Nat
  leaf : W64
  deriving DecidableEq, Repr

/-- A cached table entry (R115): the entry read at physical address `pa`. -/
structure WalkEntry where
  ctx : Nat
  va : Nat
  level : Nat
  pa : Nat
  entry : W64
  deriving DecidableEq, Repr

/-- A fault record (R121) and what became of it. -/
structure FaultRec where
  fid : Nat
  ctx : Nat
  va : Nat
  cause : Nat
  acc : Acc
  pgsz : Nat
  core : Nat
  warp : Nat
  eng : Bool
  log : Nat
  level : Nat
  kc : Bool
  ptea : Nat
  pte : W64
  posted : Bool := false
  deriving DecidableEq, Repr

/-- Where one lane's access lands once resolved. -/
inductive Place where
  | phys (pa : Nat) (leaf : W64)
  | sp (wg off : Nat)
  | ac (wg off : Nat)
  | reg (lane byte : Nat)
  | mmio (off : Nat)
  | bad (c : VClass)
  | page (treq off : Nat) (spc : Bool) (cl : Bool)
  deriving DecidableEq, Repr

/-- A lane memory instruction from its issue to its performance (R117). -/
structure MemOp where
  id : Nat
  who : Nat
  core : Nat
  ctx : Nat
  instr : Instr
  pc : W64
  iword : W32 := 0
  xword : W32 := 0
  mask : LaneMask
  ea : SMap Int := []
  place : SMap Place := []
  data : SMap W128 := []
  cmp : SMap W64 := []
  dst : SMap Nat := []
  flag : Option Nat := none
  treqs : List Nat := []
  log : Option Nat := none
  /-- What it touches as R119 compares it: a page of `g:`, or a spill window. -/
  keys : List (Nat × Nat) := []
  /-- A store's requests not yet performed (R82); `none` before they are formed. -/
  reqs : Option (List (Nat × Nat)) := none
  /-- Performed; its acquire waits for a held invalidate (R84). -/
  held : Bool := false
  handler : Bool := false
  /-- Read data of lanes already returned. -/
  started : Bool := false
  /-- Destinations that a member of a higher slot of its group has written, as 128 * register + lane (R249). -/
  outdone : List Nat := []
  deriving DecidableEq, Repr

/-- An engine operation from its issue to its completion (R130). -/
structure EngOp where
  id : Nat
  who : Nat
  core : Nat
  wg : Nat
  ctx : Nat
  instr : Instr
  pc : W64
  iword : W32 := 0
  mask : LaneMask := 0
  vals : List W64 := []
  flags : List (Nat × Nat) := []
  tok : Option (Nat × Bool) := none
  rel : Bool := false
  /-- Memory operations of the issuer that precede it and that it waits for (R148, R149). -/
  after : List Nat := []
  phase : Nat := 0
  pos : Nat := 0
  err : Bool := false
  dmg : Bool := false
  skip : Nat := 0
  born : Nat := 0
  ready : Nat := 0
  treqs : List Nat := []
  nums : List Nat := []
  /-- The warp numbers of a quorum operation's seats that have not retired (R216). -/
  seats : List Nat := []
  lanes : SMap (List W64) := []
  dst : SMap (List Nat) := []
  res : SMap Nat := []
  handler : Bool := false
  /-- As for a lane memory operation; a predicate stands above the registers. -/
  outdone : List Nat := []
  emul : Bool := false
  deriving DecidableEq, Repr

/-! ### Cores and clusters -/

/-- A line of an L1 (R80 to R84). -/
structure L1Line where
  line : Nat
  valid : BitVec 4 := 0
  data : BitVec 1024 := 0
  sb : W64 := 0
  oneFill : Bool := false
  /-- A line of a STREAM page, chosen first for eviction (R78). -/
  stream : Bool := false
  deriving DecidableEq, Repr

/-- An outstanding fill (R81, R84, R143). -/
structure L1Fill where
  line : Nat
  sectors : BitVec 4
  data : BitVec 1024
  sb : W64
  epoch : BitVec 4
  whole : Bool := false
  poison : BitVec 4 := 0
  sbPoison : Bool := false
  stored : BitVec 4 := 0
  stream : Bool := false
  /-- Who waits for it: operation and lane. -/
  waiters : List (Nat × Nat) := []
  deriving DecidableEq, Repr

/-- A block write-back in progress (R68). -/
structure WriteBack where
  who : Nat
  blk : Nat
  block : Block
  va : Nat
  /-- Where its poison map goes. -/
  map : Nat
  ctx : Nat
  deriving DecidableEq, Repr

/-- An entry of the event recorder (R466). -/
structure RecEntry where
  time : Nat
  code : Nat
  warp : Nat
  data : W64
  deriving DecidableEq, Repr

structure Core where
  partw : W32 := 0x00420400
  l1 : SMap L1Line := []
  epoch : BitVec 4 := 0
  fills : List L1Fill := []
  /-- Operations whose acquire waits for a held invalidate (R84). -/
  heldInv : List Nat := []
  tlb : List TlbEntry := []
  icache : SMap W128 := []
  bins : List Bin := []
  reserve : Option Nat := none
  wbs : List WriteBack := []
  /-- GEO queue in entry order (R392), copy-engine pieces waiting and running (R489), matrix operations in start order. -/
  geo : List Nat := []
  /-- The lanes in service in the exact unit, four at most: operation and lane (R392). -/
  exact : List (Nat × Nat) := []
  pieces : List Nat := []
  running : Option Nat := none
  lastChunk : Bool := false
  mtx : List Nat := []
  recorder : SMap RecEntry := []
  recidx : Nat := 0
  deriving DecidableEq, Repr

structure Cluster where
  fqbase : W64 := 0
  fqhead : W64 := 0
  fqtail : W64 := 0
  faults : List FaultRec := []
  nextFid : Nat := 0
  tlb : List TlbEntry := []
  walks : List WalkEntry := []
  errbase : W64 := 0
  errhead : W64 := 0
  errtail : W64 := 0
  errlost : BitVec 16 := 0
  secc : W64 := 0
  recctl : W64 := 0x1FFE
  ctxtbase : W64 := 0
  /-- The reservation of R429: grid, unit, cores. -/
  resv : Option (Nat × Nat × List Nat) := none
  emulQ : List Nat := []
  lastStream : Nat := 15
  /-- The clocks of the last 1,024 at which a firmware routine ran while a stream was in RUN (R422). -/
  fwClocks : List Nat := []
  nextStep : Nat := 0
  deriving DecidableEq, Repr

/-! ### Device memory below the L2 -/

/-- A sector entry of a frame (R161) with the bytes stored for a coded sector (R163). -/
structure SectorMeta where
  raw : Bool := true
  psn : Bool := false
  /-- Written whole after the frame's generation was gone (R168). -/
  anew : Bool := false
  ecl : Nat := 0
  bytes : List Byte := []
  deriving DecidableEq, Repr

/-- Frame metadata (R160); `sectors` lists the entries that differ from the reset entry. `draw` is the model's own: under which
draw the base die placed the stored sectors (R162, log entry 87). `damaged`: the sectors whose metadata fail their SECDED code (R167)
and that nothing has written whole since (R168). -/
structure Frame where
  fmt : Nat := 0
  slot : Nat := 0
  gen : Nat := 0
  draw : Nat := 0
  damaged : LaneMask := 0
  sectors : SMap SectorMeta := []
  deriving DecidableEq, Repr

/-- A code-table slot (R165, R169, R170). A table is its 256 code lengths. -/
structure CodeSlot where
  gen : Option Nat := none
  table : List Nat := []
  oldGen : Option Nat := none
  oldTable : List Nat := []
  pending : Option (List Nat) := none
  deriving DecidableEq, Repr

/-- A request accepted by a base die with what it captured (R166, R170). -/
structure BdReq where
  sector : Nat
  write : Bool
  fmt : Nat
  slot : Nat
  gen : Nat
  table : Option (List Nat)
  data : BitVec 256 := 0
  poison : Bool := false
  deriving DecidableEq, Repr

/-! ### Collectives -/

/-- A node of a graph (R475). -/
structure CNode where
  succ : List Nat := []
  dep : Nat := 0
  chunk : Nat := 0
  step : Nat := 0
  peer : Nat := 0
  fmt : Nat := 0
  rm : Nat := 0
  redop : Nat := 0
  eld : Bool := false
  kind : Nat := 5
  dbuf : Nat := 0
  sbuf : Nat := 0
  doff : Nat := 0
  soff : Nat := 0
  len : Nat := 0
  deriving DecidableEq, Repr

/-- What a node of the current run has come to (R481, R485 to R487). -/
structure CNodeRun where
  count : Nat := 0
  ready : Bool := false
  done : Bool := false
  credit : Bool := false
  staged : Option Nat := none
  arrived : Bool := false
  partly : Bool := false
  bitmap : List Bool := []
  sent : Bool := false
  sentAt : Nat := 0
  resends : Nat := 0
  port : Nat := 31
  readyAt : Nat := 0
  onPath : Bool := false
  deriving DecidableEq, Repr

/-- A graph slot (R479 to R481). -/
structure CSlot where
  state : Nat := 0
  ctx : Nat := 0
  engine : Nat := 0
  lerr : Nat := 0
  seq : W32 := 0
  stray : W32 := 0
  dup : W32 := 0
  commid : W32 := 0
  sid : W32 := 0
  nrank : Nat := 0
  rank : Nat := 0
  tmo : Nat := 0
  prio : Nat := 0
  stage : Nat := 0
  peers : List W32 := []
  nodes : List CNode := []
  run : List CNodeRun := []
  bufs : List W64 := []
  runOp : Option Nat := none
  startedAt : Nat := 0
  ended : Bool := false
  queue : List Nat := []
  loads : List Nat := []
  /-- Credits held for later runs: source rank, step, chunk, sequence number. -/
  credits : List (Nat × Nat × Nat × Nat) := []
  deriving DecidableEq, Repr

/-! ### The module -/

/-- Something the module sends out: nothing in the model reads it back. -/
inductive Out where
  | msix (v : Nat)
  /-- Read data, and which of its sectors are poisoned (R89). -/
  | readData (bytes : List Byte) (bad : List Nat)
  /-- The old value of an atomic or a line's side band, poisoned or not (R89). -/
  | oldValue (v : W64) (bad : Bool)
  | linkError
  | ualRead (pa n : Nat)
  | credit (pod acc slot stp chunk : Nat) (seq : Nat)
  | chunk (pod acc slot stp chunk : Nat) (seq : Nat) (bitmap : List Bool) (lines : List (BitVec 1024 × W64 × BitVec 5))
  | chunkAck (pod acc slot stp chunk : Nat) (seq : Nat)
  | thermtrip
  | invalidateHost (line : Nat)
  deriving DecidableEq, Repr

/-- A TLB invalidation in progress (R127). -/
structure Inval where
  id : Nat
  kind : Nat
  ctx : Nat := 0
  va : Nat := 0
  pages : Nat := 0
  who : Option (Nat × Nat) := none
  host : Bool := false
  deriving DecidableEq, Repr

/-- Module registers of R172, R472 and R518, and bring-up state. -/
structure Regs where
  bootState : Nat := 0
  bootErrc : Nat := 0
  warms : BitVec 16 := 0
  imgaddr : W64 := 0
  /-- The bring-up step in progress (R513), and whether the reset was warm. -/
  bootStep : Nat := 1
  warm : Bool := false
  /-- GO was written during step 1 of a cold reset. -/
  bootGo : Bool := false
  attAddr : BitVec 40 := 0
  attBusy : Option Nat := none
  attOvr : Bool := false
  attErr : Bool := false
  pwrcap : BitVec 12 := 2800
  trip : Bool := false
  cclk : Nat := 3000
  avg : BitVec 12 := 0
  tlbCtx : BitVec 12 := 0
  tlbCnt : BitVec 17 := 0
  tlbBusy : Bool := false
  tlbOvr : Bool := false
  tlbErr : Bool := false
  tlbiva : W64 := 0
  ctxCtx : BitVec 12 := 0
  ctxBusy : Option (Nat × Nat) := none
  ctxOvr : Bool := false
  ctxRes : Bool := false
  cxCmd : Option (Nat × Nat × Nat × Nat) := none
  cxPos : Nat := 0
  cxaddr0 : W64 := 0
  cxaddr1 : W64 := 0
  cxOvr : Bool := false
  cxErrc : Nat := 0
  cxDone : Nat := 0
  modid : W64 := 0
  ports : SMap (Bool × BitVec 16 × W32) := []
  measurement : List Byte := []
  image : List Byte := []
  suspended : List Nat := []
  /-- The host link can complete no access (R22). An outside condition. -/
  hostLost : Bool := false
  deriving DecidableEq, Repr

/-- Everything below the cores: the L2's contents, the base dies. -/
structure Mem where
  /-- Physical memory: strictly rising addresses, no byte equal to 0 (what an unlisted address reads as). -/
  cells : List Host.Cell := []
  /-- Side bands by line number (R90). -/
  side : SMap W64 := []
  /-- Poisoned sectors by sector number, and poisoned side bands by line number (R89). -/
  poison : SMap Unit := []
  sbPoison : SMap Unit := []
  /-- Sectors present in the L2, by line (R98, R102, R103). -/
  present : SMap (BitVec 4) := []
  /-- Device lines the host may hold (R473). -/
  hostHeld : SMap Unit := []
  frames : SMap Frame := []
  slots : SMap CodeSlot := []
  bdq : List BdReq := []
  deriving DecidableEq, Repr

/-- Who asked: the thread, whether its engine did, its context and the word's address (R463). -/
structure Requester where
  who : Option Nat := none
  eng : Bool := false
  ctx : Nat := 0
  pc : W64 := 0
  deriving DecidableEq, Repr

/-- Where a bit of storage is found wrong: L1 data (R86), an L2 sector or side band (R89), a sector, side band or frame's metadata
in a stack (R98, R160), a register lane, scratchpad or accumulator byte (R461). -/
inductive UpsetAt where
  | l1 (core line : Nat)
  | l2 (sector : Nat)
  | l2Side (line : Nat)
  | hbm (sector : Nat)
  | hbmSide (line : Nat)
  | metadata (frame : Nat)
  | reg (who r lane : Nat)
  | sp (wg off : Nat)
  | ac (wg off : Nat)
  deriving DecidableEq, Repr

/-- A physical upset that the coming step detects: one bit, which its code corrects, or more; and the access that meets it. -/
structure Upset where
  place : UpsetAt
  single : Bool := true
  by_ : Requester := {}
  deriving DecidableEq, Repr

/-- A request that a link cannot complete (R22, R471): of thread `who` for operation `tag`, the address as formed, since when it
waits for a port, and whether its error response has come. -/
structure LinkReq where
  who : Nat
  tag : Nat
  addr : Nat
  since : Nat := 0
  failed : Bool := false
  deriving DecidableEq, Repr

/-- The word being issued: its thread, its path (by lowest lane), its bits and its place. -/
structure Cur where
  who : Nat
  lane : Nat
  iword : W32 := 0
  xword : W32 := 0
  flag : Option Nat := none
  chain : Bool := false
  yld : Bool := false
  group : Option Group := none
  deriving DecidableEq, Repr

structure State where
  /-- Clocks since cold reset (R245). -/
  clock : Nat := 0
  /-- How many open values have been drawn. The model's own field. -/
  fresh : Nat := 0
  /-- Events to take before anything else. The model's own field. -/
  agenda : List Instr := []
  /-- Which thread issues next: who and lane. The model's own field. -/
  turns : List (Nat × Nat) := []
  /-- Extra clocks of the coming steps. The model's own field. -/
  delays : List Nat := []
  /-- Physical upsets that the coming step detects (R86, R89, R98, R461). The model's own field. -/
  upsets : List Upset := []
  /-- Control cores whose next firmware routine traps, with the cause (R451). The model's own field. -/
  fwTraps : SMap Nat := []
  /-- The next identifier for an operation, request or grid. The model's own field. -/
  nextId : Nat := 0
  cur : Option Cur := none
  /-- The last word could not issue and waits. The model's own field. -/
  blocked : Bool := false
  warps : SMap Warp := []
  ctls : SMap WarpCtl := []
  streams : SMap Stream := []
  grids : SMap Grid := []
  wgs : SMap Wg := []
  treqs : SMap TReq := []
  mops : SMap MemOp := []
  eops : SMap EngOp := []
  cores : SMap Core := []
  clusters : SMap Cluster := []
  /-- Context descriptors as read when a stream started or a grid was dispatched (R417). -/
  ctxs : SMap (BitVec 512) := []
  /-- Cached region-table entries, keyed 64 * context + region (R128). -/
  regions : SMap W64 := []
  invals : List Inval := []
  /-- Requests of operations under way that no link has completed. -/
  linkReqs : List LinkReq := []
  cslots : SMap CSlot := []
  mem : Mem := {}
  regs : Regs := {}
  outbox : List Out := []
  deriving DecidableEq, Repr

/-- Why the machine stops. No behaviour of the spec stops it: traps, violations and errors are next states. -/
inductive Fault where
  /-- Raised by no meaning: the spec names no access that stops the machine. Safe. -/
  | none
  deriving DecidableEq, Repr

/-- Why an instruction has no meaning. -/
inductive Refusal where
  /-- An arm of exec whose instruction has no meaning yet. Safe: nothing is claimed of it. -/
  | notModelled (mnemonic : String)
  deriving DecidableEq, Repr

/-- The canonical form of a byte memory: addresses strictly rising, no byte equal to what an unlisted address reads as. -/
def Memory.wf : List Host.Cell → Bool
  | [] => true
  | [(_, b)] => b != 0
  | (a, b) :: (a', b') :: m => b != 0 && decide (a < a') && Memory.wf ((a', b') :: m)

/-- The machine right after cold reset (R512): every field at its reset value. -/
def State.reset : State := {}

end Sys2Proof.Machine
end

