-- ==== Sys2Proof/Machine/Map.lean ====
section
/-! DEFINITION. Reading and writing sparse maps and byte memories, little-endian byte strings and lane masks. -/

namespace Sys2Proof.Machine

/-- The entry at `k`, if any. -/
def mget {α : Type} : SMap α → Nat → Option α
  | [], _ => none
  | (a, v) :: m, k => if a = k then some v else mget m k

def mgetD {α : Type} (m : SMap α) (k : Nat) (d : α) : α := (mget m k).getD d

/-- Set the entry at `k`, keeping keys in rising order. -/
def mset {α : Type} : SMap α → Nat → α → SMap α
  | [], k, v => [(k, v)]
  | (a, w) :: m, k, v =>
    if a = k then (k, v) :: m
    else if k < a then (k, v) :: (a, w) :: m
    else (a, w) :: mset m k v

def mdel {α : Type} (m : SMap α) (k : Nat) : SMap α := m.filter (fun e => e.1 != k)

def mkeys {α : Type} (m : SMap α) : List Nat := m.map Prod.fst

def mvals {α : Type} (m : SMap α) : List α := m.map Prod.snd

def mhas {α : Type} (m : SMap α) (k : Nat) : Bool := (mget m k).isSome

/-! ### Byte memories: an unlisted address reads as 0 -/

/-- The byte at an address (R133). -/
def Memory.read : List Host.Cell → Nat → Byte
  | [], _ => 0
  | (a, b) :: m, k => if a = k then b else Memory.read m k

def Memory.readN (m : List Host.Cell) (a : Nat) : Nat → List Byte
  | 0 => []
  | n + 1 => Memory.read m a :: Memory.readN m (a + 1) n

/-- The cells of a byte string placed at `a`, without its zero bytes. -/
def Memory.cellsOf : Nat → List Byte → List Host.Cell
  | _, [] => []
  | a, b :: bs => if b = 0 then Memory.cellsOf (a + 1) bs else (a, b) :: Memory.cellsOf (a + 1) bs

/-- Store a byte string at `a`, keeping the canonical form. -/
def Memory.write (m : List Host.Cell) (a : Nat) (bs : List Byte) : List Host.Cell :=
  m.filter (fun c => decide (c.1 < a)) ++ Memory.cellsOf a bs ++ m.filter (fun c => decide (a + bs.length ≤ c.1))

/-! ### Little-endian byte strings (R9) -/

def leNat : List Byte → Nat
  | [] => 0
  | b :: bs => b.toNat + 256 * leNat bs

def toLe : Nat → Nat → List Byte
  | 0, _ => []
  | n + 1, v => BitVec.ofNat 8 v :: toLe n (v / 256)

def leWord (w : Nat) (bs : List Byte) : BitVec w := BitVec.ofNat w (leNat bs)

/-! ### Lane masks -/

def laneBit (L : Nat) : LaneMask := (1 : LaneMask) <<< L

def fullMask : LaneMask := BitVec.allOnes 128

/-- The lanes of a mask in ascending order. -/
def lanesOf (m : LaneMask) : List Nat := if m = 0 then [] else (List.range 128).filter (fun L => m.getLsbD L)

def lowLane (m : LaneMask) : Nat := ((lanesOf m).head?).getD 0

def countLanes (m : LaneMask) : Nat := (lanesOf m).length

def maskOf (ls : List Nat) : LaneMask := ls.foldl (fun m L => m ||| laneBit L) 0

/-- `m` without the lanes of `n`. -/
def mdiff (m n : LaneMask) : LaneMask := m &&& ~~~n

/-- Lanes of `m` at which `f` holds. -/
def maskWhere (m : LaneMask) (f : Nat → Bool) : LaneMask := maskOf ((lanesOf m).filter f)

/-! ### Fields of words -/

def bitsOf {w : Nat} (x : BitVec w) (lo n : Nat) : Nat := (x.toNat >>> lo) % 2 ^ n

/-- Replace the bits of `old` that `mask` selects by those of `v`. -/
def merge {w : Nat} (old mask v : BitVec w) : BitVec w := (old &&& ~~~mask) ||| (v &&& mask)

end Sys2Proof.Machine
end

