-- ==== Sys2Proof/Machine/Access.lean ====
section
/-! DEFINITION. Naming the parts of the state: threads, cores, clusters, workgroups, grids, and the registers of a warp. -/

namespace Sys2Proof.Machine

/-! ### Threads: warp slot w of core k is 64 k + w; stream j of cluster c is 16384 + 16 c + j; a saved or
retired warp keeps its slot's number below a multiple of 32768. The firmware of cluster c's control core is 16896 + c -/

def streamBase : Nat := 16384

def savedBase : Nat := 32768

def isStream (who : Nat) : Bool := decide (streamBase ≤ who) && decide (who < savedBase)

def isSaved (who : Nat) : Bool := decide (savedBase ≤ who)

def coreOf (who : Nat) : Nat := who % savedBase / 64

def slotOf (who : Nat) : Nat := who % 64

/-- The firmware routines of a cluster's control core, as a thread that asks for memory (R121, R450). -/
def firmwareOf (cluster : Nat) : Nat := streamBase + 512 + cluster

def isFirmware (who : Nat) : Bool := isStream who && decide (streamBase + 512 ≤ who)

def clusterOf (who : Nat) : Nat :=
  if isFirmware who then who - streamBase - 512
  else if isStream who then (who - streamBase) / 16 else who % savedBase / 512

/-- A stream's number in its cluster; 16 for a firmware routine (R121). -/
def streamOf (who : Nat) : Nat := if isFirmware who then 16 else (who - streamBase) % 16

def State.warp (s : State) (who : Nat) : Warp := mgetD s.warps who {}

def State.setWarp (s : State) (who : Nat) (w : Warp) : State := { s with warps := mset s.warps who w }

def State.ctl (s : State) (who : Nat) : WarpCtl := mgetD s.ctls who {}

def State.setCtl (s : State) (who : Nat) (c : WarpCtl) : State := { s with ctls := mset s.ctls who c }

def State.core (s : State) (k : Nat) : Core := mgetD s.cores k {}

def State.setCore (s : State) (k : Nat) (c : Core) : State := { s with cores := mset s.cores k c }

def State.cluster (s : State) (c : Nat) : Cluster := mgetD s.clusters c {}

def State.setCluster (s : State) (c : Nat) (x : Cluster) : State := { s with clusters := mset s.clusters c x }

def State.stream (s : State) (j : Nat) : Stream := mgetD s.streams j {}

def State.setStream (s : State) (j : Nat) (x : Stream) : State := { s with streams := mset s.streams j x }

def State.setWg (s : State) (g : Wg) : State := { s with wgs := mset s.wgs g.id g }

def State.setGrid (s : State) (g : Grid) : State := { s with grids := mset s.grids g.id g }

def State.setMop (s : State) (o : MemOp) : State := { s with mops := mset s.mops o.id o }

def State.setEop (s : State) (o : EngOp) : State := { s with eops := mset s.eops o.id o }

def State.setTreq (s : State) (t : TReq) : State := { s with treqs := mset s.treqs t.id t }

/-- The workgroup of a thread; a stream has none. -/
def State.wgOf (s : State) (who : Nat) : Option Wg := if isStream who then none else mget s.wgs (s.warp who).wg

def State.gridOf (s : State) (who : Nat) : Option Grid := (s.wgOf who).bind (fun g => mget s.grids g.grid)

/-- Change what a thread's control part holds. -/
def State.modCtl (s : State) (who : Nat) (f : WarpCtl → WarpCtl) : State := s.setCtl who (f (s.ctl who))

def State.modWarp (s : State) (who : Nat) (f : Warp → Warp) : State := s.setWarp who (f (s.warp who))

def State.modCore (s : State) (k : Nat) (f : Core → Core) : State := s.setCore k (f (s.core k))

def State.modCluster (s : State) (c : Nat) (f : Cluster → Cluster) : State := s.setCluster c (f (s.cluster c))

def State.modStream (s : State) (j : Nat) (f : Stream → Stream) : State := s.setStream j (f (s.stream j))

/-- A fresh identifier. -/
def State.newId (s : State) : Nat × State := (s.nextId, { s with nextId := s.nextId + 1 })

/-- An open value (log entry 6): one per use. -/
def State.freeWord (s : State) : W64 × State := (Config.freeWord s.fresh, { s with fresh := s.fresh + 1 })

/-- A place below `n` that an implementation picks (log entry 6). -/
def State.pick (s : State) (n : Nat) : Nat × State :=
  (if n ≤ 1 then 0 else Config.freePick s.fresh n % n, { s with fresh := s.fresh + 1 })

def State.emit (s : State) (o : Out) : State := { s with outbox := s.outbox ++ [o] }

/-- The warps of a workgroup that are resident. -/
def State.warpsOfWg (s : State) (g : Nat) : List Nat :=
  (s.warps.filter (fun e => decide (e.1 < streamBase) && e.2.wg == g)).map Prod.fst

def State.warpsOfCore (s : State) (k : Nat) : List Nat :=
  (s.warps.filter (fun e => decide (e.1 < streamBase) && coreOf e.1 == k)).map Prod.fst

/-! ### Registers of a warp -/

def Warp.sreg (w : Warp) (n : Nat) : W64 := mgetD w.s n 0

def Warp.setS (w : Warp) (n : Nat) (v : W64) : Warp := { w with s := mset w.s n v }

def Warp.pred (w : Warp) (n : Nat) : LaneMask := if n = 7 then fullMask else mgetD w.p n 0

def Warp.setP (w : Warp) (n : Nat) (m : LaneMask) : Warp := { w with p := mset w.p n m }

def Warp.kmask (w : Warp) (n : Nat) : LaneMask := mgetD w.k n 0

def Warp.setK (w : Warp) (n : Nat) (m : LaneMask) : Warp := { w with k := mset w.k n m }

def Warp.flag (w : Warp) (n : Nat) : Nat := mgetD w.cf n 0

def Warp.setFlag (w : Warp) (n v : Nat) : Warp := { w with cf := mset w.cf n v }

def Warp.xreg (w : Warp) (j : Nat) : IdxReg := mgetD w.x j {}

def Warp.setX (w : Warp) (j : Nat) (x : IdxReg) : Warp := { w with x := mset w.x j x }

def IdxReg.index (x : IdxReg) (L : Nat) : Nat := (mgetD x.idx L 0).toNat

def IdxReg.setIndex (x : IdxReg) (L v : Nat) : IdxReg := { x with idx := mset x.idx L (BitVec.ofNat 16 v) }

def Warp.tidOf (w : Warp) (L : Nat) : Nat := mgetD w.tid L (L + 128 * w.num)

def Warp.block (w : Warp) (b : Nat) : Block := mgetD w.blocks b {}

def Warp.setBlock (w : Warp) (b : Nat) (x : Block) : Warp := { w with blocks := mset w.blocks b x }

/-- One lane of register `r` (R49: register 8 b + j lies in block b). -/
def Warp.reg (w : Warp) (r L : Nat) : LaneReg := mgetD (w.block (r / 8)).cells (128 * (r % 8) + L) {}

def Warp.setReg (w : Warp) (r L : Nat) (v : LaneReg) : Warp :=
  let b := w.block (r / 8)
  w.setBlock (r / 8) { b with dirty := true, cells := mset b.cells (128 * (r % 8) + L) v }

def Warp.val (w : Warp) (r L : Nat) : W32 := (w.reg r L).val

/-- A 64-bit value in a pair: the even register holds the low half (R13). -/
def Warp.val64 (w : Warp) (r L : Nat) : W64 := (w.reg (r + 1) L).val ++ (w.reg r L).val

/-- Lanes that have neither exited nor been filed (R206). -/
def Warp.live (w : Warp) : LaneMask := mdiff fullMask (w.exited ||| w.filed)

def Warp.pathAt (w : Warp) (L : Nat) : Option Path := w.paths.find? (fun p => p.mask.getLsbD L)

/-- Replace the path that holds lane `L`. -/
def Warp.putPath (w : Warp) (L : Nat) (ps : List Path) : Warp :=
  { w with paths := w.paths.filter (fun p => !p.mask.getLsbD L) ++ ps.filter (fun p => p.mask != 0) }

/-- Registers of the window a thread now has: a stream 64 (R419), a handler at most two blocks (R442). -/
def State.windowRegs (s : State) (who : Nat) : Nat :=
  if isStream who then 64
  else if (s.ctl who).inTrap then 8 * min 2 (s.ctl who).trapCurb else 8 * (s.warp who).curb

/-- The VA of a word address. -/
def pktOf (pc : W64) : W64 := pc &&& ~~~0xF#64

/-- Slot of a word address: a packet address stands for slot 0 (R234). -/
def slotIdx (pc : W64) : Nat := (bitsOf pc 2 2) - 1

def wordAddr (pkt : W64) (slot : Nat) : W64 := pkt + BitVec.ofNat 64 (4 * slot + 4)

end Sys2Proof.Machine
end

