-- ==== Sys2Proof/Machine/Compress.lean ====
section
/-! DEFINITION. Exponent coding (06): the element split, canonical codes, coded sectors and what damages them. -/

namespace Sys2Proof.Machine

/-- Fields of a format code (R159): width, exponent bits, mantissa bits, raw bits, and whether it has a sign. -/
structure CodeFmt where
  w : Nat
  e : Nat
  m : Nat
  r : Nat
  signed : Bool
  deriving DecidableEq, Repr

def codeFmt (f : Nat) : Option CodeFmt :=
  if f = 1 then some ⟨16, 8, 7, 8, true⟩
  else if f = 2 then some ⟨16, 5, 10, 11, true⟩
  else if f = 3 then some ⟨8, 4, 3, 4, true⟩
  else if f = 4 then some ⟨8, 5, 2, 3, true⟩
  else if 5 ≤ f ∧ f ≤ 11 then let p := f - 4; some ⟨8, 8 - p, p - 1, p, true⟩
  else if 12 ≤ f ∧ f ≤ 18 then let p := f - 11; some ⟨8, 9 - p, p - 1, p - 1, false⟩
  else none

/-- The code lengths of a table image (R164). -/
def tableOfImage (bs : List Byte) : List Nat :=
  bs.flatMap (fun b => [b.toNat % 16, b.toNat / 16])

/-- R165: some symbol has a code and the Kraft sum is at most 1. -/
def tableValid (t : List Nat) : Bool :=
  t.any (fun l => decide (0 < l)) &&
    decide ((t.map (fun l => if l = 0 then 0 else 2 ^ (15 - l))).sum ≤ 2 ^ 15)

/-- Canonical codewords (R164): symbol, length, code. -/
def codewordsAt (t : List Nat) (len : Nat) (code : Nat) : List (Nat × Nat × Nat) × Nat :=
  (t.zipIdx).foldl (fun (acc : List (Nat × Nat × Nat) × Nat) (x : Nat × Nat) =>
    if x.1 = len then (acc.1 ++ [(x.2, len, acc.2)], acc.2 + 1) else acc) ([], code)

def codewordsFrom (t : List Nat) : Nat → Nat → Nat → List (Nat × Nat × Nat)
  | 0, _, _ => []
  | fuel + 1, len, code =>
    let r := codewordsAt t len code
    r.1 ++ codewordsFrom t fuel (len + 1) (2 * r.2)

def codewords (t : List Nat) : List (Nat × Nat × Nat) := codewordsFrom t 15 1 0

/-- The exponent symbol and the raw part of an element (R159). -/
def splitElem (f : CodeFmt) (x : Nat) : Nat × Nat :=
  ((x >>> f.m) % 2 ^ f.e,
   (if f.signed then (x >>> (f.w - 1)) % 2 * 2 ^ f.m else 0) + x % 2 ^ f.m)

def joinElem (f : CodeFmt) (sym raw : Nat) : Nat :=
  (if f.signed then (raw >>> f.m) % 2 * 2 ^ (f.w - 1) else 0) + sym * 2 ^ f.m + raw % 2 ^ f.m

/-- A code of `len` bits, most significant bit first. -/
def codeBits (len code : Nat) : List Bool := (List.range len).map (fun i => code.testBit (len - 1 - i))

def bitsToNat : List Bool → Nat
  | [] => 0
  | b :: bs => (if b then 1 else 0) + 2 * bitsToNat bs

/-- Code a sector (R163): the code-stream length and the stored bytes, or none where it must be stored raw. -/
def codeSector (f : CodeFmt) (t : List Nat) (bs : List Byte) : Option (Nat × List Byte) :=
  let v := leNat bs
  let n := 256 / f.w
  let cw := codewords t
  let parts := (List.range n).map (fun e => splitElem f ((v >>> (f.w * e)) % 2 ^ f.w))
  let codes := parts.map (fun p => cw.find? (fun c => c.1 = p.1))
  if codes.any Option.isNone then none else
  let stream := codes.flatMap (fun c => match c with | some (_, l, k) => codeBits l k | none => [])
  let raw := ((parts.zipIdx).map (fun p => p.1.2 * 2 ^ (f.r * p.2))).sum
  let rawBytes := n * f.r / 8
  let len := rawBytes + (stream.length + 7) / 8
  if len ≤ 31 then some (stream.length, toLe rawBytes raw ++ toLe ((stream.length + 7) / 8) (bitsToNat stream)) else none

/-- Read one code from the stream: symbol and how many bits it took. A stream that ends inside a code matches no codeword, and
the damage is CODE (log entry 91). -/
def readCode (cw : List (Nat × Nat × Nat)) : Nat → Nat → Nat → List Bool → Option (Nat × List Bool)
  | 0, _, _, _ => none
  | _ + 1, _, _, [] => none
  | fuel + 1, len, code, b :: bs =>
    let code' := 2 * code + (if b then 1 else 0)
    match cw.find? (fun c => decide (c.2.1 = len + 1) && decide (c.2.2 = code')) with
    | some c => some (c.1, bs)
    | none => readCode cw fuel (len + 1) code' bs

def readCodes (cw : List (Nat × Nat × Nat)) : Nat → List Bool → Option (List Nat × List Bool)
  | 0, bs => some ([], bs)
  | n + 1, bs =>
    match readCode cw 15 0 0 bs with
    | none => none
    | some (sym, rest) => (readCodes cw n rest).map (fun r => (sym :: r.1, r.2))

/-- Damage kinds as ERRLOG's SUB names them (R461). -/
inductive Damage where
  | metadata | gen | length | code
  deriving DecidableEq, Repr

def Damage.sub : Damage → Nat
  | .metadata => 1
  | .gen => 2
  | .length => 3
  | .code => 4

/-- Decode a coded sector with the table it captured (R167, in the order of its checks after META). Its place lies within the frame
(`Frame.offset`), so that OFF plus the length is at most 4,096 without a check. -/
def decodeSector (fmt : Nat) (t : Option (List Nat)) (e : SectorMeta) : Except Damage (List Byte) :=
  match t, codeFmt fmt with
  | some t, some f =>
    let n := 256 / f.w
    let rawBytes := n * f.r / 8
    let len := rawBytes + (e.ecl + 7) / 8
    if 31 < len then .error .length else
    let stream := (e.bytes.drop rawBytes).flatMap (fun b => (List.range 8).map (fun i => b.getLsbD i))
    let raw := leNat (e.bytes.take rawBytes)
    match readCodes (codewords t) n stream with
    | none => .error .code
    | some (syms, rest) =>
      if syms.any (fun s => decide (2 ^ f.e ≤ s)) then .error .code
      else if stream.length - rest.length ≠ e.ecl ∨ rest.any id then .error .length
      else .ok (toLe 32 (((syms.zipIdx).map
        (fun p => joinElem f p.1 ((raw >>> (f.r * p.2)) % 2 ^ f.r) * 2 ^ (f.w * p.2))).sum))
  | none, _ => .error .gen
  | some _, none => .error .gen

/-- The table a request captures: the frame's generation is the slot's current or retained one (R170). -/
def captureTable (slots : SMap CodeSlot) (f : Frame) : Option (List Nat) :=
  let c := mgetD slots f.slot {}
  if c.gen = some f.gen then some c.table
  else if c.oldGen = some f.gen then some c.oldTable
  else none

/-- How a sector is stored under a format and a table: raw, poisoned or coded (R163, R166). -/
def storeSector (fmt : Nat) (t : Option (List Nat)) (bs : List Byte) (psn : Bool) : SectorMeta :=
  if psn then { psn := true }
  else match codeFmt fmt, t with
    | some f, some l =>
      (match codeSector f l bs with
       | some (ecl, st) => { raw := false, ecl := ecl, bytes := st }
       | none => {})
    | some _, none => { anew := true }
    | none, _ => {}

/-- Keep a frame's entries that differ from the reset entry; a sector stored anew has its own metadata again (R168). -/
def Frame.setEntry (f : Frame) (i : Nat) (e : SectorMeta) : Frame :=
  { f with sectors := if e = {} then mdel f.sectors i else mset f.sectors i e, damaged := f.damaged &&& ~~~((1 : LaneMask) <<< i) }

/-- The entry of sector `i` of a frame; an unlisted one is the reset entry (R161, R162). -/
def Frame.entry (f : Frame) (i : Nat) : SectorMeta := mgetD f.sectors i {}

/-- How many bytes sector `i` takes as it is stored (R162). -/
def Frame.storedLen (f : Frame) (i : Nat) : Nat :=
  let e := f.entry i
  match codeFmt f.fmt with
  | some c => if e.raw then 32 else 256 / c.w * c.r / 8 + (e.ecl + 7) / 8
  | none => 32

/-- Offsets that place every stored sector within the frame and let no two overlap (R162). -/
def Frame.placedBy (f : Frame) (off : Nat → Nat) : Bool :=
  (List.range 128).all (fun i => decide (off i + f.storedLen i ≤ 4096) &&
    (List.range 128).all (fun j => i == j || decide (off i + f.storedLen i ≤ off j) || decide (off j + f.storedLen j ≤ off i)))

/-- OFF of sector `i`: 32i in a frame with FMT 0; else the place the base die draws, which R162 leaves open (log entry 87).
A draw that R162 does not allow stands for the raw places. -/
def Frame.offset (f : Frame) (i : Nat) : Nat :=
  if f.fmt != 0 && f.placedBy (Config.placement f.draw) then Config.placement f.draw i else 32 * i

end Sys2Proof.Machine
end

