-- ==== Sys2Proof/Machine/Physical.lean ====
section
/-! DEFINITION. Physical memory as the L2 holds it (03, 06): bytes, side bands, poison, residence, the ERRLOG rings and the
event recorder that the memory side writes. -/

namespace Sys2Proof.Machine

/-! ### The physical address map (R470) -/

def devTop : Nat := 0x9000000000
def hostTop : Nat := 0x8000000000000
def windowTop : Nat := 0xC000000000000

def isDev (pa : Nat) : Bool := decide (pa < devTop)
def isHostPa (pa : Nat) : Bool := decide (devTop ≤ pa) && decide (pa < hostTop)
def isWindow (pa : Nat) : Bool := decide (hostTop ≤ pa) && decide (pa < windowTop)

def winAcc (pa : Nat) : Nat := (pa - hostTop) / 2 ^ 40
def winPa (pa : Nat) : Nat := (pa - hostTop) % 2 ^ 40

/-- This module's accelerator id (R472). -/
def State.ownAcc (s : State) : Nat := bitsOf s.regs.modid 0 10

/-- An address in the window that names this module is its own device memory (R470). -/
def State.normPa (s : State) (pa : Nat) : Nat :=
  if isWindow pa && winAcc pa == s.ownAcc then winPa pa else pa

/-- The line is another module's memory (R471). -/
def State.isRemote (s : State) (pa : Nat) : Bool := isWindow (s.normPa pa)

/-- Where a side band exists (R90): device memory and other modules' device memory. -/
def State.hasSide (s : State) (pa : Nat) : Bool := !isHostPa (s.normPa pa)

/-! ### The event recorder (R466, R467) -/

def State.record (s : State) (core code warp : Nat) (data : W64) : State :=
  if (s.cluster (core / 8)).recctl.getLsbD code && decide (core < 256) then
    s.modCore core (fun c => { c with
      recorder := mset c.recorder (c.recidx % 4096) ⟨s.clock % 2 ^ 40, code, warp, data⟩, recidx := c.recidx + 1 })
  else s

/-! ### Requesters and rings (R462, R463) -/

def Requester.src (r : Requester) : Nat :=
  match r.who with
  | none => 288
  | some w => if isStream w then 256 + clusterOf w else coreOf w

def Requester.slot (r : Requester) : Nat :=
  match r.who with
  | none => 0
  | some w => if isStream w then 0 else slotOf w

/-- The home slice of a line (R88). -/
def homeSlice (pa : Nat) : Nat :=
  let f := fun lo => (pa >>> lo) % 128
  f 7 ^^^ f 14 ^^^ f 21 ^^^ f 28 ^^^ f 35 ^^^ f 42 ^^^ ((pa >>> 49) % 8)

def ringSize (base : W64) : Nat := 2 ^ (min 6 (bitsOf base 0 4) + 6)

def ringSlot (base : W64) (head : W64) (recBytes : Nat) : Nat :=
  bitsOf base 12 40 * 4096 + recBytes * (head.toNat % ringSize base)

def ringFull (base head tail : W64) : Bool := (head - tail).toNat == ringSize base

/-! ### What the L2 holds (R87, R98, R102) -/

def State.frame (s : State) (pa : Nat) : Frame := mgetD s.mem.frames (pa / 4096) {}

def State.setFrame (s : State) (n : Nat) (f : Frame) : State :=
  { s with mem := { s.mem with frames := if f = {} then mdel s.mem.frames n else mset s.mem.frames n f } }

/-- The L2 holds a sector. -/
def Mem.inL2 (m : Mem) (sec : Nat) : Bool := (mgetD m.present (sec / 4) 0).getLsbD (sec % 4)

/-- The L2 holds the four sectors of a line. -/
def Mem.whole (m : Mem) (line : Nat) : Bool := mgetD m.present line 0 == 0xF#4

/-- A request to a base die with the descriptor and the table it captures (R166, R170). -/
def State.capture (s : State) (pa : Nat) (write : Bool) : BdReq :=
  let f := s.frame pa
  { sector := pa / 32, write := write, fmt := f.fmt, slot := f.slot, gen := f.gen, table := captureTable s.mem.slots f }

/-- Whether a request under way, or one of those `l`, holds generation g of slot n. -/
def holdsGen (l : List BdReq) (n g : Nat) : Bool := l.any (fun q => q.slot == n && q.gen == g && q.fmt != 0)

/-- A request is complete: a retained generation that only it held is dropped (R170). -/
def State.releaseGen (s : State) (q : BdReq) : State :=
  let c := mgetD s.mem.slots q.slot {}
  if q.fmt != 0 && c.oldGen == some q.gen && !holdsGen s.mem.bdq q.slot q.gen then
    { s with mem := { s.mem with slots := mset s.mem.slots q.slot { c with oldGen := none, oldTable := [] } } }
  else s

/-- Requests to base dies that are accepted and complete within one access: each counts for its generation meanwhile (R170). -/
def State.holding (s : State) (qs : List BdReq) (f : State → State) : State :=
  if qs.isEmpty then f s
  else
    let t := f { s with mem := { s.mem with bdq := s.mem.bdq ++ qs } }
    qs.foldl State.releaseGen { t with mem := { t.mem with bdq := t.mem.bdq.take s.mem.bdq.length } }

/-- A line leaves the L2: each sector it holds is coded anew under what the request captures (R166), and the frame's sectors are
placed under a new draw. -/
def State.codeLine (s : State) (line : Nat) : State :=
  let pa := 128 * line
  let q := s.capture pa true
  let secs := mgetD s.mem.present line 0
  let f := (List.range 4).foldl (fun (f : Frame) j =>
    if !secs.getLsbD j then f
    else f.setEntry (pa % 4096 / 32 + j)
      (storeSector q.fmt q.table (Memory.readN s.mem.cells (pa + 32 * j) 32) (mhas s.mem.poison (pa / 32 + j))))
    { s.frame pa with draw := if q.fmt = 0 then 0 else s.fresh }
  let s1 := if isDev pa then s.setFrame (pa / 4096) f else s
  { s1 with fresh := s.fresh + 1, mem := { s1.mem with present := mdel s1.mem.present line } }

/-- A line leaves the L2 within another access: its request completes at once. -/
def State.dropLine (s : State) (line : Nat) : State := (s.codeLine line).releaseGen (s.capture (128 * line) true)

/-- A line that its slice has no place for takes that of another, which is not architectural (R88, R103, log entry 86); the lines
`keep` of the same access stay. -/
def State.l2Room (s : State) (line : Nat) (keep : List Nat) : State :=
  if mhas s.mem.present line then s
  else
    let ls := (mkeys s.mem.present).filter (fun l => homeSlice (128 * l) == homeSlice (128 * line))
    let out := ls.filter (fun l => !keep.contains l)
    if ls.length < Config.l2SliceLines || out.isEmpty then s
    else let (k, s1) := s.pick out.length
         s1.dropLine (out.getD k 0)

/-- The L2 takes a sector. -/
def State.takeSector (s : State) (sec : Nat) (keep : List Nat := []) : State :=
  let t := s.l2Room (sec / 4) keep
  { t with mem := { t.mem with present := mset t.mem.present (sec / 4) (mgetD t.mem.present (sec / 4) 0 ||| (1 : BitVec 4) <<< (sec % 4)) } }

/-- The lines an access touches. -/
def linesOf (pa n : Nat) : List Nat := (List.range ((pa + n - 1) / 128 - pa / 128 + 1)).map (fun i => pa / 128 + i)

def sectorsOf (pa n : Nat) : List Nat := (List.range ((pa + n - 1) / 32 - pa / 32 + 1)).map (fun i => pa / 32 + i)

/-- A sector wholly inside the written range loses its poison (R89). -/
def coveredSectors (pa n : Nat) : List Nat :=
  (sectorsOf pa n).filter (fun k => decide (pa ≤ 32 * k) && decide (32 * k + 32 ≤ pa + n))

/-- Bytes written at the L2, whose sectors it holds: poison of covered sectors goes, and the host loses its copies (R89, R473). -/
def State.l2Write (s : State) (pa : Nat) (bs : List Byte) : State :=
  let m := s.mem
  let held := (linesOf pa bs.length).filter (fun l => mhas m.hostHeld l)
  { s with
    mem := { m with
      cells := Memory.write m.cells pa bs
      poison := m.poison.filter (fun e => !(coveredSectors pa bs.length).contains e.1)
      hostHeld := m.hostHeld.filter (fun e => !held.contains e.1) }
    outbox := s.outbox ++ held.map Out.invalidateHost }

def State.rawWrite (s : State) (pa : Nat) (bs : List Byte) : State :=
  { s with mem := { s.mem with cells := Memory.write s.mem.cells pa bs } }

/-! ### ERRLOG (R461 to R464) -/

/-- An ERRLOG record of R463. -/
def errRecord (kind sub : Nat) (addr : W64) (r : Requester) (info : Nat) (seq : W64) : BitVec 256 :=
  addr ++ r.pc ++ BitVec.ofNat 8 kind ++ BitVec.ofNat 4 sub ++ BitVec.ofNat 12 r.ctx ++ BitVec.ofNat 9 r.src ++
    BitVec.ofNat 6 r.slot ++ BitVec.ofBool r.eng ++ BitVec.ofNat 24 info ++ seq

/-- Post a record to the ring of cluster `c`, or count it lost (R462). It fills one sector; the lines `keep` stay in the L2. -/
def State.postErr (s : State) (c kind sub : Nat) (addr : W64) (r : Requester) (info : Nat) (keep : List Nat := []) : State :=
  let k := s.cluster c
  if ringFull k.errbase k.errhead k.errtail then
    s.setCluster c { k with errlost := if k.errlost = 0xFFFF#16 then k.errlost else k.errlost + 1 }
  else
    let slot := ringSlot k.errbase k.errhead 32
    let s1 := (s.takeSector (slot / 32) keep).l2Write slot (toLe 32 (errRecord kind sub addr r info k.errhead).toNat)
    let s2 := (s1.setCluster c { k with errhead := k.errhead + 1 }).emit (.msix (512 + c))
    match r.who with
    | some w => if isStream w then s2 else s2.record (coreOf w) 10 (slotOf w) k.errhead
    | none => s2

/-- The cluster whose ring takes a memory error at `pa` (R462). -/
def errCluster (r : Requester) (pa : Nat) (l2 : Bool) : Nat :=
  match r.who with
  | some w => clusterOf w
  | none => if l2 then 8 * (homeSlice pa / 32) else 0

/-- A corrected soft error counts in SECC (R465). -/
def State.correct (s : State) (c : Nat) : State := s.modCluster c (fun k => { k with secc := k.secc + 1 })

/-! ### Fetching sectors into the L2 -/

/-- What the base die returns for a sector that is not in the L2 (R166 to R168): the bytes, poison, or damage. META and GEN
damage reach sectors stored raw, too; a sector written whole since the frame's generation went is out of GEN damage's reach, which
is the model's choice (log entry 108). -/
def State.baseRead (s : State) (pa : Nat) : Except (Option Damage) (Option (List Byte)) :=
  let f := s.frame pa
  let i := pa % 4096 / 32
  let e := f.entry i
  if f.damaged.getLsbD i then .error (some .metadata)
  else if e.psn then .error none
  else if f.fmt != 0 && !e.anew && (captureTable s.mem.slots f).isNone then .error (some .gen)
  else if e.raw then .ok none
  else match decodeSector f.fmt (captureTable s.mem.slots f) e with
    | .ok bs => .ok (some bs)
    | .error d => .error (some d)

def State.poisonSector (s : State) (sec : Nat) : State :=
  { s with mem := { s.mem with poison := mset s.mem.poison sec () } }

/-- Bring one sector into the L2, marking and logging damage (R168); a sector marked before is not logged again (R461). -/
def State.fetchSector (s : State) (pa : Nat) (r : Requester) (keep : List Nat := []) : State :=
  if mhas s.mem.poison (pa / 32) then s
  else match s.baseRead pa with
    | .ok none => s
    | .ok (some bs) => s.rawWrite (pa / 32 * 32) bs
    | .error none => s.poisonSector (pa / 32)
    | .error (some d) =>
      (s.poisonSector (pa / 32)).postErr (errCluster r pa false) 3 d.sub (BitVec.ofNat 64 (pa / 32 * 32)) r 0 keep

/-- The L2 never holds the sector (R471), or cannot get it now: the host link completes no access (R22). -/
def State.noSector (s : State) (sec : Nat) : Bool := s.isRemote (32 * sec) || (s.regs.hostLost && isHostPa (32 * sec))

/-- Bring one sector into the L2. -/
def State.touchSector (s : State) (sec : Nat) (r : Requester) (keep : List Nat := []) : State :=
  if s.mem.inL2 sec || s.noSector sec then s
  else
    let s1 := if isDev (32 * sec) && mhas s.mem.frames (sec / 128) then s.fetchSector (32 * sec) r keep else s
    s1.takeSector sec keep

/-- The requests to base dies by which an access brings in those of the sectors `secs` that are coded (R166). -/
def State.fetches (s : State) (secs : List Nat) : List BdReq :=
  ((secs.filter (fun k => !s.mem.inL2 k && isDev (32 * k) && mhas s.mem.frames (k / 128))).map (fun k => s.capture (32 * k) false)).filter
    (fun q => q.fmt != 0)

/-- Bring in the sectors an access touches (R98). -/
def State.touch (s : State) (pa n : Nat) (r : Requester) : State :=
  if n = 0 then s
  else s.holding (s.fetches (sectorsOf pa n)) (fun t => (sectorsOf pa n).foldl (fun t k => t.touchSector k r (linesOf pa n)) t)

def State.touchLine (s : State) (line : Nat) (r : Requester) : State := s.touch (128 * line) 128 r

/-- A host-memory access that the link cannot complete (R22). -/
def State.hostFails (s : State) (pa n : Nat) : Bool :=
  s.regs.hostLost && n != 0 && (sectorsOf pa n).any (fun k => isHostPa (32 * k) && !s.mem.inL2 k)

/-- A port carries UALink traffic. -/
def State.linkUp (s : State) : Bool := (mvals s.regs.ports).any (fun p => p.1)

/-- An access that its link cannot complete: the host's (R22), or no port (R471). -/
def State.linkFails (s : State) (pa n : Nat) : Bool :=
  s.hostFails (s.normPa pa) n || (n != 0 && s.isRemote pa && !s.linkUp)

/-- The LINK record of an access that its link cannot complete (R461): port 31 for the host link, else the port of the last
attempt, which is an open value. -/
def State.linkError (s : State) (pa n : Nat) (addr : W64) (r : Requester) : State :=
  if s.hostFails (s.normPa pa) n then s.postErr (errCluster r pa false) 7 0 addr r 31
  else if s.linkFails pa n then
    let (p, t) := s.pick 18
    t.postErr (errCluster r pa false) 7 0 addr r p
  else s

/-- The error response of a request under address `addr`: its record is posted once (R22, R461, R471). -/
def State.linkLost (s : State) (who tag pa n addr : Nat) (r : Requester) : State :=
  if s.linkReqs.any (fun q => q.who == who && q.tag == tag && q.addr == addr && q.failed) then s
  else
    let rest := s.linkReqs.filter (fun q => !(q.who == who && q.tag == tag && q.addr == addr))
    ({ s with linkReqs := rest ++ [{ who := who, tag := tag, addr := addr, since := s.clock, failed := true }] } : State).linkError pa n
      (BitVec.ofNat 64 addr) r

/-- A request finds no port: it waits from now on, unless it does already (R471). -/
def State.noteNoPort (s : State) (who tag addr : Nat) : State :=
  if s.linkReqs.any (fun q => q.who == who && q.tag == tag && q.addr == addr) then s
  else { s with linkReqs := s.linkReqs ++ [{ who := who, tag := tag, addr := addr, since := s.clock }] }

/-- It has waited 65,536 clocks. -/
def State.portLate (s : State) (who tag addr : Nat) : Bool :=
  s.linkReqs.any (fun q => q.who == who && q.tag == tag && q.addr == addr && (q.failed || decide (q.since + 65536 ≤ s.clock)))

/-- An access of the operation has got an error response. -/
def State.hasLost (s : State) (who tag : Nat) : Bool := s.linkReqs.any (fun q => q.who == who && q.tag == tag && q.failed)

/-- Its requests are forgotten with the operation. -/
def State.dropLost (s : State) (who tag : Nat) : State :=
  { s with linkReqs := s.linkReqs.filter (fun q => !(q.who == who && q.tag == tag)) }

/-- The bytes at a physical address; the line has been touched. -/
def State.physRead (s : State) (pa n : Nat) : List Byte := Memory.readN s.mem.cells (s.normPa pa) n

/-- Some byte of the access lies in a poisoned sector (R89), or the access gets an error response (R22, R471). -/
def State.physPoison (s : State) (pa n : Nat) : Bool :=
  let p := s.normPa pa
  (n != 0 && (sectorsOf p n).any (fun k => mhas s.mem.poison k)) || s.linkFails pa n

/-- Read without changing what the L2 holds: bytes, or none where they are poisoned or damaged. -/
def State.peek (s : State) (pa n : Nat) : Option (List Byte) :=
  let t := s.touch pa n {}
  if t.physPoison pa n then none else some (t.physRead pa n)

/-- A write at the L2: a sector that it does not cover is fetched first (R166, R168). -/
def State.physWrite (s : State) (pa0 : Nat) (bs : List Byte) (r : Requester) : State :=
  if bs = [] then s else
  let pa := s.normPa pa0
  let cov := coveredSectors pa bs.length
  let keep := linesOf pa bs.length
  let part := (sectorsOf pa bs.length).filter (fun k => !cov.contains k)
  let s1 := s.holding (s.fetches part) (fun t => (sectorsOf pa bs.length).foldl (fun t k =>
    if !cov.contains k then t.touchSector k r keep else if t.noSector k then t else t.takeSector k keep) t)
  if s1.linkFails pa bs.length then s1 else s1.l2Write pa bs

/-! ### Side bands (R90) -/

def State.sideRead (s : State) (line : Nat) : W64 := mgetD s.mem.side (s.normPa (128 * line) / 128) 0

def State.sidePoison (s : State) (line : Nat) : Bool := mhas s.mem.sbPoison (s.normPa (128 * line) / 128)

def State.sideWrite (s : State) (line : Nat) (v : W64) : State :=
  { s with mem := { s.mem with side := mset s.mem.side (s.normPa (128 * line) / 128) v } }

/-- A transfer that brings a whole side band brings its poison, or none (R89). -/
def State.sideMark (s : State) (line : Nat) (bad : Bool) : State :=
  let k := s.normPa (128 * line) / 128
  { s with mem := { s.mem with sbPoison := if bad then mset s.mem.sbPoison k () else mdel s.mem.sbPoison k } }

/-- Mark sectors poisoned by a transfer (R89). -/
def State.physMark (s : State) (secs : List Nat) : State :=
  secs.foldl (fun t k => t.poisonSector k) s

end Sys2Proof.Machine
end

