-- ==== Sys2Proof/Machine/Translate.lean ====
section
/-! DEFINITION. Violations (R39 to R42), contexts and regions (R105 to R107, R415, R416), page walks (R108 to R113), TLBs
(R115, R116) and replayable faults (R119 to R124). -/

namespace Sys2Proof.Machine

/-! ### Violation logs -/

def VClass.code : VClass → Nat
  | .noncanon => 1 | .nomap => 2 | .prot => 3 | .sprange => 4 | .clform => 5 | .clrank => 6 | .acrange => 7 | .mmio => 8

def Acc.code : Acc → Nat
  | .load => 0 | .store => 1 | .atomic => 2 | .prefetch => 3 | .engRead => 4 | .engWrite => 5 | .fetch => 6 | .operand => 7

def spaceCode : Space → Nat
  | .g => 0 | .sp => 1 | .cl => 2 | .rw => 3 | .ac => 4

/-- VIOLINFO of a first violation (R41). -/
def violInfo (spc : Nat) (c : VClass) (acc : Acc) (slot lane : Nat) (eng : Bool) : W64 :=
  BitVec.ofNat 64 (2 ^ 63 + spc * 2 ^ 45 + c.code * 2 ^ 40 + acc.code * 2 ^ 37 + slot * 2 ^ 31 +
    (if eng then 0 else lane) * 2 ^ 24 + (if eng then 2 ^ 23 else 0))

/-- Record a violation: the first whole, a later one as MORE and a count saturating at 0x3FFF (R41). -/
def Viol.log (v : Viol) (info addr pc : W64) : Viol :=
  if v.info.getLsbD 63 then
    let cnt := bitsOf v.info 48 14
    { v with info := (v.info &&& 0x8000FFFFFFFFFFFF#64) ||| 0x4000000000000000#64 |||
        BitVec.ofNat 64 (min 0x3FFF (cnt + 1) * 2 ^ 48) }
  else ⟨info, addr, pc &&& ~~~3#64⟩

def State.logViol (s : State) (who : Nat) (spc : Nat) (c : VClass) (acc : Acc) (lane : Nat) (eng : Bool)
    (addr pc : W64) : State :=
  match mget s.warps who with
  | none => s
  | some w =>
    let info := violInfo spc c acc (if isStream who then 0 else slotOf who) lane eng
    let s1 := s.setWarp who { w with viol := w.viol.log info addr pc }
    if isStream who then s1 else s1.record (coreOf who) 9 (slotOf who) info

/-! ### Contexts and regions -/

/-- Where a cluster finds a context's descriptor (R415). -/
def State.descrAt (s : State) (cl ctx : Nat) : Nat := bitsOf (s.cluster cl).ctxtbase 18 34 * 2 ^ 18 + 64 * ctx

/-- A context descriptor read from memory (R415, R416), or none where its read meets poison. -/
def State.readDescr (s : State) (cl ctx : Nat) : Option (BitVec 512) := (s.peek (s.descrAt cl ctx) 64).map (leWord 512)

/-- A read that meets poison: damage of what it touches is marked and logged (R89, R168). -/
def State.noteBad (s : State) (pa n : Nat) (r : Requester) : State := if (s.peek pa n).isSome then s else s.touch pa n r

/-- The trace of a descriptor read that meets poison. -/
def State.noteDescr (s : State) (cl ctx : Nat) : State := s.noteBad (s.descrAt cl ctx) 64 {}

/-- The descriptor the device last read for a context (R417). -/
def State.ctxDescr (s : State) (ctx : Nat) : BitVec 512 := mgetD s.ctxs ctx 0

def State.ctxField (s : State) (ctx lo n : Nat) : Nat := bitsOf (s.ctxDescr ctx) lo n

/-- The feature floor words of a context (R280, R416). -/
def State.floor0 (s : State) (ctx : Nat) : W64 := BitVec.ofNat 64 (s.ctxField ctx 448 64)
def State.floor1 (s : State) (ctx : Nat) : W64 := BitVec.ofNat 64 (s.ctxField ctx 384 64)
def State.saveBase (s : State) (ctx : Nat) : Nat := s.ctxField ctx 320 64

/-- The floor is a subset of the device's words (R280): every bit and no count above the device's. -/
def floorOk (f0 f1 : W64) : Bool :=
  decide (bitsOf f0 56 8 ≤ 1) && (f0 &&& 0x00FFFFFFFFFF8000#64 == 0) &&
  (f1 &&& 0xFFFFFF00000000C0#64 == 0) && decide (bitsOf f1 32 8 ≤ 32) && decide (bitsOf f1 24 8 ≤ 32) &&
  decide (bitsOf f1 20 4 ≤ 10) && decide (bitsOf f1 16 4 ≤ 8) && decide (bitsOf f1 8 8 ≤ 64) && decide (bitsOf f1 0 6 ≤ 32)

/-- R417. -/
def descrValid (d : BitVec 512) : Bool :=
  d.getLsbD 63 && bitsOf d 308 12 == 0 && bitsOf d 64 201 == 0 && bitsOf d 0 58 == 0 &&
  floorOk (BitVec.ofNat 64 (bitsOf d 448 64)) (BitVec.ofNat 64 (bitsOf d 384 64)) &&
  bitsOf d 320 16 == 0 && bitsOf d 377 7 == 0

structure Region where
  pgsz : Nat
  span : Nat
  host : Bool
  mmio : Bool
  root : Nat
  deriving DecidableEq, Repr

/-- A region entry, or none where it is treated as V = 0 (R106, R107). -/
def Region.ofEntry (e : W64) : Option Region :=
  let pgsz := bitsOf e 60 3
  let span := bitsOf e 54 6
  let root := bitsOf e 12 40 * 4096
  if e.getLsbD 63 && decide (pgsz ≤ 4) && decide (31 ≤ span) && decide (span ≤ 51) &&
      !(e.getLsbD 53 && e.getLsbD 52) && bitsOf e 0 12 == 0 && decide (root < devTop) then
    some ⟨pgsz, span, e.getLsbD 53, e.getLsbD 52, root⟩
  else none

/-- The region-table entry `n` of a context: as cached, or as its table holds it; none where the read meets poison. -/
def State.regionEntry (s : State) (ctx n : Nat) : Option W64 :=
  match mget s.regions (64 * ctx + n) with
  | some e => some e
  | none => (s.peek (s.ctxField ctx 265 43 * 512 + 8 * n) 8).map (leWord 64)

/-- Read a region entry that is not yet cached, and keep it unless it is poisoned (R107, R128). -/
def State.noteRegion (s : State) (ctx n : Nat) (r : Requester) : State :=
  if mhas s.regions (64 * ctx + n) then s
  else
    let t := s.touch (s.ctxField ctx 265 43 * 512 + 8 * n) 8 r
    match t.regionEntry ctx n with
    | some e => { t with regions := mset t.regions (64 * ctx + n) e }
    | none => t

/-- Read the region entry of a virtual address. -/
def State.noteVa (s : State) (ctx va : Nat) (r : Requester) : State :=
  if va < 2 ^ 57 then s.noteRegion ctx (va / 2 ^ 51 % 64) r else s

def State.region (s : State) (ctx va : Nat) : Option Region :=
  (s.regionEntry ctx (va / 2 ^ 51 % 64)).bind Region.ofEntry

/-- The page-offset width (R108). -/
def pageBits (pgsz : Nat) : Nat :=
  match pgsz with
  | 0 => 12 | 1 => 16 | 2 => 21 | 3 => 25 | _ => 30

def Region.pageOf (r : Region) (va : Nat) : Nat := va / 2 ^ pageBits r.pgsz * 2 ^ pageBits r.pgsz

def Region.levels (r : Region) : Nat := (r.span - pageBits r.pgsz + 8) / 9

/-- A violation decided without a walk (R21, R107). -/
def State.vaCheck (s : State) (ctx va : Nat) : Except VClass Region :=
  if 2 ^ 57 ≤ va then .error .noncanon
  else match s.region ctx va with
    | none => .error .nomap
    | some r => if va % 2 ^ 51 / 2 ^ r.span != 0 then .error .nomap else .ok r

/-! ### Leaves -/

def leafR (e : W64) : Bool := e.getLsbD 1
def leafW (e : W64) : Bool := e.getLsbD 2
def leafX (e : W64) : Bool := e.getLsbD 3
def leafWF (e : W64) : Bool := e.getLsbD 4
def leafD (e : W64) : Bool := e.getLsbD 5
def leafCP (e : W64) : Nat := bitsOf e 6 2
def leafHM (e : W64) : Bool := e.getLsbD 9
def leafPfn (e : W64) : Nat := bitsOf e 12 40 * 4096

/-- R110, R111, R470. -/
def leafMalformed (r : Region) (ual : Bool) (e : W64) : Bool :=
  let pfn := leafPfn e
  bitsOf e 52 12 != 0 || bitsOf e 10 2 != 0 || pfn % 2 ^ pageBits r.pgsz != 0 || leafCP e == 3 ||
  (leafHM e && !r.host) || (leafHM e && e.getLsbD 8) || (e.getLsbD 8 && r.mmio) ||
  (leafHM e && decide (pfn < devTop)) || (!leafHM e && decide (devTop ≤ pfn)) ||
  (leafHM e && (decide (windowTop ≤ pfn) || (isWindow pfn && (!ual || decide (devTop ≤ winPa pfn)))))

def accWrites : Acc → Bool
  | .store | .atomic | .engWrite => true
  | _ => false

inductive TrOut where
  | ok (leaf : W64)
  | viol (c : VClass)
  | fault (cause level ptea : Nat) (pte : W64)
  deriving DecidableEq, Repr

/-- What a well-formed leaf grants (R112). -/
def leafGrant (e : W64) (acc : Acc) (level ptea : Nat) : TrOut :=
  match acc with
  | .fetch => if leafX e then .ok e else .viol .prot
  | .store | .engWrite => if leafW e then .ok e else if leafWF e then .fault 2 level ptea e else .viol .prot
  | .atomic =>
    if leafR e && leafW e then .ok e
    else if leafR e && leafWF e then .fault 2 level ptea e else .viol .prot
  | _ => if leafR e then .ok e else .viol .prot

/-! ### The walk -/

/-- The table entry at `pa`: as the walk cache holds it, or as memory does. -/
def State.tableEntry (s : State) (cl ctx pa : Nat) (cached : Bool) : Option W64 :=
  match (if cached then (s.cluster cl).walks.find? (fun w => w.ctx == ctx && w.pa == pa) else none) with
  | some w => some w.entry
  | none => (s.peek pa 8).map (leWord 64)

/-- Walk from level `j` at table `tbl`; answers the outcome, the leaf's address and the table entries met. -/
def State.walkFrom (s : State) (cl ctx : Nat) (r : Region) (ual : Bool) (va : Nat) (acc : Acc) (cached : Bool) :
    Nat → Nat → Nat → List WalkEntry → TrOut × Nat × List WalkEntry
  | 0, _, tbl, seen => (.fault 3 0 tbl 0, tbl, seen)
  | fuel + 1, j, tbl, seen =>
    let l := r.levels
    let sh := pageBits r.pgsz + 9 * (l - 1 - j)
    let idx := if j = 0 then va % 2 ^ r.span / 2 ^ sh else va / 2 ^ sh % 512
    let pa := tbl + 8 * idx
    if j + 1 = l then
      match (s.peek pa 8).map (leWord 64) with
      | none => (.fault 3 j pa 0, pa, seen)
      | some e =>
        if !e.getLsbD 0 then (.fault 1 j pa e, pa, seen)
        else if leafMalformed r ual e then (.fault 3 j pa e, pa, seen)
        else (leafGrant e acc j pa, pa, seen)
    else
      match s.tableEntry cl ctx pa cached with
      | none => (.fault 3 j pa 0, pa, seen)
      | some e =>
        if !e.getLsbD 0 then (.fault 1 j pa e, pa, seen)
        else if bitsOf e 52 12 != 0 || bitsOf e 1 11 != 0 || decide (devTop ≤ leafPfn e) then (.fault 3 j pa e, pa, seen)
        else s.walkFrom cl ctx r ual va acc cached fuel (j + 1) (leafPfn e)
              (⟨ctx, va / 2 ^ sh * 2 ^ sh, j, pa, e⟩ :: seen)

/-- Put an entry in front of a TLB; a full one drops an entry of the implementation's choice (R115). -/
def State.insertTlb (s : State) (l : List TlbEntry) (cap : Nat) (e : TlbEntry) : List TlbEntry × State :=
  let l1 := l.filter (fun x => !(x.ctx == e.ctx && x.va == e.va))
  if l1.length < cap then (e :: l1, s)
  else let (k, s1) := s.pick l1.length
       (e :: l1.eraseIdx k, s1)

def tlbFind (l : List TlbEntry) (ctx page : Nat) : Option W64 :=
  (l.find? (fun x => x.ctx == ctx && x.va == page)).map TlbEntry.leaf

/-- R116: a cached leaf serves a write or an atomic only with W and D set. -/
def usable (acc : Acc) (leaf : W64) : Bool := !accWrites acc || (leafW leaf && leafD leaf)

/-- A core TLB lookup (R114). -/
def State.coreTlb (s : State) (core ctx page : Nat) (acc : Acc) : Option W64 :=
  (tlbFind (s.core core).tlb ctx page).bind (fun e => if usable acc e then some e else none)

/-- Keep a translation in the core TLB and the cluster TLB. -/
def State.keepLeaf (s : State) (cl : Nat) (core : Option Nat) (e : TlbEntry) : State :=
  let (l, s1) := s.insertTlb (s.cluster cl).tlb Config.clusterTlbEntries e
  let s2 := s1.modCluster cl (fun c => { c with tlb := l })
  match core with
  | none => s2
  | some k =>
    let (l', s3) := s2.insertTlb (s2.core k).tlb Config.coreTlbEntries e
    s3.modCore k (fun c => { c with tlb := l' })

/-- Put a table entry in front of a cluster's walk cache; a full one drops an entry of the implementation's choice (R115). -/
def State.keepWalk (s : State) (cl : Nat) (w : WalkEntry) : State :=
  let l := (s.cluster cl).walks.filter (fun x => !(x.ctx == w.ctx && x.pa == w.pa))
  if l.length < Config.walkCacheEntries then s.modCluster cl (fun c => { c with walks := w :: l })
  else let (k, s1) := s.pick l.length
       s1.modCluster cl (fun c => { c with walks := w :: l.eraseIdx k })

/-- The reads of a walk that its walk cache does not answer: damage met is marked and logged (R113, R168). -/
def State.walkReads (s : State) (cl ctx : Nat) (cached : Bool) (seen : List WalkEntry) (last : Nat) (r : Requester) : State :=
  (seen.reverse.map WalkEntry.pa ++ [last]).foldl (fun t pa =>
    if cached && (s.cluster cl).walks.any (fun w => w.ctx == ctx && w.pa == pa) then t else t.touch pa 8 r) s

/-- Translate a page past the core TLB (R113 to R116): cluster TLB, then a walk that sets D for a granted write. -/
def State.walkPage (s0 : State) (cl : Nat) (core : Option Nat) (ctx va : Nat) (acc : Acc) (root : Bool) (q : Requester) :
    TrOut × State :=
  let s := s0.noteVa ctx va q
  match s.vaCheck ctx va with
  | .error c => (.viol c, s)
  | .ok r =>
    let page := r.pageOf va
    match (if root then none else (tlbFind (s.cluster cl).tlb ctx page).bind (fun e => if usable acc e then some e else none)) with
    | some e => (leafGrant e acc 0 0, s.keepLeaf cl core ⟨ctx, page, r.pgsz, e⟩)
    | none =>
      let stale := (tlbFind (s.cluster cl).tlb ctx page).isSome
      let ual := (s.floor0 ctx).getLsbD 13
      let (out, pa, seen) := s.walkFrom cl ctx r ual va acc (!root && !stale) 6 0 r.root []
      let t := s.walkReads cl ctx (!root && !stale) seen pa q
      match out with
      | .ok e =>
        let e' := if accWrites acc then e ||| 0x20#64 else e
        let s1 := if e' == e then t else t.physWrite pa (toLe 8 e'.toNat) q
        let s2 := s1.keepLeaf cl core ⟨ctx, page, r.pgsz, e'⟩
        (.ok e', seen.reverse.foldl (fun u w => u.keepWalk cl w) s2)
      | _ => (out, t)

/-- The physical address a leaf gives. -/
def leafPa (pgsz : Nat) (leaf : W64) (va : Nat) : Nat := leafPfn leaf + va % 2 ^ pageBits pgsz

/-! ### Faults -/

/-- A fault number not outstanding in the cluster. -/
def freshFid (k : Cluster) : Nat :=
  ((List.range (k.faults.length + 1)).map (fun i => (k.nextFid + i) % 65536)).find?
    (fun f => !(k.faults.any (fun x => x.fid == f))) |>.getD 0

/-- Join the outstanding fault of the page, or raise a new one (R119). -/
def State.raiseFault (s : State) (t : TReq) (cause level ptea : Nat) (pte : W64) : State :=
  let cl := if isStream t.who then clusterOf t.who else t.core / 8
  let k := s.cluster cl
  match k.faults.find? (fun f => f.ctx == t.ctx && f.va == t.va) with
  | some f => s.setTreq { t with st := .faulted f.fid, once := true }
  | none =>
    let fid := freshFid k
    let kc := isStream t.who
    let rec_ : FaultRec := {
      fid := fid, ctx := t.ctx, va := t.va, cause := cause, acc := t.acc
      pgsz := (s.region t.ctx t.va).elim 0 Region.pgsz
      core := if kc then cl else t.core
      warp := if kc then streamOf t.who else if t.eng then 0 else slotOf t.who
      eng := t.eng && !kc, log := if t.eng || kc || decide (64 ≤ t.log) then 0 else t.log, level := level, kc := kc, ptea := ptea, pte := pte }
    (s.setTreq { t with st := .faulted fid, once := true }).setCluster cl { k with faults := k.faults ++ [rec_], nextFid := (fid + 1) % 65536 }

/-- Translate for a request: what PAGE_WALK does. -/
def State.walkReq (s : State) (t : TReq) (root : Bool) : State :=
  let cl := if isStream t.who then clusterOf t.who else t.core / 8
  let core := if isStream t.who then none else some t.core
  match s.walkPage cl core t.ctx t.va t.acc root ⟨some t.who, t.eng, t.ctx, 0⟩ with
  | (.ok e, s1) => s1.setTreq { t with st := .ok e }
  | (.viol c, s1) => s1.setTreq { t with st := .denied c }
  | (.fault c l p e, s1) => s1.raiseFault t c l p e

/-- A new request for the page of `va`. -/
def State.newTreq (s : State) (ctx va : Nat) (acc : Acc) (core who : Nat) (eng : Bool) (log : Nat) (st : TrState) : Nat × State :=
  let page := match s.region ctx va with
    | some r => r.pageOf va
    | none => va / 4096 * 4096
  let (id, s1) := s.newId
  (id, s1.setTreq { id := id, ctx := ctx, va := page, acc := acc, core := core, who := who, eng := eng, log := log, st := st })

end Sys2Proof.Machine
end

