-- ==== Sys2Proof/Machine/Store.lean ====
section
/-! DEFINITION. Scratchpad and accumulator bytes (01 R24 to R37), one name for every memory location (R133), engine
translation (R120), completion flags (R237) and completion tokens (R99 to R101). -/

namespace Sys2Proof.Machine

/-! ### Locations -/

/-- A byte location once resolved. -/
inductive Loc where
  | phys (pa : Nat)
  | sp (wg off : Nat)
  | ac (wg off : Nat)
  deriving DecidableEq, Repr

def Loc.add (l : Loc) (n : Nat) : Loc :=
  match l with
  | .phys pa => .phys (pa + n)
  | .sp g o => .sp g (o + n)
  | .ac g o => .ac g (o + n)

def State.modWg (s : State) (g : Nat) (f : Wg → Wg) : State :=
  match mget s.wgs g with
  | some w => s.setWg (f w)
  | none => s

def State.locRead (s : State) (l : Loc) (n : Nat) : List Byte :=
  match l with
  | .phys pa => s.physRead pa n
  | .sp g o => (mget s.wgs g).elim (List.replicate n 0) (fun w => Memory.readN w.sp o n)
  | .ac g o => (mget s.wgs g).elim (List.replicate n 0) (fun w => Memory.readN w.ac o n)

/-- R89 for memory, R461 for 32-byte units of a core store. -/
def State.locPoison (s : State) (l : Loc) (n : Nat) : Bool :=
  match l with
  | .phys pa => s.physPoison pa n
  | .sp g o => (mget s.wgs g).elim false (fun w => n != 0 && (sectorsOf o n).any (fun k => mhas w.spPoison k))
  | .ac g o => (mget s.wgs g).elim false (fun w => n != 0 && (sectorsOf o n).any (fun k => mhas w.acPoison k))

def State.locTouch (s : State) (l : Loc) (n : Nat) (r : Requester) : State :=
  match l with
  | .phys pa => if s.isRemote pa then s else s.touch (s.normPa pa) n r
  | _ => s

def uncover (m : SMap Unit) (o n : Nat) : SMap Unit := m.filter (fun e => !(coveredSectors o n).contains e.1)

def State.locWrite (s : State) (l : Loc) (bs : List Byte) (r : Requester) : State :=
  match l with
  | .phys pa => s.physWrite pa bs r
  | .sp g o => s.modWg g (fun w => { w with sp := Memory.write w.sp o bs, spPoison := uncover w.spPoison o bs.length })
  | .ac g o => s.modWg g (fun w => { w with ac := Memory.write w.ac o bs, acPoison := uncover w.acPoison o bs.length })

/-- Mark the 32-byte units of a range poisoned. -/
def State.locMark (s : State) (l : Loc) (n : Nat) : State :=
  if n = 0 then s else
  match l with
  | .phys pa => if s.linkFails pa n then s else s.physMark (sectorsOf (s.normPa pa) n)
  | .sp g o => s.modWg g (fun w => { w with spPoison := (sectorsOf o n).foldl (fun m k => mset m k ()) w.spPoison })
  | .ac g o => s.modWg g (fun w => { w with acPoison := (sectorsOf o n).foldl (fun m k => mset m k ()) w.acPoison })

/-- The side band of the 128-byte unit that holds a location; none where no side band exists (R90). -/
def State.locSide (s : State) (l : Loc) : Option W64 :=
  match l with
  | .phys pa => if s.hasSide pa then some (s.sideRead (pa / 128)) else none
  | .sp g o => some ((mget s.wgs g).elim 0 (fun w => mgetD w.spSide (o / 128) 0))
  | .ac _ _ => none

def State.locSetSide (s : State) (l : Loc) (v : W64) : State :=
  match l with
  | .phys pa => if s.hasSide pa && !s.linkFails pa 1 then s.sideWrite (pa / 128) v else s
  | .sp g o => s.modWg g (fun w => { w with spSide := mset w.spSide (o / 128) v })
  | .ac _ _ => s

def State.locSidePoison (s : State) (l : Loc) : Bool :=
  match l with
  | .phys pa => s.sidePoison (pa / 128) || s.linkFails pa 1
  | .sp g o => (mget s.wgs g).elim false (fun w => mhas w.spSidePoison (o / 128))
  | .ac _ _ => false

/-- A transfer that brings a whole side band brings its poison, or none (R89). -/
def State.locSideMark (s : State) (l : Loc) (bad : Bool) : State :=
  match l with
  | .phys pa => if s.hasSide pa && !s.linkFails pa 1 then s.sideMark (pa / 128) bad else s
  | .sp g o => s.modWg g (fun w => { w with spSidePoison := if bad then mset w.spSidePoison (o / 128) () else mdel w.spSidePoison (o / 128) })
  | .ac _ _ => s

/-! ### Scratchpad windows (R24, R25) -/

def spKind (e : W64) : Nat := bitsOf e 62 2

def Wg.entry (g : Wg) (off : Nat) : W64 := mgetD g.spxt (off / 65536) 0

inductive SpRes where
  | granule
  | spill (va : Nat)
  | unmapped
  deriving DecidableEq, Repr

def Wg.spRes (g : Wg) (off : Nat) : SpRes :=
  let e := g.entry off
  if 2 ^ 21 ≤ off then .unmapped
  else if spKind e = 1 then .granule
  else if spKind e = 2 then .spill (bitsOf e 16 41 * 65536 + off % 65536)
  else .unmapped

/-- The cohort member of a given rank (R29, R30). -/
def State.member (s : State) (g : Wg) (rank : Nat) : Option Wg :=
  let cs := (mget s.grids g.grid).elim 1 (fun d => d.descr.csize)
  if cs ≤ rank then none
  else if rank = g.rank then some g
  else (mvals s.wgs).find? (fun x => x.grid == g.grid && x.unit == g.unit && x.rank == rank)

/-! ### Engine translation: the engine waits at a faulting page (R120) -/

inductive Ask where
  | ok (pa : Nat) (leaf : W64)
  | viol (c : VClass)
  | wait
  deriving DecidableEq, Repr

/-- The tag of TWAIT's own reads, which no engine makes. -/
def twaitTag : Nat := 2 ^ 40

/-- The tag of instruction fetches. -/
def fetchTag : Nat := 2 ^ 40 + 1

def asks (t : TReq) : Bool := t.eng || t.log == twaitTag || t.log == fetchTag

def State.askKey (s : State) (who tag page : Nat) (acc : Acc) : Option TReq :=
  (mvals s.treqs).find? (fun t => asks t && t.who == who && t.log == tag && t.va == page && t.acc == acc)

/-- Translate `va` for the operation `tag` of thread `who` on `core`, which asks for `n` bytes from `off` beyond it under the address
`formed`. A fetch from an MMIO region is a violation before its leaf is read (R23); any other access learns its page's violation
before class MMIO, an order that the spec leaves open (log entry 102). An access that no link can complete answers with its error
response: it reads poison and writes nothing (R22), on another module after 65,536 clocks without a port (R471). -/
def State.ask (s0 : State) (ctx va : Nat) (acc : Acc) (core who tag : Nat) (formed : Nat := va) (off : Nat := 0) (n : Nat := 1) :
    Ask × State :=
  let cl := if isStream who then clusterOf who else core / 8
  let eng := tag != twaitTag && tag != fetchTag
  let q : Requester := ⟨some who, eng, ctx, 0⟩
  let s := s0.noteVa ctx va q
  match s.vaCheck ctx va with
  | .error c => (.viol c, s)
  | .ok r =>
    if acc == .fetch && r.mmio then (.viol .mmio, s) else
    let page := r.pageOf va
    let done := fun (leaf : W64) (t : State) =>
      let pa := leafPa r.pgsz leaf va
      if r.mmio then (Ask.viol .mmio, t)
      else if !t.linkFails (pa + off) n then (Ask.ok pa leaf, t)
      else if t.isRemote pa && !t.portLate who tag formed then (Ask.wait, t.noteNoPort who tag formed)
      else (Ask.ok pa leaf, t.linkLost who tag (pa + off) n formed { q with pc := (mget t.eops tag).elim 0 EngOp.pc })
    let walk := fun (root : Bool) =>
      match s.walkPage cl (if isStream who then none else some core) ctx va acc root q with
      | (.ok e, t) => done e t
      | (.viol c, t) => (Ask.viol c, t)
      | (.fault c l p e, t) =>
        let (id, t1) := t.newId
        (Ask.wait, t1.raiseFault { id := id, ctx := ctx, va := page, acc := acc, core := core, who := who, eng := eng, log := tag } c l p e)
    match s.askKey who tag page acc with
    | none => walk false
    | some t =>
      match t.st with
      | .viol c | .denied c => (.viol c, s)
      | .faulted _ => (.wait, s)
      | .ok leaf => done leaf s
      | .need | .wait =>
        match s.walkPage cl (if isStream who then none else some core) ctx va acc true q with
        | (.ok e, u) => done e { u with treqs := mdel u.treqs t.id }
        | (.viol c, u) => (.viol c, u)
        | (.fault c l p e, u) => (.wait, u.raiseFault t c l p e)

/-- Forget the answered requests of an operation; the error responses of one still under way count at its end. -/
def State.dropAsks (s : State) (who tag : Nat) : State :=
  { s with
    treqs := s.treqs.filter (fun e => !(asks e.2 && e.2.who == who && e.2.log == tag))
    linkReqs := s.linkReqs.filter (fun q => !(q.who == who && q.tag == tag) || (q.failed && mhas s.eops tag)) }

/-- Pieces of a range that lie in one 4 KiB unit each, as offset and length. -/
def piecesOf (va n : Nat) : List (Nat × Nat) :=
  if n = 0 then [] else
  (List.range ((va + n - 1) / 4096 - va / 4096 + 1)).map (fun i =>
    let lo := max va ((va / 4096 + i) * 4096)
    let hi := min (va + n) ((va / 4096 + i + 1) * 4096)
    (lo - va, hi - lo))

inductive AskSpan where
  | ok (parts : List (Nat × Nat × Nat))   -- offset, physical address, length
  | viol (c : VClass) (va : Nat)
  | wait
  deriving DecidableEq, Repr

def State.askParts (s : State) (ctx va : Nat) (acc : Acc) (core who tag : Nat) : List (Nat × Nat) → AskSpan × State
  | [] => (.ok [], s)
  | (o, n) :: ps =>
    match s.ask ctx (va + o) acc core who tag (va + o) 0 n with
    | (.wait, t) => (.wait, t)
    | (.viol c, t) => (.viol c (va + o), t)
    | (.ok pa _, t) =>
      match t.askParts ctx va acc core who tag ps with
      | (.ok l, u) => (.ok ((o, pa, n) :: l), u)
      | r => r

def State.askSpan (s : State) (ctx va n : Nat) (acc : Acc) (core who tag : Nat) : AskSpan × State :=
  s.askParts ctx va acc core who tag (piecesOf va n)

/-- Write a byte string over translated parts. -/
def State.writeParts (s : State) (parts : List (Nat × Nat × Nat)) (bs : List Byte) (r : Requester) : State :=
  parts.foldl (fun t p => t.physWrite p.2.1 ((bs.drop p.1).take p.2.2) r) s

def State.readParts (s : State) (parts : List (Nat × Nat × Nat)) : List Byte :=
  parts.flatMap (fun p => s.physRead p.2.1 p.2.2)

def State.touchParts (s : State) (parts : List (Nat × Nat × Nat)) (r : Requester) : State :=
  parts.foldl (fun t p => t.locTouch (.phys p.2.1) p.2.2 r) s

def State.poisonParts (s : State) (parts : List (Nat × Nat × Nat)) : Bool :=
  parts.any (fun p => s.physPoison p.2.1 p.2.2)

/-- The bytes of a range where a poisoned sector's are open values: they go to a register that holds no poison (R40, log entry 103). -/
def State.openParts (s : State) (parts : List (Nat × Nat × Nat)) : List Byte × State :=
  if !s.poisonParts parts then (s.readParts parts, s)
  else
    (parts.flatMap (fun p => (List.range p.2.2).map (fun i =>
      if s.physPoison (p.2.1 + i) 1 then (Config.freeWord (s.fresh + p.1 + i)).setWidth 8 else (s.physRead (p.2.1 + i) 1).headD 0)),
     { s with fresh := s.fresh + (parts.map (fun p => p.2.2)).sum })

/-- Lines that the core's own hardware has written leave its L1, and no fill of them under way is installed. -/
def State.l1Forget (s : State) (core : Nat) (parts : List (Nat × Nat × Nat)) : State :=
  let ls := parts.flatMap (fun p => linesOf (s.normPa p.2.1) p.2.2)
  s.modCore core (fun c => { c with
    l1 := c.l1.filter (fun e => !ls.contains e.1)
    fills := c.fills.map (fun f => if ls.contains f.line then { f with stored := 0xF#4 } else f) })

/-! ### Completion flags (R237) -/

def State.incFlag (s : State) (who : Nat) (f : Option Nat) : State :=
  match f with
  | none => s
  | some k => s.modWarp who (fun w => w.setFlag k (w.flag k + 1))

def State.decFlag (s : State) (who : Nat) (f : Option Nat) : State :=
  match f with
  | none => s
  | some k => if mhas s.warps who then s.modWarp who (fun w => w.setFlag k (w.flag k - 1)) else s

/-! ### Completion tokens -/

/-- Where a token lies: its location, or why it cannot be reached (R38: `g:` and `sp:`). -/
inductive TokAt where
  | at_ (l : Loc)
  | viol (c : VClass) (spc : Nat)
  | wait
  deriving DecidableEq, Repr

/-- Resolve a `g:` or `sp:` address of workgroup `wg` for an engine access in one unit; a stream has no scratchpad. -/
def State.locAt (s : State) (wg ctx : Nat) (sp : Bool) (addr : Nat) (acc : Acc) (core who tag : Nat) : TokAt × State :=
  if sp then
    match (if isStream who then none else mget s.wgs wg) with
    | none => (.viol .sprange 1, s)
    | some g =>
      match g.spRes addr with
      | .unmapped => (.viol .sprange 1, s)
      | .granule => (.at_ (.sp wg addr), s)
      | .spill va =>
        match s.ask ctx va acc core who tag addr 0 16 with
        | (.ok pa _, t) => (.at_ (.phys pa), t)
        | (.viol _, t) => (.viol .sprange 1, t)
        | (.wait, t) => (.wait, t)
  else
    match s.ask ctx addr acc core who tag addr 0 16 with
    | (.ok pa _, t) => (.at_ (.phys pa), t)
    | (.viol c, t) => (.viol c 0, t)
    | (.wait, t) => (.wait, t)

/-- R100 at issue: PEND rises by 1. -/
def tokIssue (v : W128) : W128 := merge v 0xFFFFFFFF#128 (v + 1)

/-- R100 at completion: sticky bits, SKIP saturating, DONE up by 1 and PEND down by 1; reserved fields are written 0. -/
def tokDone (v : W128) (err dmg : Bool) (skip : Nat) : W128 :=
  let pend := bitsOf v 0 32 + 2 ^ 32 - 1
  let done := bitsOf v 32 32 + 1
  let sk := min 0xFFFF (bitsOf v 64 16 + skip)
  BitVec.ofNat 128 (pend % 2 ^ 32 + done % 2 ^ 32 * 2 ^ 32 + sk * 2 ^ 64 +
    (if err || v.getLsbD 80 then 2 ^ 80 else 0) + (if dmg || v.getLsbD 81 then 2 ^ 81 else 0) + bitsOf v 88 3 * 2 ^ 88)

def reqOf (who : Nat) (eng : Bool) (ctx : Nat) (pc : W64) : Requester := ⟨some who, eng, ctx, pc⟩

end Sys2Proof.Machine
end

