-- ==== Sys2Proof/Machine/Window.lean ====
section
/-! DEFINITION. Register windows (02 R46 to R69): the partition, where blocks lie, growth and absence. -/

namespace Sys2Proof.Machine

def partRegg (w : W32) : Nat := bitsOf w 6 6
def partSpg (w : W32) : Nat := bitsOf w 12 6
def partAccg (w : W32) : Nat := bitsOf w 18 6

/-- R47. -/
def partValid (w : W32) : Bool :=
  partRegg w % 8 == 0 && decide (8 ≤ partRegg w) && decide (partRegg w ≤ 48) &&
  partRegg w + partSpg w + partAccg w == 64 && bitsOf w 24 8 == 0 && bitsOf w 0 6 == 0

/-- Bank groups of the register region (R49). -/
def State.groups (s : State) (core : Nat) : Nat := partRegg (s.core core).partw / 8

/-- Rows in use on a core: the blocks of its warps, and those whose write-back has not completed (R69). -/
def State.usedRows (s : State) (core : Nat) : List (Nat × Nat) :=
  (s.warpsOfCore core).flatMap (fun w => (mvals (s.warp w).blocks).map (fun b => (b.group, b.row))) ++
    (s.core core).wbs.map (fun w => (w.block.group, w.block.row))

def State.freeOrdinary (s : State) (core : Nat) : Nat :=
  128 * s.groups core - ((s.usedRows core).filter (fun p => decide (p.1 < s.groups core))).length

/-- The lowest free row of a group (R53). -/
def freeRow (used : List (Nat × Nat)) (g rows : Nat) : Option Nat :=
  (List.range rows).find? (fun r => !used.contains (g, r))

/-- Where block `b` of the warp in `slot` goes: the first group in order with a free row (R53). -/
def placeBlock (used : List (Nat × Nat)) (groups slot b : Nat) : Option (Nat × Nat) :=
  ((List.range groups).filterMap (fun i =>
    let g := (slot + b + i) % groups
    (freeRow used g 128).map (fun r => (g, r)))).head?

def placeReserve (used : List (Nat × Nat)) (groups : Nat) : Option (Nat × Nat) :=
  (freeRow used groups 16).map (fun r => (groups, r))

/-- A granted block: zero, no poison, present and dirty (R52, R56, R68). -/
def freshBlock (g r : Nat) : Block := { group := g, row := r, dirty := true }

def absentBlock (g r : Nat) : Block := { group := g, row := r, absent := true }

/-- Give thread `who` the blocks of `bs` from ordinary rows. -/
def State.giveBlocks (s : State) (who : Nat) (bs : List Nat) (mk : Nat → Nat → Block) : State :=
  bs.foldl (fun t b =>
    let core := coreOf who
    match placeBlock (t.usedRows core) (t.groups core) (slotOf who) b with
    | some (g, r) => t.modWarp who (fun w => w.setBlock b (mk g r))
    | none => t) s

/-- Give blocks of the reserve array. -/
def State.giveReserve (s : State) (who : Nat) (bs : List Nat) : State :=
  bs.foldl (fun t b =>
    let core := coreOf who
    match placeReserve (t.usedRows core) (t.groups core) with
    | some (g, r) => t.modWarp who (fun w => w.setBlock b (freshBlock g r))
    | none => t) s

/-- The reserve is free once its holder has no reserve block, a block being written back still counting as its own (R54, R63). -/
def State.settleReserve (s : State) (core : Nat) : State :=
  if (s.usedRows core).any (fun p => p.1 == s.groups core) then s
  else s.modCore core (fun c => { c with reserve := none })

/-- WINW (R55). -/
def State.winw (s : State) (who : Nat) : W32 :=
  let w := s.warp who
  let bs := mvals w.blocks
  let rsv := (bs.filter (fun b => b.group == s.groups (coreOf who))).length
  let abs := (bs.filter (fun b => b.absent)).length
  BitVec.ofNat 32 (w.curb + w.minb * 64 + rsv * 4096 + abs * 131072)

/-! ### Age order and pending requests (R57, R61, R64) -/

/-- A warp is older when its workgroup was dispatched first, and within a workgroup by warp number (R57). -/
def State.older (s : State) (a b : Nat) : Bool :=
  let x := s.warp a
  let y := s.warp b
  decide (x.age < y.age) || (x.age == y.age && decide (x.num < y.num))

def WarpCtl.rgrowWait (c : WarpCtl) : Option Nat :=
  c.waits.findSome? (fun w => match w.kind with | .rgrow n => some n | _ => none)

def WarpCtl.waitsFor (c : WarpCtl) (f : WaitKind → Bool) : Bool := c.waits.any (fun w => f w.kind)

/-- A block request of a core: an RGROW, a readmission or a ready reform bin (R61). -/
inductive BlockReq where
  | grow (who : Nat)
  | readmit (who : Nat)
  | bin (id : Nat)
  deriving DecidableEq, Repr

/-! ### Slots and numbers (R222, R428, R452) -/

/-- The lowest free warp slot of a core. -/
def State.freeSlot (s : State) (core : Nat) : Option Nat :=
  (List.range Config.warpSlots).find? (fun k => !mhas s.warps (64 * core + k))

/-- The lowest warp number from 0 to 15 not in use in a workgroup. -/
def State.freeNum (s : State) (g : Nat) : Option Nat :=
  (List.range 16).find? (fun n => (s.warpsOfWg g).all (fun w => (s.warp w).num != n))

/-- Save numbers in use for a context and cluster (R452). -/
def State.saveNums (s : State) (ctx cl : Nat) : List Nat :=
  (s.warps.filter (fun e => !isStream e.1 && mhas s.ctls e.1 && e.2.ctx == ctx && clusterOf e.1 == cl)).map (fun e => (s.ctl e.1).saveNum)

def State.freeSaveNum (s : State) (ctx cl : Nat) : Option Nat :=
  let used := s.saveNums ctx cl
  (List.range 4096).find? (fun n => !used.contains n)

/-- The ready bin of a core that was created first: ready bins issue in that order (R222). -/
def State.firstBin (s : State) (core : Nat) : Option Bin :=
  (s.core core).bins.find? (fun b => b.ready && (mget s.wgs b.wg).elim false (fun g => g.st == .resident))

/-- A ready bin that only blocks keep from issuing: it is the first, and a slot and a number are there (R61, R222). -/
def State.wantsBlocks (s : State) (core : Nat) (b : Bin) : Bool :=
  (s.firstBin core).any (fun x => x.id == b.id) && (s.freeSlot core).isSome && (s.freeNum b.wg).isSome &&
    (s.freeSaveNum b.src.ctx (core / 8)).isSome

def insertBy {α : Type} (lt : α → α → Bool) (x : α) : List α → List α
  | [] => [x]
  | y :: ys => if lt x y then x :: y :: ys else y :: insertBy lt x ys

def sortBy {α : Type} (lt : α → α → Bool) : List α → List α
  | [] => []
  | x :: xs => insertBy lt x (sortBy lt xs)

/-- The pending block requests of a core, first to be served first: age, except that a readmission ranks after the requests
pending at its spill and after earlier spills (R64), and a bin after every warp of its workgroup (R222). -/
def State.blockReqs (s : State) (core : Nat) : List BlockReq :=
  let ws := s.warpsOfCore core
  let grows := (ws.filter (fun w => (s.ctl w).rgrowWait.isSome && (s.ctl w).spilled.isNone)).map (fun w =>
    (BlockReq.grow w, (s.warp w).age, (s.warp w).num,
      ((s.ctl w).waits.find? (fun x => match x.kind with | .rgrow _ => true | _ => false)).elim 0 Waiting.since))
  let bins := ((s.core core).bins.filter (s.wantsBlocks core)).map (fun b =>
    (BlockReq.bin b.id, (mget s.wgs b.wg).elim 0 Wg.age, 16 + b.id, b.readyAt))
  let base := sortBy (fun (a b : BlockReq × Nat × Nat × Nat) =>
    decide (a.2.1 < b.2.1) || (a.2.1 == b.2.1 && decide (a.2.2.1 < b.2.2.1))) (grows ++ bins)
  let spilled := sortBy (fun (a b : Nat × Nat) => decide (a.2 < b.2))
    (ws.filterMap (fun w => (s.ctl w).spilled.map (fun t => (w, t))))
  spilled.foldl (fun (acc : List (BlockReq × Nat × Nat × Nat)) (x : Nat × Nat) =>
    let age := (s.warp x.1).age
    let num := (s.warp x.1).num
    -- it goes behind the last request that was pending when it was spilled, and otherwise by age
    let must := acc.zipIdx.filter (fun e => decide (e.1.2.2.2 ≤ x.2))
    let at_ := (must.getLast?).elim 0 (fun e => e.2 + 1)
    let tail := acc.drop at_
    acc.take at_ ++ insertBy (fun a b => decide (a.2.1 < b.2.1) || (a.2.1 == b.2.1 && decide (a.2.2.1 < b.2.2.1)))
      (BlockReq.readmit x.1, age, num, x.2) tail) base |>.map Prod.fst

end Sys2Proof.Machine
end

