-- ==== Sys2Proof/Machine/Save.lean ====
section
/-! DEFINITION. Save areas (17 R452, R453, 02 R65): the state layout as bytes and back, block images and poison maps. -/

namespace Sys2Proof.Machine

/-- TSAVE (R452). -/
def State.tsave (s : State) (who : Nat) : Nat :=
  let c := clusterOf who
  s.saveBase (s.warp who).ctx + 0x80000 * (4096 * c + (s.ctl who).saveNum)

/-- Quorum size and seat (R204, R205). -/
def State.qsize (s : State) (who : Nat) : Nat := if isStream who then 1 else (s.gridOf who).elim 1 (fun g => 2 ^ g.descr.qlog)

def State.qseat (s : State) (who : Nat) : Nat := if isStream who then 0 else (s.warp who).num % s.qsize who

/-- The uniform word of an index register (R318). -/
def xmodeNum : XMode → Nat
  | .off => 0 | .array => 1 | .ring => 2 | .stack => 3

def IdxReg.word (x : IdxReg) : W32 :=
  BitVec.ofNat 32 (xmodeNum x.mode * 2 ^ 21 + x.step.toNat * 2 ^ 17 + x.bound * 2 ^ 8 + x.base)

def IdxReg.ofWord (w : W32) (idx : SMap (BitVec 16)) : IdxReg :=
  { mode := XMode.ofCode (BitVec.ofNat 2 (bitsOf w 21 2)), step := BitVec.ofNat 4 (bitsOf w 17 4), bound := bitsOf w 8 9,
    base := bitsOf w 0 8, idx := idx }

/-- Apply summed index changes: modulo 2¹⁶, or modulo BOUND for a ring, whose index is reduced even by a change of 0
(R322). A stack index that falls below 0, in lanes whose own value no word reads or by chained pops, wraps too (log entry 110). -/
def applyDeltas (w : Warp) (ds : SMap Int) : Warp :=
  ds.foldl (fun w e =>
    let j := e.1 / 128
    let L := e.1 % 128
    let x := w.xreg j
    let i : Int := x.index L
    if e.2 = 0 && x.mode != .ring then w else
    let v := if x.mode == .ring then (i + e.2) % (max 1 x.bound : Nat) else (i + e.2) % 65536
    w.setX j (x.setIndex L v.toNat)) w

/-- The word after a one-word instruction at `pc`: in the same packet, or the next packet's first word (R284). -/
def afterWord (pc : W64) : W64 := if bitsOf pc 2 2 = 3 then pktOf pc + 20 else pc + 4

/-- A lane's state word (R453): state, mask number, in the handler, path number. Behind a handler's own paths and parked lanes stand
those frozen at its entry. -/
def laneStateWord (w : Warp) (c : WarpCtl) (handler : LaneMask) (L : Nat) : W64 × W32 :=
  let h := if handler.getLsbD L then 128 else 0
  let paths := w.paths ++ c.frozen.map (fun p => { p with mask := mdiff p.mask handler })
  if w.exited.getLsbD L then (0, 4)
  else if w.filed.getLsbD L then (0, 5)
  else match (w.paths.zipIdx).find? (fun p => p.1.mask.getLsbD L) with
    | some (p, n) => (p.pc, BitVec.ofNat 32 (h + 256 * n))
    | none =>
      match ((w.parked ++ c.frozenParked).zipIdx).find? (fun p => p.1.mask.getLsbD L) with
      | some (q, n) =>
        let st := match q.site with
          | .join k => 1 + 8 * k.val
          | .waitk k => 2 + 8 * k.val
          | .bar => 3
        (q.at_, BitVec.ofNat 32 (h + st + 256 * (paths.length + n)))
      | none =>
        match (paths.zipIdx).find? (fun p => p.1.mask.getLsbD L) with
        | some (p, n) => (p.pc, BitVec.ofNat 32 (256 * n))
        | none => (0, 4)

def loopBytes (l : LoopLvl) : List Byte := toLe 8 l.start.toNat ++ toLe 8 l.stop.toNat ++ toLe 4 l.count.toNat ++ toLe 4 l.reload.toNat

/-- The state layout of R453 for a warp, `handler` marking the lanes that are in the handler. -/
def State.layout (s : State) (who : Nat) (handler : LaneMask) : List Byte :=
  let w := s.warp who
  let c := s.ctl who
  let lanes := (List.range 128).map (laneStateWord w c handler)
  let lost := (((w.blocks.filter (fun b => b.2.lost)).map Prod.fst ++ c.lost).eraseDups.map (fun b => 2 ^ b)).sum
  (List.range 96).flatMap (fun i => toLe 8 (w.sreg i).toNat) ++
  (List.range 7).flatMap (fun i => toLe 16 (mgetD w.p i 0).toNat) ++ List.replicate 16 0 ++
  (List.range 16).flatMap (fun i => toLe 16 (w.kmask i).toNat) ++
  (List.range 8).flatMap (fun j => toLe 4 (w.xreg j).word.toNat) ++ List.replicate 96 0 ++
  (List.range 8).flatMap (fun j => (List.range 128).flatMap (fun L => toLe 2 ((w.xreg j).index L))) ++
  lanes.flatMap (fun p => toLe 8 p.1.toNat) ++ lanes.flatMap (fun p => toLe 4 p.2.toNat) ++
  toLe 4 w.arstat.toNat ++ (List.range 12).flatMap (fun i => toLe 1 (w.flag i)) ++
  loopBytes w.l0 ++ loopBytes w.l1 ++ toLe 8 c.tvec.toNat ++ toLe 4 (s.winw who).toNat ++
  toLe 4 ((if c.pmtx then 1 else 0) + (if c.pabft then 2 else 0) + (if c.inTrap then 4 else 0) +
    8 * s.qseat who + (if c.seated then 64 else 0)) ++
  toLe 4 c.mtxCount ++ toLe 4 lost ++ toLe 8 w.viol.info.toNat ++ toLe 8 w.viol.addr.toNat ++ toLe 8 w.viol.pc.toNat ++
  List.replicate 144 0

def sub (bs : List Byte) (o n : Nat) : Nat := leNat ((bs.drop o).take n)

def loopOf (bs : List Byte) (o : Nat) : LoopLvl :=
  ⟨BitVec.ofNat 64 (sub bs o 8), BitVec.ofNat 64 (sub bs (o + 8) 8), BitVec.ofNat 32 (sub bs (o + 16) 4),
   BitVec.ofNat 32 (sub bs (o + 20) 4)⟩

/-- A sparse map of the nonzero values of `f` below `n`. -/
def tableOf {α : Type} [DecidableEq α] (n : Nat) (zero : α) (f : Nat → α) : SMap α :=
  ((List.range n).map (fun i => (i, f i))).filter (fun e => e.2 != zero)

/-- The lanes of a layout, grouped by path number. -/
def layoutPaths (bs : List Byte) : List Path :=
  let lane := fun L => sub bs (0x1100 + 4 * L) 4
  let onPath := (List.range 128).filter (fun L => lane L % 8 == 0)
  let nums := (onPath.map (fun L => lane L / 256 % 128)).eraseDups
  nums.map (fun n =>
    let ls := onPath.filter (fun L => lane L / 256 % 128 == n)
    { mask := maskOf ls, pc := BitVec.ofNat 64 (sub bs (0xD00 + 8 * (ls.headD 0)) 8), num := n,
      handler := lane (ls.headD 0) / 128 % 2 == 1 })

def siteOf (v : Nat) : ParkSite :=
  let k : Fin 16 := ⟨v / 8 % 16, Nat.mod_lt _ (by decide)⟩
  if v % 8 = 1 then .join k else if v % 8 = 2 then .waitk k else .bar

def layoutParked (bs : List Byte) : List Parked :=
  let lane := fun L => sub bs (0x1100 + 4 * L) 4
  let ps := (List.range 128).filter (fun L => decide (1 ≤ lane L % 8) && decide (lane L % 8 ≤ 3))
  let keys := (ps.map (fun L => (lane L / 256 % 128, lane L % 256, sub bs (0xD00 + 8 * L) 8))).eraseDups
  keys.map (fun k =>
    { site := siteOf k.2.1, handler := k.2.1 / 128 % 2 == 1, at_ := BitVec.ofNat 64 k.2.2, num := k.1
      mask := maskOf (ps.filter (fun L => (lane L / 256 % 128, lane L % 256, sub bs (0xD00 + 8 * L) 8) == k)) })

/-- Read a layout back over a warp: what R446 step 3 reloads. Flags, window and log stay. -/
def Warp.ofLayout (w : Warp) (bs : List Byte) : Warp :=
  let lane := fun L => sub bs (0x1100 + 4 * L) 4 % 8
  { w with
    s := tableOf 96 0 (fun i => BitVec.ofNat 64 (sub bs (8 * i) 8))
    p := tableOf 7 0 (fun i => BitVec.ofNat 128 (sub bs (0x300 + 16 * i) 16))
    k := tableOf 16 0 (fun i => mdiff (BitVec.ofNat 128 (sub bs (0x380 + 16 * i) 16)) w.exited)
    x := (List.range 8).map (fun j => (j, IdxReg.ofWord (BitVec.ofNat 32 (sub bs (0x480 + 4 * j) 4))
      (tableOf 128 0 (fun L => BitVec.ofNat 16 (sub bs (0x500 + 256 * j + 2 * L) 2)))))
    paths := layoutPaths bs
    parked := ((layoutParked bs).map (fun q => { q with mask := mdiff q.mask w.exited })).filter (fun q => q.mask != 0)
    exited := maskOf ((List.range 128).filter (fun L => lane L == 4)) ||| w.exited
    filed := maskOf ((List.range 128).filter (fun L => lane L == 5)) ||| w.filed
    arstat := BitVec.ofNat 32 (sub bs 0x1300 4) &&& 0x7F#32
    l0 := loopOf bs 0x1310
    l1 := loopOf bs 0x1328 }

/-! ### Operand-log and GEO slots (R125, R395, R453) -/

/-- The 64-byte header of a slot. Where its fields stand beyond bit 0 is the model's choice: PC at 8, words at 16 and 20, flag at
24, mask at 32 (log entry 98). -/
def slotHeader (pc : W64) (i x : W32) (mask : LaneMask) (flag : Option Nat) : List Byte :=
  toLe 8 1 ++ toLe 8 pc.toNat ++ toLe 4 i.toNat ++ toLe 4 x.toNat ++ toLe 8 (flag.getD 15) ++ toLe 16 mask.toNat ++ List.replicate 16 0

/-- The word captures a second value: a CAS its compare value, an STMX its scale. -/
def holdsCmp : Instr → Bool
  | .atom _ | .stmx _ => true
  | _ => false

/-- The 16 data bytes of a lane: what it stores, and in the upper half a compare value or a scale (log entry 98). -/
def slotData (o : MemOp) (L : Nat) : W128 :=
  if holdsCmp o.instr then (mgetD o.cmp L 0).setWidth 128 <<< 64 ||| (mgetD o.data L 0 &&& 0xFFFFFFFFFFFFFFFF#128) else mgetD o.data L 0

/-- The pieces of an operand-log slot, each at its offset. -/
def opLogSlot (o : MemOp) : List (Nat × List Byte) :=
  let lanes := List.range 128
  [(0, slotHeader o.pc o.iword o.xword o.mask o.flag),
   (0x40, lanes.map (fun L => BitVec.ofNat 8 (mgetD o.dst L 0))),
   (0x400, lanes.flatMap (fun L => toLe 8 ((mgetD o.ea L 0) % (2 ^ 64 : Nat)).toNat)),
   (0x800, lanes.flatMap (fun L => toLe 16 (slotData o L).toNat))]

/-- A saved memory word as its slot holds it (R125, R453, R460). -/
def MemOp.ofSlot (o : MemOp) (bs : List Byte) : MemOp :=
  let m := BitVec.ofNat 128 (sub bs 32 16)
  let data := fun (L : Nat) => BitVec.ofNat 128 (sub bs (0x800 + 16 * L) 16)
  let lanes := lanesOf m
  { o with
    mask := m
    dst := if o.dst.isEmpty then [] else lanes.map (fun L => (L, sub bs (0x40 + L) 1))
    ea := lanes.map (fun L => (L, (sub bs (0x400 + 8 * L) 8 : Int)))
    data := lanes.map (fun L => (L, if holdsCmp o.instr then (data L) &&& 0xFFFFFFFFFFFFFFFF#128 else data L))
    cmp := lanes.map (fun L => (L, if holdsCmp o.instr then (data L).extractLsb' 64 64 else 0)) }

/-- The pieces of a GEO slot. `n` of a lane's captured values are coordinates, the others ids; each array is by item, then by
lane (log entry 98). -/
def geoSlot (o : EngOp) (n : Nat) : List (Nat × List Byte) :=
  let lanes := List.range 128
  let (i, x) := encodePair o.instr
  let val := fun (L k : Nat) => ((mgetD o.lanes L [])[k]?).getD 0
  [(0, slotHeader o.pc i x o.mask ((o.flags.head?).map Prod.snd)),
   (0x40, lanes.map (fun L => BitVec.ofNat 8 ((mgetD o.dst L []).headD 0))),
   (0x100, lanes.map (fun L => match mget o.res L with
     | some c => BitVec.ofNat 8 (128 + c % 16)
     | none => 0)),
   (0x200, (List.range 5).flatMap (fun k => lanes.flatMap (fun L => toLe 4 ((val L (n + k)).toNat % 2 ^ 32)))),
   (0x1000, (List.range 15).flatMap (fun k =>
     lanes.flatMap (fun L => toLe 4 (if k < n then (val L k).toNat % 2 ^ 32 else 0)) ++
     lanes.flatMap (fun L => toLe 4 (if k < n then (val L k).toNat / 2 ^ 32 else 0))))]

/-! ### Block images (R65) -/

def Block.image (b : Block) : List Byte :=
  (List.range 1024).flatMap (fun i => toLe 4 (mgetD b.cells i {}).val.toNat)

def Block.poisonMap (b : Block) : List Byte :=
  toLe 128 ((b.cells.filter (fun e => e.2.poison)).map (fun e => 2 ^ e.1)).sum

/-- The cells of an image and its poison map. -/
def cellsOfImage (img map_ : List Byte) : SMap LaneReg :=
  ((List.range 1024).map (fun i => (i, (⟨BitVec.ofNat 32 (sub img (4 * i) 4), (leNat map_).testBit i⟩ : LaneReg)))).filter
    (fun e => e.2 != {})

def poisonCells : SMap LaneReg := (List.range 1024).map (fun i => (i, ⟨0, true⟩))

end Sys2Proof.Machine
end

