-- ==== Sys2Proof/Machine/Ops.lean ====
section
/-! DEFINITION. The shared operations of a thread: event records, taking a trap (17 R439 to R443) and returning from one
(R446), the conditions of a release (R144), and where a path goes after a word (R226, R234). -/

namespace Sys2Proof.Machine

/-- Trap causes (R438). -/
inductive Cause where
  | illpkt | illins | bound | align | poison | noflag | window | oprange | loopdiv | loopform | noquorum | partmask
  | qmismatch | seated | resvCombo | mxform | fetchv | tokv | geonf | swtrap | semv | mtxerr | abft
  deriving DecidableEq, Repr

def Cause.code : Cause → Nat
  | .illpkt => 1 | .illins => 2 | .bound => 3 | .align => 4 | .poison => 5 | .noflag => 6 | .window => 7 | .oprange => 8
  | .loopdiv => 9 | .loopform => 10 | .noquorum => 11 | .partmask => 12 | .qmismatch => 13 | .seated => 14
  | .resvCombo => 15 | .mxform => 16 | .fetchv => 17 | .tokv => 18 | .geonf => 19 | .swtrap => 20 | .semv => 21
  | .mtxerr => 32 | .abft => 33

/-- INFO of a trap (R438, R441): one value for every lane of the path, or each offending lane's own. -/
inductive Info where
  | same (v : Nat)
  | each (m : SMap Nat)
  deriving DecidableEq, Repr

def Info.at_ : Info → Nat → Nat
  | .same v, _ => v
  | .each m, L => mgetD m L 0

structure Trap where
  cause : Cause
  info : Info := .same 0
  /-- The trapping word's issue mask (LSTAT). -/
  issue : LaneMask := 0
  resume : W64 := 0
  pc : W64 := 0
  iword : W32 := 0
  xword : W32 := 0
  async : Bool := false
  /-- A FETCHV of a poisoned or damaged packet (R126). -/
  damaged : Bool := false
  deriving DecidableEq, Repr

/-! ### Releases (R144) -/

/-- Every earlier lane memory instruction of the thread has been performed and every store acknowledged. -/
def State.settled (s : State) (who : Nat) : Bool :=
  (mvals s.mops).all (fun o => o.who != who) && (s.ctl who).unacked == 0

/-! ### Event queues of streams (R423, R424) -/

def eventRecord (kind : Nat) (j : Nat) (irq : Bool) (pay0 pay1 pc seq : W64) : BitVec 256 :=
  pay1 ++ pay0 ++ pc ++ BitVec.ofNat 8 kind ++ BitVec.ofNat 4 (j % 16) ++ BitVec.ofNat 5 (j / 16) ++ BitVec.ofBool irq ++
    seq.extractLsb' 0 46

/-- Write a record at HEAD, advance it, and send the interrupt it asks for. -/
def State.putRecord (s : State) (j : Nat) (rec_ : BitVec 256) : State :=
  let x := s.stream j
  let v := merge rec_ 0x3FFFFFFFFFFF#256 (x.evqhead.setWidth 256)
  let s1 := s.physWrite (ringSlot x.evqbase x.evqhead 32) (toLe 32 v.toNat) {}
  let s2 := s1.setStream j { x with evqhead := x.evqhead + 1 }
  if rec_.getLsbD 46 then s2.emit (.msix j) else s2

def Stream.full (x : Stream) : Bool := ringFull x.evqbase x.evqhead x.evqtail

/-- Post a DONE, TRAP or REJECT record, a release at system scope, or hold it while it must wait or the ring is full. -/
def State.postRecord (s : State) (j kind : Nat) (irq : Bool) (pay0 pc : W64) : State :=
  let x := s.stream j
  let r := eventRecord kind j irq pay0 0 pc x.evqhead
  if x.full || !x.held.isEmpty || !s.settled (streamBase + j) then s.setStream j { x with held := x.held ++ [r] } else s.putRecord j r

/-- End a stream's thread: no path issues and no wait is left. -/
def State.stopThread (s : State) (who : Nat) : State :=
  (s.modWarp who (fun w => { w with paths := [], parked := [] })).modCtl who (fun c => { c with waits := [] })

/-! ### Taking a trap -/

/-- R440: the warp stops for good and a WTRAP record is posted. -/
def State.fatalTrap (s : State) (who : Nat) (t : Trap) : State :=
  let c := s.ctl who
  let s1 := s.setCtl who { c with fatal := true, waits := [] }
  let s2 := s1.postErr (clusterOf who) 9 (if c.inTrap then 2 else 1) 0 (reqOf who false (s.warp who).ctx t.pc) t.cause.code
  s2.record (coreOf who) 3 (slotOf who) (BitVec.ofNat 64 (t.cause.code * 2 ^ 56 + t.pc.toNat % 2 ^ 56))

/-- A routine of a control core's firmware that traps posts its record; the request it served is the caller's (R451). -/
def State.firmwareTraps (s : State) (cl : Nat) : Option State :=
  (mget s.fwTraps cl).map (fun cause =>
    ({ s with fwTraps := mdel s.fwTraps cl } : State).postErr cl 9 3 0 (reqOf (firmwareOf cl) false 0 0) cause)

/-- The 32 bytes of a lane's trap words (R443, R453). -/
def trapWords (t : Trap) (L : Nat) : List Byte :=
  toLe 8 t.resume.toNat ++
  toLe 4 (t.cause.code + (if t.async then 256 else 0) + (if t.damaged then 512 else 0)) ++
  toLe 4 (if t.issue.getLsbD L then 1 else 0) ++ toLe 4 t.iword.toNat ++ toLe 4 t.xword.toNat ++ toLe 8 (t.info.at_ L)

/-- Write one piece of a save area; what a violation refuses is not written (log entry 15). A later `g:` read of the core finds it
(R447). -/
def State.saveWrite (s : State) (who va : Nat) (bs : List Byte) : State :=
  let ctx := (s.warp who).ctx
  match s.askSpan ctx va bs.length .store (coreOf who) who 0 with
  | (.ok parts, t) => (t.writeParts parts bs (reqOf who true ctx 0)).l1Forget (coreOf who) parts
  | (.viol c v, t) => t.logViol who 0 c .engWrite 0 true (BitVec.ofNat 64 v) 0
  | (.wait, t) => t

/-- Whether every page of a save range is ready; where one faults, the fault is raised. -/
def State.saveReady (s : State) (who va n : Nat) (acc : Acc) : Bool × State :=
  match s.askSpan (s.warp who).ctx va n acc (coreOf who) who 0 with
  | (.wait, t) => (false, t)
  | (_, t) => (true, t)

def State.saveAllReady (s : State) (who : Nat) (acc : Acc) : List (Nat × Nat) → Bool × State
  | [] => (true, s)
  | (va, n) :: r =>
    match s.saveReady who va n acc with
    | (false, t) => (false, t)
    | (true, t) => t.saveAllReady who acc r

/-- Blocks of the handler's window, fixed at the entry (R441 step 4). -/
def handlerBlocks (c : WarpCtl) : Nat := min 2 c.trapCurb

/-- The interrupted path as the frame records it: its lanes stand at the resume point. -/
def Warp.atResume (w : Warp) (lane : Nat) (resume : W64) : Warp :=
  { w with paths := w.paths.map (fun p => if p.mask.getLsbD lane then { p with pc := resume } else p) }

/-- Where the image of a block and its poison map lie. -/
inductive ImageAt where
  | wait
  /-- A violation, poison or damage is met. -/
  | fails
  | at_ (image map_ : List (Nat × Nat × Nat))

def State.imageParts (s : State) (ctx va map_ core who tag : Nat) (acc : Acc) : ImageAt × State :=
  match s.askSpan ctx va 4096 acc core who tag with
  | (.wait, t) => (.wait, t)
  | (.viol _ _, t) => (.fails, t)
  | (.ok ps, t) =>
    match t.askSpan ctx map_ 128 acc core who tag with
    | (.wait, u) => (.wait, u)
    | (.viol _ _, u) => (.fails, u)
    | (.ok qs, u) =>
      let r := reqOf who false ctx 0
      let v := (u.touchParts ps r).touchParts qs r
      if v.poisonParts ps || v.poisonParts qs then (.fails, v) else (.at_ ps qs, v)

/-- A write-back that cannot be made loses its block: an ERRLOG record, and the block's lost bit (R68). -/
def State.loseBlock (s : State) (who blk va ctx : Nat) : State :=
  (s.postErr (clusterOf who) 5 2 (BitVec.ofNat 64 va) (reqOf who false ctx 0) 0).modCtl who (fun c =>
    { c with lost := if c.lost.contains blk then c.lost else c.lost ++ [blk] })

/-- Write back a block of a trapping warp: its image and its poison map, or nothing of it (R68, R441 step 4). -/
def State.saveBlock (s : State) (who base blk : Nat) (b : Block) : State :=
  let ctx := (s.warp who).ctx
  let va := base + 0x1000 * blk
  match s.imageParts ctx va (base + 0x20000 + 0x80 * blk) (coreOf who) who 0 .store with
  | (.at_ ps qs, t) =>
    let r := reqOf who false ctx 0
    ((t.writeParts ps b.image r).writeParts qs b.poisonMap r).l1Forget (coreOf who) (ps ++ qs)
  | (_, t) => t.loseBlock who blk va ctx

/-- What an entry writes: the frame, the trap words, and the images of the handler's blocks (R441 steps 2 to 4). -/
def State.entryRanges (s : State) (who : Nat) : List (Nat × Nat) :=
  let w := s.warp who
  let base := s.tsave who
  let dirty := (List.range (min 2 w.curb)).filter (fun b => !(w.block b).absent && (w.block b).dirty)
  [(base + 0x24000, 0x1400), (base + 0x27000, 0x1000)] ++
    dirty.flatMap (fun b => [(base + 0x1000 * b, 0x1000), (base + 0x20000 + 0x80 * b, 0x80)])

/-- A trap of the thread is taken at once, or what it leaves where a page of the save area must be serviced first. -/
def State.entryWaits (s : State) (who : Nat) : Option State :=
  if isStream who || (s.ctl who).tvec == 0 || (s.ctl who).inTrap then none
  else match s.saveAllReady who .store (s.entryRanges who) with
    | (true, _) => none
    | (false, t) => some t

/-- The entry of the path of `lane` waits, and with it the warp (R441 step 1). -/
def State.trapWaits (s : State) (who lane : Nat) : Option State :=
  (s.entryWaits who).map (fun t => t.modCtl who (fun c => { c with entering := some lane }))

/-- What a trap does, once it can be taken. -/
def State.whenEntry (s : State) (who : Nat) (f : State → State) : State := (s.entryWaits who).getD (f s)

/-- Apply what a group gathered (R249, R278, R322): an index's change under the mode and BOUND that the group leaves in its descriptor,
an XSET of the group included (log entry 111). -/
def Warp.endGroup (w : Warp) (g : Group) : Warp :=
  { applyDeltas w g.incs with arstat := (applyDeltas w g.incs).arstat ||| g.flags }

/-- The path of `lane` leaves its group open and waits: what the group has gathered is applied now, and what its later members read
stays as it was before the group (R249). -/
def State.holdGroup (s : State) (who lane : Nat) (g : Group) : State :=
  (s.modWarp who (fun w => w.endGroup g)).modCtl who (fun c => { c with heldGroup := c.heldGroup ++ [(lane, { g with incs := [], flags := 0 })] })

/-- A path of the lanes `m` leaves the groups that it kept open. -/
def WarpCtl.dropGroups (c : WarpCtl) (m : LaneMask) : WarpCtl :=
  { c with heldGroup := c.heldGroup.filter (fun e => !m.getLsbD e.1) }

/-- R442: the state a handler starts with. -/
def Warp.handlerState (w : Warp) (mask : LaneMask) (tvec : W64) (h : Nat) : Warp :=
  { w with
    paths := [{ mask := mask, pc := tvec, handler := true }], parked := [], x := [], l0 := {}, l1 := {}, k := [], arstat := 0
    blocks := (List.range h).foldl (fun m b => mset m b (freshBlock (w.block b).group (w.block b).row)) w.blocks }

/-- R441: the path of `lane` takes a trap. The entry waits while a page of the save area faults. -/
def State.enterTrap (s0 : State) (who lane : Nat) (t : Trap) : State :=
  match (s0.warp who).pathAt lane with
  | none => s0
  | some p =>
    let s := s0.modCtl who (fun c => c.dropGroups p.mask)
    let w := s.warp who
    let c := s.ctl who
    let base := s.tsave who
    let h := min 2 w.curb
    let dirty := (List.range h).filter (fun b => !(w.block b).absent && (w.block b).dirty)
    match s.saveAllReady who .store (s.entryRanges who) with
    | (false, s1) => { s1 with blocked := true }
    | (true, s1) =>
      let s2 := dirty.foldl (fun u b => u.saveBlock who base b (w.block b)) s1
      let s3 := s2.setWarp who (w.atResume lane t.resume)
      let s4 := s3.saveWrite who (base + 0x24000) (s3.layout who p.mask)
      let s5 := (lanesOf p.mask).foldl (fun u L => u.saveWrite who (base + 0x27000 + 32 * L) (trapWords t L)) s4
      let s6 := (s5.dropAsks who 0).modWarp who (fun x => x.handlerState p.mask c.tvec h)
      let gone := (s6.ctl who).lost
      let mine := (List.range h).filter (fun b => (w.block b).lost || gone.contains b)
      let s7 := s6.setCtl who { c with inTrap := true, cause := t.cause.code, trapMask := p.mask, frozen := w.paths
                                       frozenParked := w.parked, entering := none
                                       mismatch := if c.mismatch.any p.mask.getLsbD then none else c.mismatch
                                       trapCurb := w.curb, trapLost := mine, lost := gone.filter (fun b => decide (h ≤ b))
                                       waits := c.waits.filter (fun x => !p.mask.getLsbD x.lane), stall := none }
      s7.record (coreOf who) 1 (slotOf who) (BitVec.ofNat 64 (t.cause.code * 2 ^ 56 + t.pc.toNat % 2 ^ 56))

/-- R449: a trap of a stream. -/
def State.streamTrap (s : State) (who : Nat) (t : Trap) : State :=
  let j := who - streamBase
  let s1 := (s.stopThread who).modStream j (fun x => { x with state := 4, strpc := pktOf t.pc })
  s1.postRecord j 3 true (BitVec.ofNat 64 t.cause.code) t.pc

/-- A trap of a path, wherever it runs (R439, R440, R449). -/
def State.takeTrap (s : State) (who lane : Nat) (t : Trap) : State :=
  if isStream who then s.streamTrap who t
  else if (s.ctl who).tvec = 0 ∨ (s.ctl who).inTrap then s.fatalTrap who t
  else s.enterTrap who lane t

/-! ### Where a path goes -/

/-- The loop action of R226 at the end of packet `pkt`: the new levels and where the path goes on. -/
def loopAction (l0 l1 : LoopLvl) (pkt : W64) : LoopLvl × LoopLvl × W64 :=
  let fall := pkt + 16
  let at0 := l0.count != 0 && l0.stop == pkt
  let at1 := l1.count != 0 && l1.stop == pkt
  if at0 && at1 then
    if l1.count != 1 then (l0, { l1 with count := l1.count - 1 }, l1.start)
    else if l0.count != 1 then ({ l0 with count := l0.count - 1 }, { l1 with count := l1.reload }, l0.start)
    else ({ l0 with count := 0 }, { l1 with count := 0 }, fall)
  else if at0 then
    if l0.count != 1 then ({ l0 with count := l0.count - 1 }, l1, l0.start) else ({ l0 with count := 0 }, l1, fall)
  else if at1 then
    if l1.count != 1 then (l0, { l1 with count := l1.count - 1 }, l1.start) else (l0, { l1 with count := 0 }, fall)
  else (l0, l1, fall)

/-- A path that has finished a word of `n` slots at `pc`: the next word, or past the packet's end by R226. -/
def Warp.advance (w : Warp) (lane : Nat) (pc : W64) (n : Nat) : Warp :=
  match w.pathAt lane with
  | none => w
  | some p =>
    if bitsOf pc 2 2 + n ≤ 3 then w.putPath lane [{ p with pc := pc + BitVec.ofNat 64 (4 * n) }]
    else
      let (l0, l1, next) := loopAction w.l0 w.l1 (pktOf pc)
      { w.putPath lane [{ p with pc := next, inside := false, strict := false }] with l0 := l0, l1 := l1 }

/-- A path that starts at `pc`: its packet is still to be entered. -/
def startAt (mask : LaneMask) (pc : W64) (handler : Bool) (num : Nat) : Path :=
  { mask := mask, pc := pc, handler := handler, num := num }

/-! ### Returning from a trap -/

/-- The lanes of the interrupted path by their resume points, and the other paths as they were frozen, without lanes that have
exited (R445, R446 step 4). -/
def resumePaths (bs : List Byte) (words : Nat → W64) (mask exited : LaneMask) (frozen : List Path) : List Path :=
  let pcs := ((lanesOf mask).map (fun L => words L &&& ~~~3#64)).eraseDups
  let mine := pcs.map (fun pc => { startAt (maskWhere mask (fun L => words L &&& ~~~3#64 == pc)) pc false 0 with strict := true })
  let others := (layoutPaths bs).filterMap (fun p =>
    let m := mdiff p.mask (mask ||| exited)
    if m = 0 then none else
    match frozen.find? (fun f => f.mask == m && f.pc == p.pc) with
    | some f => some f
    | none => some { p with mask := m, handler := false })
  mine ++ others

/-- R446 steps 2 to 5 once the frame has been read: `none` where the loop check fails. -/
def Warp.resume (w : Warp) (bs : List Byte) (words : Nat → W64) (c : WarpCtl) : Option Warp :=
  let mask := mdiff c.trapMask w.exited
  let ps := resumePaths bs words mask w.exited c.frozen
  let w1 := w.ofLayout bs
  let mine := ((lanesOf mask).map (fun L => words L &&& ~~~3#64)).eraseDups
  if decide (1 < mine.length) && (w1.l0.count != 0 || w1.l1.count != 0) then none
  else some { w1 with
    paths := ps
    blocks := (List.range (handlerBlocks c)).foldl (fun m b =>
      mset m b { absentBlock (w.block b).group (w.block b).row with lost := c.trapLost.contains b }) w.blocks }

/-- Read a range of a thread's save area through the L2 (R98, R168): none while a page of it is being serviced; what cannot be read is
open (log entry 103). -/
def State.readSaved (s : State) (who va n : Nat) : Option (List Byte) × State :=
  let ctx := (s.warp who).ctx
  match s.askSpan ctx va n .load (coreOf who) who 0 with
  | (.wait, t) => (none, t)
  | (.viol _ _, t) => (some ((List.range n).map (fun i => (Config.freeWord (t.fresh + i)).setWidth 8)), { t with fresh := t.fresh + n })
  | (.ok ps, t) => let (bs, u) := (t.touchParts ps (reqOf who true ctx 0)).openParts ps
                   (some bs, u)

/-- The trap frame and the lanes' resume words, or a wait. -/
def State.readFrame (s : State) (who : Nat) : Option (List Byte × List Byte) × State :=
  match s.saveAllReady who .load [(s.tsave who + 0x24000, 0x1400), (s.tsave who + 0x27000, 0x1000)] with
  | (false, t) => (none, t)
  | (true, t) =>
    match t.readSaved who (s.tsave who + 0x24000) 0x1400 with
    | (none, u) => (none, u)
    | (some f, u) => match u.readSaved who (s.tsave who + 0x27000) 0x1000 with
      | (none, v) => (none, v)
      | (some ws, v) => (some (f, ws), v)

/-- Leave the handler: lanes of the interrupted path that are still live continue at their resume points. -/
def State.leaveTrap (s : State) (who : Nat) (pc : W64) (frame : List Byte × List Byte) : State :=
  let c := s.ctl who
  match (s.warp who).resume frame.1 (fun L => BitVec.ofNat 64 (sub frame.2 (32 * L) 8)) c with
    | none => s.fatalTrap who { cause := .loopdiv, pc := pc }
    | some w' =>
      let fresh := { w' with parked := w'.parked.map (fun q => { q with gen := c.gen }) }
      let s2 := (s.setWarp who fresh).setCtl who { c with inTrap := false, stall := none, cause := 0, trapMask := 0, trapCurb := 0, trapLost := [], frozen := [], frozenParked := [] }
      (s2.dropAsks who 0).record (coreOf who) 2 (slotOf who) ((w'.paths.head?).elim 0 Path.pc)

end Sys2Proof.Machine
end

