-- ==== Sys2Proof/Machine/Operands.lean ====
section
/-! DEFINITION. Operands: which vector registers a word names and how (R244), guards (R243), index-register resolution and
its changes (R321, R322), and the scalar operand values (R245). -/

namespace Sys2Proof.Machine

/-- One vector operand of a word, in field order d, a, b. `n` registers from the one named. -/
structure VUse where
  op : VOp
  n : Nat := 1
  src : Bool := false
  dst : Bool := false
  /-- A pair: the register is even (R244). -/
  pair : Bool := false
  /-- A quad: the register is a multiple of 4 (R327). -/
  quad : Bool := false
  /-- A record of GEO (R383): no evenness of its own, MODE STACK refused. -/
  record : Bool := false
  /-- Read in another lane (R312): resolved there, not in the issuing lane. -/
  cross : Bool := false
  deriving DecidableEq, Repr

def useD (op : VOp) (wide : Bool := false) : VUse := { op := op, n := if wide then 2 else 1, dst := true, pair := wide }
def useS (op : VOp) (wide : Bool := false) : VUse := { op := op, n := if wide then 2 else 1, src := true, pair := wide }
def useDS (op : VOp) (wide : Bool := false) : VUse :=
  { op := op, n := if wide then 2 else 1, src := true, dst := true, pair := wide }

def uses3 (wide : Bool) (x : V3) : List VUse := [useD x.d wide, useS x.a wide, useS x.b wide]
def uses3d (wide : Bool) (x : V3) : List VUse := [useDS x.d wide, useS x.a wide, useS x.b wide]
def uses2 (wide : Bool) (x : V2) : List VUse := [useD x.d wide, useS x.a wide]

def useOff (nov : Bool) (a : VOp) : List VUse := if nov then [] else [useS a]

def useMem (op : VOp) (n : Nat) (src dst : Bool) : VUse :=
  { op := op, n := n, src := src, dst := dst, pair := n == 2, quad := n == 4 }

def ldRegs : LdSize → Nat
  | .b8 => 2 | .b16 => 4 | _ => 1

def stRegs : StSize → Nat
  | .b8 => 2 | .b16 => 4 | _ => 1

def isDirect : VOp → Bool
  | .dir _ => true
  | .ind _ => false

/-- The record of a geometric predicate: points k, dimensions, registers per coordinate (R382, R383). -/
def geoShape (i : Instr) : Nat × Nat :=
  match i with
  | .geoOrient2 _ => (3, 2) | .geoOrient3 _ => (4, 3) | .geoIncirc _ => (4, 2) | .geoInsphr _ => (5, 3) | _ => (4, 2)

def geoUses (i : Instr) (x : GeoArgs) : List VUse :=
  let (k, dim) := geoShape i
  let c := k * dim * (if x.f32 then 1 else 2)
  [useD x.d, { op := x.a, n := c, src := true, pair := !x.f32, record := true }] ++
    (if x.sos then [{ op := x.b, n := k, src := true, record := true }] else [])

/-- The vector operands of a word, in field order. -/
def vuses : Instr → List VUse
  | .ret _ a | .brx _ a => [useS a true]
  | .call _ _ => [{ op := .dir 54, n := 2, dst := true, pair := true }]
  | .reform _ a n => useS a :: (if n = 0 then [] else [{ op := .dir 0, n := n.toNat, src := false }])
  | .vadd t x | .vsub t x | .vmul t x | .vmulh t x | .vaddsat t x | .vsubsat t x | .vmin t x | .vmax t x
  | .vshl t x | .vshr t x => uses3 t.is64 x
  | .vand t x | .vor t x | .vxor t x => uses3 t.is64 x
  | .vcmp t _ x => [useS x.a t.is64, useS x.b t.is64]
  | .vmov t x => uses2 t.is64 x
  | .vclz x | .vpopc x | .vbrev x | .vaddi x _ | .vshli x _ | .vshri x _ | .vsrai x _ => uses2 false x
  | .vmovi _ d _ => [useD d]
  | .vbcast t _ d _ => [useD d t.is64]
  | .vfadd t x | .vfsub t x | .vfmul t x | .vfmin t x | .vfmax t x | .vfdiv t x => uses3 t.is64 x
  | .vfma t x => uses3d t.is64 x
  | .vfcmp t _ x => [useS x.a t.is64, useS x.b t.is64]
  | .vfsqrt t x => uses2 t.is64 x
  | .vfopx op t _ _ x =>
    if op == .fma then uses3d t.is64 x
    else if op == .sqrt then [useD x.d t.is64, useS x.a t.is64] else uses3 t.is64 x
  | .vcvt k _ _ _ x =>
    [(if k.widthD < 32 then useDS x.d else useD x.d (k.widthD == 64)), useS x.a (k.widthS == 64)]
  | .mxmax x => uses2 false x
  | .mxscale _ _ x => [useDS x.d, useS x.a]
  | .mxq _ _ _ _ x => [useDS x.d, useS x.a, useS x.b]
  | .mxdq _ _ x => uses3 false x
  | .vshfl _ x => [useD x.d, { op := x.a, src := true, cross := true }, useS x.b]
  | .vreadl _ _ a _ => [{ op := a, src := true, cross := true }]
  | .vred _ t _ x | .vscan _ t _ _ x => uses2 t.is64 x
  | .vmerge _ dh _ x => [useD x.d, useS x.a, useS x.b, useD dh]
  | .vid _ _ d => [useD d]
  | .xldv _ _ a => [useS a]
  | .xgetv _ d _ _ => [useD d]
  | .vclmul _ x => uses3 false x
  | .vmad24 _ x => uses3d false x
  | .ld sz x => useMem x.d (ldRegs sz) false true :: useOff x.nov x.a
  | .st sz x => useMem x.d (stRegs sz) true false :: useOff x.nov x.a
  | .atom x =>
    let w := x.ty.is64
    (if x.noret && x.aop != .cas then [] else [{ op := x.d, n := if w then 2 else 1, src := x.aop == .cas, dst := !x.noret, pair := w }]) ++
      useOff x.nov x.a ++ [useS x.b w]
  | .ldmx x => [useDS x.d true, useS x.a]
  | .stmx x => [useS x.d true, useS x.a]
  | .geoOrient2 x => geoUses (.geoOrient2 x) x
  | .geoOrient3 x => geoUses (.geoOrient3 x) x
  | .geoIncirc x => geoUses (.geoIncirc x) x
  | .geoInsphr x => geoUses (.geoInsphr x) x
  | .geoSegx x => geoUses (.geoSegx x) x
  | _ => []

/-- The guard of a word; an unguarded word acts on the whole path (R243). -/
def guardOfI : Instr → Option Guard
  | .bra g _ | .call g _ | .ret g _ | .brx g _ | .reform g _ _ | .exit g => some g
  | .pand x | .por x | .pxor x | .pandn x => some x.g
  | .vadd _ x | .vsub _ x | .vmul _ x | .vmulh _ x | .vaddsat _ x | .vsubsat _ x | .vmin _ x | .vmax _ x
  | .vshl _ x | .vshr _ x | .vand _ x | .vor _ x | .vxor _ x
  | .vfadd _ x | .vfsub _ x | .vfmul _ x | .vfma _ x | .vfmin _ x | .vfmax _ x | .vfdiv _ x | .vfopx _ _ _ _ x
  | .mxq _ _ _ _ x | .mxdq _ _ x | .vshfl _ x | .vmerge _ _ _ x | .vclmul _ x | .vmad24 _ x => some x.g
  | .vcmp _ _ x | .vfcmp _ _ x => some x.g
  | .vmov _ x | .vclz x | .vpopc x | .vbrev x | .vaddi x _ | .vshli x _ | .vshri x _ | .vsrai x _ | .vfsqrt _ x
  | .vcvt _ _ _ _ x | .mxmax x | .mxscale _ _ x | .vred _ _ _ x | .vscan _ _ _ _ x => some x.g
  | .vmovi g _ _ | .vbcast _ g _ _ | .vreadl g _ _ _ | .vballot g _ _ | .vid _ g _ | .xldv g _ _ | .xgetv g _ _ _ => some g
  | .ld _ x | .st _ x => some x.g
  | .atom x => some x.g
  | .ldmx x | .stmx x => some x.g
  | .geoOrient2 x | .geoOrient3 x | .geoIncirc x | .geoInsphr x | .geoSegx x => some x.g
  | _ => none

/-- The lanes of a path for which a guard is true (R206, R243). -/
def guardMask (w : Warp) (g : Option Guard) (path : LaneMask) : LaneMask :=
  match g with
  | none => path
  | some g => if g.neg then mdiff path (w.pred g.p.val) else path &&& w.pred g.p.val

/-! ### Resolution (R321) -/

/-- Some operand of the word reads through xj. -/
def readsX (us : List VUse) (j : Fin 8) : Bool := us.any (fun u => u.op == .ind j && u.src)

def namesX (us : List VUse) (j : Fin 8) : Bool := us.any (fun u => u.op == .ind j)

def writesX (us : List VUse) (j : Fin 8) : Bool := us.any (fun u => u.op == .ind j && u.dst)

/-- The register an operand reaches in lane L, or what INFO holds of the fault (R321, R438). -/
def resolve (w : Warp) (regs : Nat) (us : List VUse) (u : VUse) (L : Nat) : Except Nat Nat :=
  match u.op with
  | .dir n => if n.val + u.n ≤ regs then .ok n.val else .error n.val
  | .ind j =>
    let x := w.xreg j.val
    let i := x.index L
    let back := x.mode == .stack && readsX us j
    if x.mode == .off || (u.record && x.mode == .stack) then .error i
    else if back && i == 0 then .error i
    else
      let off := if back then i - 1 else i
      if x.bound < off + u.n then .error i
      else
        let r := x.base + off
        if (u.pair && r % 2 != 0) || (u.quad && r % 4 != 0) || decide (regs < r + u.n) then .error r else .ok r

/-- The register, where the checks have passed. -/
def regOf (w : Warp) (us : List VUse) (u : VUse) (L : Nat) : Nat :=
  match resolve w 100000 us u L with
  | .ok r => r
  | .error _ => 0

/-- The first BOUND offence of each lane. -/
def boundInfo (w : Warp) (regs : Nat) (us : List VUse) (mask : LaneMask) : SMap Nat :=
  (lanesOf mask).filterMap (fun L =>
    ((us.filter (fun u => !u.cross)).findSome? (fun u => match resolve w regs us u L with | .error i => some i | .ok _ => none)).map
      (fun i => (L, i)))

/-- The lane VSHFL reads for lane L (R313). -/
def shflSrc (m : ShflMode) (k L : Nat) (mask : LaneMask) : Nat :=
  let r : Int := match m with
    | .idx => (k : Int)
    | .up => (L : Int) - k
    | .down => (L : Int) + k
    | .xor => ((L ^^^ k : Nat) : Int)
  if 0 ≤ r && decide (r ≤ 127) && mask.getLsbD r.toNat then r.toNat else L

/-- The reads of other lanes (R312): the issuing lane and the lane read. -/
def crossReads (w : Warp) (i : Instr) (mask : LaneMask) : List (Nat × Nat) :=
  match i with
  | .vreadl _ _ _ lane => [(lane.val, lane.val)]
  | .vshfl m x => (lanesOf mask).map (fun L => (L, shflSrc m (bitsOf (w.val (regOf w (vuses i) (useS x.b) L) L) 0 7) L mask))
  | _ => []

/-- BOUND offences of operands read in other lanes, by the lane that reads. -/
def crossBound (w : Warp) (regs : Nat) (i : Instr) (mask : LaneMask) : SMap Nat :=
  (crossReads w i mask).filterMap (fun p =>
    (((vuses i).filter VUse.cross).findSome? (fun u =>
      match resolve w regs (vuses i) u p.2 with | .error v => some v | .ok _ => none)).map (fun v => (p.1, v)))

/-- Poisoned reads of other lanes, by the lane that reads; an empty issue mask raises none (R40). -/
def crossPoison (w : Warp) (i : Instr) (mask : LaneMask) : SMap Nat :=
  (if mask = 0 then [] else crossReads w i mask).filterMap (fun p =>
    (((vuses i).filter VUse.cross).findSome? (fun u =>
      if (w.reg (regOf w (vuses i) u p.2) p.2).poison then some u.op.code.toNat else none)).map (fun v => (p.1, v)))

/-- The first poisoned source of each lane, as its operand code (R40, R438). -/
def poisonInfo (w : Warp) (us : List VUse) (mask : LaneMask) : SMap Nat :=
  (lanesOf mask).filterMap (fun L =>
    ((us.filter (fun u => !u.cross)).findSome? (fun u =>
      if u.src && (List.range u.n).any (fun i => (w.reg (regOf w us u L + i) L).poison)
      then some u.op.code.toNat else none)).map (fun c => (L, c)))

/-! ### Index changes (R322) -/

/-- The change of xj in one lane, before the reduction of its mode. -/
def xDelta (x : IdxReg) (us : List VUse) (j : Fin 8) : Int :=
  match x.mode with
  | .off => 0
  | .array | .ring => x.step.toInt
  | .stack =>
    let r := readsX us j
    let w := writesX us j
    if r && w then 0 else if r then -1 else if w then 1 else 0

/-- The changes a word makes: key 128 j + lane. -/
def xDeltas (w : Warp) (us : List VUse) (mask : LaneMask) : SMap Int :=
  (List.finRange 8).flatMap (fun j =>
    if namesX us j then
      let d := xDelta (w.xreg j.val) us j
      (lanesOf mask).map (fun L => (128 * j.val + L, d))
    else [])

def addDeltas (m : SMap Int) (ds : SMap Int) : SMap Int := ds.foldl (fun m e => mset m e.1 (mgetD m e.1 0 + e.2)) m

/-! ### Scalar operands (R245) -/

def State.special (s : State) (who : Nat) (r : SpecialReg) : W64 :=
  let w := s.warp who
  let st := isStream who
  let g := s.gridOf who
  let d := g.elim ({} : Descr) Grid.descr
  let g' := s.wgOf who
  let lin := g'.elim 0 Wg.lin
  let n := fun (v : Nat) => BitVec.ofNat 64 v
  match r with
  | .zero => 0
  | .warpn => if st then 0 else n w.num
  | .nwarp => if st then 1 else n w.nwarp
  | .depth => if st then 0 else n (g.elim 0 Grid.depth)
  | .wgx => if st then 0 else n (lin % d.ngx)
  | .wgy => if st then 0 else n (lin / d.ngx % d.ngy)
  | .wgz => if st then 0 else n (lin / (d.ngx * d.ngy))
  | .ngx => if st then 1 else n d.ngx
  | .ngy => if st then 1 else n d.ngy
  | .ngz => if st then 1 else n d.ngz
  | .crank => if st then 0 else n (g'.elim 0 Wg.rank)
  | .csize => if st then 1 else n d.csize
  | .qsize => n (s.qsize who)
  | .qseat => n (s.qseat who)
  | .core => if st then n (256 + clusterOf who) else n (coreOf who)
  | .cycle => n s.clock

/-- The value of a scalar operand, registers read from `w`. -/
def State.sval (s : State) (who : Nat) (w : Warp) (o : SOp) : W64 :=
  match o with
  | .reg n => w.sreg n.val
  | .special r => s.special who r

/-! ### Outstanding long-latency writes (R295, R324) -/

/-- The instruction's destination is direct, so that its result is interlocked. -/
def directDst : Instr → Bool
  | .ld _ x => isDirect x.d
  | .atom x => isDirect x.d
  | .ldmx x => isDirect x.d
  | .geoOrient2 x | .geoOrient3 x | .geoIncirc x | .geoInsphr x | .geoSegx x => isDirect x.d
  | _ => false

def dstWidth : Instr → Nat
  | .ld sz _ => ldRegs sz
  | .atom x => if x.ty.is64 then 2 else 1
  | .ldmx _ => 2
  | _ => 1

/-- Registers that outstanding long-latency words of a handler, or of what it interrupted, will write: `direct` ones only or all. -/
def State.pendingOf (s : State) (who : Nat) (h directOnly : Bool) : List Nat :=
  ((mvals s.mops).filter (fun o => o.who == who && o.handler == h && (!directOnly || directDst o.instr))).flatMap
    (fun o => (mvals o.dst).eraseDups.flatMap (fun r => (List.range (dstWidth o.instr)).map (fun i => r + i))) ++
  ((mvals s.eops).filter (fun o => o.who == who && o.handler == h && (!directOnly || directDst o.instr))).flatMap
    (fun o => (mvals o.dst).flatten.eraseDups)

/-- Those of the words that run as the thread does now. -/
def State.pendingRegs (s : State) (who : Nat) (directOnly : Bool) : List Nat := s.pendingOf who (s.ctl who).inTrap directOnly

/-- Registers a word touches in the lanes of `mask`. -/
def usedRegs (w : Warp) (i : Instr) (mask : LaneMask) : List Nat :=
  let us := vuses i
  ((us.filter (fun u => !u.cross)).flatMap (fun u =>
    match u.op with
    | .dir n => if mask = 0 then [] else (List.range u.n).map (fun k => n.val + k)
    | .ind _ => (lanesOf mask).flatMap (fun L => (List.range u.n).map (fun k => regOf w us u L + k))) ++
   (us.filter VUse.cross).flatMap (fun u => (crossReads w i mask).map (fun p => regOf w us u p.2))).eraseDups

/-- Predicates that an outstanding word of the thread will write (R393). -/
def State.pendingPreds (s : State) (who : Nat) : List Nat :=
  ((mvals s.eops).filter (fun o => o.who == who)).filterMap (fun o =>
    match o.instr with
    | .geoOrient2 x | .geoOrient3 x | .geoIncirc x | .geoInsphr x | .geoSegx x => if x.pd = 7 then none else some x.pd.val
    | _ => none)

end Sys2Proof.Machine
end

