-- ==== Sys2Proof/Machine/Flags.lean ====
section
/-! DEFINITION. The arithmetic status register (R191, R192): its bits, and how a word's flags are gathered over its lanes. -/

namespace Sys2Proof.Machine

def fNV : W32 := 0x01
def fOF : W32 := 0x02
def fUF : W32 := 0x04
def fNX : W32 := 0x08
def fDZ : W32 := 0x10
def fSAT : W32 := 0x20
def fGNF : W32 := 0x40

/-- The flags of a word: the union over its lanes. -/
def unionFlags (l : List W32) : W32 := l.foldl (fun a b => a ||| b) 0

/-- A write of ARSTAT: each of bits 6 to 0 written as 1 is cleared (W1C, R10). -/
def arstatWrite (old v : W32) : W32 := old &&& ~~~(v &&& 0x7F#32)

def flagIf (c : Bool) (f : W32) : W32 := if c then f else 0

end Sys2Proof.Machine
end

