-- ==== Sys2Proof/Machine/Requests.lean ====
section
/-! DEFINITION. What a lane memory word asks of memory (12 R327 to R338), the requests it sends, and the request slots of a core
(R1, R82). -/

namespace Sys2Proof.Machine

/-! ### What a word asks of memory -/

def ldBytes : LdSize → Nat
  | .u8 | .s8 => 1 | .u16 | .s16 => 2 | .b4 => 4 | .b8 => 8 | .b16 => 16

def stBytes : StSize → Nat
  | .u8 => 1 | .u16 => 2 | .b4 => 4 | .b8 => 8 | .b16 => 16

/-- Bytes of an access; an MX word reaches a line. -/
def accBytes : Instr → Nat
  | .ld sz _ => ldBytes sz
  | .st sz _ => stBytes sz
  | .atom x => if x.ty.is64 then 8 else 4
  | _ => 128

def memSpace : Instr → Space
  | .ld _ x | .st _ x => x.xm.space
  | .atom x => x.space
  | .ldmx x | .stmx x => x.xm.space
  | _ => .g

def memOrd : Instr → Ord
  | .ld _ x | .st _ x => x.xm.ord
  | .atom x => x.ord
  | .ldmx x | .stmx x => x.xm.ord
  | _ => .relaxed

def memScope : Instr → Scope
  | .ld _ x | .st _ x => x.xm.scope
  | .atom x => x.scope
  | .ldmx x | .stmx x => x.xm.scope
  | _ => .lane

def memAcc : Instr → Acc
  | .ld _ _ | .ldmx _ => .load
  | .atom _ => .atomic
  | _ => .store

def memNol1 : Instr → Bool
  | .ld _ x | .st _ x => x.xm.nol1
  | .ldmx x | .stmx x => x.xm.nol1
  | _ => false

def isMx : Instr → Bool
  | .ldmx _ | .stmx _ => true
  | _ => false

/-- It counts in the unacknowledged stores of R82. -/
def countsStores : Instr → Bool
  | .st _ _ | .stmx _ => true
  | .atom x => x.noret
  | _ => false

def isAcquire (i : Instr) : Bool := memOrd i == .acquire || memOrd i == .acqRel
def isRelease (i : Instr) : Bool := memOrd i == .release || memOrd i == .acqRel

/-- Scopes whose acquire invalidates the L1 (R83). -/
def isWide : Scope → Bool
  | .cluster | .device | .system => true
  | _ => false

/-- Blocks of a line, bytes of a block and bits of an element (R92). -/
def mxPerLine : MxFmt → Nat
  | .e3m2 | .e2m3 => 5 | .e2m1 => 8 | _ => 4

def mxBlockBytes : MxFmt → Nat
  | .e3m2 | .e2m3 => 24 | .e2m1 => 16 | _ => 32

def mxBits : MxFmt → Nat
  | .e3m2 | .e2m3 => 6 | .e2m1 => 4 | _ => 8

/-- Offset of block B from its array's base (R94). -/
def mxOffset (f : MxFmt) (B : Nat) : Nat := 128 * (B / mxPerLine f) + mxBlockBytes f * (B % mxPerLine f)

def mxOf : Instr → MxFmt
  | .ldmx x | .stmx x => x.fe
  | _ => .e4m3

def low64 (i : Int) : Nat := (i % (2 ^ 64 : Nat)).toNat

/-- The unit performed as one: a 32-byte unit of its space, or for an MX word a line. -/
def unitKey (i : Instr) (ea : Int) : Nat := if isMx i then low64 ea / 128 else low64 ea / 32

/-- The units of the addresses a lane memory word forms. -/
def eaUnits (i : Instr) (eas : SMap Int) : List Nat := (eas.map (fun e => unitKey i e.2)).eraseDups

/-- Requests sent for a unit (R82): one for each 32-byte piece of it that is touched. -/
def unitCost (i : Instr) (eas : SMap Int) (k : Nat) : Nat :=
  if isMx i then
    (((eas.filter (fun e => unitKey i e.2 == k)).flatMap (fun e => sectorsOf (low64 e.2) (mxBlockBytes (mxOf i)))).eraseDups).length
  else 1

/-- Requests a lane memory word sends (R82). -/
def reqCost (i : Instr) (eas : SMap Int) : Nat := ((eaUnits i eas).map (unitCost i eas)).sum

/-- Those that count as unacknowledged stores. -/
def storeCost (i : Instr) (eas : SMap Int) : Nat := if countsStores i then reqCost i eas else 0

/-- An engine operation that asks memory for something while it runs: it holds one request slot of its core. -/
def EngOp.takesSlot (o : EngOp) : Bool :=
  match o.instr with
  | .launch _ _ _ _ | .geoOrient2 _ | .geoOrient3 _ | .geoIncirc _ | .geoInsphr _ | .geoSegx _ => false
  | _ => true

/-- The thread has been pre-empted: it keeps its control part. A retired warp has none. -/
def State.isAway (s : State) (who : Nat) : Bool := isSaved who && mhas s.ctls who

/-- What a retired warp has outstanding: stores that are not yet performed (R232). -/
def State.isLeftover (s : State) (o : MemOp) : Bool := isSaved o.who && !mhas s.ctls o.who

/-- Request slots of a core in use: its unacknowledged stores, the requests of its loads and returning atomics, and its engine
operations (R82, R100). -/
def State.slotsUsed (s : State) (core : Nat) : Nat :=
  ((s.warpsOfCore core).map (fun w => (s.ctl w).unacked)).sum +
  (((mvals s.mops).filter (fun o => o.core == core && !isStream o.who && !s.isAway o.who && (!countsStores o.instr || s.isLeftover o))).map (fun o => reqCost o.instr o.ea)).sum +
  ((mvals s.eops).filter (fun o => o.core == core && !isStream o.who && o.takesSlot)).length

end Sys2Proof.Machine
end

