-- ==== Sys2Proof/Machine/Issue.lean ====
section
/-! DEFINITION. Issuing one word of one path: its checks in the order of R254, its interlocks, chained groups (R249) and what
follows it. Every instruction's meaning is a body run by `runWord`. -/

namespace Sys2Proof.Machine

/-- A word at its issue: the thread, the path's and the issue mask, and the registers as the word reads them. -/
structure Issue where
  who : Nat
  lane : Nat
  i : Instr
  w : Warp
  path : LaneMask
  mask : LaneMask
  pc : W64
  flag : Option Nat := none
  iword : W32 := 0
  xword : W32 := 0
  ctx : Nat := 0
  handler : Bool := false
  deriving DecidableEq, Repr

/-- How the body of a word ends. -/
inductive Act where
  | next (s : State)
  | jump (s : State)
  | hold (s : State)
  /-- The path waits at the word for an event; the word has issued. -/
  | park (s : State)
  | trap (c : Cause) (info : Info)
  /-- The word traps after a read of its own that left a mark (a region entry kept, damage logged). -/
  | trapIn (s : State) (c : Cause) (info : Info)

/-- The word being issued: the path `cur` names, its guard read before the group's writes (R243, R249). -/
def State.issueOf (s : State) (i : Instr) : Option Issue :=
  s.cur.bind fun c =>
    let live := s.warp c.who
    (live.pathAt c.lane).map fun p =>
      let w := (c.group.map Group.snap).getD live
      { who := c.who, lane := c.lane, i := i, w := w, path := p.mask, mask := guardMask w (guardOfI i) p.mask
        pc := p.pc, flag := c.flag, iword := c.iword, xword := c.xword, ctx := live.ctx, handler := p.handler }

/-- The value of a scalar operand of the word. -/
def Issue.sv (is : Issue) (s : State) (o : SOp) : W64 := s.sval is.who is.w o

/-! ### Where a word may run (R254 to R256, R269, R280) -/

/-- Words marked C in the opcode map. -/
def onlyControl : Instr → Bool
  | .waitsem _ _ _ | .signalsemSet _ _ | .signalsemAdd _ _ | .event _ _ _ | .tlbinvAll => true
  | _ => false

/-- Words marked W in the opcode map. -/
def onlyWarp : Instr → Bool
  | .split _ | .join _ | .waitk _ | .reform _ _ _ | .bar | .convene | .disband | .vreadl _ _ _ _ | .mxmax _
  | .mxscale _ _ _ | .mxq _ _ _ _ _ | .mxdq _ _ _ | .vshfl _ _ | .vred _ _ _ _ | .vscan _ _ _ _ _ | .vballot _ _ _
  | .vmerge _ _ _ _ | .vid _ _ _ | .xset _ _ _ _ _ _ | .xldv _ _ _ | .xgetv _ _ _ _ | .rgrow _ | .rshrink _
  | .vclmul _ _ | .ldmx _ | .stmx _ | .copy _ | .collLoad _ | .collRun _ | .mma _ | .compress _ _ _ | .accz _ _
  | .accmvOut _ _ _ _ | .accmvIn _ _ _ _ | .attn _ | .kvwalk _ | .kvappend _ | .kvcommit _ | .geoOrient2 _
  | .geoOrient3 _ | .geoIncirc _ | .geoInsphr _ | .geoSegx _ => true
  | _ => false

/-- Words that raise ILLINS in trap context (R269, R325, R403, R445, R478). -/
def notInTrap : Instr → Bool
  | .bar | .convene | .disband | .reform _ _ _ | .rgrow _ | .rshrink _ | .mma _ | .compress _ _ _ | .accz _ _
  | .accmvOut _ _ _ _ | .accmvIn _ _ _ _ | .attn _ | .kvwalk _ | .kvappend _ | .kvcommit _ | .collLoad _ | .collRun _ => true
  | _ => false

/-- A binary8 variant that a matrix unit runs only by emulation, or one of the two native ones (R281 B8N, B8E). -/
def nfcFeature : NFC → List Nat
  | .b8x p => if p.val = 2 || p.val = 3 then [2] else [3]
  | .b8s _ | .b8z _ => [3]
  | _ => []

/-- The FEAT0 bits a word needs (R280, R281). -/
def featureBits : Instr → List Nat
  | .mxmax _ | .mxscale _ _ _ | .mxq _ _ _ _ _ | .mxdq _ _ _ | .ldmx _ | .stmx _ => [0]
  | .mma x => [1] ++ nfcFeature x.fa ++ nfcFeature x.fb ++ (if x.sp then [4] else []) ++ (if x.chk then [5] else [])
  | .compress _ _ _ => [1, 4]
  | .accz _ _ | .accmvOut _ _ _ _ | .accmvIn _ _ _ _ => [1]
  | .attn x => if x.ksrc then [6, 7] else [6]
  | .kvwalk _ | .kvappend _ | .kvcommit _ => [7]
  | .geoOrient2 _ | .geoOrient3 _ | .geoIncirc _ | .geoInsphr _ | .geoSegx _ => [8]
  | .reform _ _ _ => [9]
  | .vmerge _ _ _ _ => [10]
  | .collLoad _ | .collRun _ => [11]
  | _ => []

def launchFeature (who : Nat) : Instr → List Nat
  | .launch _ _ _ _ => if isStream who then [] else [14]
  | _ => []

/-- The word raises ILLINS where it stands. -/
def State.illegalHere (s : State) (is : Issue) : Bool :=
  let f := s.floor0 is.ctx
  let inTrap := (s.ctl is.who).inTrap
  (isStream is.who && onlyWarp is.i) || (!isStream is.who && onlyControl is.i) ||
  (inTrap && notInTrap is.i) || (!inTrap && is.i == .rte) ||
  (featureBits is.i ++ launchFeature is.who is.i).any (fun b => !f.getLsbD b) ||
  (match is.i with
   | .vclmul _ _ => Config.stepping != Config.vclmulStepping
   | _ => false)

/-! ### Interlocks -/

/-- Predicates a word reads or writes. -/
def predUses (i : Instr) : List Nat :=
  ((guardOfI i).elim [] (fun g => [g.p.val])) ++
  match i with
  | .pand x | .por x | .pxor x | .pandn x => [x.pd.val, x.pa.val, x.pb.val]
  | .vcmp _ _ x => [x.pd.val]
  | .vfcmp _ _ x => [x.pd.val]
  | .vballot _ _ p => [p.val]
  | .vred _ _ p _ => [p.val]
  | .vscan _ _ p _ _ => [p.val]
  | .geoOrient2 x | .geoOrient3 x | .geoIncirc x | .geoInsphr x | .geoSegx x => [x.pd.val]
  | _ => []

/-- Words of latency class L (R257). -/
def isLong : Instr → Bool
  | .ld _ _ | .st _ _ | .atom _ | .ldmx _ | .stmx _ | .prefetchL2 _ _ _ _ | .copy _ | .collLoad _ | .collRun _ | .mma _
  | .compress _ _ _ | .accz _ _ | .accmvOut _ _ _ _ | .accmvIn _ _ _ _ | .attn _ | .kvwalk _ | .kvappend _ | .kvcommit _
  | .geoOrient2 _ | .geoOrient3 _ | .geoIncirc _ | .geoInsphr _ | .geoSegx _ | .launch _ _ _ _ => true
  | _ => false

/-- A lane memory instruction or a GEO word: with an empty issue mask it starts nothing (R237). -/
def isLaneLong : Instr → Bool
  | .ld _ _ | .st _ _ | .atom _ | .ldmx _ | .stmx _
  | .geoOrient2 _ | .geoOrient3 _ | .geoIncirc _ | .geoInsphr _ | .geoSegx _ => true
  | _ => false

/-- The word starts an operation that counts on a flag. -/
def Issue.starts (is : Issue) : Bool := isLong is.i && (!isLaneLong is.i || is.mask != 0)

/-- Absent blocks the word touches (R66). -/
def Issue.absentBlocks (is : Issue) (live : Warp) : List Nat :=
  ((usedRegs is.w is.i is.mask).map (fun r => r / 8)).eraseDups.filter (fun b => (live.block b).absent)

/-- R237: a word whose increment would bring a flag to 64 waits. -/
def Issue.flagFull (is : Issue) (live : Warp) : Bool :=
  is.starts && (is.flag.elim false (fun f => decide (63 ≤ live.flag f)))

/-- The operations that were outstanding before the open group: a member does not wait for what its own group starts (R248, R249). -/
def State.beforeGroup (s : State) : State :=
  match s.cur.bind Cur.group with
  | some g => { s with mops := s.mops.filter (fun e => decide (e.1 < g.since)), eops := s.eops.filter (fun e => decide (e.1 < g.since)) }
  | none => s

/-- An interlock holds the word (R119, R295, R393). -/
def State.interlocked (s : State) (is : Issue) : Bool :=
  let used := usedRegs is.w is.i is.mask
  (s.beforeGroup.pendingRegs is.who true).any (fun r => used.contains r) ||
  (s.beforeGroup.pendingPreds is.who).any (fun p => (predUses is.i).contains p)

/-- Mark the absent blocks a word waits for, so that their fills run. -/
def State.wantBlocks (s : State) (who : Nat) (bs : List Nat) : State :=
  s.modWarp who (fun w => bs.foldl (fun w b => match mget w.blocks b with
    | some x => w.setBlock b { x with filling := true }
    | none => w) w)

/-- The word waits: nothing changes but the fills it asks for. -/
def State.waitHere (s : State) (is : Issue) : State :=
  { s.wantBlocks is.who (is.absentBlocks (s.warp is.who)) with blocked := true }

/-- An engine command waits for a request slot of its core (R82, R100). -/
def State.noSlot (s : State) (is : Issue) : Bool :=
  isLong is.i && !isLaneLong is.i && !isStream is.who && decide (Config.requestSlots ≤ s.slotsUsed (coreOf is.who)) &&
    (match is.i with | .launch _ _ _ _ => false | _ => true)

def State.held (s : State) (is : Issue) : Bool :=
  s.interlocked is || s.noSlot is || !(is.absentBlocks (s.warp is.who)).isEmpty || is.flagFull (s.warp is.who)

/-! ### The end of a word -/

/-- Apply what a group gathered and close it (R249, R278, R322). -/
def State.closeGroup (s : State) : State :=
  match s.cur with
  | none => s
  | some c =>
    match c.group with
    | none => { s with cur := none }
    | some g =>
      { s.modWarp c.who (fun w => w.endGroup g) with cur := none }

/-- Deliver flags to ARSTAT: at the end of the group, or at once. -/
def State.addFlags (s : State) (who : Nat) (f : W32) : State :=
  match s.cur with
  | some c =>
    (match c.group with
     | some g => { s with cur := some { c with group := some { g with flags := g.flags ||| f } } }
     | none => s.modWarp who (fun w => { w with arstat := w.arstat ||| f }))
  | none => s.modWarp who (fun w => { w with arstat := w.arstat ||| f })

/-- The index changes of a word: with its group, or at once (R322). -/
def State.countDeltas (s : State) (is : Issue) : State :=
  let ds := xDeltas is.w (vuses is.i) is.mask
  match s.cur.bind Cur.group, s.cur with
  | some g, some c => { s with cur := some { c with group := some { g with incs := addDeltas g.incs ds } } }
  | _, _ => s.modWarp is.who (fun w => applyDeltas w ds)

/-- After a word's issue: the warp has issued (R434, R435). -/
def State.noteIssue (s : State) (is : Issue) : State :=
  let y := (s.cur.map Cur.yld).getD false
  s.modCtl is.who (fun c => { c with lastIssue := s.clock, lastLane := is.lane, bumped := false, yld := y, stall := none, entering := none })

/-- How many slots a word takes (R251). -/
def slotsOf (i : Instr) : Nat := if i.wide then 2 else 1

/-- The predicate a word writes, where it writes one in its issuing lanes. -/
def predDst (i : Instr) : Option Nat :=
  match i with
  | .pand x | .por x | .pxor x | .pandn x => some x.pd.val
  | .vcmp _ _ x => some x.pd.val
  | .vfcmp _ _ x => some x.pd.val
  | .geoOrient2 x | .geoOrient3 x | .geoIncirc x | .geoInsphr x | .geoSegx x => some x.pd.val
  | _ => none

/-- What the word writes, or will, in its issuing lanes: 128 * register + lane; a predicate stands above the registers. -/
def Issue.writes (is : Issue) : List Nat :=
  let us := vuses is.i
  ((us.filter VUse.dst).flatMap (fun u => (lanesOf is.mask).flatMap (fun L =>
    (List.range u.n).map (fun k => 128 * (regOf is.w us u L + k) + L)))) ++
  ((predDst is.i).elim [] (fun p => (lanesOf is.mask).map (fun L => 128 * (256 + p) + L)))

/-- Where an earlier member's result is still to come, the value of the higher slot stays (R249). -/
def State.outwrite (s : State) (is : Issue) : State :=
  match s.cur.bind Cur.group with
  | none => s
  | some g =>
    let ws := is.writes
    { s with
      mops := s.mops.map (fun e => if e.2.who == is.who && decide (g.since ≤ e.1) && e.2.pc != is.pc then
        (e.1, { e.2 with outdone := e.2.outdone ++ ws }) else e)
      eops := s.eops.map (fun e => if e.2.who == is.who && decide (g.since ≤ e.1) && e.2.pc != is.pc then
        (e.1, { e.2 with outdone := e.2.outdone ++ ws }) else e) }

/-- The word is done: the path goes on at the next word. -/
def State.finish (s0 : State) (is : Issue) : State :=
  let s := s0.outwrite is
  let s1 := ((s.countDeltas is).modWarp is.who (fun w => w.advance is.lane is.pc (slotsOf is.i))).noteIssue is
  if (s1.cur.map Cur.chain).getD false then s1 else s1.closeGroup

/-- The word has moved its path itself. -/
def State.finishJump (s : State) (is : Issue) : State := ((s.countDeltas is).noteIssue is).closeGroup

/-- The word leaves its path waiting. A group it belongs to and does not end stays open for the members after it (R249). -/
def State.parkGroup (s : State) (is : Issue) : State :=
  match s.cur with
  | some c =>
    (match c.chain, c.group with
     | true, some g => { s.holdGroup is.who is.lane g with cur := none }
     | _, _ => s.closeGroup)
  | none => s

/-- Words that a quorum issues together (R216, R351). -/
def isQuorumWord : Instr → Bool
  | .mma _ | .compress _ _ _ | .accz _ _ | .accmvOut _ _ _ _ | .accmvIn _ _ _ _ | .attn _ => true
  | _ => false

/-- Another seat of the group waits at a quorum issue. -/
def State.seatWaits (s : State) (who : Nat) : Bool :=
  let q := s.qsize who
  ((s.warpsOfWg (s.warp who).wg).filter (fun w => w != who && (s.warp w).num / q == (s.warp who).num / q)).any (fun w =>
    (s.ctl w).waitsFor (fun k => k == .quorum))

/-- The packet a path stands in, as the thread fetched it; a path that enters one takes it from the current fetches (R155). -/
def State.packetOf (s : State) (who : Nat) (p : Path) : Option Fetched :=
  (s.ctl who).fetched.find? (fun f => f.addr == (pktOf p.pc).toNat && f.gen == (if p.inside then p.gen else (s.ctl who).gen))

/-- Major opcodes of the words that a quorum issues together. -/
def soloMatrix (op : Nat) : Bool := decide (0x6C ≤ op) && decide (op ≤ 0x70)

/-- The first quorum word that a path standing at `pc` comes to in its packet, as the thread has fetched it; where it has not fetched
the packet, its end. -/
def State.nextQuorum (s : State) (who : Nat) (p : Path) (pc : W64) : Option W64 :=
  match s.packetOf who p with
  | none => some (wordAddr (pktOf pc) 2)
  | some f =>
    let pk : Packet := ⟨f.bits.extractLsb' 0 32, f.bits.extractLsb' 32 32, f.bits.extractLsb' 64 32, f.bits.extractLsb' 96 32⟩
    ((pk.starts.filter (fun k => decide (slotIdx pc ≤ k))).find? (fun k => soloMatrix (opOf (pk.slot k)))).map (wordAddr (pktOf pc))

/-- A seat that traps while others of its group wait at a quorum issue is to issue its own: the word it comes to in the packet it
stands in (R217). -/
def State.noteQtrap (s : State) (who : Nat) (p : Path) (pc : W64) : State :=
  if !s.seatWaits who then s
  else match s.nextQuorum who p pc with
    | some q => s.modCtl who (fun c => { c with qtrap := some (q, false) })
    | none => s

/-- The word traps: earlier members of its group have committed (R249). -/
def State.trapAt (s : State) (is : Issue) (c : Cause) (info : Info) (resume : W64) : State :=
  match s.trapWaits is.who is.lane with
  | some t => { t with blocked := true }
  | none =>
    ((((s.warp is.who).pathAt is.lane).elim s (fun p => s.noteQtrap is.who p is.pc)).closeGroup).takeTrap is.who is.lane
      { cause := c, info := info, issue := is.mask, resume := resume, pc := is.pc, iword := is.iword, xword := is.xword }

/-- A path that waited at a word of `n` slots goes on. -/
def State.endWait (s : State) (who lane n : Nat) : State :=
  let s1 := s.modCtl who (fun c => { c with waits := c.waits.filter (fun x => x.lane != lane) })
  match (s1.warp who).pathAt lane with
  | none => s1
  | some p => s1.modWarp who (fun w => w.advance lane p.pc n)

/-- Begin a wait of the word's path. -/
def State.beginWait (s : State) (is : Issue) (k : WaitKind) : State :=
  s.modCtl is.who (fun c => { c with waits := c.waits ++ [⟨k, is.lane, s.clock, s.nextId⟩] })

/-! ### Running a word -/

/-- The issue checks that come before a word's own body, in the order of R254; `none` where every one passes. -/
def State.issueTrap (s : State) (is : Issue) (align : Issue → State → Option (Cause × Info)) : Option (Cause × Info) :=
  let us := vuses is.i
  let x := crossPoison is.w is.i is.mask
  let p := x ++ (poisonInfo is.w us is.mask).filter (fun e => !mhas x e.1)
  match align is s with
  | some t => some t
  | none =>
    if !p.isEmpty then some (.poison, .each p)
    else if isLong is.i && is.flag.isNone && us.any (fun u => u.dst && !isDirect u.op) then some (.noflag, .same 0)
    else none

def State.boundTrap (s : State) (is : Issue) : Option (Cause × Info) :=
  let own := boundInfo is.w (s.windowRegs is.who) (vuses is.i) is.mask
  let b := if own.isEmpty then crossBound is.w (s.windowRegs is.who) is.i is.mask else own
  if b.isEmpty then none else some (.bound, .each b)

/-- Run the body of a word whose checks have passed. -/
def State.runBody (s : State) (is : Issue) (body : Issue → State → Act) : State :=
  match body is s with
  | .next t => t.finish is
  | .jump t => t.finishJump is
  | .hold t => { t with blocked := true }
  | .park t => (t.noteIssue is).parkGroup is
  | .trap c info => s.trapAt is c info is.pc
  | .trapIn t c info => t.trapAt is c info is.pc

/-- Issue a word: `pre` are checks its description puts before the operand checks, `align` its address checks. -/
def State.issueWord (s : State) (is : Issue) (pre align : Issue → State → Option (Cause × Info))
    (body : Issue → State → Act) : State :=
  if s.illegalHere is then s.trapAt is .illins (.same 0) is.pc
  else match pre is s with
    | some (c, info) => s.trapAt is c info is.pc
    | none =>
      match s.boundTrap is with
      | some (c, info) => s.trapAt is c info is.pc
      | none =>
        if s.held is then s.waitHere is
        else match s.issueTrap is align with
          | some (c, info) => s.trapAt is c info is.pc
          | none => s.runBody is body

def noCheck (_ : Issue) (_ : State) : Option (Cause × Info) := none

/-- The meaning of an instruction whose body is given; with no path issuing, nothing happens. -/
def runWordWith (i : Instr) (pre align : Issue → State → Option (Cause × Info)) (body : Issue → State → Act)
    (s : State) : Host.Outcome State Fault Refusal :=
  match s.issueOf i with
  | none => .next s
  | some is => .next (s.issueWord is pre align body)

def runWord (i : Instr) (body : Issue → State → Act) (s : State) : Host.Outcome State Fault Refusal :=
  runWordWith i noCheck noCheck body s

/-! ### Writing results -/

/-- Write one result per listed lane to a destination: a register, or a pair where the operand names two (R295). -/
def State.putVec (s : State) (is : Issue) (u : VUse) (rs : SMap Nat) : State :=
  s.modWarp is.who (fun w => rs.foldl (fun w e =>
    let r := regOf is.w (vuses is.i) u e.1
    let w1 := w.setReg r e.1 ⟨BitVec.ofNat 32 e.2, false⟩
    if u.n = 2 then w1.setReg (r + 1) e.1 ⟨BitVec.ofNat 32 (e.2 / 2 ^ 32), false⟩ else w1) w)

/-- The results of a function over the issuing lanes. -/
def Issue.over {α : Type} (is : Issue) (f : Nat → α) : SMap α := (lanesOf is.mask).map (fun L => (L, f L))

/-- The value a source operand reads in lane L. -/
def Issue.src (is : Issue) (u : VUse) (L : Nat) : W32 := is.w.val (regOf is.w (vuses is.i) u L) L

def Issue.src64 (is : Issue) (u : VUse) (L : Nat) : W64 := is.w.val64 (regOf is.w (vuses is.i) u L) L

/-- A source as a number: one register, or a pair. -/
def Issue.num (is : Issue) (u : VUse) (L : Nat) : Nat := if u.n = 2 then (is.src64 u L).toNat else (is.src u L).toNat

/-- Write a predicate in the issuing lanes. -/
def State.writePred (s : State) (is : Issue) (pd : Nat) (f : Nat → Bool) : State :=
  s.modWarp is.who (fun w => w.setP pd (merge (w.pred pd) is.mask (maskWhere is.mask f)))

/-- Write a scalar register. -/
def State.writeS (s : State) (is : Issue) (n : Nat) (v : W64) : State := s.modWarp is.who (fun w => w.setS n v)

end Sys2Proof.Machine
end

