-- ==== Sys2Proof/Machine/Control.lean ====
section
/-! DEFINITION. Control words (10 R258, R264 to R271, R284, R285; 08 R206 to R233): branches, rejoin masks, barriers, quorum
membership, loops, exits, TRAP and RTE, and the predicate logic words. -/

namespace Sys2Proof.Machine

/-! ### Branches -/

def loopsActive (w : Warp) : Bool := w.l0.count != 0 || w.l1.count != 0

/-- The distinct targets of the lanes of a mask. -/
def targetsOf (m : LaneMask) (f : Nat → W64) : List W64 := ((lanesOf m).map f).eraseDups

/-- Send each issuing lane to its target: one new path for each distinct target (R208, R265). -/
def State.sendLanes (s : State) (is : Issue) (f : Nat → W64) : State :=
  s.modWarp is.who (fun w =>
    match w.pathAt is.lane with
    | none => w
    | some p =>
      let rest := mdiff p.mask is.mask
      let news := (targetsOf is.mask f).map (fun t => startAt (maskWhere is.mask (fun L => f L == t)) t p.handler p.num)
      let w1 := w.putPath is.lane ({ p with mask := rest } :: news)
      if rest = 0 then w1 else w1.advance (lowLane rest) is.pc 1)

/-- A transfer: LOOPDIV where it would leave more than one path while a level is active (R227). -/
def branchBody (f : Nat → W64) (is : Issue) (s : State) : Act :=
  if is.mask = 0 then .next s
  else
    let n := (targetsOf is.mask f).length + (if mdiff is.path is.mask = 0 then 0 else 1)
    if decide (1 < n) && loopsActive is.w then .trap .loopdiv (.same 0)
    else .jump (s.sendLanes is f)

/-- packet + 16 × off20 (R264). -/
def branchTarget (pc : W64) (off : BitVec 20) : W64 := pktOf pc + (off.signExtend 64 <<< 4)

def execNop (s : State) : Host.Outcome State Fault Refusal := runWord .nop (fun _ s => .next s) s

def execBra (g : Guard) (off : BitVec 20) (s : State) : Host.Outcome State Fault Refusal :=
  runWord (.bra g off) (fun is s => branchBody (fun _ => branchTarget is.pc off) is s) s

/-- CALL writes the return packet address to v54:v55 and branches (R264). -/
def callBody (off : BitVec 20) (is : Issue) (s : State) : Act :=
  match branchBody (fun _ => branchTarget is.pc off) is s with
  | .jump t => .jump (t.modWarp is.who (fun w => (lanesOf is.mask).foldl (fun w L =>
      let r := pktOf is.pc + 16
      (w.setReg 54 L ⟨r.extractLsb' 0 32, false⟩).setReg 55 L ⟨r.extractLsb' 32 32, false⟩) w))
  | a => a

def execCall (g : Guard) (off : BitVec 20) (s : State) : Host.Outcome State Fault Refusal :=
  runWord (.call g off) (callBody off) s

/-- The alignment of a target in a pair (R265). -/
def targetAlign (a : VOp) (n : Nat) (is : Issue) (_ : State) : Option (Cause × Info) :=
  let bad := (lanesOf is.mask).filter (fun L => (is.src64 (useS a true) L).toNat % n != 0)
  if bad.isEmpty then none else some (.align, .each (bad.map (fun L => (L, (is.src64 (useS a true) L).toNat))))

def execRet (g : Guard) (a : VOp) (s : State) : Host.Outcome State Fault Refusal :=
  runWordWith (.ret g a) noCheck (targetAlign a 4) (fun is s => branchBody (fun L => is.src64 (useS a true) L) is s) s

def execBrx (g : Guard) (a : VOp) (s : State) : Host.Outcome State Fault Refusal :=
  runWordWith (.brx g a) noCheck (targetAlign a 16) (fun is s => branchBody (fun L => is.src64 (useS a true) L) is s) s

/-! ### Rejoin masks (R210 to R212) -/

def ParkSite.names (k : Nat) : ParkSite → Bool
  | .join j | .waitk j => j.val == k
  | .bar => false

/-- Lanes `mask` of the parked groups `qs`, which wait at one word, go on after it as one path, without a new wait, in the packet as
the last of them has fetched it. -/
def Warp.releaseAt (w : Warp) (mask : LaneMask) (at_ : W64) (num : Nat) (qs : List Parked) : Warp :=
  if mask = 0 then w else
  let p : Path := { mask := mask, pc := at_, inside := true, num := num, handler := qs.any Parked.handler
                    gen := qs.foldl (fun g q => max g q.gen) 0 }
  ({ w with paths := w.paths ++ [p] } : Warp).advance (lowLane mask) at_ 1

/-- Take the lanes of `m` out of the parked groups that `sel` selects. -/
def Warp.unpark (w : Warp) (m : LaneMask) (sel : Parked → Bool) : Warp :=
  { w with parked := (w.parked.map (fun q => if sel q then { q with mask := mdiff q.mask m } else q)).filter (fun q => q.mask != 0) }

/-- R211: release the lanes of k once every live lane of it is parked at a word naming it. -/
def Warp.releaseK (w : Warp) (k : Nat) : Warp :=
  let members := w.kmask k &&& w.live
  let here := w.parked.filter (fun q => q.site.names k)
  let parkedMask := here.foldl (fun m q => m ||| q.mask) 0
  if members = 0 || mdiff members parkedMask != 0 then w
  else
    let w1 := w.unpark members (fun q => q.site.names k)
    let joins := here.filter (fun q => match q.site with | .join _ => true | _ => false)
    let waits := here.filter (fun q => match q.site with | .waitk _ => true | _ => false)
    let pcs := (joins.map Parked.at_).eraseDups
    let w2 := pcs.foldl (fun w pc =>
      let qs := joins.filter (fun q => q.at_ == pc)
      w.releaseAt (qs.foldl (fun m q => m ||| q.mask) 0 &&& members) pc 0 qs) w1
    waits.foldl (fun w q => w.releaseAt (q.mask &&& members) q.at_ q.num [q]) w2

def Warp.releaseAll (w : Warp) : Warp := (List.range 16).foldl (fun w k => w.releaseK k) w

/-- SPLIT kn: kn := the path mask, and the condition of R211 again (R267). -/
def splitBody (k : Fin 16) (is : Issue) (s : State) : Act :=
  .next (s.modWarp is.who (fun w => (w.setK k.val is.path).releaseK k.val))

def execSplit (k : Fin 16) (s : State) : Host.Outcome State Fault Refusal := runWord (.split k) (splitBody k) s

/-- JOIN and WAITK: lanes of the mask park, the others pass (R211, R212). -/
def parkBody (site : ParkSite) (k : Fin 16) (is : Issue) (s : State) : Act :=
  let inside := is.path &&& is.w.kmask k.val
  let outside := mdiff is.path inside
  if inside = 0 then .next s
  else .jump (s.modWarp is.who (fun w =>
    match w.pathAt is.lane with
    | none => w
    | some p =>
      let w1 : Warp := { w.putPath is.lane [{ p with mask := outside }] with
        parked := w.parked ++ [{ site := site, mask := inside, at_ := is.pc, num := p.num, handler := p.handler, gen := p.gen }] }
      let w2 := if outside = 0 then w1 else w1.advance (lowLane outside) is.pc 1
      w2.releaseK k.val))

def execJoin (k : Fin 16) (s : State) : Host.Outcome State Fault Refusal := runWord (.join k) (parkBody (.join k) k) s

def execWaitk (k : Fin 16) (s : State) : Host.Outcome State Fault Refusal := runWord (.waitk k) (parkBody (.waitk k) k) s

/-! ### Barriers (R214) -/

def Warp.atBar (w : Warp) : LaneMask :=
  (w.parked.filter (fun q => q.site == .bar)).foldl (fun m q => m ||| q.mask) 0

/-- Threads of a workgroup in the reform unit. -/
def State.filedThreads (s : State) (g : Nat) (core : Nat) : Nat :=
  (((s.core core).bins.filter (fun b => b.wg == g) ++ (mget s.wgs g).elim [] (·.bins)).map (fun b => b.threads.length)).sum

/-- The lanes parked at BAR leave, those of one PC as one path. -/
def Warp.leaveBar (w : Warp) : Warp :=
  let here := w.parked.filter (fun q => q.site == .bar)
  let w1 := { w with parked := w.parked.filter (fun q => q.site != .bar) }
  ((here.map Parked.at_).eraseDups).foldl (fun w pc =>
    let qs := here.filter (fun q => q.at_ == pc)
    w.releaseAt (qs.foldl (fun m q => m ||| q.mask) 0) pc 0 qs) w1

/-- The barrier completes when every live thread of the workgroup is parked at BAR. -/
def State.barrierCheck (s : State) (g core : Nat) : State :=
  let ws := s.warpsOfWg g
  let live := ws.any (fun w => (s.warp w).live != 0)
  if live && ws.all (fun w => mdiff (s.warp w).live (s.warp w).atBar == 0) && s.filedThreads g core == 0 then
    ws.foldl (fun t w => t.modWarp w Warp.leaveBar) s
  else s

/-- BAR: the arrival is a release at workgroup scope (R144, R146). -/
def barBody (is : Issue) (s : State) : Act :=
  if !s.settled is.who then .hold s
  else
    let s1 := s.modWarp is.who (fun w =>
      match w.pathAt is.lane with
      | none => w
      | some p => { w.putPath is.lane [] with parked := w.parked ++ [{ site := .bar, mask := p.mask, at_ := is.pc, num := p.num, gen := p.gen }] })
    .jump (s1.barrierCheck is.w.wg (coreOf is.who))

def execBar (s : State) : Host.Outcome State Fault Refusal := runWord .bar barBody s

/-! ### Quorum membership (R215 to R218) -/

/-- The resident warps of a warp's quorum group. -/
def State.quorumOf (s : State) (who : Nat) : List Nat :=
  let q := s.qsize who
  (s.warpsOfWg (s.warp who).wg).filter (fun w => (s.warp w).num / q == (s.warp who).num / q)

/-- End the waits of a kind in the given warps. -/
def State.endWaits (s : State) (ws : List Nat) (f : WaitKind → Bool) : State :=
  ws.foldl (fun t w =>
    ((t.ctl w).waits.filter (fun x => f x.kind)).foldl (fun t x => t.endWait w x.lane 1) t) s

def isConvene : WaitKind → Bool
  | .convene => true
  | _ => false

def isDisband : WaitKind → Bool
  | .disband => true
  | _ => false

/-- R215: the group is convened when every warp of it has issued CONVENE. -/
def conveneBody (is : Issue) (s : State) : Act :=
  let q := s.qsize is.who
  if q = 1 || (s.ctl is.who).seated then .next s
  else
    let s1 := (s.modCtl is.who (fun c => { c with arrived := true })).beginWait is .convene
    let ws := s1.quorumOf is.who
    if ws.length = q && ws.all (fun w => (s1.ctl w).arrived) then
      let s2 := ws.foldl (fun t w => t.modCtl w (fun c => { c with seated := true, arrived := false })) s1
      .park (s2.endWaits ws isConvene)
    else .park s1

def execConvene (s : State) : Host.Outcome State Fault Refusal := runWord .convene conveneBody s

def isQuorum : WaitKind → Bool
  | .quorum => true
  | _ => false

/-- The seats of these warps that wait at a quorum issue are to trap there with QMISMATCH: each word issues once more, and traps
(R216). -/
def State.mismatchSeats (s : State) (ws : List Nat) : State :=
  ws.foldl (fun t w => match (t.ctl w).waits.find? (fun x => isQuorum x.kind) with
    | some x => t.modCtl w (fun c => { c with
        quorumIssue := none, mismatch := some x.lane, waits := c.waits.filter (fun y => y.lane != x.lane) })
    | none => t) s

/-- Seats that wait at a quorum issue trap with QMISMATCH when a seat leaves, or passes the word by (R217, R218). -/
def State.breakQuorum (s : State) (who : Nat) : State :=
  s.mismatchSeats ((s.quorumOf who).filter (fun w => w != who))

/-- R218: once every seat has issued DISBAND or exited, all are unseated. -/
def State.disbandCheck (s : State) (who : Nat) : State :=
  let ws := s.quorumOf who
  if ws.all (fun w => (s.ctl w).arrived || !(s.ctl w).seated) then
    (ws.foldl (fun t w => t.modCtl w (fun c => { c with seated := false, arrived := false })) s).endWaits ws isDisband
  else s

def disbandBody (is : Issue) (s : State) : Act :=
  if s.qsize is.who = 1 || !(s.ctl is.who).seated then .next s
  else
    let s1 := (s.modCtl is.who (fun c => { c with arrived := true, qtrap := none })).beginWait is .disband
    .park ((s1.breakQuorum is.who).disbandCheck is.who)

def execDisband (s : State) : Host.Outcome State Fault Refusal := runWord .disband disbandBody s

/-! ### Hardware loops (R224 to R227, R270) -/

def newLevel (pc : W64) (e : BitVec 15) (cnt : W64) : LoopLvl :=
  { start := pktOf pc + 16, stop := pktOf pc + (e.setWidth 64 <<< 4), count := cnt.extractLsb' 0 32, reload := cnt.extractLsb' 0 32 }

def LoopLvl.active (l : LoopLvl) : Bool := l.count != 0

def loopBody (l : LoopSpec) (is : Issue) (s : State) : Act :=
  if is.w.paths.length != 1 then .trap .loopdiv (.same 0) else
  let c0 := match l with | .l0 c _ | .both c _ _ _ => some (is.sv s c) | .l1 _ _ => none
  let c1 := match l with | .l1 c _ | .both _ _ c _ => some (is.sv s c) | .l0 _ _ => none
  let wide := fun (c : Option W64) => c.elim false (fun v => v.extractLsb' 32 32 != 0)
  if wide c0 || wide c1 then .trap .oprange (.same 0) else
  let n0 := match l with
    | .l0 _ e | .both _ e _ _ => newLevel is.pc e (c0.getD 0)
    | .l1 _ _ => is.w.l0
  let n1 := match l with
    | .l1 _ e | .both _ _ _ e => newLevel is.pc e (c1.getD 0)
    | .l0 _ _ => is.w.l1
  if n0.active && n1.active && decide (n0.stop.toNat < n1.stop.toNat) then .trap .loopform (.same 0) else
  let s1 := s.modWarp is.who (fun w => { w with l0 := n0, l1 := n1 })
  let skip := if c0.isSome && !n0.active then some (n0.stop + 16)
    else if c1.isSome && !n1.active then some (n1.stop + 16) else none
  match skip with
  | none => .next s1
  | some t => .jump (s1.modWarp is.who (fun w => w.putPath is.lane [startAt is.path t is.handler 0]))

def execLoop (l : LoopSpec) (s : State) : Host.Outcome State Fault Refusal := runWord (.loop l) (loopBody l) s

/-! ### Exit (R231, R266) -/

/-- Lanes leave the warp's rejoin masks (R210, R220). -/
def Warp.clearK (w : Warp) (m : LaneMask) : Warp := { w with k := w.k.map (fun e => (e.1, mdiff e.2 m)) }

/-- The issuing lanes exit; guard-false lanes of the path go on. -/
def Warp.exitLanes (w : Warp) (lane : Nat) (mask : LaneMask) (pc : W64) : Warp :=
  match w.pathAt lane with
  | none => w
  | some p =>
    let rest := mdiff p.mask mask
    let w1 := ({ w.putPath lane [{ p with mask := rest }] with exited := w.exited ||| mask } : Warp).clearK mask
    if rest = 0 then w1 else w1.advance (lowLane rest) pc 1

/-- Every live thread of the workgroup is in the reform unit: its bins are ready (R221). -/
def State.allFiled (s : State) (g core : Nat) : State :=
  if (s.warpsOfWg g).all (fun w => (s.warp w).live == 0) then
    s.modCore core (fun c => { c with bins := c.bins.map (fun b =>
      if b.wg == g && !b.ready then { b with ready := true, readyAt := s.clock } else b) })
  else s

/-- What follows when lanes have left a warp that is not in a handler: joins, the barrier, the bins, the quorum (R210, R214,
R218, R221). -/
def State.lanesGone (s : State) (who : Nat) : State :=
  let c := s.ctl who
  let s1 := ((s.modWarp who Warp.releaseAll).barrierCheck (s.warp who).wg (coreOf who)).allFiled (s.warp who).wg (coreOf who)
  if (s1.warp who).live = 0 && c.seated && decide (1 < s1.qsize who) then
    ((s1.modCtl who (fun c => { c with arrived := true })).breakQuorum who).disbandCheck who
  else s1

/-- After a handler: whether it moved the seat's pc past the quorum issue that the seat was to make (R217). -/
def State.noteMoved (s : State) (who : Nat) : State :=
  match (s.ctl who).qtrap with
  | some (pc, false) =>
    if (s.warp who).paths.any (fun p => decide (p.pc.toNat ≤ pc.toNat)) then s else s.modCtl who (fun c => { c with qtrap := some (pc, true) })
  | _ => s

/-- Leave the handler. The rejoin masks may have changed in the frame, so their condition is evaluated (R211, R267); where lanes have
exited in the handler, what follows from that (R445). -/
def State.returnTrap (s : State) (who : Nat) (pc : W64) (frame : List Byte × List Byte) : State :=
  let t := (s.leaveTrap who pc frame).noteMoved who
  if (t.ctl who).inTrap then t
  else if (s.ctl who).trapMask &&& (s.warp who).exited != 0 || (t.warp who).exited != (s.warp who).exited then t.lanesGone who
  else t.modWarp who Warp.releaseAll

/-- R446 step 1: the handler's accesses and the writes into its window have completed. -/
def State.handlerSettled (s : State) (who : Nat) : Bool :=
  s.settled who && (mvals s.eops).all (fun o => !(o.who == who && !o.dst.isEmpty))

/-- EXIT of a stream: the command program is done (R421). -/
def State.endProgram (s : State) (who : Nat) (pc : W64) : State :=
  let j := who - streamBase
  ((s.stopThread who).modStream j (fun x => { x with state := 3, strpc := pktOf pc })).postRecord j 2 false 0 pc

/-- Lanes of the handler are left once those of `m` have exited, on a path or parked. -/
def State.handlerLives (s : State) (who : Nat) (m : LaneMask) : Bool :=
  mdiff (s.ctl who).trapMask (m ||| (s.warp who).exited) != 0

/-- EXIT. The last lane of a handler ends it, after the wait of RTE (log entry 92). -/
def exitBody (is : Issue) (s : State) : Act :=
  if is.mask = 0 then .next s
  else if isStream is.who then .jump (s.endProgram is.who is.pc)
  else
    let out := fun (t : State) => t.modWarp is.who (fun w => w.exitLanes is.lane is.mask is.pc)
    if !(s.ctl is.who).inTrap then .jump ((out s).lanesGone is.who)
    else if s.handlerLives is.who is.mask then .jump ((out s).modWarp is.who Warp.releaseAll)
    else if !s.handlerSettled is.who then .hold s
    else match s.readFrame is.who with
      | (none, t) => .hold t
      | (some f, t) => .jump ((out t).returnTrap is.who is.pc f)

def execExit (g : Guard) (s : State) : Host.Outcome State Fault Refusal := runWord (.exit g) exitBody s

/-! ### REFORM (R219, R268): the word waits; REFORM_FILE files its lanes -/

def reformPre (is : Issue) (s : State) : Option (Cause × Info) :=
  if (s.ctl is.who).seated && decide (1 < s.qsize is.who) then some (.seated, .same 0) else none

def reformBody (a : VOp) (n : BitVec 5) (is : Issue) (s : State) : Act :=
  if is.mask = 0 then .next s else .park (s.beginWait is (.reform a n.toNat is.mask))

/-- SEATED goes before the checks of the key operand (R268). -/
def execReform (g : Guard) (a : VOp) (n : BitVec 5) (s : State) : Host.Outcome State Fault Refusal :=
  runWordWith (.reform g a n) reformPre noCheck (reformBody a n) s

/-! ### TRAP and RTE (R284, R285) -/

def trapBody (code : BitVec 17) (is : Issue) (s : State) : Act :=
  .jump (s.trapAt is .swtrap (.same code.toNat) (afterWord is.pc))

def execTrap (code : BitVec 17) (s : State) : Host.Outcome State Fault Refusal := runWord (.trap code) (trapBody code) s

def rteBody (is : Issue) (s : State) : Act :=
  if !s.handlerSettled is.who then .hold s
  else match s.readFrame is.who with
    | (none, t) => .hold t
    | (some f, t) => .jump (t.returnTrap is.who is.pc f)

def execRte (s : State) : Host.Outcome State Fault Refusal := runWord .rte rteBody s

/-! ### Predicate logic (R271) -/

def predBody (f : Bool → Bool → Bool) (x : P3) (is : Issue) (s : State) : Act :=
  .next (s.writePred is x.pd.val (fun L => f ((is.w.pred x.pa.val).getLsbD L) ((is.w.pred x.pb.val).getLsbD L)))

def execPand (x : P3) (s : State) : Host.Outcome State Fault Refusal := runWord (.pand x) (predBody (fun a b => a && b) x) s
def execPor (x : P3) (s : State) : Host.Outcome State Fault Refusal := runWord (.por x) (predBody (fun a b => a || b) x) s
def execPxor (x : P3) (s : State) : Host.Outcome State Fault Refusal := runWord (.pxor x) (predBody (fun a b => a != b) x) s
def execPandn (x : P3) (s : State) : Host.Outcome State Fault Refusal := runWord (.pandn x) (predBody (fun a b => a && !b) x) s

end Sys2Proof.Machine
end

