-- ==== Sys2Proof/Machine/TrapView.lean ====
section
/-! DEFINITION. The register window as memory (01 R33, R36): the lane view, and the trap view of a handler (17 R443). -/

namespace Sys2Proof.Machine

/-- What a byte of the trap view reaches. -/
inductive ViewByte where
  /-- A byte of the save area, by its offset from TSAVE, and whether a store reaches it. -/
  | save (off : Nat) (rw : Bool)
  /-- A byte of a live register. -/
  | live (reg byte : Nat)
  /-- The lane's predicates p0 to p6. -/
  | preds
  | zero
  deriving DecidableEq, Repr

/-- The byte that address `a` of lane L reaches; `h` blocks lie in the save area (0 outside trap context). -/
def viewByte (h a L : Nat) : ViewByte :=
  if a < 0x400 then
    let r := a / 4
    if r / 8 < h then .save (0x1000 * (r / 8) + 0x200 * (r % 8) + 4 * L + a % 4) true else .live r (a % 4)
  else if a < 0x420 then .save (0x27000 + 32 * L + (a - 0x400)) (decide (a < 0x408))
  else if a = 0x420 then .preds
  else if a < 0x424 then .zero
  else if a < 0x428 then .save (0x25300 + (a - 0x424)) true
  else if a < 0x438 then .save (0x24500 + 256 * ((a - 0x428) / 2) + 2 * L + a % 2) true
  else if a < 0x500 then .zero
  else .save (0x24000 + (a - 0x500)) true

/-- Predicate bit j of the lane in the frame: its byte and bit. -/
def predByte (j L : Nat) : Nat × Nat := (0x24300 + 16 * j + L / 8, L % 8)

/-- The poison map byte and bit of a register of the save area's images. -/
def poisonByte (r L : Nat) : Nat × Nat := (0x20000 + 0x80 * (r / 8) + ((r % 8) * 128 + L) / 8, L % 8)

/-- Who reads a save area: the thread, at the word of the path that issues (R463). -/
def State.viewReq (s : State) (who : Nat) : Requester :=
  let w := s.warp who
  let p := (s.cur.bind (fun c => if c.who = who then w.pathAt c.lane else none))
  reqOf who false w.ctx (p.elim 0 Path.pc)

/-- One byte of the save area, and whether its sector is poisoned (R89); none while its page is being serviced. A byte that cannot be
reached is open (log entry 103). -/
def State.saveByte (s : State) (who off : Nat) : Option (Nat × Bool) × State :=
  match s.ask (s.warp who).ctx (s.tsave who + off) .load (coreOf who) who 0 with
  | (.ok pa _, t) => let u := t.locTouch (.phys pa) 1 (s.viewReq who)
                     (some (leNat (u.physRead pa 1), u.physPoison pa 1), u)
  | (.viol _, t) => let (v, u) := t.freeWord
                    (some (v.toNat % 256, false), u)
  | (.wait, t) => (none, t)

def State.putSaveByte (s : State) (who off v : Nat) : State := s.saveWrite who (s.tsave who + off) (toLe 1 v)

/-- A bit of the save area, and whether its sector is poisoned. -/
def State.saveBit (s : State) (who : Nat) (p : Nat × Nat) : Option (Bool × Bool) × State :=
  match s.saveByte who p.1 with
  | (some v, t) => (some (v.1.testBit p.2, v.2), t)
  | (none, t) => (none, t)

def setBit (v i : Nat) (b : Bool) : Nat := v - (if v.testBit i then 2 ^ i else 0) + (if b then 2 ^ i else 0)

def State.putSaveBit (s : State) (who : Nat) (p : Nat × Nat) (b : Bool) : State :=
  match s.saveByte who p.1 with
  | (some v, t) => t.putSaveByte who p.1 (setBit v.1 p.2 b)
  | (none, t) => t

/-- The lane's predicates in the frame, from bit j up. -/
def State.framePreds (s : State) (who L : Nat) : Nat → Option (Nat × Bool) × State
  | 0 => (some (0, false), s)
  | j + 1 =>
    match s.framePreds who L j with
    | (some v, t) =>
      (match t.saveBit who (predByte j L) with
       | (some b, u) => (some (v.1 + (if b.1 then 2 ^ j else 0), v.2 || b.2), u)
       | (none, u) => (none, u))
    | r => r

/-- Blocks of the view that lie in the save area. -/
def State.viewBlocks (s : State) (who : Nat) : Nat := if (s.ctl who).inTrap then handlerBlocks (s.ctl who) else 0

/-- The reserved bits of the ARSTAT word read as 0 and keep nothing (R10, R191). -/
def statusByte (a v : Nat) : Nat := if a = 0x424 then v % 128 else if 0x424 < a && decide (a < 0x428) then 0 else v

/-- Read one byte of the view with its poison. -/
def State.readView (s : State) (who a L : Nat) : Option (Nat × Bool) × State :=
  match viewByte (s.viewBlocks who) a L with
  | .zero => (some (0, false), s)
  | .live r b => (some (((s.warp who).val r L).toNat / 2 ^ (8 * b) % 256, ((s.warp who).reg r L).poison), s)
  | .preds =>
    match s.framePreds who L 7 with
    | (some v, t) => (some v, t)
    | (none, t) => (none, t)
  | .save off _ =>
    match s.saveByte who off with
    | (none, t) => (none, t)
    | (some v, t) =>
      if a < 0x400 then
        match t.saveBit who (poisonByte (a / 4) L) with
        | (some p, u) => (some (v.1, v.2 || p.1 || p.2), u)
        | (none, u) => (none, u)
      else (some (statusByte a v.1, v.2), t)

/-- Bytes of the view, each with its poison. -/
def State.readViewN (s : State) (who L : Nat) : Nat → Nat → Option (List (Nat × Bool)) × State
  | _, 0 => (some [], s)
  | a, n + 1 =>
    match s.readView who a L with
    | (none, t) => (none, t)
    | (some b, t) =>
      match t.readViewN who L (a + 1) n with
      | (none, u) => (none, u)
      | (some bs, u) => (some (b :: bs), u)

/-- Write one byte of the view; `whole` where the store covers the register. -/
def State.writeView (s : State) (who a L v : Nat) (whole : Bool) : State :=
  match viewByte (s.viewBlocks who) a L with
  | .zero => s
  | .live r b =>
    s.modWarp who (fun w =>
      let old := w.reg r L
      let o := old.val.toNat
      w.setReg r L ⟨BitVec.ofNat 32 (o - o / 2 ^ (8 * b) % 256 * 2 ^ (8 * b) + v * 2 ^ (8 * b)), old.poison && !whole⟩)
  | .preds => (List.range 7).foldl (fun t j => t.putSaveBit who (predByte j L) (v.testBit j)) s
  | .save off rw =>
    if !rw then s
    else
      let v' := if a = 0x400 then v / 4 * 4 else statusByte a v
      let t := s.putSaveByte who off v'
      if a < 0x400 && whole then t.putSaveBit who (poisonByte (a / 4) L) false else t

def State.writeViewN (s : State) (who L : Nat) (whole : Bool) : Nat → List Nat → State
  | _, [] => s
  | a, v :: vs => (s.writeView who a L v whole).writeViewN who L whole (a + 1) vs

/-- Registers of the window the view reaches. -/
def State.viewRegs (s : State) (who : Nat) : Nat := if isStream who then 64 else 8 * (s.warp who).curb

/-- R33, R36, R443: an access beyond the view or the window; INFO holds the register number it names. -/
def State.viewBound (s : State) (who : Nat) (ea : Int) (n : Nat) : Option Nat :=
  let top := if (s.ctl who).inTrap then 0x800 else 0x400
  let last := ((ea + n - 1) / 4 % (2 ^ 62 : Nat)).toNat
  if ea < 0 then some last
  else
    let a := ea.toNat
    if top < a + n || (a < 0x400 && decide (4 * s.viewRegs who < a + n)) then some last else none

end Sys2Proof.Machine
end

