-- ==== Sys2Proof/Machine/MemInstr.lean ====
section
/-! DEFINITION. Issuing the lane memory words LD, ST, ATOM, LDMX and STMX (12 R327 to R338): addresses, checks, the operand
log and the operation that their events later perform. -/

namespace Sys2Proof.Machine

/-! ### Effective addresses (R18) -/

def offOf (is : Issue) (nov uofs : Bool) (a : VOp) (L : Nat) : Int :=
  if nov then 0 else if uofs then ((is.src (useS a) L).toNat : Int) else (is.src (useS a) L).toInt

/-- The base of an MX array (R333). -/
def mxBase (is : Issue) (s : State) : Int :=
  match is.i with
  | .ldmx x | .stmx x => ((is.sv s x.xm.base).toNat : Int) + x.xm.imm.toInt
  | _ => 0

/-- A lane's effective address; for an MX word that of its block. -/
def eaOf (is : Issue) (s : State) (L : Nat) : Int :=
  match is.i with
  | .ld _ x | .st _ x => ((is.sv s x.xm.base).toNat : Int) + offOf is x.nov x.uofs x.a L + x.xm.imm.toInt
  | .atom x => ((is.sv s x.base).toNat : Int) + offOf is x.nov x.uofs x.a L + x.imm.toInt * (accBytes is.i : Int)
  | .ldmx x | .stmx x => mxBase is s + (mxOffset x.fe (is.src (useS x.a) L).toNat : Int)
  | _ => 0

/-- The address whose space and page a lane needs: an MX word needs its whole line. -/
def lineOf (i : Instr) (ea : Int) : Int := if isMx i then ea / 128 * 128 else ea

/-- R33 for `rw:`, then R19 and R333. -/
def memAlign (is : Issue) (s : State) : Option (Cause × Info) :=
  let eas := is.over (eaOf is s)
  let n := accBytes is.i
  let rb := if memSpace is.i == .rw then eas.filterMap (fun e => (s.viewBound is.who e.2 n).map (fun r => (e.1, r))) else []
  if !rb.isEmpty then some (.bound, .each rb)
  else
    let bad := if isMx is.i then (if mxBase is s % 128 = 0 then [] else eas) else eas.filter (fun e => e.2 % (n : Int) != 0)
    if bad.isEmpty then none
    else some (.align, .each (bad.map (fun e => (e.1, if isMx is.i then low64 (mxBase is s) else low64 e.2))))

/-! ### Spaces -/

/-- Where an address lies before translation. -/
inductive Pre where
  | bad (c : VClass)
  | sp (wg off : Nat)
  | ac (wg off : Nat)
  | va (va : Nat) (spc cl : Bool)
  deriving DecidableEq, Repr

/-- A spilled window: an address that no walk could reach is the class of its space. -/
def State.spillPre (s : State) (ctx va : Nat) (cl : Bool) : Pre :=
  match s.vaCheck ctx va with
  | .error _ => .bad (if cl then .clrank else .sprange)
  | .ok _ => .va va (!cl) cl

def State.spPre (s : State) (ctx : Nat) (g : Option Wg) (off : Nat) (cl : Bool) : Pre :=
  match g with
  | none => .bad (if cl then .clrank else .sprange)
  | some w =>
    match w.spRes off with
    | .unmapped => .bad (if cl then .clrank else .sprange)
    | .granule => .sp w.id off
    | .spill va => s.spillPre ctx va cl

/-- Resolve a lane's address of `n` bytes as far as that goes without a walk (R21 to R37, R107). -/
def State.preOf (s : State) (who ctx : Nat) (sp : Space) (ea : Int) (n : Nat) (plain : Bool) : Pre :=
  match sp with
  | .g =>
    if ea < 0 || decide ((2 ^ 57 : Nat) ≤ ea) then .bad .noncanon
    else match s.vaCheck ctx ea.toNat with
      | .error c => .bad c
      | .ok r => if r.mmio && !(plain && (n == 4 || n == 8)) then .bad .mmio else .va ea.toNat false false
  | .sp => if ea < 0 || decide ((2 ^ 21 : Nat) ≤ ea) then .bad .sprange else s.spPre ctx (s.wgOf who) ea.toNat false
  | .cl =>
    if ea < 0 || decide ((2 ^ 24 : Nat) ≤ ea) then .bad .clform
    else s.spPre ctx ((s.wgOf who).bind (fun g => s.member g (ea.toNat / 2 ^ 21))) (ea.toNat % 2 ^ 21) true
  | .ac =>
    match s.wgOf who with
    | none => .bad .acrange
    | some g => if ea < 0 || decide ((65536 * g.accg.length : Nat) ≤ ea) then .bad .acrange else .ac g.id ea.toNat
  | .rw => .bad .acrange

/-- The page of an address and its offset there. -/
def State.pageOf (s : State) (ctx va : Nat) : Nat × Nat :=
  match s.region ctx va with
  | some r => (r.pageOf va, va - r.pageOf va)
  | none => (va, 0)

/-- Distinct pages in ascending order (R114). -/
def State.pagesOf (s : State) (ctx : Nat) (pres : SMap Pre) : List Nat :=
  sortBy (fun (a b : Nat) => decide (a < b)) ((pres.filterMap (fun e =>
    match e.2 with
    | .va va _ _ => some (s.pageOf ctx va).1
    | _ => none)).eraseDups)

/-- What places touch as R119 compares it: the page of a `g:` address, or a spill window. -/
def State.memKeys (s : State) (ctx : Nat) (pres : SMap Pre) : List (Nat × Nat) :=
  (pres.filterMap (fun e => match e.2 with
    | .va va false false => some (0, (s.pageOf ctx va).1)
    | .va va _ _ => some (1, va / 65536)
    | _ => none)).eraseDups

/-- A request that has no answer yet. -/
def TReq.open_ (t : TReq) : Bool := match t.st with
  | .faulted _ | .need | .wait => true
  | _ => false

/-- A page of the operation has faulted; the operation counts as a faulted one until it is performed (R119). -/
def State.opFaulted (s : State) (o : MemOp) : Bool := o.treqs.any (fun t => (mget s.treqs t).elim false TReq.once)

/-- An earlier faulted operation of the thread touches a page or window of `keys`: a later one waits before its lookup (R119). -/
def State.keyHeld (s : State) (who : Nat) (keys : List (Nat × Nat)) (before : Nat) : Bool :=
  (mvals s.mops).any (fun o => o.who == who && decide (o.id < before) && o.keys.any keys.contains && s.opFaulted o)

/-- What the core TLB answers; a control core has none (R114, R116). -/
def State.tlbState (s : State) (who core ctx page : Nat) (acc : Acc) : TrState :=
  if isStream who then .need
  else match s.coreTlb core ctx page acc with
    | none => .need
    | some e => match leafGrant e acc 0 0 with
      | .ok l => .ok l
      | .viol c => .denied c
      | .fault _ _ _ _ => .need

/-- Requests for the pages, in order: their identifiers by page. With `hold` they wait before their lookup. -/
def State.makeTreqs (s : State) (who core ctx : Nat) (acc : Acc) (log : Nat) (hold : Bool) : List Nat → SMap Nat × State
  | [] => ([], s)
  | p :: ps =>
    let (id, s1) := s.newTreq ctx p acc core who false log (if hold then .wait else s.tlbState who core ctx p acc)
    let (m, s2) := s1.makeTreqs who core ctx acc log hold ps
    (mset m p id, s2)

/-- What a waiting request of an operation gets when it is looked up again: a request of a resumed warp is not answered from the
TLB (R125). -/
def State.lookupOf (s : State) (o : MemOp) (t : TReq) : TrState :=
  if t.root then .need else s.tlbState o.who o.core t.ctx t.va t.acc

/-- The requests of an operation that wait before their lookup. -/
def State.waitingReqs (s : State) (o : MemOp) : List TReq := (o.treqs.filterMap (mget s.treqs)).filter (fun t => t.st == .wait)

/-- The free operand-log entry of a core, where the thread may take one (R117): the lowest, which is the model's choice (log
entry 93). -/
def State.freeLog (s : State) (who core : Nat) : Option Nat :=
  let held := (mvals s.mops).filter (fun o => o.core == core && !isStream o.who && !s.isAway o.who)
  if decide (8 ≤ (held.filter (fun o => o.who == who && o.log.isSome)).length) then none
  else (List.range 64).find? (fun k => !(held.any (fun o => o.log == some k)))

/-- An operation of the warp could be looked up now, misses, and finds no operand-log entry free: the warp stalls (R117). -/
def State.logStarved (s : State) (who : Nat) : Bool :=
  !isStream who && (mvals s.mops).any (fun o => o.who == who && o.log.isNone && !s.keyHeld who o.keys o.id &&
    (s.waitingReqs o).any (fun t => s.lookupOf o t == .need) && (s.freeLog who o.core).isNone)

/-! ### Captured operands -/

def quadVal (is : Issue) (u : VUse) (L : Nat) : W128 :=
  let r := regOf is.w (vuses is.i) u L
  is.w.val (r + 3) L ++ is.w.val (r + 2) L ++ is.w.val (r + 1) L ++ is.w.val r L

/-- Byte p of a register value. -/
def byteOf (v p : Nat) : Nat := v / 2 ^ (8 * p) % 256

/-- What a lane stores, or the operand of its atomic. -/
def dataOf (is : Issue) (L : Nat) : W128 :=
  match is.i with
  | .st sz x =>
    let u := useMem x.d (stRegs sz) true false
    (match stRegs sz with
     | 4 => quadVal is u L
     | 2 => (is.src64 u L).setWidth 128
     | _ => (is.src u L).setWidth 128)
  | .atom x => BitVec.ofNat 128 (is.num (useS x.b x.ty.is64) L)
  | .stmx x => BitVec.ofNat 128 (byteOf (is.src (useS x.d true) L).toNat x.plane.val)
  | _ => 0

/-- CAS's compare value; an STMX lane's scale byte. -/
def cmpOf (is : Issue) (L : Nat) : W64 :=
  match is.i with
  | .atom x =>
    if x.aop == .cas then
      let n := if x.ty.is64 then 2 else 1
      BitVec.ofNat 64 (is.num { op := x.d, n := n, src := true, dst := !x.noret, pair := x.ty.is64 } L)
    else 0
  | .stmx x => BitVec.ofNat 64 (byteOf (is.w.val (regOf is.w (vuses is.i) (useS x.d true) L + 1) L).toNat x.plane.val)
  | _ => 0

/-- The destination operand, if the word writes registers. -/
def memDst : Instr → Option VUse
  | .ld sz x => some (useMem x.d (ldRegs sz) false true)
  | .atom x =>
    if x.noret then none
    else some { op := x.d, n := if x.ty.is64 then 2 else 1, src := x.aop == .cas, dst := true, pair := x.ty.is64 }
  | .ldmx x => some (useDS x.d true)
  | _ => none

/-! ### STMX's form check (R335) -/

/-- The lowest lane group that breaks R335. -/
def mxformBad (is : Issue) (a : VOp) : Option Nat :=
  (List.range 4).find? (fun j =>
    let ls := (lanesOf is.mask).filter (fun L => L / 32 == j)
    let one := fun (f : Nat → Nat) => decide (((ls.map f).eraseDups).length ≤ 1)
    !ls.isEmpty && !(decide (ls.length = 32) && one (fun L => (is.src (useS a) L).toNat) && one (fun L => (cmpOf is L).toNat)))

/-! ### The `rw:` lane view: performed at issue (R33, R35) -/

/-- Registers that an `rw:` access names, in the live window or in the save area. -/
def State.viewNames (s : State) (is : Issue) (n : Nat) : List Nat :=
  ((lanesOf is.mask).flatMap (fun L => (List.range n).filterMap (fun k =>
    let a := (eaOf is s L).toNat + k
    if a < 0x400 then some (a / 4) else none))).eraseDups

/-- It reaches the save area. -/
def State.viewSaves (s : State) (is : Issue) (n : Nat) : Bool :=
  (lanesOf is.mask).any (fun L => (List.range n).any (fun k =>
    match viewByte (s.viewBlocks is.who) ((eaOf is s L).toNat + k) L with
    | .save _ _ | .preds => true
    | _ => false))

/-- Earlier words stand before an `rw:` access: long-latency writes of what the view shows into a register that it names (R35, R443),
and the handler's own memory words, where it reaches the save area that they may reach too (R447). -/
def State.viewWaits (s : State) (is : Issue) (n : Nat) : Bool :=
  let t := s.beforeGroup
  (t.pendingOf is.who false true).any (s.viewNames is n).contains ||
    (s.viewSaves is n && (mvals t.mops).any (fun o => o.who == is.who && o.handler))

/-- Registers of the live window that an `rw:` access touches. -/
def State.viewTouch (s : State) (is : Issue) (n : Nat) : List Nat :=
  ((lanesOf is.mask).flatMap (fun L => (List.range n).filterMap (fun k =>
    match viewByte (s.viewBlocks is.who) ((eaOf is s L).toNat + k) L with
    | .live r _ => some r
    | _ => none))).eraseDups

/-- What an LD writes from the bytes it read (R328). -/
def ldValue (sz : LdSize) (v : Nat) : Nat :=
  match sz with
  | .s8 => low32 (if v < 128 then v else v + (2 ^ 32 - 256))
  | .s16 => low32 (if v < 2 ^ 15 then v else v + (2 ^ 32 - 2 ^ 16))
  | _ => v
where low32 (n : Nat) : Nat := n % 2 ^ 32

/-- Write registers from r on. -/
def Warp.putRegs (w : Warp) (L : Nat) : Nat → List LaneReg → Warp
  | _, [] => w
  | r, v :: vs => (w.setReg r L v).putRegs L (r + 1) vs

/-- The registers a load fills from bytes of the view: one that receives a poisoned byte is poisoned (R33). -/
def loadedRegs (sz : LdSize) (n : Nat) (bs : List (Nat × Bool)) : List LaneReg :=
  let v := ldValue sz (leNat (bs.map (fun b => BitVec.ofNat 8 b.1)))
  (List.range n).map (fun k => ⟨BitVec.ofNat 32 (v / 2 ^ (32 * k)), ((bs.drop (4 * k)).take 4).any Prod.snd⟩)

/-- Read the lanes one by one; none while a page of the frame is being serviced. -/
def State.viewLoads (s : State) (is : Issue) (n : Nat) : List Nat → Option (SMap (List (Nat × Bool))) × State
  | [] => (some [], s)
  | L :: Ls =>
    match s.readViewN is.who L (eaOf is s L).toNat n with
    | (none, t) => (none, t)
    | (some bs, t) =>
      match t.viewLoads is n Ls with
      | (none, u) => (none, u)
      | (some m, u) => (some ((L, bs) :: m), u)

def rwLoad (sz : LdSize) (x : MemArgs) (is : Issue) (s : State) : Act :=
  let n := ldBytes sz
  let regs := s.viewTouch is n
  let absent := (regs.map (fun r => r / 8)).eraseDups.filter (fun b => ((s.warp is.who).block b).absent)
  if !absent.isEmpty then .hold (s.wantBlocks is.who absent)
  else if s.viewWaits is n then .hold s
  else match (s.setWarp is.who is.w).viewLoads is n (lanesOf is.mask) with
    | (none, t) => .hold (t.setWarp is.who (s.warp is.who))
    | (some m, t0) =>
      let t := t0.setWarp is.who (s.warp is.who)
      let u := useMem x.d (ldRegs sz) false true
      .next (t.modWarp is.who (fun w => m.foldl (fun w e =>
        w.putRegs e.1 (regOf is.w (vuses is.i) u e.1) (loadedRegs sz (ldRegs sz) e.2)) w))

def rwStore (sz : StSize) (is : Issue) (s : State) : Act :=
  let n := stBytes sz
  let regs := s.viewTouch is n
  let absent := (regs.map (fun r => r / 8)).eraseDups.filter (fun b => ((s.warp is.who).block b).absent)
  if !absent.isEmpty then .hold (s.wantBlocks is.who absent)
  else if s.viewWaits is n then .hold s
  else match s.viewLoads is n (lanesOf is.mask) with
    | (none, t) => .hold t
    | (some _, t) =>
      .next ((lanesOf is.mask).foldl (fun t L =>
        t.writeViewN is.who L (decide (4 ≤ n)) (eaOf is s L).toNat ((toLe n (dataOf is L).toNat).map BitVec.toNat)) t)

/-! ### Starting a memory operation -/

/-- The place of a lane, its page's request made. -/
def State.placeOf (s : State) (ctx : Nat) (reqs : SMap Nat) : Pre → Place
  | .bad c => .bad c
  | .sp w o => .sp w o
  | .ac w o => .ac w o
  | .va va spc cl =>
    let (p, o) := s.pageOf ctx va
    .page (mgetD reqs p 0) o spc cl

def State.l1Drop (s : State) (core line : Nat) : State := s.modCore core (fun c => { c with l1 := mdel c.l1 line })

/-- The L1 may hold lines of this leaf (R78, R80). -/
def leafCached (leaf : W64) : Bool := leafCP leaf != 1

/-- The line of a place in global memory that the L1 may hold, once its page is known. -/
def State.lineAt (s : State) (p : Place) : Option Nat :=
  match p with
  | .page t off false false =>
    (mget s.treqs t).bind (fun r => match r.st with
      | .ok leaf => if leafCached leaf then some (s.normPa (leafPfn leaf + off) / 128) else none
      | _ => none)
  | _ => none

/-- An atomic drops its lines from the issuing core's L1 when it issues (R85). -/
def State.dropAtomLines (s : State) (o : MemOp) : State :=
  (o.place.filterMap (fun e => s.lineAt e.2)).foldl (fun t l => t.l1Drop o.core l) s

/-- A lane's place before translation. -/
def State.presOf (s : State) (who ctx : Nat) (i : Instr) (eas : SMap Int) : SMap Pre :=
  let plain := match i with | .ld _ _ | .st _ _ => true | _ => false
  eas.map (fun e => (e.1, s.preOf who ctx (memSpace i) (lineOf i e.2) (accBytes i) plain))

/-- The virtual address that an access of a space needs: its own in `g:`, or that of its spilled window. -/
def State.spaceVa (s : State) (who : Nat) (sp : Space) (a : Int) : Option Nat :=
  let spill := fun (g : Option Wg) (off : Nat) => g.bind (fun w => match w.spRes off with
    | .spill va => some va
    | _ => none)
  if a < 0 then none
  else match sp with
    | .g => some a.toNat
    | .sp => spill (s.wgOf who) a.toNat
    | .cl => spill ((s.wgOf who).bind (fun g => s.member g (a.toNat / 2 ^ 21))) (a.toNat % 2 ^ 21)
    | _ => none

/-- The virtual addresses whose region entries a lane memory word reads (R107, R128). -/
def State.readsAt (s : State) (who : Nat) (i : Instr) (eas : SMap Int) : List Nat :=
  eas.filterMap (fun e => s.spaceVa who (memSpace i) (lineOf i e.2))

/-- Read those entries, and keep them. -/
def State.noteAll (s : State) (who ctx : Nat) (i : Instr) (eas : SMap Int) (r : Requester) : State :=
  (s.readsAt who i eas).foldl (fun t a => t.noteVa ctx a r) s

/-- A lane memory word can start: where a page misses the core TLB an operand-log entry is free (R117), and the core has request
slots for it (R82). A control core has neither. -/
def State.memRoom (s : State) (is : Issue) : Bool :=
  let eas := is.over (eaOf is s)
  let pres := s.presOf is.who is.ctx is.i eas
  let miss := !s.keyHeld is.who (s.memKeys is.ctx pres) s.nextId &&
    (s.pagesOf is.ctx pres).any (fun p => s.tlbState is.who (coreOf is.who) is.ctx p (memAcc is.i) == .need)
  isStream is.who || ((!miss || (s.freeLog is.who (coreOf is.who)).isSome) &&
    decide (s.slotsUsed (coreOf is.who) + reqCost is.i eas ≤ Config.requestSlots))

/-- The lookups of a word that starts, an operand-log entry taken where a page misses (R117); one behind an earlier faulted
operation waits before them (R119). The entry, the requests by page, and the state. -/
def State.lookupPages (s : State) (who core ctx : Nat) (acc : Acc) (keys : List (Nat × Nat)) (pages : List Nat) :
    Option Nat × SMap Nat × State :=
  let hold := s.keyHeld who keys s.nextId
  let miss := !hold && pages.any (fun p => s.tlbState who core ctx p acc == .need)
  let log := if miss && !isStream who then s.freeLog who core else none
  (log, s.makeTreqs who core ctx acc (log.getD 0) hold pages)

/-- Issue: form the addresses and requests, capture the data, count the stores and the flag (R117, R82, R237). Without room the warp
stalls at the word. -/
def memStart (is : Issue) (s : State) : Act :=
  let i := is.i
  let core := coreOf is.who
  let eas := is.over (eaOf is s)
  if !s.memRoom is then .hold (s.modCtl is.who (fun c => { c with stall := some is.lane }))
  else
    let s0 := s.noteAll is.who is.ctx i eas (reqOf is.who false is.ctx is.pc)
    let pres := s0.presOf is.who is.ctx i eas
    let keys := s0.memKeys is.ctx pres
    let (log, reqs, s1) := s0.lookupPages is.who core is.ctx (memAcc i) keys (s0.pagesOf is.ctx pres)
    let (id, s2) := s1.newId
    let o : MemOp := {
      id := id, who := is.who, core := core, ctx := is.ctx, instr := i, pc := is.pc, iword := is.iword, xword := is.xword
      mask := is.mask, ea := eas
      place := pres.map (fun e => (e.1, s0.placeOf is.ctx reqs e.2)), keys := keys
      data := is.over (dataOf is), cmp := is.over (cmpOf is)
      dst := (memDst i).elim [] (fun u => is.over (regOf is.w (vuses i) u))
      flag := is.flag, treqs := mvals reqs, log := log, handler := is.handler }
    let s3 := ((s2.setMop o).incFlag is.who is.flag).modCtl is.who (fun c => { c with unacked := c.unacked + storeCost i eas })
    .next (match i with
      | .atom _ => s3.dropAtomLines o
      | _ => s3)

def memBody (is : Issue) (s : State) : Act := if is.mask = 0 then .next s else memStart is s

def execLd (sz : LdSize) (x : MemArgs) (s : State) : Host.Outcome State Fault Refusal :=
  runWordWith (.ld sz x) noCheck memAlign (fun is s => if x.xm.space == .rw then rwLoad sz x is s else memBody is s) s

def execSt (sz : StSize) (x : MemArgs) (s : State) : Host.Outcome State Fault Refusal :=
  runWordWith (.st sz x) noCheck memAlign (fun is s => if x.xm.space == .rw then rwStore sz is s else memBody is s) s

def execAtom (x : AtomArgs) (s : State) : Host.Outcome State Fault Refusal :=
  runWordWith (.atom x) noCheck memAlign memBody s

def execLdmx (x : MxMemArgs) (s : State) : Host.Outcome State Fault Refusal :=
  runWordWith (.ldmx x) noCheck memAlign memBody s

def stmxBody (x : MxMemArgs) (is : Issue) (s : State) : Act :=
  match mxformBad is x.a with
  | some j => .trap .mxform (.same j)
  | none => memBody is s

def execStmx (x : MxMemArgs) (s : State) : Host.Outcome State Fault Refusal :=
  runWordWith (.stmx x) noCheck memAlign (stmxBody x) s

end Sys2Proof.Machine
end

