-- ==== Sys2Proof/Machine/L1.lean ====
section
/-! DEFINITION. The L1 data cache of a core (03 R80 to R86, 05 R142, R143): lookup, fills, stores and the flash invalidate. -/

namespace Sys2Proof.Machine

/-- Bytes of part of a line held as one word. -/
def lineBytes (d : BitVec 1024) (off n : Nat) : List Byte := toLe n (d.toNat / 2 ^ (8 * off))

def putLine (d : BitVec 1024) (off : Nat) (bs : List Byte) : BitVec 1024 :=
  let m : BitVec 1024 := BitVec.ofNat 1024 (2 ^ (8 * bs.length) - 1) <<< (8 * off)
  merge d m (BitVec.ofNat 1024 (leNat bs) <<< (8 * off))

def bit4 (i : Nat) : BitVec 4 := (1 : BitVec 4) <<< i

/-- The sectors of a line that n bytes at `pa` touch. -/
def lineSectors (pa n : Nat) : BitVec 4 := (sectorsOf pa n).foldl (fun m k => m ||| bit4 (k % 4)) 0

def State.l1Line (s : State) (core line : Nat) : Option L1Line := mget (s.core core).l1 line

/-- The bytes the L1 holds, where every sector touched is valid. -/
def State.l1Read (s : State) (core pa n : Nat) : Option (List Byte) :=
  (s.l1Line core (pa / 128)).bind fun l =>
    if l.valid &&& lineSectors pa n = lineSectors pa n then some (lineBytes l.data (pa % 128) n) else none

/-- An MX load hits only a line that one fill installed whole (R81). -/
def State.l1ReadLine (s : State) (core line : Nat) : Option (BitVec 1024 × W64) :=
  (s.l1Line core line).bind fun l => if l.oneFill then some (l.data, l.sb) else none

/-- An outstanding fill of the current epoch that brings sectors of a line (R143): its index. -/
def State.fillFor (s : State) (core line : Nat) (secs : BitVec 4) : Option Nat :=
  (s.core core).fills.findIdx? (fun f => f.line == line && f.sectors &&& secs != 0 && f.epoch == (s.core core).epoch)

/-- A miss may join the fill: it brings every sector asked for, and no store of the core has reached them since it left (R135,
R143). An MX miss joins a fill of the whole line only (R81). -/
def L1Fill.joins (f : L1Fill) (secs : BitVec 4) (whole : Bool) : Bool :=
  f.sectors &&& secs == secs && f.stored &&& secs == 0 && (!whole || f.whole)

/-- A request leaves the L1 for sectors of a line: what the L2 returns is captured with the current epoch, for whom it is. -/
def State.startFill (s : State) (core line : Nat) (secs : BitVec 4) (whole stream : Bool) (for_ : Nat × Nat) (r : Requester) : State :=
  let s1 := (List.range 4).foldl (fun t i => if secs.getLsbD i then t.locTouch (.phys (128 * line + 32 * i)) 32 r else t) s
  let p := (List.range 4).foldl (fun (m : BitVec 4) i => if s1.physPoison (128 * line + 32 * i) 32 then m ||| bit4 i else m) 0
  let f : L1Fill := {
    line := line, sectors := secs, data := leWord 1024 (s1.physRead (128 * line) 128), sb := s1.sideRead line
    epoch := (s1.core core).epoch, whole := whole, poison := p &&& secs, sbPoison := s1.sidePoison line, stream := stream, waiters := [for_] }
  s1.modCore core (fun c => { c with fills := c.fills ++ [f] })

/-- A miss on sectors of a line: it joins the fill under way, waits behind one that it may not join, or starts one (R81, R143). -/
def State.miss (s : State) (core line : Nat) (secs : BitVec 4) (whole stream : Bool) (for_ : Nat × Nat) (r : Requester) : State :=
  match s.fillFor core line secs with
  | none => s.startFill core line secs whole stream for_ r
  | some i =>
    if ((s.core core).fills[i]?).any (fun f => f.joins secs whole) then
      s.modCore core (fun c => { c with fills := c.fills.modify i (fun f => { f with waiters := f.waiters ++ [for_] }) })
    else s

/-- Make room for a line in a full L1: lines of STREAM pages go first; which of them is not architectural (R78). -/
def State.l1Room (s : State) (core line : Nat) : State :=
  let c := s.core core
  if mhas c.l1 line || decide (c.l1.length < Config.l1Lines) then s
  else
    let first := mkeys (c.l1.filter (fun e => e.2.stream))
    let ls := if first.isEmpty then mkeys c.l1 else first
    let (k, s1) := s.pick ls.length
    s1.modCore core (fun c => { c with l1 := mdel c.l1 (ls.getD k 0) })

/-- What an L1 line is once a fill has arrived: a side band that differs discards the other sectors; the sectors of `take` come in
(R81). -/
def L1Line.fill (old : L1Line) (f : L1Fill) (take : BitVec 4) : L1Line :=
  let same := old.sb = f.sb
  { line := f.line, sb := f.sb, stream := f.stream
    valid := (if same then old.valid else 0) ||| take
    data := (List.range 4).foldl (fun d i => if take.getLsbD i then putLine d (32 * i) (lineBytes f.data (32 * i) 32) else d) old.data
    oneFill := (f.whole && take == 0xF#4) || (same && old.oneFill && take == 0) }

/-- Install a returned fill (R81, R84, R89, R143): of the current epoch, its sectors that are not poisoned and that no store of the
core has reached since. -/
def State.l1Install (s : State) (core : Nat) (f : L1Fill) : State :=
  if f.epoch != (s.core core).epoch then s
  else
    let take := if f.whole && (f.poison != 0 || f.sbPoison) then 0 else f.sectors &&& ~~~f.poison &&& ~~~f.stored
    match s.l1Line core f.line with
    | none =>
      if take = 0 then s
      else (s.l1Room core f.line).modCore core (fun c => { c with l1 := mset c.l1 f.line (({ line := f.line, sb := f.sb } : L1Line).fill f take) })
    | some l => s.modCore core (fun c => { c with l1 := mset c.l1 f.line (l.fill f take) })

/-- A write of the core reaches sectors whose fills are under way: those are not installed (R143). -/
def State.markFills (s : State) (core pa n : Nat) : State :=
  if n = 0 then s else
  s.modCore core (fun c => { c with fills := c.fills.map (fun f =>
    if f.line == pa / 128 then { f with stored := f.stored ||| lineSectors pa n } else f) })

/-- Bytes of one line that an acknowledged write of the core changes in the valid sectors of its L1 (R81, R142). -/
def State.l1Store (s : State) (core pa : Nat) (bs : List Byte) : State :=
  if bs = [] then s else
  s.modCore core (fun c =>
    { c with l1 := match mget c.l1 (pa / 128) with
      | none => c.l1
      | some l =>
        let data := bs.zipIdx.foldl (fun d e =>
          if l.valid.getLsbD ((pa + e.2) % 128 / 32) then putLine d ((pa + e.2) % 128) [e.1] else d) l.data
        mset c.l1 (pa / 128) { l with data := data } })

/-- What an MX store changes in the side band that the L1 holds (R81). -/
def State.l1StoreSide (s : State) (core line : Nat) (f : W64 → W64) : State :=
  s.modCore core (fun c => match mget c.l1 line with
    | none => c
    | some l => { c with l1 := mset c.l1 line { l with sb := f l.sb } })

/-- The pieces of a byte string that lie in one line each. -/
def linePieces (pa : Nat) (bs : List Byte) : List (Nat × List Byte) :=
  if bs = [] then [] else (linesOf pa bs.length).map (fun l =>
    let lo := max pa (128 * l)
    let hi := min (pa + bs.length) (128 * (l + 1))
    (lo, (bs.drop (lo - pa)).take (hi - lo)))

/-- A write over several lines. -/
def State.l1StoreAll (s : State) (core pa : Nat) (bs : List Byte) : State :=
  (linePieces pa bs).foldl (fun t p => (t.markFills core p.1 p.2.length).l1Store core p.1 p.2) s

def State.markFillsAll (s : State) (core pa : Nat) (bs : List Byte) : State :=
  (linePieces pa bs).foldl (fun t p => t.markFills core p.1 p.2.length) s

/-- An invalidate whose new epoch an outstanding fill carries is held back (R84). -/
def State.canFlash (s : State) (core : Nat) : Bool :=
  (s.core core).fills.all (fun f => f.epoch != (s.core core).epoch + 1)

/-- The flash invalidate (R83). -/
def State.flash (s : State) (core : Nat) : State :=
  s.modCore core (fun c => { c with l1 := [], epoch := c.epoch + 1 })

/-- An acquire of the thread may invalidate its core's L1 now; a control core has none. -/
def State.mayAcquire (s : State) (who : Nat) : Bool := isStream who || s.canFlash (coreOf who)

/-- An acquire's invalidate (R83, R145). -/
def State.acquireL1 (s : State) (who : Nat) : State := if isStream who then s else s.flash (coreOf who)

/-- An engine's write (R150): at its point, and in the valid sectors of the issuing core's L1. -/
def State.engWrite (s : State) (core : Nat) (l : Loc) (bs : List Byte) (r : Requester) : State :=
  match l with
  | .phys pa => if s.linkFails pa bs.length then s.locWrite l bs r else (s.locWrite l bs r).l1StoreAll core (s.normPa pa) bs
  | _ => s.locWrite l bs r

/-- An L1 line without some of its sectors. -/
def L1Line.without (l : L1Line) (secs : BitVec 4) : L1Line := { l with valid := l.valid &&& ~~~secs, oneFill := l.oneFill && secs == 0 }

/-- No L1 holds poisoned data (R81, R89): the sectors of n bytes that have just been marked leave the L1 of the core that marked
them. -/
def State.dropPoisoned (s : State) (core : Nat) (l : Loc) (n : Nat) : State :=
  match l with
  | .phys pa0 =>
    let pa := s.normPa pa0
    s.modCore core (fun c => match mget c.l1 (pa / 128) with
      | none => c
      | some l => { c with l1 := mset c.l1 (pa / 128) (l.without (lineSectors pa n)) })
  | _ => s

/-- A line whose side band has been marked poisoned is no longer one that a fill installed whole. -/
def State.dropPoisonedSide (s : State) (core : Nat) (l : Loc) : State :=
  match l with
  | .phys pa => s.modCore core (fun c => { c with l1 := mdel c.l1 (s.normPa pa / 128) })
  | _ => s

/-! ### Registers of the interrupted context, of the handler, and of a warp that is away (R444, R457) -/

/-- Where a long-latency access finds a register: in the window; in a block of an away warp that is still to be written back; or as its
image in the save area. -/
inductive RegAt where
  | live
  | held (i : Nat)
  | image
  deriving DecidableEq, Repr

/-- The register is one of a handler's own blocks. -/
def State.handlerReg (s : State) (who r : Nat) (handler : Bool) : Bool :=
  handler && (s.ctl who).inTrap && decide (r / 8 < handlerBlocks (s.ctl who))

/-- Where the image of register r's block begins in the save area (R453). -/
def State.imageOff (s : State) (who r : Nat) (handler : Bool) : Nat :=
  (if s.handlerReg who r handler then 0x30000 else 0) + 0x1000 * (r / 8)

/-- The bit of its poison map. -/
def State.imageBit (s : State) (who r L : Nat) (handler : Bool) : Nat × Nat :=
  ((if s.handlerReg who r handler then 0x12000 else 0) + (poisonByte r L).1, (poisonByte r L).2)

def State.regAt (s : State) (who r : Nat) (handler : Bool) : RegAt :=
  if s.isAway who then
    match (s.core (coreOf who)).wbs.findIdx? (fun w => w.who == who && w.va == s.tsave who + s.imageOff who r handler) with
    | some i => .held i
    | none => .image
  else if handler || !(s.ctl who).inTrap || decide (handlerBlocks (s.ctl who) ≤ r / 8) then .live
  else .image

/-- A register lane after a write of its bytes `m`. -/
def LaneReg.put (old : LaneReg) (v m : W32) (p : Bool) : LaneReg :=
  ⟨merge old.val m v, p || (old.poison && m != BitVec.allOnes 32)⟩

/-- Write the bytes `m` of register r in lane L where it lies. -/
def State.putLong (s : State) (who r L : Nat) (handler : Bool) (v : W32) (m : W32) (p : Bool) : State :=
  match s.regAt who r handler with
  | .live => s.modWarp who (fun w => w.setReg r L ((w.reg r L).put v m p))
  | .held i => s.modCore (coreOf who) (fun c => { c with wbs := c.wbs.modify i (fun w =>
      let k := 128 * (r % 8) + L
      { w with block := { w.block with cells := mset w.block.cells k ((mgetD w.block.cells k {}).put v m p) } }) })
  | .image =>
    let off := s.imageOff who r handler + 0x200 * (r % 8) + 4 * L
    let s1 := (List.range 4).foldl (fun t i =>
      if m.getLsbD (8 * i) then t.putSaveByte who (off + i) (v.toNat / 2 ^ (8 * i) % 256) else t) s
    if p || m == BitVec.allOnes 32 then s1.putSaveBit who (s.imageBit who r L handler) p else s1

/-- A register lane as a long-latency read finds it. The image of a lost block is no image (R67). -/
def State.getLong (s : State) (who r L : Nat) (handler : Bool) : LaneReg :=
  match s.regAt who r handler with
  | .live => (s.warp who).reg r L
  | .held i => ((s.core (coreOf who)).wbs[i]?).elim {} (fun w => mgetD w.block.cells (128 * (r % 8) + L) {})
  | .image =>
    let off := s.imageOff who r handler + 0x200 * (r % 8) + 4 * L
    let bs := (List.range 4).map (fun i => ((s.saveByte who (off + i)).1).getD (0, false))
    let map := ((s.saveBit who (s.imageBit who r L handler)).1).getD (false, false)
    ⟨BitVec.ofNat 32 (leNat (bs.map (fun b => BitVec.ofNat 8 b.1))),
     bs.any Prod.snd || map.1 || map.2 || (s.isAway who && (s.ctl who).lost.contains (r / 8))⟩

/-- Blocks a long-latency access must find present (R66). -/
def State.longAbsent (s : State) (who : Nat) (handler : Bool) (regs : List Nat) : List Nat :=
  ((regs.map (fun r => r / 8)).eraseDups).filter (fun b =>
    !isStream who && !s.isAway who && (mget (s.warp who).blocks b).elim true Block.absent && (handler || !(s.ctl who).inTrap || decide (handlerBlocks (s.ctl who) ≤ b)))

/-- Whether the pages of the images such an access needs are ready. -/
def State.longReady (s : State) (who : Nat) (handler : Bool) (regs : List Nat) : Bool × State :=
  let need := ((regs.map (fun r => r / 8)).eraseDups).filter (fun b => s.regAt who (8 * b) handler == .image)
  s.saveAllReady who .store (need.flatMap (fun b =>
    [(s.tsave who + s.imageOff who (8 * b) handler, 0x1000), (s.tsave who + (s.imageBit who (8 * b) 0 handler).1, 0x80)]))

end Sys2Proof.Machine
end

