-- ==== Sys2Proof/Machine/CtlRegs.lean ====
section
/-! DEFINITION. Command streams (16 R417 to R424), ring consumers (R123), fault answers (R124), invalidation requests
(R127, R286) and pre-emption requests (R455): what the control and module registers start. -/

namespace Sys2Proof.Machine

/-! ### Ring consumers -/

/-- R123: a write of T to TAIL counts only where the ring would hold no more records than its size. -/
def tailOk (base head v : W64) : Bool := decide ((head - v).toNat ≤ ringSize base)

def State.writeFqtail (s : State) (c : Nat) (v : W64) : State :=
  s.modCluster c (fun k => if tailOk k.fqbase k.fqhead v then { k with fqtail := v } else k)

def State.writeErrtail (s : State) (c : Nat) (v : W64) : State :=
  s.modCluster c (fun k => if tailOk k.errbase k.errhead v then { k with errtail := v } else k)

def State.writeEvqtail (s : State) (j : Nat) (v : W64) : State :=
  s.modStream j (fun x => if tailOk x.evqbase x.evqhead v then { x with evqtail := v } else x)

/-! ### Fault answers (R124) -/

/-- The cluster that serves a request's faults. -/
def TReq.cluster (t : TReq) : Nat := if isStream t.who then clusterOf t.who else t.core / 8

/-- The requesters that joined a fault. -/
def State.joined (s : State) (c fid : Nat) : List TReq :=
  (mvals s.treqs).filter (fun t => t.cluster == c && t.st == .faulted fid)

/-- Answer a posted fault: every joined requester goes on with `f`. A fault whose record still waits for room in the queue is not yet
one that FRESP can name (log entry 106). -/
def State.answerFault (s : State) (c fid : Nat) (f : State → TReq → State) : State :=
  if (s.cluster c).faults.any (fun x => x.fid == fid && x.posted) then
    let s1 := s.modCluster c (fun k => { k with faults := k.faults.filter (fun x => x.fid != fid) })
    (s.joined c fid).foldl f s1
  else s

def State.frespReplay (s : State) (c fid : Nat) : State := s.answerFault c fid (fun t r => t.walkReq r true)

def State.frespViol (s : State) (c fid : Nat) (v : VClass) : State :=
  s.answerFault c fid (fun t r => t.setTreq { r with st := .viol v })

/-! ### Streams -/

def streamActive (x : Stream) : Bool := x.state == 1 || x.state == 2

/-- GO refused: STATE 5, ERRC and a REJECT record (R421). -/
def State.rejectStream (s : State) (j errc : Nat) : State :=
  let pc := (s.stream j).strpc
  (s.modStream j (fun x => { x with state := 5, errc := errc })).postRecord j 4 true (BitVec.ofNat 64 errc) pc

/-- Results of an earlier program reach no register or flag of the next one (log entry 18). -/
def State.disown (s : State) (who : Nat) : State :=
  { s with
    mops := s.mops.map (fun e => if e.2.who == who then (e.1, { e.2 with dst := [], flag := none }) else e)
    eops := s.eops.map (fun e => (e.1, { e.2 with flags := e.2.flags.filter (fun f => f.1 != who) })) }

/-- GO with the latched STRPC and CTXID (R417, R421). -/
def State.streamGo (s : State) (j : Nat) : State :=
  let x := s.stream j
  let who := streamBase + j
  if streamActive x then s
  else match s.readDescr (j / 16) x.ctx with
    | none => (s.noteDescr (j / 16) x.ctx).rejectStream j 3
    | some d =>
      if !descrValid d then s.rejectStream j 1
      else if bitsOf x.strpc 57 7 != 0 || bitsOf x.strpc 0 4 != 0 then s.rejectStream j 2
      else
        let s1 := ({ s with ctxs := mset s.ctxs x.ctx d }.disown who).dropAsks who twaitTag
        let w : Warp := { ctx := x.ctx, s := if x.strarg = 0 then [] else [(0, x.strarg)], curb := 8, exited := ~~~1#128
                          paths := [{ mask := 1, pc := x.strpc }] }
        ((s1.setWarp who w).setCtl who { lastIssue := s.clock }).modStream j
          (fun y => { y with state := 1, haltReq := false, suspended := false })

/-- A stream that waits in WAITSEM gives the wait up; its word issues again, if at all (R421, R519). -/
def State.abandonSem (s : State) (who : Nat) : State :=
  (s.modCtl who (fun c => { c with waits := c.waits.filter (fun x => match x.kind with | .sem _ _ _ => false | _ => true) })).dropAsks who twaitTag

def State.inSem (s : State) (who : Nat) : Bool :=
  (s.ctl who).waits.any (fun x => match x.kind with | .sem _ _ _ => true | _ => false)

/-- The stream stands at a packet boundary. -/
def State.atBoundary (s : State) (who : Nat) : Bool := (s.warp who).paths.all (fun p => !p.inside)

/-- Carry out a HALT that has been asked for, at a packet boundary (R421). -/
def State.haltNow (s : State) (j : Nat) : State :=
  let who := streamBase + j
  if (s.stream j).haltReq && s.atBoundary who then
    let pc := ((s.warp who).paths.head?).elim (s.stream j).strpc (fun p => pktOf p.pc)
    (s.stopThread who).modStream j (fun x => { x with state := 0, strpc := pc, haltReq := false, suspended := false })
  else s

/-- HALT: at once at a packet boundary or in WAITSEM, else at the next boundary. -/
def State.streamHalt (s : State) (j : Nat) : State :=
  let who := streamBase + j
  if !streamActive (s.stream j) then s
  else
    let s1 := s.modStream j (fun x => { x with haltReq := true })
    if s1.inSem who then
      ((s1.abandonSem who).modWarp who (fun w => { w with paths := w.paths.map (fun p => { p with inside := false }) })).haltNow j
    else s1.haltNow j

/-! ### Invalidations -/

/-- R286: the checks of a page range, given the region entry. -/
def rangeOk (e : Option W64) (va cnt : Nat) : Bool :=
  match e.bind Region.ofEntry with
  | none => false
  | some r => decide (1 ≤ cnt) && decide (cnt ≤ 65536) && decide (va < 2 ^ 57) &&
      decide (r.pageOf (va % 2 ^ 51) + cnt * 2 ^ pageBits r.pgsz ≤ 2 ^ 51)

def State.startInval (s : State) (kind ctx va pages : Nat) (who : Option (Nat × Nat)) (host : Bool) : Nat × State :=
  let (id, s1) := s.newId
  (id, { s1 with invals := s1.invals ++ [{ id := id, kind := kind, ctx := ctx, va := va, pages := pages, who := who, host := host }] })

/-- TLBIREQ with the latched fields (R518). -/
def State.hostInval (s : State) (op : Nat) : State :=
  let r := s.regs
  if r.tlbBusy then { s with regs := { r with tlbOvr := true } }
  else if op = 3 then s
  else if op = 0 then
    let ctx := r.tlbCtx.toNat
    let va := r.tlbiva.toNat
    let at_ := fun (d : BitVec 512) => bitsOf d 265 43 * 512 + 8 * (va / 2 ^ 51 % 64)
    let e := (s.readDescr 0 ctx).bind (fun d => (s.peek (at_ d) 8).map (leWord 64))
    if rangeOk e va r.tlbCnt.toNat then
      { (s.startInval 0 ctx va r.tlbCnt.toNat none true).2 with regs := { r with tlbBusy := true, tlbErr := false } }
    else
      let t := (s.readDescr 0 ctx).elim (s.noteDescr 0 ctx) (fun d => s.noteBad (at_ d) 8 {})
      { t with regs := { t.regs with tlbErr := true } }
  else { (s.startInval op r.tlbCtx.toNat 0 0 none true).2 with regs := { r with tlbBusy := true } }

/-! ### Pre-emption requests -/

/-- The workgroups of the units of the given ones (R31, R455). -/
def State.unitsWith (s : State) (gs : List Nat) : List Nat :=
  let us := gs.filterMap (fun g => (mget s.wgs g).map (fun w => (w.grid, w.unit)))
  ((mvals s.wgs).filter (fun w => us.contains (w.grid, w.unit))).map Wg.id

/-- Ask resident workgroups to leave; a workgroup already leaving is saved once (R519). -/
def State.preemptReq (s : State) (gs : List Nat) : State :=
  (s.unitsWith gs).foldl (fun t g => t.modWg g (fun w => if w.st == .resident then { w with st := .leaving } else w)) s

/-! ### Context commands (R519): what their write starts -/

def State.streamsOf (s : State) (ctx : Nat) : List Nat :=
  (s.streams.filter (fun e => streamActive e.2 && e.2.ctx == ctx)).map Prod.fst

/-- Stop a stream at its next packet boundary with its state kept; a WAITSEM is abandoned. -/
def State.suspendStream (s : State) (j : Nat) : State :=
  let who := streamBase + j
  let s1 := s.modStream j (fun x => { x with suspended := true, state := if s.inSem who then 1 else x.state })
  if s1.inSem who || s1.atBoundary who then (s1.abandonSem who).modCtl who (fun c => { c with boundary := true }) else s1

def State.startSuspend (s : State) (ctx : Nat) : State :=
  let s1 := s.preemptReq (((mvals s.wgs).filter (fun w => w.ctx == ctx)).map Wg.id)
  let s2 := (s1.streamsOf ctx).foldl (fun t j => t.suspendStream j) s1
  { s2 with
    grids := s2.grids.map (fun e => if e.2.ctx == ctx then (e.1, { e.2 with held := true }) else e)
    regs := { s2.regs with suspended := ctx :: s2.regs.suspended.filter (fun c => c != ctx) } }

/-- The descriptor of a context makes it valid. -/
def State.ctxValid (s : State) (ctx : Nat) : Bool := (s.readDescr 0 ctx).elim false descrValid

/-- CTXCMD with the latched context. -/
def State.startCtxcmd (s : State) (op : Nat) : State :=
  let r := s.regs
  let ctx := r.ctxCtx.toNat
  let bad : State := let t := s.noteDescr 0 ctx
    { t with regs := { t.regs with ctxRes := true } }
  let busy := fun (t : State) => { t with regs := { t.regs with ctxRes := false, ctxBusy := some (op, ctx) } }
  if r.ctxBusy.isSome then { s with regs := { r with ctxOvr := true } }
  else if op = 1 then (if s.ctxValid ctx && !r.suspended.contains ctx then busy (s.startSuspend ctx) else bad)
  else if op = 2 then (if s.ctxValid ctx && r.suspended.contains ctx then busy s else bad)
  else if op = 3 then
    (if !s.ctxValid ctx then bad else if r.suspended.contains ctx then busy s else busy (s.startSuspend ctx))
  else s

end Sys2Proof.Machine
end

