-- ==== Sys2Proof/Machine/HostRegs.lean ====
section
/-! DEFINITION. The MMIO register space (21 R517, R518; 01 R23; 06 R172; 18 R472, R479): what a read returns and what a write
does. A write is a mask of the bits it covers and their values; a 4-byte access covers half of a register. -/

namespace Sys2Proof.Machine

def bit64 (i : Nat) (b : Bool) : Nat := if b then 2 ^ i else 0

/-! ### Module registers -/

def State.rBootstat (s : State) : Nat := s.regs.bootState * 2 ^ 56 + s.regs.bootErrc * 2 ^ 48 + s.regs.warms.toNat * 2 ^ 32

def State.rAttcmd (s : State) : Nat :=
  let r := s.regs
  bit64 61 r.attBusy.isSome + bit64 60 r.attOvr + bit64 59 r.attErr + r.attAddr.toNat * 2 ^ 12

def State.rPwrstat (s : State) : Nat := bit64 63 s.regs.trip + s.regs.cclk * 2 ^ 32 + s.regs.avg.toNat

def State.rTlbireq (s : State) : Nat :=
  let r := s.regs
  bit64 61 r.tlbBusy + bit64 60 r.tlbOvr + bit64 59 r.tlbErr + r.tlbCtx.toNat * 2 ^ 36 + r.tlbCnt.toNat

def State.rCtxcmd (s : State) : Nat :=
  let r := s.regs
  bit64 61 r.ctxBusy.isSome + bit64 60 r.ctxOvr + bit64 59 r.ctxRes + r.ctxCtx.toNat

def State.rCxstat (s : State) : Nat :=
  let r := s.regs
  bit64 63 r.cxCmd.isSome + bit64 62 r.cxOvr + r.cxErrc * 2 ^ 58 + r.cxDone

def State.rUpstat (s : State) (p : Nat) : Nat :=
  let (up, retx, llr) := mgetD s.regs.ports p (false, 0, 0)
  bit64 63 up + retx.toNat * 2 ^ 32 + llr.toNat

def State.rCstat (s : State) (n : Nat) : Nat :=
  let c := mgetD s.cslots n {}
  c.state * 2 ^ 62 + c.ctx * 2 ^ 50 + c.engine * 2 ^ 42 + c.lerr * 2 ^ 39 + c.seq.toNat

def State.rCdup (s : State) (n : Nat) : Nat :=
  let c := mgetD s.cslots n {}
  c.stray.toNat * 2 ^ 32 + c.dup.toNat

def State.moduleRead (s : State) (off : Nat) : Option Nat :=
  if off = 0x000 then some s.rBootstat
  else if off = 0x008 then some 0
  else if off = 0x010 then some s.regs.imgaddr.toNat
  else if off = 0x040 then some s.rAttcmd
  else if off = 0x080 then some s.regs.pwrcap.toNat
  else if off = 0x088 then some s.rPwrstat
  else if off = 0x100 then some s.regs.modid.toNat
  else if decide (0x108 ≤ off) && decide (off < 0x108 + 8 * 18) then some (s.rUpstat ((off - 0x108) / 8))
  else if off = 0x200 then some 0
  else if off = 0x208 then some s.regs.cxaddr0.toNat
  else if off = 0x210 then some s.regs.cxaddr1.toNat
  else if off = 0x218 then some s.rCxstat
  else if off = 0x300 then some s.rTlbireq
  else if off = 0x308 then some s.regs.tlbiva.toNat
  else if off = 0x340 then some s.rCtxcmd
  else if decide (0x400 ≤ off) && decide (off < 0x600) then some (s.rCstat ((off - 0x400) / 8))
  else if decide (0x600 ≤ off) && decide (off < 0x800) then some (s.rCdup ((off - 0x600) / 8))
  else none

/-! ### Control-core registers -/

/-- STRCTL to EVQTAIL (R420). -/
def State.streamReg (s : State) (j o : Nat) : Option W64 :=
  let x := s.stream j
  match o with
  | 0 => some (BitVec.ofNat 64 (x.state * 2 ^ 59 + x.errc * 2 ^ 48 + x.ctx))
  | 1 => some x.strpc
  | 2 => some x.strarg
  | 3 => some x.evqbase
  | 4 => some x.evqhead
  | 5 => some x.evqtail
  | _ => none

/-- The registers of a cluster that the host and the control core share: streams, CTXTBASE, fault and error registers. -/
def State.clusterReg (s : State) (c num : Nat) : Option W64 :=
  let k := s.cluster c
  if decide (0x200 ≤ num) && decide (num < 0x280) then s.streamReg (16 * c + (num - 0x200) / 8) (num % 8)
  else if num = 0x2A0 then some k.ctxtbase
  else if num = 0xC0 then some k.fqbase
  else if num = 0xC1 then some k.fqhead
  else if num = 0xC2 then some k.fqtail
  else if num = 0xC3 then some 0
  else if num = 0x110 then some k.errbase
  else if num = 0x111 then some k.errhead
  else if num = 0x112 then some k.errtail
  else if num = 0x113 then some (BitVec.ofNat 64 k.errlost.toNat)
  else if num = 0x114 then some k.secc
  else none

def baseMask : W64 := 0x000FFFFFFFFFF00F#64

def ctxtMask : W64 := 0x000FFFFFFFFC0000#64

/-- The registers of one stream take a write of the bits `m` of `v` (R420). -/
def State.streamRegWrite (s : State) (j o : Nat) (m v : W64) : State :=
  let x := s.stream j
  match o with
  | 0 =>
    if m != BitVec.allOnes 64 then s
    else
      let s1 := if streamActive x then s else s.setStream j { x with ctx := bitsOf v 0 12 }
      if v.getLsbD 62 then s1.streamHalt j else if v.getLsbD 63 then s1.streamGo j else s1
  | 1 => if streamActive x then s else s.setStream j { x with strpc := merge x.strpc m v &&& ~~~0xF#64 }
  | 2 => s.setStream j { x with strarg := merge x.strarg m v }
  | 3 => s.setStream j { x with evqbase := merge x.evqbase m v &&& baseMask }
  | 5 => s.writeEvqtail j (merge x.evqtail m v)
  | _ => s

/-- FRESP (R122, R124): STATUS 3 acts as 1. -/
def State.fresp (s : State) (c : Nat) (v : W64) : State :=
  let fid := bitsOf v 48 16
  match bitsOf v 0 2 with
  | 0 => s.frespReplay c fid
  | 2 => s.frespViol c fid .prot
  | _ => s.frespViol c fid .nomap

/-- A write to a register of R122, R415, R420 or R464. CTXTBASE takes it from the host alone. -/
def State.clusterRegWrite (s : State) (c num : Nat) (m v : W64) : State :=
  let k := s.cluster c
  if decide (0x200 ≤ num) && decide (num < 0x280) then s.streamRegWrite (16 * c + (num - 0x200) / 8) (num % 8) m v
  else if num = 0x2A0 then s.setCluster c { k with ctxtbase := merge k.ctxtbase m v &&& ctxtMask }
  else if num = 0xC0 then s.setCluster c { k with fqbase := merge k.fqbase m v &&& baseMask }
  else if num = 0xC2 then s.writeFqtail c (merge k.fqtail m v)
  else if num = 0xC3 then (if m != BitVec.allOnes 64 then s else s.fresp c v)
  else if num = 0x110 then s.setCluster c { k with errbase := merge k.errbase m v &&& baseMask }
  else if num = 0x112 then s.writeErrtail c (merge k.errtail m v)
  else if num = 0x113 then s.setCluster c { k with errlost := merge k.errlost (m.extractLsb' 0 16) (v.extractLsb' 0 16) }
  else s

/-! ### Starting module commands: a write of 8 bytes; one of 4 bytes has no effect (R23) -/

/-- BOOTCTL (R513): GO counts while STATE is 0 or 3, but not in step 1 of a warm reset; WARM starts a warm reset in any STATE. -/
def State.bootctl (s : State) (v : W64) : State :=
  if v.getLsbD 62 then { s with agenda := s.agenda ++ [.bootctlWarm] }
  else if v.getLsbD 63 then { s with agenda := s.agenda ++ [.bootctlGo] }
  else s

/-- ATTCMD (R516, R518): a write while BUSY is dropped; before STATE 2 and with OP 0 or 3 the command fails. -/
def State.attcmd (s : State) (v : W64) : State :=
  let r := s.regs
  let ovr := r.attOvr && !v.getLsbD 60
  let addr := v.extractLsb' 12 40
  if r.attBusy.isSome then { s with regs := { r with attOvr := true } }
  else
    let op := bitsOf v 62 2
    let bad := r.bootState != 2 || op == 0 || op == 3
    { s with regs := { r with attOvr := ovr, attAddr := addr, attErr := bad, attBusy := if bad then none else some op } }

/-- TLBIREQ (R518): each write carries all of its fields. -/
def State.tlbireq (s : State) (v : W64) : State :=
  let r := s.regs
  if r.tlbBusy then { s with regs := { r with tlbOvr := true } }
  else
    ({ s with regs := { r with
      tlbOvr := r.tlbOvr && !v.getLsbD 60, tlbCtx := v.extractLsb' 36 12, tlbCnt := v.extractLsb' 0 17 } } : State).hostInval (bitsOf v 62 2)

def State.ctxcmd (s : State) (v : W64) : State :=
  let r := s.regs
  if r.ctxBusy.isSome then { s with regs := { r with ctxOvr := true } }
  else ({ s with regs := { r with ctxOvr := r.ctxOvr && !v.getLsbD 60, ctxCtx := v.extractLsb' 0 12 } } : State).startCtxcmd (bitsOf v 62 2)

/-- CXCMD (R172): OP, SLOT, FMT and CNTM1 are captured; a reserved OP or a nonzero reserved field fails with ERRC 1. LOADSLOT and
DUMP ignore FMT, a reserved code included: the model's choice (log entry 91). -/
def State.cxcmd (s : State) (v : W64) : State :=
  let r := s.regs
  let op := bitsOf v 60 4
  if r.cxCmd.isSome then { s with regs := { r with cxOvr := true } }
  else if op = 0 || decide (4 ≤ op) || bitsOf v 32 17 != 0 || bitsOf v 0 16 != 0 then { s with regs := { r with cxErrc := 1, cxDone := 0 } }
  else { s with regs := { r with cxCmd := some (op, bitsOf v 54 6, bitsOf v 49 5, bitsOf v 16 16), cxPos := 0, cxDone := 0, cxErrc := 0 } }

def State.moduleWrite (s : State) (off : Nat) (m v : W64) : State :=
  let r := s.regs
  let whole := m == BitVec.allOnes 64
  if off = 0x008 then (if whole then s.bootctl v else s)
  else if off = 0x010 then { s with regs := { r with imgaddr := merge r.imgaddr m v } }
  else if off = 0x040 then (if whole then s.attcmd v else s)
  else if off = 0x080 then
    let l := (merge r.pwrcap (m.extractLsb' 0 12) (v.extractLsb' 0 12)).toNat
    { s with regs := { r with pwrcap := BitVec.ofNat 12 (min 2800 (max 1400 l)) } }
  else if off = 0x100 then { s with regs := { r with modid := merge r.modid m v &&& 0x3FFFF#64 } }
  else if off = 0x200 then (if whole then s.cxcmd v else s)
  else if off = 0x208 then { s with regs := { r with cxaddr0 := merge r.cxaddr0 m v } }
  else if off = 0x210 then { s with regs := { r with cxaddr1 := merge r.cxaddr1 m v } }
  else if off = 0x218 then { s with regs := { r with cxOvr := r.cxOvr && !(m.getLsbD 62 && v.getLsbD 62) } }
  else if off = 0x300 then (if whole then s.tlbireq v else s)
  else if off = 0x308 then { s with regs := { r with tlbiva := merge r.tlbiva m v } }
  else if off = 0x340 then (if whole then s.ctxcmd v else s)
  else s

/-! ### The space (R517) -/

inductive MmioPart where
  | module (off : Nat)
  | cluster (c num : Nat)
  | partw (k : Nat)
  | viol (who reg : Nat)
  | none
  deriving DecidableEq, Repr

def mmioPart (off : Nat) : MmioPart :=
  if off < 0x800 then .module off
  else if 0x100000 ≤ off ∧ off < 0x300000 then .cluster ((off - 0x100000) / 0x10000) (off % 0x10000 / 8)
  else if 0x400000 ≤ off ∧ off < 0x500000 then
    let k := (off - 0x400000) / 0x1000
    let o := off % 0x1000
    if o = 0x010 then .partw k
    else if 0x800 ≤ o ∧ o % 0x20 < 0x18 then .viol (64 * k + (o - 0x800) / 0x20) (o % 0x20 / 8)
    else .none
  else .none

/-- The register at an offset that is a multiple of 8. -/
def State.regRead (s : State) (off : Nat) : Option W64 :=
  match mmioPart off with
  | .module o => (s.moduleRead o).map (BitVec.ofNat 64)
  | .cluster c n => s.clusterReg c n
  | .partw k => some ((s.core k).partw.setWidth 64)
  | .viol who r =>
    let v := (mget s.warps who).elim ({} : Viol) Warp.viol
    some (if r = 0 then v.info else if r = 1 then v.addr else v.pc)
  | .none => none

def State.regWrite (s : State) (off : Nat) (m v : W64) : State :=
  match mmioPart off with
  | .module o => s.moduleWrite o m v
  | .cluster c n => s.clusterRegWrite c n m v
  | _ => s

def mmioForm (off n : Nat) : Bool := (n == 4 || n == 8) && off % n == 0

/-- A read of `n` bytes; none where the space has no such register or width (R23). -/
def State.mmioRead (s : State) (off n : Nat) : Option Nat :=
  if !mmioForm off n then none
  else (s.regRead (off / 8 * 8)).map (fun v => v.toNat / 2 ^ (8 * (off % 8)) % 2 ^ (8 * n))

/-- A write of `n` bytes; none where the space has no such register or width. -/
def State.mmioWrite (s : State) (off n v : Nat) : Option State :=
  if !mmioForm off n || (s.regRead (off / 8 * 8)).isNone then none
  else
    let sh := 8 * (off % 8)
    some (s.regWrite (off / 8 * 8) (BitVec.ofNat 64 ((2 ^ (8 * n) - 1) * 2 ^ sh)) (BitVec.ofNat 64 (v % 2 ^ (8 * n) * 2 ^ sh)))

end Sys2Proof.Machine
end

