-- ==== Sys2Proof/Machine/Numbers.lean ====
section
/-! DEFINITION. Number formats and arithmetic (07): decoding, the one rounding function, exact operations, the dice stream,
block quantization, dot products and the two orders of sums. -/

namespace Sys2Proof.Machine

/-- An exact value. `fin` is m * 2^e, plus something strictly between 0 and 2^e where `sticky`: such a value keeps at least
100 significant bits, so every comparison and draw of R185 is exact. -/
inductive XVal where
  | nan
  | inf (neg : Bool)
  | zero (neg : Bool)
  | fin (neg : Bool) (m : Nat) (e : Int) (sticky : Bool)
  deriving DecidableEq, Repr

/-- A format (R175 to R183). A `fixed` format is a two's-complement integer in steps of 2^-6 (R179). -/
structure Fmt where
  width : Nat
  signed : Bool := true
  fixed : Bool := false
  mbits : Nat := 0
  bias : Nat := 0
  /-- Codes of +∞ and of the canonical NaN, where the format has them. -/
  inf : Option Nat := none
  nan : Option Nat := none
  /-- The largest finite magnitude's code, without sign. -/
  top : Nat
  /-- The format has a negative zero. -/
  negZero : Bool := true
  /-- IEEE: NaN is any code above the infinity's, signaling where the mantissa's top bit is 0 (R177). -/
  ieee : Bool := false
  deriving DecidableEq, Repr

def fmtF32 : Fmt := { width := 32, mbits := 23, bias := 127, inf := some 0x7F800000, nan := some 0x7FC00000, top := 0x7F7FFFFF, ieee := true }
def fmtF64 : Fmt := { width := 64, mbits := 52, bias := 1023, inf := some 0x7FF0000000000000, nan := some 0x7FF8000000000000, top := 0x7FEFFFFFFFFFFFFF, ieee := true }
def fmtBf16 : Fmt := { width := 16, mbits := 7, bias := 127, inf := some 0x7F80, nan := some 0x7FC0, top := 0x7F7F, ieee := true }
def fmtF16 : Fmt := { width := 16, mbits := 10, bias := 15, inf := some 0x7C00, nan := some 0x7E00, top := 0x7BFF, ieee := true }
def fmtE5m2 : Fmt := { width := 8, mbits := 2, bias := 15, inf := some 0x7C, nan := some 0x7F, top := 0x7B }
def fmtE4m3 : Fmt := { width := 8, mbits := 3, bias := 7, nan := some 0x7F, top := 0x7E }
def fmtE3m2 : Fmt := { width := 6, mbits := 2, bias := 3, top := 0x1F }
def fmtE2m3 : Fmt := { width := 6, mbits := 3, bias := 1, top := 0x1F }
def fmtE2m1 : Fmt := { width := 4, mbits := 1, bias := 1, top := 7 }
def fmtMxi8 : Fmt := { width := 8, fixed := true, top := 127, negZero := false }

/-- R181, R182; P counts from 1. -/
def fmtB8s (P : Nat) : Fmt := { width := 8, mbits := P - 1, bias := 2 ^ (7 - P), nan := some 0x80, top := 0x7F, negZero := false }
def fmtB8x (P : Nat) : Fmt := { width := 8, mbits := P - 1, bias := 2 ^ (7 - P), inf := some 0x7F, nan := some 0x80, top := 0x7E, negZero := false }
def fmtB8z (P : Nat) : Fmt := { width := 8, signed := false, mbits := P - 1, bias := 2 ^ (8 - P), nan := some 0xFF, top := 0xFE, negZero := false }

def fmtOf : NFC → Fmt
  | .f32 => fmtF32 | .f64 => fmtF64 | .bf16 => fmtBf16 | .f16 => fmtF16
  | .e4m3 => fmtE4m3 | .e5m2 => fmtE5m2 | .e3m2 => fmtE3m2 | .e2m3 => fmtE2m3 | .e2m1 => fmtE2m1 | .mxi8 => fmtMxi8
  | .b8s p => fmtB8s (p.val + 1) | .b8x p => fmtB8x (p.val + 1) | .b8z p => fmtB8z (p.val + 1)

def fmtOfTy : FTy → Fmt
  | .f32 => fmtF32 | .f64 => fmtF64 | .bf16 => fmtBf16 | .f16 => fmtF16

def mxFmt : MxFmt → Fmt
  | .e4m3 => fmtE4m3 | .e5m2 => fmtE5m2 | .e3m2 => fmtE3m2 | .e2m3 => fmtE2m3 | .e2m1 => fmtE2m1 | .mxi8 => fmtMxi8

def Fmt.emin (f : Fmt) : Int := 1 - (f.bias : Int)

/-- The exponent of the smallest step of the grid. -/
def Fmt.qmin (f : Fmt) : Int := if f.fixed then -6 else f.emin - f.mbits

def Fmt.signBit (f : Fmt) : Nat := if f.signed then 2 ^ (f.width - 1) else 0

def mkFin (neg : Bool) (m : Nat) (e : Int) : XVal := if m = 0 then .zero neg else .fin neg m e false

/-- The value of a code (R175 to R183). -/
def Fmt.decode (f : Fmt) (code : Nat) : XVal :=
  let c := code % 2 ^ f.width
  if f.fixed then
    let q := (BitVec.ofNat f.width c).toInt
    mkFin (decide (q < 0)) q.natAbs (-6)
  else
    let neg := f.signed && decide (2 ^ (f.width - 1) ≤ c)
    let a := if neg then c - 2 ^ (f.width - 1) else c
    let isNan := if f.ieee then f.inf.elim false (fun i => decide (i < a))
      else if f.negZero then (f.nan.isSome && decide (f.top < a) && f.inf != some a)
      else f.nan == some c
    if isNan then .nan
    else if f.inf == some a then .inf neg
    else
      let e := a / 2 ^ f.mbits
      let m := a % 2 ^ f.mbits
      if e = 0 then mkFin neg m f.qmin
      else mkFin neg (2 ^ f.mbits + m) (f.qmin + (e - 1 : Nat))

def Fmt.isNan (f : Fmt) (code : Nat) : Bool := f.decode code == .nan

/-- A signaling NaN (R177, R178). -/
def Fmt.isSnan (f : Fmt) (code : Nat) : Bool := f.ieee && f.isNan code && !code.testBit (f.mbits - 1)

def Fmt.canonNan (f : Fmt) : Nat := f.nan.getD 0

def Fmt.zeroCode (f : Fmt) (neg : Bool) : Nat := if neg && f.negZero then f.signBit else 0

/-- The code of a magnitude code with its sign. -/
def Fmt.withSign (f : Fmt) (neg : Bool) (a : Nat) : Nat :=
  if !neg || !f.signed then a
  else if f.fixed then (2 ^ f.width - a) % 2 ^ f.width
  else if a = 0 then f.zeroCode true
  else a + f.signBit

/-- Codes of +∞ and −∞; the NaN code 0x80 of binary8 leaves 0xFF for −∞ (R181). -/
def Fmt.infCode (f : Fmt) (neg : Bool) : Option Nat := f.inf.map (f.withSign neg)

/-! ### The dice stream (R194) -/

def rotl32 (w : W32) (n : Nat) : W32 := w.rotateLeft n

structure DiceSt where
  a : W32
  b : W32
  c : W32
  d : W32

def diceRound (r0 r1 r2 r3 : Nat) (k : W32) (x : DiceSt) : DiceSt :=
  let a := x.a + x.b
  let d := rotl32 (x.d ^^^ a) r0
  let c := x.c + d
  let b := rotl32 (x.b ^^^ c) r1
  let a := a + b
  let d := rotl32 (d ^^^ a) r2
  let c := c + d
  let b := rotl32 (b ^^^ c) r3
  ⟨a ^^^ k, b, c, d⟩

def diceEven : W32 → DiceSt → DiceSt := diceRound 11 5 17 9
def diceOdd : W32 → DiceSt → DiceSt := diceRound 7 13 3 19

def dice (seed : W128) (sid : W32) (idx : W64) : W32 :=
  let x : DiceSt :=
    ⟨seed.extractLsb' 0 32 ^^^ idx.extractLsb' 0 32, seed.extractLsb' 32 32 ^^^ idx.extractLsb' 32 32,
     seed.extractLsb' 64 32 ^^^ sid, seed.extractLsb' 96 32 ^^^ 0x6A09E667#32⟩
  let y := diceOdd 0xD1B54A32 (diceEven 0x4C957F2D (diceOdd 0xA3B19535 (diceEven 0x2B992DDF
    (diceOdd 0x5CEDC834 (diceEven 0xF39CC060 (diceOdd 0x7F4A7C15 (diceEven 0x9E3779B9 x)))))))
  (y.a + y.c) ^^^ y.b ^^^ y.d

/-- What a rounding draws from: seed, stream and element; used under SR only. -/
structure Draw where
  seed : W128 := 0
  sid : W32 := 0
  idx : W64 := 0
  deriving DecidableEq, Repr

def Draw.value (d : Draw) : Nat := (dice d.seed d.sid d.idx).toNat

/-! ### round_to (R185 to R188) -/

/-- A code with the flags its rounding raised. -/
abbrev Rounded := Nat × W32

/-- Whether a magnitude between grid points k and k + 1 (in steps 2^q) goes up: `sh` bits lie below the step. -/
def roundUp (rm : RM) (neg odd : Bool) (rem sh : Nat) (sticky : Bool) (d : Draw) : Bool :=
  match rm with
  | .rne =>
    let half := 2 ^ (sh - 1)
    if sh = 0 then false
    else if rem = half && !sticky then odd else decide (half ≤ rem)
  | .rtz => false
  | .rup => !neg
  | .rdn => neg
  | .sr => decide (d.value < rem * 2 ^ 32 / 2 ^ sh)

/-- The grid point of a magnitude on steps 2^q, and whether it is inexact. `codeOdd k` tells the parity of a point's code. -/
def toGrid (rm : RM) (neg : Bool) (m : Nat) (e : Int) (sticky : Bool) (q : Int) (codeOdd : Nat → Bool) (d : Draw) : Nat × Bool :=
  if q ≤ e && !sticky then (m * 2 ^ (e - q).toNat, false)
  else
    let sh := (q - e).toNat
    let k := m / 2 ^ sh
    let rem := m % 2 ^ sh
    if rem = 0 && !sticky then (k, false)
    else (if roundUp rm neg (codeOdd k) rem sh sticky d then k + 1 else k, true)

/-- R186. -/
def Fmt.overflow (f : Fmt) (neg : Bool) (rm : RM) : Nat :=
  let big := f.withSign neg f.top
  match f.infCode neg with
  | none => big
  | some i =>
    match rm with
    | .rne | .sr => i
    | .rtz => big
    | .rup => if neg then big else i
    | .rdn => if neg then i else big

/-- The exponent of a finite magnitude's leading bit. -/
def leadExp (m : Nat) (e : Int) : Int := (Nat.log2 m : Int) + e

/-- R185 for a finite nonzero value. -/
def Fmt.roundFin (f : Fmt) (neg : Bool) (m : Nat) (e : Int) (sticky : Bool) (rm : RM) (d : Draw) : Rounded :=
  let E := leadExp m e
  let q := if f.fixed then f.qmin else max E f.emin - f.mbits
  let base := if f.fixed then 0 else (q - f.qmin).toNat * 2 ^ f.mbits
  let (k, inex) := toGrid rm neg m e sticky q (fun k => (base + k) % 2 == 1) d
  let code := base + k
  let small := if f.fixed then decide (E < -6) else decide (E < f.emin)
  let fl := flagIf inex fNX ||| flagIf (inex && small) fUF
  if f.top < code then (f.overflow neg rm, fl ||| fOF ||| fNX)
  else (f.withSign neg code, fl)

def Fmt.round (f : Fmt) (x : XVal) (rm : RM) (d : Draw) : Rounded :=
  match x with
  | .nan => if f.nan.isSome then (f.canonNan, 0) else (0, fNV)
  | .inf neg =>
    if neg && !f.signed then (f.canonNan, fNV)
    else match f.infCode neg with
      | some c => (c, 0)
      | none => (f.withSign neg f.top, fNV)
  | .zero neg => (f.zeroCode (neg && f.signed), 0)
  | .fin neg m e st => if neg && !f.signed then (f.canonNan, fNV) else f.roundFin neg m e st rm d

def Fmt.roundRne (f : Fmt) (x : XVal) : Nat := (f.round x .rne {}).1

/-- Round to an integer (R190): the integer and whether it is inexact; none for NaN and infinities. -/
def XVal.toInteger (x : XVal) (rm : RM) (d : Draw) : Option (Int × Bool) :=
  match x with
  | .nan | .inf _ => none
  | .zero _ => some (0, false)
  | .fin neg m e st =>
    let (k, inex) := toGrid rm neg m e st 0 (fun k => k % 2 == 1) d
    some (if neg then -(k : Int) else k, inex)

/-! ### Exact operations -/

def XVal.neg : XVal → XVal
  | .nan => .nan
  | .inf n => .inf (!n)
  | .zero n => .zero (!n)
  | .fin n m e s => .fin (!n) m e s

def XVal.isNeg : XVal → Bool
  | .nan => false
  | .inf n | .zero n | .fin n _ _ _ => n

def XVal.isZero : XVal → Bool
  | .zero _ => true
  | _ => false

/-- A signed integer times 2^e; an exact zero has the sign given. -/
def ofScaled (i : Int) (e : Int) (zneg : Bool) : XVal := if i = 0 then .zero zneg else .fin (decide (i < 0)) i.natAbs e false

/-- A finite value as an integer in units of 2^e, for e at most its exponent. -/
def XVal.scaled (x : XVal) (e : Int) : Int :=
  match x with
  | .fin n m e' _ => let v : Int := m * 2 ^ (e' - e).toNat; if n then -v else v
  | _ => 0

def XVal.exp : XVal → Option Int
  | .fin _ _ e _ => some e
  | _ => none

/-- The exact sum of two values, none where it is invalid (R189). -/
def XVal.add (x y : XVal) (rdn : Bool) : XVal × Bool :=
  match x, y with
  | .nan, _ | _, .nan => (.nan, false)
  | .inf a, .inf b => if a = b then (.inf a, false) else (.nan, true)
  | .inf a, _ => (.inf a, false)
  | _, .inf b => (.inf b, false)
  | .zero a, .zero b => (.zero (if a = b then a else rdn), false)
  | .zero _, z => (z, false)
  | z, .zero _ => (z, false)
  | .fin n m e s, .fin n' m' e' s' =>
    let lo := min e e'
    (ofScaled ((XVal.fin n m e s).scaled lo + (XVal.fin n' m' e' s').scaled lo) lo rdn, false)

def XVal.mul (x y : XVal) : XVal × Bool :=
  match x, y with
  | .nan, _ | _, .nan => (.nan, false)
  | .inf _, .zero _ | .zero _, .inf _ => (.nan, true)
  | .inf a, z => (.inf (a != z.isNeg), false)
  | z, .inf b => (.inf (b != z.isNeg), false)
  | .zero a, z => (.zero (a != z.isNeg), false)
  | z, .zero b => (.zero (b != z.isNeg), false)
  | .fin n m e _, .fin n' m' e' _ => (.fin (n != n') (m * m') (e + e') false, false)

/-- The exact quotient; the flags tell NV and DZ. -/
def XVal.div (x y : XVal) : XVal × W32 :=
  match x, y with
  | .nan, _ | _, .nan => (.nan, 0)
  | .inf _, .inf _ | .zero _, .zero _ => (.nan, fNV)
  | .inf a, z => (.inf (a != z.isNeg), 0)
  | z, .inf b => (.zero (z.isNeg != b), 0)
  | .zero a, z => (.zero (a != z.isNeg), 0)
  | z, .zero b => (.inf (z.isNeg != b), fDZ)
  | .fin n m e _, .fin n' m' e' _ =>
    let k := 120 + Nat.log2 m'
    let num := m * 2 ^ k
    (.fin (n != n') (num / m') (e - e' - k) (num % m' != 0), 0)

/-- The integer square root, by bits from `b` down. -/
def isqrt (n : Nat) : Nat → Nat → Nat
  | 0, r => if (r + 1) * (r + 1) ≤ n then r + 1 else r
  | b + 1, r => isqrt n b (if (r + 2 ^ (b + 1)) * (r + 2 ^ (b + 1)) ≤ n then r + 2 ^ (b + 1) else r)

def XVal.sqrt (x : XVal) : XVal × W32 :=
  match x with
  | .nan => (.nan, 0)
  | .zero n => (.zero n, 0)
  | .inf n => if n then (.nan, fNV) else (.inf false, 0)
  | .fin n m e _ =>
    if n then (.nan, fNV)
    else
      let odd := e % 2 != 0
      let m1 := (if odd then 2 * m else m) * 2 ^ 240
      let e1 := (if odd then e - 1 else e) / 2 - 120
      let r := isqrt m1 (Nat.log2 m1 / 2 + 1) 0
      (.fin false r e1 (r * r != m1), 0)

/-- x times 2^k. -/
def XVal.scale (x : XVal) (k : Int) : XVal :=
  match x with
  | .fin n m e s => .fin n m (e + k) s
  | v => v

/-- Compare numerically: `none` where a NaN takes part. -/
def XVal.cmp (x y : XVal) : Option Ordering :=
  match x, y with
  | .nan, _ | _, .nan => none
  | .inf a, .inf b => some (if a = b then .eq else if a then .lt else .gt)
  | .inf a, _ => some (if a then .lt else .gt)
  | _, .inf b => some (if b then .gt else .lt)
  | a, b =>
    let lo := min (a.exp.getD 0) (b.exp.getD 0)
    some (compare (a.scaled lo) (b.scaled lo))

/-! ### FP arithmetic (R189): codes in one format, rounded once -/

/-- Any signaling NaN among the inputs raises NV. -/
def snanFlag (f : Fmt) (cs : List Nat) : W32 := flagIf (cs.any f.isSnan) fNV

def Fmt.fadd (f : Fmt) (rm : RM) (d : Draw) (a b : Nat) : Rounded :=
  let (v, bad) := (f.decode a).add (f.decode b) (rm == .rdn)
  let r := f.round v rm d
  (r.1, r.2 ||| flagIf bad fNV ||| snanFlag f [a, b])

/-- The code with its sign inverted; a NaN stays a NaN. -/
def Fmt.negCode (f : Fmt) (a : Nat) : Nat := (a ^^^ f.signBit) % 2 ^ f.width

def Fmt.fsub (f : Fmt) (rm : RM) (d : Draw) (a b : Nat) : Rounded := f.fadd rm d a (f.negCode b)

def Fmt.fmul (f : Fmt) (rm : RM) (d : Draw) (a b : Nat) : Rounded :=
  let (v, bad) := (f.decode a).mul (f.decode b)
  let r := f.round v rm d
  (r.1, r.2 ||| flagIf bad fNV ||| snanFlag f [a, b])

/-- a * b + c with one rounding. -/
def Fmt.ffma (f : Fmt) (rm : RM) (d : Draw) (a b c : Nat) : Rounded :=
  let (p, bad) := (f.decode a).mul (f.decode b)
  let (v, bad') := p.add (f.decode c) (rm == .rdn)
  let r := f.round v rm d
  (r.1, r.2 ||| flagIf (bad || bad') fNV ||| snanFlag f [a, b, c])

def Fmt.fdiv (f : Fmt) (rm : RM) (d : Draw) (a b : Nat) : Rounded :=
  let (v, fl) := (f.decode a).div (f.decode b)
  let r := f.round v rm d
  (r.1, r.2 ||| fl ||| snanFlag f [a, b])

def Fmt.fsqrt (f : Fmt) (rm : RM) (d : Draw) (a : Nat) : Rounded :=
  let (v, fl) := (f.decode a).sqrt
  let r := f.round v rm d
  (r.1, r.2 ||| fl ||| snanFlag f [a])

/-! ### Blocks (R196, R197) -/

def Fmt.emax (f : Fmt) : Int := if f.fixed then 0 else f.qmin + (f.top / 2 ^ f.mbits - 1 : Nat) + f.mbits

/-- Compare magnitudes of finite values. -/
def XVal.absLe (x y : XVal) : Bool :=
  let lo := min (x.exp.getD 0) (y.exp.getD 0)
  decide ((x.scaled lo).natAbs ≤ (y.scaled lo).natAbs)

def maxAbs (xs : List XVal) : XVal := xs.foldl (fun m x => if m.absLe x then x else m) (.zero false)

def isFinite : XVal → Bool
  | .zero _ | .fin _ _ _ _ => true
  | _ => false

/-- The scale that quantize_block chooses for a block of exact values, and its flags (R196). -/
def Fmt.blockScale (f : Fmt) (xs : List XVal) : Nat × W32 :=
  if xs.any (fun x => !isFinite x) then (0xFF, fNV)
  else match maxAbs xs with
    | .fin _ m e _ =>
      let s := leadExp m e - f.emax + 127
      if 254 < s then (254, fOF) else (s.toNat, 0)
    | _ => (0x7F, 0)

/-- One element quantized against scale `s`: an overflow saturates and raises SAT and NX, not OF (R196, R310). A
signaling NaN raises no NV (log entry 96). -/
def Fmt.quantElem (f : Fmt) (x : XVal) (s : Nat) (rm : RM) (d : Draw) : Rounded :=
  if s = 0xFF then (0, 0)
  else
    let r := f.round (x.scale (127 - (s : Int))) rm d
    if r.2 &&& fOF != 0 then (f.withSign x.isNeg f.top, (r.2 &&& ~~~fOF) ||| fSAT) else r

/-- quantize_block: codes, scale and flags. `draw e` is the draw of element e. -/
def quantizeBlock (xs : List XVal) (f : Fmt) (rm : RM) (draw : Nat → Draw) : List Nat × Nat × W32 :=
  let (s, fl) := f.blockScale xs
  let rs := xs.zipIdx.map (fun p => f.quantElem p.1 s rm (draw p.2))
  (rs.map Prod.fst, s, unionFlags (rs.map Prod.snd) ||| fl)

/-- One element of dequantize_block (R197). -/
def dequantize (f : Fmt) (q s : Nat) : Rounded :=
  if s = 0xFF then (0x7FC00000, 0) else fmtF32.round ((f.decode q).scale ((s : Int) - 127)) .rne {}

/-! ### Dot products and accumulation (R198 to R201) -/

/-- What a dot product has met. -/
structure DotSt where
  nan : Bool := false
  pinf : Bool := false
  ninf : Bool := false
  /-- The sum in units of 2^lo. -/
  sum : Int := 0

def dotStep (lo : Int) (st : DotSt) (u w : XVal) : DotSt :=
  match u.mul w with
  | (.nan, _) => { st with nan := true }
  | (.inf n, _) => if n then { st with ninf := true } else { st with pinf := true }
  | (v, _) => { st with sum := st.sum + v.scaled lo }

/-- dot_block on decoded elements. -/
def dotBlock (us ws : List XVal) (sa sb : Nat) : XVal :=
  if sa = 0xFF || sb = 0xFF then .nan
  else
    let lo := ((us.zip ws).map (fun p => p.1.exp.getD 0 + p.2.exp.getD 0)).foldl min 0
    let st := (us.zip ws).foldl (fun st p => dotStep lo st p.1 p.2) {}
    if st.nan || (st.pinf && st.ninf) then .nan
    else if st.pinf then .inf false
    else if st.ninf then .inf true
    else ofScaled st.sum (lo + sa + sb - 254) false

/-- acc_f32: the accumulator takes one block product. -/
def accF32 (c : Nat) (p : XVal) : Nat := fmtF32.roundRne ((fmtF32.decode c).add p false).1

/-- R200: the INT32 accumulator; the flag tells a saturation. -/
def accInt (c : Int) (us ws : List Int) (sa sb : Nat) : Int × Bool :=
  if sa = 0xFF || sb = 0xFF then (c, false)
  else
    let t := ((us.zip ws).map (fun p => p.1 * p.2)).sum
    match (ofScaled t ((sa : Int) + sb - 254) false).toInteger .rne {} with
    | some (v, _) =>
      let r := c + v
      if r < -(2 ^ 31) then (-(2 ^ 31), true) else if 2 ^ 31 - 1 < r then (2 ^ 31 - 1, true) else (r, false)
    | none => (c, false)

/-- seq_sum over codes, with the flags of its additions. -/
def seqSum (f : Fmt) (vs : List Nat) : Rounded :=
  match vs with
  | [] => (f.zeroCode true, 0)
  | v :: r => r.foldl (fun acc x => let y := f.fadd .rne {} acc.1 x; (y.1, acc.2 ||| y.2)) (v, 0)

def pairUp (f : Fmt) : List Nat → List Rounded
  | a :: b :: r => f.fadd .rne {} a b :: pairUp f r
  | [a] => [(a, 0)]
  | [] => []

def treeLevels (f : Fmt) : Nat → List Nat → W32 → Rounded
  | 0, vs, fl => (vs.headD (f.zeroCode true), fl)
  | n + 1, vs, fl =>
    let ps := pairUp f vs
    treeLevels f n (ps.map Prod.fst) (fl ||| unionFlags (ps.map Prod.snd))

/-- The number of halvings that bring n values to one. -/
def log2ceil (n : Nat) : Nat := if n ≤ 1 then 0 else Nat.log2 (n - 1) + 1

/-- tree_sum over codes: padded with −0 to a power of two. -/
def treeSum (f : Fmt) (vs : List Nat) : Rounded :=
  let k := log2ceil vs.length
  treeLevels f k (vs ++ List.replicate (2 ^ k - vs.length) (f.zeroCode true)) 0

end Sys2Proof.Machine
end

