-- ==== Sys2Proof/Machine/Scalar.lean ====
section
/-! DEFINITION. The scalar words (10 R272 to R275): 64-bit operations once per issue, without flags. -/

namespace Sys2Proof.Machine

/-- A two-source scalar word. -/
def scalarBody (f : W64 → W64 → W64) (x : S3) (is : Issue) (s : State) : Act :=
  .next (s.writeS is x.sd.val (f (is.sv s x.sa) (is.sv s x.sb)))

def scalarBody1 (f : W64 → W64) (sd : Fin 96) (sa : SOp) (is : Issue) (s : State) : Act :=
  .next (s.writeS is sd.val (f (is.sv s sa)))

/-- A word whose destination is also its source. -/
def scalarBodyI (f : W64 → W64) (sd : Fin 96) (is : Issue) (s : State) : Act :=
  .next (s.writeS is sd.val (f (is.w.sreg sd.val)))

/-- SCMP (R273). -/
def scondHolds (c : SCond) (a b : W64) : Bool :=
  match c with
  | .eq => a == b
  | .ne => a != b
  | .lt => decide (a.toInt < b.toInt)
  | .ltn => decide (a.toNat < b.toNat)
  | .ge => decide (b.toInt ≤ a.toInt)
  | .gen => decide (b.toNat ≤ a.toNat)

/-- The operands of a division, signed or not. -/
def divArg (signed : Bool) (a : W64) : Int := if signed then a.toInt else a.toNat

/-- The quotient of R274. -/
def divQ (signed : Bool) (a b : W64) : W64 :=
  let x := divArg signed a
  let y := divArg signed b
  BitVec.ofInt 64 (if y = 0 then -1 else if x = -(2 ^ 63) ∧ y = -1 then -(2 ^ 63) else x.tdiv y)

/-- The remainder of R274. -/
def divR (signed : Bool) (a b : W64) : W64 :=
  let x := divArg signed a
  let y := divArg signed b
  BitVec.ofInt 64 (if y = 0 then x else if x = -(2 ^ 63) ∧ y = -1 then 0 else x - x.tdiv y * y)

/-- Leading zeros of a word; its width for 0. -/
def leadZeros {w : Nat} (a : BitVec w) : Nat := if a = 0 then w else w - 1 - Nat.log2 a.toNat

def popCount {w : Nat} (a : BitVec w) : Nat := ((List.range w).filter (fun i => a.getLsbD i)).length

def bitReverse {w : Nat} (a : BitVec w) : BitVec w :=
  BitVec.ofNat w (((List.range w).filter (fun i => a.getLsbD i)).map (fun i => 2 ^ (w - 1 - i))).sum

def execSadd (x : S3) (s : State) : Host.Outcome State Fault Refusal :=
  runWord (.sadd x) (scalarBody (fun a b => a + b) x) s

def execSsub (x : S3) (s : State) : Host.Outcome State Fault Refusal :=
  runWord (.ssub x) (scalarBody (fun a b => a - b) x) s

def execSand (x : S3) (s : State) : Host.Outcome State Fault Refusal :=
  runWord (.sand x) (scalarBody (fun a b => a &&& b) x) s

def execSor (x : S3) (s : State) : Host.Outcome State Fault Refusal :=
  runWord (.sor x) (scalarBody (fun a b => a ||| b) x) s

def execSxor (x : S3) (s : State) : Host.Outcome State Fault Refusal :=
  runWord (.sxor x) (scalarBody (fun a b => a ^^^ b) x) s

def execSshl (x : S3) (s : State) : Host.Outcome State Fault Refusal :=
  runWord (.sshl x) (scalarBody (fun a b => a <<< bitsOf b 0 6) x) s

def execSshr (x : S3) (s : State) : Host.Outcome State Fault Refusal :=
  runWord (.sshr x) (scalarBody (fun a b => a >>> bitsOf b 0 6) x) s

def execSsra (x : S3) (s : State) : Host.Outcome State Fault Refusal :=
  runWord (.ssra x) (scalarBody (fun a b => a.sshiftRight (bitsOf b 0 6)) x) s

def execSmul (x : S3) (s : State) : Host.Outcome State Fault Refusal :=
  runWord (.smul x) (scalarBody (fun a b => a * b) x) s

def execSmulh (x : S3) (s : State) : Host.Outcome State Fault Refusal :=
  runWord (.smulh x) (scalarBody (fun a b => BitVec.ofInt 64 (a.toInt * b.toInt / 2 ^ 64)) x) s

def execSmulhn (x : S3) (s : State) : Host.Outcome State Fault Refusal :=
  runWord (.smulhn x) (scalarBody (fun a b => BitVec.ofNat 64 (a.toNat * b.toNat / 2 ^ 64)) x) s

def execSmin (x : S3) (s : State) : Host.Outcome State Fault Refusal :=
  runWord (.smin x) (scalarBody (fun a b => if a.toInt ≤ b.toInt then a else b) x) s

def execSminn (x : S3) (s : State) : Host.Outcome State Fault Refusal :=
  runWord (.sminn x) (scalarBody (fun a b => if a.toNat ≤ b.toNat then a else b) x) s

def execSmax (x : S3) (s : State) : Host.Outcome State Fault Refusal :=
  runWord (.smax x) (scalarBody (fun a b => if a.toInt ≤ b.toInt then b else a) x) s

def execSmaxn (x : S3) (s : State) : Host.Outcome State Fault Refusal :=
  runWord (.smaxn x) (scalarBody (fun a b => if a.toNat ≤ b.toNat then b else a) x) s

def execScmp (c : SCond) (x : S3) (s : State) : Host.Outcome State Fault Refusal :=
  runWord (.scmp c x) (scalarBody (fun a b => if scondHolds c a b then 1 else 0) x) s

def execSdiv (x : S3) (s : State) : Host.Outcome State Fault Refusal :=
  runWord (.sdiv x) (scalarBody (divQ true) x) s

def execSdivn (x : S3) (s : State) : Host.Outcome State Fault Refusal :=
  runWord (.sdivn x) (scalarBody (divQ false) x) s

def execSrem (x : S3) (s : State) : Host.Outcome State Fault Refusal :=
  runWord (.srem x) (scalarBody (divR true) x) s

def execSremn (x : S3) (s : State) : Host.Outcome State Fault Refusal :=
  runWord (.sremn x) (scalarBody (divR false) x) s

def execSclz (sd : Fin 96) (sa : SOp) (s : State) : Host.Outcome State Fault Refusal :=
  runWord (.sclz sd sa) (scalarBody1 (fun a => BitVec.ofNat 64 (leadZeros a)) sd sa) s

def execSpopc (sd : Fin 96) (sa : SOp) (s : State) : Host.Outcome State Fault Refusal :=
  runWord (.spopc sd sa) (scalarBody1 (fun a => BitVec.ofNat 64 (popCount a)) sd sa) s

def execSbrev (sd : Fin 96) (sa : SOp) (s : State) : Host.Outcome State Fault Refusal :=
  runWord (.sbrev sd sa) (scalarBody1 (fun a => bitReverse a) sd sa) s

def execSaddi (sd : Fin 96) (imm : BitVec 17) (s : State) : Host.Outcome State Fault Refusal :=
  runWord (.saddi sd imm) (scalarBodyI (fun a => a + imm.signExtend 64) sd) s

def execSmovi (sd : Fin 96) (imm : BitVec 17) (s : State) : Host.Outcome State Fault Refusal :=
  runWord (.smovi sd imm) (scalarBodyI (fun _ => imm.signExtend 64) sd) s

def execSshin (sd : Fin 96) (imm : BitVec 17) (s : State) : Host.Outcome State Fault Refusal :=
  runWord (.sshin sd imm) (scalarBodyI (fun a => (a <<< 17) ||| imm.setWidth 64) sd) s

end Sys2Proof.Machine
end

