-- ==== Sys2Proof/Machine/VectorInt.lean ====
section
/-! DEFINITION. Integer and logic vector words (11 R298 to R300) and the experimental and deprecated words (R326). -/

namespace Sys2Proof.Machine

def ITy.signed : ITy → Bool
  | .i32 | .i64 => true
  | .n32 | .n64 => false

/-- A value of w bits read as two's complement. -/
def sg (w a : Nat) : Int := if a < 2 ^ (w - 1) then a else (a : Int) - 2 ^ w

/-- A value of w bits read by its type. -/
def ival (signed : Bool) (w a : Nat) : Int := if signed then sg w a else a

/-- An integer taken as [w-1:0]. -/
def low (w : Nat) (i : Int) : Nat := (i % (2 ^ w : Nat)).toNat

/-- A three-operand integer word: `f` of signedness, width and the two values, and its flags. -/
def intBody (t : ITy) (x : V3) (f : Bool → Nat → Nat → Nat → Nat × W32) (is : Issue) (s : State) : Act :=
  let rs := is.over (fun L =>
    f (ITy.signed t) t.width (is.num (useS x.a t.is64) L) (is.num (useS x.b t.is64) L))
  .next ((s.putVec is (useD x.d t.is64) (rs.map (fun e => (e.1, e.2.1)))).addFlags is.who (unionFlags (rs.map (fun e => e.2.2))))

def plain (f : Bool → Nat → Nat → Nat → Nat) (g : Bool) (w a b : Nat) : Nat × W32 := (f g w a b, 0)

/-- The exact value clamped to the type's range; SAT where the clamp changes it (R298). -/
def clampTo (signed : Bool) (w : Nat) (i : Int) : Nat × W32 :=
  let lo : Int := if signed then -(2 ^ (w - 1) : Nat) else 0
  let hi : Int := if signed then (2 ^ (w - 1) : Nat) - 1 else (2 ^ w : Nat) - 1
  if i < lo then (low w lo, fSAT) else if hi < i then (low w hi, fSAT) else (low w i, 0)

def execVadd (t : ITy) (x : V3) (s : State) : Host.Outcome State Fault Refusal :=
  runWord (.vadd t x) (intBody t x (plain (fun _ w a b => (a + b) % 2 ^ w))) s

def execVsub (t : ITy) (x : V3) (s : State) : Host.Outcome State Fault Refusal :=
  runWord (.vsub t x) (intBody t x (plain (fun _ w a b => (a + 2 ^ w - b) % 2 ^ w))) s

def execVmul (t : ITy) (x : V3) (s : State) : Host.Outcome State Fault Refusal :=
  runWord (.vmul t x) (intBody t x (plain (fun _ w a b => (a * b) % 2 ^ w))) s

def execVmulh (t : ITy) (x : V3) (s : State) : Host.Outcome State Fault Refusal :=
  runWord (.vmulh t x) (intBody t x (plain (fun g w a b => low w (ival g w a * ival g w b / (2 ^ w : Nat))))) s

def execVaddsat (t : ITy) (x : V3) (s : State) : Host.Outcome State Fault Refusal :=
  runWord (.vaddsat t x) (intBody t x (fun g w a b => clampTo g w (ival g w a + ival g w b))) s

def execVsubsat (t : ITy) (x : V3) (s : State) : Host.Outcome State Fault Refusal :=
  runWord (.vsubsat t x) (intBody t x (fun g w a b => clampTo g w (ival g w a - ival g w b))) s

def execVmin (t : ITy) (x : V3) (s : State) : Host.Outcome State Fault Refusal :=
  runWord (.vmin t x) (intBody t x (plain (fun g w a b => if ival g w b < ival g w a then b else a))) s

def execVmax (t : ITy) (x : V3) (s : State) : Host.Outcome State Fault Refusal :=
  runWord (.vmax t x) (intBody t x (plain (fun g w a b => if ival g w a < ival g w b then b else a))) s

def execVshl (t : ITy) (x : V3) (s : State) : Host.Outcome State Fault Refusal :=
  runWord (.vshl t x) (intBody t x (plain (fun _ w a b => a * 2 ^ (b % w) % 2 ^ w))) s

def execVshr (t : ITy) (x : V3) (s : State) : Host.Outcome State Fault Refusal :=
  runWord (.vshr t x) (intBody t x (plain (fun g w a b => low w (ival g w a / (2 ^ (b % w) : Nat))))) s

/-- A logic word (R298). -/
def logicBody (t : BTy) (x : V3) (f : Nat → Nat → Nat) (is : Issue) (s : State) : Act :=
  .next (s.putVec is (useD x.d t.is64) (is.over (fun L => f (is.num (useS x.a t.is64) L) (is.num (useS x.b t.is64) L))))

def execVand (t : BTy) (x : V3) (s : State) : Host.Outcome State Fault Refusal :=
  runWord (.vand t x) (logicBody t x (fun a b => a &&& b)) s

def execVor (t : BTy) (x : V3) (s : State) : Host.Outcome State Fault Refusal :=
  runWord (.vor t x) (logicBody t x (fun a b => a ||| b)) s

def execVxor (t : BTy) (x : V3) (s : State) : Host.Outcome State Fault Refusal :=
  runWord (.vxor t x) (logicBody t x (fun a b => a ^^^ b)) s

/-- A condition on an ordered pair (R299). -/
def Cond.holds : Cond → Ordering → Bool
  | .eq, o => o == .eq
  | .ne, o => o != .eq
  | .lt, o => o == .lt
  | .le, o => o != .gt
  | .gt, o => o == .gt
  | .ge, o => o != .lt

def vcmpBody (t : ITy) (c : Cond) (x : VC) (is : Issue) (s : State) : Act :=
  .next (s.writePred is x.pd.val (fun L => Cond.holds c
    (compare (ival (ITy.signed t) t.width (is.num (useS x.a t.is64) L)) (ival (ITy.signed t) t.width (is.num (useS x.b t.is64) L)))))

def execVcmp (t : ITy) (c : Cond) (x : VC) (s : State) : Host.Outcome State Fault Refusal :=
  runWord (.vcmp t c x) (vcmpBody t c x) s

/-- A one-operand word (R300). -/
def unBody (wide : Bool) (x : V2) (f : Nat → Nat) (is : Issue) (s : State) : Act :=
  .next (s.putVec is (useD x.d wide) (is.over (fun L => f (is.num (useS x.a wide) L))))

def execVmov (t : BTy) (x : V2) (s : State) : Host.Outcome State Fault Refusal :=
  runWord (.vmov t x) (unBody t.is64 x (fun a => a)) s

def execVclz (x : V2) (s : State) : Host.Outcome State Fault Refusal :=
  runWord (.vclz x) (unBody false x (fun a => leadZeros (BitVec.ofNat 32 a))) s

def execVpopc (x : V2) (s : State) : Host.Outcome State Fault Refusal :=
  runWord (.vpopc x) (unBody false x (fun a => popCount (BitVec.ofNat 32 a))) s

def execVbrev (x : V2) (s : State) : Host.Outcome State Fault Refusal :=
  runWord (.vbrev x) (unBody false x (fun a => (bitReverse (BitVec.ofNat 32 a)).toNat)) s

def execVaddi (x : V2) (imm : BitVec 8) (s : State) : Host.Outcome State Fault Refusal :=
  runWord (.vaddi x imm) (unBody false x (fun a => low 32 ((a : Int) + imm.toInt))) s

def execVshli (x : V2) (n : BitVec 5) (s : State) : Host.Outcome State Fault Refusal :=
  runWord (.vshli x n) (unBody false x (fun a => a * 2 ^ n.toNat % 2 ^ 32)) s

def execVshri (x : V2) (n : BitVec 5) (s : State) : Host.Outcome State Fault Refusal :=
  runWord (.vshri x n) (unBody false x (fun a => a / 2 ^ n.toNat)) s

def execVsrai (x : V2) (n : BitVec 5) (s : State) : Host.Outcome State Fault Refusal :=
  runWord (.vsrai x n) (unBody false x (fun a => low 32 (sg 32 a / (2 ^ n.toNat : Nat)))) s

def vmoviBody (d : VOp) (imm : BitVec 8) (is : Issue) (s : State) : Act :=
  .next (s.putVec is (useD d) (is.over (fun _ => low 32 imm.toInt)))

def execVmovi (g : Guard) (d : VOp) (imm : BitVec 8) (s : State) : Host.Outcome State Fault Refusal :=
  runWord (.vmovi g d imm) (vmoviBody d imm) s

/-! ### R326 -/

/-- The carry-less product of two 32-bit values. -/
def clmul (a b : Nat) : Nat := (List.range 32).foldl (fun r i => if b.testBit i then r ^^^ (a * 2 ^ i) else r) 0

def vclmulBody (hi : Bool) (x : V3) (is : Issue) (s : State) : Act :=
  .next (s.putVec is (useD x.d) (is.over (fun L =>
    let p := clmul (is.num (useS x.a) L) (is.num (useS x.b) L)
    if hi then p / 2 ^ 32 else p % 2 ^ 32)))

def execVclmul (hi : Bool) (x : V3) (s : State) : Host.Outcome State Fault Refusal :=
  runWord (.vclmul hi x) (vclmulBody hi x) s

def vmad24Body (uns : Bool) (x : V3) (is : Issue) (s : State) : Act :=
  .next (s.putVec is (useD x.d) (is.over (fun L =>
    let e := fun (v : Nat) => ival (!uns) 24 (v % 2 ^ 24)
    low 32 (e (is.num (useS x.a) L) * e (is.num (useS x.b) L) + is.num (useD x.d) L))))

def execVmad24 (uns : Bool) (x : V3) (s : State) : Host.Outcome State Fault Refusal :=
  runWord (.vmad24 uns x) (vmad24Body uns x) s

end Sys2Proof.Machine
end

