-- ==== Sys2Proof/Machine/VectorFp.lean ====
section
/-! DEFINITION. Floating-point vector words (11 R301 to R303), conversions (R304, R305) and block-scaled words (R306 to
R311). -/

namespace Sys2Proof.Machine

/-! ### Elements of a type (R294) -/

def isPacked : FTy → Bool
  | .bf16 | .f16 => true
  | .f32 | .f64 => false

/-- The elements of a value, element 0 first. -/
def elems (t : FTy) (v : Nat) : List Nat := if isPacked t then [v % 2 ^ 16, v / 2 ^ 16] else [v]

def packElems (t : FTy) : List Nat → Nat
  | [a, b] => if isPacked t then a + 2 ^ 16 * b else a
  | [a] => a
  | _ => 0

/-- elem_index (R297): TID and WGlin are 0 on a control core. -/
def State.elemIndex (s : State) (is : Issue) (L h : Nat) : W64 :=
  let lin := if isStream is.who then 0 else (s.wgOf is.who).elim 0 Wg.lin
  let tid := if isStream is.who then 0 else is.w.tidOf L
  BitVec.ofNat 64 ((lin * 2048 + tid) * 4 + h)

/-- The SRSEED of the issuing grid (R193); 0 for a stream. -/
def State.seedOf (s : State) (who : Nat) : W128 := (s.gridOf who).elim 0 (fun g => g.descr.seed)

/-- The draw of an element of the word (R297). -/
def State.drawOf (s : State) (is : Issue) (sids : SOp) (L h : Nat) : Draw :=
  ⟨s.seedOf is.who, (is.sv s sids).extractLsb' 0 32, s.elemIndex is L h⟩

/-- Deliver the results and the flags of a word. -/
def deliver (s : State) (is : Issue) (u : VUse) (rs : SMap Rounded) : Act :=
  .next ((s.putVec is u (rs.map (fun e => (e.1, e.2.1)))).addFlags is.who (unionFlags (rs.map (fun e => e.2.2))))

/-- Apply `f` element by element; `f` receives the element number and its operands' codes. -/
def eachElem (t : FTy) (f : Nat → List Nat → Rounded) (vs : List Nat) : Rounded :=
  let n := if isPacked t then 2 else 1
  let rs := (List.range n).map (fun h => f h (vs.map (fun v => (elems t v).getD h 0)))
  (packElems t (rs.map Prod.fst), unionFlags (rs.map Prod.snd))

/-- The exact operation of R301 under a rounding mode; an FMA's list is a, b, d. -/
def Fmt.apply (f : Fmt) (op : FOp) (rm : RM) (d : Draw) (vs : List Nat) : Rounded :=
  let a := vs.getD 0 0
  let b := vs.getD 1 0
  match op with
  | .add => f.fadd rm d a b
  | .sub => f.fsub rm d a b
  | .mul => f.fmul rm d a b
  | .fma => f.ffma rm d a b (vs.getD 2 0)
  | .div => f.fdiv rm d a b
  | .sqrt => f.fsqrt rm d a

/-- The sources of an operation in lane L. -/
def fpSources (is : Issue) (op : FOp) (t : FTy) (x : V3) (L : Nat) : List Nat :=
  let w := t.is64
  match op with
  | .sqrt => [is.num (useS x.a w) L]
  | .fma => [is.num (useS x.a w) L, is.num (useS x.b w) L, is.num (useDS x.d w) L]
  | _ => [is.num (useS x.a w) L, is.num (useS x.b w) L]

def fpBody (op : FOp) (t : FTy) (rm : RM) (sids : SOp) (x : V3) (is : Issue) (s : State) : Act :=
  deliver s is (useD x.d t.is64) (is.over (fun L =>
    eachElem t (fun h vs => (fmtOfTy t).apply op rm (s.drawOf is sids L h) vs) (fpSources is op t x L)))

def execVfadd (t : FTy) (x : V3) (s : State) : Host.Outcome State Fault Refusal :=
  runWord (.vfadd t x) (fpBody .add t .rne (.special .zero) x) s

def execVfsub (t : FTy) (x : V3) (s : State) : Host.Outcome State Fault Refusal :=
  runWord (.vfsub t x) (fpBody .sub t .rne (.special .zero) x) s

def execVfmul (t : FTy) (x : V3) (s : State) : Host.Outcome State Fault Refusal :=
  runWord (.vfmul t x) (fpBody .mul t .rne (.special .zero) x) s

def execVfma (t : FTy) (x : V3) (s : State) : Host.Outcome State Fault Refusal :=
  runWord (.vfma t x) (fpBody .fma t .rne (.special .zero) x) s

def execVfdiv (t : FTy) (x : V3) (s : State) : Host.Outcome State Fault Refusal :=
  runWord (.vfdiv t x) (fpBody .div t .rne (.special .zero) x) s

def execVfsqrt (t : FTy) (x : V2) (s : State) : Host.Outcome State Fault Refusal :=
  runWord (.vfsqrt t x) (fpBody .sqrt t .rne (.special .zero) ⟨x.g, x.d, x.a, x.a⟩) s

def execVfopx (op : FOp) (t : FTy) (rm : RM) (sids : SOp) (x : V3) (s : State) : Host.Outcome State Fault Refusal :=
  runWord (.vfopx op t rm sids x) (fpBody op t rm sids x) s

/-! ### Minimum, maximum and comparison (R302) -/

/-- A key that orders the codes that are no NaN, -0 below +0. -/
def Fmt.key (f : Fmt) (a : Nat) : Int := if 2 ^ (f.width - 1) ≤ a then -((a - 2 ^ (f.width - 1) : Nat) : Int) - 1 else a

def Fmt.fmm (f : Fmt) (mx : Bool) (a b : Nat) : Rounded :=
  let fl := snanFlag f [a, b]
  if f.isNan a && f.isNan b then (f.canonNan, fl)
  else if f.isNan a then (b, fl)
  else if f.isNan b then (a, fl)
  else if mx then (if f.key a < f.key b then b else a, fl) else (if f.key b < f.key a then b else a, fl)

def fmmBody (mx : Bool) (t : FTy) (x : V3) (is : Issue) (s : State) : Act :=
  deliver s is (useD x.d t.is64) (is.over (fun L =>
    eachElem t (fun _ vs => (fmtOfTy t).fmm mx (vs.getD 0 0) (vs.getD 1 0)) (fpSources is .add t x L)))

def execVfmin (t : FTy) (x : V3) (s : State) : Host.Outcome State Fault Refusal :=
  runWord (.vfmin t x) (fmmBody false t x) s

def execVfmax (t : FTy) (x : V3) (s : State) : Host.Outcome State Fault Refusal :=
  runWord (.vfmax t x) (fmmBody true t x) s

def Fmt.fcmp (f : Fmt) (c : FCond) (a b : Nat) : Bool × W32 :=
  let un := f.isNan a || f.isNan b
  let sn := snanFlag f [a, b]
  match c with
  | .un => (un, sn)
  | .ord k =>
    let loud := k != .eq && k != .ne
    let fl := if loud then flagIf un fNV else sn
    match (f.decode a).cmp (f.decode b) with
    | none => (k == .ne, fl)
    | some o => (Cond.holds k o, fl)

def vfcmpBody (t : FTy) (c : FCond) (x : VC) (is : Issue) (s : State) : Act :=
  let w := t.is64
  let one := fun (v : Nat) => if isPacked t then v % 2 ^ 16 else v
  let rs := is.over (fun L => (fmtOfTy t).fcmp c (one (is.num (useS x.a w) L)) (one (is.num (useS x.b w) L)))
  .next ((s.writePred is x.pd.val (fun L => (mgetD rs L (false, 0)).1)).addFlags is.who (unionFlags (rs.map (fun e => e.2.2))))

def execVfcmp (t : FTy) (c : FCond) (x : VC) (s : State) : Host.Outcome State Fault Refusal :=
  runWord (.vfcmp t c x) (vfcmpBody t c x) s

/-! ### Parts of a register (R294, R295) -/

/-- Part `p` of a register for an operand of `w` bits: the whole, a half or a byte. -/
def partOf (w p v : Nat) : Nat :=
  if 32 ≤ w then v else if w = 16 then v / 2 ^ (16 * p) % 2 ^ 16 else v / 2 ^ (8 * p) % 2 ^ 8

def setPart (w p old v : Nat) : Nat :=
  if 32 ≤ w then v
  else
    let n := if w = 16 then 16 else 8
    old - old / 2 ^ (n * p) % 2 ^ n * 2 ^ (n * p) + v % 2 ^ n * 2 ^ (n * p)

/-! ### VCVT -/

/-- R190 for a range lo to hi of w bits. -/
def toIntTy (t : ITy) (x : XVal) (rm : RM) (d : Draw) : Rounded :=
  let lo : Int := if ITy.signed t then -(2 ^ (t.width - 1) : Nat) else 0
  let hi : Int := if ITy.signed t then (2 ^ (t.width - 1) : Nat) - 1 else (2 ^ t.width : Nat) - 1
  match x with
  | .nan => (0, fNV)
  | .inf n => (low t.width (if n then lo else hi), fNV)
  | _ =>
    match x.toInteger rm d with
    | none => (0, fNV)
    | some (v, inex) =>
      if v < lo then (low t.width lo, fNV) else if hi < v then (low t.width hi, fNV) else (low t.width v, flagIf inex fNX)

/-- The conversion of one source code (R305). A signaling NaN raises NV between two floating-point formats, too (log entry 96). -/
def cvt (k : CvtKind) (rm : RM) (d : Draw) (c : Nat) : Rounded :=
  match k with
  | .ff df sf =>
    let f := fmtOf sf
    let sn := flagIf (f.isSnan (c % 2 ^ f.width)) fNV
    if df = sf then
      (if f.isNan c then (f.canonNan, sn) else (c % 2 ^ f.width, 0))
    else let r := (fmtOf df).round (f.decode c) rm d
         (r.1, r.2 ||| sn)
  | .fi t sf =>
    let r := toIntTy t ((fmtOf sf).decode c) rm d
    (r.1, r.2)
  | .intf df t => (fmtOf df).round (ofScaled (ival (ITy.signed t) t.width c) 0 false) rm d

def vcvtBody (k : CvtKind) (p : Fin 4) (rm : RM) (sids : SOp) (x : V2) (is : Issue) (s : State) : Act :=
  let ud := if k.widthD < 32 then useDS x.d else useD x.d (k.widthD == 64)
  deliver s is ud (is.over (fun L =>
    let r := cvt k rm (s.drawOf is sids L p.val) (partOf k.widthS p.val (is.num (useS x.a (k.widthS == 64)) L))
    (setPart k.widthD p.val (if k.widthD < 32 then is.num ud L else 0) r.1, r.2)))

def execVcvt (k : CvtKind) (psel : Fin 4) (rm : RM) (sids : SOp) (x : V2) (s : State) : Host.Outcome State Fault Refusal :=
  runWord (.vcvt k psel rm sids x) (vcvtBody k psel rm sids x) s

/-! ### Block-scaled words -/

/-- The issuing lanes of the block a lane lies in (R306). -/
def blockLanes (is : Issue) (L : Nat) : List Nat := (lanesOf is.mask).filter (fun M => M / 32 == L / 32)

/-- The result of R307 for the FP32 codes of a block. -/
def mxmaxOf (vs : List Nat) : Nat :=
  let m := (vs.map (fun v => v % 2 ^ 31)).foldl max 0
  if 0x7F800000 < m then 0x7FC00000 else m

def mxmaxBody (x : V2) (is : Issue) (s : State) : Act :=
  .next (s.putVec is (useD x.d) (is.over (fun L => mxmaxOf ((blockLanes is L).map (is.num (useS x.a))))))

def execMxmax (x : V2) (s : State) : Host.Outcome State Fault Refusal := runWord (.mxmax x) (mxmaxBody x) s

def mxscaleBody (f : MxFmt) (p : Fin 4) (x : V2) (is : Issue) (s : State) : Act :=
  deliver s is (useDS x.d) (is.over (fun L =>
    let r := (mxFmt f).blockScale ((blockLanes is L).map (fun M => fmtF32.decode (is.num (useS x.a) M)))
    (setPart 8 p.val (is.num (useDS x.d) L) r.1, r.2)))

def execMxscale (f : MxFmt) (p : Fin 4) (x : V2) (s : State) : Host.Outcome State Fault Refusal :=
  runWord (.mxscale f p x) (mxscaleBody f p x) s

def mxqBody (f : MxFmt) (p : Fin 4) (rm : RM) (sids : SOp) (x : V3) (is : Issue) (s : State) : Act :=
  deliver s is (useDS x.d) (is.over (fun L =>
    let sc := partOf 8 p.val (is.num (useS x.b) L)
    let r := (mxFmt f).quantElem (fmtF32.decode (is.num (useS x.a) L)) sc rm (s.drawOf is sids L p.val)
    (setPart 8 p.val (is.num (useDS x.d) L) r.1, r.2)))

def execMxq (f : MxFmt) (p : Fin 4) (rm : RM) (sids : SOp) (x : V3) (s : State) : Host.Outcome State Fault Refusal :=
  runWord (.mxq f p rm sids x) (mxqBody f p rm sids x) s

def mxdqBody (f : MxFmt) (p : Fin 4) (x : V3) (is : Issue) (s : State) : Act :=
  deliver s is (useD x.d) (is.over (fun L =>
    dequantize (mxFmt f) (partOf 8 p.val (is.num (useS x.a) L)) (partOf 8 p.val (is.num (useS x.b) L))))

def execMxdq (f : MxFmt) (p : Fin 4) (x : V3) (s : State) : Host.Outcome State Fault Refusal :=
  runWord (.mxdq f p x) (mxdqBody f p x) s

end Sys2Proof.Machine
end

