-- ==== Sys2Proof/Machine/MemEvents.lean ====
section
/-! DEFINITION. Performing lane memory operations (03, 05, 12): LD_COMPLETE, STORE_PERFORMED, ATOM_COMPLETE, L1_FILL,
HELD_INVALIDATE and UAL_REQUEST_TIMEOUT. An event whose operation is not ready changes nothing. -/

namespace Sys2Proof.Machine

/-! ### Where the lanes of an operation land -/

/-- The class a violation has in the space it was met in (R27, R30). -/
def spaceClass (c : VClass) (spc cl : Bool) : VClass := if cl then .clrank else if spc then .sprange else c

/-- A place once its page is answered; none while it is not. -/
def State.finalPlace (s : State) (o : MemOp) (p : Place) : Option Place :=
  match p with
  | .page t off spc cl =>
    (mget s.treqs t).bind (fun r =>
      match r.st with
      | .need | .wait | .faulted _ => none
      | .viol c | .denied c => some (.bad (spaceClass c spc cl))
      | .ok leaf =>
        let pa := leafPfn leaf + off
        if (s.region r.ctx r.va).elim false Region.mmio then
          (if (s.mmioRead pa (accBytes o.instr)).isSome && !isMx o.instr then some (.mmio pa) else some (.bad .mmio))
        else if isMx o.instr && isHostPa (s.normPa pa) then some (.bad .prot)
        else some (.phys (s.normPa pa) (if spc || cl then (leaf &&& ~~~0xC0#64) ||| 0x40#64 else leaf)))
  | q => some q

def State.finalPlaces (s : State) (o : MemOp) : Option (SMap Place) :=
  o.place.mapM (fun e => (s.finalPlace o e.2).map (fun q => (e.1, q)))

/-- What a place shares with others: a line of memory, a unit of a store, a register of the device. -/
def placeKey : Place → Option (Nat × Nat)
  | .phys pa _ => some (0, pa / 128)
  | .sp w off => some (1 + 2 * w, off / 128)
  | .ac w off => some (2 + 2 * w, off / 128)
  | _ => none

def isMmio : Place → Bool
  | .mmio _ => true
  | _ => false

/-- Keys of an operation's places as far as they are known. -/
def State.opKeys (s : State) (o : MemOp) : List (Nat × Nat) :=
  (o.place.filterMap (fun e => (s.finalPlace o e.2).bind placeKey)).eraseDups

/-- The operation's pages are still being looked up or walked: it waits neither for a fault of its own nor behind one (R119). -/
def State.inLookup (s : State) (o : MemOp) : Bool :=
  (s.finalPlaces o).isNone && !s.opFaulted o && !s.keyHeld o.who o.keys o.id

/-- An earlier operation e of the thread stands before o (R87, R119, R134, R135, R144, R145). Where e lands is not known while it
is in lookup, and every later operation waits; nor is it across an outstanding fault, where a store or an atomic waits, since it
may be to the same bytes (R134), and a load only behind the same page or window (R119, log entry 97). -/
def State.mustPrecede (s : State) (e o : MemOp) : Bool :=
  let open_ := (s.finalPlaces e).isNone
  isAcquire e.instr || isRelease o.instr || s.inLookup e || (open_ && memAcc o.instr != .load) ||
  (s.opKeys e).any (fun k => (s.opKeys o).contains k) ||
  (open_ && e.keys.any o.keys.contains) ||
  (o.place.any (fun p => (s.finalPlace o p.2).elim false isMmio) &&
    (open_ || e.place.any (fun p => (s.finalPlace e p.2).elim false isMmio)))

/-- A lane of the operation reaches another module. -/
def State.opRemote (s : State) (o : MemOp) : Bool :=
  o.place.any (fun p => match s.finalPlace o p.2 with
    | some (.phys pa _) => s.isRemote pa
    | _ => false)

/-- The place of a token by its line, where its page needs no service (R100). -/
def tokKey : TokAt → Option (Nat × Nat)
  | .at_ (.phys pa) => some (0, pa / 128)
  | .at_ (.sp w off) => some (1 + 2 * w, off / 128)
  | _ => none

/-- What a token touches as R119 compares it. -/
def State.tokPage (s : State) (wg ctx addr : Nat) (sp : Bool) : Option (Nat × Nat) :=
  if !sp then some (0, (s.pageOf ctx addr).1)
  else (mget s.wgs wg).bind (fun g => match g.spRes addr with
    | .spill va => some (1, va / 65536)
    | _ => none)

/-- An operation reaches a line, or may: its places are not all known, and it is in lookup or open over the line's page. -/
def State.reachesLine (s : State) (o : MemOp) (key page : Option (Nat × Nat)) : Bool :=
  key.any (s.opKeys o).contains || ((s.finalPlaces o).isNone && (s.inLookup o || page.any o.keys.contains))

/-- A read that a word of the thread makes of a line waits for the thread's operations before it: an acquire, whose later accesses
follow it (R141, R145), and one that reaches the line, in issue order (R87, R135). -/
def State.readWaits (s : State) (who before : Nat) (key page : Option (Nat × Nat)) : Bool :=
  (mvals s.mops).any (fun o => o.who == who && decide (o.id < before) && (isAcquire o.instr || s.reachesLine o key page))

/-- An operation reaches the token of a command, or may. -/
def State.reachesToken (s : State) (o : MemOp) (e : EngOp) : Bool :=
  match e.tok with
  | none => false
  | some (addr, sp) =>
    match (s.locAt e.wg e.ctx sp addr .atomic e.core e.who e.id).1 with
    | .viol _ _ => false
    | .wait => (s.tokPage e.wg e.ctx addr sp).any o.keys.contains
    | t => s.reachesLine o (tokKey t) (s.tokPage e.wg e.ctx addr sp)

/-- An earlier command of the thread has still to count itself on a token that the operation reaches (R100). -/
def State.tokenFirst (s : State) (o : MemOp) : Bool :=
  (mvals s.eops).any (fun e => e.who == o.who && e.phase == 0 && decide (e.id < o.id) && s.reachesToken o e)

/-- The operation may be performed now: every page answered and nothing of its thread before it. -/
def State.mayPerform (s : State) (o : MemOp) : Bool :=
  !s.isAway o.who && !o.held && (s.finalPlaces o).isSome && !s.tokenFirst o &&
  (mvals s.mops).all (fun e => !(e.who == o.who && decide (e.id < o.id) && s.mustPrecede e o)) &&
  (!isRelease o.instr || (mvals s.mops).all (fun e => !(e.who == o.who && decide (e.id < o.id))))

/-! ### Finishing an operation -/

/-- Violations of an operation are logged when it is performed, as one, at its lowest lane (R41, R118). -/
def State.logOp (s : State) (o : MemOp) (ps : SMap Place) : State :=
  match ps.find? (fun e => match e.2 with | .bad _ => true | _ => false) with
  | some (L, .bad c) =>
    s.logViol o.who (spaceCode (memSpace o.instr)) c (memAcc o.instr) L false
      (BitVec.ofNat 64 (low64 (mgetD o.ea L 0))) o.pc
  | _ => s

/-- The operation is done: its requests, its log entry and its flag are released. -/
def State.endMop (s : State) (o : MemOp) : State :=
  (({ s with mops := mdel s.mops o.id, treqs := s.treqs.filter (fun e => !(o.treqs.contains e.1)) }).dropLost o.who o.id).decFlag o.who o.flag

def opReq (o : MemOp) : Requester := reqOf o.who false o.ctx o.pc

/-- An operation whose accesses are done: it ends, unless its acquire must first invalidate the L1 and that invalidate is held
back (R84, R145). -/
def State.closeMop (s : State) (o : MemOp) : State :=
  if !(isAcquire o.instr && isWide (memScope o.instr)) then s.endMop o
  else if s.mayAcquire o.who then (s.endMop o).acquireL1 o.who
  else (s.setMop { o with held := true, started := true }).modCore o.core (fun c => { c with heldInv := c.heldInv ++ [o.id] })

/-- Registers the results go to. -/
def opRegs (o : MemOp) : List Nat :=
  ((mvals o.dst).eraseDups).flatMap (fun r => (List.range (dstWidth o.instr)).map (fun k => r + k))

/-- The registers can be written: blocks present, images reachable. A fill is asked for where one is absent. -/
def State.regsReady (s : State) (o : MemOp) : Bool × State :=
  let absent := s.longAbsent o.who o.handler (opRegs o)
  if !absent.isEmpty then (false, s.wantBlocks o.who absent)
  else s.longReady o.who o.handler (opRegs o)

/-- Write a lane's result: `n` registers of value v, or the two bytes of an MX pair; a register that a higher slot of the word's
group has written since keeps that value (R249). -/
def State.putResult (s : State) (o : MemOp) (L v : Nat) (p : Bool) : State :=
  let stays := fun (reg : Nat) => o.outdone.contains (128 * reg + L)
  match mget o.dst L with
  | none => s
  | some r =>
    match o.instr with
    | .ldmx x =>
      let k := x.plane.val
      let m : W32 := BitVec.ofNat 32 (255 * 2 ^ (8 * k))
      let one := fun (t : State) (reg b : Nat) =>
        if stays reg then t else t.putLong o.who reg L o.handler (BitVec.ofNat 32 (b % 256 * 2 ^ (8 * k))) m p
      one (one s r v) (r + 1) (v / 256)
    | i =>
      (List.range (dstWidth i)).foldl (fun t k =>
        if stays (r + k) then t else t.putLong o.who (r + k) L o.handler (BitVec.ofNat 32 (v / 2 ^ (32 * k))) (BitVec.allOnes 32) p) s

/-- The value a load delivers from the bytes it read (R328). -/
def loadValue (i : Instr) (v : Nat) : Nat :=
  match i with
  | .ld sz _ => ldValue sz v
  | _ => v

/-! ### LD_COMPLETE -/

/-- Code and scale of an LDMX lane from its line (R93, R334). -/
def mxElement (f : MxFmt) (line : BitVec 1024) (sb : W64) (off L : Nat) : Nat :=
  let code := line.toNat / 2 ^ (8 * off + mxBits f * (L % 32)) % 2 ^ mxBits f
  code + 256 * bitsOf sb (8 * (off / mxBlockBytes f)) 8

/-- Sectors of a line that a block touches. -/
def mxSectors (f : MxFmt) (off : Nat) : List Nat := sectorsOf off (mxBlockBytes f)

def isLoadOp : Instr → Bool
  | .ld _ _ | .ldmx _ => true
  | _ => false

/-- The access looks the L1 up (R79, R80, R145). -/
def viaL1 (o : MemOp) (leaf : W64) : Bool :=
  !isStream o.who && leafCached leaf && !memNol1 o.instr && !(isAcquire o.instr && isWide (memScope o.instr))

/-- The LINK record of a lane whose access its link cannot complete, under the address as formed (R22, R461, R471). -/
def State.laneError (s : State) (o : MemOp) (L : Nat) (p : Place) : State :=
  match p with
  | .phys pa _ => s.linkError pa (accBytes o.instr) (BitVec.ofNat 64 (low64 (mgetD o.ea L 0))) (opReq o)
  | _ => s

/-- The operation is to be performed and reaches another module that no port reaches: its request waits from now on (R471). -/
def State.waitPort (s : State) (o : MemOp) : State := s.noteNoPort o.who o.id 0

/-- A lane's data as read at its point. -/
def State.readDirect (s : State) (o : MemOp) (L : Nat) (p : Place) : Nat × Bool × State :=
  let n := accBytes o.instr
  let off := low64 (mgetD o.ea L 0) % 128
  let readAt := fun (l : Loc) =>
    let t := s.locTouch l n (opReq o)
    if isMx o.instr then
      let f := mxOf o.instr
      let line := leWord 1024 (t.locRead l 128)
      let bad := t.locSidePoison l || (mxSectors f off).any (fun k => t.locPoison (l.add (32 * k)) 1)
      (mxElement f line ((t.locSide l).getD 0) off L, bad, t)
    else (leNat (t.locRead l n), t.locPoison l n, t)
  match p with
  | .phys pa _ => readAt (.phys pa)
  | .sp w o => readAt (.sp w o)
  | .ac w o => readAt (.ac w o)
  | .mmio a => ((s.mmioRead a n).getD 0, false, s)
  | _ => (0, true, s)

/-- The unit in which a store's lane is performed: 32 bytes of memory or of a scratchpad, a line for an MX word, or a register of
the device (R82). -/
def unitOf (i : Instr) (p : Place) : Option (Nat × Nat) :=
  let k := fun (a : Nat) => if isMx i then a / 128 else a / 32
  match p with
  | .phys pa _ => some (0, k pa)
  | .mmio a => some (1, a)
  | .sp w off => some (2 + 2 * w, k off)
  | .ac w off => some (3 + 2 * w, k off)
  | _ => none

/-- The units of a store still to be performed. -/
def MemOp.unitsLeft (o : MemOp) (ps : SMap Place) : List (Nat × Nat) :=
  o.reqs.getD (ps.filterMap (fun e => unitOf o.instr e.2)).eraseDups

/-- A store of the core that is not yet acknowledged, and is being performed or may be, writes the sector (R142). A later store of
the load's own thread waits for the load. -/
def State.unackedStore (s : State) (o : MemOp) (pa n : Nat) : Bool :=
  (mvals s.mops).any (fun e => e.core == o.core && !isStream e.who && countsStores e.instr && (e.who != o.who || decide (e.id < o.id)) &&
    (e.started || s.mayPerform e) &&
    (match s.finalPlaces e with
     | none => false
     | some ps => ps.any (fun p => match p.2 with
       | .phys q _ => ((unitOf e.instr p.2).any ((e.unitsLeft ps).contains ·)) &&
           (sectorsOf q (accBytes e.instr)).any (fun k => (sectorsOf pa n).contains k)
       | _ => false)))

/-- Deliver data to a lane that waits for it. -/
def MemOp.deliver (o : MemOp) (L v : Nat) (p : Bool) : MemOp :=
  { o with data := mset o.data L (BitVec.ofNat 128 v), cmp := mset o.cmp L (if p then 1 else 0) }

/-- Look one lane up: data at once, or a fill that will bring it. -/
def State.lookupLane (s : State) (o : MemOp) (L : Nat) (p : Place) : MemOp × State :=
  let asked := fun (t : State) =>
    if (t.core o.core).fills.any (fun f => f.waiters.contains (o.id, L)) then t.laneError o L p else t
  let direct := let (v, b, t) := (s.laneError o L p).readDirect o L p
                (o.deliver L v b, t)
  match p with
  | .phys pa leaf =>
    if viaL1 o leaf && !s.isRemote pa then
      let n := accBytes o.instr
      let off := low64 (mgetD o.ea L 0) % 128
      if isMx o.instr then
        match s.l1ReadLine o.core (pa / 128) with
        | some (d, sb) => (o.deliver L (mxElement (mxOf o.instr) d sb off L) false, s)
        | none => (o, asked (s.miss o.core (pa / 128) 0xF#4 true (leafCP leaf == 2) (o.id, L) (opReq o)))
      else
        match s.l1Read o.core pa n with
        | some bs => (o.deliver L (leNat bs) false, s)
        | none => (o, asked (s.miss o.core (pa / 128) (lineSectors pa n) false (leafCP leaf == 2) (o.id, L) (opReq o)))
    else direct
  | _ => direct

def State.lookupAll (s : State) (o : MemOp) : List (Nat × Place) → MemOp × State
  | [] => (o, s)
  | (L, p) :: r =>
    if mhas o.data L || (s.core o.core).fills.any (fun f => f.waiters.contains (o.id, L)) then s.lookupAll o r
    else let (o1, s1) := s.lookupLane o L p
         s1.lookupAll o1 r

/-- No store of the core still to be acknowledged meets the sectors looked up (R142). -/
def State.lookupFree (s : State) (o : MemOp) (ps : SMap Place) : Bool :=
  ps.all (fun e => match e.2 with
    | .phys pa leaf => !(viaL1 o leaf) || !(s.unackedStore o pa (accBytes o.instr))
    | _ => true)

/-- Every lane has its data. -/
def MemOp.delivered (o : MemOp) : Bool := (lanesOf o.mask).all (fun L => mhas o.data L)

/-- Write what was read and end the load; an acquire of a wide scope then invalidates the L1 (R145). -/
def State.finishLoad (s : State) (o : MemOp) : State :=
  match s.regsReady o with
  | (false, t) => t.setMop o
  | (true, t) =>
    let t1 := (lanesOf o.mask).foldl (fun u L =>
      u.putResult o L (loadValue o.instr (mgetD o.data L 0).toNat) (mgetD o.cmp L 0 != 0)) t
    t1.closeMop o

def State.loadStep (s : State) (o : MemOp) (lost : Bool) : State :=
  match s.finalPlaces o with
  | none => s
  | some ps =>
    if o.held then s
    else if o.started then (if o.delivered then s.finishLoad o else if !s.lookupFree o ps then s else (let (o1, s1) := s.lookupAll o ps; s1.setMop o1))
    else if !s.mayPerform o || !s.lookupFree o ps then s
    else if s.opRemote o && !s.linkUp && !lost then s.waitPort o
    else
      let (o1, s1) := (s.logOp o ps).lookupAll { o with data := [], cmp := [], started := true } ps
      if o1.delivered then s1.finishLoad o1 else s1.setMop o1

def execLdComplete (op : Nat) (s : State) : Host.Outcome State Fault Refusal :=
  match mget s.mops op with
  | none => .next s
  | some o => .next (if isLoadOp o.instr then s.loadStep o false else s)

/-! ### L1_FILL and HELD_INVALIDATE -/

/-- A returned fill delivers to a lane that waits for it (R84, R89). -/
def State.fillLane (s : State) (f : L1Fill) (o : MemOp) (L : Nat) : MemOp :=
  match (mget o.place L).bind (s.finalPlace o) with
  | some (.phys pa _) =>
    if mhas o.data L || !f.waiters.contains (o.id, L) then o
    else
      let off := low64 (mgetD o.ea L 0) % 128
      let n := accBytes o.instr
      if isMx o.instr then
        (if !f.whole then o
         else o.deliver L (mxElement (mxOf o.instr) f.data f.sb off L)
           (f.sbPoison || (mxSectors (mxOf o.instr) off).any (fun k => f.poison.getLsbD k)))
      else if f.sectors &&& lineSectors pa n = lineSectors pa n then
        o.deliver L (leNat (lineBytes f.data (pa % 128) n)) ((f.poison &&& lineSectors pa n) != 0)
      else o
  | _ => o

def State.fillOps (s : State) (core : Nat) (f : L1Fill) : State :=
  (mvals s.mops).foldl (fun t o =>
    if o.core == core && o.started && isLoadOp o.instr && !isStream o.who then
      t.setMop ((lanesOf o.mask).foldl (fun o L => s.fillLane f o L) o)
    else t) s

def execL1Fill (core idx : Nat) (s : State) : Host.Outcome State Fault Refusal :=
  match (s.core core).fills[idx]? with
  | none => .next s
  | some f =>
    .next (((s.fillOps core f).l1Install core f).modCore core (fun c => { c with fills := c.fills.eraseIdx idx }))

def execHeldInvalidate (core : Nat) (s : State) : Host.Outcome State Fault Refusal :=
  .next (match (s.core core).heldInv with
    | [] => s
    | id :: r =>
      if !s.canFlash core then s
      else
        let t := (s.flash core).modCore core (fun c => { c with heldInv := r })
        match mget t.mops id with
        | some o => t.endMop o
        | none => t)

/-! ### STORE_PERFORMED -/

/-- The bytes of a block with one element replaced (R93). -/
def putElement (f : MxFmt) (line : BitVec 1024) (off e code : Nat) : BitVec 1024 :=
  let sh := 8 * off + mxBits f * e
  merge line ((BitVec.ofNat 1024 (2 ^ mxBits f - 1)) <<< sh) ((BitVec.ofNat 1024 (code % 2 ^ mxBits f)) <<< sh)

/-- The side band after the block at `off` takes `scale`: unused bytes become zero (R95). -/
def putScale (f : MxFmt) (sb : W64) (off scale : Nat) : W64 :=
  let k := mxPerLine f
  let used : W64 := if k = 8 then BitVec.allOnes 64 else BitVec.ofNat 64 (2 ^ (8 * k) - 1)
  let j := off / mxBlockBytes f
  merge (sb &&& used) (0xFF#64 <<< (8 * j)) (BitVec.ofNat 64 scale <<< (8 * j))

/-- The bytes of a store's unit from `base` on, each by the highest lane that covers it (R134). -/
def unitBytes (o : MemOp) (lanes : List (Nat × Nat)) (base : Nat) : List (Option Byte) :=
  let n := accBytes o.instr
  (List.range 32).map (fun j => lanes.reverse.findSome? (fun e =>
    if decide (e.2 ≤ base + j) && decide (base + j < e.2 + n) then
      some (BitVec.ofNat 8 ((mgetD o.data e.1 0).toNat / 256 ^ (base + j - e.2)))
    else none))

/-- Write a whole block: its elements, its scale and the zeros of R95. `L0` is the lowest lane of its group. -/
def State.writeBlock (s : State) (f : MxFmt) (l : Loc) (off : Nat) (codes : List Nat) (scale : Nat) (r : Requester) : State :=
  let t := s.locTouch l 128 r
  let line := codes.zipIdx.foldl (fun d c => putElement f d off c.2 c.1) (leWord 1024 (t.locRead l 128))
  let t1 := t.locWrite (l.add off) (lineBytes line off (mxBlockBytes f)) r
  let t2 := if mxPerLine f = 5 then t1.locWrite (l.add 120) (List.replicate 8 0) r else t1
  t2.locSetSide l (putScale f ((t2.locSide l).getD 0) off scale)

/-- The lanes of a unit, lowest first. -/
def unitLanes (o : MemOp) (ps : SMap Place) (k : Nat × Nat) : List Nat :=
  (ps.filter (fun e => unitOf o.instr e.2 == some k)).map Prod.fst

/-- The L1 follows an acknowledged store: no fill of the sector is installed, and a store through a mapping that the L1 may hold
updates it (R81, R104, R142, R143). -/
def State.ackL1 (s : State) (o : MemOp) (leaf : W64) (pa : Nat) (bs : List Byte) : State :=
  if isStream o.who then s
  else if !leafCached leaf || memNol1 o.instr then s.markFillsAll o.core pa bs
  else s.l1StoreAll o.core pa bs

/-- The value of one lane of a store. -/
def MemOp.laneBytes (o : MemOp) (L : Nat) : List Byte := toLe (accBytes o.instr) (mgetD o.data L 0).toNat

/-- Write one 32-byte unit at `base` of a location: as one request that covers it, or lane by lane (R82, R89). -/
def State.writeUnit (s : State) (o : MemOp) (at_ : Nat → Loc) (lanes : List (Nat × Nat)) (base : Nat) : State :=
  match (unitBytes o lanes base).mapM id with
  | some bs => s.locWrite (at_ base) bs (opReq o)
  | none => lanes.foldl (fun t e => t.locWrite (at_ e.2) (o.laneBytes e.1) (opReq o)) s

/-- One lane group of an STMX (R335). -/
def State.storeGroup (s : State) (o : MemOp) (ls : List Nat) (p : Place) : State :=
  let f := mxOf o.instr
  let L0 := ls.headD 0
  let off := low64 (mgetD o.ea L0 0) % 128
  let codes := ls.map (fun L => (mgetD o.data L 0).toNat)
  let scale := (mgetD o.cmp L0 0).toNat
  match p with
  | .phys pa leaf =>
    if s.linkFails pa 128 then s
    else
      let t := s.writeBlock f (.phys pa) off codes scale (opReq o)
      let q := t.normPa pa
      let t1 := t.ackL1 o leaf (q + off) (t.physRead (q + off) (mxBlockBytes f))
      let t2 := if mxPerLine f = 5 then t1.ackL1 o leaf (q + 120) (t1.physRead (q + 120) 8) else t1
      if isStream o.who || !leafCached leaf || memNol1 o.instr then t2
      else t2.l1StoreSide o.core (q / 128) (fun sb => putScale f sb off scale)
  | .sp w o' => s.writeBlock f (.sp w o') off codes scale (opReq o)
  | _ => s

/-- Where a place lies inside its unit's numbering. -/
def placeAddr : Place → Nat
  | .phys pa _ => pa
  | .sp _ off | .ac _ off => off
  | _ => 0

def State.storeUnit (s0 : State) (o : MemOp) (ps : SMap Place) (k : Nat × Nat) : State :=
  let ls := unitLanes o ps k
  let s := ls.foldl (fun t L => (mget ps L).elim t (t.laneError o L)) s0
  if isMx o.instr then
    (List.range 4).foldl (fun t j =>
      let g := ls.filter (fun L => L / 32 == j)
      match g.head?.bind (mget ps) with
      | some p => t.storeGroup o g p
      | none => t) s
  else
    let lanes := ls.map (fun L => (L, placeAddr (mgetD ps L (.bad .nomap))))
    match ls.head?.bind (mget ps) with
    | some (.phys pa _) =>
      if s.linkFails pa 1 then s
      else
        let t := s.writeUnit o Loc.phys lanes (pa / 32 * 32)
        ls.foldl (fun u L => match mget ps L with
          | some (.phys q leaf) => u.ackL1 o leaf q (o.laneBytes L)
          | _ => u) t
    | some (.sp w off) => s.writeUnit o (Loc.sp w) lanes (off / 32 * 32)
    | some (.ac w off) => s.writeUnit o (Loc.ac w) lanes (off / 32 * 32)
    | some (.mmio a) => ls.foldl (fun u L => (u.mmioWrite a (accBytes o.instr) (mgetD o.data L 0).toNat).getD u) s
    | _ => s

/-- Requests of a store that its units `ks` still stand for (R82). -/
def leftCost (o : MemOp) (ps : SMap Place) (ks : List (Nat × Nat)) : Nat :=
  storeCost o.instr (o.ea.filter (fun e => ((mget ps e.1).bind (unitOf o.instr)).any ks.contains))

/-- `n` requests of a thread's stores have been performed (R82). A retired warp counts no more. -/
def State.ackStores (s : State) (who n : Nat) : State :=
  if mhas s.ctls who then s.modCtl who (fun c => { c with unacked := c.unacked - n }) else s

/-- Perform the next request of a store and acknowledge it (R82). -/
def State.storeStep (s : State) (o : MemOp) (lost : Bool) : State :=
  match s.finalPlaces o with
  | none => s
  | some ps =>
    if !o.started && !s.mayPerform o then s
    else if s.opRemote o && !s.linkUp && !lost then s.waitPort o
    else
      let units := o.unitsLeft ps
      let before := if o.started then leftCost o ps units else storeCost o.instr o.ea
      let s0 := if o.started then s else s.logOp o ps
      let ack := fun (t : State) => t.ackStores o.who (before - leftCost o ps units.tail)
      match units with
      | [] => (ack s0).endMop o
      | k :: ks =>
        let s1 := ack (s0.storeUnit o ps k)
        if ks.isEmpty then s1.endMop o else s1.setMop { o with reqs := some ks, started := true }

def isStoreOp : Instr → Bool
  | .st _ _ | .stmx _ => true
  | _ => false

def execStorePerformed (op : Nat) (s : State) : Host.Outcome State Fault Refusal :=
  match mget s.mops op with
  | none => .next s
  | some o => .next (if isStoreOp o.instr then s.storeStep o false else s)

/-! ### ATOM_COMPLETE -/

/-- The new value of an atomic, none where nothing is written (R337). -/
def atomNew (op : AOp) (t : ITy) (o b cmp : Nat) : Option Nat :=
  let w := t.width
  let iv := ival (ITy.signed t) w
  match op with
  | .add => some ((o + b) % 2 ^ w)
  | .min => some (if iv b < iv o then b else o)
  | .max => some (if iv o < iv b then b else o)
  | .and => some (o &&& b)
  | .or => some (o ||| b)
  | .xor => some (o ^^^ b)
  | .xch => some b
  | .cas => if o = cmp then some b else none
  | .fadd => some ((if t.is64 then fmtF64 else fmtF32).fadd .rne {} o b).1

/-- Perform an atomic at a location: the old value, whether it is poison, and the state after. -/
def State.atomAt (s : State) (l : Loc) (op : AOp) (t : ITy) (b cmp : Nat) (r : Requester) : Nat × Bool × State :=
  let n := t.width / 8
  let s1 := s.locTouch l n r
  if s1.locPoison l n then (0, true, s1)
  else
    let o := leNat (s1.locRead l n)
    match atomNew op t o b cmp with
    | some v => (o, false, s1.locWrite l (toLe n v) r)
    | none => (o, false, s1)

def State.atomLane (s : State) (o : MemOp) (x : AtomArgs) (L : Nat) (p : Place) : Nat × Bool × State :=
  let go := fun (l : Loc) => (s.laneError o L p).atomAt l x.aop x.ty ((mgetD o.data L 0).toNat % 2 ^ x.ty.width) (mgetD o.cmp L 0).toNat (opReq o)
  match p with
  | .phys pa _ => go (.phys pa)
  | .sp w off => go (.sp w off)
  | _ => (0, true, s)

/-- Lanes in ascending order, each seeing the result of the one before (R134). -/
def State.atomLanes (s : State) (o : MemOp) (x : AtomArgs) : List (Nat × Place) → State
  | [] => s
  | (L, p) :: r =>
    let (v, bad, t) := s.atomLane o x L p
    ((if x.noret then t else t.putResult o L v bad)).atomLanes o x r

/-- No fill under way of a sector that an atomic of the core has reached is installed (R135, R143). -/
def State.ackAtoms (s : State) (o : MemOp) (ps : SMap Place) : State :=
  if isStream o.who then s else ps.foldl (fun t e => match e.2 with
    | .phys pa _ => t.markFills o.core pa (accBytes o.instr)
    | _ => t) s

def State.atomStep (s : State) (o : MemOp) (x : AtomArgs) (lost : Bool) : State :=
  match s.finalPlaces o with
  | none => s
  | some ps =>
    if !s.mayPerform o then s
    else if s.opRemote o && !s.linkUp && !lost then s.waitPort o
    else match s.regsReady o with
      | (false, t) => t
      | (true, t) =>
        let t1 := (((t.logOp o ps).dropAtomLines o).atomLanes o x ps).ackAtoms o ps
        (t1.ackStores o.who (if x.noret then storeCost o.instr o.ea else 0)).closeMop o

def execAtomComplete (op : Nat) (s : State) : Host.Outcome State Fault Refusal :=
  match mget s.mops op with
  | none => .next s
  | some o =>
    .next (match o.instr with
      | .atom x => s.atomStep o x false
      | _ => s)

/-! ### UAL_REQUEST_TIMEOUT (R471, R461): the lanes on another module take the error response -/

def execUalRequestTimeout (op : Nat) (s : State) : Host.Outcome State Fault Refusal :=
  match mget s.mops op with
  | none => .next s
  | some o =>
    .next (if s.opRemote o && !o.held && (o.started || s.mayPerform o) && !s.linkUp then
      let s1 := s.waitPort o
      if !s1.portLate o.who o.id 0 then s1
      else (match o.instr with
       | .ld _ _ | .ldmx _ => s1.loadStep o true
       | .st _ _ | .stmx _ => (((s1.finalPlaces o).elim 1 (fun ps => max 1 (o.unitsLeft ps).length)).repeat (fun t =>
           match mget t.mops op with
           | some o' => t.storeStep o' true
           | none => t) s1)
       | .atom x => s1.atomStep o x true
       | _ => s)
    else s)

end Sys2Proof.Machine
end

