-- ==== Sys2Proof/Machine/Engine.lean ====
section
/-! DEFINITION. Engine operations (05 R148 to R151, 03 R99 to R101, 04 R120): starting one, the accesses of one, its token
and its completion; FENCE, IFENCE and TWAIT (12 R339 to R343). -/

namespace Sys2Proof.Machine

/-- The wide word in the packet of a path: first word and extension word. -/
def State.wordsAt (s : State) (who : Nat) (p : Path) : W32 × W32 :=
  let pc := p.pc
  match s.packetOf who p with
  | none => (0, 0)
  | some f => (f.bits.extractLsb' (32 * bitsOf pc 2 2) 32, f.bits.extractLsb' (32 * (bitsOf pc 2 2 + 1)) 32)

/-! ### FENCE and IFENCE -/

/-- Every earlier load of the thread has returned (R145). -/
def State.loadsDone (s : State) (who : Nat) : Bool :=
  (mvals s.mops).all (fun o => o.who != who || (match o.instr with
    | .st _ _ | .stmx _ => true
    | .atom x => x.noret
    | _ => false))

/-- The waits of a fence (R144, R145). -/
def State.fenceReady (s : State) (who : Nat) (o : FOrd) : Bool :=
  match o with
  | .acquire => s.loadsDone who
  | .release | .acqRel => s.settled who

def fenceBody (o : FOrd) (sc : Scope) (is : Issue) (s : State) : Act :=
  let inval := o != .release && isWide sc && !isStream is.who
  if !s.fenceReady is.who o then .hold s
  else if inval && !s.canFlash (coreOf is.who) then .hold s
  else .next (if inval then s.flash (coreOf is.who) else s)

def execFence (o : FOrd) (sc : Scope) (s : State) : Host.Outcome State Fault Refusal :=
  runWord (.fence o sc) (fenceBody o sc) s

/-- R155: wait, drop the instruction cache, discard the packets fetched beyond. A path that stands in a packet goes on in it; a
packet entered from now on is fetched anew. -/
def ifenceBody (is : Issue) (s : State) : Act :=
  if !s.settled is.who then .hold s
  else
    let s1 := if isStream is.who then s else s.modCore (coreOf is.who) (fun c => { c with icache := [] })
    .next (s1.modCtl is.who (fun c => { c with gen := c.gen + 1 }))

def execIfence (s : State) : Host.Outcome State Fault Refusal := runWord .ifence ifenceBody s

/-! ### Tokens -/

/-- Who asks for an engine's pages: firmware for an operation it emulates (R121, R450). -/
def EngOp.asker (o : EngOp) : Nat := if o.emul then firmwareOf (clusterOf o.who) else o.who

/-- Apply an atomic update to a token; one that is poisoned is left as it is (R89, R100). -/
def State.tokApply (s : State) (core : Nat) (l : Loc) (f : W128 → W128) (r : Requester) : State :=
  let t := s.locTouch l 16 r
  if t.locPoison l 16 then t
  else t.engWrite core l (toLe 16 (f (leWord 128 (t.locRead l 16))).toNat) r

/-- Update the token of an operation: done, or still waiting for its page. A violation has no effect on the token. -/
def State.tokUpdate (s : State) (o : EngOp) (f : W128 → W128) : Bool × State :=
  match o.tok with
  | none => (true, s)
  | some (addr, sp) =>
    match s.locAt o.wg o.ctx sp addr .atomic o.core o.who o.id with
    | (.at_ l, t) => (true, t.tokApply o.core l f (reqOf o.who true o.ctx o.pc))
    | (.viol c spc, t) => (true, t.logViol o.who spc c .engWrite 0 true (BitVec.ofNat 64 addr) o.pc)
    | (.wait, t) => (false, t)

/-- R100 step 1, after every earlier access of the thread that reaches the token (R134, R148); phase 0 marks that it is still to be
made. -/
def State.tokStart (s : State) (o : EngOp) : State :=
  if (mvals s.mops).any (fun e => e.who == o.who && decide (e.id < o.id) && s.reachesToken e o) then s.setEop { o with phase := 0 }
  else match s.tokUpdate o tokIssue with
    | (true, t) => t.setEop { o with phase := 1 }
    | (false, t) => t.setEop { o with phase := 0 }

/-- A flag falls by 1; once the record of its warp is saved, the count in the record falls with it (R237, R457). -/
def State.countDown (s : State) (f : Nat × Nat) : State :=
  let t := s.decFlag f.1 (some f.2)
  if isSaved f.1 && mhas t.warps f.1 && (t.wgOf f.1).any (fun g => g.st == .saved) then
    (t.saveWrite f.1 (t.tsave f.1 + 0x22304 + f.2) [BitVec.ofNat 8 ((t.warp f.1).flag f.2)]).dropAsks f.1 0
  else t

/-- An access of the operation has got an error response: it completes with ERR (R461). -/
def State.opLost (s : State) (o : EngOp) : Bool := s.hasLost o.who o.id || s.hasLost o.asker o.id

/-- R100 step 2, the flags, and the end of the operation; it waits while the token's page is serviced. -/
def State.endEng (s : State) (o : EngOp) : State :=
  match s.tokUpdate o (fun v => tokDone v (o.err || s.opLost o) o.dmg o.skip) with
  | (false, t) => t.setEop o
  | (true, t) =>
    let t1 := (((o.flags.foldl (fun u f => u.countDown f) t).dropAsks o.asker o.id).dropLost o.asker o.id).dropLost o.who o.id
    { t1 with eops := mdel t1.eops o.id }

/-- Accesses of the issuer that the fork orders before the engine (R148): those outside `g:`, acquires, and those before a release
that is still outstanding; all of them with .REL (R149). -/
def State.forkAfter (s : State) (who : Nat) (rel : Bool) : List Nat :=
  let mine := (mvals s.mops).filter (fun o => o.who == who)
  (mine.filter (fun o => rel || memSpace o.instr != .g || isAcquire o.instr ||
    mine.any (fun r => isRelease r.instr && decide (o.id < r.id)))).map MemOp.id

/-- Those accesses have been performed. -/
def State.forkDone (s : State) (o : EngOp) : Bool := o.after.all (fun i => !mhas s.mops i)

/-- Fork an engine operation at the issue of its word. -/
def State.fork (s : State) (is : Issue) (vals : List W64) (tok : Option (Nat × Bool)) (rel : Bool) : EngOp × State :=
  let (id, s1) := s.newId
  let o : EngOp := {
    id := id, who := is.who, core := coreOf is.who, wg := (s.warp is.who).wg, ctx := is.ctx, instr := is.i, pc := is.pc
    iword := is.iword, mask := is.mask, vals := vals, flags := is.flag.elim [] (fun f => [(is.who, f)]), tok := tok, rel := rel
    after := s.forkAfter is.who rel, born := s.clock, handler := is.handler }
  (o, s1.incFlag is.who is.flag)

/-! ### Accesses of an engine -/

/-- Where an engine's access lands: memory, or the issuing warp's registers in the warp view (R34). -/
inductive ELoc where
  | mem (l : Loc)
  | reg (off : Nat)
  deriving DecidableEq, Repr

inductive EAt where
  | at_ (l : ELoc)
  | viol (c : VClass)
  | wait

/-- The region entry that an access of a space reads: of its own address, or of its spilled window (R107, R128). -/
def State.noteEa (s : State) (who ctx : Nat) (sp : Space) (ea : Int) (r : Requester) : State :=
  (s.spaceVa who sp ea).elim s (fun va => s.noteVa ctx va r)

/-- Resolve the place `ea` of an engine's access, which is of `n` bytes from `off` beyond it and lies in one page. -/
def State.engAt (s0 : State) (o : EngOp) (sp : Space) (ea : Int) (n : Nat) (acc : Acc) (off : Nat := 0) : EAt × State :=
  match sp with
  | .rw => (.at_ (.reg ea.toNat), s0)
  | _ =>
    let s := s0.noteEa o.who o.ctx sp ea (reqOf o.who true o.ctx o.pc)
    match s.preOf o.who o.ctx sp ea n false with
    | .bad c => (.viol c, s)
    | .sp w off => (.at_ (.mem (.sp w off)), s)
    | .ac w off => (.at_ (.mem (.ac w off)), s)
    | .va va spc cl =>
      match s.ask o.ctx va acc o.core o.asker o.id (low64 (ea + off)) off n with
      | (.ok pa _, t) => (.at_ (.mem (.phys pa)), t)
      | (.viol c, t) => (.viol (if cl then .clrank else if spc then .sprange else c), t)
      | (.wait, t) => (.wait, t)

/-- Byte k of the warp view (R34): register, lane and byte. -/
def regByte (off : Nat) : Nat × Nat × Nat := (off / 512, off / 4 % 128, off % 4)

def State.engRead (s : State) (o : EngOp) (l : ELoc) (n : Nat) : List Byte :=
  match l with
  | .mem l => s.locRead l n
  | .reg off => (List.range n).map (fun k =>
      let (r, L, b) := regByte (off + k)
      BitVec.ofNat 8 ((s.getLong o.who r L false).val.toNat / 2 ^ (8 * b)))

/-- Poison of each byte an engine reads. -/
def State.engPoison (s : State) (o : EngOp) (l : ELoc) (n : Nat) : List Bool :=
  match l with
  | .mem l => (List.range n).map (fun k => s.locPoison (l.add k) 1)
  | .reg off => (List.range n).map (fun k => let (r, L, _) := regByte (off + k); (s.getLong o.who r L false).poison)

def State.engTouch (s : State) (o : EngOp) (l : ELoc) (n : Nat) : State :=
  match l with
  | .mem l => s.locTouch l n (reqOf o.who true o.ctx o.pc)
  | .reg _ => s

/-- Write bytes and mark what poisoned bytes reach: a 32-byte unit, or a register lane (R89). -/
def State.engStore (s : State) (o : EngOp) (l : ELoc) (bs : List Byte) (bad : List Bool) : State :=
  match l with
  | .mem l =>
    let t := s.engWrite o.core l bs (reqOf o.who true o.ctx o.pc)
    (bad.zipIdx.filter (fun e => e.1)).foldl (fun u e => (u.locMark (l.add e.2) 1).dropPoisoned o.core (l.add e.2) 1) t
  | .reg off =>
    let cells := ((List.range bs.length).map (fun k => (off + k) / 4)).eraseDups
    cells.foldl (fun t c =>
      let mine := (List.range bs.length).filter (fun k => (off + k) / 4 == c)
      let v := (mine.map (fun k => (bs.getD k 0).toNat * 2 ^ (8 * ((off + k) % 4)))).sum
      let m := (mine.map (fun k => 255 * 2 ^ (8 * ((off + k) % 4)))).sum
      t.putLong o.who (c / 128) (c % 128) false (BitVec.ofNat 32 v) (BitVec.ofNat 32 m) (mine.any (fun k => bad.getD k false))) s

/-- Registers of a warp-view range. -/
def viewRange (off n : Nat) : List Nat := if n = 0 then [] else (List.range ((off + n - 1) / 512 - off / 512 + 1)).map (fun k => off / 512 + k)

/-- An engine stops at a violation: it is logged with ENG and the operation completes with ERR (R39, R41). -/
def State.engViol (s : State) (o : EngOp) (sp : Space) (c : VClass) (acc : Acc) (addr : Int) : EngOp × State :=
  ({ o with err := true }, s.logViol o.who (spaceCode sp) c acc 0 true (BitVec.ofNat 64 (low64 addr)) o.pc)

/-! ### TWAIT (R340, R341) -/

def tokenAlign (addr : Nat) : Option (Cause × Info) := if addr % 16 = 0 then none else some (.align, .same addr)

def twaitAlign (sa : SOp) (is : Issue) (s : State) : Option (Cause × Info) := tokenAlign (is.sv s sa).toNat

def twaitBody (sd : Fin 96) (sa : SOp) (tsp : Bool) (is : Issue) (s : State) : Act :=
  .park (s.beginWait is (.twait sd (is.sv s sa).toNat tsp))

def execTwait (sd : Fin 96) (sa : SOp) (tsp : Bool) (s : State) : Host.Outcome State Fault Refusal :=
  runWordWith (.twait sd sa tsp) noCheck (twaitAlign sa) (twaitBody sd sa tsp) s

/-- A waiting path traps at its word. -/
def State.waitTrap (s : State) (who lane : Nat) (c : Cause) (info : Info) : State :=
  match (s.warp who).pathAt lane with
  | none => s
  | some p =>
    let (w, x) := s.wordsAt who p
    let s1 := s.modCtl who (fun k => { k with waits := k.waits.filter (fun y => y.lane != lane) })
    s1.takeTrap who lane { cause := c, info := info, issue := p.mask, resume := p.pc, pc := p.pc, iword := w, xword := x }

/-- The operand code of a scalar (R245), for INFO. -/
def sopOfWord (w : W32) : Nat := bitsOf w 10 7

/-- An earlier own command's step 1 on a token in this line is still to be made, by whatever mapping it names it, or is not known to be
elsewhere while its page is serviced (R100). -/
def State.tokPending (s : State) (who before : Nat) (key : Option (Nat × Nat)) : Bool :=
  (mvals s.eops).any (fun e => e.who == who && e.phase == 0 && decide (e.id < before) && (match e.tok with
    | none => false
    | some (addr, sp) =>
      match (s.locAt e.wg e.ctx sp addr .atomic e.core e.who e.id).1 with
      | .viol _ _ => false
      | .wait => true
      | t => (tokKey t).any key.toList.contains))

/-- One read of the token by a waiting path. -/
def State.twaitRead (s : State) (who : Nat) (x : Waiting) (sd : Fin 96) (addr : Nat) (sp : Bool) : State :=
  match (s.warp who).pathAt x.lane with
  | none => s
  | some p =>
    let ctx := (s.warp who).ctx
    let page := s.tokPage (s.warp who).wg ctx addr sp
    match s.locAt (s.warp who).wg ctx (sp && !isStream who) addr .load (coreOf who) who twaitTag with
    | (.wait, t) => t
    | (.viol c spc, t) => t.whenEntry who (fun u =>
      ((u.dropAsks who twaitTag).logViol who spc c .load (lowLane p.mask) false (BitVec.ofNat 64 addr) p.pc).waitTrap who x.lane
        .tokv (.same addr))
    | (.at_ l, t) =>
      let u := t.locTouch l 16 (reqOf who false ctx p.pc)
      if t.tokPending who x.before (tokKey (.at_ l)) || t.readWaits who x.before (tokKey (.at_ l)) page then t
      else if u.locPoison l 16 then
        u.whenEntry who (fun u => (u.dropAsks who twaitTag).waitTrap who x.lane .poison (.same (sopOfWord (u.wordsAt who p).1)))
      else
        let v := leWord 128 (u.locRead l 16)
        let wide := decide (3 ≤ bitsOf v 88 3)
        if bitsOf v 0 32 != 0 || (wide && !u.mayAcquire who) then u
        else
          let u1 := (u.dropAsks who twaitTag).modWarp who (fun w => w.setS sd.val (v.extractLsb' 64 64))
          (if wide then u1.acquireL1 who else u1).endWait who x.lane 1

/-- A `sp:` token of a stream: it has no scratchpad. -/
def State.twaitStep (s : State) (who : Nat) (x : Waiting) : State :=
  match x.kind with
  | .twait sd addr sp =>
    if sp && isStream who then
      (match (s.warp who).pathAt x.lane with
       | none => s
       | some p => (s.logViol who 1 .sprange .load (lowLane p.mask) false (BitVec.ofNat 64 addr) p.pc).waitTrap who x.lane .tokv (.same addr))
    else s.twaitRead who x sd addr sp
  | _ => s

/-- Lanes of a handler wait on their own account; paths frozen behind it do not poll, nor does a warp stalled in RGROW (R56). -/
def State.pollable (s : State) (who : Nat) : List Waiting :=
  if (s.ctl who).rgrowWait.isSome then [] else (s.ctl who).waits.filter (fun x => ((s.warp who).pathAt x.lane).isSome)

def execTwaitPoll (who : Nat) (s : State) : Host.Outcome State Fault Refusal :=
  .next ((s.pollable who).foldl (fun t x => t.twaitStep who x) s)

end Sys2Proof.Machine
end

