-- ==== Sys2Proof/Machine/Upsets.lean ====
section
/-! DEFINITION. Soft errors (R86, R89, R98, R160, R461, R465): what the codes over the L1s, the L2, the stacks and the core stores
do with an upset that the coming step detects. Which upsets there are is an input (log entry 24). -/

namespace Sys2Proof.Machine

/-- Sectors newly marked poisoned by an error of `kind`, logged once at `pa`; marked ones stay as they are (R461). -/
def State.eccError (s : State) (kind pa : Nat) (secs : List Nat) (by_ : Requester) : State :=
  if secs.all (fun k => mhas s.mem.poison k) then s
  else (s.physMark secs).postErr (errCluster by_ pa (kind == 1)) kind 0 (BitVec.ofNat 64 pa) by_ 0

/-- The four sectors of a line. -/
def lineSecs (line : Nat) : List Nat := (List.range 4).map (fun j => 4 * line + j)

/-- An error in an L2 sector, or in a sector of a stack, at `pa` (R89, R98). -/
def State.memUpset (s : State) (kind pa : Nat) (secs : List Nat) (side : Bool) (u : Upset) : State :=
  if u.single then s.correct (errCluster u.by_ pa (kind == 1))
  else
    let t := s.eccError kind pa secs u.by_
    if side then t.sideMark (pa / 128) true else t

/-- ADDR of a core-store error: the granule and the byte in it (R461). -/
def granuleAddr (g off : Nat) : W64 := BitVec.ofNat 64 (g * 0x10000 + off)

/-- A core-store error: counted, or logged after `mark` has poisoned what it reaches (R461, R465). -/
def State.coreStoreUpset (s : State) (core : Nat) (addr : W64) (mark : State → State) (u : Upset) : State :=
  if u.single then s.correct (core / 8) else (mark s).postErr (core / 8) 4 0 addr u.by_ 0

/-- ADDR of a register lane: register granule 8 group + j, one row of 512 bytes for each block; a row of the reserve array lies in
no granule, and its ADDR is an open value (log entry 24). -/
def State.regAddr (s : State) (core : Nat) (b : Block) (j lane : Nat) : W64 × State :=
  if b.group < s.groups core then (granuleAddr (8 * b.group + j) (512 * b.row + 4 * lane), s) else s.freeWord

def State.detectAt (s : State) (u : Upset) : State :=
  match u.place with
  | .l1 core line =>
    if mhas (s.core core).l1 line then (s.modCore core (fun c => { c with l1 := mdel c.l1 line })).correct (core / 8) else s
  | .l2 sec => if s.mem.inL2 sec then s.memUpset 1 (32 * sec) [sec] false u else s
  | .l2Side line => if mhas s.mem.present line then s.memUpset 1 (128 * line) (lineSecs line) true u else s
  | .hbm sec => if isDev (32 * sec) && !s.mem.inL2 sec then s.memUpset 2 (32 * sec) [sec] false u else s
  | .hbmSide line =>
    if isDev (128 * line) && !mhas s.mem.present line then s.memUpset 2 (128 * line) (lineSecs line) true u else s
  | .metadata frame =>
    if !isDev (4096 * frame) then s
    else if u.single then s.correct (errCluster u.by_ (4096 * frame) false)
    else s.setFrame frame { mgetD s.mem.frames frame {} with damaged := fullMask }
  | .reg who r lane =>
    match mget (s.warp who).blocks (r / 8) with
    | none => s
    | some b =>
      if isStream who || b.absent || decide (128 ≤ lane) then s
      else
        let (a, s1) := s.regAddr (coreOf who) b (r % 8) lane
        s1.coreStoreUpset (coreOf who) a (fun t => t.modWarp who (fun w => w.setBlock (r / 8)
          { b with cells := mset b.cells (128 * (r % 8) + lane) { mgetD b.cells (128 * (r % 8) + lane) {} with poison := true } })) u
  | .sp wg off =>
    match mget s.wgs wg with
    | none => s
    | some g =>
      if g.spRes off = .granule then s.coreStoreUpset g.core (granuleAddr (bitsOf (g.entry off) 0 6) (off % 65536)) (fun t => t.locMark (.sp wg off) 1) u else s
  | .ac wg off =>
    match (mget s.wgs wg).bind (fun g => (g.accg[off / 65536]?).map (fun n => (g.core, n))) with
    | none => s
    | some (core, n) => s.coreStoreUpset core (granuleAddr n (off % 65536)) (fun t => t.locMark (.ac wg off) 1) u

/-- The upsets that the coming step detects, one by one. -/
def State.detect (s : State) : State :=
  s.upsets.foldl (fun t u => t.detectAt u) { s with upsets := [] }

end Sys2Proof.Machine
end

