-- ==== Sys2Proof/Machine/Copy.lean ====
section
/-! DEFINITION. The copy engine (12 R344 to R350) and bulk prefetch (03 R102, R103; 12 R342). -/

namespace Sys2Proof.Machine

/-! ### Engine accesses in groups: a chunk is resolved whole before any of it is performed (R39, R350) -/

def ELoc.add (l : ELoc) (n : Nat) : ELoc :=
  match l with
  | .mem l => .mem (l.add n)
  | .reg o => .reg (o + n)

/-- What resolving a set of 128-byte units came to. -/
structure Resolved where
  locs : List (Int × ELoc) := []
  viols : List (VClass × Int) := []
  wait : Bool := false

/-- A unit of host memory has no side band: MX access to it is forbidden (R91). -/
def State.mxDenied (s : State) (l : ELoc) : Bool :=
  match l with
  | .mem (.phys pa) => isHostPa (s.normPa pa)
  | _ => false

/-- A 128-byte unit that accesses touch: its base, and the lowest and the last but one address of them in it. -/
structure EUnit where
  base : Int
  lo : Int
  hi : Int

/-- The part of one access, `n` bytes at `e`, that lies in the unit at b. -/
def unitPart (b e : Int) (n : Nat) : EUnit := ⟨b, max b e, min (b + 128) (e + n)⟩

/-- The unit at b of a set of accesses that touch it. -/
def EUnit.join (b : Int) : List EUnit → EUnit
  | [] => ⟨b, b, b + 1⟩
  | u :: us => us.foldl (fun v w => ⟨b, min v.lo w.lo, max v.hi w.hi⟩) u

/-- Resolve units in ascending order. -/
def State.resolveUnits (s : State) (o : EngOp) (space : Space) (acc : Acc) (mx : Bool) : List EUnit → Resolved × State
  | [] => ({}, s)
  | ⟨base, ea, hi⟩ :: us =>
    let (a, s1) := s.engAt o space base (hi - ea).toNat acc (ea - base).toNat
    let (r, s2) := s1.resolveUnits o space acc mx us
    match a with
    | .wait => ({ r with wait := true }, s2)
    | .viol c => ({ r with viols := (c, ea) :: r.viols }, s2)
    | .at_ l =>
      if mx && s1.mxDenied l then ({ r with viols := (.prot, ea) :: r.viols }, s2)
      else ({ r with locs := (base, l) :: r.locs }, s2)

/-- The units that accesses of `n` bytes touch. -/
def unitsOf (n : Nat) (eas : List Int) : List EUnit :=
  let bases : List Int := sortBy (fun (a b : Int) => decide (a < b))
    ((eas.flatMap (fun (e : Int) => if n = 0 then ([] : List Int) else [e / 128 * 128, (e + (n : Int) - 1) / 128 * 128])).eraseDups)
  bases.map (fun b => .join b ((eas.filter (fun e => decide (e < b + 128) && decide (b < e + n))).map (fun e => unitPart b e n)))

/-- The place of an address whose unit has been resolved. -/
def Resolved.place (r : Resolved) (ea : Int) : Option ELoc :=
  (r.locs.find? (fun e => e.1 == ea / 128 * 128)).map (fun e => e.2.add (ea % 128).toNat)

/-- Stop at the violation of a chunk: at the lowest address; where both sides violate, which is logged is open. -/
def State.stopAt (s : State) (o : EngOp) (vs : List (Space × Acc × VClass × Int)) : EngOp × State :=
  let (k, s1) := s.pick vs.length
  match vs[k]? with
  | some (space, acc, c, ea) => s1.engViol o space c acc ea
  | none => (o, s1)

def lowestViol (space : Space) (acc : Acc) (r : Resolved) : List (Space × Acc × VClass × Int) :=
  match r.viols with
  | [] => []
  | (c, ea) :: _ => [(space, acc, c, ea)]

/-- Registers of the warp view that a set of locations reaches. -/
def regsOfLocs (ls : List (Int × ELoc)) : List Nat :=
  (ls.filterMap (fun e => match e.2 with
    | .reg o => some (o / 512)
    | _ => none)).eraseDups

/-- The registers can be reached: blocks present and images ready (R36). -/
def State.viewReady (s : State) (who : Nat) (regs : List Nat) : Bool × State :=
  let absent := s.longAbsent who false regs
  if !absent.isEmpty then (false, s.wantBlocks who absent) else s.longReady who false regs

/-! ### The plan of a COPY (R345) -/

structure CopyPlan where
  nr : Nat
  nc : Nat
  src : Int
  dst : Int
  sstr : Int
  dstr : Int
  sid : W32
  shift : Int
  sf : NFC
  df : NFC
  rm : RM
  idx0 : W64
  suma : Nat
  seed : W128
  x : CopyArgs

def mxOfNfc : NFC → Option MxFmt
  | .e4m3 => some .e4m3 | .e5m2 => some .e5m2 | .e3m2 => some .e3m2 | .e2m3 => some .e2m3 | .e2m1 => some .e2m1
  | .mxi8 => some .mxi8
  | _ => none

/-- Bytes of a plain element; none for the four formats that have no plain form (R345). -/
def plainBytes : NFC → Option Nat
  | .f64 => some 8 | .f32 => some 4 | .bf16 | .f16 => some 2
  | .e3m2 | .e2m3 | .e2m1 | .mxi8 => none
  | _ => some 1

def CopyPlan.isRaw (p : CopyPlan) : Bool := p.x.xf == .raw
def CopyPlan.ndr (p : CopyPlan) : Nat := if p.x.tr then p.nc else p.nr
def CopyPlan.ndc (p : CopyPlan) : Nat := if p.x.tr then p.nr else p.nc
def CopyPlan.ssz (p : CopyPlan) : Nat := if p.isRaw then 1 else (plainBytes p.sf).getD 1
def CopyPlan.dsz (p : CopyPlan) : Nat := if p.isRaw then 1 else (plainBytes p.df).getD 1
def CopyPlan.smf (p : CopyPlan) : MxFmt := (mxOfNfc p.sf).getD .e4m3
def CopyPlan.dmf (p : CopyPlan) : MxFmt := (mxOfNfc p.df).getD .e4m3

/-- The plan of a descriptor, or none where a field names nothing (R346, OPRANGE). -/
def copyPlan (x : CopyArgs) (vals : List W64) : Option CopyPlan :=
  let v := fun i => vals.getD i 0
  let raw := x.xf == .raw
  let fmts := match NFC.ofCode ((v 5).extractLsb' 18 6), NFC.ofCode ((v 5).extractLsb' 12 6), RM.ofCode ((v 5).extractLsb' 9 3) with
    | .ok sf, .ok df, .ok rm => some (sf, df, rm)
    | _, _, _ => if raw then some (.f32, .f32, .rne) else none
  fmts.map fun (sf, df, rm) =>
    { nr := bitsOf (v 2) 32 16 + 1, nc := bitsOf (v 2) 0 32, src := ((v 0).toNat : Int), dst := ((v 1).toNat : Int)
      sstr := (v 3).toInt, dstr := (v 4).toInt, sid := (v 5).extractLsb' 32 32, shift := ((v 5).extractLsb' 24 8).toInt
      sf := sf, df := df, rm := rm, idx0 := v 6, suma := (v 7).toNat, seed := v 9 ++ v 8, x := x }

def sideOk (mx : Bool) (f : NFC) (space : Space) (n : Nat) : Bool :=
  if mx then (mxOfNfc f).isSome && space != .rw && space != .ac && n % 32 == 0 else (plainBytes f).isSome

/-- R346, OPRANGE. -/
def CopyPlan.inRange (p : CopyPlan) (vals : List W64) : Bool :=
  bitsOf (vals.getD 2 0) 48 16 == 0 && bitsOf (vals.getD 5 0) 0 9 == 0 &&
  (if p.isRaw then decide (p.nc ≤ 2 ^ 28)
   else decide (p.nc ≤ 2 ^ 24) && sideOk p.x.smx p.sf p.x.ssp p.nc && sideOk p.x.dmx p.df p.x.dsp p.ndc) &&
  (!p.x.sums || decide (p.suma + 4 * (p.ndr + p.ndc) ≤ 2 ^ 21))

/-- R346, ALIGN: the first address that is not aligned as the command needs it. -/
def CopyPlan.misaligned (p : CopyPlan) (tok : Option Nat) : Option Nat :=
  let sa : Int := if p.x.smx then 128 else (p.ssz : Int)
  let da : Int := if p.x.dmx then 128 else (p.dsz : Int)
  if p.src % sa != 0 || p.sstr % sa != 0 then some (low64 p.src)
  else if p.dst % da != 0 || p.dstr % da != 0 then some (low64 p.dst)
  else match tok with
    | some t => if t % 16 != 0 then some t else if p.x.sums && p.suma % 4 != 0 then some p.suma else none
    | none => if p.x.sums && p.suma % 4 != 0 then some p.suma else none

/-- A row of the warp view that leaves the window (R34): the register it reaches there. -/
def rowBound (regs : Nat) (a : Int) (n : Nat) : Option Nat :=
  if n = 0 then none
  else if a < 0 then some (low64 a / 512)
  else if 512 * regs < a.toNat + n then some ((a.toNat + n - 1) / 512)
  else none

def CopyPlan.bound (p : CopyPlan) (regs : Nat) : Option Nat :=
  let rows := fun (base str : Int) (cnt bytes : Nat) => (List.range cnt).findSome? (fun (i : Nat) => rowBound regs (base + i * str) bytes)
  let s := if p.x.ssp == .rw then rows p.src p.sstr p.nr (p.nc * p.ssz) else none
  match s with
  | some r => some r
  | none => if p.x.dsp == .rw && p.nc != 0 then rows p.dst p.dstr p.ndr (p.ndc * p.dsz) else none

/-- Registers of a warp-view destination. -/
def CopyPlan.dstRegs (p : CopyPlan) : List Nat :=
  if p.x.dsp == .rw && p.nc != 0 then
    ((List.range p.ndr).flatMap (fun (i : Nat) => viewRange (p.dst + i * p.dstr).toNat (p.ndc * p.dsz))).eraseDups
  else []

def copyVals (x : CopyArgs) (is : Issue) (s : State) : List W64 :=
  let seed := s.seedOf is.who
  (List.range 8).map (fun i => is.w.sreg (x.sa.val + i)) ++ [seed.extractLsb' 0 64, seed.extractLsb' 64 64]

/-- The token an operand names: none for ZERO. -/
def tokOf (is : Issue) (s : State) (o : SOp) : Option Nat :=
  match o with
  | .special _ => none
  | .reg _ => some (is.sv s o).toNat

def copyBody (x : CopyArgs) (is : Issue) (s : State) : Act :=
  let vals := copyVals x is s
  let tok := tokOf is s x.sb
  match copyPlan x vals with
  | none => .trap .oprange (.same 0)
  | some p =>
    if !p.inRange vals then .trap .oprange (.same 0)
    else match p.misaligned tok with
      | some a => .trap .align (.same a)
      | none =>
        match p.bound (s.viewRegs is.who) with
        | some r => .trap .bound (.same r)
        | none =>
          if is.flag.isNone && (tok.isNone || x.dsp == .rw) then .trap .noflag (.same 0)
          else
            let (o, s1) := s.fork is vals (tok.map (fun t => (t, x.tsp))) x.rel
            let o1 := { o with dst := [(0, p.dstRegs)], nums := [0, 0], ready := if p.nc = 0 then 1 else 0 }
            let s2 := s1.tokStart o1
            .next (if p.nc = 0 then s2 else s2.modCore o1.core (fun c => { c with pieces := c.pieces ++ [o1.id] }))

def execCopy (x : CopyArgs) (s : State) : Host.Outcome State Fault Refusal := runWord (.copy x) (copyBody x) s

/-! ### One chunk: the part of a destination row that lies in one line (R350) -/

structure CopyChunk where
  row : Nat
  /-- Plain: byte offset in the row. MX: first block. -/
  pos : Nat
  /-- Plain: bytes. MX: blocks. -/
  n : Nat
  ea : Int

def CopyPlan.rowLen (p : CopyPlan) : Nat := if p.x.dmx then p.ndc / 32 else p.ndc * p.dsz

def CopyPlan.chunk (p : CopyPlan) (row pos : Nat) : CopyChunk :=
  let start := p.dst + row * p.dstr
  if p.x.dmx then
    let k := mxPerLine p.dmf
    ⟨row, pos, min (p.rowLen - pos) (k - pos % k), start + 128 * (pos / k : Nat)⟩
  else ⟨row, pos, min (p.rowLen - pos) (128 - ((start + pos) % 128).toNat), start + pos⟩

/-- Destination columns of a chunk. -/
def CopyPlan.cols (p : CopyPlan) (k : CopyChunk) : List Nat :=
  if p.x.dmx then (List.range (32 * k.n)).map (fun e => 32 * k.pos + e)
  else (List.range (k.n / p.dsz)).map (fun e => k.pos / p.dsz + e)

/-- The source address of a destination column; of its block for an MX source. -/
def CopyPlan.srcAt (p : CopyPlan) (row col : Nat) : Int :=
  let (r, c) := if p.x.tr then (col, row) else (row, col)
  p.src + r * p.sstr + (if p.x.smx then mxOffset p.smf (c / 32) else c * p.ssz : Nat)

/-- Source accesses of a chunk: addresses, and the bytes of each. -/
def CopyPlan.srcEas (p : CopyPlan) (k : CopyChunk) : List Int × Nat :=
  if p.isRaw then ([p.src + k.row * p.sstr + k.pos], k.n)
  else (((p.cols k).map (p.srcAt k.row)).eraseDups, if p.x.smx then mxBlockBytes p.smf else p.ssz)

/-- A side-band scale byte, and whether the line's side band is poisoned. -/
def State.scaleAt (s : State) (l : ELoc) (f : MxFmt) : Nat × Bool :=
  match l with
  | .mem m =>
    let off := match m with
      | .phys pa => pa % 128
      | .sp _ o => o % 128
      | .ac _ o => o % 128
    (bitsOf ((s.locSide m).getD 0) (8 * (off / mxBlockBytes f)) 8, s.locSidePoison m)
  | .reg _ => (0, false)

/-- One element read in its side's form: its value and poison. `e` is its number in its block. -/
def State.copyElem (s : State) (o : EngOp) (mx : Bool) (f : NFC) (l : Option ELoc) (e : Nat) : XVal × Bool :=
  match l with
  | none => (.nan, true)
  | some l =>
    if mx then
      let m := (mxOfNfc f).getD .e4m3
      let n := mxBlockBytes m
      let q := leNat (s.engRead o l n) / 2 ^ (mxBits m * e) % 2 ^ mxBits m
      let (sc, bad) := s.scaleAt l m
      (fmtF32.decode (dequantize (fmtOf f) q sc).1, bad || (s.engPoison o l n).any id)
    else
      let n := (plainBytes f).getD 1
      ((fmtOf f).decode (leNat (s.engRead o l n)), (s.engPoison o l n).any id)

/-- MIN and MAX of exact values under R302. -/
def XVal.pickMm (mx : Bool) (a b : XVal) : XVal :=
  match a.cmp b with
  | none => if a == .nan then b else a
  | some .eq => match a, b with
    | .zero n, .zero m => .zero (if mx then n && m else n || m)
    | _, _ => a
  | some .lt => if mx then b else a
  | some .gt => if mx then a else b

/-- The value of a destination element before rounding, and its poison (R348). -/
def CopyPlan.value (p : CopyPlan) (s : State) (o : EngOp) (src dst : Resolved) (k : CopyChunk) (col : Nat) : XVal × Bool :=
  let c := if p.x.tr then k.row else col
  let (x0, b0) := s.copyElem o p.x.smx p.sf (src.place (p.srcAt k.row col)) (c % 32)
  let x := x0.scale p.shift
  if p.x.xf != .reduce then (x, b0)
  else
    let dea : Int := if p.x.dmx then p.dst + k.row * p.dstr + (mxOffset p.dmf (col / 32) : Nat)
      else p.dst + k.row * p.dstr + (col * p.dsz : Nat)
    let (v, b1) := s.copyElem o p.x.dmx p.df (dst.place dea) (col % 32)
    let y := match p.x.redop with
      | .add =>
        let z := (v.add x (p.rm == .rdn && !p.x.dmx)).1
        if p.x.dmx then fmtF32.decode (fmtF32.round z .rne {}).1 else z
      | .min => v.pickMm false x
      | .max => v.pickMm true x
    (y, b0 || b1)

def CopyPlan.draw (p : CopyPlan) (row col : Nat) : Draw :=
  let (r, c) := if p.x.tr then (col, row) else (row, col)
  ⟨p.seed, p.sid, p.idx0 + BitVec.ofNat 64 (r * p.nc + c)⟩

/-- An engine's MX block: at its point and in the issuing core's L1 (R95, R150). -/
def State.engBlock (s : State) (o : EngOp) (f : MxFmt) (l : Loc) (off : Nat) (codes : List Nat) (scale : Nat) (bad : Bool) : State :=
  let t := s.writeBlock f l off codes scale (reqOf o.who true o.ctx o.pc)
  let t1 := match l with
    | .phys pa =>
      let q := t.normPa pa
      let u := t.l1StoreAll o.core (q + off) (t.physRead (q + off) (mxBlockBytes f))
      let u1 := if mxPerLine f = 5 then u.l1StoreAll o.core (q + 120) (u.physRead (q + 120) 8) else u
      if t.linkFails pa 128 then t else u1.l1StoreSide o.core (q / 128) (fun sb => putScale f sb off scale)
    | _ => t
  if bad then (t1.locMark (l.add off) (mxBlockBytes f)).dropPoisoned o.core (l.add off) (mxBlockBytes f) else t1

/-- Add one value to a running sum; bit 40 marks poison. -/
def addSum (m : SMap Nat) (k w : Nat) (bad : Bool) : SMap Nat :=
  match mget m k with
  | none => mset m k (w + if bad then 2 ^ 40 else 0)
  | some a =>
    let r := (fmtF32.fadd .rne {} (a % 2 ^ 32) w).1
    mset m k (r + if bad || decide (2 ^ 40 ≤ a) then 2 ^ 40 else 0)

/-- Take the values written to a row's columns into the sums (R349). -/
def takeSums (o : EngOp) (row : Nat) (ws : List (Nat × Nat × Bool)) : EngOp :=
  { o with res := ws.foldl (fun m e => addSum (addSum m row e.2.1 e.2.2) (2 ^ 30 + e.1) e.2.1 e.2.2) o.res }

/-- Perform a CONVERT or REDUCE chunk: encode, write, and take the sums. -/
def CopyPlan.perform (p : CopyPlan) (s : State) (o : EngOp) (src dst : Resolved) (k : CopyChunk) : EngOp × State :=
  let vs := (p.cols k).map (fun c => (c, p.value s o src dst k c))
  let dmg := vs.any (fun e => e.2.2)
  let f := fmtOf p.df
  if p.x.dmx then
    let blocks := (List.range k.n).map (fun b =>
      let es := (vs.drop (32 * b)).take 32
      let (codes, sc, _) := quantizeBlock (es.map (fun e => e.2.1)) f p.rm (fun e => p.draw k.row (32 * (k.pos + b) + e))
      (mxBlockBytes p.dmf * ((k.pos + b) % mxPerLine p.dmf), codes, sc, es.any (fun e => e.2.2), 32 * (k.pos + b)))
    let s1 := match dst.place k.ea with
      | some (.mem l) => blocks.foldl (fun t b => t.engBlock o p.dmf l b.1 b.2.1 b.2.2.1 b.2.2.2.1) s
      | _ => s
    let ws := blocks.flatMap (fun b => b.2.1.zipIdx.map (fun q => (b.2.2.2.2 + q.2, (dequantize f q.1 b.2.2.1).1, b.2.2.2.1)))
    (if p.x.sums then takeSums { o with dmg := o.dmg || dmg } k.row ws else { o with dmg := o.dmg || dmg }, s1)
  else
    let codes := vs.map (fun e => (e.1, (f.round e.2.1 p.rm (p.draw k.row e.1)).1, e.2.2))
    let bs := codes.flatMap (fun e => toLe p.dsz e.2.1)
    let bad := codes.flatMap (fun e => List.replicate p.dsz e.2.2)
    let s1 := match dst.place k.ea with
      | some l => s.engStore o l bs bad
      | none => s
    let ws := codes.map (fun e => (e.1, (fmtF32.round (f.decode e.2.1) .rne {}).1, e.2.2))
    (if p.x.sums then takeSums { o with dmg := o.dmg || dmg } k.row ws else { o with dmg := o.dmg || dmg }, s1)

/-- Write a line's side band, and what the issuing core's L1 holds of it (R142, R150). -/
def State.putSide (s : State) (o : EngOp) (l : Loc) (v : W64) (bad : Bool) : State :=
  let t := (s.locSetSide l v).locSideMark l bad
  match l with
  | .phys pa =>
    if s.linkFails pa 1 then t
    else if bad then t.dropPoisonedSide o.core l
    else t.l1StoreSide o.core (t.normPa pa / 128) (fun _ => v)
  | _ => t

/-- The side band goes with whole aligned lines between spaces that have one (R347). -/
def State.copySide (s : State) (o : EngOp) (src dst : Option ELoc) : State :=
  match src, dst with
  | some (.mem a), some (.mem b) =>
    (match s.locSide a, s.locSide b with
     | some v, some _ => s.putSide o b v (s.locSidePoison a)
     | _, _ => s)
  | _, _ => s

/-- A line's side band that goes with it is poisoned (R89). -/
def State.sideComes (s : State) (src dst : Option ELoc) : Bool :=
  match src, dst with
  | some (.mem x), some (.mem y) => (s.locSide x).isSome && s.locSidePoison x && (s.locSide y).isSome
  | _, _ => false

/-- Perform a RAW chunk. -/
def CopyPlan.performRaw (p : CopyPlan) (s : State) (o : EngOp) (src dst : Resolved) (k : CopyChunk) : EngOp × State :=
  let a := p.src + k.row * p.sstr + k.pos
  let cut := min k.n (128 - (a % 128).toNat)
  let get := fun (ea : Int) (n : Nat) => match src.place ea with
    | some l => (s.engRead o l n, s.engPoison o l n)
    | none => (List.replicate n 0, List.replicate n true)
  let (b1, q1) := get a cut
  let (b2, q2) := if cut < k.n then get (a + cut) (k.n - cut) else ([], [])
  let bad := q1 ++ q2
  let s1 := match dst.place k.ea with
    | some l => s.engStore o l (b1 ++ b2) bad
    | none => s
  let whole := p.nc % 128 == 0 && (p.src + k.row * p.sstr) % 128 == 0 && (p.dst + k.row * p.dstr) % 128 == 0
  let sideBad := whole && s.sideComes (src.place a) (dst.place k.ea)
  ({ o with dmg := o.dmg || bad.any id || sideBad }, if whole then s1.copySide o (src.place a) (dst.place k.ea) else s1)

/-- The copy stops running: its chunks are done, or it met a violation. -/
def State.pieceDone (s : State) (o : EngOp) : State :=
  (s.setEop { o with ready := 1 }).modCore o.core (fun c => { c with running := if c.running == some o.id then none else c.running })

/-- Run the next chunk of a copy; it stays where a page is being serviced or a register block is absent. -/
def State.copyChunk (s : State) (o : EngOp) : State :=
  match o.instr with
  | .copy x =>
    (match copyPlan x o.vals with
     | none => s
     | some p =>
       let k := p.chunk (o.nums.getD 0 0) (o.nums.getD 1 0)
       let (eas, n) := p.srcEas k
       let (src, s1) := s.resolveUnits o x.ssp .engRead x.smx (unitsOf n eas)
       let dn := if x.dmx then 128 else k.n
       let (old, s2) := if x.xf == .reduce then s1.resolveUnits o x.dsp .engRead x.dmx (unitsOf dn [k.ea]) else ({}, s1)
       let (dst, s3) := s2.resolveUnits o x.dsp .engWrite x.dmx (unitsOf dn [k.ea])
       if src.wait || old.wait || dst.wait then s3
       else
         let vs := lowestViol x.ssp .engRead src ++ lowestViol x.dsp .engRead old ++ lowestViol x.dsp .engWrite dst
         if !vs.isEmpty then
           let (o1, s4) := s3.stopAt o vs
           s4.pieceDone o1
         else
           match s3.viewReady o.who (regsOfLocs (src.locs ++ dst.locs)) with
           | (false, t) => t
           | (true, t0) =>
             let t := (src.locs ++ old.locs).foldl (fun u e => u.engTouch o e.2 128) t0
             let (o1, t1) := if p.isRaw then p.performRaw t o src dst k else p.perform t o src dst k
             let pos := k.pos + k.n
             let (row, pos) := if p.rowLen ≤ pos then (k.row + 1, 0) else (k.row, pos)
             let o2 := { o1 with nums := [row, pos] }
             if p.ndr ≤ row then t1.pieceDone o2 else t1.setEop o2)
  | _ => s

/-! ### COPY_COMPLETE (R349, R350) -/

/-- The sums in their order: rows, then columns. -/
def CopyPlan.sumWords (p : CopyPlan) (o : EngOp) : List Nat :=
  (List.range p.ndr).map (fun i => mgetD o.res i 0) ++ (List.range p.ndc).map (fun j => mgetD o.res (2 ^ 30 + j) 0)

/-- Write the sums: done, or waiting. A violation writes none of them. -/
def State.writeSums (s : State) (o : EngOp) (p : CopyPlan) : Option EngOp × State :=
  let ws := p.sumWords o
  let n := 4 * ws.length
  let all := (List.range ((p.suma + n - 1) / 128 - p.suma / 128 + 1)).map (fun i => ((128 * (p.suma / 128 + i) : Nat) : Int))
  let (r, s1) := s.resolveUnits o .sp .engWrite false (all.map (fun b => unitPart b p.suma n))
  if r.wait then (none, s1)
  else if !r.viols.isEmpty then
    let (o1, s2) := s1.stopAt o (lowestViol .sp .engWrite r)
    (some o1, s2)
  else
    (some { o with dmg := o.dmg || ws.any (fun w => decide (2 ^ 40 ≤ w)) },
     ws.zipIdx.foldl (fun t e =>
       match r.place ((p.suma + 4 * e.2 : Nat) : Int) with
       | some l => t.engStore o l (toLe 4 e.1) (List.replicate 4 (decide (2 ^ 40 ≤ e.1)))
       | none => t) s1)

def State.copyEnd (s : State) (o : EngOp) : State :=
  match o.instr with
  | .copy x =>
    if o.ready != 1 || o.phase != 1 then s
    else if !x.sums || o.err || o.pos == 1 then s.endEng o
    else match copyPlan x o.vals with
      | none => s
      | some p =>
        if p.nc = 0 then s.endEng o
        else match s.writeSums o p with
          | (none, t) => t
          | (some o1, t) => t.endEng { o1 with pos := 1 }
  | _ => s

def execCopyComplete (op : Nat) (s : State) : Host.Outcome State Fault Refusal :=
  match mget s.eops op with
  | none => .next s
  | some o => .next (s.copyEnd o)

/-! ### PREFETCH.L2 (R102, R103, R342) -/

def prefetchAlign (stok : Fin 96) (is : Issue) (_ : State) : Option (Cause × Info) := tokenAlign (is.w.sreg stok.val).toNat

def prefetchBody (sa sb : SOp) (stok : Fin 96) (tsp : Bool) (is : Issue) (s : State) : Act :=
  let n := (is.sv s sb).toNat
  if 0x10000000 < n then .trap .oprange (.same 0)
  else
    let (o, s1) := s.fork is [is.sv s sa, is.sv s sb] (some ((is.w.sreg stok.val).toNat, tsp)) false
    .next (s1.tokStart o)

def execPrefetchL2 (sa sb : SOp) (stok : Fin 96) (tsp : Bool) (s : State) : Host.Outcome State Fault Refusal :=
  runWordWith (.prefetchL2 sa sb stok tsp) noCheck (prefetchAlign stok) (prefetchBody sa sb stok tsp) s

/-- Install one line; one whose read meets an error or damage is not installed: its sectors stay marked, and those that the L2 did
not hold stay out of it. -/
def State.installLine (s : State) (o : EngOp) (line : Nat) : Bool × State :=
  let t := s.touchLine line (reqOf o.who true o.ctx o.pc)
  if (lineSecs line).any (fun k => mhas t.mem.poison k && !s.mem.inL2 k) then
    (true, { t with mem := { t.mem with present := match mget s.mem.present line with
      | some v => mset t.mem.present line v
      | none => mdel t.mem.present line } })
  else (false, t)

/-- Where the page that holds an address ends; an open one of the five sizes where no region gives it (R102, R108, log entry 16). -/
def State.pageEnd (s : State) (ctx va : Nat) : Nat :=
  let free := pageBits (Config.openPageSize ctx va % 5)
  let bits := if va < 2 ^ 57 then (s.region ctx va).elim free (fun r => pageBits r.pgsz) else free
  (va / 2 ^ bits + 1) * 2 ^ bits

/-- Prefetch the page at `o.pos` bytes from the base; false where its fault is being serviced. -/
def State.prefetchPage (s : State) (o : EngOp) : Bool × EngOp × State :=
  let va := (o.vals.getD 0 0).toNat + o.pos
  let stop := min (s.pageEnd o.ctx va) ((o.vals.getD 0 0).toNat + (o.vals.getD 1 0).toNat)
  let o1 := { o with pos := o.pos + (stop - va) }
  match s.ask o.ctx va .prefetch o.core o.who o.id va 0 (stop - va) with
  | (.wait, t) => (false, o, t)
  | (.viol c, t) => (true, { o1 with skip := o1.skip + 1 }, t.logViol o.who 0 c .prefetch 0 true (BitVec.ofNat 64 va) o.pc)
  | (.ok pa _, t) =>
    let q := t.normPa pa
    if t.isRemote q then (true, o1, t)
    else if t.linkFails pa (stop - va) then (true, o1, t)
    else
      let (dmg, u) := (linesOf q (stop - va)).foldl (fun (a : Bool × State) l =>
        let (b, v) := a.2.installLine o l
        (a.1 || b, v)) (false, t)
      (true, { o1 with dmg := o1.dmg || dmg }, u)

/-- Take the pages in turn, as far as they go. -/
def State.prefetchPages (s : State) (o : EngOp) : Nat → EngOp × State
  | 0 => (o, s)
  | n + 1 =>
    if (o.vals.getD 1 0).toNat ≤ o.pos then (o, s)
    else match s.prefetchPage o with
      | (false, o1, t) => (o1, t)
      | (true, o1, t) => t.prefetchPages o1 n

def State.prefetchStep (s : State) (o : EngOp) : State :=
  match o.instr with
  | .prefetchL2 _ _ _ _ =>
    if o.phase != 1 then s
    else
      let (o1, t) := s.prefetchPages o 65537
      if (o1.vals.getD 1 0).toNat ≤ o1.pos then t.endEng o1 else t.setEop o1
  | _ => s

def execPrefetchComplete (op : Nat) (s : State) : Host.Outcome State Fault Refusal :=
  match mget s.eops op with
  | none => .next s
  | some o => .next (s.prefetchStep o)

end Sys2Proof.Machine
end

