-- ==== Sys2Proof/Machine/Matrix.lean ====
section
/-! DEFINITION. The matrix unit (13 R351 to R372): quorum issue, operand maps, MMA with its integrity check, COMPRESS, ACCZ and
ACCMV, and the operations that the cluster's firmware emulates (R368, R450). -/

namespace Sys2Proof.Machine

/-! ### Operand maps (R356, R357) -/

structure OMap where
  spc : Nat
  addr : Nat
  rstr : Nat
  maddr : Nat
  mstr : Nat
  csum : Nat
  ok : Bool
  deriving DecidableEq, Repr

def omap (lo hi : W64) : OMap :=
  { spc := bitsOf lo 24 3, addr := bitsOf lo 0 24, rstr := bitsOf lo 32 22, maddr := bitsOf hi 24 24, mstr := bitsOf hi 48 16
    csum := bitsOf hi 0 24
    ok := bitsOf lo 54 10 == 0 && bitsOf lo 27 5 == 0 && (bitsOf lo 24 3 == 1 || bitsOf lo 24 3 == 2) }

def OMap.space (m : OMap) : Space := if m.spc = 2 then .cl else .sp

/-- R356, ALIGN: the first address field that is not aligned. A stride that is not stands for the address it belongs to, and the maps
are tested in their order (log entry 112). -/
def OMap.misaligned (m : OMap) (unit : Nat) (useM useC : Bool) : Option Nat :=
  if m.addr % unit != 0 || m.rstr % unit != 0 then some m.addr
  else if useM && (m.maddr % 4 != 0 || m.mstr % 4 != 0) then some m.maddr
  else if useC && m.csum % 4 != 0 then some m.csum
  else none

def OMap.row (m : OMap) (r : Nat) : Nat := m.addr + r * m.rstr
def OMap.metaRow (m : OMap) (r : Nat) : Nat := m.maddr + r * m.mstr

def firstSome (l : List (Option Nat)) : Option Nat := l.findSome? id

/-! ### Formats (R359) -/

inductive MFam where
  | half | int | small | other
  deriving DecidableEq, Repr

def mfam : NFC → MFam
  | .bf16 | .f16 => .half
  | .mxi8 => .int
  | .f32 | .f64 => .other
  | _ => .small

/-- Legal pairs and options. -/
def mmaLegal (x : MmaArgs) : Bool :=
  x.nsel.val != 3 && mfam x.fa == mfam x.fb && mfam x.fa != .other &&
  (!x.sp || [NFC.bf16, .f16, .mxi8, .e4m3, .e5m2, .e2m1].contains x.fa) &&
  !(x.chk && (x.sp || mfam x.fa == .int))

def blockN (f : NFC) : Nat := if mfam f == .half then 16 else 32

def depthK (fa fb : NFC) : Nat := if mfam fa == .half then 64 else if fa == .e2m1 && fb == .e2m1 then 256 else 128

def colsN (nsel : Fin 4) : Nat := 64 * 2 ^ nsel.val

/-- Bits of an element in a plain or kept row. -/
def elemBits (f : NFC) : Nat := (fmtOf f).width

/-- A binary8 variant that the unit does not run itself (R368). -/
def isEmulated : NFC → Bool
  | .b8x p => p.val != 2 && p.val != 3
  | .b8s _ | .b8z _ => true
  | _ => false

/-! ### Quorum issue (R216, R351) -/

def tileFits (s : State) (who T n : Nat) : Bool :=
  decide (T + n ≤ (s.wgOf who).elim 0 (fun g => 65536 * g.accg.length))

/-- Values a seat reads. -/
def quorumVals (i : Instr) (w : Warp) : List W64 :=
  let pair := fun (n : Fin 96) => [w.sreg n.val, w.sreg (n.val + 1)]
  match i with
  | .mma x => pair x.sa ++ pair x.sb
  | .compress sa sb _ => pair sa ++ pair sb
  | .accmvOut sa _ _ _ => pair sa
  | .accmvIn sa _ _ _ => pair sa
  | .attn x => (List.range 8).map (fun k => w.sreg (x.sa.val + k))
  | _ => []

def mapAt (vs : List W64) (k : Nat) : OMap := omap (vs.getD k 0) (vs.getD (k + 1) 0)

/-- A waiting group is complete: every seat has issued. -/
def State.quorumFull (s : State) (who : Nat) : Bool :=
  let ws := s.quorumOf who
  ws.length == s.qsize who && ws.all (fun w => (s.ctl w).quorumIssue.isSome)

def emulates : Instr → Bool
  | .mma x => isEmulated x.fa || isEmulated x.fb
  | _ => false

/-- Start the operation of a full group and let its seats go on. -/
def State.quorumStart (s : State) (ws : List Nat) : State :=
  let w0 := (ws.find? (fun w => s.qseat w == 0)).getD 0
  let c0 := s.ctl w0
  let (iw, _, vals, i) := c0.quorumIssue.getD (0, 0, [], .nop)
  let pc := ((s.warp w0).paths.head?).elim 0 Path.pc
  let (id, s1) := s.newId
  let flags := ws.filterMap (fun w => (s.ctl w).quorumFlag.map (fun f => (w, f)))
  let emul := emulates i
  let o : EngOp := {
    id := id, who := w0, core := coreOf w0, wg := (s.warp w0).wg, ctx := (s.warp w0).ctx, instr := i, pc := pc, iword := iw
    mask := fullMask, vals := vals, flags := flags, after := ws.flatMap (fun w => s.forkAfter w false), phase := 1, born := s.clock
    emul := emul, nums := [s.qsize w0], seats := ws.map (fun w => (s.warp w).num) }
  let s2 := flags.foldl (fun t f => t.incFlag f.1 (some f.2)) (s1.setEop o)
  let s3 := s2.modCore (coreOf w0) (fun c => { c with mtx := c.mtx ++ [id] })
  let s4 := if emul then s3.modCluster (clusterOf w0) (fun c => { c with emulQ := c.emulQ ++ [id] }) else s3
  ws.foldl (fun t w =>
    ((t.ctl w).waits.filter (fun x => isQuorum x.kind)).foldl (fun t x =>
      (t.modCtl w (fun c => { c with quorumIssue := none, quorumFlag := none })).endWait w x.lane 2) t) s4

/-- The comparison of the seats (R216), and the start; a full emulation queue makes the seats wait (R450). -/
def State.quorumCheck (s : State) (who : Nat) : State :=
  if !s.quorumFull who then s
  else
    let ws := s.quorumOf who
    let key := fun w => ((s.ctl w).quorumIssue).map (fun q => (q.1, q.2.1, q.2.2.1))
    if !(ws.all (fun w => key w == key who)) then s.mismatchSeats ws
    else
      let i := ((s.ctl who).quorumIssue.getD (0, 0, [], .nop)).2.2.2
      if emulates i && decide (16 ≤ (s.cluster (clusterOf who)).emulQ.length) then s else s.quorumStart ws

/-- A seat of the group has left it, or is leaving (R218). -/
def State.seatLeft (s : State) (who : Nat) : Bool :=
  let ws := s.quorumOf who
  decide (1 < s.qsize who) && (ws.length != s.qsize who || ws.any (fun w => (s.ctl w).arrived || !(s.ctl w).seated))

/-- NOQUORUM and PARTMASK, then the word's own checks; a seat that passes waits. One whose comparison failed traps, as does one
whose group is being left; one that its handler moved past its last quorum issue breaks the wait of the others (R216 to R218). -/
def quorumBody (own : Issue → State → List W64 → Option (Cause × Info)) (is : Issue) (s : State) : Act :=
  if (s.ctl is.who).mismatch.any is.path.getLsbD then .trap .qmismatch (.same 0)
  else if decide (1 < s.qsize is.who) && !(s.ctl is.who).seated then .trap .noquorum (.same 0)
  else if is.path != mdiff fullMask ((s.warp is.who).exited ||| (s.warp is.who).filed) then .trap .partmask (.same 0)
  else
    let vals := quorumVals is.i is.w
    match own is s vals with
    | some (c, info) => .trap c info
    | none =>
      if s.seatLeft is.who then .trap .qmismatch (.same 0)
      else
        let moved := (s.ctl is.who).qtrap.any Prod.snd
        let s1 := (s.beginWait is .quorum).modCtl is.who (fun c => {
          c with quorumIssue := some (is.iword, is.xword, vals, is.i), quorumFlag := is.flag, qtrap := none })
        .park ((if moved then s1.breakQuorum is.who else s1).quorumCheck is.who)

def resv : Option (Cause × Info) := some (.resvCombo, .same 0)
def oprange : Option (Cause × Info) := some (.oprange, .same 0)
def alignOf (a : Option Nat) : Option (Cause × Info) := a.map (fun v => (.align, .same v))

/-- Rows of a quorum's tile. -/
def quorumH (s : State) (who : Nat) : Nat := 64 * s.qsize who

def mmaChecks (x : MmaArgs) (is : Issue) (s : State) (vs : List W64) : Option (Cause × Info) :=
  let a := mapAt vs 0
  let b := mapAt vs 2
  if !mmaLegal x then resv
  else if !a.ok || !b.ok || !tileFits s is.who (1024 * x.toff.toNat) (4 * quorumH s is.who * colsN x.nsel) then oprange
  else alignOf (firstSome [a.misaligned 128 x.sp x.chk, b.misaligned 128 false x.chk])

def execMma (x : MmaArgs) (s : State) : Host.Outcome State Fault Refusal := runWord (.mma x) (quorumBody (mmaChecks x)) s

def compressChecks (f : NFC) (_ : Issue) (_ : State) (vs : List W64) : Option (Cause × Info) :=
  let a := mapAt vs 0
  let b := mapAt vs 2
  if !([NFC.bf16, .f16, .e4m3, .e5m2, .e2m1, .mxi8].contains f) then resv
  else if !a.ok || !b.ok then oprange
  else alignOf (firstSome [a.misaligned 128 false false, b.misaligned 128 true false])

def execCompress (sa sb : Fin 96) (f : NFC) (s : State) : Host.Outcome State Fault Refusal :=
  runWord (.compress sa sb f) (quorumBody (compressChecks f)) s

def acczChecks (toff : BitVec 11) (nsel : Fin 4) (is : Issue) (s : State) (_ : List W64) : Option (Cause × Info) :=
  if nsel.val = 3 then resv
  else if !tileFits s is.who (1024 * toff.toNat) (4 * quorumH s is.who * colsN nsel) then oprange
  else none

def execAccz (toff : BitVec 11) (nsel : Fin 4) (s : State) : Host.Outcome State Fault Refusal :=
  runWord (.accz toff nsel) (quorumBody (acczChecks toff nsel)) s

def accmvChecks (legal : Bool) (toff : BitVec 11) (nsel : Fin 4) (is : Issue) (s : State) (vs : List W64) : Option (Cause × Info) :=
  let m := mapAt vs 0
  if nsel.val = 3 || !legal then resv
  else if !m.ok || !tileFits s is.who (1024 * toff.toNat) (4 * quorumH s is.who * colsN nsel) then oprange
  else alignOf (m.misaligned 4 false false)

def execAccmvOut (sa : Fin 96) (toff : BitVec 11) (nsel : Fin 4) (df : NFC) (s : State) : Host.Outcome State Fault Refusal :=
  runWord (.accmvOut sa toff nsel df) (quorumBody (accmvChecks ([NFC.f32, .bf16, .f16].contains df) toff nsel)) s

def execAccmvIn (sa : Fin 96) (toff : BitVec 11) (nsel : Fin 4) (df : NFC) (s : State) : Host.Outcome State Fault Refusal :=
  runWord (.accmvIn sa toff nsel df) (quorumBody (accmvChecks (df == .f32) toff nsel)) s

/-! ### Reading operands -/

/-- Byte ranges of one operand: a space, ranges, and whether they are MX rows, whose side band is read. -/
structure Ranges where
  space : Space
  mx : Bool
  rs : List (Nat × Nat)

/-- What reading a set of ranges came to. -/
structure Operands where
  sets : List Resolved := []
  viols : List (Space × Acc × VClass × Int) := []
  poison : List (Int × Unit) := []
  wait : Bool := false

/-- The units of byte ranges. -/
def rangeUnits (rs : List (Nat × Nat)) : List EUnit :=
  let all : List (Nat × Nat × Nat) := rs.flatMap (fun r => if r.2 = 0 then [] else
    (List.range ((r.1 + r.2 - 1) / 128 - r.1 / 128 + 1)).map (fun i =>
      (128 * (r.1 / 128 + i), max r.1 (128 * (r.1 / 128 + i)), min (r.1 + r.2) (128 * (r.1 / 128 + i) + 128))))
  let bases : List Nat := sortBy (fun (a b : Nat) => decide (a < b)) ((all.map Prod.fst).eraseDups)
  bases.map (fun (b : Nat) => .join b ((all.filter (fun e => e.1 == b)).map (fun e => ⟨b, e.2.1, e.2.2⟩)))

/-- Poison met in the ranges of a resolved set: the lowest address of the first range that holds some. -/
def State.rangesPoison (s : State) (o : EngOp) (r : Resolved) (rg : Ranges) : Option Nat :=
  (rg.rs.find? (fun e => (r.locs.any (fun l =>
    let lo := max (e.1 : Int) l.1
    let hi := min ((e.1 + e.2 : Nat) : Int) (l.1 + 128)
    decide (lo < hi) && ((s.engPoison o (l.2.add (lo - l.1).toNat) (hi - lo).toNat).any id ||
      (rg.mx && (match l.2 with | .mem m => s.locSidePoison m | .reg _ => false))))))).map Prod.fst

/-- Resolve and bring in the operands. -/
def State.readOperands (s : State) (o : EngOp) : List Ranges → Operands × State
  | [] => ({}, s)
  | g :: gs =>
    let (r, s1) := s.resolveUnits o g.space .operand g.mx (rangeUnits g.rs)
    let s2 := if r.wait then s1 else r.locs.foldl (fun t l => t.engTouch o l.2 128) s1
    let (q, s3) := s2.readOperands o gs
    let p := s3.rangesPoison o r g
    ({ sets := r :: q.sets, viols := r.viols.map (fun v => (g.space, Acc.operand, v.1, v.2)) ++ q.viols
       poison := (p.elim [] (fun a => [((a : Int), ())])) ++ q.poison, wait := r.wait || q.wait }, s3)

/-- Bytes of a resolved range as a number; a range may cross units. -/
def State.rangeNat (s : State) (o : EngOp) (r : Resolved) (a n : Nat) : Nat :=
  let pieces := (List.range ((a + n + 127) / 128 - a / 128)).map (fun i =>
    let lo := max a (128 * (a / 128 + i))
    let hi := min (a + n) (128 * (a / 128 + i + 1))
    match r.place (lo : Int) with
    | some l => s.engRead o l (hi - lo)
    | none => List.replicate (hi - lo) 0)
  leNat pieces.flatten

/-- The scale byte of the MX block at an address. -/
def State.rangeScale (s : State) (r : Resolved) (a : Nat) (f : MxFmt) : Nat :=
  (r.place (a : Int)).elim 0 (fun l => (s.scaleAt l f).1)

/-- A row of codes in blocks, each with its scale. -/
abbrev MRow := List (List Nat × Nat)

def codesOf (w n v : Nat) : List Nat := (List.range n).map (fun i => v / 2 ^ (w * i) % 2 ^ w)

def cutBlocks (n : Nat) (codes : List Nat) (scale : Nat → Nat) : MRow :=
  (List.range (codes.length / n)).map (fun b => ((codes.drop (n * b)).take n, scale b))

/-- Ranges of an uncompressed row of K elements. -/
def rowRanges (f : NFC) (K a : Nat) : List (Nat × Nat) :=
  match mxOfNfc f with
  | some m => (List.range (K / 32)).map (fun b => (a + mxOffset m b, mxBlockBytes m))
  | none => [(a, K * elemBits f / 8)]

def State.readRow (s : State) (o : EngOp) (r : Resolved) (f : NFC) (K a : Nat) : MRow :=
  match mxOfNfc f with
  | some m => (List.range (K / 32)).map (fun b =>
      (codesOf (mxBits m) 32 (s.rangeNat o r (a + mxOffset m b) (mxBlockBytes m)), s.rangeScale r (a + mxOffset m b) m))
  | none => cutBlocks (blockN f) (codesOf (elemBits f) K (s.rangeNat o r a (K * elemBits f / 8))) (fun _ => 0x7F)

/-- Bytes of a metadata row. -/
def metaBytes (f : NFC) (K : Nat) : Nat := K / 8 + (if (mxOfNfc f).isSome then K / 32 else 0)

/-- Decompression of kept elements (R357). -/
def decompress (kept : List Nat) (idx : Nat → Nat × Nat) (K : Nat) : List Nat :=
  (List.range K).map (fun e =>
    let g := e / 4
    let (i0, i1) := idx g
    if e % 4 = i1 then kept.getD (2 * g + 1) 0 else if e % 4 = i0 then kept.getD (2 * g) 0 else 0)

def State.readSparse (s : State) (o : EngOp) (rk rm : Resolved) (f : NFC) (K a ma : Nat) : MRow :=
  let kept := codesOf (elemBits f) (K / 2) (s.rangeNat o rk a (K / 2 * elemBits f / 8))
  let md := s.rangeNat o rm ma (metaBytes f K)
  let nib := fun g => md / 2 ^ (4 * g) % 16
  cutBlocks (blockN f) (decompress kept (fun g => (nib g % 4, nib g / 4)) K)
    (fun b => if (mxOfNfc f).isSome then md / 2 ^ (8 * (K / 8 + b)) % 256 else 0x7F)

/-! ### Operand errors (R364) -/

/-- The warps that were seats of an operation and have not retired, wherever they are now. -/
def State.seatsOf (s : State) (o : EngOp) : List Nat :=
  (s.warps.filter (fun e => !isStream e.1 && e.2.wg == o.wg && o.seats.contains e.2.num)).map Prod.fst

/-- Log an operand or destination violation of an operation: of those of a chunk, the one of the lowest address (R41). -/
def State.logOperand (s : State) (o : EngOp) (vs : List (Space × Acc × VClass × Int)) (eng : Bool) : State :=
  match vs with
  | [] => s
  | v :: r =>
    let (space, _, c, ea) := r.foldl (fun a b => if b.2.2.2 < a.2.2.2 then b else a) v
    s.logViol o.who (spaceCode space) c .operand 0 eng (BitVec.ofNat 64 (low64 ea)) o.pc

/-- An OPERR record for poison met at an operand (R461). -/
def State.logOperr (s : State) (o : EngOp) (a : Nat) : State :=
  s.postErr (clusterOf o.who) 8 0 (BitVec.ofNat 64 a) (reqOf o.who true o.ctx o.pc) 0

def State.noteErrors (s : State) (o : EngOp) (q : Operands) : State :=
  let s1 := if q.viols.isEmpty then s else s.logOperand o q.viols false
  match q.poison with
  | [] => s1
  | (a, _) :: _ => s1.logOperr o a.toNat

/-- MTXERR becomes pending in every seat (R364, R439). -/
def State.raiseMtxerr (s : State) (o : EngOp) : State :=
  (s.seatsOf o).foldl (fun t w => t.modCtl w (fun c => { c with pmtx := true, mtxCount := min (2 ^ 32 - 1) (c.mtxCount + 1) })) s

/-- Write a whole tile. -/
def State.putTile (s : State) (o : EngOp) (T : Nat) (es : List Nat) : State :=
  s.locWrite (.ac o.wg T) (es.flatMap (toLe 4)) (reqOf o.who true o.ctx o.pc)

def State.getTile (s : State) (o : EngOp) (T n : Nat) : List Nat :=
  let v := leNat (s.locRead (.ac o.wg T) (4 * n))
  (List.range n).map (fun i => v / 2 ^ (32 * i) % 2 ^ 32)

/-- Writes to scratchpad: those that resolve are made, the others are answered with their violations. -/
def State.scatter (s : State) (o : EngOp) (space : Space) (ws : List (Nat × List Byte)) : Resolved × State :=
  let (r, s1) := s.resolveUnits o space .engWrite false (rangeUnits (ws.map (fun w => (w.1, w.2.length))))
  if r.wait then (r, s1)
  else
    (r, ws.foldl (fun t w =>
      (List.range ((w.1 + w.2.length + 127) / 128 - w.1 / 128)).foldl (fun t i =>
        let lo : Nat := max w.1 (128 * (w.1 / 128 + i))
        let hi : Nat := min (w.1 + w.2.length) (128 * (w.1 / 128 + i + 1))
        match r.place (lo : Int) with
        | some l => t.engStore o l ((w.2.drop (lo - w.1)).take (hi - lo)) []
        | none => t) t) s1)

/-! ### MMA (R361, R366) -/

def decodeRow (f : NFC) (r : MRow) : List (List XVal × Nat) := r.map (fun b => (b.1.map (fmtOf f).decode, b.2))

def decodeInts (r : MRow) : List (List Int × Nat) := r.map (fun b => (b.1.map (fun q => (BitVec.ofNat 8 q).toInt), b.2))

/-- One output element over its blocks in ascending order (R199). -/
def mmaElem (c : Nat) (a b : List (List XVal × Nat)) : Nat :=
  (a.zip b).foldl (fun c p => accF32 c (dotBlock p.1.1 p.2.1 p.1.2 p.2.2)) c

def mmaElemInt (c : Nat) (a b : List (List Int × Nat)) : Nat :=
  low ((a.zip b).foldl (fun (c : Int) p => (accInt c p.1.1 p.2.1 p.1.2 p.2.2).1) (BitVec.ofNat 32 c).toInt)
where low (i : Int) : Nat := (i % (2 ^ 32 : Nat)).toNat

/-- An exact value in units of 2^-1024; none where it is NaN or infinite. -/
def units (x : XVal) : Option Int :=
  match x with
  | .nan | .inf _ => none
  | v => some (v.scaled (-1024))

/-- Exact values of a row's elements, its scales taken in. -/
def exactRow (f : NFC) (r : MRow) : List XVal :=
  r.flatMap (fun b => b.1.map (fun q => if b.2 = 0xFF then XVal.nan else ((fmtOf f).decode q).scale ((b.2 : Int) - 127)))

def f32 (c : Nat) : XVal := fmtF32.decode c

/-- One line of the check: D, G and E in units of 2^-2048, times 2^22. -/
def lineBad (c0 c1 : List Nat) (xs ws : List XVal) (nb len : Nat) : Bool :=
  match c0.mapM (fun c => units (f32 c)), c1.mapM (fun c => units (f32 c)), xs.mapM units, ws.mapM units with
  | some d0, some d1, some x, some w =>
    let up : Int := 2 ^ 1024
    let ps := (x.zip w).map (fun p => p.1 * p.2)
    let D := (d1.sum - d0.sum) * up
    let G := ps.sum
    let E22 := (nb : Int) * ((d1.map (fun v => (v.natAbs : Int))).sum * up) + (len : Int) * (ps.map (fun v => (v.natAbs : Int))).sum +
      (len : Int) * 2 ^ (2048 - 126 + 22)
    decide (E22 < (2 : Int) ^ 22 * ((D - G).natAbs : Int))
  | _, _, _, _ => false

def column (es : List Nat) (H N j : Nat) : List Nat := (List.range H).map (fun i => es.getD (i * N + j) 0)

/-- The first line of a tile that mismatches: rows, then columns (R367). -/
def checkTile (c0 c1 : List Nat) (H N nb : Nat) (as bs : List (List XVal)) (ca cb : List XVal) : Option (Bool × Nat) :=
  let row := fun (es : List Nat) i => (es.drop (i * N)).take N
  match (List.range H).find? (fun i => lineBad (row c0 i) (row c1 i) (as.getD i []) cb nb N) with
  | some i => some (false, i)
  | none =>
    ((List.range N).find? (fun j => lineBad (column c0 H N j) (column c1 H N j) ca (bs.getD j []) nb H)).map (fun j => (true, j))

/-- R367. INFO of the trap is the record's sequence number, also where the ring is full and the record is lost (log entry 114). -/
def State.reportAbft (s : State) (o : EngOp) (x : MmaArgs) (m : Option (Bool × Nat)) : State :=
  match m with
  | none => s
  | some (col, k) =>
    let seq := (s.cluster (clusterOf o.who)).errhead.toNat
    let s1 := s.postErr (clusterOf o.who) 6 0 (BitVec.ofNat 64 (1024 * x.toff.toNat)) (reqOf o.who true o.ctx o.pc)
      (k + if col then 512 else 0)
    if !x.chkt then s1
    else (s1.seatsOf o).foldl (fun t w => t.modCtl w (fun c => if c.pabft then c else { c with pabft := true, abftSeq := seq })) s1

/-- The end of a matrix operation. -/
def State.endMatrix (s : State) (o : EngOp) (err : Bool) : State :=
  let s1 := s.modCore o.core (fun c => { c with mtx := c.mtx.filter (fun i => i != o.id) })
  let s2 := if err then s1.raiseMtxerr o else s1
  s2.endEng { o with tok := none }

def State.runMma (s : State) (o : EngOp) (x : MmaArgs) : State :=
  let H := 64 * o.nums.getD 0 1
  let N := colsN x.nsel
  let T := 1024 * x.toff.toNat
  let K := depthK x.fa x.fb
  let a := mapAt o.vals 0
  let b := mapAt o.vals 2
  let ra := (List.range H).flatMap (fun i => if x.sp then [(a.row i, K / 2 * elemBits x.fa / 8)] else rowRanges x.fa K (a.row i))
  let rm := if x.sp then (List.range H).map (fun i => (a.metaRow i, metaBytes x.fa K)) else []
  let rb := (List.range N).flatMap (fun j => rowRanges x.fb K (b.row j))
  let rc := if x.chk then [(a.csum, 4 * K)] else []
  let rd := if x.chk then [(b.csum, 4 * K)] else []
  let (q, s1) := s.readOperands o
    [⟨a.space, !x.sp && (mxOfNfc x.fa).isSome, ra⟩, ⟨a.space, false, rm⟩, ⟨b.space, (mxOfNfc x.fb).isSome, rb⟩,
     ⟨a.space, false, rc⟩, ⟨b.space, false, rd⟩]
  if q.wait then s1
  else
    let cBad := !x.zc && s1.locPoison (.ac o.wg T) (4 * H * N)
    let q := if cBad then { q with poison := q.poison ++ [((T : Int), ())] } else q
    if !q.viols.isEmpty || !q.poison.isEmpty then
      let bad := if mfam x.fa == .int then 0x80000000 else 0x7FC00000
      (((s1.noteErrors o q).putTile o T (List.replicate (H * N) bad))).endMatrix o true
    else
      let set := fun k => q.sets.getD k {}
      let as := (List.range H).map (fun i => if x.sp then s1.readSparse o (set 0) (set 1) x.fa K (a.row i) (a.metaRow i)
        else s1.readRow o (set 0) x.fa K (a.row i))
      let bs := (List.range N).map (fun j => s1.readRow o (set 2) x.fb K (b.row j))
      let c0 := if x.zc then List.replicate (H * N) 0 else s1.getTile o T (H * N)
      let c1 :=
        if mfam x.fa == .int then
          let bi := bs.map decodeInts
          (as.map decodeInts).zipIdx.flatMap (fun r => bi.zipIdx.map (fun k => mmaElemInt (c0.getD (r.2 * N + k.2) 0) r.1 k.1))
        else
          let bx := bs.map (decodeRow x.fb)
          (as.map (decodeRow x.fa)).zipIdx.flatMap (fun r => bx.zipIdx.map (fun k => mmaElem (c0.getD (r.2 * N + k.2) 0) r.1 k.1))
      let s2 := s1.putTile o T c1
      let mism := if x.chk then
          checkTile c0 c1 H N (K / blockN x.fa) (as.map (exactRow x.fa)) (bs.map (exactRow x.fb))
            ((codesOf 32 K (s1.rangeNat o (set 3) a.csum (4 * K))).map f32) ((codesOf 32 K (s1.rangeNat o (set 4) b.csum (4 * K))).map f32)
        else none
      (s2.reportAbft o x mism).endMatrix o false

/-! ### COMPRESS (R370) -/

/-- An element ranks above another of a lower index only where its magnitude is larger. -/
def magLt (a b : XVal) : Bool :=
  match a, b with
  | .nan, _ => false
  | _, .nan => true
  | .inf _, _ => false
  | _, .inf _ => true
  | x, y => !y.absLe x

/-- The two kept indices of a group of four, ascending. -/
def keepTwo (vs : List XVal) : Nat × Nat :=
  let above := fun i j => magLt (vs.getD i .nan) (vs.getD j .nan) || (decide (j < i) && !magLt (vs.getD j .nan) (vs.getD i .nan))
  let kept := (List.range 4).filter (fun i => decide (((List.range 4).filter (fun j => j != i && above i j)).length < 2))
  (kept.getD 0 0, kept.getD 1 1)

/-- The kept row and the metadata row of a dense row. -/
def compressRow (f : NFC) (K : Nat) (r : MRow) : List Byte × List Byte :=
  let codes := r.flatMap Prod.fst
  let groups := (List.range (K / 4)).map (fun g => (codes.drop (4 * g)).take 4)
  let ks := groups.map (fun g => (g, keepTwo (g.map (fmtOf f).decode)))
  let kept := ks.flatMap (fun e => [e.1.getD e.2.1 0, e.1.getD e.2.2 0])
  let w := elemBits f
  let v := (kept.zipIdx.map (fun e => e.1 * 2 ^ (w * e.2))).sum
  let m := (ks.zipIdx.map (fun e => (e.1.2.1 + 4 * e.1.2.2) * 2 ^ (4 * e.2))).sum
  (toLe (K / 2 * w / 8) v, toLe (K / 8) m ++ (if (mxOfNfc f).isSome then r.map (fun b => BitVec.ofNat 8 b.2) else []))

def State.runCompress (s : State) (o : EngOp) (f : NFC) : State :=
  let H := 64 * o.nums.getD 0 1
  let K := if mfam f == .half then 64 else if f == .e2m1 then 256 else 128
  let a := mapAt o.vals 0
  let b := mapAt o.vals 2
  let (q, s1) := s.readOperands o [⟨a.space, (mxOfNfc f).isSome, (List.range H).flatMap (fun i => rowRanges f K (a.row i))⟩]
  if q.wait then s1
  else
    let bad := !q.viols.isEmpty || !q.poison.isEmpty
    let rows := (List.range H).map (fun i =>
      if bad then (List.replicate (K / 2 * elemBits f / 8) 0xFF#8, List.replicate (metaBytes f K) 0xFF#8)
      else compressRow f K (s1.readRow o (q.sets.getD 0 {}) f K (a.row i)))
    let (r, s2) := s1.scatter o b.space (rows.zipIdx.flatMap (fun e => [(b.row e.2, e.1.1), (b.metaRow e.2, e.1.2)]))
    if r.wait then s2
    else
      let s3 := s2.noteErrors o q
      let s4 := if r.viols.isEmpty then s3 else s3.logOperand o (r.viols.map (fun v => (b.space, Acc.operand, v.1, v.2))) false
      s4.endMatrix o (bad || !r.viols.isEmpty)

/-! ### ACCZ and ACCMV (R371, R372) -/

def State.runAccz (s : State) (o : EngOp) (toff : BitVec 11) (nsel : Fin 4) : State :=
  (s.putTile o (1024 * toff.toNat) (List.replicate (64 * o.nums.getD 0 1 * colsN nsel) 0)).endMatrix o false

def State.runAccmvOut (s : State) (o : EngOp) (toff : BitVec 11) (nsel : Fin 4) (df : NFC) : State :=
  let H := 64 * o.nums.getD 0 1
  let N := colsN nsel
  let T := 1024 * toff.toNat
  let m := mapAt o.vals 0
  let bad := s.locPoison (.ac o.wg T) (4 * H * N)
  let f := fmtOf df
  let es := (s.getTile o T (H * N)).map (fun e => if bad then f.canonNan else if df == .f32 then e else (f.round (f32 e) .rne {}).1)
  let n := f.width / 8
  let (r, s1) := s.scatter o m.space ((List.range H).map (fun i => (m.row i, ((es.drop (i * N)).take N).flatMap (toLe n))))
  if r.wait then s1
  else
    let s2 := if bad then s1.logOperr o T else s1
    let s3 := if r.viols.isEmpty then s2 else s2.logOperand o (r.viols.map (fun v => (m.space, Acc.operand, v.1, v.2))) false
    s3.endMatrix o (bad || !r.viols.isEmpty)

def State.runAccmvIn (s : State) (o : EngOp) (toff : BitVec 11) (nsel : Fin 4) : State :=
  let H := 64 * o.nums.getD 0 1
  let N := colsN nsel
  let m := mapAt o.vals 0
  let (q, s1) := s.readOperands o [⟨m.space, false, (List.range H).map (fun i => (m.row i, 4 * N))⟩]
  if q.wait then s1
  else if !q.viols.isEmpty || !q.poison.isEmpty then
    ((s1.noteErrors o q).putTile o (1024 * toff.toNat) (List.replicate (H * N) 0x7FC00000)).endMatrix o true
  else
    let es := (List.range H).flatMap (fun i => codesOf 32 N (s1.rangeNat o (q.sets.getD 0 {}) (m.row i) (4 * N)))
    (s1.putTile o (1024 * toff.toNat) es).endMatrix o false

/-! ### Order and completion (R352, R450) -/

/-- No earlier operation of the same quorum group is outstanding, and the fork's accesses are performed. -/
def State.matrixReady (s : State) (o : EngOp) : Bool :=
  let q := o.nums.getD 0 1
  s.forkDone o && ((s.core o.core).mtx.takeWhile (fun i => i != o.id)).all (fun i =>
    match mget s.eops i with
    | some e => !(e.wg == o.wg && (s.warp e.who).num / q == (s.warp o.who).num / q)
    | none => true)

def State.runMatrix (s : State) (o : EngOp) : State :=
  if !s.matrixReady o then s
  else match o.instr with
    | .mma x => s.runMma o x
    | .compress _ _ f => s.runCompress o f
    | .accz toff nsel => s.runAccz o toff nsel
    | .accmvOut _ toff nsel df => s.runAccmvOut o toff nsel df
    | .accmvIn _ toff nsel _ => s.runAccmvIn o toff nsel
    | _ => s

def execMatrixOpComplete (op : Nat) (s : State) : Host.Outcome State Fault Refusal :=
  match mget s.eops op with
  | none => .next s
  | some o => .next (if o.emul then s else s.runMatrix o)

/-- A trap in the firmware ends an emulated operation as an operand error: its tile, and MTXERR (R364, R451). -/
def State.emulFails (s : State) (o : EngOp) : State :=
  match o.instr with
  | .mma x => ((s.dropAsks (firmwareOf (clusterOf o.who)) o.id).putTile o (1024 * x.toff.toNat)
      (List.replicate (64 * o.nums.getD 0 1 * colsN x.nsel) 0x7FC00000)).endMatrix o true
  | _ => s

/-- The firmware finishes the oldest emulated operation of the cluster; groups that waited for room may then start. -/
def State.emulStep (s : State) (cl : Nat) : State :=
  match (s.cluster cl).emulQ with
  | [] => s
  | id :: rest =>
    match mget s.eops id with
    | none => s.modCluster cl (fun c => { c with emulQ := rest })
    | some o =>
      let t := if !s.matrixReady o then s else match s.firmwareTraps cl with
        | some u => u.emulFails o
        | none => s.runMatrix o
      if mhas t.eops id then t
      else
        let u := t.modCluster cl (fun c => { c with emulQ := rest })
        (u.ctls.filter (fun e => decide (clusterOf e.1 = cl) && e.2.quorumIssue.isSome)).foldl (fun v e => v.quorumCheck e.1) u

def execEmulatedOpComplete (cluster : Nat) (s : State) : Host.Outcome State Fault Refusal := .next (s.emulStep cluster)

end Sys2Proof.Machine
end

