-- ==== Sys2Proof/Machine/Kv.lean ====
section
/-! DEFINITION. The paged key-value cache and its walker (15 R397 to R414): resolving positions, KVWALK, KVAPPEND with page
allocation, and KVCOMMIT. -/

namespace Sys2Proof.Machine

/-! ### The structures in memory (R398 to R400) -/

structure KvRec where
  rsz : Nat
  koff : Nat
  voff : Nat
  hstr : Nat
  nhead : Nat
  pool : Nat
  leaf : Nat
  len : Nat
  cscope : Nat
  deriving DecidableEq, Repr

def KvRec.of (v : BitVec 512) : KvRec :=
  { rsz := bitsOf v 352 32, cscope := bitsOf v 320 3, koff := bitsOf v 288 32, voff := bitsOf v 256 32, hstr := bitsOf v 224 32, nhead := bitsOf v 208 16
    pool := bitsOf v 128 64, leaf := bitsOf v 64 64, len := bitsOf v 0 32 }

structure KvNode where
  plist : Nat
  npg : Nat
  lock : Bool
  opened : Bool
  run : Nat
  start : Nat
  parent : Nat
  deriving DecidableEq, Repr

def KvNode.of (v : BitVec 512) : KvNode :=
  { plist := bitsOf v 192 64, npg := bitsOf v 160 32, lock := v.getLsbD 129, opened := v.getLsbD 128, run := bitsOf v 96 32
    start := bitsOf v 64 32, parent := bitsOf v 0 64 }

def KvNode.cap (n : KvNode) : Nat := n.start + 64 * n.npg

/-- EST bits (R398). -/
def estPool : Nat := 0
def estForm : Nat := 1
def estRange : Nat := 2
def estHead : Nat := 3

/-! ### Walker accesses -/

/-- What an access or a walk came to. -/
inductive KvGot (α : Type) where
  | ok (a : α)
  | wait
  | viol (c : VClass) (va : Nat)
  | dmg (va : Nat)

/-- Read n bytes at a virtual address. -/
def State.kvRead (s : State) (o : EngOp) (va n : Nat) : KvGot Nat × State :=
  match s.askSpan o.ctx va n .operand o.core o.who o.id with
  | (.wait, t) => (.wait, t)
  | (.viol c v, t) => (.viol c v, t)
  | (.ok ps, t) =>
    let u := t.touchParts ps (reqOf o.who true o.ctx o.pc)
    if u.poisonParts ps then (.dmg va, u) else (.ok (leNat (u.readParts ps)), u)

/-- Make sure that a range can be written; its parts. -/
def State.kvSpan (s : State) (o : EngOp) (va n : Nat) (acc : Acc) : KvGot (List (Nat × Nat × Nat)) × State :=
  match s.askSpan o.ctx va n acc o.core o.who o.id with
  | (.wait, t) => (.wait, t)
  | (.viol c v, t) => (.viol c v, t)
  | (.ok ps, t) => (.ok ps, t)

/-- Write bytes over resolved parts, as an engine does (R150). -/
def State.kvPut (s : State) (o : EngOp) (ps : List (Nat × Nat × Nat)) (bs : List Byte) : State :=
  ps.foldl (fun t p => t.engWrite o.core (.phys p.2.1) ((bs.drop p.1).take p.2.2) (reqOf o.who true o.ctx o.pc)) s

inductive Walked where
  | page (page slot : Nat) (node : Nat)
  | none
  | form
  | range
  deriving DecidableEq, Repr

/-- The scope of the acquire of LEN reaches beyond the workgroup: codes 3 to 5, and those that act as 5 (R398). -/
def KvRec.wide (r : KvRec) : Bool := r.cscope != 2

/-- Climb from a node to the one that holds the position (R401). -/
def State.kvClimb (s : State) (o : EngOp) (pos : Nat) : Nat → Nat → KvGot (Option (Nat × KvNode)) × State
  | 0, _ => (.ok none, s)
  | fuel + 1, va =>
    match s.kvRead o va 64 with
    | (.wait, t) => (.wait, t)
    | (.viol c v, t) => (.viol c v, t)
    | (.dmg v, t) => (.dmg v, t)
    | (.ok v, t) =>
      let n := KvNode.of (BitVec.ofNat 512 v)
      if n.start ≤ pos then (.ok (some (va, n)), t)
      else if n.parent = 0 then (.ok none, t)
      else t.kvClimb o pos fuel n.parent

/-- resolve (R401). -/
def State.kvResolve (s : State) (o : EngOp) (r : KvRec) (pos limit : Nat) : KvGot Walked × State :=
  if limit ≤ pos then (.ok .none, s)
  else match s.kvClimb o pos 64 r.leaf with
    | (.wait, t) => (.wait, t)
    | (.viol c v, t) => (.viol c v, t)
    | (.dmg v, t) => (.dmg v, t)
    | (.ok none, t) => (.ok .form, t)
    | (.ok (some (va, n)), t) =>
      if n.start % 64 != 0 || n.npg = 0 || (!n.opened && (decide (64 * n.npg < n.run) || decide (n.start + n.run ≤ pos))) then (.ok .form, t)
      else
        let k := (pos - n.start) / 64
        if n.npg ≤ k then (.ok .range, t)
        else match t.kvRead o (n.plist + 8 * k) 8 with
          | (.wait, u) => (.wait, u)
          | (.viol c v, u) => (.viol c v, u)
          | (.dmg v, u) => (.dmg v, u)
          | (.ok p, u) =>
            if p = 0 then (.ok .none, u)
            else if p % 128 != 0 then (.ok .form, u)
            else (.ok (.page p ((pos - n.start) % 64) va), u)

/-- Set an EST bit by an atomic OR at the L2; poison leaves it unperformed. None while its page is serviced. -/
def State.kvEst (s : State) (o : EngOp) (rec_ k : Nat) : KvGot Unit × State :=
  match s.kvSpan o (rec_ + 48) 8 .atomic with
  | (.wait, t) => (.wait, t)
  | (.viol c v, t) => (.viol c v, t)
  | (.dmg v, t) => (.dmg v, t)
  | (.ok ps, t) =>
    let u := t.touchParts ps (reqOf o.who true o.ctx o.pc)
    if u.poisonParts ps then (.ok (), u)
    else (.ok (), u.kvPut o ps (toLe 8 (leNat (u.readParts ps) ||| 2 ^ k)))

/-! ### How a word ends (R412) -/

def State.kvEnd (s : State) (o : EngOp) : State := s.endEng { o with ready := 2 }

/-- Stop with a violation: logged with ACC 7 and ENG 1. -/
def State.kvViol (s : State) (o : EngOp) (spc : Nat) (c : VClass) (va : Nat) : State :=
  (s.logViol o.who spc c .operand 0 true (BitVec.ofNat 64 va) o.pc).kvEnd { o with err := true }

/-- Stop at damage. -/
def State.kvDmg (s : State) (o : EngOp) (va : Nat) : State := (s.logOperr o va).kvEnd { o with dmg := true }

/-- Set an EST bit and stop with ERR. -/
def State.kvStop (s : State) (o : EngOp) (rec_ k : Nat) : State :=
  match s.kvEst o rec_ k with
  | (.wait, t) => t.setEop o
  | (.viol c v, t) => t.kvViol o 0 c v
  | (.dmg v, t) => t.kvDmg o v
  | (.ok _, t) => t.kvEnd { o with err := true }

/-- The record as the word sees it; its length is read once (R414). -/
def State.kvRecord (s : State) (o : EngOp) (rec_ : Nat) : KvGot (KvRec × EngOp) × State :=
  match s.kvRead o rec_ 64 with
  | (.wait, t) => (.wait, t)
  | (.viol c v, t) => (.viol c v, t)
  | (.dmg v, t) => (.dmg v, t)
  | (.ok v, t) =>
    let r := KvRec.of (BitVec.ofNat 512 v)
    match o.nums with
    | [] => (.ok (r, { o with nums := [r.len] }), t)
    | len :: _ => (.ok ({ r with len := len }, o), t)

/-! ### Issue checks (R403) -/

def kvRecBad (v : W64) : Bool := decide (2 ^ 57 ≤ v.toNat)

def kvChecks (recs wide32 wide16 : List W64) (list src : Option W64) (tok : Option Nat) (flag : Option Nat) (extra : Bool) :
    Option (Cause × Info) :=
  if recs.any kvRecBad || wide32.any (fun v => decide (2 ^ 32 ≤ v.toNat)) || wide16.any (fun v => decide (2 ^ 16 ≤ v.toNat)) || extra then oprange
  else
    let bad := fun (n : Nat) (v : Option W64) => v.bind (fun a => if a.toNat % n != 0 then some a.toNat else none)
    match firstSome [bad 64 recs.head?, bad 8 list, bad 128 src, tok.bind (fun t => if t % 16 != 0 then some t else none)] with
    | some a => some (.align, .same a)
    | none => if tok.isNone && flag.isNone then some (.noflag, .same 0) else none

def kvStart (is : Issue) (s : State) (vals : List W64) (tok : Option (Nat × Bool)) (rel : Bool) : Act :=
  let (o, s1) := s.fork is vals tok rel
  .next (s1.tokStart o)

def kvwalkBody (x : KvWalkArgs) (is : Issue) (s : State) : Act :=
  let vr := is.sv s x.sa
  let p0 := is.sv s x.sb
  let list := is.w.sreg x.sdst.val
  let tok := tokOf is s x.stok
  match kvChecks [vr] [p0] [] (some list) none tok is.flag (decide (2 ^ 32 ≤ p0.toNat + x.cntm1.toNat)) with
  | some (c, info) => .trap c info
  | none => kvStart is s [vr, p0, list] (tok.map (fun t => (t, x.tsp))) false

def execKvwalk (x : KvWalkArgs) (s : State) : Host.Outcome State Fault Refusal := runWord (.kvwalk x) (kvwalkBody x) s

def kvappendBody (x : KvAppendArgs) (is : Issue) (s : State) : Act :=
  let u := is.sv s x.sd
  let vr := is.sv s x.sa
  let h := is.sv s x.sb
  let src := is.w.sreg x.ssrc.val
  let tok := tokOf is s x.stok
  match kvChecks [vr] [] [h] none (some src) tok is.flag (decide (65535 < u.toNat)) with
  | some (c, info) => .trap c info
  | none => kvStart is s [vr, u, h, src] (tok.map (fun t => (t, x.tsp))) false

def execKvappend (x : KvAppendArgs) (s : State) : Host.Outcome State Fault Refusal := runWord (.kvappend x) (kvappendBody x) s

def kvcommitBody (x : KvCommitArgs) (is : Issue) (s : State) : Act :=
  let vr := is.sv s x.sa
  let len := is.sv s x.sb
  let tok := tokOf is s x.stok
  match kvChecks [vr] [len] [] none none tok is.flag false with
  | some (c, info) => .trap c info
  | none =>
    let appends := ((mvals s.eops).filter (fun e => e.who == is.who && (match e.instr with | .kvappend _ => true | _ => false))).map
      (fun e => BitVec.ofNat 64 e.id)
    kvStart is s ([vr, len] ++ appends) (tok.map (fun t => (t, x.tsp))) true

def execKvcommit (x : KvCommitArgs) (s : State) : Host.Outcome State Fault Refusal := runWord (.kvcommit x) (kvcommitBody x) s

/-! ### KVWALK (R404) -/

/-- The limit of a walk: the committed length, or the leaf's capacity. -/
def State.kvLimit (s : State) (o : EngOp) (r : KvRec) (unc : Bool) : KvGot Nat × State :=
  if !unc then (.ok r.len, s)
  else match s.kvRead o r.leaf 64 with
    | (.ok v, t) => (.ok (KvNode.of (BitVec.ofNat 512 v)).cap, t)
    | (.wait, t) => (.wait, t)
    | (.viol c v, t) => (.viol c v, t)
    | (.dmg v, t) => (.dmg v, t)

/-- Where a list entry goes. -/
def State.kvEntryAt (s : State) (o : EngOp) (x : KvWalkArgs) (addr : Nat) : KvGot ELoc × State :=
  match s.engAt o (if x.dsp then .sp else .g) (addr : Int) 8 .engWrite with
  | (.wait, t) => (.wait, t)
  | (.viol c, t) => (.viol c addr, t)
  | (.at_ l, t) => (.ok l, t)

/-- The positions from `o.pos` on. -/
def State.kvWalkLoop (s : State) (o : EngOp) (x : KvWalkArgs) (r : KvRec) (limit : Nat) : Nat → State
  | 0 => s.kvEnd o
  | n + 1 =>
    let vr := (o.vals.getD 0 0).toNat
    let i := o.pos
    match s.kvResolve o r ((o.vals.getD 1 0).toNat + i) limit with
    | (.wait, t) => t.setEop o
    | (.viol c v, t) => t.kvViol o 0 c v
    | (.dmg v, t) => t.kvDmg o v
    | (.ok w, t) =>
      let est := match w with
        | .form => some estForm
        | .range => some estRange
        | _ => none
      let v := match w with
        | .page p k _ => p + k
        | _ => 2 ^ 64 - 1
      -- a chunk is one position: its list entry is resolved before its EST bit is set (R39)
      match t.kvEntryAt o x ((o.vals.getD 2 0).toNat + 8 * i) with
      | (.wait, t1) => t1.setEop o
      | (.viol c a, t1) => t1.kvViol o (if x.dsp then 1 else 0) c a
      | (.dmg a, t1) => t1.kvDmg o a
      | (.ok l, t1) =>
        let (g, t2) := match est with
          | some k => t1.kvEst o vr k
          | none => (.ok (), t1)
        match g with
        | .wait => t2.setEop o
        | .viol c v => t2.kvViol o 0 c v
        | .dmg v => t2.kvDmg o v
        | .ok _ => (t2.engStore o l (toLe 8 v) []).kvWalkLoop { o with err := o.err || est.isSome, pos := i + 1 } x r limit n

def State.kvwalkStep (s : State) (o : EngOp) (x : KvWalkArgs) : State :=
  match s.kvRecord o (o.vals.getD 0 0).toNat with
  | (.wait, t) => t.setEop o
  | (.viol c v, t) => t.kvViol o 0 c v
  | (.dmg v, t) => t.kvDmg o v
  | (.ok (r, o1), t) =>
    match t.kvLimit o1 r x.unc with
    | (.wait, u) => u.setEop o1
    | (.viol c v, u) => u.kvViol o1 0 c v
    | (.dmg v, u) => u.kvDmg o1 v
    | (.ok limit, u) => u.kvWalkLoop o1 x r limit (x.cntm1.toNat + 1 - o1.pos)

/-! ### KVAPPEND (R406, R410) -/

/-- Raw transfer of a resolved range, line by line of the destination, with its side band (R91). -/
def State.kvMove (s : State) (o : EngOp) (src : Resolved) (sa : Nat) (dst : Resolved) (da n : Nat) : Bool × State :=
  (rangeUnits [(da, n)]).foldl (fun (a : Bool × State) u =>
    let lo := u.lo.toNat
    let len := u.hi.toNat - lo
    let off := sa + (lo - da)
    let cut := min len (128 - off % 128)
    let get := fun (ea k : Nat) => match src.place (ea : Int) with
      | some l => (a.2.engRead o l k, a.2.engPoison o l k)
      | none => (List.replicate k 0, List.replicate k true)
    let p := get off cut
    let q := if cut < len then get (off + cut) (len - cut) else ([], [])
    let bad := p.2 ++ q.2
    let t := match dst.place (lo : Int) with
      | some l => a.2.engStore o l (p.1 ++ q.1) bad
      | none => a.2
    let whole := sa % 128 = 0 && da % 128 = 0 && n % 128 = 0
    (a.1 || bad.any id || (whole && a.2.sideComes (src.place (off : Int)) (dst.place (lo : Int))),
     if whole then t.copySide o (src.place (off : Int)) (dst.place (lo : Int)) else t)) (false, s)

/-- Where a token's rows go: the page and slot, and, where the page must be taken from the pool, the page-list entry, the
pool and the old TOP. -/
structure KvSpot where
  page : Nat
  slot : Nat
  take : Option (Nat × Nat × Nat) := none

inductive KvFind where
  | at_ (p : KvSpot)
  | stop (est : Nat)
  | locked

/-- The CAS on the leaf's FLAGS and the store that clears LOCK: both may be made (R410). -/
def State.kvLockSpan (s : State) (o : EngOp) (leaf : Nat) : KvGot (List (Nat × Nat × Nat)) × State :=
  match s.kvSpan o (leaf + 16) 4 .atomic with
  | (.ok _, t) => t.kvSpan o (leaf + 16) 4 .engWrite
  | q => q

/-- Taking the lock and giving it back: FLAGS are written, and end as they were. -/
def State.kvLocked (s : State) (o : EngOp) (leaf : Nat) : State :=
  match s.kvLockSpan o leaf with
  | (.ok ps, t) =>
    let u := t.touchParts ps (reqOf o.who true o.ctx o.pc)
    u.kvPut o ps (u.readParts ps)
  | (_, t) => t

/-- allocate (R410), as far as reading goes. -/
def State.kvPick (s0 : State) (o : EngOp) (r : KvRec) (n : KvNode) (pos : Nat) : KvGot KvFind × State :=
  match s0.kvLockSpan o r.leaf with
  | (.wait, t) => (.wait, t)
  | (.viol c v, t) => (.viol c v, t)
  | (.dmg v, t) => (.dmg v, t)
  | (.ok _, s) =>
  if n.lock then (.ok .locked, s)
  else
    let entry := n.plist + 8 * ((pos - n.start) / 64)
    if r.pool = 0 then (.ok (.stop estPool), s)
    else match s.kvRead o r.pool 16 with
      | (.wait, t) => (.wait, t)
      | (.viol c v, t) => (.viol c v, t)
      | (.dmg v, t) => (.dmg v, t)
      | (.ok v, t) =>
        let top := v % 2 ^ 32
        if top = 0 then (.ok (.stop estPool), t)
        else match t.kvRead o (v / 2 ^ 64 + 8 * (top - 1)) 8 with
          | (.wait, u) => (.wait, u)
          | (.viol c a, u) => (.viol c a, u)
          | (.dmg a, u) => (.dmg a, u)
          | (.ok p, u) => (.ok (.at_ ⟨p, (pos - n.start) % 64, some (entry, r.pool, top)⟩), u)

/-- Where position `pos` is to be written (R406). A resolution beyond the capacity or outside the leaf is an error. -/
def State.kvFind (s : State) (o : EngOp) (r : KvRec) (pos : Nat) : KvGot KvFind × State :=
  match s.kvRead o r.leaf 64 with
  | (.wait, t) => (.wait, t)
  | (.viol c v, t) => (.viol c v, t)
  | (.dmg v, t) => (.dmg v, t)
  | (.ok v, t) =>
    let n := KvNode.of (BitVec.ofNat 512 v)
    if decide (2 ^ 32 ≤ pos) || decide (pos < n.start) || decide (n.cap ≤ pos) then (.ok (.stop estRange), t)
    else match t.kvResolve o r pos n.cap with
      | (.wait, u) => (.wait, u)
      | (.viol c a, u) => (.viol c a, u)
      | (.dmg a, u) => (.dmg a, u)
      | (.ok .form, u) => (.ok (.stop estForm), u)
      | (.ok .range, u) => (.ok (.stop estRange), u)
      | (.ok (.page p k va), u) => (.ok (if va = r.leaf then .at_ ⟨p, k, none⟩ else .stop estForm), u)
      | (.ok .none, u) => u.kvPick o r n pos

/-- The writes of an allocation: the lock, TOP, then the page-list entry (R410). -/
def State.kvTake (s : State) (o : EngOp) (leaf : Nat) (p : KvSpot) : KvGot Unit × State :=
  match p.take with
  | none => (.ok (), s)
  | some (entry, pool, top) =>
    match s.kvSpan o pool 4 .atomic with
    | (.ok ps, t) =>
      (match t.kvSpan o entry 8 .engWrite with
       | (.ok qs, u) => (.ok (), ((u.kvLocked o leaf).kvPut o ps (toLe 4 (top - 1))).kvPut o qs (toLe 8 p.page))
       | (.wait, u) => (.wait, u)
       | (.viol c v, u) => (.viol c v, u)
       | (.dmg v, u) => (.dmg v, u))
    | (.wait, t) => (.wait, t)
    | (.viol c v, t) => (.viol c v, t)
    | (.dmg v, t) => (.dmg v, t)

/-- One token: resolve its rows, allocate, copy. -/
def State.kvToken (s : State) (o : EngOp) (x : KvAppendArgs) (r : KvRec) (t n : Nat) : Bool × EngOp × State :=
  let v := fun k => (o.vals.getD k 0).toNat
  match s.kvFind o r (r.len + v 1 + t) with
  | (.wait, s1) => (false, o, s1.setEop o)
  | (.viol c a, s1) => (false, o, s1.kvViol o 0 c a)
  | (.dmg a, s1) => (false, o, s1.kvDmg o a)
  | (.ok .locked, s1) => let o1 := { o with phase := 3, ready := s1.clock + 256 }
                         (false, o1, s1.setEop o1)
  | (.ok (.stop k), s1) => (false, o, (if k = estPool then s1.kvLocked o r.leaf else s1).kvStop o (v 0) k)
  | (.ok (.at_ p), s1) =>
    let space : Space := if x.ssp then .g else .sp
    let ks := v 3 + t * r.rsz
    let vs := v 3 + (n + t) * r.rsz
    let base := p.page + v 2 * r.hstr + p.slot * r.rsz
    let (src, s2) := s1.resolveUnits o space .operand false (rangeUnits [(ks, r.rsz), (vs, r.rsz)])
    let (dst, s3) := s2.resolveUnits o .g .engWrite false (rangeUnits [(base + r.koff, r.rsz), (base + r.voff, r.rsz)])
    let bad := src.viols.map (fun e => (space, Acc.operand, e.1, e.2)) ++ dst.viols.map (fun e => (Space.g, Acc.operand, e.1, e.2))
    if src.wait || dst.wait then (false, o, s3.setEop o)
    else if !bad.isEmpty then (false, o, (s3.logOperand o bad true).kvEnd { o with err := true })
    else match s3.kvTake o r.leaf p with
      | (.wait, s4) => (false, o, s4.setEop o)
      | (.viol c a, s4) => (false, o, s4.kvViol o 0 c a)
      | (.dmg a, s4) => (false, o, s4.kvDmg o a)
      | (.ok _, s4) =>
        let s5 := (src.locs).foldl (fun u e => u.engTouch o e.2 128) s4
        let (b1, s6) := s5.kvMove o src ks dst (base + r.koff) r.rsz
        let (b2, s7) := s6.kvMove o src vs dst (base + r.voff) r.rsz
        (true, { o with dmg := o.dmg || b1 || b2, pos := t + 1 }, s7)

def State.kvAppendLoop (s : State) (o : EngOp) (x : KvAppendArgs) (r : KvRec) (n : Nat) : Nat → State
  | 0 => s.kvEnd o
  | k + 1 =>
    match s.kvToken o x r o.pos n with
    | (false, _, t) => t
    | (true, o1, t) => t.kvAppendLoop o1 x r n k

def State.kvappendStep (s : State) (o : EngOp) (x : KvAppendArgs) : State :=
  match s.kvRecord o (o.vals.getD 0 0).toNat with
  | (.wait, t) => t.setEop o
  | (.viol c v, t) => t.kvViol o 0 c v
  | (.dmg v, t) => t.kvDmg o v
  | (.ok (r, o1), t) =>
    if r.nhead ≤ (o1.vals.getD 2 0).toNat then t.kvStop o1 (o1.vals.getD 0 0).toNat estHead
    else
      let n := x.ntm1.toNat + 1
      t.kvAppendLoop o1 x r n (n - o1.pos)

/-! ### KVCOMMIT (R408) -/

/-- Every page-list entry below `k` is nonzero. -/
def State.kvPages (s : State) (o : EngOp) (n : KvNode) : Nat → KvGot Bool × State
  | 0 => (.ok true, s)
  | k + 1 =>
    match s.kvRead o (n.plist + 8 * k) 8 with
    | (.wait, t) => (.wait, t)
    | (.viol c v, t) => (.viol c v, t)
    | (.dmg v, t) => (.dmg v, t)
    | (.ok p, t) => if p = 0 then (.ok false, t) else t.kvPages o n k

def State.kvCommitCheck (s : State) (o : EngOp) (r : KvRec) (len : Nat) : KvGot Bool × State :=
  match s.kvRead o r.leaf 64 with
  | (.wait, t) => (.wait, t)
  | (.viol c v, t) => (.viol c v, t)
  | (.dmg v, t) => (.dmg v, t)
  | (.ok v, t) =>
    let n := KvNode.of (BitVec.ofNat 512 v)
    if decide (len < n.start) || decide (n.cap < len) then (.ok false, t)
    else t.kvPages o n ((len - n.start + 63) / 64)

def State.kvcommitStep (s : State) (o : EngOp) : State :=
  let vr := (o.vals.getD 0 0).toNat
  let len := (o.vals.getD 1 0).toNat
  if (o.vals.drop 2).any (fun i => mhas s.eops i.toNat) then s
  else match s.kvRecord o vr with
    | (.wait, t) => t.setEop o
    | (.viol c v, t) => t.kvViol o 0 c v
    | (.dmg v, t) => t.kvDmg o v
    | (.ok (r, o1), t) =>
      match t.kvCommitCheck o1 r len with
      | (.wait, u) => u.setEop o1
      | (.viol c v, u) => u.kvViol o1 0 c v
      | (.dmg v, u) => u.kvDmg o1 v
      | (.ok false, u) => u.kvStop o1 vr estRange
      | (.ok true, u) =>
        match u.kvSpan o1 vr 8 .engWrite with
        | (.wait, w) => w.setEop o1
        | (.viol c v, w) => w.kvViol o1 0 c v
        | (.dmg v, w) => w.kvDmg o1 v
        | (.ok ps, w) => (w.kvPut o1 ps (toLe 8 len)).kvEnd o1

/-! ### Events -/

/-- Run a KV word: its token's first step is made, the accesses it follows are performed, and it is not finished or waiting
for a lock. -/
def State.kvReady (s : State) (o : EngOp) : Bool := o.phase == 1 && s.forkDone o

def State.kvStep (s : State) (o : EngOp) : State :=
  if o.ready = 2 then s.endEng o
  else if !s.kvReady o then s
  else match o.instr with
    | .kvwalk x => s.kvwalkStep o x
    | .kvappend x => s.kvappendStep o x
    | _ => s

def execKvWordComplete (op : Nat) (s : State) : Host.Outcome State Fault Refusal :=
  match mget s.eops op with
  | none => .next s
  | some o => .next (s.kvStep o)

def execKvcommitWrite (op : Nat) (s : State) : Host.Outcome State Fault Refusal :=
  match mget s.eops op with
  | none => .next s
  | some o =>
    .next (match o.instr with
      | .kvcommit _ => if o.ready = 2 then s.endEng o else if s.kvReady o then s.kvcommitStep o else s
      | _ => s)

/-- After 256 clocks the walker tries the lock again. -/
def execKvLockRetry (op : Nat) (s : State) : Host.Outcome State Fault Refusal :=
  match mget s.eops op with
  | none => .next s
  | some o => .next (if o.phase = 3 && decide (o.ready ≤ s.clock) then s.kvStep { o with phase := 1, ready := 0 } else s)

end Sys2Proof.Machine
end

