-- ==== Sys2Proof/Machine/Attn.lean ====
section
/-! DEFINITION. ATTN (13 R373 to R379, 15 R413): tiles of scores and values with a running maximum and sum, from scratchpad maps
or through the KV walker. -/

namespace Sys2Proof.Machine

/-! ### The exponential and the logarithm to base 2, each rounded once

Both are evaluated in fixed point with 320 fraction bits; the result is marked inexact, which is all that one rounding needs
(log entry 17). -/

def expBits : Nat := 320

/-- ln 2 in units of 2^-320: 2 * sum of (1/3)^(2k+1) / (2k+1). -/
def ln2Fix : Nat :=
  2 * ((List.range 110).foldl (fun (a : Nat × Nat) k => (a.1 + a.2 / (2 * k + 1), a.2 / 9)) (0, 2 ^ expBits / 3)).1

/-- e^y for y in units of 2^-320, 0 <= y < 1, by its series. -/
def expFix (y : Nat) : Nat :=
  ((List.range 90).foldl (fun (a : Nat × Nat) k => (a.1 + a.2, a.2 * y / 2 ^ expBits / (k + 1))) (0, 2 ^ expBits)).1

/-- exp2r: 2^x rounded to FP32; `free` stands for the result where x is the difference of two infinities. -/
def exp2r (x : XVal) (free : Nat) : Nat :=
  match x with
  | .nan => free
  | .inf n => if n then 0 else 0x7F800000
  | .zero _ => 0x3F800000
  | .fin neg m e st =>
    if decide (10 < leadExp m e) then (if neg then 0 else (fmtF32.round (.fin false 1 2000 false) .rne {}).1)
    else
      -- x = k + f / 2^d, 0 <= f < 2^d
      let d := (-e).toNat
      let v : Int := (if neg then -1 else 1) * (m * 2 ^ e.toNat : Nat)
      let k := v / (2 ^ d : Nat)
      let f := (v % (2 ^ d : Nat)).toNat
      if f = 0 && !st then (fmtF32.round (.fin false 1 k false) .rne {}).1
      else
        let y := f * ln2Fix / 2 ^ d
        (fmtF32.round (.fin false (expFix y) (k - expBits) true) .rne {}).1

/-- The binary logarithm of t in [1, 2), in units of 2^-320, by repeated squaring. -/
def log2Fix : Nat → Nat → Nat → Nat
  | 0, _, acc => acc
  | n + 1, t, acc =>
    let q := t * t / 2 ^ 400
    if 2 ^ 401 ≤ q then log2Fix n (q / 2) (2 * acc + 1) else log2Fix n q (2 * acc)

/-- log2 of a positive finite value, exact or inexact. -/
def xlog2 (m : Nat) (e : Int) : XVal :=
  let k := leadExp m e
  let b := Nat.log2 m
  let frac := if m = 2 ^ b then 0 else log2Fix expBits (m * 2 ^ 400 / 2 ^ b) 0
  let v : Int := k * 2 ^ expBits + frac
  if m = 2 ^ b then mkFin (decide (k < 0)) k.natAbs 0
  else if v < 0 then .fin true (v.natAbs - 1) (-(expBits : Int)) true
  else .fin false v.toNat (-(expBits : Int)) true

/-- m + log2(l) rounded once; `free` where the logarithm or the sum has no value. -/
def logSum (m l : Nat) (free : Nat) : Nat :=
  match f32 l with
  | .fin false a e _ =>
    (match (f32 m).add (xlog2 a e) false with
     | (.nan, _) => free
     | (v, _) => (fmtF32.round v .rne {}).1)
  | .inf false =>
    (match (f32 m).add (.inf false) false with
     | (.nan, _) => free
     | (v, _) => (fmtF32.round v .rne {}).1)
  | _ => free

/-! ### One row (R376, R377) -/

structure AttnRow where
  m : Nat := 0xFF800000
  l : Nat := 0
  out : List Nat

def mul32 (a b : Nat) : Nat := (fmtF32.fmul .rne {} a b).1
def add32 (a b : Nat) : Nat := (fmtF32.fadd .rne {} a b).1

def nan32 : Nat := 0x7FC00000

/-- The exact values of a value row. -/
def valueRow (f : NFC) (r : MRow) : List XVal := exactRow f r

/-- Update one row by one tile: `ks` are the visible keys' numbers, blocks and value rows, ascending. -/
def AttnRow.tile (st : AttnRow) (sc : Nat) (q : List (List XVal × Nat)) (ks : List (Nat × List (List XVal × Nat) × List XVal))
    (free : Nat) : AttnRow :=
  if ks.isEmpty then st
  else
    let ss := ks.map (fun k => mul32 sc (mmaElem 0 q k.2.1))
    if fmtF32.isNan st.m || ss.any (fun v => fmtF32.isNan v || v == 0x7F800000) then
      { m := nan32, l := nan32, out := st.out.map (fun _ => nan32) }
    else
      let mn := ss.foldl (fun a v => (fmtF32.fmm true a v).1) st.m
      if mn = 0xFF800000 then st
      else
        let neg := f32 (fmtF32.negCode mn)
        let cf := exp2r ((f32 st.m).add neg false).1 free
        let ps := ss.map (fun v => exp2r ((f32 v).add neg false).1 free)
        let ph := ps.map (fun p => fmtBf16.decode (fmtBf16.round (f32 p) .rne {}).1)
        let l := ps.foldl add32 (mul32 st.l cf)
        let blocks := [0, 1].map (fun b => (ks.zip ph).filter (fun k => k.1.1 / 32 == b))
        let out := st.out.zipIdx.map (fun od =>
          blocks.foldl (fun o b =>
            if b.isEmpty then o
            else accF32 o (dotBlock (b.map (fun k => k.2)) (b.map (fun k => k.1.2.2.getD od.2 .nan)) 0x7F 0x7F)) (mul32 od.1 cf))
        { m := mn, l := l, out := out }

def AttnRow.finish (st : AttnRow) (free : Nat) : AttnRow :=
  if fmtF32.isNan st.l then { st with m := nan32, out := st.out.map (fun _ => nan32) }
  else if f32 st.l == .zero false || f32 st.l == .zero true then { st with m := 0xFF800000, out := st.out.map (fun _ => 0) }
  else { st with m := logSum st.m st.l free, out := st.out.map (fun o => (fmtF32.fdiv .rne {} o st.l).1) }

/-! ### Issue (R373 to R375) -/

structure AttnDesc where
  sc : Nat
  ooff : Nat
  soff : Nat
  len : Nat
  qpos : Nat
  kpos : Nat

def attnDesc (vs : List W64) : AttnDesc :=
  let a := vs.getD 6 0
  let b := vs.getD 7 0
  { sc := bitsOf a 32 32, ooff := 1024 * bitsOf a 21 11, soff := 1024 * bitsOf a 10 11, len := bitsOf a 0 10
    qpos := bitsOf b 32 32, kpos := bitsOf b 0 32 }

def attnFmt : NFC → Bool
  | .bf16 | .f16 | .e4m3 | .e5m2 => true
  | _ => false

def headD (x : AttnArgs) : Nat := 64 * 2 ^ x.dsel.val

def attnChecks (x : AttnArgs) (is : Issue) (s : State) (vs : List W64) : Option (Cause × Info) :=
  let d := attnDesc vs
  let H := quorumH s is.who
  let D := headD x
  let v := fun k => vs.getD k 0
  let qm := mapAt vs 0
  let maps := if x.ksrc then [qm] else [qm, mapAt vs 2, mapAt vs 4]
  if !attnFmt x.fqk || !attnFmt x.fv || x.dsel.val = 3 then resv
  else if maps.any (fun m => !m.ok) || decide (64 < d.len) || (x.ksrc && (d.len != 0 || d.kpos != 0 || v 4 != 0 || v 5 != 0)) ||
      (x.ksrc && (kvRecBad (v 2) || decide (2 ^ 16 ≤ (v 3).toNat))) ||
      !tileFits s is.who d.ooff (4 * H * D) || !tileFits s is.who d.soff (8 * H) ||
      (decide (d.ooff < d.soff + 8 * H) && decide (d.soff < d.ooff + 4 * H * D)) then oprange
  else alignOf (firstSome (maps.map (fun m => m.misaligned 128 false false) ++
    [if x.ksrc && (v 2).toNat % 64 != 0 then some (v 2).toNat else none]))

def execAttn (x : AttnArgs) (s : State) : Host.Outcome State Fault Refusal := runWord (.attn x) (quorumBody (attnChecks x)) s

/-! ### Running (R376, R378) -/

/-- A key: its position, and where its key and value rows lie. -/
structure KeyAt where
  pos : Nat
  ka : Nat
  va : Nat

/-- Bytes of a row of D elements, in 128-byte units. -/
def rowUnits (f : NFC) (D : Nat) : Nat :=
  let n := ((rowRanges f D 0).map (fun r => r.1 + r.2)).foldl max 0
  (n + 127) / 128 * 128

/-- Keys of the maps. -/
def mapKeys (o : EngOp) (d : AttnDesc) : List KeyAt :=
  (List.range d.len).map (fun j => ⟨d.kpos + j, (mapAt o.vals 2).row j, (mapAt o.vals 4).row j⟩)

/-- What the walker makes of a sequence operand. -/
inductive SeqGot where
  | keys (l : List KeyAt)
  | wait
  | bad (est : Option Nat)
  | viol (c : VClass) (va : Nat)
  | dmg (va : Nat)

/-- Resolve positions from `p` on, `n` of them. -/
def State.seqKeys (s : State) (o : EngOp) (r : KvRec) (h p : Nat) : Nat → SeqGot × State
  | 0 => (.keys [], s)
  | n + 1 =>
    match s.kvResolve o r p r.len with
    | (.wait, t) => (.wait, t)
    | (.viol c v, t) => (.viol c v, t)
    | (.dmg v, t) => (.dmg v, t)
    | (.ok .none, t) => (.bad none, t)
    | (.ok .form, t) => (.bad (some estForm), t)
    | (.ok .range, t) => (.bad (some estRange), t)
    | (.ok (.page pg k _), t) =>
      match t.seqKeys o r h (p + 1) n with
      | (.keys l, u) =>
        let b := pg + h * r.hstr + k * r.rsz
        (.keys (⟨p, b + r.koff, b + r.voff⟩ :: l), u)
      | q => q

/-- Positions whose tiles the operation takes: with CAUSAL, tiles that begin after the last query are skipped. -/
def seqCount (x : AttnArgs) (d : AttnDesc) (H len : Nat) : Nat :=
  if x.causal then min len (64 * ((d.qpos + H - 1) / 64 + 1)) else len

def State.seqRead (s : State) (o : EngOp) (x : AttnArgs) (d : AttnDesc) : EngOp × SeqGot × State :=
  let vr := (o.vals.getD 2 0).toNat
  let h := (o.vals.getD 3 0).toNat % 2 ^ 16
  let held := { o with nums := o.nums.drop 1 }
  let first := held.nums.isEmpty
  match s.kvRecord held vr with
  | (.wait, t) => (o, .wait, t)
  | (.viol c v, t) => (o, .viol c v, t)
  | (.dmg v, t) => (o, .dmg v, t)
  | (.ok (r, o1), t) =>
    let o2 := { o1 with nums := [o.nums.getD 0 1, r.len] }
    -- the read of LEN is an acquire at CSCOPE; it waits while the invalidate would be held (R83, R84, R413)
    if first && r.wide && !t.canFlash o.core then (o, .wait, t)
    else
      let t := if first && r.wide then t.flash o.core else t
      if r.nhead ≤ h then (o2, .bad none, t)
      else if r.rsz < max (rowUnits x.fqk (headD x)) (rowUnits x.fv (headD x)) then (o2, .bad none, t)
      else
      match t.seqKeys o2 r h 0 r.len with
      | (.keys l, u) => (o2, .keys (l.take (seqCount x d (64 * o.nums.getD 0 1) r.len)), u)
      | (g, u) => (o2, g, u)

/-- Everything an ATTN computes once its keys are known. -/
def State.attnRun (s : State) (o : EngOp) (x : AttnArgs) (d : AttnDesc) (keys : List KeyAt) : State :=
  let H := 64 * o.nums.getD 0 1
  let D := headD x
  let qm := mapAt o.vals 0
  let kspace : Space := if x.ksrc then .g else (mapAt o.vals 2).space
  let vspace : Space := if x.ksrc then .g else (mapAt o.vals 4).space
  -- with no key no tile runs, and only INIT and FIN act (R378)
  let qr := if keys.isEmpty then [] else (List.range H).flatMap (fun i => rowRanges x.fqk D (qm.row i))
  let (q, s1) := s.readOperands o
    [⟨qm.space, (mxOfNfc x.fqk).isSome, qr⟩, ⟨kspace, (mxOfNfc x.fqk).isSome, keys.flatMap (fun k => rowRanges x.fqk D k.ka)⟩,
     ⟨vspace, (mxOfNfc x.fv).isSome, keys.flatMap (fun k => rowRanges x.fv D k.va)⟩]
  if q.wait then s1.setEop o
  else if keys.isEmpty && !x.init && !x.fin then s1.endMatrix o false
  else
    let stBad := !x.init && (s1.locPoison (.ac o.wg d.ooff) (4 * H * D) || s1.locPoison (.ac o.wg d.soff) (8 * H))
    let q := if stBad then { q with poison := q.poison ++ [((d.ooff : Int), ())] } else q
    if !q.viols.isEmpty || !q.poison.isEmpty then
      (((s1.noteErrors o q).putTile o d.ooff (List.replicate (H * D) nan32))).endMatrix o true
    else
      let set := fun k => q.sets.getD k {}
      let ks := keys.map (fun k => (k.pos, (decodeRow x.fqk (s1.readRow o (set 1) x.fqk D k.ka), valueRow x.fv (s1.readRow o (set 2) x.fv D k.va))))
      let ob := s1.getTile o d.ooff (H * D)
      let sb := s1.getTile o d.soff (2 * H)
      let tiles := (List.range ((keys.length + 63) / 64)).map (fun t => (ks.drop (64 * t)).take 64)
      let rows := (List.range H).map (fun i =>
        let free := (Config.freeWord (s1.fresh + i)).toNat % 2 ^ 32
        let st : AttnRow := if x.init then { out := List.replicate D 0 }
          else { m := sb.getD (2 * i) 0, l := sb.getD (2 * i + 1) 0, out := (ob.drop (i * D)).take D }
        let qi := decodeRow x.fqk (s1.readRow o (set 0) x.fqk D (qm.row i))
        let st1 := tiles.foldl (fun a t =>
          let vis := t.zipIdx.filter (fun k => !x.causal || decide (k.1.1 ≤ d.qpos + i))
          a.tile d.sc qi (vis.map (fun k => (k.2, k.1.2))) free) st
        if x.fin then st1.finish free else st1)
      let s2 := { s1 with fresh := s1.fresh + H }
      let s3 := s2.putTile o d.ooff (rows.flatMap AttnRow.out)
      (s3.putTile o d.soff (rows.flatMap (fun r => [r.m, r.l]))).endMatrix o false

/-- An operand error of the sequence operand (R413). One that is neither a violation nor poison (NONE, FORM, RANGE, a head selector
beyond NHEAD, a short RSZ) is logged as an OPERR with the record's address (log entry 113). -/
def State.seqError (s : State) (o : EngOp) (x : AttnArgs) (d : AttnDesc) : State :=
  (s.putTile o d.ooff (List.replicate (64 * o.nums.getD 0 1 * headD x) nan32)).endMatrix o true

def State.runAttn (s : State) (o : EngOp) (x : AttnArgs) : State :=
  let d := attnDesc o.vals
  if !x.ksrc then s.attnRun o x d (mapKeys o d)
  else match s.seqRead o x d with
    | (o1, .wait, t) => t.setEop o1
    | (o1, .keys l, t) => t.attnRun o1 x d l
    | (o1, .viol c v, t) => (t.logOperand o1 [(.g, .operand, c, (v : Int))] false).seqError o1 x d
    | (o1, .dmg v, t) => (t.logOperr o1 v).seqError o1 x d
    | (o1, .bad none, t) => (t.logOperr o1 (o.vals.getD 2 0).toNat).seqError o1 x d
    | (o1, .bad (some k), t) =>
      match t.kvEst o1 (o.vals.getD 2 0).toNat k with
      | (.wait, u) => u.setEop o1
      | (.viol c v, u) => (u.logOperand o1 [(.g, .operand, c, (v : Int))] false).seqError o1 x d
      | (_, u) => (u.logOperr o1 (o.vals.getD 2 0).toNat).seqError o1 x d

def execAttnComplete (op : Nat) (s : State) : Host.Outcome State Fault Refusal :=
  match mget s.eops op with
  | none => .next s
  | some o =>
    .next (match o.instr with
      | .attn x => if s.matrixReady o then s.runAttn o x else s
      | _ => s)

end Sys2Proof.Machine
end

