-- ==== Sys2Proof/Machine/Geo.lean ====
section
/-! DEFINITION. Exact geometric predicates (14 R380 to R396): the FP64 filter, the exact signs, the symbolic tie-break and the
unit that runs them. -/

namespace Sys2Proof.Machine

/-! ### Stage A (R387): FP64 codes, each operation rounded once. `ab` evaluates perm. -/

def f64 (c : Nat) : XVal := fmtF64.decode c
def add64 (a b : Nat) : Nat := (fmtF64.fadd .rne {} a b).1
def sub64 (a b : Nat) : Nat := (fmtF64.fsub .rne {} a b).1
def abs64 (a : Nat) : Nat := a % 2 ^ 63
def mul64 (ab : Bool) (a b : Nat) : Nat := (fmtF64.fmul .rne {} (if ab then abs64 a else a) (if ab then abs64 b else b)).1

/-- A difference of products. -/
def subP (ab : Bool) (a b : Nat) : Nat := if ab then add64 a b else sub64 a b

/-- Points as lists of coordinate codes. -/
abbrev Pts := List (List Nat)

def Pts.co (p : Pts) (i j : Nat) : Nat := (p.getD i []).getD j 0

/-- Coordinate j of point i less that of the last point. -/
def Pts.diff (p : Pts) (i j : Nat) : Nat := sub64 (p.co i j) (p.co (p.length - 1) j)

def orient2Expr (ab : Bool) (p : Pts) : Nat :=
  let d := p.diff
  subP ab (mul64 ab (d 0 0) (d 1 1)) (mul64 ab (d 0 1) (d 1 0))

/-- The three cofactor terms that ORIENT3 and INCIRC weight by `h`. -/
def threeTerms (ab : Bool) (p : Pts) (h : Nat → Nat) : Nat :=
  let d := p.diff
  let t := fun i j => subP ab (mul64 ab (d i 0) (d j 1)) (mul64 ab (d j 0) (d i 1))
  let cdad := subP ab (mul64 ab (d 2 0) (d 0 1)) (mul64 ab (d 0 0) (d 2 1))
  add64 (add64 (mul64 ab (h 0) (t 1 2)) (mul64 ab (h 1) cdad)) (mul64 ab (h 2) (t 0 1))

def orient3Expr (ab : Bool) (p : Pts) : Nat := threeTerms ab p (fun i => p.diff i 2)

def lift2 (ab : Bool) (p : Pts) (i : Nat) : Nat :=
  add64 (mul64 ab (p.diff i 0) (p.diff i 0)) (mul64 ab (p.diff i 1) (p.diff i 1))

def incircExpr (ab : Bool) (p : Pts) : Nat := threeTerms ab p (lift2 ab p)

def lift3 (ab : Bool) (p : Pts) (i : Nat) : Nat := add64 (lift2 ab p i) (mul64 ab (p.diff i 2) (p.diff i 2))

def inspherExpr (ab : Bool) (p : Pts) : Nat :=
  let d := p.diff
  let m := mul64 ab
  let t := fun i j => subP ab (m (d i 0) (d j 1)) (m (d j 0) (d i 1))
  let tab := t 0 1
  let tbc := t 1 2
  let tcd := t 2 3
  let tda := t 3 0
  let tac := t 0 2
  let tbd := t 1 3
  let abc := add64 (subP ab (m (d 0 2) tbc) (m (d 1 2) tac)) (m (d 2 2) tab)
  let bcd := add64 (subP ab (m (d 1 2) tcd) (m (d 2 2) tbd)) (m (d 3 2) tbc)
  let cda := add64 (add64 (m (d 2 2) tda) (m (d 3 2) tac)) (m (d 0 2) tcd)
  let dab := add64 (add64 (m (d 3 2) tab) (m (d 0 2) tbd)) (m (d 1 2) tda)
  let l := lift3 ab p
  add64 (subP ab (m (l 3) abc) (m (l 2) dab)) (subP ab (m (l 1) cda) (m (l 0) bcd))

inductive GeoOp where
  | orient2 | orient3 | incirc | inspher | segx
  deriving DecidableEq, Repr

/-- EA = (a + b * 2^-53) * 2^-53. -/
def geoEA : GeoOp → XVal
  | .orient2 | .segx => .fin false (3 * 2 ^ 53 + 16) (-106) false
  | .orient3 => .fin false (7 * 2 ^ 53 + 56) (-106) false
  | .incirc => .fin false (10 * 2 ^ 53 + 96) (-106) false
  | .inspher => .fin false (16 * 2 ^ 53 + 224) (-106) false

def geoExpr (op : GeoOp) (ab : Bool) (p : Pts) : Nat :=
  match op with
  | .orient2 | .segx => orient2Expr ab p
  | .orient3 => orient3Expr ab p
  | .incirc => incircExpr ab p
  | .inspher => inspherExpr ab p

/-- The filter: the sign, or none where it cannot decide. -/
def stageA (op : GeoOp) (p : Pts) : Option Int :=
  let det := f64 (geoExpr op false p)
  let perm := f64 (geoExpr op true p)
  if !isFinite perm || perm.cmp (.fin false 1 (-900) false) == some .lt then none
  else
    let eb := f64 (fmtF64.round (geoEA op |>.mul perm).1 .rne {}).1
    if det.absLe eb then none else some (if det.isNeg then -1 else 1)

/-- The four orientations of two segments. -/
def segTriples (p : Pts) : List Pts :=
  let g := fun i => p.getD i []
  [[g 0, g 1, g 2], [g 0, g 1, g 3], [g 2, g 3, g 0], [g 2, g 3, g 1]]

/-- Stage A of any predicate: its code, or none. -/
def filterCode (op : GeoOp) (p : Pts) : Option Int :=
  match op with
  | .segx =>
    ((segTriples p).mapM (stageA .orient2)).map (fun os =>
      if os.getD 0 0 != os.getD 1 0 && os.getD 2 0 != os.getD 3 0 then 1 else 0)
  | op => stageA op p

/-! ### Exact signs (R382, R388) -/

/-- Coordinates as integers in one unit. -/
def exactPts (p : Pts) : List (List Int) :=
  let vs := p.map (fun r => r.map f64)
  let lo := ((vs.flatten).map (fun v => v.exp.getD 0)).foldl min 0
  vs.map (fun r => r.map (fun v => v.scaled lo))

def dropAt {α : Type} (l : List α) (j : Nat) : List α := l.eraseIdx j

/-- The determinant of a square matrix, by its first row. -/
def det : Nat → List (List Int) → Int
  | 0, _ => 1
  | n + 1, m =>
    ((m.headD []).zipIdx.map (fun e =>
      (if e.2 % 2 = 0 then e.1 else -e.1) * (if e.1 = 0 then 0 else det n ((m.tail).map (fun r => dropAt r e.2))))).sum

/-- The rows of R382 without the final 1. -/
def geoRows (op : GeoOp) (q : List (List Int)) : List (List Int) :=
  match op with
  | .incirc | .inspher => q.map (fun r => r ++ [(r.map (fun x => x * x)).sum])
  | _ => q

def sgnOf (v : Int) : Int := if v < 0 then -1 else if v = 0 then 0 else 1

def exactSign (op : GeoOp) (q : List (List Int)) : Int := sgnOf (det q.length ((geoRows op q).map (fun r => r ++ [1])))

/-! ### The symbolic perturbation (R389) -/

/-- Sets of entries, one at most in each row and column: the exponents chosen, with row and column. -/
def choices (W : Nat) : List Nat → Nat → List Nat → List (List (Nat × Nat × Nat))
  | [], _, _ => [[]]
  | id :: ids, row, used =>
    choices W ids (row + 1) used ++
      ((List.range W).filter (fun j => !used.contains j)).flatMap (fun j =>
        (choices W ids (row + 1) (j :: used)).map (fun c => (W * id + j, row, j) :: c))

/-- The exponent of one set is below that of another: sums of distinct powers of two, largest first. -/
def expLt : List Nat → List Nat → Bool
  | _, [] => false
  | [], _ :: _ => true
  | a :: as, b :: bs => if a = b then expLt as bs else decide (a < b)

def unitRow (n j : Nat) : List Int := (List.range n).map (fun k => if k = j then 1 else 0)

/-- The sign of the term of least exponent that does not vanish. -/
def sosSign (op : GeoOp) (q : List (List Int)) (ids : List Nat) : Int :=
  let m := (geoRows op q).map (fun r => r ++ [1])
  let W := (m.headD []).length - 1
  let cs := (choices W ids 0 []).map (fun c =>
    (sortBy (fun (a b : Nat) => decide (b < a)) (c.map Prod.fst), c))
  let ordered := sortBy (fun a b => expLt a.1 b.1) cs
  let coef := fun (c : List (Nat × Nat × Nat)) => det q.length (m.zipIdx.map (fun r =>
    match c.find? (fun e => e.2.1 == r.2) with
    | some e => unitRow (W + 1) e.2.2
    | none => r.1))
  match ordered.find? (fun c => coef c.2 != 0) with
  | some c => sgnOf (coef c.2)
  | none => 0

/-! ### Segments (R390) -/

def onSeg (a u v : List Int) : Bool :=
  let c := fun (p : List Int) j => p.getD j 0
  exactSign .orient2 [u, v, a] == 0 &&
    (List.range 2).all (fun j => decide (min (c u j) (c v j) ≤ c a j) && decide (c a j ≤ max (c u j) (c v j)))

def segClass (q : List (List Int)) : Int :=
  let g := fun i => q.getD i []
  let o := fun i j k => exactSign .orient2 [g i, g j, g k]
  if o 0 1 2 * o 0 1 3 < 0 && o 2 3 0 * o 2 3 1 < 0 then 1
  else
    let on := ([(g 0, g 2, g 3), (g 1, g 2, g 3), (g 2, g 0, g 1), (g 3, g 0, g 1)].filter
      (fun t => onSeg t.1 t.2.1 t.2.2)).map Prod.fst
    if on.isEmpty then 0 else if (on.eraseDups).length = 1 then 4 else 5

/-- The exact result of one orientation with its tie-break. -/
def exactOrSos (op : GeoOp) (q : List (List Int)) (ids : Option (List Nat)) : Int :=
  let v := exactSign op q
  match ids with
  | some l => if v = 0 && (l.eraseDups).length == l.length then sosSign op q l else v
  | none => v

/-- Stages B and C: the code of a lane that the filter leaves. -/
def exactCode (op : GeoOp) (p : Pts) (ids : Option (List Nat)) : Int :=
  let q := exactPts p
  match op with
  | .segx =>
    (match ids with
     | some l =>
       if (l.eraseDups).length == l.length then
         let o := fun i j k => exactOrSos .orient2 [q.getD i [], q.getD j [], q.getD k []] (some [l.getD i 0, l.getD j 0, l.getD k 0])
         if o 0 1 2 != o 0 1 3 && o 2 3 0 != o 2 3 1 then 1 else 0
       else segClass q
     | none => segClass q)
  | op => exactOrSos op q ids

/-! ### Issue (R383 to R386, R391, R392) -/

def geoArgs : Instr → Option (GeoOp × GeoArgs)
  | .geoOrient2 x => some (.orient2, x)
  | .geoOrient3 x => some (.orient3, x)
  | .geoIncirc x => some (.incirc, x)
  | .geoInsphr x => some (.inspher, x)
  | .geoSegx x => some (.segx, x)
  | _ => none

/-- Lane L's coordinates as FP64 codes; an FP32 coordinate converts exactly. -/
def geoCoords (is : Issue) (x : GeoArgs) (L : Nat) : List Nat :=
  let (k, dim) := geoShape is.i
  let us := vuses is.i
  let u := us.getD 1 {op := .dir 0}
  let r := regOf is.w us u L
  (List.range (k * dim)).map (fun t =>
    if x.f32 then (fmtF64.round (fmtF32.decode (is.w.val (r + t) L).toNat) .rne {}).1
    else (is.w.val64 (r + 2 * t) L).toNat)

def geoIds (is : Issue) (x : GeoArgs) (L : Nat) : List Nat :=
  if x.sos then
    let us := vuses is.i
    let u := us.getD 2 {op := .dir 0}
    let r := regOf is.w us u L
    (List.range (geoShape is.i).1).map (fun k => (is.w.val (r + k) L).toNat)
  else []

def badCoord (cs : List Nat) : Bool := cs.any (fun c => !isFinite (f64 c))

def geoBody (x : GeoArgs) (is : Issue) (s : State) : Act :=
  let cs := is.over (geoCoords is x)
  let bad := cs.any (fun e => badCoord e.2)
  if is.mask = 0 then .next s
  else if x.trapnf && bad then .trap .geonf (.same 0)
  else if 8 ≤ (s.core (coreOf is.who)).geo.length then .hold s
  else
    let (o, s1) := s.fork is [] none false
    let u := (vuses is.i).getD 0 {op := .dir 0}
    let o1 := { o with
      phase := 1
      lanes := cs.map (fun e => (e.1, (e.2 ++ geoIds is x e.1).map (BitVec.ofNat 64)))
      dst := is.over (fun L => [regOf is.w (vuses is.i) u L]) }
    let s2 := (s1.setEop o1).modCore o1.core (fun c => { c with geo := c.geo ++ [o1.id] })
    .next (if bad then s2.addFlags is.who fGNF else s2)

def execGeoOrient2 (x : GeoArgs) (s : State) : Host.Outcome State Fault Refusal := runWord (.geoOrient2 x) (geoBody x) s
def execGeoOrient3 (x : GeoArgs) (s : State) : Host.Outcome State Fault Refusal := runWord (.geoOrient3 x) (geoBody x) s
def execGeoIncirc (x : GeoArgs) (s : State) : Host.Outcome State Fault Refusal := runWord (.geoIncirc x) (geoBody x) s
def execGeoInsphr (x : GeoArgs) (s : State) : Host.Outcome State Fault Refusal := runWord (.geoInsphr x) (geoBody x) s
def execGeoSegx (x : GeoArgs) (s : State) : Host.Outcome State Fault Refusal := runWord (.geoSegx x) (geoBody x) s

/-! ### The unit (R392 to R395) -/

/-- A lane's points and, with SOS, ids. -/
def geoLane (o : EngOp) (L : Nat) : Pts × Option (List Nat) :=
  let (k, dim) := geoShape o.instr
  let v := (mgetD o.lanes L []).map BitVec.toNat
  let p := (List.range k).map (fun i => (v.drop (dim * i)).take dim)
  let sos := match geoArgs o.instr with
    | some (_, x) => x.sos
    | none => false
  (p, if sos then some (v.drop (k * dim)) else none)

def codeWord (c : Int) : Nat := (c % (2 ^ 32 : Nat)).toNat

/-- What the filter decides for a lane. -/
def geoStage (o : EngOp) (op : GeoOp) (x : GeoArgs) (L : Nat) : Option Nat :=
  let (p, _) := geoLane o L
  if badCoord p.flatten then some 3
  else match filterCode op p with
    | some c => some (codeWord c)
    | none => if x.x then none else some 2

/-- A GEO word whose warp holds its slot and its window. -/
def State.geoHere (s : State) (o : EngOp) : Bool := !s.isAway o.who && (s.ctl o.who).spilled.isNone

/-- The undecided lanes of a core's exact unit, oldest first (R230, R392). -/
def State.exactQueue (s : State) (core : Nat) : List (Nat × Nat) :=
  let os := (mvals s.eops).filter (fun e => e.core == core && e.phase == 2 && (geoArgs e.instr).isSome && s.geoHere e)
  (sortBy (fun (a b : EngOp) => decide (a.born < b.born) || (a.born == b.born && decide (a.id < b.id))) os).flatMap (fun e =>
    ((lanesOf e.mask).filter (fun k => !mhas e.res k)).map (fun k => (e.id, k)))

/-- The exact unit serves four lanes: the oldest that wait fill what is free, and none in service gives way. -/
def State.takeExact (s : State) (core : Nat) : State :=
  let now := (s.core core).exact
  let wait := (s.exactQueue core).filter (fun e => !now.contains e)
  s.modCore core (fun c => { c with exact := now ++ wait.take (4 - now.length) })

/-- Stage A of the oldest queued word ends. -/
def State.geoStageA (s : State) (core : Nat) : State :=
  match (s.core core).geo with
  | [] => s
  | id :: rest =>
    let s1 := s.modCore core (fun c => { c with geo := rest })
    match mget s.eops id with
    | none => s1
    | some o =>
      match geoArgs o.instr with
      | none => s1
      | some (op, x) =>
        let codes := (lanesOf o.mask).filterMap (fun L => (geoStage o op x L).map (fun c => (L, c)))
        (s1.setEop { o with phase := 2, res := codes }).takeExact core

def execGeoStageA (core : Nat) (s : State) : Host.Outcome State Fault Refusal := .next (s.geoStageA core)

/-- The exact unit ends a lane that it serves. -/
def execGeoExactLane (core op lane : Nat) (s : State) : Host.Outcome State Fault Refusal :=
  match mget s.eops op with
  | none => .next s
  | some o =>
    match geoArgs o.instr with
    | none => .next s
    | some (g, _) =>
      if (s.core core).exact.contains (op, lane) && o.mask.getLsbD lane then
        let (p, ids) := geoLane o lane
        let t := s.setEop { o with res := mset o.res lane (codeWord (exactCode g p ids)) }
        .next ((t.modCore core (fun c => { c with exact := c.exact.filter (fun e => e != (op, lane)) })).takeExact core)
      else .next s

/-! ### Pre-emption and spill (R395) -/

/-- The outstanding GEO words of a thread, in issue order. -/
def State.geoOf (s : State) (who : Nat) : List EngOp :=
  sortBy (fun (a b : EngOp) => decide (a.born < b.born) || (a.born == b.born && decide (a.id < b.id)))
    ((mvals s.eops).filter (fun o => o.who == who && (geoArgs o.instr).isSome))

/-- A thread leaves the unit: its word in stage A finishes it, its queued words and its lanes go. What takes their place is the
caller's, once the thread is away. -/
def State.leaveGeo (s : State) (who : Nat) : State :=
  let core := coreOf who
  let mine := (s.geoOf who).map EngOp.id
  let s1 := if (s.core core).geo.head?.any mine.contains then s.geoStageA core else s
  s1.modCore core (fun c => { c with
    geo := c.geo.filter (fun i => !mine.contains i), exact := c.exact.filter (fun e => !mine.contains e.1) })

/-- A thread comes back: its queued words keep their age, so that the queue stays in issue order; its lanes enter the exact unit with
the resume clock as theirs, each from stage B. The unit takes lanes once every warp of the step is back. -/
def State.returnGeo (s : State) (who : Nat) : State :=
  let core := coreOf who
  let mine := s.geoOf who
  let s1 := mine.foldl (fun t o => t.setEop { o with core := core, born := if o.phase = 2 then s.clock else o.born }) s
  let age := fun (i : Nat) => (mget s1.eops i).elim 0 EngOp.born
  let before := fun (a b : Nat) => decide (age a < age b) || (age a == age b && decide (a < b))
  let back := (mine.filter (fun o => o.phase != 2)).map EngOp.id
  s1.modCore core (fun c => { c with geo := sortBy before (c.geo ++ back) })

/-- The GEO slots of a save area: those of the first eight outstanding words, the others not valid. A warp may have more words
outstanding than slots, which the spec leaves open (log entry 104). -/
def State.writeGeoSlots (s : State) (who : Nat) : State :=
  let base := s.tsave who + 0x40000
  let os := s.geoOf who
  (List.range 8).foldl (fun t k => match os[k]? with
    | some o =>
      let (n, d) := geoShape o.instr
      (geoSlot o (n * d)).foldl (fun u p => u.saveWrite who (base + 0x8000 * k + p.1) p.2) t
    | none => t.saveWrite who (base + 0x8000 * k) (List.replicate 64 0)) s

/-- A saved GEO word as its slot holds it (R395, R453, R460). -/
def EngOp.ofSlot (o : EngOp) (bs : List Byte) (n : Nat) : EngOp :=
  let m := BitVec.ofNat 128 (sub bs 32 16)
  let word := fun (at_ k L : Nat) => sub bs (at_ + 512 * k + 4 * L) 4
  let ids := match geoArgs o.instr with
    | some (_, x) => if x.sos then (geoShape o.instr).1 else 0
    | none => 0
  { o with
    mask := m
    dst := (lanesOf m).map (fun L => (L, [sub bs (0x40 + L) 1]))
    res := (lanesOf m).filterMap (fun L =>
      let c := sub bs (0x100 + L) 1
      if c < 128 then none else some (L, if c % 16 = 15 then 2 ^ 32 - 1 else c % 16))
    lanes := (lanesOf m).map (fun L => (L,
      (List.range n).map (fun k => BitVec.ofNat 64 (word 0x1000 (2 * k) L + 2 ^ 32 * word 0x1000 (2 * k + 1) L)) ++
      (List.range ids).map (fun k => BitVec.ofNat 64 (word 0x200 k L)))) }

/-- The outstanding words of a thread are captured anew from its GEO slots. -/
def State.refillGeo (s : State) (who : Nat) : State :=
  ((s.geoOf who).take 8).zipIdx.foldl (fun t e =>
    let (k, d) := geoShape e.1.instr
    match t.readSaved who (t.tsave who + 0x40000 + 0x8000 * e.2) (0x1000 + 1024 * (k * d)) with
    | (some bs, u) => u.setEop (e.1.ofSlot bs (k * d))
    | (none, u) => u) s

/-! ### Completion (R393) -/

/-- Write the predicate of the interrupted context or of the path's own. -/
def State.putPred (s : State) (o : EngOp) (pd : Nat) : State :=
  let m := maskWhere o.mask (fun L => !o.outdone.contains (128 * (256 + pd) + L))
  if (s.ctl o.who).inTrap && !o.handler then
    (lanesOf m).foldl (fun t L => t.putSaveBit o.who (predByte pd L) (mgetD o.res L 0 == 2)) s
  else s.modWarp o.who (fun w => w.setP pd (merge (w.pred pd) m (maskWhere m (fun L => mgetD o.res L 0 == 2))))

/-- Pages the write needs while a handler runs. -/
def State.geoReady (s : State) (o : EngOp) (pd : Nat) : Bool × State :=
  let regs := ((mvals o.dst).flatten).eraseDups
  let absent := s.longAbsent o.who o.handler regs
  if !absent.isEmpty then (false, s.wantBlocks o.who absent)
  else match s.longReady o.who o.handler regs with
    | (false, t) => (false, t)
    | (true, t) =>
      if pd != 7 && (t.ctl o.who).inTrap && !o.handler then
        t.saveAllReady o.who .store [(t.tsave o.who + 0x24300, 0x70)]
      else (true, t)

/-- Write d and the predicate in every issuing lane at once, and decrement the flag (R393). -/
def State.geoEnd (s : State) (o : EngOp) (x : GeoArgs) : State :=
  if o.phase != 2 || !s.geoHere o || !((lanesOf o.mask).all (fun L => mhas o.res L)) then s
  else match s.geoReady o x.pd.val with
    | (false, t) => t
    | (true, t) =>
      let t1 := (lanesOf o.mask).foldl (fun u L =>
        let r := (mgetD o.dst L []).headD 0
        if o.outdone.contains (128 * r + L) then u
        else u.putLong o.who r L o.handler (BitVec.ofNat 32 (mgetD o.res L 0)) (BitVec.allOnes 32) false) t
      (if x.pd.val = 7 then t1 else t1.putPred o x.pd.val).endEng o

def execGeoComplete (op : Nat) (s : State) : Host.Outcome State Fault Refusal :=
  match mget s.eops op with
  | none => .next s
  | some o =>
    match geoArgs o.instr with
    | none => .next s
    | some (_, x) => .next (s.geoEnd o x)

end Sys2Proof.Machine
end

