-- ==== Sys2Proof/Machine/System.lean ====
section
/-! DEFINITION. System words (10 R276 to R293): control and status registers, feature words, TLBINV, LAUNCH and the
command-program words WAITSEM, SIGNALSEM and EVENT, with the events that carry a LAUNCH and the waits on. -/

namespace Sys2Proof.Machine

/-! ### Grids in the queues of clusters (R425, R426) -/

def Grid.wgs (g : Grid) : Nat := g.descr.ngx * g.descr.ngy * g.descr.ngz

def Grid.units (g : Grid) : Nat := g.wgs / max 1 g.descr.csize

/-- The place of cluster c among the targets. -/
def Grid.targetIdx (g : Grid) (c : Nat) : Option Nat :=
  let i := (c + 32 - g.cfirst % 32) % 32
  if i < g.ccnt then some i else none

/-- Units that go to cluster c: those m with m mod CCNT its place. -/
def Grid.unitsIn (g : Grid) (c : Nat) : Nat :=
  match g.targetIdx c with
  | none => 0
  | some i => (g.units + g.ccnt - 1 - i) / max 1 g.ccnt

def Grid.targets (g : Grid) : List Nat := (List.range g.ccnt).map (fun i => (g.cfirst + i) % 32)

/-- Units of the grid that are pre-empted in a cluster: placed before, and away from every core. -/
def State.savedUnits (s : State) (g : Grid) (c : Nat) : List Nat :=
  (((mvals s.wgs).filter (fun w => w.grid == g.id && w.core / 8 == c && w.st != .resident && w.st != .retired)).map Wg.unit).eraseDups

/-- The grid stands in the FIFO of a cluster. -/
def State.inFifo (s : State) (g : Grid) (c : Nat) : Bool :=
  (g.targetIdx c).isSome && (decide (mgetD g.placed c 0 < g.unitsIn c) || !(s.savedUnits g c).isEmpty)

/-- The grids of a cluster's FIFO of one priority, in the order they joined. -/
def State.fifo (s : State) (c p : Nat) : List Grid := (mvals s.grids).filter (fun g => g.prio == p && s.inFifo g c)

def State.queued (s : State) (c : Nat) : Nat := ((mvals s.grids).filter (fun g => s.inFifo g c)).length

/-! ### CSRs (R277, R420, R426, R437, R468) -/

/-- IMPLW (R283). -/
def State.implw (s : State) : W64 :=
  BitVec.ofNat 64 (Config.stepping.toNat * 2 ^ 48 + s.regs.cclk * 2 ^ 32 + 1500 * 2 ^ 16 + 0x48 * 2 ^ 8)

def State.rTstat (s : State) (who : Nat) : Nat :=
  let c := s.ctl who
  bit64 10 c.inTrap + bit64 9 c.pabft + bit64 8 c.pmtx + (if c.inTrap then c.cause else 0)

/-- What a CSR holds for the requester; `some none` for a region entry whose read meets poison. Its reserved bits read 0 (R10, R106). -/
def State.csrValue (s : State) (is : Issue) (num : Nat) : Option (Option W64) :=
  let who := is.who
  let st := isStream who
  let w := s.warp who
  let c := clusterOf who
  let ok := fun (v : W64) => some (some v)
  let seed := s.seedOf who
  if num = 0x000 then ok (is.w.arstat.setWidth 64)
  else if num = 0x004 then ok (if st then 0 else seed.extractLsb' 0 64)
  else if num = 0x005 then ok (if st then 0 else seed.extractLsb' 64 64)
  else if num = 0x008 then ok (s.floor0 is.ctx)
  else if num = 0x009 then ok (s.floor1 is.ctx)
  else if num = 0x00A then ok s.implw
  else if 0x080 ≤ num ∧ num ≤ 0x0BF then some ((s.regionEntry is.ctx (num - 0x080)).map (fun e => e &&& ~~~0xFFF#64))
  else if num = 0x2A1 then ok (BitVec.ofNat 64 ((if st then 0 else w.prio) * 2 ^ 12 + is.ctx))
  else if st then
    if num = 0x120 then ok (s.cluster c).recctl
    else if 0x128 ≤ num ∧ num ≤ 0x12F then ok (BitVec.ofNat 64 (s.core (8 * c + (num - 0x128))).recidx)
    else if 0x280 ≤ num ∧ num ≤ 0x29F then ok (BitVec.ofNat 64 (s.fifo c (num - 0x280)).length)
    else (s.clusterReg c num).map some
  else if num = 0x001 then ok ((s.winw who).setWidth 64)
  else if num = 0x002 then ok ((s.core (coreOf who)).partw.setWidth 64)
  else if num = 0x010 then ok w.viol.info
  else if num = 0x011 then ok w.viol.addr
  else if num = 0x012 then ok w.viol.pc
  else if 0x040 ≤ num ∧ num ≤ 0x05F then ok ((s.wgOf who).elim 0 (fun g => mgetD g.spxt (num - 0x040) 0))
  else if num = 0x100 then ok (s.ctl who).tvec
  else if num = 0x101 then ok (BitVec.ofNat 64 (s.rTstat who))
  else if num = 0x102 then ok (BitVec.ofNat 64 (s.tsave who))
  else none

/-- A requester may write the register. -/
def State.csrWritable (s : State) (who num : Nat) : Bool :=
  if num = 0x000 then true
  else if isStream who then
    (decide (0x0C0 ≤ num) && decide (num ≤ 0x0C3)) || (decide (0x110 ≤ num) && decide (num ≤ 0x114)) || num == 0x120 ||
      (decide (0x200 ≤ num) && decide (num < 0x280) && decide (num % 8 < 6))
  else num == 0x100 || (num == 0x010 && (s.ctl who).inTrap)

def csrrPre (num : BitVec 12) (is : Issue) (s : State) : Option (Cause × Info) :=
  if (s.csrValue is num.toNat).isNone then some (.illins, .same 0) else none

def csrwPre (num : BitVec 12) (is : Issue) (s : State) : Option (Cause × Info) :=
  if s.csrWritable is.who num.toNat then none else some (.illins, .same 0)

/-- A region entry that is read is kept, and damage met is marked and logged (R107, R128). -/
def State.csrTouch (s : State) (is : Issue) (num : Nat) : State :=
  if 0x080 ≤ num ∧ num ≤ 0x0BF then s.noteRegion is.ctx (num - 0x080) (reqOf is.who false is.ctx is.pc) else s

def csrrBody (sd : Fin 96) (num : BitVec 12) (is : Issue) (s0 : State) : Act :=
  let s := s0.csrTouch is num.toNat
  match s.csrValue is num.toNat with
  | some (some v) => .next (s.writeS is sd.val v)
  | _ => let (v, t) := s.freeWord
         .next (t.writeS is sd.val v)

def execCsrr (sd : Fin 96) (num : BitVec 12) (s : State) : Host.Outcome State Fault Refusal :=
  runWordWith (.csrr sd num) (csrrPre num) noCheck (csrrBody sd num) s

/-- Clearing V clears MORE and CNT too; MORE may be cleared alone (R41). -/
def violWrite (info v : W64) : W64 :=
  if v.getLsbD 63 then info &&& 0x0000FFFFFFFFFFFF#64
  else if v.getLsbD 62 then info &&& 0xBFFFFFFFFFFFFFFF#64 else info

def State.csrWrite (s : State) (who num : Nat) (v : W64) : State :=
  if num = 0x000 then s.modWarp who (fun w => { w with arstat := w.arstat &&& ~~~(v.extractLsb' 0 32 &&& 0x7F#32) })
  else if isStream who then
    if num = 0x120 then s.modCluster (clusterOf who) (fun k => { k with recctl := v &&& 0x1FFE#64 })
    else s.clusterRegWrite (clusterOf who) num (BitVec.allOnes 64) v
  else if num = 0x100 then s.modCtl who (fun c => { c with tvec := v &&& 0x01FFFFFFFFFFFFF0#64 })
  else s.modWarp who (fun w => { w with viol := { w.viol with info := violWrite w.viol.info v } })

def csrwBody (ss : SOp) (num : BitVec 12) (is : Issue) (s : State) : Act :=
  .next (s.csrWrite is.who num.toNat (is.sv s ss))

def execCsrw (ss : SOp) (num : BitVec 12) (s : State) : Host.Outcome State Fault Refusal :=
  runWordWith (.csrw ss num) (csrwPre num) noCheck (csrwBody ss num) s

def featqBody (sd : Fin 96) (f : FeatWord) (is : Issue) (s : State) : Act :=
  .next (s.writeS is sd.val (match f with
    | .feat0 => s.floor0 is.ctx
    | .feat1 => s.floor1 is.ctx
    | .implw => s.implw))

def execFeatq (sd : Fin 96) (f : FeatWord) (s : State) : Host.Outcome State Fault Refusal :=
  runWord (.featq sd f) (featqBody sd f) s

/-! ### TLBINV (R286) -/

/-- The wait and the release of R144, and the start of the invalidation; the path stalls until it completes. -/
def tlbinvStart (kind va pages : Nat) (is : Issue) (s : State) : Act :=
  if !s.settled is.who then .hold s
  else
    let (id, s1) := s.startInval kind is.ctx va pages (some (is.who, is.lane)) false
    .park (s1.beginWait is (.tlbinv id))

def tlbinvPageBody (sa sb : SOp) (is : Issue) (s0 : State) : Act :=
  let va := (is.sv s0 sa).toNat
  let n := (is.sv s0 sb).toNat
  let s := s0.noteVa is.ctx va (reqOf is.who false is.ctx is.pc)
  if !rangeOk (s.regionEntry is.ctx (va / 2 ^ 51 % 64)) va n then .trapIn s .oprange (.same 0)
  else tlbinvStart 0 va n is s

def execTlbinvPage (sa sb : SOp) (s : State) : Host.Outcome State Fault Refusal :=
  runWord (.tlbinvPage sa sb) (tlbinvPageBody sa sb) s

def execTlbinvCtx (s : State) : Host.Outcome State Fault Refusal := runWord .tlbinvCtx (tlbinvStart 1 0 0) s

def execTlbinvAll (s : State) : Host.Outcome State Fault Refusal := runWord .tlbinvAll (tlbinvStart 2 0 0) s

/-! ### LAUNCH (R287 to R290) -/

/-- A status word is named by every code but ZERO. -/
def statusOf (is : Issue) (s : State) (sb : SOp) : Option Nat :=
  match sb with
  | .special .zero => none
  | o => some (is.sv s o).toNat

def launchAlign (sa sb : SOp) (is : Issue) (s : State) : Option (Cause × Info) :=
  let a := (is.sv s sa).toNat
  if a % 64 != 0 then some (.align, .same a)
  else match statusOf is s sb with
    | some b => if b % 8 != 0 then some (.align, .same b) else none
    | none => none

/-- The operation holds: descriptor and status VAs; the parent grid and 1, the new grid's depth, ERR, status and CFIRST, CCNT. -/
def launchBody (sa sb : SOp) (cfirst : BitVec 5) (ccnt : BitVec 6) (is : Issue) (s : State) : Act :=
  let g := s.gridOf is.who
  let depth := if isStream is.who then 0 else (g.elim 0 Grid.depth) + 1
  let st := statusOf is s sb
  let (o, s1) := s.fork is [is.sv s sa, BitVec.ofNat 64 (st.getD 0)] none true
  .next (s1.setEop { o with
    nums := [if isStream is.who then 0 else (g.elim 0 (fun g => g.id + 1)), depth, 0, if st.isSome then 1 else 0, cfirst.toNat, ccnt.toNat] })

def execLaunch (sa sb : SOp) (cfirst : BitVec 5) (ccnt : BitVec 6) (s : State) : Host.Outcome State Fault Refusal :=
  runWordWith (.launch sa sb cfirst ccnt) noCheck (launchAlign sa sb) (launchBody sa sb cfirst ccnt) s

def isLaunch : Instr → Bool
  | .launch _ _ _ _ => true
  | _ => false

/-- A descriptor from its 512 bits (R288). -/
def Descr.ofBits (d : BitVec 512) : Descr where
  seed := d.extractLsb' 384 128
  spill := bitsOf d 320 64
  args := d.extractLsb' 256 64
  entry := d.extractLsb' 192 64
  ngx := bitsOf d 160 32
  ngz := bitsOf d 144 16
  ngy := bitsOf d 128 16
  part := d.extractLsb' 96 32
  prio := bitsOf d 91 5
  csize := bitsOf d 84 4
  qlog := bitsOf d 82 2
  accg := bitsOf d 76 6
  spw := bitsOf d 70 6
  minb := bitsOf d 64 6
  thr := bitsOf d 52 12 + 1

/-- Warps of a workgroup (R200, R204). -/
def Descr.warps (d : Descr) : Nat := (d.thr + 127) / 128

/-- R289: the rejection code, 0 for none. -/
def launchErr (bits : BitVec 512) (depth : Nat) : Nat :=
  let d := Descr.ofBits bits
  if bitsOf bits 88 3 != 0 || bitsOf bits 0 52 != 0 || d.spill % 65536 != 0 || d.entry.toNat % 16 != 0 ||
      decide (2 ^ 57 ≤ d.entry.toNat) || d.ngx == 0 || decide (2 ^ 31 < d.ngx) || d.ngy == 0 || d.ngz == 0 ||
      d.csize == 0 || decide (8 < d.csize) || decide (32 < d.accg) || decide (32 < d.spw) || d.minb == 0 ||
      decide (32 < d.minb) || decide (2048 < d.thr) then 1
  else if !partValid d.part then 2
  else if d.ngx % d.csize != 0 then 3
  else if d.warps % 2 ^ d.qlog != 0 then 4
  else if decide (10 < depth) then 5
  else if decide (partAccg d.part < d.accg) then 6
  else if decide (16 * partRegg d.part < d.minb * d.warps) || (decide (partSpg d.part < d.spw) && d.spill == 0) then 8
  else 0

def statusWord (done : Bool) (err : Nat) : Nat := bit64 63 done + 2 ^ 62 + err * 2 ^ 48

/-- One 8-byte store to the status word by the firmware of the control core; false while its page is being serviced (R121, R289,
R422). -/
def State.launchStatus (s : State) (o : EngOp) (v : Nat) : Bool × State :=
  if o.nums.getD 3 0 = 0 then (true, s)
  else
    let va := (o.vals.getD 1 0).toNat
    let fw := firmwareOf (clusterOf o.who)
    match s.ask o.ctx va .engWrite o.core fw o.id va 0 8 with
    | (.ok pa _, t) => (true, (t.dropAsks fw o.id).physWrite pa (toLe 8 v) (reqOf o.who true o.ctx o.pc))
    | (.viol c, t) => (true, (t.dropAsks fw o.id).logViol o.who 0 c .engWrite 0 true (BitVec.ofNat 64 va) o.pc)
    | (.wait, t) => (false, t)

/-- Phase 1: the descriptor is known, its status word is still to be written. -/
def State.launchAnswer (s : State) (o : EngOp) : State :=
  let err := o.nums.getD 2 0
  match s.launchStatus o (statusWord (err != 0) err) with
  | (false, t) => t.setEop o
  | (true, t) => if err = 0 then t.setEop { o with phase := 2 } else t.endEng o

def State.launchGot (s : State) (o : EngOp) (err : Nat) (ws : List W64) : State :=
  s.launchAnswer { o with phase := 1, vals := o.vals ++ ws, nums := o.nums.set 2 err }

/-- Phase 0: the descriptor read, after the waits of a release (R290). -/
def State.launchRead (s : State) (o : EngOp) : State :=
  if o.phase = 1 then s.launchAnswer o
  else if o.phase != 0 || !s.forkDone o then s
  else
    let va := (o.vals.getD 0 0).toNat
    match s.ask o.ctx va .engRead o.core o.who o.id va 0 64 with
    | (.wait, t) => t
    | (.viol c, t) => (t.logViol o.who 0 c .engRead 0 true (BitVec.ofNat 64 va) o.pc).launchGot o 7 []
    | (.ok pa _, t) =>
      let u := t.locTouch (.phys pa) 64 (reqOf o.who true o.ctx o.pc)
      if u.locPoison (.phys pa) 64 then u.launchGot o 7 []
      else
        let bs := u.locRead (.phys pa) 64
        u.launchGot o (launchErr (leWord 512 bs) (o.nums.getD 1 0))
          ((List.range 8).map (fun i => leWord 64 ((bs.drop (8 * i)).take 8)))

def execLaunchDescriptorRead (op : Nat) (s : State) : Host.Outcome State Fault Refusal :=
  match mget s.eops op with
  | none => .next s
  | some o => .next (if isLaunch o.instr then s.launchRead o else s)

/-- The descriptor an accepted launch read. -/
def EngOp.descr (o : EngOp) : Descr :=
  Descr.ofBits (BitVec.ofNat 512 (((List.range 8).map (fun i => (o.vals.getD (2 + i) 0).toNat * 2 ^ (64 * i))).sum))

/-- Room for one more grid: the child limit (R228) and every target cluster's FIFO (R426). -/
def State.launchRoom (s : State) (o : EngOp) : Bool :=
  let par := o.nums.getD 0 0
  (par == 0 || (mget s.grids (par - 1)).elim true (fun g => decide (g.children < 65535))) &&
    (List.range (o.nums.getD 5 0)).all (fun i => decide (s.queued ((o.nums.getD 4 0 + i) % 32) < 1024))

/-- Accept: the grid joins the FIFOs at its priority min(PRIO, PCEIL) (R417, R425). -/
def State.launchAccept (s : State) (o : EngOp) : State :=
  if !isLaunch o.instr || o.phase != 2 || !s.launchRoom o then s
  else
    let s0 : State := match s.readDescr (clusterOf o.who) o.ctx with
      | some d => if descrValid d then { s with ctxs := mset s.ctxs o.ctx d } else s
      | none => s.noteDescr (clusterOf o.who) o.ctx
    let (id, s1) := s0.newId
    let d := o.descr
    let par := o.nums.getD 0 0
    let g : Grid := {
      id := id, ctx := o.ctx, depth := o.nums.getD 1 0, parent := if par = 0 then none else some (par - 1), op := o.id
      cfirst := o.nums.getD 4 0, ccnt := o.nums.getD 5 0, descr := d, prio := min d.prio (s1.ctxField o.ctx 58 5)
      held := s1.regs.suspended.contains o.ctx }
    let s2 := (s1.setGrid g).setEop { o with phase := 3 }
    match (if par = 0 then none else mget s2.grids (par - 1)) with
    | some p => s2.setGrid { p with children := p.children + 1 }
    | none => s2

def execLaunchAccept (op : Nat) (s : State) : Host.Outcome State Fault Refusal :=
  match mget s.eops op with
  | none => .next s
  | some o => .next (s.launchAccept o)

/-! ### Grid retirement (R229, R289) -/

/-- Every workgroup and every child grid has retired; no launch of a thread of it is still on its way, and no store: its retirement is
a release of them (R154). -/
def State.gridDone (s : State) (g : Grid) : Bool :=
  g.retired == g.wgs && g.children == 0 &&
    (mvals s.mops).all (fun o => !(s.isLeftover o && (mget s.wgs (s.warp o.who).wg).any (fun w => w.grid == g.id))) &&
    (mvals s.eops).all (fun o => !(isLaunch o.instr && o.nums.getD 0 0 == g.id + 1 && decide (o.phase < 3)))

def State.retireGrid (s : State) (g : Grid) : State :=
  if !s.gridDone g then s
  else
    let off := fun (t : State) =>
      let t1 := { t with grids := mdel t.grids g.id }
      match g.parent.bind (mget t1.grids) with
      | some p => t1.setGrid { p with children := p.children - 1 }
      | none => t1
    match mget s.eops g.op with
    | none => off s
    | some o =>
      match s.launchStatus o (statusWord true 0) with
      | (false, t) => t
      | (true, t) => off (t.endEng o)

def execGridRetire (grid : Nat) (s : State) : Host.Outcome State Fault Refusal :=
  match mget s.grids grid with
  | none => .next s
  | some g => .next (s.retireGrid g)

/-! ### Semaphores (R291, R292) -/

def semAlign (sa : SOp) (is : Issue) (s : State) : Option (Cause × Info) :=
  let a := (is.sv s sa).toNat
  if a % 8 = 0 then none else some (.align, .same a)

/-- The wrap-aware compares of R291. -/
def semHolds (c : SemCmp) (x v : W64) : Bool :=
  match c with
  | .eq => x == v
  | .ne => x != v
  | .ge => !(x - v).getLsbD 63
  | .lt => (x - v).getLsbD 63

/-- WAITSEM waits; WAITSEM_POLL makes its reads. In a stream that is being suspended the word is given up at once, and issues again at
resume (R519). -/
def waitsemBody (c : SemCmp) (sa sb : SOp) (is : Issue) (s : State) : Act :=
  if (s.stream (is.who - streamBase)).suspended then .hold (s.modCtl is.who (fun x => { x with boundary := true }))
  else .park (s.beginWait is (.sem c (is.sv s sa).toNat (is.sv s sb)))

def execWaitsem (c : SemCmp) (sa sb : SOp) (s : State) : Host.Outcome State Fault Refusal :=
  runWordWith (.waitsem c sa sb) noCheck (semAlign sa) (waitsemBody c sa sb) s

/-- One read of a waiting stream's semaphore. -/
def State.semRead (s : State) (who : Nat) (x : Waiting) (c : SemCmp) (addr : Nat) (v : W64) : State :=
  let w := s.warp who
  let pc := (w.pathAt x.lane).elim 0 Path.pc
  match s.ask w.ctx addr .load (coreOf who) who twaitTag addr 0 8 with
  | (.wait, t) => t
  | (.viol k, t) =>
    ((t.dropAsks who twaitTag).logViol who 0 k .load 0 false (BitVec.ofNat 64 addr) pc).waitTrap who x.lane .semv (.same 0)
  | (.ok pa _, t) =>
    let u := (t.locTouch (.phys pa) 8 (reqOf who false w.ctx pc)).dropAsks who twaitTag
    if t.readWaits who x.before (tokKey (.at_ (.phys pa))) (t.tokPage 0 w.ctx addr false) then t
    else if u.locPoison (.phys pa) 8 then u.waitTrap who x.lane .semv (.same 0)
    else if semHolds c (leWord 64 (u.locRead (.phys pa) 8)) v then
      (u.endWait who x.lane 2).modStream (who - streamBase) (fun y => { y with state := 1 })
    else u.modStream (who - streamBase) (fun y => { y with state := 2 })

def State.semPoll (s : State) (who : Nat) : State :=
  (s.pollable who).foldl (fun t x => match x.kind with
    | .sem c a v => t.semRead who x c a v
    | _ => t) s

def execWaitsemPoll (stream : Nat) (s : State) : Host.Outcome State Fault Refusal := .next (s.semPoll (streamBase + stream))

/-- SIGNALSEM: the waits of a release at system scope, then the store or the atomic add at the L2. -/
def signalsemBody (add : Bool) (sa sb : SOp) (is : Issue) (s : State) : Act :=
  if !s.settled is.who then .hold s
  else
    let addr := (is.sv s sa).toNat
    let acc : Acc := if add then .atomic else .store
    match s.ask is.ctx addr acc (coreOf is.who) is.who twaitTag addr 0 8 with
    | (.wait, t) => .hold t
    | (.viol k, t) =>
      .trapIn ((t.dropAsks is.who twaitTag).logViol is.who 0 k acc 0 false (BitVec.ofNat 64 addr) is.pc) .semv (.same 0)
    | (.ok pa _, t) =>
      let r := reqOf is.who false is.ctx is.pc
      let u := (t.locTouch (.phys pa) 8 r).dropAsks is.who twaitTag
      if add && u.locPoison (.phys pa) 8 then .trapIn u .semv (.same 0)
      else
        let v := if add then leWord 64 (u.locRead (.phys pa) 8) + is.sv s sb else is.sv s sb
        .next (u.physWrite pa (toLe 8 v.toNat) r)

def execSignalsemSet (sa sb : SOp) (s : State) : Host.Outcome State Fault Refusal :=
  runWordWith (.signalsemSet sa sb) noCheck (semAlign sa) (signalsemBody false sa sb) s

def execSignalsemAdd (sa sb : SOp) (s : State) : Host.Outcome State Fault Refusal :=
  runWordWith (.signalsemAdd sa sb) noCheck (semAlign sa) (signalsemBody true sa sb) s

/-! ### EVENT (R293, R424) -/

def isEventWait : WaitKind → Bool
  | .event _ _ _ => true
  | _ => false

/-- A stream whose EVENT meets a full ring is in WAIT (R421). -/
def State.noteFull (s : State) (j : Nat) : State :=
  if (s.stream j).full && (s.ctl (streamBase + j)).waitsFor isEventWait then s.modStream j (fun y => { y with state := 2 }) else s

def eventBody (irq : Bool) (sa sb : SOp) (is : Issue) (s : State) : Act :=
  let j := is.who - streamBase
  let x := s.stream j
  if x.full || !x.held.isEmpty || !s.settled is.who then
    .park ((s.beginWait is (.event irq (is.sv s sa) (is.sv s sb))).noteFull j)
  else .next (s.putRecord j (eventRecord 1 j irq (is.sv s sa) (is.sv s sb) is.pc x.evqhead))

def execEvent (irq : Bool) (sa sb : SOp) (s : State) : Host.Outcome State Fault Refusal :=
  runWord (.event irq sa sb) (eventBody irq sa sb) s

/-- A slot is free: the oldest held record goes first, then an EVENT that waits. -/
def State.postHeld (s : State) (j : Nat) : State :=
  let x := s.stream j
  let who := streamBase + j
  if x.full || !s.settled who then s.noteFull j
  else match x.held with
    | r :: rs => ((s.setStream j { x with held := rs }).putRecord j r).noteFull j
    | [] =>
      match (s.ctl who).waits.find? (fun w => isEventWait w.kind) with
      | some ⟨.event irq a b, lane, _, _⟩ =>
        let pc := ((s.warp who).pathAt lane).elim 0 Path.pc
        ((s.putRecord j (eventRecord 1 j irq a b pc x.evqhead)).endWait who lane 1).modStream j (fun y => { y with state := 1 })
      | _ => s

def execEventRecordPost (stream : Nat) (s : State) : Host.Outcome State Fault Refusal := .next (s.postHeld stream)

end Sys2Proof.Machine
end

