-- ==== Sys2Proof/Machine/Blocks.lean ====
section
/-! DEFINITION. Register blocks in the background (02 R56 to R69): grants, the reserve, spills, readmission, fills and
write-backs; the retirement of warps and workgroups (08 R232, R233). -/

namespace Sys2Proof.Machine

/-! ### BLOCK_GRANT (R56, R57) -/

def isRgrow : WaitKind → Bool
  | .rgrow _ => true
  | _ => false

def State.endRgrow (s : State) (who : Nat) : State :=
  ((s.ctl who).waits.filter (fun x => isRgrow x.kind)).foldl (fun t x => t.endWait who x.lane 1) s

def blockList (lo hi : Nat) : List Nat := (List.range (hi - lo)).map (fun i => lo + i)

/-- Give the first waiting RGROW of the core its blocks once they are free. -/
def State.grantBlocks (s : State) (core : Nat) : State :=
  match s.blockReqs core with
  | .grow who :: _ =>
    let w := s.warp who
    let n := (s.ctl who).rgrowWait.getD 0
    if s.freeOrdinary core < n - w.curb then s
    else ((s.giveBlocks who (blockList w.curb n) freshBlock).modWarp who (fun w => { w with curb := max w.curb n })).endRgrow who
  | _ => s

def execBlockGrant (core : Nat) (s : State) : Host.Outcome State Fault Refusal := .next (s.grantBlocks core)

/-! ### Filing threads (R219 to R221) -/

/-- The waits of R219 and R396. -/
def State.reformMay (s : State) (who : Nat) : Bool :=
  s.settled who && (List.range 12).all (fun f => (s.warp who).flag f == 0) && !(s.ctl who).inTrap &&
    (mvals s.eops).all (fun o => !(o.who == who && !o.dst.isEmpty && !o.lanes.isEmpty))

/-- A bin becomes ready. -/
def Bin.makeReady (b : Bin) (clock : Nat) : Bin := if b.ready then b else { b with ready := true, readyAt := clock }

/-- Mark the oldest open bins ready until the ready ones hold `need` threads. -/
def readyOldest (clock need : Nat) : List Bin → List Bin
  | [] => []
  | b :: bs =>
    if need = 0 then b :: bs
    else b.makeReady clock :: readyOldest clock (need - b.threads.length) bs

/-- File one thread: into the open bin of its pair, or a new one; none where no bin is free. A bin that is ready takes no more
threads, for whichever reason it became ready: the model's choice where it is not full (R221, log entry 95). -/
def fileThread (bins : List Bin) (new_ : Bin) (t : RThread) : Option (List Bin) :=
  let open_ := fun (b : Bin) => b.wg == new_.wg && b.pc == new_.pc && b.key == new_.key && !b.ready && decide (b.threads.length < 128)
  if bins.any open_ then
    some (bins.map (fun b => if open_ b then
      let c : Bin := { b with threads := b.threads ++ [t], acq := b.acq || new_.acq }
      (if b.threads.length + 1 = 128 then c.makeReady new_.since else c)
      else b))
  else if bins.length < 256 then some (bins ++ [{ new_ with threads := [t] }])
  else none

def fileAll (bins : List Bin) (nextId : Nat) : List (Bin × RThread) → Option (List Bin × Nat)
  | [] => some (bins, nextId)
  | (b, t) :: r =>
    match fileThread bins { b with id := nextId } t with
    | none => none
    | some bs => fileAll bs (nextId + 1) r

/-- What lane L carries (R219). -/
def carried (w : Warp) (n L : Nat) : RThread where
  tid := w.tidOf L
  regs := (List.range n).map (fun r => w.reg r L)
  preds := BitVec.ofNat 7 (((List.range 7).map (fun p => if (w.pred p).getLsbD L then 2 ^ p else 0)).sum)
  idx := (List.range 8).map (fun j => BitVec.ofNat 16 ((w.xreg j).index L))
  arstat := w.arstat

/-- The word REFORM of a path that waits at it. -/
def reformWord (a : VOp) (n : Nat) : Instr := .reform ⟨false, 7⟩ a (BitVec.ofNat 5 n)

def reformIssue (w : Warp) (who lane : Nat) (p : Path) (a : VOp) (n : Nat) (mask : LaneMask) : Issue :=
  { who := who, lane := lane, i := reformWord a n, w := w, path := p.mask, mask := mask, pc := p.pc }

/-- What each lane of a REFORM brings to the unit: the bin of its pair, new, and its thread (R219, R223). A warp that owes an acquire
leaves it to the bin (R158). -/
def State.reformEntries (s : State) (who lane : Nat) (p : Path) (a : VOp) (n : Nat) (mask : LaneMask) : List (Bin × RThread) :=
  let w0 := s.warp who
  let w := applyDeltas w0 (xDeltas w0 (vuses (reformWord a n)) mask)
  let src : Warp := { s := w.s, x := w.x, l0 := w.l0, l1 := w.l1, prio := w.prio, ctx := w.ctx, nwarp := w.nwarp, minb := w.minb, age := w.age }
  (lanesOf mask).map (fun L =>
    ({ id := 0, wg := w.wg, pc := afterWord p.pc, key := (reformIssue w0 who lane p a n mask).src (useS a) L, n := n, threads := []
       since := s.clock, src := src, tvec := (s.ctl who).tvec, acq := (s.ctl who).acq }, carried w n L))

/-- Threads held by the reform unit of a core. -/
def State.reformCount (s : State) (core : Nat) : Nat := ((s.core core).bins.map (fun b => b.threads.length)).sum

/-- The bins once those lanes are filed, where the unit has room for them. -/
def State.reformRoom (s : State) (who lane : Nat) (p : Path) (a : VOp) (n : Nat) (mask : LaneMask) : Option (List Bin × Nat) :=
  if 8192 < s.reformCount (coreOf who) + countLanes mask then none
  else fileAll (s.core (coreOf who)).bins s.nextId (s.reformEntries who lane p a n mask)

/-- A REFORM waits for room in the unit, and for nothing else (R61, R219, R221). -/
def State.reformFull (s : State) (who lane : Nat) (a : VOp) (n : Nat) (mask : LaneMask) : Bool :=
  ((s.warp who).pathAt lane).any (fun p => s.reformMay who &&
    ((reformIssue (s.warp who) who lane p a n mask).absentBlocks (s.warp who)).isEmpty && (s.reformRoom who lane p a n mask).isNone)

/-! ### GROWTH_DEADLOCK (R61, R62) -/

/-- A path that waits in one of the words of R61; R215 counts DISBAND and a quorum issue as CONVENE. -/
def State.stalledPath (s : State) (who : Nat) (p : Path) : Bool :=
  (s.ctl who).waits.any (fun x => p.mask.getLsbD x.lane && (match x.kind with
    | .rgrow _ | .convene | .disband | .quorum => true
    | .reform a n m => s.reformFull who x.lane a n m
    | _ => false))

/-- A stalled warp: spilled, waiting in RGROW as a whole (R56), or with every path waiting in a word of R61 or parked at BAR. -/
def State.stalledWarp (s : State) (who : Nat) : Bool :=
  let w := s.warp who
  let c := s.ctl who
  c.spilled.isSome || c.rgrowWait.isSome || (!c.inTrap && !c.fatal && w.live != 0 && w.paths.all (s.stalledPath who) &&
    (!w.paths.isEmpty || w.parked.any (fun q => q.site == .bar)))

def State.growthDeadlock (s : State) (core : Nat) : Bool :=
  !(s.blockReqs core).isEmpty && (s.warpsOfCore core).all s.stalledWarp

/-- Warps of a core in age order. -/
def State.byAge (s : State) (ws : List Nat) : List Nat := sortBy s.older ws

/-- The victim of step 2: the youngest that waits in RGROW, else the youngest stalled warp with a block; never the oldest
that waits in RGROW. -/
def State.spillVictim (s : State) (core : Nat) : Option Nat :=
  let ws := s.byAge ((s.warpsOfCore core).filter (fun w => (s.ctl w).spilled.isNone && !(s.warp w).blocks.isEmpty))
  let grows := s.byAge ((s.warpsOfCore core).filter (fun w => (s.ctl w).rgrowWait.isSome && (s.ctl w).spilled.isNone))
  let can := ws.filter (fun w => grows.head? != some w)
  match (can.filter (fun w => (s.ctl w).rgrowWait.isSome)).getLast? with
  | some v => some v
  | none => (can.filter s.stalledWarp).getLast?

/-- Present dirty blocks leave as write-backs; every block is released (R64, R68). -/
def State.releaseBlocks (s : State) (who : Nat) (base : Nat) (handler : Bool) : State :=
  let w := s.warp who
  let dirty := w.blocks.filter (fun e => !e.2.absent && e.2.dirty)
  let wbs := dirty.map (fun e =>
    let h := handler && decide (e.1 < handlerBlocks (s.ctl who))
    ({ who := who, blk := e.1, block := e.2, ctx := w.ctx
       va := base + (if h then 0x30000 else 0) + 0x1000 * e.1
       map := base + (if h then 0x32000 else 0x20000) + 0x80 * e.1 } : WriteBack))
  let lost := (w.blocks.filter (fun e => e.2.lost)).map Prod.fst
  (((s.modWarp who (fun w => { w with blocks := [] })).modCtl who (fun c => { c with lost := c.lost ++ lost })).modCore (coreOf who)
    (fun c => { c with wbs := c.wbs ++ wbs })).settleReserve (coreOf who)

/-- Spill a warp, a release at system scope: its state and its GEO words are written, its blocks go (R64, R158, R395). It waits for
the conditions of a release, and while a page of the save area is serviced. -/
def State.spillWarp (s : State) (who : Nat) : State :=
  let base := s.tsave who
  if !s.settled who then s
  else match s.saveAllReady who .store [(base + 0x21000, 0x1400), (base + 0x40000, 0x40000)] with
  | (false, t) => t
  | (true, t) =>
    let t0 := t.leaveGeo who
    let t1 := (((t0.saveWrite who (base + 0x21000) (t0.layout who 0)).writeGeoSlots who).dropAsks who 0).releaseBlocks who base false
    (t1.modCtl who (fun c => { c with spilled := some s.clock })).takeExact (coreOf who)
      |>.record (coreOf who) 11 (slotOf who) (BitVec.ofNat 64 (1 + 4 * slotOf who))

/-- Step 1: the oldest RGROW takes the free ordinary blocks and the reserve for the rest. -/
def State.reserveGrant (s : State) (core who n : Nat) : State :=
  let w := s.warp who
  let k := min (s.freeOrdinary core) (n - w.curb)
  let s1 := (s.giveBlocks who (blockList w.curb (w.curb + k)) freshBlock).giveReserve who (blockList (w.curb + k) n)
  let s2 := (s1.modCore core (fun c => { c with reserve := some who })).modWarp who (fun w => { w with curb := max w.curb n })
  (s2.endRgrow who).record core 11 (slotOf who) 0

/-- Ordinary blocks that are free or will be once the write-backs under way are done. -/
def State.comingFree (s : State) (core : Nat) : Nat :=
  s.freeOrdinary core + ((s.core core).wbs.filter (fun w => decide (w.block.group < s.groups core))).length

/-- The first request is covered by those blocks: it is served before the steps of R62 repeat. -/
def State.grantDue (s : State) (core : Nat) : Bool :=
  match s.blockReqs core with
  | .grow who :: _ => decide ((s.ctl who).rgrowWait.getD 0 - (s.warp who).curb ≤ s.comingFree core)
  | .readmit who :: _ => decide (max (s.warp who).curb ((s.ctl who).rgrowWait.getD 0) ≤ s.comingFree core)
  | .bin b :: _ => ((s.core core).bins.find? (fun x => x.id == b)).elim false
      (fun x => decide (max x.src.minb ((x.n + 7) / 8) ≤ s.comingFree core))
  | [] => false

def State.resolveDeadlock (s : State) (core : Nat) : State :=
  if !s.growthDeadlock core || s.grantDue core then s
  else
    let grows := s.byAge ((s.warpsOfCore core).filter (fun w => (s.ctl w).rgrowWait.isSome && (s.ctl w).spilled.isNone))
    let oldest := (grows.head?).bind (fun w => (s.ctl w).rgrowWait.map (fun n => (w, n)))
    match oldest with
    | some (w, n) =>
      if (s.core core).reserve.isNone && decide (n - (s.warp w).curb ≤ s.freeOrdinary core + 16) then s.reserveGrant core w n
      else (s.spillVictim core).elim s s.spillWarp
    | none => (s.spillVictim core).elim s s.spillWarp

def execGrowthDeadlock (core : Nat) (s : State) : Host.Outcome State Fault Refusal := .next (s.resolveDeadlock core)

/-! ### READMISSION (R64, R66, R158, R395) -/

/-- Blocks of a window come back absent, lost ones marked (R66, R68). -/
def State.giveAbsent (s : State) (who : Nat) (bs : List Nat) : State :=
  let lost := (s.ctl who).lost
  ((s.giveBlocks who bs absentBlock).modWarp who (fun w =>
    { w with blocks := w.blocks.map (fun e => (e.1, if lost.contains e.1 && bs.contains e.1 then { e.2 with lost := true } else e.2)) })).modCtl who
      (fun c => { c with lost := c.lost.filter (fun b => !bs.contains b) })

def State.readmit (s : State) (core : Nat) : State :=
  match s.blockReqs core with
  | .readmit who :: _ =>
    let w := s.warp who
    let n := max w.curb ((s.ctl who).rgrowWait.getD 0)
    if decide (s.freeOrdinary core < n) || (s.core core).wbs.any (fun b => b.who == who) then s
    else
      let s1 := (s.giveAbsent who (blockList 0 w.curb)).giveBlocks who (blockList w.curb n) freshBlock
      let s2 := (s1.modWarp who (fun w => { w with curb := n })).modCtl who (fun c => { c with spilled := none, acq := true })
      ((s2.returnGeo who).takeExact core).endRgrow who
  | _ => s

def execReadmission (core : Nat) (s : State) : Host.Outcome State Fault Refusal := .next (s.readmit core)

/-! ### BLOCK_FILL (R66, R67) -/

/-- The tag of a fill's reads. -/
def fillTag (b : Nat) : Nat := 2 ^ 41 + b

/-- The image of a block: a handler's own blocks have theirs apart (R453). -/
def State.imageAt (s : State) (who b : Nat) : Nat × Nat :=
  let base := s.tsave who
  if (s.ctl who).inTrap && decide (b < handlerBlocks (s.ctl who)) then (base + 0x30000 + 0x1000 * b, base + 0x32000 + 0x80 * b)
  else (base + 0x1000 * b, base + 0x20000 + 0x80 * b)

/-- A block gets its contents; it is clean where the save area holds a valid image of them (R68). -/
def State.fillWith (s : State) (who b : Nat) (cells : SMap LaneReg) (valid : Bool) : State :=
  (s.modWarp who (fun w => w.setBlock b { w.block b with absent := false, dirty := !valid, lost := false, filling := false, cells := cells })).dropAsks
    who (fillTag b)

/-- A fill that cannot be made: an ERRLOG record and poison in every lane. -/
def State.fillFails (s : State) (who b va : Nat) : State :=
  (s.postErr (clusterOf who) 5 1 (BitVec.ofNat 64 va) (reqOf who false (s.warp who).ctx 0) 0).fillWith who b poisonCells false

/-- A fill returns what memory holds: also of a word that a write into the save area has changed, for which the spec allows the
saved or the written value (R70, log entry 105). -/
def State.fillBlock (s : State) (who b : Nat) : State :=
  match mget (s.warp who).blocks b with
  | none => s
  | some x =>
    if !x.absent || !x.filling then s
    else if x.lost then s.fillWith who b poisonCells false
    else
      let (va, map) := s.imageAt who b
      match s.imageParts (s.warp who).ctx va map (coreOf who) who (fillTag b) .load with
      | (.wait, t) => t
      | (.fails, t) => t.fillFails who b va
      | (.at_ ps qs, t) => t.fillWith who b (cellsOfImage (t.readParts ps) (t.readParts qs)) true

def execBlockFill (who blk : Nat) (s : State) : Host.Outcome State Fault Refusal := .next (s.fillBlock who blk)

/-! ### BLOCK_WRITEBACK (R68) -/

/-- The write-back meets a violation, poison or damage: nothing of the block is written, and the save record marks it lost. -/
def State.writebackFails (s : State) (w : WriteBack) : State :=
  let s2 := s.loseBlock w.who w.blk w.va w.ctx
  s2.saveWrite w.who (s2.tsave w.who + 0x21000 + 0x1354) (toLe 4 (((s2.ctl w.who).lost.map (fun b => 2 ^ b)).sum))

/-- An engine operation of a warp that is away is still to write the block (R457, R458). -/
def State.blockPending (s : State) (w : WriteBack) : Bool :=
  isSaved w.who && (mvals s.eops).any (fun o => o.who == w.who && (geoArgs o.instr).isNone && (mvals o.dst).flatten.any (fun r => r / 8 == w.blk))

def State.writeBackBlock (s : State) (core idx : Nat) : State :=
  match (s.core core).wbs[idx]? with
  | none => s
  | some w =>
    if s.blockPending w then s else
    let tag := fillTag (64 + w.blk)
    let fin := fun (t : State) => ((t.modCore core (fun c => { c with
      wbs := c.wbs.filter (fun x => !(x.who == w.who && x.va == w.va)) })).dropAsks w.who tag).settleReserve core
    match s.imageParts w.ctx w.va w.map core w.who tag .store with
    | (.wait, t) => t
    | (.fails, t) => fin (t.writebackFails w)
    | (.at_ ps qs, t) =>
      let r := reqOf w.who false w.ctx 0
      fin ((t.writeParts ps w.block.image r).writeParts qs w.block.poisonMap r)

def execBlockWriteback (core idx : Nat) (s : State) : Host.Outcome State Fault Refusal := .next (s.writeBackBlock core idx)

/-! ### WARP_RETIRE (R232, R233) -/

/-- Long-latency writes into the warp's registers that are still to come (R232). Its stores go on after it. -/
def State.warpBusy (s : State) (who : Nat) : Bool :=
  (mvals s.mops).any (fun o => o.who == who && !countsStores o.instr) ||
    (mvals s.eops).any (fun o => o.who == who && o.dst.any (fun d => !d.2.isEmpty))

/-- The number that stands for a thread that has left its slot. -/
def State.awayKey (s : State) (who : Nat) : Nat × State :=
  let (id, t) := s.newId
  (savedBase * (id + 1) + who % savedBase, t)

/-- Everything outstanding of thread `a` goes on under the number `b`. -/
def State.renameWho (s : State) (a b : Nat) : State :=
  let f := fun (w : Nat) => if w = a then b else w
  { s with
    mops := s.mops.map (fun e => (e.1, { e.2 with who := f e.2.who }))
    eops := s.eops.map (fun e => (e.1, { e.2 with who := f e.2.who, flags := e.2.flags.map (fun x => (f x.1, x.2)) }))
    treqs := s.treqs.map (fun e => (e.1, { e.2 with who := f e.2.who }))
    invals := s.invals.map (fun x => { x with who := x.who.map (fun y => (f y.1, y.2)) })
    linkReqs := s.linkReqs.map (fun q => { q with who := f q.who })
    cores := s.cores.map (fun e => (e.1, { e.2 with wbs := e.2.wbs.map (fun w => { w with who := f w.who }) })) }

/-- A warp of a workgroup that is still there: resident or saved. A retired one has no control part. -/
def State.wgLive (s : State) (g : Nat) : Bool := s.warps.any (fun e => !isStream e.1 && e.2.wg == g && mhas s.ctls e.1)

/-- A retired warp of the workgroup has stores that are not yet performed. -/
def State.wgStores (s : State) (g : Nat) : Bool := (mvals s.mops).any (fun o => s.isLeftover o && (s.warp o.who).wg == g)

/-- A workgroup whose last warp has retired and that has no thread in the reform unit (R233). -/
def State.wgDone (s : State) (g : Wg) : Bool := !s.wgLive g.id && s.filedThreads g.id g.core == 0

/-- An engine operation that still holds the slot by its `sp:` token (R101). -/
def State.spToken (s : State) (g : Nat) : Bool := (mvals s.eops).any (fun o => o.wg == g && o.tok.elim false (fun t => t.2))

/-- The slot, table and windows of a workgroup are held: until the last warp of its whole cohort has retired (R31, R233), and while an
operation is outstanding on an `sp:` token of its own (R101). -/
def State.wgHolds (s : State) (g : Wg) : Bool :=
  g.st != .retired || (mvals s.wgs).any (fun x => x.grid == g.grid && x.unit == g.unit && x.st != .retired) || s.spToken g.id

/-- Forget workgroups that hold nothing and have no store left, and retired warps with nothing left. -/
def State.sweep (s : State) : State :=
  let dead := (mvals s.wgs).filter (fun g => !s.wgHolds g && !s.wgStores g.id)
  { s with
    wgs := s.wgs.filter (fun e => !(dead.any (fun g => g.id == e.1)))
    warps := s.warps.filter (fun e => isStream e.1 || mhas s.ctls e.1 || (mvals s.eops).any (fun o => o.who == e.1) ||
      (mvals s.mops).any (fun o => o.who == e.1)) }

/-- A workgroup retires: its grid counts it (R229). -/
def State.retireWg (s : State) (g : Nat) : State :=
  match mget s.wgs g with
  | none => s
  | some x =>
    if x.st == .retired || !s.wgDone x then s
    else
      let s1 := s.setWg { x with st := .retired }
      let s2 := match mget s1.grids x.grid with
        | some d => s1.setGrid { d with retired := d.retired + 1 }
        | none => s1
      s2.sweep

/-- A warp retires. -/
def State.retireWarp (s : State) (who : Nat) : State :=
  let w := s.warp who
  let c := s.ctl who
  if !mhas s.warps who || !mhas s.ctls who || isStream who || isSaved who || w.live != 0 || c.inTrap || s.warpBusy who then s
  else
    let s0 := s.record (coreOf who) 7 (slotOf who) (BitVec.ofNat 64 (s.tsave who))
    let (k, s1) := s0.awayKey who
    let s2 := s1.renameWho who k
    -- an operation keeps only the flags and the seats of warps that are still there
    let drop := fun (o : EngOp) => { o with
      flags := o.flags.filter (fun (x : Nat × Nat) => x.1 != k), seats := if o.wg = w.wg then o.seats.filter (fun n => n != w.num) else o.seats }
    let s3 := { s2 with
      eops := s2.eops.map (fun (e : Nat × EngOp) => (e.1, drop e.2))
      mops := s2.mops.map (fun (e : Nat × MemOp) => (e.1, if e.2.who = k then { e.2 with flag := none } else e.2))
      warps := mset (mdel s2.warps who) k { wg := w.wg, num := w.num, ctx := w.ctx }
      ctls := mdel s2.ctls who }
    ((s3.settleReserve (coreOf who)).retireWg w.wg).sweep

def execWarpRetire (who : Nat) (s : State) : Host.Outcome State Fault Refusal := .next (s.retireWarp who)

end Sys2Proof.Machine
end

