-- ==== Sys2Proof/Machine/Coll.lean ====
section
/-! DEFINITION. Collectives (18 R474 to R490): loading a graph, running it, credits, chunks, the reduce stage, and the copy
engine's datapath that moves copies and chunks in turn. -/

namespace Sys2Proof.Machine

def State.cslot (s : State) (n : Nat) : CSlot := mgetD s.cslots n {}

def State.setCslot (s : State) (n : Nat) (c : CSlot) : State := { s with cslots := mset s.cslots n c }

def State.modCslot (s : State) (n : Nat) (f : CSlot → CSlot) : State := s.setCslot n (f (s.cslot n))

/-! ### Issue (R477, R478) -/

/-- A buffer base has one of the forms of R477. -/
def baseForm (b : W64) : Bool :=
  if b.getLsbD 63 then bitsOf b 21 42 == 0 else decide (b.toNat < 2 ^ 57)

def collTok (x : CollArgs) (is : Issue) (s : State) : Option Nat := tokOf is s x.stok

def collAlignErr (vas : List Nat) (n : Nat) (tok : Option Nat) : Option Nat :=
  match vas.find? (fun v => v % n != 0) with
  | some v => some v
  | none => tok.bind (fun t => if t % 16 != 0 then some t else none)

def collLoadBody (x : CollArgs) (is : Issue) (s : State) : Act :=
  let d := is.sv s x.sa
  let g := is.sv s x.sb
  let tok := collTok x is s
  if decide (2 ^ 57 ≤ d.toNat) || decide (2 ^ 57 ≤ g.toNat) then .trap .oprange (.same 0)
  else match collAlignErr [d.toNat, g.toNat] 64 tok with
    | some a => .trap .align (.same a)
    | none =>
      if tok.isNone && is.flag.isNone then .trap .noflag (.same 0)
      else
        let (o, s1) := s.fork is [d, g] (tok.map (fun t => (t, x.tsp))) false
        .next ((s1.tokStart o).modCslot x.slot.val (fun c => { c with loads := c.loads ++ [o.id] }))

def execCollLoad (x : CollArgs) (s : State) : Host.Outcome State Fault Refusal := runWord (.collLoad x) (collLoadBody x) s

def sopNum : SOp → Nat
  | .reg n => n.val
  | .special _ => 96

/-- The eight bases, SEQ and the grid's seed. -/
def collVals (x : CollArgs) (is : Issue) (s : State) : List W64 :=
  let seed := s.seedOf is.who
  (List.range 8).map (fun i => is.w.sreg (sopNum x.sa + i)) ++ [is.sv s x.sb, seed.extractLsb' 0 64, seed.extractLsb' 64 64]

def collRunBody (x : CollArgs) (is : Issue) (s : State) : Act :=
  let vals := collVals x is s
  let bases := vals.take 8
  let tok := collTok x is s
  if (vals.getD 8 0).extractLsb' 32 32 != 0 || bases.any (fun b => !baseForm b) then .trap .oprange (.same 0)
  else match collAlignErr (bases.map BitVec.toNat) 128 tok with
    | some a => .trap .align (.same a)
    | none =>
      if tok.isNone && is.flag.isNone then .trap .noflag (.same 0)
      else if 4 ≤ (s.cslot x.slot.val).queue.length then .hold s
      else
        let (o, s1) := s.fork is vals (tok.map (fun t => (t, x.tsp))) x.rel
        .next ((s1.tokStart o).modCslot x.slot.val (fun c => { c with queue := c.queue ++ [o.id] }))

def execCollRun (x : CollArgs) (s : State) : Host.Outcome State Fault Refusal := runWord (.collRun x) (collRunBody x) s

/-! ### COLL.LOAD (R480) -/

/-- A node from its 256 bits (R475). -/
def CNode.ofBits (d : BitVec 256) : CNode where
  succ := (List.range 4).map (fun i => bitsOf d (216 + 10 * i) 10)
  dep := bitsOf d 208 8
  chunk := bitsOf d 192 16
  step := bitsOf d 176 16
  peer := bitsOf d 158 18
  fmt := bitsOf d 152 6
  rm := bitsOf d 149 3
  redop := bitsOf d 147 2
  eld := d.getLsbD 146
  kind := bitsOf d 143 3
  dbuf := bitsOf d 140 3
  sbuf := bitsOf d 137 3
  doff := bitsOf d 80 48
  soff := bitsOf d 32 48
  len := bitsOf d 0 32

def CNode.recv (n : CNode) : Bool := n.kind == 1 || n.kind == 2
def CNode.moves (n : CNode) : Bool := decide (n.kind ≤ 2)
def CNode.mx (n : CNode) : Bool := decide (4 ≤ n.fmt)

/-- FMT as a number format: 0, 2, 3, or 4 to 9 for MX. -/
def collFmt (n : Nat) : Option NFC :=
  match n with
  | 0 => some .f32 | 2 => some .bf16 | 3 => some .f16 | 4 => some .e4m3 | 5 => some .e5m2 | 6 => some .e3m2
  | 7 => some .e2m3 | 8 => some .e2m1 | 9 => some .mxi8 | _ => none

/-- The fields a kind does not use are 0 (R475); bits [136:128] are reserved. -/
def nodeClean (d : BitVec 256) : Bool :=
  let n := CNode.ofBits d
  let z := fun (l : List Nat) => l.all (fun v => v == 0)
  bitsOf d 128 9 == 0 && (match n.kind with
    | 0 => z [n.rm, n.redop, n.dbuf, n.doff]
    | 1 => z [n.rm, n.redop, n.sbuf, n.soff] && !n.eld
    | 2 => !n.eld
    | 3 | 4 => z [n.peer, n.step, n.chunk, n.fmt, n.rm, n.redop, n.dbuf, n.doff] && !n.eld
    | 5 => z [n.peer, n.step, n.chunk, n.fmt, n.rm, n.redop, n.dbuf, n.doff, n.sbuf, n.soff, n.len] && !n.eld
    | _ => false)

/-- The ranges and alignments of R475 and R476 for one node. -/
def nodeRanges (n : CNode) : Bool :=
  decide (n.kind ≤ 5) && decide (n.redop ≤ 2) && (collFmt n.fmt).isSome && decide (n.rm ≤ 4) &&
  (if n.moves then
    let a := if n.mx then 128 else ((collFmt n.fmt).bind plainBytes).getD 1
    n.soff % a == 0 && n.doff % a == 0 && n.len % 128 == 0 && decide (128 ≤ n.len) && decide (n.len ≤ 65536)
   else if n.kind ≤ 4 then n.soff % 8 == 0 else true)

def peerPod (e : W32) : Nat := bitsOf e 10 8
def peerAcc (e : W32) : Nat := bitsOf e 0 10
def peerSlot (e : W32) : Nat := bitsOf e 18 6

/-- Take away nodes that nothing left precedes; a graph without a cycle loses all of them. -/
def peel (ns : List CNode) : Nat → List Nat → List Nat
  | 0, left => left
  | k + 1, left =>
    let named := left.flatMap (fun i => ((ns[i]?).getD {}).succ)
    peel ns k (left.filter (fun i => named.contains i))

def nodeKeys (ns : List CNode) (f : CNode → Bool) : List (Nat × Nat × Nat) :=
  (ns.filter f).map (fun n => (n.peer, n.step, n.chunk))

/-- R476. -/
def graphOk (bits : List (BitVec 256)) (peers : List W32) (pod : Nat) : Bool :=
  let ns := bits.map CNode.ofBits
  let k := ns.length
  let succs := ns.flatMap (fun n => n.succ.filter (fun x => x != 0x3FF))
  let sends := nodeKeys ns (fun n => n.kind == 0)
  let recvs := nodeKeys ns CNode.recv
  bits.all nodeClean && ns.all nodeRanges && succs.all (fun x => decide (x < k)) &&
  ns.zipIdx.all (fun e => e.1.dep == succs.count e.2) && (peel ns k (List.range k)).isEmpty &&
  sends.eraseDups.length == sends.length && recvs.eraseDups.length == recvs.length &&
  ns.all (fun n => !n.moves || (match peers[n.peer]? with
    | some e => peerPod e == pod
    | none => false))

inductive LoadRead where
  | ok (bs : List Byte)
  | bad
  | wait

/-- Read `n` bytes at a VA for a load; a violation is logged. -/
def State.collRead (s : State) (o : EngOp) (va n : Nat) : LoadRead × State :=
  if n = 0 then (.ok [], s) else
  match s.askSpan o.ctx va n .engRead o.core o.who o.id with
  | (.wait, t) => (.wait, t)
  | (.viol c v, t) => (.bad, t.logViol o.who 0 c .engRead 0 true (BitVec.ofNat 64 v) o.pc)
  | (.ok ps, t) =>
    let u := t.touchParts ps (reqOf o.who true o.ctx o.pc)
    if u.poisonParts ps then (.bad, u) else (.ok (u.readParts ps), u)

/-- R474: a descriptor field out of range, or a reserved bit set. -/
def descrOk (d : BitVec 512) : Bool :=
  let nrank := bitsOf d 288 32
  let nnode := bitsOf d 155 10
  bitsOf d 192 64 == 0 && bitsOf d 0 155 == 0 && bitsOf d 448 64 % 4 == 0 && bitsOf d 384 64 % 65536 == 0 &&
  decide (1 ≤ nrank) && decide (nrank ≤ 262144) && decide (bitsOf d 256 32 < nrank) && decide (1 ≤ nnode) && decide (nnode ≤ 512)

/-- A slot that holds no graph; its registers and its queue stay (R479, R480). -/
def CSlot.freed (c : CSlot) : CSlot := { c with state := 0, nodes := [], run := [], peers := [] }

/-- A load that has done its work ends (phase 2); it stays at the head of its slot's loads while its token's page is serviced. -/
def State.endLoad (s : State) (n : Nat) (o : EngOp) : State :=
  let t := s.endEng { o with phase := 2 }
  if mhas t.eops o.id then t else t.modCslot n (fun c => { c with loads := c.loads.filter (fun i => i != o.id) })

/-- The load leaves the slot as `c`, with the outcome in LERR. -/
def State.loadEnd (s : State) (n : Nat) (o : EngOp) (lerr : Nat) (c : CSlot) : State :=
  (s.setCslot n { c with lerr := lerr }).endLoad n { o with err := lerr != 0 }

def splitEvery (k : Nat) (bs : List Byte) (n : Nat) : List (List Byte) :=
  (List.range n).map (fun i => (bs.drop (k * i)).take k)

/-- Read, check and load the descriptor, the peer table and the graph (R480 step 4). -/
def State.loadGraph (s : State) (n : Nat) (o : EngOp) (c : CSlot) : State :=
  let free := c.freed
  let hold := fun (t : State) => t.setCslot n { c with state := 2 }
  match s.collRead o (o.vals.getD 0 0).toNat 64 with
  | (.wait, t) => hold t
  | (.bad, t) => t.loadEnd n o 4 free
  | (.ok db, t) =>
    let d := leWord 512 db
    let nr := bitsOf d 288 32
    let nn := bitsOf d 155 10
    if !descrOk d then t.loadEnd n o 2 free
    else match t.collRead o (bitsOf d 448 64) (4 * nr) with
      | (.wait, u) => hold u
      | (.bad, u) => u.loadEnd n o 4 free
      | (.ok pb, u) =>
        let peers := (splitEvery 4 pb nr).map (leWord 32)
        if peers.any (fun e => bitsOf e 24 8 != 0) then u.loadEnd n o 2 free
        else match u.collRead o (o.vals.getD 1 0).toNat (32 * nn) with
          | (.wait, v) => hold v
          | (.bad, v) => v.loadEnd n o 4 free
          | (.ok gb, v) =>
            let bits := (splitEvery 32 gb nn).map (leWord 256)
            if !graphOk bits peers (bitsOf s.regs.modid 10 8) then v.loadEnd n o 3 free
            else v.loadEnd n o 0 { c with
              state := 1, ctx := o.ctx, engine := bitsOf d 168 8, commid := d.extractLsb' 352 32, sid := d.extractLsb' 320 32
              nrank := nr, rank := bitsOf d 256 32, tmo := bitsOf d 176 16, prio := bitsOf d 165 3, stage := bitsOf d 384 64
              peers := peers, nodes := bits.map CNode.ofBits, run := [], credits := [] }

/-- The oldest load of a slot, once every run issued before it has completed. -/
def State.loadStart (s : State) (n : Nat) : State :=
  let c := s.cslot n
  match (c.loads.head?).bind (mget s.eops) with
  | none => s
  | some o =>
    if o.phase == 2 then s.endLoad n o
    else if o.phase != 1 || !s.forkDone o || c.queue.any (fun q => decide (q < o.id)) then s
    else if c.state != 0 && c.state != 2 && c.ctx != o.ctx then s.loadEnd n o 1 c
    else if o.vals.getD 0 0 = 0 then s.loadEnd n o 0 c.freed
    else s.loadGraph n o { c with ctx := o.ctx }

def execCollLoadExecute (slot : Fin 64) (s : State) : Host.Outcome State Fault Refusal := .next (s.loadStart slot.val)

/-! ### Runs (R481, R482) -/

def State.runOf (s : State) (c : CSlot) : Option EngOp := c.runOp.bind (mget s.eops)

/-- The run still moves: it is running and nothing has ended it. -/
def CSlot.live (c : CSlot) : Bool := c.runOp.isSome && !c.ended

def CSlot.node (c : CSlot) (i : Nat) : CNode := (c.nodes[i]?).getD {}
def CSlot.nrun (c : CSlot) (i : Nat) : CNodeRun := (c.run[i]?).getD {}
def CSlot.setRun (c : CSlot) (i : Nat) (r : CNodeRun) : CSlot := { c with run := c.run.set i r }
def CSlot.modRun (c : CSlot) (i : Nat) (f : CNodeRun → CNodeRun) : CSlot := c.setRun i (f (c.nrun i))

/-- A node completes: its successors' counters drop by 1, and its staging slot is free. -/
def CSlot.complete (c : CSlot) (i : Nat) : CSlot :=
  let c1 := c.modRun i (fun r => { r with done := true, staged := none })
  ((c.node i).succ.filter (fun x => x != 0x3FF)).foldl (fun c x => c.modRun x (fun r => { r with count := r.count - 1 })) c1

/-- The lowest free staging slot. -/
def CSlot.freeStage (c : CSlot) : Option Nat := (List.range 4).find? (fun q => !(c.run.any (fun r => r.staged == some q)))

def CSlot.peerOf (c : CSlot) (i : Nat) : W32 := (c.peers[(c.node i).peer]?).getD 0

/-- What a node does as soon as it can: become ready, complete at once, or take staging and send its credit. -/
def State.nodeReady (s : State) (n i : Nat) : State :=
  let c := s.cslot n
  let r := c.nrun i
  let d := c.node i
  if !c.live || r.done || r.count != 0 then s
  else
    let c1 := if r.ready then c else c.setRun i { r with ready := true, readyAt := s.clock }
    let s1 := s.setCslot n c1
    if d.kind == 5 then s1.setCslot n (c1.complete i)
    else if d.recv && r.staged.isNone && !r.arrived then
      match c1.freeStage with
      | none => s1
      | some q =>
        let e := c1.peerOf i
        (s1.setCslot n (c1.modRun i (fun r => { r with staged := some q }))).emit
          (.credit (peerPod e) (peerAcc e) (peerSlot e) d.step d.chunk c.seq.toNat)
    else s1

def State.settleNodes (s : State) (n : Nat) : Nat → State
  | 0 => s
  | k + 1 => ((List.range (s.cslot n).nodes.length).foldl (fun t i => t.nodeReady n i) s).settleNodes n k

/-- A run's token and flag are updated, and it leaves its slot's queue; it stays while its token's page is serviced. -/
def State.endRun (s : State) (n : Nat) (o : EngOp) : State :=
  let t := s.endEng o
  if mhas t.eops o.id then t else t.modCslot n (fun c => { c with queue := c.queue.filter (fun q => q != o.id) })

/-- Finish a run whose nodes are all done, or that an event ended once its chunks on the datapath have finished (R482). Its nodes
keep their arrival bits (R487). -/
def State.runFinish (s : State) (n : Nat) : State :=
  let c := s.cslot n
  match s.runOf c with
  | none => s
  | some o =>
    if !(c.run.all CNodeRun.done || (c.ended && !c.run.any CNodeRun.onPath)) then s
    else
      let t := s.endRun n o
      if mhas t.eops o.id then t
      else t.modCslot n (fun c => { c with runOp := none, ended := false, run := c.run.map (fun r => { r with staged := none }) })

/-- Let every node go as far as it can, and finish the run if it is over. -/
def State.runSettle (s : State) (n : Nat) : State :=
  let k := (s.cslot n).nodes.length
  (s.settleNodes n (k + 1)).runFinish n

/-- An event ends the run: no node starts any more (R482). -/
def State.runError (s : State) (n : Nat) : State :=
  match s.runOf (s.cslot n) with
  | none => s
  | some o => ((s.setEop { o with err := true }).modCslot n (fun c => { c with ended := true })).runFinish n

/-- A queued run that cannot be: with no load before it, the slot is free or held by another context, or a base is in the scratchpad
of another core (R481). -/
def CSlot.refuses (c : CSlot) (o : EngOp) : Bool :=
  c.runOp != some o.id && o.phase == 1 && (o.err || (!c.loads.any (fun l => decide (l < o.id)) &&
    (c.state != 1 || c.ctx != o.ctx || ((o.vals.take 8).any (fun b => b.getLsbD 63) && c.engine != o.core))))

/-- A run that cannot be completes at once with ERR, wherever it stands in the queue; else the one at its head starts (R481). -/
def State.runStart (s : State) (n : Nat) : State :=
  let c := s.cslot n
  if let some o := (c.queue.filterMap (mget s.eops)).find? c.refuses then s.endRun n { o with err := true }
  else if c.runOp.isSome then s.runSettle n
  else match (c.queue.head?).bind (mget s.eops) with
    | none => s
    | some o =>
      if o.phase != 1 || !s.forkDone o || c.loads.any (fun l => decide (l < o.id)) then s
      else
        let seq := (o.vals.getD 8 0).toNat
        let mine := c.credits.filter (fun e => e.2.2.2 == seq)
        let old := c.credits.filter (fun e => decide (e.2.2.2 < seq))
        let run := c.nodes.map (fun d => ({ count := d.dep
                                            credit := d.kind == 0 && mine.any (fun e => e.1 == d.peer && e.2.1 == d.step && e.2.2.1 == d.chunk) } : CNodeRun))
        (s.setCslot n { c with
          runOp := some o.id, ended := false, seq := BitVec.ofNat 32 seq, bufs := o.vals.take 8, startedAt := s.clock, run := run
          credits := c.credits.filter (fun e => decide (seq < e.2.2.2)), stray := c.stray + BitVec.ofNat 32 old.length }).runSettle n

def execCollRunStart (slot : Fin 64) (s : State) : Host.Outcome State Fault Refusal := .next (s.runStart slot.val)

/-- TMO x 2^20 clocks have passed since the run started. -/
def execCollRunTimeout (slot : Fin 64) (s : State) : Host.Outcome State Fault Refusal :=
  let c := s.cslot slot.val
  .next (if c.live && c.tmo != 0 && decide (c.tmo * 2 ^ 20 ≤ s.clock - c.startedAt) then s.runError slot.val else s)

/-! ### Arrivals -/

def CSlot.find (c : CSlot) (f : CNode → Bool) (src stp chunk : Nat) : Option Nat :=
  c.nodes.findIdx? (fun d => f d && d.peer == src && d.step == stp && d.chunk == chunk)

/-- A credit for the current run's SEND, one held for a later run, or a stray. -/
def State.creditArrives (s : State) (n src stp chunk seq : Nat) : State :=
  let c := s.cslot n
  let stray := s.setCslot n { c with stray := c.stray + 1 }
  if c.state != 1 then stray
  else match c.find (fun d => d.kind == 0) src stp chunk with
    | none => stray
    | some i =>
      if c.runOp.isSome && c.seq.toNat == seq then
        (s.setCslot n (c.modRun i (fun r => { r with credit := true, readyAt := s.clock }))).runSettle n
      else if c.seq.toNat < seq || (c.runOp.isNone && c.run.isEmpty) then
        s.setCslot n { c with credits := c.credits ++ [(src, stp, chunk, seq)] }
      else stray

def execCreditArrival (slot : Fin 64) (src : Nat) (stp chunk : Nat) (seq : Nat) (s : State) : Host.Outcome State Fault Refusal :=
  .next (s.creditArrives slot.val src stp chunk seq)

/-- Where the lines of a bitmap stand in their chunk. -/
def sentLines (bm : List Bool) : List Nat := (bm.zipIdx.filter (fun e => e.1)).map Prod.snd

def State.ackTo (s : State) (c : CSlot) (src stp chunk seq : Nat) : State :=
  let e := (c.peers[src]?).getD 0
  s.emit (.chunkAck (peerPod e) (peerAcc e) (peerSlot e) stp chunk seq)

/-- Write arrived lines into the staging slot, each at its own offset; none while a page is serviced. -/
def State.stageLines (s : State) (o : EngOp) (va : Nat) (es : List (Nat × BitVec 1024 × W64 × BitVec 5)) : Option (Option VClass) × State :=
  let eas : List Int := es.map (fun e => ((va + 128 * e.1 : Nat) : Int))
  let (r, s1) := s.resolveUnits o .g .engWrite false (unitsOf 128 eas)
  if r.wait then (none, s1)
  else match r.viols with
    | (c, ea) :: _ => (some (some c), (s1.engViol o .g c .engWrite ea).2)
    | [] =>
      (some none, es.foldl (fun t e =>
        match r.place ((va + 128 * e.1 : Nat) : Int) with
        | some (.mem l) =>
          let bad := (List.range 128).map (fun k => e.2.2.2.getLsbD (k / 32))
          (t.engStore o (.mem l) (toLe 128 e.2.1.toNat) bad).putSide o l e.2.2.1 (e.2.2.2.getLsbD 4)
        | _ => t) s1)

/-- Beats of a chunk arrive. A whole one for a node that has its chunk, or for an earlier run, is discarded and acknowledged again
(R487); one for a run that an event has ended is discarded (R482). The beats are those of a whole chunk, or fewer lines than its
bitmap names when the rest is still to come. -/
def State.chunkArrives (s : State) (n src stp chunk seq : Nat) (bm : List Bool) (lines : List (BitVec 1024 × W64 × BitVec 5)) : State :=
  let c := s.cslot n
  let stray := s.setCslot n { c with stray := c.stray + 1 }
  let dup := s.setCslot n { c with dup := c.dup + 1 }
  if c.state != 1 then stray
  else match c.find CNode.recv src stp chunk with
    | none => stray
    | some i =>
      let r := c.nrun i
      let whole := lines.length == (sentLines bm).length
      if !c.run.isEmpty && (decide (seq < c.seq.toNat) || (seq == c.seq.toNat && (r.arrived || !c.live))) then
        if !whole then s else if decide (seq < c.seq.toNat) || r.arrived then dup.ackTo c src stp chunk seq else dup
      else if seq != c.seq.toNat || !c.live || r.staged.isNone then stray
      else match s.runOf c, r.staged with
        | some o, some q =>
          (match s.stageLines o (c.stage + 65536 * q) ((sentLines bm).zip lines) with
           | (none, t) => t
           | (some (some _), t) => t.runError n
           | (some none, t) =>
             let t1 := t.modCslot n (fun c => c.modRun i (fun r => { r with bitmap := bm, arrived := whole, partly := !whole, readyAt := s.clock }))
             if whole then t1.ackTo c src stp chunk seq else t1)
        | _, _ => stray

def execChunkArrival (slot : Fin 64) (src : Nat) (stp chunk : Nat) (seq : Nat) (bitmap : List Bool)
    (lines : List (BitVec 1024 × W64 × BitVec 5)) (s : State) : Host.Outcome State Fault Refusal :=
  .next (s.chunkArrives slot.val src stp chunk seq bitmap lines)

/-- The receiver's acknowledgment completes a SEND. -/
def State.ackArrives (s : State) (n src stp chunk seq : Nat) : State :=
  let c := s.cslot n
  match c.find (fun d => d.kind == 0) src stp chunk with
  | none => s
  | some i =>
    if c.live && c.seq.toNat == seq && (c.nrun i).sent && !(c.nrun i).done then (s.setCslot n (c.complete i)).runSettle n else s

def execChunkAckArrival (slot : Fin 64) (src : Nat) (stp chunk : Nat) (seq : Nat) (s : State) : Host.Outcome State Fault Refusal :=
  .next (s.ackArrives slot.val src stp chunk seq)

/-- R486: a chunk whose beats have stopped; its staging content is discarded and its arrival bit stays clear. -/
def execChunkAbandon (slot : Fin 64) (node : Nat) (s : State) : Host.Outcome State Fault Refusal :=
  let c := s.cslot slot.val
  let r := c.nrun node
  .next (if c.live && r.partly && decide (65536 ≤ s.clock - r.readyAt) then
    s.setCslot slot.val (c.modRun node (fun r => { r with partly := false, bitmap := [] })) else s)

/-! ### Buffers -/

/-- The space and address of an offset in buffer b (R477). -/
def CSlot.bufAt (c : CSlot) (b off : Nat) : Space × Int :=
  let v := (c.bufs[b]?).getD 0
  if v.getLsbD 63 then (.sp, ((bitsOf v 0 21 + off : Nat) : Int)) else (.g, ((v.toNat + off : Nat) : Int))

/-- A line as the engine reads it: bytes, side band, the bytes that are poisoned, and the poison of the side band. -/
structure CLine where
  data : BitVec 1024 := 0
  side : W64 := 0
  bad : W128 := 0
  badSide : Bool := false
  deriving DecidableEq, Repr

def CLine.poisoned (l : CLine) : Bool := l.bad != 0 || l.badSide

/-- The marks of a line on the link and in staging: one for each 32 bytes, and the side band's above them. -/
def poison5 (bs : List Bool) (side : Bool) : BitVec 5 :=
  BitVec.ofNat 5 (((List.range 4).map (fun k => if ((bs.drop (32 * k)).take 32).any id then 2 ^ k else 0)).sum + if side then 16 else 0)

/-- 128 bytes at an address that need not be aligned to a line; a side band only for an aligned one. -/
def State.readCLine (s : State) (o : EngOp) (r : Resolved) (ea : Int) (mx : Bool) : CLine :=
  let cut := 128 - (ea % 128).toNat
  let get := fun (a : Int) (n : Nat) => match r.place a with
    | some l => (s.engRead o l n, s.engPoison o l n)
    | none => (List.replicate n 0, List.replicate n true)
  let (b1, p1) := get ea cut
  let (b2, p2) := if cut < 128 then get (ea + cut) (128 - cut) else ([], [])
  let (sd, sp) := match mx, r.place ea with
    | true, some (.mem l) => ((s.locSide l).getD 0, s.locSidePoison l)
    | _, _ => (0, false)
  { data := leWord 1024 (b1 ++ b2), side := sd, bad := maskWhere (BitVec.allOnes 128) (fun k => (p1 ++ p2).getD k false), badSide := sp }

def CLine.zero (l : CLine) (mx : Bool) : Bool := l.data == 0 && (!mx || l.side == 0)

def lineEas (base : Int) (len : Nat) : List Int := (List.range (len / 128)).map (fun k => base + ((128 * k : Nat) : Int))

def State.touchLines (s : State) (o : EngOp) (r : Resolved) : State := r.locs.foldl (fun t e => t.engTouch o e.2 128) s

/-! ### Ports (R471, R472) -/

def State.upPorts (s : State) : List Nat := (s.regs.ports.filter (fun p => p.2.1)).map Prod.fst

/-- Count a resend on the port that carries it. -/
def State.countResend (s : State) (p : Nat) : State :=
  let (up, retx, llr) := mgetD s.regs.ports p (false, 0, 0)
  { s with regs := { s.regs with ports := mset s.regs.ports p (up, if retx = 0xFFFF#16 then retx else retx + 1, llr) } }

/-- Another up port than the last attempt's, where there is one. -/
def State.pickPort (s : State) (last : Nat) : Nat × State :=
  let ps := s.upPorts
  let others := ps.filter (fun p => p != last)
  let qs := if others.isEmpty then ps else others
  let (k, t) := s.pick qs.length
  (qs.getD k 31, t)

/-! ### SEND (R481, R485) -/

inductive PieceEnd where
  | wait
  | stopped
  | done

/-- Read a SEND's chunk and send it. -/
def State.sendChunk (s : State) (n i : Nat) (o : EngOp) : PieceEnd × State :=
  let c := s.cslot n
  let d := c.node i
  let (space, base) := c.bufAt d.sbuf d.soff
  let eas := lineEas base d.len
  let (r, s1) := s.resolveUnits o space .engRead false (unitsOf 128 eas)
  if r.wait then (.wait, s1)
  else match r.viols with
    | (k, ea) :: _ => (.stopped, (((s1.engViol o space k .engRead ea).2).modCslot n (fun c => c.modRun i (fun r => { r with onPath := false }))).runError n)
    | [] =>
      let s2 := s1.touchLines o r
      let ls := eas.map (fun ea => s2.readCLine o r ea d.mx)
      let bm := ls.map (fun l => !d.eld || !l.zero d.mx)
      let sent := (ls.zip bm).filterMap (fun e => if e.2 then some (e.1.data, e.1.side, poison5 ((List.range 128).map e.1.bad.getLsbD) e.1.badSide) else none)
      let e := c.peerOf i
      let s3 := if ls.any CLine.poisoned then s2.setEop { o with dmg := true } else s2
      let (port, s4) := if (c.nrun i).port = 31 then s3.pickPort 31 else ((c.nrun i).port, s3)
      let s5 := s4.modCslot n (fun c => c.modRun i (fun r => { r with sent := true, sentAt := s.clock, onPath := false, port := port }))
      (.done, if port = 31 then s5 else s5.emit
        (.chunk (peerPod e) (peerAcc e) (peerSlot e) d.step d.chunk c.seq.toNat bm sent))

/-! ### RECV and RECVRED (R481, R484) -/

/-- Elements of a line, and the bits of each. -/
def lineElems (f : NFC) (mx : Bool) : Nat :=
  if mx then 32 * mxPerLine ((mxOfNfc f).getD .e4m3) else 128 / (plainBytes f).getD 1

/-- One element of a line as an exact value. -/
def CLine.elem (l : CLine) (f : NFC) (mx : Bool) (e : Nat) : XVal :=
  if mx then
    let m := (mxOfNfc f).getD .e4m3
    let b := e / 32
    let q := l.data.toNat / 2 ^ (8 * (b * mxBlockBytes m) + mxBits m * (e % 32)) % 2 ^ mxBits m
    fmtF32.decode (dequantize (fmtOf f) q (bitsOf l.side (8 * b) 8)).1
  else
    let w := 8 * (plainBytes f).getD 1
    (fmtOf f).decode (l.data.toNat / 2 ^ (w * e) % 2 ^ w)

/-- Every byte of a run of `n` bytes (an element, or an MX block) that holds a poisoned one. -/
def spread (n : Nat) (bad : W128) : W128 :=
  maskWhere (BitVec.allOnes 128) (fun k => (List.range n).any (fun j => bad.getLsbD (k / n * n + j)))

/-- The reduce of two lines that are combined (R484): values, then the codes and scales written. -/
def reduceLine (d : CNode) (c : CSlot) (seed : W128) (node first : Nat) (l a : CLine) : CLine :=
  let f := (collFmt d.fmt).getD .f32
  let mx := d.mx
  let m := (mxOfNfc f).getD .e4m3
  let n := lineElems f mx
  let rm := (RM.ofCode (BitVec.ofNat 3 d.rm)).toOption.getD .rne
  let draw := fun e => (⟨seed, c.sid, BitVec.ofNat 64 (c.seq.toNat * 2 ^ 32 + node * 2 ^ 17 + first + e)⟩ : Draw)
  let val := fun e =>
    let x := l.elem f mx e
    let y := a.elem f mx e
    match d.redop with
    | 0 => fmtF32.decode (fmtF32.round (x.add y false).1 .rne {}).1
    | 1 => x.pickMm false y
    | _ => x.pickMm true y
  let bad := l.bad ||| a.bad
  if mx then
    let out := (List.range (mxPerLine m)).map (fun b => quantizeBlock ((List.range 32).map (fun e => val (32 * b + e))) (fmtOf f) rm (fun e => draw (32 * b + e)))
    let data := (out.zipIdx.map (fun q => (q.1.1.zipIdx.map (fun e => e.1 % 2 ^ mxBits m * 2 ^ (8 * (q.2 * mxBlockBytes m) + mxBits m * e.2))).sum)).sum
    let side := (out.zipIdx.map (fun q => q.1.2.1 % 256 * 2 ^ (8 * q.2))).sum
    let badSide := l.badSide || a.badSide
    { data := BitVec.ofNat 1024 data, side := BitVec.ofNat 64 side
      bad := if badSide then BitVec.allOnes 128 else spread (mxBlockBytes m) bad, badSide := badSide }
  else
    let w := 8 * (plainBytes f).getD 1
    { data := BitVec.ofNat 1024 (((List.range n).map (fun e => ((fmtOf f).round (val e) rm (draw e)).1 % 2 ^ w * 2 ^ (w * e))).sum)
      side := 0, bad := spread (w / 8) bad }

/-- One line of R484: passed through raw, or combined. -/
def combineLine (d : CNode) (c : CSlot) (seed : W128) (node first : Nat) (l : CLine) (a : Option CLine) : CLine :=
  let za := a.elim true (fun x => x.zero d.mx)
  if d.redop == 0 && za then l
  else if d.redop == 0 && l.zero d.mx then a.getD {}
  else
    -- an elided line stands for +0 in every element and scales of 1
    reduceLine d c seed node first l (a.getD { side := if d.mx then BitVec.ofNat 64 0x7F7F7F7F7F7F7F7F else 0 })

/-- Write one destination line: whole, with its side band for an MX format. -/
def State.putCLine (s : State) (o : EngOp) (r : Resolved) (ea : Int) (mx : Bool) (l : CLine) : State :=
  let cut := 128 - (ea % 128).toNat
  let bs := toLe 128 l.data.toNat
  let bad := (List.range 128).map l.bad.getLsbD
  let put := fun (t : State) (a : Int) (b : List Byte) (p : List Bool) => match r.place a with
    | some x => t.engStore o x b p
    | none => t
  let t := put s ea (bs.take cut) (bad.take cut)
  let t1 := if cut < 128 then put t (ea + cut) (bs.drop cut) (bad.drop cut) else t
  match mx, r.place ea with
  | true, some (.mem x) => t1.putSide o x l.side l.badSide
  | _, _ => t1

/-- Apply a chunk that lies whole in staging. -/
def State.applyChunk (s : State) (n i : Nat) (o : EngOp) : PieceEnd × State :=
  let c := s.cslot n
  let d := c.node i
  let r := c.nrun i
  let red := d.kind == 2
  let (dsp, dbase) := c.bufAt d.dbuf d.doff
  let (ssp, sbase) := c.bufAt d.sbuf d.soff
  let deas := lineEas dbase d.len
  let seas := if red then lineEas sbase d.len else []
  let stage : Int := ((c.stage + 65536 * r.staged.getD 0 : Nat) : Int)
  let geas := (sentLines r.bitmap).map (fun k => stage + ((128 * k : Nat) : Int))
  let (g, s1) := s.resolveUnits o .g .engRead false (unitsOf 128 geas)
  let (l, s2) := s1.resolveUnits o ssp .engRead (red && d.mx) (unitsOf 128 seas)
  let (t, s3) := s2.resolveUnits o dsp .engWrite (red && d.mx) (unitsOf 128 deas)
  if g.wait || l.wait || t.wait then (.wait, s3)
  else
    let vs := lowestViol .g .engRead g ++ lowestViol ssp .engRead l ++ lowestViol dsp .engWrite t
    if !vs.isEmpty then (.stopped, (((s3.stopAt o vs).2).modCslot n (fun c => c.modRun i (fun r => { r with onPath := false }))).runError n)
    else
      let s4 := (s3.touchLines o g).touchLines o l
      let seed := o.vals.getD 10 0 ++ o.vals.getD 9 0
      let per := lineElems ((collFmt d.fmt).getD .f32) d.mx
      let ins := deas.zipIdx.map (fun e =>
        let here := (r.bitmap[e.2]?).getD false
        let a := if here then some (s4.readCLine o g (stage + ((128 * e.2 : Nat) : Int)) d.mx) else none
        (e.1, per * e.2, a, if red then some (s4.readCLine o l (sbase + ((128 * e.2 : Nat) : Int)) d.mx) else none))
      let s5 := ins.foldl (fun u e => u.putCLine o t e.1 d.mx
        (e.2.2.2.elim (e.2.2.1.getD {}) (fun x => combineLine d c seed i e.2.1 x e.2.2.1))) s4
      let s6 := if ins.any (fun e => e.2.2.1.any CLine.poisoned || e.2.2.2.any CLine.poisoned) then s5.setEop { o with dmg := true } else s5
      (.done, (s6.modCslot n (fun c => (c.modRun i (fun r => { r with onPath := false })).complete i)).runSettle n)

/-! ### The datapath of an engine (R489) -/

/-- A chunk that could take the datapath now: slot, node, when it became ready. Of a run that an event has ended only one already on
it (R482). -/
def State.readyChunks (s : State) (k : Nat) : List (Nat × Nat × Nat × Nat) :=
  s.cslots.flatMap (fun e =>
    let c := e.2
    if c.runOp.isSome && c.engine == k && c.state == 1 then
      (List.range c.nodes.length).filterMap (fun i =>
        let r := c.nrun i
        let d := c.node i
        if r.ready && !r.done && (c.live || r.onPath) && ((d.kind == 0 && r.credit && !r.sent) || (d.recv && r.arrived)) then
          some (e.1, i, r.readyAt, c.prio) else none)
    else [])

/-- Old chunks first, then the highest priority, then the one ready longest. -/
def chunkBefore (now : Nat) (a b : Nat × Nat × Nat × Nat) : Bool :=
  let old := fun (x : Nat × Nat × Nat × Nat) => decide (1048576 ≤ now - x.2.2.1)
  if old a != old b then old a
  else if !old a && a.2.2.2 != b.2.2.2 then decide (b.2.2.2 < a.2.2.2)
  else decide (a.2.2.1 < b.2.2.1)

def State.chunkPiece (s : State) (n i : Nat) : State :=
  match s.runOf (s.cslot n) with
  | none => s
  | some o =>
    let s1 := s.modCslot n (fun c => c.modRun i (fun r => { r with onPath := true }))
    let (e, t) := if ((s.cslot n).node i).kind == 0 then s1.sendChunk n i o else s1.applyChunk n i o
    match e with
    | .wait => t
    | .stopped | .done => (t.modCore (s.cslot n).engine (fun c => { c with lastChunk := true })).runFinish n

/-- Copies that may take the datapath, in the order they were issued. -/
def State.readyCopies (s : State) (k : Nat) : List EngOp :=
  ((s.core k).pieces.filterMap (mget s.eops)).filter (fun o => o.phase == 1 && s.forkDone o)

def State.datapath (s : State) (k : Nat) : State :=
  let c := s.core k
  match c.running.bind (mget s.eops) with
  | some o => s.copyChunk o
  | none =>
    let chunks := s.readyChunks k
    match chunks.find? (fun e => ((s.cslot e.1).nrun e.2.1).onPath) with
    | some e => s.chunkPiece e.1 e.2.1
    | none =>
      match sortBy (chunkBefore s.clock) chunks, s.readyCopies k with
      | [], [] => s
      | e :: es, cs =>
        if cs.isEmpty || !c.lastChunk then s.chunkPiece e.1 e.2.1
        else match cs with
          | o :: _ => (s.setCore k { c with running := some o.id, lastChunk := false, pieces := c.pieces.filter (fun i => i != o.id) }).copyChunk o
          | [] => s.chunkPiece ((e :: es).headD e).1 e.2.1
      | [], o :: _ => (s.setCore k { c with running := some o.id, lastChunk := false, pieces := c.pieces.filter (fun i => i != o.id) }).copyChunk o

def execDatapathPiece (core : Nat) (s : State) : Host.Outcome State Fault Refusal := .next (s.datapath core)

/-! ### SIGNAL and WAIT (R481, R490) -/

def CSlot.semValue (c : CSlot) (i : Nat) : W64 := BitVec.ofNat 64 (c.seq.toNat + (c.node i).len)

/-- A SIGNAL or WAIT node that is ready: its access, where the page is known. -/
def State.semNode (s : State) (n i : Nat) (kind : Nat) (acc : Acc) (f : EngOp → Loc → State → State) : State :=
  let c := s.cslot n
  let r := c.nrun i
  match s.runOf c with
  | none => s
  | some o =>
    if !c.live || !r.ready || r.done || (c.node i).kind != kind then s
    else
      let (space, ea) := c.bufAt (c.node i).sbuf (c.node i).soff
      match s.engAt o space ea 8 acc with
      | (.wait, t) => t
      | (.viol k, t) => (t.engViol o space k acc ea).2.runError n
      | (.at_ (.mem l), t) => f o l t
      | (.at_ (.reg _), t) => t

def execCollSignal (slot : Fin 64) (node : Nat) (s : State) : Host.Outcome State Fault Refusal :=
  .next (s.semNode slot.val node 3 .engWrite (fun o l t =>
    let v := (s.cslot slot.val).semValue node
    ((t.engWrite o.core l (toLe 8 v.toNat) (reqOf o.who true o.ctx o.pc)).modCslot slot.val (fun c => c.complete node)).runSettle slot.val))

def execCollWaitPoll (slot : Fin 64) (node : Nat) (s : State) : Host.Outcome State Fault Refusal :=
  .next (s.semNode slot.val node 4 .engRead (fun o l t =>
    let u := t.locTouch l 8 (reqOf o.who true o.ctx o.pc)
    let v := (s.cslot slot.val).semValue node
    if u.locPoison l 8 then u.setEop { o with dmg := true }
    else if !(leWord 64 (u.locRead l 8) - v).getLsbD 63 then (u.modCslot slot.val (fun c => c.complete node)).runSettle slot.val
    else u))

/-! ### Retransmission (R482, R486) -/

/-- 65,536 clocks without an acknowledgment: send again, or after three resends end the run with a LINK record. -/
def State.retransmit (s : State) (n i : Nat) : State :=
  let c := s.cslot n
  let r := c.nrun i
  match s.runOf c with
  | none => s
  | some o =>
    if !c.live || r.done || !r.sent || decide (s.clock - r.sentAt < 65536) then s
    else if 3 ≤ r.resends then
      let (_, ea) := c.bufAt (c.node i).sbuf (c.node i).soff
      let (k, s0) := s.pick 18
      (s0.postErr (clusterOf o.who) 7 0 (BitVec.ofInt 64 ea) (reqOf o.who true o.ctx o.pc) (if r.port = 31 then k else r.port)).runError n
    else
      let (p, s1) := s.pickPort r.port
      let s2 := s1.modCslot n (fun c => c.modRun i (fun r => { r with resends := r.resends + 1, port := p, sent := false }))
      match s2.sendChunk n i o with
      | (.wait, t) => t.modCslot n (fun c => c.modRun i (fun x => { x with resends := r.resends, port := r.port, sent := true }))
      | (.stopped, t) => t
      | (.done, t) => if p = 31 then t else t.countResend p

def execChunkRetransmit (slot : Fin 64) (node : Nat) (s : State) : Host.Outcome State Fault Refusal :=
  .next (s.retransmit slot.val node)

end Sys2Proof.Machine
end

