-- ==== Sys2Proof/Machine/Reform.lean ====
section
/-! DEFINITION. The reform unit (08 R219 to R223): filing threads, bins by age, and new warps built from ready bins. -/

namespace Sys2Proof.Machine

/-! ### REFORM_FILE -/

/-- File the lanes of a waiting path, whole, in one clock. -/
def State.fileLanes (s : State) (who : Nat) (x : Waiting) (a : VOp) (n : Nat) (mask : LaneMask) : State :=
  let w0 := s.warp who
  match w0.pathAt x.lane with
  | none => s
  | some p =>
    let core := coreOf who
    let absent := (reformIssue w0 who x.lane p a n mask).absentBlocks w0
    if !absent.isEmpty then s.wantBlocks who absent
    else if 8192 < s.reformCount core + countLanes mask then
      s.modCore core (fun c => { c with bins := readyOldest s.clock (s.reformCount core + countLanes mask - 8192) c.bins })
    else
      let w := applyDeltas w0 (xDeltas w0 (vuses (reformWord a n)) mask)
      match s.reformRoom who x.lane p a n mask with
      | none => s.modCore core (fun c => { c with bins := readyOldest s.clock 1 c.bins })
      | some (bins, next) =>
        let s1 := ({ s with nextId := next } : State).modCore core (fun c => { c with bins := bins })
        let rest := mdiff p.mask mask
        let s2 := s1.modWarp who (fun _ =>
          let w1 := ({ w.putPath x.lane [{ p with mask := rest }] with filed := w.filed ||| mask } : Warp).clearK mask
          (if rest = 0 then w1 else w1.advance (lowLane rest) p.pc 1).releaseAll)
        let s3 := s2.modCtl who (fun c => { c with waits := c.waits.filter (fun y => y.lane != x.lane) })
        (s3.barrierCheck w.wg core).allFiled w.wg core

def State.reformFile (s : State) (who : Nat) : State :=
  if !s.reformMay who || (s.ctl who).spilled.isSome then s
  else match (s.pollable who).find? (fun x => match x.kind with | .reform _ _ _ => true | _ => false) with
    | some x => (match x.kind with
      | .reform a n m => s.fileLanes who x a n m
      | _ => s)
    | none => s

def execReformFile (who : Nat) (s : State) : Host.Outcome State Fault Refusal := .next (s.reformFile who)

/-! ### REFORM_BIN_AGE -/

def execReformBinAge (core bin : Nat) (s : State) : Host.Outcome State Fault Refusal :=
  .next (s.modCore core (fun c => { c with bins := c.bins.map (fun b =>
    if b.id == bin && decide (2048 ≤ s.clock - b.since) then b.makeReady s.clock else b) }))

/-- Every bin becomes ready by age at its clock, and not later (R221, R230). -/
def State.ageBins (s : State) : State :=
  { s with cores := s.cores.map (fun e => (e.1, { e.2 with bins := e.2.bins.map (fun b =>
      if 2048 ≤ s.clock - b.since then b.makeReady s.clock else b) })) }

/-! ### REFORM_BIN_ISSUE (R222, R223) -/

/-- The warp of a bin before its blocks: lanes in filing order, one path at the bin's PC. -/
def Bin.warp (b : Bin) (num : Nat) (wg : Wg) (minb : Nat) : Warp :=
  let h := b.threads.length
  let mask := maskOf (List.range h)
  let ts := b.threads.zipIdx
  { b.src with
    wg := b.wg, num := num, age := wg.age, ctx := wg.ctx
    p := (List.range 7).map (fun j => (j, maskOf ((ts.filter (fun e => e.1.preds.getLsbD j)).map Prod.snd)))
    x := (List.range 8).map (fun j => (j, { b.src.xreg j with idx := ts.map (fun e => (e.2, (e.1.idx[j]?).getD 0)) }))
    arstat := b.threads.foldl (fun f t => f ||| t.arstat) 0
    curb := max minb ((b.n + 7) / 8), minb := minb
    paths := [{ mask := mask, pc := b.pc }]
    exited := ~~~mask
    tid := ts.map (fun e => (e.2, e.1.tid)) }

/-- Write the carried registers. -/
def Bin.fillRegs (b : Bin) (w : Warp) : Warp :=
  b.threads.zipIdx.foldl (fun w t => t.1.regs.zipIdx.foldl (fun w r => w.setReg r.2 t.2 r.1) w) w

/-- The bin of a core that issues next, where no warp's request for blocks stands before it. -/
def State.nextBin (s : State) (core : Nat) : Option Bin :=
  (s.firstBin core).bind (fun b =>
    let ahead := (s.blockReqs core).takeWhile (fun r => r != .bin b.id)
    if ahead.all (fun r => match r with | .bin _ => true | _ => false) then some b else none)

def State.issueBin (s : State) (core : Nat) : State :=
  match s.nextBin core with
  | none => s
  | some b =>
    match mget s.wgs b.wg, s.freeSlot core, s.freeNum b.wg, s.freeSaveNum b.src.ctx (core / 8) with
    | some g, some k, some num, some sv =>
      let w := b.warp num g b.src.minb
      if s.freeOrdinary core < w.curb || g.st != .resident then s
      else
        let who := 64 * core + k
        let q := (mget s.grids g.grid).elim 1 (fun d => 2 ^ d.descr.qlog)
        let s1 := (s.setWarp who w).setCtl who { tvec := b.tvec, saveNum := sv, seated := q == 1, lastIssue := s.clock, acq := b.acq }
        let s2 := (s1.giveBlocks who (blockList 0 w.curb) freshBlock).modWarp who b.fillRegs
        (s2.modCore core (fun c => { c with bins := c.bins.filter (fun x => x.id != b.id) })).record core 12 k (BitVec.ofNat 64 b.threads.length)
    | _, _, _, _ => s

def execReformBinIssue (core : Nat) (s : State) : Host.Outcome State Fault Refusal := .next (s.issueBin core)

end Sys2Proof.Machine
end

