-- ==== Sys2Proof/Machine/Placing.lean ====
section
/-! DEFINITION. Placing a unit on its cores (16 R425 to R432): what fits where, new workgroups and their warps (R26, R51, R71,
R202, R288), and pre-empted workgroups that come back (R28, R66, R125, R395, R460). -/

namespace Sys2Proof.Machine

/-! ### What a core has free -/

/-- Workgroups that hold a slot and granules of a core; those in `out` are taken as gone. -/
def State.holders (s : State) (core : Nat) (out : List Nat) : List Wg :=
  (mvals s.wgs).filter (fun g => g.core == core && g.st != .saved && s.wgHolds g && !out.contains g.id)

/-- Workgroups with warps on a core. -/
def State.residents (s : State) (core : Nat) : List Wg :=
  (s.holders core []).filter (fun g => g.st == .resident || g.st == .leaving)

/-- Accumulator granules: those past the register and scratchpad regions (R46). -/
def accgOf (part : W32) : List Nat := (List.range (partAccg part)).map (fun i => partRegg part + partSpg part + i)

def spgOf (part : W32) : List Nat := (List.range (partSpg part)).map (fun i => partRegg part + i)

def Wg.granules (g : Wg) : List Nat := g.spxt.filterMap (fun e => if spKind e.2 = 1 then some (bitsOf e.2 0 6) else none)

def State.freeSpg (s : State) (core : Nat) (out : List Nat) : List Nat :=
  let used := (s.holders core out).flatMap Wg.granules
  (spgOf (s.core core).partw).filter (fun n => !used.contains n)

def State.freeAccg (s : State) (core : Nat) (out : List Nat) : List Nat :=
  let used := ((s.holders core out).filter (fun g => g.st != .retired)).flatMap Wg.accg
  (accgOf (s.core core).partw).filter (fun n => !used.contains n)

def State.freeWgSlot (s : State) (core : Nat) (out : List Nat) : Option Nat :=
  (List.range Config.wgSlots).find? (fun k => (s.holders core out).all (fun g => g.slot != k))

/-- Warps of a core that stay when the workgroups of `out` go. -/
def State.staying (s : State) (core : Nat) (out : List Nat) : List Nat :=
  (s.warpsOfCore core).filter (fun w => !out.contains (s.warp w).wg)

def State.freeBlocksWithout (s : State) (core : Nat) (out : List Nat) : Nat :=
  let going := (s.warpsOfCore core).filter (fun w => out.contains (s.warp w).wg)
  s.freeOrdinary core + ((going.flatMap (fun w => mvals (s.warp w).blocks)).filter (fun b => decide (b.group < s.groups core))).length

/-! ### What a unit needs -/

/-- One workgroup to place: a new one by its index, or one that was pre-empted. -/
structure Need where
  rank : Nat
  wg : Option Nat := none
  lin : Nat := 0
  warps : Nat
  blocks : Nat
  deriving DecidableEq, Repr

/-- A unit to place: its grid, its number and its workgroups by rank. -/
structure Unit_ where
  grid : Nat
  unit : Nat
  needs : List Need
  deriving DecidableEq, Repr

/-- Warps of a workgroup that is away. -/
def State.awayWarps (s : State) (g : Nat) : List Nat :=
  (s.warps.filter (fun e => isSaved e.1 && mhas s.ctls e.1 && e.2.wg == g)).map Prod.fst

/-- A pre-empted unit, once every record of it is complete (R69, R432). -/
def State.savedUnit (s : State) (g : Grid) (u : Nat) : Option Unit_ :=
  let ws := (mvals s.wgs).filter (fun w => w.grid == g.id && w.unit == u && w.st != .retired)
  if ws.all (fun w => w.st == .saved) && !ws.isEmpty then
    some ⟨g.id, u, (sortBy (fun (a b : Wg) => decide (a.rank < b.rank)) ws).map (fun w =>
      let k := s.awayWarps w.id
      { rank := w.rank, wg := some w.id, lin := w.lin, warps := k.length, blocks := (k.map (fun x => (s.warp x).curb)).sum })⟩
  else none

def Grid.newUnit (g : Grid) (u : Nat) : Unit_ :=
  ⟨g.id, u, (List.range g.descr.csize).map (fun r =>
    { rank := r, lin := g.descr.csize * u + r, warps := g.descr.warps, blocks := g.descr.minb * g.descr.warps })⟩

/-- The lowest unit of a grid that cluster c has not placed. -/
def Grid.nextUnit (g : Grid) (c : Nat) : Option Unit_ :=
  let n := mgetD g.placed c 0
  if n < g.unitsIn c then (g.targetIdx c).map (fun i => g.newUnit (i + n * g.ccnt)) else none

/-- The units of a grid in a cluster, in the order they are considered: pre-empted ones, then the lowest unplaced (R428). -/
def State.unitsToPlace (s : State) (g : Grid) (c : Nat) : List Unit_ :=
  let saved := sortBy (fun (a b : Nat) => decide (a < b)) (s.savedUnits g c)
  saved.filterMap (s.savedUnit g) ++ (g.nextUnit c).toList

/-! ### Fitting (R427, R433) -/

/-- A core reserved for another unit. -/
def State.reservedAway (s : State) (core grid unit : Nat) : Bool :=
  match (s.cluster (core / 8)).resv with
  | none => false
  | some (g, u, cs) => cs.contains core && !(g == grid && u == unit)

def isBinReq : BlockReq → Bool
  | .bin _ => true
  | _ => false

/-- R427 for one workgroup on one core, the workgroups of `out` taken as gone; `anyPart` leaves the partition aside. -/
def State.fits (s : State) (core : Nat) (g : Grid) (u : Unit_) (n : Need) (out : List Nat) : Bool :=
  (s.core core).partw == g.descr.part && (s.freeWgSlot core out).isSome &&
  decide (n.warps + (s.staying core out).length ≤ Config.warpSlots) &&
  decide (n.blocks ≤ s.freeBlocksWithout core out) &&
  decide (g.descr.accg ≤ (s.freeAccg core out).length) &&
  (g.descr.spill != 0 || decide (g.descr.spw ≤ (s.freeSpg core out).length)) &&
  (s.blockReqs core).all (fun r => isBinReq r || out.any (fun x => match r with
    | .grow w | .readmit w => (s.warp w).wg == x
    | .bin _ => false)) &&
  !s.reservedAway core g.id u.unit

/-- Enough save numbers in the cluster for the new warps of a unit (R452). -/
def State.saveRoom (s : State) (c : Nat) (g : Grid) (u : Unit_) : Bool :=
  let fresh := ((u.needs.filter (fun n => n.wg.isNone)).map Need.warps).sum
  decide ((s.saveNums g.ctx c).length + fresh ≤ 4096)

/-- Subsets of k elements, those of earlier elements first. -/
def choose {α : Type} : Nat → List α → List (List α)
  | 0, _ => [[]]
  | _ + 1, [] => []
  | k + 1, x :: xs => (choose k xs).map (fun l => x :: l) ++ choose (k + 1) xs

def coresOf (c : Nat) : List Nat := (List.range Config.coresPerCluster).map (fun i => Config.coresPerCluster * c + i)

/-- Cores in the order of preference: most free ordinary blocks, then the lowest number (R428). -/
def State.preferred (s : State) (c : Nat) : List Nat :=
  sortBy (fun a b => decide (s.freeOrdinary b < s.freeOrdinary a) || (s.freeOrdinary a == s.freeOrdinary b && decide (a < b))) (coresOf c)

/-- The cores a unit goes to, by rank, if it fits (R427, R428). -/
def State.fitUnit (s : State) (c : Nat) (g : Grid) (u : Unit_) : Option (List Nat) :=
  if !s.saveRoom c g u then none
  else
    let cand := (s.preferred c).filter (fun k => u.needs.any (fun n => s.fits k g u n []))
    ((choose u.needs.length cand).map (sortBy (fun (a b : Nat) => decide (a < b)))).find? (fun cs =>
      (cs.zip u.needs).all (fun p => s.fits p.1 g u p.2 []))

/-! ### A new workgroup -/

/-- The translation table of a workgroup on a core: granules first, spill windows for the rest (R26). -/
def spTable (core slot spw spill : Nat) (free : List Nat) : SMap W64 :=
  (List.range spw).map (fun w =>
    (w, match free[w]? with
        | some gr => BitVec.ofNat 64 (2 ^ 62 + gr)
        | none => BitVec.ofNat 64 (2 ^ 63 + (spill + (core * 64 + slot) * 2 ^ 21 + w * 65536) % 2 ^ 57)))

def spillWindows (t : SMap W64) : List Nat := (t.filter (fun e => spKind e.2 == 2)).map Prod.fst

/-- The lanes of warp w at launch: those at or beyond the thread count have exited (R202). -/
def Descr.lanes (d : Descr) (w : Nat) : LaneMask := BitVec.ofNat 128 (2 ^ min 128 (d.thr - 128 * w) - 1)

/-- The launch state of warp w (R288). -/
def launchWarp (g : Grid) (wg age w : Nat) : Warp :=
  let m := g.descr.lanes w
  { wg := wg, num := w, nwarp := g.descr.warps, ctx := g.ctx, prio := g.prio, age := age
    s := if g.descr.args = 0 then [] else [(0, g.descr.args)]
    curb := g.descr.minb, minb := g.descr.minb
    paths := [{ mask := m, pc := g.descr.entry }], exited := ~~~m }

/-- Start one warp in the lowest free slot of a core, with the lowest free save number (R428, R452); it owes the acquire of the
launch (R154). -/
def State.startWarp (s : State) (core : Nat) (g : Grid) (wg age w : Nat) : State :=
  match s.freeSlot core, s.freeSaveNum g.ctx (core / 8) with
  | some k, some sv =>
    let who := 64 * core + k
    let s1 := (s.setWarp who (launchWarp g wg age w)).setCtl who { saveNum := sv, seated := g.descr.qlog == 0, lastIssue := s.clock, acq := true }
    s1.giveBlocks who (blockList 0 g.descr.minb) freshBlock
  | _, _ => s

def State.startWarps (s : State) (core : Nat) (g : Grid) (wg age : Nat) : State :=
  (List.range g.descr.warps).foldl (fun t w => t.startWarp core g wg age w) s

/-- A new workgroup on a core. -/
def State.placeNew (s : State) (core : Nat) (g : Grid) (u : Unit_) (n : Need) : State :=
  let slot := (s.freeWgSlot core []).getD 0
  let t := spTable core slot g.descr.spw g.descr.spill (s.freeSpg core [])
  let (id, s1) := s.newId
  let w : Wg := {
    id := id, grid := g.id, ctx := g.ctx, lin := n.lin, unit := u.unit, rank := n.rank, core := core, slot := slot, age := id
    spxt := t, accg := (s.freeAccg core []).take g.descr.accg, fillWin := spillWindows t }
  let s2 := (s1.setWg w).startWarps core g id id
  let first := (s2.warpsOfWg id).head?.getD 0
  s2.record core 6 (slotOf first) (BitVec.ofNat 64 n.lin)

/-! ### A pre-empted workgroup comes back -/

/-- A saved operation of a thread that has a new slot: its lanes land where the workgroup's windows now lie, and each page is
translated again from the root; it takes a log entry at its lookups (R125). -/
def State.reassignOp (s : State) (who : Nat) (o : MemOp) : State :=
  let core := coreOf who
  let pres := s.presOf who o.ctx o.instr o.ea
  let s0 := { s with treqs := s.treqs.filter (fun e => !o.treqs.contains e.1) }
  let (reqs, s1) := s0.makeTreqs who core o.ctx (memAcc o.instr) 0 true (s0.pagesOf o.ctx pres)
  let ids := mvals reqs
  ({ s1 with treqs := s1.treqs.map (fun e => if ids.contains e.1 then (e.1, { e.2 with root := true }) else e) } : State).setMop
    { o with core := core, log := none, treqs := ids, keys := s1.memKeys o.ctx pres
             place := pres.map (fun e => (e.1, s1.placeOf o.ctx reqs e.2)) }

def State.reassign (s : State) (who : Nat) : State :=
  ((mvals s.mops).filter (fun o => o.who == who)).foldl (fun t o => t.reassignOp who o) s

/-- What the record of a saved warp takes up (R125, R395, R453). -/
def recordRanges (base : Nat) : List (Nat × Nat) := [(base + 0x21000, 0x1400), (base + 0x28000, 0x8000), (base + 0x40000, 0x40000)]

/-- The saved operations of a thread in the order of their operand-log slots: those with an entry first (R125). -/
def State.logSlots (s : State) (who : Nat) : List MemOp :=
  let mine := (mvals s.mops).filter (fun o => o.who == who)
  (mine.filter (fun o => o.log.isSome) ++ mine.filter (fun o => o.log.isNone)).take 8

/-- They are captured anew from their slots (R125, R460). -/
def State.refillLog (s : State) (who : Nat) : State :=
  (s.logSlots who).zipIdx.foldl (fun t e =>
    match t.readSaved who (t.tsave who + 0x28000 + 0x1000 * e.2) 0x1000 with
    | (some bs, u) => u.setMop (e.1.ofSlot bs)
    | (none, u) => u) s

/-- The paths of a record, about to enter their packets (R236); one that the warp left as it is keeps what no record holds. -/
def recordPaths (bs : List Byte) (before : List Path) : List Path :=
  (layoutPaths bs).map (fun p => { (before.find? (fun f => f.mask == p.mask && f.pc == p.pc)).getD p with inside := false })

/-- A warp as its record at 0x2_1000 holds it (R460): registers, loops, logs, paths and parked lanes, with the trap context. Its flags
are those that its completions have counted down (R457). -/
def State.ofRecord (s : State) (who gen : Nat) (bs : List Byte) : Warp × WarpCtl :=
  let w := s.warp who
  let c := s.ctl who
  let ps := recordPaths bs (w.paths ++ c.frozen)
  let qs := (layoutParked bs).map (fun q => { q with gen := gen })
  let word := sub bs 0x134C 4
  let inTrap := word.testBit 2
  ({ w.ofLayout bs with
     blocks := [], paths := ps.filter (fun p => p.handler == inTrap), parked := qs.filter (fun q => q.handler == inTrap)
     exited := maskOf ((List.range 128).filter (fun L => sub bs (0x1100 + 4 * L) 4 % 8 == 4))
     filed := maskOf ((List.range 128).filter (fun L => sub bs (0x1100 + 4 * L) 4 % 8 == 5))
     k := tableOf 16 0 (fun i => BitVec.ofNat 128 (sub bs (0x380 + 16 * i) 16))
     viol := ⟨BitVec.ofNat 64 (sub bs 0x1358 8), BitVec.ofNat 64 (sub bs 0x1360 8), BitVec.ofNat 64 (sub bs 0x1368 8)⟩ },
   { c with
     tvec := BitVec.ofNat 64 (sub bs 0x1340 8), inTrap := inTrap, pmtx := word.testBit 0, pabft := word.testBit 1, seated := word.testBit 6
     mtxCount := sub bs 0x1350 4, lost := (List.range 32).filter (fun b => (sub bs 0x1354 4).testBit b)
     frozen := if inTrap then ps.filter (fun p => !p.handler) else [], frozenParked := if inTrap then qs.filter (fun q => !q.handler) else [] })

/-- A saved warp takes a slot: its state reloaded from its record, its window absent, its operations its own again, its acquire owed
(R158, R460). -/
def State.resumeWarp (s : State) (core away : Nat) : State :=
  match s.freeSlot core with
  | none => s
  | some k =>
    let who := 64 * core + k
    let (bs, r0) := s.readSaved away (s.tsave away + 0x21000) 0x1400
    let r := ((r0.refillLog away).refillGeo away).dropAsks away 0
    let (w, c) := r.ofRecord away (r.ctl away).gen (bs.getD (r.layout away (r.ctl away).trapMask))
    let c1 := { c with boundary := false, spilled := none, acq := true, passed := [], fetched := [], lastIssue := s.clock, bumped := false, stall := none }
    let s1 := r.renameWho away who
    let s3 := { s1 with warps := mset (mdel s1.warps away) who w, ctls := mset (mdel s1.ctls away) who c1 }
    let s4 := ((s3.giveAbsent who (blockList 0 w.curb)).reassign who).returnGeo who
    s4.record core 5 k (BitVec.ofNat 64 (s4.tsave who))

/-- Whether the records of saved warps can be read; where a page faults, the fault is raised and they wait. -/
def State.recordsReady (s : State) : List Nat → Bool × State
  | [] => (true, s)
  | k :: r =>
    match s.saveAllReady k .load (recordRanges (s.tsave k)) with
    | (false, t) => (false, t)
    | (true, t) => t.recordsReady r

/-- The windows of a returning workgroup: those that lie in granules stay in `sp`, the others are written out (R28). -/
def State.placeSaved (s : State) (core : Nat) (g : Grid) (id : Nat) : State :=
  match mget s.wgs id with
  | none => s
  | some w =>
    let slot := (s.freeWgSlot core []).getD 0
    let t := spTable core slot g.descr.spw g.descr.spill (s.freeSpg core [])
    let s1 := s.setWg { w with core := core, slot := slot, st := .resident, spxt := t
                               accg := (s.freeAccg core []).take g.descr.accg, fillWin := spillWindows t, bins := [] }
    let s2 := s1.modCore core (fun c => { c with bins := sortBy (fun (a b : Bin) => decide (a.id < b.id)) (c.bins ++ w.bins) })
    ((sortBy (fun (a b : Nat) => decide ((s.warp a).num < (s.warp b).num)) (s.awayWarps id)).foldl (fun t x => t.resumeWarp core x) s2).takeExact core

/-! ### The unit -/

/-- Place every workgroup of a unit on its core; its reservation ends (R429). -/
def State.placeUnit (s : State) (c : Nat) (g : Grid) (u : Unit_) (cores : List Nat) : State :=
  let s1 := (cores.zip u.needs).foldl (fun t p => match p.2.wg with
    | some id => t.placeSaved p.1 g id
    | none => t.placeNew p.1 g u p.2) s
  let isNew := u.needs.any (fun n => n.wg.isNone)
  let s2 := match mget s1.grids g.id with
    | some d => s1.setGrid { d with placed := if isNew then mset d.placed c (mgetD d.placed c 0 + 1) else d.placed }
    | none => s1
  s2.modCluster c (fun k => match k.resv with
    | some (a, b, _) => if a == g.id && b == u.unit then { k with resv := none } else k
    | none => k)

end Sys2Proof.Machine
end

