-- ==== Sys2Proof/Machine/Dispatching.lean ====
section
/-! DEFINITION. The dispatcher of a cluster (16 R428 to R433) and pre-emption (17 R455 to R460): DISPATCH_STEP,
DISPATCH_RESERVE_TIMEOUT, PARTITION_CHANGE, PREEMPT_BOUNDARY, PREEMPT_HANDOVER and SAVE_RECORD_COMPLETE. -/

namespace Sys2Proof.Machine

/-! ### Spill windows before the first issue (R26, R28) -/

def winTag (g : Nat) : Nat := 2 ^ 42 + g

def Wg.spillVa (g : Wg) (w : Nat) : Nat := bitsOf (mgetD g.spxt w 0) 16 41 * 65536

/-- The side bands and poison of a window follow its bytes. -/
def State.windowMarks (s : State) (g : Wg) (w : Nat) (parts : List (Nat × Nat × Nat)) : State :=
  parts.foldl (fun t p =>
    let o := w * 65536 + p.1
    let t1 := (linesOf o p.2.2).foldl (fun u l =>
      let at_ : Loc := .phys (p.2.1 + (128 * l - o))
      (u.locSetSide at_ (mgetD g.spSide l 0)).locSideMark at_ (mhas g.spSidePoison l)) t
    ((sectorsOf o p.2.2).filter (fun k => mhas g.spPoison k)).foldl (fun u k => u.locMark (.phys (p.2.1 + (32 * k - o))) 32) t1) s

/-- The pieces of a spill window that have a mapping, each of them one 4 KiB unit (R27): none while a page is being serviced. -/
def State.windowParts (s : State) (g : Wg) (w : Nat) (acc : Acc) : List (Nat × Nat) → Option (List (Nat × Nat × Nat)) × State
  | [] => (some [], s)
  | (o, n) :: r =>
    let va := g.spillVa w + o
    match s.ask g.ctx va acc g.core (64 * g.core) (winTag g.id) va 0 n with
    | (.wait, t) => (none, t)
    | (.viol _, t) => t.windowParts g w acc r
    | (.ok pa _, t) => match t.windowParts g w acc r with
      | (some l, u) => (some ((o, pa, n) :: l), u)
      | (none, u) => (none, u)

def State.askWindow (s : State) (g : Wg) (w : Nat) (acc : Acc) : Option (List (Nat × Nat × Nat)) × State :=
  match s.windowParts g w acc (piecesOf (g.spillVa w) 65536) with
  | (none, t) => (none, t)
  | (some ps, t) => (some ps, t.dropAsks (64 * g.core) (winTag g.id))

/-- Write one spill window of a workgroup through the L2; the parts with no mapping are left (R26, R27, R28). -/
def State.fillWindow (s : State) (g : Wg) (w : Nat) : State :=
  match s.askWindow g w .engWrite with
  | (none, t) => t
  | (some ps, t) =>
    ((t.writeParts ps (Memory.readN g.sp (w * 65536) 65536) (reqOf (64 * g.core) true g.ctx 0)).windowMarks g w ps).modWg g.id (fun x =>
      { x with fillWin := x.fillWin.filter (fun k => k != w) })

def State.fillWindows (s : State) (c : Nat) : State :=
  (mvals s.wgs).foldl (fun t g =>
    if g.core / 8 == c && g.st == .resident then (g.fillWin.head?).elim t (fun w => t.fillWindow g w) else t) s

/-! ### DISPATCH_STEP (R428, R431) -/

/-- The grids of a cluster in the order they are considered, each with its units. -/
def State.considered (s : State) (c : Nat) : List (Grid × List Unit_) :=
  ((List.range 32).flatMap (fun i => s.fifo c (31 - i))).filterMap (fun g =>
    let us := s.unitsToPlace g c
    if g.held || us.isEmpty then none else some (g, us))

/-- The units of a cluster one by one, in the order they are considered. -/
def State.unitOrder (s : State) (c : Nat) : List (Grid × Unit_) := (s.considered c).flatMap (fun e => e.2.map (fun u => (e.1, u)))

/-- The first unit that fits, and those considered before it, which are passed over (R428). -/
def State.firstFit (s : State) (c : Nat) : List (Grid × Unit_) → List (Grid × Unit_) × Option (Grid × Unit_ × List Nat)
  | [] => ([], none)
  | (g, u) :: r =>
    match s.fitUnit c g u with
    | some cs => ([], some (g, u, cs))
    | none => let (p, f) := s.firstFit c r
              ((g, u) :: p, f)

def passKey (c u : Nat) : Nat := 32 * u + c

/-- Note which units were passed over in this step, and since when without a break (R429). -/
def State.notePassed (s : State) (c : Nat) (late : List (Grid × Unit_)) : State :=
  { s with grids := s.grids.map (fun e =>
      let keys := (late.filter (fun x => x.1.id == e.1)).map (fun x => passKey c x.2.unit)
      let kept := e.2.passed.filter (fun x => x.1 % 32 != c)
      (e.1, { e.2 with passed := keys.foldl (fun m k => mset m k (mgetD e.2.passed k s.clock)) kept })) }

/-- Since when a unit has been passed over. -/
def Grid.passedSince (g : Grid) (c u : Nat) : Option Nat := mget g.passed (passKey c u)

/-- The workgroups of a core that priority p may displace, youngest first (R431). -/
def State.victims (s : State) (core p : Nat) : List Nat :=
  (sortBy (fun (a b : Wg) => decide (b.age < a.age)) ((s.residents core).filter (fun w => w.st == .resident &&
    (mget s.grids w.grid).elim false (fun d => decide (d.prio + 4 ≤ p))))).map Wg.id

def State.warpsOf (s : State) (gs : List Nat) : Nat := (gs.map (fun g => (s.warpsOfWg g).length)).sum

/-- What must leave a core for one workgroup of the unit to fit, or none where it cannot (R431). -/
def State.displaced (s : State) (core : Nat) (g : Grid) (u : Unit_) (n : Need) : Option (List Nat) :=
  let vs := s.victims core g.prio
  if (s.core core).partw == g.descr.part then
    ((List.range (vs.length + 1)).map (fun i => vs.take i)).find? (fun out => s.fits core g u n out)
  else
    let all := (s.residents core).map Wg.id
    if !all.isEmpty && all.all (fun x => vs.contains x) && !s.reservedAway core g.id u.unit &&
        decide (n.blocks ≤ 16 * partRegg g.descr.part) then some all else none

/-- The fewest warps that must leave a core for some workgroup of the unit to fit. -/
def State.fewest (s : State) (core : Nat) (g : Grid) (u : Unit_) : Option Nat :=
  (sortBy (fun a b => decide (a < b)) (u.needs.filterMap (fun n => (s.displaced core g u n).map s.warpsOf))).head?

/-- What leaves those cores for the unit's workgroups, which take them in ascending order (R428). -/
def State.displaceAll (s : State) (g : Grid) (u : Unit_) (cs : List Nat) : Option (List Nat) :=
  ((cs.zip u.needs).mapM (fun p => s.displaced p.1 g u p.2)).map List.flatten

/-- A pre-emption decision for a passed-over unit: what leaves, and the cores reserved, those that need the fewest warps removed. -/
def State.preemption (s : State) (c : Nat) (g : Grid) (u : Unit_) : Option (List Nat × List Nat) :=
  let cand := (coresOf c).filterMap (fun k => (s.fewest k g u).map (fun n => (k, n)))
  let order := (sortBy (fun (a b : Nat × Nat) => decide (a.2 < b.2) || (a.2 == b.2 && decide (a.1 < b.1))) cand).map Prod.fst
  ((choose u.needs.length order).map (sortBy (fun a b => decide (a < b)))).findSome? (fun cs =>
    (s.displaceAll g u cs).bind (fun out => if out.isEmpty then none else some (out, cs)))

/-- At most one decision stands in a cluster (R431). -/
def State.decidePreempt (s : State) (c : Nat) (late : List (Grid × Unit_)) : State :=
  if (s.cluster c).resv.isSome then s
  else match late.findSome? (fun e => (s.preemption c e.1 e.2).map (fun d => (e.1.id, e.2.unit, d))) with
    | some (g, u, out, cores) => (s.preemptReq out).modCluster c (fun k => { k with resv := some (g, u, cores) })
    | none => s

def State.dispatch (s : State) (c : Nat) : State :=
  let s0 := (s.sweep.fillWindows c).modCluster c (fun k => { k with nextStep := s.clock + 16 })
  let (late, fit) := s0.firstFit c (s0.unitOrder c)
  let s1 := s0.notePassed c late
  let s2 := match fit with
    | some (g, u, cs) =>
      (match s1.recordsReady ((u.needs.filterMap Need.wg).flatMap s1.awayWarps) with
       | (false, t) => t
       | (true, t) => t.placeUnit c g u cs)
    | none => s1
  s2.decidePreempt c late

def execDispatchStep (cluster : Nat) (s : State) : Host.Outcome State Fault Refusal :=
  .next (if decide ((s.cluster cluster).nextStep ≤ s.clock) && decide (cluster < Config.clusters) then s.dispatch cluster else s)

/-! ### DISPATCH_RESERVE_TIMEOUT (R429) -/

def State.reserveFor (s : State) (c : Nat) : State :=
  if (s.cluster c).resv.isSome then s
  else
    -- of the highest priority with a queued unit, the oldest one that is passed over
    let us := s.unitOrder c
    let top := us.filter (fun e => (us.head?).any (fun h => h.1.prio == e.1.prio))
    match top.findSome? (fun e => (e.1.passedSince c e.2.unit).map (fun t => (e.1, e.2, t))) with
    | some (g, u, t) =>
      if decide (16384 ≤ s.clock - t) then
        let order := sortBy (fun (a b : Nat) =>
          let x := (s.warpsOfCore a).length
          let y := (s.warpsOfCore b).length
          decide (x < y) || (x == y && decide (a < b))) (coresOf c)
        let same := order.filter (fun k => (s.core k).partw == g.descr.part)
        let cores := (same ++ order.filter (fun k => !same.contains k)).take u.needs.length
        s.modCluster c (fun k => { k with resv := some (g.id, u.unit, cores) })
      else s
    | none => s

def execDispatchReserveTimeout (cluster : Nat) (s : State) : Host.Outcome State Fault Refusal := .next (s.reserveFor cluster)

/-! ### PARTITION_CHANGE (R48, R430) -/

/-- The partition a core is to take: that of the unit it is reserved for, or that of the first passed-over unit whose partition
no core of the cluster holds. -/
def State.wantedPart (s : State) (core : Nat) : Option W32 :=
  let c := core / 8
  match (s.cluster c).resv.bind (fun r => if r.2.2.contains core then mget s.grids r.1 else none) with
  | some d => some d.descr.part
  | none =>
    ((s.unitOrder c).find? (fun e => (e.1.passedSince c e.2.unit).isSome &&
      (coresOf c).all (fun k => (s.core k).partw != e.1.descr.part))).map (fun e => e.1.descr.part)

/-- No workgroup holds anything of the core, and no block of it is still being written back. -/
def State.coreEmpty (s : State) (core : Nat) : Bool :=
  (s.holders core []).isEmpty && (s.warpsOfCore core).isEmpty && (s.core core).reserve.isNone && (s.core core).wbs.isEmpty

def State.changePart (s : State) (core : Nat) : State :=
  match s.wantedPart core with
  | some p => if s.coreEmpty core && (s.core core).partw != p then s.modCore core (fun c => { c with partw := p }) else s
  | none => s

def execPartitionChange (core : Nat) (s : State) : Host.Outcome State Fault Refusal := .next (s.changePart core)

/-! ### PREEMPT_BOUNDARY (R456) -/

/-- Waits that are given up at a boundary; their words issue again. -/
def abandoned : WaitKind → Bool
  | .tlbinv _ => false
  | _ => true

/-- Workgroups of a leaving unit, without those that have retired. -/
def State.unitOf (s : State) (g : Wg) : List Wg :=
  (mvals s.wgs).filter (fun x => x.grid == g.grid && x.unit == g.unit && x.st != .retired)

/-- A warp reaches its boundary. A group that is issuing goes on to its end, and a trap that is being entered is entered first (R456,
R459). A group in the middle of which a path waits stays open. -/
def State.toBoundary (s : State) (who : Nat) : State :=
  if s.cur.elim false (fun c => c.who == who) || (s.ctl who).entering.isSome then s
  else (s.modCtl who (fun c => { c with
    boundary := true, arrived := false, stall := none, quorumIssue := none, quorumFlag := none
    waits := c.waits.filter (fun x => !abandoned x.kind) })).dropAsks who twaitTag

def State.boundaryOf (s : State) (g : Nat) : State :=
  match mget s.wgs g with
  | none => s
  | some w => if w.st == .leaving then (((s.unitOf w).map Wg.id).flatMap s.warpsOfWg).foldl (fun t x => t.toBoundary x) s else s

def execPreemptBoundary (wg : Nat) (s : State) : Host.Outcome State Fault Refusal := .next (s.boundaryOf wg)

/-! ### PREEMPT_HANDOVER (R457, R458) -/

def isGeo (i : Instr) : Bool := (geoArgs i).isSome

/-- A lane memory operation that is saved and performed after resume: one that holds a log entry, or that cannot be performed while
one before it does (R119, R457). One that has begun ends first. -/
def State.savedOp (s : State) (o : MemOp) : Bool :=
  !o.started && !o.held && (o.log.isSome ||
    (!s.mayPerform o && (mvals s.mops).any (fun e => e.who == o.who && decide (e.id < o.id) && e.log.isSome)))

/-- Everything of a warp that must end before its slot is handed over. Its engine operations go on (R457). -/
def State.handedReady (s : State) (who : Nat) : Bool :=
  (s.ctl who).boundary && (mvals s.mops).all (fun o => o.who != who || s.savedOp o)

/-- A warp leaves its slot: its blocks go to be written back, and what it has outstanding goes on under another number.
Its joins to outstanding faults are dropped, and its fetches (R125). -/
def State.handOver (s : State) (who : Nat) : State :=
  let base := s.tsave who
  let s1 := (s.releaseBlocks who base (s.ctl who).inTrap).record (coreOf who) 4 (slotOf who) (BitVec.ofNat 64 base)
  let (k, s2) := s1.awayKey who
  let s3 := (s2.leaveGeo who).renameWho who k
  let s4 : State := { s3 with
    warps := mset (mdel s3.warps who) k (s3.warp who)
    ctls := mset (mdel s3.ctls who) k (s3.ctl who)
    treqs := s3.treqs.map (fun e => if e.2.who == k && !asks e.2 then (e.1, { e.2 with st := .wait }) else e) }
  (((s4.dropAsks k fetchTag).dropAsks k twaitTag).dropAsks k 0).takeExact (coreOf who)

/-- The bins of a workgroup leave with it (log entry 70). -/
def State.takeBins (s : State) (g : Wg) : State :=
  let mine := (s.core g.core).bins.filter (fun b => b.wg == g.id)
  ((s.modCore g.core (fun c => { c with bins := c.bins.filter (fun b => b.wg != g.id) })).modWg g.id (fun w =>
    { w with st := .saving, bins := w.bins ++ mine.map (fun b => { b with acq := true }) }))

def State.handUnit (s : State) (g : Nat) : State :=
  match mget s.wgs g with
  | none => s
  | some w =>
    let us := s.unitOf w
    let ws := (us.map Wg.id).flatMap s.warpsOfWg
    if us.all (fun x => x.st == .leaving && !s.wgStores x.id) && ws.all s.handedReady then
      us.foldl (fun t x => t.takeBins x) (ws.foldl (fun t x => t.handOver x) s)
    else s

def execPreemptHandover (wg : Nat) (s : State) : Host.Outcome State Fault Refusal := .next (s.handUnit wg)

/-! ### SAVE_RECORD_COMPLETE (R69, R101, R355, R458) -/

/-- An engine operation that may still write the scratchpad or accumulator of a workgroup, or a member's through `cl:`. -/
def holdsSave (gs : List Nat) (o : EngOp) : Bool :=
  gs.contains o.wg && !isGeo o.instr && !isLaunch o.instr &&
  (match o.instr with
   | .collRun _ => o.tok.elim false (fun t => t.2) || (o.vals.take 8).any (fun b => b.getLsbD 63)
   | .collLoad _ | .prefetchL2 _ _ _ _ => o.tok.elim false (fun t => t.2)
   | _ => true)

/-- A part of a window that has been read: bytes, side bands and poison. -/
def Wg.takePart (x : Wg) (t : State) (o pa n : Nat) : Wg :=
  let at_ := fun (off : Nat) => Loc.phys (pa + (off - o))
  let put := fun (m : SMap Unit) (k : Nat) (b : Bool) => if b then mset m k () else mdel m k
  { x with
    sp := Memory.write x.sp o (t.physRead pa n)
    spSide := (linesOf o n).foldl (fun m l => match t.locSide (at_ (128 * l)) with
      | some 0 | none => mdel m l
      | some v => mset m l v) x.spSide
    spSidePoison := (linesOf o n).foldl (fun m l => put m l (t.locSidePoison (at_ (128 * l)))) x.spSidePoison
    spPoison := (sectorsOf o n).foldl (fun m k => put m k (t.locPoison (at_ (32 * k)) 32)) x.spPoison }

/-- Read one spill window back into the workgroup, as far as it has a mapping. -/
def State.readWindow (s : State) (g : Wg) (w : Nat) : Bool × State :=
  match s.askWindow g w .engRead with
  | (none, t) => (false, t)
  | (some ps, t0) =>
    let t := t0.touchParts ps (reqOf (64 * g.core) true g.ctx 0)
    (true, ps.foldl (fun u p => u.modWg g.id (fun x => x.takePart t (w * 65536 + p.1) p.2.1 p.2.2)) t)

def State.readWindows (s : State) (g : Wg) : List Nat → Bool × State
  | [] => (true, s)
  | w :: r => match s.readWindow g w with
    | (false, t) => (false, t)
    | (true, t) => t.readWindows g r

/-- The operand-log slots of a save area: those of the saved operations, entries first, the others not valid (R125). -/
def State.writeLogSlots (s : State) (who : Nat) : State :=
  let base := s.tsave who + 0x28000
  let os := s.logSlots who
  (List.range 8).foldl (fun t k => match os[k]? with
    | some o => (opLogSlot o).foldl (fun u p => u.saveWrite who (base + 0x1000 * k + p.1) p.2) t
    | none => t.saveWrite who (base + 0x1000 * k) (List.replicate 64 0)) s

/-- The state of each warp is written, with its operand-log and GEO slots (R453); none of it while a page is being serviced. -/
def State.writeRecords (s : State) : List Nat → Bool × State
  | [] => (true, s)
  | k :: r =>
    let base := s.tsave k
    match s.saveAllReady k .store (recordRanges base) with
    | (false, t) => (false, t)
    | (true, t) =>
      let h := (t.ctl k).trapMask
      ((((t.saveWrite k (base + 0x21000) (t.layout k h)).writeLogSlots k).writeGeoSlots k).dropAsks k 0).writeRecords r

/-- An engine operation is still to write registers of a warp. -/
def State.writesRegs (s : State) (who : Nat) : Bool :=
  (mvals s.eops).any (fun o => o.who == who && !isGeo o.instr && o.dst.any (fun d => !d.2.isEmpty))

def State.completeSave (s : State) (g : Nat) : State :=
  match mget s.wgs g with
  | none => s
  | some w =>
    let gs := ((mvals s.wgs).filter (fun x => x.grid == w.grid && x.unit == w.unit)).map Wg.id
    let ws := s.awayWarps g
    if w.st != .saving || (s.core w.core).wbs.any (fun b => ws.contains b.who) || (mvals s.eops).any (holdsSave gs) || ws.any s.writesRegs then s
    else
      let done := spillWindows w.spxt |>.filter (fun k => !w.fillWin.contains k)
      match s.readWindows w done with
      | (false, t) => t
      | (true, t) =>
        match t.writeRecords ws with
        | (false, u) => u
        | (true, u) => u.modWg g (fun x => { x with st := .saved, spxt := [], accg := [], fillWin := [] })

def execSaveRecordComplete (wg : Nat) (s : State) : Host.Outcome State Fault Refusal := .next (s.completeSave wg)

end Sys2Proof.Machine
end

