-- ==== Sys2Proof/Machine/HostCmd.lean ====
section
/-! DEFINITION. Requests from outside the module (01 R22, 18 R469 to R473), the base dies and their commands (06 R166 to R173),
and the stream, invalidation and context commands of the host (R421, R518, R519). -/

namespace Sys2Proof.Machine

/-! ### Requests for device memory -/

/-- Device memory of this module. -/
def inDev (pa n : Nat) : Bool := decide (0 < n) && decide (pa + n ≤ devTop)

/-- The line may be held by the host from now on (R473). -/
def State.hostHolds (s : State) (pa n : Nat) : State :=
  { s with mem := { s.mem with hostHeld := (linesOf pa n).foldl (fun m l => mset m l ()) s.mem.hostHeld } }

/-- The poisoned sectors of a range. -/
def State.badSectors (s : State) (pa n : Nat) : List Nat := (sectorsOf pa n).filter (fun k => s.physPoison (32 * k) 32)

/-- A write of the host's own, whose copies it keeps; every other write asks for them back (R473). -/
def State.hostWrite (s : State) (pa : Nat) (bs : List Byte) : State :=
  let held := (linesOf pa bs.length).filter (fun l => mhas s.mem.hostHeld l)
  let t := ({ s with mem := { s.mem with hostHeld := s.mem.hostHeld.filter (fun e => !held.contains e.1) } } : State).physWrite pa bs {}
  { t with mem := { t.mem with hostHeld := held.foldl (fun m l => mset m l ()) t.mem.hostHeld } }

/-- A line request carries the side band (R471). Read poison goes to the requester (R89). -/
def State.serveRequest (s : State) (q : MemReq) (host : Bool) : State :=
  match q with
  | .read pa n =>
    if !inDev pa n then s
    else
      let t := s.touch pa n {}
      let u := t.emit (.readData (t.physRead pa n) (t.badSectors pa n))
      if host then u.hostHolds pa n else u
  | .write pa bs => if !inDev pa bs.length then s else if host then s.hostWrite pa bs else s.physWrite pa bs {}
  | .readLine pa =>
    if !inDev pa 128 || pa % 128 != 0 then s
    else
      let t := s.touch pa 128 {}
      (t.emit (.readData (t.physRead pa 128) (t.badSectors pa 128))).emit (.oldValue (t.sideRead (pa / 128)) (t.sidePoison (pa / 128)))
  | .writeLine pa d sb =>
    if !inDev pa 128 || pa % 128 != 0 then s
    else ((s.physWrite pa (toLe 128 d.toNat) {}).sideWrite (pa / 128) sb).sideMark (pa / 128) false
  | .atomic pa op t d c =>
    let n := t.width / 8
    if !inDev pa n || pa % n != 0 then s
    else
      let (v, bad, u) := s.atomAt (.phys pa) op t (d.toNat % 2 ^ t.width) (c.toNat % 2 ^ t.width) {}
      u.emit (.oldValue (BitVec.ofNat 64 v) bad)

/-- CXL.mem knows reads and writes only; atomics and side bands do not come from the host (R473). -/
def hostForm : MemReq → Bool
  | .read _ _ | .write _ _ => true
  | _ => false

def execHostMemRequest (q : MemReq) (s : State) : Host.Outcome State Fault Refusal :=
  .next (if hostForm q then s.serveRequest q true else s)

def execUalRemoteRequest (q : MemReq) (s : State) : Host.Outcome State Fault Refusal := .next (s.serveRequest q false)

/-! ### Ports -/

def State.setPort (s : State) (p : Nat) (up : Bool) : State :=
  let (_, retx, llr) := mgetD s.regs.ports p (false, 0, 0)
  { s with regs := { s.regs with ports := mset s.regs.ports p (up, retx, llr) }, linkReqs := if up then s.linkReqs.filter LinkReq.failed else s.linkReqs }

def execUalPortDown (port : Fin 18) (s : State) : Host.Outcome State Fault Refusal := .next (s.setPort port.val false)

def execUalPortUp (port : Fin 18) (s : State) : Host.Outcome State Fault Refusal := .next (s.setPort port.val true)

def execLinkLevelRetry (port : Fin 18) (s : State) : Host.Outcome State Fault Refusal :=
  let (up, retx, llr) := mgetD s.regs.ports port.val (false, 0, 0)
  .next { s with regs := { s.regs with ports := mset s.regs.ports port.val (up, retx, llr + 1) } }

/-- The host takes a line of its own memory, and may have written it (R22). -/
def State.snoop (s : State) (line : Nat) (data : Option (BitVec 1024)) : State :=
  if !isHostPa (128 * line) then s
  else
    let m := { s.mem with present := mdel s.mem.present line }
    match data with
    | none => { s with mem := m }
    | some d => { s with mem := { m with
        cells := Memory.write m.cells (128 * line) (toLe 128 d.toNat)
        poison := m.poison.filter (fun e => e.1 / 4 != line) } }

def execCxlCacheSnoop (line : Nat) (data : Option (BitVec 1024)) (s : State) : Host.Outcome State Fault Refusal :=
  .next (s.snoop line data)

/-! ### BASE_DIE_REQUEST (R162, R163, R166 to R168) -/

/-- A line leaves the L2 by a request to its base die (R166). -/
def State.evictLine (s : State) (line : Nat) : State :=
  let q := s.capture (128 * line) true
  let t := s.codeLine line
  { t with mem := { t.mem with bdq := t.mem.bdq ++ [q] } }

/-- The oldest request is complete (R170). -/
def State.finishRequest (s : State) : State :=
  match s.mem.bdq with
  | [] => s
  | q :: r => ({ s with mem := { s.mem with bdq := r } } : State).releaseGen q

def State.baseDie (s : State) (e : BdEvent) : State :=
  match e with
  | .acceptRead sec =>
    if s.mem.inL2 sec || !isDev (32 * sec) then s
    else
      let q := s.capture (32 * sec) false
      ({ s with mem := { s.mem with bdq := s.mem.bdq ++ [q] } } : State).touchSector sec {} [sec / 4]
  | .acceptWrite sec => if mhas s.mem.present (sec / 4) && isDev (32 * sec) then s.evictLine (sec / 4) else s
  | .finish => s.finishRequest

def execBaseDieRequest (e : BdEvent) (s : State) : Host.Outcome State Fault Refusal := .next (s.baseDie e)

/-! ### Compression commands (R169 to R173) -/

def State.endCx (s : State) (errc : Nat) : State := { s with regs := { s.regs with cxCmd := none, cxErrc := errc } }

/-- A slot takes a new table: the current generation becomes the retained one. -/
def CodeSlot.install (c : CodeSlot) (t : List Nat) : CodeSlot :=
  { gen := some (c.gen.elim 0 (fun g => (g + 1) % 16)), table := t, oldGen := c.gen, oldTable := if c.gen.isSome then c.table else [] }

def State.setSlot (s : State) (n : Nat) (c : CodeSlot) : State := { s with mem := { s.mem with slots := mset s.mem.slots n c } }

def State.tableSlot (s : State) (n : Nat) : CodeSlot := mgetD s.mem.slots n {}

/-- Validate the image; install it, or let it wait for the retained generation to drain. No ERRC of R172 names an image that is
poisoned or damaged: it ends with ERRC 3, the model's choice (log entry 91). -/
def State.loadSlot (s : State) (slot : Nat) : State :=
  let pa := s.regs.cxaddr0.toNat
  let c := s.tableSlot slot
  if c.pending.isSome then s
  else if pa % 128 != 0 || !inDev pa 128 then s.endCx 2
  else
    let t := s.touch pa 128 {}
    let img := tableOfImage (t.physRead pa 128)
    if t.physPoison pa 128 || !tableValid img then t.endCx 3
    else if c.oldGen.isSome then t.setSlot slot { c with pending := some img }
    else (t.setSlot slot (c.install img)).endCx 0

def execCxcmdLoadslot (s : State) : Host.Outcome State Fault Refusal :=
  .next (match s.regs.cxCmd with
    | some (1, slot, _, _) => s.loadSlot slot
    | _ => s)

/-- The retained generation of a slot has no request left: it is dropped, and a waiting table becomes current. -/
def State.drainSlot (s : State) (n : Nat) : State :=
  let c := s.tableSlot n
  if (c.oldGen.isNone && c.pending.isNone) || c.oldGen.any (holdsGen s.mem.bdq n) then s
  else
    let c1 := { c with oldGen := none, oldTable := [] }
    match c.pending with
    | none => s.setSlot n c1
    | some t => (s.setSlot n { c1.install t with pending := none }).endCx 0

def execSlotGenerationInstall (slot : Fin 64) (s : State) : Host.Outcome State Fault Refusal := .next (s.drainSlot slot.val)

/-- A stored sector of a frame as RECODE decodes it: its bytes, or that it is poisoned or damaged (R168, R173); a sector marked
before is not logged again (R461). The L2's copy of a sector stays as it is, and so do the frame's lines in the L2 (`keep`); of a
sector stored raw that the L2 holds, the stored bytes are those of its copy. -/
def State.recodeSector (s : State) (pa : Nat) : State × Bool × List Byte :=
  let held := s.mem.inL2 (pa / 32)
  match s.baseRead pa with
  | .ok none => (s, !held && mhas s.mem.poison (pa / 32), s.physRead pa 32)
  | .ok (some bs) => (s, false, bs)
  | .error none => (s, true, s.physRead pa 32)
  | .error (some d) =>
    let t := if held then s else s.poisonSector (pa / 32)
    (if mhas s.mem.poison (pa / 32) then t
     else t.postErr (errCluster {} pa false) 3 d.sub (BitVec.ofNat 64 pa) {} 0 (linesOf (pa / 4096 * 4096) 4096), true, s.physRead pa 32)

def State.isDamaged (s : State) (pa : Nat) : Bool := match s.baseRead pa with | .error (some _) => true | _ => false

/-- Write one frame anew (R173). -/
def State.recodeFrame (s : State) (n slot fmt : Nat) : State :=
  let bad := (List.range 128).any (fun i => s.isDamaged (4096 * n + 32 * i))
  let c := s.tableSlot slot
  let gen := c.gen.getD 0
  let new : Frame := if fmt = 0 then {} else { fmt := fmt, slot := slot, gen := gen, draw := s.fresh }
  let q := s.capture (4096 * n) true
  let u := s.holding (if q.fmt = 0 then [] else [q]) (fun s0 =>
    let (t, f) := (List.range 128).foldl (fun (acc : State × Frame) i =>
      let (u, psn, bs) := acc.1.recodeSector (4096 * n + 32 * i)
      let v := if psn || u.mem.inL2 (128 * n + i) then u else u.rawWrite (4096 * n + 32 * i) bs
      (v, acc.2.setEntry i (storeSector fmt (some c.table) bs psn))) (s0, new)
    t.setFrame n f)
  { u with fresh := u.fresh + 1, regs := { u.regs with cxPos := u.regs.cxPos + 1, cxDone := u.regs.cxDone + 1, cxErrc := if bad then 4 else u.regs.cxErrc } }

/-- One frame of a RECODE; its first also makes the checks. Where several ERRC of R172 apply the lowest is reported, and CXADDR0 is
read anew at each frame: both are the model's choice (log entry 91). -/
def State.recode (s : State) (slot fmt cntm1 : Nat) : State :=
  let pa := s.regs.cxaddr0.toNat
  let i := s.regs.cxPos
  if i = 0 && decide (18 < fmt) then s.endCx 1
  else if i = 0 && (pa % 4096 != 0 || !inDev pa (4096 * (cntm1 + 1))) then s.endCx 2
  else if i = 0 && fmt != 0 && (s.tableSlot slot).gen.isNone then s.endCx 3
  else
    let t := s.recodeFrame (pa / 4096 + i) slot fmt
    if i = cntm1 then t.endCx t.regs.cxErrc else t

def execCxcmdRecode (s : State) : Host.Outcome State Fault Refusal :=
  .next (match s.regs.cxCmd with
    | some (2, slot, fmt, n) => s.recode slot fmt n
    | _ => s)

/-- The descriptor and the entries of a frame as 576 bytes (R160, R161, R173). -/
def frameBytes (f : Frame) : List Byte :=
  toLe 8 (f.fmt * 2 ^ 59 + f.slot * 2 ^ 53 + f.gen * 2 ^ 49) ++ List.replicate 56 0 ++
  (List.range 128).flatMap (fun i =>
    let e := f.entry i
    toLe 4 ((if e.raw then 2 ^ 31 else 0) + (if e.psn then 2 ^ 30 else 0) + e.ecl * 2 ^ 12 + f.offset i))

/-- One frame of a DUMP, with CXADDR0 and CXADDR1 as they stand at it (the model's choice, log entry 91); of a frame with META damage
the descriptor and entries as they were, and no error (log entry 109). -/
def State.dumpFrame (s : State) (cntm1 : Nat) : State :=
  let pa := s.regs.cxaddr0.toNat
  let dst := s.regs.cxaddr1.toNat
  let i := s.regs.cxPos
  if i = 0 && (pa % 4096 != 0 || !inDev pa (4096 * (cntm1 + 1)) || dst % 64 != 0 || !inDev dst (576 * (cntm1 + 1))) then s.endCx 2
  else
    let t := s.physWrite (dst + 576 * i) (frameBytes (mgetD s.mem.frames (pa / 4096 + i) {})) {}
    let u := { t with regs := { t.regs with cxPos := i + 1, cxDone := i + 1 } }
    if i = cntm1 then u.endCx 0 else u

def execCxcmdDump (s : State) : Host.Outcome State Fault Refusal :=
  .next (match s.regs.cxCmd with
    | some (3, _, _, n) => s.dumpFrame n
    | _ => s)

/-! ### STRCTL and TLBIREQ -/

def execStrctlGo (stream : Nat) (s : State) : Host.Outcome State Fault Refusal := .next (s.streamGo stream)

def execStrctlHalt (stream : Nat) (s : State) : Host.Outcome State Fault Refusal := .next (s.streamHalt stream)

def execTlbireqPage (s : State) : Host.Outcome State Fault Refusal := .next (s.hostInval 0)

def execTlbireqContext (s : State) : Host.Outcome State Fault Refusal := .next (s.hostInval 1)

def execTlbireqAll (s : State) : Host.Outcome State Fault Refusal := .next (s.hostInval 2)

/-! ### CTXCMD (R519): an event starts the command with the latched context, or carries the running one on -/

def ctxFree (s : State) : State := { s with regs := { s.regs with ctxBusy := none } }

/-- Every record is complete and every stream stands at a boundary. -/
def State.ctxAtRest (s : State) (ctx : Nat) : Bool :=
  (mvals s.wgs).all (fun w => w.ctx != ctx || w.st == .saved || w.st == .retired) &&
  (s.streamsOf ctx).all (fun j => (s.ctl (streamBase + j)).boundary)

def execCtxcmdSuspend (s : State) : Host.Outcome State Fault Refusal :=
  .next (match s.regs.ctxBusy with
    | none => s.startCtxcmd 1
    | some (1, ctx) => if s.ctxAtRest ctx then ctxFree s else s
    | some _ => s)

/-- Held grids and pre-empted workgroups may be placed again, and the streams go on. -/
def State.resumeCtx (s : State) (ctx : Nat) : State :=
  let s1 := (s.streamsOf ctx).foldl (fun t j =>
    (t.modStream j (fun x => { x with suspended := false })).modCtl (streamBase + j) (fun c => { c with boundary := false })) s
  { s1 with
    grids := s1.grids.map (fun e => if e.2.ctx == ctx then (e.1, { e.2 with held := false }) else e)
    regs := { s1.regs with suspended := s1.regs.suspended.filter (fun c => c != ctx), ctxBusy := none } }

def execCtxcmdResume (s : State) : Host.Outcome State Fault Refusal :=
  .next (match s.regs.ctxBusy with
    | none => s.startCtxcmd 2
    | some (2, ctx) => s.resumeCtx ctx
    | some _ => s)

/-- An operation that goes with the context: a queued LAUNCH, saved GEO work. -/
def endsWith (ctx : Nat) (o : EngOp) : Bool := o.ctx == ctx && (isLaunch o.instr || (isGeo o.instr && isSaved o.who))

/-- The slots that a context has loaded are free: other contexts' commands stay queued, and the counts stay (R479, R480). -/
def freeSlots (ctx : Nat) (l : SMap CSlot) : SMap CSlot := l.map (fun e => if e.2.ctx == ctx then (e.1, e.2.freed) else e)

/-- END discards the saved state, the grids and the streams of a context, and invalidates its translations. -/
def State.discardCtx (s : State) (ctx : Nat) : State :=
  let mine := (mvals s.wgs).filter (fun w => w.ctx == ctx)
  let ids := mine.map Wg.id
  let js := (s.streams.filter (fun e => e.2.ctx == ctx)).map Prod.fst
  let s1 := js.foldl (fun t j => (t.stopThread (streamBase + j)).modStream j (fun x =>
    { x with state := 0, suspended := false, haltReq := false })) s
  let gone := (s1.warps.filter (fun e => !isStream e.1 && e.2.ctx == ctx)).map Prod.fst
  let s2 : State := { s1 with
    warps := s1.warps.map (fun (e : Nat × Warp) => if gone.contains e.1 then (e.1, { wg := e.2.wg, num := e.2.num, ctx := ctx }) else e)
    ctls := s1.ctls.filter (fun e => !gone.contains e.1)
    mops := s1.mops.filter (fun e => !gone.contains e.2.who)
    treqs := s1.treqs.filter (fun e => !(gone.contains e.2.who && !asks e.2))
    eops := s1.eops.filter (fun e => !endsWith ctx e.2)
    wgs := s1.wgs.map (fun (e : Nat × Wg) => if e.2.ctx == ctx then (e.1, { e.2 with st := .retired, bins := [] }) else e)
    grids := s1.grids.filter (fun e => e.2.ctx != ctx)
    cores := s1.cores.map (fun (e : Nat × Core) => (e.1, { e.2 with bins := e.2.bins.filter (fun b => !ids.contains b.wg) })) }
  let s3 := (s2.startInval 1 ctx 0 0 none false).2
  { s3.sweep with regs := { s3.sweep.regs with ctxBusy := some (4, ctx) } }

/-- END is over once the context's engine operations and its invalidation are; its slots are then free. -/
def State.endedCtx (s : State) (ctx : Nat) : State :=
  if (mvals s.eops).any (fun o => o.ctx == ctx) || (mvals s.mops).any (fun o => o.ctx == ctx) ||
      s.invals.any (fun x => x.ctx == ctx && x.kind == 1 && x.who.isNone && !x.host) then s
  else
    let s1 := s.sweep
    { s1 with
      cslots := freeSlots ctx s1.cslots
      ctxs := mdel s1.ctxs ctx
      regs := { s1.regs with suspended := s1.regs.suspended.filter (fun c => c != ctx), ctxBusy := none } }

def execCtxcmdEnd (s : State) : Host.Outcome State Fault Refusal :=
  .next (match s.regs.ctxBusy with
    | none => s.startCtxcmd 3
    | some (3, ctx) => if s.ctxAtRest ctx then s.discardCtx ctx else s
    | some (4, ctx) => s.endedCtx ctx
    | some _ => s)

end Sys2Proof.Machine
end

