-- ==== Sys2Proof/Machine/Boot.lean ====
section
/-! DEFINITION. Power, resets and secure bring-up (21 R511 to R518): BOOTCTL, the steps of R513, the image check, attestation and
the recorder dump, and writes of the host to registers. -/

namespace Sys2Proof.Machine

def State.setRegs (s : State) (r : Regs) : State := { s with regs := r }

/-! ### GO and the steps of bring-up (R513) -/

/-- GO: in step 1 of a cold reset it is kept until the step ends; in STATE 3 or step 2 it starts step 3. During the write-back of a
warm reset it is lost (log entry 81). -/
def State.bootGo (s : State) : State :=
  let r := s.regs
  if r.bootState = 1 ∨ r.bootState = 2 ∨ r.bootStep = 0 ∨ (r.warm && r.bootStep == 1) then s
  else if r.bootStep = 1 then s.setRegs { r with bootGo := true }
  else s.setRegs { r with bootState := 1, bootErrc := 0, bootStep := 3, image := [] }

def execBootctlGo (s : State) : Host.Outcome State Fault Refusal := .next s.bootGo

def State.bootFail (s : State) (errc : Nat) : State :=
  s.setRegs { s.regs with bootState := 3, bootErrc := errc, bootStep := 2, bootGo := false }

/-- The end of step 1. A warm reset goes on by itself; a cold one waits for GO. -/
def State.selftestDone (s : State) (ok : Bool) : State :=
  let r := s.regs
  if r.bootStep != 1 || r.bootState != 0 then s
  else if !ok then s.bootFail 6
  else if r.warm || r.bootGo then s.setRegs { r with bootState := 1, bootStep := 3, bootGo := false }
  else s.setRegs { r with bootStep := 2 }

def execBootSelftestDone (ok : Bool) (s : State) : Host.Outcome State Fault Refusal := .next (s.selftestDone ok)

/-! ### The image (R514, R515) -/

def zeros (bs : List Byte) : Bool := bs.all (fun b => b == 0)

def imgBodyLen (h : List Byte) : Nat := sub h 0x008 8
def imgSigLen (h : List Byte) : Nat := sub h 0x720 2

/-- Check 1: MAGIC, BODYLEN, SIGLEN and every zero field. -/
def imgForm (h : List Byte) : Bool :=
  let b := imgBodyLen h
  let n := imgSigLen h
  sub h 0 4 == 0x4C554346 && decide (4096 ≤ b) && decide (b ≤ 2 ^ 26) && b % 4096 == 0 &&
  decide (1 ≤ n) && decide (n ≤ 1462) && zeros ((h.drop 0x711).take 15) && zeros ((h.drop (0x722 + n)).take (1462 - n)) &&
  zeros ((h.drop 0xCD8).take 808)

/-- Checks 2 to 4 on a whole image whose form is right. -/
def imgCheck (bs : List Byte) : Nat :=
  let key := (bs.drop 0x010).take 1793
  let sig := (bs.drop 0x722).take (imgSigLen bs)
  if Config.shake256 key 32 != Config.fusedDigest then 2
  else if !Config.falconVerify key sig (bs.take 0x720 ++ bs.drop 0x1000) then 3
  else if sub bs 4 4 < Config.fusedSvn then 4
  else 0

/-- Read from host memory; none where the read fails. -/
def State.hostRead (s : State) (pa n : Nat) : Option (List Byte) :=
  if !isHostPa pa || !isHostPa (pa + n - 1) then none
  else
    let t := s.touch pa n {}
    if t.physPoison pa n then none else some (t.physRead pa n)

/-- The image to check: the retained copy at a warm reset, else the host's; or the code of what is wrong with it. -/
def State.fetchImage (s : State) : Except Nat (List Byte) :=
  let r := s.regs
  if r.warm && !r.image.isEmpty then .ok r.image
  else
    let a := r.imgaddr.toNat
    if a % 4096 != 0 then .error 5
    else match s.hostRead a 4096 with
      | none => .error 5
      | some h =>
        if !imgForm h then .error 1
        else match s.hostRead a (4096 + imgBodyLen h) with
          | none => .error 5
          | some bs => .ok bs

def State.verifyImage (s : State) : State :=
  let r := s.regs
  if r.bootStep != 3 || r.bootState != 1 then s
  else match s.fetchImage with
    | .error e => s.bootFail e
    | .ok bs =>
      if !imgForm bs then s.bootFail 1
      else
        let e := imgCheck bs
        if e != 0 then s.bootFail e
        else s.setRegs { r with image := bs, measurement := Config.shake256 bs 64, bootErrc := 0, bootStep := if r.warm then 5 else 4 }

def execImageVerified (s : State) : Host.Outcome State Fault Refusal := .next s.verifyImage

/-- Step 4: device memory, side bands and the L2 are zeroed and every frame is uncoded; other memory is not the device's. -/
def Mem.zeroDevice (m : Mem) : Mem :=
  { cells := m.cells.filter (fun e => decide (devTop ≤ e.1))
    side := m.side.filter (fun e => decide (devTop ≤ 128 * e.1))
    poison := m.poison.filter (fun e => decide (devTop ≤ 32 * e.1))
    sbPoison := m.sbPoison.filter (fun e => decide (devTop ≤ 128 * e.1)) }

def execBootZeroingDone (s : State) : Host.Outcome State Fault Refusal :=
  .next (if s.regs.bootStep = 4 then { s with mem := s.mem.zeroDevice, regs := { s.regs with bootStep := 5 } } else s)

def execBootReady (s : State) : Host.Outcome State Fault Refusal :=
  .next (if s.regs.bootStep = 5 then s.setRegs { s.regs with bootState := 2, bootStep := 6 } else s)

/-! ### Resets (R512) -/

/-- The model's own inputs, the state of the host link, what was sent out and the draws made are no part of the module: a reset
leaves them. -/
def State.keepInputs (s t : State) : State :=
  { t with agenda := s.agenda, turns := s.turns, delays := s.delays, upsets := s.upsets, fwTraps := s.fwTraps
           regs := { t.regs with hostLost := s.regs.hostLost }
           fresh := s.fresh, nextId := s.nextId, outbox := s.outbox }

/-- Every register takes its reset value; slots and frames too. Device memory is zeroed in step 4. -/
def State.coldReset (s : State) : State :=
  s.keepInputs { State.reset with mem := { cells := s.mem.cells, side := s.mem.side, poison := s.mem.poison, sbPoison := s.mem.sbPoison } }

def execColdReset (s : State) : Host.Outcome State Fault Refusal := .next s.coldReset

/-- Contexts with anything in the module. -/
def State.liveCtxs (s : State) : List Nat :=
  ((mvals s.wgs).map Wg.ctx ++ (mvals s.grids).map Grid.ctx ++ ((mvals s.streams).filter streamActive).map Stream.ctx).eraseDups

/-- WARM, in whatever STATE: every context is ended first, as CTXCMD END would. -/
def State.bootWarm (s : State) : State :=
  let t := s.liveCtxs.foldl (fun u c => u.startSuspend c) s
  t.setRegs { t.regs with bootStep := 0 }

def execBootctlWarm (s : State) : Host.Outcome State Fault Refusal := .next s.bootWarm

/-- A line that could not be written back is poisoned. -/
def State.loseLine (s : State) (line : Nat) : State :=
  (s.physMark (sectorsOf (128 * line) 128)).sideMark line true

/-- What a warm reset leaves: the image, device memory with its metadata and poison, MODID, the recorders and RECCTL. -/
def State.warmReset (s : State) : State :=
  let r := s.regs
  let r0 : Regs := {
    warms := if r.warms = 0xFFFF#16 then r.warms else r.warms + 1, warm := true
    image := r.image, measurement := r.measurement, modid := r.modid, trip := r.trip }
  let core0 := fun (c : Core) => ({ recorder := c.recorder, recidx := c.recidx } : Core)
  let cl0 := fun (k : Cluster) => ({ recctl := k.recctl } : Cluster)
  s.keepInputs { State.reset with
    clock := s.clock, regs := r0
    cores := s.cores.map (fun e => (e.1, core0 e.2)), clusters := s.clusters.map (fun e => (e.1, cl0 e.2))
    mem := { s.mem with present := [], slots := [], bdq := [] } }

def State.warmDone (s : State) (failed : List Nat) : State :=
  let rest := s.liveCtxs.all s.ctxAtRest && (mvals s.eops).all (fun o => endsWith o.ctx o)
  if s.regs.bootStep != 0 || !rest then s
  else
    let lost := (s.mem.present.map Prod.fst).filter (fun l => failed.contains l)
    let good := (s.mem.present.map Prod.fst).filter (fun l => !failed.contains l && isDev (128 * l))
    (good.foldl (fun t l => t.evictLine l) (lost.foldl (fun t l => t.loseLine l) s)).warmReset

def execWarmWritebackDone (failed : List Nat) (s : State) : Host.Outcome State Fault Refusal := .next (s.warmDone failed)

/-! ### Power and temperature (R511) -/

def State.powerTick (s : State) (avg : BitVec 12) (junction : Nat) : State :=
  let r := s.regs
  let limit := r.pwrcap.toNat
  let down := decide (limit < avg.toNat) || decide (100 < junction)
  let up := decide (100 * avg.toNat < 95 * limit) && decide (junction ≤ 95)
  let clk := if down then max 1500 (r.cclk - 100) else if up then min 3000 (r.cclk + 100) else r.cclk
  s.setRegs { r with avg := avg, cclk := clk }

def execPowerWindow (avg : BitVec 12) (junction : Nat) (s : State) : Host.Outcome State Fault Refusal := .next (s.powerTick avg junction)

def execThermalTrip (s : State) : Host.Outcome State Fault Refusal :=
  .next (if s.regs.cclk = 1500 then (s.setRegs { s.regs with trip := true }).emit .thermtrip else s)

/-! ### Attestation (R516) -/

def RecEntry.bytes (e : RecEntry) : List Byte :=
  toLe 16 (e.time % 2 ^ 40 * 2 ^ 88 + e.code * 2 ^ 80 + e.warp * 2 ^ 74 + e.data.toNat)

def State.attDone (s : State) (err : Bool) : State := s.setRegs { s.regs with attBusy := none, attErr := err }

def signed (bs : List Byte) : List Byte := toLe 2 (Config.falconSign bs).length ++ Config.falconSign bs

/-- The command ends with ERR because the host link is lost (R22); the loss is logged, and nothing is written. -/
def State.attLost (s : State) (a n : Nat) : State := (s.linkError a n (BitVec.ofNat 64 a) {}).attDone true

def State.quote (s : State) : State :=
  let a := s.regs.attAddr.toNat * 4096
  match s.hostRead a 32 with
  | none => if isHostPa a then s.attLost a 32 else s.attDone true
  | some nonce =>
    let body := s.regs.measurement ++ nonce ++ toLe 8 Config.feat0.toNat ++ toLe 8 Config.feat1.toNat ++ toLe 8 s.implw.toNat ++
      toLe 8 s.regs.modid.toNat ++ toLe 8 s.rBootstat
    let out := body ++ signed body ++ Config.certificate
    if s.hostFails (s.normPa (a + 0x40)) out.length then s.attLost (a + 0x40) out.length
    else (s.physWrite (a + 0x40) out {}).attDone false

def execAttcmdQuote (s : State) : Host.Outcome State Fault Refusal := .next (if s.regs.attBusy = some 1 then s.quote else s)

/-- The rings, captured together: RECIDX of every core, the measurement, the entries. -/
def State.dumpRings (s : State) (a : Nat) : State :=
  let heads := (List.range Config.cores).flatMap (fun i => toLe 8 (s.core i).recidx)
  let s1 := (s.physWrite a heads {}).physWrite (a + 0x800) s.regs.measurement {}
  (List.range Config.cores).foldl (fun t i =>
    t.physWrite (a + 0x1000 + 0x10000 * i)
      ((List.range 4096).flatMap (fun k => (mgetD (s.core i).recorder k ⟨0, 0, 0, 0⟩).bytes)) {}) s1

def State.dumpRecorder (s : State) : State :=
  let a := s.regs.attAddr.toNat * 4096
  if !isHostPa a then s.attDone true
  else if s.hostFails (s.normPa a) 0x1002000 then s.attLost a 0x1002000
  else
    let t := s.dumpRings a
    (t.physWrite (a + 0x1001000) (signed (t.physRead a 0x1001000)) {}).attDone false

def execAttcmdDump (s : State) : Host.Outcome State Fault Refusal := .next (if s.regs.attBusy = some 2 then s.dumpRecorder else s)

/-! ### REGISTER_WRITE -/

/-- Offsets the host reaches before STATE 2 (R513). -/
def earlyOffset (off : Nat) : Bool := [0x000, 0x008, 0x010, 0x088].contains (off / 8 * 8)

/-- What a host read through the BAR returns; none is an unsupported request (R513, R517). -/
def State.hostRegRead (s : State) (off n : Nat) : Option Nat :=
  if s.regs.bootState != 2 && !earlyOffset off then some 0 else s.mmioRead off n

/-- A host write through the BAR; what the space does not hold is an unsupported request (R517). -/
def execRegisterWrite (off n : Nat) (v : W64) (s : State) : Host.Outcome State Fault Refusal :=
  .next (if s.regs.bootState != 2 && !earlyOffset off then s else (s.mmioWrite off n v.toNat).getD s)

end Sys2Proof.Machine
end

