-- ==== Sys2Proof/Machine/CrossLane.lean ====
section
/-! DEFINITION. Cross-lane words (11 R312 to R317). -/

namespace Sys2Proof.Machine

/-- A read of another lane's register (R312). -/
def Issue.crossVal (is : Issue) (a : VOp) (L : Nat) : Nat :=
  is.num { op := a, src := true, cross := true } L

def vshflBody (m : ShflMode) (x : V3) (is : Issue) (s : State) : Act :=
  .next (s.putVec is (useD x.d) (is.over (fun L =>
    is.crossVal x.a (shflSrc m (is.num (useS x.b) L % 128) L is.mask))))

def execVshfl (m : ShflMode) (x : V3) (s : State) : Host.Outcome State Fault Refusal :=
  runWord (.vshfl m x) (vshflBody m x) s

def vreadlBody (sd : Fin 96) (a : VOp) (lane : Fin 128) (is : Issue) (s : State) : Act :=
  .next (s.writeS is sd.val (BitVec.ofNat 64 (is.crossVal a lane.val)))

def execVreadl (g : Guard) (sd : Fin 96) (a : VOp) (lane : Fin 128) (s : State) : Host.Outcome State Fault Refusal :=
  runWord (.vreadl g sd a lane) (vreadlBody sd a lane) s

def vbcastBody (t : BTy) (d : VOp) (o : SOp) (is : Issue) (s : State) : Act :=
  .next (s.putVec is (useD d t.is64) (is.over (fun _ => (is.sv s o).toNat)))

def execVbcast (t : BTy) (g : Guard) (d : VOp) (o : SOp) (s : State) : Host.Outcome State Fault Refusal :=
  runWord (.vbcast t g d o) (vbcastBody t d o) s

def vballotBody (sd : Fin 96) (p : Fin 8) (is : Issue) (s : State) : Act :=
  let v := is.mask &&& is.w.pred p.val
  .next ((s.writeS is sd.val (v.extractLsb' 0 64)).writeS is (sd.val + 1) (v.extractLsb' 64 64))

def execVballot (g : Guard) (sd : Fin 96) (p : Fin 8) (s : State) : Host.Outcome State Fault Refusal :=
  runWord (.vballot g sd p) (vballotBody sd p) s

def vidBody (lane : Bool) (d : VOp) (is : Issue) (s : State) : Act :=
  .next (s.putVec is (useD d) (is.over (fun L => if lane then L else is.w.tidOf L)))

def execVid (lane : Bool) (g : Guard) (d : VOp) (s : State) : Host.Outcome State Fault Refusal :=
  runWord (.vid lane g d) (vidBody lane d) s

/-! ### Reductions and scans (R315, R316) -/

def RedTy.fmt : RedTy → Fmt
  | .f64 => fmtF64
  | _ => fmtF32

def RedTy.signed : RedTy → Bool
  | .i32 | .i64 => true
  | _ => false

def RedTy.width (t : RedTy) : Nat := if t.is64 then 64 else 32

def RedTy.largest (t : RedTy) : Nat :=
  if t.isFloat then ((RedTy.fmt t).infCode false).getD 0
  else if RedTy.signed t then 2 ^ (RedTy.width t - 1) - 1 else 2 ^ RedTy.width t - 1

def RedTy.smallest (t : RedTy) : Nat :=
  if t.isFloat then ((RedTy.fmt t).infCode true).getD 0
  else if RedTy.signed t then 2 ^ (RedTy.width t - 1) else 0

/-- The identity of a combine (R316). -/
def redIdentity (o : RedOpr) (t : RedTy) : Nat :=
  match o with
  | .add => if t.isFloat then (RedTy.fmt t).zeroCode true else 0
  | .or | .xor => 0
  | .and => 2 ^ RedTy.width t - 1
  | .min => RedTy.largest t
  | .max => RedTy.smallest t

def combine (o : RedOpr) (t : RedTy) (a b : Nat) : Rounded :=
  let w := RedTy.width t
  let iv := ival (RedTy.signed t) w
  match o with
  | .add => if t.isFloat then (RedTy.fmt t).fadd .rne {} a b else ((a + b) % 2 ^ w, 0)
  | .min => if t.isFloat then (RedTy.fmt t).fmm false a b else (if iv b < iv a then b else a, 0)
  | .max => if t.isFloat then (RedTy.fmt t).fmm true a b else (if iv a < iv b then b else a, 0)
  | .and => (a &&& b, 0)
  | .or => (a ||| b, 0)
  | .xor => (a ^^^ b, 0)

/-- Combine a list in order, with the flags gathered. -/
def combineAll (o : RedOpr) (t : RedTy) (v : Nat) (vs : List Nat) : Rounded :=
  vs.foldl (fun acc x => let r := combine o t acc.1 x; (r.1, acc.2 ||| r.2)) (v, 0)

/-- The segments of the issuing lanes, in ascending lane order. -/
def segments (heads : Nat → Bool) : List Nat → List (List Nat)
  | [] => []
  | L :: Ls =>
    match segments heads Ls with
    | [] => [[L]]
    | g :: gs => if heads (g.headD 0) then [L] :: g :: gs else (L :: g) :: gs

/-- pSEGP marks a head; 7 marks none (the lowest lane always starts a segment). -/
def Issue.segmentsOf (is : Issue) (segp : Fin 8) : List (List Nat) :=
  segments (fun L => segp != 7 && (is.w.pred segp.val).getLsbD L) (lanesOf is.mask)

/-- tree_sum over all lanes with -0 outside the members (R201, R316). -/
def laneTree (f : Fmt) (vals : Nat → Nat) (ms : List Nat) : Rounded :=
  treeSum f ((List.range 128).map (fun i => if ms.contains i then vals i else f.zeroCode true))

/-- One segment reduced (R316). MIN and MAX over a single issuing lane return its code as it is (log entry 96). -/
def vredSeg (o : RedOpr) (t : RedTy) (vals : Nat → Nat) (ms : List Nat) : Rounded :=
  if t.isFloat && o == .add then laneTree (RedTy.fmt t) vals ms
  else match ms with
    | [] => (redIdentity o t, 0)
    | m :: r => combineAll o t (vals m) (r.map vals)

def vredBody (o : RedOpr) (t : RedTy) (segp : Fin 8) (x : V2) (is : Issue) (s : State) : Act :=
  let vals := fun L => is.num (useS x.a t.is64) L
  deliver s is (useD x.d t.is64) ((is.segmentsOf segp).flatMap (fun ms =>
    let r := vredSeg o t vals ms
    ms.map (fun L => (L, r))))

def execVred (o : RedOpr) (t : RedTy) (segp : Fin 8) (x : V2) (s : State) : Host.Outcome State Fault Refusal :=
  runWord (.vred o t segp x) (vredBody o t segp x) s

/-- The running values of a segment from an accumulated one: each lane receives the value before or after its own. -/
def scanFrom (o : RedOpr) (t : RedTy) (exc : Bool) (vals : Nat → Nat) : Rounded → List Nat → SMap Rounded
  | _, [] => []
  | acc, L :: Ls =>
    let r := combine o t acc.1 (vals L)
    let nxt := (r.1, acc.2 ||| r.2)
    (L, if exc then acc else nxt) :: scanFrom o t exc vals nxt Ls

def vscanBody (o : RedOpr) (t : RedTy) (segp : Fin 8) (exc : Bool) (x : V2) (is : Issue) (s : State) : Act :=
  let vals := fun L => is.num (useS x.a t.is64) L
  deliver s is (useD x.d t.is64) ((is.segmentsOf segp).flatMap (fun ms =>
    scanFrom o t exc vals (redIdentity o t, 0) ms))

def execVscan (o : RedOpr) (t : RedTy) (segp : Fin 8) (exc : Bool) (x : V2) (s : State) : Host.Outcome State Fault Refusal :=
  runWord (.vscan o t segp exc x) (vscanBody o t segp exc x) s

/-! ### VMERGE (R317) -/

def mergeKey (t : MergeTy) (v : Nat) : Int :=
  match t with
  | .n32 => v
  | .i32 => sg 32 v
  | .f32 => ((if 2 ^ 31 ≤ v then v ^^^ 0xFFFFFFFF else v ^^^ 0x80000000 : Nat) : Int)

/-- Merge two lists of key, value and origin; on a tie a's element comes first. -/
def mergeLists : Nat → List (Int × Nat × Nat) → List (Int × Nat × Nat) → List (Int × Nat × Nat)
  | 0, _, _ => []
  | _ + 1, [], bs => bs
  | _ + 1, as, [] => as
  | n + 1, a :: as, b :: bs =>
    if b.1 < a.1 then b :: mergeLists n (a :: as) bs else a :: mergeLists n as (b :: bs)

def partMask (is : Issue) (_ : State) : Option (Cause × Info) :=
  if is.mask = fullMask then none else some (.partmask, .same 0)

def vmergeBody (t : MergeTy) (dh : VOp) (org : Bool) (x : V3) (is : Issue) (s : State) : Act :=
  let side := fun (u : VOp) (o : Nat) => (List.range 128).map (fun L =>
    let v := is.num (useS u) L
    (mergeKey t v, v, o + L))
  let out := mergeLists 256 (side x.a 0) (side x.b 128)
  let res := fun (l : List (Int × Nat × Nat)) => (l.map (fun e => if org then e.2.2 else e.2.1)).zipIdx.map (fun e => (e.2, e.1))
  .next ((s.putVec is (useD x.d) (res (out.take 128))).putVec is (useD dh) (res (out.drop 128)))

def execVmerge (t : MergeTy) (dh : VOp) (org : Bool) (x : V3) (s : State) : Host.Outcome State Fault Refusal :=
  runWord (.vmerge t dh org x) (fun is s => match partMask is s with
    | some (c, info) => .trap c info
    | none => vmergeBody t dh org x is s) s

end Sys2Proof.Machine
end

