-- ==== Sys2Proof/Machine/Faults.lean ====
section
/-! DEFINITION. Page walks for waiting requests (04 R113, R119), the fault queue (R121 to R124), ring consumers (R123) and the
completion of a TLB invalidation (R127). An event that has nothing to do changes nothing. -/

namespace Sys2Proof.Machine

/-! ### PAGE_WALK -/

/-- A request may be walked now: its thread is not pre-empted (R125). -/
def State.mayWalk (s : State) (t : TReq) : Bool := t.st == .need && (asks t || !s.isAway t.who)

/-- The operation a request belongs to. -/
def State.mopOf (s : State) (t : TReq) : Option MemOp := (mvals s.mops).find? (fun o => o.treqs.contains t.id)

/-- The lookups of an operation that has waited for them, where no earlier faulted operation holds it any more (R119): its requests
get what the core TLB answers, those of a resumed warp nothing (R125); with a miss it takes an operand-log entry, or waits for one
(R117). -/
def State.lookupAgain (s : State) (o : MemOp) : State :=
  if s.isAway o.who || s.keyHeld o.who o.keys o.id then s
  else
    let found := (s.waitingReqs o).map (fun t => { t with st := s.lookupOf o t })
    let miss := found.any (fun t => t.st == .need)
    let log := if o.log.isSome || !miss || isStream o.who then o.log else s.freeLog o.who o.core
    if miss && log.isNone && !isStream o.who then s
    else found.foldl (fun u t => u.setTreq { t with log := log.getD 0 }) (s.setMop { o with log := log })

def State.pageWalk (s : State) (req : Nat) : State :=
  match mget s.treqs req with
  | none => s
  | some t =>
    if t.st == .wait then (s.mopOf t).elim s s.lookupAgain
    else if s.mayWalk t then s.walkReq t (t.root || asks t) else s

def execPageWalk (req : Nat) (s : State) : Host.Outcome State Fault Refusal := .next (s.pageWalk req)

/-! ### FAULT_RECORD_POST (R121, R122) -/

def FaultRec.bits (f : FaultRec) : BitVec 256 :=
  BitVec.ofNat 64 f.va ++ BitVec.ofNat 16 f.fid ++ BitVec.ofNat 12 f.ctx ++ BitVec.ofNat 4 f.cause ++
    BitVec.ofNat 3 f.acc.code ++ BitVec.ofNat 3 f.pgsz ++ BitVec.ofNat 8 f.core ++ BitVec.ofNat 6 f.warp ++
    BitVec.ofBool f.eng ++ BitVec.ofNat 6 f.log ++ BitVec.ofNat 3 f.level ++ BitVec.ofBool false ++ BitVec.ofBool f.kc ++
    BitVec.ofNat 64 f.ptea ++ f.pte

/-- Post the oldest record that waits, if the ring has room. -/
def State.postFault (s : State) (c : Nat) : State :=
  let k := s.cluster c
  match k.faults.find? (fun f => !f.posted) with
  | none => s
  | some f =>
    if ringFull k.fqbase k.fqhead k.fqtail then s
    else match s.firmwareTraps c with
    | some u => u
    | none =>
      let s1 := s.physWrite (ringSlot k.fqbase k.fqhead 32) (toLe 32 f.bits.toNat) {}
      let s2 := s1.modCluster c (fun k => { k with
        fqhead := k.fqhead + 1, faults := k.faults.map (fun x => if x.fid == f.fid then { x with posted := true } else x) })
      if f.kc then s2 else s2.record f.core 8 f.warp (BitVec.ofNat 64 f.fid)

def execFaultRecordPost (cluster : Nat) (s : State) : Host.Outcome State Fault Refusal := .next (s.postFault cluster)

/-! ### FRESP and the TAIL registers -/

def execFrespReplay (cluster fid : Nat) (s : State) : Host.Outcome State Fault Refusal := .next (s.frespReplay cluster fid)

def execFrespNomap (cluster fid : Nat) (s : State) : Host.Outcome State Fault Refusal := .next (s.frespViol cluster fid .nomap)

def execFrespProt (cluster fid : Nat) (s : State) : Host.Outcome State Fault Refusal := .next (s.frespViol cluster fid .prot)

def execFqtailWrite (cluster : Nat) (v : W64) (s : State) : Host.Outcome State Fault Refusal := .next (s.writeFqtail cluster v)

def execEvqtailWrite (stream : Nat) (v : W64) (s : State) : Host.Outcome State Fault Refusal := .next (s.writeEvqtail stream v)

def execErrtailWrite (cluster : Nat) (v : W64) (s : State) : Host.Outcome State Fault Refusal := .next (s.writeErrtail cluster v)

/-! ### TLB_INVALIDATION_COMPLETE (R127) -/

/-- A page falls in an invalidation's scope; its page size is `pgsz`. -/
def Inval.covers (x : Inval) (ctx va pgsz : Nat) : Bool :=
  match x.kind with
  | 0 =>
    let b := pageBits pgsz
    let lo := x.va / 2 ^ b * 2 ^ b
    ctx == x.ctx && decide (lo ≤ va) && decide (va < lo + x.pages * 2 ^ b)
  | 1 => ctx == x.ctx
  | _ => true

/-- A cached table entry is dropped with every page below it. -/
def Inval.coversWalk (x : Inval) (ctx va : Nat) : Bool :=
  match x.kind with
  | 0 => ctx == x.ctx && va / 2 ^ 51 == x.va / 2 ^ 51
  | 1 => ctx == x.ctx
  | _ => true

def State.treqCovered (s : State) (x : Inval) (t : TReq) : Bool :=
  x.covers t.ctx t.va ((s.region t.ctx t.va).elim 0 Region.pgsz)

/-- A lane memory operation has read data through a translation in the scope and is not yet performed. -/
def State.invalBusy (s : State) (x : Inval) : Bool :=
  (mvals s.mops).any (fun o => o.started && o.treqs.any (fun i => (mget s.treqs i).elim false (s.treqCovered x)))

/-- Cached translations in the scope go; a requester that holds one looks up again. -/
def State.dropScope (s : State) (x : Inval) : State :=
  { s with
    cores := s.cores.map (fun e => (e.1, { e.2 with tlb := e.2.tlb.filter (fun t => !x.covers t.ctx t.va t.pgsz) }))
    clusters := s.clusters.map (fun e => (e.1, { e.2 with
      tlb := e.2.tlb.filter (fun t => !x.covers t.ctx t.va t.pgsz)
      walks := e.2.walks.filter (fun w => !x.coversWalk w.ctx w.va) }))
    regions := if x.kind = 0 then s.regions else s.regions.filter (fun e => !x.covers (e.1 / 64) 0 0)
    treqs := s.treqs.map (fun e => (e.1,
      match e.2.st with
      | .ok _ | .denied _ =>
        if !s.treqCovered x e.2 then e.2 else { e.2 with st := if asks e.2 then .need else .wait, root := false }
      | _ => e.2)) }

def State.completeInval (s : State) (inv : Nat) : State :=
  match s.invals.find? (fun x => x.id == inv) with
  | none => s
  | some x =>
    if s.invalBusy x then s
    else
      let s1 := { s.dropScope x with invals := s.invals.filter (fun y => y.id != inv) }
      let s2 := if x.host then { s1 with regs := { s1.regs with tlbBusy := false } } else s1
      match x.who with
      | none => s2
      | some (who, lane) =>
        if (s2.ctl who).waits.any (fun y => y.lane == lane && y.kind == .tlbinv inv) then s2.endWait who lane 1 else s2

def execTlbInvalidationComplete (inv : Nat) (s : State) : Host.Outcome State Fault Refusal := .next (s.completeInval inv)

end Sys2Proof.Machine
end

