-- ==== Sys2Proof/Machine/RegModel.lean ====
section
/-! DEFINITION. Index registers and the window words (11 R318 to R325, 02 R56 to R60). -/

namespace Sys2Proof.Machine

/-- R319: the operands of a mode other than OFF. -/
def xsetPre (mode : XMode) (sa sb : SOp) (is : Issue) (s : State) : Option (Cause × Info) :=
  let a := (is.sv s sa).toNat
  let b := (is.sv s sb).toNat
  if mode == .off || (decide (a ≤ 255) && decide (1 ≤ b) && decide (b ≤ 256) && decide (a + b ≤ 256)) then none
  else some (.oprange, .same 0)

def xsetBody (j : Fin 8) (mode : XMode) (stp : BitVec 4) (zi : Bool) (sa sb : SOp) (is : Issue) (s : State) : Act :=
  .next (s.modWarp is.who (fun w =>
    let x := w.xreg j.val
    let idx := if zi then [] else x.idx
    w.setX j.val (if mode == .off then { mode := .off, idx := idx }
      else { mode := mode, step := stp, bound := (is.sv s sb).toNat, base := (is.sv s sa).toNat, idx := idx })))

def execXset (j : Fin 8) (mode : XMode) (stp : BitVec 4) (zi : Bool) (sa sb : SOp) (s : State) :
    Host.Outcome State Fault Refusal :=
  runWordWith (.xset j mode stp zi sa sb) (xsetPre mode sa sb) noCheck (xsetBody j mode stp zi sa sb) s

def xldvBody (j : Fin 8) (a : VOp) (is : Issue) (s : State) : Act :=
  .next (s.modWarp is.who (fun w =>
    w.setX j.val ((lanesOf is.mask).foldl (fun x L => x.setIndex L ((is.src (useS a) L).toNat % 2 ^ 16)) (w.xreg j.val))))

def execXldv (g : Guard) (j : Fin 8) (a : VOp) (s : State) : Host.Outcome State Fault Refusal :=
  runWord (.xldv g j a) (xldvBody j a) s

def xgetvBody (d : VOp) (j : Fin 8) (desc : Bool) (is : Issue) (s : State) : Act :=
  let x := is.w.xreg j.val
  .next (s.putVec is (useD d) (is.over (fun L => if desc then x.word.toNat else x.index L)))

def execXgetv (g : Guard) (d : VOp) (j : Fin 8) (desc : Bool) (s : State) : Host.Outcome State Fault Refusal :=
  runWord (.xgetv g d j desc) (xgetvBody d j desc) s

/-! ### RGROW and RSHRINK -/

/-- A size that is no whole window (R56, R58). -/
def windowPre (t : BitVec 9) (least : Nat) (_ : Issue) (_ : State) : Option (Cause × Info) :=
  let n := t.toNat
  if n % 8 != 0 || n < 8 || 256 < n || n < 8 * least then some (.window, .same n) else none

/-- RGROW waits for BLOCK_GRANT; a window that is large enough ends it at once. -/
def rgrowBody (t : BitVec 9) (is : Issue) (s : State) : Act :=
  let n := t.toNat / 8
  if n ≤ (s.warp is.who).curb then .next s else .park (s.beginWait is (.rgrow n))

def execRgrow (t : BitVec 9) (s : State) : Host.Outcome State Fault Refusal :=
  runWordWith (.rgrow t) (windowPre t 0) noCheck (rgrowBody t) s

/-- R58. -/
def rshrinkBody (t : BitVec 9) (is : Issue) (s : State) : Act :=
  let n := t.toNat / 8
  if (s.warp is.who).curb ≤ n then .next s
  else if (s.pendingRegs is.who false).any (fun r => decide (8 * n ≤ r)) then .hold s
  else .next ((s.modWarp is.who (fun w =>
    { w with curb := n, blocks := w.blocks.filter (fun e => decide (e.1 < n)) })).settleReserve (coreOf is.who))

def rshrinkPre (t : BitVec 9) (is : Issue) (s : State) : Option (Cause × Info) := windowPre t (s.warp is.who).minb is s

def execRshrink (t : BitVec 9) (s : State) : Host.Outcome State Fault Refusal :=
  runWordWith (.rshrink t) (rshrinkPre t) noCheck (rshrinkBody t) s

end Sys2Proof.Machine
end

