-- ==== Sys2Proof/Machine/Sched.lean ====
section
/-! DEFINITION. Fetching packets (R126, R155), entering them (R234 to R237, R253), the issue of their words (R248 to R254) and
the choice of the word that issues next (R209, R230, R422, R434 to R436). -/

namespace Sys2Proof

def Packet.ofBits (v : W128) : Packet :=
  ⟨v.extractLsb' 0 32, v.extractLsb' 32 32, v.extractLsb' 64 32, v.extractLsb' 96 32⟩

/-- The chained groups of a packet as lists of slots (R248). -/
def Packet.groupSlots (p : Packet) : List (List Nat) :=
  let go := p.starts.foldl (fun (acc : List (List Nat) × Bool) k =>
    let c := (p.slot k).getLsbD 31
    match acc.1.getLast?, acc.2 with
    | some g, true => (acc.1.dropLast ++ [g ++ [k]], c)
    | _, _ => (acc.1 ++ [[k]], c)) ([], false)
  go.1

def Packet.groupOf (p : Packet) (k : Nat) : List Nat := (p.groupSlots.find? (fun g => g.contains k)).getD [k]

/-- First and extension word of the instruction that begins in slot k. -/
def Packet.wordsAt (p : Packet) (k : Nat) : W32 × W32 :=
  (p.slot k, if wideOp (opOf (p.slot k)) then p.slot (k + 1) else 0)

def Packet.instrAt (p : Packet) (k : Nat) : Option Instr :=
  let (a, b) := p.wordsAt k
  match decodeWords a b with
  | .ok i => some i
  | .error _ => none

/-- What `cur` holds for the word in slot k of a path's packet; with no group open it issues unchained. -/
def Packet.curAt (p : Packet) (who lane k : Nat) (g : Option Machine.Group) : Machine.Cur :=
  let (a, b) := p.wordsAt k
  { who := who, lane := lane, iword := a, xword := b, flag := p.flag k, chain := (p.slot k).getLsbD 31 && g.isSome, yld := p.yld, group := g }

/-- The pipes of a group: the fixed ones, and VA before VB for the V instructions (R248). -/
def groupPipes (ops : List Nat) : List Pipe :=
  let fixed := (ops.map pipeOf).filter (fun p => p != .none && p != .v)
  let v := ([Pipe.va, Pipe.vb].filter (fun p => !fixed.contains p)).take ((ops.map pipeOf).filter (fun p => p == .v)).length
  fixed ++ v

end Sys2Proof

namespace Sys2Proof.Machine

/-! ### INSTRUCTION_FETCH -/

/-- The word at which a path enters its packet: a packet address stands for slot 0 unless RTE set it (R234, R446). -/
def Path.entryWord (p : Path) : W64 := if bitsOf p.pc 2 2 = 0 && !p.strict then pktOf p.pc + 4 else p.pc

/-- Keep a fetched packet for the path that enters it; packets that no path stands in are let go. A thread fetches none ahead of
the packet its path enters: at most 4 are allowed (R155), and this is the model's choice (log entry 94). -/
def State.keepPacket (s : State) (who addr : Nat) (b : W128) : State :=
  let c := s.ctl who
  let w := s.warp who
  let stand := ((w.paths ++ c.frozen).filter (fun p => p.inside)).map (fun p => ((pktOf p.pc).toNat, p.gen)) ++
    w.parked.map (fun q => ((pktOf q.at_).toNat, q.gen))
  let keep := c.fetched.filter (fun g => stand.contains (g.addr, g.gen) && !(g.addr == addr && g.gen == c.gen))
  -- a path inside the packet whose own fetch of it is gone takes this one
  let lost := fun (p : Path) => p.inside && (pktOf p.pc).toNat == addr && !keep.any (fun g => g.addr == addr && g.gen == p.gen)
  (s.modCtl who (fun c => { c with fetched := keep ++ [⟨addr, b, c.gen⟩] })).modWarp who (fun w =>
    { w with paths := w.paths.map (fun p => if lost p then { p with gen := c.gen } else p) })

/-- The answered request of a fetch is used up. -/
def State.dropFetch (s : State) (who page : Nat) : State :=
  ({ s with treqs := s.treqs.filter (fun e => !(e.2.who == who && e.2.log == fetchTag && e.2.va == page)) } : State).dropLost who fetchTag

/-- A fetch that cannot be made: the trap of R126, once it can be entered, after what `first` does. -/
def State.fetchTrap (s : State) (who lane : Nat) (p : Path) (damaged : Bool) (first : State → State) : State :=
  let pkt := (pktOf p.pc).toNat
  match s.trapWaits who lane with
  | some t => { t with blocked := true }
  | none =>
    ((first s).noteQtrap who p p.entryWord).takeTrap who lane { cause := .fetchv, info := .same pkt, resume := p.entryWord, pc := p.entryWord, damaged := damaged }

/-- The packet at a translated address, from the core's instruction cache or from memory. -/
def State.fetchAt (s : State) (who lane : Nat) (p : Path) (pa : Nat) : State :=
  let pkt := (pktOf p.pc).toNat
  let core := coreOf who
  match (if isStream who then none else mget (s.core core).icache (pa / 16)) with
  | some b => s.keepPacket who pkt b
  | none =>
    let s1 := s.locTouch (.phys pa) 16 (reqOf who false (s.warp who).ctx p.entryWord)
    if s1.locPoison (.phys pa) 16 then s1.fetchTrap who lane p true id
    else
      let b := leWord 128 (s1.locRead (.phys pa) 16)
      let s2 := if isStream who then s1 else s1.modCore core (fun c => { c with icache := mset c.icache (pa / 16) b })
      s2.keepPacket who pkt b

/-- The acquire that a thread owes before its first instruction (R154, R158); it waits while the invalidate would be held (R84). -/
def State.owedAcquire (s : State) (who : Nat) : State :=
  if !s.mayAcquire who then { s with blocked := true }
  else (s.acquireL1 who).modCtl who (fun c => { c with acq := false })

/-- Fetch the packet of the path that holds `lane`. -/
def State.fetchPacket (s : State) (who lane : Nat) : State :=
  match (s.warp who).pathAt lane with
  | none => s
  | some p =>
    if (s.ctl who).acq then s.owedAcquire who
    else if (s.packetOf who p).isSome then s
    else
      let va := (pktOf p.pc).toNat
      let ctx := (s.warp who).ctx
      let page := (s.region ctx va).elim 0 (fun r => r.pageOf va)
      match s.ask ctx va .fetch (coreOf who) who fetchTag va 0 16 with
      | (.wait, t) => t
      | (.viol c, t) =>
        t.fetchTrap who lane p false (fun u =>
          (u.dropFetch who page).logViol who 0 c .fetch (lowLane p.mask) false (pktOf p.pc) p.entryWord)
      | (.ok pa _, t) => (t.dropFetch who page).fetchAt who lane p pa

def execInstructionFetch (who lane : Nat) (s : State) : Host.Outcome State Fault Refusal := .next (s.fetchPacket who lane)

/-! ### ASYNC_TRAP_DELIVERY (R439) -/

/-- A pending trap that a packet's beginning delivers. -/
def WarpCtl.pendingAsync (c : WarpCtl) : Option Cause :=
  if c.inTrap then none else if c.pmtx then some .mtxerr else if c.pabft then some .abft else none

/-- Deliver a pending trap to the path of `lane`; MTXERR goes first. The entry may wait for a page of the save area. -/
def State.deliverAsync (s : State) (who lane : Nat) : State :=
  let c := s.ctl who
  match (s.warp who).pathAt lane, c.pendingAsync with
  | some p, some cause =>
    if p.inside || isStream who then s
    else match s.trapWaits who lane with
    | some t => { t with blocked := true }
    | none =>
      let info := if cause == .mtxerr then c.mtxCount else c.abftSeq
      let s1 := s.setCtl who (if cause == .mtxerr then { c with pmtx := false, mtxCount := 0 } else { c with pabft := false })
      (s1.noteQtrap who p p.entryWord).takeTrap who lane
        { cause := cause, info := .same info, resume := p.entryWord, pc := p.entryWord, async := true }
  | _, _ => s

def execAsyncTrapDelivery (who lane : Nat) (s : State) : Host.Outcome State Fault Refusal := .next (s.deliverAsync who lane)

/-! ### The attempt to issue -/

/-- What an attempt at the next word of a path comes to: the exec of an instruction, a change of state, or a wait. -/
inductive Attempt where
  | run (i : Instr) (s : State)
  | done (s : State)
  | wait (s : State)

/-- The trap of a packet or of a word that has no instruction (R253, R254), once it can be entered. -/
def State.wordTrap (s : State) (who lane : Nat) (p : Path) (c : Cause) (pc : W64) (iw xw : W32) : Attempt :=
  match s.trapWaits who lane with
  | some t => .wait t
  | none => .done ((s.noteQtrap who p pc).closeGroup.takeTrap who lane { cause := c, issue := p.mask, resume := pc, pc := pc, iword := iw, xword := xw })

/-- The group that the word in slot k goes on with: the open one, or one that a member of the path kept open. -/
def State.openGroup (s : State) (who : Nat) (p : Path) : Option Group :=
  match s.cur with
  | some c => c.group
  | none => ((s.ctl who).heldGroup.find? (fun e => p.mask.getLsbD e.1)).map Prod.snd

/-- Issue the word in slot k of packet `pk` for path `p`, which is inside it. At the head of a group it opens the group; a path
that comes to a later member with no group open issues it alone (R249). -/
def State.wordAttempt (s : State) (who lane : Nat) (p : Path) (pk : Packet) (k : Nat) : Attempt :=
  let held := s.openGroup who p
  let opening := held.isNone && (pk.groupOf k).head? == some k && decide (1 < (pk.groupOf k).length)
  let g := if opening then some { snap := s.warp who, since := s.nextId } else held
  let s0 := if s.cur.isNone && held.isSome then
      s.modCtl who (fun c => { c with heldGroup := c.heldGroup.filter (fun e => !p.mask.getLsbD e.1) }) else s
  let s1 := { s0 with cur := some (pk.curAt who lane k g) }
  match pk.instrAt k with
  | some i => .run i s1
  | none => s1.wordTrap who lane p .illins p.pc (pk.wordsAt k).1 (pk.wordsAt k).2

/-- The members after the one in slot k of a group that `t` opens, each as it would issue alone before the group: where one of
them must wait, the group waits whole (R237, R248, R436). -/
def State.laterMembers (s t : State) (who lane : Nat) : List (Instr × State) :=
  match t.cur.bind Cur.group, (t.warp who).pathAt lane with
  | some _, some p =>
    if (s.openGroup who p).isSome then []
    else match t.packetOf who p with
      | none => []
      | some f =>
        let pk := Packet.ofBits f.bits
        let k := slotIdx p.pc
        ((pk.groupOf k).filter (fun j => decide (k < j))).filterMap (fun j => (pk.instrAt j).map (fun i =>
          (i, { t with cur := some (pk.curAt who lane j none) })))
  | _, _ => []

/-- A path that may issue: not waiting, not frozen behind a handler or a trap that is being entered (R441), and its warp not stalled
in RGROW (R56) nor at a lane memory word of another path (R82, R117). A wait in CONVENE, in DISBAND or at a quorum issue is its
path's alone: the other paths of a diverged warp go on, which the spec leaves open (log entry 107). -/
def State.pathReady (s : State) (who : Nat) (p : Path) : Bool :=
  let c := s.ctl who
  c.rgrowWait.isNone && !(c.waits.any (fun x => p.mask.getLsbD x.lane)) && (!c.inTrap || p.handler) &&
    (c.stall.toList ++ c.entering.toList).all (fun L => p.mask.getLsbD L || ((s.warp who).pathAt L).isNone)

/-- A path enters its packet: the packet's checks, then its wait (R234, R236, R253). -/
def State.enterPacket (s : State) (who lane : Nat) (p : Path) (pk : Packet) : Attempt :=
  let pc := p.entryWord
  if bitsOf pc 2 2 = 0 || !(pk.starts.contains (slotIdx pc)) || !pk.ok then
    -- the word at which the path enters, as it stands in the packet (R443); a header word has none
    let (a, b) := if bitsOf pc 2 2 = 0 then (0, 0) else pk.wordsAt (slotIdx pc)
    s.wordTrap who lane p .illpkt pc a b
  else if (List.range 12).any (fun j => pk.wait.getLsbD j && (s.warp who).flag j != 0) then .wait s
  else
    let q := { p with pc := pc, entry := pc, inside := true, gen := (s.ctl who).gen }
    let s1 := (s.modWarp who (fun w => { w with paths := w.paths.map (fun r => if r.mask.getLsbD lane then q else r) })).modCtl who
      (fun c => { c with passed := (((s.warp who).paths.filter (fun r => !r.mask.getLsbD lane && s.pathReady who r)).map (fun r =>
        lowLane r.mask)).foldl (fun m l => mset m l (mgetD c.passed l 0 + 1)) [] })
    let s2 := if isStream who then s1.modCluster (clusterOf who) (fun c => { c with lastStream := streamOf who }) else s1
    s2.wordAttempt who lane q pk (slotIdx pc)

/-- The path's fetch waits for a page to be serviced (R126). -/
def State.fetchFaulted (s : State) (who : Nat) (p : Path) : Bool :=
  let va := (pktOf p.pc).toNat
  let page := (s.region (s.warp who).ctx va).elim 0 (fun r => r.pageOf va)
  (mvals s.treqs).any (fun t => t.who == who && t.log == fetchTag && t.va == page && t.open_)

/-- The cluster whose control core launched a grid. -/
def State.gridHome (s : State) (g : Grid) : Nat := (mget s.eops g.op).elim 0 (fun o => clusterOf o.who)

/-- What the firmware of a cluster has to do: fault records, emulated operations, the retirement of grids and the distribution of
launches (R422). -/
def State.firmwareJobs (s : State) (c : Nat) : List Instr :=
  let k := s.cluster c
  (if k.faults.any (fun f => !f.posted) && !ringFull k.fqbase k.fqhead k.fqtail then [.faultRecordPost c] else []) ++
  (if k.emulQ.isEmpty then [] else [.emulatedOpComplete c]) ++
  (((mvals s.grids).filter (fun g => s.gridHome g == c && s.gridDone g)).map (fun g => .gridRetire g.id)) ++
  (((mvals s.eops).filter (fun o => isLaunch o.instr && clusterOf o.who == c && decide (o.phase < 3))).map (fun o =>
    if o.phase = 2 then .launchAccept o.id else .launchDescriptorRead o.id))

/-- Firmware of a cluster may run: no stream is in RUN, or it has taken less than 512 of the last 1,024 clocks (R422). -/
def State.firmwareMay (s : State) (c : Nat) : Bool :=
  !(s.streams.any (fun e => e.1 / 16 == c && e.2.state == 1)) ||
    decide (((s.cluster c).fwClocks.filter (fun t => decide (s.clock < t + 1024))).length < 512)

/-- The cluster whose firmware a routine is. -/
def State.firmwareAt (s : State) (i : Instr) : Option Nat :=
  match i with
  | .faultRecordPost c | .emulatedOpComplete c => some c
  | .gridRetire g => (mget s.grids g).map s.gridHome
  | .launchAccept o | .launchDescriptorRead o => (mget s.eops o).map (fun e => clusterOf e.who)
  | _ => none

/-- A firmware routine takes its clock. -/
def State.countFirmware (s : State) (i : Instr) : State :=
  match s.firmwareAt i with
  | some c => if s.streams.any (fun e => e.1 / 16 == c && e.2.state == 1) then
      s.modCluster c (fun k => { k with fwClocks := s.clock :: k.fwClocks.filter (fun t => decide (s.clock < t + 1024)) }) else s
  | none => s

/-- The firmware routine that goes before a stream's next packet; which of several, turns with the clock (R422). -/
def State.firmwareFirst (s : State) (who : Nat) (p : Path) : Option Instr :=
  if isStream who && !p.inside && s.turns.isEmpty && s.firmwareMay (clusterOf who) then
    let jobs := s.firmwareJobs (clusterOf who)
    jobs[s.clock / 2 % jobs.length]?
  else none

/-- What the next step of a path is. -/
def State.attempt (s : State) (who lane : Nat) : Attempt :=
  match (s.warp who).pathAt lane with
  | none => .wait s
  | some p =>
    if isStream who && (s.stream (who - streamBase)).haltReq && !p.inside then .done (s.haltNow (who - streamBase))
    else if isStream who && (s.stream (who - streamBase)).suspended && !p.inside then
      .done (s.modCtl who (fun c => { c with boundary := true }))
    else if let some i := s.firmwareFirst who p then .run i (s.countFirmware i)
    else if (s.ctl who).acq then .run (.instructionFetch who lane) s
    else if !p.inside && (s.ctl who).pendingAsync.isSome then .run (.asyncTrapDelivery who lane) s
    else match s.packetOf who p with
      | none => if s.fetchFaulted who p then .wait s else .run (.instructionFetch who lane) s
      | some f =>
        let pk := Packet.ofBits f.bits
        if p.inside then s.wordAttempt who lane p pk (slotIdx p.pc) else s.enterPacket who lane p pk

/-! ### Which paths may issue -/

/-- A warp that came back has operations whose pages are still to be translated again (R125). -/
def State.retranslates (s : State) (who : Nat) : Bool :=
  (mvals s.mops).any (fun o => o.who == who && !s.keyHeld who o.keys o.id && o.treqs.any (fun i => (mget s.treqs i).any (fun t =>
    t.root && (t.st == .wait || t.st == .need))))

/-- The workgroups of a workgroup's cohort. -/
def State.cohortOf (s : State) (g : Wg) : List Wg := (mvals s.wgs).filter (fun x => x.grid == g.grid && x.unit == g.unit && x.st != .retired)

/-- A warp may issue: present, not stopped, not spilled, not leaving at a boundary, its operations translated again and none of them
without an operand-log entry (R117), and the windows of its cohort written (R26, R28). -/
def State.warpMay (s : State) (who : Nat) : Bool :=
  let c := s.ctl who
  decide (who < streamBase) && !c.fatal && c.spilled.isNone && !c.boundary && !s.regs.trip && !s.retranslates who && !s.logStarved who &&
    (s.wgOf who).elim false (fun g => (g.st == .resident || g.st == .leaving) && g.fillWin.isEmpty && (s.cohortOf g).all (fun x => x.fillWin.isEmpty))

def State.streamMay (s : State) (j : Nat) : Bool :=
  (s.stream j).state == 1 && !(s.ctl (streamBase + j)).boundary && !s.regs.trip

def rotate {α : Type} (n : Nat) (l : List α) : List α := l.drop (n % l.length) ++ l.take (n % l.length)

/-- Where the path of lane l begins its warp's next packet, each other ready path of `ls` can still begin one before 16 packets of
other paths have passed it: the one passed j-th most often comes j packets after that (R209). -/
def WarpCtl.mayBegin (c : WarpCtl) (ls : List Nat) (l : Nat) : Bool :=
  (sortBy (fun a b => decide (b < a)) ((ls.filter (fun x => x != l)).map (fun x => mgetD c.passed x 0))).zipIdx.all (fun e => decide (e.1 + e.2 ≤ 14))

/-- The lowest lanes of the paths of a thread that may issue, in turn: one passed more often comes first, and of those alike the one
after the path that issued last (R209). -/
def State.readyLanes (s : State) (who : Nat) : List Nat :=
  let c := s.ctl who
  let ls := sortBy (fun a b => decide (a ≤ b)) (((s.warp who).paths.filter (s.pathReady who)).map (fun p => lowLane p.mask))
  let turn := ls.filter (fun l => decide (c.lastLane < l)) ++ ls.filter (fun l => decide (l ≤ c.lastLane))
  sortBy (fun a b => decide (mgetD c.passed b 0 < mgetD c.passed a 0)) turn

def State.pathsOf (s : State) (who : Nat) : List (Nat × Nat) := (s.readyLanes who).map (fun l => (who, l))

/-- A turn that is forced is given to its path, where R209 leaves it free. -/
def State.mayForce (s : State) (x : Nat × Nat) : Bool :=
  ((s.warp x.1).pathAt x.2).any (fun p => p.inside) || (s.ctl x.1).mayBegin (s.readyLanes x.1) x.2

/-- Not issued for 2,048 clocks, or marked so (R435). -/
def State.isBumped (s : State) (who : Nat) : Bool := (s.ctl who).bumped || decide (2048 ≤ s.clock - (s.ctl who).lastIssue)

/-- R434: a bumped warp first, then priority, then one whose last packet did not yield, then age. -/
def State.ranksBefore (s : State) (a b : Nat) : Bool :=
  let x := s.ctl a
  let y := s.ctl b
  if s.isBumped a != s.isBumped b then s.isBumped a
  else if (s.warp a).prio != (s.warp b).prio then decide ((s.warp b).prio < (s.warp a).prio)
  else if x.yld != y.yld then y.yld
  else s.older a b

/-- The issue ports of the cores that hold warps: the warps of each, first to be chosen first. -/
def State.ports (s : State) : List (List (Nat × Nat)) :=
  let ws := (s.warps.map Prod.fst).filter s.warpMay
  let keys := (ws.map (fun w => (coreOf w, slotOf w % 4))).eraseDups
  keys.map (fun k => (sortBy s.ranksBefore (ws.filter (fun w => coreOf w == k.1 && slotOf w % 4 == k.2))).flatMap s.pathsOf)

/-- The pipes that the next group of a path needs, which its packet names once it is fetched. -/
def State.nextPipes (s : State) (who lane : Nat) : List Pipe :=
  match (s.warp who).pathAt lane with
  | none => []
  | some p => match s.packetOf who p with
    | none => []
    | some f =>
      let pk := Packet.ofBits f.bits
      let k := slotIdx (if p.inside then p.pc else p.entryWord)
      let g := if (pk.groupOf k).head? = some k then pk.groupOf k else [k]
      groupPipes (g.map (fun j => opOf (pk.slot j)))

/-- A pipe that two ports of a core need goes to the group that ranks higher; among bumped warps to the older (R435, R436). -/
def State.pipeBefore (s : State) (a b : Nat) : Bool :=
  if s.isBumped a && s.isBumped b then s.older a b else s.ranksBefore a b

/-- The port's choice loses a pipe it needs to the choice of another port of its core. -/
def State.losesPipe (s : State) (heads : List (Nat × Nat)) (x : Nat × Nat) : Bool :=
  let mine := s.nextPipes x.1 x.2
  heads.any (fun y => y.1 != x.1 && coreOf y.1 == coreOf x.1 && s.pipeBefore y.1 x.1 && (s.nextPipes y.1 y.2).any mine.contains)

/-- The next word of the path cannot issue now: its packet waits, or an interlock holds the word. -/
def State.stuck (s : State) (x : Nat × Nat) : Bool :=
  match s.attempt x.1 x.2 with
  | .wait _ => true
  | .done _ => false
  | .run i t => (t.issueOf i).elim false t.held

/-- What each port chooses: the first path in its order that can issue (R434). -/
def State.portHeads (s : State) : List (Nat × Nat) := s.ports.filterMap (fun l => l.find? (fun x => !s.stuck x))

/-- The streams of a cluster in their turn: one inside a packet, else those after the last to issue (R422). -/
def State.streamTurn (s : State) (c : Nat) : List (Nat × Nat) :=
  let js := ((s.streams.map Prod.fst).filter (fun j => j / 16 == c && s.streamMay j))
  let last := (s.cluster c).lastStream
  let order := js.filter (fun j => decide (last < j % 16)) ++ js.filter (fun j => decide (j % 16 ≤ last))
  let mid := js.filter (fun j => (s.warp (streamBase + j)).paths.any (fun p => p.inside) && !(s.pathsOf (streamBase + j)).isEmpty)
  (mid ++ order.filter (fun j => !mid.contains j)).flatMap (fun j => s.pathsOf (streamBase + j))

def State.controlSites (s : State) : List (List (Nat × Nat)) :=
  (((s.streams.map Prod.fst).map (fun j => j / 16)).eraseDups).map s.streamTurn

/-- A port's or a control core's order with the turn of `t` forced: the site goes first, its warps stay in their order (R434), and of
the paths of its thread t goes first where R209 leaves it free. -/
def State.forced (s : State) (t : Nat × Nat) (l : List (Nat × Nat)) : List (Nat × Nat) :=
  if !(l.contains t && s.mayForce t) then l
  else (l.takeWhile (fun x => x.1 != t.1)) ++ t :: (l.dropWhile (fun x => x.1 != t.1)).filter (fun x => x != t)

/-- The paths to try, in order. The port or control core that goes first turns with the clock, one that loses a pipe standing back;
`turns` overrides which goes first. -/
def State.candidates (s : State) : List (Nat × Nat) :=
  let ports := s.ports
  let heads := if ports.length ≤ 1 then [] else s.portHeads
  let loses := fun (l : List (Nat × Nat)) => heads.any (fun x => l.contains x && s.losesPipe heads x)
  let sites := rotate (s.clock / 2) (ports ++ s.controlSites)
  let order := sites.filter (fun l => !loses l) ++ sites.filter loses
  match s.turns with
  | t :: _ => ((order.filter (fun l => l.contains t)).map (s.forced t) ++ order.filter (fun l => !l.contains t)).flatten
  | [] => order.flatten

/-! ### WARP_BUMP (R435) -/

def State.bumpWarp (s : State) (who : Nat) : State :=
  if s.warpMay who && !(s.pathsOf who).isEmpty && decide (2048 ≤ s.clock - (s.ctl who).lastIssue) then
    s.modCtl who (fun c => { c with bumped := true })
  else s

def execWarpBump (who : Nat) (s : State) : Host.Outcome State Fault Refusal := .next (s.bumpWarp who)

end Sys2Proof.Machine
end

