-- ==== Sys2Proof/Machine/Dispatch.lean ====
section
/-! DEFINITION. One arm per instruction and event of the opcode table, each one call of its meaning. -/

namespace Sys2Proof.Machine

def exec (i : Instr) (s : State) : Host.Outcome State Fault Refusal :=
  match i with
  | .nop => Sys2Proof.Machine.execNop s
  | .bra g off => Sys2Proof.Machine.execBra g off s
  | .call g off => Sys2Proof.Machine.execCall g off s
  | .ret g a => Sys2Proof.Machine.execRet g a s
  | .brx g a => Sys2Proof.Machine.execBrx g a s
  | .split k => Sys2Proof.Machine.execSplit k s
  | .join k => Sys2Proof.Machine.execJoin k s
  | .waitk k => Sys2Proof.Machine.execWaitk k s
  | .reform g a n => Sys2Proof.Machine.execReform g a n s
  | .loop l => Sys2Proof.Machine.execLoop l s
  | .bar => Sys2Proof.Machine.execBar s
  | .convene => Sys2Proof.Machine.execConvene s
  | .disband => Sys2Proof.Machine.execDisband s
  | .exit g => Sys2Proof.Machine.execExit g s
  | .pand x => Sys2Proof.Machine.execPand x s
  | .por x => Sys2Proof.Machine.execPor x s
  | .pxor x => Sys2Proof.Machine.execPxor x s
  | .pandn x => Sys2Proof.Machine.execPandn x s
  | .trap code => Sys2Proof.Machine.execTrap code s
  | .sadd x => Sys2Proof.Machine.execSadd x s
  | .ssub x => Sys2Proof.Machine.execSsub x s
  | .sand x => Sys2Proof.Machine.execSand x s
  | .sor x => Sys2Proof.Machine.execSor x s
  | .sxor x => Sys2Proof.Machine.execSxor x s
  | .sshl x => Sys2Proof.Machine.execSshl x s
  | .sshr x => Sys2Proof.Machine.execSshr x s
  | .ssra x => Sys2Proof.Machine.execSsra x s
  | .smul x => Sys2Proof.Machine.execSmul x s
  | .smulh x => Sys2Proof.Machine.execSmulh x s
  | .smulhn x => Sys2Proof.Machine.execSmulhn x s
  | .smin x => Sys2Proof.Machine.execSmin x s
  | .sminn x => Sys2Proof.Machine.execSminn x s
  | .smax x => Sys2Proof.Machine.execSmax x s
  | .smaxn x => Sys2Proof.Machine.execSmaxn x s
  | .scmp c x => Sys2Proof.Machine.execScmp c x s
  | .sdiv x => Sys2Proof.Machine.execSdiv x s
  | .sdivn x => Sys2Proof.Machine.execSdivn x s
  | .srem x => Sys2Proof.Machine.execSrem x s
  | .sremn x => Sys2Proof.Machine.execSremn x s
  | .sclz sd sa => Sys2Proof.Machine.execSclz sd sa s
  | .spopc sd sa => Sys2Proof.Machine.execSpopc sd sa s
  | .sbrev sd sa => Sys2Proof.Machine.execSbrev sd sa s
  | .saddi sd imm => Sys2Proof.Machine.execSaddi sd imm s
  | .smovi sd imm => Sys2Proof.Machine.execSmovi sd imm s
  | .sshin sd imm => Sys2Proof.Machine.execSshin sd imm s
  | .rte => Sys2Proof.Machine.execRte s
  | .vadd t x => Sys2Proof.Machine.execVadd t x s
  | .vsub t x => Sys2Proof.Machine.execVsub t x s
  | .vmul t x => Sys2Proof.Machine.execVmul t x s
  | .vmulh t x => Sys2Proof.Machine.execVmulh t x s
  | .vaddsat t x => Sys2Proof.Machine.execVaddsat t x s
  | .vsubsat t x => Sys2Proof.Machine.execVsubsat t x s
  | .vmin t x => Sys2Proof.Machine.execVmin t x s
  | .vmax t x => Sys2Proof.Machine.execVmax t x s
  | .vand t x => Sys2Proof.Machine.execVand t x s
  | .vor t x => Sys2Proof.Machine.execVor t x s
  | .vxor t x => Sys2Proof.Machine.execVxor t x s
  | .vshl t x => Sys2Proof.Machine.execVshl t x s
  | .vshr t x => Sys2Proof.Machine.execVshr t x s
  | .vcmp t c x => Sys2Proof.Machine.execVcmp t c x s
  | .vmov t x => Sys2Proof.Machine.execVmov t x s
  | .vclz x => Sys2Proof.Machine.execVclz x s
  | .vpopc x => Sys2Proof.Machine.execVpopc x s
  | .vbrev x => Sys2Proof.Machine.execVbrev x s
  | .vaddi x imm => Sys2Proof.Machine.execVaddi x imm s
  | .vshli x n => Sys2Proof.Machine.execVshli x n s
  | .vshri x n => Sys2Proof.Machine.execVshri x n s
  | .vsrai x n => Sys2Proof.Machine.execVsrai x n s
  | .vmovi g d imm => Sys2Proof.Machine.execVmovi g d imm s
  | .vbcast t g d sv => Sys2Proof.Machine.execVbcast t g d sv s
  | .vreadl g sd a lane => Sys2Proof.Machine.execVreadl g sd a lane s
  | .vfadd t x => Sys2Proof.Machine.execVfadd t x s
  | .vfsub t x => Sys2Proof.Machine.execVfsub t x s
  | .vfmul t x => Sys2Proof.Machine.execVfmul t x s
  | .vfma t x => Sys2Proof.Machine.execVfma t x s
  | .vfmin t x => Sys2Proof.Machine.execVfmin t x s
  | .vfmax t x => Sys2Proof.Machine.execVfmax t x s
  | .vfcmp t c x => Sys2Proof.Machine.execVfcmp t c x s
  | .vfdiv t x => Sys2Proof.Machine.execVfdiv t x s
  | .vfsqrt t x => Sys2Proof.Machine.execVfsqrt t x s
  | .vfopx op t rm sids x => Sys2Proof.Machine.execVfopx op t rm sids x s
  | .vcvt k psel rm sids x => Sys2Proof.Machine.execVcvt k psel rm sids x s
  | .mxmax x => Sys2Proof.Machine.execMxmax x s
  | .mxscale f p x => Sys2Proof.Machine.execMxscale f p x s
  | .mxq f p rm sids x => Sys2Proof.Machine.execMxq f p rm sids x s
  | .mxdq f p x => Sys2Proof.Machine.execMxdq f p x s
  | .vshfl m x => Sys2Proof.Machine.execVshfl m x s
  | .vred o t segp x => Sys2Proof.Machine.execVred o t segp x s
  | .vscan o t segp exc x => Sys2Proof.Machine.execVscan o t segp exc x s
  | .vballot g sd p => Sys2Proof.Machine.execVballot g sd p s
  | .vmerge t dh org x => Sys2Proof.Machine.execVmerge t dh org x s
  | .vid lane g d => Sys2Proof.Machine.execVid lane g d s
  | .xset j mode stp zi sa sb => Sys2Proof.Machine.execXset j mode stp zi sa sb s
  | .xldv g j a => Sys2Proof.Machine.execXldv g j a s
  | .xgetv g d j desc => Sys2Proof.Machine.execXgetv g d j desc s
  | .rgrow t => Sys2Proof.Machine.execRgrow t s
  | .rshrink t => Sys2Proof.Machine.execRshrink t s
  | .vclmul hi x => Sys2Proof.Machine.execVclmul hi x s
  | .vmad24 uns x => Sys2Proof.Machine.execVmad24 uns x s
  | .ld sz x => Sys2Proof.Machine.execLd sz x s
  | .st sz x => Sys2Proof.Machine.execSt sz x s
  | .atom x => Sys2Proof.Machine.execAtom x s
  | .ldmx x => Sys2Proof.Machine.execLdmx x s
  | .stmx x => Sys2Proof.Machine.execStmx x s
  | .fence o sc => Sys2Proof.Machine.execFence o sc s
  | .prefetchL2 sa sb stok tsp => Sys2Proof.Machine.execPrefetchL2 sa sb stok tsp s
  | .twait sd sa tsp => Sys2Proof.Machine.execTwait sd sa tsp s
  | .ifence => Sys2Proof.Machine.execIfence s
  | .copy x => Sys2Proof.Machine.execCopy x s
  | .collLoad x => Sys2Proof.Machine.execCollLoad x s
  | .collRun x => Sys2Proof.Machine.execCollRun x s
  | .mma x => Sys2Proof.Machine.execMma x s
  | .compress sa sb f => Sys2Proof.Machine.execCompress sa sb f s
  | .accz toff nsel => Sys2Proof.Machine.execAccz toff nsel s
  | .accmvOut sa toff nsel df => Sys2Proof.Machine.execAccmvOut sa toff nsel df s
  | .accmvIn sa toff nsel df => Sys2Proof.Machine.execAccmvIn sa toff nsel df s
  | .attn x => Sys2Proof.Machine.execAttn x s
  | .kvwalk x => Sys2Proof.Machine.execKvwalk x s
  | .kvappend x => Sys2Proof.Machine.execKvappend x s
  | .kvcommit x => Sys2Proof.Machine.execKvcommit x s
  | .geoOrient2 x => Sys2Proof.Machine.execGeoOrient2 x s
  | .geoOrient3 x => Sys2Proof.Machine.execGeoOrient3 x s
  | .geoIncirc x => Sys2Proof.Machine.execGeoIncirc x s
  | .geoInsphr x => Sys2Proof.Machine.execGeoInsphr x s
  | .geoSegx x => Sys2Proof.Machine.execGeoSegx x s
  | .launch sa sb cfirst ccnt => Sys2Proof.Machine.execLaunch sa sb cfirst ccnt s
  | .waitsem c sa sb => Sys2Proof.Machine.execWaitsem c sa sb s
  | .signalsemSet sa sb => Sys2Proof.Machine.execSignalsemSet sa sb s
  | .signalsemAdd sa sb => Sys2Proof.Machine.execSignalsemAdd sa sb s
  | .event irq sa sb => Sys2Proof.Machine.execEvent irq sa sb s
  | .csrr sd num => Sys2Proof.Machine.execCsrr sd num s
  | .csrw ss num => Sys2Proof.Machine.execCsrw ss num s
  | .featq sd f => Sys2Proof.Machine.execFeatq sd f s
  | .tlbinvPage sa sb => Sys2Proof.Machine.execTlbinvPage sa sb s
  | .tlbinvCtx => Sys2Proof.Machine.execTlbinvCtx s
  | .tlbinvAll => Sys2Proof.Machine.execTlbinvAll s
  | .instructionFetch who lane => Sys2Proof.Machine.execInstructionFetch who lane s
  | .asyncTrapDelivery who lane => Sys2Proof.Machine.execAsyncTrapDelivery who lane s
  | .reformFile who => Sys2Proof.Machine.execReformFile who s
  | .reformBinAge core bin => Sys2Proof.Machine.execReformBinAge core bin s
  | .reformBinIssue core => Sys2Proof.Machine.execReformBinIssue core s
  | .blockGrant core => Sys2Proof.Machine.execBlockGrant core s
  | .growthDeadlock core => Sys2Proof.Machine.execGrowthDeadlock core s
  | .readmission core => Sys2Proof.Machine.execReadmission core s
  | .blockFill who blk => Sys2Proof.Machine.execBlockFill who blk s
  | .blockWriteback core idx => Sys2Proof.Machine.execBlockWriteback core idx s
  | .warpRetire who => Sys2Proof.Machine.execWarpRetire who s
  | .gridRetire grid => Sys2Proof.Machine.execGridRetire grid s
  | .launchDescriptorRead op => Sys2Proof.Machine.execLaunchDescriptorRead op s
  | .launchAccept op => Sys2Proof.Machine.execLaunchAccept op s
  | .pageWalk req => Sys2Proof.Machine.execPageWalk req s
  | .faultRecordPost cluster => Sys2Proof.Machine.execFaultRecordPost cluster s
  | .frespReplay cluster fid => Sys2Proof.Machine.execFrespReplay cluster fid s
  | .frespNomap cluster fid => Sys2Proof.Machine.execFrespNomap cluster fid s
  | .frespProt cluster fid => Sys2Proof.Machine.execFrespProt cluster fid s
  | .fqtailWrite cluster v => Sys2Proof.Machine.execFqtailWrite cluster v s
  | .evqtailWrite stream v => Sys2Proof.Machine.execEvqtailWrite stream v s
  | .errtailWrite cluster v => Sys2Proof.Machine.execErrtailWrite cluster v s
  | .tlbInvalidationComplete inv => Sys2Proof.Machine.execTlbInvalidationComplete inv s
  | .ldComplete op => Sys2Proof.Machine.execLdComplete op s
  | .storePerformed op => Sys2Proof.Machine.execStorePerformed op s
  | .atomComplete op => Sys2Proof.Machine.execAtomComplete op s
  | .l1Fill core idx => Sys2Proof.Machine.execL1Fill core idx s
  | .heldInvalidate core => Sys2Proof.Machine.execHeldInvalidate core s
  | .baseDieRequest e => Sys2Proof.Machine.execBaseDieRequest e s
  | .hostMemRequest r => Sys2Proof.Machine.execHostMemRequest r s
  | .ualRemoteRequest r => Sys2Proof.Machine.execUalRemoteRequest r s
  | .ualRequestTimeout op => Sys2Proof.Machine.execUalRequestTimeout op s
  | .ualPortDown port => Sys2Proof.Machine.execUalPortDown port s
  | .ualPortUp port => Sys2Proof.Machine.execUalPortUp port s
  | .cxcmdLoadslot => Sys2Proof.Machine.execCxcmdLoadslot s
  | .slotGenerationInstall slot => Sys2Proof.Machine.execSlotGenerationInstall slot s
  | .cxcmdRecode => Sys2Proof.Machine.execCxcmdRecode s
  | .cxcmdDump => Sys2Proof.Machine.execCxcmdDump s
  | .copyComplete op => Sys2Proof.Machine.execCopyComplete op s
  | .prefetchComplete op => Sys2Proof.Machine.execPrefetchComplete op s
  | .twaitPoll who => Sys2Proof.Machine.execTwaitPoll who s
  | .matrixOpComplete op => Sys2Proof.Machine.execMatrixOpComplete op s
  | .attnComplete op => Sys2Proof.Machine.execAttnComplete op s
  | .emulatedOpComplete cluster => Sys2Proof.Machine.execEmulatedOpComplete cluster s
  | .kvWordComplete op => Sys2Proof.Machine.execKvWordComplete op s
  | .kvcommitWrite op => Sys2Proof.Machine.execKvcommitWrite op s
  | .kvLockRetry op => Sys2Proof.Machine.execKvLockRetry op s
  | .geoStageA core => Sys2Proof.Machine.execGeoStageA core s
  | .geoExactLane core op lane => Sys2Proof.Machine.execGeoExactLane core op lane s
  | .geoComplete op => Sys2Proof.Machine.execGeoComplete op s
  | .collLoadExecute slot => Sys2Proof.Machine.execCollLoadExecute slot s
  | .collRunStart slot => Sys2Proof.Machine.execCollRunStart slot s
  | .creditArrival slot src stp chunk seq => Sys2Proof.Machine.execCreditArrival slot src stp chunk seq s
  | .chunkArrival slot src stp chunk seq bitmap lines => Sys2Proof.Machine.execChunkArrival slot src stp chunk seq bitmap lines s
  | .chunkAckArrival slot src stp chunk seq => Sys2Proof.Machine.execChunkAckArrival slot src stp chunk seq s
  | .datapathPiece core => Sys2Proof.Machine.execDatapathPiece core s
  | .collSignal slot node => Sys2Proof.Machine.execCollSignal slot node s
  | .collWaitPoll slot node => Sys2Proof.Machine.execCollWaitPoll slot node s
  | .chunkRetransmit slot node => Sys2Proof.Machine.execChunkRetransmit slot node s
  | .chunkAbandon slot node => Sys2Proof.Machine.execChunkAbandon slot node s
  | .collRunTimeout slot => Sys2Proof.Machine.execCollRunTimeout slot s
  | .dispatchStep cluster => Sys2Proof.Machine.execDispatchStep cluster s
  | .dispatchReserveTimeout cluster => Sys2Proof.Machine.execDispatchReserveTimeout cluster s
  | .partitionChange core => Sys2Proof.Machine.execPartitionChange core s
  | .preemptBoundary wg => Sys2Proof.Machine.execPreemptBoundary wg s
  | .preemptHandover wg => Sys2Proof.Machine.execPreemptHandover wg s
  | .saveRecordComplete wg => Sys2Proof.Machine.execSaveRecordComplete wg s
  | .warpBump who => Sys2Proof.Machine.execWarpBump who s
  | .strctlGo stream => Sys2Proof.Machine.execStrctlGo stream s
  | .strctlHalt stream => Sys2Proof.Machine.execStrctlHalt stream s
  | .waitsemPoll stream => Sys2Proof.Machine.execWaitsemPoll stream s
  | .eventRecordPost stream => Sys2Proof.Machine.execEventRecordPost stream s
  | .tlbireqPage => Sys2Proof.Machine.execTlbireqPage s
  | .tlbireqContext => Sys2Proof.Machine.execTlbireqContext s
  | .tlbireqAll => Sys2Proof.Machine.execTlbireqAll s
  | .ctxcmdSuspend => Sys2Proof.Machine.execCtxcmdSuspend s
  | .ctxcmdResume => Sys2Proof.Machine.execCtxcmdResume s
  | .ctxcmdEnd => Sys2Proof.Machine.execCtxcmdEnd s
  | .attcmdQuote => Sys2Proof.Machine.execAttcmdQuote s
  | .attcmdDump => Sys2Proof.Machine.execAttcmdDump s
  | .bootctlGo => Sys2Proof.Machine.execBootctlGo s
  | .bootctlWarm => Sys2Proof.Machine.execBootctlWarm s
  | .coldReset => Sys2Proof.Machine.execColdReset s
  | .warmWritebackDone failed => Sys2Proof.Machine.execWarmWritebackDone failed s
  | .bootSelftestDone ok => Sys2Proof.Machine.execBootSelftestDone ok s
  | .imageVerified => Sys2Proof.Machine.execImageVerified s
  | .bootZeroingDone => Sys2Proof.Machine.execBootZeroingDone s
  | .bootReady => Sys2Proof.Machine.execBootReady s
  | .powerWindow avg junction => Sys2Proof.Machine.execPowerWindow avg junction s
  | .thermalTrip => Sys2Proof.Machine.execThermalTrip s
  | .registerWrite off n v => Sys2Proof.Machine.execRegisterWrite off n v s
  | .cxlCacheSnoop line data => Sys2Proof.Machine.execCxlCacheSnoop line data s
  | .linkLevelRetry port => Sys2Proof.Machine.execLinkLevelRetry port s

end Sys2Proof.Machine
end

