-- ==== Sys2Proof/Machine/Pending.lean ====
section
/-! DEFINITION. The events that the module may take on its own account, and how the steps share the clock between them and the
issue of words. Which comes first among independent units is the model's choice (log entry 1). -/

namespace Sys2Proof.Machine

/-- The event by which a lane memory operation goes on. -/
def mopEvent (o : MemOp) : List Instr :=
  match o.instr with
  | .ld _ _ | .ldmx _ => [.ldComplete o.id]
  | .st _ _ | .stmx _ => [.storePerformed o.id]
  | .atom _ => [.atomComplete o.id]
  | _ => []

/-- The events by which an engine operation goes on. -/
def eopEvent (o : EngOp) : List Instr :=
  match o.instr with
  | .copy _ => [.copyComplete o.id]
  | .prefetchL2 _ _ _ _ => [.prefetchComplete o.id]
  | .mma _ | .compress _ _ _ | .accz _ _ | .accmvOut _ _ _ _ | .accmvIn _ _ _ _ => [.matrixOpComplete o.id]
  | .attn _ => [.attnComplete o.id]
  | .kvwalk _ | .kvappend _ => [.kvWordComplete o.id, .kvLockRetry o.id]
  | .kvcommit _ => [.kvcommitWrite o.id, .kvLockRetry o.id]
  | .geoOrient2 _ | .geoOrient3 _ | .geoIncirc _ | .geoInsphr _ | .geoSegx _ =>
    (lanesOf o.mask).filterMap (fun L => if mhas o.res L then none else some (.geoExactLane o.core o.id L)) ++ [.geoComplete o.id]
  | _ => []

/-- Events of a core. -/
def State.coreEvents (s : State) (k : Nat) : List Instr :=
  let c := s.core k
  let fills := (List.range c.fills.length).map (fun i => Instr.l1Fill k i)
  let wbs := (List.range c.wbs.length).map (fun i => Instr.blockWriteback k i)
  let bins := c.bins.map (fun b => Instr.reformBinAge k b.id)
  fills ++ (if c.heldInv.isEmpty then [] else [.heldInvalidate k]) ++ wbs ++ bins ++ (if c.bins.isEmpty then [] else [.reformBinIssue k]) ++
    (if (s.blockReqs k).isEmpty then [] else [.blockGrant k, .readmission k, .growthDeadlock k]) ++
    (if c.geo.isEmpty then [] else [.geoStageA k]) ++
    (if c.pieces.isEmpty && c.running.isNone && s.cslots.isEmpty then [] else [.datapathPiece k])

/-- Events of a resident warp or a stream's thread. -/
def State.threadEvents (s : State) (who : Nat) : List Instr :=
  let w := s.warp who
  let c := s.ctl who
  (w.blocks.filterMap (fun e => if e.2.absent && e.2.filling then some (Instr.blockFill who e.1) else none)) ++
  (if c.waits.any (fun x => match x.kind with | .twait _ _ _ => true | _ => false) then [.twaitPoll who] else []) ++
  (if c.waits.any (fun x => match x.kind with | .reform _ _ _ => true | _ => false) then [.reformFile who] else []) ++
  (if isStream who then [] else (if w.live = 0 then [.warpRetire who] else []) ++ (if c.bumped then [] else [.warpBump who]))

def State.streamEvents (s : State) (j : Nat) : List Instr :=
  let c := s.ctl (streamBase + j)
  (if c.waits.any (fun x => match x.kind with | .sem _ _ _ => true | _ => false) then [.waitsemPoll j] else []) ++
  (if !(s.stream j).held.isEmpty || c.waits.any (fun x => match x.kind with | .event _ _ _ => true | _ => false) then [.eventRecordPost j] else [])

/-- Clusters with grids in a queue, or with a workgroup that waits for the dispatcher. -/
def State.busyClusters (s : State) : List Nat :=
  ((mvals s.grids).flatMap Grid.targets ++ (mvals s.wgs).map (fun (w : Wg) => w.core / 8)).eraseDups

def clusterEvents (c : Nat) : List Instr :=
  .dispatchStep c :: .dispatchReserveTimeout c :: (coresOf c).map (fun k => Instr.partitionChange k)

def wgEvents (w : Wg) : List Instr :=
  match w.st with
  | .leaving => [.preemptBoundary w.id, .preemptHandover w.id]
  | .saving => [.saveRecordComplete w.id]
  | _ => []

def slotEvents (e : Nat × CSlot) : List Instr :=
  let n : Fin 64 := ⟨e.1 % 64, Nat.mod_lt _ (by decide)⟩
  (if e.2.loads.isEmpty then [] else [.collLoadExecute n]) ++ (if e.2.queue.isEmpty then [] else [.collRunStart n]) ++
  (if e.2.runOp.isNone then [] else .collRunTimeout n :: e.2.run.zipIdx.flatMap (fun x =>
    if x.1.done then [] else [.collSignal n x.2, .collWaitPoll n x.2, .chunkRetransmit n x.2, .chunkAbandon n x.2]))

/-- Bring-up goes on by itself where it needs nothing from outside; a self-test's result is an open value. -/
def State.bootEvents (s : State) : List Instr :=
  match s.regs.bootStep with
  | 0 => [.warmWritebackDone []]
  | 1 => [.bootSelftestDone (decide (Config.freePick s.fresh 2 % 2 = 0))]
  | 3 => [.imageVerified]
  | 4 => [.bootZeroingDone]
  | 5 => [.bootReady]
  | _ => []

/-- Commands of the host that are under way. -/
def State.commandEvents (s : State) : List Instr :=
  let r := s.regs
  (match r.ctxBusy with
   | some (1, _) => [.ctxcmdSuspend] | some (2, _) => [.ctxcmdResume] | some _ => [.ctxcmdEnd] | none => []) ++
  (match r.cxCmd with
   | some (1, _, _, _) => [.cxcmdLoadslot] | some (2, _, _, _) => [.cxcmdRecode] | some (3, _, _, _) => [.cxcmdDump] | _ => []) ++
  (match r.attBusy with
   | some 1 => [.attcmdQuote] | some 2 => [.attcmdDump] | _ => []) ++
  s.mem.slots.filterMap (fun e => if e.2.oldGen.isSome || e.2.pending.isSome then some (.slotGenerationInstall ⟨e.1 % 64, Nat.mod_lt _ (by decide)⟩) else none) ++
  (if s.mem.bdq.isEmpty then [] else [.baseDieRequest .finish])

/-- Firmware routines as events of their own, where no stream of the cluster can issue; else they go before a stream's packet. -/
def State.firmwareEvents (s : State) : List Instr :=
  let cs := (s.clusters.map Prod.fst ++ (mvals s.grids).map s.gridHome ++ (mvals s.eops).map (fun o => clusterOf o.who)).eraseDups
  (cs.filter (fun c => s.firmwareMay c && (s.streamTurn c).all s.stuck)).flatMap s.firmwareJobs

/-- Every event the module may take now by itself. -/
def State.pending (s : State) : List Instr :=
  (mvals s.mops).flatMap (fun o => mopEvent o ++ (if s.opRemote o && !s.linkUp then [.ualRequestTimeout o.id] else [])) ++
  (mvals s.eops).flatMap eopEvent ++
  ((mvals s.treqs).filter (fun t => t.st == .need || t.st == .wait)).map (fun t => Instr.pageWalk t.id) ++
  ((s.cores.map Prod.fst) ++ (s.warps.map Prod.fst).filterMap (fun w => if w < streamBase then some (coreOf w) else none)).eraseDups.flatMap s.coreEvents ++
  ((s.ctls.map Prod.fst).filter (fun w => !isSaved w)).flatMap s.threadEvents ++
  (s.streams.map Prod.fst).flatMap s.streamEvents ++
  s.firmwareEvents ++
  s.busyClusters.flatMap clusterEvents ++
  (mvals s.wgs).flatMap wgEvents ++
  s.invals.map (fun x => Instr.tlbInvalidationComplete x.id) ++
  s.cslots.flatMap slotEvents ++ s.bootEvents ++ s.commandEvents

/-- The event whose turn it is: the list turns with the clock. -/
def State.nextEvent (s : State) : Option Instr := s.pending[s.clock / 2 % s.pending.length]?

/-! ### What a step is -/

/-- The clock goes on (R245): the codes find the upsets the step detects, and bins become ready by age (R86, R221). -/
def State.tick (s : State) : State :=
  ({ s with clock := s.clock + 1 + s.delays.headD 0, delays := s.delays.drop 1, blocked := false } : State).detect.ageBins

/-- Steps that begin at an odd clock take an event of the module first; the others, and one whose turn is forced, a word. -/
def State.eventFirst (s : State) : Bool := s.clock % 2 == 1 && s.turns.isEmpty

/-- The word that goes on with an open group (R249), or the paths that may issue, in order. -/
def State.tries (s : State) : List (Nat × Nat) :=
  match s.cur with
  | some c => [(c.who, c.lane)]
  | none => s.candidates

/-- What is left when a word could not issue: the fills and pages it asked for. A group that was open is held for its path, and
other words and events go on meanwhile. -/
def State.unblock (s : State) (who : Nat) (t : State) : State :=
  let u : State := { t with blocked := false, cur := none }
  match s.cur.bind (fun c => c.group.map (fun g => (c.lane, g))) with
  | some e => u.holdGroup who e.1 e.2
  | none => if (s.ctl who).heldGroup.isEmpty then u else u.modCtl who (fun c => { c with heldGroup := (s.ctl who).heldGroup })

/-- A forced turn is used up by an issue. -/
def State.useTurn (s : State) : State := { s with turns := s.turns.drop 1 }

/-! ### Placing a word for the next step -/

/-- A context descriptor with every feature of the device in its floor (R416). -/
def fullDescr : BitVec 512 :=
  Config.feat0 ++ Config.feat1 ++ (0#64) ++ (0#256) ++ (0x8000000000000000#64)

/-- A packet that holds one instruction in slot 0, flag 0 for it, and NOPs after it. -/
def packetFor (a b : W32) : W128 := (0#32) ++ b ++ a ++ (0x0000F000#32)

def placedPc : W64 := 0x1000#64

def placedGrid : Grid := { id := 0, placed := [(0, 1)], descr := { minb := 32, thr := 128 } }

def placedWg (core : Nat) : Wg := { id := 0, core := core }

/-- The window of a placed warp: 32 blocks. -/
def placedBlocks : SMap Block := (List.range 32).map (fun b => (b, freshBlock (b % 2) (b / 2)))

def placedWarp (stream : Bool) : Warp :=
  if stream then { curb := 8, exited := ~~~1#128, paths := [{ mask := 1, pc := placedPc }] }
  else { prio := 31, curb := 32, minb := 32, blocks := placedBlocks, paths := [{ mask := fullMask, pc := placedPc }] }

/-- Put the words `a`, `b` where the next step takes its instruction: in the packet that a thread holds and enters next. A word
that only a control core executes goes to stream 0 of cluster 0, every other to warp slot 0 of core 0. -/
def State.placeWord (s : State) (a b : W32) (stream : Bool) : State :=
  let who := if stream then streamBase else 0
  { s with
    cur := none, blocked := false, agenda := [], turns := [(who, 0)], ctxs := mset s.ctxs 0 fullDescr
    warps := mset s.warps who (placedWarp stream)
    ctls := mset s.ctls who { seated := true, bumped := true, fetched := [⟨placedPc.toNat, packetFor a b, 0⟩] }
    streams := if stream then mset s.streams 0 { mgetD s.streams 0 {} with state := 1, haltReq := false, suspended := false } else s.streams
    grids := if stream then s.grids else mset s.grids 0 placedGrid
    wgs := if stream then s.wgs else mset s.wgs 0 (placedWg 0)
    nextId := max s.nextId 1 }

end Sys2Proof.Machine
end

