-- ==== Sys2Proof/Machine/Step.lean ====
section
/-! DEFINITION. One step of the machine: the clock goes on, and one word issues or one event happens. -/

namespace Sys2Proof.Machine

/-- The event whose turn it is, if there is one. -/
def stepEvent (s : State) : Host.Outcome State Fault Refusal :=
  match s.nextEvent with
  | some i => exec i (s.countFirmware i)
  | none => .next s

/-- A word that cannot issue now, and what it has asked for. -/
def execWaits (i : Instr) (s : State) : Option State :=
  match exec i s with
  | .next u => if u.blocked then some u else none
  | _ => none

/-- Try the paths in order: the first whose word issues, traps or needs a fetch makes the step; with none, an event does. A group
waits until each of its members can issue (R248). -/
def stepWord : List (Nat × Nat) → State → Host.Outcome State Fault Refusal
  | [], s => stepEvent s
  | (who, lane) :: r, s =>
    match s.attempt who lane with
    | .wait t => stepWord r (s.unblock who t)
    | .done t => .next t.useTurn
    | .run i t =>
      match (s.laterMembers t who lane).findSome? (fun x => execWaits x.1 x.2) with
      | some u => stepWord r (s.unblock who u)
      | none =>
        match exec i t with
        | .next u => if u.blocked then stepWord r (s.unblock who u) else .next u.useTurn
        | o => o

/-- An open group goes on; else the agenda's next event, else a word or an event by turns (log entry 1). -/
def step (s : State) : Host.Outcome State Fault Refusal :=
  let t := s.tick
  if s.cur.isSome then stepWord t.tries t
  else match s.agenda with
    | i :: r => exec i { t with agenda := r }
    | [] => if s.eventFirst then stepEvent t else stepWord t.tries t

/-- `s` with an instruction stored where `step` takes its next one; the words are numbered as the opcode table numbers them. -/
def State.withFetchWord (s : State) (nbits w : Nat) : State :=
  let v := w % 2 ^ nbits
  let a := BitVec.ofNat 32 v
  let b := BitVec.ofNat 32 (v / 2 ^ 32)
  s.placeWord a b ((decodeTableWord nbits w).elim false onlyControl)

end Sys2Proof.Machine
end

