-- ==== Sys2Proof/Safety.lean ====
section
/-! DEFINITION. What counts as a safe run, and the words claims are made in: when a word may run, and what it leaves alone. -/

namespace Sys2Proof

open Machine

/-- States a run passes through from `s`. -/
inductive Reach (s : State) : State → Prop
  | start : Reach s s
  | more {t u : State} : Reach s t → Machine.step t = .next u → Reach s u

/-- A run from `s` never stops. -/
def SafeRun (s : State) : Prop := ∀ t, Reach s t → ∃ u, Machine.step t = .next u

/-- The byte memories of the state are in canonical form, and workgroups are listed under their own numbers. -/
def MemWf (s : State) : Prop :=
  Memory.wf s.mem.cells = true ∧ ∀ e ∈ s.wgs, e.2.id = e.1 ∧ Memory.wf e.2.sp = true ∧ Memory.wf e.2.ac = true

namespace Machine

/-! ### When a word may run -/

/-- `i` is the word at its issue in `s`, its guard and operands as the Issue holds them, and every check and interlock that
comes before its body lets it run: it is legal where it stands (R254 to R256, R269, R280), no operand is out of bounds (R50,
R321), no interlock, absent block or full flag holds it (R66, R237, R295), no source is poisoned (R40), it has the flag it
needs (R237), and its own checks `pre` and `align` pass. -/
def State.readyWith (s : State) (i : Instr) (pre align : Issue → State → Option (Cause × Info)) : Option Issue :=
  (s.issueOf i).bind fun is =>
    if !s.illegalHere is && (pre is s).isNone && (s.boundTrap is).isNone && !s.held is && (s.issueTrap is align).isNone
    then some is else none

def State.ready (s : State) (i : Instr) : Option Issue := s.readyWith i noCheck noCheck

/-- No chained group is open: the word issues alone (R248, R249). -/
def State.alone (s : State) : Bool := (s.cur.bind Cur.group).isNone

/-! ### What a word leaves alone -/

/-- A control part without the issue bookkeeping: the clock, lane and yield of the last issue, the bump, and what a path waited to
be the next to do (R209, R434, R435, R117). -/
def WarpCtl.unissued (c : WarpCtl) : WarpCtl :=
  { c with lastIssue := 0, lastLane := 0, bumped := false, yld := false, stall := none, entering := none }

/-- The outstanding operations, without the note that a higher slot of their group has written a destination (R249). -/
def State.mopsPlain (s : State) : List (Nat × MemOp) := s.mops.map (fun e => (e.1, { e.2 with outdone := [] }))

def State.eopsPlain (s : State) : List (Nat × EngOp) := s.eops.map (fun e => (e.1, { e.2 with outdone := [] }))

/-- Memory, the modules' registers and queues, and every other thread are as before, and so are the outstanding operations but for
that note; of the issuing thread's control part only the issue bookkeeping may change. -/
structure WordFrame (s t : State) (who : Nat) : Prop where
  world : { t with warps := [], ctls := [], mops := [], eops := [], cur := none } =
    { s with warps := [], ctls := [], mops := [], eops := [], cur := none }
  mops : t.mopsPlain = s.mopsPlain
  eops : t.eopsPlain = s.eopsPlain
  others : ∀ n, n ≠ who → t.warp n = s.warp n ∧ t.ctl n = s.ctl n
  ctl : (t.ctl who).unissued = (s.ctl who).unissued

/-- The loop levels after the end of packet `pkt`, and where the path goes on (R226). -/
def levelsAtEnd (l0 l1 : LoopLvl) (pkt : W64) : LoopLvl × LoopLvl × W64 :=
  let at0 := l0.count ≠ 0 ∧ l0.stop = pkt
  let at1 := l1.count ≠ 0 ∧ l1.stop = pkt
  if at1 ∧ at0 then
    if 1 < l1.count.toNat then (l0, { l1 with count := l1.count - 1 }, l1.start)
    else if 1 < l0.count.toNat then ({ l0 with count := l0.count - 1 }, { l1 with count := l1.reload }, l0.start)
    else ({ l0 with count := 0 }, { l1 with count := 0 }, pkt + 16)
  else if at0 then
    if 1 < l0.count.toNat then ({ l0 with count := l0.count - 1 }, l1, l0.start) else ({ l0 with count := 0 }, l1, pkt + 16)
  else if at1 then
    if 1 < l1.count.toNat then (l0, { l1 with count := l1.count - 1 }, l1.start) else (l0, { l1 with count := 0 }, pkt + 16)
  else (l0, l1, pkt + 16)

/-- A warp without its registers of general use, its flags and where its paths stand: what register words never change. -/
def Warp.core (w : Warp) : Warp :=
  { w with s := [], p := [], blocks := [], x := [], arstat := 0, paths := [], l0 := {}, l1 := {} }

/-- Outside a chained group the word leaves the index registers as R322 moves them for the operands it names (and, with no
such operand, as they were), ARSTAT gains the flags `f` (R278), and the outstanding operations are as before; in a group the first
two happen at its end (R249). -/
def EndsAlone (i : Instr) (s t : State) (is : Issue) (f : W32) : Prop :=
  s.alone = true → (t.warp is.who).arstat = (s.warp is.who).arstat ||| f ∧
    (t.warp is.who).x = (applyDeltas (s.warp is.who) (xDeltas is.w (vuses i) is.mask)).x ∧
    ((∀ j, namesX (vuses i) j = false) → (t.warp is.who).x = (s.warp is.who).x) ∧ t.mops = s.mops ∧ t.eops = s.eops

/-- The word answers a next state in which scalar register `d` holds `v`; every other register is as before. -/
def ScalarDone (i : Instr) (s : State) (is : Issue) (d : Nat) (v : W64) : Prop :=
  ∃ t, Machine.exec i s = .next t ∧ (t.warp is.who).sreg d = v ∧
    (∀ n, n ≠ d → (t.warp is.who).sreg n = (s.warp is.who).sreg n) ∧
    (t.warp is.who).p = (s.warp is.who).p ∧ (t.warp is.who).blocks = (s.warp is.who).blocks ∧
    (t.warp is.who).core = (s.warp is.who).core ∧
    EndsAlone i s t is 0 ∧
    WordFrame s t is.who

/-- Lane L of a result of one register or of a pair, low half first (R13). -/
def Warp.holds (w : Warp) (r n L v : Nat) : Prop :=
  w.reg r L = ⟨BitVec.ofNat 32 v, false⟩ ∧ (n = 2 → w.reg (r + 1) L = ⟨BitVec.ofNat 32 (v / 2 ^ 32), false⟩)

/-- The word answers a next state in which, in every issuing lane L, the register or pair that operand `u` resolves to holds
`v L`; every other lane of every register is as before, and ARSTAT gains the flags `f` (R278). -/
def VectorDone (i : Instr) (s : State) (is : Issue) (u : VUse) (v : Nat → Nat) (f : W32) : Prop :=
  ∃ t, Machine.exec i s = .next t ∧
    (∀ L ∈ lanesOf is.mask, (t.warp is.who).holds (regOf is.w (vuses i) u L) u.n L (v L)) ∧
    (∀ r L, L < 128 → (L ∈ lanesOf is.mask → ∀ k, k < u.n → r ≠ regOf is.w (vuses i) u L + k) →
      (t.warp is.who).reg r L = (s.warp is.who).reg r L) ∧
    (t.warp is.who).s = (s.warp is.who).s ∧ (t.warp is.who).p = (s.warp is.who).p ∧
    (t.warp is.who).core = (s.warp is.who).core ∧
    EndsAlone i s t is f ∧
    WordFrame s t is.who

/-- The word answers a next state in which predicate `pd` holds `b L` in every issuing lane L and is as before in the others;
every other register is as before, and ARSTAT gains the flags `f`. -/
def PredDone (i : Instr) (s : State) (is : Issue) (pd : Nat) (b : Nat → Bool) (f : W32) : Prop :=
  ∃ t, Machine.exec i s = .next t ∧
    (∀ L, L < 128 → ((t.warp is.who).pred pd).getLsbD L =
      if is.mask.getLsbD L then b L else ((s.warp is.who).pred pd).getLsbD L) ∧
    (∀ n, n ≠ pd → (t.warp is.who).pred n = (s.warp is.who).pred n) ∧
    (t.warp is.who).s = (s.warp is.who).s ∧ (t.warp is.who).blocks = (s.warp is.who).blocks ∧
    (t.warp is.who).core = (s.warp is.who).core ∧
    EndsAlone i s t is f ∧
    WordFrame s t is.who

/-- Every register of the issuing warp is as before, its loop levels and its paths aside. -/
structure RegFrame (i : Instr) (s t : State) (is : Issue) : Prop where
  sregs : (t.warp is.who).s = (s.warp is.who).s
  preds : (t.warp is.who).p = (s.warp is.who).p
  blocks : (t.warp is.who).blocks = (s.warp is.who).blocks
  core : (t.warp is.who).core = (s.warp is.who).core
  ends : EndsAlone i s t is 0
  frame : WordFrame s t is.who

/-- The chained group that the word leaves open behind it, what it has gathered having been applied. -/
def State.keptGroup (s : State) (is : Issue) : List (Nat × Group) :=
  match s.cur with
  | some c => (match c.chain, c.group with
    | true, some g => [(is.lane, { g with incs := [], flags := 0 })]
    | _, _ => [])
  | none => []

/-- The path of the word begins a wait at it: the word has issued, and nothing else changes but the issue bookkeeping. A chained
group that goes on after the word is kept for the path, and what the group has gathered is applied (R249). -/
structure WaitBegins (s t : State) (is : Issue) (k : WaitKind) : Prop where
  world : { t with warps := [], ctls := [], cur := none } = { s with warps := [], ctls := [], cur := none }
  others : ∀ n, n ≠ is.who → t.warp n = s.warp n ∧ t.ctl n = s.ctl n
  regs : { t.warp is.who with x := [], arstat := 0 } = { s.warp is.who with x := [], arstat := 0 }
  alone : s.alone = true → t.warp is.who = s.warp is.who
  kept : (t.ctl is.who).heldGroup = (s.ctl is.who).heldGroup ++ s.keptGroup is
  ctl : { (t.ctl is.who).unissued with heldGroup := [] } =
    { (s.ctl is.who).unissued with waits := (s.ctl is.who).waits ++ [⟨k, is.lane, s.clock, s.nextId⟩], heldGroup := [] }

/-- The registers, the flags but for the word's own, and every other thread are as before; the word's flag has risen by 1. -/
structure Counts (s t : State) (is : Issue) (up : Nat) : Prop where
  sregs : (t.warp is.who).s = (s.warp is.who).s
  preds : (t.warp is.who).p = (s.warp is.who).p
  blocks : (t.warp is.who).blocks = (s.warp is.who).blocks
  flags : ∀ k, (t.warp is.who).flag k = (s.warp is.who).flag k + if is.flag = some k then up else 0
  others : ∀ n, n ≠ is.who → t.warp n = s.warp n ∧ t.ctl n = s.ctl n

/-- The word has started the engine operation `o` (R130, R237): a new one, of this thread and this word. -/
structure Forks (s t : State) (is : Issue) (o : EngOp) : Prop where
  op : mget t.eops o.id = some o
  fresh : o.id = s.nextId
  mine : o.who = is.who ∧ o.instr = is.i ∧ o.pc = is.pc ∧ o.wg = (s.warp is.who).wg ∧ o.mask = is.mask
  flag : o.flags = is.flag.elim [] (fun f => [(is.who, f)])
  counts : Counts s t is 1

/-- The word has started the lane memory operation `o` (R18, R82, R117, R237): a new one, of this thread, with the address
`ea L` in every issuing lane L; its stores count as unacknowledged. Where every region entry it reads is already held, memory is as
before. -/
structure MemBegins (s t : State) (is : Issue) (ea : Nat → Int) (o : MemOp) : Prop where
  op : mget t.mops o.id = some o
  fresh : s.nextId ≤ o.id
  mine : o.who = is.who ∧ o.instr = is.i ∧ o.pc = is.pc ∧ o.mask = is.mask ∧ o.flag = is.flag ∧ o.started = false
  addr : ∀ L ∈ lanesOf is.mask, mget o.ea L = some (ea L)
  unacked : (t.ctl is.who).unacked = (s.ctl is.who).unacked + storeCost is.i (is.over ea)
  memory : s.noteAll is.who is.ctx is.i (is.over ea) (reqOf is.who false is.ctx is.pc) = s → t.mem = s.mem
  stores : t.wgs = s.wgs
  counts : Counts s t is 1

/-! ### Bytes of memory and where operations land -/

def Place.loc : Place → Option Loc
  | .phys pa _ => some (.phys pa)
  | .sp g o => some (.sp g o)
  | .ac g o => some (.ac g o)
  | _ => none

/-- Which byte of the `n` bytes at `l` the location `m` is, if any. -/
def State.byteIn (s : State) (l : Loc) (n : Nat) (m : Loc) : Option Nat :=
  match l, m with
  | .phys a, .phys b => let c := s.normPa b
                        if a ≤ c ∧ c < a + n then some (c - a) else none
  | .sp g a, .sp h b => if g = h ∧ a ≤ b ∧ b < a + n then some (b - a) else none
  | .ac g a, .ac h b => if g = h ∧ a ≤ b ∧ b < a + n then some (b - a) else none
  | _, _ => none

/-- The bytes are at hand: sectors of this module or of the host that the L2 holds, or a workgroup's store. -/
def State.atHand (s : State) (l : Loc) (n : Nat) : Bool :=
  match l with
  | .phys a => !isWindow a && (sectorsOf a n).all s.mem.inL2
  | .sp g _ | .ac g _ => mhas s.wgs g

/-- What a lane of a load reads where nothing has to be fetched for it (R79, R80, R88, R93, R328, R334), with its poison; an
MX lane reads its element, and above it the byte of the side band. A lane that violates reads 0, poisoned (R39, R40). -/
def State.laneReads (s : State) (o : MemOp) (L : Nat) (p : Place) : Option (Nat × Bool) :=
  let n := accBytes o.instr
  let off := low64 (mgetD o.ea L 0) % 128
  let f := mxOf o.instr
  let here := fun (l : Loc) =>
    if !s.atHand l n then none
    else if isMx o.instr then
      some (mxElement f (leWord 1024 (s.locRead l 128)) ((s.locSide l).getD 0) off L,
        s.locSidePoison l || (mxSectors f off).any (fun k => s.locPoison (l.add (32 * k)) 1))
    else some (leNat (s.locRead l n), s.locPoison l n)
  match p with
  | .bad _ => some (0, true)
  | .mmio a => some ((s.mmioRead a n).getD 0, false)
  | .phys a leaf =>
    if !viaL1 o leaf then here (.phys a)
    else if isWindow a then none
    else if isMx o.instr then (s.l1ReadLine o.core (a / 128)).map (fun e => (mxElement f e.1 e.2 off L, false))
    else (s.l1Read o.core a n).map (fun b => (leNat b, false))
  | .sp g a => here (.sp g a)
  | .ac g a => here (.ac g a)
  | _ => none

/-- The byte that the lanes of a store's unit `k` leave at `m`: that of the highest lane that covers it (R134). -/
def State.unitByte (s : State) (o : MemOp) (ps : SMap Place) (k : Nat × Nat) (m : Loc) : Option Byte :=
  (unitLanes o ps k).reverse.findSome? (fun L =>
    ((mget ps L).bind Place.loc).bind (fun l => (s.byteIn l (accBytes o.instr) m).map (fun i =>
      BitVec.ofNat 8 ((mgetD o.data L 0).toNat / 256 ^ i))))

/-- The first violating lane of an operation's places, with its class. -/
def firstBad (ps : SMap Place) : Option (Nat × VClass) :=
  ps.findSome? (fun e => match e.2 with | .bad c => some (e.1, c) | _ => none)

/-! ### Translation -/

/-- The request's page lies in the region `r`, whose entry is cached (R128). -/
def State.regionAt (s : State) (t : TReq) (r : Region) : Prop :=
  (mget s.regions (64 * t.ctx + t.va / 2 ^ 51 % 64)).bind Region.ofEntry = some r ∧ t.va < 2 ^ 57 ∧ t.va % 2 ^ 51 < 2 ^ r.span

/-- The page bits below those that index level `j`, and the index (R108). -/
def Region.shiftAt (r : Region) (j : Nat) : Nat := pageBits r.pgsz + 9 * (r.levels - 1 - j)

def Region.indexAt (r : Region) (va j : Nat) : Nat :=
  if j = 0 then va % 2 ^ r.span / 2 ^ r.shiftAt j else va / 2 ^ r.shiftAt j % 512

/-- The entry at `pa` is `e`, unpoisoned and in a line the L2 holds. -/
def State.entryAt (s : State) (pa : Nat) (e : W64) : Prop :=
  s.atHand (.phys pa) 8 = true ∧ s.physPoison pa 8 = false ∧ leWord 64 (s.physRead pa 8) = e

/-- A walk of the request reads `e` at `pa`: the walk cache's copy where it may use one, else the table (R113, R115). -/
def State.tableReads (s : State) (t : TReq) (cached : Bool) (pa : Nat) (e : W64) : Prop :=
  match (if cached then (s.cluster t.cluster).walks.find? (fun w => w.ctx == t.ctx && w.pa == pa) else none) with
  | some w => w.entry = e
  | none => s.entryAt pa e

/-- A table entry that leads on (R109). -/
def tableGoesOn (e : W64) : Prop := e.getLsbD 0 = true ∧ bitsOf e 52 12 = 0 ∧ bitsOf e 1 11 = 0 ∧ leafPfn e < devTop

/-- From level `j` of the tree, whose table lies at `tbl`, the walk reads the table entries `es`, each with its address, and then
stands at the entry at `pa`. -/
def State.walkReaches (s : State) (t : TReq) (r : Region) (cached : Bool) : Nat → Nat → List (Nat × W64) → Nat → Prop
  | j, tbl, [], pa => pa = tbl + 8 * r.indexAt t.va j
  | j, tbl, x :: es, pa => j + 1 < r.levels ∧ x.1 = tbl + 8 * r.indexAt t.va j ∧ s.tableReads t cached x.1 x.2 ∧ tableGoesOn x.2 ∧
      s.walkReaches t r cached (j + 1) (leafPfn x.2) es pa

/-- The request's walk goes through the table entries `es` to its leaf at `pa`, which is `e`. -/
def State.leafAt (s : State) (t : TReq) (r : Region) (cached : Bool) (es : List (Nat × W64)) (pa : Nat) (e : W64) : Prop :=
  s.regionAt t r ∧ r.levels = es.length + 1 ∧ s.walkReaches t r cached 0 r.root es pa ∧ s.entryAt pa e

/-- The leaf grants the access at once, or waits for W (R111, R112). -/
def leafGrants (acc : Acc) (e : W64) : Bool :=
  match acc with
  | .fetch => leafX e
  | .store | .engWrite => leafW e
  | .atomic => leafR e && leafW e
  | _ => leafR e

def leafAwaits (acc : Acc) (e : W64) : Bool := accWrites acc && leafWF e && (acc != .atomic || leafR e)

/-- The request waits for a fault of its page in its cluster's queue; one that is new there has this cause, level and entry (R119, R122). -/
def JoinsFault (s u : State) (t : TReq) (cause level pa : Nat) (e : W64) : Prop :=
  ∃ f ∈ (u.cluster t.cluster).faults, f.ctx = t.ctx ∧ f.va = t.va ∧ mget u.treqs t.id = some { t with st := .faulted f.fid, once := true } ∧
    ((∀ g ∈ (s.cluster t.cluster).faults, ¬(g.ctx = t.ctx ∧ g.va = t.va)) →
      f.cause = cause ∧ f.acc = t.acc ∧ f.level = level ∧ f.ptea = pa ∧ f.pte = e ∧ f.posted = false)

/-- What a walk through the table entries `es` that meets the leaf `e` makes of the request (R109 to R112, R115, R116, R119): a fault
without V (cause 1), on a malformed leaf (3) or on a write to a leaf that is W-fault (2); the translation where the leaf grants the
access, with D set in the table by a write, and the table entries kept in the walk cache; else a PROT violation. -/
def WalkAnswers (s u : State) (t : TReq) (r : Region) (es : List (Nat × W64)) (pa : Nat) (e : W64) : Prop :=
  let is := fun (st : TrState) => mget u.treqs t.id = some { t with st := st }
  let faulted := fun (cause : Nat) => JoinsFault s u t cause es.length pa e
  let malformed := leafMalformed r ((s.floor0 t.ctx).getLsbD 13) e
  (e.getLsbD 0 = false → faulted 1) ∧
  (e.getLsbD 0 = true → malformed = true → faulted 3) ∧
  (e.getLsbD 0 = true → malformed = false →
    (leafGrants t.acc e = true → accWrites t.acc = false → is (.ok e) ∧ u.mem = s.mem) ∧
    (leafGrants t.acc e = true → accWrites t.acc = true → is (.ok (e ||| 0x20)) ∧ leWord 64 (u.physRead pa 8) = e ||| 0x20) ∧
    (leafGrants t.acc e = true → (s.cluster t.cluster).walks.length + es.length ≤ Config.walkCacheEntries → (es.map Prod.fst).Nodup →
      ∀ x ∈ es.zipIdx, (⟨t.ctx, t.va / 2 ^ r.shiftAt x.2 * 2 ^ r.shiftAt x.2, x.2, x.1.1, x.1.2⟩ : WalkEntry) ∈ (u.cluster t.cluster).walks) ∧
    (leafGrants t.acc e = false → leafAwaits t.acc e = true → faulted 2) ∧
    (leafGrants t.acc e = false → leafAwaits t.acc e = false → is (.denied .prot)))

/-! ### Engine operations -/

/-- The operation names no token, or its token is at hand and not poisoned. -/
def State.tokenAtHand (s : State) (o : EngOp) : Prop :=
  o.tok = none ∨ ∃ a sp l u, o.tok = some (a, sp) ∧ s.locAt o.wg o.ctx sp a .atomic o.core o.who o.id = (.at_ l, u) ∧
    u.atHand l 16 = true ∧ u.locPoison l 16 = false

/-- The engine operation has ended (R99, R100, R130, R237): it is gone, every flag it holds has fallen by 1, and its token shows
one operation more as done, with its errors (an access that was lost among them, R22, R471), damage and skipped pages. A flag of a warp that is away is in its save record too, so
memory is as it was where no such warp is counted. -/
structure Ended (s t : State) (o : EngOp) : Prop where
  gone : mget t.eops o.id = none
  others : ∀ i, i ≠ o.id → mget t.eops i = mget s.eops i
  flags : ∀ n k, mhas s.warps n = true → (t.warp n).flag k = (s.warp n).flag k - o.flags.count (n, k)
  regs : ∀ n, (t.warp n).s = (s.warp n).s ∧ (t.warp n).p = (s.warp n).p ∧ (t.warp n).blocks = (s.warp n).blocks
  plain : o.tok = none → (∀ f ∈ o.flags, isSaved f.1 = false) → t.mem = s.mem
  token : MemWf s → (∀ f ∈ o.flags, isSaved f.1 = false) → ∀ a sp l u, o.tok = some (a, sp) → s.locAt o.wg o.ctx sp a .atomic o.core o.who o.id = (.at_ l, u) →
    u.atHand l 16 = true → u.locPoison l 16 = false →
    let v : W128 := leWord 128 (u.locRead l 16)
    let v' : W128 := leWord 128 (t.locRead l 16)
    v'.extractLsb' 0 32 = v.extractLsb' 0 32 - 1 ∧ v'.extractLsb' 32 32 = v.extractLsb' 32 32 + 1 ∧
    bitsOf v' 64 16 = min 0xFFFF (bitsOf v 64 16 + o.skip) ∧ v'.getLsbD 80 = (o.err || s.opLost o || v.getLsbD 80) ∧
    v'.getLsbD 81 = (o.dmg || v.getLsbD 81)

/-- What a list entry of KVWALK holds for a position (R404). -/
def Walked.entry : Walked → Nat
  | .page p k _ => p + k
  | _ => 2 ^ 64 - 1

/-- The `n` bytes of scratchpad from `a` on lie in granules of the thread's workgroup `g`. -/
def State.inGranules (s : State) (who g a n : Nat) : Prop :=
  isStream who = false ∧ (s.warp who).wg = g ∧ a + n ≤ 2 ^ 21 ∧
    ∃ w, mget s.wgs g = some w ∧ ∀ i < n, w.spRes (a + i) = .granule

/-- A KVWALK whose list lies in granules of workgroup `g` resolves its positions from the i-th on as `ws`, each in the state that the
entry before it was written to, and `u` is the state after the last entry. None of them sets an EST bit. -/
def State.walksList (s : State) (o : EngOp) (r : KvRec) (lim g : Nat) : Nat → List Walked → State → Prop
  | _, [], u => u = s
  | i, w :: ws, u => ∃ t, s.kvResolve o r ((o.vals.getD 1 0).toNat + i) lim = (.ok w, t) ∧ w ≠ .form ∧ w ≠ .range ∧ MemWf t ∧
      t.inGranules o.who g ((o.vals.getD 2 0).toNat + 8 * i) 8 ∧
      (t.engStore o (.mem (.sp g ((o.vals.getD 2 0).toNat + 8 * i))) (toLe 8 w.entry) []).walksList o r lim g (i + 1) ws u

end Machine

end Sys2Proof
end

