-- ==== Sys2Proof/Certificates/Slice0/Obligations.lean ====
section
/-! DEFINITION. The statements for the provers: what the rules of the spec say the instructions and the machine do, in terms
of `exec`, `step`, the decoder and the state. `s.ready i = some is` says that word i is at its issue in s with nothing holding
it back (Safety.lean); `is` is that issue, its registers as the word reads them in `is.w`. -/

open Sys2Proof Sys2Proof.Machine

/-- R272, R273: each three-operand scalar word of opcodes 0x10 to 0x12 completes with its row of the table in `sd`, on
operands a and b; the other registers, the predicates, the vector registers and, outside a chained group, the index registers
and ARSTAT stay. R273, R275: the one-source and immediate scalar words. SCLZ counts the zeros above the highest 1 bit, 64 for
0; SPOPC counts the 1 bits; SBREV moves bit i to bit 63 − i. -/
def Obligations.ScalarResults : Prop :=
  (∀ (s : State) (is : Issue) (x : S3),
  let a := is.sv s x.sa
  let b := is.sv s x.sb
  let n := b.toNat % 64
  (s.ready (.sadd x) = some is → ScalarDone (.sadd x) s is x.sd.val (BitVec.ofNat 64 (a.toNat + b.toNat))) ∧
  (s.ready (.ssub x) = some is → ScalarDone (.ssub x) s is x.sd.val (BitVec.ofInt 64 (a.toNat - b.toNat))) ∧
  (s.ready (.sand x) = some is → ScalarDone (.sand x) s is x.sd.val (a &&& b)) ∧
  (s.ready (.sor x) = some is → ScalarDone (.sor x) s is x.sd.val (a ||| b)) ∧
  (s.ready (.sxor x) = some is → ScalarDone (.sxor x) s is x.sd.val (a ^^^ b)) ∧
  (s.ready (.sshl x) = some is → ScalarDone (.sshl x) s is x.sd.val (BitVec.ofNat 64 (a.toNat * 2 ^ n))) ∧
  (s.ready (.sshr x) = some is → ScalarDone (.sshr x) s is x.sd.val (BitVec.ofNat 64 (a.toNat / 2 ^ n))) ∧
  (s.ready (.ssra x) = some is → ScalarDone (.ssra x) s is x.sd.val (BitVec.ofInt 64 (a.toInt / 2 ^ n))) ∧
  (s.ready (.smul x) = some is → ScalarDone (.smul x) s is x.sd.val (BitVec.ofNat 64 (a.toNat * b.toNat))) ∧
  (s.ready (.smulh x) = some is → ScalarDone (.smulh x) s is x.sd.val (BitVec.ofInt 64 (a.toInt * b.toInt / 2 ^ 64))) ∧
  (s.ready (.smulhn x) = some is → ScalarDone (.smulhn x) s is x.sd.val (BitVec.ofNat 64 (a.toNat * b.toNat / 2 ^ 64))) ∧
  (s.ready (.smin x) = some is → ScalarDone (.smin x) s is x.sd.val (BitVec.ofInt 64 (min a.toInt b.toInt))) ∧
  (s.ready (.sminn x) = some is → ScalarDone (.sminn x) s is x.sd.val (BitVec.ofNat 64 (min a.toNat b.toNat))) ∧
  (s.ready (.smax x) = some is → ScalarDone (.smax x) s is x.sd.val (BitVec.ofInt 64 (max a.toInt b.toInt))) ∧
  (s.ready (.smaxn x) = some is → ScalarDone (.smaxn x) s is x.sd.val (BitVec.ofNat 64 (max a.toNat b.toNat))) ∧
  (∀ c, s.ready (.scmp c x) = some is → ScalarDone (.scmp c x) s is x.sd.val (if (match c with
    | .eq => decide (a = b) | .ne => decide (a ≠ b) | .lt => decide (a.toInt < b.toInt) | .ltn => decide (a.toNat < b.toNat)
    | .ge => decide (b.toInt ≤ a.toInt) | .gen => decide (b.toNat ≤ a.toNat)) then 1 else 0))) ∧
  (∀ (s : State) (is : Issue) (sd : Fin 96) (sa : SOp) (imm : BitVec 17),
  let a := is.sv s sa
  let d := is.w.sreg sd.val
  (s.ready (.sclz sd sa) = some is → ∃ n : Nat, n ≤ 64 ∧ a.toNat < 2 ^ (64 - n) ∧ (n < 64 → 2 ^ (63 - n) ≤ a.toNat) ∧
    ScalarDone (.sclz sd sa) s is sd.val (BitVec.ofNat 64 n)) ∧
  (s.ready (.spopc sd sa) = some is →
    ScalarDone (.spopc sd sa) s is sd.val (BitVec.ofNat 64 ((Finset.range 64).filter (fun i => a.getLsbD i = true)).card)) ∧
  (s.ready (.sbrev sd sa) = some is → ∃ v : W64, (∀ i, i < 64 → v.getLsbD (63 - i) = a.getLsbD i) ∧
    ScalarDone (.sbrev sd sa) s is sd.val v) ∧
  (s.ready (.saddi sd imm) = some is → ScalarDone (.saddi sd imm) s is sd.val (BitVec.ofInt 64 (d.toInt + imm.toInt))) ∧
  (s.ready (.smovi sd imm) = some is → ScalarDone (.smovi sd imm) s is sd.val (BitVec.ofInt 64 imm.toInt)) ∧
  (s.ready (.sshin sd imm) = some is →
    ScalarDone (.sshin sd imm) s is sd.val (BitVec.ofNat 64 (d.toNat * 2 ^ 17 + imm.toNat))))

/-- R274, whole: the quotient and the remainder of SDIV, SDIVN, SREM and SREMN, also for a zero divisor and for the most
negative dividend over −1; no division traps. -/
def Obligations.ScalarDivisions : Prop := ∀ (s : State) (is : Issue) (x : S3),
  let a := is.sv s x.sa
  let b := is.sv s x.sb
  let qr := fun (x y : Int) => if y = 0 then (-1, x) else if x = -2 ^ 63 ∧ y = -1 then (-2 ^ 63, 0) else (x.tdiv y, x - x.tdiv y * y)
  (s.ready (.sdiv x) = some is → ScalarDone (.sdiv x) s is x.sd.val (BitVec.ofInt 64 (qr a.toInt b.toInt).1)) ∧
  (s.ready (.sdivn x) = some is → ScalarDone (.sdivn x) s is x.sd.val (BitVec.ofInt 64 (qr a.toNat b.toNat).1)) ∧
  (s.ready (.srem x) = some is → ScalarDone (.srem x) s is x.sd.val (BitVec.ofInt 64 (qr a.toInt b.toInt).2)) ∧
  (s.ready (.sremn x) = some is → ScalarDone (.sremn x) s is x.sd.val (BitVec.ofInt 64 (qr a.toNat b.toNat).2))

/-- R298: the integer vector words, each issuing lane's result taken as [w−1:0]; VADDSAT and VSUBSAT clamp the exact value
to the type's range and set SAT when a clamp changes a value (R296). -/
def Obligations.IntegerResults : Prop := ∀ (s : State) (is : Issue) (t : ITy) (x : V3),
  let w := t.width
  let signed := t = .i32 ∨ t = .i64
  let u := useD x.d t.is64
  let a := fun L => is.num (useS x.a t.is64) L
  let b := fun L => is.num (useS x.b t.is64) L
  let rd := fun (v : Nat) => if signed then (BitVec.ofNat w v).toInt else (v : Int)
  let low := fun (v : Int) => (BitVec.ofInt w v).toNat
  let lo : Int := if signed then -2 ^ (w - 1) else 0
  let hi : Int := if signed then 2 ^ (w - 1) - 1 else 2 ^ w - 1
  let sat := fun (v : Nat → Int) => if ∃ L ∈ lanesOf is.mask, v L < lo ∨ hi < v L then fSAT else 0
  (s.ready (.vadd t x) = some is → VectorDone (.vadd t x) s is u (fun L => low (a L + b L)) 0) ∧
  (s.ready (.vsub t x) = some is → VectorDone (.vsub t x) s is u (fun L => low (a L - b L)) 0) ∧
  (s.ready (.vmul t x) = some is → VectorDone (.vmul t x) s is u (fun L => low (a L * b L)) 0) ∧
  (s.ready (.vmulh t x) = some is → VectorDone (.vmulh t x) s is u (fun L => low (rd (a L) * rd (b L) / 2 ^ w)) 0) ∧
  (s.ready (.vaddsat t x) = some is → VectorDone (.vaddsat t x) s is u (fun L => low (max lo (min hi (rd (a L) + rd (b L)))))
    (sat (fun L => rd (a L) + rd (b L)))) ∧
  (s.ready (.vsubsat t x) = some is → VectorDone (.vsubsat t x) s is u (fun L => low (max lo (min hi (rd (a L) - rd (b L)))))
    (sat (fun L => rd (a L) - rd (b L)))) ∧
  (s.ready (.vmin t x) = some is → VectorDone (.vmin t x) s is u (fun L => low (min (rd (a L)) (rd (b L)))) 0) ∧
  (s.ready (.vmax t x) = some is → VectorDone (.vmax t x) s is u (fun L => low (max (rd (a L)) (rd (b L)))) 0) ∧
  (s.ready (.vshl t x) = some is → VectorDone (.vshl t x) s is u (fun L => low (a L * 2 ^ (b L % w))) 0) ∧
  (s.ready (.vshr t x) = some is → VectorDone (.vshr t x) s is u (fun L => low (rd (a L) / 2 ^ (b L % w))) 0)

/-- R298, R300: the logic words, VMOV, the bit-counting words, the immediate words and VMOVI. R326: VCLMUL is an experimental
word of stepping B0, so on the part modelled, A1, it traps ILLINS at its own address with no register written (R255); VMAD24
multiplies 24 bits of each source, extended by its type, and adds the old destination. -/
def Obligations.LogicResults : Prop :=
  (∀ (s : State) (is : Issue) (t : BTy) (x : V3) (y : V2) (imm : BitVec 8) (n : BitVec 5),
  let w := t.is64
  let a := fun L => is.num (useS x.a w) L
  let b := fun L => is.num (useS x.b w) L
  let c := fun L => is.src (useS y.a) L
  (s.ready (.vand t x) = some is → VectorDone (.vand t x) s is (useD x.d w) (fun L => a L &&& b L) 0) ∧
  (s.ready (.vor t x) = some is → VectorDone (.vor t x) s is (useD x.d w) (fun L => a L ||| b L) 0) ∧
  (s.ready (.vxor t x) = some is → VectorDone (.vxor t x) s is (useD x.d w) (fun L => a L ^^^ b L) 0) ∧
  (s.ready (.vmov t y) = some is → VectorDone (.vmov t y) s is (useD y.d w) (fun L => is.num (useS y.a w) L) 0) ∧
  (s.ready (.vclz y) = some is → ∃ z : Nat → Nat, (∀ L, z L ≤ 32 ∧ (c L).toNat < 2 ^ (32 - z L) ∧
    (z L < 32 → 2 ^ (31 - z L) ≤ (c L).toNat)) ∧ VectorDone (.vclz y) s is (useD y.d) z 0) ∧
  (s.ready (.vpopc y) = some is →
    VectorDone (.vpopc y) s is (useD y.d) (fun L => ((Finset.range 32).filter (fun i => (c L).getLsbD i = true)).card) 0) ∧
  (s.ready (.vbrev y) = some is → ∃ z : Nat → W32, (∀ L i, i < 32 → (z L).getLsbD (31 - i) = (c L).getLsbD i) ∧
    VectorDone (.vbrev y) s is (useD y.d) (fun L => (z L).toNat) 0) ∧
  (s.ready (.vaddi y imm) = some is →
    VectorDone (.vaddi y imm) s is (useD y.d) (fun L => (BitVec.ofInt 32 ((c L).toInt + imm.toInt)).toNat) 0) ∧
  (s.ready (.vshli y n) = some is → VectorDone (.vshli y n) s is (useD y.d) (fun L => (c L <<< n.toNat).toNat) 0) ∧
  (s.ready (.vshri y n) = some is → VectorDone (.vshri y n) s is (useD y.d) (fun L => (c L).toNat / 2 ^ n.toNat) 0) ∧
  (s.ready (.vsrai y n) = some is →
    VectorDone (.vsrai y n) s is (useD y.d) (fun L => (BitVec.ofInt 32 ((c L).toInt / 2 ^ n.toNat)).toNat) 0) ∧
  (∀ g d, s.ready (.vmovi g d imm) = some is →
    VectorDone (.vmovi g d imm) s is (useD d) (fun _ => (BitVec.ofInt 32 imm.toInt).toNat) 0)) ∧
  (∀ (s : State) (is : Issue) (x : V3) (b : Bool),
  (s.issueOf (.vclmul b x) = some is → Machine.exec (.vclmul b x) s = .next (s.trapAt is .illins (.same 0) is.pc)) ∧
  (s.ready (.vmad24 b x) = some is →
    let e := fun (o : VOp) L => let v := BitVec.ofNat 24 (is.num (useS o) L); if b then (v.toNat : Int) else v.toInt
    VectorDone (.vmad24 b x) s is (useDS x.d)
      (fun L => (BitVec.ofInt 32 (e x.a L * e x.b L + is.num (useDS x.d) L)).toNat) 0))

/-- R299, R302: a compare writes, in each issuing lane, whether its condition holds between a and b, ordered by the type.
R271: predicate logic in the issuing lanes; p7 reads as true. -/
def Obligations.PredicateResults : Prop :=
  (∀ (s : State) (is : Issue) (t : ITy) (c : Cond) (x : VC),
  let rd := fun (v : Nat) => if t = .i32 ∨ t = .i64 then (BitVec.ofNat t.width v).toInt else (v : Int)
  let a := fun L => rd (is.num (useS x.a t.is64) L)
  let b := fun L => rd (is.num (useS x.b t.is64) L)
  s.ready (.vcmp t c x) = some is → PredDone (.vcmp t c x) s is x.pd.val (fun L => match c with
    | .eq => decide (a L = b L) | .ne => decide (a L ≠ b L) | .lt => decide (a L < b L) | .le => decide (a L ≤ b L)
    | .gt => decide (b L < a L) | .ge => decide (b L ≤ a L)) 0) ∧
  (∀ (s : State) (is : Issue) (x : P3),
  let p := fun (n : Fin 8) L => n = 7 || (is.w.pred n.val).getLsbD L
  (s.ready (.pand x) = some is → PredDone (.pand x) s is x.pd.val (fun L => p x.pa L && p x.pb L) 0) ∧
  (s.ready (.por x) = some is → PredDone (.por x) s is x.pd.val (fun L => p x.pa L || p x.pb L) 0) ∧
  (s.ready (.pxor x) = some is → PredDone (.pxor x) s is x.pd.val (fun L => p x.pa L ^^ p x.pb L) 0) ∧
  (s.ready (.pandn x) = some is → PredDone (.pandn x) s is x.pd.val (fun L => p x.pa L && !p x.pb L) 0))

/-- R179, R181, R182, whole: the value of every code of MXINT8 and of the binary8 family. An MXINT8 code q is q × 2^−6; a signed
binary8pP code follows R175 with its one zero, its one NaN and, in the .x variant alone, two infinities; an unsigned one follows
R175 from 0x00 to 0xFE, with 0x00 its only zero and 0xFF NaN. -/
def Obligations.ElementValues : Prop :=
  let is := fun (x : XVal) (neg : Bool) (v : ℚ) => ∃ m e, x = .fin neg m e false ∧ (m : ℚ) * 2 ^ (e : Int) = v
  let magnitude := fun (e f mant bias : Nat) => if e = 0 then (2 : ℚ) ^ (1 - (bias : Int)) * (f / 2 ^ mant)
    else (2 : ℚ) ^ ((e : Int) - bias) * (1 + f / 2 ^ mant)
  (∀ q : BitVec 8, (q = 0 → (fmtOf .mxi8).decode q.toNat = .zero false) ∧
    (q ≠ 0 → is ((fmtOf .mxi8).decode q.toNat) q.msb (|(q.toInt : ℚ)| * 2 ^ (-6 : Int)))) ∧
  (∀ (p : Fin 7) (x : BitVec 8),
    let P := p.val + 1
    let s := (fmtOf (.b8s p)).decode x.toNat
    let y := (fmtOf (.b8x p)).decode x.toNat
    let z := (fmtOf (.b8z p)).decode x.toNat
    let low := x.toNat % 128
    (x = 0 → s = .zero false ∧ y = .zero false ∧ z = .zero false) ∧
    (x = 0x80 → s = .nan ∧ y = .nan) ∧ (x = 0x7F → y = .inf false) ∧ (x = 0xFF → y = .inf true ∧ z = .nan) ∧
    (x ≠ 0 → x ≠ 0x80 → is s x.msb (magnitude (low / 2 ^ (P - 1)) (low % 2 ^ (P - 1)) (P - 1) (2 ^ (7 - P))) ∧
      (x ≠ 0x7F → x ≠ 0xFF → y = s)) ∧
    (x ≠ 0 → x ≠ 0xFF → is z false (magnitude (x.toNat / 2 ^ (P - 1)) (x.toNat % 2 ^ (P - 1)) (P - 1) (2 ^ (8 - P)))))

/-- R301, R303: the rounding words complete with the exact result of their operation rounded once, element by element of a
packed pair (R294): to nearest even, or for VFOPX by its RM with the draw of R297; the flags of every issuing lane are delivered. -/
def Obligations.FloatResults : Prop := ∀ (s : State) (is : Issue) (t : FTy) (x : V3) (y : V2) (op : FOp) (rm : RM) (sids : SOp),
  let a := fun L => is.num (useS x.a t.is64) L
  let b := fun L => is.num (useS x.b t.is64) L
  let d := fun L => is.num (useDS x.d t.is64) L
  let lane := fun (o : FOp) (vs : List Nat) => eachElem t (fun _ es => (fmtOfTy t).apply o .rne {} es) vs
  let flags := fun (r : Nat → Rounded) => unionFlags ((lanesOf is.mask).map (fun L => (r L).2))
  let done := fun (i : Instr) (r : Nat → Rounded) => VectorDone i s is (useD x.d t.is64) (fun L => (r L).1) (flags r)
  (s.ready (.vfadd t x) = some is → done (.vfadd t x) (fun L => lane .add [a L, b L])) ∧
  (s.ready (.vfsub t x) = some is → done (.vfsub t x) (fun L => lane .sub [a L, b L])) ∧
  (s.ready (.vfmul t x) = some is → done (.vfmul t x) (fun L => lane .mul [a L, b L])) ∧
  (s.ready (.vfma t x) = some is → done (.vfma t x) (fun L => lane .fma [a L, b L, d L])) ∧
  (s.ready (.vfdiv t x) = some is → done (.vfdiv t x) (fun L => lane .div [a L, b L])) ∧
  (s.ready (.vfsqrt t y) = some is →
    let r := fun L => lane .sqrt [is.num (useS y.a t.is64) L]
    VectorDone (.vfsqrt t y) s is (useD y.d t.is64) (fun L => (r L).1) (flags r)) ∧
  (s.ready (.vfopx op t rm sids x) = some is → done (.vfopx op t rm sids x) (fun L =>
    eachElem t (fun h es => (fmtOfTy t).apply op rm (s.drawOf is sids L h) es)
      (match op with | .sqrt => [a L] | .fma => [a L, b L, d L] | _ => [a L, b L])))

/-- R189, the cases it fixes, in each of FP64, FP32, BF16 and FP16 under every rounding mode: ∞ − ∞, 0 × ∞, 0 / 0, ∞ / ∞, the
square root of a negative value and any signaling NaN give the canonical NaN and NV; a finite nonzero value over 0 gives a
signed ∞ and DZ; an exact zero sum is +0, or −0 under RDN; equal zeros keep their sign. -/
def Obligations.FloatSpecialCases : Prop := ∀ (t : FTy) (rm : RM) (dr : Draw) (a b c : Nat) (n k : Bool),
  let f := fmtOfTy t
  let bad : Rounded := (f.canonNan, fNV)
  (f.decode a = .inf n → f.decode b = .inf (!n) → f.fadd rm dr a b = bad) ∧
  (f.decode a = .inf n → f.decode b = .inf n → f.fsub rm dr a b = bad) ∧
  (f.decode a = .zero n → f.decode b = .inf k → f.fmul rm dr a b = bad ∧ f.fmul rm dr b a = bad) ∧
  (f.decode a = .zero n → f.decode b = .zero k → f.fdiv rm dr a b = bad) ∧
  (f.decode a = .inf n → f.decode b = .inf k → f.fdiv rm dr a b = bad) ∧
  ((∃ m e z, f.decode a = .fin true m e z) ∨ f.decode a = .inf true → f.fsqrt rm dr a = bad) ∧
  (∀ op, f.isSnan a = true → (f.apply op rm dr [a, b, c]).1 = f.canonNan ∧ (f.apply op rm dr [a, b, c]).2 &&& fNV = fNV) ∧
  (∀ op, op ≠ .sqrt → f.isSnan b = true → (f.apply op rm dr [a, b, c]).1 = f.canonNan ∧ (f.apply op rm dr [a, b, c]).2 &&& fNV = fNV) ∧
  (∀ m e z, f.decode a = .fin n m e z → f.decode b = .zero k → (f.infCode (n != k)).map (fun v => (v, fDZ)) = some (f.fdiv rm dr a b)) ∧
  (∀ m e, f.decode a = .fin n m e false → f.decode b = .fin (!n) m e false →
    f.fadd rm dr a b = (f.zeroCode (decide (rm = .rdn)), 0)) ∧
  (f.decode a = .zero n → f.decode b = .zero n → f.fadd rm dr a b = (f.zeroCode n, 0))

/-- R185: in every format, rounding the value of a code that is no NaN gives that code back with no flag, in every rounding
mode. The one code off its grid is 0x80 of MXINT8, whose value −2 lies beyond the largest magnitude (R179). -/
def Obligations.RoundingKeepsCodes : Prop := ∀ (n : NFC) (rm : RM) (dr : Draw) (c : Nat),
  let f := fmtOf n
  c < 2 ^ f.width → f.isNan c = false → ¬(n = .mxi8 ∧ c = 0x80) → f.round (f.decode c) rm dr = (c, 0)

/-- R302: VFMIN and VFMAX take the other operand for a single NaN, the canonical NaN for two, and order −0 below +0; VFCMP
compares element 0, and a NaN operand makes NE and UN alone true. NV follows R302 for each. -/
def Obligations.FloatOrder : Prop := ∀ (s : State) (is : Issue) (t : FTy) (x : V3) (y : VC),
  let f := fmtOfTy t
  let pick := fun (mx : Bool) (es : List Nat) =>
    let a := es.getD 0 0
    let b := es.getD 1 0
    let nv : W32 := if f.isSnan a || f.isSnan b then fNV else 0
    if f.isNan a && f.isNan b then (f.canonNan, nv) else if f.isNan a then (b, nv) else if f.isNan b then (a, nv)
    else if (if mx then decide (f.key a < f.key b) else decide (f.key b < f.key a)) then (b, nv) else (a, nv)
  let r := fun (mx : Bool) L => eachElem t (fun _ es => pick mx es) [is.num (useS x.a t.is64) L, is.num (useS x.b t.is64) L]
  let done := fun (i : Instr) (mx : Bool) =>
    VectorDone i s is (useD x.d t.is64) (fun L => (r mx L).1) (unionFlags ((lanesOf is.mask).map (fun L => (r mx L).2)))
  let el := fun (o : VOp) L => let v := is.num (useS o t.is64) L; if t = .bf16 ∨ t = .f16 then v % 2 ^ 16 else v
  let a := el y.a
  let b := el y.b
  let un := fun L => f.isNan (a L) || f.isNan (b L)
  let sn := fun L => f.isSnan (a L) || f.isSnan (b L)
  let cmpIs := fun (o : Ordering) L => decide ((f.decode (a L)).cmp (f.decode (b L)) = some o)
  let holds := fun (c : FCond) L => match c with
    | .un => un L
    | .ord .eq => cmpIs .eq L | .ord .ne => !cmpIs .eq L | .ord .lt => cmpIs .lt L | .ord .le => cmpIs .lt L || cmpIs .eq L
    | .ord .gt => cmpIs .gt L | .ord .ge => cmpIs .gt L || cmpIs .eq L
  let loud := fun (c : FCond) => match c with
    | .un | .ord .eq | .ord .ne => false
    | _ => true
  (s.ready (.vfmin t x) = some is → done (.vfmin t x) false) ∧
  (s.ready (.vfmax t x) = some is → done (.vfmax t x) true) ∧
  (∀ c, s.ready (.vfcmp t c y) = some is → PredDone (.vfcmp t c y) s is y.pd.val (holds c)
    (if (lanesOf is.mask).any (fun L => if loud c then un L else sn L) then fNV else 0))

/-- R294, R304 to R311: conversions write the converted value or merge it into the part PSEL names of the old register;
the block-scaled words act on blocks of 32 lanes, over the issuing lanes of each. -/
def Obligations.ConvertResults : Prop := ∀ (s : State) (is : Issue) (k : CvtKind) (p : Fin 4) (rm : RM) (sids : SOp) (x : V2)
    (y : V3) (m : MxFmt),
  let flags := fun (r : Nat → Rounded) => unionFlags ((lanesOf is.mask).map (fun L => (r L).2))
  let block := fun L => (lanesOf is.mask).filter (fun M => M / 32 == L / 32)
  let a := fun (o : VOp) L => (is.src (useS o) L).toNat
  let byte := fun (old v : Nat) => BitVec.ofNat 32 old &&& ~~~(BitVec.ofNat 32 (0xFF * 256 ^ p.val)) ||| BitVec.ofNat 32 (v % 256 * 256 ^ p.val)
  (s.ready (.vcvt k p rm sids x) = some is →
    let ud := if k.widthD < 32 then useDS x.d else useD x.d (k.widthD == 64)
    let r := fun L => cvt k rm (s.drawOf is sids L p.val) (partOf k.widthS p.val (is.num (useS x.a (k.widthS == 64)) L))
    VectorDone (.vcvt k p rm sids x) s is ud
      (fun L => setPart k.widthD p.val (if k.widthD < 32 then is.num ud L else 0) (r L).1) (flags r)) ∧
  (s.ready (.mxmax x) = some is → VectorDone (.mxmax x) s is (useD x.d)
    (fun L => let g := ((block L).map (fun M => a x.a M % 2 ^ 31)).foldl max 0; if 0x7F800000 < g then 0x7FC00000 else g) 0) ∧
  (s.ready (.mxscale m p x) = some is →
    let r := fun L => (mxFmt m).blockScale ((block L).map (fun M => fmtF32.decode (a x.a M)))
    VectorDone (.mxscale m p x) s is (useDS x.d) (fun L => (byte (is.num (useDS x.d) L) (r L).1).toNat) (flags r)) ∧
  (s.ready (.mxq m p rm sids y) = some is →
    let r := fun L => (mxFmt m).quantElem (fmtF32.decode (a y.a L)) (a y.b L / 256 ^ p.val % 256) rm (s.drawOf is sids L p.val)
    VectorDone (.mxq m p rm sids y) s is (useDS y.d) (fun L => (byte (is.num (useDS y.d) L) (r L).1).toNat) (flags r)) ∧
  (s.ready (.mxdq m p y) = some is →
    let r := fun L => dequantize (mxFmt m) (a y.a L / 256 ^ p.val % 256) (a y.b L / 256 ^ p.val % 256)
    VectorDone (.mxdq m p y) s is (useD y.d) (fun L => (r L).1) (flags r))

/-- R312 to R314, R317 to R320: words that move values between lanes, scalars and index registers. -/
def Obligations.LaneMoves : Prop := ∀ (s : State) (is : Issue) (t : BTy) (g : Guard) (d : VOp) (o : SOp) (x : V3) (j : Fin 8)
    (sd : Fin 96) (lane : Fin 128),
  let read := fun (i : Instr) (v : VOp) M => is.w.val (regOf is.w (vuses i) { op := v, src := true, cross := true } M) M
  (s.ready (.vbcast t g d o) = some is → VectorDone (.vbcast t g d o) s is (useD d t.is64) (fun _ => (is.sv s o).toNat) 0) ∧
  (s.ready (.vid true g d) = some is → VectorDone (.vid true g d) s is (useD d) (fun L => L) 0) ∧
  (s.ready (.vid false g d) = some is → VectorDone (.vid false g d) s is (useD d) (fun L => is.w.tidOf L) 0) ∧
  (s.ready (.xgetv g d j false) = some is →
    VectorDone (.xgetv g d j false) s is (useD d) (fun L => (is.w.xreg j.val).index L) 0) ∧
  (s.ready (.xgetv g d j true) = some is →
    VectorDone (.xgetv g d j true) s is (useD d) (fun _ => (is.w.xreg j.val).word.toNat) 0) ∧
  (∀ m, s.ready (.vshfl m x) = some is →
    let k := fun L => (is.src (useS x.b) L).toNat % 128
    let from_ := fun L => let r : Int := (match m with
        | .idx => (k L : Int) | .up => (L : Int) - k L | .down => (L : Int) + k L | .xor => ((L ^^^ k L : Nat) : Int))
      if 0 ≤ r ∧ r ≤ 127 ∧ is.mask.getLsbD r.toNat = true then r.toNat else L
    VectorDone (.vshfl m x) s is (useD x.d) (fun L => (read (.vshfl m x) x.a (from_ L)).toNat) 0) ∧
  (s.ready (.vreadl g sd d lane) = some is →
    ScalarDone (.vreadl g sd d lane) s is sd.val ((read (.vreadl g sd d lane) d lane.val).setWidth 64))

/-- R315, R316: VRED gives every lane of a segment the combination of the segment's issuing lanes, in ascending lane order,
and for a floating-point ADD their tree_sum; VSCAN gives each lane the combination of the segment's lanes up to it, or below
it when exclusive. A segment starts at the lowest issuing lane and at each issuing lane that pSEGP marks. Of a segment with one
issuing lane a MIN or a MAX is that lane's code with no flag, a signaling NaN's too: the model's choice (log entry 96). -/
def Obligations.ReduceAndScan : Prop := ∀ (s : State) (is : Issue) (o : RedOpr) (t : RedTy) (segp : Fin 8) (exc : Bool) (x : V2),
  let head := fun L => segp ≠ 7 ∧ (is.w.pred segp.val).getLsbD L = true
  let segment := fun L => (lanesOf is.mask).filter (fun M =>
    (lanesOf is.mask).all (fun K => decide (¬(min L M < K ∧ K ≤ max L M ∧ head K))))
  let vals := fun L => is.num (useS x.a t.is64) L
  let flags := fun (r : Nat → Rounded) => unionFlags ((lanesOf is.mask).map (fun L => (r L).2))
  (s.ready (.vred o t segp x) = some is →
    let r := fun L => if t.isFloat && o == .add then laneTree (RedTy.fmt t) vals (segment L)
      else match (segment L).map vals with
        | [] => (0, 0)
        | v :: vs => combineAll o t v vs
    VectorDone (.vred o t segp x) s is (useD x.d t.is64) (fun L => (r L).1) (flags r)) ∧
  (s.ready (.vscan o t segp exc x) = some is →
    let r := fun L => combineAll o t (redIdentity o t)
      (((segment L).filter (fun M => if exc then decide (M < L) else decide (M ≤ L))).map vals)
    VectorDone (.vscan o t segp exc x) s is (useD x.d t.is64) (fun L => (r L).1) (flags r))

/-- R313 (VBALLOT), R317: VBALLOT writes its 128 lane bits to the scalar pair; VMERGE, which needs a full issue mask, writes the
lower 128 elements of the merge of a and b to d and the upper 128 to its second destination, which is written last. -/
def Obligations.BallotAndMerge : Prop := ∀ (s : State) (is : Issue) (g : Guard) (sd : Fin 96) (p : Fin 8) (t : MergeTy) (dh : VOp)
    (org : Bool) (x : V3),
  (s.ready (.vballot g sd p) = some is → ∃ u, Machine.exec (.vballot g sd p) s = .next u ∧
    (u.warp is.who).sreg sd.val = (is.mask &&& is.w.pred p.val).extractLsb' 0 64 ∧
    (u.warp is.who).sreg (sd.val + 1) = (is.mask &&& is.w.pred p.val).extractLsb' 64 64 ∧
    (∀ n, n ≠ sd.val → n ≠ sd.val + 1 → (u.warp is.who).sreg n = (s.warp is.who).sreg n) ∧
    (u.warp is.who).p = (s.warp is.who).p ∧ (u.warp is.who).blocks = (s.warp is.who).blocks ∧
    (u.warp is.who).core = (s.warp is.who).core ∧ WordFrame s u is.who) ∧
  (s.readyWith (.vmerge t dh org x) partMask noCheck = some is →
    let i := Instr.vmerge t dh org x
    let key := fun (v : Nat) => match t with
      | .n32 => (v : Int)
      | .i32 => (BitVec.ofNat 32 v).toInt
      | .f32 => if v < 2 ^ 31 then (v + 2 ^ 31 : Int) else (2 ^ 32 - 1 - v : Int)
    let side := fun (o : VOp) (n : Nat) => (List.range 128).map (fun L =>
      let v := (is.src (useS o) L).toNat
      (key v, v, n + L))
    let out := mergeLists 256 (side x.a 0) (side x.b 128)
    let word := fun (k : Nat) => (out[k]?).map (fun e => if org then e.2.2 else e.2.1)
    let dr := fun (o : VOp) L => regOf is.w (vuses i) (useD o) L
    ∃ u, Machine.exec i s = .next u ∧
      (∀ L, L < 128 → some (((u.warp is.who).reg (dr dh L) L).val.toNat) = word (128 + L)) ∧
      (∀ L, L < 128 → dr x.d L ≠ dr dh L → some (((u.warp is.who).reg (dr x.d L) L).val.toNat) = word L) ∧
      (∀ r L, L < 128 → r ≠ dr x.d L → r ≠ dr dh L → (u.warp is.who).reg r L = (s.warp is.who).reg r L) ∧
      (u.warp is.who).s = (s.warp is.who).s ∧ (u.warp is.who).p = (s.warp is.who).p ∧
      (u.warp is.who).core = (s.warp is.who).core ∧ WordFrame s u is.who)

/-- R319, R320: XSET sets the uniform fields of xj from its operands, keeping the lanes' indexes unless ZI clears them, and
traps OPRANGE where a base and bound do not fit; XLDV loads the low 16 bits of its source into the issuing lanes' indexes.
Outside a chained group the other index registers move as R322 says for the operands named. R322: what a word does to the
index of one lane of an index register it names: a step for an array, a step reduced by BOUND for a ring, one up or down for
a stack that is written or read, and nothing for a lane that does not issue; a ring's index is reduced by a step of 0 too. -/
def Obligations.IndexRegisters : Prop :=
  (∀ (s : State) (is : Issue) (j : Fin 8) (mode : XMode) (stp : BitVec 4) (zi : Bool)
    (sa sb : SOp) (g : Guard) (a : VOp),
  let old := (s.warp is.who).xreg j.val
  let base := (is.sv s sa).toNat
  let bound := (is.sv s sb).toNat
  let fits := mode = .off ∨ (base ≤ 255 ∧ 1 ≤ bound ∧ bound ≤ 256 ∧ base + bound ≤ 256)
  let done := fun (i : Instr) (v : IdxReg) => ∃ t, Machine.exec i s = .next t ∧
    (t.warp is.who).s = (s.warp is.who).s ∧ (t.warp is.who).p = (s.warp is.who).p ∧
    (t.warp is.who).blocks = (s.warp is.who).blocks ∧ (t.warp is.who).core = (s.warp is.who).core ∧ WordFrame s t is.who ∧
    (s.alone = true → (t.warp is.who).arstat = (s.warp is.who).arstat ∧
      (t.warp is.who).x = (applyDeltas ((s.warp is.who).setX j.val v) (xDeltas is.w (vuses i) is.mask)).x ∧
      ((∀ k, namesX (vuses i) k = false) → (t.warp is.who).xreg j.val = v ∧
        ∀ k, k ≠ j.val → (t.warp is.who).xreg k = (s.warp is.who).xreg k))
  let xset := Instr.xset j mode stp zi sa sb
  (s.readyWith xset (xsetPre mode sa sb) noCheck = some is → fits ∧
    done xset (if mode = .off then { mode := .off, idx := if zi then [] else old.idx }
      else { mode := mode, step := stp, bound := bound, base := base, idx := if zi then [] else old.idx })) ∧
  (s.issueOf xset = some is → s.illegalHere is = false → ¬fits →
    Machine.exec xset s = .next (s.trapAt is .oprange (.same 0) is.pc)) ∧
  (s.ready (.xldv g j a) = some is → ∃ v : IdxReg, v.mode = old.mode ∧ v.step = old.step ∧ v.bound = old.bound ∧
    v.base = old.base ∧ (∀ L, L < 128 → v.index L = if is.mask.getLsbD L then (is.src (useS a) L).toNat % 2 ^ 16 else old.index L) ∧
    done (.xldv g j a) v)) ∧
  (∀ (s : State) (is : Issue) (t : ITy) (x : V3) (j : Fin 8) (L : Nat),
  s.ready (.vadd t x) = some is → s.alone = true → L < 128 →
    ∃ u, Machine.exec (.vadd t x) s = .next u ∧
      let old := (s.warp is.who).xreg j.val
      let i : Int := old.index L
      let read := x.a = .ind j ∨ x.b = .ind j
      let written := x.d = .ind j
      let d : Int := match (is.w.xreg j.val).mode with
        | .off => 0
        | .stack => if read ∧ written then 0 else if read then -1 else 1
        | _ => (is.w.xreg j.val).step.toInt
      ((u.warp is.who).xreg j.val).index L =
        if (read ∨ written) ∧ is.mask.getLsbD L = true ∧ (d ≠ 0 ∨ old.mode = .ring) then
          (if old.mode = .ring then ((i + d) % (max 1 old.bound : Nat)).toNat % 65536 else ((i + d) % 65536).toNat)
        else old.index L)

/-- R56, R58, R59: a size that is no whole window traps WINDOW; RGROW of a size the window has completes, and of a larger one
begins its wait; RSHRINK gives up the blocks above its size, once no outstanding word writes them, and keeps the others. -/
def Obligations.WindowWords : Prop := ∀ (s : State) (is : Issue) (t : BitVec 9),
  let n := t.toNat / 8
  let w := s.warp is.who
  (s.readyWith (.rgrow t) (windowPre t 0) noCheck = some is →
    (n ≤ w.curb → ∃ u, Machine.exec (.rgrow t) s = .next u ∧ RegFrame (.rgrow t) s u is) ∧
    (w.curb < n → ∃ u, Machine.exec (.rgrow t) s = .next u ∧ WaitBegins s u is (.rgrow n))) ∧
  (s.issueOf (.rgrow t) = some is → s.illegalHere is = false → t.toNat % 8 ≠ 0 ∨ t.toNat < 8 ∨ 256 < t.toNat →
    Machine.exec (.rgrow t) s = .next (s.trapAt is .window (.same t.toNat) is.pc)) ∧
  (s.issueOf (.rshrink t) = some is → s.illegalHere is = false → t.toNat % 8 ≠ 0 ∨ t.toNat < 8 * max 1 w.minb ∨ 256 < t.toNat →
    Machine.exec (.rshrink t) s = .next (s.trapAt is .window (.same t.toNat) is.pc)) ∧
  (s.readyWith (.rshrink t) (rshrinkPre t) noCheck = some is →
    (w.curb ≤ n → ∃ u, Machine.exec (.rshrink t) s = .next u ∧ RegFrame (.rshrink t) s u is) ∧
    (n < w.curb → (∀ r ∈ s.pendingRegs is.who false, r < 8 * n) →
      ∃ u, Machine.exec (.rshrink t) s = .next u ∧ (u.warp is.who).curb = n ∧ (u.warp is.who).minb = w.minb ∧
        (∀ b ∈ (u.warp is.who).blocks, b.1 < n ∧ b ∈ w.blocks) ∧ (∀ b ∈ w.blocks, b.1 < n → b ∈ (u.warp is.who).blocks) ∧
        (u.warp is.who).s = w.s ∧ (u.warp is.who).p = w.p ∧ u.mem = s.mem))

/-- NOP completes (R258 to R270's table of control words): every register and, before a packet's end, both loop levels stay. R226
(with R234, R252): it leaves the path at the next word; at the end of a packet the loop action runs on the levels whose end it
is. A branch that all lanes of the path take completes too, and leaves the levels alone. -/
def Obligations.LoopAction : Prop := ∀ (s : State) (is : Issue),
  let w := s.warp is.who
  let pkt := pktOf is.pc
  let after := if is.pc.toNat / 4 % 4 < 3 then (w.l0, w.l1, is.pc + 4) else levelsAtEnd w.l0 w.l1 pkt
  (s.ready .nop = some is → ∃ t, Machine.exec .nop s = .next t ∧ RegFrame .nop s t is ∧
    (t.warp is.who).l0 = after.1 ∧ (t.warp is.who).l1 = after.2.1 ∧
    ∃ p ∈ (t.warp is.who).paths, p.mask = is.path ∧ p.pc = after.2.2 ∧ p.handler = is.handler) ∧
  (∀ g off, s.ready (.bra g off) = some is → is.mask = is.path → is.mask ≠ 0 → ∃ t, Machine.exec (.bra g off) s = .next t ∧
    (t.warp is.who).l0 = w.l0 ∧ (t.warp is.who).l1 = w.l1 ∧
    ∃ p ∈ (t.warp is.who).paths, p.mask = is.path ∧ p.pc = pkt + (off.signExtend 64 <<< 4) ∧ p.handler = is.handler)

/-- R264, R265: in each issuing lane BRA and CALL go to packet + 16 × off20, RET and BRX to the pair's value; the lanes of one
target form one new path, guard-false lanes go on after the word, and CALL writes packet + 16 to v54:v55 of its lanes. A word that
would leave more than one path while a loop level is active traps LOOPDIV (R227), a misaligned pair traps ALIGN, and no lane moves.
-/
def Obligations.Branches : Prop := ∀ (s : State) (is : Issue) (g : Guard) (off : BitVec 20) (a : VOp),
  let w := s.warp is.who
  let rest := mdiff is.path is.mask
  let label := fun (_ : Nat) => pktOf is.pc + (off.signExtend 64 <<< 4)
  let pair := fun L => is.src64 (useS a true) L
  let splits := fun (f : Nat → W64) => rest ≠ 0 ∨ ∃ L ∈ lanesOf is.mask, ∃ M ∈ lanesOf is.mask, f L ≠ f M
  let looping := is.w.l0.count ≠ 0 ∨ is.w.l1.count ≠ 0
  let moved := fun (i : Instr) (f : Nat → W64) (call : Bool) => ∃ t, Machine.exec i s = .next t ∧
    (∀ L ∈ lanesOf is.mask, ∃ p ∈ (t.warp is.who).paths, p.pc = f L ∧ p.inside = false ∧
      ∀ M, M < 128 → p.mask.getLsbD M = (is.mask.getLsbD M && f M == f L)) ∧
    (rest ≠ 0 → ∃ p ∈ (t.warp is.who).paths, p.mask.getLsbD (lowLane rest) = true ∧ (w.paths.length = 1 → p.mask = rest) ∧
      (is.pc.toNat / 4 % 4 < 3 → p.pc = is.pc + 4)) ∧
    (∀ q ∈ w.paths, q.mask &&& is.path = 0 → q ∈ (t.warp is.who).paths) ∧
    (t.warp is.who).s = w.s ∧ (t.warp is.who).p = w.p ∧ (t.warp is.who).core = w.core ∧
    (if call then (∀ L ∈ lanesOf is.mask, (t.warp is.who).holds 54 2 L (pktOf is.pc + 16).toNat) ∧
        ∀ r L, L < 128 → (is.mask.getLsbD L = true → r ≠ 54 ∧ r ≠ 55) → (t.warp is.who).reg r L = w.reg r L
      else (t.warp is.who).blocks = w.blocks) ∧ WordFrame s t is.who
  let holdsFor := fun (i : Instr) (align : Issue → State → Option (Cause × Info)) (f : Nat → W64) (call : Bool) =>
    s.readyWith i noCheck align = some is →
      (is.mask = 0 → ∃ t, Machine.exec i s = .next t ∧ RegFrame i s t is) ∧
      (is.mask ≠ 0 → ¬(splits f ∧ looping) → moved i f call) ∧
      (is.mask ≠ 0 → splits f ∧ looping → Machine.exec i s = .next (s.trapAt is .loopdiv (.same 0) is.pc))
  let misaligned := fun (i : Instr) (n : Nat) => s.issueOf i = some is → s.illegalHere is = false → s.boundTrap is = none →
    s.held is = false → (∃ L ∈ lanesOf is.mask, (pair L).toNat % n ≠ 0) →
      ∃ v, Machine.exec i s = .next (s.trapAt is .align (.each v) is.pc)
  holdsFor (.bra g off) noCheck label false ∧ holdsFor (.call g off) noCheck label true ∧
  holdsFor (.ret g a) (targetAlign a 4) pair false ∧ holdsFor (.brx g a) (targetAlign a 16) pair false ∧
  misaligned (.ret g a) 4 ∧ misaligned (.brx g a) 16

/-- R210 to R212, R267: SPLIT sets kn to the path mask; JOIN and WAITK pass lanes outside kn at once and park lanes inside it.
Once every live lane of kn is parked at a word that names it, by this JOIN or WAITK, they leave: those parked at one JOIN as one
path, those of a WAITK as they came. A JOIN or WAITK changes no rejoin mask, and SPLIT none but its own. -/
def Obligations.RejoinMasks : Prop := ∀ (s : State) (is : Issue) (k : Fin 16),
  let w := s.warp is.who
  let inside := is.path &&& is.w.kmask k.val
  let names := fun (q : Parked) => q.site.names k.val
  let parkedAt := fun (ps : List Parked) => (ps.filter names).foldl (fun m q => m ||| q.mask) 0
  let keeps := fun (t : State) => (t.warp is.who).s = w.s ∧ (t.warp is.who).p = w.p ∧ (t.warp is.who).blocks = w.blocks ∧
    (t.warp is.who).exited = w.exited ∧ WordFrame s t is.who
  let parks := fun (i : Instr) (site : ParkSite) =>
    (inside = 0 → ∃ t, Machine.exec i s = .next t ∧ RegFrame i s t is) ∧
    (inside ≠ 0 → mdiff (w.kmask k.val &&& w.live) (parkedAt w.parked ||| inside) ≠ 0 →
      ∃ t, Machine.exec i s = .next t ∧ keeps t ∧ (t.warp is.who).k = w.k ∧
        (∃ q ∈ (t.warp is.who).parked, q.site = site ∧ q.mask = inside ∧ q.at_ = is.pc) ∧
        (inside.getLsbD is.lane = true → ∀ p ∈ (t.warp is.who).paths, p.mask.getLsbD is.lane = false))
  let members := w.kmask k.val &&& w.live
  let releases := fun (i : Instr) (site : ParkSite) =>
    -- every parked group that names kn, this one among them: its word, where it stands and its lanes
    let groups := (w.parked.filter names).map (fun q => (q.site, q.at_, q.mask)) ++ [(site, is.pc, inside)]
    let isJoin := fun (x : ParkSite) => x == .join k
    let leave := fun (q : ParkSite × W64 × LaneMask) => members &&&
      (if isJoin q.1 then (groups.filter (fun x => isJoin x.1 && x.2.1 == q.2.1)).foldl (fun m x => m ||| x.2.2) 0 else q.2.2)
    inside ≠ 0 → members ≠ 0 → mdiff members (parkedAt w.parked ||| inside) = 0 → mdiff is.path inside &&& members = 0 →
    (∀ p ∈ w.paths, p.mask.getLsbD is.lane = false → p.mask &&& members = 0) → groups.Pairwise (fun x y => x.2.2 &&& y.2.2 = 0) →
      ∃ t, Machine.exec i s = .next t ∧ keeps t ∧ (t.warp is.who).k = w.k ∧ parkedAt (t.warp is.who).parked &&& members = 0 ∧
        ∀ q ∈ groups, leave q ≠ 0 → ∃ p ∈ (t.warp is.who).paths, p.mask = leave q ∧ (q.2.1.toNat / 4 % 4 < 3 → p.pc = q.2.1 + 4)
  (s.ready (.split k) = some is → ∃ t, Machine.exec (.split k) s = .next t ∧ keeps t ∧ (t.warp is.who).kmask k.val = is.path ∧
    ∀ j, j ≠ k.val → (t.warp is.who).kmask j = w.kmask j) ∧
  (s.ready (.join k) = some is → parks (.join k) (.join k) ∧
    (inside ≠ 0 → mdiff (w.kmask k.val &&& w.live) (parkedAt w.parked ||| inside) = 0 → inside &&& (w.kmask k.val &&& w.live) ≠ 0 →
      (∀ q ∈ w.parked, names q = true → q.site = .join k ∧ q.at_ = is.pc) →
      ∃ t, Machine.exec (.join k) s = .next t ∧ keeps t ∧ (t.warp is.who).k = w.k ∧
        parkedAt (t.warp is.who).parked &&& (w.kmask k.val &&& w.live) = 0 ∧
        ∃ p ∈ (t.warp is.who).paths,
          p.mask.getLsbD (lowLane ((parkedAt w.parked ||| inside) &&& (w.kmask k.val &&& w.live))) = true ∧
          (w.paths.length = 1 → is.path = inside → p.mask = (parkedAt w.parked ||| inside) &&& (w.kmask k.val &&& w.live)) ∧
          (is.pc.toNat / 4 % 4 < 3 → p.pc = is.pc + 4)) ∧ releases (.join k) (.join k)) ∧
  (s.ready (.waitk k) = some is → parks (.waitk k) (.waitk k) ∧ releases (.waitk k) (.waitk k))

/-- R214 (with R144): BAR waits for the thread's accesses. Then it completes: where some live thread of the workgroup is neither
on its path nor parked at a BAR, or is in the reform unit, the lanes of its path park at it; else every parked thread of the
workgroup leaves, those of one PC in one warp as one path. R215, R218: CONVENE by a seated warp, or in a group of one, and DISBAND
by an unseated one complete at once; else the warp has arrived and waits; the last to arrive completes, and seats, or unseats,
every warp of the group, and no warp of it waits any more. A seat that waits at a quorum issue when another issues DISBAND is to
trap there (R217, R218). -/
def Obligations.BarrierAndQuorum : Prop :=
  (∀ (s : State) (is : Issue),
  let wg := is.w.wg
  let core := coreOf is.who
  let mine := fun (n : Nat) => if n = is.who then [(is.path, is.pc)] else []
  -- the lanes at a BAR once this one is, with the BAR they stand at, and the paths that are not at one
  let bars := fun n => (((s.warp n).parked.filter (fun q => q.site == .bar)).map (fun q => (q.mask, q.at_))) ++ mine n
  let free := fun n => (s.warp n).paths.filter (fun p => !(n == is.who && p.mask.getLsbD is.lane))
  let parkedLanes := fun n => (bars n).foldl (fun m q => m ||| q.1) 0
  let atPc := fun n pc => ((bars n).filter (fun q => q.2 == pc)).foldl (fun m q => m ||| q.1) 0
  let complete := (∀ n ∈ s.warpsOfWg wg, mdiff (s.warp n).live (parkedLanes n) = 0) ∧ s.filedThreads wg core = 0
  s.ready .bar = some is → (s.settled is.who = false → Machine.exec .bar s = .next { s with blocked := true }) ∧
    (s.settled is.who = true → ∃ t, Machine.exec .bar s = .next t ∧ t.mem = s.mem ∧ t.wgs = s.wgs ∧
      (∀ n, (t.warp n).s = (s.warp n).s ∧ (t.warp n).p = (s.warp n).p ∧ (t.warp n).blocks = (s.warp n).blocks ∧
        (t.warp n).k = (s.warp n).k ∧ (t.warp n).exited = (s.warp n).exited ∧ (t.ctl n).waits = (s.ctl n).waits) ∧
      (¬complete → (∃ q ∈ (t.warp is.who).parked, q.site = .bar ∧ q.mask = is.path ∧ q.at_ = is.pc) ∧
        (t.warp is.who).paths = free is.who ∧ ∀ n, n ≠ is.who → t.warp n = s.warp n) ∧
      (complete → (∃ n ∈ s.warpsOfWg wg, (s.warp n).live ≠ 0) → is.who ∈ s.warpsOfWg wg → ∀ n ∈ s.warpsOfWg wg,
        (t.warp n).atBar = 0 ∧
        ((bars n).Pairwise (fun p q => p.1 &&& q.1 = 0) → (∀ q ∈ bars n, ∀ p ∈ free n, p.mask &&& q.1 = 0) →
          ∀ q ∈ bars n, q.1 ≠ 0 → ∃ p ∈ (t.warp n).paths, p.mask = atPc n q.2 ∧
            (q.2.toNat / 4 % 4 < 3 → p.pc = q.2 + 4))))) ∧
  (∀ (s : State) (is : Issue),
  let q := s.qsize is.who
  let me := s.ctl is.who
  let others := (s.quorumOf is.who).filter (fun n => n != is.who)
  let waits := fun (f : WaitKind → Bool) (t : State) n => (t.ctl n).waits.any (fun x => f x.kind)
  let keeps := fun (t : State) => t.mem = s.mem ∧ t.wgs = s.wgs ∧ ∀ n, (t.warp n).s = (s.warp n).s ∧ (t.warp n).p = (s.warp n).p ∧
    (t.warp n).blocks = (s.warp n).blocks ∧ (t.warp n).exited = (s.warp n).exited
  let goesOn := fun (t : State) => ∃ p ∈ (t.warp is.who).paths, p.mask = is.path ∧ (is.pc.toNat / 4 % 4 < 3 → p.pc = is.pc + 4)
  let only := fun (f : WaitKind → Bool) => ∀ x ∈ me.waits, f x.kind = false
  let arrives := fun (i : Instr) (f : WaitKind → Bool) (seated : Bool) => ∃ t, Machine.exec i s = .next t ∧ keeps t ∧
    t.warps = s.warps ∧ (t.ctl is.who).seated = seated ∧ (t.ctl is.who).arrived = true ∧ waits f t is.who = true ∧
    ∀ n, n ≠ is.who → t.ctl n = s.ctl n
  let ends := fun (i : Instr) (f : WaitKind → Bool) (seated : Bool) => ∃ t, Machine.exec i s = .next t ∧ keeps t ∧
    (∀ n ∈ s.quorumOf is.who, (t.ctl n).seated = seated ∧ (t.ctl n).arrived = false ∧ waits f t n = false) ∧
    (∀ n, n ∉ s.quorumOf is.who → t.warp n = s.warp n ∧ t.ctl n = s.ctl n) ∧ (only f → goesOn t)
  (s.ready .convene = some is → q = 1 ∨ me.seated = true → ∃ t, Machine.exec .convene s = .next t ∧ RegFrame .convene s t is) ∧
  (s.ready .convene = some is → q ≠ 1 → me.seated = false → is.who ∈ s.quorumOf is.who →
    ((s.quorumOf is.who).length = q → (∀ n ∈ others, (s.ctl n).arrived = true) → ends .convene isConvene true) ∧
    (s.alone = true → (s.quorumOf is.who).length ≠ q ∨ (∃ n ∈ others, (s.ctl n).arrived = false) →
      arrives .convene isConvene false)) ∧
  (s.ready .disband = some is → q = 1 ∨ me.seated = false → ∃ t, Machine.exec .disband s = .next t ∧ RegFrame .disband s t is) ∧
  (s.ready .disband = some is → q ≠ 1 → me.seated = true → is.who ∈ s.quorumOf is.who →
    ((∀ n ∈ others, waits isQuorum s n = false) →
      ((∀ n ∈ others, (s.ctl n).arrived = true ∨ (s.ctl n).seated = false) → ends .disband isDisband false) ∧
      (s.alone = true → (∃ n ∈ others, (s.ctl n).arrived = false ∧ (s.ctl n).seated = true) →
        arrives .disband isDisband true)) ∧
    (∃ t, Machine.exec .disband s = .next t ∧ keeps t ∧
      ∀ n ∈ others, waits isQuorum s n = true → (t.ctl n).mismatch.isSome = true ∧ (t.ctl n).quorumIssue = none)))

/-- R225, R270: LOOP sets the levels it names, with start after its packet, end E packets on and the low half of its operand as
current and reload count; a zero count leaves the body out. Where LOOP ends its packet, the loop action of R226 runs on the new
levels. Its traps come first, in order, and set nothing. -/
def Obligations.LoopWord : Prop := ∀ (s : State) (is : Issue) (l : LoopSpec),
  let w := s.warp is.who
  let pkt := pktOf is.pc
  let set0 : Option (SOp × BitVec 15) := match l with | .l0 c e => some (c, e) | .both c e _ _ => some (c, e) | .l1 _ _ => none
  let set1 : Option (SOp × BitVec 15) := match l with | .l1 c e => some (c, e) | .both _ _ c e => some (c, e) | .l0 _ _ => none
  let level := fun (x : Option (SOp × BitVec 15)) (old : LoopLvl) => match x with
    | none => old
    | some (c, e) => { start := pkt + 16, stop := pkt + 16 * e.setWidth 64, count := (is.sv s c).setWidth 32
                       reload := (is.sv s c).setWidth 32 }
  let wide := fun (x : Option (SOp × BitVec 15)) => match x with
    | none => False
    | some (c, _) => 2 ^ 32 ≤ (is.sv s c).toNat
  let new0 := level set0 is.w.l0
  let new1 := level set1 is.w.l1
  let misformed := new0.count ≠ 0 ∧ new1.count ≠ 0 ∧ new0.stop.toNat < new1.stop.toNat
  let skip : Option W64 := if set0.isSome ∧ new0.count = 0 then some (new0.stop + 16)
    else if set1.isSome ∧ new1.count = 0 then some (new1.stop + 16) else none
  let i := Instr.loop l
  let trap := fun c => Machine.exec i s = .next (s.trapAt is c (.same 0) is.pc)
  s.ready i = some is →
    (is.w.paths.length ≠ 1 → trap .loopdiv) ∧
    (is.w.paths.length = 1 → wide set0 ∨ wide set1 → trap .oprange) ∧
    (is.w.paths.length = 1 → ¬wide set0 → ¬wide set1 → misformed → trap .loopform) ∧
    (is.w.paths.length = 1 → ¬wide set0 → ¬wide set1 → ¬misformed → ∃ t, Machine.exec i s = .next t ∧
      (t.warp is.who).s = w.s ∧ (t.warp is.who).p = w.p ∧ (t.warp is.who).blocks = w.blocks ∧
      (t.warp is.who).core = w.core ∧ WordFrame s t is.who ∧
      (match skip with
       | some a => (t.warp is.who).l0 = new0 ∧ (t.warp is.who).l1 = new1 ∧
          ∃ p ∈ (t.warp is.who).paths, p.pc = a ∧ p.mask = is.path ∧ p.inside = false
       | none => let after := if is.pc.toNat / 4 % 4 < 2 then (new0, new1, is.pc + 8) else levelsAtEnd new0 new1 pkt
          (t.warp is.who).l0 = after.1 ∧ (t.warp is.who).l1 = after.2.1 ∧
          ∃ p ∈ (t.warp is.who).paths, p.pc = after.2.2 ∧ p.mask = is.path))

/-- R210, R231, R266, R421, R445: EXIT ends its issuing lanes, which leave every rejoin mask; with no issuing lane it only goes on;
in a handler that keeps lanes, on a path or parked, it leaves trap context on; the last lane of a handler ends it after the waits of
RTE, and what the frame holds comes back (the order of the two is the model's, log entry 92); on a control core it ends the
program: the stream is DONE at this packet. R218, R219, R268: REFORM by a seat of a quorum of more than one traps SEATED, its first
check (before the interlocks, too: log entry 11); else its issuing lanes wait to be filed, by REFORM_FILE, with the key operand and
the number of registers it names; with none of them the path goes on. -/
def Obligations.ExitAndReform : Prop :=
  (∀ (s : State) (is : Issue) (g : Guard),
  let i := Instr.exit g
  let stays := mdiff (s.ctl is.who).trapMask (is.mask ||| (s.warp is.who).exited) ≠ 0
  s.ready i = some is →
    (is.mask = 0 → ∃ t, Machine.exec i s = .next t ∧ RegFrame i s t is) ∧
    (is.mask ≠ 0 → isStream is.who = false → (s.ctl is.who).inTrap = false ∨ stays →
      ∃ t, Machine.exec i s = .next t ∧ t.mem = s.mem ∧ t.wgs = s.wgs ∧ (t.ctl is.who).inTrap = (s.ctl is.who).inTrap ∧
      (t.warp is.who).exited = (s.warp is.who).exited ||| is.mask ∧
      (∀ k, (t.warp is.who).kmask k = mdiff ((s.warp is.who).kmask k) is.mask) ∧
      (t.warp is.who).s = (s.warp is.who).s ∧ (t.warp is.who).p = (s.warp is.who).p ∧
      (t.warp is.who).blocks = (s.warp is.who).blocks) ∧
    (is.mask ≠ 0 → isStream is.who = false → (s.ctl is.who).inTrap = true → ¬stays →
      (s.handlerSettled is.who = false → Machine.exec i s = .next { s with blocked := true }) ∧
      (∀ u, s.handlerSettled is.who = true → s.readFrame is.who = (none, u) → Machine.exec i s = .next { u with blocked := true }) ∧
      (∀ bs ws u, s.handlerSettled is.who = true → s.readFrame is.who = (some (bs, ws), u) → ∃ t, Machine.exec i s = .next t ∧
        (t.ctl is.who).inTrap = false ∧ (t.ctl is.who).cause = 0 ∧ (t.ctl is.who).tvec = (u.ctl is.who).tvec ∧
        (t.warp is.who).s = ((u.warp is.who).ofLayout bs).s ∧ (t.warp is.who).p = ((u.warp is.who).ofLayout bs).p ∧
        (t.warp is.who).exited &&& is.mask = is.mask ∧
        (∀ b, b < min 2 (u.ctl is.who).trapCurb → ((t.warp is.who).block b).absent = true) ∧
        (∀ b, min 2 (u.ctl is.who).trapCurb ≤ b → (t.warp is.who).block b = (u.warp is.who).block b))) ∧
    (is.mask ≠ 0 → isStream is.who = true → ∃ t, Machine.exec i s = .next t ∧
      (t.stream (is.who - streamBase)).state = 3 ∧ (t.stream (is.who - streamBase)).strpc = pktOf is.pc ∧
      (t.warp is.who).paths = [] ∧ (t.warp is.who).s = (s.warp is.who).s)) ∧
  (∀ (s : State) (is : Issue) (g : Guard) (a : VOp) (n : BitVec 5),
  let i := Instr.reform g a n
  let seat := (s.ctl is.who).seated = true ∧ 1 < s.qsize is.who
  (s.issueOf i = some is → s.illegalHere is = false → seat → Machine.exec i s = .next (s.trapAt is .seated (.same 0) is.pc)) ∧
  (s.readyWith i reformPre noCheck = some is → ¬seat ∧
    (is.mask = 0 → ∃ t, Machine.exec i s = .next t ∧ RegFrame i s t is) ∧
    (is.mask ≠ 0 → ∃ t, Machine.exec i s = .next t ∧ WaitBegins s t is (.reform a n.toNat is.mask))))

/-- R284, R441 to R443, R453: TRAP in a warp with a handler, outside trap context, with its save area's pages ready, enters the
handler: the path's lanes run at TVEC with a window of at most two zeroed blocks; the other paths, the parked lanes, the rejoin
masks, the index registers, the loop levels and ARSTAT are put away; scalar registers and predicates stay, and the cause is in
TSTAT. The save area takes the frame, which is the state layout with the path at the word after TRAP, and each of its lanes' trap
words; both are stated where the pages of the two answer at once, once the handler's blocks have been saved, at places in device
memory. -/
def Obligations.TrapEntry : Prop := ∀ (s : State) (is : Issue) (code : BitVec 17),
  let w := s.warp is.who
  let c := s.ctl is.who
  let h := min 2 w.curb
  -- at the entry a seat has noted what it was to issue (R217), and what the path's groups kept is gone
  let e := ((w.pathAt is.lane).elim s (fun p => s.noteQtrap is.who p is.pc)).closeGroup.modCtl is.who (fun d => d.dropGroups is.path)
  let base := e.tsave is.who
  let trap : Trap := { cause := .swtrap, info := .same code.toNat, issue := is.mask, resume := afterWord is.pc, pc := is.pc
                       iword := is.iword, xword := is.xword }
  s.ready (.trap code) = some is → s.alone = true → isStream is.who = false → c.tvec ≠ 0 → c.inTrap = false →
    s.entryWaits is.who = none → ∀ u, e.saveAllReady is.who .store (e.entryRanges is.who) = (true, u) →
    let saved := ((List.range h).filter (fun b => !(w.block b).absent && (w.block b).dirty)).foldl
      (fun v b => v.saveBlock is.who base b (w.block b)) u
    let frame := (saved.setWarp is.who (w.atResume is.lane trap.resume)).layout is.who is.path
    ∃ t, Machine.exec (.trap code) s = .next t ∧
      (∀ pa : Nat → Nat, base % 4096 = 0 → (∀ k ∈ [0x24, 0x25, 0x27], isDev (pa k) = true ∧ pa k % 4096 = 0) →
        pa 0x24 ≠ pa 0x25 → pa 0x24 ≠ pa 0x27 → pa 0x25 ≠ pa 0x27 →
        (∀ x ∈ [(0x24000, 0x1000), (0x25000, 0x400)] ++ (lanesOf is.path).map (fun L => (0x27000 + 32 * L, 32)), ∃ leaf,
          saved.ask w.ctx (base + x.1) .store (coreOf is.who) is.who 0 (base + x.1) 0 x.2 =
            (.ok (pa (x.1 / 4096) + x.1 % 4096) leaf, saved)) →
        (∀ i, i < 0x1400 → t.physRead (pa (0x24 + i / 4096) + i % 4096) 1 = [frame.getD i 0]) ∧
        ∀ L ∈ lanesOf is.path, ∀ i, i < 32 → t.physRead (pa 0x27 + 32 * L + i) 1 = [(trapWords trap L).getD i 0]) ∧
      (t.ctl is.who).inTrap = true ∧ (t.ctl is.who).cause = 20 ∧ (t.ctl is.who).trapMask = is.path ∧
      (t.ctl is.who).tvec = c.tvec ∧
      (t.warp is.who).paths = [{ mask := is.path, pc := c.tvec, handler := true }] ∧ (t.warp is.who).parked = [] ∧
      (t.warp is.who).k = [] ∧ (t.warp is.who).x = [] ∧ (t.warp is.who).l0 = {} ∧ (t.warp is.who).l1 = {} ∧
      (t.warp is.who).arstat = 0 ∧ (t.warp is.who).s = w.s ∧ (t.warp is.who).p = w.p ∧ (t.warp is.who).curb = w.curb ∧
      (∀ r L, r < 8 * h → L < 128 → (t.warp is.who).reg r L = {}) ∧
      (∀ r L, 8 * h ≤ r → L < 128 → (t.warp is.who).reg r L = w.reg r L)

/-- R440, R449: a trap of a warp with no handler, or in trap context, stops the warp for good; a trap of a stream ends its program
in the state TRAPPED at the trapping packet. Any word's trap does so; TRAP shows it. -/
def Obligations.FatalAndStreamTraps : Prop := ∀ (s : State) (is : Issue) (code : BitVec 17),
  s.ready (.trap code) = some is →
    (isStream is.who = false → (s.ctl is.who).tvec = 0 ∨ (s.ctl is.who).inTrap = true →
      ∃ t, Machine.exec (.trap code) s = .next t ∧ (t.ctl is.who).fatal = true ∧ (t.ctl is.who).waits = [] ∧
        (t.warp is.who).s = (s.warp is.who).s ∧ (t.warp is.who).blocks = (s.warp is.who).blocks ∧
        t.warpMay is.who = false) ∧
    (isStream is.who = true → ∃ t, Machine.exec (.trap code) s = .next t ∧
      (t.stream (is.who - streamBase)).state = 4 ∧ (t.stream (is.who - streamBase)).strpc = pktOf is.pc ∧
      (t.warp is.who).paths = [] ∧ t.streamMay (is.who - streamBase) = false)

/-- R285, R446: RTE waits for the handler's accesses and for the frame's pages. Then it completes and trap context ends: the
scalars, predicates and rejoin masks are those of the frame, the handler's blocks are absent until they are read back and the
other blocks stay. Where no lane has exited in the handler, lanes parked for a rejoin mask of the frame whose condition holds leave
(R211); where none holds, the index registers and the loop levels are the frame's too, the lanes of the interrupted path go on at
their resume words, those of equal words as one path, and the other paths as they were. R446 step 5: where that would leave more
than one path in a loop, it is fatal. -/
def Obligations.ReturnFromTrap : Prop := ∀ (s : State) (is : Issue),
  s.ready .rte = some is → s.alone = true →
    (s.ctl is.who).inTrap = true ∧
    (s.handlerSettled is.who = false → Machine.exec .rte s = .next { s with blocked := true }) ∧
    (∀ u, s.handlerSettled is.who = true → s.readFrame is.who = (none, u) →
      Machine.exec .rte s = .next { u with blocked := true }) ∧
    (∀ bs ws u, s.handlerSettled is.who = true → s.readFrame is.who = (some (bs, ws), u) →
      let w := u.warp is.who
      let c := u.ctl is.who
      let r := w.ofLayout bs
      let mask := mdiff c.trapMask w.exited
      let goes := fun L => BitVec.ofNat 64 (sub ws (32 * L) 8) &&& ~~~3#64
      let splits := ∃ L ∈ lanesOf mask, ∃ M ∈ lanesOf mask, goes L ≠ goes M
      let looping := r.l0.count ≠ 0 ∨ r.l1.count ≠ 0
      let parkedAt := fun (ps : List Parked) k => (ps.filter (fun q => q.site.names k)).foldl (fun m q => m ||| q.mask) 0
      let met := fun k => r.kmask k &&& r.live ≠ 0 ∧ mdiff (r.kmask k &&& r.live) (parkedAt r.parked k) = 0
      (splits ∧ looping → ∃ t, Machine.exec .rte s = .next t ∧ (t.ctl is.who).fatal = true) ∧
      (¬(splits ∧ looping) → ∃ t, Machine.exec .rte s = .next t ∧
        (t.ctl is.who).inTrap = false ∧ (t.ctl is.who).cause = 0 ∧ (t.ctl is.who).tvec = c.tvec ∧
        (t.warp is.who).s = r.s ∧ (t.warp is.who).p = r.p ∧ (t.warp is.who).k = r.k ∧
        (∀ b, b < min 2 c.trapCurb → ((t.warp is.who).block b).absent = true) ∧
        (∀ b, min 2 c.trapCurb ≤ b → (t.warp is.who).block b = w.block b) ∧
        (c.trapMask &&& w.exited = 0 → r.exited = w.exited → ∀ k, k < 16 → met k →
          parkedAt (t.warp is.who).parked k &&& (r.kmask k &&& r.live) = 0) ∧
        (c.trapMask &&& w.exited = 0 → r.exited = w.exited → (∀ k, k < 16 → ¬met k) →
          (t.warp is.who).x = r.x ∧ (t.warp is.who).l0 = r.l0 ∧ (t.warp is.who).l1 = r.l1 ∧
          (t.warp is.who).arstat = r.arstat ∧ (t.warp is.who).parked = r.parked.map (fun q => { q with gen := c.gen }) ∧
          (∀ L ∈ lanesOf mask, ∃ p ∈ (t.warp is.who).paths, p.pc = goes L ∧ p.handler = false ∧ p.inside = false ∧
            ∀ M, M < 128 → p.mask.getLsbD M = (mask.getLsbD M && goes M == goes L)) ∧
          (∀ p ∈ layoutPaths bs, mdiff p.mask (mask ||| w.exited) ≠ 0 → ∃ q ∈ (t.warp is.who).paths,
            q.mask = mdiff p.mask (mask ||| w.exited) ∧ q.pc = p.pc))))

/-- R18, R82, R117, R328, R330, R333, R337: LD, ST, ATOM, LDMX and STMX outside `rw:` form their lanes' addresses and start their
operation, to be performed later; with no issuing lane they only go on, and with no room the warp stalls at them. LD, ST and ATOM
add base, offset (0, unsigned or signed) and immediate; the MX words take block B of the array at base + immediate. The operation
holds what the registers hold now: the destinations, the words stored, an atomic's operand and compare value, an MX store's element
and scale bytes, of the plane that the word names. -/
def Obligations.MemoryIssue : Prop := ∀ (s : State) (is : Issue) (lz : LdSize) (sz : StSize) (x : MemArgs) (y : AtomArgs)
    (m : MxMemArgs),
  let off := fun (nov uofs : Bool) (a : VOp) (L : Nat) =>
    let v := is.src (useS a) L
    if nov then (0 : Int) else if uofs then (v.toNat : Int) else v.toInt
  let plain := fun L => ((is.sv s x.xm.base).toNat : Int) + off x.nov x.uofs x.a L + x.xm.imm.toInt
  let atom := fun L => ((is.sv s y.base).toNat : Int) + off y.nov y.uofs y.a L + y.imm.toInt * (if y.ty.is64 then 8 else 4)
  let block := fun L => ((is.sv s m.xm.base).toNat : Int) + m.xm.imm.toInt +
    (mxOffset m.fe (is.src (useS m.a) L).toNat : Int)
  let starts := fun (i : Instr) (ea : Nat → Int) (more : MemOp → Prop) =>
    s.readyWith i noCheck memAlign = some is →
      (is.mask = 0 → ∃ t, Machine.exec i s = .next t ∧ RegFrame i s t is) ∧
      (is.mask ≠ 0 → s.memRoom is = true → ∃ t o, Machine.exec i s = .next t ∧ MemBegins s t is ea o ∧ more o) ∧
      (is.mask ≠ 0 → s.memRoom is = false → Machine.exec i s =
        .next { s.modCtl is.who (fun c => { c with stall := some is.lane }) with blocked := true })
  let dest := fun (i : Instr) (u : VUse) (o : MemOp) => ∀ L ∈ lanesOf is.mask, mget o.dst L = some (regOf is.w (vuses i) u L)
  let words := fun (i : Instr) (u : VUse) (n : Nat) (o : MemOp) => ∀ L ∈ lanesOf is.mask, ∃ v, mget o.data L = some v ∧
    ∀ k, k < n → v.extractLsb' (32 * k) 32 = is.w.val (regOf is.w (vuses i) u L + k) L
  (x.xm.space ≠ .rw → starts (.ld lz x) plain (dest (.ld lz x) (useMem x.d (ldRegs lz) false true))) ∧
  (x.xm.space ≠ .rw → starts (.st sz x) plain (words (.st sz x) (useMem x.d (stRegs sz) true false) (stRegs sz))) ∧
  starts (.atom y) atom (fun o =>
    let u : VUse := { op := y.d, n := if y.ty.is64 then 2 else 1, src := y.aop == .cas, dst := !y.noret, pair := y.ty.is64 }
    (y.noret = false → dest (.atom y) u o) ∧ (y.noret = true → o.dst = []) ∧
    ∀ L ∈ lanesOf is.mask, mget o.data L = some (BitVec.ofNat 128 (is.num (useS y.b y.ty.is64) L)) ∧
      (y.aop = .cas → mget o.cmp L = some (BitVec.ofNat 64 (is.num u L)))) ∧
  starts (.ldmx m) block (dest (.ldmx m) (useDS m.d true)) ∧
  (mxformBad is m.a = none → starts (.stmx m) block (fun o => ∀ L ∈ lanesOf is.mask,
    let r := regOf is.w (vuses (.stmx m)) (useS m.d true) L
    let byte := fun k => (is.w.val (r + k) L).toNat / 256 ^ m.plane.val % 256
    mget o.data L = some (BitVec.ofNat 128 (byte 0)) ∧ mget o.cmp L = some (BitVec.ofNat 64 (byte 1))))

/-- R19, R333, R335: a lane whose address is no multiple of the access's size, or an MX array that does not start on a line,
traps ALIGN, and STMX with a group of 32 lanes that issues in part traps MXFORM: no register or memory is written first. -/
def Obligations.MemoryTraps : Prop := ∀ (s : State) (is : Issue) (lz : LdSize) (sz : StSize) (x : MemArgs) (y : AtomArgs)
    (m : MxMemArgs),
  let misaligned := fun (i : Instr) (n : Nat) => s.issueOf i = some is → s.illegalHere is = false → s.boundTrap is = none →
    s.held is = false → (∃ L ∈ lanesOf is.mask, eaOf is s L % (n : Int) ≠ 0) →
      ∃ v, Machine.exec i s = .next (s.trapAt is .align (.each v) is.pc)
  let array := fun (i : Instr) => s.issueOf i = some is → s.illegalHere is = false → s.boundTrap is = none → s.held is = false →
    is.mask ≠ 0 → (((is.sv s m.xm.base).toNat : Int) + m.xm.imm.toInt) % 128 ≠ 0 →
      ∃ v, Machine.exec i s = .next (s.trapAt is .align (.each v) is.pc)
  (x.xm.space ≠ .rw → misaligned (.ld lz x) (match lz with | .u8 | .s8 => 1 | .u16 | .s16 => 2 | .b4 => 4 | .b8 => 8 | .b16 => 16)) ∧
  (x.xm.space ≠ .rw → misaligned (.st sz x) (match sz with | .u8 => 1 | .u16 => 2 | .b4 => 4 | .b8 => 8 | .b16 => 16)) ∧
  (y.space ≠ .rw → misaligned (.atom y) (if y.ty.is64 then 8 else 4)) ∧
  (m.xm.space ≠ .rw → array (.ldmx m) ∧ array (.stmx m)) ∧
  (s.readyWith (.stmx m) noCheck memAlign = some is →
    (∃ j L M, j < 4 ∧ L / 32 = j ∧ M / 32 = j ∧ L < 128 ∧ M < 128 ∧ is.mask.getLsbD L = true ∧ is.mask.getLsbD M = false) →
      ∃ j, Machine.exec (.stmx m) s = .next (s.trapAt is .mxform (.same j) is.pc))

/-- R33, R35, R328, R330: LD and ST through the `rw:` lane view act at once: byte A of the view is byte A mod 4 of register A / 4 of
the lane itself. A register that receives a byte of a poisoned one is poisoned. A store of a whole register clears its poison, a
smaller one keeps it. No register the view touches may be absent or waited for. -/
def Obligations.RegisterView : Prop := ∀ (s : State) (is : Issue) (lz : LdSize) (sz : StSize) (x : MemArgs),
  let at_ := fun L => (eaOf is s L).toNat
  let free := fun (n : Nat) => (∀ r ∈ s.viewTouch is n, ((s.warp is.who).block (r / 8)).absent = false) ∧ s.viewWaits is n = false
  let byte := fun L (j : Nat) => BitVec.ofNat 8 ((is.w.val ((at_ L + j) / 4) L).toNat / 2 ^ (8 * ((at_ L + j) % 4)))
  let n := match lz with | .u8 | .s8 => 1 | .u16 | .s16 => 2 | .b4 => 4 | .b8 => 8 | .b16 => 16
  let raw := fun L => leNat ((List.range n).map (byte L))
  let v := fun L => match lz with
    | .s8 => (BitVec.ofInt 32 (BitVec.ofNat 8 (raw L)).toInt).toNat
    | .s16 => (BitVec.ofInt 32 (BitVec.ofNat 16 (raw L)).toInt).toNat
    | _ => raw L
  let bad := fun L k => (List.range n).any (fun j => j / 4 == k && (is.w.reg ((at_ L + j) / 4) L).poison)
  let d := fun L => regOf is.w (vuses (.ld lz x)) (useMem x.d (ldRegs lz) false true) L
  let m := match sz with | .u8 => 1 | .u16 => 2 | .b4 => 4 | .b8 => 8 | .b16 => 16
  let u := useMem x.d (stRegs sz) true false
  let w := fun L k => is.w.val (regOf is.w (vuses (.st sz x)) u L + k) L
  let old := fun L => (s.warp is.who).reg (at_ L / 4) L
  let sh := fun L => 8 * (at_ L % 4)
  x.xm.space = .rw → (s.ctl is.who).inTrap = false →
  (s.readyWith (.ld lz x) noCheck memAlign = some is → free n → ∃ t, Machine.exec (.ld lz x) s = .next t ∧
    (∀ L ∈ lanesOf is.mask, ∀ k, k < ldRegs lz → (t.warp is.who).reg (d L + k) L = ⟨BitVec.ofNat 32 (v L / 2 ^ (32 * k)), bad L k⟩) ∧
    (∀ r L, L < 128 → (L ∈ lanesOf is.mask → ∀ k, k < ldRegs lz → r ≠ d L + k) → (t.warp is.who).reg r L = (s.warp is.who).reg r L) ∧
    (t.warp is.who).s = (s.warp is.who).s ∧ (t.warp is.who).p = (s.warp is.who).p ∧ (t.warp is.who).core = (s.warp is.who).core ∧
    WordFrame s t is.who) ∧
  (s.readyWith (.st sz x) noCheck memAlign = some is → free m → ∃ t, Machine.exec (.st sz x) s = .next t ∧
    (∀ L ∈ lanesOf is.mask,
      (4 ≤ m → ∀ k, k < stRegs sz → (t.warp is.who).reg (at_ L / 4 + k) L = ⟨w L k, false⟩) ∧
      (m < 4 → (t.warp is.who).reg (at_ L / 4) L = ⟨merge (old L).val (BitVec.ofNat 32 ((2 ^ (8 * m) - 1) * 2 ^ sh L))
        (BitVec.ofNat 32 ((w L 0).toNat * 2 ^ sh L)), (old L).poison⟩)) ∧
    (∀ r L, L < 128 → (L ∈ lanesOf is.mask → r < at_ L / 4 ∨ at_ L / 4 + stRegs sz ≤ r) →
      (t.warp is.who).reg r L = (s.warp is.who).reg r L) ∧
    (t.warp is.who).s = (s.warp is.who).s ∧ (t.warp is.who).p = (s.warp is.who).p ∧ (t.warp is.who).core = (s.warp is.who).core ∧
    WordFrame s t is.who)

/-- R144, R145, R155, R339, R343: FENCE waits for the accesses its order names, and an acquire of a scope wider than the
workgroup then empties the L1 of the warp's core and opens a new epoch, once no fill of that epoch is outstanding; IFENCE
drops the core's instruction cache and opens a new generation of fetches: a packet entered from then on is fetched anew, and the
copies of packets that paths stand in stay. R144, R286: TLBINV first waits until every earlier access and engine operation of its
thread is complete, and nothing of it has started then; settled, it starts an invalidation of its scope for its context and waits
at it. A page form reads the region entry of its address, which the machine keeps from then on (R107, R128); a page range that R286
forbids traps OPRANGE and starts nothing. -/
def Obligations.OrderingWords : Prop :=
  (∀ (s : State) (is : Issue) (o : FOrd) (sc : Scope),
  let core := coreOf is.who
  let wide := sc = .cluster ∨ sc = .device ∨ sc = .system
  let blocked : State := { s with blocked := true }
  let early := match o with
    | .acquire => s.loadsDone is.who = false
    | _ => s.settled is.who = false
  let drops := o ≠ .release ∧ wide ∧ isStream is.who = false
  let keeps := fun (t : State) => t.mem = s.mem ∧ t.wgs = s.wgs ∧ t.mops = s.mops ∧ (t.warp is.who).s = (s.warp is.who).s ∧
    (t.warp is.who).p = (s.warp is.who).p ∧ (t.warp is.who).blocks = (s.warp is.who).blocks ∧
    (t.warp is.who).core = (s.warp is.who).core
  (s.ready (.fence o sc) = some is →
    (early → Machine.exec (.fence o sc) s = .next blocked) ∧
    (¬early → ¬drops → ∃ t, Machine.exec (.fence o sc) s = .next t ∧ RegFrame (.fence o sc) s t is) ∧
    (¬early → drops → s.canFlash core = false → Machine.exec (.fence o sc) s = .next blocked) ∧
    (¬early → drops → s.canFlash core = true → ∃ t, Machine.exec (.fence o sc) s = .next t ∧ keeps t ∧
      (t.core core).l1 = [] ∧ (t.core core).epoch = (s.core core).epoch + 1)) ∧
  (s.ready .ifence = some is →
    (s.settled is.who = false → Machine.exec .ifence s = .next blocked) ∧
    (s.settled is.who = true → ∃ t, Machine.exec .ifence s = .next t ∧ keeps t ∧
      (isStream is.who = false → (t.core core).icache = []) ∧
      (t.ctl is.who).fetched = (s.ctl is.who).fetched ∧ (t.ctl is.who).gen = (s.ctl is.who).gen + 1))) ∧
  (∀ (s : State) (is : Issue) (sa sb : SOp),
  let va := (is.sv s sa).toNat
  let n := (is.sv s sb).toNat
  let read := s.noteVa is.ctx va (reqOf is.who false is.ctx is.pc)
  let entry := (read.regionEntry is.ctx (va / 2 ^ 51 % 64)).bind Region.ofEntry
  let inside := ∃ r, entry = some r ∧ 1 ≤ n ∧ n ≤ 65536 ∧ va < 2 ^ 57 ∧
    va % 2 ^ 51 / 2 ^ pageBits r.pgsz * 2 ^ pageBits r.pgsz + n * 2 ^ pageBits r.pgsz ≤ 2 ^ 51
  let starts := fun (i : Instr) (b : State) (kind va n : Nat) =>
    (s.settled is.who = false → Machine.exec i s = .next { b with blocked := true }) ∧
    (s.settled is.who = true → ∃ t x, Machine.exec i s = .next t ∧ t.invals = b.invals ++ [x] ∧ x.id = b.nextId ∧ x.kind = kind ∧
      x.ctx = is.ctx ∧ x.va = va ∧ x.pages = n ∧ x.who = some (is.who, is.lane) ∧ x.host = false ∧
      (t.ctl is.who).waits = (b.ctl is.who).waits ++ [⟨.tlbinv x.id, is.lane, s.clock, b.nextId + 1⟩] ∧ t.mem = b.mem ∧
      t.cores = b.cores ∧ t.clusters = b.clusters ∧ t.regions = b.regions ∧ (t.warp is.who).s = (s.warp is.who).s ∧
      (t.warp is.who).p = (s.warp is.who).p ∧ (t.warp is.who).blocks = (s.warp is.who).blocks ∧
      (t.warp is.who).paths = (s.warp is.who).paths)
  (s.ready (.tlbinvPage sa sb) = some is →
    (¬inside → Machine.exec (.tlbinvPage sa sb) s = .next (read.trapAt is .oprange (.same 0) is.pc)) ∧
    (inside → starts (.tlbinvPage sa sb) read 0 va n ∧
      (mget read.regions (64 * is.ctx + va / 2 ^ 51 % 64)).bind Region.ofEntry = entry)) ∧
  (s.ready .tlbinvCtx = some is → starts .tlbinvCtx s 1 0 0) ∧
  (s.ready .tlbinvAll = some is → starts .tlbinvAll s 2 0 0))

/-- R277, R280 to R283, R437: FEATQ and CSRR write the word or register they name to `sd`: the context's feature floor, IMPLW,
ARSTAT, the partition word, the violation log, the scratchpad table, TVEC and TSTAT as the state holds them. A number the
requester may not read raises ILLINS. A region entry is read with its base address alone, and is kept from then on (R107, R128); one
whose table read meets poison gives an open value (log entry 6). -/
def Obligations.SystemReads : Prop := ∀ (s : State) (is : Issue) (sd : Fin 96) (n : BitVec 12),
  let i := Instr.csrr sd n
  let w := s.warp is.who
  let c := s.ctl is.who
  let held : Nat → W64 := fun k =>
    if k = 0x000 then is.w.arstat.setWidth 64
    else if k = 0x002 then (s.core (coreOf is.who)).partw.setWidth 64
    else if k = 0x010 then w.viol.info
    else if k = 0x011 then w.viol.addr
    else if k = 0x012 then w.viol.pc
    else if k = 0x100 then c.tvec
    else if k = 0x101 then BitVec.ofNat 64 ((if c.inTrap then 2 ^ 10 + c.cause else 0) + (if c.pabft then 2 ^ 9 else 0) + (if c.pmtx then 2 ^ 8 else 0))
    else if k = 0x102 then BitVec.ofNat 64 (s.tsave is.who)
    else (s.wgOf is.who).elim 0 (fun g => mgetD g.spxt (k - 0x40) 0)
  (∀ f, s.ready (.featq sd f) = some is → ScalarDone (.featq sd f) s is sd.val (match f with
    | .feat0 => BitVec.ofNat 64 (bitsOf (s.ctxDescr is.ctx) 448 64)
    | .feat1 => BitVec.ofNat 64 (bitsOf (s.ctxDescr is.ctx) 384 64)
    | .implw => BitVec.ofNat 64 (Config.stepping.toNat * 2 ^ 48 + s.regs.cclk * 2 ^ 32 + 1500 * 2 ^ 16 + 0x48 * 2 ^ 8))) ∧
  (s.readyWith i (csrrPre n) noCheck = some is → isStream is.who = false →
    (n.toNat ∈ [0x000, 0x002, 0x010, 0x011, 0x012, 0x100, 0x101, 0x102] ∨ (0x040 ≤ n.toNat ∧ n.toNat ≤ 0x05F)) →
    ScalarDone i s is sd.val (held n.toNat)) ∧
  let m := n.toNat - 0x080
  let table := 0x080 ≤ n.toNat ∧ n.toNat ≤ 0x0BF
  let first := s.noteRegion is.ctx m (reqOf is.who false is.ctx is.pc)
  (s.readyWith i (csrrPre n) noCheck = some is → ∀ v, s.csrValue is n.toNat = some (some v) →
    (table → mhas s.regions (64 * is.ctx + m) = true) → ScalarDone i s is sd.val v) ∧
  (s.readyWith i (csrrPre n) noCheck = some is → table → ∀ e, first.regionEntry is.ctx m = some e →
    ∃ t, Machine.exec i s = .next t ∧ (t.warp is.who).sreg sd.val = e &&& ~~~0xFFF#64 ∧ mget t.regions (64 * is.ctx + m) = some e ∧
      t.mem = first.mem ∧ (∀ k, k ≠ sd.val → (t.warp is.who).sreg k = (s.warp is.who).sreg k) ∧
      (t.warp is.who).p = (s.warp is.who).p ∧ (t.warp is.who).blocks = (s.warp is.who).blocks) ∧
  (s.readyWith i (csrrPre n) noCheck = some is → table → first.regionEntry is.ctx m = none →
    ∃ t, Machine.exec i s = .next t ∧ (t.warp is.who).sreg sd.val = Config.freeWord first.fresh ∧ t.mem = first.mem) ∧
  (s.issueOf i = some is → s.illegalHere is = false → s.csrValue is n.toNat = none →
    Machine.exec i s = .next (s.trapAt is .illins (.same 0) is.pc)) ∧
  (isStream is.who = true → n.toNat ∈ [0x001, 0x002, 0x010, 0x011, 0x012, 0x100, 0x101, 0x102] → s.csrValue is n.toNat = none) ∧
  (isStream is.who = false → (0x0C0 ≤ n.toNat ∧ n.toNat ≤ 0x0C3) ∨ (0x110 ≤ n.toNat ∧ n.toNat ≤ 0x114) →
    s.csrValue is n.toNat = none)

/-- R41, R122 to R124, R277, R278, R420, R421, R437, R464, R466: CSRW clears the flags of ARSTAT that are 1 in its source, sets TVEC to
a packet address and lets a handler clear VIOLINFO. On a control core it writes the event mask, the bases, tails and lost count of
the fault and error rings, and STRPC, STRARG, EVQBASE and EVQTAIL of a stream of its cluster; a tail takes a count within its ring's
size alone, a read-only register takes nothing. FRESP answers the fault it names, and STRCTL takes CTXID while the stream is not
active and then halts or starts it as the host's commands do. Registers, memory and the other registers of these kinds stay. A
number the requester may not write raises ILLINS. -/
def Obligations.CsrWrites : Prop := ∀ (s : State) (is : Issue) (ss : SOp) (n : BitVec 12),
  let i := Instr.csrw ss n
  let w := s.warp is.who
  let c := s.ctl is.who
  let v := is.sv s ss
  let to_ := fun (f : State → Prop) => s.readyWith i (csrwPre n) noCheck = some is → ∃ t, Machine.exec i s = .next t ∧ f t ∧
    t.mem = s.mem ∧ (t.warp is.who).s = w.s ∧ (t.warp is.who).p = w.p ∧ (t.warp is.who).blocks = w.blocks
  let writable := fun (k : Nat) => k = 0 ∨
    (isStream is.who = true ∧ ((0x0C0 ≤ k ∧ k ≤ 0x0C3) ∨ (0x110 ≤ k ∧ k ≤ 0x114) ∨ k = 0x120 ∨
      (0x200 ≤ k ∧ k < 0x280 ∧ k % 8 < 6))) ∨
    (isStream is.who = false ∧ (k = 0x100 ∨ (k = 0x010 ∧ c.inTrap = true)))
  (n = 0x000 → to_ (fun t => (t.ctl is.who).tvec = c.tvec ∧ (t.warp is.who).viol = w.viol ∧
    (s.alone = true → (t.warp is.who).arstat = w.arstat &&& ~~~(v.extractLsb' 0 32 &&& 0x7F)))) ∧
  (n = 0x100 → isStream is.who = false → to_ (fun t => (t.ctl is.who).tvec = v &&& 0x01FFFFFFFFFFFFF0 ∧
    (t.ctl is.who).inTrap = c.inTrap ∧ (t.warp is.who).viol = w.viol ∧ (s.alone = true → (t.warp is.who).arstat = w.arstat))) ∧
  (n = 0x010 → isStream is.who = false → to_ (fun t => (t.ctl is.who).tvec = c.tvec ∧ (t.warp is.who).viol.addr = w.viol.addr ∧
    (t.warp is.who).viol.pc = w.viol.pc ∧ (s.alone = true → (t.warp is.who).arstat = w.arstat) ∧
    (v.getLsbD 63 = true → bitsOf (t.warp is.who).viol.info 48 16 = 0 ∧ bitsOf (t.warp is.who).viol.info 0 48 = bitsOf w.viol.info 0 48) ∧
    (v.getLsbD 63 = false → v.getLsbD 62 = true → (t.warp is.who).viol.info = w.viol.info &&& 0xBFFFFFFFFFFFFFFF) ∧
    (v.getLsbD 63 = false → v.getLsbD 62 = false → (t.warp is.who).viol.info = w.viol.info))) ∧
  let cl := clusterOf is.who
  let k := s.cluster cl
  let base := v &&& 0x000FFFFFFFFFF00F
  let only := fun (k' : Cluster) (t : State) =>
    t.cluster cl = k' ∧ (∀ c, c ≠ cl → t.cluster c = s.cluster c) ∧ t.streams = s.streams
  (isStream is.who = true →
    (n = 0x120 → to_ (only { k with recctl := v &&& 0x1FFE })) ∧
    (n = 0x0C0 → to_ (only { k with fqbase := base })) ∧
    (n = 0x0C2 → to_ (only { k with fqtail := if (k.fqhead - v).toNat ≤ ringSize k.fqbase then v else k.fqtail })) ∧
    (n = 0x110 → to_ (only { k with errbase := base })) ∧
    (n = 0x112 → to_ (only { k with errtail := if (k.errhead - v).toNat ≤ ringSize k.errbase then v else k.errtail })) ∧
    (n = 0x113 → to_ (only { k with errlost := v.extractLsb' 0 16 })) ∧
    (n = 0x0C1 ∨ n = 0x111 ∨ n = 0x114 → to_ (only k)) ∧
    (n = 0x0C3 → s.readyWith i (csrwPre n) noCheck = some is → ∃ t, Machine.exec i s = .next t ∧
      let fid := bitsOf v 48 16
      let j := if bitsOf v 0 2 = 0 then Instr.frespReplay cl fid
        else if bitsOf v 0 2 = 2 then Instr.frespProt cl fid else Instr.frespNomap cl fid
      ∀ u, Machine.exec j s = .next u → t.treqs = u.treqs ∧ t.clusters = u.clusters ∧ t.mem = u.mem)) ∧
  (∀ m < 16, isStream is.who = true →
    let j := 16 * cl + m
    let x := s.stream j
    let active := x.state == 1 || x.state == 2
    let reg := fun (o : Nat) => n.toNat = 0x200 + 8 * m + o
    let sets := fun (y : Stream) => to_ (fun t => t.stream j = y ∧ (∀ l, l ≠ j → t.stream l = s.stream l) ∧ t.clusters = s.clusters)
    (reg 1 → sets { x with strpc := if active then x.strpc else v &&& ~~~0xF }) ∧
    (reg 2 → sets { x with strarg := v }) ∧
    (reg 3 → sets { x with evqbase := base }) ∧
    (reg 4 → sets x) ∧
    (reg 5 → sets { x with evqtail := if (x.evqhead - v).toNat ≤ ringSize x.evqbase then v else x.evqtail }) ∧
    (reg 0 → let y : State := if active then s else s.setStream j { x with ctx := bitsOf v 0 12 }
      (v.getLsbD 62 = false → v.getLsbD 63 = false → sets (y.stream j)) ∧
      (v.getLsbD 62 = true ∨ v.getLsbD 63 = true → s.readyWith i (csrwPre n) noCheck = some is →
        ∃ t u, Machine.exec i s = .next t ∧
          Machine.exec (if v.getLsbD 62 then .strctlHalt j else .strctlGo j) y = .next u ∧ t.streams = u.streams ∧ t.mem = u.mem))) ∧
  (s.issueOf i = some is → s.illegalHere is = false → ¬writable n.toNat →
    Machine.exec i s = .next (s.trapAt is .illins (.same 0) is.pc))

/-- R291 to R293, R340, R341, R421, R424, R519: WAITSEM and TWAIT begin a wait on the word they name; a WAITSEM of a stream that is
to suspend begins none: the stream stands at its boundary. SIGNALSEM stores its value or adds it, once the stream's accesses are
complete; EVENT writes its record at the head of the stream's queue, or waits while accesses of the stream are outstanding or the
queue is full or holds older records, in STATE 2 where the queue is full. A misaligned address traps ALIGN; an address that may not
be accessed ends the program. -/
def Obligations.SemaphoreWords : Prop := ∀ (s : State) (is : Issue) (c : SemCmp) (sa sb : SOp) (sd : Fin 96) (sp irq : Bool),
  let addr := (is.sv s sa).toNat
  let j := is.who - streamBase
  let x := s.stream j
  let blocked : State := { s with blocked := true }
  let e := Instr.event irq sa sb
  let rec_ := fun (t : State) => leWord 256 (t.physRead (ringSlot x.evqbase x.evqhead 32) 32)
  let signal := fun (i : Instr) (acc : Acc) (new : W64 → W64) => s.readyWith i noCheck (semAlign sa) = some is →
    (s.settled is.who = false → Machine.exec i s = .next blocked) ∧
    (s.settled is.who = true → ∀ pa leaf t, s.ask is.ctx addr acc (coreOf is.who) is.who twaitTag addr 0 8 = (.ok pa leaf, t) →
      let u := t.locTouch (.phys pa) 8 (reqOf is.who false is.ctx is.pc)
      t.linkFails pa 8 = false → u.locPoison (.phys pa) 8 = false →
      ∃ v, Machine.exec i s = .next v ∧ leWord 64 (v.physRead pa 8) = new (leWord 64 (u.locRead (.phys pa) 8)) ∧
        (v.warp is.who).s = (s.warp is.who).s ∧ (v.warp is.who).p = (s.warp is.who).p ∧ (v.stream j).state = x.state) ∧
    (s.settled is.who = true → ∀ k t, s.ask is.ctx addr acc (coreOf is.who) is.who twaitTag addr 0 8 = (.viol k, t) →
      ∃ v, Machine.exec i s = .next v ∧ (v.stream j).state = 4 ∧ (v.stream j).strpc = pktOf is.pc)
  let misaligned := fun (i : Instr) (n : Nat) => s.issueOf i = some is → s.illegalHere is = false → s.boundTrap is = none →
    s.held is = false → addr % n ≠ 0 →
    Machine.exec i s = .next (s.trapAt is .align (.same addr) is.pc)
  (s.readyWith (.waitsem c sa sb) noCheck (semAlign sa) = some is → x.suspended = true →
    Machine.exec (.waitsem c sa sb) s = .next { s.modCtl is.who (fun y => { y with boundary := true }) with blocked := true }) ∧
  (s.readyWith (.waitsem c sa sb) noCheck (semAlign sa) = some is → x.suspended = false →
    ∃ t, Machine.exec (.waitsem c sa sb) s = .next t ∧ WaitBegins s t is (.sem c addr (is.sv s sb))) ∧
  (s.readyWith (.twait sd sa sp) noCheck (twaitAlign sa) = some is →
    ∃ t, Machine.exec (.twait sd sa sp) s = .next t ∧ WaitBegins s t is (.twait sd addr sp)) ∧
  signal (.signalsemSet sa sb) .store (fun _ => is.sv s sb) ∧
  signal (.signalsemAdd sa sb) .atomic (fun old => old + is.sv s sb) ∧
  misaligned (.waitsem c sa sb) 8 ∧ misaligned (.signalsemSet sa sb) 8 ∧ misaligned (.signalsemAdd sa sb) 8 ∧
  misaligned (.twait sd sa sp) 16 ∧
  (s.ready e = some is →
    (s.settled is.who = false ∨ x.full = true ∨ x.held ≠ [] → ∃ t, Machine.exec e s = .next t ∧
      (t.stream j).state = (if x.full = true then 2 else x.state) ∧
      (t.stream j).evqhead = x.evqhead ∧ t.mem = s.mem ∧
      (t.ctl is.who).waits = (s.ctl is.who).waits ++ [⟨.event irq (is.sv s sa) (is.sv s sb), is.lane, s.clock, s.nextId⟩]) ∧
    (s.settled is.who = true → x.full = false → x.held = [] → s.linkFails (ringSlot x.evqbase x.evqhead 32) 32 = false →
      ∃ t, Machine.exec e s = .next t ∧
      (t.stream j).evqhead = x.evqhead + 1 ∧ (t.stream j).state = x.state ∧
      (rec_ t).extractLsb' 0 46 = x.evqhead.extractLsb' 0 46 ∧ (rec_ t).getLsbD 46 = irq ∧ bitsOf (rec_ t) 56 8 = 1 ∧
      (rec_ t).extractLsb' 64 64 = is.pc ∧ (rec_ t).extractLsb' 128 64 = is.sv s sa ∧
      (rec_ t).extractLsb' 192 64 = is.sv s sb ∧ (irq = true → Out.msix j ∈ t.outbox)))

/-- R100, R102, R148, R149, R237, R287, R342, R344 to R346: LAUNCH, PREFETCH.L2 and COPY start their engine operation with the
values their registers hold and go on; their flag rises by 1. A LAUNCH, or a COPY with .REL, follows every memory operation of the
thread; a COPY without it those outside `g:`, the acquires, and those before an outstanding release. A value out of range traps
OPRANGE, a misaligned address ALIGN, and nothing starts. -/
def Obligations.EngineWords : Prop := ∀ (s : State) (is : Issue) (sa sb : SOp) (cf : BitVec 5) (cc : BitVec 6) (stok : Fin 96)
    (tsp : Bool) (x : CopyArgs),
  let a := is.sv s sa
  let n := is.sv s sb
  let own := (mvals s.mops).filter (fun o => o.who == is.who)
  let mine := fun (rel : Bool) => (own.filter (fun o => rel || memSpace o.instr != .g || isAcquire o.instr ||
    own.any (fun r => isRelease r.instr && decide (o.id < r.id)))).map MemOp.id
  let status : Option Nat := if sb = .special .zero then none else some n.toNat
  let l := Instr.launch sa sb cf cc
  let p := Instr.prefetchL2 sa sb stok tsp
  let vals := copyVals x is s
  let tok := tokOf is s x.sb
  (s.readyWith l noCheck (launchAlign sa sb) = some is → ∃ t o, Machine.exec l s = .next t ∧ Forks s t is o ∧
    o.vals = [a, BitVec.ofNat 64 (status.getD 0)] ∧ o.rel = true ∧ o.after = mine true ∧ o.phase = 0 ∧ t.mem = s.mem) ∧
  (s.issueOf l = some is → s.illegalHere is = false → s.boundTrap is = none → s.held is = false →
    a.toNat % 64 ≠ 0 → Machine.exec l s = .next (s.trapAt is .align (.same a.toNat) is.pc)) ∧
  (s.issueOf l = some is → s.illegalHere is = false → s.boundTrap is = none → s.held is = false →
    a.toNat % 64 = 0 → ∀ b, status = some b → b % 8 ≠ 0 → Machine.exec l s = .next (s.trapAt is .align (.same b) is.pc)) ∧
  (s.readyWith p noCheck (prefetchAlign stok) = some is →
    (n.toNat ≤ 0x10000000 → ∃ t o, Machine.exec p s = .next t ∧ Forks s t is o ∧ o.vals = [a, n] ∧
      o.tok = some ((is.w.sreg stok.val).toNat, tsp)) ∧
    (0x10000000 < n.toNat → Machine.exec p s = .next (s.trapAt is .oprange (.same 0) is.pc))) ∧
  (s.ready (.copy x) = some is → ∀ q, copyPlan x vals = some q →
    (q.inRange vals = false → Machine.exec (.copy x) s = .next (s.trapAt is .oprange (.same 0) is.pc)) ∧
    (q.inRange vals = true → ∀ v, q.misaligned tok = some v →
      Machine.exec (.copy x) s = .next (s.trapAt is .align (.same v) is.pc)) ∧
    (q.inRange vals = true → q.misaligned tok = none → q.bound (s.viewRegs is.who) = none →
      (is.flag.isSome = true ∨ (tok.isSome = true ∧ x.dsp ≠ .rw)) →
      ∃ t o, Machine.exec (.copy x) s = .next t ∧ Forks s t is o ∧ o.vals = vals ∧ o.tok = tok.map (fun v => (v, x.tsp)) ∧
        o.after = mine x.rel))

/-- R100, R403, R477, R478: COLL.LOAD, COLL.RUN and the KV words start their operation with the values of their registers,
where the words' own checks pass: a load joins its slot's loads, a run the slot's queue, which holds four. -/
def Obligations.ListWords : Prop := ∀ (s : State) (is : Issue) (x : CollArgs) (w : KvWalkArgs) (a : KvAppendArgs) (c : KvCommitArgs),
  let d := is.sv s x.sa
  let g := is.sv s x.sb
  let ctok := tokOf is s x.stok
  let tokOk := fun (t : Option Nat) => (∀ v, t = some v → v % 16 = 0) ∧ (t.isSome = true ∨ is.flag.isSome = true)
  let bases := (List.range 8).map (fun i => is.w.sreg (sopNum x.sa + i))
  let slot := s.cslot x.slot.val
  let starts := fun (i : Instr) (vals : List W64) (tok : Option (Nat × Bool)) (more : State → EngOp → Prop) =>
    ∃ t o, Machine.exec i s = .next t ∧ Forks s t is o ∧ o.vals.take vals.length = vals ∧ o.tok = tok ∧ more t o
  let recOk := fun (v : W64) => v.toNat < 2 ^ 57 ∧ v.toNat % 64 = 0
  let wtok := tokOf is s w.stok
  let atok := tokOf is s a.stok
  let ktok := tokOf is s c.stok
  (s.ready (.collLoad x) = some is →
    (2 ^ 57 ≤ d.toNat ∨ 2 ^ 57 ≤ g.toNat → Machine.exec (.collLoad x) s = .next (s.trapAt is .oprange (.same 0) is.pc)) ∧
    (d.toNat < 2 ^ 57 → g.toNat < 2 ^ 57 → d.toNat % 64 = 0 → g.toNat % 64 = 0 → tokOk ctok →
      starts (.collLoad x) [d, g] (ctok.map (fun v => (v, x.tsp))) (fun t o => (t.cslot x.slot.val).loads = slot.loads ++ [o.id]))) ∧
  (s.ready (.collRun x) = some is → g.extractLsb' 32 32 = 0 → (∀ b ∈ bases, baseForm b = true ∧ b.toNat % 128 = 0) → tokOk ctok →
    (4 ≤ slot.queue.length → Machine.exec (.collRun x) s = .next { s with blocked := true }) ∧
    (slot.queue.length < 4 → starts (.collRun x) (bases ++ [g]) (ctok.map (fun v => (v, x.tsp)))
      (fun t o => (t.cslot x.slot.val).queue = slot.queue ++ [o.id]))) ∧
  (s.ready (.kvwalk w) = some is → recOk (is.sv s w.sa) → (is.sv s w.sb).toNat + w.cntm1.toNat < 2 ^ 32 →
    (is.w.sreg w.sdst.val).toNat % 8 = 0 → tokOk wtok →
    starts (.kvwalk w) [is.sv s w.sa, is.sv s w.sb, is.w.sreg w.sdst.val] (wtok.map (fun v => (v, w.tsp))) (fun _ _ => True)) ∧
  (s.ready (.kvappend a) = some is → recOk (is.sv s a.sa) → (is.sv s a.sb).toNat < 2 ^ 16 → (is.sv s a.sd).toNat < 2 ^ 16 →
    (is.w.sreg a.ssrc.val).toNat % 128 = 0 → tokOk atok →
    starts (.kvappend a) [is.sv s a.sa, is.sv s a.sd, is.sv s a.sb, is.w.sreg a.ssrc.val] (atok.map (fun v => (v, a.tsp)))
      (fun _ _ => True)) ∧
  (s.ready (.kvcommit c) = some is → recOk (is.sv s c.sa) → (is.sv s c.sb).toNat < 2 ^ 32 → tokOk ktok →
    starts (.kvcommit c) [is.sv s c.sa, is.sv s c.sb] (ktok.map (fun v => (v, c.tsp))) (fun _ o => o.rel = true)) ∧
  (s.ready (.kvwalk w) = some is → 2 ^ 57 ≤ (is.sv s w.sa).toNat →
    Machine.exec (.kvwalk w) s = .next (s.trapAt is .oprange (.same 0) is.pc)) ∧
  (s.ready (.kvappend a) = some is → 2 ^ 57 ≤ (is.sv s a.sa).toNat →
    Machine.exec (.kvappend a) s = .next (s.trapAt is .oprange (.same 0) is.pc)) ∧
  (s.ready (.kvcommit c) = some is → 2 ^ 57 ≤ (is.sv s c.sa).toNat →
    Machine.exec (.kvcommit c) s = .next (s.trapAt is .oprange (.same 0) is.pc))

/-- R385, R391, R392: a GEO word takes its issuing lanes' coordinates into the core's queue, which holds eight, and goes on; a
coordinate that is no finite number raises GNF, or traps GEONF where the word asks for that. -/
def Obligations.GeoWords : Prop := ∀ (s : State) (is : Issue) (x : GeoArgs),
  let core := coreOf is.who
  let bad := ∃ L ∈ lanesOf is.mask, ∃ c ∈ geoCoords is x L, isFinite (fmtF64.decode c) = false
  let word := fun (i : Instr) => s.ready i = some is →
    (is.mask = 0 → ∃ t, Machine.exec i s = .next t ∧ RegFrame i s t is) ∧
    (is.mask ≠ 0 → x.trapnf = true → bad → Machine.exec i s = .next (s.trapAt is .geonf (.same 0) is.pc)) ∧
    (is.mask ≠ 0 → ¬(x.trapnf = true ∧ bad) → 8 ≤ (s.core core).geo.length → Machine.exec i s = .next { s with blocked := true }) ∧
    (is.mask ≠ 0 → ¬(x.trapnf = true ∧ bad) → (s.core core).geo.length < 8 → ∃ t o, Machine.exec i s = .next t ∧ Forks s t is o ∧
      (t.core core).geo = (s.core core).geo ++ [o.id] ∧
      (∀ L ∈ lanesOf is.mask, mget o.lanes L = some ((geoCoords is x L ++ geoIds is x L).map (BitVec.ofNat 64)) ∧
        mget o.dst L = some [regOf is.w (vuses i) ((vuses i).getD 0 { op := .dir 0 }) L]) ∧
      (bad → s.alone = true → (t.warp is.who).arstat = (s.warp is.who).arstat ||| fGNF) ∧
      (¬bad → s.alone = true → (t.warp is.who).arstat = (s.warp is.who).arstat))
  word (.geoOrient2 x) ∧ word (.geoOrient3 x) ∧ word (.geoIncirc x) ∧ word (.geoInsphr x) ∧ word (.geoSegx x)

/-- R216, R351, R353, R356: a quorum word needs a seat (NOQUORUM) and every live lane of its warp (PARTMASK). In a group of one it
starts its matrix operation at once. In a group of more, a seat that comes before the last waits; the last one's issue starts the
one operation where all issue the same word with the same values, and else every seat is to trap QMISMATCH. With an emulated format
and sixteen such operations queued, the seats wait and no operation starts (R450). A seat that is to trap so does at its next issue,
as does one whose group is being left (R218). -/
def Obligations.QuorumWords : Prop := ∀ (s : State) (is : Issue) (x : MmaArgs) (a : AttnArgs) (sa sb : Fin 96) (f : NFC)
    (toff : BitVec 11) (nsel : Fin 4),
  let me := s.ctl is.who
  let q := s.qsize is.who
  let w := s.warp is.who
  let whole := is.path = mdiff fullMask (w.exited ||| w.filed)
  let word := fun (i : Instr) (own : Issue → State → List W64 → Option (Cause × Info)) => s.ready i = some is →
    let vals := quorumVals i is.w
    let passes := (q ≤ 1 ∨ me.seated = true) ∧ me.mismatch.any is.path.getLsbD = false
    let issues := passes ∧ whole ∧ own is s vals = none
    let group := s.quorumOf is.who
    let key := fun n => (s.ctl n).quorumIssue.map (fun k => (k.1, k.2.1, k.2.2.1))
    let rest := group.filter (fun n => n != is.who)
    let room := emulates i = true → (s.cluster (clusterOf is.who)).emulQ.length < 16
    let here := ∀ n ∈ rest, (s.ctl n).waits.any (fun x => isQuorum x.kind) = true
    let waits := ∃ t, Machine.exec i s = .next t ∧ (t.ctl is.who).quorumIssue = some (is.iword, is.xword, vals, i) ∧ t.eops = s.eops ∧
      t.mem = s.mem ∧ (t.ctl is.who).waits = me.waits ++ [⟨.quorum, is.lane, s.clock, s.nextId⟩] ∧ Counts s t is 0
    (me.mismatch.any is.path.getLsbD = true → Machine.exec i s = .next (s.trapAt is .qmismatch (.same 0) is.pc)) ∧
    (1 < q → me.seated = false → me.mismatch.any is.path.getLsbD = false → Machine.exec i s = .next (s.trapAt is .noquorum (.same 0) is.pc)) ∧
    (passes → ¬whole → Machine.exec i s = .next (s.trapAt is .partmask (.same 0) is.pc)) ∧
    (passes → whole → ∀ c v, own is s vals = some (c, v) → Machine.exec i s = .next (s.trapAt is c v is.pc)) ∧
    (issues → s.seatLeft is.who = true → Machine.exec i s = .next (s.trapAt is .qmismatch (.same 0) is.pc)) ∧
    (1 < q → issues → s.seatLeft is.who = false → me.qtrap.any Prod.snd = false → is.who ∈ group → here →
      ((∀ n ∈ rest, (s.ctl n).quorumIssue = some (is.iword, is.xword, vals, i)) → (∃ n ∈ group, s.qseat n = 0) → room →
        ∃ t o, Machine.exec i s = .next t ∧ mget t.eops o.id = some o ∧ o.id = s.nextId ∧ o.instr = i ∧ o.vals = vals ∧
          o.wg = (s.warp o.who).wg ∧ s.qseat o.who = 0 ∧ o.who ∈ group ∧ t.mem = s.mem ∧ t.wgs = s.wgs ∧
          ∀ n ∈ group, (t.ctl n).quorumIssue = none ∧ (t.ctl n).waits.any (fun x => isQuorum x.kind) = false) ∧
      ((∃ n ∈ rest, key n ≠ some (is.iword, is.xword, vals)) → (∀ n ∈ rest, (key n).isSome = true) →
        ∃ t, Machine.exec i s = .next t ∧ t.eops = s.eops ∧ t.mem = s.mem ∧ ∀ n ∈ group, (t.ctl n).mismatch.isSome = true)) ∧
    (q = 1 → passes → whole → own is s vals = none → s.quorumOf is.who = [is.who] →
      (emulates i = true → (s.cluster (clusterOf is.who)).emulQ.length < 16) →
      ∃ t o, Machine.exec i s = .next t ∧ mget t.eops o.id = some o ∧ o.id = s.nextId ∧ o.who = is.who ∧ o.instr = i ∧ o.vals = vals ∧
        o.wg = w.wg ∧ o.flags = is.flag.elim [] (fun k => [(is.who, k)]) ∧ (t.core (coreOf is.who)).mtx = (s.core (coreOf is.who)).mtx ++ [o.id] ∧
        t.mem = s.mem ∧ t.wgs = s.wgs ∧ Counts s t is 1) ∧
    (1 < q → issues → s.seatLeft is.who = false → me.qtrap.any Prod.snd = false →
      (∃ n ∈ s.quorumOf is.who, n ≠ is.who ∧ (s.ctl n).quorumIssue = none) → waits) ∧
    (emulates i = true → 16 ≤ (s.cluster (clusterOf is.who)).emulQ.length →
      (q = 1 → passes → whole → own is s vals = none → s.quorumOf is.who = [is.who] → waits) ∧
      (1 < q → issues → s.seatLeft is.who = false → me.qtrap.any Prod.snd = false → is.who ∈ group → group.length = q →
        (∀ n ∈ rest, (s.ctl n).quorumIssue = some (is.iword, is.xword, vals, i)) → waits))
  word (.mma x) (mmaChecks x) ∧ word (.compress sa sb f) (compressChecks f) ∧ word (.accz toff nsel) (acczChecks toff nsel) ∧
  word (.accmvOut sa toff nsel f) (accmvChecks ([NFC.f32, .bf16, .f16].contains f) toff nsel) ∧
  word (.accmvIn sa toff nsel f) (accmvChecks (f == .f32) toff nsel) ∧ word (.attn a) (attnChecks a)

/-- R248, R253, R257 with the field tables of chapter 09: a few words of the spec's own examples, each with its operands and
fields, as the decoder reads them. R257: the opcodes the map leaves unassigned are no instruction, whatever their other bits. -/
def Obligations.DecodeWords : Prop :=
  (let g : Guard := ⟨false, 7⟩
  decodeWords 0x00000000#32 0 = .ok .nop ∧
  decodeWords 0x0D700000#32 0 = .ok (.exit g) ∧
  decodeWords 0x0D900000#32 0 = .ok (.exit ⟨true, 1⟩) ∧
  decodeWords 0x2071461C#32 0 = .ok (.vadd .i32 ⟨g, .dir 5, .dir 6, .dir 7⟩) ∧
  decodeWords 0x347100FF#32 0 = .ok (.vmovi g (.dir 4) 0xFF#8) ∧
  decodeWords 0x16040001#32 0 = .ok (.smovi 2 1#17) ∧
  decodeWords 0x100A1435#32 0 = .ok (.sshl ⟨5, .reg 5, .reg 6⟩) ∧
  decodeWords 0x7A000410#32 0x40000000#32 = .ok (.waitsem .ge (.reg 1) (.reg 2)) ∧
  decodeWords 0x2E7E4100#32 0 = .ok (.vmov .b32 ⟨g, .ind 1, .dir 1⟩) ∧
  decodeWords 0x68000000#32 0 = .ok .ifence) ∧
  (∀ a b : W32,
  opOf a ∈ [0x19, 0x1A, 0x1B, 0x1C, 0x1D, 0x1E, 0x1F, 0x37, 0x4D, 0x4E, 0x4F, 0x55, 0x56, 0x57, 0x5A, 0x5B, 0x5C, 0x5D, 0x5E, 0x5F] →
  ∀ i, decodeWords a b ≠ .ok i)

/-- R238 to R257: no bit of an encoding is dropped. For every instruction word that is well formed, with every operand at every
value its field admits, the decoder reads the encoded words back as that instruction. -/
def Obligations.DecodeEncode : Prop := ∀ i : Instr, i.isWord = true → i.wf = true →
  decodeWords (encodePair i).1 (encodePair i).2 = .ok i

/-- R234, R236, R248, R249, R253: a step whose turn is a word's runs the instruction that the word decodes to. The thread `who`
comes first and its path is `p`; `f` is the packet it holds at its pc. Inside the packet, where the word at the pc decodes to `i`,
the step is exec of `i` with the word as the word at issue; a path that enters its packet at a start of an instruction, the packet's
checks passed and its flags at zero, is first put inside it; a word that opens a chained group none of whose other members must wait
takes a snapshot of the warp, and where one must wait the group waits whole; a later member goes on with the group's snapshot, also
where the group was held for its path. A word that cannot issue leaves its turn to the next path. With no path to try, an event has
the turn; an event of the agenda comes before all. R422: a routine of the firmware that goes first at a stream's packet, or as an
event, is counted. Which thread, path and event come next (`tries`, `eventFirst`, the agenda before all) is the model's choice (log
entry 1). -/
def Obligations.StepRunsWord : Prop := ∀ (s : State) (who lane : Nat) (rest : List (Nat × Nat)) (p : Path) (f : Fetched) (i : Instr),
  let t := s.tick
  let pk := Packet.ofBits f.bits
  let after := fun (o : Host.Outcome State Fault Refusal) => match o with
    | .next u => if u.blocked then stepWord rest (t.unblock who u) else .next u.useTurn
    | o => o
  let k := slotIdx p.pc
  let e := slotIdx p.entryWord
  let q : Path := { p with pc := p.entryWord, entry := p.entryWord, inside := true, gen := (t.ctl who).gen }
  let others := (t.warp who).paths.filter (fun r => !r.mask.getLsbD lane && t.pathReady who r)
  -- the path stands inside its packet, and each other path that could have issued has been passed once more (R209)
  let t1 := (t.modWarp who (fun w => { w with paths := w.paths.map (fun r => if r.mask.getLsbD lane then q else r) })).modCtl who
    (fun c => { c with passed := (others.map (fun r => lowLane r.mask)).foldl (fun m l => mset m l (mgetD c.passed l 0 + 1)) [] })
  let t2 := if isStream who then t1.modCluster (clusterOf who) (fun c => { c with lastStream := streamOf who }) else t1
  let noneHeld := ∀ h ∈ (t.ctl who).heldGroup, p.mask.getLsbD h.1 = false
  let opens := (pk.groupOf k).head? = some k ∧ 1 < (pk.groupOf k).length
  let waits := fun (j : Nat) (v : State) => ∃ m, pk.instrAt j = some m ∧
    Machine.exec m { t with cur := some (pk.curAt who lane j none) } = .next v ∧ v.blocked = true
  ((t.ctl who).acq = false → (t.warp who).pathAt lane = some p → t.packetOf who p = some f →
    (s.cur = none → s.agenda = [] → s.eventFirst = false → t.tries = (who, lane) :: rest →
      (p.inside = true → pk.instrAt k = some i → noneHeld → ¬opens →
        Machine.step s = after (Machine.exec i { t with cur := some (pk.curAt who lane k none) })) ∧
      (p.inside = false → (t.ctl who).pendingAsync = none →
        (isStream who = true → (t.stream (who - streamBase)).haltReq = false ∧ (t.stream (who - streamBase)).suspended = false ∧
          t.firmwareFirst who p = none) →
        bitsOf p.entryWord 2 2 ≠ 0 → e ∈ pk.starts → pk.ok = true → (∀ j < 12, pk.wait.getLsbD j = true → (t.warp who).flag j = 0) →
        pk.instrAt e = some i → noneHeld → pk.groupOf e = [e] →
        Machine.step s = after (Machine.exec i { t2 with cur := some (pk.curAt who lane e none) })) ∧
      (p.inside = true → pk.instrAt k = some i → noneHeld → opens →
        ((∀ j ∈ pk.groupOf k, k < j → ¬∃ v, waits j v) →
          Machine.step s = after (Machine.exec i { t with cur := some (pk.curAt who lane k (some { snap := t.warp who, since := t.nextId })) })) ∧
        ((∃ j ∈ pk.groupOf k, k < j ∧ ∃ v, waits j v) →
          ∃ j ∈ pk.groupOf k, k < j ∧ ∃ v, waits j v ∧ Machine.step s = stepWord rest (t.unblock who v))) ∧
      (p.inside = true → pk.instrAt k = some i → ∀ h, (t.ctl who).heldGroup.find? (fun e => p.mask.getLsbD e.1) = some h →
        Machine.step s = after (Machine.exec i { t.modCtl who (fun c => { c with
          heldGroup := c.heldGroup.filter (fun e => !p.mask.getLsbD e.1) }) with cur := some (pk.curAt who lane k (some h.2)) }))) ∧
    (∀ c g, s.cur = some c → c.group = some g → who = c.who → lane = c.lane → rest = [] → p.inside = true → pk.instrAt k = some i →
      Machine.step s = after (Machine.exec i { t with cur := some (pk.curAt who lane k (some g)) }))) ∧
  (s.cur = none → s.agenda = [] → s.eventFirst = false → t.tries = [] → Machine.step s = stepEvent t) ∧
  (s.cur = none → ∀ ev r, s.agenda = ev :: r → Machine.step s = Machine.exec ev { t with agenda := r }) ∧
  (s.cur = none → s.agenda = [] → s.eventFirst = true → Machine.step s = stepEvent t) ∧
  (∀ ev, s.nextEvent = some ev → stepEvent s = Machine.exec ev (s.countFirmware ev)) ∧ (s.nextEvent = none → stepEvent s = .next s)

/-- R254, R440, R445: traps, violations and errors are all next states: no instruction and no event stops the machine, and every
step answers a next state. -/
def Obligations.NeverStops : Prop :=
  (∀ (i : Instr) (s : State), ∃ t, Machine.exec i s = .next t) ∧ (∀ s : State, ∃ t, Machine.step s = .next t)

/-- The byte memories keep their canonical form: physical memory, and the scratchpad and accumulator windows of every workgroup,
have strictly rising addresses and list no zero byte; workgroups are listed under their own numbers. -/
def Obligations.MemWfStep : Prop := ∀ s t : State, MemWf s → Machine.step s = .next t → MemWf t

/-- The machine after reset meets the invariant of MemWfStep. -/
def Obligations.ResetMemWf : Prop := MemWf State.reset

/-- R512 with the Reset columns of R26, R122, R172, R420, R464, R467, R472, R518: after cold reset every register reads its Reset
value: those of the module, those of the clusters (fault and error rings, CTXTBASE, RECCTL), of the streams, and PARTW of every
core; no workgroup, grid or stream is there; every frame is uncoded and every code-table slot empty; bring-up is in its first
step. Bytes of memory read as 0, which the model chose (log entry 7). -/
def Obligations.ResetValues : Prop :=
  let s := State.reset
  (∀ off, off < 0x800 → off % 8 = 0 → ∀ v, s.regRead off = some v →
    v = (if off = 0x080 then 2800 else if off = 0x088 then 3000 * 2 ^ 32 else 0)) ∧
  (∀ c num, c < Config.clusters → ∀ v, s.clusterReg c num = some v → v = 0) ∧
  (∀ c, (s.cluster c).recctl = 0x1FFE) ∧
  (∀ k, (s.core k).partw = 0x00420400) ∧
  (∀ n, s.frame n = {} ∧ s.tableSlot n = {}) ∧
  s.warps = [] ∧ s.wgs = [] ∧ s.grids = [] ∧ s.streams = [] ∧ s.regs.bootStep = 1 ∧ s.regs.bootState = 0 ∧
  (∀ a, Memory.read s.mem.cells a = 0) ∧ Memory.wf s.mem.cells = true

/-- R39 to R41, R118, R328, R329, R334, R145: an LD or an LDMX that may be performed and finds all its data at hand completes: each
issuing lane's destination takes what the lane read, a violating lane 0 with poison; the violation is logged at the lowest such
lane, for an LDMX at the address of that lane's block (log entry 33); the flag falls by 1, the operation is gone, and an acquire of
a wide scope then empties the core's L1. An acquire whose invalidate is held back (R84) has its registers too, but ends only with
that invalidate. R249: a register that a higher slot of the word's own group wrote keeps that value. -/
def Obligations.LoadCompletes : Prop := ∀ (s : State) (o : MemOp) (ps : SMap Place),
  let who := o.who
  let w := s.warp who
  isLoadOp o.instr = true → mget s.mops o.id = some o → o.started = false → s.finalPlaces o = some ps → s.mayPerform o = true →
  s.lookupFree o ps = true → isStream who = false → mhas s.warps who = true → (s.ctl who).inTrap = false →
  s.longAbsent who o.handler (opRegs o) = [] → (∀ e ∈ ps, (s.laneReads o e.1 e.2).isSome = true) →
  (∀ L ∈ lanesOf o.mask, mhas ps L = true) → (∀ f ∈ (s.core o.core).fills, ∀ w ∈ f.waiters, w.1 ≠ o.id) →
  let wide := isAcquire o.instr = true ∧ isWide (memScope o.instr) = true
  let waits := wide ∧ s.canFlash (coreOf who) = false
  ∃ t, Machine.exec (.ldComplete o.id) s = .next t ∧
    (¬waits → mget t.mops o.id = none) ∧
    (waits → (∃ o', mget t.mops o.id = some o' ∧ o'.held = true) ∧ (t.core o.core).heldInv = (s.core o.core).heldInv ++ [o.id]) ∧
    (∀ id, id ≠ o.id → mget t.mops id = mget s.mops id) ∧ t.mem = s.mem ∧ t.wgs = s.wgs ∧ t.ctls = s.ctls ∧
    (∀ n, n ≠ who → t.warp n = s.warp n) ∧
    (∀ L ∈ lanesOf o.mask, ∀ p v b r, mget ps L = some p → s.laneReads o L p = some (v, b) → mget o.dst L = some r →
      ∀ k < dstWidth o.instr, o.outdone.contains (128 * (r + k) + L) = false → match o.instr with
        | .ld sz _ => (t.warp who).reg (r + k) L = ⟨BitVec.ofNat 32 (ldValue sz v / 2 ^ (32 * k)), b⟩
        | .ldmx x => (t.warp who).reg (r + k) L =
            ⟨merge (w.reg (r + k) L).val (BitVec.ofNat 32 (255 * 2 ^ (8 * x.plane.val)))
              (BitVec.ofNat 32 (v / 256 ^ k % 256 * 2 ^ (8 * x.plane.val))), b || (w.reg (r + k) L).poison⟩
        | _ => True) ∧
    (∀ r L, L < 128 → (L ∈ lanesOf o.mask → o.outdone.contains (128 * r + L) = false →
        ∀ d, mget o.dst L = some d → ∀ k < dstWidth o.instr, r ≠ d + k) →
      (t.warp who).reg r L = w.reg r L) ∧
    (t.warp who).s = w.s ∧ (t.warp who).p = w.p ∧ (t.warp who).x = w.x ∧ (t.warp who).paths = w.paths ∧
    (¬waits → ∀ k, (t.warp who).flag k = w.flag k - if o.flag = some k then 1 else 0) ∧
    (t.warp who).viol = (match firstBad ps with
      | none => w.viol
      | some (L, c) => w.viol.log (violInfo (spaceCode (memSpace o.instr)) c .load (slotOf who) L false)
          (BitVec.ofNat 64 (low64 (mgetD o.ea L 0))) o.pc) ∧
    (wide → ¬waits → (t.core (coreOf who)).l1 = [] ∧ (t.core (coreOf who)).epoch = (s.core (coreOf who)).epoch + 1)

/-- R82, R95, R134, R335: the next request of a store is performed and acknowledged. Each byte of the unit reads as the
highest lane that covers it stored it, every other byte as before; the thread's unacknowledged stores fall by the unit's
requests; the last unit ends the operation and lowers its flag. A lane group of an STMX writes its block's elements and scale,
and where a line holds five blocks the last eight bytes of the line become 0. A lane on a device register writes that register. -/
def Obligations.StorePerforms : Prop := ∀ (s : State) (o : MemOp) (ps : SMap Place) (k : Nat × Nat)
    (ks : List (Nat × Nat)),
  let who := o.who
  let n := accBytes o.instr
  let before := if o.started then leftCost o ps (k :: ks) else storeCost o.instr o.ea
  let acked := fun (t : State) =>
    (t.ctl who).unacked = (s.ctl who).unacked - (before - leftCost o ps ks) ∧
    (ks ≠ [] → mget t.mops o.id = some { o with reqs := some ks, started := true } ∧ ∀ j, (t.warp who).flag j = (s.warp who).flag j) ∧
    (ks = [] → mget t.mops o.id = none ∧ ∀ j, (t.warp who).flag j = (s.warp who).flag j - if o.flag = some j then 1 else 0) ∧
    (∀ j, j ≠ o.id → mget t.mops j = mget s.mops j) ∧
    (∀ j, j ≠ who → t.warp j = s.warp j ∧ t.ctl j = s.ctl j) ∧
    (t.warp who).s = (s.warp who).s ∧ (t.warp who).p = (s.warp who).p ∧ (t.warp who).blocks = (s.warp who).blocks
  isStoreOp o.instr = true → mget s.mops o.id = some o → s.finalPlaces o = some ps → o.started = true ∨ s.mayPerform o = true →
  s.opRemote o = false → o.unitsLeft ps = k :: ks → mhas s.warps who = true → mhas s.ctls who = true → MemWf s →
  (ps.map Prod.fst).Nodup → s.regs.hostLost = false →
  (isMx o.instr = false →
    (∀ L ∈ unitLanes o ps k, ∃ p l, mget ps L = some p ∧ p.loc = some l ∧ s.atHand l n = true ∧ placeAddr p % 32 + n ≤ 32) →
    ∃ t, Machine.exec (.storePerformed o.id) s = .next t ∧ acked t ∧
      ∀ m : Loc, t.locRead m 1 = match s.unitByte o ps k m with | some b => [b] | none => s.locRead m 1) ∧
  (isMx o.instr = true → ∀ j L0 l, (unitLanes o ps k).length = 32 → (∀ L ∈ unitLanes o ps k, L / 32 = j) →
    (unitLanes o ps k).head? = some L0 → (mget ps L0).bind Place.loc = some l → s.atHand l 128 = true →
    (match l with | .phys a => a % 128 = 0 ∧ isDev a = true | .sp _ a => a % 128 = 0 | .ac _ _ => False) →
    let f := mxOf o.instr
    let off := low64 (mgetD o.ea L0 0) % 128
    off % mxBlockBytes f = 0 → off + mxBlockBytes f ≤ 128 →
    ∃ t, Machine.exec (.storePerformed o.id) s = .next t ∧ acked t ∧
      (∀ e L, (unitLanes o ps k)[e]? = some L → mxElement f (leWord 1024 (t.locRead l 128)) ((t.locSide l).getD 0) off e =
        (mgetD o.data L 0).toNat % 2 ^ mxBits f + 256 * ((mgetD o.cmp L0 0).toNat % 256)) ∧
      (∀ i < 128, i < off ∨ off + mxBlockBytes f ≤ i → ¬(mxPerLine f = 5 ∧ 120 ≤ i) → t.locRead (l.add i) 1 = s.locRead (l.add i) 1) ∧
      (mxPerLine f = 5 → t.locRead (l.add 120) 8 = List.replicate 8 0)) ∧
  (isMx o.instr = false → ks = [] → firstBad ps = none → ∀ L a, unitLanes o ps k = [L] → mget ps L = some (.mmio a) →
    ∃ t, Machine.exec (.storePerformed o.id) s = .next t ∧
      let u := (s.mmioWrite a n (mgetD o.data L 0).toNat).getD s
      t.regs = u.regs ∧ t.clusters = u.clusters ∧ t.streams = u.streams ∧ t.mem = u.mem ∧ mget t.mops o.id = none)

/-- R134, R337, R145: an ATOM all of whose lanes name one location performs them in ascending order, each seeing the result of
the one before; each lane's destination takes the old value it saw, and the location is left with the last result. On poison
nothing is written and each lane takes 0, poisoned. No other byte changes. An acquire whose invalidate is held back (R84) ends only
with that invalidate. R249: a register that a higher slot of the word's own group wrote keeps that value. -/
def Obligations.AtomPerforms : Prop := ∀ (s : State) (o : MemOp) (x : AtomArgs) (ps : SMap Place) (p : Place) (l : Loc),
  let who := o.who
  let n := x.ty.width / 8
  let lane := fun (m : Nat) (L : Nat) =>
    (atomNew x.aop x.ty m ((mgetD o.data L 0).toNat % 2 ^ x.ty.width) (mgetD o.cmp L 0).toNat).getD m % 2 ^ x.ty.width
  let old := leNat (s.locRead l n)
  o.instr = .atom x → mget s.mops o.id = some o → s.finalPlaces o = some ps → s.mayPerform o = true → isStream who = false →
  mhas s.warps who = true → (s.ctl who).inTrap = false → s.longAbsent who o.handler (opRegs o) = [] → MemWf s →
  p.loc = some l → (∀ g a, l ≠ .ac g a) → s.atHand l n = true → (∀ e ∈ ps, e.2 = p) → (ps.map Prod.fst).Nodup →
  (∀ e ∈ ps, e.1 < 128) →
  let waits := isAcquire o.instr = true ∧ isWide (memScope o.instr) = true ∧ s.canFlash (coreOf who) = false
  ∃ t, Machine.exec (.atomComplete o.id) s = .next t ∧
    (¬waits → mget t.mops o.id = none) ∧
    (waits → (∃ o', mget t.mops o.id = some o' ∧ o'.held = true) ∧ (t.core o.core).heldInv = (s.core o.core).heldInv ++ [o.id]) ∧
    (¬waits → ∀ j, (t.warp who).flag j = (s.warp who).flag j - if o.flag = some j then 1 else 0) ∧
    (∀ j, j ≠ who → t.warp j = s.warp j) ∧
    (∀ m, s.byteIn l n m = none → t.locRead m 1 = s.locRead m 1) ∧
    (s.locPoison l n = false → leNat (t.locRead l n) = (ps.map Prod.fst).foldl lane old) ∧
    (s.locPoison l n = true → t.locRead l n = s.locRead l n) ∧
    (x.noret = false → ∀ i L r, (ps.map Prod.fst)[i]? = some L → mget o.dst L = some r → ∀ k < dstWidth o.instr,
      (t.warp who).reg (r + k) L = if o.outdone.contains (128 * (r + k) + L) = true then (s.warp who).reg (r + k) L else if s.locPoison l n = true then ⟨0, true⟩
        else ⟨BitVec.ofNat 32 (((ps.map Prod.fst).take i |>.foldl lane old) / 2 ^ (32 * k)), false⟩) ∧
    (x.noret = true → (t.warp who).blocks = (s.warp who).blocks)

/-- R81, R83, R84, R89, R143: a returned fill of the current epoch installs its unpoisoned sectors that no store met, drops the
line's others where its side band differs, and delivers to the lanes that wait for it; one of an older epoch installs nothing, and
still delivers to the lanes that asked for it. An invalidate held back is performed, and its acquire ends, once no outstanding fill
carries the epoch it would begin. R471, R461 to R463: an operation whose lanes lie on another module and finds no port waits 65,536
clocks and then ends as an error: for each such lane a LINK record with its address goes to the ring of the thread's cluster, or is
counted lost where the ring is full; a load's or an atomic's destinations take 0 with poison, a store stores nothing. While a port
is up nothing times out. (The port that a record names is open.) -/
def Obligations.FillsAndTimeouts : Prop :=
  (∀ (s : State) (core idx : Nat) (f : L1Fill),
  let c := s.core core
  let take := if f.whole = true ∧ (f.poison ≠ 0 ∨ f.sbPoison = true) then 0 else f.sectors &&& ~~~f.poison &&& ~~~f.stored
  let installs := f.epoch = c.epoch ∧ (take ≠ 0 ∨ mhas c.l1 f.line = true)
  (c.fills[idx]? = some f → ∃ t, Machine.exec (.l1Fill core idx) s = .next t ∧ (t.core core).fills = c.fills.eraseIdx idx ∧
    (t.core core).epoch = c.epoch ∧ t.mem = s.mem ∧ t.wgs = s.wgs ∧ t.warps = s.warps ∧ (∀ k, k ≠ core → t.core k = s.core k) ∧
    (¬installs → (t.core core).l1 = c.l1) ∧
    (installs → mhas c.l1 f.line = true ∨ c.l1.length < Config.l1Lines → (∀ n, n ≠ f.line → mget (t.core core).l1 n = mget c.l1 n) ∧
      ∃ l, mget (t.core core).l1 f.line = some l ∧ l.sb = f.sb ∧
        (∀ i < 4, take.getLsbD i = true → l.valid.getLsbD i = true ∧ lineBytes l.data (32 * i) 32 = lineBytes f.data (32 * i) 32) ∧
        ∀ i < 4, take.getLsbD i = false → l.valid.getLsbD i =
          (mget c.l1 f.line).any (fun old => decide (old.sb = f.sb) && old.valid.getLsbD i)) ∧
    ((∀ e ∈ s.mops, e.2.id = e.1) → (s.mops.map Prod.fst).Nodup → ∀ o sz x L pa leaf, mget s.mops o.id = some o → o.instr = .ld sz x →
      o.core = core → o.started = true → isStream o.who = false → L ∈ lanesOf o.mask → mget o.place L = some (.phys pa leaf) →
      mhas o.data L = false → (o.id, L) ∈ f.waiters →
      let secs := lineSectors pa (accBytes o.instr)
      f.sectors &&& secs = secs → ∃ o', mget t.mops o.id = some o' ∧
        mget o'.data L = some (BitVec.ofNat 128 (leNat (lineBytes f.data (pa % 128) (accBytes o.instr)))) ∧
        mget o'.cmp L = some (if f.poison &&& secs ≠ 0 then 1 else 0))) ∧
  (∀ id more, c.heldInv = id :: more → (∀ g ∈ c.fills, g.epoch ≠ c.epoch + 1) → ∃ t, Machine.exec (.heldInvalidate core) s = .next t ∧
    t.core core = { c with l1 := [], epoch := c.epoch + 1, heldInv := more } ∧ (∀ k, k ≠ core → t.core k = s.core k) ∧
    t.mem = s.mem ∧ t.wgs = s.wgs ∧
    (∀ o, mget s.mops id = some o → o.id = id → mget t.mops id = none ∧ (∀ n, n ≠ id → mget t.mops n = mget s.mops n) ∧
      (mhas s.warps o.who = true → ∀ j, (t.warp o.who).flag j = (s.warp o.who).flag j - if o.flag = some j then 1 else 0)) ∧
    (mget s.mops id = none → t.mops = s.mops ∧ t.warps = s.warps)) ∧
  (c.heldInv = [] ∨ (∃ g ∈ c.fills, g.epoch = c.epoch + 1) → Machine.exec (.heldInvalidate core) s = .next s)) ∧
  (∀ (s : State) (o : MemOp) (e : Nat × Place) (es : SMap Place),
  let who := o.who
  let c := clusterOf who
  let k := s.cluster c
  let lanes := e :: es
  let posted := min lanes.length (ringSize k.errbase - (k.errhead - k.errtail).toNat)
  let slot := fun (j : Nat) => ringSlot k.errbase (k.errhead + BitVec.ofNat 64 j) 32
  s.mops = [(o.id, o)] → isSaved who = false → o.place = lanes → (lanes.map Prod.fst).Nodup →
  (k.errhead - k.errtail).toNat ≤ ringSize k.errbase → o.reqs = none → o.started = false →
  (∀ f ∈ (s.core o.core).fills, ∀ w ∈ f.waiters, w.1 ≠ o.id) →
  (∀ p ∈ lanes, ∃ pa leaf, p.2 = .phys pa leaf ∧ s.isRemote pa = true) → (∀ L ∈ lanesOf o.mask, mhas o.place L = true) →
  s.mayAcquire who = true → o.held = false → s.tokenFirst o = false → s.regs.hostLost = false → isStream who = false → mhas s.warps who = true → (s.ctl who).inTrap = false →
  s.longAbsent who o.handler (opRegs o) = [] →
  ((∃ sz x, o.instr = .ld sz x) ∨ (∃ sz x, o.instr = .st sz x) ∨ (∃ x, o.instr = .atom x)) →
  (s.linkUp = true → Machine.exec (.ualRequestTimeout o.id) s = .next s) ∧
  (s.linkUp = false → s.portLate who o.id 0 = false → Machine.exec (.ualRequestTimeout o.id) s = .next (s.waitPort o)) ∧
  (s.linkUp = false → s.portLate who o.id 0 = true →
  ∃ t, Machine.exec (.ualRequestTimeout o.id) s = .next t ∧ t.mops = [] ∧ t.wgs = s.wgs ∧
    (posted = 0 → t.mem = s.mem) ∧ (t.cluster c).errhead = k.errhead + BitVec.ofNat 64 posted ∧
    (t.cluster c).errlost.toNat = min 0xFFFF (k.errlost.toNat + (lanes.length - posted)) ∧
    (isStoreOp o.instr = false ∨ es = [] → ∀ j < posted, ∃ port, Memory.readN t.mem.cells (slot j) 32 =
      toLe 32 (errRecord 7 0 (BitVec.ofNat 64 (low64 (mgetD o.ea ((lanes.map Prod.fst).getD j 0) 0))) (opReq o) port
        (k.errhead + BitVec.ofNat 64 j)).toNat) ∧
    (∀ a, (∀ j < posted, a < slot j ∨ slot j + 32 ≤ a) → Memory.read t.mem.cells a = Memory.read s.mem.cells a) ∧
    (isStoreOp o.instr = false → ∀ L ∈ lanesOf o.mask, ∀ r, mget o.dst L = some r →
      (∀ x, o.instr = .atom x → x.noret = false) → ∀ j < dstWidth o.instr, o.outdone.contains (128 * (r + j) + L) = false →
      (t.warp who).reg (r + j) L = ⟨0, true⟩) ∧
    (isStoreOp o.instr = true → (t.warp who).blocks = (s.warp who).blocks) ∧
    (∀ j, (t.warp who).flag j = (s.warp who).flag j - if o.flag = some j then 1 else 0)))

/-- R109 to R116, R119, R124, R127: a page walk goes through its table entries, which it may take from the walk cache, and answers
its request by the leaf it meets, or by a fault at the level of an entry that does not lead on or that is poisoned; a translation
that the cluster's TLB holds answers without a walk. The fault handler's answers make the requests of a posted fault walk again from
the root, each of them where several have joined, or violate as NOMAP or PROT; a FID whose record still waits for room in the queue
is not yet one that an answer can name (log entry 106); an invalidation that no started access holds back drops every cached
translation in its scope, makes requests that an answer in it granted or denied look up again, and ends. R121 to R123, R422, R464:
the oldest fault record that waits goes to the tail of its cluster's ring where the ring has room, and FQHEAD rises by 1; a write to
a TAIL register counts only where the ring would then hold no more records than its size. -/
def Obligations.TranslationAndRings : Prop :=
  (∀ (s : State) (t : TReq) (r : Region) (pa : Nat) (e : W64) (c fid : Nat) (x : Inval),
  let posted := ∃ f ∈ (s.cluster c).faults, f.fid = fid ∧ f.posted = true
  let answered := fun (i : Instr) (v : VClass) =>
    (¬posted → Machine.exec i s = .next s) ∧
    (posted → (∀ q ∈ s.treqs, q.2.id = q.1) → (s.treqs.map Prod.fst).Nodup → ∃ u, Machine.exec i s = .next u ∧
      (∀ f, f ∈ (u.cluster c).faults ↔ f ∈ (s.cluster c).faults ∧ f.fid ≠ fid) ∧
      (∀ q, mget s.treqs q.id = some q → mget u.treqs q.id =
        some (if q.cluster = c ∧ q.st = .faulted fid then { q with st := .viol v } else q)) ∧
      u.mem = s.mem ∧ u.warps = s.warps ∧ u.mops = s.mops)
  let root := t.root || asks t
  let held := tlbFind (s.cluster t.cluster).tlb t.ctx (r.pageOf t.va)
  let cached := !root && held.isNone
  let walks := mget s.treqs t.id = some t ∧ s.mayWalk t = true
  (∀ es, walks → root = true ∨ held.any (usable t.acc) = false → s.leafAt t r cached es pa e →
    ∃ u, Machine.exec (.pageWalk t.id) s = .next u ∧ WalkAnswers s u t r es pa e) ∧
  (∀ es, walks → root = true ∨ held.any (usable t.acc) = false → s.regionAt t r → es.length + 1 ≤ r.levels → r.levels ≤ 6 →
    s.walkReaches t r cached 0 r.root es pa →
    (es.length + 1 < r.levels → s.tableReads t cached pa e → ¬tableGoesOn e → ∃ u, Machine.exec (.pageWalk t.id) s = .next u ∧
      JoinsFault s u t (if e.getLsbD 0 = true then 3 else 1) es.length pa e ∧ u.mem = s.mem) ∧
    ((cached = true → ∀ w ∈ (s.cluster t.cluster).walks, ¬(w.ctx = t.ctx ∧ w.pa = pa)) → s.atHand (.phys pa) 8 = true →
      s.physPoison pa 8 = true → ∃ u, Machine.exec (.pageWalk t.id) s = .next u ∧ JoinsFault s u t 3 es.length pa 0 ∧ u.mem = s.mem)) ∧
  (walks → root = false → s.regionAt t r → ∀ l, held = some l → usable t.acc l = true → ∃ u, Machine.exec (.pageWalk t.id) s = .next u ∧
    mget u.treqs t.id = some { t with st := if leafGrants t.acc l then .ok l else .denied .prot } ∧ u.mem = s.mem) ∧
  (∀ es, posted → s.joined c fid = [t] → s.leafAt t r false es pa e → ∃ u, Machine.exec (.frespReplay c fid) s = .next u ∧
    WalkAnswers (s.modCluster c (fun k => { k with faults := k.faults.filter (fun f => f.fid != fid) })) u t r es pa e) ∧
  (∀ es, posted → (∀ q ∈ s.treqs, q.2.id = q.1) → (s.treqs.map Prod.fst).Nodup → t ∈ s.joined c fid →
    (∀ q ∈ s.joined c fid, q.ctx = t.ctx ∧ q.va = t.va) → s.leafAt t r false es pa e → (∀ x ∈ es, x.1 ≠ pa) →
    e.getLsbD 0 = true → leafMalformed r ((s.floor0 t.ctx).getLsbD 13) e = false →
    ∃ u, Machine.exec (.frespReplay c fid) s = .next u ∧ ∀ q ∈ s.joined c fid,
      let is := fun (st : TrState) => mget u.treqs q.id = some { q with st := st }
      (leafGrants q.acc e = true → (accWrites q.acc = true → is (.ok (e ||| 0x20))) ∧ (is (.ok e) ∨ is (.ok (e ||| 0x20)))) ∧
      (leafGrants q.acc e = false → leafAwaits q.acc e = false → is (.denied .prot)) ∧
      (leafGrants q.acc e = false → leafAwaits q.acc e = true → ∃ f ∈ (u.cluster c).faults, f.ctx = q.ctx ∧ f.va = q.va ∧
        mget u.treqs q.id = some { q with st := .faulted f.fid, once := true })) ∧
  answered (.frespNomap c fid) .nomap ∧ answered (.frespProt c fid) .prot ∧
  (s.invals.find? (fun y => y.id == x.id) = some x → s.invalBusy x = false →
    ∃ u, Machine.exec (.tlbInvalidationComplete x.id) s = .next u ∧ u.mem = s.mem ∧ u.mops = s.mops ∧
      (∀ y ∈ u.invals, y.id ≠ x.id) ∧ (x.host = true → u.regs.tlbBusy = false) ∧
      (∀ k y, y ∈ (u.core k).tlb ↔ y ∈ (s.core k).tlb ∧ x.covers y.ctx y.va y.pgsz = false) ∧
      (∀ k y, y ∈ (u.cluster k).tlb ↔ y ∈ (s.cluster k).tlb ∧ x.covers y.ctx y.va y.pgsz = false) ∧
      (∀ k y, y ∈ (u.cluster k).walks ↔ y ∈ (s.cluster k).walks ∧ x.coversWalk y.ctx y.va = false) ∧
      (∀ id q, mget s.treqs id = some q → (∃ l, q.st = .ok l) ∨ (∃ v, q.st = .denied v) → mget u.treqs id =
        some (if s.treqCovered x q then { q with st := if asks q then .need else .wait, root := false } else q)) ∧
      (∀ who lane, x.who = some (who, lane) → (∃ y ∈ (s.ctl who).waits, y.lane = lane ∧ y.kind = .tlbinv x.id) →
        ∀ y ∈ (u.ctl who).waits, y.lane ≠ lane))) ∧
  (∀ (s : State) (c j : Nat) (v : W64) (f : FaultRec),
  let k := s.cluster c
  let x := s.stream j
  let slot := ringSlot k.fqbase k.fqhead 32
  (k.faults.find? (fun g => !g.posted) = some f → mget s.fwTraps c = none → s.linkFails slot 32 = false →
    ((k.fqhead - k.fqtail).toNat = ringSize k.fqbase → Machine.exec (.faultRecordPost c) s = .next s) ∧
    ((k.fqhead - k.fqtail).toNat ≠ ringSize k.fqbase → ∃ u, Machine.exec (.faultRecordPost c) s = .next u ∧
      u.physRead slot 32 = toLe 32 f.bits.toNat ∧ (u.cluster c).fqhead = k.fqhead + 1 ∧ (u.cluster c).fqtail = k.fqtail ∧
      (u.cluster c).faults = k.faults.map (fun g => if g.fid = f.fid then { g with posted := true } else g) ∧
      u.treqs = s.treqs ∧ u.warps = s.warps)) ∧
  ((∀ g ∈ k.faults, g.posted = true) → Machine.exec (.faultRecordPost c) s = .next s) ∧
  (∃ u, Machine.exec (.fqtailWrite c v) s = .next u ∧ (∀ n, n ≠ c → u.cluster n = s.cluster n) ∧ u.mem = s.mem ∧ u.warps = s.warps ∧
    u.cluster c = if (k.fqhead - v).toNat ≤ ringSize k.fqbase then { k with fqtail := v } else k) ∧
  (∃ u, Machine.exec (.errtailWrite c v) s = .next u ∧ (∀ n, n ≠ c → u.cluster n = s.cluster n) ∧ u.mem = s.mem ∧ u.warps = s.warps ∧
    u.cluster c = if (k.errhead - v).toNat ≤ ringSize k.errbase then { k with errtail := v } else k) ∧
  (∃ u, Machine.exec (.evqtailWrite j v) s = .next u ∧ (∀ n, n ≠ j → u.stream n = s.stream n) ∧ u.mem = s.mem ∧ u.warps = s.warps ∧
    u.stream j = if (x.evqhead - v).toNat ≤ ringSize x.evqbase then { x with evqtail := v } else x))

/-- R52, R56, R57, R61 to R64, R66, R68, R457: the background work on register blocks. The first waiting RGROW gets fresh blocks in
free rows once enough are free; in a growth deadlock the oldest RGROW is served with the reserve where that suffices, else a victim
is spilled, once its accesses are complete: its dirty blocks become write-backs and all its blocks go; nothing is done while the
first request is covered by blocks that are free or being freed (log entry 20). A spilled warp first in line comes back with its
window absent and owes an acquire (R158); a fill brings a block's image with its poison, and the block is then clean, or poison in
every lane where the image is lost, poisoned or cannot be read, and the block is dirty; a write-back stores the image and its poison
map, and one that meets a violation or poison marks its block lost. A write-back waits for the engine operations that are still to
write its block. -/
def Obligations.BlockEvents : Prop := ∀ (s : State) (core who n b idx : Nat) (rest : List BlockReq),
  let w := s.warp who
  let c := s.ctl who
  let free := s.freeOrdinary core
  let fresh := fun (t : State) (lo hi : Nat) => ∀ j, lo ≤ j → j < hi → ∃ g r, mget (t.warp who).blocks j = some (freshBlock g r)
  let ungrown := fun (t : State) => ∀ y ∈ (t.ctl who).waits, isRgrow y.kind = false
  let others := fun (t : State) => ∀ m, m ≠ who → t.warp m = s.warp m ∧ t.ctl m = s.ctl m
  (s.blockReqs core = .grow who :: rest → c.rgrowWait = some n →
    (free < n - w.curb → Machine.exec (.blockGrant core) s = .next s) ∧
    (n - w.curb ≤ free → (∀ j, w.curb ≤ j → mget w.blocks j = none) → ∃ t, Machine.exec (.blockGrant core) s = .next t ∧
      (t.warp who).curb = max w.curb n ∧ fresh t w.curb n ∧ (∀ j < w.curb, mget (t.warp who).blocks j = mget w.blocks j) ∧
      ungrown t ∧ others t ∧ t.mem = s.mem ∧ (t.warp who).s = w.s ∧ (t.warp who).p = w.p)) ∧
  (s.growthDeadlock core = false ∨ s.grantDue core = true → Machine.exec (.growthDeadlock core) s = .next s) ∧
  (s.growthDeadlock core = true → s.grantDue core = false →
    let grows := s.byAge ((s.warpsOfCore core).filter (fun v => (s.ctl v).rgrowWait.isSome && (s.ctl v).spilled.isNone))
    (grows.head? = some who → c.rgrowWait = some n → (s.core core).reserve = none → n - w.curb ≤ free + 16 →
      (∀ q ∈ s.usedRows core, q.1 < s.groups core) → (∀ j, w.curb ≤ j → mget w.blocks j = none) →
      ∃ t, Machine.exec (.growthDeadlock core) s = .next t ∧ (t.core core).reserve = some who ∧ (t.warp who).curb = max w.curb n ∧
        fresh t w.curb n ∧ (∀ j < w.curb, mget (t.warp who).blocks j = mget w.blocks j) ∧ ungrown t ∧ others t ∧ t.mem = s.mem) ∧
    ((grows.head? = none ∨ (s.core core).reserve.isSome = true) → s.spillVictim core = some who → coreOf who = core →
      s.settled who = true →
      ∀ u, s.saveAllReady who .store [(s.tsave who + 0x21000, 0x1400), (s.tsave who + 0x40000, 0x40000)] = (true, u) → ∃ t, Machine.exec (.growthDeadlock core) s = .next t ∧
        (t.warp who).blocks = [] ∧ (t.ctl who).spilled = some s.clock ∧
        ∀ x ∈ w.blocks, x.2.absent = false → x.2.dirty = true → ∃ y ∈ (t.core core).wbs, y.who = who ∧ y.blk = x.1 ∧ y.block = x.2)) ∧
  (s.blockReqs core = .readmit who :: rest → n = max w.curb (c.rgrowWait.getD 0) → w.blocks = [] →
    (free < n ∨ (∃ y ∈ (s.core core).wbs, y.who = who) → Machine.exec (.readmission core) s = .next s) ∧
    (n ≤ free → (∀ y ∈ (s.core core).wbs, y.who ≠ who) → ∃ t, Machine.exec (.readmission core) s = .next t ∧
      (t.ctl who).spilled = none ∧ (t.ctl who).acq = true ∧ (t.warp who).curb = n ∧ fresh t w.curb n ∧ ungrown t ∧ others t ∧ t.mem = s.mem ∧
      ∀ j < w.curb, ∃ g r, mget (t.warp who).blocks j = some { absentBlock g r with lost := c.lost.contains j })) ∧
  (∀ x, mget w.blocks b = some x → x.absent = true → x.filling = true →
    let done := fun (v : Nat → LaneReg) (clean : Bool) => ∃ t, Machine.exec (.blockFill who b) s = .next t ∧
      (∀ j L, j < 8 → L < 128 → (t.warp who).reg (8 * b + j) L = v (128 * j + L)) ∧ ((t.warp who).block b).absent = false ∧
      ((t.warp who).block b).dirty = !clean ∧ ((t.warp who).block b).lost = false ∧
      (∀ j, j ≠ b → mget (t.warp who).blocks j = mget w.blocks j) ∧ ∀ m, m ≠ who → t.warp m = s.warp m
    let va := (s.imageAt who b).1
    let ask := s.askSpan w.ctx va 4096 .load (coreOf who) who (fillTag b)
    (x.lost = true → done (fun _ => ⟨0, true⟩) false) ∧
    (x.lost = false → ∀ k a u, ask = (.viol k a, u) → done (fun _ => ⟨0, true⟩) false) ∧
    (x.lost = false → ∀ ps u k a v, ask = (.ok ps, u) →
      u.askSpan w.ctx (s.imageAt who b).2 128 .load (coreOf who) who (fillTag b) = (.viol k a, v) → done (fun _ => ⟨0, true⟩) false) ∧
    (x.lost = false → ∀ ps u qs v, ask = (.ok ps, u) →
      u.askSpan w.ctx (s.imageAt who b).2 128 .load (coreOf who) who (fillTag b) = (.ok qs, v) →
      (∀ p ∈ ps ++ qs, v.atHand (.phys p.2.1) p.2.2 = true) →
      ((∀ p ∈ ps ++ qs, v.physPoison p.2.1 p.2.2 = false) →
        done (fun i => ⟨BitVec.ofNat 32 (leNat (((v.readParts ps).drop (4 * i)).take 4)), (leNat (v.readParts qs)).testBit i⟩) true) ∧
      ((∃ p ∈ ps ++ qs, v.physPoison p.2.1 p.2.2 = true) → done (fun _ => ⟨0, true⟩) false))) ∧
  (∀ y, (s.core core).wbs[idx]? = some y → s.blockPending y = true → Machine.exec (.blockWriteback core idx) s = .next s) ∧
  (∀ y pa ma u v, (s.core core).wbs[idx]? = some y → s.blockPending y = false →
    s.askSpan y.ctx y.va 4096 .store core y.who (fillTag (64 + y.blk)) = (.ok [(0, pa, 4096)], u) →
    u.askSpan y.ctx y.map 128 .store core y.who (fillTag (64 + y.blk)) = (.ok [(0, ma, 128)], v) →
    v.atHand (.phys pa) 4096 = true → v.atHand (.phys ma) 128 = true →
    (v.physPoison pa 4096 = true ∨ v.physPoison ma 128 = true → ∃ t, Machine.exec (.blockWriteback core idx) s = .next t ∧
      y.blk ∈ (t.ctl y.who).lost ∧ ∀ z ∈ (t.core core).wbs, ¬(z.who = y.who ∧ z.va = y.va)) ∧
    (v.physPoison pa 4096 = false → v.physPoison ma 128 = false → ma + 128 ≤ pa ∨ pa + 4096 ≤ ma →
      ∃ t, Machine.exec (.blockWriteback core idx) s = .next t ∧ t.physRead pa 4096 = y.block.image ∧
      t.physRead ma 128 = y.block.poisonMap ∧ (∀ z ∈ (t.core core).wbs, ¬(z.who = y.who ∧ z.va = y.va)) ∧
      ∀ a, (a < pa ∨ pa + 4096 ≤ a) → (a < ma ∨ ma + 128 ≤ a) → Memory.read t.mem.cells a = Memory.read v.mem.cells a)) ∧
  (∀ y k a u, (s.core core).wbs[idx]? = some y → s.blockPending y = false → s.askSpan y.ctx y.va 4096 .store core y.who (fillTag (64 + y.blk)) = (.viol k a, u) →
    ∃ t, Machine.exec (.blockWriteback core idx) s = .next t ∧ y.blk ∈ (t.ctl y.who).lost ∧
      ∀ z ∈ (t.core core).wbs, ¬(z.who = y.who ∧ z.va = y.va))

/-- R87, R126, R154, R155, R158, R232, R233, R291, R293, R341, R423, R424, R435, R439: what a thread's own events do: making the
acquire that it owes before its first packet; fetching the packet at a path's pc, from the core's instruction cache where that holds
the address, whatever memory holds (log entry 62), or FETCHV where its page violates or its words are poisoned; delivering a pending
MTXERR or ABFT at a packet's beginning, to a path that waits for its packet's flags too (log entry 68); bumping a warp that has not
issued for 2048 clocks; retiring a warp with no live lane, and its workgroup with its last warp; a poll of TWAIT and of WAITSEM,
which reads its word only after the thread's earlier acquires, its accesses to that line and its operations' own token updates;
posting an event record once the stream's accesses are complete and the ring has room. -/
def Obligations.ThreadEvents : Prop := ∀ (s : State) (who lane j : Nat) (p : Path) (u : State) (pa : Nat) (leaf : W64) (x : Waiting),
  let w := s.warp who
  let c := s.ctl who
  let pkt := (pktOf p.pc).toNat
  let page := (s.region w.ctx pkt).elim 0 (fun r => r.pageOf pkt)
  let fetch := Instr.instructionFetch who lane
  let y := s.stream j
  let slot := ringSlot y.evqbase y.evqhead 32
  let post := fun (t : State) (r : BitVec 256) => t.physRead slot 32 = toLe 32 (merge r 0x3FFFFFFFFFFF (y.evqhead.setWidth 256)).toNat ∧
    (t.stream j).evqhead = y.evqhead + 1
  (w.pathAt lane = some p → c.acq = true → isStream who = false →
    (s.canFlash (coreOf who) = true → ∃ t, Machine.exec fetch s = .next t ∧ (t.core (coreOf who)).l1 = [] ∧
      (t.core (coreOf who)).epoch = (s.core (coreOf who)).epoch + 1 ∧ (t.ctl who).acq = false ∧ t.mem = s.mem ∧ t.warps = s.warps) ∧
    (s.canFlash (coreOf who) = false → Machine.exec fetch s = .next { s with blocked := true })) ∧
  -- the packet is kept; a path that stands in a packet whose copy is gone takes it, and no other part of the warp changes
  let keeps := fun (b : W128) => ∃ t, Machine.exec fetch s = .next t ∧ (⟨pkt, b, c.gen⟩ : Fetched) ∈ (t.ctl who).fetched ∧ t.mem = u.mem ∧
    (∀ m, m ≠ who → t.warp m = u.warp m) ∧ { t.warp who with paths := [] } = { u.warp who with paths := [] } ∧
    (t.warp who).paths.map (fun q => { q with gen := 0 }) = (u.warp who).paths.map (fun q => { q with gen := 0 }) ∧
    (p.inside = true → { p with gen := c.gen } ∈ (t.warp who).paths)
  -- a trap entered, or one that waits for a page of the save area
  let traps := fun (i : Instr) (at_ first : State) (t : Trap) =>
    (at_.trapWaits who lane = none → Machine.exec i s = .next ((first.noteQtrap who p p.entryWord).takeTrap who lane t)) ∧
    (∀ v, at_.trapWaits who lane = some v → Machine.exec i s = .next { v with blocked := true })
  let fetchv : Trap := { cause := .fetchv, info := .same pkt, resume := p.entryWord, pc := p.entryWord }
  (w.pathAt lane = some p → c.acq = false →
    ((s.packetOf who p).isSome = true → Machine.exec fetch s = .next s) ∧
    (s.packetOf who p = none → s.ask w.ctx pkt .fetch (coreOf who) who fetchTag pkt 0 16 = (.ok pa leaf, u) →
      (∀ b, isStream who = false → mget (u.core (coreOf who)).icache (pa / 16) = some b → keeps b) ∧
      (isStream who = true ∨ mget (u.core (coreOf who)).icache (pa / 16) = none → u.atHand (.phys pa) 16 = true →
        (u.physPoison pa 16 = false → keeps (leWord 128 (u.physRead pa 16))) ∧
        (u.physPoison pa 16 = true → traps fetch (u.dropFetch who page) (u.dropFetch who page) { fetchv with damaged := true }))) ∧
    (∀ k, s.packetOf who p = none → s.ask w.ctx pkt .fetch (coreOf who) who fetchTag pkt 0 16 = (.viol k, u) →
      traps fetch u ((u.dropFetch who page).logViol who 0 k .fetch (lowLane p.mask) false (pktOf p.pc) p.entryWord) fetchv) ∧
    (p.inside = false → isStream who = false → c.inTrap = false →
      let go := fun (k : Cause) (info : Nat) (d : WarpCtl) => traps (.asyncTrapDelivery who lane) s (s.setCtl who d)
        { cause := k, info := .same info, resume := p.entryWord, pc := p.entryWord, async := true }
      (c.pmtx = true → go .mtxerr c.mtxCount { c with pmtx := false, mtxCount := 0 }) ∧
      (c.pmtx = false → c.pabft = true → go .abft c.abftSeq { c with pabft := false }))) ∧
  (s.warpMay who = true → s.pathsOf who ≠ [] →
    (2048 ≤ s.clock - c.lastIssue → Machine.exec (.warpBump who) s = .next (s.modCtl who (fun d => { d with bumped := true }))) ∧
    (s.clock - c.lastIssue < 2048 → Machine.exec (.warpBump who) s = .next s)) ∧
  (mhas s.warps who = true → mhas s.ctls who = true → isStream who = false → isSaved who = false →
    (w.live ≠ 0 ∨ c.inTrap = true ∨ s.warpBusy who = true → Machine.exec (.warpRetire who) s = .next s) ∧
    (w.live = 0 → c.inTrap = false → s.warpBusy who = false → ∃ t, Machine.exec (.warpRetire who) s = .next t ∧
      mget t.warps who = none ∧ mget t.ctls who = none ∧ t.mem = s.mem ∧
      (∀ m, m ≠ who → isSaved m = false → mhas s.ctls m = true → t.warp m = s.warp m ∧ t.ctl m = s.ctl m) ∧
      ∀ g d, mget s.ctls (savedBase * (s.nextId + 1) + who) = none →
        mget s.wgs w.wg = some g → g.id = w.wg → g.st ≠ .retired → mget s.grids g.grid = some d → d.id = g.grid →
        s.filedThreads g.id g.core = 0 → (∀ e ∈ s.warps, e.1 ≠ who → isStream e.1 = false → e.2.wg = w.wg → mhas s.ctls e.1 = false) →
        mget t.grids g.grid = some { d with retired := d.retired + 1 })) ∧
  (∀ sd addr sp l, s.pollable who = [x] → x.kind = .twait sd addr sp → w.pathAt x.lane = some p → (sp && isStream who) = false →
    s.locAt w.wg w.ctx sp addr .load (coreOf who) who twaitTag = (.at_ l, u) → u.atHand l 16 = true →
    let pending := u.tokPending who x.before (tokKey (.at_ l)) = true ∨
      u.readWaits who x.before (tokKey (.at_ l)) (s.tokPage w.wg w.ctx addr sp) = true
    (pending → Machine.exec (.twaitPoll who) s = .next u) ∧ (¬pending → u.locPoison l 16 = false →
    let v : W128 := leWord 128 (u.locRead l 16)
    let held := 3 ≤ bitsOf v 88 3 ∧ u.mayAcquire who = false
    (bitsOf v 0 32 ≠ 0 ∨ held → Machine.exec (.twaitPoll who) s = .next u) ∧
    (bitsOf v 0 32 = 0 → ¬held → ∃ t, Machine.exec (.twaitPoll who) s = .next t ∧ (t.warp who).sreg sd.val = v.extractLsb' 64 64 ∧
      (∀ n, n ≠ sd.val → (t.warp who).sreg n = (u.warp who).sreg n) ∧ (∀ z ∈ (t.ctl who).waits, z.lane ≠ x.lane) ∧ t.mem = u.mem))) ∧
  (∀ k addr v, who = streamBase + j → s.pollable who = [x] → x.kind = .sem k addr v →
    s.ask w.ctx addr .load (coreOf who) who twaitTag addr 0 8 = (.ok pa leaf, u) → u.atHand (.phys pa) 8 = true →
    let pending := u.readWaits who x.before (tokKey (.at_ (.phys pa))) (u.tokPage 0 w.ctx addr false) = true
    (pending → Machine.exec (.waitsemPoll j) s = .next u) ∧ (¬pending → u.physPoison pa 8 = false →
    ∃ t, Machine.exec (.waitsemPoll j) s = .next t ∧ t.mem = u.mem ∧
      (semHolds k (leWord 64 (u.physRead pa 8)) v = true → (t.stream j).state = 1 ∧ ∀ z ∈ (t.ctl who).waits, z.lane ≠ x.lane) ∧
      (semHolds k (leWord 64 (u.physRead pa 8)) v = false → (t.stream j).state = 2 ∧ (t.ctl who).waits = (u.ctl who).waits))) ∧
  (y.full = true ∨ s.settled (streamBase + j) = false → Machine.exec (.eventRecordPost j) s = .next (if y.full = true ∧
    (s.ctl (streamBase + j)).waits.any (fun z => isEventWait z.kind) = true then s.modStream j (fun z => { z with state := 2 }) else s)) ∧
  (∀ r rs, s.settled (streamBase + j) = true → s.linkFails slot 32 = false → y.full = false → y.held = r :: rs →
    ∃ t, Machine.exec (.eventRecordPost j) s = .next t ∧ post t r ∧ (t.stream j).held = rs) ∧
  (∀ irq a b since before, who = streamBase + j → s.settled who = true → s.linkFails slot 32 = false → y.full = false → y.held = [] →
    c.waits = [⟨.event irq a b, lane, since, before⟩] → w.pathAt lane = some p →
    ∃ t, Machine.exec (.eventRecordPost j) s = .next t ∧ post t (eventRecord 1 j irq a b p.pc y.evqhead) ∧
      (t.stream j).state = 1 ∧ (t.ctl who).waits = [])

/-- R219 to R223: REFORM files the issuing lanes of a waiting path as threads of the unit, each in a bin of its workgroup, pc and
key with its first registers, predicates and indexes; a bin 2048 clocks old becomes ready; a ready bin becomes a warp in the
lowest free slot, its threads in lanes from 0 in filing order at the bin's pc. -/
def Obligations.ReformEvents : Prop := ∀ (s : State) (core who bin : Nat) (x : Waiting) (p : Path) (a : VOp) (n : Nat) (m : LaneMask) (b : Bin),
  let w := s.warp who
  let i := Instr.reform ⟨false, 7⟩ a (BitVec.ofNat 5 n)
  let moved := applyDeltas w (xDeltas w (vuses i) m)
  let is : Issue := { who := who, lane := x.lane, i := i, w := w, path := p.mask, mask := m, pc := p.pc }
  let all := fun (t : State) => ((t.core core).bins.map (fun y => y.threads.length)).sum
  (s.reformMay who = true → (s.ctl who).spilled = none → coreOf who = core →
    (s.pollable who).find? (fun y => match y.kind with | .reform _ _ _ => true | _ => false) = some x → x.kind = .reform a n m →
    w.pathAt x.lane = some p → is.absentBlocks w = [] → all s + countLanes m ≤ 8192 → (s.core core).bins.length + countLanes m ≤ 256 →
    ∃ t, Machine.exec (.reformFile who) s = .next t ∧ all s + countLanes m ≤ all t ∧ (t.warp who).filed = w.filed ||| m ∧
      (∀ y ∈ (t.ctl who).waits, y.lane ≠ x.lane) ∧ t.mem = s.mem ∧
      ∀ L ∈ lanesOf m, ∃ y ∈ (t.core core).bins, y.wg = w.wg ∧ y.pc = afterWord p.pc ∧ y.key = is.src (useS a) L ∧
        carried moved n L ∈ y.threads) ∧
  (∃ t, Machine.exec (.reformBinAge core bin) s = .next t ∧ t.mem = s.mem ∧ t.warps = s.warps ∧ (∀ k, k ≠ core → t.core k = s.core k) ∧
    (t.core core).bins = (s.core core).bins.map (fun y =>
      if y.id = bin ∧ y.since + 2048 ≤ s.clock ∧ y.ready = false then { y with ready := true, readyAt := s.clock } else y)) ∧
  (∀ g k num sv, s.nextBin core = some b → mget s.wgs b.wg = some g → g.st = .resident → s.freeSlot core = some k →
    s.freeNum b.wg = some num → s.freeSaveNum b.src.ctx (core / 8) = some sv → max b.src.minb ((b.n + 7) / 8) ≤ s.freeOrdinary core →
    b.threads.length ≤ 128 → ∃ t, Machine.exec (.reformBinIssue core) s = .next t ∧
      let v := t.warp (64 * core + k)
      v.paths = [{ mask := maskOf (List.range b.threads.length), pc := b.pc }] ∧ v.wg = b.wg ∧ v.num = num ∧ v.s = b.src.s ∧
      v.curb = max b.src.minb ((b.n + 7) / 8) ∧ (∀ y ∈ (t.core core).bins, y.id ≠ b.id) ∧ t.mem = s.mem ∧
      (∀ L h, b.threads[L]? = some h → v.tidOf L = h.tid ∧ (∀ q < 7, (v.pred q).getLsbD L = h.preds.getLsbD q) ∧
        ∀ r y, h.regs[r]? = some y → v.reg r L = y) ∧
      ∀ o, o ≠ 64 * core + k → t.warp o = s.warp o ∧ t.ctl o = s.ctl o)

/-- R39, R41, R99, R100, R102, R347 to R350, R357, R361, R364, R366, R367, R370 to R372, R376 to R378, R413, R450: how engine
operations go on and end. A raw COPY's chunk moves its bytes within the scratchpad or between places of `g:`, with the side band of
whole lines, and one whose source violates stops the copy with ERR, nothing of the chunk written; a chunk of CONVERT or REDUCE
rounds each element's value into the destination format; a COPY that has run ends, its sums written first where it takes them; a
prefetch brings the lines of its page into the L2. ACCZ clears its tile; ACCMV writes the tile's elements to rows, or rows to the
tile; COMPRESS writes each dense row's kept elements and metadata; an MMA accumulates each element of its tile over the blocks of
its rows, dense or 2:4, floating or integer, and with CHK reports the first line that mismatches. Where an operand violates or is
poisoned, the destination is filled (NaN; 0x80000000 of an integer tile; all ones of COMPRESS's rows) and MTXERR becomes pending in
the seats. An ATTN updates each row by the tiles of its keys, of its maps or of its sequence, and with FIN finishes it; an operand
error fills O with NaN and makes MTXERR pending; over no key, one that neither begins nor ends leaves all as it was. The firmware
does the same for an operation it emulates. -/
def Obligations.EngineEvents : Prop := ∀ (s : State) (o : EngOp) (cp : CopyArgs) (p : CopyPlan) (g : Nat) (x : MmaArgs) (at_ : AttnArgs),
  let core := s.core o.core
  let H := 64 * o.nums.getD 0 1
  let cl := clusterOf o.who
  let quiet := ∀ e ∈ s.ctls, clusterOf e.1 = cl → e.2.quorumIssue = none
  let byte := fun (t : State) (a : Nat) => t.locRead (.ac o.wg a) 1
  let finish := if o.emul then Instr.emulatedOpComplete cl else .matrixOpComplete o.id
  let mayFinish := s.matrixReady o = true ∧ mhas s.wgs o.wg = true ∧
    (o.emul = true → quiet ∧ mget s.fwTraps cl = none ∧ ∃ q, (s.cluster cl).emulQ = o.id :: q)
  let ended := fun (t : State) => mget t.eops o.id = none ∧ (o.emul = true → (t.cluster cl).emulQ = (s.cluster cl).emulQ.tail)
  let k := p.chunk (o.nums.getD 0 0) (o.nums.getD 1 0)
  let src := p.src + (k.row : Int) * p.sstr + (k.pos : Int)
  mget s.eops o.id = some o → (∀ f ∈ o.flags, isSaved f.1 = false) → MemWf s →
  (o.instr = .copy cp → copyPlan cp o.vals = some p →
    (cp.xf = .raw → cp.ssp = .sp → cp.dsp = .sp → core.running = some o.id → 0 ≤ src → 0 ≤ k.ea → 0 < k.n →
      s.inGranules o.who g src.toNat k.n → s.inGranules o.who g k.ea.toNat k.n →
      ∃ t, Machine.exec (.datapathPiece o.core) s = .next t ∧ t.mem = s.mem ∧
        t.locRead (.sp g k.ea.toNat) k.n = s.locRead (.sp g src.toNat) k.n ∧
        (∀ a, a < k.ea.toNat ∨ k.ea.toNat + k.n ≤ a → t.locRead (.sp g a) 1 = s.locRead (.sp g a) 1) ∧
        (k.row + 1 < p.ndr → (t.core o.core).running = some o.id)) ∧
    (cp.xf = .raw → cp.ssp = .g → cp.dsp = .g → core.running = some o.id → 0 ≤ src → 0 ≤ k.ea → 0 < k.n → (src % 128).toNat + k.n ≤ 128 →
      ∀ c u1 u2 qa, s.engAt o .g (src / 128 * 128) k.n .engRead (src % 128).toNat = (c, u1) →
        u1.engAt o .g (k.ea / 128 * 128) k.n .engWrite (k.ea % 128).toNat = (.at_ (.mem (.phys qa)), u2) → u2.atHand (.phys qa) 128 = true →
        MemWf u2 →
        let into := qa + (k.ea % 128).toNat
        (∀ pa, c = .at_ (.mem (.phys pa)) → u2.atHand (.phys pa) 128 = true →
          let from_ := pa + (src % 128).toNat
          ∃ t, Machine.exec (.datapathPiece o.core) s = .next t ∧ t.physRead into k.n = u2.physRead from_ k.n ∧
            (∀ a, a < into ∨ into + k.n ≤ a → Memory.read t.mem.cells a = Memory.read u2.mem.cells a) ∧
            (p.nc % 128 = 0 → (p.src + k.row * p.sstr) % 128 = 0 → (p.dst + k.row * p.dstr) % 128 = 0 → isDev from_ = true →
              isDev into = true → t.locSide (.phys into) = u2.locSide (.phys from_))) ∧
        (∀ v, c = .viol v → ∃ t, Machine.exec (.datapathPiece o.core) s = .next t ∧ t.mem = u2.mem ∧ t.wgs = u2.wgs ∧
          mget t.eops o.id = some { o with err := true, ready := 1 } ∧ (t.core o.core).running = none)) ∧
    (cp.xf ≠ .raw → cp.ssp = .sp → cp.dsp = .sp → cp.smx = false → cp.dmx = false → core.running = some o.id → 0 < k.n → 0 ≤ k.ea →
      k.n % p.dsz = 0 → k.pos % p.dsz = 0 → s.inGranules o.who g k.ea.toNat k.n →
      (∀ c ∈ p.cols k, 0 ≤ p.srcAt k.row c ∧ s.inGranules o.who g (p.srcAt k.row c).toNat p.ssz) →
      ∃ t, Machine.exec (.datapathPiece o.core) s = .next t ∧ t.mem = s.mem ∧
        (∀ a, a < k.ea.toNat ∨ k.ea.toNat + k.n ≤ a → t.locRead (.sp g a) 1 = s.locRead (.sp g a) 1) ∧
        ∀ i c, (p.cols k)[i]? = some c →
          let into : Loc := .sp g (k.ea.toNat + p.dsz * i)
          let from_ := ((fmtOf p.sf).decode (leNat (s.locRead (.sp g (p.srcAt k.row c).toNat) p.ssz))).scale p.shift
          let old := (fmtOf p.df).decode (leNat (s.locRead into p.dsz))
          let v := if cp.xf = .convert then from_ else match cp.redop with
            | .add => (old.add from_ (p.rm == .rdn)).1
            | .min => old.pickMm false from_
            | .max => old.pickMm true from_
          leNat (t.locRead into p.dsz) = ((fmtOf p.df).round v p.rm (p.draw k.row c)).1 % 2 ^ (8 * p.dsz)) ∧
    (o.phase = 1 → o.ready = 1 → (cp.sums = false ∨ o.err = true ∨ o.pos = 1) → s.tokenAtHand o →
      ∃ t, Machine.exec (.copyComplete o.id) s = .next t ∧ Ended s t o) ∧
    (o.phase = 1 → o.ready = 1 → cp.sums = true → o.err = false → o.pos = 0 → o.tok = none → p.nc ≠ 0 →
      s.inGranules o.who g p.suma (4 * (p.ndr + p.ndc)) → p.suma % 4 = 0 → ∃ t, Machine.exec (.copyComplete o.id) s = .next t ∧
        mget t.eops o.id = none ∧ ∀ i w, (p.sumWords o)[i]? = some w → leNat (t.locRead (.sp g (p.suma + 4 * i)) 4) = w % 2 ^ 32)) ∧
  (∀ sa sb st n a b pa leaf u, o.instr = .prefetchL2 sa sb st true → o.phase = 1 → o.pos = 0 → o.vals = [a, n] → 0 < n.toNat →
    o.tok = some (b, true) → o.wg = g → s.inGranules o.who g b 1 → a.toNat + n.toNat ≤ s.pageEnd o.ctx a.toNat →
    s.ask o.ctx a.toNat .prefetch o.core o.who o.id a.toNat 0 n.toNat = (.ok pa leaf, u) → isWindow pa = false → isWindow (pa + n.toNat) = false →
    (∀ l ∈ linesOf pa n.toNat, mhas u.mem.frames (l / 32) = false ∧ ∀ k ∈ lineSecs l, mhas u.mem.poison k = false) →
    u.regs.hostLost = false → u.mem.present.length + (linesOf pa n.toNat).length ≤ Config.l2SliceLines →
    ∃ t, Machine.exec (.prefetchComplete o.id) s = .next t ∧ mget t.eops o.id = none ∧ t.mem.cells = u.mem.cells ∧
      ∀ l ∈ linesOf pa n.toNat, t.mem.whole l = true) ∧
  (mayFinish →
    (∀ toff nsel, o.instr = .accz toff nsel → ∃ t, Machine.exec finish s = .next t ∧ ended t ∧ t.mem = s.mem ∧
      ∀ a, byte t a = if 1024 * toff.toNat ≤ a ∧ a < 1024 * toff.toNat + 4 * (H * colsN nsel) then [0] else byte s a) ∧
    (o.instr = .mma x →
      let N := colsN x.nsel
      let T := 1024 * x.toff.toNat
      let K := depthK x.fa x.fb
      let a := mapAt o.vals 0
      let b := mapAt o.vals 2
      let set := fun (q : Operands) (i : Nat) => q.sets.getD i {}
      let cell := fun (t : State) (i : Nat) => leNat (t.locRead (.ac o.wg (T + 4 * i)) 4)
      let old := fun (i : Nat) => if x.zc then 0 else cell s i
      ∀ q u, s.readOperands o
          [⟨a.space, !x.sp && (mxOfNfc x.fa).isSome, (List.range H).flatMap (fun i =>
              if x.sp then [(a.row i, K / 2 * elemBits x.fa / 8)] else rowRanges x.fa K (a.row i))⟩,
           ⟨a.space, false, if x.sp then (List.range H).map (fun i => (a.metaRow i, metaBytes x.fa K)) else []⟩,
           ⟨b.space, (mxOfNfc x.fb).isSome, (List.range N).flatMap (fun j => rowRanges x.fb K (b.row j))⟩,
           ⟨a.space, false, if x.chk then [(a.csum, 4 * K)] else []⟩, ⟨b.space, false, if x.chk then [(b.csum, 4 * K)] else []⟩] = (q, u) →
        q.wait = false →
        let rowA := fun (i : Nat) => if x.sp then u.readSparse o (set q 0) (set q 1) x.fa K (a.row i) (a.metaRow i)
          else u.readRow o (set q 0) x.fa K (a.row i)
        let rowB := fun (j : Nat) => u.readRow o (set q 2) x.fb K (b.row j)
        let fine := q.viols = [] ∧ q.poison = [] ∧ (x.zc = true ∨ s.locPoison (.ac o.wg T) (4 * H * N) = false)
        let sums := fun (i : Nat) (m : OMap) => (codesOf 32 K (u.rangeNat o (set q i) m.csum (4 * K))).map f32
        let mism := fun (t : State) => checkTile ((List.range (H * N)).map old) ((List.range (H * N)).map (cell t)) H N (K / blockN x.fa)
          ((List.range H).map (fun i => exactRow x.fa (rowA i))) ((List.range N).map (fun j => exactRow x.fb (rowB j))) (sums 3 a) (sums 4 b)
        let head := (u.cluster cl).errhead
        (fine → ∃ t, Machine.exec finish s = .next t ∧ ended t ∧
            (∀ i j, i < H → j < N → cell t (i * N + j) = if mfam x.fa = .int
              then mmaElemInt (old (i * N + j)) (decodeInts (rowA i)) (decodeInts (rowB j)) % 2 ^ 32
              else mmaElem (old (i * N + j)) (decodeRow x.fa (rowA i)) (decodeRow x.fb (rowB j)) % 2 ^ 32) ∧
            (∀ m, m < T ∨ T + 4 * (H * N) ≤ m → byte t m = byte s m) ∧
            (x.chk = false ∨ mism t = none → (t.cluster cl).errhead = head) ∧
            (x.chk = true → ∀ col n, mism t = some (col, n) →
              (ringFull (u.cluster cl).errbase head (u.cluster cl).errtail = false →
                (t.cluster cl).errhead = head + 1 ∧ Memory.readN t.mem.cells (ringSlot (u.cluster cl).errbase head 32) 32 =
                  toLe 32 (errRecord 6 0 (BitVec.ofNat 64 T) (reqOf o.who true o.ctx o.pc) (n + if col then 512 else 0) head).toNat) ∧
              (x.chkt = true → ∀ w ∈ s.seatsOf o, (t.ctl w).pabft = true))) ∧
        (¬fine → ∃ t, Machine.exec finish s = .next t ∧ ended t ∧
          (∀ i, i < H * N → cell t i = if mfam x.fa = .int then 0x80000000 else 0x7FC00000) ∧
          ∀ w ∈ s.seatsOf o, (t.ctl w).pmtx = true)) ∧
    -- rows written to the scratchpad: ranges that do not overlap, in granules of the workgroup
    let apart := fun (rs : List (Nat × Nat)) => rs.Pairwise (fun y z => y.1 + y.2 ≤ z.1 ∨ z.1 + z.2 ≤ y.1) ∧ ∀ y ∈ rs, s.inGranules o.who g y.1 y.2
    let others := fun (t : State) (rs : List (Nat × Nat)) => ∀ m, (∀ y ∈ rs, m < y.1 ∨ y.1 + y.2 ≤ m) → t.locRead (.sp g m) 1 = s.locRead (.sp g m) 1
    (∀ toff nsel df sa, o.instr = .accmvOut sa toff nsel df →
      let m := mapAt o.vals 0
      let N := colsN nsel
      let f := fmtOf df
      let n := f.width / 8
      let rs := (List.range H).map (fun i => (m.row i, n * N))
      let bad := s.locPoison (.ac o.wg (1024 * toff.toNat)) (4 * H * N) = true
      m.space = .sp → apart rs → ∃ t, Machine.exec finish s = .next t ∧ ended t ∧ others t rs ∧
        (∀ i j, i < H → j < N →
          let e := leNat (s.locRead (.ac o.wg (1024 * toff.toNat + 4 * (i * N + j))) 4)
          (¬bad → leNat (t.locRead (.sp g (m.row i + n * j)) n) = (if df = .f32 then e else (f.round (f32 e) .rne {}).1) % 2 ^ (8 * n)) ∧
          (bad → leNat (t.locRead (.sp g (m.row i + n * j)) n) = f.canonNan % 2 ^ (8 * n))) ∧
        (bad → ∀ w ∈ s.seatsOf o, (t.ctl w).pmtx = true)) ∧
    (∀ toff nsel df sa q u, o.instr = .accmvIn sa toff nsel df →
      let m := mapAt o.vals 0
      let N := colsN nsel
      s.readOperands o [⟨m.space, false, (List.range H).map (fun i => (m.row i, 4 * N))⟩] = (q, u) → q.wait = false →
        ∃ t, Machine.exec finish s = .next t ∧ ended t ∧
          (∀ i j, i < H → j < N → leNat (t.locRead (.ac o.wg (1024 * toff.toNat + 4 * (i * N + j))) 4) =
            if q.viols = [] ∧ q.poison = [] then (codesOf 32 N (u.rangeNat o (q.sets.getD 0 {}) (m.row i) (4 * N))).getD j 0 else 0x7FC00000) ∧
          (¬(q.viols = [] ∧ q.poison = []) → ∀ w ∈ s.seatsOf o, (t.ctl w).pmtx = true)) ∧
    (∀ sa sb f q u, o.instr = .compress sa sb f →
      let K := if mfam f = .half then 64 else if f = .e2m1 then 256 else 128
      let a := mapAt o.vals 0
      let b := mapAt o.vals 2
      let nk := K / 2 * elemBits f / 8
      let rs := (List.range H).flatMap (fun i => [(b.row i, nk), (b.metaRow i, metaBytes f K)])
      let fine := q.viols = [] ∧ q.poison = []
      s.readOperands o [⟨a.space, (mxOfNfc f).isSome, (List.range H).flatMap (fun i => rowRanges f K (a.row i))⟩] = (q, u) → q.wait = false →
        b.space = .sp → apart rs → ∃ t, Machine.exec finish s = .next t ∧ ended t ∧ others t rs ∧
          (∀ i < H, let row := compressRow f K (u.readRow o (q.sets.getD 0 {}) f K (a.row i))
            (fine → t.locRead (.sp g (b.row i)) nk = row.1 ∧ t.locRead (.sp g (b.metaRow i)) (metaBytes f K) = row.2) ∧
            (¬fine → t.locRead (.sp g (b.row i)) nk = List.replicate nk 0xFF ∧
              t.locRead (.sp g (b.metaRow i)) (metaBytes f K) = List.replicate (metaBytes f K) 0xFF)) ∧
          (¬fine → ∀ w ∈ s.seatsOf o, (t.ctl w).pmtx = true))) ∧
  (o.instr = .attn at_ → s.matrixReady o = true →
    let d := attnDesc o.vals
    let D := headD at_
    let cell := fun (t : State) (m : Nat) => leNat (t.locRead (.ac o.wg m) 4)
    let fails := fun (t : State) => mget t.eops o.id = none ∧ (∀ i, i < H * D → cell t (d.ooff + 4 * i) = 0x7FC00000) ∧
      ∀ w ∈ s.seatsOf o, (t.ctl w).pmtx = true
    -- from the state `b`, in which the operation stands as `e`, over these keys
    let keyed := fun (b : State) (e : EngOp) (keys : List KeyAt) => e.id = o.id → e.wg = o.wg → e.instr = o.instr → e.vals = o.vals →
      e.nums.head? = o.nums.head? → e.seats = o.seats → e.flags = o.flags → mhas b.wgs o.wg = true →
      let qm := mapAt o.vals 0
      let spc := fun (i : Nat) => if at_.ksrc then Space.g else (mapAt o.vals i).space
      ∀ q u, b.readOperands e
          [⟨qm.space, (mxOfNfc at_.fqk).isSome, if keys.isEmpty then [] else (List.range H).flatMap (fun i => rowRanges at_.fqk D (qm.row i))⟩,
           ⟨spc 2, (mxOfNfc at_.fqk).isSome, keys.flatMap (fun y => rowRanges at_.fqk D y.ka)⟩,
           ⟨spc 4, (mxOfNfc at_.fv).isSome, keys.flatMap (fun y => rowRanges at_.fv D y.va)⟩] = (q, u) → q.wait = false →
        let bad := q.viols ≠ [] ∨ q.poison ≠ [] ∨ (at_.init = false ∧
          (u.locPoison (.ac o.wg d.ooff) (4 * H * D) = true ∨ u.locPoison (.ac o.wg d.soff) (8 * H) = true))
        let idle := keys.isEmpty = true ∧ at_.init = false ∧ at_.fin = false
        ∃ t, Machine.exec (.attnComplete o.id) s = .next t ∧ mget t.eops o.id = none ∧
          (idle → t.wgs = u.wgs ∧ t.mem = u.mem) ∧ (¬idle → bad → fails t) ∧
          (¬idle → ¬bad → d.ooff + 4 * (H * D) ≤ d.soff ∨ d.soff + 8 * H ≤ d.ooff → ∀ i, i < H →
            -- the value where the spec states none is open (log entry 6)
            let free := (Config.freeWord (u.fresh + i)).toNat % 2 ^ 32
            let begin_ : AttnRow := if at_.init then { out := List.replicate D 0 }
              else { m := cell u (d.soff + 8 * i), l := cell u (d.soff + 8 * i + 4), out := (List.range D).map (fun c => cell u (d.ooff + 4 * (i * D + c))) }
            let read := fun (f : NFC) (j a : Nat) => u.readRow e (q.sets.getD j {}) f D a
            let ks := keys.map (fun y => (y.pos, decodeRow at_.fqk (read at_.fqk 1 y.ka), valueRow at_.fv (read at_.fv 2 y.va)))
            let after := ((List.range ((keys.length + 63) / 64)).map (fun n => (ks.drop (64 * n)).take 64)).foldl (fun r tile =>
              r.tile d.sc (decodeRow at_.fqk (read at_.fqk 0 (qm.row i)))
                ((tile.zipIdx.filter (fun y => !at_.causal || decide (y.1.1 ≤ d.qpos + i))).map (fun y => (y.2, y.1.2))) free) begin_
            let done := if at_.fin then after.finish free else after
            (∀ c < D, cell t (d.ooff + 4 * (i * D + c)) = done.out.getD c 0 % 2 ^ 32) ∧ cell t (d.soff + 8 * i) = done.m % 2 ^ 32 ∧
              cell t (d.soff + 8 * i + 4) = done.l % 2 ^ 32)
    (at_.ksrc = false → keyed s o (mapKeys o d)) ∧
    (at_.ksrc = true → ∀ e got b, s.seqRead o at_ d = (e, got, b) →
      (∀ keys, got = .keys keys → keyed b e keys) ∧
      (e.id = o.id → e.wg = o.wg → e.nums.head? = o.nums.head? → e.seats = o.seats → e.flags = o.flags → mhas b.wgs o.wg = true →
        ((∃ v a, got = .viol v a) ∨ (∃ a, got = .dmg a) ∨ got = .bad none) → ∃ t, Machine.exec (.attnComplete o.id) s = .next t ∧ fails t)))

/-- R89, R381, R387, R391 to R395, R401, R404, R406, R408, R410, R412: the walker and the geometric unit. A KVWALK writes a list
entry for each position, page and slot or all ones, and FORM and RANGE set their EST bit; a KVAPPEND copies a token's key and value
rows to its place, where it allocates lowers the pool's TOP and fills the page-list entry, and changes no other byte of memory, so
not the length; one that must stop sets its EST bit; one that meets a lock lets go and tries again 256 clocks later; a KVCOMMIT
writes the length word, bits 63 to 32 of it 0; a word that has done its work ends. Stage A takes the oldest queued word and settles
the lanes its filter decides; the exact unit serves four lanes, and one that it serves keeps its place to its end; a word whose
lanes are all settled writes every lane and the predicate at once, but for what a higher slot of its own group wrote (R249). -/
def Obligations.WalkerAndGeoEvents : Prop := ∀ (s : State) (o : EngOp) (w : KvWalkArgs) (a : KvAppendArgs) (c : KvCommitArgs) (r : KvRec)
    (o1 : EngOp) (t0 t1 t2 : State) (g : Nat) (op : GeoOp) (x : GeoArgs),
  let list := (o.vals.getD 2 0).toNat
  mget s.eops o.id = some o → (∀ f ∈ o.flags, isSaved f.1 = false) →
  (o.ready = 2 → s.tokenAtHand o →
    ((∀ c, o.instr ≠ .kvcommit c) → ∃ t, Machine.exec (.kvWordComplete o.id) s = .next t ∧ Ended s t o) ∧
    (o.instr = .kvcommit c → ∃ t, Machine.exec (.kvcommitWrite o.id) s = .next t ∧ Ended s t o)) ∧
  (o.ready ≠ 2 → s.kvReady o = true → s.kvRecord o (o.vals.getD 0 0).toNat = (.ok (r, o1), t0) →
    let same := o1.tok = none ∧ o1.id = o.id ∧ o1.who = o.who ∧ o1.vals = o.vals ∧ o1.flags = o.flags
    let ends := fun (t : State) => Machine.exec (.kvWordComplete o.id) s = .next t ∧ mget t.eops o.id = none
    -- the EST bit `n` set at the L2, in the word at `pa`, from the state `b`
    let estAt := fun (b : State) (pa : Nat) (c : State) => b.kvSpan o1 ((o.vals.getD 0 0).toNat + 48) 8 .atomic = (.ok [(0, pa, 8)], c) ∧
      c.atHand (.phys pa) 8 = true ∧ c.physPoison pa 8 = false ∧ MemWf c
    let estSet := fun (c t : State) (pa n : Nat) => leNat (t.physRead pa 8) = leNat (c.physRead pa 8) ||| 2 ^ n ∧
      ∀ m, m < pa ∨ pa + 8 ≤ m → Memory.read t.mem.cells m = Memory.read c.mem.cells m
    (∀ lim ws u, o.instr = .kvwalk w → w.dsp = true → same → ws.length + o1.pos = w.cntm1.toNat + 1 →
      t0.kvLimit o1 r w.unc = (.ok lim, t1) → t1.walksList o1 r lim g o1.pos ws u →
      ∃ t, ends t ∧ t.mem = u.mem ∧
        ∀ i y, ws[i]? = some y → leNat (t.locRead (.sp g (list + 8 * (o1.pos + i))) 8) = y.entry % 2 ^ 64) ∧
    (∀ lim y n pa v, o.instr = .kvwalk w → w.dsp = true → same → o1.pos = w.cntm1.toNat → t0.kvLimit o1 r w.unc = (.ok lim, t1) →
      t1.kvResolve o1 r ((o.vals.getD 1 0).toNat + o1.pos) lim = (.ok y, t2) → (y = .form ∧ n = estForm) ∨ (y = .range ∧ n = estRange) →
      t2.inGranules o.who g (list + 8 * o1.pos) 8 → estAt t2 pa v →
      ∃ t, ends t ∧ estSet v t pa n ∧ leNat (t.locRead (.sp g (list + 8 * o1.pos)) 8) = 2 ^ 64 - 1) ∧
    (o.instr = .kvappend a → (o1.vals.getD 2 0).toNat < r.nhead → o1.pos ≤ a.ntm1.toNat →
      t0.kvFind o1 r (r.len + (o1.vals.getD 1 0).toNat + o1.pos) = (.ok .locked, t1) →
      ∃ t, Machine.exec (.kvWordComplete o.id) s = .next t ∧ t.mem = t1.mem ∧
        mget t.eops o1.id = some { o1 with phase := 3, ready := t1.clock + 256 }) ∧
    (∀ pa v, o.instr = .kvappend a → same → r.nhead ≤ (o.vals.getD 2 0).toNat → estAt t0 pa v → ∃ t, ends t ∧ estSet v t pa estHead) ∧
    (∀ n pa v, o.instr = .kvappend a → same → (o.vals.getD 2 0).toNat < r.nhead → o1.pos ≤ a.ntm1.toNat → n ≠ estPool →
      t0.kvFind o1 r (r.len + (o.vals.getD 1 0).toNat + o1.pos) = (.ok (.stop n), t1) → estAt t1 pa v → ∃ t, ends t ∧ estSet v t pa n) ∧
    -- the last token of an append: the rows of `spot`, whose lines the L2 holds at places of their own
    (∀ spot dst t3, o.instr = .kvappend a → a.ssp = false → same → (o.vals.getD 2 0).toNat < r.nhead → o1.pos = a.ntm1.toNat →
      let i := fun n => (o.vals.getD n 0).toNat
      let ks := i 3 + o1.pos * r.rsz
      let vs := i 3 + (a.ntm1.toNat + 1 + o1.pos) * r.rsz
      let base := spot.page + i 2 * r.hstr + spot.slot * r.rsz
      t0.kvFind o1 r (r.len + i 1 + o1.pos) = (.ok (.at_ spot), t1) → t1.inGranules o.who g ks r.rsz → t1.inGranules o.who g vs r.rsz →
      t1.resolveUnits o1 .g .engWrite false (rangeUnits [(base + r.koff, r.rsz), (base + r.voff, r.rsz)]) = (dst, t2) →
      dst.wait = false → dst.viols = [] → (dst.locs.map Prod.snd).Nodup → r.koff + r.rsz ≤ r.voff ∨ r.voff + r.rsz ≤ r.koff →
      t2.kvTake o1 r.leaf spot = (.ok (), t3) → MemWf t3 →
      (∀ e ∈ dst.locs, ∃ pa, e.2 = .mem (.phys pa) ∧ pa % 128 = 0 ∧ t3.atHand (.phys pa) 128 = true) →
      ∃ t, ends t ∧
        (∀ b < r.rsz, ∀ l, (dst.place ((base + r.koff + b : Nat) : Int) = some (.mem l) → t.locRead l 1 = t3.locRead (.sp g (ks + b)) 1) ∧
          (dst.place ((base + r.voff + b : Nat) : Int) = some (.mem l) → t.locRead l 1 = t3.locRead (.sp g (vs + b)) 1)) ∧
        ∀ m, (∀ e ∈ dst.locs, ∀ pa, e.2 = .mem (.phys pa) → m < pa ∨ pa + 128 ≤ m) → Memory.read t.mem.cells m = Memory.read t3.mem.cells m) ∧
    -- what an allocation writes: TOP and the page-list entry; the leaf's FLAGS end as they were
    (∀ spot entry pool top pp pe pl v1 v2 v3, spot.take = some (entry, pool, top) → t0.kvSpan o1 pool 4 .atomic = (.ok [(0, pp, 4)], v1) →
      v1.kvSpan o1 entry 8 .engWrite = (.ok [(0, pe, 8)], v2) → v2.kvLockSpan o1 r.leaf = (.ok [(0, pl, 4)], v3) →
      (∀ p ∈ [(pp, 4), (pe, 8), (pl, 4)], v3.atHand (.phys p.1) p.2 = true) → pp + 4 ≤ pe ∨ pe + 8 ≤ pp → MemWf v3 →
      ∃ t, t0.kvTake o1 r.leaf spot = (.ok (), t) ∧ leNat (t.physRead pp 4) = (top - 1) % 2 ^ 32 ∧
        leNat (t.physRead pe 8) = spot.page % 2 ^ 64 ∧
        ∀ m, (m < pp ∨ pp + 4 ≤ m) → (m < pe ∨ pe + 8 ≤ m) → Memory.read t.mem.cells m = Memory.read v3.mem.cells m) ∧
    (∀ pa, o.instr = .kvcommit c → ((o.vals.drop 2).all fun i => !mhas s.eops i.toNat) = true → o1.tok = none → o1.id = o.id →
      t0.kvCommitCheck o1 r (o.vals.getD 1 0).toNat = (.ok true, t1) →
      t1.kvSpan o1 (o.vals.getD 0 0).toNat 8 .engWrite = (.ok [(0, pa, 8)], t2) → t2.atHand (.phys pa) 8 = true → MemWf t2 →
      ∃ t, Machine.exec (.kvcommitWrite o.id) s = .next t ∧ mget t.eops o.id = none ∧
        leNat (t.physRead pa 8) = (o.vals.getD 1 0).toNat ∧
        ∀ m, m < pa ∨ pa + 8 ≤ m → Memory.read t.mem.cells m = Memory.read t2.mem.cells m)) ∧
  (o.phase = 3 → o.ready ≤ s.clock → Machine.exec (.kvLockRetry o.id) s = .next (s.kvStep { o with phase := 1, ready := 0 })) ∧
  (o.phase = 3 → s.clock < o.ready → Machine.exec (.kvLockRetry o.id) s = .next s) ∧
  (geoArgs o.instr = some (op, x) →
    (∀ rest, (s.core o.core).geo = o.id :: rest → ∃ t e, Machine.exec (.geoStageA o.core) s = .next t ∧ (t.core o.core).geo = rest ∧
      mget t.eops o.id = some e ∧ e.phase = 2 ∧ t.mem = s.mem ∧ t.warps = s.warps ∧
      (∀ y ∈ (s.core o.core).exact, y ∈ (t.core o.core).exact) ∧ ∀ L ∈ lanesOf o.mask,
        (badCoord (geoLane o L).1.flatten = true → mget e.res L = some 3) ∧
        (badCoord (geoLane o L).1.flatten = false → ∀ v, filterCode op (geoLane o L).1 = some v → mget e.res L = some (v % 2 ^ 32).toNat) ∧
        (badCoord (geoLane o L).1.flatten = false → filterCode op (geoLane o L).1 = none →
          mget e.res L = if x.x then none else some 2)) ∧
    (∀ L, o.mask.getLsbD L = true →
      ((o.id, L) ∉ (s.core o.core).exact → Machine.exec (.geoExactLane o.core o.id L) s = .next s) ∧
      ((o.id, L) ∈ (s.core o.core).exact → ∃ t e, Machine.exec (.geoExactLane o.core o.id L) s = .next t ∧ mget t.eops o.id = some e ∧
        e.res = mset o.res L (exactCode op (geoLane o L).1 (geoLane o L).2 % 2 ^ 32).toNat ∧ t.mem = s.mem ∧ t.warps = s.warps ∧
        (∀ x ∈ (s.core o.core).exact, x ≠ (o.id, L) → x ∈ (t.core o.core).exact) ∧
        ((s.core o.core).exact.length ≤ 4 → (t.core o.core).exact.length ≤ 4))) ∧
    (o.phase = 2 → s.geoHere o = true → isSaved o.who = false → isStream o.who = false → mhas s.warps o.who = true → (s.ctl o.who).inTrap = false →
      (∀ L ∈ lanesOf o.mask, mhas o.res L = true) → o.tok = none → s.longAbsent o.who o.handler (mvals o.dst).flatten.eraseDups = [] →
      ∃ t, Machine.exec (.geoComplete o.id) s = .next t ∧ mget t.eops o.id = none ∧ t.mem = s.mem ∧
        (∀ L ∈ lanesOf o.mask, ∀ d v, mget o.dst L = some [d] → mget o.res L = some v → (t.warp o.who).reg d L =
          if o.outdone.contains (128 * d + L) = true then (s.warp o.who).reg d L else ⟨BitVec.ofNat 32 v, false⟩) ∧
        (x.pd ≠ 7 → ∀ L, L < 128 → ((t.warp o.who).pred x.pd.val).getLsbD L =
          if o.mask.getLsbD L && !o.outdone.contains (128 * (256 + x.pd.val) + L) then decide (mget o.res L = some 2) else ((s.warp o.who).pred x.pd.val).getLsbD L) ∧
        (∀ n, n ≠ x.pd.val → (t.warp o.who).pred n = (s.warp o.who).pred n) ∧
        ∀ n, (t.warp o.who).flag n = (s.warp o.who).flag n - o.flags.count (o.who, n)))

/-- R229, R287 to R290, R425, R426: a launch and its grid. A descriptor that has been read is accepted for queueing or rejected with
its code; the status word says which, in one store; an accepted grid joins the queues at its priority min(PRIO, PCEIL) and counts
as a child of its parent, or waits for room; a grid all of whose workgroups and children have retired leaves, and its launch ends. -/
def Obligations.GridEvents : Prop := ∀ (s u : State) (o : EngOp) (sa sb : SOp) (cf : BitVec 5) (cc : BitVec 6) (g : Grid) (pa : Nat) (leaf : W64),
  let desc := (o.vals.getD 0 0).toNat
  let status := (o.vals.getD 1 0).toNat
  let par := o.nums.getD 0 0
  let bits : BitVec 512 := leWord 512 (u.physRead pa 64)
  let err := launchErr bits (o.nums.getD 1 0)
  MemWf s → MemWf u → (∀ e ∈ s.grids, e.2.id = e.1 ∧ e.1 < s.nextId) → o.tok = none → o.nums.length = 6 → o.instr = .launch sa sb cf cc →
  mget s.eops o.id = some o → (∀ f ∈ o.flags, isSaved f.1 = false) →
  (o.phase = 0 → o.vals.length = 2 → s.forkDone o = true → o.nums.getD 3 0 = 0 →
    s.ask o.ctx desc .engRead o.core o.who o.id desc 0 64 = (.ok pa leaf, u) → u.atHand (.phys pa) 64 = true →
    u.locPoison (.phys pa) 64 = false →
    (err = 0 → ∃ t e, Machine.exec (.launchDescriptorRead o.id) s = .next t ∧ mget t.eops o.id = some e ∧ e.phase = 2 ∧
      e.descr = Descr.ofBits bits ∧ t.mem = u.mem) ∧
    (err ≠ 0 → ∃ t, Machine.exec (.launchDescriptorRead o.id) s = .next t ∧ Ended u t o)) ∧
  (o.phase = 1 → o.nums.getD 3 0 = 1 →
    s.ask o.ctx status .engWrite o.core (firmwareOf (clusterOf o.who)) o.id status 0 8 = (.ok pa leaf, u) → u.atHand (.phys pa) 8 = true →
    ∃ t, Machine.exec (.launchDescriptorRead o.id) s = .next t ∧
      leNat (t.physRead pa 8) = statusWord (o.nums.getD 2 0 != 0) (o.nums.getD 2 0) % 2 ^ 64 ∧
      (∀ m, m < pa ∨ pa + 8 ≤ m → Memory.read t.mem.cells m = Memory.read u.mem.cells m) ∧
      (o.nums.getD 2 0 = 0 → mget t.eops o.id = some { o with phase := 2 }) ∧ (o.nums.getD 2 0 ≠ 0 → mget t.eops o.id = none)) ∧
  (o.phase = 2 → s.launchRoom o = false → Machine.exec (.launchAccept o.id) s = .next s) ∧
  (o.phase = 2 → s.launchRoom o = true → par ≤ s.nextId → ∃ t h e, Machine.exec (.launchAccept o.id) s = .next t ∧
    mget t.grids s.nextId = some h ∧ h.descr = o.descr ∧ h.ctx = o.ctx ∧ h.prio = min o.descr.prio (t.ctxField o.ctx 58 5) ∧
    h.cfirst = o.nums.getD 4 0 ∧ h.ccnt = o.nums.getD 5 0 ∧ h.placed = [] ∧ h.retired = 0 ∧ h.children = 0 ∧
    h.held = s.regs.suspended.contains o.ctx ∧ mget t.eops o.id = some e ∧ e.phase = 3 ∧
    (s.readDescr (clusterOf o.who) o.ctx ≠ none → t.mem = s.mem) ∧
    (par ≠ 0 → ∀ p, mget s.grids (par - 1) = some p → mget t.grids (par - 1) = some { p with children := p.children + 1 })) ∧
  (mget s.grids g.id = some g → g.op = o.id →
    (s.gridDone g = false → Machine.exec (.gridRetire g.id) s = .next s) ∧
    (s.gridDone g = true → o.nums.getD 3 0 = 0 → ∃ t, Machine.exec (.gridRetire g.id) s = .next t ∧ mget t.grids g.id = none ∧ Ended s t o ∧
      ∀ p q, g.parent = some p → p ≠ g.id → mget s.grids p = some q → mget t.grids p = some { q with children := q.children - 1 }) ∧
    (s.gridDone g = true → o.nums.getD 3 0 = 1 →
      s.ask o.ctx status .engWrite o.core (firmwareOf (clusterOf o.who)) o.id status 0 8 = (.ok pa leaf, u) →
      u.atHand (.phys pa) 8 = true → ∃ t, Machine.exec (.gridRetire g.id) s = .next t ∧ mget t.grids g.id = none ∧
        mget t.eops o.id = none ∧ leNat (t.physRead pa 8) = 2 ^ 63 + 2 ^ 62))

/-- R48, R428 to R433, R455 to R458: the dispatcher. A step falls due 16 clocks after the last and places the first unit that fits:
a new workgroup on its core, its warps in their launch state. A unit passed over for 16,384 clocks has cores reserved, those of
its partition first; an empty core takes the partition that is wanted. The warps of a leaving unit reach a boundary and give their
waits up, a trap that one is entering being entered first; once all they have started is done they leave their slots, and a save
whose records are written, and for whose registers and windows no engine operation is under way, is complete. Which waits are given
up, and what the record waits for, is log entry 78. -/
def Obligations.DispatchEvents : Prop := ∀ (s t0 u0 : State) (c k : Nat) (g : Grid) (w w1 : Wg),
  let us := s.unitOf w
  let ws := (us.map Wg.id).flatMap s.warpsOfWg
  let unit := ((mvals s.wgs).filter (fun x => x.grid == w.grid && x.unit == w.unit)).map Wg.id
  let s0 := (s.sweep.fillWindows c).modCluster c (fun x => { x with nextStep := s.clock + 16 })
  (c < Config.clusters →
    (s.clock < (s.cluster c).nextStep → Machine.exec (.dispatchStep c) s = .next s) ∧
    ((s.cluster c).nextStep ≤ s.clock → ∃ t, Machine.exec (.dispatchStep c) s = .next t ∧ (t.cluster c).nextStep = s.clock + 16 ∧
      ∀ u n j sv, s0.firstFit c (s0.unitOrder c) = ([], some (g, u, [k])) → u.needs = [n] → n.wg = none → g.descr.warps = 1 →
        mget s0.grids g.id = some g → s0.freeSlot k = some j → s0.freeSaveNum g.ctx (k / 8) = some sv →
        ∃ x d, mget t.wgs s0.nextId = some x ∧ x.grid = g.id ∧ x.lin = n.lin ∧ x.unit = u.unit ∧ x.core = k ∧ x.st = .resident ∧
          x.sp = [] ∧ x.ac = [] ∧ { t.warp (64 * k + j) with blocks := [] } = launchWarp g s0.nextId s0.nextId 0 ∧
          (t.ctl (64 * k + j)).saveNum = sv ∧ mget t.grids g.id = some d ∧ mgetD d.placed c 0 = mgetD g.placed c 0 + 1)) ∧
  ((s.cluster c).resv.isSome = true → Machine.exec (.dispatchReserveTimeout c) s = .next s) ∧
  (∀ u r a, (s.cluster c).resv = none → s.unitOrder c = (g, u) :: r → g.passedSince c u.unit = some a →
    (s.clock - a < 16384 → Machine.exec (.dispatchReserveTimeout c) s = .next s) ∧
    (16384 ≤ s.clock - a → ∃ t cores, Machine.exec (.dispatchReserveTimeout c) s = .next t ∧
      (t.cluster c).resv = some (g.id, u.unit, cores) ∧ cores.length = min u.needs.length 8 ∧ (∀ x ∈ cores, x ∈ coresOf c) ∧
      (∀ x ∈ coresOf c, x ∉ cores → (s.core x).partw = g.descr.part → ∀ y ∈ cores, (s.core y).partw = g.descr.part) ∧
      { t with clusters := [] } = { s with clusters := [] })) ∧
  (s.wantedPart k = none ∨ s.coreEmpty k = false → Machine.exec (.partitionChange k) s = .next s) ∧
  (∀ p, s.wantedPart k = some p → s.coreEmpty k = true → ∃ t, Machine.exec (.partitionChange k) s = .next t ∧ (t.core k).partw = p ∧
    (∀ j, j ≠ k → t.core j = s.core j) ∧ { t with cores := [] } = { s with cores := [] }) ∧
  (mget s.wgs w.id = some w → MemWf s →
    (w.st ≠ .leaving → Machine.exec (.preemptBoundary w.id) s = .next s) ∧
    (w.st = .leaving → s.cur = none → ∃ t, Machine.exec (.preemptBoundary w.id) s = .next t ∧ t.warps = s.warps ∧ t.mem = s.mem ∧
      ∀ who ∈ ws, ((s.ctl who).entering ≠ none → t.ctl who = s.ctl who) ∧ ((s.ctl who).entering = none → (t.ctl who).boundary = true ∧
        (t.ctl who).arrived = false ∧ (t.ctl who).heldGroup = (s.ctl who).heldGroup ∧
        (t.ctl who).quorumIssue = none ∧ (t.ctl who).waits = (s.ctl who).waits.filter (fun x => !abandoned x.kind))) ∧
    ((us.all fun x => x.st == .leaving) = false ∨ ws.all s.handedReady = false → Machine.exec (.preemptHandover w.id) s = .next s) ∧
    ((us.all fun x => x.st == .leaving && !s.wgStores x.id) = true → ws.all s.handedReady = true → (∀ e ∈ s.wgs, e.2.id = e.1) →
      ∃ t, Machine.exec (.preemptHandover w.id) s = .next t ∧
      (∀ x ∈ us, ∃ y, mget t.wgs x.id = some y ∧ y.st = .saving) ∧ ∀ who ∈ ws, mhas t.warps who = false) ∧
    (w.st ≠ .saving ∨ ((s.core w.core).wbs.any fun b => (s.awayWarps w.id).contains b.who) = true ∨
      (mvals s.eops).any (holdsSave unit) = true ∨ (s.awayWarps w.id).any s.writesRegs = true →
      Machine.exec (.saveRecordComplete w.id) s = .next s) ∧
    (w.st = .saving → ((s.core w.core).wbs.any fun b => (s.awayWarps w.id).contains b.who) = false →
      (mvals s.eops).any (holdsSave unit) = false → (s.awayWarps w.id).any s.writesRegs = false →
      s.readWindows w ((spillWindows w.spxt).filter (fun k => !w.fillWin.contains k)) = (true, t0) →
      t0.writeRecords (s.awayWarps w.id) = (true, u0) → mget u0.wgs w.id = some w1 → w1.id = w.id →
      ∃ t, Machine.exec (.saveRecordComplete w.id) s = .next t ∧ t.mem = u0.mem ∧ t.warps = u0.warps ∧
        mget t.wgs w.id = some { w1 with st := .saved, spxt := [], accg := [], fillWin := [] }))

/-- R22, R89, R90, R469 to R473: what comes from outside. The host and other modules read and write device memory, another module
with side bands and atomics, poison going to the reader; a line the host may hold is noted, and a write to it that is not the
host's own asks for it back (that a write of the host itself calls nothing back is log entry 101); a port goes down and up and
counts its retries; the host takes a line of its own memory, with what it wrote. -/
def Obligations.OutsideEvents : Prop := ∀ (s : State) (pa n line : Nat) (bs : List Byte) (p : Fin 18) (d : BitVec 1024) (sb v c : W64) (op : AOp)
    (ty : ITy),
  let here := fun (a k : Nat) => inDev a k = true ∧ ∀ l ∈ linesOf a k, s.mem.whole l = true
  let port := fun (u : State) => mgetD u.regs.ports p.val (false, 0, 0)
  let same := fun (t : State) (a k : Nat) => ∀ m, m < a ∨ a + k ≤ m → Memory.read t.mem.cells m = Memory.read s.mem.cells m
  let calls := fun (a k : Nat) => ((linesOf a k).filter (fun l => mhas s.mem.hostHeld l)).map Out.invalidateHost
  MemWf s →
  (here pa n → ∃ t, Machine.exec (.hostMemRequest (.read pa n)) s = .next t ∧ t.outbox = s.outbox ++ [.readData (s.physRead pa n) (s.badSectors pa n)] ∧
    t.mem.cells = s.mem.cells ∧ ∀ l ∈ linesOf pa n, mhas t.mem.hostHeld l = true) ∧
  (here pa n → Machine.exec (.ualRemoteRequest (.read pa n)) s =
    .next (s.emit (.readData (s.physRead pa n) (s.badSectors pa n)))) ∧
  (here pa bs.length → ∃ t u, Machine.exec (.hostMemRequest (.write pa bs)) s = .next t ∧
    Machine.exec (.ualRemoteRequest (.write pa bs)) s = .next u ∧ t.outbox = s.outbox ∧
    u.outbox = s.outbox ++ calls pa bs.length ∧
    (∀ l, mhas t.mem.hostHeld l = mhas s.mem.hostHeld l) ∧
    ∀ x ∈ [t, u], x.physRead pa bs.length = bs ∧ same x pa bs.length) ∧
  (inDev pa n = false → Machine.exec (.hostMemRequest (.read pa n)) s = .next s ∧ Machine.exec (.ualRemoteRequest (.read pa n)) s = .next s) ∧
  (inDev pa bs.length = false → Machine.exec (.hostMemRequest (.write pa bs)) s = .next s) ∧
  (here pa 128 → pa % 128 = 0 →
    Machine.exec (.ualRemoteRequest (.readLine pa)) s =
      .next ((s.emit (.readData (s.physRead pa 128) (s.badSectors pa 128))).emit
        (.oldValue (s.sideRead (pa / 128)) (s.sidePoison (pa / 128)))) ∧
    ∃ t, Machine.exec (.ualRemoteRequest (.writeLine pa d sb)) s = .next t ∧ t.physRead pa 128 = toLe 128 d.toNat ∧ same t pa 128 ∧
      t.sideRead (pa / 128) = sb ∧ t.sidePoison (pa / 128) = false ∧ t.physPoison pa 128 = false) ∧
  (here pa (ty.width / 8) → pa % (ty.width / 8) = 0 → s.physPoison pa (ty.width / 8) = false →
    let k := ty.width / 8
    let old := leNat (s.physRead pa k)
    ∃ t, Machine.exec (.ualRemoteRequest (.atomic pa op ty v c)) s = .next t ∧ .oldValue (BitVec.ofNat 64 old) false ∈ t.outbox ∧ same t pa k ∧
      leNat (t.physRead pa k) = ((atomNew op ty old (v.toNat % 2 ^ ty.width) (c.toNat % 2 ^ ty.width)).getD old) % 2 ^ ty.width) ∧
  (here pa (ty.width / 8) → pa % (ty.width / 8) = 0 → s.physPoison pa (ty.width / 8) = true →
    Machine.exec (.ualRemoteRequest (.atomic pa op ty v c)) s = .next (s.emit (.oldValue 0 true))) ∧
  (∃ t u w, Machine.exec (.ualPortDown p) s = .next t ∧ port t = (false, (port s).2) ∧
    Machine.exec (.ualPortUp p) s = .next u ∧ port u = (true, (port s).2) ∧
    Machine.exec (.linkLevelRetry p) s = .next w ∧ port w = ((port s).1, (port s).2.1, (port s).2.2 + 1) ∧
    ∀ q, q ≠ p.val → ∀ x ∈ [t, u, w], mgetD x.regs.ports q (false, 0, 0) = mgetD s.regs.ports q (false, 0, 0) ∧ x.mem = s.mem) ∧
  (isHostPa (128 * line) = false → Machine.exec (.cxlCacheSnoop line (some d)) s = .next s ∧ Machine.exec (.cxlCacheSnoop line none) s = .next s) ∧
  (isHostPa (128 * line) = true → s.regs.hostLost = false → ∃ t u, Machine.exec (.cxlCacheSnoop line none) s = .next t ∧ t.mem.cells = s.mem.cells ∧
    Machine.exec (.cxlCacheSnoop line (some d)) s = .next u ∧ u.physRead (128 * line) 128 = toLe 128 d.toNat ∧
    same u (128 * line) 128 ∧ u.physPoison (128 * line) 128 = false ∧ ∀ x ∈ [t, u], mhas x.mem.present line = false)

/-- R160 to R173: the base dies and their commands. A line that leaves the L2 is stored sector by sector under the format and the
table its request captured, poison kept; a sector that comes back is decoded; a request ends in its turn, and a retained generation
that only it held goes with it. LOADSLOT checks a table image and installs it, or keeps it until the retained generation has
drained; RECODE stores a frame anew; DUMP writes a frame's descriptor and entries. The model's choices here are log entries 79
(coding at acceptance), 91 (the order of ERRC, ERRC 3 for a poisoned image, FMT ignored, CXADDR read anew), 108 (a sector written
since the generation went) and 109 (DUMP of META damage). -/
def Obligations.BaseDieEvents : Prop := ∀ (s : State) (sec : Nat) (n : Fin 64) (a b c : Nat),
  let line := sec / 4
  let base := 128 * line
  let cx0 := s.regs.cxaddr0.toNat
  let cx1 := s.regs.cxaddr1.toNat
  let i := s.regs.cxPos
  let image := tableOfImage (s.physRead cx0 128)
  let ends := fun (x : Instr) (e : Nat) => Machine.exec x s = .next (s.endCx e)
  MemWf s →
  (mhas s.mem.present line = true → isDev base = true → ∃ t, Machine.exec (.baseDieRequest (.acceptWrite sec)) s = .next t ∧
    mhas t.mem.present line = false ∧ t.mem.bdq = s.mem.bdq ++ [s.capture base true] ∧ t.mem.cells = s.mem.cells ∧
    ∀ j < 4, (t.frame base).entry (base % 4096 / 32 + j) =
      if s.mem.inL2 (4 * line + j) then storeSector (s.frame base).fmt (captureTable s.mem.slots (s.frame base))
        (s.physRead (base + 32 * j) 32) (mhas s.mem.poison (4 * line + j))
      else (s.frame base).entry (base % 4096 / 32 + j)) ∧
  (s.mem.inL2 sec = false → isDev base = true → ∃ t, Machine.exec (.baseDieRequest (.acceptRead sec)) s = .next t ∧
    t.mem.inL2 sec = true ∧ t.mem.bdq = s.mem.bdq ++ [s.capture (32 * sec) false] ∧
    ∀ f : Option (List Byte), s.baseRead (32 * sec) = .ok f → (∀ l, f = some l → l.length = 32) → mhas s.mem.poison sec = false →
      t.physRead (32 * sec) 32 = f.getD (s.physRead (32 * sec) 32)) ∧
  (∃ t, Machine.exec (.baseDieRequest .finish) s = .next t ∧ t.mem.bdq = s.mem.bdq.drop 1 ∧ t.mem.cells = s.mem.cells ∧
    ∀ q r, s.mem.bdq = q :: r → q.fmt ≠ 0 → (s.tableSlot q.slot).oldGen = some q.gen → (∀ x ∈ r, x.slot = q.slot → x.gen ≠ q.gen ∨ x.fmt = 0) →
      (t.tableSlot q.slot).oldGen = none) ∧
  (s.regs.cxCmd = some (1, n.val, a, b) → (s.tableSlot n.val).pending = none →
    (cx0 % 128 ≠ 0 ∨ inDev cx0 128 = false → ends .cxcmdLoadslot 2) ∧
    (cx0 % 128 = 0 → inDev cx0 128 = true → s.mem.whole (cx0 / 128) = true →
      (s.physPoison cx0 128 = true ∨ tableValid image = false → ends .cxcmdLoadslot 3) ∧
      (s.physPoison cx0 128 = false → tableValid image = true → ∃ t, Machine.exec .cxcmdLoadslot s = .next t ∧
        ((s.tableSlot n.val).oldGen = none → t.regs.cxCmd = none ∧ t.regs.cxErrc = 0 ∧ (t.tableSlot n.val).table = image ∧
          (t.tableSlot n.val).gen = some ((s.tableSlot n.val).gen.elim 0 fun g => (g + 1) % 16) ∧
          (t.tableSlot n.val).oldGen = (s.tableSlot n.val).gen) ∧
        ((s.tableSlot n.val).oldGen ≠ none → t.regs.cxCmd = s.regs.cxCmd ∧ (t.tableSlot n.val).pending = some image ∧
          (t.tableSlot n.val).table = (s.tableSlot n.val).table)))) ∧
  (∀ g, (s.tableSlot n.val).oldGen = some g →
    ((∃ q ∈ s.mem.bdq, q.slot = n.val ∧ q.gen = g ∧ q.fmt ≠ 0) → Machine.exec (.slotGenerationInstall n) s = .next s) ∧
    ((∀ q ∈ s.mem.bdq, ¬(q.slot = n.val ∧ q.gen = g ∧ q.fmt ≠ 0)) → ∃ t, Machine.exec (.slotGenerationInstall n) s = .next t ∧
      ((s.tableSlot n.val).pending = none → (t.tableSlot n.val).oldGen = none ∧ (t.tableSlot n.val).table = (s.tableSlot n.val).table) ∧
      (∀ l, (s.tableSlot n.val).pending = some l → (t.tableSlot n.val).table = l ∧ (t.tableSlot n.val).pending = none ∧
        (t.tableSlot n.val).oldGen = (s.tableSlot n.val).gen ∧ t.regs.cxCmd = none ∧ t.regs.cxErrc = 0))) ∧
  (s.regs.cxCmd = some (2, a, b, c) →
    let frame := cx0 / 4096 + i
    (i = 0 → 18 < b → ends .cxcmdRecode 1) ∧
    (i = 0 → b ≤ 18 → cx0 % 4096 ≠ 0 ∨ inDev cx0 (4096 * (c + 1)) = false → ends .cxcmdRecode 2) ∧
    (i = 0 → b ≤ 18 → cx0 % 4096 = 0 → inDev cx0 (4096 * (c + 1)) = true → b ≠ 0 → (s.tableSlot a).gen = none → ends .cxcmdRecode 3) ∧
    (b ≤ 18 → cx0 % 4096 = 0 → inDev cx0 (4096 * (c + 1)) = true → (b ≠ 0 → (s.tableSlot a).gen ≠ none) → i ≤ c →
      ∃ t, Machine.exec .cxcmdRecode s = .next t ∧ (t.frame (4096 * frame)).fmt = b ∧
        (b ≠ 0 → (t.frame (4096 * frame)).slot = a ∧ some (t.frame (4096 * frame)).gen = (s.tableSlot a).gen) ∧
        t.regs.cxDone = s.regs.cxDone + 1 ∧ t.regs.cxCmd = (if i = c then none else s.regs.cxCmd) ∧
        ((∃ j d, j < 128 ∧ s.baseRead (4096 * frame + 32 * j) = .error (some d)) → t.regs.cxErrc = 4) ∧
        ∀ f : Nat → Option (List Byte), (∀ j, j < 128 → s.baseRead (4096 * frame + 32 * j) = .ok (f j) ∧ ∀ l, f j = some l → l.length = 32) →
          (∀ j, j < 128 → (t.frame (4096 * frame)).entry j = storeSector b (some (s.tableSlot a).table)
            ((f j).getD (s.physRead (4096 * frame + 32 * j) 32))
            ((f j).isNone && !s.mem.inL2 (128 * frame + j) && mhas s.mem.poison (128 * frame + j))) ∧
          ((∀ j < 32, s.mem.whole (32 * frame + j) = true) → ∀ m, Memory.read t.mem.cells m = Memory.read s.mem.cells m))) ∧
  (s.regs.cxCmd = some (3, a, b, c) →
    (i = 0 → cx0 % 4096 ≠ 0 ∨ inDev cx0 (4096 * (c + 1)) = false ∨ cx1 % 64 ≠ 0 ∨ inDev cx1 (576 * (c + 1)) = false → ends .cxcmdDump 2) ∧
    (cx0 % 4096 = 0 → inDev cx0 (4096 * (c + 1)) = true → cx1 % 64 = 0 → inDev cx1 (576 * (c + 1)) = true → i ≤ c →
      (∀ l ∈ linesOf (cx1 + 576 * i) 576, s.mem.whole l = true) → ∃ t, Machine.exec .cxcmdDump s = .next t ∧
        t.physRead (cx1 + 576 * i) 576 = frameBytes (s.frame (cx0 + 4096 * i)) ∧ t.regs.cxDone = i + 1 ∧
        t.regs.cxCmd = (if i = c then none else s.regs.cxCmd) ∧
        ∀ m, m < cx1 + 576 * i ∨ cx1 + 576 * i + 576 ≤ m → Memory.read t.mem.cells m = Memory.read s.mem.cells m)) ∧
  (s.regs.cxCmd = none → Machine.exec .cxcmdLoadslot s = .next s ∧ Machine.exec .cxcmdRecode s = .next s ∧
    Machine.exec .cxcmdDump s = .next s)

/-- R124, R286, R417, R421, R455, R511 to R519: what the host does through the register space. A write reaches the registers only in
STATE 2, the few of R513 apart, and one of 4 bytes starts no command; STRCTL.GO starts a stream at STRPC with STRARG in s0, or
refuses with its code; HALT stops one at a packet boundary or in WAITSEM, else at its next boundary; TLBIREQ starts an invalidation
of a checked range or sets its error; CTXCMD suspends, resumes and ends a context; ATTCMD writes a quote or the recorders into host
memory. The model's choices here are log entries 47 (the order of GO's refusals), 65 (cluster 0 for TLBIREQ), 66 (RES for a second
SUSPEND) and 83 (ATTADDR outside host memory). -/
def Obligations.HostEvents : Prop := ∀ (s : State) (j op : Nat) (v : W64) (off n : Nat) (p : Path) (d : BitVec 512),
  let x := s.stream j
  let who := streamBase + j
  let r := s.regs
  let refused := fun (e : Nat) => ∃ t, Machine.exec (.strctlGo j) s = .next t ∧ (t.stream j).state = 5 ∧ (t.stream j).errc = e ∧ t.warps = s.warps
  let badPc := bitsOf x.strpc 57 7 ≠ 0 ∨ bitsOf x.strpc 0 4 ≠ 0
  let halted := ∃ t, Machine.exec (.strctlHalt j) s = .next t ∧ (t.stream j).state = 0 ∧ (t.stream j).strpc = pktOf p.pc ∧
    (t.warp who).paths = [] ∧ t.mem = s.mem
  let inval : Nat → Instr := fun k => if k = 0 then .tlbireqPage else if k = 1 then .tlbireqContext else .tlbireqAll
  let ctxOp : Nat → Instr := fun k => if k = 1 then .ctxcmdSuspend else if k = 2 then .ctxcmdResume else .ctxcmdEnd
  let e := (s.readDescr 0 r.tlbCtx.toNat).bind
    (fun c => (s.peek (bitsOf c 265 43 * 512 + 8 * (r.tlbiva.toNat / 2 ^ 51 % 64)) 8).map (leWord 64))
  let ctx := r.ctxCtx.toNat
  let a := r.attAddr.toNat * 4096
  (r.bootState ≠ 2 → earlyOffset off = false → Machine.exec (.registerWrite off n v) s = .next s) ∧
  (r.bootState = 2 ∨ earlyOffset off = true → mmioForm off n = false ∨ s.regRead (off / 8 * 8) = none →
    Machine.exec (.registerWrite off n v) s = .next s) ∧
  (r.bootState = 2 → off ∈ [0x008, 0x040, 0x200, 0x300, 0x340] → Machine.exec (.registerWrite off 4 v) s = .next s) ∧
  (Machine.exec (.registerWrite 0x010 8 v) s = .next (s.setRegs { r with imgaddr := v })) ∧
  (r.bootState = 2 → Machine.exec (.registerWrite 0x100 8 v) s = .next (s.setRegs { r with modid := v &&& 0x3FFFF }) ∧
    Machine.exec (.registerWrite 0x308 8 v) s = .next (s.setRegs { r with tlbiva := v }) ∧
    Machine.exec (.registerWrite 0x080 8 v) s =
      .next (s.setRegs { r with pwrcap := BitVec.ofNat 12 (min 2800 (max 1400 (v.toNat % 4096))) })) ∧
  (streamActive x = true → Machine.exec (.strctlGo j) s = .next s) ∧
  (streamActive x = false →
    (s.readDescr (j / 16) x.ctx = none → refused 3) ∧
    (s.readDescr (j / 16) x.ctx = some d → descrValid d = false → refused 1) ∧
    (s.readDescr (j / 16) x.ctx = some d → descrValid d = true → badPc → refused 2) ∧
    (s.readDescr (j / 16) x.ctx = some d → descrValid d = true → ¬badPc → ∃ t, Machine.exec (.strctlGo j) s = .next t ∧
      t.stream j = { x with state := 1, haltReq := false, suspended := false } ∧ t.mem = s.mem ∧ (t.warp who).ctx = x.ctx ∧
      (t.warp who).paths = [{ mask := 1, pc := x.strpc }] ∧ (t.warp who).sreg 0 = x.strarg ∧ (∀ k, k ≠ 0 → (t.warp who).sreg k = 0) ∧
      ∀ w, w ≠ who → t.warp w = s.warp w)) ∧
  (streamActive x = false → Machine.exec (.strctlHalt j) s = .next s) ∧
  (streamActive x = true → (s.warp who).paths = [p] →
    (p.inside = false → halted) ∧ (s.inSem who = true → halted) ∧
    (p.inside = true → s.inSem who = false → Machine.exec (.strctlHalt j) s = .next (s.modStream j (fun y => { y with haltReq := true })))) ∧
  (r.tlbBusy = true → op ≤ 2 → Machine.exec (inval op) s = .next (s.setRegs { r with tlbOvr := true })) ∧
  (r.tlbBusy = false →
    (rangeOk e r.tlbiva.toNat r.tlbCnt.toNat = false → ∃ t, Machine.exec .tlbireqPage s = .next t ∧
      (e ≠ none → t = s.setRegs { r with tlbErr := true }) ∧ t.regs = { r with tlbErr := true } ∧ t.invals = s.invals ∧
      t.warps = s.warps ∧ t.wgs = s.wgs) ∧
    (op = 0 ∧ rangeOk e r.tlbiva.toNat r.tlbCnt.toNat = true ∨ op = 1 ∨ op = 2 → ∃ t y, Machine.exec (inval op) s = .next t ∧
      t.regs.tlbBusy = true ∧ t.invals = s.invals ++ [y] ∧ y.kind = op ∧ y.ctx = r.tlbCtx.toNat ∧ y.host = true ∧ y.who = none ∧
      (op = 0 → y.va = r.tlbiva.toNat ∧ y.pages = r.tlbCnt.toNat) ∧ t.mem = s.mem ∧ t.warps = s.warps)) ∧
  (r.ctxBusy = none →
    (s.ctxValid ctx = false ∨ r.suspended.contains ctx = true → ∃ t, Machine.exec .ctxcmdSuspend s = .next t ∧ t.regs.ctxRes = true ∧ t.wgs = s.wgs) ∧
    (s.ctxValid ctx = true → r.suspended.contains ctx = false → MemWf s → ∃ t, Machine.exec .ctxcmdSuspend s = .next t ∧
      t.regs.ctxBusy = some (1, ctx) ∧ t.regs.ctxRes = false ∧ ctx ∈ t.regs.suspended ∧ (∀ g ∈ t.grids, g.2.ctx = ctx → g.2.held = true) ∧
      ((∀ e ∈ s.wgs, e.2.id = e.1) → ∀ k w, mget s.wgs k = some w → w.ctx = ctx → ∃ w', mget t.wgs k = some w' ∧ w'.st ≠ .resident)) ∧
    (s.ctxValid ctx = false ∨ r.suspended.contains ctx = false → ∃ t, Machine.exec .ctxcmdResume s = .next t ∧ t.regs.ctxRes = true ∧ t.grids = s.grids) ∧
    (s.ctxValid ctx = true → r.suspended.contains ctx = true → ∃ t, Machine.exec .ctxcmdResume s = .next t ∧ t.regs.ctxBusy = some (2, ctx) ∧ t.regs.ctxRes = false) ∧
    (s.ctxValid ctx = false → ∃ t, Machine.exec .ctxcmdEnd s = .next t ∧ t.regs.ctxRes = true ∧ t.grids = s.grids) ∧
    (s.ctxValid ctx = true → ∃ t, Machine.exec .ctxcmdEnd s = .next t ∧ t.regs.ctxBusy = some (3, ctx) ∧ ctx ∈ t.regs.suspended)) ∧
  (∀ c, r.ctxBusy = some (op, c) →
    (op = 1 → s.ctxAtRest c = true → Machine.exec (ctxOp 1) s = .next (s.setRegs { r with ctxBusy := none })) ∧
    (op = 1 ∨ op = 3 → s.ctxAtRest c = false → Machine.exec (ctxOp op) s = .next s) ∧
    (op = 2 → ∃ t, Machine.exec .ctxcmdResume s = .next t ∧ t.regs.ctxBusy = none ∧ c ∉ t.regs.suspended ∧ ∀ g ∈ t.grids, g.2.ctx = c → g.2.held = false) ∧
    (op = 3 → s.ctxAtRest c = true → ∃ t, Machine.exec .ctxcmdEnd s = .next t ∧ t.regs.ctxBusy = some (4, c) ∧ (∀ g ∈ t.grids, g.2.ctx ≠ c) ∧
      (∀ w ∈ t.wgs, w.2.ctx = c → w.2.st = .retired) ∧ (∀ i, (s.stream i).ctx = c → mhas s.streams i = true → (t.stream i).state = 0) ∧
      ∃ y ∈ t.invals, y.kind = 1 ∧ y.ctx = c) ∧
    (op = 4 → (∃ o ∈ s.eops, o.2.ctx = c) ∨ (∃ o ∈ s.mops, o.2.ctx = c) → Machine.exec .ctxcmdEnd s = .next s) ∧
    (op = 4 → (∀ o ∈ s.eops, o.2.ctx ≠ c) → (∀ o ∈ s.mops, o.2.ctx ≠ c) → (∀ y ∈ s.invals, y.ctx ≠ c) →
      ∃ t, Machine.exec .ctxcmdEnd s = .next t ∧ t.regs.ctxBusy = none ∧ c ∉ t.regs.suspended ∧ mget t.ctxs c = none)) ∧
  (r.attBusy = none → Machine.exec .attcmdQuote s = .next s ∧ Machine.exec .attcmdDump s = .next s) ∧
  (isHostPa a = false → (r.attBusy = some 1 → Machine.exec .attcmdQuote s = .next (s.attDone true)) ∧
    (r.attBusy = some 2 → Machine.exec .attcmdDump s = .next (s.attDone true))) ∧
  (r.attBusy = some 1 → MemWf s → isHostPa a = true → r.hostLost = false → s.physPoison a 32 = false →
    let body := r.measurement ++ s.physRead a 32 ++ toLe 8 Config.feat0.toNat ++ toLe 8 Config.feat1.toNat ++ toLe 8 s.implw.toNat ++
      toLe 8 r.modid.toNat ++ toLe 8 s.rBootstat
    let out := body ++ signed body ++ Config.certificate
    ∃ t, Machine.exec .attcmdQuote s = .next t ∧ t.regs = { r with attBusy := none, attErr := false } ∧ t.physRead (a + 0x40) out.length = out) ∧
  (r.attBusy = some 2 → MemWf s → isHostPa a = true → isHostPa (a + 0x1002000) = true → r.hostLost = false → ∃ t, Machine.exec .attcmdDump s = .next t ∧
    t.regs = { r with attBusy := none, attErr := false } ∧ ∀ i < 256, leNat (t.physRead (a + 8 * i) 8) = (s.core i).recidx % 2 ^ 64 ∧
      ∀ k < 4096, t.physRead (a + 0x1000 + 0x10000 * i + 16 * k) 16 = (mgetD (s.core i).recorder k ⟨0, 0, 0, 0⟩).bytes)

/-- R511 to R515: power, resets and bring-up. GO in STATE 0 or 3 starts step 3; the self-test, the image check, the zeroing and step
5 each end as R513 says, a failure in STATE 3 with its code; a cold reset sets every register and keeps memory for step 4; WARM ends
every context, in any STATE, then the L2 is written back, lines that fail poisoned, and the image and the module's identity stay;
the clock steps down over the limit and up under 95 of 100 of it, between 1,500 and 3,000; the trip at 1,500 is latched and sent
out. The model's choices here are log entries 81 (GO kept in step 1, and lost during the write-back), 80 (a warm reset empties the
code slots) and 3, 4, 5 (no line in the L2, no translation and epoch 0 after a cold reset). -/
def Obligations.BootEvents : Prop := ∀ (s : State) (ok : Bool) (bs : List Byte) (e junction : Nat) (failed : List Nat) (avg : BitVec 12),
  let r := s.regs
  let fails := fun (x : Instr) (e : Nat) => Machine.exec x s = .next (s.setRegs { r with bootState := 3, bootErrc := e, bootStep := 2, bootGo := false })
  (r.bootState = 1 ∨ r.bootState = 2 ∨ r.bootStep = 0 ∨ (r.warm = true ∧ r.bootStep = 1) → Machine.exec .bootctlGo s = .next s) ∧
  (r.bootState ≠ 1 → r.bootState ≠ 2 → r.bootStep = 1 → r.warm = false → Machine.exec .bootctlGo s = .next (s.setRegs { r with bootGo := true })) ∧
  (r.bootState ≠ 1 → r.bootState ≠ 2 → r.bootStep ≠ 0 → r.bootStep ≠ 1 → Machine.exec .bootctlGo s =
    .next (s.setRegs { r with bootState := 1, bootErrc := 0, bootStep := 3, image := [] })) ∧
  (r.bootStep ≠ 1 ∨ r.bootState ≠ 0 → Machine.exec (.bootSelftestDone ok) s = .next s) ∧
  (r.bootStep = 1 → r.bootState = 0 → fails (.bootSelftestDone false) 6 ∧ (r.warm = true ∨ r.bootGo = true → Machine.exec (.bootSelftestDone true) s =
      .next (s.setRegs { r with bootState := 1, bootStep := 3, bootGo := false })) ∧
    (r.warm = false → r.bootGo = false → Machine.exec (.bootSelftestDone true) s = .next (s.setRegs { r with bootStep := 2 }))) ∧
  (r.bootStep ≠ 3 ∨ r.bootState ≠ 1 → Machine.exec .imageVerified s = .next s) ∧
  (r.bootStep = 3 → r.bootState = 1 → (s.fetchImage = .error e → fails .imageVerified e) ∧
    (s.fetchImage = .ok bs → imgForm bs = false → fails .imageVerified 1) ∧
    (s.fetchImage = .ok bs → imgForm bs = true → imgCheck bs ≠ 0 → fails .imageVerified (imgCheck bs)) ∧
    (s.fetchImage = .ok bs → imgForm bs = true → imgCheck bs = 0 → Machine.exec .imageVerified s = .next (s.setRegs { r with
      image := bs, measurement := Config.shake256 bs 64, bootErrc := 0, bootStep := if r.warm then 5 else 4 }))) ∧
  (r.warm = false → r.imgaddr.toNat % 4096 ≠ 0 ∨ isHostPa r.imgaddr.toNat = false → s.fetchImage = .error 5) ∧
  (r.bootStep ≠ 4 → Machine.exec .bootZeroingDone s = .next s) ∧
  (r.bootStep = 4 → ∃ t, Machine.exec .bootZeroingDone s = .next t ∧ t.regs = { r with bootStep := 5 } ∧ t.mem.present = [] ∧ t.mem.frames = [] ∧
    ∀ a, (a < devTop → Memory.read t.mem.cells a = 0) ∧ (devTop ≤ a → MemWf s → Memory.read t.mem.cells a = Memory.read s.mem.cells a)) ∧
  (r.bootStep ≠ 5 → Machine.exec .bootReady s = .next s) ∧
  (r.bootStep = 5 → Machine.exec .bootReady s = .next (s.setRegs { r with bootState := 2, bootStep := 6 })) ∧
  (∃ t, Machine.exec .coldReset s = .next t ∧ t.regs = { State.reset.regs with hostLost := r.hostLost } ∧ t.warps = State.reset.warps ∧ t.cores = State.reset.cores ∧
    t.clusters = State.reset.clusters ∧ t.streams = State.reset.streams ∧ t.grids = [] ∧ t.wgs = [] ∧ t.mem.frames = [] ∧ t.mem.slots = [] ∧
    t.mem.present = [] ∧ t.mem.cells = s.mem.cells) ∧
  (∃ t, Machine.exec .bootctlWarm s = .next t ∧ t.regs.bootStep = 0 ∧ t.regs.bootState = r.bootState ∧ (∀ g ∈ t.grids, g.2.held = true) ∧
    ((∀ e ∈ s.wgs, e.2.id = e.1) → ∀ k w, mget s.wgs k = some w → ∃ w', mget t.wgs k = some w' ∧ w'.st ≠ .resident)) ∧
  (r.bootStep ≠ 0 → Machine.exec (.warmWritebackDone failed) s = .next s) ∧
  (r.bootStep = 0 → s.liveCtxs.all s.ctxAtRest = true → s.eops = [] → ∃ t, Machine.exec (.warmWritebackDone failed) s = .next t ∧
    t.regs.bootState = 0 ∧ t.regs.bootStep = 1 ∧ t.regs.warm = true ∧ t.regs.warms.toNat = min 0xFFFF (r.warms.toNat + 1) ∧
    t.regs.image = r.image ∧ t.regs.measurement = r.measurement ∧ t.regs.modid = r.modid ∧ t.mem.present = [] ∧ t.mem.slots = [] ∧
    t.mem.cells = s.mem.cells ∧ t.warps = State.reset.warps ∧
    (∀ l, mhas s.mem.present l = true → l ∈ failed → ∀ j < 4, mhas t.mem.poison (4 * l + j) = true) ∧
    ∀ c, (t.cluster c).recctl = (s.cluster c).recctl ∧ (t.core c).recidx = (s.core c).recidx) ∧
  (let down := r.pwrcap.toNat < avg.toNat ∨ 100 < junction
   let up := 100 * avg.toNat < 95 * r.pwrcap.toNat ∧ junction ≤ 95
   (down → Machine.exec (.powerWindow avg junction) s = .next (s.setRegs { r with avg := avg, cclk := max 1500 (r.cclk - 100) })) ∧
   (¬down → up → Machine.exec (.powerWindow avg junction) s = .next (s.setRegs { r with avg := avg, cclk := min 3000 (r.cclk + 100) })) ∧
   (¬down → ¬up → Machine.exec (.powerWindow avg junction) s = .next (s.setRegs { r with avg := avg }))) ∧
  (r.cclk ≠ 1500 → Machine.exec .thermalTrip s = .next s) ∧
  (r.cclk = 1500 → Machine.exec .thermalTrip s = .next ((s.setRegs { r with trip := true }).emit .thermtrip))

/-- R474 to R490: collectives. A load checks the descriptor, the peers and the graph and frees or fills its slot with LERR; a run
starts at the head of its queue or completes with ERR; a credit serves its run's SEND, is held for a later one, or is a stray; a
chunk that arrives whole is staged and acknowledged, a second copy counts as a duplicate; an acknowledgment completes a SEND; SIGNAL
stores SEQ + LEN and WAIT compares with it; a chunk without an acknowledgment is sent again, three times, and then ends the run with
ERR and a LINK record, as TMO ends it with ERR, once no chunk of it is on the datapath. LERR 4 for a graph that cannot be read and
the order of loads and runs are the model's choice of log entry 55, and that a poisoned WAIT word only sets DMG is that of log entry
56. -/
def Obligations.CollectiveEvents : Prop := ∀ (s t1 t2 t3 : State) (n : Fin 64) (i src stp ch seq p : Nat) (o : EngOp) (db pb gb : List Byte)
    (bm : List Bool) (ls : List (BitVec 1024 × W64 × BitVec 5)) (l : Loc),
  let c := s.cslot n.val
  let r := c.nrun i
  let d := c.node i
  let slot := fun (t : State) => t.cslot n.val
  let free := fun (t : State) => (slot t).state = 0 ∧ (slot t).nodes = [] ∧ (slot t).peers = []
  let loads := fun (e : Nat) (u : State) (q : State → Prop) => ∃ t, Machine.exec (.collLoadExecute n) s = .next t ∧ (slot t).lerr = e ∧
    (slot t).loads = c.loads.filter (fun k => k != o.id) ∧ Ended u t { o with err := e != 0 } ∧ q t
  let stray := s.setCslot n.val { c with stray := c.stray + 1 }
  let lost := (s.pick 18).2.postErr (clusterOf o.who) 7 0 (BitVec.ofInt 64 (c.bufAt d.sbuf d.soff).2) (reqOf o.who true o.ctx o.pc)
    (if r.port = 31 then (s.pick 18).1 else r.port)
  let ended := fun (x : Instr) (u : State) => ∃ t, Machine.exec x s = .next t ∧
    (c.run.any CNodeRun.onPath = false ∨ c.run.all CNodeRun.done = true → Ended u t { o with err := true } ∧ (slot t).runOp = none) ∧
    (c.run.any CNodeRun.onPath = true → c.run.all CNodeRun.done = false → mget t.eops o.id = some { o with err := true } ∧
      (slot t).runOp = some o.id ∧ (slot t).ended = true ∧ t.mem = u.mem)
  let v := c.semValue i
  let bits := (splitEvery 32 gb (bitsOf (leWord 512 db) 155 10)).map (leWord 256)
  let peers := (splitEvery 4 pb (bitsOf (leWord 512 db) 288 32)).map (leWord 32)
  let at_ := fun (a : Nat) => bitsOf (leWord 512 db) a 64
  let ackOut := fun (e : W32) => Out.chunkAck (peerPod e) (peerAcc e) (peerSlot e) stp ch seq
  mget s.eops o.id = some o → o.tok = none → (∀ f ∈ o.flags, isSaved f.1 = false) →
  (c.loads.head? = some o.id → o.phase = 1 → s.forkDone o = true → (∀ q ∈ c.queue, o.id ≤ q) →
    (c.state ≠ 0 → c.state ≠ 2 → c.ctx ≠ o.ctx → loads 1 s (fun t => (slot t).state = c.state ∧ (slot t).nodes = c.nodes)) ∧
    (c.state = 0 ∨ c.state = 2 ∨ c.ctx = o.ctx →
      (o.vals.getD 0 0 = 0 → loads 0 s free) ∧
      (o.vals.getD 0 0 ≠ 0 →
        (s.collRead o (o.vals.getD 0 0).toNat 64 = (.bad, t1) → mget t1.eops o.id = some o → loads 4 t1 free) ∧
        (s.collRead o (o.vals.getD 0 0).toNat 64 = (.ok db, t1) → mget t1.eops o.id = some o →
          (descrOk (leWord 512 db) = false → loads 2 t1 free) ∧
          (descrOk (leWord 512 db) = true → t1.collRead o (at_ 448) (4 * bitsOf (leWord 512 db) 288 32) = (.ok pb, t2) →
            (peers.all fun e => bitsOf e 24 8 == 0) = true →
            t2.collRead o (o.vals.getD 1 0).toNat (32 * bitsOf (leWord 512 db) 155 10) = (.ok gb, t3) → mget t3.eops o.id = some o →
            (graphOk bits peers (bitsOf s.regs.modid 10 8) = false → loads 3 t3 free) ∧
            (graphOk bits peers (bitsOf s.regs.modid 10 8) = true → loads 0 t3 fun t => (slot t).state = 1 ∧ (slot t).ctx = o.ctx ∧
              (slot t).peers = peers ∧ (slot t).nodes = bits.map CNode.ofBits ∧ (slot t).stage = at_ 384)))))) ∧
  (c.runOp = none → c.queue.head? = some o.id → o.phase = 1 → s.forkDone o = true → (∀ q ∈ c.loads, o.id ≤ q) →
    (c.state ≠ 1 ∨ c.ctx ≠ o.ctx ∨ ((∃ b ∈ o.vals.take 8, b.getLsbD 63 = true) ∧ c.engine ≠ o.core) →
      (c.queue.filterMap (mget s.eops)).find? c.refuses = some o) ∧
    (c.state = 1 → c.ctx = o.ctx → (∀ q ∈ c.queue, ∀ x, mget s.eops q = some x → c.refuses x = false) →
      (∃ x ∈ c.nodes, x.kind ≤ 4) → ∃ t, Machine.exec (.collRunStart n) s = .next t ∧
      (slot t).runOp = some o.id ∧ (slot t).ended = false ∧ (slot t).seq = BitVec.ofNat 32 (o.vals.getD 8 0).toNat ∧
      (slot t).bufs = o.vals.take 8 ∧ (slot t).startedAt = s.clock ∧ t.mem = s.mem ∧
      ∀ k, k < c.nodes.length → (c.node k).dep = 0 → ((slot t).nrun k).ready = true)) ∧
  ((c.queue.filterMap (mget s.eops)).find? c.refuses = some o → ∃ t, Machine.exec (.collRunStart n) s = .next t ∧
    Ended s t { o with err := true } ∧ (slot t).queue = c.queue.filter (fun q => q != o.id) ∧ (slot t).runOp = c.runOp) ∧
  (c.state ≠ 1 ∨ c.find (fun x => x.kind == 0) src stp ch = none → Machine.exec (.creditArrival n src stp ch seq) s = .next stray) ∧
  (c.state = 1 → c.find (fun x => x.kind == 0) src stp ch = some i → i < c.run.length →
    (c.runOp.isSome = true → c.seq.toNat = seq → ∃ t, Machine.exec (.creditArrival n src stp ch seq) s = .next t ∧
      ((slot t).nrun i).credit = true ∧ (slot t).stray = c.stray) ∧
    (c.seq.toNat < seq → Machine.exec (.creditArrival n src stp ch seq) s =
      .next (s.setCslot n.val { c with credits := c.credits ++ [(src, stp, ch, seq)] })) ∧
    (seq < c.seq.toNat → Machine.exec (.creditArrival n src stp ch seq) s = .next stray) ∧
    (c.live = true → c.seq.toNat = seq → r.done = false →
      (r.sent = true → ∃ t, Machine.exec (.chunkAckArrival n src stp ch seq) s = .next t ∧ ((slot t).nrun i).done = true) ∧
      (r.sent = false → Machine.exec (.chunkAckArrival n src stp ch seq) s = .next s))) ∧
  (c.state ≠ 1 ∨ c.find CNode.recv src stp ch = none → Machine.exec (.chunkArrival n src stp ch seq bm ls) s = .next stray) ∧
  (c.state = 1 → c.find CNode.recv src stp ch = some i → i < c.run.length → ls.length = (sentLines bm).length →
    (seq < c.seq.toNat ∨ (c.seq.toNat = seq ∧ r.arrived = true) → ∃ t, Machine.exec (.chunkArrival n src stp ch seq bm ls) s = .next t ∧
      (slot t).dup = c.dup + 1 ∧ t.outbox = s.outbox ++ [ackOut ((c.peers[src]?).getD 0)] ∧ t.mem = s.mem) ∧
    (c.seq.toNat = seq → r.arrived = false → c.live = false → Machine.exec (.chunkArrival n src stp ch seq bm ls) s =
      .next (s.setCslot n.val { c with dup := c.dup + 1 })) ∧
    (∀ q, c.seq.toNat = seq → c.runOp = some o.id → c.ended = false → r.arrived = false → r.staged = some q →
      s.stageLines o (c.stage + 65536 * q) ((sentLines bm).zip ls) = (some none, t1) →
      slot t1 = c → ∃ t, Machine.exec (.chunkArrival n src stp ch seq bm ls) s = .next t ∧ ((slot t).nrun i).arrived = true ∧
        ((slot t).nrun i).bitmap = bm ∧ t.outbox = t1.outbox ++ [ackOut ((c.peers[src]?).getD 0)] ∧ t.mem = t1.mem)) ∧
  (c.runOp = some o.id → c.ended = false → i < c.run.length →
    (r.ready = true → r.done = false →
      (∀ acc, s.engAt o (c.bufAt d.sbuf d.soff).1 (c.bufAt d.sbuf d.soff).2 8 acc = (.at_ (.mem l), t1) → MemWf t1 → t1.atHand l 8 = true →
        slot t1 = c → mget t1.eops o.id = some o →
        (d.kind = 3 → acc = .engWrite → ∃ t, Machine.exec (.collSignal n i) s = .next t ∧ leWord 64 (t.locRead l 8) = v ∧
          ((slot t).nrun i).done = true) ∧
        (d.kind = 4 → acc = .engRead →
          (t1.locPoison l 8 = true → Machine.exec (.collWaitPoll n i) s = .next (t1.setEop { o with dmg := true })) ∧
          (t1.locPoison l 8 = false → (leWord 64 (t1.locRead l 8) - v).getLsbD 63 = true → Machine.exec (.collWaitPoll n i) s = .next t1) ∧
          (t1.locPoison l 8 = false → (leWord 64 (t1.locRead l 8) - v).getLsbD 63 = false → ∃ t, Machine.exec (.collWaitPoll n i) s = .next t ∧
            ((slot t).nrun i).done = true ∧ t.mem = t1.mem)))) ∧
    (r.done = false → r.sent = true →
      (s.clock - r.sentAt < 65536 → Machine.exec (.chunkRetransmit n i) s = .next s) ∧
      (65536 ≤ s.clock - r.sentAt → 3 ≤ r.resends → ended (.chunkRetransmit n i) lost) ∧
      (65536 ≤ s.clock - r.sentAt → r.resends < 3 → s.pickPort r.port = (p, t1) →
        (t1.modCslot n.val (fun c => c.modRun i (fun r => { r with resends := r.resends + 1, port := p, sent := false }))).sendChunk n.val i o =
          (.done, t2) → ∃ t, Machine.exec (.chunkRetransmit n i) s = .next t ∧ ((slot t).nrun i).sent = true ∧
            ((slot t).nrun i).resends = r.resends + 1 ∧ ((slot t).nrun i).sentAt = s.clock ∧ t.mem = t2.mem)) ∧
    (c.tmo ≠ 0 → c.tmo * 2 ^ 20 ≤ s.clock - c.startedAt → ended (.collRunTimeout n) s)) ∧
  (c.tmo = 0 ∨ s.clock - c.startedAt < c.tmo * 2 ^ 20 → Machine.exec (.collRunTimeout n) s = .next s) ∧
  (c.live = true → r.partly = true → 65536 ≤ s.clock - r.readyAt → Machine.exec (.chunkAbandon n i) s =
    .next (s.setCslot n.val (c.modRun i (fun r => { r with partly := false, bitmap := [] })))) ∧
  (r.partly = false ∨ s.clock - r.readyAt < 65536 → Machine.exec (.chunkAbandon n i) s = .next s)
end

