-- ==== Sys2Proof/Laws/State.lean ====
section
/-! SUPPORT. What each update of the state leaves in every field: one lemma per field and update, so that no proof unfolds a
record update. -/

namespace Sys2Proof.Machine

variable (s : State) (w : Warp)

/-! ### setWarp -/

@[simp] theorem State.setWarp_clock (who : Nat) (x : Warp) : (s.setWarp who x).clock = s.clock := rfl
@[simp] theorem State.setWarp_fresh (who : Nat) (x : Warp) : (s.setWarp who x).fresh = s.fresh := rfl
@[simp] theorem State.setWarp_agenda (who : Nat) (x : Warp) : (s.setWarp who x).agenda = s.agenda := rfl
@[simp] theorem State.setWarp_turns (who : Nat) (x : Warp) : (s.setWarp who x).turns = s.turns := rfl
@[simp] theorem State.setWarp_delays (who : Nat) (x : Warp) : (s.setWarp who x).delays = s.delays := rfl
@[simp] theorem State.setWarp_upsets (who : Nat) (x : Warp) : (s.setWarp who x).upsets = s.upsets := rfl
@[simp] theorem State.setWarp_fwTraps (who : Nat) (x : Warp) : (s.setWarp who x).fwTraps = s.fwTraps := rfl
@[simp] theorem State.setWarp_nextId (who : Nat) (x : Warp) : (s.setWarp who x).nextId = s.nextId := rfl
@[simp] theorem State.setWarp_cur (who : Nat) (x : Warp) : (s.setWarp who x).cur = s.cur := rfl
@[simp] theorem State.setWarp_blocked (who : Nat) (x : Warp) : (s.setWarp who x).blocked = s.blocked := rfl
@[simp] theorem State.setWarp_ctls (who : Nat) (x : Warp) : (s.setWarp who x).ctls = s.ctls := rfl
@[simp] theorem State.setWarp_streams (who : Nat) (x : Warp) : (s.setWarp who x).streams = s.streams := rfl
@[simp] theorem State.setWarp_grids (who : Nat) (x : Warp) : (s.setWarp who x).grids = s.grids := rfl
@[simp] theorem State.setWarp_wgs (who : Nat) (x : Warp) : (s.setWarp who x).wgs = s.wgs := rfl
@[simp] theorem State.setWarp_treqs (who : Nat) (x : Warp) : (s.setWarp who x).treqs = s.treqs := rfl
@[simp] theorem State.setWarp_mops (who : Nat) (x : Warp) : (s.setWarp who x).mops = s.mops := rfl
@[simp] theorem State.setWarp_eops (who : Nat) (x : Warp) : (s.setWarp who x).eops = s.eops := rfl
@[simp] theorem State.setWarp_cores (who : Nat) (x : Warp) : (s.setWarp who x).cores = s.cores := rfl
@[simp] theorem State.setWarp_clusters (who : Nat) (x : Warp) : (s.setWarp who x).clusters = s.clusters := rfl
@[simp] theorem State.setWarp_ctxs (who : Nat) (x : Warp) : (s.setWarp who x).ctxs = s.ctxs := rfl
@[simp] theorem State.setWarp_regions (who : Nat) (x : Warp) : (s.setWarp who x).regions = s.regions := rfl
@[simp] theorem State.setWarp_invals (who : Nat) (x : Warp) : (s.setWarp who x).invals = s.invals := rfl
@[simp] theorem State.setWarp_linkReqs (who : Nat) (x : Warp) : (s.setWarp who x).linkReqs = s.linkReqs := rfl
@[simp] theorem State.setWarp_cslots (who : Nat) (x : Warp) : (s.setWarp who x).cslots = s.cslots := rfl
@[simp] theorem State.setWarp_mem (who : Nat) (x : Warp) : (s.setWarp who x).mem = s.mem := rfl
@[simp] theorem State.setWarp_regs (who : Nat) (x : Warp) : (s.setWarp who x).regs = s.regs := rfl
@[simp] theorem State.setWarp_outbox (who : Nat) (x : Warp) : (s.setWarp who x).outbox = s.outbox := rfl

/-! ### setCtl -/

@[simp] theorem State.setCtl_clock (who : Nat) (x : WarpCtl) : (s.setCtl who x).clock = s.clock := rfl
@[simp] theorem State.setCtl_fresh (who : Nat) (x : WarpCtl) : (s.setCtl who x).fresh = s.fresh := rfl
@[simp] theorem State.setCtl_agenda (who : Nat) (x : WarpCtl) : (s.setCtl who x).agenda = s.agenda := rfl
@[simp] theorem State.setCtl_turns (who : Nat) (x : WarpCtl) : (s.setCtl who x).turns = s.turns := rfl
@[simp] theorem State.setCtl_delays (who : Nat) (x : WarpCtl) : (s.setCtl who x).delays = s.delays := rfl
@[simp] theorem State.setCtl_upsets (who : Nat) (x : WarpCtl) : (s.setCtl who x).upsets = s.upsets := rfl
@[simp] theorem State.setCtl_fwTraps (who : Nat) (x : WarpCtl) : (s.setCtl who x).fwTraps = s.fwTraps := rfl
@[simp] theorem State.setCtl_nextId (who : Nat) (x : WarpCtl) : (s.setCtl who x).nextId = s.nextId := rfl
@[simp] theorem State.setCtl_cur (who : Nat) (x : WarpCtl) : (s.setCtl who x).cur = s.cur := rfl
@[simp] theorem State.setCtl_blocked (who : Nat) (x : WarpCtl) : (s.setCtl who x).blocked = s.blocked := rfl
@[simp] theorem State.setCtl_warps (who : Nat) (x : WarpCtl) : (s.setCtl who x).warps = s.warps := rfl
@[simp] theorem State.setCtl_streams (who : Nat) (x : WarpCtl) : (s.setCtl who x).streams = s.streams := rfl
@[simp] theorem State.setCtl_grids (who : Nat) (x : WarpCtl) : (s.setCtl who x).grids = s.grids := rfl
@[simp] theorem State.setCtl_wgs (who : Nat) (x : WarpCtl) : (s.setCtl who x).wgs = s.wgs := rfl
@[simp] theorem State.setCtl_treqs (who : Nat) (x : WarpCtl) : (s.setCtl who x).treqs = s.treqs := rfl
@[simp] theorem State.setCtl_mops (who : Nat) (x : WarpCtl) : (s.setCtl who x).mops = s.mops := rfl
@[simp] theorem State.setCtl_eops (who : Nat) (x : WarpCtl) : (s.setCtl who x).eops = s.eops := rfl
@[simp] theorem State.setCtl_cores (who : Nat) (x : WarpCtl) : (s.setCtl who x).cores = s.cores := rfl
@[simp] theorem State.setCtl_clusters (who : Nat) (x : WarpCtl) : (s.setCtl who x).clusters = s.clusters := rfl
@[simp] theorem State.setCtl_ctxs (who : Nat) (x : WarpCtl) : (s.setCtl who x).ctxs = s.ctxs := rfl
@[simp] theorem State.setCtl_regions (who : Nat) (x : WarpCtl) : (s.setCtl who x).regions = s.regions := rfl
@[simp] theorem State.setCtl_invals (who : Nat) (x : WarpCtl) : (s.setCtl who x).invals = s.invals := rfl
@[simp] theorem State.setCtl_linkReqs (who : Nat) (x : WarpCtl) : (s.setCtl who x).linkReqs = s.linkReqs := rfl
@[simp] theorem State.setCtl_cslots (who : Nat) (x : WarpCtl) : (s.setCtl who x).cslots = s.cslots := rfl
@[simp] theorem State.setCtl_mem (who : Nat) (x : WarpCtl) : (s.setCtl who x).mem = s.mem := rfl
@[simp] theorem State.setCtl_regs (who : Nat) (x : WarpCtl) : (s.setCtl who x).regs = s.regs := rfl
@[simp] theorem State.setCtl_outbox (who : Nat) (x : WarpCtl) : (s.setCtl who x).outbox = s.outbox := rfl

/-! ### setCore -/

@[simp] theorem State.setCore_clock (k : Nat) (x : Core) : (s.setCore k x).clock = s.clock := rfl
@[simp] theorem State.setCore_fresh (k : Nat) (x : Core) : (s.setCore k x).fresh = s.fresh := rfl
@[simp] theorem State.setCore_agenda (k : Nat) (x : Core) : (s.setCore k x).agenda = s.agenda := rfl
@[simp] theorem State.setCore_turns (k : Nat) (x : Core) : (s.setCore k x).turns = s.turns := rfl
@[simp] theorem State.setCore_delays (k : Nat) (x : Core) : (s.setCore k x).delays = s.delays := rfl
@[simp] theorem State.setCore_upsets (k : Nat) (x : Core) : (s.setCore k x).upsets = s.upsets := rfl
@[simp] theorem State.setCore_fwTraps (k : Nat) (x : Core) : (s.setCore k x).fwTraps = s.fwTraps := rfl
@[simp] theorem State.setCore_nextId (k : Nat) (x : Core) : (s.setCore k x).nextId = s.nextId := rfl
@[simp] theorem State.setCore_cur (k : Nat) (x : Core) : (s.setCore k x).cur = s.cur := rfl
@[simp] theorem State.setCore_blocked (k : Nat) (x : Core) : (s.setCore k x).blocked = s.blocked := rfl
@[simp] theorem State.setCore_warps (k : Nat) (x : Core) : (s.setCore k x).warps = s.warps := rfl
@[simp] theorem State.setCore_ctls (k : Nat) (x : Core) : (s.setCore k x).ctls = s.ctls := rfl
@[simp] theorem State.setCore_streams (k : Nat) (x : Core) : (s.setCore k x).streams = s.streams := rfl
@[simp] theorem State.setCore_grids (k : Nat) (x : Core) : (s.setCore k x).grids = s.grids := rfl
@[simp] theorem State.setCore_wgs (k : Nat) (x : Core) : (s.setCore k x).wgs = s.wgs := rfl
@[simp] theorem State.setCore_treqs (k : Nat) (x : Core) : (s.setCore k x).treqs = s.treqs := rfl
@[simp] theorem State.setCore_mops (k : Nat) (x : Core) : (s.setCore k x).mops = s.mops := rfl
@[simp] theorem State.setCore_eops (k : Nat) (x : Core) : (s.setCore k x).eops = s.eops := rfl
@[simp] theorem State.setCore_clusters (k : Nat) (x : Core) : (s.setCore k x).clusters = s.clusters := rfl
@[simp] theorem State.setCore_ctxs (k : Nat) (x : Core) : (s.setCore k x).ctxs = s.ctxs := rfl
@[simp] theorem State.setCore_regions (k : Nat) (x : Core) : (s.setCore k x).regions = s.regions := rfl
@[simp] theorem State.setCore_invals (k : Nat) (x : Core) : (s.setCore k x).invals = s.invals := rfl
@[simp] theorem State.setCore_linkReqs (k : Nat) (x : Core) : (s.setCore k x).linkReqs = s.linkReqs := rfl
@[simp] theorem State.setCore_cslots (k : Nat) (x : Core) : (s.setCore k x).cslots = s.cslots := rfl
@[simp] theorem State.setCore_mem (k : Nat) (x : Core) : (s.setCore k x).mem = s.mem := rfl
@[simp] theorem State.setCore_regs (k : Nat) (x : Core) : (s.setCore k x).regs = s.regs := rfl
@[simp] theorem State.setCore_outbox (k : Nat) (x : Core) : (s.setCore k x).outbox = s.outbox := rfl

/-! ### setCluster -/

@[simp] theorem State.setCluster_clock (c : Nat) (x : Cluster) : (s.setCluster c x).clock = s.clock := rfl
@[simp] theorem State.setCluster_fresh (c : Nat) (x : Cluster) : (s.setCluster c x).fresh = s.fresh := rfl
@[simp] theorem State.setCluster_agenda (c : Nat) (x : Cluster) : (s.setCluster c x).agenda = s.agenda := rfl
@[simp] theorem State.setCluster_turns (c : Nat) (x : Cluster) : (s.setCluster c x).turns = s.turns := rfl
@[simp] theorem State.setCluster_delays (c : Nat) (x : Cluster) : (s.setCluster c x).delays = s.delays := rfl
@[simp] theorem State.setCluster_upsets (c : Nat) (x : Cluster) : (s.setCluster c x).upsets = s.upsets := rfl
@[simp] theorem State.setCluster_fwTraps (c : Nat) (x : Cluster) : (s.setCluster c x).fwTraps = s.fwTraps := rfl
@[simp] theorem State.setCluster_nextId (c : Nat) (x : Cluster) : (s.setCluster c x).nextId = s.nextId := rfl
@[simp] theorem State.setCluster_cur (c : Nat) (x : Cluster) : (s.setCluster c x).cur = s.cur := rfl
@[simp] theorem State.setCluster_blocked (c : Nat) (x : Cluster) : (s.setCluster c x).blocked = s.blocked := rfl
@[simp] theorem State.setCluster_warps (c : Nat) (x : Cluster) : (s.setCluster c x).warps = s.warps := rfl
@[simp] theorem State.setCluster_ctls (c : Nat) (x : Cluster) : (s.setCluster c x).ctls = s.ctls := rfl
@[simp] theorem State.setCluster_streams (c : Nat) (x : Cluster) : (s.setCluster c x).streams = s.streams := rfl
@[simp] theorem State.setCluster_grids (c : Nat) (x : Cluster) : (s.setCluster c x).grids = s.grids := rfl
@[simp] theorem State.setCluster_wgs (c : Nat) (x : Cluster) : (s.setCluster c x).wgs = s.wgs := rfl
@[simp] theorem State.setCluster_treqs (c : Nat) (x : Cluster) : (s.setCluster c x).treqs = s.treqs := rfl
@[simp] theorem State.setCluster_mops (c : Nat) (x : Cluster) : (s.setCluster c x).mops = s.mops := rfl
@[simp] theorem State.setCluster_eops (c : Nat) (x : Cluster) : (s.setCluster c x).eops = s.eops := rfl
@[simp] theorem State.setCluster_cores (c : Nat) (x : Cluster) : (s.setCluster c x).cores = s.cores := rfl
@[simp] theorem State.setCluster_ctxs (c : Nat) (x : Cluster) : (s.setCluster c x).ctxs = s.ctxs := rfl
@[simp] theorem State.setCluster_regions (c : Nat) (x : Cluster) : (s.setCluster c x).regions = s.regions := rfl
@[simp] theorem State.setCluster_invals (c : Nat) (x : Cluster) : (s.setCluster c x).invals = s.invals := rfl
@[simp] theorem State.setCluster_linkReqs (c : Nat) (x : Cluster) : (s.setCluster c x).linkReqs = s.linkReqs := rfl
@[simp] theorem State.setCluster_cslots (c : Nat) (x : Cluster) : (s.setCluster c x).cslots = s.cslots := rfl
@[simp] theorem State.setCluster_mem (c : Nat) (x : Cluster) : (s.setCluster c x).mem = s.mem := rfl
@[simp] theorem State.setCluster_regs (c : Nat) (x : Cluster) : (s.setCluster c x).regs = s.regs := rfl
@[simp] theorem State.setCluster_outbox (c : Nat) (x : Cluster) : (s.setCluster c x).outbox = s.outbox := rfl

/-! ### setStream -/

@[simp] theorem State.setStream_clock (j : Nat) (x : Stream) : (s.setStream j x).clock = s.clock := rfl
@[simp] theorem State.setStream_fresh (j : Nat) (x : Stream) : (s.setStream j x).fresh = s.fresh := rfl
@[simp] theorem State.setStream_agenda (j : Nat) (x : Stream) : (s.setStream j x).agenda = s.agenda := rfl
@[simp] theorem State.setStream_turns (j : Nat) (x : Stream) : (s.setStream j x).turns = s.turns := rfl
@[simp] theorem State.setStream_delays (j : Nat) (x : Stream) : (s.setStream j x).delays = s.delays := rfl
@[simp] theorem State.setStream_upsets (j : Nat) (x : Stream) : (s.setStream j x).upsets = s.upsets := rfl
@[simp] theorem State.setStream_fwTraps (j : Nat) (x : Stream) : (s.setStream j x).fwTraps = s.fwTraps := rfl
@[simp] theorem State.setStream_nextId (j : Nat) (x : Stream) : (s.setStream j x).nextId = s.nextId := rfl
@[simp] theorem State.setStream_cur (j : Nat) (x : Stream) : (s.setStream j x).cur = s.cur := rfl
@[simp] theorem State.setStream_blocked (j : Nat) (x : Stream) : (s.setStream j x).blocked = s.blocked := rfl
@[simp] theorem State.setStream_warps (j : Nat) (x : Stream) : (s.setStream j x).warps = s.warps := rfl
@[simp] theorem State.setStream_ctls (j : Nat) (x : Stream) : (s.setStream j x).ctls = s.ctls := rfl
@[simp] theorem State.setStream_grids (j : Nat) (x : Stream) : (s.setStream j x).grids = s.grids := rfl
@[simp] theorem State.setStream_wgs (j : Nat) (x : Stream) : (s.setStream j x).wgs = s.wgs := rfl
@[simp] theorem State.setStream_treqs (j : Nat) (x : Stream) : (s.setStream j x).treqs = s.treqs := rfl
@[simp] theorem State.setStream_mops (j : Nat) (x : Stream) : (s.setStream j x).mops = s.mops := rfl
@[simp] theorem State.setStream_eops (j : Nat) (x : Stream) : (s.setStream j x).eops = s.eops := rfl
@[simp] theorem State.setStream_cores (j : Nat) (x : Stream) : (s.setStream j x).cores = s.cores := rfl
@[simp] theorem State.setStream_clusters (j : Nat) (x : Stream) : (s.setStream j x).clusters = s.clusters := rfl
@[simp] theorem State.setStream_ctxs (j : Nat) (x : Stream) : (s.setStream j x).ctxs = s.ctxs := rfl
@[simp] theorem State.setStream_regions (j : Nat) (x : Stream) : (s.setStream j x).regions = s.regions := rfl
@[simp] theorem State.setStream_invals (j : Nat) (x : Stream) : (s.setStream j x).invals = s.invals := rfl
@[simp] theorem State.setStream_linkReqs (j : Nat) (x : Stream) : (s.setStream j x).linkReqs = s.linkReqs := rfl
@[simp] theorem State.setStream_cslots (j : Nat) (x : Stream) : (s.setStream j x).cslots = s.cslots := rfl
@[simp] theorem State.setStream_mem (j : Nat) (x : Stream) : (s.setStream j x).mem = s.mem := rfl
@[simp] theorem State.setStream_regs (j : Nat) (x : Stream) : (s.setStream j x).regs = s.regs := rfl
@[simp] theorem State.setStream_outbox (j : Nat) (x : Stream) : (s.setStream j x).outbox = s.outbox := rfl

/-! ### setWg -/

@[simp] theorem State.setWg_clock (x : Wg) : (s.setWg x).clock = s.clock := rfl
@[simp] theorem State.setWg_fresh (x : Wg) : (s.setWg x).fresh = s.fresh := rfl
@[simp] theorem State.setWg_agenda (x : Wg) : (s.setWg x).agenda = s.agenda := rfl
@[simp] theorem State.setWg_turns (x : Wg) : (s.setWg x).turns = s.turns := rfl
@[simp] theorem State.setWg_delays (x : Wg) : (s.setWg x).delays = s.delays := rfl
@[simp] theorem State.setWg_upsets (x : Wg) : (s.setWg x).upsets = s.upsets := rfl
@[simp] theorem State.setWg_fwTraps (x : Wg) : (s.setWg x).fwTraps = s.fwTraps := rfl
@[simp] theorem State.setWg_nextId (x : Wg) : (s.setWg x).nextId = s.nextId := rfl
@[simp] theorem State.setWg_cur (x : Wg) : (s.setWg x).cur = s.cur := rfl
@[simp] theorem State.setWg_blocked (x : Wg) : (s.setWg x).blocked = s.blocked := rfl
@[simp] theorem State.setWg_warps (x : Wg) : (s.setWg x).warps = s.warps := rfl
@[simp] theorem State.setWg_ctls (x : Wg) : (s.setWg x).ctls = s.ctls := rfl
@[simp] theorem State.setWg_streams (x : Wg) : (s.setWg x).streams = s.streams := rfl
@[simp] theorem State.setWg_grids (x : Wg) : (s.setWg x).grids = s.grids := rfl
@[simp] theorem State.setWg_treqs (x : Wg) : (s.setWg x).treqs = s.treqs := rfl
@[simp] theorem State.setWg_mops (x : Wg) : (s.setWg x).mops = s.mops := rfl
@[simp] theorem State.setWg_eops (x : Wg) : (s.setWg x).eops = s.eops := rfl
@[simp] theorem State.setWg_cores (x : Wg) : (s.setWg x).cores = s.cores := rfl
@[simp] theorem State.setWg_clusters (x : Wg) : (s.setWg x).clusters = s.clusters := rfl
@[simp] theorem State.setWg_ctxs (x : Wg) : (s.setWg x).ctxs = s.ctxs := rfl
@[simp] theorem State.setWg_regions (x : Wg) : (s.setWg x).regions = s.regions := rfl
@[simp] theorem State.setWg_invals (x : Wg) : (s.setWg x).invals = s.invals := rfl
@[simp] theorem State.setWg_linkReqs (x : Wg) : (s.setWg x).linkReqs = s.linkReqs := rfl
@[simp] theorem State.setWg_cslots (x : Wg) : (s.setWg x).cslots = s.cslots := rfl
@[simp] theorem State.setWg_mem (x : Wg) : (s.setWg x).mem = s.mem := rfl
@[simp] theorem State.setWg_regs (x : Wg) : (s.setWg x).regs = s.regs := rfl
@[simp] theorem State.setWg_outbox (x : Wg) : (s.setWg x).outbox = s.outbox := rfl

/-! ### setGrid -/

@[simp] theorem State.setGrid_clock (x : Grid) : (s.setGrid x).clock = s.clock := rfl
@[simp] theorem State.setGrid_fresh (x : Grid) : (s.setGrid x).fresh = s.fresh := rfl
@[simp] theorem State.setGrid_agenda (x : Grid) : (s.setGrid x).agenda = s.agenda := rfl
@[simp] theorem State.setGrid_turns (x : Grid) : (s.setGrid x).turns = s.turns := rfl
@[simp] theorem State.setGrid_delays (x : Grid) : (s.setGrid x).delays = s.delays := rfl
@[simp] theorem State.setGrid_upsets (x : Grid) : (s.setGrid x).upsets = s.upsets := rfl
@[simp] theorem State.setGrid_fwTraps (x : Grid) : (s.setGrid x).fwTraps = s.fwTraps := rfl
@[simp] theorem State.setGrid_nextId (x : Grid) : (s.setGrid x).nextId = s.nextId := rfl
@[simp] theorem State.setGrid_cur (x : Grid) : (s.setGrid x).cur = s.cur := rfl
@[simp] theorem State.setGrid_blocked (x : Grid) : (s.setGrid x).blocked = s.blocked := rfl
@[simp] theorem State.setGrid_warps (x : Grid) : (s.setGrid x).warps = s.warps := rfl
@[simp] theorem State.setGrid_ctls (x : Grid) : (s.setGrid x).ctls = s.ctls := rfl
@[simp] theorem State.setGrid_streams (x : Grid) : (s.setGrid x).streams = s.streams := rfl
@[simp] theorem State.setGrid_wgs (x : Grid) : (s.setGrid x).wgs = s.wgs := rfl
@[simp] theorem State.setGrid_treqs (x : Grid) : (s.setGrid x).treqs = s.treqs := rfl
@[simp] theorem State.setGrid_mops (x : Grid) : (s.setGrid x).mops = s.mops := rfl
@[simp] theorem State.setGrid_eops (x : Grid) : (s.setGrid x).eops = s.eops := rfl
@[simp] theorem State.setGrid_cores (x : Grid) : (s.setGrid x).cores = s.cores := rfl
@[simp] theorem State.setGrid_clusters (x : Grid) : (s.setGrid x).clusters = s.clusters := rfl
@[simp] theorem State.setGrid_ctxs (x : Grid) : (s.setGrid x).ctxs = s.ctxs := rfl
@[simp] theorem State.setGrid_regions (x : Grid) : (s.setGrid x).regions = s.regions := rfl
@[simp] theorem State.setGrid_invals (x : Grid) : (s.setGrid x).invals = s.invals := rfl
@[simp] theorem State.setGrid_linkReqs (x : Grid) : (s.setGrid x).linkReqs = s.linkReqs := rfl
@[simp] theorem State.setGrid_cslots (x : Grid) : (s.setGrid x).cslots = s.cslots := rfl
@[simp] theorem State.setGrid_mem (x : Grid) : (s.setGrid x).mem = s.mem := rfl
@[simp] theorem State.setGrid_regs (x : Grid) : (s.setGrid x).regs = s.regs := rfl
@[simp] theorem State.setGrid_outbox (x : Grid) : (s.setGrid x).outbox = s.outbox := rfl

/-! ### setMop -/

@[simp] theorem State.setMop_clock (x : MemOp) : (s.setMop x).clock = s.clock := rfl
@[simp] theorem State.setMop_fresh (x : MemOp) : (s.setMop x).fresh = s.fresh := rfl
@[simp] theorem State.setMop_agenda (x : MemOp) : (s.setMop x).agenda = s.agenda := rfl
@[simp] theorem State.setMop_turns (x : MemOp) : (s.setMop x).turns = s.turns := rfl
@[simp] theorem State.setMop_delays (x : MemOp) : (s.setMop x).delays = s.delays := rfl
@[simp] theorem State.setMop_upsets (x : MemOp) : (s.setMop x).upsets = s.upsets := rfl
@[simp] theorem State.setMop_fwTraps (x : MemOp) : (s.setMop x).fwTraps = s.fwTraps := rfl
@[simp] theorem State.setMop_nextId (x : MemOp) : (s.setMop x).nextId = s.nextId := rfl
@[simp] theorem State.setMop_cur (x : MemOp) : (s.setMop x).cur = s.cur := rfl
@[simp] theorem State.setMop_blocked (x : MemOp) : (s.setMop x).blocked = s.blocked := rfl
@[simp] theorem State.setMop_warps (x : MemOp) : (s.setMop x).warps = s.warps := rfl
@[simp] theorem State.setMop_ctls (x : MemOp) : (s.setMop x).ctls = s.ctls := rfl
@[simp] theorem State.setMop_streams (x : MemOp) : (s.setMop x).streams = s.streams := rfl
@[simp] theorem State.setMop_grids (x : MemOp) : (s.setMop x).grids = s.grids := rfl
@[simp] theorem State.setMop_wgs (x : MemOp) : (s.setMop x).wgs = s.wgs := rfl
@[simp] theorem State.setMop_treqs (x : MemOp) : (s.setMop x).treqs = s.treqs := rfl
@[simp] theorem State.setMop_eops (x : MemOp) : (s.setMop x).eops = s.eops := rfl
@[simp] theorem State.setMop_cores (x : MemOp) : (s.setMop x).cores = s.cores := rfl
@[simp] theorem State.setMop_clusters (x : MemOp) : (s.setMop x).clusters = s.clusters := rfl
@[simp] theorem State.setMop_ctxs (x : MemOp) : (s.setMop x).ctxs = s.ctxs := rfl
@[simp] theorem State.setMop_regions (x : MemOp) : (s.setMop x).regions = s.regions := rfl
@[simp] theorem State.setMop_invals (x : MemOp) : (s.setMop x).invals = s.invals := rfl
@[simp] theorem State.setMop_linkReqs (x : MemOp) : (s.setMop x).linkReqs = s.linkReqs := rfl
@[simp] theorem State.setMop_cslots (x : MemOp) : (s.setMop x).cslots = s.cslots := rfl
@[simp] theorem State.setMop_mem (x : MemOp) : (s.setMop x).mem = s.mem := rfl
@[simp] theorem State.setMop_regs (x : MemOp) : (s.setMop x).regs = s.regs := rfl
@[simp] theorem State.setMop_outbox (x : MemOp) : (s.setMop x).outbox = s.outbox := rfl

/-! ### setEop -/

@[simp] theorem State.setEop_clock (x : EngOp) : (s.setEop x).clock = s.clock := rfl
@[simp] theorem State.setEop_fresh (x : EngOp) : (s.setEop x).fresh = s.fresh := rfl
@[simp] theorem State.setEop_agenda (x : EngOp) : (s.setEop x).agenda = s.agenda := rfl
@[simp] theorem State.setEop_turns (x : EngOp) : (s.setEop x).turns = s.turns := rfl
@[simp] theorem State.setEop_delays (x : EngOp) : (s.setEop x).delays = s.delays := rfl
@[simp] theorem State.setEop_upsets (x : EngOp) : (s.setEop x).upsets = s.upsets := rfl
@[simp] theorem State.setEop_fwTraps (x : EngOp) : (s.setEop x).fwTraps = s.fwTraps := rfl
@[simp] theorem State.setEop_nextId (x : EngOp) : (s.setEop x).nextId = s.nextId := rfl
@[simp] theorem State.setEop_cur (x : EngOp) : (s.setEop x).cur = s.cur := rfl
@[simp] theorem State.setEop_blocked (x : EngOp) : (s.setEop x).blocked = s.blocked := rfl
@[simp] theorem State.setEop_warps (x : EngOp) : (s.setEop x).warps = s.warps := rfl
@[simp] theorem State.setEop_ctls (x : EngOp) : (s.setEop x).ctls = s.ctls := rfl
@[simp] theorem State.setEop_streams (x : EngOp) : (s.setEop x).streams = s.streams := rfl
@[simp] theorem State.setEop_grids (x : EngOp) : (s.setEop x).grids = s.grids := rfl
@[simp] theorem State.setEop_wgs (x : EngOp) : (s.setEop x).wgs = s.wgs := rfl
@[simp] theorem State.setEop_treqs (x : EngOp) : (s.setEop x).treqs = s.treqs := rfl
@[simp] theorem State.setEop_mops (x : EngOp) : (s.setEop x).mops = s.mops := rfl
@[simp] theorem State.setEop_cores (x : EngOp) : (s.setEop x).cores = s.cores := rfl
@[simp] theorem State.setEop_clusters (x : EngOp) : (s.setEop x).clusters = s.clusters := rfl
@[simp] theorem State.setEop_ctxs (x : EngOp) : (s.setEop x).ctxs = s.ctxs := rfl
@[simp] theorem State.setEop_regions (x : EngOp) : (s.setEop x).regions = s.regions := rfl
@[simp] theorem State.setEop_invals (x : EngOp) : (s.setEop x).invals = s.invals := rfl
@[simp] theorem State.setEop_linkReqs (x : EngOp) : (s.setEop x).linkReqs = s.linkReqs := rfl
@[simp] theorem State.setEop_cslots (x : EngOp) : (s.setEop x).cslots = s.cslots := rfl
@[simp] theorem State.setEop_mem (x : EngOp) : (s.setEop x).mem = s.mem := rfl
@[simp] theorem State.setEop_regs (x : EngOp) : (s.setEop x).regs = s.regs := rfl
@[simp] theorem State.setEop_outbox (x : EngOp) : (s.setEop x).outbox = s.outbox := rfl

/-! ### setTreq -/

@[simp] theorem State.setTreq_clock (x : TReq) : (s.setTreq x).clock = s.clock := rfl
@[simp] theorem State.setTreq_fresh (x : TReq) : (s.setTreq x).fresh = s.fresh := rfl
@[simp] theorem State.setTreq_agenda (x : TReq) : (s.setTreq x).agenda = s.agenda := rfl
@[simp] theorem State.setTreq_turns (x : TReq) : (s.setTreq x).turns = s.turns := rfl
@[simp] theorem State.setTreq_delays (x : TReq) : (s.setTreq x).delays = s.delays := rfl
@[simp] theorem State.setTreq_upsets (x : TReq) : (s.setTreq x).upsets = s.upsets := rfl
@[simp] theorem State.setTreq_fwTraps (x : TReq) : (s.setTreq x).fwTraps = s.fwTraps := rfl
@[simp] theorem State.setTreq_nextId (x : TReq) : (s.setTreq x).nextId = s.nextId := rfl
@[simp] theorem State.setTreq_cur (x : TReq) : (s.setTreq x).cur = s.cur := rfl
@[simp] theorem State.setTreq_blocked (x : TReq) : (s.setTreq x).blocked = s.blocked := rfl
@[simp] theorem State.setTreq_warps (x : TReq) : (s.setTreq x).warps = s.warps := rfl
@[simp] theorem State.setTreq_ctls (x : TReq) : (s.setTreq x).ctls = s.ctls := rfl
@[simp] theorem State.setTreq_streams (x : TReq) : (s.setTreq x).streams = s.streams := rfl
@[simp] theorem State.setTreq_grids (x : TReq) : (s.setTreq x).grids = s.grids := rfl
@[simp] theorem State.setTreq_wgs (x : TReq) : (s.setTreq x).wgs = s.wgs := rfl
@[simp] theorem State.setTreq_mops (x : TReq) : (s.setTreq x).mops = s.mops := rfl
@[simp] theorem State.setTreq_eops (x : TReq) : (s.setTreq x).eops = s.eops := rfl
@[simp] theorem State.setTreq_cores (x : TReq) : (s.setTreq x).cores = s.cores := rfl
@[simp] theorem State.setTreq_clusters (x : TReq) : (s.setTreq x).clusters = s.clusters := rfl
@[simp] theorem State.setTreq_ctxs (x : TReq) : (s.setTreq x).ctxs = s.ctxs := rfl
@[simp] theorem State.setTreq_regions (x : TReq) : (s.setTreq x).regions = s.regions := rfl
@[simp] theorem State.setTreq_invals (x : TReq) : (s.setTreq x).invals = s.invals := rfl
@[simp] theorem State.setTreq_linkReqs (x : TReq) : (s.setTreq x).linkReqs = s.linkReqs := rfl
@[simp] theorem State.setTreq_cslots (x : TReq) : (s.setTreq x).cslots = s.cslots := rfl
@[simp] theorem State.setTreq_mem (x : TReq) : (s.setTreq x).mem = s.mem := rfl
@[simp] theorem State.setTreq_regs (x : TReq) : (s.setTreq x).regs = s.regs := rfl
@[simp] theorem State.setTreq_outbox (x : TReq) : (s.setTreq x).outbox = s.outbox := rfl

/-! ### modCtl -/

@[simp] theorem State.modCtl_clock (who : Nat) (x : WarpCtl → WarpCtl) : (s.modCtl who x).clock = s.clock := rfl
@[simp] theorem State.modCtl_fresh (who : Nat) (x : WarpCtl → WarpCtl) : (s.modCtl who x).fresh = s.fresh := rfl
@[simp] theorem State.modCtl_agenda (who : Nat) (x : WarpCtl → WarpCtl) : (s.modCtl who x).agenda = s.agenda := rfl
@[simp] theorem State.modCtl_turns (who : Nat) (x : WarpCtl → WarpCtl) : (s.modCtl who x).turns = s.turns := rfl
@[simp] theorem State.modCtl_delays (who : Nat) (x : WarpCtl → WarpCtl) : (s.modCtl who x).delays = s.delays := rfl
@[simp] theorem State.modCtl_upsets (who : Nat) (x : WarpCtl → WarpCtl) : (s.modCtl who x).upsets = s.upsets := rfl
@[simp] theorem State.modCtl_fwTraps (who : Nat) (x : WarpCtl → WarpCtl) : (s.modCtl who x).fwTraps = s.fwTraps := rfl
@[simp] theorem State.modCtl_nextId (who : Nat) (x : WarpCtl → WarpCtl) : (s.modCtl who x).nextId = s.nextId := rfl
@[simp] theorem State.modCtl_cur (who : Nat) (x : WarpCtl → WarpCtl) : (s.modCtl who x).cur = s.cur := rfl
@[simp] theorem State.modCtl_blocked (who : Nat) (x : WarpCtl → WarpCtl) : (s.modCtl who x).blocked = s.blocked := rfl
@[simp] theorem State.modCtl_warps (who : Nat) (x : WarpCtl → WarpCtl) : (s.modCtl who x).warps = s.warps := rfl
@[simp] theorem State.modCtl_streams (who : Nat) (x : WarpCtl → WarpCtl) : (s.modCtl who x).streams = s.streams := rfl
@[simp] theorem State.modCtl_grids (who : Nat) (x : WarpCtl → WarpCtl) : (s.modCtl who x).grids = s.grids := rfl
@[simp] theorem State.modCtl_wgs (who : Nat) (x : WarpCtl → WarpCtl) : (s.modCtl who x).wgs = s.wgs := rfl
@[simp] theorem State.modCtl_treqs (who : Nat) (x : WarpCtl → WarpCtl) : (s.modCtl who x).treqs = s.treqs := rfl
@[simp] theorem State.modCtl_mops (who : Nat) (x : WarpCtl → WarpCtl) : (s.modCtl who x).mops = s.mops := rfl
@[simp] theorem State.modCtl_eops (who : Nat) (x : WarpCtl → WarpCtl) : (s.modCtl who x).eops = s.eops := rfl
@[simp] theorem State.modCtl_cores (who : Nat) (x : WarpCtl → WarpCtl) : (s.modCtl who x).cores = s.cores := rfl
@[simp] theorem State.modCtl_clusters (who : Nat) (x : WarpCtl → WarpCtl) : (s.modCtl who x).clusters = s.clusters := rfl
@[simp] theorem State.modCtl_ctxs (who : Nat) (x : WarpCtl → WarpCtl) : (s.modCtl who x).ctxs = s.ctxs := rfl
@[simp] theorem State.modCtl_regions (who : Nat) (x : WarpCtl → WarpCtl) : (s.modCtl who x).regions = s.regions := rfl
@[simp] theorem State.modCtl_invals (who : Nat) (x : WarpCtl → WarpCtl) : (s.modCtl who x).invals = s.invals := rfl
@[simp] theorem State.modCtl_linkReqs (who : Nat) (x : WarpCtl → WarpCtl) : (s.modCtl who x).linkReqs = s.linkReqs := rfl
@[simp] theorem State.modCtl_cslots (who : Nat) (x : WarpCtl → WarpCtl) : (s.modCtl who x).cslots = s.cslots := rfl
@[simp] theorem State.modCtl_mem (who : Nat) (x : WarpCtl → WarpCtl) : (s.modCtl who x).mem = s.mem := rfl
@[simp] theorem State.modCtl_regs (who : Nat) (x : WarpCtl → WarpCtl) : (s.modCtl who x).regs = s.regs := rfl
@[simp] theorem State.modCtl_outbox (who : Nat) (x : WarpCtl → WarpCtl) : (s.modCtl who x).outbox = s.outbox := rfl

/-! ### modWarp -/

@[simp] theorem State.modWarp_clock (who : Nat) (x : Warp → Warp) : (s.modWarp who x).clock = s.clock := rfl
@[simp] theorem State.modWarp_fresh (who : Nat) (x : Warp → Warp) : (s.modWarp who x).fresh = s.fresh := rfl
@[simp] theorem State.modWarp_agenda (who : Nat) (x : Warp → Warp) : (s.modWarp who x).agenda = s.agenda := rfl
@[simp] theorem State.modWarp_turns (who : Nat) (x : Warp → Warp) : (s.modWarp who x).turns = s.turns := rfl
@[simp] theorem State.modWarp_delays (who : Nat) (x : Warp → Warp) : (s.modWarp who x).delays = s.delays := rfl
@[simp] theorem State.modWarp_upsets (who : Nat) (x : Warp → Warp) : (s.modWarp who x).upsets = s.upsets := rfl
@[simp] theorem State.modWarp_fwTraps (who : Nat) (x : Warp → Warp) : (s.modWarp who x).fwTraps = s.fwTraps := rfl
@[simp] theorem State.modWarp_nextId (who : Nat) (x : Warp → Warp) : (s.modWarp who x).nextId = s.nextId := rfl
@[simp] theorem State.modWarp_cur (who : Nat) (x : Warp → Warp) : (s.modWarp who x).cur = s.cur := rfl
@[simp] theorem State.modWarp_blocked (who : Nat) (x : Warp → Warp) : (s.modWarp who x).blocked = s.blocked := rfl
@[simp] theorem State.modWarp_ctls (who : Nat) (x : Warp → Warp) : (s.modWarp who x).ctls = s.ctls := rfl
@[simp] theorem State.modWarp_streams (who : Nat) (x : Warp → Warp) : (s.modWarp who x).streams = s.streams := rfl
@[simp] theorem State.modWarp_grids (who : Nat) (x : Warp → Warp) : (s.modWarp who x).grids = s.grids := rfl
@[simp] theorem State.modWarp_wgs (who : Nat) (x : Warp → Warp) : (s.modWarp who x).wgs = s.wgs := rfl
@[simp] theorem State.modWarp_treqs (who : Nat) (x : Warp → Warp) : (s.modWarp who x).treqs = s.treqs := rfl
@[simp] theorem State.modWarp_mops (who : Nat) (x : Warp → Warp) : (s.modWarp who x).mops = s.mops := rfl
@[simp] theorem State.modWarp_eops (who : Nat) (x : Warp → Warp) : (s.modWarp who x).eops = s.eops := rfl
@[simp] theorem State.modWarp_cores (who : Nat) (x : Warp → Warp) : (s.modWarp who x).cores = s.cores := rfl
@[simp] theorem State.modWarp_clusters (who : Nat) (x : Warp → Warp) : (s.modWarp who x).clusters = s.clusters := rfl
@[simp] theorem State.modWarp_ctxs (who : Nat) (x : Warp → Warp) : (s.modWarp who x).ctxs = s.ctxs := rfl
@[simp] theorem State.modWarp_regions (who : Nat) (x : Warp → Warp) : (s.modWarp who x).regions = s.regions := rfl
@[simp] theorem State.modWarp_invals (who : Nat) (x : Warp → Warp) : (s.modWarp who x).invals = s.invals := rfl
@[simp] theorem State.modWarp_linkReqs (who : Nat) (x : Warp → Warp) : (s.modWarp who x).linkReqs = s.linkReqs := rfl
@[simp] theorem State.modWarp_cslots (who : Nat) (x : Warp → Warp) : (s.modWarp who x).cslots = s.cslots := rfl
@[simp] theorem State.modWarp_mem (who : Nat) (x : Warp → Warp) : (s.modWarp who x).mem = s.mem := rfl
@[simp] theorem State.modWarp_regs (who : Nat) (x : Warp → Warp) : (s.modWarp who x).regs = s.regs := rfl
@[simp] theorem State.modWarp_outbox (who : Nat) (x : Warp → Warp) : (s.modWarp who x).outbox = s.outbox := rfl

/-! ### modCore -/

@[simp] theorem State.modCore_clock (k : Nat) (x : Core → Core) : (s.modCore k x).clock = s.clock := rfl
@[simp] theorem State.modCore_fresh (k : Nat) (x : Core → Core) : (s.modCore k x).fresh = s.fresh := rfl
@[simp] theorem State.modCore_agenda (k : Nat) (x : Core → Core) : (s.modCore k x).agenda = s.agenda := rfl
@[simp] theorem State.modCore_turns (k : Nat) (x : Core → Core) : (s.modCore k x).turns = s.turns := rfl
@[simp] theorem State.modCore_delays (k : Nat) (x : Core → Core) : (s.modCore k x).delays = s.delays := rfl
@[simp] theorem State.modCore_upsets (k : Nat) (x : Core → Core) : (s.modCore k x).upsets = s.upsets := rfl
@[simp] theorem State.modCore_fwTraps (k : Nat) (x : Core → Core) : (s.modCore k x).fwTraps = s.fwTraps := rfl
@[simp] theorem State.modCore_nextId (k : Nat) (x : Core → Core) : (s.modCore k x).nextId = s.nextId := rfl
@[simp] theorem State.modCore_cur (k : Nat) (x : Core → Core) : (s.modCore k x).cur = s.cur := rfl
@[simp] theorem State.modCore_blocked (k : Nat) (x : Core → Core) : (s.modCore k x).blocked = s.blocked := rfl
@[simp] theorem State.modCore_warps (k : Nat) (x : Core → Core) : (s.modCore k x).warps = s.warps := rfl
@[simp] theorem State.modCore_ctls (k : Nat) (x : Core → Core) : (s.modCore k x).ctls = s.ctls := rfl
@[simp] theorem State.modCore_streams (k : Nat) (x : Core → Core) : (s.modCore k x).streams = s.streams := rfl
@[simp] theorem State.modCore_grids (k : Nat) (x : Core → Core) : (s.modCore k x).grids = s.grids := rfl
@[simp] theorem State.modCore_wgs (k : Nat) (x : Core → Core) : (s.modCore k x).wgs = s.wgs := rfl
@[simp] theorem State.modCore_treqs (k : Nat) (x : Core → Core) : (s.modCore k x).treqs = s.treqs := rfl
@[simp] theorem State.modCore_mops (k : Nat) (x : Core → Core) : (s.modCore k x).mops = s.mops := rfl
@[simp] theorem State.modCore_eops (k : Nat) (x : Core → Core) : (s.modCore k x).eops = s.eops := rfl
@[simp] theorem State.modCore_clusters (k : Nat) (x : Core → Core) : (s.modCore k x).clusters = s.clusters := rfl
@[simp] theorem State.modCore_ctxs (k : Nat) (x : Core → Core) : (s.modCore k x).ctxs = s.ctxs := rfl
@[simp] theorem State.modCore_regions (k : Nat) (x : Core → Core) : (s.modCore k x).regions = s.regions := rfl
@[simp] theorem State.modCore_invals (k : Nat) (x : Core → Core) : (s.modCore k x).invals = s.invals := rfl
@[simp] theorem State.modCore_linkReqs (k : Nat) (x : Core → Core) : (s.modCore k x).linkReqs = s.linkReqs := rfl
@[simp] theorem State.modCore_cslots (k : Nat) (x : Core → Core) : (s.modCore k x).cslots = s.cslots := rfl
@[simp] theorem State.modCore_mem (k : Nat) (x : Core → Core) : (s.modCore k x).mem = s.mem := rfl
@[simp] theorem State.modCore_regs (k : Nat) (x : Core → Core) : (s.modCore k x).regs = s.regs := rfl
@[simp] theorem State.modCore_outbox (k : Nat) (x : Core → Core) : (s.modCore k x).outbox = s.outbox := rfl

/-! ### modCluster -/

@[simp] theorem State.modCluster_clock (c : Nat) (x : Cluster → Cluster) : (s.modCluster c x).clock = s.clock := rfl
@[simp] theorem State.modCluster_fresh (c : Nat) (x : Cluster → Cluster) : (s.modCluster c x).fresh = s.fresh := rfl
@[simp] theorem State.modCluster_agenda (c : Nat) (x : Cluster → Cluster) : (s.modCluster c x).agenda = s.agenda := rfl
@[simp] theorem State.modCluster_turns (c : Nat) (x : Cluster → Cluster) : (s.modCluster c x).turns = s.turns := rfl
@[simp] theorem State.modCluster_delays (c : Nat) (x : Cluster → Cluster) : (s.modCluster c x).delays = s.delays := rfl
@[simp] theorem State.modCluster_upsets (c : Nat) (x : Cluster → Cluster) : (s.modCluster c x).upsets = s.upsets := rfl
@[simp] theorem State.modCluster_fwTraps (c : Nat) (x : Cluster → Cluster) : (s.modCluster c x).fwTraps = s.fwTraps := rfl
@[simp] theorem State.modCluster_nextId (c : Nat) (x : Cluster → Cluster) : (s.modCluster c x).nextId = s.nextId := rfl
@[simp] theorem State.modCluster_cur (c : Nat) (x : Cluster → Cluster) : (s.modCluster c x).cur = s.cur := rfl
@[simp] theorem State.modCluster_blocked (c : Nat) (x : Cluster → Cluster) : (s.modCluster c x).blocked = s.blocked := rfl
@[simp] theorem State.modCluster_warps (c : Nat) (x : Cluster → Cluster) : (s.modCluster c x).warps = s.warps := rfl
@[simp] theorem State.modCluster_ctls (c : Nat) (x : Cluster → Cluster) : (s.modCluster c x).ctls = s.ctls := rfl
@[simp] theorem State.modCluster_streams (c : Nat) (x : Cluster → Cluster) : (s.modCluster c x).streams = s.streams := rfl
@[simp] theorem State.modCluster_grids (c : Nat) (x : Cluster → Cluster) : (s.modCluster c x).grids = s.grids := rfl
@[simp] theorem State.modCluster_wgs (c : Nat) (x : Cluster → Cluster) : (s.modCluster c x).wgs = s.wgs := rfl
@[simp] theorem State.modCluster_treqs (c : Nat) (x : Cluster → Cluster) : (s.modCluster c x).treqs = s.treqs := rfl
@[simp] theorem State.modCluster_mops (c : Nat) (x : Cluster → Cluster) : (s.modCluster c x).mops = s.mops := rfl
@[simp] theorem State.modCluster_eops (c : Nat) (x : Cluster → Cluster) : (s.modCluster c x).eops = s.eops := rfl
@[simp] theorem State.modCluster_cores (c : Nat) (x : Cluster → Cluster) : (s.modCluster c x).cores = s.cores := rfl
@[simp] theorem State.modCluster_ctxs (c : Nat) (x : Cluster → Cluster) : (s.modCluster c x).ctxs = s.ctxs := rfl
@[simp] theorem State.modCluster_regions (c : Nat) (x : Cluster → Cluster) : (s.modCluster c x).regions = s.regions := rfl
@[simp] theorem State.modCluster_invals (c : Nat) (x : Cluster → Cluster) : (s.modCluster c x).invals = s.invals := rfl
@[simp] theorem State.modCluster_linkReqs (c : Nat) (x : Cluster → Cluster) : (s.modCluster c x).linkReqs = s.linkReqs := rfl
@[simp] theorem State.modCluster_cslots (c : Nat) (x : Cluster → Cluster) : (s.modCluster c x).cslots = s.cslots := rfl
@[simp] theorem State.modCluster_mem (c : Nat) (x : Cluster → Cluster) : (s.modCluster c x).mem = s.mem := rfl
@[simp] theorem State.modCluster_regs (c : Nat) (x : Cluster → Cluster) : (s.modCluster c x).regs = s.regs := rfl
@[simp] theorem State.modCluster_outbox (c : Nat) (x : Cluster → Cluster) : (s.modCluster c x).outbox = s.outbox := rfl

/-! ### modStream -/

@[simp] theorem State.modStream_clock (j : Nat) (x : Stream → Stream) : (s.modStream j x).clock = s.clock := rfl
@[simp] theorem State.modStream_fresh (j : Nat) (x : Stream → Stream) : (s.modStream j x).fresh = s.fresh := rfl
@[simp] theorem State.modStream_agenda (j : Nat) (x : Stream → Stream) : (s.modStream j x).agenda = s.agenda := rfl
@[simp] theorem State.modStream_turns (j : Nat) (x : Stream → Stream) : (s.modStream j x).turns = s.turns := rfl
@[simp] theorem State.modStream_delays (j : Nat) (x : Stream → Stream) : (s.modStream j x).delays = s.delays := rfl
@[simp] theorem State.modStream_upsets (j : Nat) (x : Stream → Stream) : (s.modStream j x).upsets = s.upsets := rfl
@[simp] theorem State.modStream_fwTraps (j : Nat) (x : Stream → Stream) : (s.modStream j x).fwTraps = s.fwTraps := rfl
@[simp] theorem State.modStream_nextId (j : Nat) (x : Stream → Stream) : (s.modStream j x).nextId = s.nextId := rfl
@[simp] theorem State.modStream_cur (j : Nat) (x : Stream → Stream) : (s.modStream j x).cur = s.cur := rfl
@[simp] theorem State.modStream_blocked (j : Nat) (x : Stream → Stream) : (s.modStream j x).blocked = s.blocked := rfl
@[simp] theorem State.modStream_warps (j : Nat) (x : Stream → Stream) : (s.modStream j x).warps = s.warps := rfl
@[simp] theorem State.modStream_ctls (j : Nat) (x : Stream → Stream) : (s.modStream j x).ctls = s.ctls := rfl
@[simp] theorem State.modStream_grids (j : Nat) (x : Stream → Stream) : (s.modStream j x).grids = s.grids := rfl
@[simp] theorem State.modStream_wgs (j : Nat) (x : Stream → Stream) : (s.modStream j x).wgs = s.wgs := rfl
@[simp] theorem State.modStream_treqs (j : Nat) (x : Stream → Stream) : (s.modStream j x).treqs = s.treqs := rfl
@[simp] theorem State.modStream_mops (j : Nat) (x : Stream → Stream) : (s.modStream j x).mops = s.mops := rfl
@[simp] theorem State.modStream_eops (j : Nat) (x : Stream → Stream) : (s.modStream j x).eops = s.eops := rfl
@[simp] theorem State.modStream_cores (j : Nat) (x : Stream → Stream) : (s.modStream j x).cores = s.cores := rfl
@[simp] theorem State.modStream_clusters (j : Nat) (x : Stream → Stream) : (s.modStream j x).clusters = s.clusters := rfl
@[simp] theorem State.modStream_ctxs (j : Nat) (x : Stream → Stream) : (s.modStream j x).ctxs = s.ctxs := rfl
@[simp] theorem State.modStream_regions (j : Nat) (x : Stream → Stream) : (s.modStream j x).regions = s.regions := rfl
@[simp] theorem State.modStream_invals (j : Nat) (x : Stream → Stream) : (s.modStream j x).invals = s.invals := rfl
@[simp] theorem State.modStream_linkReqs (j : Nat) (x : Stream → Stream) : (s.modStream j x).linkReqs = s.linkReqs := rfl
@[simp] theorem State.modStream_cslots (j : Nat) (x : Stream → Stream) : (s.modStream j x).cslots = s.cslots := rfl
@[simp] theorem State.modStream_mem (j : Nat) (x : Stream → Stream) : (s.modStream j x).mem = s.mem := rfl
@[simp] theorem State.modStream_regs (j : Nat) (x : Stream → Stream) : (s.modStream j x).regs = s.regs := rfl
@[simp] theorem State.modStream_outbox (j : Nat) (x : Stream → Stream) : (s.modStream j x).outbox = s.outbox := rfl

/-! ### emit -/

@[simp] theorem State.emit_clock (x : Out) : (s.emit x).clock = s.clock := rfl
@[simp] theorem State.emit_fresh (x : Out) : (s.emit x).fresh = s.fresh := rfl
@[simp] theorem State.emit_agenda (x : Out) : (s.emit x).agenda = s.agenda := rfl
@[simp] theorem State.emit_turns (x : Out) : (s.emit x).turns = s.turns := rfl
@[simp] theorem State.emit_delays (x : Out) : (s.emit x).delays = s.delays := rfl
@[simp] theorem State.emit_upsets (x : Out) : (s.emit x).upsets = s.upsets := rfl
@[simp] theorem State.emit_fwTraps (x : Out) : (s.emit x).fwTraps = s.fwTraps := rfl
@[simp] theorem State.emit_nextId (x : Out) : (s.emit x).nextId = s.nextId := rfl
@[simp] theorem State.emit_cur (x : Out) : (s.emit x).cur = s.cur := rfl
@[simp] theorem State.emit_blocked (x : Out) : (s.emit x).blocked = s.blocked := rfl
@[simp] theorem State.emit_warps (x : Out) : (s.emit x).warps = s.warps := rfl
@[simp] theorem State.emit_ctls (x : Out) : (s.emit x).ctls = s.ctls := rfl
@[simp] theorem State.emit_streams (x : Out) : (s.emit x).streams = s.streams := rfl
@[simp] theorem State.emit_grids (x : Out) : (s.emit x).grids = s.grids := rfl
@[simp] theorem State.emit_wgs (x : Out) : (s.emit x).wgs = s.wgs := rfl
@[simp] theorem State.emit_treqs (x : Out) : (s.emit x).treqs = s.treqs := rfl
@[simp] theorem State.emit_mops (x : Out) : (s.emit x).mops = s.mops := rfl
@[simp] theorem State.emit_eops (x : Out) : (s.emit x).eops = s.eops := rfl
@[simp] theorem State.emit_cores (x : Out) : (s.emit x).cores = s.cores := rfl
@[simp] theorem State.emit_clusters (x : Out) : (s.emit x).clusters = s.clusters := rfl
@[simp] theorem State.emit_ctxs (x : Out) : (s.emit x).ctxs = s.ctxs := rfl
@[simp] theorem State.emit_regions (x : Out) : (s.emit x).regions = s.regions := rfl
@[simp] theorem State.emit_invals (x : Out) : (s.emit x).invals = s.invals := rfl
@[simp] theorem State.emit_linkReqs (x : Out) : (s.emit x).linkReqs = s.linkReqs := rfl
@[simp] theorem State.emit_cslots (x : Out) : (s.emit x).cslots = s.cslots := rfl
@[simp] theorem State.emit_mem (x : Out) : (s.emit x).mem = s.mem := rfl
@[simp] theorem State.emit_regs (x : Out) : (s.emit x).regs = s.regs := rfl

/-! ### setRegs -/

@[simp] theorem State.setRegs_clock (x : Regs) : (s.setRegs x).clock = s.clock := rfl
@[simp] theorem State.setRegs_fresh (x : Regs) : (s.setRegs x).fresh = s.fresh := rfl
@[simp] theorem State.setRegs_agenda (x : Regs) : (s.setRegs x).agenda = s.agenda := rfl
@[simp] theorem State.setRegs_turns (x : Regs) : (s.setRegs x).turns = s.turns := rfl
@[simp] theorem State.setRegs_delays (x : Regs) : (s.setRegs x).delays = s.delays := rfl
@[simp] theorem State.setRegs_upsets (x : Regs) : (s.setRegs x).upsets = s.upsets := rfl
@[simp] theorem State.setRegs_fwTraps (x : Regs) : (s.setRegs x).fwTraps = s.fwTraps := rfl
@[simp] theorem State.setRegs_nextId (x : Regs) : (s.setRegs x).nextId = s.nextId := rfl
@[simp] theorem State.setRegs_cur (x : Regs) : (s.setRegs x).cur = s.cur := rfl
@[simp] theorem State.setRegs_blocked (x : Regs) : (s.setRegs x).blocked = s.blocked := rfl
@[simp] theorem State.setRegs_warps (x : Regs) : (s.setRegs x).warps = s.warps := rfl
@[simp] theorem State.setRegs_ctls (x : Regs) : (s.setRegs x).ctls = s.ctls := rfl
@[simp] theorem State.setRegs_streams (x : Regs) : (s.setRegs x).streams = s.streams := rfl
@[simp] theorem State.setRegs_grids (x : Regs) : (s.setRegs x).grids = s.grids := rfl
@[simp] theorem State.setRegs_wgs (x : Regs) : (s.setRegs x).wgs = s.wgs := rfl
@[simp] theorem State.setRegs_treqs (x : Regs) : (s.setRegs x).treqs = s.treqs := rfl
@[simp] theorem State.setRegs_mops (x : Regs) : (s.setRegs x).mops = s.mops := rfl
@[simp] theorem State.setRegs_eops (x : Regs) : (s.setRegs x).eops = s.eops := rfl
@[simp] theorem State.setRegs_cores (x : Regs) : (s.setRegs x).cores = s.cores := rfl
@[simp] theorem State.setRegs_clusters (x : Regs) : (s.setRegs x).clusters = s.clusters := rfl
@[simp] theorem State.setRegs_ctxs (x : Regs) : (s.setRegs x).ctxs = s.ctxs := rfl
@[simp] theorem State.setRegs_regions (x : Regs) : (s.setRegs x).regions = s.regions := rfl
@[simp] theorem State.setRegs_invals (x : Regs) : (s.setRegs x).invals = s.invals := rfl
@[simp] theorem State.setRegs_linkReqs (x : Regs) : (s.setRegs x).linkReqs = s.linkReqs := rfl
@[simp] theorem State.setRegs_cslots (x : Regs) : (s.setRegs x).cslots = s.cslots := rfl
@[simp] theorem State.setRegs_mem (x : Regs) : (s.setRegs x).mem = s.mem := rfl
@[simp] theorem State.setRegs_outbox (x : Regs) : (s.setRegs x).outbox = s.outbox := rfl

/-! ### setS of a warp -/

@[simp] theorem Warp.setS_wg (n : Nat) (v : W64) : (w.setS n v).wg = w.wg := rfl
@[simp] theorem Warp.setS_num (n : Nat) (v : W64) : (w.setS n v).num = w.num := rfl
@[simp] theorem Warp.setS_nwarp (n : Nat) (v : W64) : (w.setS n v).nwarp = w.nwarp := rfl
@[simp] theorem Warp.setS_ctx (n : Nat) (v : W64) : (w.setS n v).ctx = w.ctx := rfl
@[simp] theorem Warp.setS_prio (n : Nat) (v : W64) : (w.setS n v).prio = w.prio := rfl
@[simp] theorem Warp.setS_age (n : Nat) (v : W64) : (w.setS n v).age = w.age := rfl
@[simp] theorem Warp.setS_p (n : Nat) (v : W64) : (w.setS n v).p = w.p := rfl
@[simp] theorem Warp.setS_k (n : Nat) (v : W64) : (w.setS n v).k = w.k := rfl
@[simp] theorem Warp.setS_cf (n : Nat) (v : W64) : (w.setS n v).cf = w.cf := rfl
@[simp] theorem Warp.setS_x (n : Nat) (v : W64) : (w.setS n v).x = w.x := rfl
@[simp] theorem Warp.setS_l0 (n : Nat) (v : W64) : (w.setS n v).l0 = w.l0 := rfl
@[simp] theorem Warp.setS_l1 (n : Nat) (v : W64) : (w.setS n v).l1 = w.l1 := rfl
@[simp] theorem Warp.setS_arstat (n : Nat) (v : W64) : (w.setS n v).arstat = w.arstat := rfl
@[simp] theorem Warp.setS_viol (n : Nat) (v : W64) : (w.setS n v).viol = w.viol := rfl
@[simp] theorem Warp.setS_curb (n : Nat) (v : W64) : (w.setS n v).curb = w.curb := rfl
@[simp] theorem Warp.setS_minb (n : Nat) (v : W64) : (w.setS n v).minb = w.minb := rfl
@[simp] theorem Warp.setS_blocks (n : Nat) (v : W64) : (w.setS n v).blocks = w.blocks := rfl
@[simp] theorem Warp.setS_paths (n : Nat) (v : W64) : (w.setS n v).paths = w.paths := rfl
@[simp] theorem Warp.setS_parked (n : Nat) (v : W64) : (w.setS n v).parked = w.parked := rfl
@[simp] theorem Warp.setS_exited (n : Nat) (v : W64) : (w.setS n v).exited = w.exited := rfl
@[simp] theorem Warp.setS_filed (n : Nat) (v : W64) : (w.setS n v).filed = w.filed := rfl
@[simp] theorem Warp.setS_tid (n : Nat) (v : W64) : (w.setS n v).tid = w.tid := rfl

/-! ### setP of a warp -/

@[simp] theorem Warp.setP_wg (n : Nat) (v : LaneMask) : (w.setP n v).wg = w.wg := rfl
@[simp] theorem Warp.setP_num (n : Nat) (v : LaneMask) : (w.setP n v).num = w.num := rfl
@[simp] theorem Warp.setP_nwarp (n : Nat) (v : LaneMask) : (w.setP n v).nwarp = w.nwarp := rfl
@[simp] theorem Warp.setP_ctx (n : Nat) (v : LaneMask) : (w.setP n v).ctx = w.ctx := rfl
@[simp] theorem Warp.setP_prio (n : Nat) (v : LaneMask) : (w.setP n v).prio = w.prio := rfl
@[simp] theorem Warp.setP_age (n : Nat) (v : LaneMask) : (w.setP n v).age = w.age := rfl
@[simp] theorem Warp.setP_s (n : Nat) (v : LaneMask) : (w.setP n v).s = w.s := rfl
@[simp] theorem Warp.setP_k (n : Nat) (v : LaneMask) : (w.setP n v).k = w.k := rfl
@[simp] theorem Warp.setP_cf (n : Nat) (v : LaneMask) : (w.setP n v).cf = w.cf := rfl
@[simp] theorem Warp.setP_x (n : Nat) (v : LaneMask) : (w.setP n v).x = w.x := rfl
@[simp] theorem Warp.setP_l0 (n : Nat) (v : LaneMask) : (w.setP n v).l0 = w.l0 := rfl
@[simp] theorem Warp.setP_l1 (n : Nat) (v : LaneMask) : (w.setP n v).l1 = w.l1 := rfl
@[simp] theorem Warp.setP_arstat (n : Nat) (v : LaneMask) : (w.setP n v).arstat = w.arstat := rfl
@[simp] theorem Warp.setP_viol (n : Nat) (v : LaneMask) : (w.setP n v).viol = w.viol := rfl
@[simp] theorem Warp.setP_curb (n : Nat) (v : LaneMask) : (w.setP n v).curb = w.curb := rfl
@[simp] theorem Warp.setP_minb (n : Nat) (v : LaneMask) : (w.setP n v).minb = w.minb := rfl
@[simp] theorem Warp.setP_blocks (n : Nat) (v : LaneMask) : (w.setP n v).blocks = w.blocks := rfl
@[simp] theorem Warp.setP_paths (n : Nat) (v : LaneMask) : (w.setP n v).paths = w.paths := rfl
@[simp] theorem Warp.setP_parked (n : Nat) (v : LaneMask) : (w.setP n v).parked = w.parked := rfl
@[simp] theorem Warp.setP_exited (n : Nat) (v : LaneMask) : (w.setP n v).exited = w.exited := rfl
@[simp] theorem Warp.setP_filed (n : Nat) (v : LaneMask) : (w.setP n v).filed = w.filed := rfl
@[simp] theorem Warp.setP_tid (n : Nat) (v : LaneMask) : (w.setP n v).tid = w.tid := rfl

/-! ### setK of a warp -/

@[simp] theorem Warp.setK_wg (n : Nat) (v : LaneMask) : (w.setK n v).wg = w.wg := rfl
@[simp] theorem Warp.setK_num (n : Nat) (v : LaneMask) : (w.setK n v).num = w.num := rfl
@[simp] theorem Warp.setK_nwarp (n : Nat) (v : LaneMask) : (w.setK n v).nwarp = w.nwarp := rfl
@[simp] theorem Warp.setK_ctx (n : Nat) (v : LaneMask) : (w.setK n v).ctx = w.ctx := rfl
@[simp] theorem Warp.setK_prio (n : Nat) (v : LaneMask) : (w.setK n v).prio = w.prio := rfl
@[simp] theorem Warp.setK_age (n : Nat) (v : LaneMask) : (w.setK n v).age = w.age := rfl
@[simp] theorem Warp.setK_s (n : Nat) (v : LaneMask) : (w.setK n v).s = w.s := rfl
@[simp] theorem Warp.setK_p (n : Nat) (v : LaneMask) : (w.setK n v).p = w.p := rfl
@[simp] theorem Warp.setK_cf (n : Nat) (v : LaneMask) : (w.setK n v).cf = w.cf := rfl
@[simp] theorem Warp.setK_x (n : Nat) (v : LaneMask) : (w.setK n v).x = w.x := rfl
@[simp] theorem Warp.setK_l0 (n : Nat) (v : LaneMask) : (w.setK n v).l0 = w.l0 := rfl
@[simp] theorem Warp.setK_l1 (n : Nat) (v : LaneMask) : (w.setK n v).l1 = w.l1 := rfl
@[simp] theorem Warp.setK_arstat (n : Nat) (v : LaneMask) : (w.setK n v).arstat = w.arstat := rfl
@[simp] theorem Warp.setK_viol (n : Nat) (v : LaneMask) : (w.setK n v).viol = w.viol := rfl
@[simp] theorem Warp.setK_curb (n : Nat) (v : LaneMask) : (w.setK n v).curb = w.curb := rfl
@[simp] theorem Warp.setK_minb (n : Nat) (v : LaneMask) : (w.setK n v).minb = w.minb := rfl
@[simp] theorem Warp.setK_blocks (n : Nat) (v : LaneMask) : (w.setK n v).blocks = w.blocks := rfl
@[simp] theorem Warp.setK_paths (n : Nat) (v : LaneMask) : (w.setK n v).paths = w.paths := rfl
@[simp] theorem Warp.setK_parked (n : Nat) (v : LaneMask) : (w.setK n v).parked = w.parked := rfl
@[simp] theorem Warp.setK_exited (n : Nat) (v : LaneMask) : (w.setK n v).exited = w.exited := rfl
@[simp] theorem Warp.setK_filed (n : Nat) (v : LaneMask) : (w.setK n v).filed = w.filed := rfl
@[simp] theorem Warp.setK_tid (n : Nat) (v : LaneMask) : (w.setK n v).tid = w.tid := rfl

/-! ### setFlag of a warp -/

@[simp] theorem Warp.setFlag_wg (n : Nat) (v : Nat) : (w.setFlag n v).wg = w.wg := rfl
@[simp] theorem Warp.setFlag_num (n : Nat) (v : Nat) : (w.setFlag n v).num = w.num := rfl
@[simp] theorem Warp.setFlag_nwarp (n : Nat) (v : Nat) : (w.setFlag n v).nwarp = w.nwarp := rfl
@[simp] theorem Warp.setFlag_ctx (n : Nat) (v : Nat) : (w.setFlag n v).ctx = w.ctx := rfl
@[simp] theorem Warp.setFlag_prio (n : Nat) (v : Nat) : (w.setFlag n v).prio = w.prio := rfl
@[simp] theorem Warp.setFlag_age (n : Nat) (v : Nat) : (w.setFlag n v).age = w.age := rfl
@[simp] theorem Warp.setFlag_s (n : Nat) (v : Nat) : (w.setFlag n v).s = w.s := rfl
@[simp] theorem Warp.setFlag_p (n : Nat) (v : Nat) : (w.setFlag n v).p = w.p := rfl
@[simp] theorem Warp.setFlag_k (n : Nat) (v : Nat) : (w.setFlag n v).k = w.k := rfl
@[simp] theorem Warp.setFlag_x (n : Nat) (v : Nat) : (w.setFlag n v).x = w.x := rfl
@[simp] theorem Warp.setFlag_l0 (n : Nat) (v : Nat) : (w.setFlag n v).l0 = w.l0 := rfl
@[simp] theorem Warp.setFlag_l1 (n : Nat) (v : Nat) : (w.setFlag n v).l1 = w.l1 := rfl
@[simp] theorem Warp.setFlag_arstat (n : Nat) (v : Nat) : (w.setFlag n v).arstat = w.arstat := rfl
@[simp] theorem Warp.setFlag_viol (n : Nat) (v : Nat) : (w.setFlag n v).viol = w.viol := rfl
@[simp] theorem Warp.setFlag_curb (n : Nat) (v : Nat) : (w.setFlag n v).curb = w.curb := rfl
@[simp] theorem Warp.setFlag_minb (n : Nat) (v : Nat) : (w.setFlag n v).minb = w.minb := rfl
@[simp] theorem Warp.setFlag_blocks (n : Nat) (v : Nat) : (w.setFlag n v).blocks = w.blocks := rfl
@[simp] theorem Warp.setFlag_paths (n : Nat) (v : Nat) : (w.setFlag n v).paths = w.paths := rfl
@[simp] theorem Warp.setFlag_parked (n : Nat) (v : Nat) : (w.setFlag n v).parked = w.parked := rfl
@[simp] theorem Warp.setFlag_exited (n : Nat) (v : Nat) : (w.setFlag n v).exited = w.exited := rfl
@[simp] theorem Warp.setFlag_filed (n : Nat) (v : Nat) : (w.setFlag n v).filed = w.filed := rfl
@[simp] theorem Warp.setFlag_tid (n : Nat) (v : Nat) : (w.setFlag n v).tid = w.tid := rfl

/-! ### setX of a warp -/

@[simp] theorem Warp.setX_wg (n : Nat) (v : IdxReg) : (w.setX n v).wg = w.wg := rfl
@[simp] theorem Warp.setX_num (n : Nat) (v : IdxReg) : (w.setX n v).num = w.num := rfl
@[simp] theorem Warp.setX_nwarp (n : Nat) (v : IdxReg) : (w.setX n v).nwarp = w.nwarp := rfl
@[simp] theorem Warp.setX_ctx (n : Nat) (v : IdxReg) : (w.setX n v).ctx = w.ctx := rfl
@[simp] theorem Warp.setX_prio (n : Nat) (v : IdxReg) : (w.setX n v).prio = w.prio := rfl
@[simp] theorem Warp.setX_age (n : Nat) (v : IdxReg) : (w.setX n v).age = w.age := rfl
@[simp] theorem Warp.setX_s (n : Nat) (v : IdxReg) : (w.setX n v).s = w.s := rfl
@[simp] theorem Warp.setX_p (n : Nat) (v : IdxReg) : (w.setX n v).p = w.p := rfl
@[simp] theorem Warp.setX_k (n : Nat) (v : IdxReg) : (w.setX n v).k = w.k := rfl
@[simp] theorem Warp.setX_cf (n : Nat) (v : IdxReg) : (w.setX n v).cf = w.cf := rfl
@[simp] theorem Warp.setX_l0 (n : Nat) (v : IdxReg) : (w.setX n v).l0 = w.l0 := rfl
@[simp] theorem Warp.setX_l1 (n : Nat) (v : IdxReg) : (w.setX n v).l1 = w.l1 := rfl
@[simp] theorem Warp.setX_arstat (n : Nat) (v : IdxReg) : (w.setX n v).arstat = w.arstat := rfl
@[simp] theorem Warp.setX_viol (n : Nat) (v : IdxReg) : (w.setX n v).viol = w.viol := rfl
@[simp] theorem Warp.setX_curb (n : Nat) (v : IdxReg) : (w.setX n v).curb = w.curb := rfl
@[simp] theorem Warp.setX_minb (n : Nat) (v : IdxReg) : (w.setX n v).minb = w.minb := rfl
@[simp] theorem Warp.setX_blocks (n : Nat) (v : IdxReg) : (w.setX n v).blocks = w.blocks := rfl
@[simp] theorem Warp.setX_paths (n : Nat) (v : IdxReg) : (w.setX n v).paths = w.paths := rfl
@[simp] theorem Warp.setX_parked (n : Nat) (v : IdxReg) : (w.setX n v).parked = w.parked := rfl
@[simp] theorem Warp.setX_exited (n : Nat) (v : IdxReg) : (w.setX n v).exited = w.exited := rfl
@[simp] theorem Warp.setX_filed (n : Nat) (v : IdxReg) : (w.setX n v).filed = w.filed := rfl
@[simp] theorem Warp.setX_tid (n : Nat) (v : IdxReg) : (w.setX n v).tid = w.tid := rfl

/-! ### setBlock of a warp -/

@[simp] theorem Warp.setBlock_wg (n : Nat) (v : Block) : (w.setBlock n v).wg = w.wg := rfl
@[simp] theorem Warp.setBlock_num (n : Nat) (v : Block) : (w.setBlock n v).num = w.num := rfl
@[simp] theorem Warp.setBlock_nwarp (n : Nat) (v : Block) : (w.setBlock n v).nwarp = w.nwarp := rfl
@[simp] theorem Warp.setBlock_ctx (n : Nat) (v : Block) : (w.setBlock n v).ctx = w.ctx := rfl
@[simp] theorem Warp.setBlock_prio (n : Nat) (v : Block) : (w.setBlock n v).prio = w.prio := rfl
@[simp] theorem Warp.setBlock_age (n : Nat) (v : Block) : (w.setBlock n v).age = w.age := rfl
@[simp] theorem Warp.setBlock_s (n : Nat) (v : Block) : (w.setBlock n v).s = w.s := rfl
@[simp] theorem Warp.setBlock_p (n : Nat) (v : Block) : (w.setBlock n v).p = w.p := rfl
@[simp] theorem Warp.setBlock_k (n : Nat) (v : Block) : (w.setBlock n v).k = w.k := rfl
@[simp] theorem Warp.setBlock_cf (n : Nat) (v : Block) : (w.setBlock n v).cf = w.cf := rfl
@[simp] theorem Warp.setBlock_x (n : Nat) (v : Block) : (w.setBlock n v).x = w.x := rfl
@[simp] theorem Warp.setBlock_l0 (n : Nat) (v : Block) : (w.setBlock n v).l0 = w.l0 := rfl
@[simp] theorem Warp.setBlock_l1 (n : Nat) (v : Block) : (w.setBlock n v).l1 = w.l1 := rfl
@[simp] theorem Warp.setBlock_arstat (n : Nat) (v : Block) : (w.setBlock n v).arstat = w.arstat := rfl
@[simp] theorem Warp.setBlock_viol (n : Nat) (v : Block) : (w.setBlock n v).viol = w.viol := rfl
@[simp] theorem Warp.setBlock_curb (n : Nat) (v : Block) : (w.setBlock n v).curb = w.curb := rfl
@[simp] theorem Warp.setBlock_minb (n : Nat) (v : Block) : (w.setBlock n v).minb = w.minb := rfl
@[simp] theorem Warp.setBlock_paths (n : Nat) (v : Block) : (w.setBlock n v).paths = w.paths := rfl
@[simp] theorem Warp.setBlock_parked (n : Nat) (v : Block) : (w.setBlock n v).parked = w.parked := rfl
@[simp] theorem Warp.setBlock_exited (n : Nat) (v : Block) : (w.setBlock n v).exited = w.exited := rfl
@[simp] theorem Warp.setBlock_filed (n : Nat) (v : Block) : (w.setBlock n v).filed = w.filed := rfl
@[simp] theorem Warp.setBlock_tid (n : Nat) (v : Block) : (w.setBlock n v).tid = w.tid := rfl

end Sys2Proof.Machine
end

