-- ==== Sys2Proof/Laws/Map.lean ====
section
/-! SUPPORT. Sparse maps and byte memories: what a write leaves to read, and the canonical form of a memory. -/

namespace Sys2Proof.Machine

/-! ### Sparse maps -/

@[simp] theorem mget_nil {α : Type} (k : Nat) : mget ([] : SMap α) k = none := rfl

@[simp] theorem mget_mset_same {α : Type} (m : SMap α) (k : Nat) (v : α) : mget (mset m k v) k = some v := by
  induction m with
  | nil => simp [mset, mget]
  | cons e m ih =>
    obtain ⟨a, w⟩ := e
    simp only [mset]
    split
    · simp [mget]
    · split
      · simp [mget]
      · simp [mget, *]

theorem mget_mset_other {α : Type} (m : SMap α) {k n : Nat} (v : α) (h : n ≠ k) : mget (mset m k v) n = mget m n := by
  induction m with
  | nil => simp [mset, mget, Ne.symm h]
  | cons e m ih =>
    obtain ⟨a, w⟩ := e
    simp only [mset]
    split
    · subst_vars; simp [mget, Ne.symm h]
    · split
      · simp [mget, Ne.symm h]
      · simp only [mget, ih]

theorem mget_mset {α : Type} (m : SMap α) (k n : Nat) (v : α) : mget (mset m k v) n = if n = k then some v else mget m n := by
  split
  · subst_vars; simp
  · exact mget_mset_other m v ‹_›

@[simp] theorem mset_mset {α : Type} (m : SMap α) (k : Nat) (v w : α) : mset (mset m k v) k w = mset m k w := by
  induction m with
  | nil => simp [mset]
  | cons e m ih =>
    obtain ⟨a, x⟩ := e
    by_cases h1 : a = k
    · simp [mset, h1]
    · by_cases h2 : k < a
      · simp [mset, h1, h2]
      · simp [mset, h1, h2, ih]

@[simp] theorem mgetD_mset_same {α : Type} (m : SMap α) (k : Nat) (v d : α) : mgetD (mset m k v) k d = v := by simp [mgetD]

theorem mgetD_mset_other {α : Type} (m : SMap α) {k n : Nat} (v d : α) (h : n ≠ k) :
    mgetD (mset m k v) n d = mgetD m n d := by simp [mgetD, mget_mset_other m v h]

theorem mem_mset {α : Type} {m : SMap α} {k : Nat} {v : α} {e : Nat × α} (h : e ∈ mset m k v) : e = (k, v) ∨ e ∈ m := by
  induction m with
  | nil => simpa [mset] using h
  | cons f m ih =>
    obtain ⟨a, w⟩ := f
    simp only [mset] at h
    split at h
    · rcases List.mem_cons.1 h with h | h
      · exact .inl h
      · exact .inr (List.mem_cons_of_mem _ h)
    · split at h
      · rcases List.mem_cons.1 h with h | h
        · exact .inl h
        · exact .inr h
      · rcases List.mem_cons.1 h with h | h
        · exact .inr (h ▸ List.mem_cons_self)
        · exact (ih h).imp_right (List.mem_cons_of_mem _)

theorem mem_mdel {α : Type} {m : SMap α} {k : Nat} {e : Nat × α} (h : e ∈ mdel m k) : e ∈ m := List.mem_of_mem_filter h

/-! ### The canonical form of a byte memory -/

/-- The form as a chain of rising addresses over bytes that are not zero. -/
theorem Memory.wf_iff (m : List Host.Cell) :
    Memory.wf m = true ↔ (m.map Prod.fst).Pairwise (· < ·) ∧ ∀ c ∈ m, c.2 ≠ 0 := by
  induction m with
  | nil => simp [Memory.wf]
  | cons e m ih =>
    obtain ⟨a, b⟩ := e
    cases m with
    | nil => simp [Memory.wf]
    | cons f m =>
      obtain ⟨a', b'⟩ := f
      simp only [Memory.wf, Bool.and_eq_true, bne_iff_ne, ne_eq, decide_eq_true_eq, ih]
      constructor
      · rintro ⟨⟨hb, ha⟩, hp, hn⟩
        refine ⟨?_, ?_⟩
        · simp only [List.map_cons, List.pairwise_cons] at hp ⊢
          refine ⟨?_, hp⟩
          intro x hx
          rcases List.mem_cons.1 hx with rfl | hx
          · exact ha
          · exact Nat.lt_trans ha (hp.1 x hx)
        · intro c hc
          rcases List.mem_cons.1 hc with rfl | hc
          · exact hb
          · exact hn c hc
      · rintro ⟨hp, hn⟩
        simp only [List.map_cons, List.pairwise_cons] at hp
        refine ⟨⟨hn _ List.mem_cons_self, hp.1 a' List.mem_cons_self⟩, ?_, fun c hc => hn c (List.mem_cons_of_mem _ hc)⟩
        simpa using hp.2

theorem Memory.cellsOf_mem {a : Nat} {bs : List Byte} {c : Host.Cell} (h : c ∈ Memory.cellsOf a bs) :
    a ≤ c.1 ∧ c.1 < a + bs.length ∧ c.2 ≠ 0 := by
  induction bs generalizing a with
  | nil => simp [Memory.cellsOf] at h
  | cons b bs ih =>
    simp only [Memory.cellsOf] at h
    split at h
    · have := ih h
      exact ⟨by omega, by simp only [List.length_cons]; omega, this.2.2⟩
    · rcases List.mem_cons.1 h with rfl | h
      · simpa using ‹¬b = 0›
      · have := ih h
        exact ⟨by omega, by simp only [List.length_cons]; omega, this.2.2⟩

theorem Memory.cellsOf_sorted (a : Nat) (bs : List Byte) : ((Memory.cellsOf a bs).map Prod.fst).Pairwise (· < ·) := by
  induction bs generalizing a with
  | nil => simp [Memory.cellsOf]
  | cons b bs ih =>
    simp only [Memory.cellsOf]
    split
    · exact ih (a + 1)
    · simp only [List.map_cons, List.pairwise_cons]
      refine ⟨?_, ih (a + 1)⟩
      intro x hx
      obtain ⟨c, hc, rfl⟩ := List.mem_map.1 hx
      have := Memory.cellsOf_mem hc
      omega

/-- A sublist of a canonical memory is canonical. -/
theorem Memory.wf_filter {m : List Host.Cell} (p : Host.Cell → Bool) (h : Memory.wf m = true) :
    Memory.wf (m.filter p) = true := by
  rw [Memory.wf_iff] at h ⊢
  exact ⟨List.Pairwise.sublist (List.Sublist.map _ List.filter_sublist) h.1, fun c hc => h.2 c (List.mem_of_mem_filter hc)⟩

/-- Storing keeps the canonical form. -/
theorem Memory.write_wf {m : List Host.Cell} (a : Nat) (bs : List Byte) (h : Memory.wf m = true) :
    Memory.wf (Memory.write m a bs) = true := by
  have h0 := (Memory.wf_iff m).1 h
  rw [Memory.wf_iff]
  have hf := fun p => (Memory.wf_iff _).1 (Memory.wf_filter p h)
  constructor
  · simp only [Memory.write, List.map_append, List.pairwise_append]
    refine ⟨⟨(hf _).1, Memory.cellsOf_sorted a bs, ?_⟩, (hf _).1, ?_⟩
    · intro x hx y hy
      obtain ⟨c, hc, rfl⟩ := List.mem_map.1 hx
      obtain ⟨d, hd, rfl⟩ := List.mem_map.1 hy
      have h1 : c.1 < a := by simpa using (List.mem_filter.1 hc).2
      have h2 := Memory.cellsOf_mem hd
      omega
    · intro x hx y hy
      obtain ⟨d, hd, rfl⟩ := List.mem_map.1 hy
      have h2 : a + bs.length ≤ d.1 := by simpa using (List.mem_filter.1 hd).2
      rcases List.mem_append.1 hx with hx | hx
      · obtain ⟨c, hc, rfl⟩ := List.mem_map.1 hx
        have h1 : c.1 < a := by simpa using (List.mem_filter.1 hc).2
        omega
      · obtain ⟨c, hc, rfl⟩ := List.mem_map.1 hx
        have h1 := Memory.cellsOf_mem hc
        omega
  · intro c hc
    simp only [Memory.write, List.mem_append] at hc
    rcases hc with (hc | hc) | hc
    · exact h0.2 c (List.mem_of_mem_filter hc)
    · exact (Memory.cellsOf_mem hc).2.2
    · exact h0.2 c (List.mem_of_mem_filter hc)

/-! ### Reading what was written -/

theorem Memory.read_append (m n : List Host.Cell) (k : Nat) (h : ∀ c ∈ m, c.1 ≠ k) :
    Memory.read (m ++ n) k = Memory.read n k := by
  induction m with
  | nil => rfl
  | cons e m ih =>
    obtain ⟨a, b⟩ := e
    have h1 : ¬a = k := h _ List.mem_cons_self
    simp only [List.cons_append, Memory.read, h1, if_false]
    exact ih fun c hc => h c (List.mem_cons_of_mem _ hc)

theorem Memory.read_absent {m : List Host.Cell} {k : Nat} (h : ∀ c ∈ m, c.1 ≠ k) : Memory.read m k = 0 := by
  have := Memory.read_append m [] k h
  simpa [Memory.read] using this

theorem Memory.read_filter (m : List Host.Cell) (p : Host.Cell → Bool) (k : Nat) (h : ∀ b, p (k, b) = true) :
    Memory.read (m.filter p) k = Memory.read m k := by
  induction m with
  | nil => rfl
  | cons e m ih =>
    obtain ⟨a, b⟩ := e
    simp only [List.filter_cons]
    split
    · simp only [Memory.read, ih]
    · by_cases hk : a = k
      · subst hk; simp_all
      · simp [Memory.read, hk, ih]

/-- A store leaves every byte outside it alone. -/
theorem Memory.read_write_other (m : List Host.Cell) (a : Nat) (bs : List Byte) {k : Nat}
    (h : k < a ∨ a + bs.length ≤ k) : Memory.read (Memory.write m a bs) k = Memory.read m k := by
  have hc : ∀ c ∈ Memory.cellsOf a bs, c.1 ≠ k := fun c hc => by have := Memory.cellsOf_mem hc; omega
  rcases h with h | h
  · have h3 : ∀ c ∈ Memory.cellsOf a bs ++ m.filter (fun c => decide (a + bs.length ≤ c.1)), c.1 ≠ k := by
      intro c hm
      rcases List.mem_append.1 hm with hm | hm
      · exact hc c hm
      · have : a + bs.length ≤ c.1 := by simpa using (List.mem_filter.1 hm).2
        omega
    rw [← Memory.read_filter m (fun c => decide (c.1 < a)) k (fun b => by simpa using h), Memory.write, List.append_assoc]
    generalize m.filter (fun c => decide (c.1 < a)) = l
    induction l with
    | nil => simpa [Memory.read] using Memory.read_absent h3
    | cons e l ih => obtain ⟨x, b⟩ := e; simp only [List.cons_append, Memory.read, ih]
  · have h1 : ∀ c ∈ m.filter (fun c => decide (c.1 < a)) ++ Memory.cellsOf a bs, c.1 ≠ k := by
      intro c hm
      rcases List.mem_append.1 hm with hm | hm
      · have : c.1 < a := by simpa using (List.mem_filter.1 hm).2
        omega
      · exact hc c hm
    rw [Memory.write, Memory.read_append _ _ _ h1]
    exact Memory.read_filter m _ k (fun b => by simpa using h)

theorem Memory.read_cellsOf (a : Nat) (bs : List Byte) (n : List Host.Cell) (i : Nat) (hi : i < bs.length)
    (hn : ∀ c ∈ n, c.1 ≠ a + i) : Memory.read (Memory.cellsOf a bs ++ n) (a + i) = bs[i] := by
  induction bs generalizing a i with
  | nil => simp at hi
  | cons b bs ih =>
    simp only [Memory.cellsOf]
    cases i with
    | zero =>
      split
      · have : ∀ c ∈ Memory.cellsOf (a + 1) bs ++ n, c.1 ≠ a := by
          intro c hc
          rcases List.mem_append.1 hc with hc | hc
          · have := Memory.cellsOf_mem hc; omega
          · simpa using hn c hc
        simpa [Memory.read_absent this] using (‹b = 0›).symm
      · simp [Memory.read]
    | succ i =>
      have h := ih (a + 1) i (by simpa using hi) (fun c hc => by have := hn c hc; omega)
      have e : a + 1 + i = a + (i + 1) := by omega
      rw [e] at h
      split
      · simpa using h
      · have : ¬a = a + (i + 1) := by omega
        simpa [Memory.read, this] using h

/-- A store is read back. -/
theorem Memory.read_write_same (m : List Host.Cell) (a : Nat) (bs : List Byte) (i : Nat) (hi : i < bs.length) :
    Memory.read (Memory.write m a bs) (a + i) = bs[i] := by
  have h1 : ∀ c ∈ m.filter (fun c => decide (c.1 < a)), c.1 ≠ a + i := fun c hc => by
    have : c.1 < a := by simpa using (List.mem_filter.1 hc).2
    omega
  rw [Memory.write, List.append_assoc, Memory.read_append _ _ _ h1]
  refine Memory.read_cellsOf a bs _ i hi ?_
  intro c hc
  have : a + bs.length ≤ c.1 := by simpa using (List.mem_filter.1 hc).2
  omega

/-! ### The named maps of the state -/

@[simp] theorem State.warp_setWarp (s : State) (who : Nat) (w : Warp) : (s.setWarp who w).warp who = w := by
  simp [State.warp, State.setWarp]

theorem State.warp_setWarp_other (s : State) {who n : Nat} (w : Warp) (h : n ≠ who) : (s.setWarp who w).warp n = s.warp n := by
  simp [State.warp, State.setWarp, mgetD_mset_other _ _ _ h]

@[simp] theorem State.ctl_setCtl (s : State) (who : Nat) (c : WarpCtl) : (s.setCtl who c).ctl who = c := by
  simp [State.ctl, State.setCtl]

theorem State.ctl_setCtl_other (s : State) {who n : Nat} (c : WarpCtl) (h : n ≠ who) : (s.setCtl who c).ctl n = s.ctl n := by
  simp [State.ctl, State.setCtl, mgetD_mset_other _ _ _ h]

@[simp] theorem State.warp_setCtl (s : State) (who n : Nat) (c : WarpCtl) : (s.setCtl who c).warp n = s.warp n := rfl
@[simp] theorem State.ctl_setWarp (s : State) (who n : Nat) (w : Warp) : (s.setWarp who w).ctl n = s.ctl n := rfl

@[simp] theorem State.warp_modWarp (s : State) (who : Nat) (f : Warp → Warp) : (s.modWarp who f).warp who = f (s.warp who) := by
  simp [State.modWarp]

theorem State.warp_modWarp_other (s : State) {who n : Nat} (f : Warp → Warp) (h : n ≠ who) :
    (s.modWarp who f).warp n = s.warp n := State.warp_setWarp_other s _ h

@[simp] theorem State.ctl_modCtl (s : State) (who : Nat) (f : WarpCtl → WarpCtl) : (s.modCtl who f).ctl who = f (s.ctl who) := by
  simp [State.modCtl]

theorem State.ctl_modCtl_other (s : State) {who n : Nat} (f : WarpCtl → WarpCtl) (h : n ≠ who) :
    (s.modCtl who f).ctl n = s.ctl n := State.ctl_setCtl_other s _ h

@[simp] theorem State.warp_modCtl (s : State) (who n : Nat) (f : WarpCtl → WarpCtl) : (s.modCtl who f).warp n = s.warp n := rfl
@[simp] theorem State.ctl_modWarp (s : State) (who n : Nat) (f : Warp → Warp) : (s.modWarp who f).ctl n = s.ctl n := rfl

/-! ### Registers of a warp -/

@[simp] theorem Warp.sreg_setS (w : Warp) (n : Nat) (v : W64) : (w.setS n v).sreg n = v := by simp [Warp.sreg, Warp.setS]

theorem Warp.sreg_setS_other (w : Warp) {n m : Nat} (v : W64) (h : m ≠ n) : (w.setS n v).sreg m = w.sreg m := by
  simp [Warp.sreg, Warp.setS, mgetD_mset_other _ _ _ h]

theorem Warp.pred_setP (w : Warp) {n : Nat} (m : LaneMask) (h : n ≠ 7) : (w.setP n m).pred n = m := by
  simp [Warp.pred, Warp.setP, h]

theorem Warp.pred_setP_other (w : Warp) {n k : Nat} (m : LaneMask) (h : k ≠ n) : (w.setP n m).pred k = w.pred k := by
  simp [Warp.pred, Warp.setP, mgetD_mset_other _ _ _ h]

@[simp] theorem Warp.kmask_setK (w : Warp) (n : Nat) (m : LaneMask) : (w.setK n m).kmask n = m := by simp [Warp.kmask, Warp.setK]

@[simp] theorem Warp.flag_setFlag (w : Warp) (n v : Nat) : (w.setFlag n v).flag n = v := by simp [Warp.flag, Warp.setFlag]

@[simp] theorem Warp.xreg_setX (w : Warp) (j : Nat) (x : IdxReg) : (w.setX j x).xreg j = x := by simp [Warp.xreg, Warp.setX]

theorem Warp.xreg_setX_other (w : Warp) {j k : Nat} (x : IdxReg) (h : k ≠ j) : (w.setX j x).xreg k = w.xreg k := by
  simp [Warp.xreg, Warp.setX, mgetD_mset_other _ _ _ h]

@[simp] theorem Warp.block_setBlock (w : Warp) (b : Nat) (x : Block) : (w.setBlock b x).block b = x := by
  simp [Warp.block, Warp.setBlock]

theorem Warp.block_setBlock_other (w : Warp) {b c : Nat} (x : Block) (h : c ≠ b) : (w.setBlock b x).block c = w.block c := by
  simp [Warp.block, Warp.setBlock, mgetD_mset_other _ _ _ h]

/-- A register lane that was written reads as written. -/
@[simp] theorem Warp.reg_setReg (w : Warp) (r L : Nat) (v : LaneReg) : (w.setReg r L v).reg r L = v := by
  simp [Warp.reg, Warp.setReg]

/-- Every other register lane is left. -/
theorem Warp.reg_setReg_other (w : Warp) {r L q M : Nat} (v : LaneReg) (hL : L < 128) (hM : M < 128) (h : q ≠ r ∨ M ≠ L) :
    (w.setReg r L v).reg q M = w.reg q M := by
  unfold Warp.reg Warp.setReg
  by_cases hb : q / 8 = r / 8
  · have hk : 128 * (q % 8) + M ≠ 128 * (r % 8) + L := by omega
    simp only [hb, Warp.block_setBlock]
    exact mgetD_mset_other _ _ _ hk
  · simp [Warp.block_setBlock_other _ _ hb]

end Sys2Proof.Machine
end

