-- ==== Sys2Proof/Laws/Memory.lean ====
section
/-! SUPPORT. The operations over memory keep the byte memories canonical: stores, fetches and marks at a physical address or in
a workgroup's store, the writes of the host, the zeroing of bring-up and a cold reset. -/

namespace Sys2Proof

open Machine

/-- Only the cells and the workgroups matter. -/
theorem MemWf.congr {s t : State} (h : MemWf s) (hc : t.mem.cells = s.mem.cells) (hw : t.wgs = s.wgs) : MemWf t := by
  unfold MemWf at *
  rw [hc, hw]
  exact h

theorem memWf_reset : MemWf State.reset := ⟨rfl, fun _ h => by simp [State.reset] at h⟩

theorem MemWf.setWg {s : State} (h : MemWf s) (w : Wg) (hs : Memory.wf w.sp = true) (ha : Memory.wf w.ac = true) :
    MemWf (s.setWg w) := by
  refine ⟨h.1, fun e he => ?_⟩
  rcases mem_mset he with rfl | he
  · exact ⟨rfl, hs, ha⟩
  · exact h.2 e he

theorem mem_of_mget {α : Type} {m : SMap α} {k : Nat} {v : α} (h : mget m k = some v) : (k, v) ∈ m := by
  induction m with
  | nil => simp at h
  | cons e m ih =>
    obtain ⟨a, w⟩ := e
    simp only [mget] at h
    split at h
    · simp_all
    · exact List.mem_cons_of_mem _ (ih h)

/-- A change of one workgroup that keeps its two stores canonical. -/
theorem MemWf.modWg {s : State} (h : MemWf s) (g : Nat) (f : Wg → Wg)
    (hf : ∀ w, Memory.wf w.sp = true → Memory.wf w.ac = true → Memory.wf (f w).sp = true ∧ Memory.wf (f w).ac = true) :
    MemWf (s.modWg g f) := by
  unfold State.modWg
  cases hw : mget s.wgs g with
  | none => exact h
  | some w =>
    obtain ⟨-, h1, h2⟩ := h.2 _ (mem_of_mget hw)
    exact h.setWg _ (hf w h1 h2).1 (hf w h1 h2).2

theorem MemWf.foldl {α : Type} {f : State → α → State} (hf : ∀ s a, MemWf s → MemWf (f s a)) (l : List α) {s : State} (h : MemWf s) :
    MemWf (l.foldl f s) := by
  induction l generalizing s with
  | nil => exact h
  | cons a l ih => exact ih (hf s a h)

/-! ### Physical memory -/

theorem MemWf.rawWrite {s : State} (h : MemWf s) (pa : Nat) (bs : List Byte) : MemWf (s.rawWrite pa bs) :=
  ⟨Memory.write_wf pa bs h.1, h.2⟩

theorem MemWf.l2Write {s : State} (h : MemWf s) (pa : Nat) (bs : List Byte) : MemWf (s.l2Write pa bs) :=
  ⟨Memory.write_wf pa bs h.1, h.2⟩

theorem MemWf.record {s : State} (h : MemWf s) (core code warp : Nat) (data : W64) : MemWf (s.record core code warp data) := by
  unfold State.record
  split
  · exact h.congr rfl rfl
  · exact h

theorem MemWf.releaseGen {s : State} (h : MemWf s) (q : BdReq) : MemWf (s.releaseGen q) := by
  unfold State.releaseGen
  dsimp only
  split
  · exact h.congr rfl rfl
  · exact h

/-- What an access does while its requests are under way keeps the form. -/
theorem MemWf.holding {s : State} (h : MemWf s) (qs : List BdReq) {f : State → State} (hf : ∀ t, MemWf t → MemWf (f t)) :
    MemWf (s.holding qs f) := by
  unfold State.holding
  split
  · exact hf s h
  · have h1 : MemWf (f { s with mem := { s.mem with bdq := s.mem.bdq ++ qs } }) := hf _ (h.congr rfl rfl)
    exact MemWf.foldl (fun t q ht => ht.releaseGen q) _ ⟨h1.1, h1.2⟩

theorem MemWf.codeLine {s : State} (h : MemWf s) (line : Nat) : MemWf (s.codeLine line) := by
  unfold State.codeLine
  dsimp only
  split <;> exact h.congr rfl rfl

theorem MemWf.dropLine {s : State} (h : MemWf s) (line : Nat) : MemWf (s.dropLine line) := (h.codeLine line).releaseGen _

theorem MemWf.pick {s : State} (h : MemWf s) (n : Nat) : MemWf (s.pick n).2 := h.congr rfl rfl

theorem MemWf.l2Room {s : State} (h : MemWf s) (line : Nat) (keep : List Nat) : MemWf (s.l2Room line keep) := by
  unfold State.l2Room
  split
  · exact h
  · dsimp only
    split
    · exact h
    · exact MemWf.dropLine (MemWf.pick h _) _

theorem MemWf.takeSector {s : State} (h : MemWf s) (sec : Nat) (keep : List Nat) : MemWf (s.takeSector sec keep) :=
  (h.l2Room (sec / 4) keep).congr rfl rfl

theorem MemWf.postErr {s : State} (h : MemWf s) (c kind sub : Nat) (addr : W64) (r : Requester) (info : Nat)
    (keep : List Nat) : MemWf (s.postErr c kind sub addr r info keep) := by
  unfold State.postErr
  dsimp only
  split
  · exact h.congr rfl rfl
  · generalize hs : (s.takeSector (ringSlot (s.cluster c).errbase (s.cluster c).errhead 32 / 32) keep).l2Write
      (ringSlot (s.cluster c).errbase (s.cluster c).errhead 32)
      (toLe 32 (errRecord kind sub addr r info (s.cluster c).errhead).toNat) = u
    have h1 : MemWf u := hs ▸ (h.takeSector _ _).l2Write _ _
    have h2 : MemWf ((u.setCluster c { s.cluster c with errhead := (s.cluster c).errhead + 1 }).emit (.msix (512 + c))) :=
      h1.congr rfl rfl
    split
    · split
      · exact h2
      · exact h2.record _ _ _ _
    · exact h2

theorem MemWf.fetchSector {s : State} (h : MemWf s) (pa : Nat) (r : Requester) (keep : List Nat) :
    MemWf (s.fetchSector pa r keep) := by
  unfold State.fetchSector
  split
  · exact h
  · split
    · exact h
    · exact h.rawWrite _ _
    · exact h.congr rfl rfl
    · exact MemWf.postErr (h.congr (t := s.poisonSector (pa / 32)) rfl rfl) _ _ _ _ _ _ _

theorem MemWf.touchSector {s : State} (h : MemWf s) (sec : Nat) (r : Requester) (keep : List Nat) :
    MemWf (s.touchSector sec r keep) := by
  unfold State.touchSector
  split
  · exact h
  · dsimp only
    split
    · exact (h.fetchSector _ _ _).takeSector _ _
    · exact h.takeSector _ _

theorem MemWf.touch {s : State} (h : MemWf s) (pa n : Nat) (r : Requester) : MemWf (s.touch pa n r) := by
  unfold State.touch
  split
  · exact h
  · exact h.holding _ (fun t ht => MemWf.foldl (fun u k hu => hu.touchSector k r _) _ ht)

theorem MemWf.touchLine {s : State} (h : MemWf s) (line : Nat) (r : Requester) : MemWf (s.touchLine line r) := h.touch _ _ _

theorem MemWf.physWrite {s : State} (h : MemWf s) (pa : Nat) (bs : List Byte) (r : Requester) : MemWf (s.physWrite pa bs r) := by
  unfold State.physWrite
  split
  · exact h
  · dsimp only
    split
    all_goals
      first
        | apply MemWf.l2Write
        | skip
      refine h.holding _ (fun t0 h0 => MemWf.foldl (fun t k ht => ?_) _ h0)
      repeat' split
      · exact ht.touchSector _ _ _
      · exact ht
      · exact ht.takeSector _ _

theorem MemWf.physMark {s : State} (h : MemWf s) (secs : List Nat) : MemWf (s.physMark secs) :=
  MemWf.foldl (f := fun t k => t.poisonSector k) (fun _ _ ht => ht.congr rfl rfl) secs h

/-! ### Any location -/

theorem MemWf.locTouch {s : State} (h : MemWf s) (l : Loc) (n : Nat) (r : Requester) : MemWf (s.locTouch l n r) := by
  unfold State.locTouch
  split
  · split
    · exact h
    · exact h.touch _ _ _
  · exact h

theorem MemWf.locWrite {s : State} (h : MemWf s) (l : Loc) (bs : List Byte) (r : Requester) : MemWf (s.locWrite l bs r) := by
  unfold State.locWrite
  split
  · exact h.physWrite _ _ _
  · exact h.modWg _ _ (fun w h1 h2 => ⟨Memory.write_wf _ _ h1, h2⟩)
  · exact h.modWg _ _ (fun w h1 h2 => ⟨h1, Memory.write_wf _ _ h2⟩)

theorem MemWf.locMark {s : State} (h : MemWf s) (l : Loc) (n : Nat) : MemWf (s.locMark l n) := by
  unfold State.locMark
  split
  · exact h
  · split
    · split
      · exact h
      · exact h.physMark _
    · exact h.modWg _ _ (fun w h1 h2 => ⟨h1, h2⟩)
    · exact h.modWg _ _ (fun w h1 h2 => ⟨h1, h2⟩)

theorem MemWf.locSetSide {s : State} (h : MemWf s) (l : Loc) (v : W64) : MemWf (s.locSetSide l v) := by
  unfold State.locSetSide
  split
  · split
    · exact h.congr rfl rfl
    · exact h
  · exact h.modWg _ _ (fun w h1 h2 => ⟨h1, h2⟩)
  · exact h

theorem MemWf.writeParts {s : State} (h : MemWf s) (parts : List (Nat × Nat × Nat)) (bs : List Byte) (r : Requester) :
    MemWf (s.writeParts parts bs r) := by
  unfold State.writeParts
  exact MemWf.foldl (fun _ p ht => MemWf.physWrite ht _ _ _) parts h

theorem MemWf.touchParts {s : State} (h : MemWf s) (parts : List (Nat × Nat × Nat)) (r : Requester) :
    MemWf (s.touchParts parts r) := by
  unfold State.touchParts
  exact MemWf.foldl (fun _ p ht => MemWf.locTouch ht _ _ _) parts h

theorem MemWf.putRecord {s : State} (h : MemWf s) (j : Nat) (x : BitVec 256) : MemWf (s.putRecord j x) := by
  unfold State.putRecord
  dsimp only
  generalize hu : s.physWrite _ _ {} = u
  have h1 : MemWf u := hu ▸ h.physWrite _ _ _
  split <;> exact h1.congr rfl rfl

/-! ### What comes from outside -/

theorem MemWf.snoop {s : State} (h : MemWf s) (line : Nat) (d : Option (BitVec 1024)) : MemWf (s.snoop line d) := by
  unfold State.snoop
  split
  · exact h
  · split
    · exact h.congr rfl rfl
    · exact ⟨Memory.write_wf _ _ h.1, h.2⟩

/-- Wherever the raw places are lawful, the places a frame's sectors have are: within the frame, no two overlapping (R162). -/
theorem Frame.offset_placed (f : Frame) (h : f.placedBy (32 * ·) = true) : f.placedBy f.offset = true := by
  by_cases hc : (f.fmt != 0 && f.placedBy (Config.placement f.draw)) = true
  · have hp : f.offset = Config.placement f.draw := funext fun i => by simp only [Frame.offset, hc, if_true]
    rw [hp]; exact (Bool.and_eq_true_iff.1 hc).2
  · have hp : f.offset = (32 * ·) := funext fun i => by simp only [Frame.offset, hc]; rfl
    rw [hp]; exact h

theorem MemWf.evictLine {s : State} (h : MemWf s) (line : Nat) : MemWf (s.evictLine line) := (h.codeLine line).congr rfl rfl

/-- Zeroing leaves a part of a canonical memory. -/
theorem MemWf.zeroDevice {s : State} (h : MemWf s) (r : Regs) : MemWf { s with mem := s.mem.zeroDevice, regs := r } :=
  ⟨Memory.wf_filter _ h.1, h.2⟩

theorem MemWf.coldReset {s : State} (h : MemWf s) : MemWf s.coldReset := ⟨h.1, fun _ he => by simp [State.coldReset, State.keepInputs, State.reset] at he⟩

end Sys2Proof
end

