-- ==== Sys2Proof/Laws/PerInstr.lean ====
section
/-! SUPPORT. Laws made per instruction: how many words each instruction's encoding has (R239, R251). -/

namespace Sys2Proof.Laws.EncodeLength

/-- An instruction word takes one slot, a wide one two; an event has no words. -/
def Statement (i : Instr) : Prop := (encode i).length = if i.isWord then (if i.wide then 2 else 1) else 0

theorem nop : Statement (.nop) := rfl
theorem bra (x0) (x1) : Statement (.bra x0 x1) := rfl
theorem call (x0) (x1) : Statement (.call x0 x1) := rfl
theorem ret (x0) (x1) : Statement (.ret x0 x1) := rfl
theorem brx (x0) (x1) : Statement (.brx x0 x1) := rfl
theorem split (x0) : Statement (.split x0) := rfl
theorem join (x0) : Statement (.join x0) := rfl
theorem waitk (x0) : Statement (.waitk x0) := rfl
theorem reform (x0) (x1) (x2) : Statement (.reform x0 x1 x2) := rfl
theorem loop (x0) : Statement (.loop x0) := by cases x0 <;> rfl
theorem bar : Statement (.bar) := rfl
theorem convene : Statement (.convene) := rfl
theorem disband : Statement (.disband) := rfl
theorem exit (x0) : Statement (.exit x0) := rfl
theorem pand (x0) : Statement (.pand x0) := rfl
theorem por (x0) : Statement (.por x0) := rfl
theorem pxor (x0) : Statement (.pxor x0) := rfl
theorem pandn (x0) : Statement (.pandn x0) := rfl
theorem trap (x0) : Statement (.trap x0) := rfl
theorem sadd (x0) : Statement (.sadd x0) := rfl
theorem ssub (x0) : Statement (.ssub x0) := rfl
theorem sand (x0) : Statement (.sand x0) := rfl
theorem sor (x0) : Statement (.sor x0) := rfl
theorem sxor (x0) : Statement (.sxor x0) := rfl
theorem sshl (x0) : Statement (.sshl x0) := rfl
theorem sshr (x0) : Statement (.sshr x0) := rfl
theorem ssra (x0) : Statement (.ssra x0) := rfl
theorem smul (x0) : Statement (.smul x0) := rfl
theorem smulh (x0) : Statement (.smulh x0) := rfl
theorem smulhn (x0) : Statement (.smulhn x0) := rfl
theorem smin (x0) : Statement (.smin x0) := rfl
theorem sminn (x0) : Statement (.sminn x0) := rfl
theorem smax (x0) : Statement (.smax x0) := rfl
theorem smaxn (x0) : Statement (.smaxn x0) := rfl
theorem scmp (x0) (x1) : Statement (.scmp x0 x1) := rfl
theorem sdiv (x0) : Statement (.sdiv x0) := rfl
theorem sdivn (x0) : Statement (.sdivn x0) := rfl
theorem srem (x0) : Statement (.srem x0) := rfl
theorem sremn (x0) : Statement (.sremn x0) := rfl
theorem sclz (x0) (x1) : Statement (.sclz x0 x1) := rfl
theorem spopc (x0) (x1) : Statement (.spopc x0 x1) := rfl
theorem sbrev (x0) (x1) : Statement (.sbrev x0 x1) := rfl
theorem saddi (x0) (x1) : Statement (.saddi x0 x1) := rfl
theorem smovi (x0) (x1) : Statement (.smovi x0 x1) := rfl
theorem sshin (x0) (x1) : Statement (.sshin x0 x1) := rfl
theorem rte : Statement (.rte) := rfl
theorem vadd (x0) (x1) : Statement (.vadd x0 x1) := rfl
theorem vsub (x0) (x1) : Statement (.vsub x0 x1) := rfl
theorem vmul (x0) (x1) : Statement (.vmul x0 x1) := rfl
theorem vmulh (x0) (x1) : Statement (.vmulh x0 x1) := rfl
theorem vaddsat (x0) (x1) : Statement (.vaddsat x0 x1) := rfl
theorem vsubsat (x0) (x1) : Statement (.vsubsat x0 x1) := rfl
theorem vmin (x0) (x1) : Statement (.vmin x0 x1) := rfl
theorem vmax (x0) (x1) : Statement (.vmax x0 x1) := rfl
theorem vand (x0) (x1) : Statement (.vand x0 x1) := rfl
theorem vor (x0) (x1) : Statement (.vor x0 x1) := rfl
theorem vxor (x0) (x1) : Statement (.vxor x0 x1) := rfl
theorem vshl (x0) (x1) : Statement (.vshl x0 x1) := rfl
theorem vshr (x0) (x1) : Statement (.vshr x0 x1) := rfl
theorem vcmp (x0) (x1) (x2) : Statement (.vcmp x0 x1 x2) := rfl
theorem vmov (x0) (x1) : Statement (.vmov x0 x1) := rfl
theorem vclz (x0) : Statement (.vclz x0) := rfl
theorem vpopc (x0) : Statement (.vpopc x0) := rfl
theorem vbrev (x0) : Statement (.vbrev x0) := rfl
theorem vaddi (x0) (x1) : Statement (.vaddi x0 x1) := rfl
theorem vshli (x0) (x1) : Statement (.vshli x0 x1) := rfl
theorem vshri (x0) (x1) : Statement (.vshri x0 x1) := rfl
theorem vsrai (x0) (x1) : Statement (.vsrai x0 x1) := rfl
theorem vmovi (x0) (x1) (x2) : Statement (.vmovi x0 x1 x2) := rfl
theorem vbcast (x0) (x1) (x2) (x3) : Statement (.vbcast x0 x1 x2 x3) := rfl
theorem vreadl (x0) (x1) (x2) (x3) : Statement (.vreadl x0 x1 x2 x3) := rfl
theorem vfadd (x0) (x1) : Statement (.vfadd x0 x1) := rfl
theorem vfsub (x0) (x1) : Statement (.vfsub x0 x1) := rfl
theorem vfmul (x0) (x1) : Statement (.vfmul x0 x1) := rfl
theorem vfma (x0) (x1) : Statement (.vfma x0 x1) := rfl
theorem vfmin (x0) (x1) : Statement (.vfmin x0 x1) := rfl
theorem vfmax (x0) (x1) : Statement (.vfmax x0 x1) := rfl
theorem vfcmp (x0) (x1) (x2) : Statement (.vfcmp x0 x1 x2) := rfl
theorem vfdiv (x0) (x1) : Statement (.vfdiv x0 x1) := rfl
theorem vfsqrt (x0) (x1) : Statement (.vfsqrt x0 x1) := rfl
theorem vfopx (x0) (x1) (x2) (x3) (x4) : Statement (.vfopx x0 x1 x2 x3 x4) := rfl
theorem vcvt (x0) (x1) (x2) (x3) (x4) : Statement (.vcvt x0 x1 x2 x3 x4) := by cases x0 <;> rfl
theorem mxmax (x0) : Statement (.mxmax x0) := rfl
theorem mxscale (x0) (x1) (x2) : Statement (.mxscale x0 x1 x2) := rfl
theorem mxq (x0) (x1) (x2) (x3) (x4) : Statement (.mxq x0 x1 x2 x3 x4) := rfl
theorem mxdq (x0) (x1) (x2) : Statement (.mxdq x0 x1 x2) := rfl
theorem vshfl (x0) (x1) : Statement (.vshfl x0 x1) := rfl
theorem vred (x0) (x1) (x2) (x3) : Statement (.vred x0 x1 x2 x3) := rfl
theorem vscan (x0) (x1) (x2) (x3) (x4) : Statement (.vscan x0 x1 x2 x3 x4) := rfl
theorem vballot (x0) (x1) (x2) : Statement (.vballot x0 x1 x2) := rfl
theorem vmerge (x0) (x1) (x2) (x3) : Statement (.vmerge x0 x1 x2 x3) := rfl
theorem vid (x0) (x1) (x2) : Statement (.vid x0 x1 x2) := rfl
theorem xset (x0) (x1) (x2) (x3) (x4) (x5) : Statement (.xset x0 x1 x2 x3 x4 x5) := rfl
theorem xldv (x0) (x1) (x2) : Statement (.xldv x0 x1 x2) := rfl
theorem xgetv (x0) (x1) (x2) (x3) : Statement (.xgetv x0 x1 x2 x3) := rfl
theorem rgrow (x0) : Statement (.rgrow x0) := rfl
theorem rshrink (x0) : Statement (.rshrink x0) := rfl
theorem vclmul (x0) (x1) : Statement (.vclmul x0 x1) := rfl
theorem vmad24 (x0) (x1) : Statement (.vmad24 x0 x1) := rfl
theorem ld (x0) (x1) : Statement (.ld x0 x1) := rfl
theorem st (x0) (x1) : Statement (.st x0 x1) := rfl
theorem atom (x0) : Statement (.atom x0) := rfl
theorem ldmx (x0) : Statement (.ldmx x0) := rfl
theorem stmx (x0) : Statement (.stmx x0) := rfl
theorem fence (x0) (x1) : Statement (.fence x0 x1) := rfl
theorem prefetchL2 (x0) (x1) (x2) (x3) : Statement (.prefetchL2 x0 x1 x2 x3) := rfl
theorem twait (x0) (x1) (x2) : Statement (.twait x0 x1 x2) := rfl
theorem ifence : Statement (.ifence) := rfl
theorem copy (x0) : Statement (.copy x0) := rfl
theorem collLoad (x0) : Statement (.collLoad x0) := rfl
theorem collRun (x0) : Statement (.collRun x0) := rfl
theorem mma (x0) : Statement (.mma x0) := rfl
theorem compress (x0) (x1) (x2) : Statement (.compress x0 x1 x2) := rfl
theorem accz (x0) (x1) : Statement (.accz x0 x1) := rfl
theorem accmvOut (x0) (x1) (x2) (x3) : Statement (.accmvOut x0 x1 x2 x3) := rfl
theorem accmvIn (x0) (x1) (x2) (x3) : Statement (.accmvIn x0 x1 x2 x3) := rfl
theorem attn (x0) : Statement (.attn x0) := rfl
theorem kvwalk (x0) : Statement (.kvwalk x0) := rfl
theorem kvappend (x0) : Statement (.kvappend x0) := rfl
theorem kvcommit (x0) : Statement (.kvcommit x0) := rfl
theorem geoOrient2 (x0) : Statement (.geoOrient2 x0) := rfl
theorem geoOrient3 (x0) : Statement (.geoOrient3 x0) := rfl
theorem geoIncirc (x0) : Statement (.geoIncirc x0) := rfl
theorem geoInsphr (x0) : Statement (.geoInsphr x0) := rfl
theorem geoSegx (x0) : Statement (.geoSegx x0) := rfl
theorem launch (x0) (x1) (x2) (x3) : Statement (.launch x0 x1 x2 x3) := rfl
theorem waitsem (x0) (x1) (x2) : Statement (.waitsem x0 x1 x2) := rfl
theorem signalsemSet (x0) (x1) : Statement (.signalsemSet x0 x1) := rfl
theorem signalsemAdd (x0) (x1) : Statement (.signalsemAdd x0 x1) := rfl
theorem event (x0) (x1) (x2) : Statement (.event x0 x1 x2) := rfl
theorem csrr (x0) (x1) : Statement (.csrr x0 x1) := rfl
theorem csrw (x0) (x1) : Statement (.csrw x0 x1) := rfl
theorem featq (x0) (x1) : Statement (.featq x0 x1) := rfl
theorem tlbinvPage (x0) (x1) : Statement (.tlbinvPage x0 x1) := rfl
theorem tlbinvCtx : Statement (.tlbinvCtx) := rfl
theorem tlbinvAll : Statement (.tlbinvAll) := rfl
theorem instructionFetch (x0) (x1) : Statement (.instructionFetch x0 x1) := rfl
theorem asyncTrapDelivery (x0) (x1) : Statement (.asyncTrapDelivery x0 x1) := rfl
theorem reformFile (x0) : Statement (.reformFile x0) := rfl
theorem reformBinAge (x0) (x1) : Statement (.reformBinAge x0 x1) := rfl
theorem reformBinIssue (x0) : Statement (.reformBinIssue x0) := rfl
theorem blockGrant (x0) : Statement (.blockGrant x0) := rfl
theorem growthDeadlock (x0) : Statement (.growthDeadlock x0) := rfl
theorem readmission (x0) : Statement (.readmission x0) := rfl
theorem blockFill (x0) (x1) : Statement (.blockFill x0 x1) := rfl
theorem blockWriteback (x0) (x1) : Statement (.blockWriteback x0 x1) := rfl
theorem warpRetire (x0) : Statement (.warpRetire x0) := rfl
theorem gridRetire (x0) : Statement (.gridRetire x0) := rfl
theorem launchDescriptorRead (x0) : Statement (.launchDescriptorRead x0) := rfl
theorem launchAccept (x0) : Statement (.launchAccept x0) := rfl
theorem pageWalk (x0) : Statement (.pageWalk x0) := rfl
theorem faultRecordPost (x0) : Statement (.faultRecordPost x0) := rfl
theorem frespReplay (x0) (x1) : Statement (.frespReplay x0 x1) := rfl
theorem frespNomap (x0) (x1) : Statement (.frespNomap x0 x1) := rfl
theorem frespProt (x0) (x1) : Statement (.frespProt x0 x1) := rfl
theorem fqtailWrite (x0) (x1) : Statement (.fqtailWrite x0 x1) := rfl
theorem evqtailWrite (x0) (x1) : Statement (.evqtailWrite x0 x1) := rfl
theorem errtailWrite (x0) (x1) : Statement (.errtailWrite x0 x1) := rfl
theorem tlbInvalidationComplete (x0) : Statement (.tlbInvalidationComplete x0) := rfl
theorem ldComplete (x0) : Statement (.ldComplete x0) := rfl
theorem storePerformed (x0) : Statement (.storePerformed x0) := rfl
theorem atomComplete (x0) : Statement (.atomComplete x0) := rfl
theorem l1Fill (x0) (x1) : Statement (.l1Fill x0 x1) := rfl
theorem heldInvalidate (x0) : Statement (.heldInvalidate x0) := rfl
theorem baseDieRequest (x0) : Statement (.baseDieRequest x0) := rfl
theorem hostMemRequest (x0) : Statement (.hostMemRequest x0) := rfl
theorem ualRemoteRequest (x0) : Statement (.ualRemoteRequest x0) := rfl
theorem ualRequestTimeout (x0) : Statement (.ualRequestTimeout x0) := rfl
theorem ualPortDown (x0) : Statement (.ualPortDown x0) := rfl
theorem ualPortUp (x0) : Statement (.ualPortUp x0) := rfl
theorem cxcmdLoadslot : Statement (.cxcmdLoadslot) := rfl
theorem slotGenerationInstall (x0) : Statement (.slotGenerationInstall x0) := rfl
theorem cxcmdRecode : Statement (.cxcmdRecode) := rfl
theorem cxcmdDump : Statement (.cxcmdDump) := rfl
theorem copyComplete (x0) : Statement (.copyComplete x0) := rfl
theorem prefetchComplete (x0) : Statement (.prefetchComplete x0) := rfl
theorem twaitPoll (x0) : Statement (.twaitPoll x0) := rfl
theorem matrixOpComplete (x0) : Statement (.matrixOpComplete x0) := rfl
theorem attnComplete (x0) : Statement (.attnComplete x0) := rfl
theorem emulatedOpComplete (x0) : Statement (.emulatedOpComplete x0) := rfl
theorem kvWordComplete (x0) : Statement (.kvWordComplete x0) := rfl
theorem kvcommitWrite (x0) : Statement (.kvcommitWrite x0) := rfl
theorem kvLockRetry (x0) : Statement (.kvLockRetry x0) := rfl
theorem geoStageA (x0) : Statement (.geoStageA x0) := rfl
theorem geoExactLane (x0) (x1) (x2) : Statement (.geoExactLane x0 x1 x2) := rfl
theorem geoComplete (x0) : Statement (.geoComplete x0) := rfl
theorem collLoadExecute (x0) : Statement (.collLoadExecute x0) := rfl
theorem collRunStart (x0) : Statement (.collRunStart x0) := rfl
theorem creditArrival (x0) (x1) (x2) (x3) (x4) : Statement (.creditArrival x0 x1 x2 x3 x4) := rfl
theorem chunkArrival (x0) (x1) (x2) (x3) (x4) (x5) (x6) : Statement (.chunkArrival x0 x1 x2 x3 x4 x5 x6) := rfl
theorem chunkAckArrival (x0) (x1) (x2) (x3) (x4) : Statement (.chunkAckArrival x0 x1 x2 x3 x4) := rfl
theorem datapathPiece (x0) : Statement (.datapathPiece x0) := rfl
theorem collSignal (x0) (x1) : Statement (.collSignal x0 x1) := rfl
theorem collWaitPoll (x0) (x1) : Statement (.collWaitPoll x0 x1) := rfl
theorem chunkRetransmit (x0) (x1) : Statement (.chunkRetransmit x0 x1) := rfl
theorem chunkAbandon (x0) (x1) : Statement (.chunkAbandon x0 x1) := rfl
theorem collRunTimeout (x0) : Statement (.collRunTimeout x0) := rfl
theorem dispatchStep (x0) : Statement (.dispatchStep x0) := rfl
theorem dispatchReserveTimeout (x0) : Statement (.dispatchReserveTimeout x0) := rfl
theorem partitionChange (x0) : Statement (.partitionChange x0) := rfl
theorem preemptBoundary (x0) : Statement (.preemptBoundary x0) := rfl
theorem preemptHandover (x0) : Statement (.preemptHandover x0) := rfl
theorem saveRecordComplete (x0) : Statement (.saveRecordComplete x0) := rfl
theorem warpBump (x0) : Statement (.warpBump x0) := rfl
theorem strctlGo (x0) : Statement (.strctlGo x0) := rfl
theorem strctlHalt (x0) : Statement (.strctlHalt x0) := rfl
theorem waitsemPoll (x0) : Statement (.waitsemPoll x0) := rfl
theorem eventRecordPost (x0) : Statement (.eventRecordPost x0) := rfl
theorem tlbireqPage : Statement (.tlbireqPage) := rfl
theorem tlbireqContext : Statement (.tlbireqContext) := rfl
theorem tlbireqAll : Statement (.tlbireqAll) := rfl
theorem ctxcmdSuspend : Statement (.ctxcmdSuspend) := rfl
theorem ctxcmdResume : Statement (.ctxcmdResume) := rfl
theorem ctxcmdEnd : Statement (.ctxcmdEnd) := rfl
theorem attcmdQuote : Statement (.attcmdQuote) := rfl
theorem attcmdDump : Statement (.attcmdDump) := rfl
theorem bootctlGo : Statement (.bootctlGo) := rfl
theorem bootctlWarm : Statement (.bootctlWarm) := rfl
theorem coldReset : Statement (.coldReset) := rfl
theorem warmWritebackDone (x0) : Statement (.warmWritebackDone x0) := rfl
theorem bootSelftestDone (x0) : Statement (.bootSelftestDone x0) := rfl
theorem imageVerified : Statement (.imageVerified) := rfl
theorem bootZeroingDone : Statement (.bootZeroingDone) := rfl
theorem bootReady : Statement (.bootReady) := rfl
theorem powerWindow (x0) (x1) : Statement (.powerWindow x0 x1) := rfl
theorem thermalTrip : Statement (.thermalTrip) := rfl
theorem registerWrite (x0) (x1) (x2) : Statement (.registerWrite x0 x1 x2) := rfl
theorem cxlCacheSnoop (x0) (x1) : Statement (.cxlCacheSnoop x0 x1) := rfl
theorem linkLevelRetry (x0) : Statement (.linkLevelRetry x0) := rfl

end Sys2Proof.Laws.EncodeLength
end

