-- ==== Sys2Proof/Laws/Words.lean ====
section
/-! SUPPORT. Issuing words: what the checks answer, what ending a word changes, and what the shared result writers leave. -/

namespace Sys2Proof.Machine

/-! ### Ready words run their bodies -/

theorem State.readyWith_eq {s : State} {i : Instr} {pre align : Issue → State → Option (Cause × Info)} {is : Issue}
    (h : s.readyWith i pre align = some is) :
    s.issueOf i = some is ∧ s.illegalHere is = false ∧ pre is s = none ∧ s.boundTrap is = none ∧ s.held is = false ∧
      s.issueTrap is align = none := by
  unfold State.readyWith at h
  cases hi : s.issueOf i with
  | none => simp [hi] at h
  | some js =>
    simp only [hi, Option.bind_some] at h
    split at h
    · rename_i hc
      simp only [Option.some.injEq] at h
      subst h
      simpa [and_assoc] using hc
    · exact absurd h (by simp)

/-- A ready word runs its body. -/
theorem runWordWith_ready {s : State} {i : Instr} {pre align : Issue → State → Option (Cause × Info)} {is : Issue}
    (body : Issue → State → Act) (h : s.readyWith i pre align = some is) :
    runWordWith i pre align body s = .next (s.runBody is body) := by
  obtain ⟨h0, h1, h2, h3, h4, h5⟩ := State.readyWith_eq h
  simp [runWordWith, h0, State.issueWord, h1, h2, h3, h4, h5]

theorem runWord_ready {s : State} {i : Instr} {is : Issue} (body : Issue → State → Act) (h : s.ready i = some is) :
    runWord i body s = .next (s.runBody is body) := runWordWith_ready body h

/-- What an Issue says of the state it was made in. -/
theorem State.issueOf_eq {s : State} {i : Instr} {is : Issue} (h : s.issueOf i = some is) :
    is.i = i ∧ ∃ c p, s.cur = some c ∧ c.who = is.who ∧ c.lane = is.lane ∧ (s.warp is.who).pathAt is.lane = some p ∧
      is.path = p.mask ∧ is.pc = p.pc ∧ is.handler = p.handler ∧ is.ctx = (s.warp is.who).ctx ∧
      is.mask = guardMask is.w (guardOfI i) is.path ∧ (c.group = none → is.w = s.warp is.who) := by
  unfold State.issueOf at h
  cases hc : s.cur with
  | none => simp [hc] at h
  | some c =>
    simp only [hc, Option.bind_some, Option.map_eq_some_iff] at h
    obtain ⟨p, hp, rfl⟩ := h
    refine ⟨rfl, c, p, rfl, rfl, rfl, hp, rfl, rfl, rfl, rfl, rfl, ?_⟩
    intro hg
    simp [hg]

theorem State.ready_issue {s : State} {i : Instr} {is : Issue} {pre align : Issue → State → Option (Cause × Info)}
    (h : s.readyWith i pre align = some is) : is.i = i ∧ ∀ c, s.cur = some c → c.who = is.who := by
  obtain ⟨hi, c, p, hc, hw, _⟩ := State.issueOf_eq (State.readyWith_eq h).1
  refine ⟨hi, fun d hd => ?_⟩
  rw [hc] at hd
  cases hd
  exact hw

/-! ### Index changes and where a path goes -/

theorem applyDeltas_nox (w : Warp) (ds : SMap Int) : { applyDeltas w ds with x := [] } = { w with x := [] } := by
  unfold applyDeltas
  induction ds generalizing w with
  | nil => rfl
  | cons e ds ih =>
    simp only [List.foldl_cons]
    rw [ih]
    split
    · rfl
    · rfl

theorem applyDeltas_nil (w : Warp) : applyDeltas w [] = w := rfl

theorem applyDeltas_x {w v : Warp} (ds : SMap Int) (h : w.x = v.x) : (applyDeltas w ds).x = (applyDeltas v ds).x := by
  unfold applyDeltas
  induction ds generalizing w v with
  | nil => exact h
  | cons e ds ih =>
    simp only [List.foldl_cons]
    apply ih
    have hx : w.xreg (e.1 / 128) = v.xreg (e.1 / 128) := by simp [Warp.xreg, h]
    simp only [hx]
    split
    · exact h
    · simp [Warp.setX, h]

/-- A warp without where its paths stand. -/
def Warp.nopc (w : Warp) : Warp := { w with paths := [], l0 := {}, l1 := {} }

theorem Warp.advance_nopc (w : Warp) (lane : Nat) (pc : W64) (n : Nat) : (w.advance lane pc n).nopc = w.nopc := by
  unfold Warp.advance
  split
  · rfl
  · split
    · rfl
    · rfl

theorem xDeltas_none (w : Warp) (us : List VUse) (mask : LaneMask) (h : ∀ j, namesX us j = false) : xDeltas w us mask = [] := by
  simp [xDeltas, h]

/-! ### The end of a word -/

/-- What lies between the body of a word and the state it leaves. -/
structure WordEnd (s t : State) (is : Issue) : Prop where
  frame : WordFrame s t is.who
  ops : s.alone = true → t.mops = s.mops ∧ t.eops = s.eops
  regs : { (t.warp is.who).nopc with x := [], arstat := 0 } = { (s.warp is.who).nopc with x := [], arstat := 0 }
  alone : s.alone = true → (t.warp is.who).arstat = (s.warp is.who).arstat ∧
    (t.warp is.who).x = (applyDeltas (s.warp is.who) (xDeltas is.w (vuses is.i) is.mask)).x

theorem WordFrame.refl (s : State) (who : Nat) : WordFrame s s who := ⟨rfl, rfl, rfl, fun _ _ => ⟨rfl, rfl⟩, rfl⟩

theorem WordFrame.trans {s t u : State} {who : Nat} (h : WordFrame s t who) (k : WordFrame t u who) : WordFrame s u who :=
  ⟨k.world.trans h.world, k.mops.trans h.mops, k.eops.trans h.eops, fun n hn => ⟨(k.others n hn).1.trans (h.others n hn).1, (k.others n hn).2.trans (h.others n hn).2⟩,
    k.ctl.trans h.ctl⟩

theorem WordFrame.modWarp (s : State) (who : Nat) (f : Warp → Warp) : WordFrame s (s.modWarp who f) who :=
  ⟨rfl, rfl, rfl, fun _ hn => ⟨State.warp_modWarp_other s f hn, rfl⟩, rfl⟩

theorem WordFrame.cur (s : State) (who : Nat) (c : Option Cur) : WordFrame s { s with cur := c } who :=
  ⟨rfl, rfl, rfl, fun _ _ => ⟨rfl, rfl⟩, rfl⟩

/-- A group of the word's thread writes only the note of what its later members have written. -/
theorem State.outwrite_frame (s : State) (is : Issue) (who : Nat) : WordFrame s (s.outwrite is) who := by
  unfold State.outwrite
  cases s.cur.bind Cur.group with
  | none => exact WordFrame.refl s who
  | some g =>
    refine ⟨rfl, ?_, ?_, fun _ _ => ⟨rfl, rfl⟩, rfl⟩
    · simp only [State.mopsPlain, List.map_map]
      refine List.map_congr_left fun e _ => ?_
      simp only [Function.comp_apply]
      split <;> rfl
    · simp only [State.eopsPlain, List.map_map]
      refine List.map_congr_left fun e _ => ?_
      simp only [Function.comp_apply]
      split <;> rfl

@[simp] theorem State.warp_outwrite (s : State) (is : Issue) (n : Nat) : (s.outwrite is).warp n = s.warp n := by
  unfold State.outwrite
  split <;> rfl

@[simp] theorem State.cur_outwrite (s : State) (is : Issue) : (s.outwrite is).cur = s.cur := by
  unfold State.outwrite
  split <;> rfl

theorem State.outwrite_alone (s : State) (is : Issue) (h : s.alone = true) : s.outwrite is = s := by
  have : s.cur.bind Cur.group = none := by simpa [State.alone] using h
  simp [State.outwrite, this]

theorem State.closeGroup_frame (s : State) (who : Nat) (h : ∀ c, s.cur = some c → c.who = who) :
    WordFrame s s.closeGroup who := by
  unfold State.closeGroup
  cases hc : s.cur with
  | none => simpa [← hc] using WordFrame.refl s who
  | some c =>
    have hw := h c hc
    subst hw
    cases hg : c.group with
    | none => simpa [hg] using WordFrame.cur s c.who none
    | some g =>
      simp only [hg]
      exact (WordFrame.modWarp s c.who _).trans (WordFrame.cur _ c.who none)

theorem State.closeGroup_regs (s : State) (who : Nat) (h : ∀ c, s.cur = some c → c.who = who) :
    { (s.closeGroup.warp who).nopc with x := [], arstat := 0 } = { (s.warp who).nopc with x := [], arstat := 0 } := by
  unfold State.closeGroup
  cases hc : s.cur with
  | none => rfl
  | some c =>
    have hw := h c hc
    subst hw
    cases hg : c.group with
    | none => simp only [hg]; rfl
    | some g =>
      simp only [hg]
      have e : ∀ (x : State), (({ x with cur := none } : State).warp c.who) = x.warp c.who := fun _ => rfl
      rw [e, State.warp_modWarp]
      have k := applyDeltas_nox (s.warp c.who) g.incs
      simp only [Warp.nopc]
      simp only [Warp.mk.injEq] at k ⊢
      simp [Warp.endGroup, k]

/-- Closing a group changes only the index registers and ARSTAT. -/
theorem State.closeGroup_warp (s : State) (who : Nat) (h : ∀ c, s.cur = some c → c.who = who) :
    { (s.closeGroup.warp who) with x := [], arstat := 0 } = { (s.warp who) with x := [], arstat := 0 } := by
  unfold State.closeGroup
  cases hc : s.cur with
  | none => rfl
  | some c =>
    have hw := h c hc
    subst hw
    cases hg : c.group with
    | none => simp only [hg]; rfl
    | some g =>
      simp only [hg]
      have e : ∀ (x : State), (({ x with cur := none } : State).warp c.who) = x.warp c.who := fun _ => rfl
      rw [e, State.warp_modWarp]
      have k := applyDeltas_nox (s.warp c.who) g.incs
      simp only [Warp.mk.injEq] at k ⊢
      simp [Warp.endGroup, k]

theorem State.closeGroup_alone (s : State) (h : s.alone = true) : s.closeGroup = { s with cur := none } := by
  unfold State.closeGroup
  cases hc : s.cur with
  | none => simp [← hc]
  | some c =>
    cases hg : c.group with
    | none => simp [hg]
    | some g => simp [State.alone, hc, hg] at h

/-- Keeping a group open touches the thread alone. -/
theorem State.holdGroup_world (s : State) (who lane : Nat) (g : Group) :
    { s.holdGroup who lane g with warps := [], ctls := [] } = { s with warps := [], ctls := [] } := rfl

/-- Closing a group touches warps alone. -/
theorem State.closeGroup_world (s : State) : { s.closeGroup with warps := [], cur := none } = { s with warps := [], cur := none } := by
  unfold State.closeGroup
  split
  · rfl
  · simp only
    split <;> rfl

theorem State.mops_closeGroup (s : State) : s.closeGroup.mops = s.mops ∧ s.closeGroup.eops = s.eops := by
  unfold State.closeGroup
  split
  · exact ⟨rfl, rfl⟩
  · simp only
    split <;> exact ⟨rfl, rfl⟩

theorem State.noteIssue_frame (s : State) (is : Issue) : WordFrame s (s.noteIssue is) is.who := by
  refine ⟨rfl, rfl, rfl, fun n hn => ⟨rfl, State.ctl_modCtl_other s _ hn⟩, ?_⟩
  simp [State.noteIssue, WarpCtl.unissued]

theorem State.countDeltas_frame (s : State) (is : Issue) : WordFrame s (s.countDeltas is) is.who := by
  unfold State.countDeltas
  simp only
  split
  · exact WordFrame.cur s _ _
  · exact WordFrame.modWarp s _ _

theorem State.countDeltas_cur (s : State) (is : Issue) (h : ∀ c, s.cur = some c → c.who = is.who) :
    ∀ c, (s.countDeltas is).cur = some c → c.who = is.who := by
  unfold State.countDeltas
  simp only
  split
  · rename_i g c hg hc
    intro d hd
    simp only [Option.some.injEq] at hd
    subst hd
    exact h c hc
  · intro d hd
    exact h d hd

theorem State.countDeltas_alone (s : State) (is : Issue) (h : s.alone = true) :
    s.countDeltas is = s.modWarp is.who (fun w => applyDeltas w (xDeltas is.w (vuses is.i) is.mask)) := by
  unfold State.countDeltas
  have : s.cur.bind Cur.group = none := by simpa [State.alone] using h
  simp [this]

theorem State.countDeltas_regs (s : State) (is : Issue) :
    { ((s.countDeltas is).warp is.who).nopc with x := [], arstat := 0 } = { (s.warp is.who).nopc with x := [], arstat := 0 } := by
  unfold State.countDeltas
  simp only
  split
  · rfl
  · rw [State.warp_modWarp]
    have k := applyDeltas_nox (s.warp is.who) (xDeltas is.w (vuses is.i) is.mask)
    simp only [Warp.nopc]
    simp only [Warp.mk.injEq] at k ⊢
    simp [k]

/-- The end of a word after the note of its group. -/
def State.finishIssue (s : State) (is : Issue) : State :=
  let s1 := ((s.countDeltas is).modWarp is.who (fun w => w.advance is.lane is.pc (slotsOf is.i))).noteIssue is
  if (s1.cur.map Cur.chain).getD false then s1 else s1.closeGroup

theorem State.finish_eq (s : State) (is : Issue) : s.finish is = (s.outwrite is).finishIssue is := rfl

theorem State.mops_countDeltas (s : State) (is : Issue) : (s.countDeltas is).mops = s.mops ∧ (s.countDeltas is).eops = s.eops := by
  unfold State.countDeltas
  simp only
  split <;> exact ⟨rfl, rfl⟩

/-- Ending a word moves its path, counts its index changes and closes its group; nothing else changes. -/
theorem State.finishIssue_end (s : State) (is : Issue) (h : ∀ c, s.cur = some c → c.who = is.who) : WordEnd s (s.finishIssue is) is := by
  have hc := State.countDeltas_cur s is h
  have hn : ∀ c, (((s.countDeltas is).modWarp is.who (fun w => w.advance is.lane is.pc (slotsOf is.i))).noteIssue is).cur = some c →
      c.who = is.who := hc
  have f1 : WordFrame s (((s.countDeltas is).modWarp is.who (fun w => w.advance is.lane is.pc (slotsOf is.i))).noteIssue is) is.who :=
    ((State.countDeltas_frame s is).trans (WordFrame.modWarp _ _ _)).trans (State.noteIssue_frame _ _)
  have r1 : { ((((s.countDeltas is).modWarp is.who (fun w => w.advance is.lane is.pc (slotsOf is.i))).noteIssue is).warp is.who).nopc
      with x := [], arstat := 0 } = { (s.warp is.who).nopc with x := [], arstat := 0 } := by
    have e : (((s.countDeltas is).modWarp is.who (fun w => w.advance is.lane is.pc (slotsOf is.i))).noteIssue is).warp is.who =
        ((s.countDeltas is).warp is.who).advance is.lane is.pc (slotsOf is.i) := by simp [State.noteIssue]
    rw [e, Warp.advance_nopc, State.countDeltas_regs]
  have a1 : s.alone = true →
      ((((s.countDeltas is).modWarp is.who (fun w => w.advance is.lane is.pc (slotsOf is.i))).noteIssue is).warp is.who).arstat =
        (s.warp is.who).arstat ∧
      ((((s.countDeltas is).modWarp is.who (fun w => w.advance is.lane is.pc (slotsOf is.i))).noteIssue is).warp is.who).x =
        (applyDeltas (s.warp is.who) (xDeltas is.w (vuses is.i) is.mask)).x := by
    intro ha
    have e : (((s.countDeltas is).modWarp is.who (fun w => w.advance is.lane is.pc (slotsOf is.i))).noteIssue is).warp is.who =
        (applyDeltas (s.warp is.who) (xDeltas is.w (vuses is.i) is.mask)).advance is.lane is.pc (slotsOf is.i) := by
      simp [State.noteIssue, State.countDeltas_alone s is ha]
    have k := Warp.advance_nopc (applyDeltas (s.warp is.who) (xDeltas is.w (vuses is.i) is.mask)) is.lane is.pc (slotsOf is.i)
    have k2 := applyDeltas_nox (s.warp is.who) (xDeltas is.w (vuses is.i) is.mask)
    simp only [Warp.nopc, Warp.mk.injEq] at k k2
    rw [e]
    exact ⟨by simp [k, k2], by simp [k]⟩
  unfold State.finishIssue
  simp only
  split
  · exact ⟨f1, fun _ => State.mops_countDeltas s is, r1, a1⟩
  · refine ⟨f1.trans (State.closeGroup_frame _ _ hn), fun _ => ?_, (State.closeGroup_regs _ _ hn).trans r1, fun ha => ?_⟩
    · obtain ⟨k1, k2⟩ := State.mops_closeGroup (((s.countDeltas is).modWarp is.who (fun w => w.advance is.lane is.pc (slotsOf is.i))).noteIssue is)
      obtain ⟨m1, m2⟩ := State.mops_countDeltas s is
      exact ⟨k1.trans m1, k2.trans m2⟩
    have hal : (((s.countDeltas is).modWarp is.who (fun w => w.advance is.lane is.pc (slotsOf is.i))).noteIssue is).alone = true := by
      have : s.cur = (s.countDeltas is).cur := by rw [State.countDeltas_alone s is ha]; rfl
      have hb : (((s.countDeltas is).modWarp is.who (fun w => w.advance is.lane is.pc (slotsOf is.i))).noteIssue is).cur =
          (s.countDeltas is).cur := rfl
      simpa [State.alone, hb, ← this] using ha
    rw [State.closeGroup_alone _ hal]
    exact a1 ha

/-- Ending a word also notes in its group what it has written (R249). -/
theorem State.finish_end (s : State) (is : Issue) (h : ∀ c, s.cur = some c → c.who = is.who) : WordEnd s (s.finish is) is := by
  rw [State.finish_eq]
  have k := State.finishIssue_end (s.outwrite is) is (by simpa using h)
  have a : s.alone = true → (s.outwrite is).alone = true := by simp [State.alone]
  refine ⟨(State.outwrite_frame s is is.who).trans k.frame, fun ha => ?_, by simpa using k.regs, fun ha => by simpa using k.alone (a ha)⟩
  simpa [State.outwrite_alone s is ha] using k.ops (a ha)

/-! ### Result writers -/

theorem lanesOf_mem {m : LaneMask} {L : Nat} : L ∈ lanesOf m ↔ L < 128 ∧ m.getLsbD L = true := by
  unfold lanesOf
  split
  · subst_vars; simp
  · simp [and_comm]

theorem lanesOf_nodup (m : LaneMask) : (lanesOf m).Nodup := by
  unfold lanesOf
  split
  · exact List.nodup_nil
  · exact List.Nodup.filter _ List.nodup_range

/-- Write a list of lane results, each to the register or pair its lane names. -/
def Warp.putAll (w : Warp) (r : Nat → Nat) (n : Nat) (rs : SMap Nat) : Warp :=
  rs.foldl (fun w e =>
    let w1 := w.setReg (r e.1) e.1 ⟨BitVec.ofNat 32 e.2, false⟩
    if n = 2 then w1.setReg (r e.1 + 1) e.1 ⟨BitVec.ofNat 32 (e.2 / 2 ^ 32), false⟩ else w1) w

theorem State.putVec_eq (s : State) (is : Issue) (u : VUse) (rs : SMap Nat) :
    s.putVec is u rs = s.modWarp is.who (fun w => w.putAll (fun L => regOf is.w (vuses is.i) u L) u.n rs) := rfl

theorem Warp.setReg_noblocks (w : Warp) (r L : Nat) (v : LaneReg) : { w.setReg r L v with blocks := [] } = { w with blocks := [] } := rfl

theorem Warp.putAll_noblocks (w : Warp) (r : Nat → Nat) (n : Nat) (rs : SMap Nat) :
    { w.putAll r n rs with blocks := [] } = { w with blocks := [] } := by
  unfold Warp.putAll
  induction rs generalizing w with
  | nil => rfl
  | cons e rs ih =>
    simp only [List.foldl_cons]
    rw [ih]
    split
    · rfl
    · rfl

/-- A register lane that no result goes to. -/
theorem Warp.putAll_other (w : Warp) (r : Nat → Nat) (n : Nat) (rs : SMap Nat) (q M : Nat) (hM : M < 128)
    (hrs : ∀ e ∈ rs, e.1 < 128) (h : ∀ e ∈ rs, e.1 = M → q ≠ r M ∧ (n = 2 → q ≠ r M + 1)) :
    (w.putAll r n rs).reg q M = w.reg q M := by
  unfold Warp.putAll
  induction rs generalizing w with
  | nil => rfl
  | cons e rs ih =>
    simp only [List.foldl_cons]
    rw [ih _ (fun e he => hrs e (List.mem_cons_of_mem _ he)) (fun e he => h e (List.mem_cons_of_mem _ he))]
    have hL := hrs e List.mem_cons_self
    have hh := h e List.mem_cons_self
    by_cases hx : e.1 = M
    · obtain ⟨h1, h2⟩ := hh hx
      subst hx
      split
      · rw [Warp.reg_setReg_other _ _ hL hM (.inl (h2 ‹_›)), Warp.reg_setReg_other _ _ hL hM (.inl h1)]
      · rw [Warp.reg_setReg_other _ _ hL hM (.inl h1)]
    · split
      · rw [Warp.reg_setReg_other _ _ hL hM (.inr (Ne.symm hx)), Warp.reg_setReg_other _ _ hL hM (.inr (Ne.symm hx))]
      · rw [Warp.reg_setReg_other _ _ hL hM (.inr (Ne.symm hx))]

/-- A lane whose result is listed once holds it. -/
theorem Warp.putAll_holds (w : Warp) (r : Nat → Nat) (n : Nat) (rs : SMap Nat) (hrs : ∀ e ∈ rs, e.1 < 128)
    (hd : (rs.map Prod.fst).Nodup) (L v : Nat) (hm : (L, v) ∈ rs) : (w.putAll r n rs).holds (r L) n L v := by
  induction rs generalizing w with
  | nil => simp at hm
  | cons e rs ih =>
    have hrs' : ∀ e ∈ rs, e.1 < 128 := fun e he => hrs e (List.mem_cons_of_mem _ he)
    simp only [List.map_cons, List.nodup_cons] at hd
    rcases List.mem_cons.1 hm with rfl | hm
    · have hL : L < 128 := hrs (L, v) List.mem_cons_self
      have hno : ∀ e ∈ rs, e.1 = L → False := fun e he hx => hd.1 (List.mem_map.2 ⟨e, he, hx⟩)
      have key : ∀ (w' : Warp) q, (rs.foldl (fun w e =>
          let w1 := w.setReg (r e.1) e.1 ⟨BitVec.ofNat 32 e.2, false⟩
          if n = 2 then w1.setReg (r e.1 + 1) e.1 ⟨BitVec.ofNat 32 (e.2 / 2 ^ 32), false⟩ else w1) w').reg q L = w'.reg q L :=
        fun w' q => Warp.putAll_other w' r n rs q L hL hrs' (fun e he hx => (hno e he hx).elim)
      unfold Warp.putAll Warp.holds
      simp only [List.foldl_cons]
      refine ⟨?_, fun hn => ?_⟩
      · rw [key]
        split
        · rw [Warp.reg_setReg_other _ _ hL hL (.inl (by omega)), Warp.reg_setReg]
        · rw [Warp.reg_setReg]
      · rw [key, if_pos hn, Warp.reg_setReg]
    · exact ih _ hrs' hd.2 hm

/-- Flags go to ARSTAT, or to the open group. -/
theorem State.addFlags_frame (s : State) (who : Nat) (f : W32) : WordFrame s (s.addFlags who f) who := by
  unfold State.addFlags
  split
  · split
    · exact WordFrame.cur s who _
    · exact WordFrame.modWarp s who _
  · exact WordFrame.modWarp s who _

theorem State.addFlags_regs (s : State) (who : Nat) (f : W32) :
    { (s.addFlags who f).warp who with arstat := 0 } = { s.warp who with arstat := 0 } := by
  unfold State.addFlags
  split
  · split
    · rfl
    · simp
  · simp

theorem State.addFlags_alone (s : State) (who : Nat) (f : W32) (h : s.alone = true) :
    s.addFlags who f = s.modWarp who (fun w => { w with arstat := w.arstat ||| f }) := by
  unfold State.addFlags
  cases hc : s.cur with
  | none => rfl
  | some c =>
    cases hg : c.group with
    | none => simp [hg]
    | some g => simp [State.alone, hc, hg] at h

/-- No flags leave a state that has just changed its thread as it was. -/
theorem State.addFlags_zero (s : State) (who : Nat) (g : Warp → Warp) : (s.modWarp who g).addFlags who 0 = s.modWarp who g := by
  have e : (s.modWarp who g).modWarp who (fun w => { w with arstat := w.arstat ||| 0 }) = s.modWarp who g := by
    simp [State.modWarp, State.setWarp, State.warp]
  unfold State.addFlags
  split
  · rename_i c hc
    split
    · rename_i q hq
      have : ({ c with group := some { q with flags := q.flags ||| 0 } } : Cur) = c := by
        cases c; simp at hq; simp [hq]
      rw [this, ← hc]
    · exact e
  · exact e

theorem State.addFlags_ops (s : State) (who : Nat) (f : W32) : (s.addFlags who f).mops = s.mops ∧ (s.addFlags who f).eops = s.eops := by
  unfold State.addFlags
  split
  · split <;> exact ⟨rfl, rfl⟩
  · exact ⟨rfl, rfl⟩

theorem State.addFlags_cur (s : State) (who : Nat) (f : W32) (w : Nat) (h : ∀ c, s.cur = some c → c.who = w) :
    ∀ c, (s.addFlags who f).cur = some c → c.who = w := by
  unfold State.addFlags
  split
  · rename_i c hc
    split
    · intro d hd
      simp only [Option.some.injEq] at hd
      subst hd
      exact h c hc
    · intro d hd
      exact h d (by simpa using hd)
  · intro d hd
    exact h d (by simpa using hd)

/-- What a word's own changes and its end come to outside a group. -/
theorem WordEnd.endsAlone {s t u : State} {i : Instr} {is : Issue} {f : W32} (h : WordEnd t u is) (hi : is.i = i)
    (ha : s.alone = true → t.alone = true) (hx : (t.warp is.who).x = (s.warp is.who).x)
    (hf : s.alone = true → (t.warp is.who).arstat = (s.warp is.who).arstat ||| f)
    (ho : t.mops = s.mops ∧ t.eops = s.eops) : EndsAlone i s u is f := by
  intro h0
  have k := h.alone (ha h0)
  rw [hi] at k
  have hk := k.2.trans (applyDeltas_x _ hx)
  have q := h.ops (ha h0)
  refine ⟨k.1.trans (hf h0), hk, fun hn => ?_, q.1.trans ho.1, q.2.trans ho.2⟩
  rw [hk, xDeltas_none _ _ _ hn, applyDeltas_nil]

/-! ### Words that write one scalar register -/

theorem Warp.core_nopc (w : Warp) : w.core = { w.nopc with s := [], p := [], blocks := [], x := [], arstat := 0 } := rfl

/-- The end of a word keeps what lies below the pc, the index registers and the flags. -/
theorem WordEnd.fields {s t : State} {is : Issue} (h : WordEnd s t is) :
    (t.warp is.who).s = (s.warp is.who).s ∧ (t.warp is.who).p = (s.warp is.who).p ∧
      (t.warp is.who).blocks = (s.warp is.who).blocks ∧ (t.warp is.who).core = (s.warp is.who).core := by
  have h2 := h.regs
  simp only [Warp.nopc, Warp.mk.injEq] at h2
  refine ⟨by simp [h2], by simp [h2], by simp [h2], ?_⟩
  simp only [Warp.core, Warp.mk.injEq]
  simp [h2]

theorem scalarDone_of {s : State} {i : Instr} {is : Issue} {pre align : Issue → State → Option (Cause × Info)}
    {body : Issue → State → Act} {d : Nat} {v : W64} (h : s.readyWith i pre align = some is)
    (he : Machine.exec i s = runWordWith i pre align body s) (hb : body is s = .next (s.writeS is d v)) : ScalarDone i s is d v := by
  obtain ⟨hi, hc⟩ := State.ready_issue h
  have hc' : ∀ c, (s.writeS is d v).cur = some c → c.who = is.who := hc
  have e := State.finish_end (s.writeS is d v) is hc'
  obtain ⟨f1, f2, f3, f4⟩ := e.fields
  refine ⟨(s.writeS is d v).finish is, ?_, ?_⟩
  · rw [he, runWordWith_ready body h]
    simp [State.runBody, hb]
  · have hw : (s.writeS is d v).warp is.who = (s.warp is.who).setS d v := by simp [State.writeS]
    rw [hw] at f1 f2 f3 f4
    have hs : ∀ n, (((s.writeS is d v).finish is).warp is.who).sreg n = ((s.warp is.who).setS d v).sreg n := fun n => by
      simp [Warp.sreg, f1]
    refine ⟨by rw [hs]; simp, fun n hn => by rw [hs, Warp.sreg_setS_other _ _ hn], f2, f3, f4, ?_, ?_⟩
    · exact e.endsAlone hi id (by rw [hw]; rfl) (fun _ => by rw [hw]; simp [Warp.setS]) ⟨rfl, rfl⟩
    · exact (WordFrame.modWarp s is.who _).trans e.frame

/-! ### Words that write one vector operand -/

theorem vectorDone_of {s : State} {i : Instr} {is : Issue} {pre align : Issue → State → Option (Cause × Info)}
    {body : Issue → State → Act} {u : VUse} {v : Nat → Nat} {f : W32} {rs : SMap Nat}
    (h : s.readyWith i pre align = some is) (he : Machine.exec i s = runWordWith i pre align body s)
    (hb : body is s = .next ((s.putVec is u rs).addFlags is.who f)) (hr : rs = (lanesOf is.mask).map (fun L => (L, v L)))
    (hn : u.n = 1 ∨ u.n = 2) : VectorDone i s is u v f := by
  obtain ⟨hi, hc⟩ := State.ready_issue h
  have hk : (s.putVec is u rs).cur = s.cur := rfl
  have hc' : ∀ c, ((s.putVec is u rs).addFlags is.who f).cur = some c → c.who = is.who :=
    State.addFlags_cur _ _ _ _ (by rw [hk]; exact hc)
  have e := State.finish_end _ is hc'
  obtain ⟨f1, f2, f3, f4⟩ := e.fields
  have a1 := State.addFlags_regs (s.putVec is u rs) is.who f
  have hw : (s.putVec is u rs).warp is.who = (s.warp is.who).putAll (fun L => regOf is.w (vuses is.i) u L) u.n rs := by
    simp [State.putVec_eq]
  rw [hw] at a1
  have b1 := Warp.putAll_noblocks (s.warp is.who) (fun L => regOf is.w (vuses is.i) u L) u.n rs
  simp only [Warp.mk.injEq] at a1 b1
  have hreg : ∀ q L, ((((s.putVec is u rs).addFlags is.who f).finish is).warp is.who).reg q L =
      ((s.warp is.who).putAll (fun L => regOf is.w (vuses is.i) u L) u.n rs).reg q L := fun q L => by
    simp [Warp.reg, Warp.block, f3, a1]
  have hlt : ∀ e ∈ rs, e.1 < 128 := by
    rw [hr]
    intro e he
    obtain ⟨L, hL, rfl⟩ := List.mem_map.1 he
    exact (lanesOf_mem.1 hL).1
  have hd : (rs.map Prod.fst).Nodup := by
    rw [hr, List.map_map]
    simpa [Function.comp_def] using lanesOf_nodup is.mask
  rw [hi] at hreg
  refine ⟨((s.putVec is u rs).addFlags is.who f).finish is, ?_, ?_, ?_, ?_, ?_, ?_, ?_, ?_⟩
  · rw [he, runWordWith_ready body h]
    simp [State.runBody, hb]
  · intro L hL
    have := Warp.putAll_holds (s.warp is.who) (fun L => regOf is.w (vuses i) u L) u.n rs hlt hd L (v L)
      (by rw [hr]; exact List.mem_map.2 ⟨L, hL, rfl⟩)
    exact ⟨by rw [hreg]; exact this.1, fun hn => by rw [hreg]; exact this.2 hn⟩
  · intro r L hL hno
    rw [hreg]
    refine Warp.putAll_other _ _ _ _ _ _ hL hlt ?_
    intro e he hx
    rw [hr] at he
    obtain ⟨M, hM, rfl⟩ := List.mem_map.1 he
    simp only at hx
    subst hx
    have := hno hM
    refine ⟨by simpa using this 0 (by omega), fun h2 => this 1 (by omega)⟩
  · rw [f1, a1.2.2.2.2.2.2.1, b1.2.2.2.2.2.2.1]
  · rw [f2, a1.2.2.2.2.2.2.2.1, b1.2.2.2.2.2.2.2.1]
  · rw [f4]
    simp only [Warp.core, Warp.mk.injEq]
    simp [a1, b1]
  · have hfl := State.addFlags_alone (s.putVec is u rs) is.who f
    refine e.endsAlone hi (fun ha => by rw [hfl ha]; exact ha) (by simp [a1, b1]) (fun ha => ?_) (State.addFlags_ops _ _ _)
    rw [hfl ha, State.warp_modWarp, hw]
    simp [b1]
  · exact ((WordFrame.modWarp s is.who _).trans (State.addFlags_frame _ _ _)).trans e.frame

/-! ### Words that write one predicate -/

theorem laneBit_get {L M : Nat} : (laneBit L).getLsbD M = (decide (M < 128) && decide (M = L)) := by
  unfold laneBit
  rw [BitVec.getLsbD_shiftLeft]
  by_cases h : M < 128
  · by_cases k : M = L
    · subst k; simp [h]
    · simp only [h, k, decide_true, decide_false, Bool.true_and, Bool.and_false]
      by_cases hl : M < L
      · simp [hl]
      · have : M - L ≠ 0 := by omega
        simp [this]
  · simp [h]

theorem maskOf_get (ls : List Nat) (M : Nat) (hM : M < 128) : (maskOf ls).getLsbD M = decide (M ∈ ls) := by
  unfold maskOf
  suffices ∀ (m : LaneMask), (ls.foldl (fun m L => m ||| laneBit L) m).getLsbD M = (m.getLsbD M || decide (M ∈ ls)) by
    simpa using this 0
  induction ls with
  | nil => simp
  | cons a ls ih =>
    intro m
    simp only [List.foldl_cons, ih, BitVec.getLsbD_or, laneBit_get, hM, decide_true, Bool.true_and, List.mem_cons, Bool.decide_or,
      Bool.or_assoc]

theorem maskWhere_get (m : LaneMask) (b : Nat → Bool) (M : Nat) (hM : M < 128) :
    (maskWhere m b).getLsbD M = (m.getLsbD M && b M) := by
  unfold maskWhere
  rw [maskOf_get _ _ hM, Bool.eq_iff_iff]
  simp [lanesOf_mem, hM]

theorem merge_get {w : Nat} (old mask v : BitVec w) (i : Nat) (hi : i < w) :
    (merge old mask v).getLsbD i = if mask.getLsbD i then v.getLsbD i else old.getLsbD i := by
  unfold merge
  simp only [BitVec.getLsbD_or, BitVec.getLsbD_and, BitVec.getLsbD_not, hi, decide_true, Bool.true_and]
  cases mask.getLsbD i <;> simp

theorem predDone_of {s : State} {i : Instr} {is : Issue} {pre align : Issue → State → Option (Cause × Info)}
    {body : Issue → State → Act} {pd : Nat} {b : Nat → Bool} {f : W32}
    (h : s.readyWith i pre align = some is) (he : Machine.exec i s = runWordWith i pre align body s)
    (hb : body is s = .next ((s.writePred is pd b).addFlags is.who f)) (hp : pd ≠ 7) : PredDone i s is pd b f := by
  obtain ⟨hi, hc⟩ := State.ready_issue h
  have hk : (s.writePred is pd b).cur = s.cur := rfl
  have hc' : ∀ c, ((s.writePred is pd b).addFlags is.who f).cur = some c → c.who = is.who :=
    State.addFlags_cur _ _ _ _ (by rw [hk]; exact hc)
  have e := State.finish_end _ is hc'
  obtain ⟨f1, f2, f3, f4⟩ := e.fields
  have a1 := State.addFlags_regs (s.writePred is pd b) is.who f
  have hw : (s.writePred is pd b).warp is.who =
      (s.warp is.who).setP pd (merge ((s.warp is.who).pred pd) is.mask (maskWhere is.mask b)) := by simp [State.writePred]
  rw [hw] at a1
  simp only [Warp.mk.injEq] at a1
  have hpr : ∀ n, ((((s.writePred is pd b).addFlags is.who f).finish is).warp is.who).pred n =
      ((s.warp is.who).setP pd (merge ((s.warp is.who).pred pd) is.mask (maskWhere is.mask b))).pred n := fun n => by
    simp [Warp.pred, f2, a1]
  refine ⟨((s.writePred is pd b).addFlags is.who f).finish is, ?_, ?_, ?_, ?_, ?_, ?_, ?_, ?_⟩
  · rw [he, runWordWith_ready body h]
    simp [State.runBody, hb]
  · intro L hL
    rw [hpr, Warp.pred_setP _ _ hp, merge_get _ _ _ _ hL]
    split
    · rw [maskWhere_get _ _ _ hL]; simp [*]
    · rfl
  · intro n hn
    rw [hpr, Warp.pred_setP_other _ _ hn]
  · rw [f1, a1.2.2.2.2.2.2.1]
    rfl
  · rw [f3]
    simp [a1]
  · rw [f4]
    simp only [Warp.core, Warp.mk.injEq]
    simp [a1]
  · have hfl := State.addFlags_alone (s.writePred is pd b) is.who f
    refine e.endsAlone hi (fun ha => by rw [hfl ha]; exact ha) (by simp [a1]) (fun ha => ?_) (State.addFlags_ops _ _ _)
    rw [hfl ha, State.warp_modWarp, hw]
    rfl
  · exact ((WordFrame.modWarp s is.who _).trans (State.addFlags_frame _ _ _)).trans e.frame

/-- The same for a body that raises no flags. -/
theorem vectorDone_plain {s : State} {i : Instr} {is : Issue} {pre align : Issue → State → Option (Cause × Info)}
    {body : Issue → State → Act} {u : VUse} {v : Nat → Nat} {rs : SMap Nat}
    (h : s.readyWith i pre align = some is) (he : Machine.exec i s = runWordWith i pre align body s)
    (hb : body is s = .next (s.putVec is u rs)) (hr : rs = (lanesOf is.mask).map (fun L => (L, v L)))
    (hn : u.n = 1 ∨ u.n = 2) : VectorDone i s is u v 0 :=
  vectorDone_of h he (by rw [hb, State.putVec_eq, State.addFlags_zero]) hr hn

theorem predDone_plain {s : State} {i : Instr} {is : Issue} {pre align : Issue → State → Option (Cause × Info)}
    {body : Issue → State → Act} {pd : Nat} {b : Nat → Bool}
    (h : s.readyWith i pre align = some is) (he : Machine.exec i s = runWordWith i pre align body s)
    (hb : body is s = .next (s.writePred is pd b)) (hp : pd ≠ 7) : PredDone i s is pd b 0 :=
  predDone_of h he (by rw [hb]; exact congrArg Act.next (State.addFlags_zero s is.who _).symm) hp

/-! ### Words that change no register, and words that begin a wait -/

theorem regFrame_of {s : State} {i : Instr} {is : Issue} {pre align : Issue → State → Option (Cause × Info)}
    {body : Issue → State → Act} (h : s.readyWith i pre align = some is) (he : Machine.exec i s = runWordWith i pre align body s)
    (hb : body is s = .next s) : ∃ t, Machine.exec i s = .next t ∧ RegFrame i s t is := by
  obtain ⟨hi, hc⟩ := State.ready_issue h
  have e := State.finish_end s is hc
  obtain ⟨f1, f2, f3, f4⟩ := e.fields
  refine ⟨s.finish is, ?_, f1, f2, f3, f4, e.endsAlone hi id rfl (fun _ => by simp) ⟨rfl, rfl⟩, e.frame⟩
  rw [he, runWordWith_ready body h]
  simp [State.runBody, hb]

/-- What a word that begins a wait leaves of the thread's control part. -/
theorem State.beginWait_ctl (s : State) (is : Issue) (k : WaitKind) : ((s.beginWait is k).noteIssue is).ctl is.who = { s.ctl is.who with
    waits := (s.ctl is.who).waits ++ [⟨k, is.lane, s.clock, s.nextId⟩], lastIssue := s.clock, lastLane := is.lane
    bumped := false, yld := (s.cur.map Cur.yld).getD false, stall := none, entering := none } := by
  simp [State.noteIssue, State.beginWait]

theorem State.warp_noteIssue (s : State) (is : Issue) (n : Nat) : (s.noteIssue is).warp n = s.warp n := rfl

theorem State.warp_beginWait (s : State) (is : Issue) (k : WaitKind) (n : Nat) : (s.beginWait is k).warp n = s.warp n := rfl

/-- The word is inside a chained group and does not end it. -/
theorem State.parkGroup_keeps {s : State} {is : Issue} {c : Cur} {g : Group} (hc : s.cur = some c) (h1 : c.chain = true)
    (h2 : c.group = some g) : s.parkGroup is = { s.holdGroup is.who is.lane g with cur := none } := by
  simp [State.parkGroup, hc, h1, h2]

theorem State.parkGroup_closes {s : State} {is : Issue} {c : Cur} (hc : s.cur = some c)
    (h : ¬∃ g, c.chain = true ∧ c.group = some g) : s.parkGroup is = s.closeGroup := by
  simp only [State.parkGroup, hc]
  split
  · exact absurd ⟨_, ‹_›, ‹_›⟩ h
  · rfl

theorem State.keptGroup_none {s : State} {is : Issue} {c : Cur} (hc : s.cur = some c)
    (h : ¬∃ g, c.chain = true ∧ c.group = some g) : s.keptGroup is = [] := by
  simp only [State.keptGroup, hc]
  split
  · exact absurd ⟨_, ‹_›, ‹_›⟩ h
  · rfl

theorem waitBegins_keeps {s : State} {is : Issue} (k : WaitKind) {c : Cur} {g : Group} (hc : s.cur = some c) (h1 : c.chain = true)
    (h2 : c.group = some g) : WaitBegins s (((s.beginWait is k).noteIssue is).parkGroup is) is k := by
  have hc' : ((s.beginWait is k).noteIssue is).cur = some c := hc
  rw [State.parkGroup_keeps hc' h1 h2]
  have hx : ∀ (x : State) (n : Nat), ({ x with cur := none } : State).ctl n = x.ctl n := fun _ _ => rfl
  have hk : s.keptGroup is = [(is.lane, { g with incs := [], flags := 0 })] := by simp [State.keptGroup, hc, h1, h2]
  have hy : ∀ (x : State) (n : Nat), ({ x with cur := none } : State).warp n = x.warp n := fun _ _ => rfl
  have hm : ∀ (x : State) (f : Warp → Warp) (n : Nat), (x.modWarp is.who f).ctl n = x.ctl n := fun _ _ _ => rfl
  refine ⟨congrArg (fun x : State => { x with cur := none }) (State.holdGroup_world ((s.beginWait is k).noteIssue is) is.who is.lane g),
    fun n hn => ?_, ?_, fun ha => by simp [State.alone, hc, h2] at ha, ?_, ?_⟩ <;> unfold State.holdGroup
  · refine ⟨?_, ?_⟩
    · rw [hy, State.warp_modCtl, State.warp_modWarp_other _ _ hn, State.warp_noteIssue, State.warp_beginWait]
    · rw [hx, State.ctl_modCtl_other _ _ hn, hm]
      simp [State.noteIssue, State.beginWait, State.ctl_modCtl_other _ _ hn]
  · rw [hy, State.warp_modCtl, State.warp_modWarp, State.warp_noteIssue, State.warp_beginWait]
    have k := applyDeltas_nox (s.warp is.who) g.incs
    simp only [Warp.mk.injEq] at k ⊢
    simp [Warp.endGroup, k]
  · rw [hx, State.ctl_modCtl, hk, hm, State.beginWait_ctl]
  · rw [hx, State.ctl_modCtl, hm, State.beginWait_ctl]
    rfl

theorem waitBegins_closes {s : State} {is : Issue} (k : WaitKind) (hc : ∀ c, s.cur = some c → c.who = is.who)
    (hk : s.keptGroup is = []) : WaitBegins s ((s.beginWait is k).noteIssue is).closeGroup is k := by
  have hc' : ∀ c, ((s.beginWait is k).noteIssue is).cur = some c → c.who = is.who := hc
  have f := State.closeGroup_frame _ is.who hc'
  have fc := f.ctl
  rw [State.beginWait_ctl] at fc
  refine ⟨?_, ?_, ?_, ?_, ?_, ?_⟩
  · exact congrArg (fun x : State => { x with ctls := [] }) (State.closeGroup_world ((s.beginWait is k).noteIssue is))
  · intro n hn
    refine ⟨(f.others n hn).1.trans rfl, (f.others n hn).2.trans ?_⟩
    simp [State.noteIssue, State.beginWait, State.ctl_modCtl_other _ _ hn]
  · exact (State.closeGroup_warp _ is.who hc').trans rfl
  · intro ha
    have ha' : ((s.beginWait is k).noteIssue is).alone = true := ha
    rw [State.closeGroup_alone _ ha']
    rfl
  · rw [hk, List.append_nil]
    simp only [WarpCtl.unissued, WarpCtl.mk.injEq] at fc
    simp [fc]
  · simp only [WarpCtl.unissued, WarpCtl.mk.injEq] at fc ⊢
    simp [fc]

theorem waitBegins_of {s : State} {i : Instr} {is : Issue} {pre align : Issue → State → Option (Cause × Info)}
    {body : Issue → State → Act} {k : WaitKind} (h : s.readyWith i pre align = some is)
    (he : Machine.exec i s = runWordWith i pre align body s) (hb : body is s = .park (s.beginWait is k)) :
    ∃ t, Machine.exec i s = .next t ∧ WaitBegins s t is k := by
  obtain ⟨-, hc⟩ := State.ready_issue h
  obtain ⟨-, c, -, h0, -⟩ := State.issueOf_eq (State.readyWith_eq h).1
  refine ⟨((s.beginWait is k).noteIssue is).parkGroup is, ?_, ?_⟩
  · rw [he, runWordWith_ready body h]
    simp [State.runBody, hb]
  · by_cases hg : ∃ g, c.chain = true ∧ c.group = some g
    · obtain ⟨g, g1, g2⟩ := hg
      exact waitBegins_keeps k h0 g1 g2
    · have h1 : ((s.beginWait is k).noteIssue is).cur = some c := h0
      rw [State.parkGroup_closes h1 hg]
      exact waitBegins_closes k hc (State.keptGroup_none h0 hg)

/-- A word that traps before its operands are looked at. -/
theorem runWordWith_pre {s : State} {i : Instr} {is : Issue} {pre align : Issue → State → Option (Cause × Info)}
    (body : Issue → State → Act) {c : Cause} {v : Info} (h : s.issueOf i = some is) (hl : s.illegalHere is = false)
    (hp : pre is s = some (c, v)) : runWordWith i pre align body s = .next (s.trapAt is c v is.pc) := by
  simp [runWordWith, h, State.issueWord, hl, hp]

/-! ### Where paths stand after a word -/

/-- A warp without its index registers and ARSTAT. -/
def Warp.nox (w : Warp) : Warp := { w with x := [], arstat := 0 }

theorem Warp.advance_nox (w : Warp) (lane : Nat) (pc : W64) (n : Nat) : (w.advance lane pc n).nox = (w.nox).advance lane pc n := by
  unfold Warp.advance
  show _ = (match w.pathAt lane with | none => _ | some p => _)
  cases w.pathAt lane with
  | none => rfl
  | some p => simp only; split <;> rfl

theorem State.countDeltas_nox (s : State) (is : Issue) : ((s.countDeltas is).warp is.who).nox = (s.warp is.who).nox := by
  unfold State.countDeltas
  simp only
  split
  · rfl
  · rw [State.warp_modWarp]
    have k := applyDeltas_nox (s.warp is.who) (xDeltas is.w (vuses is.i) is.mask)
    simp only [Warp.nox]
    simp only [Warp.mk.injEq] at k ⊢
    simp [k]

theorem State.finishIssue_nox (s : State) (is : Issue) (h : ∀ c, s.cur = some c → c.who = is.who) :
    ((s.finishIssue is).warp is.who).nox = ((s.warp is.who).nox).advance is.lane is.pc (slotsOf is.i) := by
  have hn : ∀ c, (((s.countDeltas is).modWarp is.who (fun w => w.advance is.lane is.pc (slotsOf is.i))).noteIssue is).cur = some c →
      c.who = is.who := State.countDeltas_cur s is h
  have e : ((((s.countDeltas is).modWarp is.who (fun w => w.advance is.lane is.pc (slotsOf is.i))).noteIssue is).warp is.who).nox =
      ((s.warp is.who).nox).advance is.lane is.pc (slotsOf is.i) := by
    rw [show (((s.countDeltas is).modWarp is.who (fun w => w.advance is.lane is.pc (slotsOf is.i))).noteIssue is).warp is.who =
      ((s.countDeltas is).warp is.who).advance is.lane is.pc (slotsOf is.i) by simp [State.noteIssue]]
    rw [Warp.advance_nox, State.countDeltas_nox]
  unfold State.finishIssue
  simp only
  split
  · exact e
  · exact (State.closeGroup_warp _ _ hn).trans e

/-- Where the paths and the loop levels of a warp stand after a word. -/
theorem State.finish_nox (s : State) (is : Issue) (h : ∀ c, s.cur = some c → c.who = is.who) :
    ((s.finish is).warp is.who).nox = ((s.warp is.who).nox).advance is.lane is.pc (slotsOf is.i) := by
  rw [State.finish_eq]
  simpa using State.finishIssue_nox (s.outwrite is) is (by simpa using h)

/-- The path of a lane after a word that ends before its packet does. -/
theorem Warp.advance_inside {w : Warp} {lane n : Nat} {pc : W64} {p : Path} (hp : w.pathAt lane = some p)
    (h : bitsOf pc 2 2 + n ≤ 3) : w.advance lane pc n = w.putPath lane [{ p with pc := pc + BitVec.ofNat 64 (4 * n) }] := by
  simp [Warp.advance, hp, h]

theorem Warp.advance_over {w : Warp} {lane n : Nat} {pc : W64} {p : Path} (hp : w.pathAt lane = some p)
    (h : ¬bitsOf pc 2 2 + n ≤ 3) : w.advance lane pc n =
      { w.putPath lane [{ p with pc := (loopAction w.l0 w.l1 (pktOf pc)).2.2, inside := false, strict := false }] with
        l0 := (loopAction w.l0 w.l1 (pktOf pc)).1, l1 := (loopAction w.l0 w.l1 (pktOf pc)).2.1 } := by
  simp [Warp.advance, hp, h]

theorem Warp.mem_putPath {w : Warp} {lane : Nat} {ps : List Path} {q : Path} :
    q ∈ (w.putPath lane ps).paths ↔ (q ∈ w.paths ∧ q.mask.getLsbD lane = false) ∨ (q ∈ ps ∧ q.mask ≠ 0) := by
  simp [Warp.putPath]

theorem Warp.pathAt_lane {w : Warp} {lane : Nat} {p : Path} (h : w.pathAt lane = some p) :
    p ∈ w.paths ∧ p.mask.getLsbD lane = true :=
  ⟨List.mem_of_find?_eq_some h, by simpa using List.find?_some h⟩

/-- A path that holds a lane is not empty. -/
theorem mask_ne {m : LaneMask} {L : Nat} (h : m.getLsbD L = true) : m ≠ 0 := by rintro rfl; simp at h

end Sys2Proof.Machine
end

