-- ==== Sys2Proof/Tests/Slice0.lean ====
section
/-! SUPPORT. The model's own tests: words of the spec's encodings decode to their instructions, ill-formed terms are refused,
single words and events on small states give what the spec's tables and examples say, and every statement with hypotheses has
a state and operands that meet them. -/

namespace Sys2Proof.Tests

open Machine

set_option Elab.async false

/-! ### Small states -/

def g7 : Guard := ⟨false, 7⟩

/-- A warp of lanes 0 and 1 on one path, in the first word of a packet at 0x1000. -/
def warp (f : Warp → Warp) : Warp := f { paths := [{ mask := 3, pc := 0x1004 }], exited := ~~~3#128, curb := 4 }

/-- Warp slot 0 of core 0 with a word at issue, in a context that has every feature. -/
def at_ (f : Warp → Warp) (c : WarpCtl := {}) : State :=
  { clock := 10, warps := [(0, warp f)], ctls := [(0, c)], ctxs := [(0, BitVec.allOnes 512)], cur := some { who := 0, lane := 0 } }

/-- Vector registers: register, lane, value. -/
def regs (l : List (Nat × Nat × Nat)) (w : Warp) : Warp :=
  l.foldl (fun w e => w.setReg e.1 e.2.1 ⟨BitVec.ofNat 32 e.2.2, false⟩) w

def sregs (l : List (Nat × Nat)) (w : Warp) : Warp := l.foldl (fun w e => w.setS e.1 (BitVec.ofNat 64 e.2)) w

def preds (l : List (Nat × Nat)) (w : Warp) : Warp := l.foldl (fun w e => w.setP e.1 (BitVec.ofNat 128 e.2)) w

def after (i : Instr) (s : State) : State := match exec i s with
  | .next t => t
  | _ => s

/-- Scalar register n after a word. -/
def sAfter (i : Instr) (f : Warp → Warp) (n : Nat) : Nat := (((after i (at_ f)).warp 0).sreg n).toNat

/-- Register r in lane L after a word. -/
def vAfter (i : Instr) (f : Warp → Warp) (r L : Nat) : Nat := (((after i (at_ f)).warp 0).reg r L).val.toNat

def flagsAfter (i : Instr) (f : Warp → Warp) : W32 := ((after i (at_ f)).warp 0).arstat

def s3 : S3 := ⟨3, .reg 1, .reg 2⟩
def v3 : V3 := ⟨g7, .dir 3, .dir 1, .dir 2⟩
def v2 : V2 := ⟨g7, .dir 3, .dir 1⟩

/-! ### Decoding: words of the spec's examples, or put together from the field tables of chapter 09 -/

def dec (a b : Nat) : Except DecodeError Instr := decodeWords (BitVec.ofNat 32 a) (BitVec.ofNat 32 b)

theorem test_decode_branch : dec 0x01700002 0 = .ok (.bra g7 2) := by decide
theorem test_decode_call_back : dec 0x020FFFFF 0 = .ok (.call ⟨false, 0⟩ 0xFFFFF#20) := by decide
theorem test_decode_reform : dec 0x0810120C 0 = .ok (.reform ⟨false, 1⟩ (.dir 18) 12) := by decide
theorem test_decode_trap : dec 0x0F000005 0 = .ok (.trap 5) := by decide
theorem test_decode_pand : dec 0x0E70420C 0 = .ok (.pand ⟨g7, 1, 2, 3⟩) := by decide
theorem test_decode_sadd : dec 0x10020818 0 = .ok (.sadd ⟨1, .reg 2, .reg 3⟩) := by decide
theorem test_decode_smovi : dec 0x16040001 0 = .ok (.smovi 2 1) := by decide
theorem test_decode_vcmp : dec 0x2D74841B 0 = .ok (.vcmp .n64 .lt ⟨g7, 2, .dir 4, .dir 6⟩) := by decide
theorem test_decode_vshr : dec 0x2C724521 0 = .ok (.vshr .n32 ⟨g7, .dir 9, .dir 5, .dir 8⟩) := by decide
theorem test_decode_vfadd : dec 0x38704208 0 = .ok (.vfadd .f32 ⟨g7, .dir 1, .dir 2, .dir 2⟩) := by decide
theorem test_decode_mxscale : dec 0x44708100 0x08000000 = .ok (.mxscale .e4m3 0 ⟨g7, .dir 2, .dir 1⟩) := by decide
theorem test_decode_mxq : dec 0x4570C108 0x08000000 = .ok (.mxq .e4m3 0 .rne (.reg 0) ⟨g7, .dir 3, .dir 1, .dir 2⟩) := by decide
theorem test_decode_mxdq : dec 0x46710308 0x00200000 = .ok (.mxdq .e4m3 0 ⟨g7, .dir 4, .dir 3, .dir 2⟩) := by decide
theorem test_decode_vred : dec 0x48730C00 0x04800000 = .ok (.vred .add .f32 4 ⟨g7, .dir 12, .dir 12⟩) := by decide
theorem test_decode_vscan : dec 0x4971C600 0x11E00000 = .ok (.vscan .max .n32 7 false ⟨g7, .dir 7, .dir 6⟩) := by decide
theorem test_decode_xset : dec 0x50001029 0x61000000 = .ok (.xset 1 .stack 0 true (.reg 4) (.reg 5)) := by decide
theorem test_decode_rgrow : dec 0x53000028 0 = .ok (.rgrow 40) := by decide
theorem test_decode_vclmul : dec 0x58118414 0 = .ok (.vclmul false ⟨⟨false, 1⟩, .dir 6, .dir 4, .dir 5⟩) := by decide
theorem test_decode_ld : dec 0xE070C210 0x04000040 =
    .ok (.ld .b4 ⟨g7, .dir 3, .dir 2, false, false, ⟨.reg 4, .g, .relaxed, .lane, false, 0x40⟩⟩) := by decide
theorem test_decode_ld_rw : dec 0x60700050 0x60600410 =
    .ok (.ld .b4 ⟨g7, .dir 0, .dir 0, false, true, ⟨.special .zero, .rw, .relaxed, .lane, false, 0x410⟩⟩) := by decide
theorem test_decode_atom : dec 0x62400730 0x05208200 =
    .ok (.atom ⟨⟨false, 4⟩, .dir 0, .dir 7, .dir 12, .reg 5, .sp, .relaxed, .lane, .fadd, .i32, true, false, false, 0⟩) := by decide
theorem test_decode_fence : dec 0x6500000C 0 = .ok (.fence .acquire .device) ∧ dec 0x6500001D 0 = .ok (.fence .acqRel .system) := by decide
theorem test_decode_twait : dec 0x673A7800 0 = .ok (.twait 29 (.reg 30) false) := by decide
theorem test_decode_copy : dec 0x690040F0 0x13040000 =
    .ok (.copy ⟨16, .reg 30, false, .convert, false, false, true, true, .g, .sp, .add, false⟩) := by decide
theorem test_decode_coll : dec 0x6B004048 0x06780000 = .ok (.collRun ⟨.reg 16, .reg 9, 3, .reg 30, false, false⟩) ∧
    dec 0x6A001028 0x07800000 = .ok (.collLoad ⟨.reg 4, .reg 5, 3, .special .zero, false, false⟩) := by decide
theorem test_decode_mma : dec 0x6C0050B2 0x08440000 = .ok (.mma ⟨20, 22, false, 2, .e4m3, .e2m1, true, false, false, 0⟩) := by decide
theorem test_decode_attn : dec 0x70006000 0x04104000 = .ok (.attn ⟨24, .bf16, .bf16, 0, false, false, true, false⟩) ∧
    dec 0x70006000 0x04102000 = .ok (.attn ⟨24, .bf16, .bf16, 0, false, false, false, true⟩) := by decide
theorem test_decode_kvwalk : dec 0x71002860 0x0E001B00 =
    .ok (.kvwalk ⟨.reg 10, .reg 12, 14, false, 3, false, .special .zero, false⟩) := by decide
theorem test_decode_geo : dec 0x7612B9E8 0x6E000000 =
    .ok (.geoIncirc ⟨⟨false, 1⟩, .dir 10, .ind 1, .ind 2, false, true, true, false, 7⟩) := by decide
theorem test_decode_launch : dec 0x79000C20 0x02000000 = .ok (.launch (.reg 3) (.reg 4) 0 32) := by decide
theorem test_decode_signalsem : dec 0x7B002010 0x20000000 = .ok (.signalsemAdd (.reg 8) (.reg 2)) := by decide
theorem test_decode_csr : dec 0x7D0A0000 0 = .ok (.csrr 5 0) ∧ dec 0x7D0A8000 0 = .ok (.csrw (.reg 5) 0) := by decide

/-- R243: the negation of p7 is reserved; R242: an unused field is not 0; R257: an opcode the map leaves out. -/
theorem test_decode_refuses : (dec 0x20F1461C 0).toOption = none ∧ (dec 0x0D700001 0).toOption = none ∧ (dec 0x19000000 0).toOption = none := by
  decide

/-- The decoder the host asks: two words of a wide instruction, the first one lowest. -/
theorem test_table_word : decodeTableWord 32 0x2071461C = some (.vadd .i32 ⟨g7, .dir 5, .dir 6, .dir 7⟩) ∧
    decodeTableWord 64 0x400000007A000410 = some (.waitsem .ge (.reg 1) (.reg 2)) := by decide

/-! ### Ill-formed terms, one for each check of WellFormed -/

def gbad : Guard := ⟨true, 7⟩

theorem test_wf_guard : ((Instr.bra gbad 0).wf || (Instr.exit gbad).wf || (Instr.vmovi gbad (.dir 0) 0).wf || (Instr.vid true gbad (.dir 0)).wf ||
    (Instr.xldv gbad 0 (.dir 0)).wf || (Instr.vreadl gbad 0 (.dir 0) 0).wf || (Instr.pand ⟨gbad, 0, 0, 0⟩).wf) = false := by decide
theorem test_wf_pair : ((Instr.ret g7 (.dir 3)).wf || (Instr.vadd .i64 v3).wf || (Instr.vcmp .n64 .eq ⟨g7, 0, .dir 1, .dir 2⟩).wf ||
    (Instr.vmov .b64 v2).wf || (Instr.vbcast .b64 g7 (.dir 1) (.reg 0)).wf) = false := by decide
theorem test_wf_reform : (Instr.reform g7 (.dir 0) 17).wf = false := by decide
theorem test_wf_loop : ((Instr.loop (.l0 (.reg 0) 0)).wf || (Instr.loop (.both (.reg 0) 1 (.reg 0) 0)).wf) = false := by decide
theorem test_wf_sids : ((Instr.vfopx .add .f32 .rne (.reg 1) v3).wf || (Instr.mxq .e4m3 0 .rne (.reg 1) v3).wf) = false := by decide
theorem test_wf_sqrt : (Instr.vfopx .sqrt .f32 .rne (.reg 0) v3).wf = false := by decide
theorem test_wf_psel : (Instr.vcvt (.ff .bf16 .f32) 2 .rne (.reg 0) v2).wf = false := by decide
theorem test_wf_redop : ((Instr.vred .and .f32 7 v2).wf || (Instr.vscan .xor .f64 7 false ⟨g7, .dir 2, .dir 4⟩).wf) = false := by decide
theorem test_wf_ballot : (Instr.vballot g7 1 0).wf = false := by decide
theorem test_wf_xset : (Instr.xset 0 .stack 1 false (.reg 0) (.reg 0)).wf = false := by decide

def xm : XM := ⟨.reg 1, .g, .relaxed, .lane, false, 0⟩
def mem : MemArgs := ⟨g7, .dir 4, .dir 2, false, false, xm⟩
def atom : AtomArgs := ⟨g7, .dir 4, .dir 2, .dir 6, .reg 1, .g, .relaxed, .lane, .add, .i32, false, false, false, 0⟩
def mxm : MxMemArgs := { g := g7, d := .dir 4, a := .dir 2, xm := xm, fe := .e4m3, plane := 0 }

theorem test_wf_quad : (Instr.ld .b16 { mem with d := .dir 2 }).wf = false := by decide
theorem test_wf_nov : ((Instr.ld .b4 { mem with nov := true }).wf || (Instr.atom { atom with nov := true }).wf) = false := by decide
theorem test_wf_order : ((Instr.ld .b4 { mem with xm := { xm with ord := .release } }).wf || (Instr.st .b4 { mem with xm := { xm with ord := .acquire } }).wf ||
    (Instr.ld .b4 { mem with xm := { xm with scope := .device } }).wf) = false := by decide
theorem test_wf_nol1 : (Instr.ld .b4 { mem with xm := { xm with nol1 := true, space := .sp } }).wf = false := by decide
theorem test_wf_rw_order : (Instr.ld .b4 { mem with xm := { xm with ord := .acquire, space := .rw } }).wf = false := by decide
theorem test_wf_atom : ((Instr.atom { atom with space := .rw }).wf || (Instr.atom { atom with noret := true }).wf ||
    (Instr.atom { atom with aop := .fadd, ty := .n32 }).wf || (Instr.atom { atom with scope := .device }).wf) = false := by decide
theorem test_wf_mx : ((Instr.ldmx { mxm with xm := { xm with space := .ac } }).wf || (Instr.stmx { mxm with d := .dir 1 }).wf) = false := by decide
theorem test_wf_copy : ((Instr.copy ⟨1, .special .zero, false, .raw, false, false, false, false, .g, .sp, .add, false⟩).wf ||
    (Instr.copy ⟨0, .special .zero, false, .raw, true, false, false, false, .g, .sp, .add, false⟩).wf ||
    (Instr.copy ⟨0, .special .zero, false, .raw, false, false, false, false, .g, .sp, .min, false⟩).wf ||
    (Instr.copy ⟨0, .special .zero, false, .raw, false, false, false, false, .g, .sp, .add, true⟩).wf) = false := by decide
theorem test_wf_coll : ((Instr.collLoad ⟨.reg 0, .reg 0, 0, .reg 0, false, true⟩).wf || (Instr.collRun ⟨.reg 1, .reg 0, 0, .reg 0, false, false⟩).wf ||
    (Instr.collRun ⟨.reg 90, .reg 0, 0, .reg 0, false, false⟩).wf) = false := by decide
theorem test_wf_matrix : ((Instr.mma ⟨1, 0, false, 0, .e4m3, .e4m3, false, false, false, 0⟩).wf ||
    (Instr.mma ⟨0, 0, false, 0, .e4m3, .e4m3, false, true, false, 0⟩).wf || (Instr.compress 1 0 .bf16).wf ||
    (Instr.attn ⟨90, .bf16, .bf16, 0, false, false, true, false⟩).wf) = false := by decide
theorem test_wf_kv : (Instr.kvwalk ⟨.special .cycle, .reg 0, 0, false, 0, false, .reg 0, false⟩).wf = false := by decide
theorem test_wf_geo : ((Instr.geoOrient2 ⟨g7, .dir 0, .dir 2, .dir 0, false, false, true, false, 7⟩).wf ||
    (Instr.geoOrient2 ⟨g7, .dir 0, .dir 2, .dir 4, false, true, false, false, 7⟩).wf ||
    (Instr.geoOrient2 ⟨g7, .dir 0, .dir 3, .dir 0, false, true, false, false, 7⟩).wf) = false := by decide
theorem test_wf_launch : ((Instr.launch (.reg 0) (.reg 0) 0 0).wf || (Instr.launch (.reg 0) (.reg 0) 0 33).wf) = false := by decide
theorem test_wf_units : ((Instr.blockGrant 256).wf || (Instr.dispatchStep 32).wf || (Instr.strctlGo 512).wf) = false := by decide

/-! ### Numbers: the worked examples of chapters 03, 06, 07 and 14 -/

/-- 07, "quantizing to MXFP4": codes 7, 6, 10, 0, 8 under scale 0x7F. -/
theorem test_quantize_mxfp4 :
    let xs := [0x40E00000, 0x40A00000, 0xBFA00000, 0x3E800000, 0x80000000].map fmtF32.decode
    fmtE2m1.blockScale xs = (0x7F, 0) ∧
    xs.map (fun x => (fmtE2m1.quantElem x 0x7F .rne {}).1) = [7, 6, 10, 0, 8] := by decide +kernel

/-- 07, "one rounding per block": C stays 0x3F80_0000 after each block of 2^−24; one block of 2^−23 makes it 0x3F80_0001. -/
theorem test_one_rounding_per_block :
    let one := fmtE4m3.decode 0x38
    accF32 0x3F800000 (dotBlock [one] [one] 0x73 0x73) = 0x3F800000 ∧
    accF32 0x3F800000 (dotBlock [one, one] [one, one] 0x73 0x73) = 0x3F800001 := by decide +kernel

/-- 06, the coded sector: twenty-two code bits 00 50 1F after the sixteen raw bytes; a reader gets the sector back. -/
theorem test_coded_sector :
    let t := (List.range 256).map (fun k => if k = 0 then 3 else if k = 126 then 2 else if k = 127 then 1 else if k = 128 then 3 else 0)
    let el := fun k => if k = 3 then 0x3FC0 else if k = 12 ∨ k = 13 then 0x3F00 else if k = 14 then 0x4000 else if k = 15 then 0x8000 else 0x3F80
    let bs := (List.range 16).flatMap (fun k => toLe 2 (el k))
    tableValid t = true ∧
    (codeFmt 1).map (fun f => codeSector f t bs) = some (some (22,
      [0, 0, 0, 0x40, 0, 0, 0, 0, 0, 0, 0, 0, 0, 0, 0, 0x80, 0x00, 0x50, 0x1F])) := by decide +kernel

/-- 14, "four in-circle lanes": +1 at stage A; undecided, then +1 by the perturbation; code 0 where ids repeat. -/
theorem test_incirc :
    let p := fun (dy : Nat) => [[0x3FF0000000000000, 0], [0, 0x3FF0000000000000], [0xBFF0000000000000, 0], [0, dy]]
    stageA .incirc (p 0) = some 1 ∧ stageA .incirc (p 0xBFF0000000000000) = none ∧
    exactCode .incirc (p 0xBFF0000000000000) (some [0, 1, 2, 3]) = 1 ∧
    exactCode .incirc (p 0xBFF0000000000000) (some [5, 5, 6, 7]) = 0 := by decide +kernel

/-! ### Scalar words -/

theorem test_sadd_wraps : sAfter (.sadd s3) (sregs [(1, 2 ^ 64 - 1), (2, 3)]) 3 = 2 := by decide +kernel
theorem test_ssub_borrows : sAfter (.ssub s3) (sregs [(1, 1), (2, 2)]) 3 = 2 ^ 64 - 1 := by decide +kernel
theorem test_sdiv_zero : sAfter (.sdiv s3) (sregs [(1, 7)]) 3 = 2 ^ 64 - 1 := by decide +kernel
theorem test_sdiv_least : sAfter (.sdiv s3) (sregs [(1, 2 ^ 63), (2, 2 ^ 64 - 1)]) 3 = 2 ^ 63 := by decide +kernel
theorem test_srem_sign : sAfter (.srem s3) (sregs [(1, 2 ^ 64 - 7), (2, 2)]) 3 = 2 ^ 64 - 1 := by decide +kernel
theorem test_sremn_zero : sAfter (.sremn s3) (sregs [(1, 7)]) 3 = 7 := by decide +kernel
theorem test_ssra_sign : sAfter (.ssra s3) (sregs [(1, 2 ^ 63), (2, 67)]) 3 = 2 ^ 64 - 2 ^ 60 := by decide +kernel
theorem test_smulh_signed : sAfter (.smulh s3) (sregs [(1, 2 ^ 64 - 1), (2, 2 ^ 64 - 1)]) 3 = 0 := by decide +kernel
theorem test_smulhn_unsigned : sAfter (.smulhn s3) (sregs [(1, 2 ^ 64 - 1), (2, 2 ^ 64 - 1)]) 3 = 2 ^ 64 - 2 := by decide +kernel
theorem test_scmp_signed : sAfter (.scmp .lt s3) (sregs [(1, 2 ^ 64 - 1), (2, 1)]) 3 = 1 := by decide +kernel
theorem test_scmp_unsigned : sAfter (.scmp .ltn s3) (sregs [(1, 2 ^ 64 - 1), (2, 1)]) 3 = 0 := by decide +kernel
theorem test_sclz_zero : sAfter (.sclz 3 (.reg 1)) id 3 = 64 := by decide +kernel
theorem test_sshin : sAfter (.sshin 3 5) (sregs [(3, 2 ^ 47 + 1)]) 3 = 2 ^ 17 + 5 := by decide +kernel
theorem test_saddi_negative : sAfter (.saddi 3 0x1FFFF) (sregs [(3, 0)]) 3 = 2 ^ 64 - 1 := by decide +kernel

/-! ### Vector words -/

theorem test_vadd_wraps : vAfter (.vadd .i32 v3) (regs [(1, 0, 0xFFFFFFFF), (2, 0, 2)]) 3 0 = 1 := by decide +kernel
theorem test_vadd_guard : vAfter (.vadd .i32 { v3 with g := ⟨false, 1⟩ }) (regs [(1, 0, 5), (3, 0, 9)] ∘ preds [(1, 2)]) 3 0 = 9 := by decide +kernel
theorem test_vaddsat_clamps : vAfter (.vaddsat .i32 v3) (regs [(1, 1, 0x7FFFFFFF), (2, 1, 1)]) 3 1 = 0x7FFFFFFF ∧
    flagsAfter (.vaddsat .i32 v3) (regs [(1, 1, 0x7FFFFFFF), (2, 1, 1)]) = fSAT := by decide +kernel
theorem test_vshr_count : vAfter (.vshr .n32 v3) (regs [(1, 0, 0x80000000), (2, 0, 33)]) 3 0 = 0x40000000 := by decide +kernel
theorem test_vmulh_signed : vAfter (.vmulh .i32 v3) (regs [(1, 0, 0xFFFFFFFF), (2, 0, 2)]) 3 0 = 0xFFFFFFFF := by decide +kernel
theorem test_vmov_pair : vAfter (.vmov .b64 ⟨g7, .dir 4, .dir 2⟩) (regs [(2, 1, 7), (3, 1, 8)]) 5 1 = 8 := by decide +kernel
theorem test_vfadd_tie : vAfter (.vfadd .f32 v3) (regs [(1, 0, 0x3F800000), (2, 0, 0x33800000)]) 3 0 = 0x3F800000 := by decide +kernel
theorem test_vfdiv_zero : vAfter (.vfdiv .f32 v3) (regs [(1, 0, 0xBF800000)]) 3 0 = 0xFF800000 ∧
    flagsAfter (.vfdiv .f32 v3) (regs [(1, 0, 0xBF800000), (1, 1, 0x3F800000)]) = fDZ := by decide +kernel
theorem test_vfsqrt_negative : vAfter (.vfsqrt .f32 v2) (regs [(1, 0, 0xBF800000)]) 3 0 = 0x7FC00000 := by decide +kernel
theorem test_vfmin_zeros : vAfter (.vfmin .f32 v3) (regs [(2, 0, 0x80000000)]) 3 0 = 0x80000000 := by decide +kernel

/-- 11, "one block to E4M3 and back": the codes and the values in lanes 0 and 1; NX alone. -/
theorem test_mxq : vAfter (.mxq .e4m3 0 .rne (.reg 0) v3) (regs [(1, 0, 0x43960000), (1, 1, 0xBF800000), (2, 0, 0x7F), (2, 1, 0x7F)]) 3 0 = 0x79 ∧
    flagsAfter (.mxq .e4m3 0 .rne (.reg 0) v3) (regs [(1, 0, 0x43960000), (1, 1, 0xBF800000), (2, 0, 0x7F), (2, 1, 0x7F)]) = fNX := by decide +kernel
theorem test_mxdq : vAfter (.mxdq .e4m3 0 v3) (regs [(1, 0, 0x79), (2, 0, 0x7F)]) 3 0 = 0x43900000 := by decide +kernel
theorem test_mxscale : vAfter (.mxscale .e4m3 1 v2) (regs [(1, 0, 0x43960000), (3, 1, 0xAABBCCDD)]) 3 1 = 0xAABB7FDD := by decide +kernel

theorem test_vshfl_outside : vAfter (.vshfl .down v3) (regs [(1, 0, 5), (1, 1, 6), (2, 0, 1), (2, 1, 1)]) 3 0 = 6 ∧
    vAfter (.vshfl .down v3) (regs [(1, 0, 5), (1, 1, 6), (2, 0, 1), (2, 1, 1)]) 3 1 = 6 := by decide +kernel
theorem test_vscan_exclusive : vAfter (.vscan .add .i32 7 true v2) (regs [(1, 0, 5), (1, 1, 6)]) 3 1 = 5 := by decide +kernel
theorem test_vballot : sAfter (.vballot g7 4 1) (preds [(1, 6)]) 4 = 2 := by decide +kernel

/-- 11, "a stack in registers": VADD reads the top twice, in v41, and pops once. -/
theorem test_stack_read_twice :
    let f := fun (w : Warp) => regs [(41, 0, 100), (41, 1, 101)]
      { w with curb := 6, x := [(1, { mode := .stack, bound := 8, base := 40, idx := [(0, 2), (1, 2)] })] }
    vAfter (.vadd .i32 ⟨g7, .dir 3, .ind 1, .ind 1⟩) f 3 1 = 202 ∧
    (((after (.vadd .i32 ⟨g7, .dir 3, .ind 1, .ind 1⟩) (at_ f)).warp 0).xreg 1).index 1 = 1 := by decide +kernel

/-! ### Control words -/

/-- 08: with both levels ending here, (2, 1) goes to (1, 2). -/
theorem test_loop_levels :
    let f := fun (w : Warp) => { w with paths := [{ mask := 3, pc := 0x100C }]
                                        l0 := { start := 0x900, stop := 0x1000, count := 2, reload := 3 }
                                        l1 := { start := 0x900, stop := 0x1000, count := 1, reload := 2 } : Warp }
    let w := (after .nop (at_ f)).warp 0
    (w.l0.count, w.l1.count, w.paths.map Path.pc) = (1, 2, [0x900]) := by decide +kernel

theorem test_branch_diverges :
    ((after (.bra ⟨false, 1⟩ 2) (at_ (preds [(1, 2)]))).warp 0).paths.map (fun p => (p.mask, p.pc)) = [(1, 0x1008), (2, 0x1020)] ∨
    ((after (.bra ⟨false, 1⟩ 2) (at_ (preds [(1, 2)]))).warp 0).paths.map (fun p => (p.mask, p.pc)) = [(2, 0x1020), (1, 0x1008)] := by decide +kernel

theorem test_split_sets_mask : ((after (.split 5) (at_ id)).warp 0).kmask 5 = 3 := by decide +kernel
theorem test_exit_ends : ((after (.exit g7) (at_ id)).warp 0).exited = BitVec.allOnes 128 := by decide +kernel
theorem test_trap_without_handler :
    ((after (.trap 5) (at_ id)).ctl 0).fatal = true := by decide +kernel

/-! ### Memory and the rest -/

/-- 01: base 0x7F00_0000_0000 with offset −64 and immediate 0x40. -/
theorem test_address :
    let s := at_ (sregs [(4, 0x7F0000000000)] ∘ regs [(2, 0, 0xFFFFFFC0)])
    (s.issueOf (.ld .b4 ⟨g7, .dir 3, .dir 2, false, false, ⟨.reg 4, .g, .relaxed, .lane, false, 0x40⟩⟩)).map (fun is => eaOf is s 0) =
      some 0x7F0000000000 := by decide +kernel

/-- 01: VIOLINFO of a load of warp 3, lane 2, at an unmapped scratchpad window. -/
theorem test_viol_info : violInfo 1 .sprange .load 3 2 false = 0x8000240182000000 := by decide +kernel

/-! ### States and operands that meet the hypotheses of the statements: words -/

def rdy (s : State) (i : Instr) : Bool := (s.ready i).isSome
def rdyWith (s : State) (i : Instr) (pre align : Issue → State → Option (Cause × Info)) : Bool := (s.readyWith i pre align).isSome

/-- Command stream 0 of cluster 0 with a word at issue. -/
def stream_ (f : Warp → Warp) (x : Stream → Stream := id) : State :=
  { clock := 10, warps := [(16384, f { paths := [{ mask := 1, pc := 0x1004 }], exited := ~~~1#128, curb := 1 })], ctls := [(16384, {})]
    ctxs := [(0, BitVec.allOnes 512)], cur := some { who := 16384, lane := 0 }, streams := [(0, x { state := 1 })] }

/-- Warp slot 0 in a handler. -/
def handler_ (f : Warp → Warp) (c : WarpCtl → WarpCtl := id) : State :=
  at_ (fun w => f { w with paths := [{ mask := 3, pc := 0x1004, handler := true }] }) (c { inTrap := true, tvec := 0x1000 })

def s0 : S3 := ⟨0, .special .zero, .reg 95⟩
def sMost : S3 := ⟨95, .reg 95, .special .cycle⟩
def q3 : V3 := ⟨g7, .dir 4, .dir 2, .dir 6⟩
def q2 : V2 := ⟨g7, .dir 4, .dir 2⟩
/-- The highest pair that an operand can name directly: v54 and v55. -/
def h3 : V3 := ⟨⟨true, 0⟩, .dir 54, .dir 54, .dir 0⟩
def big (w : Warp) : Warp := { w with curb := 32 }

theorem test_w_ScalarResults : ([s3, s0, sMost].all (fun x => [Instr.sadd x, .ssub x, .sand x, .sor x, .sxor x, .sshl x, .sshr x, .ssra x,
    .smul x, .smulh x, .smulhn x, .smin x, .sminn x, .smax x, .smaxn x, .scmp .eq x, .scmp .gen x, .sclz x.sd x.sa, .spopc x.sd x.sa,
    .sbrev x.sd x.sa, .saddi x.sd 0x10000, .smovi x.sd 0x1FFFF, .sshin x.sd 0].all (rdy (at_ id)))) = true := by decide +kernel
theorem test_w_ScalarDivisions : ([s3, s0, sMost].all (fun x => [Instr.sdiv x, .sdivn x, .srem x, .sremn x].all (rdy (at_ id)))) = true := by decide +kernel

def intWords (t : ITy) (x : V3) : List Instr :=
  [.vadd t x, .vsub t x, .vmul t x, .vmulh t x, .vaddsat t x, .vsubsat t x, .vmin t x, .vmax t x, .vshl t x, .vshr t x]
theorem test_w_IntegerResults : (([ITy.i32, .n32, .i64, .n64].flatMap (fun t => intWords t q3 ++ intWords t h3)).all (rdy (at_ big))) = true := by decide +kernel
theorem test_w_LogicResults : (([BTy.b32, .b64].flatMap (fun t => [q3, h3].flatMap (fun x =>
      [Instr.vand t x, .vor t x, .vxor t x, .vmov t ⟨x.g, x.d, x.a⟩, .vclz ⟨x.g, x.d, x.a⟩, .vpopc ⟨x.g, x.d, x.a⟩, .vbrev ⟨x.g, x.d, x.a⟩,
       .vaddi ⟨x.g, x.d, x.a⟩ 0x80, .vshli ⟨x.g, x.d, x.a⟩ 31, .vshri ⟨x.g, x.d, x.a⟩ 31, .vsrai ⟨x.g, x.d, x.a⟩ 0, .vmovi x.g x.d 0x80,
       .vmad24 true x, .vmad24 false x]))).all (rdy (at_ big)) && ((at_ id).issueOf (.vclmul true v3)).isSome) = true := by decide +kernel
theorem test_w_PredicateResults : (([ITy.i32, .n32, .i64, .n64].flatMap (fun t => [Instr.vcmp t .lt ⟨g7, 0, .dir 2, .dir 4⟩, .vcmp t .ge ⟨⟨true, 6⟩, 6, .dir 54, .dir 0⟩]) ++
    [Instr.pand ⟨g7, 0, 7, 1⟩, .por ⟨g7, 6, 1, 2⟩, .pxor ⟨g7, 1, 1, 1⟩, .pandn ⟨⟨false, 0⟩, 2, 7, 7⟩]).all (rdy (at_ big))) = true := by decide +kernel
theorem test_w_ElementValues : (0x80 : BitVec 8) ≠ 0 ∧ (0x7F : BitVec 8) ≠ 0x80 ∧ (1 : BitVec 8) ≠ 0xFF := by decide +kernel

def fltWords (t : FTy) (x : V3) : List Instr :=
  [.vfadd t x, .vfsub t x, .vfmul t x, .vfma t x, .vfdiv t x, .vfsqrt t ⟨x.g, x.d, x.a⟩, .vfopx .sqrt t .sr (.reg 1) x, .vfopx .fma t .rdn (.reg 0) x,
   .vfmin t x, .vfmax t x]
theorem test_w_FloatResults : (([FTy.f32, .f64, .bf16, .f16].flatMap (fun t => fltWords t q3 ++ fltWords t h3)).all (rdy (at_ big))) = true := by decide +kernel
theorem test_w_FloatOrder : (([FTy.f32, .f64, .bf16, .f16].flatMap (fun t => [Instr.vfmin t q3, .vfmax t h3,
    .vfcmp t .un ⟨g7, 0, .dir 2, .dir 4⟩, .vfcmp t (.ord .ne) ⟨g7, 6, .dir 54, .dir 0⟩])).all (rdy (at_ big))) = true := by decide +kernel

/-- A value of each class that R189 names, in every format. -/
theorem test_w_FloatSpecialCases : ([(FTy.f32, 0x7F800000, 0xFF800000, 0x80000000, 0x3F800000, 0x7F800001),
      (.f64, 0x7FF0000000000000, 0xFFF0000000000000, 0x8000000000000000, 0x3FF0000000000000, 0x7FF0000000000001),
      (.bf16, 0x7F80, 0xFF80, 0x8000, 0x3F80, 0x7F81), (.f16, 0x7C00, 0xFC00, 0x8000, 0x3C00, 0x7C01)].all (fun c =>
    let f := fmtOfTy c.1
    f.decode c.2.1 == .inf false && f.decode c.2.2.1 == .inf true && f.decode c.2.2.2.1 == .zero true && f.decode 0 == .zero false &&
    (match f.decode c.2.2.2.2.1, f.decode (c.2.2.2.1 + c.2.2.2.2.1) with | .fin false m e false, .fin true n k false => m == n && e == k | _, _ => false) &&
    f.isSnan c.2.2.2.2.2)) = true := by decide +kernel
theorem test_w_RoundingKeepsCodes : 0x7E < 2 ^ (fmtOf .e4m3).width ∧ (fmtOf .e4m3).isNan 0x7E = false ∧
    0x81 < 2 ^ (fmtOf .mxi8).width ∧ (fmtOf .mxi8).isNan 0x81 = false := by decide +kernel

theorem test_w_ConvertResults : ([Instr.vcvt (.ff .f32 .e4m3) 3 .rne (.reg 0) q2, .vcvt (.ff .e2m1 .f64) 0 .sr (.reg 0) q2, .vcvt (.fi .i64 .bf16) 1 .rtz (.reg 0) q2,
    .vcvt (.intf .f16 .n32) 0 .rup (.reg 95) q2, .mxmax q2, .mxscale .e2m1 3 q2, .mxq .mxi8 3 .sr (.special .cycle) q3, .mxdq .e3m2 0 q3].all
    (rdy (at_ big))) = true := by decide +kernel
theorem test_w_LaneMoves : ([Instr.vbcast .b32 g7 (.dir 0) (.reg 95), .vbcast .b64 g7 (.dir 54) (.special .zero), .vid true g7 (.dir 0), .vid false g7 (.dir 55),
    .xgetv g7 (.dir 0) 0 false, .xgetv g7 (.dir 0) 7 true, .vshfl .idx v3, .vshfl .up v3, .vshfl .down v3, .vshfl .xor v3,
    .vreadl g7 95 (.dir 55) 127].all (rdy (at_ big))) = true := by decide +kernel
theorem test_w_ReduceAndScan : ([RedTy.i32, .n64, .f32, .f64].all (fun t => [Instr.vred .add t 7 q2, .vred .min t 0 q2, .vscan .max t 6 true q2, .vscan .add t 7 false q2].all
    (rdy (at_ big)))) = true := by decide +kernel
theorem test_w_BallotAndMerge : rdy (at_ id) (.vballot g7 94 7) = true ∧
    rdyWith (at_ (fun w => { w with paths := [{ mask := fullMask, pc := 0x1004 }], exited := 0 })) (.vmerge .f32 (.dir 4) true v3) partMask noCheck = true := by
  decide +kernel

/-- BASE + BOUND at 256 fits; at 257 it does not. An array and a stack index that R322 moves. -/
theorem test_w_IndexRegisters : rdyWith (at_ (sregs [(4, 255), (5, 1)])) (.xset 1 .ring 8 true (.reg 4) (.reg 5)) (xsetPre .ring (.reg 4) (.reg 5)) noCheck = true ∧
    rdyWith (at_ (sregs [(4, 256)])) (.xset 1 .off 0 false (.reg 4) (.reg 5)) (xsetPre .off (.reg 4) (.reg 5)) noCheck = true ∧
    ((at_ (sregs [(4, 1), (5, 256)])).issueOf (.xset 0 .stack 0 true (.reg 4) (.reg 5))).map (fun is =>
      (at_ (sregs [(4, 1), (5, 256)])).illegalHere is) = some false ∧
    rdy (at_ id) (.xldv g7 7 (.dir 0)) = true ∧ (at_ id).alone = true ∧
    rdy (at_ (fun w => { w with x := [(1, { mode := .stack, bound := 8, base := 24, idx := [(0, 2), (1, 2)] })] })) (.vadd .i32 ⟨g7, .dir 3, .ind 1, .ind 1⟩) = true ∧
    rdy (at_ (fun w => { w with x := [(1, { mode := .ring, step := 15, bound := 8, base := 24, idx := [] })] })) (.vadd .i32 ⟨g7, .ind 1, .dir 1, .dir 2⟩) = true := by
  decide +kernel

/-- RGROW to the size of the window, and past it; sizes that are no window; RSHRINK with nothing outstanding, and not below the
least size. -/
theorem test_w_WindowWords : rdyWith (at_ id) (.rgrow 32) (windowPre 32 0) noCheck = true ∧ rdyWith (at_ id) (.rgrow 256) (windowPre 256 0) noCheck = true ∧
    ([Instr.rgrow 257, .rgrow 4, .rgrow 0, .rshrink 0, .rshrink 264].all (fun i => ((at_ id).issueOf i).any (fun is => !(at_ id).illegalHere is))) = true ∧
    rdyWith (at_ id) (.rshrink 32) (rshrinkPre 32) noCheck = true ∧ rdyWith (at_ id) (.rshrink 8) (rshrinkPre 8) noCheck = true ∧
    (at_ id).pendingRegs 0 false = [] := by decide +kernel

def atPc (pc : W64) (f : Warp → Warp) : State := at_ (fun w => f { w with paths := [{ mask := 3, pc := pc }] })
def lvl (stop count : Nat) : LoopLvl := { start := 0x900, stop := BitVec.ofNat 64 stop, count := BitVec.ofNat 32 count, reload := 4 }

/-- Each clause of the loop action: inside a packet; both levels ending, the inner one, the outer one or neither going on; one
level alone, going on and ending; no level. -/
theorem test_w_LoopAction : rdy (at_ id) .nop = true ∧
    ([(2, 2), (2, 1), (1, 1), (2, 0), (1, 0), (0, 2), (0, 1), (0, 0)].all (fun c =>
      rdy (atPc 0x100C (fun w => { w with l0 := lvl 0x1000 c.1, l1 := lvl 0x1000 c.2 })) .nop)) = true ∧
    ((at_ id).ready (.bra g7 2)).any (fun is => is.mask == is.path && is.mask != 0) = true := by decide +kernel
theorem test_w_LoopAction_branch : exec (.bra g7 2) (at_ id) = .next (after (.bra g7 2) (at_ id)) := rfl

def vpair (r L v : Nat) : Warp → Warp := regs [(r, L, v % 2 ^ 32), (r + 1, L, v / 2 ^ 32)]

/-- No lane, all lanes, one lane of two; targets that agree and that differ; with and without an active loop level; misaligned. -/
theorem test_w_Branches : ([Instr.bra g7 2, .bra ⟨false, 1⟩ 0xFFFFF, .bra ⟨false, 0⟩ 0, .call g7 0x80000, .call ⟨false, 1⟩ 0].all
      (fun i => ([at_ (preds [(1, 2)] ∘ big), at_ (preds [(1, 2)] ∘ fun w => { big w with l0 := lvl 0x1000 2 })]).all (fun s => rdyWith s i noCheck noCheck))) = true ∧
    ([vpair 2 0 0x2004 ∘ vpair 2 1 0x2004, vpair 2 0 0x2004 ∘ vpair 2 1 0x3008].all (fun f =>
      rdyWith (at_ f) (.ret g7 (.dir 2)) noCheck (targetAlign (.dir 2) 4))) = true ∧
    ([vpair 2 0 0x2010 ∘ vpair 2 1 0x2010, vpair 2 0 0x2010 ∘ vpair 2 1 0x3000].all (fun f =>
      rdyWith (at_ f) (.brx g7 (.dir 2)) noCheck (targetAlign (.dir 2) 16))) = true ∧
    ([(Instr.ret g7 (.dir 2), 1, 4), (.brx g7 (.dir 2), 0x2004, 16)].all (fun c =>
      let s := at_ (vpair 2 1 c.2.1)
      (s.issueOf c.1).any (fun is => !s.illegalHere is && (s.boundTrap is).isNone && !s.held is &&
        (lanesOf is.mask).any (fun L => (is.src64 (useS (.dir 2) true) L).toNat % c.2.2 != 0)))) = true := by decide +kernel

/-- Outside kn; inside it with another lane still running; inside it with all lanes parked at this JOIN. -/
theorem test_w_RejoinMasks :
    let k := fun (m : LaneMask) (ps : List Parked) (w : Warp) => { w with k := [(15, m)], exited := ~~~7#128, parked := ps }
    let here := fun (i : Instr) (f : Warp → Warp) (p : Issue → State → Bool) => ((at_ f).ready i).any (fun is => p is (at_ f))
    rdy (at_ id) (.split 15) = true ∧
    here (.join 15) (k 4 []) (fun is s => is.path &&& (s.warp 0).kmask 15 == 0) = true ∧
    here (.join 15) (k 7 []) (fun is s => is.path &&& (s.warp 0).kmask 15 != 0 && mdiff ((s.warp 0).kmask 15 &&& (s.warp 0).live) (is.path &&& (s.warp 0).kmask 15) != 0) = true ∧
    here (.waitk 15) (k 7 []) (fun is s => mdiff ((s.warp 0).kmask 15 &&& (s.warp 0).live) (is.path &&& (s.warp 0).kmask 15) != 0) = true ∧
    here (.join 15) (k 7 [{ mask := 4, site := .join 15, at_ := 0x1004 }]) (fun is s =>
      mdiff ((s.warp 0).kmask 15 &&& (s.warp 0).live) (4 ||| (is.path &&& (s.warp 0).kmask 15)) == 0 && is.path &&& (s.warp 0).kmask 15 != 0) = true := by decide +kernel

/-- Both clauses of a test: the word is ready, and its issue has the property. -/
def meets (s : State) (i : Instr) (p : Issue → Bool) : Bool := (s.ready i).any p
def meetsWith (s : State) (i : Instr) (pre align : Issue → State → Option (Cause × Info)) (p : Issue → Bool) : Bool := (s.readyWith i pre align).any p
/-- A word that comes as far as its own alignment check. -/
def early (s : State) (i : Instr) (p : Issue → Bool) : Bool :=
  (s.issueOf i).any (fun is => !s.illegalHere is && (s.boundTrap is).isNone && !s.held is && p is)

/-- The state's word at issue counts on flag 0. -/
def flagged (s : State) : State := { s with cur := s.cur.map (fun c => { c with flag := some 0 }) }

/-- Warps 0 and 1 as a quorum of two in workgroup 5, with accumulator and scratchpad granules; warp 0 issues. -/
def pair_ (f : Warp → Warp) (c0 c1 : WarpCtl) (q : Nat := 1) : State :=
  let w : Warp := { wg := 5, nwarp := 2, paths := [{ mask := 3, pc := 0x1004 }], exited := ~~~3#128, curb := 4 }
  { clock := 10, warps := [(0, f w), (1, { w with num := 1 })], ctls := [(0, c0), (1, c1)], ctxs := [(0, BitVec.allOnes 512)]
    cur := some { who := 0, lane := 0, flag := some 0 }, wgs := [(5, { id := 5, grid := 9, accg := List.range 8 })]
    grids := [(9, { id := 9, descr := { qlog := q } })] }

/-- Context 0 with a region of one level at VA 0, of two 1 GiB pages, the first mapped at 1 GiB, writable and dirty; its save
area is at VA 0. The table lies at 0x1000_0000 and is in the L2. -/
def map_ (s : State) (leaf : List Host.Cell := [(0x10000000, 0x2F), (0x10000003, 0x40)]) : State :=
  { s with ctxs := [(0, BitVec.ofNat 512 (2 ^ 512 - 2 ^ 384))]
           regions := [(0, BitVec.ofNat 64 (2 ^ 63 + 4 * 2 ^ 60 + 31 * 2 ^ 54 + 0x10000000))]
           mem := { s.mem with cells := leaf, present := [(0x10000000 / 128, 0xF)] } }

theorem test_w_BarrierAndQuorum :
    meets (at_ id) .bar (fun is => (at_ id).settled is.who) = true ∧
    meets (at_ id { unacked := 1 }) .bar (fun is => !(at_ id { unacked := 1 }).settled is.who) = true ∧
    rdy (at_ id) .convene = true ∧ rdy (at_ id) .disband = true ∧ (at_ id).qsize 0 = 1 ∧
    rdy (pair_ id { seated := true } {}) .convene = true ∧ rdy (pair_ id {} {}) .disband = true ∧
    -- the last to arrive, the first of two, a seat whose fellow waits at a quorum issue
    ([(Instr.convene, ({} : WarpCtl), ({ arrived := true } : WarpCtl)), (.convene, {}, {}), (.disband, { seated := true }, { seated := true, arrived := true }),
      (.disband, { seated := true }, {}), (.disband, { seated := true }, { seated := true }),
      (.disband, { seated := true }, { seated := true, waits := [⟨.quorum, 0, 0, 0⟩] })].all (fun c =>
        let s := pair_ id c.2.1 c.2.2
        rdy s c.1 && s.alone && s.quorumOf 0 == [0, 1] && s.qsize 0 == 2 && !(s.ctl 0).arrived && (s.ctl 0).waits.isEmpty)) = true ∧
    -- the last live threads of a workgroup, and a warp of it still on its way
    (let s := at_ id
     s.warpsOfWg 0 = [0] ∧ mdiff (s.warp 0).live 3 = 0 ∧ (s.warp 0).live = 3 ∧ s.filedThreads 0 0 = 0) ∧
    (meets (pair_ id {} {}) .bar (fun is => (pair_ id {} {}).settled is.who) = true ∧ (pair_ id {} {}).warpsOfWg 5 = [0, 1] ∧ ((pair_ id {} {}).warp 1).live = 3) := by
  decide +kernel

/-- More than one path, a count of 2^32, a misformed nest, a zero count and plain loops. -/
theorem test_w_LoopWord :
    let two := fun (w : Warp) => { w with paths := [{ mask := 1, pc := 0x1004 }, { mask := 2, pc := 0x2004 }] }
    meets (at_ two) (.loop (.l0 (.reg 1) 1)) (fun is => is.w.paths.length != 1) = true ∧
    meets (at_ (sregs [(1, 2 ^ 32)])) (.loop (.l0 (.reg 1) 1)) (fun is => is.w.paths.length == 1 && decide (2 ^ 32 ≤ (is.sv (at_ (sregs [(1, 2 ^ 32)])) (.reg 1)).toNat)) = true ∧
    meets (at_ (sregs [(1, 2)])) (.loop (.both (.reg 1) 1 (.reg 1) 2)) (fun is => is.w.paths.length == 1) = true ∧
    meets (at_ (sregs [(1, 2 ^ 32 - 1)])) (.loop (.both (.reg 1) 0x7FFF (.special .zero) 1)) (fun is => is.w.paths.length == 1) = true ∧
    meets (at_ (sregs [(1, 2)])) (.loop (.l1 (.reg 1) 1)) (fun is => is.w.paths.length == 1 && is.pc.toNat / 4 % 4 < 2) = true := by decide +kernel

theorem test_w_ExitAndReform :
    meets (at_ (preds [(1, 0)])) (.exit ⟨false, 1⟩) (fun is => is.mask == 0) = true ∧
    meets (at_ id) (.exit g7) (fun is => is.mask != 0 && !isStream is.who && !((at_ id).ctl is.who).inTrap) = true ∧
    meets (stream_ id) (.exit g7) (fun is => is.mask != 0 && isStream is.who) = true ∧
    ((pair_ id { seated := true } {}).issueOf (.reform g7 (.dir 1) 1)).any (fun is =>
      let s := pair_ id { seated := true } {}
      !s.illegalHere is && (s.ctl is.who).seated && decide (1 < s.qsize is.who)) = true ∧
    meetsWith (at_ id) (.reform ⟨false, 1⟩ (.dir 1) 0) reformPre noCheck (fun is => is.mask == 0) = true ∧
    meetsWith (at_ id) (.reform g7 (.dir 1) 31) reformPre noCheck (fun is => is.mask != 0) = true := by decide +kernel

theorem test_w_TrapEntry :
    let s := map_ (at_ (regs [(1, 0, 7)]) { tvec := 0x1000 })
    meets s (.trap 0x1FFFF) (fun is => s.alone && !isStream is.who && (s.ctl is.who).tvec != 0 && !(s.ctl is.who).inTrap &&
      (s.entryWaits is.who).isNone) = true ∧
    ((s.warp 0).block 0).dirty = true ∧ s.tsave 0 = 0 := by decide +kernel

/-- TRAP with a handler: the path runs at TVEC in trap context with cause 20, in a cleared window; scalars stay. -/
theorem test_trap_enters_handler :
    let t := after (.trap 5) (at_ (regs [(1, 0, 7)] ∘ sregs [(9, 5)]) { tvec := 0x1000 })
    (t.ctl 0).inTrap = true ∧ (t.ctl 0).cause = 20 ∧ (t.warp 0).paths = [{ mask := 3, pc := 0x1000, handler := true }] ∧
    (t.warp 0).reg 1 0 = {} ∧ (t.warp 0).sreg 9 = 5 := by decide +kernel

theorem test_w_FatalAndStreamTraps : meets (at_ id) (.trap 0) (fun is => !isStream is.who && ((at_ id).ctl is.who).tvec == 0) = true ∧
    meets (handler_ id) (.trap 0) (fun is => ((handler_ id).ctl is.who).inTrap) = true ∧
    meets (stream_ id) (.trap 1) (fun is => isStream is.who) = true := by decide +kernel

/-- A warp in its handler at RTE; where its save area is mapped, the frame is zero. -/
def trapped : State := handler_ id (fun c => { c with trapMask := 3, frozen := [{ mask := 3, pc := 0x1004 }] })

def canResume (s : State) (who : Nat) : Bool := match s.readFrame who with
  | (some (bs, ws), u) => ((u.warp who).resume bs (fun L => BitVec.ofNat 64 (sub ws (32 * L) 8)) (u.ctl who)).isSome
  | _ => false

/-- RTE with the handler's accesses outstanding and complete. -/
theorem test_w_ReturnFromTrap :
    (meets (handler_ id (fun c => { c with unacked := 1 })) .rte (fun is =>
      !(handler_ id (fun c => { c with unacked := 1 })).handlerSettled is.who && (handler_ id).alone)) = true ∧
    (let s := map_ trapped
     rdy s .rte && s.alone && s.handlerSettled 0 && canResume s 0) = true ∧
    -- a page of the frame that must be serviced; lanes that part inside a loop
    (let s := map_ trapped []
     rdy s .rte && s.alone && s.handlerSettled 0 && (match s.readFrame 0 with | (none, _) => true | _ => false)) = true ∧
    (let s := map_ trapped [(0x10000000, 0x2F), (0x10000003, 0x40), (0x40025320, 1), (0x40027001, 0x10), (0x40027021, 0x20)]
     rdy s .rte && s.alone && s.handlerSettled 0 && (match s.readFrame 0 with
       | (some (bs, ws), u) => ((u.warp 0).ofLayout bs).l0.count == 1 && BitVec.ofNat 64 (sub ws 0 8) == (0x1000 : W64) &&
           BitVec.ofNat 64 (sub ws 32 8) == (0x2000 : W64) && mdiff (u.ctl 0).trapMask (u.warp 0).exited == 3
       | _ => false)) = true := by decide +kernel


def xg (base : SOp) (space : Space) (imm : BitVec 14 := 0) : XM := ⟨base, space, .relaxed, .lane, false, imm⟩
def ma (space : Space) (imm : BitVec 14 := 0) : MemArgs := ⟨g7, .dir 4, .dir 8, true, false, xg (.reg 4) space imm⟩
def mx (g : Guard) (space : Space) : MxMemArgs := ⟨g, .dir 4, .dir 8, .e2m1, 0, xg (.reg 4) space⟩
def at1 (g : Guard) (t : ITy) (space : Space) : AtomArgs := ⟨g, .dir 4, .dir 8, .dir 10, .reg 4, space, .relaxed, .lane, .add, t, false, false, false, 0x3F⟩

/-- Eight operand-log entries of the warp are taken. -/
def logs : SMap MemOp := (List.range 8).map (fun k =>
  (k, { id := k, who := 0, core := 0, ctx := 0, instr := .ld .b4 (ma .g), pc := 0, mask := 1, log := some k }))

def crowded : State := { map_ (at_ id) with mops := logs }

def full (w : Warp) : Warp := { w with paths := [{ mask := fullMask, pc := 0x1004 }], exited := 0 }

theorem test_w_MemoryIssue :
    ([Instr.ld .u8 (ma .sp), .ld .b16 (ma .g), .st .u8 (ma .g), .st .b16 (ma .cl), .atom (at1 g7 .i32 .g), .atom (at1 g7 .n64 .sp), .ldmx (mx g7 .g)].all (fun i =>
      meetsWith (map_ (at_ id)) i noCheck memAlign (fun is => is.mask != 0 && (map_ (at_ id)).memRoom is) &&
      meetsWith crowded i noCheck memAlign (fun is => is.mask != 0 && (memSpace i != .g || !crowded.memRoom is)))) = true ∧
    ([Instr.ld .b4 { ma .g with g := ⟨false, 1⟩ }, .st .b4 { ma .g with g := ⟨false, 1⟩ }, .atom (at1 ⟨false, 1⟩ .i64 .g), .ldmx (mx ⟨false, 1⟩ .g),
      .stmx (mx ⟨false, 1⟩ .g)].all (fun i => meetsWith (at_ id) i noCheck memAlign (fun is => is.mask == 0))) = true ∧
    meetsWith (at_ full) (.stmx (mx g7 .g)) noCheck memAlign (fun is => is.mask != 0 && (mxformBad is (.dir 8)).isNone && (at_ full).memRoom is) = true := by
  decide +kernel

/-- A lane of two at 1 where 2 is needed, and at one past the access's multiple; an MX array off its line; a group in part. -/
theorem test_w_MemoryTraps :
    let f := fun (n : Nat) => regs [(8, 0, n)]
    ([(Instr.ld .u16 (ma .g), 1, 2), (.ld .s16 (ma .sp), 3, 2), (.ld .b4 (ma .cl), 2, 4), (.ld .b8 (ma .g), 4, 8), (.ld .b16 (ma .g), 8, 16),
      (.st .u16 (ma .ac), 1, 2), (.st .b4 (ma .g), 6, 4), (.st .b8 (ma .g), 4, 8), (.st .b16 (ma .g), 8, 16),
      (.atom (at1 g7 .i32 .g), 2, 4), (.atom (at1 g7 .i64 .g), 4, 8)].all (fun c =>
        early (at_ (f c.2.1)) c.1 (fun is => (lanesOf is.mask).any (fun L => eaOf is (at_ (f c.2.1)) L % (c.2.2 : Nat) != 0)))) = true ∧
    ([Instr.ldmx (mx g7 .g), .stmx (mx g7 .sp)].all (fun i =>
      early (at_ (sregs [(4, 64)])) i (fun is => is.mask != 0 && ((is.sv (at_ (sregs [(4, 64)])) (.reg 4)).toNat : Int) % 128 != 0))) = true ∧
    meetsWith (at_ id) (.stmx (mx g7 .g)) noCheck memAlign (fun is => is.mask.getLsbD 0 && !is.mask.getLsbD 31) = true := by decide +kernel

/-- The first and the last byte of the view of a window of 32 registers. -/
theorem test_w_RegisterView :
    ([(Instr.ld .u8 (ma .rw), 127, 1), (.ld .b16 (ma .rw), 112, 16), (.ld .s16 (ma .rw), 2, 2), (.st .u16 (ma .rw), 126, 2), (.st .b16 (ma .rw), 0, 16)].all (fun c =>
      let s := at_ (fun w => { regs [(8, 0, c.2.1)] w with curb := 4 })
      meetsWith s c.1 noCheck memAlign (fun is => !(s.ctl is.who).inTrap &&
        (s.viewTouch is c.2.2).all (fun r => !((s.warp is.who).block (r / 8)).absent && !(s.pendingRegs is.who true).contains r)))) = true := by decide +kernel

theorem test_w_OrderingWords :
    let busy := at_ id { unacked := 1 }
    meets busy (.fence .release .device) (fun is => !busy.settled is.who) = true ∧
    meets { at_ id with mops := logs } (.fence .acquire .system) (fun is => !{ at_ id with mops := logs }.loadsDone is.who) = true ∧
    meets (at_ id) (.fence .acqRel .workgroup) (fun is => (at_ id).settled is.who) = true ∧
    meets (at_ id) (.fence .acquire .cluster) (fun is => (at_ id).loadsDone is.who && (at_ id).canFlash (coreOf is.who) && !isStream is.who) = true ∧
    (let s := { at_ id with cores := [(0, { fills := [{ line := 1, sectors := 1, data := 0, sb := 0, epoch := 1 }] })] }
     meets s (.fence .acquire .device) (fun is => !s.canFlash (coreOf is.who))) = true ∧
    meets (at_ id) .ifence (fun is => (at_ id).settled is.who) = true ∧ meets busy .ifence (fun is => !busy.settled is.who) = true ∧
    (let s := map_ (at_ (sregs [(1, 2 ^ 30), (2, 1), (3, 65537)]))
     (rdy s (.tlbinvPage (.reg 1) (.reg 2)) && rdy s (.tlbinvPage (.reg 1) (.reg 3)) &&
      (match (s.regionEntry 0 0).bind Region.ofEntry with
       | some r => decide (2 ^ 30 / 2 ^ pageBits r.pgsz * 2 ^ pageBits r.pgsz + 1 * 2 ^ pageBits r.pgsz ≤ 2 ^ 51)
       | none => false))) = true ∧
    rdy (at_ id) .tlbinvCtx = true ∧ rdy (stream_ id) .tlbinvAll = true ∧ meets busy .tlbinvCtx (fun is => !busy.settled is.who) = true := by decide +kernel

/-- Each number of the statement, in a warp and in a stream; the first and the last of each range, and the numbers beside them. -/
theorem test_w_SystemReads :
    ([FeatWord.feat0, .feat1, .implw].all (fun f => rdy (at_ id) (.featq 95 f))) = true ∧
    ([(0 : BitVec 12), 2, 0x10, 0x11, 0x12, 0x100, 0x101, 0x102, 0x40, 0x5F, 0x80, 0xBF].all (fun n =>
      meetsWith (at_ id) (.csrr 0 n) (csrrPre n) noCheck (fun is => ((at_ id).csrValue is n.toNat).any Option.isSome))) = true ∧
    (let s := { at_ id with mem := { poison := [((2 ^ 43 - 1) * 512 / 32, ())] } }
     meetsWith s (.csrr 0 0x80) (csrrPre 0x80) noCheck (fun is => s.csrValue is 0x80 == some none)) = true ∧
    ([(0x03F : BitVec 12), 0x60, 0x0C0, 0x0C3, 0x110, 0x114, 0xFFF].all (fun n =>
      ((at_ id).issueOf (.csrr 0 n)).any (fun is => !(at_ id).illegalHere is && ((at_ id).csrValue is n.toNat).isNone))) = true ∧
    ([(0x001 : BitVec 12), 0x102].all (fun n => ((stream_ id).issueOf (.csrr 0 n)).any (fun is => isStream is.who))) = true := by decide +kernel

theorem test_w_CsrWrites :
    rdyWith (at_ id) (.csrw (.reg 1) 0) (csrwPre 0) noCheck = true ∧ rdyWith (at_ id) (.csrw (.reg 1) 0x100) (csrwPre 0x100) noCheck = true ∧
    ([2 ^ 63, 2 ^ 62, 0].all (fun v => rdyWith (handler_ (sregs [(1, v)])) (.csrw (.reg 1) 0x010) (csrwPre 0x010) noCheck)) = true ∧
    rdyWith (stream_ id) (.csrw (.reg 1) 0x120) (csrwPre 0x120) noCheck = true ∧ rdyWith (stream_ id) (.csrw (.reg 1) 0x0C2) (csrwPre 0x0C2) noCheck = true ∧
    ([(0x010 : BitVec 12), 0x101, 0x0C2].all (fun n => ((at_ id).issueOf (.csrw (.reg 1) n)).any (fun is =>
      !(at_ id).illegalHere is && !(at_ id).csrWritable is.who n.toNat))) = true ∧
    ([(0x100 : BitVec 12), 0x206, 0x280].all (fun n => ((stream_ id).issueOf (.csrw (.reg 1) n)).any (fun is =>
      !(stream_ id).illegalHere is && !(stream_ id).csrWritable is.who n.toNat))) = true := by decide +kernel

/-- An address that is mapped in the L2, one with no region, and a misaligned one; a queue with room, full and with older records. -/
theorem test_w_SemaphoreWords :
    let ev := { map_ (stream_ id (fun x => { x with evqbase := 0x40001000 })) with regs := {} }
    rdyWith (stream_ id) (.waitsem .ge (.reg 1) (.reg 2)) noCheck (semAlign (.reg 1)) = true ∧
    rdyWith (at_ id) (.twait 29 (.reg 1) true) noCheck (twaitAlign (.reg 1)) = true ∧
    ([Instr.signalsemSet (.reg 1) (.reg 2), .signalsemAdd (.reg 1) (.reg 2)].all (fun i =>
      meetsWith (map_ (stream_ (sregs [(1, 64)]))) i noCheck (semAlign (.reg 1)) (fun is =>
        let s := map_ (stream_ (sregs [(1, 64)]))
        s.settled is.who && (match s.ask is.ctx 64 .store (coreOf is.who) is.who twaitTag 64 0 8 with
          | (.ok pa _, t) => pa == 2 ^ 30 + 64 && !(t.locTouch (.phys pa) 8 (reqOf is.who false is.ctx is.pc)).isRemote pa &&
              !(t.locTouch (.phys pa) 8 (reqOf is.who false is.ctx is.pc)).locPoison (.phys pa) 8
          | _ => false)) &&
      meetsWith (stream_ (sregs [(1, 2 ^ 57)])) i noCheck (semAlign (.reg 1)) (fun is =>
        let s := stream_ (sregs [(1, 2 ^ 57)])
        s.settled is.who && (match s.ask is.ctx (2 ^ 57) .atomic (coreOf is.who) is.who twaitTag (2 ^ 57) 0 8 with
          | (.viol _, _) => true
          | _ => false)) &&
      early (stream_ (sregs [(1, 4)])) i (fun _ => true))) = true ∧
    early (stream_ (sregs [(1, 4)])) (.waitsem .eq (.reg 1) (.reg 2)) (fun _ => true) = true ∧
    early (at_ (sregs [(1, 8)])) (.twait 29 (.reg 1) true) (fun _ => true) = true ∧
    meets ev (.event true (.reg 1) (.reg 2)) (fun is => ev.settled is.who && !(ev.stream 0).full && (ev.stream 0).held.isEmpty) = true ∧
    (let s := stream_ id (fun x => { x with held := [0] })
     meets s (.event false (.reg 1) (.reg 2)) (fun is => s.settled is.who && !(s.stream 0).held.isEmpty)) = true ∧
    (let s := { stream_ id with ctls := [(16384, { unacked := 1 })] }
     meets s (.event false (.reg 1) (.reg 2)) (fun is => !s.settled is.who)) = true := by decide +kernel

def copy_ (sb : SOp) (ssp dsp : Space) (rel : Bool) : CopyArgs := ⟨16, sb, rel, .raw, false, false, false, false, ssp, dsp, .add, false⟩
/-- Rows of 32 elements between 0x40 and `dst`; s18 = NC, s21 = formats, all 0. -/
def copyRegs (src dst nc : Nat) : Warp → Warp := sregs [(16, src), (17, dst), (18, nc), (30, 0x40)]

/-- LAUNCH and PREFETCH.L2 at their bounds; a COPY in range, out of range, misaligned, with a token and with a flag alone. -/
theorem test_w_EngineWords :
    (rdyWith (at_ (sregs [(1, 64), (2, 8)])) (.launch (.reg 1) (.reg 2) 0 1) noCheck (launchAlign (.reg 1) (.reg 2)) &&
     rdyWith (at_ (sregs [(1, 64)])) (.launch (.reg 1) (.special .zero) 0 32) noCheck (launchAlign (.reg 1) (.special .zero)) &&
     early (at_ (sregs [(1, 63)])) (.launch (.reg 1) (.reg 2) 0 1) (fun _ => true) &&
     early (at_ (sregs [(1, 64), (2, 4)])) (.launch (.reg 1) (.reg 2) 0 1) (fun is => (is.sv (at_ (sregs [(1, 64), (2, 4)])) (.reg 1)).toNat % 64 == 0) &&
     ([0x10000000, 0x10000001].all (fun n => rdyWith (at_ (sregs [(2, n), (3, 16)])) (.prefetchL2 (.reg 1) (.reg 2) 3 false) noCheck (prefetchAlign 3)))) = true ∧
    ([(copy_ (.reg 30) .g .sp false, 0x40, 0x80, 32, 0), (copy_ (.special .zero) .sp .g true, 0x40, 0x80, 32, 0),
      (copy_ (.reg 30) .g .sp false, 0x40, 0x80, 2 ^ 28 + 1, 1), (copy_ (.reg 30) .g .sp false, 0x41, 0x80, 32, 2)].all (fun c =>
        let s := flagged (at_ (copyRegs c.2.1 c.2.2.1 c.2.2.2.1))
        meets s (.copy c.1) (fun is => match copyPlan c.1 (copyVals c.1 is s) with
          | some q =>
            if c.2.2.2.2 = 1 then !q.inRange (copyVals c.1 is s)
            else q.inRange (copyVals c.1 is s) && ((q.misaligned (tokOf is s c.1.sb)).isSome || (q.bound (s.viewRegs is.who)).isNone)
          | none => false))) = true := by decide +kernel

theorem test_w_ListWords :
    let coll : CollArgs := ⟨.reg 8, .reg 9, 63, .special .zero, false, false⟩
    let walk : KvWalkArgs := ⟨.reg 10, .reg 12, 14, false, 0xFFF, false, .reg 15, false⟩
    let app : KvAppendArgs := ⟨.reg 13, .reg 10, .reg 12, 14, 0x7F, false, .special .zero, false⟩
    let com : KvCommitArgs := ⟨.reg 10, .reg 12, .device, .reg 15, true⟩
    let s := flagged (at_ id)
    let far := flagged (at_ (sregs [(8, 2 ^ 57), (10, 2 ^ 57)]))
    let last := flagged (at_ (sregs [(8, 2 ^ 57 - 64), (9, 64), (10, 2 ^ 57 - 64), (12, 2 ^ 16 - 1), (13, 2 ^ 16 - 1), (14, 128), (15, 16)]))
    ([s, far, last].all (fun t => [Instr.collLoad coll, .kvwalk walk, .kvappend app, .kvcommit com].all (rdy t))) = true ∧
    rdy s (.collRun coll) = true ∧ rdy { s with cslots := [(63, { queue := [1, 2, 3, 4] })] } (.collRun coll) = true ∧
    ((List.range 8).map (fun i => (s.warp 0).sreg (sopNum coll.sa + i))).all (fun b => baseForm b && b.toNat % 128 == 0) = true := by decide +kernel

def geoA (t : Bool) (g : Guard := g7) : GeoArgs := ⟨g, .dir 1, .dir 8, .dir 4, false, true, false, t, 7⟩

/-- No lane; finite coordinates with room and with a full queue; a NaN that traps, and one that does not. -/
theorem test_w_GeoWords :
    let nan := fun (w : Warp) => regs [(9, 0, 0x7FF80000)] (big w)
    let s := flagged (at_ big)
    ([fun x => Instr.geoOrient2 x, .geoOrient3, .geoIncirc, .geoInsphr, .geoSegx].all (fun word =>
      meets s (word (geoA true ⟨false, 1⟩)) (fun is => is.mask == 0) &&
      meets s (word (geoA true)) (fun is => is.mask != 0 && !(lanesOf is.mask).any (fun L => (geoCoords is (geoA true) L).any (fun c => !isFinite (fmtF64.decode c)))) &&
      rdy { s with cores := [(0, { geo := List.range 8 })] } (word (geoA true)) &&
      ([true, false].all (fun b => meets (flagged (at_ nan)) (word (geoA b)) (fun is => is.mask != 0 &&
        (lanesOf is.mask).any (fun L => (geoCoords is (geoA b) L).any (fun c => !isFinite (fmtF64.decode c)))))))) = true := by decide +kernel

/-- Not seated; seated in part of its lanes; a check of its own that traps; alone and whole; and before the last seat. -/
theorem test_w_QuorumWords :
    let x : MmaArgs := ⟨20, 22, false, 0, .e4m3, .e2m1, false, false, false, 0⟩
    let a : AttnArgs := ⟨24, .bf16, .bf16, 0, false, false, true, false⟩
    let sq := sregs [(20, 0x8001000000), (22, 0x8001000000), (24, 0x8001000000), (26, 0x8001002000), (28, 0x8001004000), (30, 0x40000)]
    let words : List (Instr × (Issue → State → List W64 → Option (Cause × Info))) := [(.mma x, mmaChecks x), (.compress 20 22 .e4m3, compressChecks .e4m3),
      (.accz 0 0, acczChecks 0 0), (.accmvOut 20 0 0 .bf16, accmvChecks true 0 0), (.accmvIn 20 0 0 .f32, accmvChecks true 0 0), (.attn a, attnChecks a)]
    let whole := fun (is : Issue) (w : Warp) => is.path == mdiff fullMask (w.exited ||| w.filed)
    (words.all (fun c =>
      meets (pair_ sq {} {}) c.1 (fun is => !((pair_ sq {} {}).ctl is.who).seated && decide (1 < (pair_ sq {} {}).qsize is.who)) &&
      (let s := pair_ (fun w => { sq w with exited := 0 }) { seated := true } { seated := true }
       meets s c.1 (fun is => (s.ctl is.who).seated && !whole is (s.warp 0))) &&
      (let s := pair_ sq {} {} 0
       meets s c.1 (fun is => s.qsize is.who == 1 && whole is (s.warp 0) && (c.2 is s (quorumVals c.1 is.w)).isNone && s.quorumOf is.who == [is.who])) &&
      (let s := pair_ sq { seated := true } { seated := true }
       meets s c.1 (fun is => decide (1 < s.qsize is.who) && (s.ctl is.who).seated && whole is (s.warp 0) && (c.2 is s (quorumVals c.1 is.w)).isNone &&
         (s.quorumOf is.who).any (fun n => n != is.who && (s.ctl n).quorumIssue.isNone))))) = true ∧
    (let s := pair_ sq {} {} 0
     let y := { x with nsel := 3 }
     meets s (.mma y) (fun is => s.qsize is.who == 1 && (mmaChecks y is s (quorumVals (.mma y) is.w)).isSome)) = true ∧
    -- a seat that is to trap, one whose group is being left, and the last of two seats, whose words agree and do not
    (words.all (fun c =>
      (let s := pair_ sq { seated := true, mismatch := some 0 } { seated := true }
       meets s c.1 (fun is => (s.ctl is.who).mismatch.any is.path.getLsbD)) &&
      (let s := pair_ sq { seated := true } {}
       meets s c.1 (fun is => (s.ctl is.who).seated && whole is (s.warp 0) && (c.2 is s (quorumVals c.1 is.w)).isNone && s.seatLeft is.who)) &&
      [true, false].all (fun same =>
        let vals := quorumVals c.1 (sq {})
        let s := pair_ sq { seated := true } { seated := true, quorumIssue := some (if same then 0 else 1, 0, vals, c.1), waits := [⟨.quorum, 0, 0, 0⟩] }
        meets s c.1 (fun is => s.qsize is.who == 2 && (s.ctl is.who).seated && (s.ctl is.who).mismatch.isNone && (s.ctl is.who).qtrap.isNone &&
          whole is (s.warp 0) && (c.2 is s (quorumVals c.1 is.w)).isNone && !s.seatLeft is.who && s.quorumOf is.who == [0, 1] && s.qseat 0 == 0 &&
          decide ((s.cluster 0).emulQ.length < 16) &&
          ((s.ctl 1).quorumIssue == some (is.iword, is.xword, quorumVals c.1 is.w, c.1)) == same)))) = true := by decide +kernel

theorem test_w_DecodeEncode : (Instr.vadd .i32 v3).isWord = true ∧ (Instr.vadd .i32 v3).wf = true ∧ (Instr.collRun ⟨.reg 88, .reg 9, 63, .special .zero, true, true⟩).isWord = true ∧
    (Instr.collRun ⟨.reg 88, .reg 9, 63, .special .zero, false, true⟩).wf = true := by decide +kernel

/-- A path in a packet it holds: NOP, VADD and VMOVI; `chain` is the first bit of the VADD's word (R248). -/
def held_ (inside : Bool) (pc : W64) (chain : Nat) : State :=
  { clock := 10, warps := [(0, { paths := [{ mask := 3, pc := pc, entry := pc, inside := inside }], exited := ~~~3#128, curb := 4 })]
    ctls := [(0, { fetched := [⟨0x1000, BitVec.ofNat 128 (0x000FF000 + (0x2071461C + chain * 2 ^ 31) * 2 ^ 64 + 0x347100FF * 2 ^ 96), 0⟩] })]
    ctxs := [(0, BitVec.allOnes 512)], wgs := [(0, { id := 0 })] }

def stepsWord (s : State) (inside : Bool) (k : Nat) (alone : Bool) : Bool :=
  let t := s.tick
  s.cur.isNone && s.agenda.isEmpty && !s.eventFirst && t.tries == [(0, 0)] &&
  match (t.warp 0).pathAt 0 with
  | some p => (match t.packetOf 0 p with
    | some f =>
      let pk := Packet.ofBits f.bits
      let e := if inside then slotIdx p.pc else slotIdx p.entryWord
      p.inside == inside && e == k && pk.ok && pk.starts.contains e && (pk.instrAt e).isSome && (pk.groupOf e == [e]) == alone &&
      (List.range 12).all (fun j => !pk.wait.getLsbD j || (t.warp 0).flag j == 0) && (inside || bitsOf p.entryWord 2 2 != 0) &&
      (!inside || ((pk.groupOf e).head? == some e && decide (1 < (pk.groupOf e).length)) == !alone) &&
      (pk.groupOf e).all (fun j => !decide (e < j) || (pk.instrAt j).any (fun m =>
        match exec m { t with cur := some (pk.curAt 0 0 j none) } with | .next v => !v.blocked | _ => true))
    | none => false)
  | none => false

/-- Entering the packet, inside it alone, and at the head of a chained pair; an open group; an agenda; an odd clock; no thread. -/
theorem test_w_StepRunsWord : (stepsWord (held_ false 0x1000 0) false 0 true && stepsWord (held_ true 0x1008 0) true 1 true &&
    stepsWord { held_ true 0x1008 1 with clock := 12 } true 1 false) = true ∧
    (let s : State := { held_ true 0x100C 1 with cur := some { who := 0, lane := 0, group := some { snap := (held_ true 0x100C 1).warp 0 } } }
     ((s.tick.warp 0).pathAt 0).any (fun p => p.inside && (s.tick.packetOf 0 p).any (fun f => ((Packet.ofBits f.bits).instrAt (slotIdx p.pc)).isSome))) = true ∧
    -- a group one of whose later members must wait, and a path that waits in the middle of its group
    (let s := { held_ true 0x1008 1 with clock := 12, warps := [(0, { paths := [{ mask := 3, pc := 0x1008, entry := 0x1000, inside := true }], exited := ~~~3#128, curb := 4, blocks := [(0, { absent := true })] })] }
     let t := s.tick
     t.tries == [(0, 0)] && ((t.warp 0).pathAt 0).any (fun p => p.inside && (t.packetOf 0 p).any (fun f =>
       let pk := Packet.ofBits f.bits
       pk.groupOf 1 == [1, 2] && slotIdx p.pc == 1 && (pk.instrAt 2).any (fun m =>
         match exec m { t with cur := some (pk.curAt 0 0 2 none) } with | .next v => v.blocked | _ => false)))) = true ∧
    (let s : State := { held_ true 0x100C 1 with clock := 12, ctls := (held_ true 0x100C 1).ctls.map (fun e => (e.1, { e.2 with heldGroup := [(0, { snap := {} })] })) }
     let t := s.tick
     t.tries == [(0, 0)] && ((t.warp 0).pathAt 0).any (fun p => p.inside && ((t.ctl 0).heldGroup.find? (fun e => p.mask.getLsbD e.1)).isSome && (t.packetOf 0 p).any (fun f =>
       ((Packet.ofBits f.bits).instrAt (slotIdx p.pc)).isSome))) = true ∧
    (let s : State := { clock := 3 }
     s.eventFirst = true ∧ s.tick.tries = [] ∧ (State.reset.nextEvent).isSome = true) := by decide +kernel

def stepped (s : State) : State := match step s with
  | .next t => t
  | _ => s

theorem test_w_MemWfStep : Memory.wf (map_ (at_ id)).mem.cells = true ∧ step (held_ true 0x100C 0) = .next (stepped (held_ true 0x100C 0)) := ⟨by decide, rfl⟩

/-- The step runs the VMOVI that ends the packet, and the path goes on at the next packet. -/
theorem test_step : (((stepped (held_ true 0x100C 0)).warp 0).reg 4 1).val = 0xFFFFFFFF ∧
    ((stepped (held_ true 0x100C 0)).warp 0).paths.map Path.pc = [0x1010] := by decide +kernel
theorem test_w_ResetValues : State.reset.regRead 0x080 = some 2800 ∧ State.reset.clusterReg 63 0x0C0 = some 0 := by decide +kernel

/-! ### States that meet the hypotheses of the statements: events -/

def memop (i : Instr) (mask : LaneMask) (ps : SMap Place) : MemOp :=
  { id := 7, who := 0, core := 0, ctx := 0, instr := i, pc := 0x1004, mask := mask, ea := ps.map (fun e => (e.1, (0x40000000 : Int))), place := ps
    data := ps.map (fun e => (e.1, 5)), dst := ps.map (fun e => (e.1, 4)), flag := some 0 }

/-- The operation is under way; workgroup 0 holds a 5 at scratchpad 0, and the line at 1 GiB is in the L2. -/
def with_ (o : MemOp) : State :=
  { map_ { at_ (regs [(4, 0, 1)]) with cur := none, mops := [(7, o)], wgs := [(0, { id := 0, sp := [(0, 5)] })] } with
    mem := { cells := [(0x40000000, 9)], present := [(0x40000000 / 128, 0xF), (0x40000000 / 128 + 1, 0xF)] } }

def canLoad (o : MemOp) : Bool :=
  let s := with_ o
  isLoadOp o.instr && mget s.mops o.id == some o && !o.started && !isStream o.who && mhas s.warps o.who && !(s.ctl o.who).inTrap &&
  (s.longAbsent o.who o.handler (opRegs o)).isEmpty && s.mayPerform o && (s.finalPlaces o).any (fun ps => s.lookupFree o ps &&
    ps.all (fun e => (s.laneReads o e.1 e.2).isSome) && (lanesOf o.mask).all (fun L => mhas ps L))

def leafRW : W64 := 0x4000002F

/-- A load of a store, of memory past the L1, of the device's registers, a violating lane beside one that reads; an LDMX; an acquire. -/
theorem test_w_LoadCompletes :
    ([memop (.ld .b4 (ma .sp)) 3 [(0, .sp 0 0), (1, .bad .sprange)], memop (.ld .s8 (ma .g)) 1 [(0, .bad .prot)],
      memop (.ld .b16 { ma .g with xm := { xg (.reg 4) .g with nol1 := true } }) 1 [(0, .phys 0x40000000 leafRW)],
      memop (.ld .b8 { ma .g with xm := { xg (.reg 4) .g with ord := .acquire, scope := .device } }) 1 [(0, .phys 0x40000000 leafRW)],
      memop (.ld .b8 (ma .g)) 1 [(0, .mmio 0x10)], memop (.ldmx (mx g7 .sp)) 3 [(0, .sp 0 0), (1, .sp 0 0)]].all canLoad) = true ∧
    (with_ (memop (.ld .b4 (ma .sp)) 1 [(0, .sp 0 0)])).canFlash 0 = true := by decide +kernel

def canStore (o : MemOp) : Bool :=
  let s := with_ o
  let n := accBytes o.instr
  isStoreOp o.instr && mget s.mops o.id == some o && (o.started || s.mayPerform o) && !s.opRemote o && !s.regs.hostLost && mhas s.warps o.who && mhas s.ctls o.who &&
  (s.finalPlaces o).any (fun ps => decide ((ps.map Prod.fst).Nodup) && match o.unitsLeft ps with
    | k :: _ => !(unitLanes o ps k).isEmpty && (unitLanes o ps k).all (fun L => (mget ps L).any (fun p => p.loc.any (fun l => s.atHand l n) && decide (placeAddr p % 32 + n ≤ 32)))
    | [] => false)

def low32Lanes : LaneMask := 0xFFFFFFFF
def here_ : Place := .phys 0x40000000 leafRW

/-- Two lanes on one byte, a lane that violates beside one that does not, two units, and the second of them; a block of MXFP4 in
memory and of MXFP6 in a scratchpad; a device register. -/
theorem test_w_StorePerforms :
    ([memop (.st .b4 (ma .g)) 3 [(0, here_), (1, here_)], memop (.st .u16 (ma .sp)) 3 [(0, .sp 0 0), (1, .bad .prot)],
      memop (.st .u8 (ma .g)) 3 [(0, here_), (1, .phys 0x40000020 leafRW)],
      { memop (.st .u8 (ma .g)) 3 [(0, here_), (1, .phys 0x40000020 leafRW)] with reqs := some [(0, 2 ^ 25 + 1)], started := true }].all canStore) = true ∧
    ([(MxFmt.e2m1, here_), (.e2m3, .sp 0 0)].all (fun c =>
      let o := memop (.stmx { mx g7 .g with fe := c.1 }) low32Lanes ((List.range 32).map (fun L => (L, c.2)))
      let s := with_ o
      s.mayPerform o && !s.opRemote o && (s.finalPlaces o).any (fun ps => match o.unitsLeft ps with
        | [k] => unitLanes o ps k == List.range 32 && (mget ps 0 == some c.2) && decide ((ps.map Prod.fst).Nodup)
        | _ => false) &&
      c.2.loc.any (fun l => s.atHand l 128 && (match l with | .phys a => a % 128 == 0 && isDev a | .sp _ a => a % 128 == 0 | _ => false)) &&
      low64 (mgetD o.ea 0 0) % 128 % mxBlockBytes c.1 == 0 && decide (low64 (mgetD o.ea 0 0) % 128 + mxBlockBytes c.1 ≤ 128))) = true ∧
    (let o := memop (.st .b8 (ma .g)) 1 [(0, .mmio 0x110)]
     let s := with_ o
     s.mayPerform o && !s.opRemote o && (s.finalPlaces o).any (fun ps =>
       (firstBad ps).isNone && mget ps 0 == some (.mmio 0x110) && o.unitsLeft ps == [(1, 0x110)] && unitLanes o ps (1, 0x110) == [0])) = true := by decide +kernel

theorem memWf_with (o : MemOp) : MemWf (with_ o) := by
  refine ⟨rfl, fun e he => ?_⟩
  simp only [with_, map_, at_, List.mem_singleton] at he
  subst he
  decide

/-- In memory and in a scratchpad, with one lane and with two; with and without poison. -/
theorem test_w_AtomPerforms :
    ([(Place.phys 0x40000000 leafRW, false), (.sp 0 0, false), (.phys 0x40000000 leafRW, true)].all (fun c =>
      let o := memop (.atom (at1 g7 .i32 .g)) 3 [(0, c.1), (1, c.1)]
      let s := with_ o
      let s := if c.2 then { s with mem := { s.mem with poison := [(0x40000000 / 32, ())] } } else s
      mget s.mops o.id == some o && s.mayPerform o && !isStream o.who && mhas s.warps o.who && (s.longAbsent o.who o.handler (opRegs o)).isEmpty &&
      (s.finalPlaces o == some [(0, c.1), (1, c.1)]) && (c.1.loc.any (fun l => s.atHand l 4 && s.locPoison l 4 == c.2)))) = true := by decide +kernel

def fill_ : L1Fill := { line := 5, sectors := 0xF, data := 7, sb := 0, epoch := 0, poison := 1, stored := 2, waiters := [(7, 0)] }

/-- A fill of this epoch and of an older one, for a line that is there and one that is not; a lane that waits for it; an
invalidate that is due and one that is not; a load, a store and an atomic on another module, with room for the record and without. -/
theorem test_w_FillsAndTimeouts :
    (let c : Core := { fills := [fill_, { fill_ with epoch := 15, whole := true }], l1 := [(5, { line := 5 })], heldInv := [7] }
     let o := { memop (.ld .b4 (ma .g)) 1 [(0, .phys (5 * 128) leafRW)] with data := [], started := true }
     let s := { with_ o with cores := [(0, c)] }
     (c.fills[0]? == some fill_ && fill_.epoch == c.epoch && (fill_.sectors &&& ~~~fill_.poison &&& ~~~fill_.stored) != 0 && mhas c.l1 5 &&
       (c.fills[1]?).any (fun f => f.epoch != c.epoch) && c.fills.all (fun g => g.epoch != c.epoch + 1) &&
       fill_.waiters.contains (o.id, 0) && (lanesOf o.mask).contains 0 && !mhas o.data 0 && s.mops == [(7, o)] &&
       (fill_.sectors &&& lineSectors (5 * 128) 4) == lineSectors (5 * 128) 4 && mhas s.warps o.who && mget s.mops 7 == some o &&
       ({ c with fills := [{ fill_ with epoch := 1 }] } : Core).fills.any (fun g => g.epoch == c.epoch + 1) && !mhas c.l1 6 && decide (c.l1.length < Config.l1Lines))) = true ∧
    ([memop (.ld .b4 (ma .g)) 3 [(0, .phys (hostTop + 2 ^ 40) leafRW), (1, .phys (windowTop - 128) leafRW)],
      memop (.st .b4 (ma .g)) 1 [(0, .phys (hostTop + 2 ^ 40) leafRW)],
      memop (.atom (at1 g7 .i32 .g)) 1 [(0, .phys (hostTop + 2 ^ 40) leafRW)]].all (fun o =>
        let s := with_ o
        let k : Cluster := { errhead := BitVec.ofNat 64 (ringSize 0) }
        s.mops == [(o.id, o)] && !isSaved o.who && o.place.all (fun p => match p.2 with | .phys pa _ => s.isRemote pa | _ => false) &&
        (lanesOf o.mask).all (fun L => mhas o.place L) && s.mayAcquire 0 && !o.held && !s.tokenFirst o && !s.regs.hostLost && mhas s.warps 0 &&
        (s.longAbsent 0 false (opRegs o)).isEmpty && !(s.ctl 0).inTrap &&
        decide (((s.cluster 0).errhead - (s.cluster 0).errtail).toNat ≠ ringSize (s.cluster 0).errbase) &&
        decide ((k.errhead - k.errtail).toNat = ringSize k.errbase))) = true := by decide +kernel

def treq (a : Acc) (st : TrState := .need) : TReq := { id := 3, ctx := 0, va := 0x12345000, acc := a, st := st }

/-- The leaf of 1 GiB of each clause of `WalkAnswers`: V clear, malformed, granted to a read and to a write, write-fault, and refused. -/
def leaves : List (Acc × Nat) := [(.load, 0x40000006), (.load, 0x40000407), (.load, 0x4000000F), (.store, 0x4000000F), (.store, 0x40000013), (.store, 0x40000003)]

def cellsOf (leaf : Nat) : List Host.Cell := ((List.range 4).map (fun i => (0x10000000 + i, BitVec.ofNat 8 (leaf / 256 ^ i)))).filter (fun c => c.2 != 0)

def faultRec (fid : Nat) (posted : Bool) : FaultRec :=
  { fid := fid, ctx := 0, va := 0, cause := 1, acc := .load, pgsz := 4, core := 0, warp := 0, eng := false, log := 0, level := 0, kc := false
    ptea := 0x10000000, pte := 0, posted := posted }

theorem test_w_TranslationAndRings :
    (leaves.all (fun c =>
      let s := { map_ (at_ id) (cellsOf c.2) with treqs := [(3, treq c.1)] }
      let t := treq c.1
      let e : W64 := BitVec.ofNat 64 c.2
      mget s.treqs t.id == some t && s.mayWalk t && (tlbFind (s.cluster t.cluster).tlb t.ctx 0).isNone && s.atHand (.phys 0x10000000) 8 &&
      !s.physPoison 0x10000000 8 && leWord 64 (s.physRead 0x10000000 8) == e &&
      ((mget s.regions 0).bind Region.ofEntry).any (fun r => decide (t.va % 2 ^ 51 < 2 ^ r.span) && r.levels == 1 &&
        0x10000000 == r.root + 8 * (t.va % 2 ^ r.span / 2 ^ pageBits r.pgsz)) &&
      (let t' := treq c.1 (.faulted 9)
       let s' := { s with treqs := [(3, t')], clusters := [(0, { faults := [faultRec 9 true] })] }
       s'.joined 0 9 == [t'] && (s'.cluster 0).faults.any (fun f => f.fid == 9 && f.posted)))) = true ∧
    (let x : Inval := { id := 4, kind := 0, ctx := 0, va := 0x40000000, pages := 1, who := some (0, 0), host := false }
     let s := { at_ id with invals := [x], ctls := [(0, { waits := [⟨.tlbinv 4, 0, 0, 0⟩] })], treqs := [(3, treq .load (.ok leafRW))]
                            clusters := [(0, { faults := [faultRec 9 false] }), (1, { fqhead := BitVec.ofNat 64 (ringSize 0), faults := [faultRec 9 false] }), (2, { faults := [faultRec 9 true] })] }
     s.invals.find? (fun y => y.id == x.id) == some x && !s.invalBusy x && (s.ctl 0).waits.any (fun y => y.kind == .tlbinv 4 && y.lane == 0) &&
     (s.cluster 0).faults.find? (fun g => !g.posted) == some (faultRec 9 false) && ((s.cluster 0).fqhead - (s.cluster 0).fqtail).toNat != ringSize (s.cluster 0).fqbase &&
     ((s.cluster 1).fqhead - (s.cluster 1).fqtail).toNat == ringSize (s.cluster 1).fqbase && (s.cluster 2).faults.all FaultRec.posted) = true := by decide +kernel

/-- Warp 0 waits to grow to `n` blocks; warp 1, younger, waits too and holds `held` blocks, one of them dirty. -/
def growing (n held : Nat) (k : Core := {}) : State :=
  let w : Warp := { paths := [{ mask := 1, pc := 0x1004 }], exited := ~~~1#128, curb := 4 }
  { clock := 10, cores := [(0, k)], ctxs := [(0, BitVec.allOnes 512)]
    warps := [(0, w), (1, { w with age := 1, curb := 32, blocks := (List.range held).map (fun b => (b, { group := b / 128, row := b % 128, dirty := b == 0 })) })]
    ctls := [(0, { waits := [⟨.rgrow n, 0, 5, 0⟩] }), (1, { waits := [⟨.rgrow 40, 0, 6, 0⟩] })] }

/-- The blocks are free; they are not and more will not come; the reserve suffices; it is taken and warp 1 is the victim; a spilled
warp comes back, or must wait for its write-backs; a fill of a mapped image, of a lost one and of one that violates; a write-back. -/
theorem test_w_BlockEvents :
    (let s := growing 8 4
     (s.blockReqs 0).head? == some (.grow 0) && (s.ctl 0).rgrowWait == some 8 && decide (8 - 4 ≤ s.freeOrdinary 0) && (!s.growthDeadlock 0 || s.grantDue 0)) = true ∧
    (let s := growing 8 254
     (s.blockReqs 0).head? == some (.grow 0) && decide (s.freeOrdinary 0 < 8 - 4) && s.growthDeadlock 0 && !s.grantDue 0 &&
       (s.byAge ((s.warpsOfCore 0).filter (fun v => (s.ctl v).rgrowWait.isSome && (s.ctl v).spilled.isNone))).head? == some 0 &&
       (s.core 0).reserve.isNone && decide (8 - 4 ≤ s.freeOrdinary 0 + 16) && (s.usedRows 0).all (fun q => decide (q.1 < s.groups 0))) = true ∧
    (let s := growing 8 254 { reserve := some 9 }
     s.growthDeadlock 0 && !s.grantDue 0 && s.spillVictim 0 == some 1 && s.settled 1 && (s.saveAllReady 1 .store [(s.tsave 1 + 0x21000, 0x1400), (s.tsave 1 + 0x40000, 0x40000)]).1) = true ∧
    (let s : State := { growing 8 0 with warps := [(0, { curb := 2 })], ctls := [(0, { spilled := some 3, waits := [⟨.rgrow 8, 0, 1, 0⟩], lost := [1] })] }
     let busy := { s with cores := [(0, { wbs := [{ who := 0, blk := 0, block := {}, va := 0, map := 0, ctx := 0 }] })] }
     s.blockReqs 0 == [.readmit 0] && decide (8 ≤ s.freeOrdinary 0) && (s.warp 0).blocks.isEmpty && busy.blockReqs 0 == [.readmit 0] &&
       (busy.core 0).wbs.any (fun y => y.who == 0)) = true ∧
    (let b : Block := { absent := true, filling := true }
     let s := map_ (at_ (fun w => { w with blocks := [(0, b), (1, { b with lost := true })] }))
     let s := { s with mem := { s.mem with present := (List.range 34).map (fun i => (2 ^ 30 / 128 + i, 0xF)) ++ (List.range 2).map (fun i => ((2 ^ 30 + 0x20000) / 128 + i, 0xF)) ++ [(0x10000000 / 128, 0xF)] } }
     (mget (s.warp 0).blocks 0).any (fun x => x.absent && x.filling && !x.lost) && (mget (s.warp 0).blocks 1).any Block.lost &&
     (match s.askSpan 0 (s.imageAt 0 0).1 4096 .load 0 0 (fillTag 0) with
      | (.ok ps, u) => (match u.askSpan 0 (s.imageAt 0 0).2 128 .load 0 0 (fillTag 0) with
        | (.ok qs, v) => (ps ++ qs).all (fun p => (linesOf p.2.1 p.2.2).all (mhas v.mem.present) && !v.physPoison p.2.1 p.2.2)
        | _ => false)
      | _ => false) &&
     (match (at_ (fun w => { w with blocks := [(0, b)] })).askSpan 0 (2 ^ 58) 4096 .load 0 0 (fillTag 0) with | (.viol _ _, _) => true | _ => false) &&
     (match s.askSpan 0 0x4000 4096 .store 0 0 (fillTag 64) with
      | (.ok l, u) => l == [(0, 2 ^ 30 + 0x4000, 4096)] && (match u.askSpan 0 0x20000 128 .store 0 0 (fillTag 64) with
        | (.ok m, _) => m == [(0, 2 ^ 30 + 0x20000, 128)]
        | _ => false)
      | _ => false) &&
     (match s.askSpan 0 (2 ^ 58) 4096 .store 0 0 (fillTag 64) with | (.viol _ _, _) => true | _ => false)) = true ∧
    -- pages of 64 KiB: the image may be read, its poison map not
    (let s := map_ (at_ (fun w => { w with blocks := [(0, { absent := true, filling := true })] }))
     let s := { s with regions := [(0, BitVec.ofNat 64 (2 ^ 63 + 2 ^ 60 + 31 * 2 ^ 54 + 0x10000000))]
                       mem := { cells := [(0x10000000, 1), (0x10000001, 0x10), (0x10000003, 0x10), (0x10001000, 0x2F), (0x10001003, 0x40), (0x10001010, 1), (0x10001013, 0x40)]
                                present := [(0x10000000 / 128, 0xF), (0x10001000 / 128, 0xF)] } }
     match s.askSpan 0 (s.imageAt 0 0).1 4096 .load 0 0 (fillTag 0) with
     | (.ok _, u) => (match u.askSpan 0 (s.imageAt 0 0).2 128 .load 0 0 (fillTag 0) with | (.viol _ _, _) => true | _ => false)
     | _ => false) = true := by decide +kernel

def thread_ (c : WarpCtl) (leaf : List Host.Cell := [(0x10000000, 0x2F), (0x10000003, 0x40)]) : State :=
  { map_ { at_ id c with cur := none, wgs := [(0, { id := 0, grid := 9 })], grids := [(9, { id := 9 })] } leaf with
    mem := { cells := leaf, present := [(0x10000000 / 128, 0xF), (0x40001000 / 128, 0xF)] } }

theorem test_w_ThreadEvents :
    (let s := thread_ {}
     let p : Path := { mask := 3, pc := 0x1004 }
     ((s.warp 0).pathAt 0 == some p && (s.packetOf 0 p).isNone &&
      (match s.ask 0 0x1000 .fetch 0 0 fetchTag 0x1000 0 16 with
       | (.ok pa _, u) => pa == 0x40001000 && u.atHand (.phys pa) 16 && !u.physPoison pa 16 && (mget (u.core 0).icache (pa / 16)).isNone &&
          (mget ({ u with cores := [(0, { icache := [(pa / 16, 0)] })] }.core 0).icache (pa / 16)).isSome
       | _ => false) &&
      (match (thread_ {} [(0x10000000, 0x27), (0x10000003, 0x40)]).ask 0 0x1000 .fetch 0 0 fetchTag 0x1000 0 16 with | (.viol _, _) => true | _ => false) &&
      ((thread_ { fetched := [⟨0x1000, 0, 0⟩] }).packetOf 0 p).isSome && !p.inside && !(s.ctl 0).inTrap)) = true ∧
    -- an acquire that may be made and one that may not; words that are poisoned
    ([0, 1].all (fun e => let s := { thread_ { acq := true } with cores := [(0, { fills := [{ fill_ with epoch := e }] })] }
      ((s.warp 0).pathAt 0).isSome && (s.ctl 0).acq && s.canFlash 0 == (e == 0))) = true ∧
    (let s := { thread_ {} with mem := { (thread_ {}).mem with poison := [(0x40001000 / 32, ())] } }
     match s.ask 0 0x1000 .fetch 0 0 fetchTag 0x1000 0 16 with
     | (.ok pa _, u) => u.atHand (.phys pa) 16 && u.physPoison pa 16 && ((u.dropFetch 0 0).trapWaits 0 0).isNone && (u.trapWaits 0 0).isNone
     | _ => false) = true ∧
    ([{ pmtx := true, pabft := true, tvec := 0x2000 }, ({ pabft := true, tvec := 0x2000 } : WarpCtl)].all (fun c =>
      ((at_ id c).trapWaits 0 0).isNone && !((at_ id c).ctl 0).inTrap && !((at_ id c).takeTrap 0 0 { cause := .abft, info := .same 0, resume := 0x1004, pc := 0x1004, async := true }).blocked)) = true ∧
    (let s := thread_ { lastIssue := 10 }
     (s.warpMay 0 && !(s.pathsOf 0).isEmpty && mhas s.ctls 0 && (s.warp 0).live != 0 && decide (s.clock - (s.ctl 0).lastIssue < 2048) &&
       decide (2048 ≤ ({ s with clock := 2058 } : State).clock - (s.ctl 0).lastIssue) && !s.warpBusy 0)) = true ∧
    (let s := { thread_ {} with warps := [(0, { exited := BitVec.allOnes 128 })] }
     ((s.warp 0).live == 0 && !s.warpBusy 0 && (mget s.wgs 0).any (fun g => g.st != .retired) && (mget s.grids 9).isSome && s.filedThreads 0 0 == 0 &&
       (mget s.ctls (savedBase * (s.nextId + 1))).isNone && s.mops.isEmpty && !s.wgStores 0)) = true ∧
    (let x : Waiting := ⟨.twait 29 0 true, 0, 0, 0⟩
     (let s := { thread_ { waits := [x] } with wgs := [(0, { id := 0, sp := [(11, 3)], spxt := [(0, 2 ^ 62)] })], cores := [(0, { fills := [{ fill_ with epoch := 1 }] })] }
      match s.locAt 0 0 true 0 .load 0 0 twaitTag with
      | (.at_ k, u) => bitsOf (leWord 128 (u.locRead k 16)) 88 3 == 3 && bitsOf (leWord 128 (u.locRead k 16)) 0 32 == 0 && !u.mayAcquire 0
      | _ => false) &&
     ([([(0, 1)] : List Host.Cell), []].all (fun l =>
       let s := { thread_ { waits := [x] } with wgs := [(0, { id := 0, sp := l, spxt := [(0, 2 ^ 62)] })] }
       s.pollable 0 == [x] && !s.tokPending 0 x.before (some (0, 0)) &&
       (match s.locAt 0 0 true 0 .load 0 0 twaitTag with
        | (.at_ k, u) => u.atHand k 16 && !u.locPoison k 16 && (bitsOf (leWord 128 (u.locRead k 16)) 0 32 == 0) == l.isEmpty
        | _ => false)))) = true ∧
    (let x : Waiting := ⟨.sem .ge 0x1000 1, 0, 0, 0⟩
     let e : Waiting := ⟨.event true 1 2, 0, 0, 0⟩
     let s := { map_ (stream_ id) with ctls := [(16384, { waits := [x] })], mem := { cells := [(0x10000000, 0x2F), (0x10000003, 0x40)], present := [(0x10000000 / 128, 0xF), (0x40001000 / 128, 0xF)] } }
     let full := stream_ id (fun y => { y with evqhead := BitVec.ofNat 64 (ringSize 0) })
     (s.pollable 16384 == [x] && (match s.ask 0 0x1000 .load (coreOf 16384) 16384 twaitTag 0x1000 0 8 with
       | (.ok pa _, u) => u.atHand (.phys pa) 8 && !u.physPoison pa 8 && !semHolds .ge (leWord 64 (u.physRead pa 8)) 1 && semHolds .lt (leWord 64 (u.physRead pa 8)) 1
       | _ => false) && (full.stream 0).full && !(s.stream 0).full && s.settled 16384 && !s.regs.hostLost && ((stream_ id (fun y => { y with held := [5] })).stream 0).held.length == 1 &&
       (({ s with ctls := [(16384, { waits := [e] })] }).ctl 16384).waits == [e] && ((s.warp 16384).pathAt 0).isSome)) = true := by decide +kernel

def bin_ : Bin := { id := 2, wg := 0, pc := 0x1008, key := 7, n := 3, threads := [{ tid := 5, regs := [⟨1, false⟩, ⟨2, false⟩, ⟨3, true⟩], preds := 1, idx := [] }], since := 10
                    ready := true, src := { nwarp := 1 }, tvec := 0 }

theorem test_w_ReformEvents :
    (let x : Waiting := ⟨.reform (.dir 1) 3 3, 0, 0, 0⟩
     let s := { at_ (regs [(1, 0, 7), (1, 1, 8)]) { waits := [x] } with cur := none, wgs := [(0, { id := 0 })] }
     (s.reformMay 0 && (s.ctl 0).spilled.isNone && s.pollable 0 == [x] && (s.core 0).bins.isEmpty &&
       ({ who := 0, lane := 0, i := .reform ⟨false, 7⟩ (.dir 1) 3, w := s.warp 0, path := 3, mask := 3, pc := 0x1004 } : Issue).absentBlocks (s.warp 0) == [])) = true ∧
    (let s := { at_ id with cur := none, wgs := [(0, { id := 0 })], cores := [(0, { bins := [bin_] })] }
     (s.nextBin 0 == some bin_ && (mget s.wgs 0).any (fun g => g.st == .resident) && s.freeSlot 0 == some 1 && s.freeNum 0 == some 1 && s.freeSaveNum 0 0 == some 1 &&
       decide (max bin_.src.minb ((bin_.n + 7) / 8) ≤ s.freeOrdinary 0) && decide (bin_.threads.length ≤ 128))) = true := by decide +kernel

def eop (i : Instr) (vals : List W64) (phase : Nat := 1) : EngOp :=
  { id := 7, who := 0, core := 0, wg := 0, ctx := 0, instr := i, pc := 0x1004, vals := vals, flags := [(0, 0)], phase := phase }

/-- An engine operation of warp 0, whose workgroup has scratchpad window 0 and eight accumulator granules; VAs from 0 are mapped. -/
def eng_ (o : EngOp) (cells : List Host.Cell := []) (lines : List Nat := []) (k : Core := { running := some 7, mtx := [7], geo := [7] }) : State :=
  let s := map_ { at_ (regs [(1, 0, 0)]) with cur := none, nextId := 8, eops := [(7, o)], cores := [(0, k)], grids := [(9, { id := 9, op := 7 })]
                                              wgs := [(0, { id := 0, grid := 9, accg := List.range 8, spxt := [(0, 2 ^ 62)] })] }
  { s with mem := { s.mem with cells := s.mem.cells ++ cells, present := s.mem.present ++ lines.map (fun l => (l, 0xF)) } }

def inGranule (s : State) (who g a n : Nat) : Bool :=
  !isStream who && (s.warp who).wg == g && decide (a + n ≤ 2 ^ 21) && (mget s.wgs g).any (fun w => (List.range n).all (fun i => w.spRes (a + i) == .granule))

theorem test_w_EngineEvents :
    (let cp := copy_ (.reg 30) .sp .sp false
     let vals := [0, 0x80, 31, 0, 0, 0, 0, 0x100, 0, 0]
     let o := { eop (.copy cp) vals with nums := [0, 0] }
     let s := eng_ o
     (mget s.eops 7 == some o && (copyPlan cp vals).any (fun p => let k := p.chunk 0 0
        decide (0 < k.n) && decide (0 ≤ k.ea) && inGranule s 0 0 (p.src + (k.row : Int) * p.sstr + (k.pos : Int)).toNat k.n && inGranule s 0 0 k.ea.toNat k.n) &&
      (copyPlan { cp with sums := true } vals).any (fun p => p.nc != 0 && p.suma % 4 == 0 && inGranule s 0 0 p.suma (4 * (p.ndr + p.ndc))))) = true ∧
    (let o := { eop (.copy (copy_ (.special .zero) .g .g false)) [0, 0, 31] with ready := 1 }
     (o.tok.isNone && mget (eng_ o).eops 7 == some o)) = true ∧
    (let o := { eop (.prefetchL2 (.reg 1) (.reg 2) 3 true) [0x1000, 0x80] with tok := some (0, true) }
     let s := eng_ o
     (inGranule s 0 0 0 1 && decide (0x1000 + 0x80 ≤ s.pageEnd 0 0x1000) && (match s.ask 0 0x1000 .prefetch 0 0 7 0x1000 0 0x80 with
       | (.ok pa _, u) => !isWindow pa && !isWindow (pa + 0x80) && !u.regs.hostLost && (linesOf pa 0x80).all (fun l =>
           !mhas u.mem.frames (l / 32) && (lineSecs l).all (fun k => !mhas u.mem.poison k)) &&
           decide (u.mem.present.length + (linesOf pa 0x80).length ≤ Config.l2SliceLines)
       | _ => false))) = true ∧
    ([false, true].all (fun e =>
      let o := { eop (.accz 1 0) [] with emul := e }
      let s := { eng_ o with clusters := [(0, { emulQ := [7] })] }
      s.matrixReady o && mhas s.wgs 0 && (s.cluster 0).emulQ == [7] && (mget s.fwTraps 0).isNone && s.ctls.all (fun c => c.2.quorumIssue.isNone))) = true := by decide +kernel

/-- An MMA whose operands lie in window 0, and one whose operand B is unmapped; an ATTN over no key that begins and ends, that does
neither, and that ends with poison in its tile. -/
theorem test_w_EngineEvents_matrix :
    (let x : MmaArgs := ⟨20, 22, false, 0, .bf16, .bf16, false, false, true, 0⟩
     ([(0x1000000, true), (0x1200000, false)].all (fun c =>
       let o := { eop (.mma x) [0x1000000, 0, c.1, 0] with nums := [1] }
       let s := eng_ o
       let a := mapAt o.vals 0
       let b := mapAt o.vals 2
       match s.readOperands o [⟨a.space, false, (List.range 64).flatMap (fun i => rowRanges x.fa (depthK x.fa x.fb) (a.row i))⟩, ⟨a.space, false, []⟩,
           ⟨b.space, false, (List.range (colsN x.nsel)).flatMap (fun j => rowRanges x.fb (depthK x.fa x.fb) (b.row j))⟩, ⟨a.space, false, []⟩, ⟨b.space, false, []⟩] with
       | (q, _) => s.matrixReady o && !q.wait && q.poison.isEmpty && q.viols.isEmpty == c.2 && mfam x.fa != .int))) = true ∧
    ([(true, true, false), (false, false, false), (false, true, true)].all (fun c =>
      let x : AttnArgs := ⟨24, .bf16, .bf16, 0, false, false, c.1, c.2.1⟩
      let o := { eop (.attn x) [0x1000000, 0, 0x8001002000, 0, 0x8001004000, 0, 0x40000, 0] with nums := [1] }
      let s := eng_ o
      let s := if c.2.2 then { s with wgs := s.wgs.map (fun w => (w.1, { w.2 with acPoison := [(0, ())] })) } else s
      s.matrixReady o && mhas s.wgs 0 && !x.ksrc && (attnDesc o.vals).len == 0 &&
        s.locPoison (.ac 0 (attnDesc o.vals).ooff) (4 * (64 * headD x)) == c.2.2 &&
        decide ((attnDesc o.vals).ooff + 4 * (64 * headD x) ≤ (attnDesc o.vals).soff))) = true := by decide +kernel


/-- A KV cache of one node at VA 0x140 with one page, its record at 0x100; `node` is the node's byte of lock and open bits. -/
def kvCells (node : Nat) (page : List Host.Cell) : List Host.Cell :=
  [(0x40000100, 1), (0x40000108, 0x40), (0x40000109, 1), (0x4000011A, 1), (0x40000150, BitVec.ofNat 8 node), (0x40000154, 1), (0x40000158, 0x80),
    (0x40000159, 1)] ++ page

/-- A KVWALK, KVAPPEND or KVCOMMIT in work, one that has its work behind it, and one that waits for a lock. -/
theorem test_w_WalkerAndGeoEvents_kv :
    (let w : KvWalkArgs := ⟨.reg 1, .special .zero, 0, true, 0, false, .special .zero, true⟩
     let o := eop (.kvwalk w) [0x100, 0, 0]
     let s := eng_ o (kvCells 1 [(0x40000181, 0x10)])
     s.kvReady o && inGranule s 0 0 0 8 && (match s.kvRecord o 0x100 with
       | (.ok (r, o1), t0) => o1.pos == 0 && o1.tok.isNone && o1.id == o.id && (match t0.kvLimit o1 r w.unc with
         | (.ok lim, t1) => (match t1.kvResolve o1 r 0 lim with
           | (.ok (.page pg k _), t2) => pg == 0x1000 && k == 0 && inGranule t2 0 0 0 8
           | _ => false)
         | _ => false)
       | _ => false)) = true ∧
    (let a : KvAppendArgs := ⟨.special .zero, .reg 1, .special .zero, 2, 0, false, .special .zero, true⟩
     let o := eop (.kvappend a) [0x100, 0, 0, 0]
     let s := eng_ o (kvCells 3 [])
     s.kvReady o && (match s.kvRecord o 0x100 with
       | (.ok (r, o1), t0) => decide (0 < r.nhead) && o1.pos == 0 && (match t0.kvFind o1 r (r.len + 0 + o1.pos) with
         | (.ok .locked, _) => true
         | _ => false)
       | _ => false)) = true ∧
    (let c : KvCommitArgs := ⟨.reg 1, .reg 2, .device, .special .zero, true⟩
     let o := eop (.kvcommit c) [0x100, 1]
     let s := eng_ o (kvCells 1 [(0x40000181, 0x10)])
     s.kvReady o && (match s.kvRecord o 0x100 with
       | (.ok (r, o1), t0) => o1.tok.isNone && o1.id == o.id && (match t0.kvCommitCheck o1 r 1 with
         | (.ok true, t1) => (match t1.kvSpan o1 0x100 8 .engWrite with
           | (.ok [(0, pa, 8)], t2) => pa == 0x40000100 && t2.atHand (.phys pa) 8
           | _ => false)
         | _ => false)
       | _ => false)) = true ∧
    (let o := { eop (.kvcommit ⟨.reg 1, .reg 2, .device, .special .zero, true⟩) [0x100, 1] with ready := 2 }
     mget (eng_ o).eops 7 == some o && o.tok.isNone) = true ∧
    ([5, 500].all (fun r => let o := { eop (.kvcommit ⟨.reg 1, .reg 2, .device, .special .zero, true⟩) [0x100, 1] with phase := 3, ready := r }
      mget (eng_ o).eops 7 == some o && decide (r ≤ (eng_ o).clock) == (r == 5))) = true := by decide +kernel

/-- Three triangles: a left turn that the filter settles, one whose first point is no number, one that only the exact unit settles. -/
theorem test_w_WalkerAndGeoEvents_geo :
    (let x : GeoArgs := ⟨g7, .dir 4, .dir 10, .dir 16, false, true, false, false, 1⟩
     let o := { eop (.geoOrient2 x) [] with
       mask := 7, dst := [(0, [4]), (1, [4]), (2, [4])]
       lanes := [(0, [0, 0, 0x3FF0000000000000, 0, 0, 0x3FF0000000000000]), (1, [0x7FF0000000000000, 0, 0, 0, 0, 0]),
         (2, [0, 0, 0x3FF0000000000000, 0x3FF0000000000000, 0x4000000000000000, 0x4000000000000000])] }
     let settled := { o with phase := 2, res := [(0, 1), (1, 3), (2, 0)] }
     let lane := fun L => (geoLane o L).1
     (geoArgs o.instr == some (.orient2, x) && ((eng_ o).core 0).geo == [7] &&
       filterCode .orient2 (lane 0) == some 1 && badCoord (lane 1).flatten && filterCode .orient2 (lane 2) == none && !badCoord (lane 2).flatten) &&
     (let w := { settled with res := [(0, 1), (1, 3)] }
      ((eng_ w).core 0).exact.isEmpty && ((eng_ w [] [] { geo := [], exact := [(7, 2)] }).core 0).exact == [(7, 2)]) &&
     (eng_ settled).geoHere settled &&
     ((eng_ settled).longAbsent 0 settled.handler (mvals settled.dst).flatten.eraseDups == [] && !((eng_ settled).ctl 0).inTrap &&
       (lanesOf settled.mask).all (fun L => mhas settled.res L) && (eng_ settled).warps.any (fun e => e.1 == 0))) = true := by decide +kernel

def wfs (s : State) : Bool := Memory.wf s.mem.cells && s.wgs.all (fun e => e.2.id == e.1 && Memory.wf e.2.sp && Memory.wf e.2.ac)

/-- A launch descriptor at VA 0x100: one workgroup of one thread, in the reset partition. -/
def descrCells : List Host.Cell :=
  [(0x40000106, 0x10), (0x40000108, 1), (0x4000010A, 0x10), (0x4000010D, 4), (0x4000010E, 0x42), (0x40000110, 1), (0x40000112, 1), (0x40000114, 1)]

def launch_ (phase : Nat) (par err st : Nat) : EngOp :=
  { eop (.launch (.reg 1) (if st = 0 then .special .zero else .reg 2) 0 1) [0x100, 0x80] phase with nums := [par, 0, err, st, 0, 1] }

/-- A good and a bad descriptor; the status word of an acceptance and of a refusal; room and none, with a parent; a grid with its
work done, and one without. -/
theorem test_w_GridEvents :
    (let st := fun (o : EngOp) (bs : List Host.Cell) => { eng_ o bs [0x800002, 0x800001] with nextId := 10 }
     let ok := fun (s : State) (o : EngOp) => wfs s && s.grids.all (fun e => e.2.id == e.1 && decide (e.1 < s.nextId)) && o.tok.isNone && o.nums.length == 6 &&
       mget s.eops 7 == some o && s.forkDone o
     (let o := launch_ 0 0 0 0
      let s := st o descrCells
      ok s o && (match s.ask 0 0x100 .engRead 0 0 7 0x100 0 64 with
        | (.ok pa _, u) => wfs u && u.atHand (.phys pa) 64 && !u.locPoison (.phys pa) 64 && launchErr (leWord 512 (u.physRead pa 64)) 0 == 0
        | _ => false)) &&
     (let o := launch_ 0 0 0 0
      let s := st o []
      ok s o && (match s.ask 0 0x100 .engRead 0 0 7 0x100 0 64 with
        | (.ok pa _, u) => wfs u && u.atHand (.phys pa) 64 && !u.locPoison (.phys pa) 64 && launchErr (leWord 512 (u.physRead pa 64)) 0 == 1
        | _ => false)) &&
     ([0, 3].all (fun e =>
       let o := launch_ 1 0 e 1
       let s := st o []
       ok s o && (match s.ask 0 0x80 .engWrite 0 (firmwareOf 0) 7 0x80 0 8 with
         | (.ok pa _, u) => wfs u && u.atHand (.phys pa) 8
         | _ => false))) &&
     ([(0, true), (65535, false)].all (fun c =>
       let o := launch_ 2 10 0 0
       let s := st o []
       let s := { s with grids := [(9, { id := 9, children := c.1 })] }
       ok s o && decide (10 ≤ s.nextId) && s.launchRoom o == c.2)) &&
     ([0, 1].all (fun h => [0, 1].all (fun n =>
       let o := launch_ 3 0 0 h
       let s := st o []
       let g : Grid := { id := 9, op := 7, parent := some 5, retired := n }
       let s := { s with grids := [(5, { id := 5, children := 1 }), (9, g)] }
       ok s o && mget s.grids 9 == some g && s.gridDone g == (n == 1) && (match s.ask 0 0x80 .engWrite 0 (firmwareOf 0) 7 0x80 0 8 with
         | (.ok pa _, u) => wfs u && u.atHand (.phys pa) 8
         | _ => false))))) = true := by decide +kernel

/-- A grid of four workgroups over 32 clusters, queued for an idle machine. -/
def queued_ (clock : Nat) (g : Grid) : State := { clock := clock, grids := [(9, g)], nextId := 10, ctxs := [(0, BitVec.allOnes 512)] }

def grid_ (part : W32) : Grid := { id := 9, op := 7, ccnt := 32, descr := { ngx := 4, part := part } }

/-- A dispatcher step that is due and places a unit, and one that is not; a unit passed over for long and for short; a core that is
to change its partition. -/
theorem test_w_DispatchEvents_place :
    (let g := grid_ 0x420400
     let s := queued_ 16 g
     let s0 := (s.sweep.fillWindows 0).modCluster 0 (fun x => { x with nextStep := s.clock + 16 })
     decide ((s.cluster 0).nextStep ≤ s.clock) && mget s0.grids 9 == some g && (match s0.firstFit 0 (s0.unitOrder 0) with
       | ([], some (h, u, [k])) => h == g && (match u.needs with
         | [n] => n.wg.isNone && k == 0 && s0.freeSlot k == some 0 && s0.freeSaveNum g.ctx (k / 8) == some 0
         | _ => false)
       | _ => false)) = true ∧
    (let s := { queued_ 0 (grid_ 0) with clusters := [(0, { nextStep := 5 })] }
     decide (s.clock < (s.cluster 0).nextStep)) = true ∧
    ([(100, false), (20000, true)].all (fun c =>
      let g := { grid_ 0x420400 with passed := [(0, 10)] }
      let s := queued_ c.1 g
      (s.cluster 0).resv.isNone && decide (16384 ≤ s.clock - 10) == c.2 && (match s.unitOrder 0 with
        | (h, u) :: _ => h == g && g.passedSince 0 u.unit == some 10
        | _ => false))) = true ∧
    (let s := queued_ 0 { grid_ 0x410800 with passed := [(0, 0)] }
     s.wantedPart 1 == some 0x410800 && s.coreEmpty 1 && (queued_ 0 (grid_ 0x420400)).wantedPart 1 == none &&
       ({ s with clusters := [(0, { resv := some (9, 0, [1]) })] }.cluster 0).resv.isSome) = true := by decide +kernel

/-- A unit that leaves, whose warp is at a boundary with nothing outstanding; one that stays; a save with its records to be written. -/
theorem test_w_DispatchEvents_leave :
    ([WgState.leaving, .resident, .saving].all (fun st =>
      let w : Wg := { id := 0, grid := 9, st := st }
      let s := { at_ id { boundary := true } with cur := none, wgs := [(0, w)], grids := [(9, grid_ 0)] }
      let us := s.unitOf w
      let ws := (us.map Wg.id).flatMap s.warpsOfWg
      wfs s && mget s.wgs 0 == some w && s.cur.isNone && ws == [0] && ws.all s.handedReady && us == [w] && !s.wgStores 0 && (s.ctl 0).heldGroup.isEmpty)) = true ∧
    (let w : Wg := { id := 0, grid := 9, st := .saving }
     let s := { map_ (at_ id) with warps := [], ctls := [], cur := none, wgs := [(0, w)], grids := [(9, grid_ 0)] }
     !((s.core w.core).wbs.any fun b => (s.awayWarps w.id).contains b.who) && !(mvals s.eops).any (holdsSave [0]) &&
     (match s.readWindows w ((spillWindows w.spxt).filter (fun k => !w.fillWin.contains k)) with
      | (true, t0) => (match t0.writeRecords (s.awayWarps w.id) with
        | (true, u0) => mget u0.wgs 0 == some w
        | _ => false)
      | _ => false)) = true := by decide +kernel

/-- Memory with some bytes and some lines in the L2, and the registers of the register space. -/
def mem_ (f : Regs → Regs) (cells : List Host.Cell := []) (lines : List Nat := []) (slots : SMap CodeSlot := []) (q : List BdReq := []) : State :=
  { regs := f { bootState := 2 }, mem := { cells := cells, present := lines.map (fun l => (l, 0xF)), slots := slots, bdq := q } }

theorem test_w_OutsideEvents :
    (let s := mem_ id [(0x1000, 5)] [32]
     wfs s && [1, 8, 128].all (fun n => inDev 0x1000 n && (linesOf 0x1000 n).all (fun l => s.mem.whole l)) &&
       ([ITy.i32, .i64].all (fun ty => 0x1000 % (ty.width / 8) == 0 && inDev 0x1000 (ty.width / 8) && !s.physPoison 0x1000 (ty.width / 8))) &&
       ([ITy.i32, .i64].all (fun ty => ({ s with mem := { s.mem with poison := [(0x80, ())] } } : State).physPoison 0x1000 (ty.width / 8))) &&
       !inDev 0x8FFFFFFFFC 8 && !inDev 0x9000000000 1 && !inDev 0x1000 0 && inDev 0x8FFFFFFFF8 8 &&
       !isHostPa (128 * 32) && isHostPa 0x9000000000 && !s.regs.hostLost) = true := by decide +kernel

def shortCode : Host.Cell := (0x1000, 1)

/-- A line that goes out and one that comes in; the commands with good and bad addresses, images, formats and slots; a generation
that is still in use and one that has drained, with and without an image waiting. -/
theorem test_w_BaseDieEvents :
    (let s := mem_ id [(0x1000, 5)] [32]
     wfs s && mhas s.mem.present 32 && s.mem.inL2 128 && isDev 0x1000 && !mhas s.mem.present 33 && !s.mem.inL2 132 &&
       (List.range 4).all (fun j => match s.baseRead (0x1080 + 32 * j) with
         | .ok f => f.isNone && !mhas s.mem.poison (132 + j)
         | _ => false)) = true ∧
    -- a request that alone holds the retained generation of its slot
    (let q : BdReq := ⟨132, false, 1, 5, 2, none, 0, false⟩
     let s := mem_ id [] [] [(5, { gen := some 3, oldGen := some 2 })] [q]
     s.mem.bdq == [q] && q.fmt != 0 && (s.tableSlot q.slot).oldGen == some q.gen) = true ∧
    (let ld := fun (addr : W64) (cells : List Host.Cell) (slot : CodeSlot) =>
       mem_ (fun r => { r with cxCmd := some (1, 5, 0, 0), cxaddr0 := addr }) cells [32] [(5, slot)]
     let good := ld 0x1000 [shortCode] { gen := some 3 }
     (ld 0x1040 [] {}).regs.cxaddr0.toNat % 128 != 0 && !inDev (2 ^ 60) 128 &&
       wfs good && good.mem.whole (0x1000 / 128) && !good.physPoison 0x1000 128 && tableValid (tableOfImage (good.physRead 0x1000 128)) &&
       !tableValid (tableOfImage ((ld 0x1000 [] {}).physRead 0x1000 128)) &&
       ((ld 0x1000 [shortCode] { gen := some 3, oldGen := some 2 }).tableSlot 5).oldGen != none) = true ∧
    (let held : BdReq := ⟨0, false, 1, 5, 2, none, 0, false⟩
     ([none, some [1, 1]].all (fun p => [[], [held]].all (fun q =>
       let s := mem_ (fun r => { r with cxCmd := some (1, 5, 0, 0) }) [] [] [(5, { gen := some 3, oldGen := some 2, pending := p })] q
       wfs s && (s.tableSlot 5).oldGen == some 2 && s.mem.bdq.any (fun q => q.slot == 5 && q.gen == 2 && q.fmt != 0) == !q.isEmpty)))) = true ∧
    (let rc := fun (fmt pos cnt : Nat) (addr : W64) => mem_ (fun r => { r with cxCmd := some (2, 5, fmt, cnt), cxPos := pos, cxaddr0 := addr }) []
       ((List.range 64).map (fun l => 32 + l)) [(5, { gen := some 0, table := [1, 1] })]
     [0, 1, 18].all (fun f => [0, 1].all (fun i =>
       let s := rc f i 1 0x1000
       wfs s && inDev 0x1000 8192 && decide (f = 0 ∨ (s.tableSlot 5).gen ≠ none) &&
         (List.range 32).all (fun j => s.mem.whole (32 * (1 + i) + j)) && (List.range 128).all (fun j => match s.baseRead (4096 * (1 + i) + 32 * j) with | .ok f => f.isNone | _ => false))) &&
     (rc 19 0 1 0x1800).regs.cxaddr0.toNat % 4096 != 0 && !inDev 0x8FFFFFF000 8192 && ((rc 1 0 1 0x1000).tableSlot 4).gen.isNone) = true ∧
    (let dm := fun (pos : Nat) => mem_ (fun r => { r with cxCmd := some (3, 0, 0, 1), cxPos := pos, cxaddr0 := 0x1000, cxaddr1 := 0x2000 }) []
       ((List.range 16).map (fun l => 64 + l))
     [0, 1].all (fun i => wfs (dm i) && inDev 0x1000 8192 && inDev 0x2000 1152 && (linesOf (0x2000 + 576 * i) 576).all (fun l => (dm i).mem.whole l)) &&
       !inDev 0x8FFFFFFFC0 1152) = true := by decide +kernel

/-- Context 0's descriptor at PA 0 and its region 0 at 0x200. -/
def ctxCells : List Host.Cell := [(7, 0x80), (33, 2), (0x203, 0x10), (0x206, 0xC0), (0x207, 0x87)]

theorem test_w_HostEvents_streams :
    ((mem_ id).regRead 0x8 != none && !mmioForm 0x011 8 && mmioForm 0x010 8 && mmioForm 0x008 4 && (mem_ id).regRead 0x2F8 == none && !earlyOffset 0x100 &&
      ({ mem_ id with regs := {} }).regs.bootState != 2) = true ∧
    (let go := fun (cells : List Host.Cell) (bad : Bool) (pc : W64) =>
       let s := { stream_ id (fun _ => {}) with streams := [(0, { strpc := pc })] }
       { s with mem := { cells := cells, poison := if bad then [(0, ())] else [] } }
     !streamActive ((go [] false 0x1000).stream 0) && (go [] true 0).readDescr 0 0 == none &&
       ((go [] false 0).readDescr 0 0).elim false (fun d => !descrValid d) && ((go ctxCells false 0x1000).readDescr 0 0).elim false descrValid &&
       bitsOf (0x1008 : W64) 0 4 != 0 && bitsOf (0x1000 : W64) 57 7 == 0 && bitsOf (0x1000 : W64) 0 4 == 0) = true ∧
    ([false, true].all (fun b =>
      let s := stream_ (fun w => { w with paths := [{ mask := 1, pc := 0x1004, inside := b }] })
      streamActive (s.stream 0) && (s.warp 16384).paths == [{ mask := 1, pc := 0x1004, inside := b }] && !s.inSem 16384) &&
     { stream_ id with ctls := [(16384, { waits := [{ lane := 0, kind := .sem .ge 0 0 }] })] }.inSem 16384) = true := by decide +kernel

theorem test_w_HostEvents_commands :
    (let tl := fun (cnt : BitVec 17) => mem_ (fun r => { r with tlbCnt := cnt }) ctxCells
     let ok := fun (s : State) => rangeOk ((s.readDescr 0 s.regs.tlbCtx.toNat).bind
       (fun c => (s.peek (bitsOf c 265 43 * 512 + 8 * (s.regs.tlbiva.toNat / 2 ^ 51 % 64)) 8).map (leWord 64))) s.regs.tlbiva.toNat s.regs.tlbCnt.toNat
     ok (tl 1) && ok (tl 65536) && !ok (tl 0) && !ok (tl 65537) && !(tl 1).regs.tlbBusy && (mem_ (fun r => { r with tlbBusy := true })).regs.tlbBusy) = true ∧
    (let cc := fun (busy : Option (Nat × Nat)) (sus : List Nat) (cells : List Host.Cell) => mem_ (fun r => { r with ctxBusy := busy, suspended := sus }) cells
     (cc none [] ctxCells).ctxValid 0 && !(cc none [] []).ctxValid 0 && (cc none [0] ctxCells).regs.suspended.contains 0 && wfs (cc none [] ctxCells) &&
       [1, 3].all (fun op => (cc (some (op, 0)) [0] ctxCells).ctxAtRest 0 && !({ cc (some (op, 0)) [0] ctxCells with wgs := [(0, { id := 0 })] }.ctxAtRest 0)) &&
       (cc (some (4, 0)) [0] ctxCells).eops.isEmpty && (cc (some (4, 0)) [0] ctxCells).mops.isEmpty && (cc (some (4, 0)) [0] ctxCells).invals.isEmpty &&
       { cc (some (4, 0)) [0] ctxCells with eops := [(7, eop .bar [])] }.eops.any (fun o => o.2.ctx == 0)) = true ∧
    ([1, 2].all (fun k => let s := mem_ (fun r => { r with attBusy := some k, attAddr := 0x9000000 })
      wfs s && isHostPa (s.regs.attAddr.toNat * 4096) && isHostPa (s.regs.attAddr.toNat * 4096 + 0x1002000) && !s.regs.hostLost && !s.physPoison (s.regs.attAddr.toNat * 4096) 32 &&
        !isHostPa ((mem_ (fun r => { r with attBusy := some k })).regs.attAddr.toNat * 4096))) = true := by decide +kernel

theorem test_w_BootEvents :
    (let b := fun (f : Regs → Regs) => (mem_ f)
     let kept := fun (bs : List Byte) => b (fun r => { r with bootState := 1, bootStep := 3, warm := true, image := bs })
     let header : List Byte := [0x46, 0x43, 0x55, 0x4C] ++ List.replicate 5 0 ++ [0x10] ++ List.replicate 0x716 0 ++ [1]
     ([([0], false), (header, true)].all (fun c => match (kept c.1).fetchImage with
       | .ok bs => imgForm bs == c.2
       | .error _ => false)) &&
     ([(0, 5), (0x9000000000, 1)].all (fun c => match (b (fun r => { r with bootState := 1, bootStep := 3, imgaddr := c.1 })).fetchImage with
       | .error e => e == c.2
       | .ok _ => false)) && 0x9000000800 % 4096 != 0 && !isHostPa 0 &&
     (let w := b (fun r => { r with bootState := 2, bootStep := 0 })
      wfs w && w.liveCtxs.all w.ctxAtRest && w.eops.isEmpty &&
        mhas { w with mem := { w.mem with present := [(5, 0xF)] } }.mem.present 5) &&
     decide (2800 < (2801 : BitVec 12).toNat) && decide (100 * (2659 : BitVec 12).toNat < 95 * 2800) &&
       decide (95 * 2800 ≤ 100 * (2660 : BitVec 12).toNat)) = true := by decide +kernel

def collA : CollArgs := ⟨.reg 1, .reg 2, 3, .special .zero, true, false⟩

/-- A slot of a SEND, a RECV, a SIGNAL and a WAIT, each the first of its kind, for context 0 and engine 0. -/
def slot_ (f : CSlot → CSlot) : CSlot := f {
  state := 1, stage := 0x10000, peers := [0], bufs := List.replicate 8 0, tmo := 1
  nodes := [{ kind := 0, step := 1, chunk := 2, len := 128, soff := 0x1000 }, { kind := 1, step := 1, chunk := 2, len := 128 },
    { kind := 3, soff := 0x80, len := 5 }, { kind := 4, soff := 0x100, len := 5 }]
  run := List.replicate 4 {} }

/-- The slot runs operation 7 with sequence number 9. -/
def run_ (f : CNodeRun → CNodeRun) : CSlot := slot_ (fun c => { c with runOp := some 7, seq := 9, queue := [7], run := List.replicate 4 (f {}) })

def coll_ (i : Instr) (vals : List W64) (c : CSlot) (cells : List Host.Cell := []) (poison : List Nat := []) : State :=
  let s := { eng_ (eop i vals) cells [0x800001, 0x800002] with cslots := [(3, c)] }
  { s with mem := { s.mem with poison := poison.map (fun k => (k, ())) } }

def graphCells : List Host.Cell :=
  [(0x40000113, 8), (0x40000124, 1), (0x40000138, 0x80), (0x40000139, 1), (0x40000211, 0x80), (0x40000212, 2)] ++
    (List.range 5).map (fun k => (0x4000021B + k, (0xFF : Byte)))

/-- Loads of a graph that is right, of one that is wrong, of a wrong descriptor, of none, from nowhere, and into another context's
slot; runs on a free slot and on a loaded one. -/
theorem test_w_CollectiveEvents_load :
    (let ld := fun (vals : List W64) (cells : List Host.Cell) (ctx : Nat) => coll_ (.collLoad collA) vals (slot_ (fun c => { c with ctx := ctx, loads := [7] })) cells
     let base := fun (s : State) => match mget s.eops 7 with
       | some o => o.tok.isNone && o.phase == 1 && s.forkDone o && (s.cslot 3).loads.head? == some 7 && (s.cslot 3).queue.isEmpty
       | none => false
     let o := fun (vals : List W64) => eop (.collLoad collA) vals
     base (ld [0, 0] [] 5) && base (ld [0, 0] [] 0) &&
     (match (ld [0x80000000, 0] [] 0).collRead (o [0x80000000, 0]) 0x80000000 64 with
      | (.bad, t) => base t
      | _ => false) &&
     (match (ld [0x100, 0x200] [] 0).collRead (o [0x100, 0x200]) 0x100 64 with
      | (.ok db, t) => base t && !descrOk (leWord 512 db)
      | _ => false) &&
     ([(graphCells, true), (graphCells.take 4, false)].all (fun c => match (ld [0x100, 0x200] c.1 0).collRead (o [0x100, 0x200]) 0x100 64 with
      | (.ok db, t1) => descrOk (leWord 512 db) && bitsOf (leWord 512 db) 448 64 == 0x180 && (match t1.collRead (o [0x100, 0x200]) 0x180 4 with
        | (.ok pb, t2) => leNat pb == 0 && (match t2.collRead (o [0x100, 0x200]) 0x200 32 with
          | (.ok gb, t3) => base t3 && graphOk [leWord 256 gb] [0] 0 == c.2
          | _ => false)
        | _ => false)
      | _ => false))) = true ∧
    ([0, 1].all (fun st =>
      let s := coll_ (.collRun collA) [0, 0, 0, 0, 0, 0, 0, 0, 9] (slot_ (fun c => { c with state := st, queue := [7] }))
      (s.cslot 3).runOp.isNone && (s.cslot 3).queue.head? == some 7 && (s.cslot 3).loads.isEmpty && s.forkDone (eop (.collRun collA) [0]) &&
        (s.cslot 3).engine == 0 && (s.cslot 3).nodes.any (fun x => decide (x.kind ≤ 4)))) = true := by decide +kernel

/-- Credits, chunks and acknowledgments that match a node and that match none; a SIGNAL and a WAIT with their words at hand; a chunk
sent long ago. -/
theorem test_w_CollectiveEvents_run :
    ((slot_ id).find (fun x => x.kind == 0) 0 1 2 == some 0 && (slot_ id).find (fun x => x.kind == 0) 0 1 3 == none &&
      (slot_ id).find CNode.recv 0 1 2 == some 1 && (slot_ id).find CNode.recv 1 1 2 == none && (run_ id).live && (run_ id).runOp.isSome &&
      [8, 9, 10].all (fun q => decide (q < (run_ id).seq.toNat) == (q == 8) && decide ((run_ id).seq.toNat < q) == (q == 10))) = true ∧
    (let r := run_ (fun r => { r with staged := some 0 })
     let s := coll_ (.collRun collA) [] r
     (match s.stageLines (eop (.collRun collA) []) (r.stage + 65536 * 0) ((sentLines [true]).zip [(5, 6, 0)]) with
      | (some none, t) => t.cslot 3 == r && (sentLines [true]).length == 1
      | _ => false)) = true ∧
    ([false, true].all (fun bad => [0, 14].all (fun v =>
      let r := run_ (fun r => { r with ready := true })
      let s := coll_ (.collRun collA) [] r (if v = 0 then [] else [(0x40000100, BitVec.ofNat 8 v)]) (if bad then [0x40000100 / 32] else [])
      let at_ := fun (off : Nat) (acc : Acc) => s.engAt (eop (.collRun collA) []) (r.bufAt 0 off).1 (r.bufAt 0 off).2 8 acc
      (match at_ 0x80 .engWrite with
       | (.at_ (.mem l), t) => wfs t && t.atHand l 8 && t.cslot 3 == r && mget t.eops 7 == mget s.eops 7
       | _ => false) &&
      (match at_ 0x100 .engRead with
       | (.at_ (.mem l), t) => wfs t && t.atHand l 8 && t.cslot 3 == r && mget t.eops 7 == mget s.eops 7 && t.locPoison l 8 == bad &&
           (bad || (leWord 64 (t.locRead l 8) - r.semValue 3).getLsbD 63 == (v == 0))
       | _ => false)))) = true ∧
    ([0, 3].all (fun n => [10, 70000, 2000000].all (fun clk =>
      let c := run_ (fun r => { r with sent := true, resends := n, ready := true })
      let s := { coll_ (.collRun collA) [] c with clock := clk }
      let t := s.pickPort (c.nrun 0).port
      decide (65536 ≤ s.clock - (c.nrun 0).sentAt) == (clk != 10) && decide (c.tmo * 2 ^ 20 ≤ s.clock - c.startedAt) == (clk == 2000000) &&
      (match (t.2.modCslot 3 (fun c => c.modRun 0 (fun r => { r with resends := r.resends + 1, port := t.1, sent := false }))).sendChunk 3 0
          (eop (.collRun collA) []) with
        | (.done, _) => true
        | _ => false)))) = true ∧
    ((run_ (fun r => { r with partly := true })).live && ((run_ (fun r => { r with partly := true })).nrun 1).partly) = true := by decide +kernel

/-- No flag of the operations above is that of a warp that is away. -/
theorem test_w_flags_at_home : (eop .bar []).flags.all (fun f => !isSaved f.1) = true := by decide
/-! ### Further clauses of the statements -/

/-- The last to park, by a JOIN and by a WAITK, with a lane parked before at a JOIN of another site or at a WAITK. -/
theorem test_w_RejoinMasks_releases : ([Instr.join 15, .waitk 15].all (fun i =>
    [({ mask := 4, site := .join 15, at_ := 0x2004 } : Parked), { mask := 4, site := .waitk 15, at_ := 0x1004 }].all (fun q =>
      let f := fun (w : Warp) => { w with k := [(15, 7)], exited := ~~~7#128, parked := [q] }
      meets (at_ f) i (fun is =>
        let w := (at_ f).warp 0
        let inside := is.path &&& is.w.kmask 15
        let members := w.kmask 15 &&& w.live
        inside != 0 && members != 0 && mdiff members (4 ||| inside) == 0 && mdiff is.path inside &&& members == 0 && w.paths.length == 1 &&
          q.site.names 15 && 4 &&& inside == 0)))) = true := by decide +kernel

/-- A LOOP in the last words of its packet. -/
theorem test_w_LoopWord_end : meets (atPc 0x1008 (sregs [(1, 2)])) (.loop (.l1 (.reg 1) 1)) (fun is =>
    is.w.paths.length == 1 && !decide (is.pc.toNat / 4 % 4 < 2)) = true := by decide +kernel

/-- EXIT in a handler: of one lane of two; of the last lanes, with accesses outstanding, with a page of the frame to be serviced, and
with the frame at hand. -/
theorem test_w_ExitAndReform_handler :
    let last := fun (s : State) (p : State → Bool) => meets s (.exit g7) (fun is => is.mask != 0 && !isStream is.who && (s.ctl is.who).inTrap &&
      mdiff (s.ctl is.who).trapMask (is.mask ||| (s.warp is.who).exited) == 0 && p s)
    let one := handler_ (preds [(1, 1)]) (fun c => { c with trapMask := 3 })
    meets one (.exit ⟨false, 1⟩) (fun is => is.mask != 0 && mdiff (one.ctl is.who).trapMask (is.mask ||| (one.warp is.who).exited) != 0) = true ∧
    last (handler_ id (fun c => { c with trapMask := 3, unacked := 1 })) (fun s => !s.handlerSettled 0) = true ∧
    last (map_ trapped []) (fun s => s.handlerSettled 0 && (match s.readFrame 0 with | (none, _) => true | _ => false)) = true ∧
    last (map_ trapped) (fun s => s.handlerSettled 0 && (match s.readFrame 0 with | (some _, _) => true | _ => false)) = true := by decide +kernel

/-- The save area at VA 0 is device memory, and a store to it answers at once and leaves the machine as it was. -/
def areaStands (s u : State) : Bool :=
  let saved := ((List.range 2).filter (fun b => !((s.warp 0).block b).absent && ((s.warp 0).block b).dirty)).foldl
    (fun v b => v.saveBlock 0 0 b ((s.warp 0).block b)) u
  [0x24, 0x25, 0x27].all (fun k => isDev (2 ^ 30 + 0x1000 * k)) &&
  [(0x24000, 0x1000), (0x25000, 0x400), (0x27000, 32), (0x27020, 32)].all (fun x =>
    match saved.ask 0 x.1 .store 0 0 0 x.1 0 x.2 with
    | (.ok pa _, v) => pa == 2 ^ 30 + x.1 && (v == saved)
    | _ => false)

def entering_ : State := map_ (at_ (regs [(1, 0, 7)]) { tvec := 0x1000 })

def entered_ : State :=
  (((entering_.warp 0).pathAt 0).elim entering_ (fun p => entering_.noteQtrap 0 p 0x1004)).closeGroup.modCtl 0 (fun d => d.dropGroups 3)

def areaReady : Bool := entered_.tsave 0 == 0 && (match entered_.saveAllReady 0 .store (entered_.entryRanges 0) with
  | (true, u) => areaStands entering_ u
  | _ => false)

theorem test_w_TrapEntry_area : areaReady = true := by decide +kernel

theorem sub_add (bs : List Byte) (a b n : Nat) : sub bs (a + b) n = sub (bs.drop a) b n := by
  simp [sub, List.drop_drop]

/-- The lane words of a layout that name a parked lane of site `v`, an exited lane (4) or a filed one (5). -/
def lanesIn (words : List Byte) (v : Nat) : List Nat := (List.range 128).filter (fun L => sub words (4 * L) 4 % 8 == v)

theorem ofLayout_exited (w : Warp) (bs : List Byte) : (w.ofLayout bs).exited = maskOf (lanesIn (bs.drop 0x1100) 4) ||| w.exited := by
  simp only [Warp.ofLayout, lanesIn, sub_add]

theorem ofLayout_filed (w : Warp) (bs : List Byte) : (w.ofLayout bs).filed = maskOf (lanesIn (bs.drop 0x1100) 5) ||| w.filed := by
  simp only [Warp.ofLayout, lanesIn, sub_add]

/-- A frame in which rejoin mask 15 is lane 2 alone, which is parked at JOIN 15. -/
def metState : State :=
  map_ (handler_ (fun w => { w with exited := ~~~7#128 }) (fun c => { c with trapMask := 3, frozen := [{ mask := 3, pc := 0x1004 }] }))
    [(0x10000000, 0x2F), (0x10000003, 0x40), (0x40024470, 4), (0x40025108, 121)]

def metFrame (p : State → List Byte → Bool) : Bool := match metState.readFrame 0 with
  | (some (bs, _), u) => p u bs
  | _ => false

def metLanes : Bool := metFrame (fun u bs => match bs.drop 0x1100 with
  | [] => false
  | b :: ws => lanesIn (b :: ws) 4 == [] && lanesIn (b :: ws) 5 == [] && lanesIn (b :: ws) 1 == [2] && (u.warp 0).filed == 0 &&
      siteOf (sub (b :: ws) 8 4 % 256) == .join 15 && (u.ctl 0).trapMask &&& (u.warp 0).exited == 0)

theorem test_w_ReturnFromTrap_lanes : metLanes = true := by decide +kernel
theorem test_w_ReturnFromTrap_mask : metFrame (fun u bs => ((u.warp 0).ofLayout bs).kmask 15 == 4) = true := by decide +kernel
theorem test_w_ReturnFromTrap_met : (rdy metState .rte && metState.alone && metState.handlerSettled 0 && canResume metState 0) = true := by decide +kernel

/-- A compare-and-swap that returns nothing and one that does. -/
theorem test_w_MemoryIssue_cas : ([true, false].all (fun n =>
    let i := Instr.atom { at1 g7 .i32 .g with aop := .cas, noret := n }
    meetsWith (map_ (at_ id)) i noCheck memAlign (fun is => is.mask != 0 && (map_ (at_ id)).memRoom is))) = true := by decide +kernel

/-- Views that nothing is to write. -/
theorem test_w_RegisterView_free : ([(Instr.ld .u8 (ma .rw), 127, 1), (.st .b16 (ma .rw), 0, 16)].all (fun c =>
    let s := at_ (fun w => { regs [(8, 0, c.2.1)] w with curb := 4 })
    meetsWith s c.1 noCheck memAlign (fun is => !s.viewWaits is c.2.2))) = true := by decide +kernel

/-- A page range that may be invalidated, with an access of the thread outstanding. -/
theorem test_w_OrderingWords_page :
    let s := map_ (at_ (sregs [(1, 2 ^ 30), (2, 1)]) { unacked := 1 })
    meets s (.tlbinvPage (.reg 1) (.reg 2)) (fun is => !s.settled is.who && ((s.noteVa 0 (2 ^ 30) (reqOf 0 false 0 is.pc)).regionEntry 0 0).isSome) = true := by
  decide +kernel

/-- A region entry that no access has read before, with and without poison. -/
theorem test_w_SystemReads_table : ([false, true].all (fun bad =>
    let s := { at_ id with mem := { poison := if bad then [((2 ^ 43 - 1) * 512 / 32, ())] else [] } }
    meetsWith s (.csrr 0 0x80) (csrrPre 0x80) noCheck (fun is =>
      ((s.noteRegion 0 0 (reqOf 0 false 0 is.pc)).regionEntry 0 0).isNone == bad))) = true := by decide +kernel

/-- Each number of a control core that may be written, at streams 0 and 15, with each form of STRCTL. -/
theorem test_w_CsrWrites_control :
    ([(0x0C0 : BitVec 12), 0x0C1, 0x0C2, 0x0C3, 0x110, 0x111, 0x112, 0x113, 0x114, 0x120, 0x201, 0x202, 0x203, 0x204, 0x205, 0x278, 0x279, 0x27D].all
      (fun n => rdyWith (stream_ id) (.csrw (.reg 1) n) (csrwPre n) noCheck)) = true ∧
    ([0, 2 ^ 62, 2 ^ 63, 5].all (fun v => rdyWith (stream_ (sregs [(1, v)])) (.csrw (.reg 1) 0x200) (csrwPre 0x200) noCheck)) = true := by decide +kernel

/-- WAITSEM of a stream that is to suspend; EVENT with a full ring. -/
theorem test_w_SemaphoreWords_more :
    (let s := stream_ id (fun x => { x with suspended := true })
     meetsWith s (.waitsem .ge (.reg 1) (.reg 2)) noCheck (semAlign (.reg 1)) (fun _ => (s.stream 0).suspended)) = true ∧
    (let s := stream_ id (fun x => { x with evqhead := BitVec.ofNat 64 (ringSize 0) })
     meets s (.event false (.reg 1) (.reg 2)) (fun _ => (s.stream 0).full) && !(stream_ id).linkFails (ringSlot 0 0 32) 32) = true := by decide +kernel

/-- Sixteen emulated operations are queued: the one word of a warp, and the last word of two seats. -/
theorem test_w_QuorumWords_full :
    let x : MmaArgs := ⟨20, 22, false, 0, .b8x 0, .b8x 0, false, false, false, 0⟩
    let sq := sregs [(20, 0x8001000000), (22, 0x8001000000)]
    let q16 := fun (s : State) => { s with clusters := [(0, { emulQ := List.range 16 })] }
    let whole := fun (is : Issue) (w : Warp) => is.path == mdiff fullMask (w.exited ||| w.filed)
    let i := Instr.mma x
    emulates i = true ∧
    (let s := q16 (pair_ sq {} {} 0)
     meets s i (fun is => s.qsize is.who == 1 && whole is (s.warp 0) && (mmaChecks x is s (quorumVals i is.w)).isNone && s.quorumOf is.who == [is.who] &&
       decide (16 ≤ (s.cluster (clusterOf is.who)).emulQ.length))) = true ∧
    (let s := q16 (pair_ sq { seated := true } { seated := true, quorumIssue := some (0, 0, quorumVals i (sq {}), i), waits := [⟨.quorum, 0, 0, 0⟩] })
     meets s i (fun is => s.qsize is.who == 2 && (s.ctl is.who).seated && whole is (s.warp 0) && (mmaChecks x is s (quorumVals i is.w)).isNone &&
       !s.seatLeft is.who && (s.quorumOf is.who).length == 2 && (s.ctl 1).quorumIssue == some (is.iword, is.xword, quorumVals i is.w, i))) = true := by decide +kernel

/-- A stream enters a packet that it holds, with no firmware routine before it. -/
theorem test_w_StepRunsWord_stream :
    let s : State := { held_ false 0x1000 0 with
      warps := [(16384, { paths := [{ mask := 1, pc := 0x1000, entry := 0x1000 }], exited := ~~~1#128, curb := 8 })]
      ctls := [(16384, { fetched := ((held_ false 0x1000 0).ctl 0).fetched })], streams := [(0, { state := 1 })] }
    let t := s.tick
    (s.cur.isNone && s.agenda.isEmpty && !s.eventFirst && t.tries == [(16384, 0)] && !(t.stream 0).haltReq && !(t.stream 0).suspended &&
      ((t.warp 16384).pathAt 0).any (fun p => !p.inside && (t.firmwareFirst 16384 p).isNone && (t.packetOf 16384 p).any (fun f =>
        let pk := Packet.ofBits f.bits
        pk.ok && pk.starts.contains 0 && (pk.instrAt 0).isSome && bitsOf p.entryWord 2 2 != 0 && slotIdx p.entryWord == 0 && pk.groupOf 0 == [0]))) = true := by decide +kernel
/-- An acquire whose invalidate is held back by a fill of the next epoch: a load and an atomic. -/
theorem test_w_acquire_waits :
    let k : SMap Core := [(0, { fills := [{ line := 1, sectors := 1, data := 0, sb := 0, epoch := 1 }] })]
    (let o := memop (.ld .b8 { ma .g with xm := { xg (.reg 4) .g with nol1 := true, ord := .acquire, scope := .device } }) 1 [(0, .phys 0x40000000 leafRW)]
     let s := { with_ o with cores := k }
     isAcquire o.instr && isWide (memScope o.instr) && !s.canFlash 0 && s.mayPerform o && (s.finalPlaces o).any (fun ps => s.lookupFree o ps &&
       ps.all (fun e => (s.laneReads o e.1 e.2).isSome))) = true ∧
    (let o := memop (.atom { at1 g7 .i32 .g with ord := .acquire, scope := .device }) 1 [(0, .phys 0x40000000 leafRW)]
     let s := { with_ o with cores := k }
     isAcquire o.instr && isWide (memScope o.instr) && !s.canFlash 0 && s.mayPerform o && (s.finalPlaces o).isSome) = true := by decide +kernel

/-- A load on another module: with a port up, and with none for less and for more than 65,536 clocks. -/
theorem test_w_FillsAndTimeouts_ports :
    let o := memop (.ld .b4 (ma .g)) 1 [(0, .phys (hostTop + 2 ^ 40) leafRW)]
    (({ with_ o with regs := { ports := [(3, (true, 0, 0))] } } : State).linkUp) = true ∧
    ([(10, false), (70000, true)].all (fun c =>
      let s := { with_ o with clock := c.1, linkReqs := [{ who := 0, tag := o.id, addr := 0, since := 10 }] }
      !s.linkUp && s.portLate 0 o.id 0 == c.2 && s.isRemote (hostTop + 2 ^ 40))) = true := by decide +kernel

/-- A region of two levels at VA 0 with 64 KiB pages; its root table at 0x1000_0000 names a leaf table at 0x1000_1000. -/
def walk2 (a : Acc) (root leaf : Nat) (k : Cluster := {}) (st : TrState := .need) : State :=
  let bytes := fun (at_ v : Nat) => ((List.range 4).map (fun i => (at_ + i, BitVec.ofNat 8 (v / 256 ^ i)))).filter (fun c => c.2 != 0)
  { at_ id with
    regions := [(0, BitVec.ofNat 64 (2 ^ 63 + 2 ^ 60 + 31 * 2 ^ 54 + 0x10000000))], treqs := [(3, { treq a st with va := 0 })]
    clusters := [(0, k)], mem := { cells := bytes 0x10000000 root ++ bytes 0x10001000 leaf, present := [(0x10000000 / 128, 0xF), (0x10001000 / 128, 0xF)] } }

def stands (s : State) (t : TReq) (r : Region) : Bool :=
  mget s.treqs 3 == some t && r.levels == 2 && decide (t.va % 2 ^ 51 < 2 ^ r.span) && r.root + 8 * r.indexAt t.va 0 == 0x10000000

def entryIs (s : State) (pa e : Nat) : Bool := s.atHand (.phys pa) 8 && !s.physPoison pa 8 && leWord 64 (s.physRead pa 8) == BitVec.ofNat 64 e

/-- A walk of two levels, from the table and with its first entry in the walk cache; one that stops at its first entry, which is not
valid, malformed or poisoned; a TLB hit; a replay of two that have joined, granted, refused and faulting. -/
theorem test_w_TranslationAndRings_walk :
    ([(Acc.load, 0x4000000F), (.store, 0x4000000F), (.store, 0x40000013), (.store, 0x40000003), (.load, 0x40000006)].all (fun c => [false, true].all (fun cached =>
      let s := walk2 c.1 0x10001001 c.2 (if cached then { walks := [⟨0, 0, 0, 0x10000000, 0x10001001⟩] } else {})
      let t := { treq c.1 with va := 0 }
      s.mayWalk t && ((mget s.regions 0).bind Region.ofEntry).any (fun r => stands s t r && leafPfn 0x10001001 + 8 * r.indexAt t.va 1 == 0x10001000 &&
        (tlbFind (s.cluster 0).tlb 0 (r.pageOf 0)).isNone) && entryIs s 0x10000000 0x10001001 && entryIs s 0x10001000 c.2 &&
        (s.cluster 0).walks.any (fun w => w.ctx == 0 && w.pa == 0x10000000) == cached))) = true ∧
    (bitsOf (0x10001001 : W64) 52 12 == 0 && bitsOf (0x10001001 : W64) 1 11 == 0 && decide (leafPfn 0x10001001 < devTop)) = true ∧
    ([(0x10001000, false), (0x10001003, false), (0x10001001, true)].all (fun c =>
      let s := walk2 .load c.1 0
      let s := if c.2 then { s with mem := { s.mem with poison := [(0x10000000 / 32, ())] } } else s
      let t := { treq .load with va := 0 }
      s.mayWalk t && ((mget s.regions 0).bind Region.ofEntry).any (stands s t) && s.physPoison 0x10000000 8 == c.2)) = true ∧
    ([leafRW, 0x40000003].all (fun l =>
      let s := walk2 .load 0x10001001 0 { tlb := [⟨0, 0, 1, l⟩] }
      let t := { treq .load with va := 0 }
      s.mayWalk t && ((mget s.regions 0).bind Region.ofEntry).any (fun r => stands s t r && tlbFind (s.cluster 0).tlb 0 (r.pageOf 0) == some l) &&
        usable .load l && !(t.root || asks t))) = true ∧
    ([0x4000000F, 0x40000013, 0x40000003].all (fun l =>
      let t := { treq .load (.faulted 9) with va := 0 }
      let q := { treq .store (.faulted 9) with va := 0, id := 4 }
      let s := { walk2 .load 0x10001001 l { faults := [faultRec 9 true] } with treqs := [(3, t), (4, q)] }
      s.joined 0 9 == [t, q] && entryIs s 0x10001000 l && (Region.ofEntry (mgetD s.regions 0 0)).any (fun r => !leafMalformed r ((s.floor0 0).getLsbD 13) (BitVec.ofNat 64 l)) && (BitVec.ofNat 64 l).getLsbD 0)) = true := by decide +kernel

/-- An image with poison in it; a block that an engine operation of a warp away is still to write; a write-back to poisoned memory. -/
theorem test_w_BlockEvents_marks :
    (let s := map_ (at_ (fun w => { w with blocks := [(0, { absent := true, filling := true })] }))
     let s := { s with mem := { s.mem with poison := [(2 ^ 30 / 32, ())], present := (List.range 34).map (fun i => (2 ^ 30 / 128 + i, 0xF)) ++ (List.range 2).map (fun i => ((2 ^ 30 + 0x20000) / 128 + i, 0xF)) ++ [(0x10000000 / 128, 0xF)] } }
     (match s.askSpan 0 (s.imageAt 0 0).1 4096 .load 0 0 (fillTag 0) with
      | (.ok ps, u) => (match u.askSpan 0 (s.imageAt 0 0).2 128 .load 0 0 (fillTag 0) with
        | (.ok qs, v) => (ps ++ qs).all (fun p => v.atHand (.phys p.2.1) p.2.2) && (ps ++ qs).any (fun p => v.physPoison p.2.1 p.2.2)
        | _ => false)
      | _ => false) &&
     (match s.askSpan 0 0 4096 .store 0 0 (fillTag 64) with
      | (.ok [(0, pa, 4096)], u) => (match u.askSpan 0 0x20000 128 .store 0 0 (fillTag 64) with
        | (.ok [(0, ma, 128)], v) => v.atHand (.phys pa) 4096 && v.atHand (.phys ma) 128 && v.physPoison pa 4096
        | _ => false)
      | _ => false)) = true ∧
    (let away := savedBase
     let y : WriteBack := { who := away, blk := 0, block := {}, va := 0, map := 0x20000, ctx := 0 }
     let o := { eop (.copy (copy_ (.reg 30) .g .rw false)) [] with who := away, dst := [(0, [3])] }
     let s := { at_ id with cores := [(0, { wbs := [y] })], eops := [(7, o)] }
     s.blockPending y && !({ s with eops := [] } : State).blockPending y) = true := by decide +kernel

/-- A thread's own earlier acquire, store to the line and token update keep TWAIT and WAITSEM from reading; a full ring with an EVENT
that waits, and accesses outstanding; a delivery that waits for a page of the save area; a fetch that the instruction cache answers. -/
theorem test_w_ThreadEvents_waits :
    (let x : Waiting := ⟨.twait 29 0 true, 0, 0, 9⟩
     let s := { thread_ { waits := [x] } with wgs := [(0, { id := 0, spxt := [(0, 2 ^ 62)] })] }
     let look := fun (s : State) (p : State → Bool) => s.pollable 0 == [x] && (match s.locAt 0 0 true 0 .load 0 0 twaitTag with
       | (.at_ k, u) => tokKey (.at_ k) == some (1, 0) && u.atHand k 16 && p u
       | _ => false)
     look { s with eops := [(7, { eop (.prefetchL2 (.reg 1) (.reg 2) 3 true) [] 0 with tok := some (0, true) })] } (fun u => u.tokPending 0 9 (some (1, 0))) &&
     look { s with mops := [(7, memop (.st .b4 (ma .sp)) 1 [(0, .sp 0 0)])] } (fun u => u.readWaits 0 9 (some (1, 0)) (u.tokPage 0 0 0 true)) &&
     look { s with mops := [(7, memop (.ld .b4 { ma .g with xm := { xg (.reg 4) .g with ord := .acquire } }) 1 [(0, .phys 0x40000000 leafRW)])] }
       (fun u => u.readWaits 0 9 (some (1, 0)) (u.tokPage 0 0 0 true))) = true ∧
    (let x : Waiting := ⟨.sem .ge 0x1000 1, 0, 0, 9⟩
     let s := { map_ (stream_ id) with
       ctls := [(16384, { waits := [x] })], mops := [(7, { memop (.st .b8 (ma .g)) 1 [(0, .phys 0x40001000 leafRW)] with who := 16384, core := 256 })]
       mem := { cells := [(0x10000000, 0x2F), (0x10000003, 0x40)], present := [(0x10000000 / 128, 0xF), (0x40001000 / 128, 0xF)] } }
     s.pollable 16384 == [x] && (match s.ask 0 0x1000 .load (coreOf 16384) 16384 twaitTag 0x1000 0 8 with
       | (.ok pa _, u) => u.atHand (.phys pa) 8 && u.readWaits 16384 9 (tokKey (.at_ (.phys pa))) (u.tokPage 0 0 0x1000 false)
       | _ => false)) = true ∧
    (let s := { stream_ id (fun y => { y with evqhead := BitVec.ofNat 64 (ringSize 0) }) with ctls := [(16384, { waits := [⟨.event true 1 2, 0, 0, 0⟩] })] }
     (s.stream 0).full && (s.ctl 16384).waits.any (fun z => isEventWait z.kind) && !({ s with ctls := [(16384, { unacked := 1 })] } : State).settled 16384) = true ∧
    (let s := map_ (at_ id { pmtx := true, tvec := 0x2000 }) []
     ((s.warp 0).pathAt 0).any (fun p => !p.inside) && !(s.ctl 0).inTrap && (s.trapWaits 0 0).isSome) = true ∧
    (let s := { thread_ {} with cores := [(0, { icache := [(0x40001000 / 16, 5)] })] }
     match s.ask 0 0x1000 .fetch 0 0 fetchTag 0x1000 0 16 with
     | (.ok pa _, u) => mget (u.core 0).icache (pa / 16) == some 5
     | _ => false) = true := by decide +kernel

/-- A COPY from VA 0x1000, and from an address without a region, to VA 0x1080; its two lines are at hand. -/
def copyG (src : W64) : EngOp := { eop (.copy (copy_ (.special .zero) .g .g false)) [src, 0x1080, 128, 0, 0, 0, 0, 0, 0, 0] with nums := [0, 0] }

def copyGReady (src : W64) : Bool :=
  let o := copyG src
  let s := eng_ o [] [0x800020, 0x800021]
  (copyPlan (copy_ (.special .zero) .g .g false) o.vals).any (fun p =>
    let k := p.chunk 0 0
    let a := p.src + k.pos
    let (c, u1) := s.engAt o .g (a / 128 * 128) k.n .engRead (a % 128).toNat
    match u1.engAt o .g (k.ea / 128 * 128) k.n .engWrite (k.ea % 128).toNat with
    | (.at_ (.mem (.phys qa)), u2) => k.n == 128 && p.nc % 128 == 0 && decide ((p.src : Int) % (128 : Int) = (0 : Int) ∧ (p.dst : Int) % (128 : Int) = 0) && u2.atHand (.phys qa) 128 && wfs u2 &&
        qa == 0x40001080 && isDev qa && (match c with
          | .at_ (.mem (.phys pa)) => src == 0x1000 && pa == 0x40001000 && u2.atHand (.phys pa) 128 && isDev pa
          | .viol _ => src != 0x1000
          | _ => false)
    | _ => false)

/-- A CONVERT and the three REDUCEs from the scratchpad to the scratchpad, with rows of four elements of f32 that become bf16. -/
def copyConverts : Bool :=
  let p := fun (xf : CopyXf) (op : CopyRed) =>
    let cp := { copy_ (.special .zero) .sp .sp false with xf := xf, redop := op }
    let o := { eop (.copy cp) [0, 0x80, 4, 0, 0, 0x2000, 0, 0, 0, 0] with nums := [0, 0] }
    let s := eng_ o
    ((s.core 0).running == some 7) && (copyPlan cp o.vals).any (fun p =>
      let k := p.chunk 0 0
      k.n == 8 && p.ssz == 4 && p.dsz == 2 && k.n % p.dsz == 0 && k.pos % p.dsz == 0 && decide (0 ≤ k.ea) && inGranule s 0 0 k.ea.toNat k.n &&
        (p.cols k).length == 4 && (p.cols k).all (fun c => decide (0 ≤ p.srcAt k.row c) && inGranule s 0 0 (p.srcAt k.row c).toNat p.ssz))
  p .convert .add && p .reduce .add && p .reduce .min && p .reduce .max

theorem test_w_EngineEvents_copies : (copyGReady 0x1000 && copyGReady 0x200000000000000 && copyConverts) = true := by decide +kernel

/-- An ACCMV out, with and without poison in its tile, and one in; a COMPRESS; rows of a map lie apart in window 0, and rows that are
read at one place of it, or, where they violate, past its end. -/
def rowMap (rstr : Nat) : W64 := BitVec.ofNat 64 (2 ^ 24 + 2 ^ 32 * rstr)

def rowsApart (s : State) (rs : List (Nat × Nat)) : Bool :=
  decide (rs.Pairwise (fun y z => y.1 + y.2 ≤ z.1 ∨ z.1 + z.2 ≤ y.1)) && rs.all (fun y => inGranule s 0 0 y.1 y.2)

def accOut (bad : Bool) : State :=
  let s := eng_ { eop (.accmvOut 20 0 0 .bf16) [rowMap 0x100, 0] with nums := [1] }
  if bad then { s with wgs := s.wgs.map (fun w => (w.1, { w.2 with acPoison := [(0, ())] })) } else s

def accIn (m : W64) (ok : Bool) : Bool :=
  let o := { eop (.accmvIn 20 0 0 .bf16) [m, 0] with nums := [1] }
  match (eng_ o).readOperands o [⟨(mapAt o.vals 0).space, false, (List.range 64).map (fun i => ((mapAt o.vals 0).row i, 4 * colsN 0))⟩] with
  | (q, _) => (eng_ o).matrixReady o && !q.wait && q.viols.isEmpty == ok && q.poison.isEmpty

def compressOp (m : W64) : EngOp :=
  { eop (.compress 20 22 .bf16) [m, 0, rowMap 0x40 + 0x8000, BitVec.ofNat 64 (0xC000 * 2 ^ 24 + 2 ^ 48 * 8)] with nums := [1] }

def compressIn (m : W64) (ok : Bool) : Bool :=
  let o := compressOp m
  match (eng_ o).readOperands o [⟨(mapAt o.vals 0).space, (mxOfNfc .bf16).isSome,
      (List.range 64).flatMap (fun i => rowRanges .bf16 64 ((mapAt o.vals 0).row i))⟩] with
  | (q, _) => !q.wait && q.viols.isEmpty == ok

theorem test_w_EngineEvents_accmv_out :
    ((mapAt [rowMap 0x100, 0] 0).space == .sp && (accOut true).locPoison (.ac 0 0) (4 * 64 * colsN 0) &&
      !(accOut false).locPoison (.ac 0 0) (4 * 64 * colsN 0) &&
      rowsApart (accOut false) ((List.range 64).map (fun i => ((mapAt [rowMap 0x100, 0] 0).row i, (fmtOf .bf16).width / 8 * colsN 0)))) = true := by
  decide +kernel
theorem test_w_EngineEvents_accmv_in : accIn (rowMap 0) true = true := by decide +kernel
theorem test_w_EngineEvents_accmv_bad : accIn (rowMap 0x8000) false = true := by decide +kernel
theorem test_w_EngineEvents_compress : compressIn (rowMap 0) true = true := by decide +kernel
theorem test_w_EngineEvents_compress_bad : compressIn (rowMap 0x8000) false = true := by decide +kernel
theorem test_w_EngineEvents_compress_rows : (let b := mapAt (compressOp 0).vals 2
    b.space == .sp && rowsApart (eng_ (compressOp 0)) ((List.range 64).flatMap (fun i =>
      [(b.row i, 64 / 2 * elemBits .bf16 / 8), (b.metaRow i, metaBytes .bf16 64)]))) = true := by decide +kernel

/-- Operands of an MMA whose maps lie in window 0 with all rows at one place, metadata at 0xC000 and sums at 0xE000. -/
def mmaOp (x : MmaArgs) (cells : List Host.Cell := []) : EngOp × State :=
  let lo := fun (a : Nat) => BitVec.ofNat 64 (2 ^ 24 + a)
  let hi : W64 := BitVec.ofNat 64 (0xE000 + 2 ^ 24 * 0xC000)
  let o := { eop (.mma x) [lo 0, hi, lo 0x4000, hi] with nums := [1] }
  let s := eng_ o
  (o, { s with wgs := s.wgs.map (fun w => (w.1, { w.2 with sp := cells })) })

def mmaReads (x : MmaArgs) (o : EngOp) (s : State) : Operands × State :=
  let K := depthK x.fa x.fb
  let a := mapAt o.vals 0
  let b := mapAt o.vals 2
  s.readOperands o
    [⟨a.space, !x.sp && (mxOfNfc x.fa).isSome, (List.range 64).flatMap (fun i =>
        if x.sp then [(a.row i, K / 2 * elemBits x.fa / 8)] else rowRanges x.fa K (a.row i))⟩,
     ⟨a.space, false, if x.sp then (List.range 64).map (fun i => (a.metaRow i, metaBytes x.fa K)) else []⟩,
     ⟨b.space, (mxOfNfc x.fb).isSome, (List.range (colsN x.nsel)).flatMap (fun j => rowRanges x.fb K (b.row j))⟩,
     ⟨a.space, false, if x.chk then [(a.csum, 4 * K)] else []⟩, ⟨b.space, false, if x.chk then [(b.csum, 4 * K)] else []⟩]

/-- Its operands resolve, and none violates or is poisoned. -/
def mmaFine (x : MmaArgs) : Bool :=
  let (o, s) := mmaOp x
  let (q, _) := mmaReads x o s
  s.matrixReady o && mhas s.wgs 0 && x.zc && !q.wait && q.viols.isEmpty && q.poison.isEmpty

/-- A CHK that finds a mismatch in row 0 once the tile, which stays 0, is written: A's first element and B's first sum are 1. -/
def mmaMismatch : Bool :=
  let x : MmaArgs := ⟨20, 22, false, 0, .bf16, .bf16, true, true, true, 0⟩
  let (o, s) := mmaOp x [(0, 0x80), (1, 0x3F), (0xE002, 0x80), (0xE003, 0x3F)]
  let (q, u) := mmaReads x o s
  let set := fun (i : Nat) => q.sets.getD i {}
  let row := u.readRow o (set 0) .bf16 64 0
  let zero := u.readRow o (set 2) .bf16 64 0x4000
  let sums := fun (i : Nat) => (codesOf 32 64 (u.rangeNat o (set i) 0xE000 256)).map f32
  !q.wait && q.viols.isEmpty && q.poison.isEmpty && mmaElem 0 (decodeRow .bf16 row) (decodeRow .bf16 zero) % 2 ^ 32 == 0 &&
    (checkTile (List.replicate 4096 0) (List.replicate 4096 0) 64 64 4 (exactRow .bf16 row :: List.replicate 63 (exactRow .bf16 zero))
      (List.replicate 64 (exactRow .bf16 zero)) (sums 3) (sums 4)).isSome &&
    !ringFull (u.cluster 0).errbase (u.cluster 0).errhead (u.cluster 0).errtail

theorem test_w_EngineEvents_mma_int : mmaFine ⟨20, 22, false, 0, .mxi8, .mxi8, false, false, true, 0⟩ = true := by decide +kernel
theorem test_w_EngineEvents_mma_sparse : mmaFine ⟨20, 22, true, 0, .bf16, .bf16, false, false, true, 0⟩ = true := by decide +kernel
theorem test_w_EngineEvents_check : mmaMismatch = true := by decide +kernel

/-- The head of the keys' statement: the operands resolve, none violates and none is poisoned. -/
def keyedReady (b : State) (e o : EngOp) (x : AttnArgs) (keys : List KeyAt) : Bool :=
  let D := headD x
  let qm := mapAt o.vals 0
  let spc := fun (i : Nat) => if x.ksrc then Space.g else (mapAt o.vals i).space
  let (q, u) := b.readOperands e
    [⟨qm.space, (mxOfNfc x.fqk).isSome, if keys.isEmpty then [] else (List.range 64).flatMap (fun i => rowRanges x.fqk D (qm.row i))⟩,
     ⟨spc 2, (mxOfNfc x.fqk).isSome, keys.flatMap (fun y => rowRanges x.fqk D y.ka)⟩,
     ⟨spc 4, (mxOfNfc x.fv).isSome, keys.flatMap (fun y => rowRanges x.fv D y.va)⟩]
  e.id == 7 && e.who == 0 && e.wg == 0 && e.instr == o.instr && e.vals == o.vals && e.nums.head? == some 1 && e.seats == o.seats && e.flags == o.flags &&
    mhas b.wgs 0 && !q.wait && q.viols.isEmpty && q.poison.isEmpty &&
    (x.init || !(u.locPoison (.ac 0 (attnDesc o.vals).ooff) (4 * 64 * D) || u.locPoison (.ac 0 (attnDesc o.vals).soff) 512))

/-- An ATTN over two keys of maps in window 0, whose query rows are all one row. -/
def attnMapped : Bool :=
  let x : AttnArgs := ⟨24, .bf16, .bf16, 0, false, true, true, false⟩
  let o := { eop (.attn x) [0x1000000, 0, 0x8001002000, 0, 0x8001004000, 0, 0x40002, 0] with nums := [1] }
  let s := eng_ o
  let d := attnDesc o.vals
  s.matrixReady o && d.len == 2 && keyedReady s o o x (mapKeys o d) && decide (d.ooff + 4 * (64 * headD x) ≤ d.soff)

/-- An ATTN over the sequence whose record is at `rec`, for head `h`: the cache of one position of `kvCells`, with rows of 128 bytes. -/
def attnSeq (rec h : W64) (poison : List (Nat × Unit)) (ok : EngOp → EngOp → AttnArgs → SeqGot → State → Bool) : Bool :=
  let x : AttnArgs := ⟨24, .bf16, .bf16, 0, true, false, true, true⟩
  let o := { eop (.attn x) [0x1000000, 0, rec, h, 0, 0, 0x40000, 0] with nums := [1] }
  let s := eng_ o ((kvCells 1 [(0x40000181, 0x10)]).take 4 ++ [(0x4000012C, 0x80)] ++ (kvCells 1 [(0x40000181, 0x10)]).drop 4)
  let s := { s with mem := { s.mem with poison := poison } }
  let (e, got, b) := s.seqRead o x (attnDesc o.vals)
  s.matrixReady o && e.id == 7 && e.who == 0 && e.wg == 0 && e.nums.head? == some 1 && e.seats == o.seats && e.flags == o.flags && mhas b.wgs 0 &&
    ok e o x got b

def attnSeqs : Bool :=
  attnSeq 0x100 0 [] (fun e o x got b => match got with
    | .keys l => l.length == 1 && keyedReady b e o x l
    | _ => false) &&
  attnSeq 0x100 1 [] (fun _ _ _ got _ => match got with
    | .bad none => true
    | _ => false) &&
  attnSeq 0x100 0 [(0x40000100 / 32, ())] (fun _ _ _ got _ => match got with
    | .dmg _ => true
    | _ => false) &&
  attnSeq 0x200000000000000 0 [] (fun _ _ _ got _ => match got with
    | .viol _ _ => true
    | _ => false)

theorem test_w_EngineEvents_attention_maps : attnMapped = true := by decide +kernel
theorem test_w_EngineEvents_attention_sequence : attnSeqs = true := by decide +kernel

/-- A COPY that has to write its sums: a row of four elements in the scratchpad. -/
def copySums : Bool :=
  let cp := { copy_ (.special .zero) .sp .sp false with sums := true, xf := .reduce }
  let o := { eop (.copy cp) [0, 0x80, 4, 0, 0, 0, 0, 0x100, 0, 0] with ready := 1 }
  o.tok.isNone && o.pos == 0 && (copyPlan cp o.vals).any (fun p => p.nc != 0 && p.suma % 4 == 0 &&
    inGranule (eng_ o) 0 0 p.suma (4 * (p.ndr + p.ndc)) && (p.sumWords o).length == 5)

theorem test_w_EngineEvents_sums : copySums = true := by decide +kernel

def kvRun (i : Instr) (vals : List W64) (cells : List Host.Cell) (f : State → EngOp → EngOp → KvRec → State → Bool) : Bool :=
  let o := eop i vals
  let s := eng_ o cells [0x800002, 0x800003, 0x800021, 0x800022]
  s.kvReady o && (match s.kvRecord o 0x100 with
    | (.ok (r, o1), t0) => o1.tok.isNone && o1.id == o.id && o1.who == o.who && o1.vals == o.vals && o1.flags == o.flags && o1.pos == 0 && f s o o1 r t0
    | _ => false)

/-- The EST word of the record at VA 0x100 is at hand. -/
def estReady (b : State) (o : EngOp) : Bool :=
  match b.kvSpan o 0x130 8 .atomic with
  | (.ok [(0, pa, 8)], c) => c.atHand (.phys pa) 8 && !c.physPoison pa 8 && wfs c
  | _ => false

/-- A KVWALK over two positions, a page and none; one that answers FORM, and one that answers RANGE. -/
def kvWalks : Bool :=
  let w : KvWalkArgs := ⟨.reg 1, .special .zero, 0, true, 1, false, .special .zero, true⟩
  kvRun (.kvwalk w) [0x100, 0, 0] (kvCells 1 [(0x40000181, 0x10)]) (fun _ _ o1 r t0 => match t0.kvLimit o1 r w.unc with
    | (.ok lim, t1) => (match t1.kvResolve o1 r 0 lim with
      | (.ok (.page p k a), t2) => wfs t2 && inGranule t2 0 0 0 8 && (match
          (t2.engStore o1 (.mem (.sp 0 0)) (toLe 8 (Walked.page p k a).entry) []).kvResolve o1 r 1 lim with
        | (.ok .none, t3) => wfs t3 && inGranule t3 0 0 8 8
        | _ => false)
      | _ => false)
    | _ => false) &&
  kvRun (.kvwalk { w with cntm1 := 0 }) [0x100, 0, 0] (kvCells 1 [(0x40000180, 1)]) (fun _ _ o1 r t0 => match t0.kvLimit o1 r w.unc with
    | (.ok lim, t1) => (match t1.kvResolve o1 r 0 lim with
      | (.ok .form, t2) => inGranule t2 0 0 0 8 && estReady t2 o1
      | _ => false)
    | _ => false) &&
  kvRun (.kvwalk { w with cntm1 := 0 }) [0x100, 64, 0] ((0x40000100, 65) :: (kvCells 1 [(0x40000181, 0x10)]).drop 1) (fun _ _ o1 r t0 =>
    match t0.kvLimit o1 r w.unc with
    | (.ok lim, t1) => (match t1.kvResolve o1 r 64 lim with
      | (.ok .range, t2) => inGranule t2 0 0 0 8 && estReady t2 o1
      | _ => false)
    | _ => false)

/-- KVAPPENDs: of a head past NHEAD; at a position past the node's pages; of the last token, whose rows go to lines at hand; and the
writes of an allocation. -/
def kvAppends : Bool :=
  let a : KvAppendArgs := ⟨.special .zero, .reg 1, .special .zero, 2, 0, false, .special .zero, true⟩
  kvRun (.kvappend a) [0x100, 0, 1, 0] (kvCells 1 []) (fun _ _ o1 r t0 => decide (r.nhead ≤ 1) && estReady t0 o1) &&
  kvRun (.kvappend a) [0x100, 64, 0, 0] (kvCells 1 []) (fun _ _ o1 r t0 => decide (0 < r.nhead) && (match t0.kvFind o1 r (r.len + 64 + o1.pos) with
    | (.ok (.stop n), t1) => n != estPool && estReady t1 o1
    | _ => false)) &&
  kvRun (.kvappend a) [0x100, 0, 0, 0] ((kvCells 1 []).take 3 ++ [(0x4000011A, 1), (0x40000120, 0x80), (0x4000012C, 0x80)] ++
      (kvCells 1 [(0x40000181, 0x10)]).drop 4) (fun _ _ o1 r t0 => r.rsz == 128 && r.koff == 0 && r.voff == 128 &&
    (match t0.kvFind o1 r (r.len + 0 + o1.pos) with
     | (.ok (.at_ spot), t1) =>
       let base := spot.page + 0 * r.hstr + spot.slot * r.rsz
       let (dst, t2) := t1.resolveUnits o1 .g .engWrite false (rangeUnits [(base + r.koff, r.rsz), (base + r.voff, r.rsz)])
       inGranule t1 0 0 0 128 && inGranule t1 0 0 128 128 && !dst.wait && dst.viols.isEmpty && decide (dst.locs.map Prod.snd).Nodup &&
         (match t2.kvTake o1 r.leaf spot with
          | (.ok (), t3) => wfs t3 && dst.locs.length == 2 && dst.locs.all (fun e => match e.2 with
            | .mem (.phys pa) => pa % 128 == 0 && t3.atHand (.phys pa) 128
            | _ => false)
          | _ => false)
     | _ => false)) &&
  kvRun (.kvappend a) [0x100, 0, 0, 0] (kvCells 1 []) (fun _ _ o1 r t0 => match t0.kvSpan o1 0x1C0 4 .atomic with
    | (.ok [(0, pp, 4)], v1) => (match v1.kvSpan o1 0x180 8 .engWrite with
      | (.ok [(0, pe, 8)], v2) => (match v2.kvLockSpan o1 r.leaf with
        | (.ok [(0, pl, 4)], v3) => [(pp, 4), (pe, 8), (pl, 4)].all (fun p => v3.atHand (.phys p.1) p.2) && decide (pe + 8 ≤ pp) && wfs v3
        | _ => false)
      | _ => false)
    | _ => false)

theorem test_w_WalkerAndGeoEvents_walks : kvWalks = true := by decide +kernel
theorem test_w_WalkerAndGeoEvents_appends : kvAppends = true := by decide +kernel

/-- The context's descriptor is cached, so that an acceptance reads no memory. -/
theorem test_w_GridEvents_descr : ((eng_ (launch_ 2 10 0 0)).readDescr 0 0).isSome = true := by decide +kernel

/-- A leaving warp that enters a trap, beside one that does not; a warp away for which a COPY is still to write registers. -/
theorem test_w_DispatchEvents_away :
    ([some 5, none].all (fun e =>
      let w : Wg := { id := 0, grid := 9, st := .leaving }
      let s := { at_ id { entering := e } with cur := none, wgs := [(0, w)], grids := [(9, grid_ 0)] }
      wfs s && s.wgs.all (fun x => x.2.id == x.1) && (s.unitOf w).map Wg.id == [0] && s.warpsOfWg 0 == [0] && (s.ctl 0).entering == e)) = true ∧
    (let w : Wg := { id := 0, grid := 9, st := .saving }
     let o := { eop (.copy (copy_ (.reg 30) .g .rw false)) [] with who := savedBase, dst := [(0, [3])] }
     let s := fun (b : Bool) => { at_ id with
       warps := [(savedBase, warp id)], ctls := [(savedBase, {})], cur := none, wgs := [(0, w)], grids := [(9, grid_ 0)], eops := if b then [(7, o)] else [] }
     [true, false].all (fun b => (s b).awayWarps 0 == [savedBase] && ((s b).awayWarps 0).any (s b).writesRegs == b)) = true := by decide +kernel

/-- A RESUME of a valid context that is suspended, and one of a context without a descriptor. -/
theorem test_w_HostEvents_resume : ([true, false].all (fun v =>
    let s := mem_ (fun r => { r with suspended := [0] }) (if v then ctxCells else [])
    s.regs.ctxBusy.isNone && s.regs.suspended.contains 0 && s.ctxValid s.regs.ctxCtx.toNat == v)) = true := by decide +kernel

/-- GO and WARM before the write-back of a warm reset is done, with a workgroup. -/
theorem test_w_BootEvents_warm : ([0, 1, 3].all (fun st =>
    let s := { mem_ (fun r => { r with bootState := st, bootStep := 0 }) with wgs := [(0, { id := 0 })] }
    s.regs.bootStep == 0 && s.wgs.all (fun e => e.2.id == e.1))) = true := by decide +kernel

/-- Runs that cannot be: behind a run, of another context, and with a scratchpad base of another engine; the head that can be. -/
def collRefuses : Bool :=
  let run := fun (c : CSlot) (ctx core : Nat) (vals : List W64) => { coll_ (.collRun collA) vals c with
    eops := [(7, { eop (.collRun collA) vals with ctx := ctx, core := core })] }
  let found := fun (s : State) => (((s.cslot 3).queue.filterMap (mget s.eops)).find? (s.cslot 3).refuses).map EngOp.id
  let c := slot_ (fun c => { c with queue := [7], state := 1 })
  let behind := slot_ (fun c => { c with runOp := some 6, queue := [6, 7], state := 1 })
  found (run c 1 0 [0]) == some 7 && found (run c 0 5 [2 ^ 63]) == some 7 && found (run behind 1 0 [0]) == some 7 && (found (run c 0 0 [2 ^ 63])).isNone &&
    c.loads.isEmpty && (run c 0 0 [0]).forkDone (eop (.collRun collA) [0])

/-- Runs that end with a chunk on the datapath and with none; chunks of an ended run, after the run, and of an earlier one. -/
def collEnds : Bool :=
  let r := run_ id
  let on := run_ (fun n => { n with staged := some 0, arrived := true, onPath := true })
  let after : CSlot := { run_ (fun n => { n with arrived := true }) with runOp := none, queue := [] }
  let dead : CSlot := { run_ id with ended := true }
  !r.run.any CNodeRun.onPath && on.run.any CNodeRun.onPath && !on.run.all CNodeRun.done && !on.ended &&
    after.find CNode.recv 0 1 2 == some 1 && after.seq == 9 && (after.nrun 1).arrived && after.state == 1 &&
    dead.find CNode.recv 0 1 2 == some 1 && !(dead.nrun 1).arrived && !dead.live && decide (8 < after.seq.toNat)

theorem test_w_CollectiveEvents_more : (collRefuses && collEnds) = true := by decide +kernel
end Sys2Proof.Tests
end

section
/-! Number codes: the value of every code of MXINT8 and of the binary8 family (R179, R181, R182). -/

namespace Sys2Proof.Machine

/-- `x` is finite, exact, of the sign `neg` and of the magnitude `v`. -/
def XVal.HasValue (x : XVal) (neg : Bool) (v : ℚ) : Prop := ∃ m e, x = .fin neg m e false ∧ (m : ℚ) * 2 ^ (e : Int) = v

/-- R175: the magnitude of exponent field `e` and of mantissa field `f` of `mant` bits. -/
def fieldValue (e f mant bias : Nat) : ℚ :=
  if e = 0 then (2 : ℚ) ^ (1 - (bias : Int)) * (f / 2 ^ mant) else (2 : ℚ) ^ ((e : Int) - bias) * (1 + f / 2 ^ mant)

theorem mkFin_zero (neg : Bool) (e : Int) : mkFin neg 0 e = .zero neg := if_pos rfl

theorem mkFin_hasValue {m : Nat} (hm : m ≠ 0) (neg : Bool) (e : Int) : (mkFin neg m e).HasValue neg (m * 2 ^ e) :=
  ⟨m, e, if_neg hm, rfl⟩

/-! ### MXINT8 (R179) -/

theorem decode_mxi8 (q : BitVec 8) : fmtMxi8.decode q.toNat = mkFin q.msb q.toInt.natAbs (-6) := by
  have hq : BitVec.ofNat 8 (q.toNat % 2 ^ 8) = q := by rw [Nat.mod_eq_of_lt q.isLt, BitVec.ofNat_toNat, BitVec.setWidth_eq]
  have hd : fmtMxi8.decode q.toNat = mkFin (decide ((BitVec.ofNat 8 (q.toNat % 2 ^ 8)).toInt < 0))
    (BitVec.ofNat 8 (q.toNat % 2 ^ 8)).toInt.natAbs (-6) := rfl
  rw [hd, hq, BitVec.msb_eq_toInt]

theorem decode_mxi8_hasValue {q : BitVec 8} (hq : q ≠ 0) :
    (fmtMxi8.decode q.toNat).HasValue q.msb (|(q.toInt : ℚ)| * 2 ^ (-6 : Int)) := by
  have hm : q.toInt.natAbs ≠ 0 := fun h => hq (BitVec.toInt_inj.mp (Int.natAbs_eq_zero.mp h))
  rw [decode_mxi8, ← Int.cast_abs, ← Nat.cast_natAbs]
  exact mkFin_hasValue hm _ _

/-! ### The grid of a floating-point format (R175) -/

/-- The finite value of a magnitude code: its exponent field above its mantissa field. -/
def Fmt.grid (f : Fmt) (neg : Bool) (a : Nat) : XVal :=
  if a / 2 ^ f.mbits = 0 then mkFin neg (a % 2 ^ f.mbits) f.qmin
  else mkFin neg (2 ^ f.mbits + a % 2 ^ f.mbits) (f.qmin + (a / 2 ^ f.mbits - 1 : Nat))

theorem Fmt.grid_zero (f : Fmt) (neg : Bool) : f.grid neg 0 = .zero neg := by
  simp [Fmt.grid, mkFin_zero]

theorem Fmt.grid_hasValue {f : Fmt} (hf : f.fixed = false) (neg : Bool) {a : Nat} (ha : a ≠ 0) :
    (f.grid neg a).HasValue neg (fieldValue (a / 2 ^ f.mbits) (a % 2 ^ f.mbits) f.mbits f.bias) := by
  have hq : f.qmin = 1 - (f.bias : Int) - f.mbits := by simp [Fmt.qmin, Fmt.emin, hf]
  unfold Fmt.grid fieldValue
  split
  next he =>
    have hm : a % 2 ^ f.mbits ≠ 0 := fun h => ha (by rw [← Nat.div_add_mod a (2 ^ f.mbits), he, h, Nat.mul_zero])
    convert mkFin_hasValue hm neg f.qmin using 1
    rw [hq, zpow_sub₀ two_ne_zero _ (f.mbits : Int), zpow_natCast]
    ring
  next he =>
    have hm : 2 ^ f.mbits + a % 2 ^ f.mbits ≠ 0 := Nat.ne_of_gt (Nat.add_pos_left (Nat.two_pow_pos _) _)
    convert mkFin_hasValue hm neg _ using 1
    have hx : f.qmin + ((a / 2 ^ f.mbits - 1 : Nat) : Int) = ((a / 2 ^ f.mbits : Nat) : Int) - f.bias - f.mbits := by
      rw [hq, Nat.cast_pred (Nat.pos_of_ne_zero he)]; ring
    rw [hx, zpow_sub₀ two_ne_zero _ (f.mbits : Int), zpow_natCast]
    push_cast
    field_simp

/-! ### The binary8 family (R181, R182) -/

/-- What the formats of the family share: eight bits, one zero and one NaN. -/
structure Fmt.IsBinary8 (f : Fmt) : Prop where
  width : f.width = 8
  fixed : f.fixed = false
  negZero : f.negZero = false
  ieee : f.ieee = false

/-- A code without its sign bit, where the format has one. -/
def Fmt.magnitude (f : Fmt) (x : BitVec 8) : Nat := if f.signed then x.toNat % 128 else x.toNat

theorem Fmt.IsBinary8.decode {f : Fmt} (hf : f.IsBinary8) (x : BitVec 8) :
    f.decode x.toNat = if f.nan = some x.toNat then .nan
      else if f.inf = some (f.magnitude x) then .inf (f.signed && x.msb) else f.grid (f.signed && x.msb) (f.magnitude x) := by
  obtain ⟨hw, hx, hz, hi⟩ := hf
  have hc : x.toNat % 2 ^ 8 = x.toNat := Nat.mod_eq_of_lt x.isLt
  have hs : decide (2 ^ (8 - 1) ≤ x.toNat) = x.msb := (BitVec.msb_eq_decide x).symm
  have hm : (if (f.signed && x.msb) = true then x.toNat - 2 ^ (8 - 1) else x.toNat) = f.magnitude x := by
    have hlt := x.isLt
    rw [← hs, Fmt.magnitude]
    cases f.signed with
    | false => simp
    | true => simp only [Bool.true_and, decide_eq_true_eq, if_true]; split <;> omega
  simp only [Fmt.decode, hw, hx, hz, hi, hc, hs, hm, beq_iff_eq, Bool.false_eq_true, if_false]
  rfl

theorem isBinary8_b8s (P : Nat) : (fmtB8s P).IsBinary8 := ⟨rfl, rfl, rfl, rfl⟩
theorem isBinary8_b8x (P : Nat) : (fmtB8x P).IsBinary8 := ⟨rfl, rfl, rfl, rfl⟩
theorem isBinary8_b8z (P : Nat) : (fmtB8z P).IsBinary8 := ⟨rfl, rfl, rfl, rfl⟩

theorem decode_b8s (P : Nat) (x : BitVec 8) :
    (fmtB8s P).decode x.toNat = if x = 0x80 then .nan else (fmtB8s P).grid x.msb (x.toNat % 128) := by
  rw [(isBinary8_b8s P).decode]
  simp [fmtB8s, Fmt.magnitude, BitVec.toNat_eq, eq_comm (b := x.toNat)]

/-- The .x variant: as .s, but for its two infinities. -/
theorem decode_b8x (P : Nat) (x : BitVec 8) :
    (fmtB8x P).decode x.toNat = if x = 0x80 then .nan
      else if x.toNat % 128 = 0x7F then .inf x.msb else (fmtB8s P).grid x.msb (x.toNat % 128) := by
  have hg : (fmtB8x P).grid = (fmtB8s P).grid := rfl
  rw [(isBinary8_b8x P).decode, hg]
  simp [fmtB8x, Fmt.magnitude, BitVec.toNat_eq, eq_comm (b := x.toNat), eq_comm (b := x.toNat % 128)]

theorem decode_b8z (P : Nat) (x : BitVec 8) :
    (fmtB8z P).decode x.toNat = if x = 0xFF then .nan else (fmtB8z P).grid false x.toNat := by
  rw [(isBinary8_b8z P).decode]
  simp [fmtB8z, Fmt.magnitude, BitVec.toNat_eq, eq_comm (b := x.toNat)]

/-- Only 0x00 and 0x80 have the magnitude 0. -/
theorem low7_ne_zero {x : BitVec 8} (h0 : x ≠ 0) (h80 : x ≠ 0x80) : x.toNat % 128 ≠ 0 := by bv_omega

/-- Only 0x7F and 0xFF have the largest magnitude. -/
theorem low7_ne_max {x : BitVec 8} (h7F : x ≠ 0x7F) (hFF : x ≠ 0xFF) : x.toNat % 128 ≠ 0x7F := by bv_omega

theorem decode_b8s_hasValue {x : BitVec 8} (P : Nat) (h0 : x ≠ 0) (h80 : x ≠ 0x80) :
    ((fmtB8s P).decode x.toNat).HasValue x.msb
      (fieldValue (x.toNat % 128 / 2 ^ (P - 1)) (x.toNat % 128 % 2 ^ (P - 1)) (P - 1) (2 ^ (7 - P))) := by
  rw [decode_b8s, if_neg h80]
  exact Fmt.grid_hasValue (isBinary8_b8s P).fixed _ (low7_ne_zero h0 h80)

theorem decode_b8x_eq_b8s {x : BitVec 8} (P : Nat) (h7F : x ≠ 0x7F) (hFF : x ≠ 0xFF) :
    (fmtB8x P).decode x.toNat = (fmtB8s P).decode x.toNat := by
  rw [decode_b8x, decode_b8s, if_neg (low7_ne_max h7F hFF)]

theorem decode_b8z_hasValue {x : BitVec 8} (P : Nat) (h0 : x ≠ 0) (hFF : x ≠ 0xFF) :
    ((fmtB8z P).decode x.toNat).HasValue false
      (fieldValue (x.toNat / 2 ^ (P - 1)) (x.toNat % 2 ^ (P - 1)) (P - 1) (2 ^ (8 - P))) := by
  rw [decode_b8z, if_neg hFF]
  exact Fmt.grid_hasValue (isBinary8_b8z P).fixed _ (fun h => h0 (BitVec.toNat_inj.mp h))

/-- Settles O6: each format decodes a code to its NaN, to an infinity or to the grid of R175, and a grid value is zero only at
magnitude 0. -/
theorem elementValues : Obligations.ElementValues := by
  unfold Obligations.ElementValues
  refine ⟨fun q => ⟨?mxi8Zero, decode_mxi8_hasValue⟩, fun p x => ⟨?zero, ?x80, ?x7F, ?xFF, fun h0 h80 => ?signed, ?unsigned⟩⟩
  case mxi8Zero => rintro rfl; exact decode_mxi8 0
  case zero =>
    rintro rfl
    exact ⟨(decode_b8s _ 0).trans (Fmt.grid_zero _ _), (decode_b8x _ 0).trans (Fmt.grid_zero _ _),
      (decode_b8z _ 0).trans (Fmt.grid_zero _ _)⟩
  case x80 => rintro rfl; exact ⟨decode_b8s _ 0x80, decode_b8x _ 0x80⟩
  case x7F => rintro rfl; exact decode_b8x _ 0x7F
  case xFF => rintro rfl; exact ⟨decode_b8x _ 0xFF, decode_b8z _ 0xFF⟩
  case signed => exact ⟨decode_b8s_hasValue _ h0 h80, decode_b8x_eq_b8s _⟩
  case unsigned => exact decode_b8z_hasValue _

end Sys2Proof.Machine
end

section
/-! Divisions: R274's quotient and remainder as one pair, and the scalar words that deliver its parts. -/

namespace Sys2Proof.Machine

/-- R274: the quotient and the remainder of exact operands. -/
def quotRem (x y : Int) : Int × Int :=
  if y = 0 then (-1, x) else if x = -2 ^ 63 ∧ y = -1 then (-2 ^ 63, 0) else (x.tdiv y, x - x.tdiv y * y)

theorem quotRem_fst (x y : Int) :
    (quotRem x y).1 = if y = 0 then -1 else if x = -2 ^ 63 ∧ y = -1 then -2 ^ 63 else x.tdiv y := by
  rw [quotRem, apply_ite Prod.fst, apply_ite Prod.fst]

theorem quotRem_snd (x y : Int) :
    (quotRem x y).2 = if y = 0 then x else if x = -2 ^ 63 ∧ y = -1 then 0 else x - x.tdiv y * y := by
  rw [quotRem, apply_ite Prod.snd, apply_ite Prod.snd]

theorem divQ_eq_quotRem (signed : Bool) (a b : W64) :
    divQ signed a b = BitVec.ofInt 64 (quotRem (divArg signed a) (divArg signed b)).1 :=
  congrArg (BitVec.ofInt 64) (quotRem_fst _ _).symm

theorem divR_eq_quotRem (signed : Bool) (a b : W64) :
    divR signed a b = BitVec.ofInt 64 (quotRem (divArg signed a) (divArg signed b)).2 :=
  congrArg (BitVec.ofInt 64) (quotRem_snd _ _).symm

/-- A two-source scalar word delivers its function of the two operands. -/
theorem scalarDone_of_scalarBody {s : State} {i : Instr} {is : Issue} {x : S3} {f : W64 → W64 → W64}
    (he : Machine.exec i s = runWord i (scalarBody f x) s) (h : s.ready i = some is) :
    ScalarDone i s is x.sd.val (f (is.sv s x.sa) (is.sv s x.sb)) :=
  scalarDone_of h he rfl

theorem scalarDone_of_divQ {s : State} {i : Instr} {is : Issue} {x : S3} {signed : Bool}
    (he : Machine.exec i s = runWord i (scalarBody (divQ signed) x) s) (h : s.ready i = some is) :
    ScalarDone i s is x.sd.val
      (BitVec.ofInt 64 (quotRem (divArg signed (is.sv s x.sa)) (divArg signed (is.sv s x.sb))).1) := by
  rw [← divQ_eq_quotRem]
  exact scalarDone_of_scalarBody he h

theorem scalarDone_of_divR {s : State} {i : Instr} {is : Issue} {x : S3} {signed : Bool}
    (he : Machine.exec i s = runWord i (scalarBody (divR signed) x) s) (h : s.ready i = some is) :
    ScalarDone i s is x.sd.val
      (BitVec.ofInt 64 (quotRem (divArg signed (is.sv s x.sa)) (divArg signed (is.sv s x.sb))).2) := by
  rw [← divR_eq_quotRem]
  exact scalarDone_of_scalarBody he h

/-- Settles O2: each division word runs `divQ` or `divR` on its operands, signed or not, and these are the two parts of R274's
pair. -/
theorem scalarDivisions : Obligations.ScalarDivisions := by
  unfold Obligations.ScalarDivisions
  intro s is x
  refine ⟨?sdiv, ?sdivn, ?srem, ?sremn⟩
  case sdiv => exact scalarDone_of_divQ (signed := true) rfl
  case sdivn => exact scalarDone_of_divQ (signed := false) rfl
  case srem => exact scalarDone_of_divR (signed := true) rfl
  case sremn => exact scalarDone_of_divR (signed := false) rfl

end Sys2Proof.Machine
end

section
/-! The encoder's words read back field by field (R239 to R245), and each format's decoder on the words of its encoder. -/

namespace Sys2Proof

open BitVec (extractLsb'_append_eq_of_le extractLsb'_append_eq_of_add_le extractLsb'_append_eq_ite)

/-! ### Operand codes read back -/

@[simp] theorem Dec.ok_bind {α β : Type} (x : α) (f : α → Dec β) : ((.ok x : Dec α) >>= f) = f x := rfl

@[simp] theorem Guard.ofBits_bits (g : Guard) : Guard.ofBits g.bits = g := by
  obtain ⟨neg, p⟩ := g
  revert neg p
  decide

@[simp] theorem VOp.ofCode_code (v : VOp) : VOp.ofCode v.code = v := by
  cases v with
  | dir n => revert n; decide
  | ind j => revert j; decide

@[simp] theorem SOp.ofCode_code (o : SOp) : SOp.ofCode o.code = .ok o := by
  cases o with
  | reg n => revert n; decide
  | special r => cases r <;> rfl

@[simp] theorem sdOfCode_sdCode : ∀ n : Fin 96, sdOfCode (sdCode n) = .ok n := by decide
@[simp] theorem SOp.ofCode_zero : SOp.ofCode 0#7 = .ok (.reg 0) := rfl
@[simp] theorem SOp.ofCode_sdCode : ∀ n : Fin 96, SOp.ofCode (sdCode n) = .ok (.reg n) := by decide
@[simp] theorem predOfCode_pdCode : ∀ n : Fin 7, predOfCode (pdCode n) = .ok n := by decide
@[simp] theorem fin3_f8 : ∀ n : Fin 8, fin3 (f8 n) = n := by decide
@[simp] theorem fin2_ofFin (n : Fin 4) : fin2 ⟨n⟩ = n := rfl
@[simp] theorem fin4_ofFin (n : Fin 16) : fin4 ⟨n⟩ = n := rfl
@[simp] theorem fin6_ofFin (n : Fin 64) : fin6 ⟨n⟩ = n := rfl

@[simp] theorem NFC.ofCode_code (f : NFC) : NFC.ofCode f.code = .ok f := by
  cases f with
  | b8s p => revert p; decide
  | b8x p => revert p; decide
  | b8z p => revert p; decide
  | _ => rfl

@[simp] theorem ITy.ofCode_code (t : ITy) : ITy.ofCode t.code = t := by cases t <;> rfl
@[simp] theorem ITy.ofCode6_code6 (t : ITy) : ITy.ofCode6 t.code6 = .ok t := by cases t <;> rfl
@[simp] theorem BTy.ofCode_code (t : BTy) : BTy.ofCode t.code = .ok t := by cases t <;> rfl
@[simp] theorem FTy.ofCode_code (t : FTy) : FTy.ofCode t.code = t := by cases t <;> rfl
@[simp] theorem FTy.ofNfc_nfc (t : FTy) : FTy.ofNfc t.nfc = .ok t := by cases t <;> rfl
@[simp] theorem RM.ofCode_code (r : RM) : RM.ofCode r.code = .ok r := by cases r <;> rfl
@[simp] theorem Space.ofCode_code (a : Space) : Space.ofCode a.code = .ok a := by cases a <;> rfl
@[simp] theorem Ord.ofCode_code (o : Ord) : Ord.ofCode o.code = o := by cases o <;> rfl
@[simp] theorem FOrd.ofCode_code (o : FOrd) : FOrd.ofCode o.code = .ok o := by cases o <;> rfl
@[simp] theorem Scope.ofCode_code (a : Scope) : Scope.ofCode a.code = .ok a := by cases a <;> rfl
@[simp] theorem Cond.ofCode_code (c : Cond) : Cond.ofCode c.code = .ok c := by cases c <;> rfl
@[simp] theorem FCond.ofCode_code (c : FCond) : FCond.ofCode c.code = .ok c := by
  cases c with
  | ord c => cases c <;> rfl
  | un => rfl
@[simp] theorem MxFmt.ofFe_fe (f : MxFmt) : MxFmt.ofFe f.fe = .ok f := by cases f <;> rfl
@[simp] theorem MxFmt.ofNfc_nfc (f : MxFmt) : MxFmt.ofNfc f.nfc.code = .ok f := by cases f <;> rfl
@[simp] theorem FOp.ofCode_code (o : FOp) : FOp.ofCode o.code = .ok o := by cases o <;> rfl
@[simp] theorem RedOpr.ofCode_code (o : RedOpr) : RedOpr.ofCode o.code = .ok o := by cases o <;> rfl
@[simp] theorem RedTy.ofCode_code (t : RedTy) : RedTy.ofCode t.code = .ok t := by cases t <;> rfl
@[simp] theorem XMode.ofCode_code (m : XMode) : XMode.ofCode m.code = m := by cases m <;> rfl
@[simp] theorem AOp.ofCode_code (o : AOp) : AOp.ofCode o.code = .ok o := by cases o <;> rfl
@[simp] theorem CopyXf.ofCode_code (x : CopyXf) : CopyXf.ofCode x.code = .ok x := by cases x <;> rfl
@[simp] theorem CopyRed.ofCode_code (r : CopyRed) : CopyRed.ofCode r.code = .ok r := by cases r <;> rfl

theorem fld_eq (w : W32) (lo n : Nat) : fld w lo n = w.extractLsb' lo n := rfl

/-- A flag is the one-bit field at its place. -/
theorem bit_eq_fld (w : W32) (k : Nat) : bit w k = (fld w k 1 == 1) := by
  have h : fld w k 1 = BitVec.ofBool (w.getLsbD k) := by
    refine BitVec.eq_of_getLsbD_eq fun i hi => ?_
    obtain rfl : i = 0 := by omega
    simp [fld]
  rw [h, bit]
  cases w.getLsbD k <;> rfl

@[simp] theorem b1_beq_one (b : Bool) : (b1 b == 1#1) = b := by cases b <;> rfl

/-! ### The fields of a word as it is packed (R240, R241) -/

section
variable (op sd sa sb : BitVec 7) (g : Guard) (d a : BitVec 6) (lo : BitVec 8) (m : BitVec 3) (imm : BitVec 17)
  (off : BitVec 20)

@[simp high] theorem opOf_packV : opOf (packV op g d a lo) = op.toNat := by
  simp (disch := decide) [opOf, packV, fld, extractLsb'_append_eq_of_le, extractLsb'_append_eq_of_add_le, -Nat.reduceAdd,
    -BitVec.extractLsb'_toNat]
@[simp high] theorem guardOf_packV : guardOf (packV op g d a lo) = g := by
  simp (disch := decide) [guardOf, packV, fld, extractLsb'_append_eq_of_le, extractLsb'_append_eq_of_add_le, -Nat.reduceAdd]
@[simp high] theorem fld_packV_d : fld (packV op g d a lo) 14 6 = d := by
  simp (disch := decide) [packV, fld, extractLsb'_append_eq_of_le, extractLsb'_append_eq_of_add_le, -Nat.reduceAdd]
@[simp high] theorem fld_packV_a : fld (packV op g d a lo) 8 6 = a := by
  simp (disch := decide) [packV, fld, extractLsb'_append_eq_of_le, extractLsb'_append_eq_of_add_le, -Nat.reduceAdd]
@[simp high] theorem fld_packV_lo {k n : Nat} (h : k + n ≤ 8) : fld (packV op g d a lo) k n = lo.extractLsb' k n :=
  extractLsb'_append_eq_of_add_le h
theorem fld_packV_dPart :
    fld (packV op g d a lo) 14 3 = d.extractLsb' 0 3 ∧ fld (packV op g d a lo) 17 3 = d.extractLsb' 3 3 := by
  simp (disch := decide) [packV, fld, extractLsb'_append_eq_of_le, extractLsb'_append_eq_of_add_le, -Nat.reduceAdd]
theorem fld_packV_aPart : fld (packV op g d a lo) 8 3 = a.extractLsb' 0 3 ∧ fld (packV op g d a lo) 11 3 = a.extractLsb' 3 3 := by
  simp (disch := decide) [packV, fld, extractLsb'_append_eq_of_le, extractLsb'_append_eq_of_add_le, -Nat.reduceAdd]

@[simp high] theorem opOf_packBR : opOf (packBR op g off) = op.toNat := by
  simp (disch := decide) [opOf, packBR, fld, extractLsb'_append_eq_of_le, extractLsb'_append_eq_of_add_le, -Nat.reduceAdd,
    -BitVec.extractLsb'_toNat]
@[simp high] theorem guardOf_packBR : guardOf (packBR op g off) = g := by
  simp (disch := decide) [guardOf, packBR, fld, extractLsb'_append_eq_of_le, extractLsb'_append_eq_of_add_le, -Nat.reduceAdd]
@[simp high] theorem fld_packBR_off : fld (packBR op g off) 0 20 = off := by
  simp (disch := decide) [packBR, fld, extractLsb'_append_eq_of_add_le, -Nat.reduceAdd]

@[simp high] theorem opOf_packS3 : opOf (packS3 op sd sa sb m) = op.toNat := by
  simp (disch := decide) [opOf, packS3, fld, extractLsb'_append_eq_of_le, extractLsb'_append_eq_of_add_le, -Nat.reduceAdd,
    -BitVec.extractLsb'_toNat]
@[simp high] theorem fld_packS3_sd : fld (packS3 op sd sa sb m) 17 7 = sd := by
  simp (disch := decide) [packS3, fld, extractLsb'_append_eq_of_le, extractLsb'_append_eq_of_add_le, -Nat.reduceAdd]
@[simp high] theorem fld_packS3_sa : fld (packS3 op sd sa sb m) 10 7 = sa := by
  simp (disch := decide) [packS3, fld, extractLsb'_append_eq_of_le, extractLsb'_append_eq_of_add_le, -Nat.reduceAdd]
@[simp high] theorem fld_packS3_sb : fld (packS3 op sd sa sb m) 3 7 = sb := by
  simp (disch := decide) [packS3, fld, extractLsb'_append_eq_of_le, extractLsb'_append_eq_of_add_le, -Nat.reduceAdd]
@[simp high] theorem fld_packS3_m {k n : Nat} (h : k + n ≤ 3) : fld (packS3 op sd sa sb m) k n = m.extractLsb' k n :=
  extractLsb'_append_eq_of_add_le h

@[simp high] theorem opOf_packSI : opOf (packSI op sd imm) = op.toNat := by
  simp (disch := decide) [opOf, packSI, fld, extractLsb'_append_eq_of_le, extractLsb'_append_eq_of_add_le, -Nat.reduceAdd,
    -BitVec.extractLsb'_toNat]
@[simp high] theorem fld_packSI_sd : fld (packSI op sd imm) 17 7 = sd := by
  simp (disch := decide) [packSI, fld, extractLsb'_append_eq_of_le, extractLsb'_append_eq_of_add_le, -Nat.reduceAdd]
@[simp high] theorem fld_packSI_imm {k n : Nat} (h : k + n ≤ 17) : fld (packSI op sd imm) k n = imm.extractLsb' k n :=
  extractLsb'_append_eq_of_add_le h

end

/-! ### Each format's decoder on its encoder's words -/

theorem decV3I_pack (f : ITy → V3 → Instr) (op : BitVec 7) (t : ITy) (x : V3) : decV3I f (packV3 op x t.code) = .ok (f t x) := by
  simp (disch := decide) [decV3I, v3Of, mOf, vdOf, vaOf, vbOf, packV3, fld_packV_lo, extractLsb'_append_eq_of_le,
    extractLsb'_append_eq_of_add_le, -Nat.reduceAdd]

theorem decV3B_pack (f : BTy → V3 → Instr) (op : BitVec 7) (t : BTy) (x : V3) : decV3B f (packV3 op x t.code) = .ok (f t x) := by
  simp (disch := decide) [decV3B, v3Of, mOf, vdOf, vaOf, vbOf, packV3, fld_packV_lo, extractLsb'_append_eq_of_le,
    extractLsb'_append_eq_of_add_le, -Nat.reduceAdd]

theorem decV3F_pack (f : FTy → V3 → Instr) (op : BitVec 7) (t : FTy) (x : V3) : decV3F f (packV3 op x t.code) = .ok (f t x) := by
  simp (disch := decide) [decV3F, v3Of, mOf, vdOf, vaOf, vbOf, packV3, fld_packV_lo, extractLsb'_append_eq_of_le,
    extractLsb'_append_eq_of_add_le, -Nat.reduceAdd]

@[simp] theorem v3Of_packV3 (op : BitVec 7) (x : V3) (m : BitVec 2) : v3Of (packV3 op x m) = x := by
  simp (disch := decide) [v3Of, vdOf, vaOf, vbOf, packV3, fld_packV_lo, extractLsb'_append_eq_of_le, -Nat.reduceAdd]

@[simp] theorem v2Of_packV2 (op : BitVec 7) (x : V2) (lo : BitVec 8) : v2Of (packV2 op x lo) = x := by
  simp (disch := decide) [v2Of, vdOf, vaOf, packV2, -Nat.reduceAdd]

theorem decS3_encS (f : S3 → Instr) (op : BitVec 7) (m : BitVec 3) (x : S3) : decS3 (encS op m x) f = .ok (f x) := by
  simp (disch := decide) [decS3, encS, -Nat.reduceAdd]

theorem decSdImm_pack (f : Fin 96 → BitVec 17 → Instr) (op : BitVec 7) (d : Fin 96) (v : BitVec 17) :
    decSdImm (packSI op (sdCode d) v) f = .ok (f d v) := by
  simp (disch := decide) [decSdImm, imm17Of, fld_packSI_imm, -Nat.reduceAdd]

theorem decBr_pack (f : Guard → BitVec 20 → Instr) (op : BitVec 7) (g : Guard) (off : BitVec 20) :
    decBr (packBR op g off) f = .ok (f g off) := by
  simp (disch := decide) [decBr, -Nat.reduceAdd]

theorem decJump_pack (f : Guard → VOp → Instr) (op : BitVec 7) (g : Guard) (a : VOp) :
    decJump (packV op g 0 a.code 0) f = .ok (f g a) := by
  simp (disch := decide) [decJump, zeros, req, vaOf, fld_packV_lo, -Nat.reduceAdd]

theorem decBare_pack (op : BitVec 7) (i : Instr) : decBare (packSI op 0 0) i = .ok i := by
  simp [decBare, zeros, req, packSI, fld, extractLsb'_append_eq_ite, -Nat.reduceAdd]

theorem decMask_pack (f : Fin 16 → Instr) (op : BitVec 7) (k : Fin 16) :
    decMask (packSI op 0 (0#13 ++ BitVec.ofNat 4 k.val)) f = .ok (f k) := by
  have h : zeros (packSI op 0 (0#13 ++ BitVec.ofNat 4 k.val)) 4 20 = .ok () := by
    simp [zeros, req, packSI, fld, extractLsb'_append_eq_ite, -Nat.reduceAdd]
  rw [decMask, h]
  simp (disch := decide) [extractLsb'_append_eq_of_add_le, -Nat.reduceAdd]

theorem decReform_pack (g : Guard) (a : VOp) (n : BitVec 5) :
    decReform (packV 0x08 g 0 a.code (0#3 ++ n)) = .ok (.reform g a n) := by
  simp (disch := decide) [decReform, zeros, req, vaOf, extractLsb'_append_eq_of_le, extractLsb'_append_eq_of_add_le,
    -Nat.reduceAdd]

theorem decLoop_l0 (c : SOp) (e : BitVec 15) :
    decLoop (packS3 0x09 0 c.code 0 1) (0#1 ++ e ++ 0#15 ++ 0#1) = .ok (.loop (.l0 c e)) := by
  simp (disch := decide) [decLoop, zeros, req, fld_eq, extractLsb'_append_eq_of_le, extractLsb'_append_eq_of_add_le,
    -Nat.reduceAdd]

theorem decLoop_l1 (c : SOp) (e : BitVec 15) :
    decLoop (packS3 0x09 0 0 c.code 2) (0#1 ++ 0#15 ++ e ++ 0#1) = .ok (.loop (.l1 c e)) := by
  simp (disch := decide) [decLoop, zeros, req, fld_eq, extractLsb'_append_eq_of_le, extractLsb'_append_eq_of_add_le,
    -Nat.reduceAdd]

theorem decLoop_both (c d : SOp) (e f : BitVec 15) :
    decLoop (packS3 0x09 0 c.code d.code 3) (0#1 ++ e ++ f ++ 0#1) = .ok (.loop (.both c e d f)) := by
  simp (disch := decide) [decLoop, zeros, req, fld_eq, extractLsb'_append_eq_of_le, extractLsb'_append_eq_of_add_le,
    -Nat.reduceAdd]

theorem decExit_pack (g : Guard) : decExit (packV 0x0D g 0 0 0) = .ok (.exit g) := by
  have h : zeros (packV 0x0D g 0 0 0) 0 20 = .ok () := by
    simp [zeros, req, packV, fld, extractLsb'_append_eq_ite, -Nat.reduceAdd]
  rw [decExit, h]
  simp

theorem dec0E_packP (x : P3) (m : BitVec 2) :
    dec0E (packP x m) =
    (match m.toNat with | 0 => .ok (.pand x) | 1 => .ok (.por x) | 2 => .ok (.pxor x) | _ => .ok (.pandn x)) := by
  simp (disch := decide) [dec0E, zeros, req, packP, mOf, fld_packV_dPart, fld_packV_aPart, extractLsb'_append_eq_of_le,
    extractLsb'_append_eq_of_add_le, -Nat.reduceAdd] <;> rfl

theorem fld_encS_m (op : BitVec 7) (m : BitVec 3) (x : S3) :
    fld (encS op m x) 0 3 = m := by
  simp (disch := decide) [encS, -Nat.reduceAdd]

theorem dec14_pack (m : BitVec 3) (d : Fin 96) (a : SOp) :
    dec14 (packS3 0x14 (sdCode d) a.code 96 m) =
      (match m.toNat with | 0 => .ok (.sclz d a) | 1 => .ok (.spopc d a) | 2 => .ok (.sbrev d a) | _ => .error .subop) := by
  simp (disch := decide) [dec14, req, -Nat.reduceAdd] <;> rfl

theorem dec2F_pack (x : V2) (m : BitVec 2) :
    dec2F (packV2 0x2F x (0#6 ++ m)) =
      (match m.toNat with | 0 => .ok (.vclz x) | 1 => .ok (.vpopc x) | 2 => .ok (.vbrev x) | _ => .error .subop) := by
  simp (disch := decide) [dec2F, zeros, req, mOf, v2Of, vdOf, vaOf, packV2, extractLsb'_append_eq_of_le,
    extractLsb'_append_eq_of_add_le, -Nat.reduceAdd] <;> rfl

theorem decAccmv_pack (m : BitVec 3) (a : Fin 96) (t : BitVec 11) (n : Fin 4) (f : NFC) :
    decAccmv (packS3 0x6F 0 (sdCode a) 0 m) (0#1 ++ t ++ BitVec.ofNat 2 n.val ++ f.code ++ 0#12) =
      (match m.toNat with | 0 => .ok (.accmvOut a t n f) | 1 => .ok (.accmvIn a t n f) | _ => .error .subop) := by
  simp (disch := decide) [decAccmv, zeros, req, fld_eq, extractLsb'_append_eq_of_le, extractLsb'_append_eq_of_add_le,
    -Nat.reduceAdd] <;> rfl

theorem decSignalsem_pack (m : BitVec 2) (a b : SOp) :
    decSignalsem (packS3 0x7B 0 a.code b.code 0) (0#1 ++ m ++ 0#29) =
      (match m.toNat with | 0 => .ok (.signalsemSet a b) | 1 => .ok (.signalsemAdd a b) | _ => .error .subop) := by
  simp (disch := decide) [decSignalsem, zeros, req, fld_eq, extractLsb'_append_eq_of_le, extractLsb'_append_eq_of_add_le,
    -Nat.reduceAdd] <;> rfl

theorem decCsr_read (d : Fin 96) (n : BitVec 12) :
    decCsr (packSI 0x7D (sdCode d) (0#2 ++ 0#3 ++ n)) = .ok (.csrr d n) := by
  simp (disch := decide) [decCsr, zeros, req, extractLsb'_append_eq_of_le, extractLsb'_append_eq_of_add_le, -Nat.reduceAdd]

theorem decCsr_write (o : SOp) (n : BitVec 12) :
    decCsr (packSI 0x7D o.code (1#2 ++ 0#3 ++ n)) = .ok (.csrw o n) := by
  simp (disch := decide) [decCsr, zeros, req, extractLsb'_append_eq_of_le, extractLsb'_append_eq_of_add_le, -Nat.reduceAdd]

theorem decTrap_pack (c : BitVec 17) :
    decTrap (packSI 0x0F 0 c) = .ok (.trap c) := by
  simp (disch := decide) [decTrap, zeros, req, imm17Of, -Nat.reduceAdd]

theorem decVcmp_pack (t : ITy) (c : Cond) (x : VC) :
    decVcmp (packV 0x2D x.g (c.code ++ pdCode x.pd) x.a.code (x.b.code ++ t.code)) = .ok (.vcmp t c x) := by
  simp (disch := decide) [decVcmp, mOf, vaOf, vbOf, fld_packV_dPart, extractLsb'_append_eq_of_le,
    extractLsb'_append_eq_of_add_le, -Nat.reduceAdd]

theorem decVfcmp_pack (t : FTy) (c : FCond) (x : VC) :
    decVfcmp (packV 0x3E x.g (c.code ++ pdCode x.pd) x.a.code (x.b.code ++ t.code)) = .ok (.vfcmp t c x) := by
  simp (disch := decide) [decVfcmp, mOf, vaOf, vbOf, fld_packV_dPart, extractLsb'_append_eq_of_le,
    extractLsb'_append_eq_of_add_le, -Nat.reduceAdd]

theorem decVmov_pack (t : BTy) (x : V2) :
    decVmov (packV2 0x2E x (0#6 ++ t.code)) = .ok (.vmov t x) := by
  simp (disch := decide) [decVmov, zeros, req, mOf, v2Of, vdOf, vaOf, packV2, extractLsb'_append_eq_of_le,
    extractLsb'_append_eq_of_add_le, -Nat.reduceAdd]

theorem fld_packV2_lo (op : BitVec 7) (x : V2) (lo : BitVec 8) :
    fld (packV2 op x lo) 0 8 = lo := by
  simp (disch := decide) [packV2, -Nat.reduceAdd]

theorem decShi_pack (f : V2 → BitVec 5 → Instr) (op : BitVec 7) (x : V2) (n : BitVec 5) :
    decShi (packV2 op x (0#3 ++ n)) f = .ok (f x n) := by
  simp (disch := decide) [decShi, zeros, req, v2Of, vdOf, vaOf, packV2, extractLsb'_append_eq_of_le,
    extractLsb'_append_eq_of_add_le, -Nat.reduceAdd]

theorem decVmovi_pack (g : Guard) (d : VOp) (i : BitVec 8) :
    decVmovi (packV 0x34 g d.code 0 i) = .ok (.vmovi g d i) := by
  simp (disch := decide) [decVmovi, zeros, req, vdOf, -Nat.reduceAdd]

theorem decVbcast_pack (t : BTy) (g : Guard) (d : VOp) (o : SOp) :
    decVbcast (packVS 0x35 g d.code 0 o.code (b1 t.is64)) = .ok (.vbcast t g d o) := by
  cases t <;> simp (disch := decide) [decVbcast, packVS, vdOf, BTy.is64, zeros, req, bit_eq_fld, extractLsb'_append_eq_of_le,
      extractLsb'_append_eq_of_add_le, -Nat.reduceAdd]

theorem decVreadl_pack (g : Guard) (d : Fin 96) (a : VOp) (l : Fin 128) :
    decVreadl (packVS 0x36 g (BitVec.ofNat 6 (l.val % 64)) a.code (sdCode d) (BitVec.ofNat 1 (l.val / 64))) =
    .ok (.vreadl g d a l) := by
  have h : l.val / 64 % 2 * 64 + l.val % 64 = l.val := by omega
  simp (disch := decide) [decVreadl, packVS, vaOf, h, extractLsb'_append_eq_of_le, extractLsb'_append_eq_of_add_le,
    -Nat.reduceAdd]

theorem decVfsqrt_pack (t : FTy) (x : V2) :
    decVfsqrt (packV2 0x40 x (0#6 ++ t.code)) = .ok (.vfsqrt t x) := by
  simp (disch := decide) [decVfsqrt, zeros, req, mOf, v2Of, vdOf, vaOf, packV2, extractLsb'_append_eq_of_le,
    extractLsb'_append_eq_of_add_le, -Nat.reduceAdd]

theorem decXN_packXN (nd ns : BitVec 6) (rm : RM) (o : SOp) (p : Fin 4) (sub : BitVec 3) :
    decXN (packXN nd ns rm o p sub) = .ok ⟨nd, ns, rm, o, p, sub⟩ := by
  simp (disch := decide) [decXN, packXN, zeros, req, fld_eq, extractLsb'_append_eq_of_le, extractLsb'_append_eq_of_add_le,
    -Nat.reduceAdd]

theorem decVfopx_pack (op : FOp) (t : FTy) (rm : RM) (o : SOp) (x : V3) :
    decVfopx (packV3 0x41 x 0) (packXN t.nfc t.nfc rm o 0 op.code) = .ok (.vfopx op t rm o x) := by
  simp (disch := decide) [decVfopx, decXN_packXN, zeros, req, v3Of, vdOf, vaOf, vbOf, packV3, extractLsb'_append_eq_of_le,
    extractLsb'_append_eq_of_add_le, -Nat.reduceAdd]

theorem decVcvt_pack (k : CvtKind) (p : Fin 4) (rm : RM) (o : SOp) (x : V2) :
    (match k with
    | .ff d s => decVcvt (packV2 0x42 x 0) (packXN d.code s.code rm o p 0)
    | .fi d s => decVcvt (packV2 0x42 x 1) (packXN d.code6 s.code rm o p 0)
    | .intf d s => decVcvt (packV2 0x42 x 2) (packXN d.code s.code6 rm o p 0)) = .ok (.vcvt k p rm o x) := by
  cases k <;> simp (disch := decide) [decVcvt, decXN_packXN, zeros, req, mOf, v2Of, vdOf, vaOf, packV2, -Nat.reduceAdd]

theorem decMxmax_pack (x : V2) :
    decMxmax (packV2 0x43 x 0) = .ok (.mxmax x) := by
  simp (disch := decide) [decMxmax, zeros, req, v2Of, vdOf, vaOf, packV2, -Nat.reduceAdd]

theorem decMxscale_pack (f : MxFmt) (p : Fin 4) (x : V2) :
    decMxscale (packV2 0x44 x 0) (packXN f.nfc.code 0 .rne (.reg 0) p 0) = .ok (.mxscale f p x) := by
  simp (disch := decide) [decMxscale, decXN_packXN, zeros, req, v2Of, vdOf, vaOf, packV2, -Nat.reduceAdd]

theorem decMxq_pack (f : MxFmt) (p : Fin 4) (rm : RM) (o : SOp) (x : V3) :
    decMxq (packV3 0x45 x 0) (packXN f.nfc.code 0 rm o p 0) = .ok (.mxq f p rm o x) := by
  simp (disch := decide) [decMxq, decXN_packXN, zeros, req, v3Of, vdOf, vaOf, vbOf, packV3, extractLsb'_append_eq_of_le,
    extractLsb'_append_eq_of_add_le, -Nat.reduceAdd]

theorem decMxdq_pack (f : MxFmt) (p : Fin 4) (x : V3) :
    decMxdq (packV3 0x46 x 0) (packXN 0 f.nfc.code .rne (.reg 0) p 0) = .ok (.mxdq f p x) := by
  simp (disch := decide) [decMxdq, decXN_packXN, zeros, req, v3Of, vdOf, vaOf, vbOf, packV3, extractLsb'_append_eq_of_le,
    extractLsb'_append_eq_of_add_le, -Nat.reduceAdd]

theorem decVshfl_pack (m : ShflMode) (x : V3) :
    decVshfl (packV3 0x47 x m.code) = .ok (.vshfl m x) := by
  cases m <;> simp (disch := decide) [decVshfl, mOf, v3Of, vdOf, vaOf, vbOf, packV3, ShflMode.code, extractLsb'_append_eq_of_le,
      extractLsb'_append_eq_of_add_le, -Nat.reduceAdd]

theorem decVred_pack (o : RedOpr) (t : RedTy) (q : Fin 8) (x : V2) :
    decVred (packV2 0x48 x 0) (0#1 ++ o.code ++ t.code ++ f8 q ++ 0#1 ++ 0#20) = .ok (.vred o t q x) := by
  simp (disch := decide) [decVred, v2Of, vdOf, vaOf, packV2, extractLsb'_append_eq_ite, zeros, req, fld_eq, -Nat.reduceAdd]

theorem decVscan_pack (o : RedOpr) (t : RedTy) (q : Fin 8) (e : Bool) (x : V2) :
    decVscan (packV2 0x49 x 0) (0#1 ++ o.code ++ t.code ++ f8 q ++ b1 e ++ 0#20) = .ok (.vscan o t q e x) := by
  simp (disch := decide) [decVscan, v2Of, vdOf, vaOf, packV2, zeros, req, fld_eq, bit_eq_fld, extractLsb'_append_eq_of_le,
    extractLsb'_append_eq_of_add_le, -Nat.reduceAdd]

theorem decVballot_pack (g : Guard) (d : Fin 96) (p : Fin 8) :
    decVballot (packVS 0x4A g (0#3 ++ f8 p) 0 (sdCode d) 0) = .ok (.vballot g d p) := by
  simp (disch := decide) [decVballot, packVS, fld_packV_dPart, zeros, req, extractLsb'_append_eq_of_le,
    extractLsb'_append_eq_of_add_le, -Nat.reduceAdd]

theorem decVmerge_pack (t : MergeTy) (dh : VOp) (o : Bool) (x : V3) :
    decVmerge (packV3 0x4B x 0) (0#1 ++ t.code ++ dh.code ++ b1 o ++ 0#22) = .ok (.vmerge t dh o x) := by
  cases t <;> simp (disch := decide) [decVmerge, v3Of, vdOf, vaOf, vbOf, packV3, MergeTy.code, zeros, req, fld_eq, bit_eq_fld,
      extractLsb'_append_eq_of_le, extractLsb'_append_eq_of_add_le, -Nat.reduceAdd]

theorem decVid_pack (l : Bool) (g : Guard) (d : VOp) :
    decVid (packV 0x4C g d.code 0 (0#7 ++ b1 l)) = .ok (.vid l g d) := by
  simp (disch := decide) [decVid, vdOf, zeros, req, bit_eq_fld, extractLsb'_append_eq_of_le, extractLsb'_append_eq_of_add_le,
    -Nat.reduceAdd]

theorem decXset_pack (j : Fin 8) (m : XMode) (c : BitVec 4) (z : Bool) (a b : SOp) :
    decXset (packS3 0x50 0 a.code b.code (f8 j)) (0#1 ++ m.code ++ c ++ b1 z ++ 0#24) = .ok (.xset j m c z a b) := by
  simp (disch := decide) [decXset, zeros, req, fld_eq, bit_eq_fld, extractLsb'_append_eq_of_le, extractLsb'_append_eq_of_add_le,
    -Nat.reduceAdd]

theorem decXldv_pack (g : Guard) (j : Fin 8) (a : VOp) :
    decXldv (packV 0x51 g 0 a.code (0#5 ++ f8 j)) = .ok (.xldv g j a) := by
  simp (disch := decide) [decXldv, vaOf, zeros, req, extractLsb'_append_eq_of_le, extractLsb'_append_eq_of_add_le, -Nat.reduceAdd]

theorem decXgetv_pack (g : Guard) (d : VOp) (j : Fin 8) (q : Bool) :
    decXgetv (packV 0x52 g d.code 0 (0#4 ++ b1 q ++ f8 j)) = .ok (.xgetv g d j q) := by
  simp (disch := decide) [decXgetv, vdOf, zeros, req, bit_eq_fld, extractLsb'_append_eq_of_le, extractLsb'_append_eq_of_add_le,
    -Nat.reduceAdd]

theorem decWindow_pack (f : BitVec 9 → Instr) (op : BitVec 7) (t : BitVec 9) :
    decWindow (packSI op 0 (0#8 ++ t)) f = .ok (f t) := by
  have h : zeros (packSI op 0 (0#8 ++ t)) 9 15 = .ok () := by
    simp [zeros, req, packSI, fld, extractLsb'_append_eq_ite, -Nat.reduceAdd]
  rw [decWindow, h]
  simp (disch := decide) [extractLsb'_append_eq_of_add_le, -Nat.reduceAdd]

theorem decVclmul_pack (h : Bool) (x : V3) :
    decVclmul (packV3 0x58 x (0#1 ++ b1 h)) = .ok (.vclmul h x) := by
  simp (disch := decide) [decVclmul, req, bit_eq_fld, v3Of, vdOf, vaOf, vbOf, packV3, extractLsb'_append_eq_of_le,
    extractLsb'_append_eq_of_add_le, -Nat.reduceAdd]

theorem decVmad24_pack (h : Bool) (x : V3) :
    decVmad24 (packV3 0x59 x (0#1 ++ b1 h)) = .ok (.vmad24 h x) := by
  simp (disch := decide) [decVmad24, req, bit_eq_fld, v3Of, vdOf, vaOf, vbOf, packV3, extractLsb'_append_eq_of_le,
    extractLsb'_append_eq_of_add_le, -Nat.reduceAdd]

theorem decXM_packXM (x : XM) :
    decXM (packXM x) = .ok x := by
  simp (disch := decide) [decXM, packXM, zeros, req, fld_eq, bit_eq_fld, extractLsb'_append_eq_of_le,
    extractLsb'_append_eq_of_add_le, -Nat.reduceAdd]

theorem decLd_pack (z : LdSize) (x : MemArgs) :
    decLd (packV 0x60 x.g x.d.code x.a.code (0#1 ++ b1 x.nov ++ b1 x.uofs ++ z.code ++ 0#2)) (packXM x.xm) = .ok (.ld z x) := by
  cases z <;> simp (disch := decide) [decLd, decXM_packXM, zeros, req, bit_eq_fld, vdOf, vaOf, LdSize.code,
      extractLsb'_append_eq_of_le, extractLsb'_append_eq_of_add_le, -Nat.reduceAdd]

theorem decSt_pack (z : StSize) (x : MemArgs) :
    decSt (packV 0x61 x.g x.d.code x.a.code (0#1 ++ b1 x.nov ++ b1 x.uofs ++ z.code ++ 0#2)) (packXM x.xm) = .ok (.st z x) := by
  cases z <;> simp (disch := decide) [decSt, decXM_packXM, zeros, req, bit_eq_fld, vdOf, vaOf, StSize.code,
      extractLsb'_append_eq_of_le, extractLsb'_append_eq_of_add_le, -Nat.reduceAdd]

theorem decMx_pack (f : MxMemArgs → Instr) (op : BitVec 7) (x : MxMemArgs) :
    decMx (packV op x.g x.d.code x.a.code (0#3 ++ x.fe.fe ++ BitVec.ofNat 2 x.plane.val)) (packXM x.xm) f = .ok (f x) := by
  simp (disch := decide) [decMx, decXM_packXM, zeros, req, mOf, vdOf, vaOf, extractLsb'_append_eq_of_le,
    extractLsb'_append_eq_of_add_le, -Nat.reduceAdd]

theorem decAtom_pack (x : AtomArgs) :
    decAtom (packV 0x62 x.g x.d.code x.a.code (x.b.code ++ 0#2)) (0#1 ++ x.base.code ++ x.space.code ++ x.ord.code ++
    x.scope.code ++
      x.aop.code ++ x.ty.code ++ b1 x.noret ++ b1 x.uofs ++ b1 x.nov ++ x.imm) = .ok (.atom x) := by
  simp (disch := decide) [decAtom, vdOf, vaOf, vbOf, zeros, req, fld_eq, bit_eq_fld, extractLsb'_append_eq_of_le,
    extractLsb'_append_eq_of_add_le, -Nat.reduceAdd]

theorem decFence_pack (o : FOrd) (c : Scope) : decFence (packSI 0x65 0 (0#12 ++ o.code ++ c.code)) = .ok (.fence o c) := by
  cases o <;> cases c <;> rfl

theorem decPrefetch_pack (a b : SOp) (d : Fin 96) (q : Bool) :
    decPrefetch (packS3 0x66 0 a.code b.code 0) (0#1 ++ sdCode d ++ b1 q ++ 0#23) = .ok (.prefetchL2 a b d q) := by
  simp (disch := decide) [decPrefetch, zeros, req, fld_eq, bit_eq_fld, extractLsb'_append_eq_of_le,
    extractLsb'_append_eq_of_add_le, -Nat.reduceAdd]

theorem decTwait_pack (d : Fin 96) (a : SOp) (q : Bool) :
    decTwait (packS3 0x67 (sdCode d) a.code 0 (0#2 ++ b1 q)) = .ok (.twait d a q) := by
  have h : zeros (packS3 0x67 (sdCode d) a.code 0 (0#2 ++ b1 q)) 1 9 = .ok () := by
    simp [zeros, req, packS3, fld, extractLsb'_append_eq_ite, -Nat.reduceAdd]
  rw [decTwait, h]
  simp (disch := decide) [bit_eq_fld, extractLsb'_append_eq_of_add_le, -Nat.reduceAdd]

theorem decCopy_pack (x : CopyArgs) :
    decCopy (packS3 0x69 0 (sdCode x.sa) x.sb.code 0) (0#1 ++ b1 x.rel ++ x.xf.code ++ b1 x.tr ++ b1 x.smx ++ b1 x.dmx ++
      b1 x.sums ++ x.ssp.code ++ x.dsp.code ++ x.redop.code ++ b1 x.tsp ++ 0#15) = .ok (.copy x) := by
  simp (disch := decide) [decCopy, zeros, req, fld_eq, bit_eq_fld, extractLsb'_append_eq_of_le, extractLsb'_append_eq_of_add_le,
    -Nat.reduceAdd]

theorem decColl_pack (f : CollArgs → Instr) (op : BitVec 7) (x : CollArgs) :
    decColl (packS3 op 0 x.sa.code x.sb.code 0) (0#1 ++ BitVec.ofNat 6 x.slot.val ++ x.stok.code ++ b1 x.tsp ++ b1 x.rel ++
    0#16) f = .ok (f x) := by
  simp (disch := decide) [decColl, zeros, req, fld_eq, bit_eq_fld, extractLsb'_append_eq_of_le, extractLsb'_append_eq_of_add_le,
    -Nat.reduceAdd]

theorem decMma_pack (x : MmaArgs) :
    decMma (packS3 0x6C 0 (sdCode x.sa) (sdCode x.sb) (b1 x.sp ++ BitVec.ofNat 2 x.nsel.val)) (0#1 ++ x.fa.code ++ x.fb.code ++
    b1 x.chk ++
      b1 x.chkt ++ b1 x.zc ++ x.toff ++ 0#5) = .ok (.mma x) := by
  simp (disch := decide) [decMma, mOf, zeros, req, fld_eq, bit_eq_fld, extractLsb'_append_eq_of_le,
    extractLsb'_append_eq_of_add_le, -Nat.reduceAdd]

theorem decCompress_pack (a b : Fin 96) (f : NFC) :
    decCompress (packS3 0x6D 0 (sdCode a) (sdCode b) 0) (0#1 ++ f.code ++ 0#25) = .ok (.compress a b f) := by
  simp (disch := decide) [decCompress, zeros, req, fld_eq, extractLsb'_append_eq_of_le, extractLsb'_append_eq_of_add_le,
    -Nat.reduceAdd]

theorem decAccz_pack (t : BitVec 11) (n : Fin 4) :
    decAccz (packS3 0x6E 0 0 0 0) (0#1 ++ t ++ BitVec.ofNat 2 n.val ++ 0#18) = .ok (.accz t n) := by
  simp (disch := decide) [decAccz, packS3, zeros, req, fld_eq, extractLsb'_append_eq_of_le, extractLsb'_append_eq_of_add_le,
    -Nat.reduceAdd]

theorem decAttn_pack (x : AttnArgs) :
    decAttn (packS3 0x70 0 (sdCode x.sa) 0 0) (0#1 ++ x.fqk.code ++ x.fv.code ++ BitVec.ofNat 2 x.dsel.val ++ b1 x.ksrc ++
    b1 x.causal ++
      b1 x.init ++ b1 x.fin ++ 0#13) = .ok (.attn x) := by
  have h : zeros (packS3 0x70 0 (sdCode x.sa) 0 0) 0 10 = .ok () := by
    simp [zeros, req, packS3, fld, extractLsb'_append_eq_ite, -Nat.reduceAdd]
  rw [decAttn, h]
  simp (disch := decide) [zeros, req, fld_eq, bit_eq_fld, extractLsb'_append_eq_of_le, extractLsb'_append_eq_of_add_le,
    -Nat.reduceAdd]

theorem decKvwalk_pack (x : KvWalkArgs) :
    decKvwalk (packS3 0x71 0 x.sa.code x.sb.code 0) (0#1 ++ sdCode x.sdst ++ b1 x.dsp ++ x.cntm1 ++ b1 x.unc ++ x.stok.code ++
      b1 x.tsp ++ 0#2) = .ok (.kvwalk x) := by
  simp (disch := decide) [decKvwalk, zeros, req, fld_eq, bit_eq_fld, extractLsb'_append_eq_of_le,
    extractLsb'_append_eq_of_add_le, -Nat.reduceAdd]

theorem decKvappend_pack (x : KvAppendArgs) :
    decKvappend (packS3 0x72 x.sd.code x.sa.code x.sb.code 0) (0#1 ++ sdCode x.ssrc ++ x.ntm1 ++ b1 x.ssp ++ x.stok.code ++
      b1 x.tsp ++ 0#8) = .ok (.kvappend x) := by
  simp (disch := decide) [decKvappend, zeros, req, fld_eq, bit_eq_fld, extractLsb'_append_eq_of_le,
    extractLsb'_append_eq_of_add_le, -Nat.reduceAdd]

theorem decKvcommit_pack (x : KvCommitArgs) :
    decKvcommit (packS3 0x73 0 x.sa.code x.sb.code x.scope.code) (0#1 ++ x.stok.code ++ b1 x.tsp ++
    0#23) = .ok (.kvcommit x) := by
  simp (disch := decide) [decKvcommit, zeros, req, fld_eq, bit_eq_fld, extractLsb'_append_eq_of_le,
    extractLsb'_append_eq_of_add_le, -Nat.reduceAdd]

theorem decGeo_pack (f : GeoArgs → Instr) (op : BitVec 7) (x : GeoArgs) :
    decGeo (packV op x.g x.d.code x.a.code (x.b.code ++ 0#1 ++ b1 x.f32))
      (0#1 ++ b1 x.x ++ b1 x.sos ++ b1 x.trapnf ++ f8 x.pd ++ 0#25) f = .ok (f x) := by
  simp (disch := decide) [decGeo, vdOf, vaOf, vbOf, zeros, req, fld_eq, bit_eq_fld, extractLsb'_append_eq_of_le,
    extractLsb'_append_eq_of_add_le, -Nat.reduceAdd]

theorem decLaunch_pack (a b : SOp) (f : BitVec 5) (c : BitVec 6) :
    decLaunch (packS3 0x79 0 a.code b.code 0) (0#1 ++ f ++ c ++ 0#20) = .ok (.launch a b f c) := by
  simp (disch := decide) [decLaunch, zeros, req, fld_eq, extractLsb'_append_eq_of_le, extractLsb'_append_eq_of_add_le,
    -Nat.reduceAdd]

theorem decWaitsem_pack (c : SemCmp) (a b : SOp) :
    decWaitsem (packS3 0x7A 0 a.code b.code 0) (0#1 ++ c.code ++ 0#29) = .ok (.waitsem c a b) := by
  cases c <;> simp (disch := decide) [decWaitsem, SemCmp.code, zeros, req, fld_eq, -Nat.reduceAdd]

theorem decEvent_pack (q : Bool) (a b : SOp) :
    decEvent (packS3 0x7C 0 a.code b.code (0#2 ++ b1 q)) = .ok (.event q a b) := by
  simp (disch := decide) [decEvent, zeros, req, bit_eq_fld, extractLsb'_append_eq_of_le, extractLsb'_append_eq_of_add_le,
    -Nat.reduceAdd]

theorem decFeatq_pack (d : Fin 96) (f : FeatWord) :
    decFeatq (packSI 0x7E (sdCode d) f.code) = .ok (.featq d f) := by
  cases f <;> simp (disch := decide) [decFeatq, imm17Of, FeatWord.code, -Nat.reduceAdd]

theorem decTlbinv_page (a b : SOp) :
    decTlbinv (packS3 0x7F 0 a.code b.code 0) = .ok (.tlbinvPage a b) := by
  simp (disch := decide) [decTlbinv, zeros, req, -Nat.reduceAdd]

/-! ### The round trip -/

/-- R257 with the formats of chapter 09: the opcode of each word's first word leads to the decoder of its format, which reads the
words back. -/
theorem decodeBody_encode (i : Instr) (h : i.isWord = true) : decodeBody (encodePair i).1 (encodePair i).2 = .ok i := by
  cases i with
  | nop | bar | convene | disband | rte | ifence | tlbinvCtx | tlbinvAll => rfl
  | bra g off => rw [decodeBody, show opOf _ = 0x01 from opOf_packBR ..]; exact decBr_pack ..
  | call g off => rw [decodeBody, show opOf _ = 0x02 from opOf_packBR ..]; exact decBr_pack ..
  | ret g a => rw [decodeBody, show opOf _ = 0x03 from opOf_packV ..]; exact decJump_pack ..
  | brx g a => rw [decodeBody, show opOf _ = 0x04 from opOf_packV ..]; exact decJump_pack ..
  | split k => rw [decodeBody, show opOf _ = 0x05 from opOf_packSI ..]; exact decMask_pack ..
  | join k => rw [decodeBody, show opOf _ = 0x06 from opOf_packSI ..]; exact decMask_pack ..
  | waitk k => rw [decodeBody, show opOf _ = 0x07 from opOf_packSI ..]; exact decMask_pack ..
  | reform g a n => rw [decodeBody, show opOf _ = 0x08 from opOf_packV ..]; exact decReform_pack g a n
  | loop l =>
    cases l with
    | l0 c e => rw [decodeBody, show opOf _ = 0x09 from opOf_packS3 ..]; exact decLoop_l0 c e
    | l1 c e => rw [decodeBody, show opOf _ = 0x09 from opOf_packS3 ..]; exact decLoop_l1 c e
    | both c e d f => rw [decodeBody, show opOf _ = 0x09 from opOf_packS3 ..]; exact decLoop_both c d e f
  | exit g => rw [decodeBody, show opOf _ = 0x0D from opOf_packV ..]; exact decExit_pack g
  | pand x => rw [decodeBody, show opOf _ = 0x0E from opOf_packV ..]; exact dec0E_packP x _
  | por x => rw [decodeBody, show opOf _ = 0x0E from opOf_packV ..]; exact dec0E_packP x _
  | pxor x => rw [decodeBody, show opOf _ = 0x0E from opOf_packV ..]; exact dec0E_packP x _
  | pandn x => rw [decodeBody, show opOf _ = 0x0E from opOf_packV ..]; exact dec0E_packP x _
  | trap n => rw [decodeBody, show opOf _ = 0x0F from opOf_packSI ..]; exact decTrap_pack n
  | sadd x | ssub x | sand x | sor x | sxor x | sshl x | sshr x | ssra x =>
    rw [decodeBody, show opOf _ = 0x10 from opOf_packS3 ..]
    show dec10 (encS _ _ x) = _
    rw [dec10, fld_encS_m]
    exact decS3_encS ..
  | smul x | smulh x | smulhn x | smin x | sminn x | smax x | smaxn x =>
    rw [decodeBody, show opOf _ = 0x11 from opOf_packS3 ..]
    show dec11 (encS _ _ x) = _
    rw [dec11, fld_encS_m]
    exact decS3_encS ..
  | scmp c x =>
    rw [decodeBody, show opOf _ = 0x12 from opOf_packS3 ..]
    show dec12 (encS _ _ x) = _
    rw [dec12, fld_encS_m]
    cases c <;> exact decS3_encS ..
  | sdiv x | sdivn x | srem x | sremn x =>
    rw [decodeBody, show opOf _ = 0x13 from opOf_packS3 ..]
    show dec13 (encS _ _ x) = _
    rw [dec13, fld_encS_m]
    exact decS3_encS ..
  | sclz d a => rw [decodeBody, show opOf _ = 0x14 from opOf_packS3 ..]; exact dec14_pack _ d a
  | spopc d a => rw [decodeBody, show opOf _ = 0x14 from opOf_packS3 ..]; exact dec14_pack _ d a
  | sbrev d a => rw [decodeBody, show opOf _ = 0x14 from opOf_packS3 ..]; exact dec14_pack _ d a
  | saddi d v => rw [decodeBody, show opOf _ = 0x15 from opOf_packSI ..]; exact decSdImm_pack ..
  | smovi d v => rw [decodeBody, show opOf _ = 0x16 from opOf_packSI ..]; exact decSdImm_pack ..
  | sshin d v => rw [decodeBody, show opOf _ = 0x17 from opOf_packSI ..]; exact decSdImm_pack ..
  | vadd t x => rw [decodeBody, show opOf _ = 0x20 from opOf_packV ..]; exact decV3I_pack ..
  | vsub t x => rw [decodeBody, show opOf _ = 0x21 from opOf_packV ..]; exact decV3I_pack ..
  | vmul t x => rw [decodeBody, show opOf _ = 0x22 from opOf_packV ..]; exact decV3I_pack ..
  | vmulh t x => rw [decodeBody, show opOf _ = 0x23 from opOf_packV ..]; exact decV3I_pack ..
  | vaddsat t x => rw [decodeBody, show opOf _ = 0x24 from opOf_packV ..]; exact decV3I_pack ..
  | vsubsat t x => rw [decodeBody, show opOf _ = 0x25 from opOf_packV ..]; exact decV3I_pack ..
  | vmin t x => rw [decodeBody, show opOf _ = 0x26 from opOf_packV ..]; exact decV3I_pack ..
  | vmax t x => rw [decodeBody, show opOf _ = 0x27 from opOf_packV ..]; exact decV3I_pack ..
  | vand t x => rw [decodeBody, show opOf _ = 0x28 from opOf_packV ..]; exact decV3B_pack ..
  | vor t x => rw [decodeBody, show opOf _ = 0x29 from opOf_packV ..]; exact decV3B_pack ..
  | vxor t x => rw [decodeBody, show opOf _ = 0x2A from opOf_packV ..]; exact decV3B_pack ..
  | vshl t x => rw [decodeBody, show opOf _ = 0x2B from opOf_packV ..]; exact decV3I_pack ..
  | vshr t x => rw [decodeBody, show opOf _ = 0x2C from opOf_packV ..]; exact decV3I_pack ..
  | vcmp t c x => rw [decodeBody, show opOf _ = 0x2D from opOf_packV ..]; exact decVcmp_pack t c x
  | vmov t x => rw [decodeBody, show opOf _ = 0x2E from opOf_packV ..]; exact decVmov_pack t x
  | vclz x => rw [decodeBody, show opOf _ = 0x2F from opOf_packV ..]; exact dec2F_pack x 0
  | vpopc x => rw [decodeBody, show opOf _ = 0x2F from opOf_packV ..]; exact dec2F_pack x 1
  | vbrev x => rw [decodeBody, show opOf _ = 0x2F from opOf_packV ..]; exact dec2F_pack x 2
  | vaddi x n =>
    rw [decodeBody, show opOf _ = 0x30 from opOf_packV ..]
    exact congrArg Except.ok (congrArg₂ Instr.vaddi (v2Of_packV2 ..) (fld_packV2_lo ..))
  | vshli x n => rw [decodeBody, show opOf _ = 0x31 from opOf_packV ..]; exact decShi_pack ..
  | vshri x n => rw [decodeBody, show opOf _ = 0x32 from opOf_packV ..]; exact decShi_pack ..
  | vsrai x n => rw [decodeBody, show opOf _ = 0x33 from opOf_packV ..]; exact decShi_pack ..
  | vmovi g d n => rw [decodeBody, show opOf _ = 0x34 from opOf_packV ..]; exact decVmovi_pack g d n
  | vbcast t g d o => rw [decodeBody, show opOf _ = 0x35 from opOf_packV ..]; exact decVbcast_pack t g d o
  | vreadl g d a l => rw [decodeBody, show opOf _ = 0x36 from opOf_packV ..]; exact decVreadl_pack g d a l
  | vfadd t x => rw [decodeBody, show opOf _ = 0x38 from opOf_packV ..]; exact decV3F_pack ..
  | vfsub t x => rw [decodeBody, show opOf _ = 0x39 from opOf_packV ..]; exact decV3F_pack ..
  | vfmul t x => rw [decodeBody, show opOf _ = 0x3A from opOf_packV ..]; exact decV3F_pack ..
  | vfma t x => rw [decodeBody, show opOf _ = 0x3B from opOf_packV ..]; exact decV3F_pack ..
  | vfmin t x => rw [decodeBody, show opOf _ = 0x3C from opOf_packV ..]; exact decV3F_pack ..
  | vfmax t x => rw [decodeBody, show opOf _ = 0x3D from opOf_packV ..]; exact decV3F_pack ..
  | vfcmp t c x => rw [decodeBody, show opOf _ = 0x3E from opOf_packV ..]; exact decVfcmp_pack t c x
  | vfdiv t x => rw [decodeBody, show opOf _ = 0x3F from opOf_packV ..]; exact decV3F_pack ..
  | vfsqrt t x => rw [decodeBody, show opOf _ = 0x40 from opOf_packV ..]; exact decVfsqrt_pack t x
  | vfopx op t rm o x => rw [decodeBody, show opOf _ = 0x41 from opOf_packV ..]; exact decVfopx_pack op t rm o x
  | vcvt k p rm o x =>
    have hk := decVcvt_pack k p rm o x
    cases k with
    | ff d s => rw [decodeBody, show opOf _ = 0x42 from opOf_packV ..]; exact hk
    | fi d s => rw [decodeBody, show opOf _ = 0x42 from opOf_packV ..]; exact hk
    | intf d s => rw [decodeBody, show opOf _ = 0x42 from opOf_packV ..]; exact hk
  | mxmax x => rw [decodeBody, show opOf _ = 0x43 from opOf_packV ..]; exact decMxmax_pack x
  | mxscale f p x => rw [decodeBody, show opOf _ = 0x44 from opOf_packV ..]; exact decMxscale_pack f p x
  | mxq f p rm o x => rw [decodeBody, show opOf _ = 0x45 from opOf_packV ..]; exact decMxq_pack f p rm o x
  | mxdq f p x => rw [decodeBody, show opOf _ = 0x46 from opOf_packV ..]; exact decMxdq_pack f p x
  | vshfl m x => rw [decodeBody, show opOf _ = 0x47 from opOf_packV ..]; exact decVshfl_pack m x
  | vred o t q x => rw [decodeBody, show opOf _ = 0x48 from opOf_packV ..]; exact decVred_pack o t q x
  | vscan o t q e x => rw [decodeBody, show opOf _ = 0x49 from opOf_packV ..]; exact decVscan_pack o t q e x
  | vballot g d p => rw [decodeBody, show opOf _ = 0x4A from opOf_packV ..]; exact decVballot_pack g d p
  | vmerge t dh o x => rw [decodeBody, show opOf _ = 0x4B from opOf_packV ..]; exact decVmerge_pack t dh o x
  | vid l g d => rw [decodeBody, show opOf _ = 0x4C from opOf_packV ..]; exact decVid_pack l g d
  | xset j m n z a b => rw [decodeBody, show opOf _ = 0x50 from opOf_packS3 ..]; exact decXset_pack j m n z a b
  | xldv g j a => rw [decodeBody, show opOf _ = 0x51 from opOf_packV ..]; exact decXldv_pack g j a
  | xgetv g d j q => rw [decodeBody, show opOf _ = 0x52 from opOf_packV ..]; exact decXgetv_pack g d j q
  | rgrow t => rw [decodeBody, show opOf _ = 0x53 from opOf_packSI ..]; exact decWindow_pack ..
  | rshrink t => rw [decodeBody, show opOf _ = 0x54 from opOf_packSI ..]; exact decWindow_pack ..
  | vclmul q x => rw [decodeBody, show opOf _ = 0x58 from opOf_packV ..]; exact decVclmul_pack q x
  | vmad24 q x => rw [decodeBody, show opOf _ = 0x59 from opOf_packV ..]; exact decVmad24_pack q x
  | ld z x => rw [decodeBody, show opOf _ = 0x60 from opOf_packV ..]; exact decLd_pack z x
  | st z x => rw [decodeBody, show opOf _ = 0x61 from opOf_packV ..]; exact decSt_pack z x
  | atom x => rw [decodeBody, show opOf _ = 0x62 from opOf_packV ..]; exact decAtom_pack x
  | ldmx x => rw [decodeBody, show opOf _ = 0x63 from opOf_packV ..]; exact decMx_pack ..
  | stmx x => rw [decodeBody, show opOf _ = 0x64 from opOf_packV ..]; exact decMx_pack ..
  | fence o a => rw [decodeBody, show opOf _ = 0x65 from opOf_packSI ..]; exact decFence_pack o a
  | prefetchL2 a b d q => rw [decodeBody, show opOf _ = 0x66 from opOf_packS3 ..]; exact decPrefetch_pack a b d q
  | twait d a q => rw [decodeBody, show opOf _ = 0x67 from opOf_packS3 ..]; exact decTwait_pack d a q
  | copy x => rw [decodeBody, show opOf _ = 0x69 from opOf_packS3 ..]; exact decCopy_pack x
  | collLoad x => rw [decodeBody, show opOf _ = 0x6A from opOf_packS3 ..]; exact decColl_pack ..
  | collRun x => rw [decodeBody, show opOf _ = 0x6B from opOf_packS3 ..]; exact decColl_pack ..
  | mma x => rw [decodeBody, show opOf _ = 0x6C from opOf_packS3 ..]; exact decMma_pack x
  | compress a b f => rw [decodeBody, show opOf _ = 0x6D from opOf_packS3 ..]; exact decCompress_pack a b f
  | accz t n => rw [decodeBody, show opOf _ = 0x6E from opOf_packS3 ..]; exact decAccz_pack t n
  | accmvOut a t n f => rw [decodeBody, show opOf _ = 0x6F from opOf_packS3 ..]; exact decAccmv_pack 0 a t n f
  | accmvIn a t n f => rw [decodeBody, show opOf _ = 0x6F from opOf_packS3 ..]; exact decAccmv_pack 1 a t n f
  | attn x => rw [decodeBody, show opOf _ = 0x70 from opOf_packS3 ..]; exact decAttn_pack x
  | kvwalk x => rw [decodeBody, show opOf _ = 0x71 from opOf_packS3 ..]; exact decKvwalk_pack x
  | kvappend x => rw [decodeBody, show opOf _ = 0x72 from opOf_packS3 ..]; exact decKvappend_pack x
  | kvcommit x => rw [decodeBody, show opOf _ = 0x73 from opOf_packS3 ..]; exact decKvcommit_pack x
  | geoOrient2 x => rw [decodeBody, show opOf _ = 0x74 from opOf_packV ..]; exact decGeo_pack ..
  | geoOrient3 x => rw [decodeBody, show opOf _ = 0x75 from opOf_packV ..]; exact decGeo_pack ..
  | geoIncirc x => rw [decodeBody, show opOf _ = 0x76 from opOf_packV ..]; exact decGeo_pack ..
  | geoInsphr x => rw [decodeBody, show opOf _ = 0x77 from opOf_packV ..]; exact decGeo_pack ..
  | geoSegx x => rw [decodeBody, show opOf _ = 0x78 from opOf_packV ..]; exact decGeo_pack ..
  | launch a b f n => rw [decodeBody, show opOf _ = 0x79 from opOf_packS3 ..]; exact decLaunch_pack a b f n
  | waitsem c a b => rw [decodeBody, show opOf _ = 0x7A from opOf_packS3 ..]; exact decWaitsem_pack c a b
  | signalsemSet a b => rw [decodeBody, show opOf _ = 0x7B from opOf_packS3 ..]; exact decSignalsem_pack 0 a b
  | signalsemAdd a b => rw [decodeBody, show opOf _ = 0x7B from opOf_packS3 ..]; exact decSignalsem_pack 1 a b
  | event q a b => rw [decodeBody, show opOf _ = 0x7C from opOf_packS3 ..]; exact decEvent_pack q a b
  | csrr d n => rw [decodeBody, show opOf _ = 0x7D from opOf_packSI ..]; exact decCsr_read d n
  | csrw o n => rw [decodeBody, show opOf _ = 0x7D from opOf_packSI ..]; exact decCsr_write o n
  | featq d f => rw [decodeBody, show opOf _ = 0x7E from opOf_packSI ..]; exact decFeatq_pack d f
  | tlbinvPage a b => rw [decodeBody, show opOf _ = 0x7F from opOf_packS3 ..]; exact decTlbinv_page a b
  | _ => cases h

/-- Settles O38: the opcode map reads each encoding back, and the whole word's checks are those of a well-formed instruction. -/
theorem decodeEncode : Obligations.DecodeEncode := by
  unfold Obligations.DecodeEncode
  intro i hw hwf
  rw [decodeWords, decodeBody_encode i hw]
  exact if_pos hwf

end Sys2Proof
end

section
/-! The tier 1 statements: words of the spec's examples, the state after reset, and that no step stops. -/

namespace Sys2Proof.Machine

/-! ### No instruction and no step stops -/

theorem runWordWith_next (i : Instr) (pre align : Issue → State → Option (Cause × Info)) (body : Issue → State →
    Act) (s : State) :
    ∃ t, runWordWith i pre align body s = .next t := by
  unfold runWordWith
  split <;> exact ⟨_, rfl⟩

/-- Every word runs through the one shared issue, and every event answers a state. -/
theorem exec_next (i : Instr) (s : State) : ∃ t, exec i s = .next t := by
  cases h : i.isWord with
  | true => cases i <;> cases h <;> exact runWordWith_next ..
  | false =>
    have hgeo : ∀ c o l, ∃ t, execGeoExactLane c o l s = .next t := fun c o l => by
      unfold execGeoExactLane
      split
      · exact ⟨_, rfl⟩
      · split
        · exact ⟨_, rfl⟩
        · dsimp only
          split
          · exact ⟨_, rfl⟩
          · exact ⟨_, rfl⟩
    have hend : ∀ o, ∃ t, execGeoComplete o s = .next t := fun o => by
      unfold execGeoComplete
      split
      · exact ⟨_, rfl⟩
      · split <;> exact ⟨_, rfl⟩
    cases i <;> cases h
    case geoExactLane.refl c o l => exact hgeo c o l
    case geoComplete.refl o => exact hend o
    case gridRetire.refl | launchDescriptorRead.refl | launchAccept.refl | ldComplete.refl | storePerformed.refl | atomComplete.refl | l1Fill.refl | ualRequestTimeout.refl | copyComplete.refl | prefetchComplete.refl | matrixOpComplete.refl | attnComplete.refl | kvWordComplete.refl | kvcommitWrite.refl | kvLockRetry.refl =>
      dsimp only [exec, execGridRetire, execLaunchDescriptorRead, execLaunchAccept, execLdComplete, execStorePerformed,
      execAtomComplete, execL1Fill, execUalRequestTimeout, execCopyComplete, execPrefetchComplete, execMatrixOpComplete,
      execAttnComplete, execKvWordComplete, execKvcommitWrite, execKvLockRetry]
      split <;> exact ⟨_, rfl⟩
    all_goals exact ⟨_, rfl⟩

theorem stepEvent_next (s : State) : ∃ t, stepEvent s = .next t := by
  unfold stepEvent
  split
  · exact exec_next _ _
  · exact ⟨_, rfl⟩

theorem stepWord_next (l : List (Nat × Nat)) (s : State) : ∃ t, stepWord l s = .next t := by
  induction l generalizing s with
  | nil => exact stepEvent_next s
  | cons x r ih =>
    unfold stepWord
    split
    · exact ih _
    · exact ⟨_, rfl⟩
    · next i t _ =>
      split
      · exact ih _
      · obtain ⟨u, hu⟩ := exec_next i t
        simp only [hu]
        split
        · exact ih _
        · exact ⟨_, rfl⟩

theorem step_next (s : State) : ∃ t, step s = .next t := by
  unfold step
  dsimp only
  split
  · exact stepWord_next _ _
  · split
    · exact exec_next _ _
    · split
      · exact stepEvent_next _
      · exact stepWord_next _ _

/-- Settles O40: words and events all answer states, and so does each way a step goes. -/
theorem neverStops : Obligations.NeverStops := ⟨exec_next, step_next⟩

/-! ### Words of the spec's examples -/

/-- A word whose opcode the map leaves unassigned has no arm in `decodeBody`. -/
theorem decodeWords_unassigned {a b : W32} (h : decodeBody a b = .error (.opcode (opOf a))) (i : Instr) :
    decodeWords a b ≠ .ok i := by
  rw [decodeWords, h]
  exact nofun

/-- The last arm of the map. -/
theorem decodeBody_unassigned (a b : W32)
    (h : opOf a ∈ [0x19, 0x1A, 0x1B, 0x1C, 0x1D, 0x1E, 0x1F, 0x37, 0x4D, 0x4E, 0x4F, 0x55, 0x56, 0x57, 0x5A, 0x5B, 0x5C, 0x5D, 0x5E, 0x5F]) :
    decodeBody a b = .error (.opcode (opOf a)) := by
  rw [decodeBody]
  generalize opOf a = op at h
  simp only [List.mem_cons, List.not_mem_nil, or_false] at h
  rcases h with h | h | h | h | h | h | h | h | h | h | h | h | h | h | h | h | h | h | h | h <;> (subst h; rfl)

/-- Settles O37: the examples by evaluation, the unassigned opcodes by the map's last arm. -/
theorem decodeWords_examples : Obligations.DecodeWords := by
  unfold Obligations.DecodeWords
  exact ⟨by decide, fun a b h i => decodeWords_unassigned (decodeBody_unassigned a b h) i⟩

/-! ### The state after reset -/

/-- Settles O42. -/
theorem resetMemWf : Obligations.ResetMemWf := memWf_reset

end Sys2Proof.Machine
end

section
/-! What an access to memory may change: memory itself, the workgroups' stores, the caches and recorders of the cores, the
registers and rings of the clusters, what is sent out and the count of open values. -/

namespace Sys2Proof.Machine

/-- A state without all that an access to memory may change. -/
def State.bare (s : State) : State := { s with mem := {}, wgs := [], cores := [], clusters := [], outbox := [], fresh := 0 }

theorem State.cur_of_bare {s t : State} (h : t.bare = s.bare) : t.cur = s.cur := by
  have := congrArg State.cur h
  exact this
theorem State.warps_of_bare {s t : State} (h : t.bare = s.bare) : t.warps = s.warps := by
  have := congrArg State.warps h
  exact this
theorem State.ctls_of_bare {s t : State} (h : t.bare = s.bare) : t.ctls = s.ctls := by
  have := congrArg State.ctls h
  exact this
theorem State.agenda_of_bare {s t : State} (h : t.bare = s.bare) : t.agenda = s.agenda := by
  have := congrArg State.agenda h
  exact this

variable (s : State)

theorem State.bare_foldl {α : Type} {f : State → α → State} (hf : ∀ s a, (f s a).bare = s.bare) (l : List α) (s : State) :
    (l.foldl f s).bare = s.bare := by
  induction l generalizing s with
  | nil => rfl
  | cons a l ih => rw [List.foldl_cons, ih, hf]

/-! ### Direct changes -/

@[simp] theorem State.bare_modCore (k : Nat) (f : Core → Core) : (s.modCore k f).bare = s.bare := rfl
@[simp] theorem State.bare_setCore (k : Nat) (c : Core) : (s.setCore k c).bare = s.bare := rfl
@[simp] theorem State.bare_modCluster (k : Nat) (f : Cluster → Cluster) : (s.modCluster k f).bare = s.bare := rfl
@[simp] theorem State.bare_setCluster (k : Nat) (c : Cluster) : (s.setCluster k c).bare = s.bare := rfl
@[simp] theorem State.bare_setWg (w : Wg) : (s.setWg w).bare = s.bare := rfl
@[simp] theorem State.bare_emit (o : Out) : (s.emit o).bare = s.bare := rfl
@[simp] theorem State.bare_setFrame (n : Nat) (f : Frame) : (s.setFrame n f).bare = s.bare := rfl
@[simp] theorem State.bare_rawWrite (pa : Nat) (bs : List Byte) : (s.rawWrite pa bs).bare = s.bare := rfl
@[simp] theorem State.bare_l2Write (pa : Nat) (bs : List Byte) : (s.l2Write pa bs).bare = s.bare := rfl
@[simp] theorem State.bare_poisonSector (k : Nat) : (s.poisonSector k).bare = s.bare := rfl
@[simp] theorem State.bare_sideMark (line : Nat) (bad : Bool) : (s.sideMark line bad).bare = s.bare := rfl
@[simp] theorem State.bare_correct (c : Nat) : (s.correct c).bare = s.bare := rfl
@[simp] theorem State.bare_pick (n : Nat) : (s.pick n).2.bare = s.bare := rfl
@[simp] theorem State.bare_freeWord : s.freeWord.2.bare = s.bare := rfl

theorem State.bare_memChange (m : Mem) : ({ s with mem := m } : State).bare = s.bare := rfl

@[simp] theorem State.bare_modWg (g : Nat) (f : Wg → Wg) : (s.modWg g f).bare = s.bare := by
  unfold State.modWg
  split <;> rfl

/-! ### Lines of the L2, records and errors -/

@[simp] theorem State.bare_record (core code warp : Nat) (data : W64) : (s.record core code warp data).bare = s.bare := by
  unfold State.record
  split <;> rfl

@[simp] theorem State.bare_releaseGen (q : BdReq) : (s.releaseGen q).bare = s.bare := by
  unfold State.releaseGen
  dsimp only
  split <;> rfl

@[simp] theorem State.bare_codeLine (line : Nat) : (s.codeLine line).bare = s.bare := by
  unfold State.codeLine
  dsimp only
  split <;> rfl

@[simp] theorem State.bare_dropLine (line : Nat) : (s.dropLine line).bare = s.bare := by simp [State.dropLine]

@[simp] theorem State.bare_l2Room (line : Nat) (keep : List Nat) : (s.l2Room line keep).bare = s.bare := by
  unfold State.l2Room
  dsimp only
  split
  · rfl
  · split
    · rfl
    · simp

@[simp] theorem State.bare_takeSector (sec : Nat) (keep : List Nat) : (s.takeSector sec keep).bare = s.bare := by
  unfold State.takeSector
  dsimp only
  rw [State.bare_memChange, State.bare_l2Room]

@[simp] theorem State.bare_postErr (c kind sub : Nat) (addr : W64) (r : Requester) (info : Nat) (keep : List Nat) :
    (s.postErr c kind sub addr r info keep).bare = s.bare := by
  unfold State.postErr
  dsimp only
  split
  · rfl
  · split
    · split <;> simp
    · simp

@[simp] theorem State.bare_physMark (secs : List Nat) : (s.physMark secs).bare = s.bare :=
  State.bare_foldl (f := fun t k => t.poisonSector k) (fun _ _ => rfl) _ _

@[simp] theorem State.bare_locMark (l : Loc) (n : Nat) : (s.locMark l n).bare = s.bare := by
  unfold State.locMark
  split
  · rfl
  · split
    · split <;> simp
    · simp
    · simp

end Sys2Proof.Machine
end

section
/-! The tier 1 statements on the state after reset and on what a step runs. -/

namespace Sys2Proof.Machine

/-! ### Registers after reset -/

theorem moduleRead_reset : ∀ k < 256, ∀ v, State.reset.moduleRead (8 * k) = some v →
    v = if k = 16 then 2800 else if k = 17 then 3000 * 2 ^ 32 else 0 := by
  have h : ∀ k < 256, (State.reset.moduleRead (8 * k)).all (fun v => v == if k = 16 then 2800 else if k = 17 then 3000 * 2 ^ 32 else 0) = true := by
    decide +kernel
  intro k hk v hv
  have := h k hk
  rw [hv] at this
  simpa using this

theorem streamReg_reset (j o : Nat) (v : W64) (h : State.reset.streamReg j o = some v) : v = 0 := by
  have hx : State.reset.stream j = {} := rfl
  simp only [State.streamReg, hx] at h
  split at h <;> simpa using h.symm

theorem clusterReg_reset (c num : Nat) (v : W64) (h : State.reset.clusterReg c num = some v) : v = 0 := by
  unfold State.clusterReg at h
  dsimp only at h
  split at h
  · exact streamReg_reset _ _ _ h
  · repeat' (split at h)
    all_goals cases h <;> rfl

/-- Settles O43: each register by its definition over the reset state. -/
theorem resetValues : Obligations.ResetValues := by
  unfold Obligations.ResetValues
  refine ⟨fun off h1 h2 v hv => ?_, fun c num _ v hv => clusterReg_reset c num v hv, fun _ => rfl, fun _ => rfl, fun _ => ⟨rfl, rfl⟩,
    rfl, rfl, rfl, rfl, rfl, rfl, fun _ => rfl, rfl⟩
  obtain ⟨k, rfl⟩ : ∃ k, off = 8 * k := ⟨off / 8, by omega⟩
  have hp : mmioPart (8 * k) = .module (8 * k) := if_pos h1
  simp only [State.regRead, hp, Option.map_eq_some_iff] at hv
  obtain ⟨n, hn, rfl⟩ := hv
  rw [moduleRead_reset k (by omega) n hn]
  split_ifs <;> first | rfl | omega

/-! ### What a step runs -/

@[simp] theorem State.cur_memUpset (s : State) (kind pa : Nat) (secs : List Nat) (side : Bool) (u : Upset) :
    (s.memUpset kind pa secs side u).bare = s.bare := by
  unfold State.memUpset State.eccError
  split
  · rfl
  · dsimp only
    split <;> split <;> simp

theorem State.cur_coreStoreUpset (s : State) (core : Nat) (addr : W64) (mark : State → State) (u : Upset) (h : (mark s).cur = s.cur) :
    (s.coreStoreUpset core addr mark u).cur = s.cur := by
  unfold State.coreStoreUpset
  split
  · rfl
  · rw [State.cur_of_bare (State.bare_postErr ..), h]

theorem State.bare_regAddr (s : State) (core : Nat) (b : Block) (j lane : Nat) : (s.regAddr core b j lane).2.bare = s.bare := by
  unfold State.regAddr
  split <;> rfl

/-- An upset reaches no word at issue. -/
theorem State.cur_detectAt (s : State) (u : Upset) : (s.detectAt u).cur = s.cur := by
  unfold State.detectAt
  split
  case h_1 => split <;> rfl
  case h_2 | h_3 | h_4 | h_5 => split <;> first | rfl | exact State.cur_of_bare (State.cur_memUpset ..)
  case h_6 =>
    split
    · rfl
    · split <;> rfl
  case h_7 =>
    split
    · rfl
    · split
      · rfl
      · dsimp only
        rw [State.cur_coreStoreUpset _ _ _ _ _ rfl, State.cur_of_bare (State.bare_regAddr ..)]
  case h_8 =>
    split
    · rfl
    · split
      · exact State.cur_coreStoreUpset _ _ _ _ _ (State.cur_of_bare (State.bare_locMark ..))
      · rfl
  case h_9 =>
    split
    · rfl
    · exact State.cur_coreStoreUpset _ _ _ _ _ (State.cur_of_bare (State.bare_locMark ..))

theorem State.cur_foldl {α : Type} {f : State → α → State} (hf : ∀ s a, (f s a).cur = s.cur) (l : List α) (s : State) :
    (l.foldl f s).cur = s.cur := by
  induction l generalizing s with
  | nil => rfl
  | cons a l ih => rw [List.foldl_cons, ih, hf]

theorem State.cur_tick (s : State) : s.tick.cur = s.cur := State.cur_foldl State.cur_detectAt _ _

/-- A turn to try paths is `stepWord` over them. -/
theorem step_word {s : State} (h : s.cur = none) (ha : s.agenda = []) (he : s.eventFirst = false) :
    step s = stepWord s.tick.tries s.tick := by
  simp [step, h, ha, he]

theorem step_open {s : State} {c : Cur} (h : s.cur = some c) : step s = stepWord [(c.who, c.lane)] s.tick := by
  have : s.tick.tries = [(c.who, c.lane)] := by rw [State.tries, State.cur_tick, h]
  simp [step, h, this]

/-- What becomes of a word that ran as the turn's: a blocked one leaves its turn to the paths after it. -/
def wordTurn (rest : List (Nat × Nat)) (who : Nat) (t : State) (o : Host.Outcome State Fault Refusal) : Host.Outcome State Fault Refusal :=
  match o with
  | .next u => if u.blocked then stepWord rest (t.unblock who u) else .next u.useTurn
  | o => o

theorem execWaits_none_iff (i : Instr) (s : State) : execWaits i s = none ↔ ¬∃ u, exec i s = .next u ∧ u.blocked = true := by
  obtain ⟨t, ht⟩ := exec_next i s
  simp only [execWaits, ht, Host.Outcome.next.injEq]
  cases hb : t.blocked <;> simp [hb]

theorem execWaits_some_iff (i : Instr) (s u : State) : execWaits i s = some u ↔ exec i s = .next u ∧ u.blocked = true := by
  obtain ⟨t, ht⟩ := exec_next i s
  simp only [execWaits, ht, Host.Outcome.next.injEq]
  cases hb : t.blocked <;> simp
  · rintro rfl; exact hb
  · rintro rfl; exact hb

/-- The word that the attempt runs, where no later member of its group must wait. -/
theorem stepWord_run {t u : State} {who lane : Nat} {rest : List (Nat × Nat)} {i : Instr} (h : t.attempt who lane = .run i u)
    (hw : (t.laterMembers u who lane).findSome? (fun x => execWaits x.1 x.2) = none) :
    stepWord ((who, lane) :: rest) t = wordTurn rest who t (exec i u) := by
  obtain ⟨v, hv⟩ := exec_next i u
  simp only [stepWord, h, hw, hv, wordTurn]

theorem stepWord_run_alone {t u : State} {who lane : Nat} {rest : List (Nat × Nat)} {i : Instr} (h : t.attempt who lane = .run i u)
    (hl : t.laterMembers u who lane = []) : stepWord ((who, lane) :: rest) t = wordTurn rest who t (exec i u) :=
  stepWord_run h (by rw [hl]; rfl)

theorem stepWord_wait {t u v : State} {who lane : Nat} {rest : List (Nat × Nat)} {i : Instr} (h : t.attempt who lane = .run i u)
    (hw : (t.laterMembers u who lane).findSome? (fun x => execWaits x.1 x.2) = some v) :
    stepWord ((who, lane) :: rest) t = stepWord rest (t.unblock who v) := by
  simp only [stepWord, h, hw]

theorem firmwareFirst_inside (t : State) (who : Nat) {p : Path} (h : p.inside = true) : t.firmwareFirst who p = none := by
  simp [State.firmwareFirst, h]

/-- A path inside a packet that it holds attempts the word at its pc. -/
theorem attempt_inside {t : State} {who lane : Nat} {p : Path} {f : Fetched} (hp : (t.warp who).pathAt lane = some p)
    (hi : p.inside = true) (ha : (t.ctl who).acq = false) (hf : t.packetOf who p = some f) :
    t.attempt who lane = t.wordAttempt who lane p (Packet.ofBits f.bits) (slotIdx p.pc) := by
  simp [State.attempt, hp, hi, ha, hf, firmwareFirst_inside]

theorem openGroup_held {t : State} {who : Nat} {p : Path} (hc : t.cur = none)
    (h : ∀ h ∈ (t.ctl who).heldGroup, p.mask.getLsbD h.1 = false) : t.openGroup who p = none := by
  simp only [State.openGroup, hc, Option.map_eq_none_iff, List.find?_eq_none]
  intro x hx
  simp [h x hx]

/-- With no group open and none to open, the word at slot k is put at issue as it stands. -/
theorem wordAttempt_alone {t : State} {who lane k : Nat} {p : Path} {pk : Packet} {i : Instr} (hg : t.openGroup who p = none)
    (ho : ¬((pk.groupOf k).head? = some k ∧ 1 < (pk.groupOf k).length)) (hi : pk.instrAt k = some i) :
    t.wordAttempt who lane p pk k = .run i { t with cur := some (pk.curAt who lane k none) } := by
  have hopen : ((pk.groupOf k).head? == some k && decide (1 < (pk.groupOf k).length)) = false := by
    simpa [Bool.and_eq_false_iff] using ho
  simp [State.wordAttempt, hg, hi, hopen]

theorem laterMembers_nogroup {t u : State} {who lane : Nat} (h : u.cur.bind Cur.group = none) : t.laterMembers u who lane = [] := by
  simp [State.laterMembers, h]

theorem laterMembers_open {t u : State} {who lane : Nat} {p : Path} (hp : (u.warp who).pathAt lane = some p)
    (h : (t.openGroup who p).isSome = true) : t.laterMembers u who lane = [] := by
  unfold State.laterMembers
  split
  · next heq => rw [hp] at heq; cases heq; rw [if_pos h]
  · rfl

theorem curAt_group (pk : Packet) (who lane k : Nat) (g : Option Group) : (pk.curAt who lane k g).group = g := rfl


section
variable {s : State} {who lane : Nat} {rest : List (Nat × Nat)} {p : Path} {f : Fetched} {i : Instr}

/-- R249, R253: the word at issue of a path inside its packet, alone. -/
theorem step_runs_alone {t : State} (hs : step s = stepWord ((who, lane) :: rest) t) (hc : t.cur = none) (ha : (t.ctl who).acq = false)
    (hp : (t.warp who).pathAt lane = some p) (hf : t.packetOf who p = some f) (hin : p.inside = true)
    (hi : (Packet.ofBits f.bits).instrAt (slotIdx p.pc) = some i)
    (hn : ∀ h ∈ (t.ctl who).heldGroup, p.mask.getLsbD h.1 = false)
    (ho : ¬(((Packet.ofBits f.bits).groupOf (slotIdx p.pc)).head? = some (slotIdx p.pc) ∧
      1 < ((Packet.ofBits f.bits).groupOf (slotIdx p.pc)).length)) :
    step s = wordTurn rest who t (exec i { t with cur := some ((Packet.ofBits f.bits).curAt who lane (slotIdx p.pc) none) }) := by
  have hr := (attempt_inside hp hin ha hf).trans (wordAttempt_alone (openGroup_held hc hn) ho hi)
  exact hs.trans (stepWord_run_alone hr (laterMembers_nogroup rfl))

/-- The packet's checks passed and its flags at zero, the path enters it (R234, R236). -/
theorem enterPacket_enters {t : State} {pk : Packet} (h1 : bitsOf p.entryWord 2 2 ≠ 0) (h2 : slotIdx p.entryWord ∈ pk.starts)
    (h3 : pk.ok = true) (h4 : ∀ j < 12, pk.wait.getLsbD j = true → (t.warp who).flag j = 0) :
    let q : Path := { p with pc := p.entryWord, entry := p.entryWord, inside := true, gen := (t.ctl who).gen }
    let others := (t.warp who).paths.filter (fun r => !r.mask.getLsbD lane && t.pathReady who r)
    let t1 := (t.modWarp who (fun w => { w with paths := w.paths.map (fun r => if r.mask.getLsbD lane then q else r) })).modCtl who
      (fun c => { c with passed := (others.map (fun r => lowLane r.mask)).foldl (fun m l => mset m l (mgetD c.passed l 0 + 1)) [] })
    let t2 := if isStream who then t1.modCluster (clusterOf who) (fun c => { c with lastStream := streamOf who }) else t1
    t.enterPacket who lane p pk = t2.wordAttempt who lane q pk (slotIdx p.entryWord) := by
  have hw : (List.range 12).any (fun j => pk.wait.getLsbD j && (t.warp who).flag j != 0) = false := by
    rw [List.any_eq_false]
    intro j hj
    cases hb : pk.wait.getLsbD j with
    | false => simp
    | true => simp [h4 j (List.mem_range.1 hj) hb]
  simp [State.enterPacket, h1, h2, h3, hw]

theorem attempt_enter {t : State} (hp : (t.warp who).pathAt lane = some p) (hin : p.inside = false) (ha : (t.ctl who).acq = false)
    (hf : t.packetOf who p = some f) (hpend : (t.ctl who).pendingAsync = none)
    (hs : isStream who = true → (t.stream (who - streamBase)).haltReq = false ∧ (t.stream (who - streamBase)).suspended = false ∧
      t.firmwareFirst who p = none) :
    t.attempt who lane = t.enterPacket who lane p (Packet.ofBits f.bits) := by
  have hfw : t.firmwareFirst who p = none := by
    cases h : isStream who with
    | true => exact (hs h).2.2
    | false => simp [State.firmwareFirst, h]
  cases h : isStream who with
  | true => simp [State.attempt, hp, hin, ha, hf, hpend, hfw, (hs h).1, (hs h).2.1]
  | false => simp [State.attempt, hp, hin, ha, hf, hpend, hfw, h]

/-- The word that opens a group issues with a snapshot of the warp (R249). -/
theorem wordAttempt_opens {t : State} {k : Nat} {pk : Packet} (hc : t.openGroup who p = none)
    (ho : (pk.groupOf k).head? = some k ∧ 1 < (pk.groupOf k).length) (hi : pk.instrAt k = some i) :
    t.wordAttempt who lane p pk k = .run i { t with cur := some (pk.curAt who lane k (some { snap := t.warp who, since := t.nextId })) } := by
  simp [State.wordAttempt, hc, hi, ho.1, ho.2]

/-- The later members of the group that the word opens, each as it would issue alone (R248). -/
theorem laterMembers_opens {t : State} {g : Group} (hp : (t.warp who).pathAt lane = some p) (hf : t.packetOf who p = some f)
    (hc : t.openGroup who p = none) :
    let pk := Packet.ofBits f.bits
    t.laterMembers { t with cur := some (pk.curAt who lane (slotIdx p.pc) (some g)) } who lane =
      ((pk.groupOf (slotIdx p.pc)).filter (fun j => decide (slotIdx p.pc < j))).filterMap (fun j => (pk.instrAt j).map (fun m =>
        (m, { t with cur := some (pk.curAt who lane j none) }))) := by
  intro pk
  unfold State.laterMembers
  have hp' : (({ t with cur := some (pk.curAt who lane (slotIdx p.pc) (some g)) } : State).warp who).pathAt lane = some p := hp
  have hf' : ({ t with cur := some (pk.curAt who lane (slotIdx p.pc) (some g)) } : State).packetOf who p = some f := hf
  rw [hp']
  simp only [Option.bind_some, curAt_group, hc, Option.isSome_none, Bool.false_eq_true, if_false, hf']
  rfl

/-- The word of a group that is held for its path goes on with that group (R249). -/
theorem step_runs_held {t : State} {h : Nat × Group} (hs : step s = stepWord ((who, lane) :: rest) t) (hc : t.cur = none)
    (ha : (t.ctl who).acq = false) (hp : (t.warp who).pathAt lane = some p) (hf : t.packetOf who p = some f) (hin : p.inside = true)
    (hi : (Packet.ofBits f.bits).instrAt (slotIdx p.pc) = some i)
    (hh : (t.ctl who).heldGroup.find? (fun e => p.mask.getLsbD e.1) = some h) :
    step s = wordTurn rest who t (exec i { t.modCtl who (fun c => { c with
      heldGroup := c.heldGroup.filter (fun e => !p.mask.getLsbD e.1) }) with
        cur := some ((Packet.ofBits f.bits).curAt who lane (slotIdx p.pc) (some h.2)) }) := by
  have ho : t.openGroup who p = some h.2 := by simp [State.openGroup, hc, hh]
  have hr : t.attempt who lane = .run i { t.modCtl who (fun c => { c with
      heldGroup := c.heldGroup.filter (fun e => !p.mask.getLsbD e.1) }) with
        cur := some ((Packet.ofBits f.bits).curAt who lane (slotIdx p.pc) (some h.2)) } := by
    rw [attempt_inside hp hin ha hf]
    simp [State.wordAttempt, ho, hi, hc]
  exact hs.trans (stepWord_run_alone hr (laterMembers_open hp (by rw [ho]; rfl)))

/-- The word after one of an open group goes on with it. -/
theorem step_runs_open {t : State} {c : Cur} {g : Group} (hs : step s = stepWord ((who, lane) :: rest) t) (hc : t.cur = some c)
    (hg : c.group = some g) (ha : (t.ctl who).acq = false) (hp : (t.warp who).pathAt lane = some p) (hf : t.packetOf who p = some f)
    (hin : p.inside = true) (hi : (Packet.ofBits f.bits).instrAt (slotIdx p.pc) = some i) :
    step s = wordTurn rest who t (exec i { t with cur := some ((Packet.ofBits f.bits).curAt who lane (slotIdx p.pc) (some g)) }) := by
  have ho : t.openGroup who p = some g := by simp [State.openGroup, hc, hg]
  have hr : t.attempt who lane = .run i { t with cur := some ((Packet.ofBits f.bits).curAt who lane (slotIdx p.pc) (some g)) } := by
    rw [attempt_inside hp hin ha hf]
    simp [State.wordAttempt, ho, hi, hc]
  exact hs.trans (stepWord_run_alone hr (laterMembers_open hp (by rw [ho]; rfl)))

end

/-- Settles O39: the attempt at the turn's path, as its packet, its group and the held groups decide it. -/
theorem stepRunsWord : Obligations.StepRunsWord := by
  intro s who lane rest p f i t pk after k e q others t1 t2 noneHeld opens waits
  have hafter : after = wordTurn rest who t := by funext o; cases o <;> rfl
  have hcur : t.cur = s.cur := State.cur_tick s
  rw [hafter]
  refine ⟨fun hacq hp hf => ⟨fun hc hag hev htr => ?_, ?_⟩, ?_, ?_, ?_, ?_, ?_⟩
  · have hs : step s = stepWord ((who, lane) :: rest) t := by rw [← htr]; exact step_word hc hag hev
    have hct : t.cur = none := hcur.trans hc
    refine ⟨fun hin hi hn ho => step_runs_alone hs hct hacq hp hf hin hi hn ho, ?_, fun hin hi hn ho => ?_,
      fun hin hi h hh => step_runs_held hs hct hacq hp hf hin hi hh⟩
    · intro hin hpend hst h1 h2 h3 h4 hi hn hg
      have hr : t.attempt who lane = .run i { t2 with cur := some (pk.curAt who lane e none) } := by
        refine ((attempt_enter hp hin hacq hf hpend hst).trans (enterPacket_enters h1 h2 h3 h4)).trans (wordAttempt_alone ?_ ?_ hi)
        · refine openGroup_held ?_ ?_
          · show t2.cur = none
            dsimp only [t2]
            split <;> exact hct
          · show ∀ h ∈ (t2.ctl who).heldGroup, _
            have : (t2.ctl who).heldGroup = (t.ctl who).heldGroup := by
              dsimp only [t2, t1]
              split
              · rw [show ∀ (x : State) c g, (x.modCluster c g).ctl who = x.ctl who from fun _ _ _ => rfl, State.ctl_modCtl]; rfl
              · rw [State.ctl_modCtl]; rfl
            rw [this]
            exact hn
        · rw [hg]; simp
      exact hs.trans (stepWord_run_alone hr (laterMembers_nogroup rfl))
    · have hg := openGroup_held (p := p) hct hn
      have hr := (attempt_inside hp hin hacq hf).trans (wordAttempt_opens hg ho hi)
      have hl := laterMembers_opens (g := { snap := t.warp who, since := t.nextId }) hp hf hg
      constructor
      · intro hno
        rw [hs, stepWord_run hr]
        rw [hl, List.findSome?_eq_none_iff]
        intro x hx
        rw [execWaits_none_iff]
        simp only [List.mem_filterMap, List.mem_filter, decide_eq_true_eq, Option.map_eq_some_iff] at hx
        obtain ⟨j, ⟨hj, hkj⟩, m, hm, rfl⟩ := hx
        rintro ⟨v, hv, hb⟩
        exact hno j hj hkj ⟨v, m, hm, hv, hb⟩
      · rintro ⟨j, hj, hkj, v, m, hm, hv, hb⟩
        obtain ⟨u, hu⟩ : ∃ u, (t.laterMembers { t with cur := some (pk.curAt who lane k (some { snap := t.warp who, since := t.nextId })) }
            who lane).findSome? (fun x => execWaits x.1 x.2) = some u := by
          rw [← Option.isSome_iff_exists, List.findSome?_isSome_iff]
          refine ⟨(m, { t with cur := some (pk.curAt who lane j none) }), ?_, ?_⟩
          · rw [hl]
            simp only [List.mem_filterMap, List.mem_filter, decide_eq_true_eq, Option.map_eq_some_iff]
            exact ⟨j, ⟨hj, hkj⟩, m, hm, rfl⟩
          · rw [(execWaits_some_iff _ _ v).2 ⟨hv, hb⟩]; rfl
        have hsw := hs.trans (stepWord_wait hr hu)
        obtain ⟨x, hx, hxu⟩ := List.exists_of_findSome?_eq_some hu
        rw [hl] at hx
        simp only [List.mem_filterMap, List.mem_filter, decide_eq_true_eq, Option.map_eq_some_iff] at hx
        obtain ⟨j', ⟨hj', hkj'⟩, m', hm', rfl⟩ := hx
        obtain ⟨hv', hb'⟩ := (execWaits_some_iff _ _ u).1 hxu
        exact ⟨j', hj', hkj', u, ⟨m', hm', hv', hb'⟩, hsw⟩
  · intro c g hc hg hw hl hr hin hi
    subst hw hl hr
    exact step_runs_open (step_open hc) (hcur.trans hc) hg hacq hp hf hin hi
  · intro hc hag hev htr
    rw [step_word hc hag hev]
    exact (congrArg (fun l => stepWord l t) htr).trans rfl
  · intro hc ev r hag
    simp [step, hc, hag, t]
  · intro hc hag hev
    simp [step, hc, hag, hev, t]
  · intro ev h
    simp [stepEvent, h]
  · intro h
    simp [stepEvent, h]

end Sys2Proof.Machine
end

section
/-! Scalar words: each row of the tables of R273 and R275 as the word's function of its operands. -/

namespace Sys2Proof.Machine

/-! ### Counting and reversing bits -/

theorem leadZeros_le {w : Nat} (a : BitVec w) : leadZeros a ≤ w := by
  unfold leadZeros
  split <;> omega

/-- Above the highest 1 bit there are only zeros. -/
theorem lt_of_leadZeros {w : Nat} (a : BitVec w) : a.toNat < 2 ^ (w - leadZeros a) := by
  unfold leadZeros
  split
  · simp_all
  · next h =>
    have h0 : a.toNat ≠ 0 := fun h' => h (BitVec.eq_of_toNat_eq (by simpa using h'))
    have hl : Nat.log2 a.toNat < w := (Nat.log2_lt h0).2 a.isLt
    have : w - (w - 1 - Nat.log2 a.toNat) = Nat.log2 a.toNat + 1 := by omega
    rw [this]
    exact Nat.lt_log2_self

/-- Below them there is a 1 bit. -/
theorem le_of_leadZeros {w : Nat} (a : BitVec w) (h : leadZeros a < w) : 2 ^ (w - 1 - leadZeros a) ≤ a.toNat := by
  unfold leadZeros at *
  split at h
  · omega
  · next hz =>
    have h0 : a.toNat ≠ 0 := fun h' => hz (BitVec.eq_of_toNat_eq (by simpa using h'))
    have hl : Nat.log2 a.toNat < w := (Nat.log2_lt h0).2 a.isLt
    rw [if_neg hz, show w - 1 - (w - 1 - Nat.log2 a.toNat) = Nat.log2 a.toNat by omega]
    exact Nat.log2_self_le h0

theorem popCount_eq_card {w : Nat} (a : BitVec w) :
    popCount a = ((Finset.range w).filter (fun i => a.getLsbD i = true)).card := by
  rw [popCount, ← List.toFinset_card_of_nodup (List.nodup_range.filter _), List.toFinset_filter, List.toFinset_range]

/-- A sum of distinct powers of 2 has the bits that are in the list. -/
theorem testBit_sum_two_pow {l : List Nat} (h : l.Nodup) (i : Nat) : (l.map (fun j => 2 ^ j)).sum.testBit i = decide (i ∈ l) := by
  have hb := Finset.toFinset_bitIndices_sum_two_pow l.toFinset
  have hm : i ∈ (∑ j ∈ l.toFinset, 2 ^ j).bitIndices ↔ i ∈ l := by rw [← List.mem_toFinset, hb, List.mem_toFinset]
  rw [Nat.mem_bitIndices, List.sum_toFinset _ h] at hm
  rw [Bool.eq_iff_iff, hm, decide_eq_true_iff]

theorem bitReverse_get {w : Nat} (a : BitVec w) {i : Nat} (hi : i < w) : (bitReverse a).getLsbD (w - 1 - i) = a.getLsbD i := by
  have hl : ((List.range w).filter (fun i => a.getLsbD i)).map (fun i => 2 ^ (w - 1 - i)) =
      (((List.range w).filter (fun i => a.getLsbD i)).map (fun i => w - 1 - i)).map (fun j => 2 ^ j) := by simp
  have hn : (((List.range w).filter (fun i => a.getLsbD i)).map (fun i => w - 1 - i)).Nodup := by
    refine List.Nodup.map_on ?_ (List.nodup_range.filter _)
    intro x hx y hy hxy
    simp only [List.mem_filter, List.mem_range] at hx hy
    omega
  have hlt : w - 1 - i < w := by omega
  rw [bitReverse, BitVec.getLsbD_ofNat, hl, testBit_sum_two_pow hn, Bool.eq_iff_iff]
  simp only [List.mem_map, List.mem_filter, List.mem_range, hlt, decide_true, Bool.true_and, decide_eq_true_eq]
  constructor
  · rintro ⟨j, ⟨hj, hb⟩, hji⟩
    rwa [show i = j by omega]
  · intro hb
    exact ⟨i, ⟨hi, hb⟩, rfl⟩

/-! ### The rows -/

section
variable {s : State} {i : Instr} {is : Issue} {x : S3} {sd : Fin 96} {sa : SOp} {v : W64}

theorem scalarDone_eq {f : W64 → W64 → W64} (he : Machine.exec i s = runWord i (scalarBody f x) s)
    (hv : f (is.sv s x.sa) (is.sv s x.sb) = v) (h : s.ready i = some is) : ScalarDone i s is x.sd.val v :=
  hv ▸ scalarDone_of_scalarBody he h

theorem scalarDone1_eq {f : W64 → W64} (he : Machine.exec i s = runWord i (scalarBody1 f sd sa) s) (hv : f (is.sv s sa) = v)
    (h : s.ready i = some is) : ScalarDone i s is sd.val v :=
  hv ▸ scalarDone_of h he rfl

theorem scalarDoneI_eq {f : W64 → W64} (he : Machine.exec i s = runWord i (scalarBodyI f sd) s) (hv : f (is.w.sreg sd.val) = v)
    (h : s.ready i = some is) : ScalarDone i s is sd.val v :=
  hv ▸ scalarDone_of h he rfl

end

theorem ofInt_toInt_sub (a b : W64) : a - b = BitVec.ofInt 64 (a.toNat - b.toNat) := by
  rw [Int.sub_eq_add_neg, BitVec.ofInt_add, BitVec.ofInt_neg, BitVec.ofInt_natCast, BitVec.ofInt_natCast]
  simp [BitVec.sub_eq_add_neg]

theorem bitsOf_low (b : W64) : bitsOf b 0 6 = b.toNat % 64 := by simp [bitsOf]

theorem shl_bitsOf (a b : W64) : a <<< bitsOf b 0 6 = BitVec.ofNat 64 (a.toNat * 2 ^ (b.toNat % 64)) := by
  rw [bitsOf_low]
  exact BitVec.eq_of_toNat_eq (by simp [Nat.shiftLeft_eq])

theorem shr_bitsOf (a b : W64) : a >>> bitsOf b 0 6 = BitVec.ofNat 64 (a.toNat / 2 ^ (b.toNat % 64)) := by
  rw [bitsOf_low]
  refine BitVec.eq_of_toNat_eq ?_
  rw [BitVec.toNat_ushiftRight, Nat.shiftRight_eq_div_pow, BitVec.toNat_ofNat]
  exact (Nat.mod_eq_of_lt (Nat.lt_of_le_of_lt (Nat.div_le_self _ _) a.isLt)).symm

theorem sra_bitsOf (a b : W64) : a.sshiftRight (bitsOf b 0 6) = BitVec.ofInt 64 (a.toInt / 2 ^ (b.toNat % 64)) := by
  rw [bitsOf_low, BitVec.sshiftRight, Int.shiftRight_eq_div_pow]
  norm_cast

theorem min_signed (a b : W64) : (if a.toInt ≤ b.toInt then a else b) = BitVec.ofInt 64 (min a.toInt b.toInt) := by
  rw [min_def, apply_ite (BitVec.ofInt 64), BitVec.ofInt_toInt, BitVec.ofInt_toInt]

theorem min_unsigned (a b : W64) : (if a.toNat ≤ b.toNat then a else b) = BitVec.ofNat 64 (min a.toNat b.toNat) := by
  rw [min_def, apply_ite (BitVec.ofNat 64), BitVec.ofNat_toNat, BitVec.ofNat_toNat, BitVec.setWidth_eq, BitVec.setWidth_eq]

theorem max_signed (a b : W64) : (if a.toInt ≤ b.toInt then b else a) = BitVec.ofInt 64 (max a.toInt b.toInt) := by
  rw [max_def, apply_ite (BitVec.ofInt 64), BitVec.ofInt_toInt, BitVec.ofInt_toInt]

theorem max_unsigned (a b : W64) : (if a.toNat ≤ b.toNat then b else a) = BitVec.ofNat 64 (max a.toNat b.toNat) := by
  rw [max_def, apply_ite (BitVec.ofNat 64), BitVec.ofNat_toNat, BitVec.ofNat_toNat, BitVec.setWidth_eq, BitVec.setWidth_eq]

theorem shin_eq (d : W64) (imm : BitVec 17) : d <<< 17 ||| imm.setWidth 64 = BitVec.ofNat 64 (d.toNat * 2 ^ 17 + imm.toNat) := by
  have hs : BitVec.ofNat 64 (d.toNat * 2 ^ 17) = d <<< 17 := BitVec.eq_of_toNat_eq (by simp [Nat.shiftLeft_eq])
  have hz : d <<< 17 &&& imm.setWidth 64 = 0 := by
    ext i hi
    by_cases h : i < 17
    · simp [h]
    · simp [BitVec.getLsbD_of_ge imm i (by omega)]
  rw [BitVec.ofNat_add, hs, BitVec.ofNat_toNat, BitVec.add_eq_or_of_and_eq_zero _ _ (by simpa using hz)]

/-- Settles O1: each word runs its row's function on its operands. -/
theorem scalarResults : Obligations.ScalarResults := by
  unfold Obligations.ScalarResults
  refine ⟨fun s is x => ?_, fun s is sd sa imm => ?_⟩
  · refine ⟨scalarDone_eq rfl ?add, scalarDone_eq rfl (ofInt_toInt_sub _ _), scalarDone_eq rfl rfl, scalarDone_eq rfl rfl,
      scalarDone_eq rfl rfl, scalarDone_eq rfl (shl_bitsOf _ _), scalarDone_eq rfl (shr_bitsOf _ _), scalarDone_eq rfl (sra_bitsOf _ _),
      scalarDone_eq rfl ?mul, scalarDone_eq rfl rfl, scalarDone_eq rfl rfl, scalarDone_eq rfl (min_signed _ _),
      scalarDone_eq rfl (min_unsigned _ _), scalarDone_eq rfl (max_signed _ _), scalarDone_eq rfl (max_unsigned _ _),
      fun c => scalarDone_eq rfl ?cmp⟩
    case add => simp [BitVec.ofNat_add]
    case mul => simp [BitVec.ofNat_mul]
    case cmp => cases c <;> simp [scondHolds]
  · refine ⟨fun h => ⟨_, leadZeros_le _, lt_of_leadZeros _, le_of_leadZeros _, scalarDone1_eq rfl rfl h⟩, scalarDone1_eq rfl ?popc,
      fun h => ⟨_, fun i hi => bitReverse_get _ hi, scalarDone1_eq rfl rfl h⟩, scalarDoneI_eq rfl ?addi, scalarDoneI_eq rfl rfl,
      scalarDoneI_eq rfl (shin_eq _ _)⟩
    case popc => simp only [popCount_eq_card]
    case addi => simp [BitVec.ofInt_add, BitVec.signExtend]

end Sys2Proof.Machine
end

section
/-! Integer and logic vector words, compares and predicate logic (R271, R298 to R300, R326). -/

namespace Sys2Proof.Machine

/-! ### Values of w bits -/

theorem Issue.num_lt (is : Issue) (a : VOp) (wide : Bool) (L : Nat) : is.num (useS a wide) L < 2 ^ (if wide then 64 else 32) := by
  cases wide
  · exact (is.src (useS a false) L).isLt
  · exact (is.src64 (useS a true) L).isLt

theorem width_pos (t : ITy) : 0 < t.width := by cases t <;> decide

theorem low_eq (w : Nat) (i : Int) : low w i = (BitVec.ofInt w i).toNat := (BitVec.toNat_ofInt i).symm

theorem low_natCast (w n : Nat) : low w n = n % 2 ^ w := by
  rw [low]
  norm_cast

theorem low_natCast_of_lt {w n : Nat} (h : n < 2 ^ w) : low w n = n := by rw [low_natCast, Nat.mod_eq_of_lt h]

theorem sg_eq_toInt {w a : Nat} (h : a < 2 ^ w) (hw : 0 < w) : sg w a = (BitVec.ofNat w a).toInt := by
  have h2 : 2 ^ w = 2 * 2 ^ (w - 1) := by rw [← Nat.pow_succ']; congr 1; omega
  rw [BitVec.toInt_eq_toNat_cond, BitVec.toNat_ofNat, Nat.mod_eq_of_lt h, sg]
  split
  · rw [if_pos (by omega)]
  · rw [if_neg (by omega)]
    norm_cast

theorem sg_eq_emod (w a : Nat) (hw : 0 < w) (h : a < 2 ^ w) : low w (sg w a) = a := by
  rw [low_eq, sg_eq_toInt h hw, BitVec.ofInt_toInt, BitVec.toNat_ofNat, Nat.mod_eq_of_lt h]

theorem low_ival (g : Bool) {w a : Nat} (hw : 0 < w) (h : a < 2 ^ w) : low w (ival g w a) = a := by
  cases g
  · exact low_natCast_of_lt h
  · exact sg_eq_emod w a hw h

/-- R298's reading of a value by its type. -/
theorem ival_eq {t : ITy} {v : Nat} (h : v < 2 ^ t.width) :
    ival (ITy.signed t) t.width v = if t = .i32 ∨ t = .i64 then (BitVec.ofNat t.width v).toInt else (v : Int) := by
  have hs : ITy.signed t = decide (t = .i32 ∨ t = .i64) := by cases t <;> rfl
  rw [ival, hs, sg_eq_toInt h (width_pos t)]
  by_cases ht : t = .i32 ∨ t = .i64 <;> simp [ht]

/-! ### Integer words -/

section
variable {s : State} {i : Instr} {is : Issue} {t : ITy} {x : V3}

theorem Issue.over_map {α β : Type} (is : Issue) (f : Nat → α) (g : Nat × α → β) :
    (is.over f).map g = (lanesOf is.mask).map (fun L => g (L, f L)) := by simp [Issue.over]

theorem unionFlags_foldl (l : List W32) (a : W32) : l.foldl (fun a b => a ||| b) a = a ||| unionFlags l := by
  unfold unionFlags
  induction l generalizing a with
  | nil => simp
  | cons b l ih =>
    rw [List.foldl_cons, List.foldl_cons, ih (a ||| b), ih (0 ||| b), BitVec.or_assoc]
    simp

theorem unionFlags_cons (a : W32) (l : List W32) : unionFlags (a :: l) = a ||| unionFlags l := by
  rw [unionFlags, List.foldl_cons, unionFlags_foldl]
  simp

/-- One flag, raised in the lanes where `P` holds. -/
theorem unionFlags_ite (l : List Nat) (P : Nat → Prop) [DecidablePred P] (f : W32) [d : Decidable (∃ L ∈ l, P L)] :
    unionFlags (l.map (fun L => if P L then f else 0)) = if ∃ L ∈ l, P L then f else 0 := by
  suffices h : ∀ k : List Nat, ((∃ L ∈ k, P L) → unionFlags (k.map (fun L => if P L then f else 0)) = f) ∧
      ((¬∃ L ∈ k, P L) → unionFlags (k.map (fun L => if P L then f else 0)) = 0) by
    split
    · exact (h l).1 ‹_›
    · exact (h l).2 ‹_›
  intro k
  induction k with
  | nil => exact ⟨fun ⟨_, h, _⟩ => absurd h List.not_mem_nil, fun _ => rfl⟩
  | cons a k ih =>
    rw [List.map_cons, unionFlags_cons]
    by_cases ha : P a <;> by_cases hk : ∃ L ∈ k, P L <;> simp_all

theorem unionFlags_zero (l : List Nat) : unionFlags (l.map (fun _ => 0)) = 0 := by
  simpa using unionFlags_ite l (fun _ => False) 0

/-- A three-operand integer word delivers its function's values and the union of its lanes' flags. -/
theorem intBody_done {f : Bool → Nat → Nat → Nat → Nat × W32} {v : Nat → Nat} {fl : W32}
    (he : Machine.exec i s = runWord i (intBody t x f) s)
    (hv : ∀ L, (f (ITy.signed t) t.width (is.num (useS x.a t.is64) L) (is.num (useS x.b t.is64) L)).1 = v L)
    (hf : unionFlags ((lanesOf is.mask).map (fun L =>
      (f (ITy.signed t) t.width (is.num (useS x.a t.is64) L) (is.num (useS x.b t.is64) L)).2)) = fl)
    (h : s.ready i = some is) : VectorDone i s is (useD x.d t.is64) v fl := by
  refine vectorDone_of h he (rs := (lanesOf is.mask).map (fun L => (L, v L))) ?_ rfl (by cases t <;> simp [useD, ITy.is64])
  simp only [intBody, Issue.over_map, hv, hf]

/-- The same for a function that raises no flag. -/
theorem intPlain_done {f : Bool → Nat → Nat → Nat → Nat} {v : Nat → Nat}
    (he : Machine.exec i s = runWord i (intBody t x (plain f)) s)
    (hv : ∀ L, f (ITy.signed t) t.width (is.num (useS x.a t.is64) L) (is.num (useS x.b t.is64) L) = v L) (h : s.ready i = some is) :
    VectorDone i s is (useD x.d t.is64) v 0 :=
  intBody_done he hv (unionFlags_zero _) h

end

/-- R298: clamping takes the value to the nearest in the range, and notes whether that changed it. -/
theorem clampTo_eq (t : ITy) (i : Int) :
    let lo : Int := if t = .i32 ∨ t = .i64 then -2 ^ (t.width - 1) else 0
    let hi : Int := if t = .i32 ∨ t = .i64 then 2 ^ (t.width - 1) - 1 else 2 ^ t.width - 1
    clampTo (ITy.signed t) t.width i = ((BitVec.ofInt t.width (max lo (min hi i))).toNat, if i < lo ∨ hi < i then fSAT else 0) := by
  intro lo hi
  have hlo : (if ITy.signed t = true then -((2 ^ (t.width - 1) : Nat) : Int) else 0) = lo := by cases t <;> rfl
  have hhi : (if ITy.signed t = true then ((2 ^ (t.width - 1) : Nat) : Int) - 1 else ((2 ^ t.width : Nat) : Int) - 1) = hi := by cases t <;> rfl
  have hle : lo ≤ hi := by cases t <;> decide
  rw [clampTo]
  simp only [hlo, hhi, low_eq]
  by_cases h1 : i < lo
  · rw [if_pos h1, if_pos (.inl h1), min_eq_right (by omega), max_eq_left (by omega)]
  · rw [if_neg h1]
    by_cases h2 : hi < i
    · rw [if_pos h2, if_pos (.inr h2), min_eq_left (by omega), max_eq_right hle]
    · rw [if_neg h2, if_neg (by omega), min_eq_right (by omega), max_eq_right (by omega)]

/-- Settles O3: each word's function over values of the type's width, and the clamp of R298. -/
theorem integerResults : Obligations.IntegerResults := by
  unfold Obligations.IntegerResults
  intro s is t x w signed u a b rd low' lo hi sat
  have ha : ∀ L, a L < 2 ^ w := fun L => is.num_lt x.a t.is64 L
  have hb : ∀ L, b L < 2 ^ w := fun L => is.num_lt x.b t.is64 L
  have hrd : ∀ v, v < 2 ^ w → ival (ITy.signed t) w v = rd v := fun v hv => ival_eq hv
  have hsub : ∀ c d : Nat, d < 2 ^ w → (c + 2 ^ w - d) % 2 ^ w = low' ((c : Int) - d) := fun c d hd => by
    show _ = (BitVec.ofInt w _).toNat
    have hc : ((c + 2 ^ w - d : Nat) : Int) = c - d + (2 ^ w : Nat) := by omega
    rw [← low_eq, ← low_natCast, low, low, hc, Int.add_emod_right]
  have hlow : ∀ v, v < 2 ^ w → low' (rd v) = v := fun v hv => by
    rw [← hrd v hv]
    exact (low_eq _ _).symm.trans (low_ival _ (width_pos t) hv)
  have hsat : ∀ v, unionFlags ((lanesOf is.mask).map (fun L => (clampTo (ITy.signed t) w (v L)).2)) = sat v := fun v => by
    simp only [w, clampTo_eq]
    exact unionFlags_ite _ (fun L => v L < lo ∨ hi < v L) _
  refine ⟨intPlain_done rfl ?add, intPlain_done rfl ?sub, intPlain_done rfl ?mul, intPlain_done rfl ?mulh, intBody_done rfl ?addv ?addf,
    intBody_done rfl ?subv ?subf, intPlain_done rfl ?min, intPlain_done rfl ?max, intPlain_done rfl ?shl, intPlain_done rfl ?shr⟩
  case add => exact fun L => (low_natCast w (a L + b L)).symm.trans (low_eq _ _)
  case sub => exact fun L => hsub _ _ (hb L)
  case mul => exact fun L => (low_natCast w (a L * b L)).symm.trans (low_eq _ _)
  case mulh =>
    intro L
    rw [hrd _ (ha L), hrd _ (hb L), low_eq]
    norm_cast
  case addv =>
    intro L
    rw [hrd _ (ha L), hrd _ (hb L), clampTo_eq]
  case addf =>
    rw [← hsat]
    exact congrArg unionFlags (List.map_congr_left fun L _ => by rw [hrd _ (ha L), hrd _ (hb L)])
  case subv =>
    intro L
    rw [hrd _ (ha L), hrd _ (hb L), clampTo_eq]
  case subf =>
    rw [← hsat]
    exact congrArg unionFlags (List.map_congr_left fun L _ => by rw [hrd _ (ha L), hrd _ (hb L)])
  case min =>
    intro L
    rw [hrd _ (ha L), hrd _ (hb L), min_comm, min_def_lt, apply_ite low', hlow _ (ha L), hlow _ (hb L)]
  case max =>
    intro L
    rw [hrd _ (ha L), hrd _ (hb L), max_def_lt, apply_ite low', hlow _ (ha L), hlow _ (hb L)]
  case shl => exact fun L => (low_natCast w (a L * 2 ^ (b L % w))).symm.trans (low_eq _ _)
  case shr =>
    intro L
    rw [hrd _ (ha L), low_eq]
    norm_cast

/-! ### Logic, one-operand and 24-bit words -/

section
variable {s : State} {i : Instr} {is : Issue} {v : Nat → Nat}

theorem Issue.num_narrow (is : Issue) (a : VOp) (L : Nat) : is.num (useS a) L = (is.src (useS a) L).toNat := rfl

/-- A one-operand word delivers its function of the operand. -/
theorem unBody_done {wide : Bool} {y : V2} {f : Nat → Nat} (he : Machine.exec i s = runWord i (unBody wide y f) s)
    (hv : ∀ L, f (is.num (useS y.a wide) L) = v L) (h : s.ready i = some is) : VectorDone i s is (useD y.d wide) v 0 :=
  vectorDone_plain h he rfl (by simp only [Issue.over, hv]) (by cases wide <;> simp [useD])

theorem logicBody_done {t : BTy} {x : V3} {f : Nat → Nat → Nat} (he : Machine.exec i s = runWord i (logicBody t x f) s)
    (hv : ∀ L, f (is.num (useS x.a t.is64) L) (is.num (useS x.b t.is64) L) = v L) (h : s.ready i = some is) :
    VectorDone i s is (useD x.d t.is64) v 0 :=
  vectorDone_plain h he rfl (by simp only [Issue.over, hv]) (by cases t <;> simp [useD, BTy.is64])

end

/-- R255: an experimental word of another stepping is illegal wherever it stands. -/
theorem vclmul_traps {s : State} {is : Issue} {b : Bool} {x : V3} (h : s.issueOf (.vclmul b x) = some is) :
    Machine.exec (.vclmul b x) s = .next (s.trapAt is .illins (.same 0) is.pc) := by
  have hi := (State.issueOf_eq h).1
  have hl : s.illegalHere is = true := by
    simp only [State.illegalHere, hi]
    simp [Config.stepping, Config.vclmulStepping]
  have he : Machine.exec (.vclmul b x) s = runWordWith (.vclmul b x) noCheck noCheck (vclmulBody b x) s := rfl
  rw [he]
  simp [runWordWith, h, State.issueWord, hl]

theorem ofInt_natCast_add (c : W32) (z : Int) : BitVec.ofInt 32 ((c.toNat : Int) + z) = BitVec.ofInt 32 (c.toInt + z) := by
  rw [BitVec.ofInt_add, BitVec.ofInt_add, BitVec.ofInt_toInt, BitVec.ofInt_natCast, BitVec.ofNat_toNat, BitVec.setWidth_eq]

/-- R326: 24 bits of a source, extended by the type. -/
theorem ival_24 (b : Bool) (n : Nat) :
    ival (!b) 24 (n % 2 ^ 24) = let v := BitVec.ofNat 24 n; if b then (v.toNat : Int) else v.toInt := by
  have hm : BitVec.ofNat 24 (n % 2 ^ 24) = BitVec.ofNat 24 n := BitVec.eq_of_toNat_eq (by simp)
  cases b
  · exact (sg_eq_toInt (Nat.mod_lt _ (by decide)) (by decide)).trans (by rw [hm]; rfl)
  · simp [ival]

/-- Settles O4. -/
theorem logicResults : Obligations.LogicResults := by
  unfold Obligations.LogicResults
  refine ⟨fun s is t x y imm n => ?_, fun s is x b => ⟨vclmul_traps, fun h => ?_⟩⟩
  · intro w a b c
    refine ⟨logicBody_done rfl fun _ => rfl, logicBody_done rfl fun _ => rfl, logicBody_done rfl fun _ => rfl, unBody_done rfl fun _ => rfl,
      fun h => ⟨fun L => leadZeros (c L), fun L => ⟨leadZeros_le _, lt_of_leadZeros _, le_of_leadZeros _⟩, unBody_done rfl (fun L => ?clz) h⟩,
      unBody_done rfl fun L => ?popc,
      fun h => ⟨fun L => bitReverse (c L), fun L i hi => bitReverse_get _ hi, unBody_done rfl (fun L => ?brev) h⟩,
      unBody_done rfl fun L => ?addi, unBody_done rfl fun L => ?shli, unBody_done rfl fun L => rfl, unBody_done rfl fun L => ?srai,
      fun g d h => vectorDone_plain h rfl rfl ?movi (.inl rfl)⟩
    all_goals have hc : ∀ L, BitVec.ofNat 32 (is.num (useS y.a) L) = c L := fun L => by simp [c, Issue.num_narrow]
    case clz => exact congrArg leadZeros (hc L)
    case popc => rw [hc, popCount_eq_card]
    case brev => rw [hc]
    case addi => rw [low_eq, Issue.num_narrow, ofInt_natCast_add]
    case shli => simp [Issue.num_narrow, c, Nat.shiftLeft_eq]
    case srai =>
      rw [low_eq, sg_eq_toInt (w := 32) (Issue.num_lt is y.a false L) (by decide), hc]
      norm_cast
    case movi => simp only [Issue.over, low_eq]
  · intro e
    refine vectorDone_plain (rs := is.over fun L => low 32 (e x.a L * e x.b L + is.num (useDS x.d) L)) h rfl ?_ ?_ (.inl rfl)
    · show Act.next (s.putVec is (useDS x.d) _) = _
      simp only [ival_24]
      rfl
    · simp only [Issue.over, low_eq]

/-! ### Compares and predicate logic -/

theorem PredDone.congr {i : Instr} {s : State} {is : Issue} {pd : Nat} {b c : Nat → Bool} {f : W32} (h : PredDone i s is pd b f)
    (hb : ∀ L < 128, b L = c L) : PredDone i s is pd c f := by
  obtain ⟨t, ht, hl, hr⟩ := h
  exact ⟨t, ht, fun L hL => by rw [hl L hL, hb L hL], hr⟩

/-- R271: p7 reads as true. -/
theorem Warp.pred_get (w : Warp) (n : Fin 8) {L : Nat} (hL : L < 128) :
    (w.pred n.val).getLsbD L = (n = 7 || (w.pred n.val).getLsbD L : Bool) := by
  by_cases hn : n = 7
  · subst hn
    have : fullMask.getLsbD L = true := by rw [fullMask, BitVec.getLsbD_allOnes]; simp [hL]
    simp [Warp.pred, this]
  · simp [hn]

theorem predBody_done {s : State} {i : Instr} {is : Issue} {x : P3} {f : Bool → Bool → Bool}
    {b : Nat → Bool} (he : Machine.exec i s = runWord i (predBody f x) s)
    (hb : ∀ L, f (x.pa = 7 || (is.w.pred x.pa.val).getLsbD L : Bool) (x.pb = 7 || (is.w.pred x.pb.val).getLsbD L : Bool) = b L)
    (h : s.ready i = some is) : PredDone i s is x.pd.val b 0 :=
  (predDone_plain h he rfl (Nat.ne_of_lt x.pd.isLt)).congr fun L hL => by
    rw [← hb, ← Warp.pred_get _ _ hL, ← Warp.pred_get _ _ hL]

theorem Cond.holds_compare (c : Cond) (a b : Int) : Cond.holds c (compare a b) = match c with
    | .eq => decide (a = b) | .ne => decide (a ≠ b) | .lt => decide (a < b) | .le => decide (a ≤ b)
    | .gt => decide (b < a) | .ge => decide (b ≤ a) := by
  rcases lt_trichotomy a b with h | h | h
  · rw [compare_lt_iff_lt.2 h]
    cases c <;> simp [Cond.holds, h, h.le, h.ne, h.not_gt]
  · subst h
    cases c <;> simp [Cond.holds]
  · rw [compare_gt_iff_gt.2 h]
    cases c <;> simp [Cond.holds, h, h.le, h.ne', h.not_gt]

/-- Settles O5. -/
theorem predicateResults : Obligations.PredicateResults := by
  unfold Obligations.PredicateResults
  refine ⟨fun s is t c x => ?_, fun s is x => ⟨predBody_done rfl fun _ => rfl, predBody_done rfl fun _ => rfl,
    predBody_done rfl fun L => ?xor, predBody_done rfl fun _ => rfl⟩⟩
  case xor => exact congrFun (congrFun Bool.bne_eq_xor _) _
  intro rd a b h
  refine (predDone_plain h rfl rfl (Nat.ne_of_lt x.pd.isLt)).congr fun L _ => ?_
  rw [ival_eq (is.num_lt x.a t.is64 L), ival_eq (is.num_lt x.b t.is64 L)]
  exact (Cond.holds_compare c _ _).trans (by cases c <;> rfl)

end Sys2Proof.Machine
end

section
/-! Floating-point and block-scaled vector words (R294, R297, R301 to R311): what their bodies deliver. -/

namespace Sys2Proof.Machine

/-! ### Delivered results -/

section
variable {s : State} {i : Instr} {is : Issue}

/-- A word that delivers a result and flags in each issuing lane. -/
theorem deliver_lanes {body : Issue → State → Act} {u : VUse} {r : Nat → Rounded} {v : Nat → Nat} {fl : Nat → W32}
    (he : Machine.exec i s = runWord i body s) (hb : body is s = deliver s is u (is.over r)) (hn : u.n = 1 ∨ u.n = 2)
    (hv : ∀ L ∈ lanesOf is.mask, r L = (v L, fl L)) (h : s.ready i = some is) :
    VectorDone i s is u v (unionFlags ((lanesOf is.mask).map fl)) := by
  refine vectorDone_of h he (hb.trans ?_) rfl hn
  have h1 : (lanesOf is.mask).map (fun L => (L, (r L).1)) = (lanesOf is.mask).map (fun L => (L, v L)) :=
    List.map_congr_left fun L hL => by rw [hv L hL]
  have h2 : (lanesOf is.mask).map (fun L => (r L).2) = (lanesOf is.mask).map fl := List.map_congr_left fun L hL => by rw [hv L hL]
  simp only [deliver, Issue.over_map, h1, h2]

theorem deliver_values {body : Issue → State → Act} {u : VUse} {r : Nat → Rounded} {v : Nat → Nat} {fl : Nat → W32}
    (he : Machine.exec i s = runWord i body s) (hb : body is s = deliver s is u (is.over r)) (hn : u.n = 1 ∨ u.n = 2)
    (hv : ∀ L, (r L).1 = v L) (hf : ∀ L, (r L).2 = fl L) (h : s.ready i = some is) :
    VectorDone i s is u v (unionFlags ((lanesOf is.mask).map fl)) :=
  deliver_lanes he hb hn (fun L _ => Prod.ext (hv L) (hf L)) h

theorem deliver_done {body : Issue → State → Act} {u : VUse} {r r' : Nat → Rounded} (he : Machine.exec i s = runWord i body s)
    (hb : body is s = deliver s is u (is.over r)) (hn : u.n = 1 ∨ u.n = 2) (hr : ∀ L, r L = r' L) (h : s.ready i = some is) :
    VectorDone i s is u (fun L => (r' L).1) (unionFlags ((lanesOf is.mask).map (fun L => (r' L).2))) :=
  deliver_values he hb hn (fun L => congrArg Prod.fst (hr L)) (fun L => congrArg Prod.snd (hr L)) h

end

theorem useD_n (d : VOp) (wide : Bool) : (useD d wide).n = 1 ∨ (useD d wide).n = 2 := by cases wide <;> simp [useD]

/-! ### To nearest even nothing is drawn (R297) -/

theorem toGrid_rne (neg : Bool) (m : Nat) (e : Int) (sticky : Bool) (q : Int) (odd : Nat → Bool) (d : Draw) :
    toGrid .rne neg m e sticky q odd d = toGrid .rne neg m e sticky q odd {} := rfl

theorem Fmt.round_rne (f : Fmt) (x : XVal) (d : Draw) : f.round x .rne d = f.round x .rne {} := by
  cases x <;> rfl

theorem Fmt.apply_rne (f : Fmt) (op : FOp) (d : Draw) (vs : List Nat) : f.apply op .rne d vs = f.apply op .rne {} vs := by
  cases op
  case add => simp only [Fmt.apply, Fmt.fadd, Fmt.round_rne f _ d]
  case sub => simp only [Fmt.apply, Fmt.fsub, Fmt.fadd, Fmt.round_rne f _ d]
  case mul => simp only [Fmt.apply, Fmt.fmul, Fmt.round_rne f _ d]
  case fma => simp only [Fmt.apply, Fmt.ffma, Fmt.round_rne f _ d]
  case div => simp only [Fmt.apply, Fmt.fdiv, Fmt.round_rne f _ d]
  case sqrt => simp only [Fmt.apply, Fmt.fsqrt, Fmt.round_rne f _ d]

/-- Settles O7: the words run `fpBody`, and those without a rounding mode draw nothing. -/
theorem floatResults : Obligations.FloatResults := by
  unfold Obligations.FloatResults
  intro s is t x y op rm sids a b d lane flags done
  have hrne : ∀ (o : FOp) (sids : SOp) (L : Nat) (vs : List Nat),
      eachElem t (fun h es => (fmtOfTy t).apply o .rne (s.drawOf is sids L h) es) vs = lane o vs := fun o sids L vs => by
    simp only [Fmt.apply_rne _ o (s.drawOf _ _ _ _)]
    rfl
  refine ⟨deliver_done rfl rfl (useD_n ..) fun L => hrne .add _ L _, deliver_done rfl rfl (useD_n ..) fun L => hrne .sub _ L _,
    deliver_done rfl rfl (useD_n ..) fun L => hrne .mul _ L _, deliver_done rfl rfl (useD_n ..) fun L => hrne .fma _ L _,
    deliver_done rfl rfl (useD_n ..) fun L => hrne .div _ L _, deliver_done rfl rfl (useD_n ..) fun L => hrne .sqrt _ L _,
    deliver_done rfl rfl (useD_n ..) fun L => ?_⟩
  cases op <;> rfl

/-! ### Order (R302) -/

theorem snanFlag_pair (f : Fmt) (a b : Nat) : snanFlag f [a, b] = if f.isSnan a || f.isSnan b then fNV else 0 := by
  simp [snanFlag, flagIf]

theorem Fmt.fmm_eq (f : Fmt) (mx : Bool) (a b : Nat) : f.fmm mx a b =
    let nv : W32 := if f.isSnan a || f.isSnan b then fNV else 0
    if f.isNan a && f.isNan b then (f.canonNan, nv) else if f.isNan a then (b, nv) else if f.isNan b then (a, nv)
    else if (if mx then decide (f.key a < f.key b) else decide (f.key b < f.key a)) then (b, nv) else (a, nv) := by
  rw [Fmt.fmm, snanFlag_pair]
  cases mx <;> simp only [Bool.false_eq_true, if_false, if_true, decide_eq_true_eq] <;> split_ifs <;> rfl

/-- A comparison has no outcome exactly where a NaN takes part. -/
theorem XVal.cmp_eq_none (x y : XVal) : x.cmp y = none ↔ x = .nan ∨ y = .nan := by
  cases x <;> cases y <;> simp [XVal.cmp]

theorem Fmt.cmp_eq_none (f : Fmt) (a b : Nat) : (f.decode a).cmp (f.decode b) = none ↔ (f.isNan a || f.isNan b) = true := by
  simp [XVal.cmp_eq_none, Fmt.isNan]

/-- What R302's conditions ask of an outcome of the comparison. -/
theorem Fmt.fcmp_holds (f : Fmt) (c : FCond) (a b : Nat) :
    let is := fun (o : Ordering) => decide ((f.decode a).cmp (f.decode b) = some o)
    (f.fcmp c a b).1 = match c with
      | .un => f.isNan a || f.isNan b
      | .ord .eq => is .eq | .ord .ne => !is .eq | .ord .lt => is .lt | .ord .le => is .lt || is .eq
      | .ord .gt => is .gt | .ord .ge => is .gt || is .eq := by
  cases c with
  | un => rfl
  | ord k =>
    simp only [Fmt.fcmp]
    cases h : (f.decode a).cmp (f.decode b) with
    | none => cases k <;> rfl
    | some o => cases k <;> cases o <;> rfl

theorem Fmt.fcmp_flag (f : Fmt) (c : FCond) (a b : Nat) :
    (f.fcmp c a b).2 = if (match c with
      | .un | .ord .eq | .ord .ne => f.isSnan a || f.isSnan b
      | _ => f.isNan a || f.isNan b) then fNV else 0 := by
  have hf : ∀ k, (f.fcmp (.ord k) a b).2 =
      if (k != .eq && k != .ne : Bool) then flagIf (f.isNan a || f.isNan b) fNV else snanFlag f [a, b] := fun k => by
    simp only [Fmt.fcmp]
    cases (f.decode a).cmp (f.decode b) <;> rfl
  cases c with
  | un => exact snanFlag_pair f a b
  | ord k => rw [hf]; cases k <;> first | exact snanFlag_pair f a b | rfl

theorem mget_over {α : Type} (ls : List Nat) (f : Nat → α) {L : Nat} (h : L ∈ ls) : mget (ls.map (fun L => (L, f L))) L = some (f L) := by
  induction ls with
  | nil => simp at h
  | cons a ls ih =>
    rw [List.map_cons, mget]
    split
    · next e => rw [e]
    · next e => exact ih ((List.mem_cons.1 h).resolve_left (Ne.symm e))

theorem Issue.mgetD_over {α : Type} (is : Issue) (f : Nat → α) (d : α) {L : Nat} (h : L ∈ lanesOf is.mask) :
    mgetD (is.over f) L d = f L := by
  rw [Issue.over, mgetD, mget_over _ f h]
  rfl

/-- Only the issuing lanes' values count. -/
theorem PredDone.congr_lanes {i : Instr} {s : State} {is : Issue} {pd : Nat} {b c : Nat → Bool} {f : W32} (h : PredDone i s is pd b f)
    (hb : ∀ L ∈ lanesOf is.mask, b L = c L) : PredDone i s is pd c f := by
  obtain ⟨t, ht, hl, hr⟩ := h
  refine ⟨t, ht, fun L hL => ?_, hr⟩
  rw [hl L hL]
  split
  · exact hb L (lanesOf_mem.2 ⟨hL, ‹_›⟩)
  · rfl

/-- Settles O10. -/
theorem floatOrder : Obligations.FloatOrder := by
  unfold Obligations.FloatOrder
  intro s is t x y f pick r done el a b un sn cmpIs holds loud
  have hpick : ∀ mx vs, f.fmm mx (vs.getD 0 0) (vs.getD 1 0) = pick mx vs := fun mx vs => Fmt.fmm_eq f mx _ _
  refine ⟨deliver_done rfl rfl (useD_n ..) fun L => ?_, deliver_done rfl rfl (useD_n ..) fun L => ?_, fun c h => ?_⟩
  · exact congrFun (congrArg (eachElem t) (funext fun _ => funext fun vs => hpick false vs)) _
  · exact congrFun (congrArg (eachElem t) (funext fun _ => funext fun vs => hpick true vs)) _
  · have hel : ∀ o L, (if isPacked t then is.num (useS o t.is64) L % 2 ^ 16 else is.num (useS o t.is64) L) = el o L := fun o L => by
      cases t <;> rfl
    have hb : vfcmpBody t c y is s = .next ((s.writePred is y.pd.val (fun L => (mgetD (is.over fun L => f.fcmp c (a L) (b L)) L
        (false, 0)).1)).addFlags is.who (unionFlags ((lanesOf is.mask).map (fun L => (f.fcmp c (a L) (b L)).2)))) := by
      simp only [vfcmpBody, hel, Issue.over_map]
      rfl
    have hf : unionFlags ((lanesOf is.mask).map (fun L => (f.fcmp c (a L) (b L)).2)) =
        if (lanesOf is.mask).any (fun L => if loud c then un L else sn L) then fNV else 0 := by
      have : ∀ L, (f.fcmp c (a L) (b L)).2 = if (if loud c then un L else sn L) = true then fNV else 0 := fun L => by
        refine (Fmt.fcmp_flag f c _ _).trans ?_
        cases c with
        | un => rfl
        | ord k => cases k <;> rfl
      simp only [this, List.any_eq_true]
      exact unionFlags_ite _ (fun L => (if loud c then un L else sn L) = true) _
    rw [← hf]
    refine (predDone_of h rfl hb (Nat.ne_of_lt y.pd.isLt)).congr_lanes fun L hL => ?_
    rw [Issue.mgetD_over _ _ _ hL]
    refine (Fmt.fcmp_holds f c _ _).trans ?_
    cases c with
    | un => rfl
    | ord k => cases k <;> rfl

/-! ### Conversions and block-scaled words -/

theorem pow_256 (p : Nat) : 256 ^ p = 2 ^ (8 * p) := by rw [Nat.pow_mul]

theorem partOf_byte (p v : Nat) : partOf 8 p v = v / 256 ^ p % 256 := by
  rw [pow_256]
  rfl

/-- A value with byte `p` replaced, as the three parts around the byte. -/
theorem setPart_byte (p old v : Nat) :
    setPart 8 p old v = 2 ^ (8 * p) * (2 ^ 8 * (old / 2 ^ (8 * p + 8)) + v % 2 ^ 8) + old % 2 ^ (8 * p) := by
  have h1 := Nat.div_add_mod old (2 ^ (8 * p))
  have h2 := Nat.div_add_mod (old / 2 ^ (8 * p)) (2 ^ 8)
  rw [Nat.div_div_eq_div_mul, ← Nat.pow_add] at h2
  rw [show setPart 8 p old v = old - old / 2 ^ (8 * p) % 2 ^ 8 * 2 ^ (8 * p) + v % 2 ^ 8 * 2 ^ (8 * p) from rfl]
  generalize 2 ^ (8 * p) = k at *
  generalize old / 2 ^ (8 * p + 8) = hi at *
  generalize old / k % 2 ^ 8 = b at *
  generalize old % k = lo at *
  rw [← h2] at h1
  have : old = k * (2 ^ 8 * hi) + b * k + lo := by rw [← h1]; ring
  rw [this, show k * (2 ^ 8 * hi) + b * k + lo - b * k = k * (2 ^ 8 * hi) + lo by omega]
  ring

/-- R306 to R310: the byte that PSEL names takes the result. -/
theorem setPart_byte_eq (p : Fin 4) {old : Nat} (v : Nat) (h : old < 2 ^ 32) :
    setPart 8 p.val old v =
      (BitVec.ofNat 32 old &&& ~~~(BitVec.ofNat 32 (0xFF * 256 ^ p.val)) ||| BitVec.ofNat 32 (v % 256 * 256 ^ p.val)).toNat := by
  have hp := p.isLt
  refine Nat.eq_of_testBit_eq fun i => ?_
  rw [setPart_byte, Nat.testBit_two_pow_mul_add _ (Nat.mod_lt _ (Nat.two_pow_pos _)), Nat.testBit_mod_two_pow,
    Nat.testBit_two_pow_mul_add _ (Nat.mod_lt _ (Nat.two_pow_pos _)), Nat.testBit_mod_two_pow, Nat.testBit_div_two_pow, pow_256,
    BitVec.testBit_toNat, BitVec.getLsbD_or, BitVec.getLsbD_and, BitVec.getLsbD_not, BitVec.getLsbD_ofNat, BitVec.getLsbD_ofNat,
    BitVec.getLsbD_ofNat, Nat.testBit_mul_two_pow, Nat.testBit_mul_two_pow, show 255 = 2 ^ 8 - 1 from rfl, Nat.testBit_two_pow_sub_one,
    show 256 = 2 ^ 8 from rfl, Nat.testBit_mod_two_pow]
  have hhi : 32 ≤ i → old.testBit i = false := fun hi => Nat.testBit_lt_two_pow (Nat.lt_of_lt_of_le h (Nat.pow_le_pow_right (by decide) hi))
  by_cases h1 : i < 8 * p.val
  · simp [h1, Nat.not_le.2 h1, show i < 32 by omega]
  · by_cases h2 : i - 8 * p.val < 8
    · simp [h1, h2, Nat.not_lt.1 h1, show i < 32 by omega]
    · by_cases h3 : i < 32
      · simp [h1, h2, h3, show i - 8 * p.val - 8 + (8 * p.val + 8) = i by omega]
      · simp [h1, h2, h3, show i - 8 * p.val - 8 + (8 * p.val + 8) = i by omega, hhi (by omega)]

/-- Settles O11. -/
theorem convertResults : Obligations.ConvertResults := by
  unfold Obligations.ConvertResults
  intro s is k p rm sids x y m flags block a byte
  have hold : ∀ (d : VOp) L, is.num (useDS d) L < 2 ^ 32 := fun d L => (is.src (useDS d) L).isLt
  refine ⟨fun h => deliver_values rfl rfl ?_ (fun L => rfl) (fun L => rfl) h, fun h => vectorDone_plain h rfl rfl ?_ (.inl rfl),
    fun h => deliver_values rfl rfl (.inl rfl) (fun L => ?_) (fun L => ?_) h,
    fun h => deliver_values rfl rfl (.inl rfl) (fun L => ?_) (fun L => ?_) h, fun h => deliver_done rfl rfl (useD_n ..) (fun L => ?_) h⟩
  · split
    · exact .inl rfl
    · exact useD_n ..
  · simp only [Issue.over, mxmaxOf, List.map_map]
    rfl
  · exact setPart_byte_eq p _ (hold x.d L)
  · rfl
  · simp only [partOf_byte]
    exact setPart_byte_eq p _ (hold y.d L)
  · simp only [partOf_byte]
    rfl
  · simp only [partOf_byte]
    rfl

end Sys2Proof.Machine
end

section
/-! Words that move values between lanes, scalars and index registers (R312 to R320). -/

namespace Sys2Proof.Machine

/-- The lane that VSHFL reads (R313). -/
theorem shflSrc_eq (m : ShflMode) (k L : Nat) (mask : LaneMask) :
    shflSrc m k L mask =
      let r : Int := match m with
        | .idx => (k : Int) | .up => (L : Int) - k | .down => (L : Int) + k | .xor => ((L ^^^ k : Nat) : Int)
      if 0 ≤ r ∧ r ≤ 127 ∧ mask.getLsbD r.toNat = true then r.toNat else L := by
  unfold shflSrc
  cases m <;> simp [and_assoc]

theorem xgetvBody_word (d : VOp) (j : Fin 8) (is : Issue) (s : State) :
    xgetvBody d j true is s = .next (s.putVec is (useD d) (is.over (fun _ => (is.w.xreg j.val).word.toNat))) := by
  simp only [xgetvBody, if_true]

/-- Settles O12. -/
theorem laneMoves : Obligations.LaneMoves := by
  unfold Obligations.LaneMoves
  intro s is t g d o x j sd lane read
  have hread : ∀ (i : Instr), s.ready i = some is → ∀ (v : VOp) M, is.crossVal v M = (read i v M).toNat := fun i h v M => by
    obtain rfl := (State.ready_issue h).1
    rfl
  refine ⟨fun h => vectorDone_plain h rfl rfl rfl (useD_n ..), fun h => vectorDone_plain h rfl rfl rfl (.inl rfl),
    fun h => vectorDone_plain h rfl rfl rfl (.inl rfl), fun h => vectorDone_plain h rfl rfl rfl (.inl rfl),
    fun h => vectorDone_plain h rfl (xgetvBody_word ..) rfl (.inl rfl), fun m h => ?_, fun h => ?_⟩
  · intro k from_
    refine vectorDone_plain h rfl rfl ?_ (.inl rfl)
    refine List.map_congr_left fun L _ => ?_
    have hs : shflSrc m (is.num (useS x.b) L % 128) L is.mask = from_ L := 
      (shflSrc_eq m _ L is.mask).trans (by cases m <;> rfl)
    simp only [hs, hread _ h]
  · refine scalarDone_of h rfl ?_
    have hv : BitVec.ofNat 64 (is.crossVal d lane.val) = (read (.vreadl g sd d lane) d lane.val).setWidth 64 := by
      rw [hread _ h, BitVec.ofNat_toNat]
    rw [← hv]
    rfl

/-! ### Segments (R316) -/

/-- The groups are not empty; their first lanes but that of the first group are heads, and no other lanes are. -/
structure Segmented (heads : Nat → Bool) (segs : List (List Nat)) : Prop where
  inner : ∀ g ∈ segs, ∃ a r, g = a :: r ∧ ∀ b ∈ r, heads b = false
  starts : ∀ g ∈ segs.tail, ∃ a r, g = a :: r ∧ heads a = true

theorem segments_flatten (heads : Nat → Bool) (ls : List Nat) : (segments heads ls).flatten = ls := by
  induction ls with
  | nil => rfl
  | cons L Ls ih =>
    rw [segments]
    split
    · next h => rw [h] at ih; simpa using ih
    · next g gs h =>
      rw [h] at ih
      split <;> simpa using ih

theorem segments_segmented (heads : Nat → Bool) (ls : List Nat) : Segmented heads (segments heads ls) := by
  induction ls with
  | nil => exact ⟨by simp [segments], by simp [segments]⟩
  | cons L Ls ih =>
    rw [segments]
    split
    · exact ⟨by simp, by simp⟩
    · next g gs h =>
      rw [h] at ih
      obtain ⟨a, r, rfl, hr⟩ := ih.inner g List.mem_cons_self
      split
      · next ha =>
        refine ⟨List.forall_mem_cons.2 ⟨⟨L, [], rfl, by simp⟩, ih.inner⟩, List.forall_mem_cons.2 ⟨⟨a, r, rfl, ha⟩, ih.starts⟩⟩
      · next ha =>
        refine ⟨List.forall_mem_cons.2 ⟨⟨L, a :: r, rfl, List.forall_mem_cons.2 ⟨by simpa using ha, hr⟩⟩, fun g hg => ?_⟩, ih.starts⟩
        exact ih.inner g (List.mem_cons_of_mem _ hg)

/-- No head lies above one of two lanes and not above the other. -/
def sameSegment (heads : Nat → Bool) (ls : List Nat) (L M : Nat) : Bool :=
  ls.all (fun K => decide (¬(min L M < K ∧ K ≤ max L M ∧ heads K = true)))

theorem sameSegment_iff {heads : Nat → Bool} {ls : List Nat} {L M : Nat} :
    sameSegment heads ls L M = true ↔ ∀ K ∈ ls, min L M < K → K ≤ max L M → heads K = false := by
  simp only [sameSegment, List.all_eq_true, decide_eq_true_eq, not_and, Bool.not_eq_true]

/-- Of ascending lanes, the segment of a lane is the group that holds it. -/
theorem filter_sameSegment {heads : Nat → Bool} {P Q : List (List Nat)} {g : List Nat} (hs : Segmented heads (P ++ g :: Q))
    (hp : (P ++ g :: Q).flatten.Pairwise (· < ·)) {L : Nat} (hL : L ∈ g) :
    (P ++ g :: Q).flatten.filter (sameSegment heads (P ++ g :: Q).flatten L) = g := by
  obtain ⟨a, r, rfl, hr⟩ := hs.inner g (by simp)
  simp only [List.flatten_append, List.flatten_cons, List.filter_append] at hp ⊢
  rw [List.pairwise_append] at hp
  obtain ⟨-, hp, hA⟩ := hp
  rw [List.pairwise_append] at hp
  obtain ⟨hg, hQ, hB⟩ := hp
  have ha : ∀ b ∈ r, a < b := (List.pairwise_cons.1 hg).1
  have haL : a ≤ L := by rcases List.mem_cons.1 hL with rfl | h; exacts [le_rfl, (ha L h).le]
  have h1 : P.flatten.filter (sameSegment heads (P.flatten ++ (a :: r ++ Q.flatten)) L) = [] := by
    rw [List.filter_eq_nil_iff]
    intro M hM
    have hst : heads a = true := by
      cases P with
      | nil => simp at hM
      | cons p P =>
        obtain ⟨b, q, h, hb⟩ := hs.starts (a :: r) (by simp)
        cases h
        exact hb
    have hMa : M < a := hA M hM a (by simp)
    rw [sameSegment_iff]
    intro h
    rw [h a (by simp) (by omega) (by omega)] at hst
    cases hst
  have h2 : (a :: r).filter (sameSegment heads (P.flatten ++ (a :: r ++ Q.flatten)) L) = a :: r := by
    rw [List.filter_eq_self]
    intro M hM
    rw [sameSegment_iff]
    intro K hK h1 h2
    have haM : a ≤ M := by rcases List.mem_cons.1 hM with rfl | h; exacts [le_rfl, (ha M h).le]
    rcases List.mem_append.1 hK with h | h
    · have := hA K h a (by simp); omega
    · rcases List.mem_append.1 h with h | h
      · rcases List.mem_cons.1 h with rfl | h
        · omega
        · exact hr K h
      · have h3 := hB L hL K h
        have h4 := hB M hM K h
        omega
  have h3 : Q.flatten.filter (sameSegment heads (P.flatten ++ (a :: r ++ Q.flatten)) L) = [] := by
    rw [List.filter_eq_nil_iff]
    intro M hM
    cases Q with
    | nil => simp at hM
    | cons q Q =>
      obtain ⟨b, t, rfl, hb⟩ := hs.starts q (by cases P <;> simp)
      have hLb : L < b := hB L hL b (by simp)
      have hbM : b ≤ M := by
        have hq := hQ
        rw [List.flatten_cons, List.cons_append, List.pairwise_cons] at hq
        rw [List.flatten_cons, List.cons_append] at hM
        rcases List.mem_cons.1 hM with rfl | h
        exacts [le_rfl, (hq.1 M h).le]
      rw [sameSegment_iff]
      intro h
      rw [h b (by simp) (by omega) (by omega)] at hb
      cases hb
  rw [h1, h2, h3]
  simp

/-- Results given group by group are results given lane by lane, each from the lane's segment. -/
theorem flatMap_segments {α : Type} {heads : Nat → Bool} {ls : List Nat} (hp : ls.Pairwise (· < ·)) (f : List Nat → SMap α)
    (r : List Nat → Nat → α) (hf : ∀ g ∈ segments heads ls, f g = g.map (fun L => (L, r g L))) :
    (segments heads ls).flatMap f = ls.map (fun L => (L, r (ls.filter (sameSegment heads ls L)) L)) := by
  have hs := segments_segmented heads ls
  have he := segments_flatten heads ls
  have hg : ∀ g ∈ segments heads ls, f g = g.map (fun L => (L, r (ls.filter (sameSegment heads ls L)) L)) := fun g hg => by
    obtain ⟨P, Q, h⟩ := List.append_of_mem hg
    rw [hf g hg]
    refine List.map_congr_left fun L hL => ?_
    rw [h] at hs he
    have := filter_sameSegment hs (he ▸ hp) hL
    rw [he] at this
    rw [this]
  calc (segments heads ls).flatMap f
      = (segments heads ls).flatMap (fun g => g.map (fun L => (L, r (ls.filter (sameSegment heads ls L)) L))) := List.flatMap_congr hg
    _ = (segments heads ls).flatten.map (fun L => (L, r (ls.filter (sameSegment heads ls L)) L)) := by
      rw [List.map_flatten, List.flatMap_def]
    _ = ls.map (fun L => (L, r (ls.filter (sameSegment heads ls L)) L)) := by rw [he]

/-- Lane L's running value counts lane M. -/
def scanTakes (exc : Bool) (L M : Nat) : Bool := if exc then decide (M < L) else decide (M ≤ L)

theorem scanTakes_self (exc : Bool) (L : Nat) : scanTakes exc L L = !exc := by cases exc <;> simp [scanTakes]

theorem scanTakes_below (exc : Bool) {L M : Nat} (h : M < L) : scanTakes exc L M = true := by
  cases exc <;> simp [scanTakes, h, h.le]

theorem scanTakes_above (exc : Bool) {L M : Nat} (h : L < M) : scanTakes exc L M = false := by
  cases exc <;> simp [scanTakes, h, h.le]

/-- The running values of ascending lanes, each over the lanes up to it or below it. -/
theorem scanFrom_eq (o : RedOpr) (t : RedTy) (exc : Bool) (vals : Nat → Nat) (acc : Rounded) (ls : List Nat)
    (hp : ls.Pairwise (· < ·)) : scanFrom o t exc vals acc ls = ls.map (fun L => (L, ((ls.filter (scanTakes exc L)).map vals).foldl
        (fun acc x => let r := combine o t acc.1 x; (r.1, acc.2 ||| r.2)) acc)) := by
  induction ls generalizing acc with
  | nil => rfl
  | cons L Ls ih =>
    obtain ⟨h1, h2⟩ := List.pairwise_cons.1 hp
    have hhead : Ls.filter (scanTakes exc L) = [] := by
      rw [List.filter_eq_nil_iff]
      intro M hM
      simp [scanTakes_above exc (h1 M hM)]
    rw [scanFrom, ih _ h2, List.map_cons]
    refine congrArg₂ _ ?_ (List.map_congr_left fun M hM => ?_)
    · cases exc <;> simp [hhead, scanTakes_self]
    · rw [List.filter_cons_of_pos (scanTakes_below exc (h1 M hM))]
      rfl

theorem lanesOf_sorted (m : LaneMask) : (lanesOf m).Pairwise (· < ·) := by
  unfold lanesOf
  split
  · exact List.Pairwise.nil
  · exact List.Pairwise.filter _ List.pairwise_lt_range

/-- Settles O13. -/
theorem reduceAndScan : Obligations.ReduceAndScan := by
  unfold Obligations.ReduceAndScan
  intro s is o t segp exc x head segment vals flags
  have hseg : ∀ L, (lanesOf is.mask).filter (sameSegment (fun L => segp != 7 && (is.w.pred segp.val).getLsbD L) (lanesOf is.mask) L) =
      segment L := fun L => by
    refine List.filter_congr fun M _ => ?_
    simp [sameSegment, head]
  have hlist : ∀ {α : Type} (f : List Nat → SMap α) (r : List Nat → Nat → α), (∀ g ∈ is.segmentsOf segp, f g = g.map (fun L => (L, r g L))) →
      (is.segmentsOf segp).flatMap f = is.over (fun L => r (segment L) L) := fun f r hf => by
    refine (flatMap_segments (lanesOf_sorted is.mask) f r hf).trans ?_
    simp only [hseg]
    rfl
  have hin : ∀ g ∈ is.segmentsOf segp, g.Pairwise (· < ·) := fun g hg =>
    (lanesOf_sorted is.mask).sublist (segments_flatten _ (lanesOf is.mask) ▸ List.sublist_flatten_of_mem hg)
  have hown : ∀ L ∈ lanesOf is.mask, L ∈ segment L := fun L hL => by simp [segment, hL]; omega
  refine ⟨fun h => ?_, fun h => ?_⟩
  · refine deliver_lanes rfl (congrArg (deliver s is (useD x.d t.is64)) (hlist _ (fun g _ => vredSeg o t vals g) fun g _ => rfl)) (useD_n ..)
      (fun L hL => ?_) h
    dsimp only [vredSeg]
    split
    · rfl
    · have hne := hown L hL
      generalize segment L = g at hne
      cases g with
      | nil => cases hne
      | cons m g => rfl
  · refine deliver_done rfl (congrArg (deliver s is (useD x.d t.is64)) (hlist _ (fun g L => combineAll o t (redIdentity o t)
      ((g.filter (scanTakes exc L)).map vals)) fun g hg => ?_)) (useD_n ..) (fun L => rfl) h
    exact scanFrom_eq o t exc vals _ g (hin g hg)

end Sys2Proof.Machine
end

section
/-! VBALLOT and VMERGE (R313, R317), and what a word leaves whose body changes its warp alone. -/

namespace Sys2Proof.Machine

/-! ### Words whose body changes the issuing warp -/

/-- A word has changed its warp by `f` and ended: outside a chained group its flags and index registers are those of `f`, moved
by the operands named. -/
structure WarpDone (s t : State) (is : Issue) (f : Warp → Warp) : Prop where
  sregs : (t.warp is.who).s = (f (s.warp is.who)).s
  preds : (t.warp is.who).p = (f (s.warp is.who)).p
  blocks : (t.warp is.who).blocks = (f (s.warp is.who)).blocks
  core : (t.warp is.who).core = (f (s.warp is.who)).core
  alone : s.alone = true → (t.warp is.who).arstat = (f (s.warp is.who)).arstat ∧
    (t.warp is.who).x = (applyDeltas (f (s.warp is.who)) (xDeltas is.w (vuses is.i) is.mask)).x ∧ t.mops = s.mops ∧ t.eops = s.eops
  frame : WordFrame s t is.who

theorem warpDone_of {s : State} {i : Instr} {is : Issue} {pre align : Issue → State → Option (Cause × Info)}
    {body : Issue → State → Act} {f : Warp → Warp} (h : s.readyWith i pre align = some is)
    (he : Machine.exec i s = runWordWith i pre align body s) (hb : body is s = .next (s.modWarp is.who f)) :
    ∃ t, Machine.exec i s = .next t ∧ WarpDone s t is f := by
  have hc : ∀ c, (s.modWarp is.who f).cur = some c → c.who = is.who := (State.ready_issue h).2
  have e := State.finish_end (s.modWarp is.who f) is hc
  have hw : (s.modWarp is.who f).warp is.who = f (s.warp is.who) := State.warp_modWarp ..
  obtain ⟨f1, f2, f3, f4⟩ := e.fields
  rw [hw] at f1 f2 f3 f4
  refine ⟨(s.modWarp is.who f).finish is, ?_, f1, f2, f3, f4, fun ha => ?_, (WordFrame.modWarp s is.who f).trans e.frame⟩
  · rw [he, runWordWith_ready body h]
    simp [State.runBody, hb]
  · obtain ⟨h1, h2⟩ := e.alone ha
    obtain ⟨h3, h4⟩ := e.ops ha
    rw [hw] at h1 h2
    exact ⟨h1, h2, h3, h4⟩

/-- A word with checks of its own that has passed them is ready without them, too. -/
theorem ready_of_readyWith {s : State} {i : Instr} {pre : Issue → State → Option (Cause × Info)} {is : Issue}
    (h : s.readyWith i pre noCheck = some is) : s.ready i = some is := by
  obtain ⟨h0, h1, -, h3, h4, h5⟩ := State.readyWith_eq h
  simp [State.ready, State.readyWith, h0, h1, h3, h4, h5, noCheck]

/-! ### VMERGE -/

/-- The sign bit of a value that has none. -/
theorem xor_two_pow {k v : Nat} (h : v < 2 ^ k) : v ^^^ 2 ^ k = 2 ^ k + v := by
  refine Nat.eq_of_testBit_eq fun i => ?_
  have hs := Nat.testBit_two_pow_mul_add 1 h i
  rw [Nat.mul_one] at hs
  rw [hs, Nat.testBit_xor, Nat.testBit_two_pow]
  rcases Nat.lt_trichotomy i k with hi | rfl | hi
  · simp [hi, hi.ne']
  · simp [Nat.testBit_lt_two_pow h]
  · have h0 : v.testBit i = false := Nat.testBit_lt_two_pow (Nat.lt_trans h (Nat.pow_lt_pow_right (by decide) hi))
    have h1 : (1 : Nat).testBit (i - k) = false := Nat.testBit_lt_two_pow (Nat.one_lt_two_pow (by omega))
    simp [hi.not_gt, hi.ne, h0, h1]

theorem mergeKey_eq (t : MergeTy) {v : Nat} (h : v < 2 ^ 32) :
    mergeKey t v = match t with
      | .n32 => (v : Int)
      | .i32 => (BitVec.ofNat 32 v).toInt
      | .f32 => if v < 2 ^ 31 then (v + 2 ^ 31 : Int) else (2 ^ 32 - 1 - v : Int) := by
  cases t with
  | n32 => rfl
  | i32 => exact sg_eq_toInt h (by decide)
  | f32 =>
    have hv : (BitVec.ofNat 32 v).toNat = v := by rw [BitVec.toNat_ofNat, Nat.mod_eq_of_lt h]
    have hall : v ^^^ 0xFFFFFFFF = 2 ^ 32 - 1 - v := by
      have := congrArg BitVec.toNat (BitVec.xor_allOnes (x := BitVec.ofNat 32 v))
      rw [BitVec.toNat_xor, BitVec.toNat_allOnes, BitVec.toNat_not, hv] at this
      exact this
    have hadd : v < 2 ^ 31 → v ^^^ 0x80000000 = 2 ^ 31 + v := xor_two_pow
    simp only [mergeKey]
    by_cases hlt : v < 2 ^ 31
    · rw [if_pos hlt, if_neg (by omega), hadd hlt]
      omega
    · rw [if_neg hlt, if_pos (by omega), hall]
      omega

theorem mergeLists_length (n : Nat) (as bs : List (Int × Nat × Nat)) (h : as.length + bs.length ≤ n) :
    (mergeLists n as bs).length = as.length + bs.length := by
  induction n generalizing as bs with
  | zero =>
    have : as = [] ∧ bs = [] := by constructor <;> apply List.length_eq_zero_iff.1 <;> omega
    obtain ⟨rfl, rfl⟩ := this
    rfl
  | succ n ih =>
    cases as with
    | nil => simp [mergeLists]
    | cons a as =>
      cases bs with
      | nil => simp [mergeLists]
      | cons b bs =>
        simp only [List.length_cons] at h
        simp only [mergeLists]
        split
        · rw [List.length_cons, ih _ _ (by simp only [List.length_cons]; omega)]
          simp only [List.length_cons]; omega
        · rw [List.length_cons, ih _ _ (by simp only [List.length_cons]; omega)]
          simp only [List.length_cons]; omega

theorem mem_of_mem_mergeLists (n : Nat) (as bs : List (Int × Nat × Nat)) {e : Int × Nat × Nat} (h : e ∈ mergeLists n as bs) :
    e ∈ as ∨ e ∈ bs := by
  induction n generalizing as bs with
  | zero => simp [mergeLists] at h
  | succ n ih =>
    cases as with
    | nil => exact .inr (by simpa [mergeLists] using h)
    | cons a as =>
      cases bs with
      | nil => exact .inl (by simpa [mergeLists] using h)
      | cons b bs =>
        simp only [mergeLists] at h
        split at h
        · rcases List.mem_cons.1 h with rfl | h
          · exact .inr List.mem_cons_self
          · exact (ih _ _ h).imp_right (List.mem_cons_of_mem _)
        · rcases List.mem_cons.1 h with rfl | h
          · exact .inl List.mem_cons_self
          · exact (ih _ _ h).imp_left (List.mem_cons_of_mem _)

/-- A list numbered from 0, as results by lane. -/
theorem mem_numbered {l : List Nat} {e : Nat × Nat} : e ∈ l.zipIdx.map (fun e => (e.2, e.1)) ↔ l[e.1]? = some e.2 := by
  simp only [List.mem_map, Prod.exists, List.mem_zipIdx_iff_getElem?]
  constructor
  · rintro ⟨a, b, h, rfl⟩
    exact h
  · intro h
    exact ⟨e.2, e.1, h, rfl⟩

theorem numbered_keys (l : List Nat) : (l.zipIdx.map (fun e => (e.2, e.1))).map Prod.fst = List.range l.length := by
  rw [List.map_map]
  exact (List.zipIdx_map_snd 0 l).trans List.range_eq_range'.symm

section
variable (w : Warp) (r : Nat → Nat) (n : Nat) (rs : SMap Nat)

theorem Warp.s_putAll : (w.putAll r n rs).s = w.s := by
  have := congrArg Warp.s (Warp.putAll_noblocks w r n rs)
  exact this

theorem Warp.p_putAll : (w.putAll r n rs).p = w.p := by
  have := congrArg Warp.p (Warp.putAll_noblocks w r n rs)
  exact this

theorem Warp.core_putAll : (w.putAll r n rs).core = w.core := by
  have := congrArg Warp.core (Warp.putAll_noblocks w r n rs)
  exact this

end

/-- The results that VMERGE has for one of its destinations. -/
def mergeResults (org : Bool) (l : List (Int × Nat × Nat)) : SMap Nat :=
  (l.map (fun e => if org then e.2.2 else e.2.1)).zipIdx.map (fun e => (e.2, e.1))

/-- The elements of one side of VMERGE, those of `o` numbered from `n`. -/
def mergeSide (t : MergeTy) (is : Issue) (o : VOp) (n : Nat) : List (Int × Nat × Nat) :=
  (List.range 128).map (fun L => (mergeKey t (is.num (useS o) L), is.num (useS o) L, n + L))

def mergeOut (t : MergeTy) (is : Issue) (x : V3) : List (Int × Nat × Nat) := mergeLists 256 (mergeSide t is x.a 0) (mergeSide t is x.b 128)

theorem vmergeBody_warp {s : State} {is : Issue} {t : MergeTy} {dh : VOp} {org : Bool} {x : V3} (h : is.mask = fullMask) :
    (match partMask is s with
      | some (c, info) => Act.trap c info
      | none => vmergeBody t dh org x is s) = .next (s.modWarp is.who (fun w =>
        (w.putAll (fun L => regOf is.w (vuses is.i) (useD x.d) L) 1 (mergeResults org ((mergeOut t is x).take 128))).putAll
          (fun L => regOf is.w (vuses is.i) (useD dh) L) 1 (mergeResults org ((mergeOut t is x).drop 128)))) := by
  have hp : partMask is s = none := if_pos h
  rw [hp]
  refine congrArg Act.next ?_
  simp only [State.putVec_eq, State.modWarp, State.setWarp, State.warp, mgetD_mset_same, mset_mset]
  rfl

theorem mergeOut_length (t : MergeTy) (is : Issue) (x : V3) : (mergeOut t is x).length = 256 := by
  simp [mergeOut, mergeLists_length, mergeSide]

theorem mergeOut_lt {t : MergeTy} {is : Issue} {x : V3} {e : Int × Nat × Nat} (h : e ∈ mergeOut t is x) (org : Bool) :
    (if org then e.2.2 else e.2.1) < 2 ^ 32 := by
  have hside : ∀ o n, n ≤ 128 → e ∈ mergeSide t is o n → (if org then e.2.2 else e.2.1) < 2 ^ 32 := fun o n hn he => by
    obtain ⟨L, hL, rfl⟩ := List.mem_map.1 he
    have := List.mem_range.1 hL
    cases org
    · exact Issue.num_lt is o false L
    · simp only [if_true]; omega
  rcases mem_of_mem_mergeLists _ _ _ h with h | h
  · exact hside _ _ (by decide) h
  · exact hside _ _ (by decide) h

/-- What a list of 128 merged elements leaves in the registers of its destination. -/
theorem putAll_mergeResults (w : Warp) (r : Nat → Nat) (org : Bool) {l : List (Int × Nat × Nat)} (hl : l.length = 128)
    (hlt : ∀ e ∈ l, (if org then e.2.2 else e.2.1) < 2 ^ 32) {L : Nat} (hL : L < 128) :
    some (((w.putAll r 1 (mergeResults org l)).reg (r L) L).val.toNat) = (l[L]?).map (fun e => if org then e.2.2 else e.2.1) := by
  have hk : (mergeResults org l).map Prod.fst = List.range 128 := by rw [mergeResults, numbered_keys, List.length_map, hl]
  have hget : l[L]? = some l[L] := List.getElem?_eq_getElem _
  have hm : (L, if org then l[L].2.2 else l[L].2.1) ∈ mergeResults org l := by
    rw [mergeResults, mem_numbered, List.getElem?_map, hget]
    rfl
  have hh := Warp.putAll_holds w r 1 (mergeResults org l)
    (fun e he => List.mem_range.1 (hk ▸ List.mem_map_of_mem he)) (hk ▸ List.nodup_range) L _ hm
  rw [hh.1, hget]
  simpa using hlt _ (List.getElem_mem (by omega : L < l.length))

/-- Settles O14: both words change their warp alone; VMERGE's second destination is written over its first. -/
theorem ballotAndMerge : Obligations.BallotAndMerge := by
  unfold Obligations.BallotAndMerge
  intro s is g sd p t dh org x
  refine ⟨fun h => ?_, fun h => ?_⟩
  · obtain ⟨u, hu, d⟩ := warpDone_of (f := fun w => (w.setS sd.val ((is.mask &&& is.w.pred p.val).extractLsb' 0 64)).setS (sd.val + 1)
      ((is.mask &&& is.w.pred p.val).extractLsb' 64 64)) h rfl (by
        simp [vballotBody, State.writeS, State.modWarp, State.setWarp, State.warp])
    have hs : ∀ n, (u.warp is.who).sreg n = (((s.warp is.who).setS sd.val ((is.mask &&& is.w.pred p.val).extractLsb' 0 64)).setS
        (sd.val + 1) ((is.mask &&& is.w.pred p.val).extractLsb' 64 64)).sreg n := fun n => congrArg (fun m => mgetD m n 0) d.sregs
    refine ⟨u, hu, ?_, ?_, fun n h1 h2 => ?_, d.preds, d.blocks, d.core, d.frame⟩
    · rw [hs, Warp.sreg_setS_other _ _ (by omega), Warp.sreg_setS]
    · rw [hs, Warp.sreg_setS]
    · rw [hs, Warp.sreg_setS_other _ _ h2, Warp.sreg_setS_other _ _ h1]
  · intro i key side out word dr
    have hmask : is.mask = fullMask := by
      have := (State.readyWith_eq h).2.2.1
      simp only [partMask] at this
      by_contra hne
      rw [if_neg hne] at this
      cases this
    have hi : is.i = i := (State.ready_issue h).1
    obtain ⟨u, hu, d⟩ := warpDone_of (ready_of_readyWith h) rfl (vmergeBody_warp (t := t) (dh := dh) (org := org) (x := x) (s := s) hmask)
    rw [hi] at d
    have hside : ∀ o n, side o n = mergeSide t is o n := fun o n => List.map_congr_left fun L _ => by
      have hk := mergeKey_eq t (Issue.num_lt is o false L)
      simp only [Issue.num_narrow] at hk ⊢
      rw [hk]
      rfl
    have hout : out = mergeOut t is x := by simp only [out, mergeOut, hside]
    have hlen := mergeOut_length t is x
    have htake : ((mergeOut t is x).take 128).length = 128 := by simp [hlen]
    have hdrop : ((mergeOut t is x).drop 128).length = 128 := by simp [hlen]
    have hreg : ∀ r L, (u.warp is.who).reg r L = (((s.warp is.who).putAll (dr x.d) 1 (mergeResults org ((mergeOut t is x).take 128))).putAll
        (dr dh) 1 (mergeResults org ((mergeOut t is x).drop 128))).reg r L := fun r L => by
      simp only [Warp.reg, Warp.block, d.blocks]
      rfl
    have hkeys : ∀ l : List (Int × Nat × Nat), l.length = 128 → ∀ e ∈ mergeResults org l, e.1 < 128 := fun l hl e he => by
      have := List.mem_map_of_mem (f := Prod.fst) he
      rw [mergeResults, numbered_keys, List.length_map, hl] at this
      exact List.mem_range.1 this
    refine ⟨u, hu, fun L hL => ?_, fun L hL hne => ?_, fun r L hL h1 h2 => ?_, ?_, ?_, ?_, d.frame⟩
    · rw [hreg, putAll_mergeResults _ _ org hdrop (fun e he => mergeOut_lt (List.mem_of_mem_drop he) org) hL, List.getElem?_drop, ← hout]
    · rw [hreg, Warp.putAll_other _ _ _ _ _ _ hL (hkeys _ hdrop) (fun e _ _ => ⟨hne, by simp⟩),
        putAll_mergeResults _ _ org htake (fun e he => mergeOut_lt (List.mem_of_mem_take he) org) hL, List.getElem?_take_of_lt hL, ← hout]
    · rw [hreg, Warp.putAll_other _ _ _ _ _ _ hL (hkeys _ hdrop) (fun e _ _ => ⟨h2, by simp⟩),
        Warp.putAll_other _ _ _ _ _ _ hL (hkeys _ htake) (fun e _ _ => ⟨h1, by simp⟩)]
    · rw [d.sregs, Warp.s_putAll, Warp.s_putAll]
    · rw [d.preds, Warp.p_putAll, Warp.p_putAll]
    · rw [d.core, Warp.core_putAll, Warp.core_putAll]

end Sys2Proof.Machine
end

section
/-! Index registers (R319 to R322). -/

namespace Sys2Proof.Machine

/-! ### One index -/

theorem IdxReg.index_setIndex (x : IdxReg) (M v L : Nat) : (x.setIndex M v).index L = if L = M then v % 65536 else x.index L := by
  unfold IdxReg.index IdxReg.setIndex
  split
  · next h => subst h; simp
  · next h => rw [mgetD_mset_other _ _ _ h]

/-- R322: the index of a lane after a change of `d`. -/
def IdxReg.moved (x : IdxReg) (L : Nat) (d : Int) : Nat :=
  if d ≠ 0 ∨ x.mode = .ring then
    (if x.mode = .ring then (((x.index L : Int) + d) % (max 1 x.bound : Nat)).toNat % 65536 else (((x.index L : Int) + d) % 65536).toNat)
  else x.index L

/-- One change of `applyDeltas`. -/
def Warp.applyDelta (w : Warp) (e : Nat × Int) : Warp := applyDeltas w [e]

theorem applyDeltas_cons (w : Warp) (e : Nat × Int) (ds : SMap Int) : applyDeltas w (e :: ds) = applyDeltas (w.applyDelta e) ds := rfl

theorem applyDelta_eq (w : Warp) (e : Nat × Int) : w.applyDelta e =
    if e.2 = 0 ∧ (w.xreg (e.1 / 128)).mode ≠ .ring then w
    else w.setX (e.1 / 128) ((w.xreg (e.1 / 128)).setIndex (e.1 % 128) ((w.xreg (e.1 / 128)).moved (e.1 % 128) e.2)) := by
  simp only [Warp.applyDelta, applyDeltas, List.foldl_cons, List.foldl_nil, IdxReg.moved]
  have hmod : ∀ (x : IdxReg) (L n : Nat), x.setIndex L (n % 65536) = x.setIndex L n := fun x L n => by
    have : BitVec.ofNat 16 (n % 65536) = BitVec.ofNat 16 n := BitVec.eq_of_toNat_eq (by simp)
    simp only [IdxReg.setIndex, this]
  by_cases hm : (w.xreg (e.1 / 128)).mode = .ring
  · simp [hm, hmod]
  · by_cases hd : e.2 = 0 <;> simp [hd, hm]

/-- A change keeps the uniform fields of every index register, and the indexes of other lanes. -/
theorem applyDelta_fields (w : Warp) (e : Nat × Int) (j : Nat) :
    ((w.applyDelta e).xreg j).mode = (w.xreg j).mode ∧ ((w.applyDelta e).xreg j).bound = (w.xreg j).bound := by
  rw [applyDelta_eq]
  split
  · exact ⟨rfl, rfl⟩
  · by_cases h : j = e.1 / 128
    · subst h
      simp [IdxReg.setIndex]
    · simp [Warp.xreg_setX_other _ _ h]

theorem applyDelta_index (w : Warp) (e : Nat × Int) {j L : Nat} (hL : L < 128) :
    ((w.applyDelta e).xreg j).index L = if e.1 = 128 * j + L then (w.xreg j).moved L e.2 else (w.xreg j).index L := by
  rw [applyDelta_eq]
  by_cases hk : e.1 = 128 * j + L
  · have h1 : e.1 / 128 = j := by omega
    have h2 : e.1 % 128 = L := by omega
    rw [h1, h2, if_pos hk]
    split
    · next h => simp [IdxReg.moved, h.1, h.2]
    · have hlt : (w.xreg j).moved L e.2 < 65536 := by
        unfold IdxReg.moved
        split
        · split <;> omega
        · exact (mgetD (w.xreg j).idx L 0).isLt
      rw [Warp.xreg_setX, IdxReg.index_setIndex, if_pos rfl, Nat.mod_eq_of_lt hlt]
  · rw [if_neg hk]
    split
    · rfl
    · by_cases hj : j = e.1 / 128
      · subst hj
        rw [Warp.xreg_setX, IdxReg.index_setIndex, if_neg (by omega)]
      · rw [Warp.xreg_setX_other _ _ hj]

theorem IdxReg.moved_congr {x y : IdxReg} (L : Nat) (d : Int) (hm : x.mode = y.mode) (hb : x.bound = y.bound)
    (hi : x.index L = y.index L) : x.moved L d = y.moved L d := by
  simp only [IdxReg.moved, hm, hb, hi]

/-! ### The changes of a word -/

theorem applyDeltas_fields (w : Warp) (ds : SMap Int) (j : Nat) :
    ((applyDeltas w ds).xreg j).mode = (w.xreg j).mode ∧ ((applyDeltas w ds).xreg j).bound = (w.xreg j).bound := by
  induction ds generalizing w with
  | nil => exact ⟨rfl, rfl⟩
  | cons e ds ih =>
    obtain ⟨h1, h2⟩ := applyDelta_fields w e j
    rw [applyDeltas_cons]
    exact ⟨(ih _).1.trans h1, (ih _).2.trans h2⟩

theorem applyDeltas_index_other (w : Warp) (ds : SMap Int) {j L : Nat} (hL : L < 128) (h : ∀ e ∈ ds, e.1 ≠ 128 * j + L) :
    ((applyDeltas w ds).xreg j).index L = (w.xreg j).index L := by
  induction ds generalizing w with
  | nil => rfl
  | cons e ds ih =>
    rw [applyDeltas_cons, ih _ fun e he => h e (List.mem_cons_of_mem _ he), applyDelta_index w e hL, if_neg (h e List.mem_cons_self)]

/-- Of changes listed once for each lane of each register, an index takes its own. -/
theorem applyDeltas_index (w : Warp) (ds : SMap Int) (hd : (ds.map Prod.fst).Nodup) {j L : Nat} (hL : L < 128) {d : Int}
    (h : (128 * j + L, d) ∈ ds) : ((applyDeltas w ds).xreg j).index L = (w.xreg j).moved L d := by
  induction ds generalizing w with
  | nil => cases h
  | cons e ds ih =>
    rw [List.map_cons, List.nodup_cons] at hd
    rw [applyDeltas_cons]
    rcases List.mem_cons.1 h with rfl | h
    · rw [applyDeltas_index_other _ _ hL, applyDelta_index w _ hL, if_pos rfl]
      exact fun e he hk => hd.1 (List.mem_map.2 ⟨e, he, hk⟩)
    · have hk : e.1 ≠ 128 * j + L := fun hk => hd.1 (List.mem_map.2 ⟨_, h, hk.symm⟩)
      obtain ⟨h1, h2⟩ := applyDelta_fields w e j
      rw [ih _ hd.2 h]
      exact IdxReg.moved_congr L d h1 h2 (by rw [applyDelta_index w e hL, if_neg hk])

theorem mem_xDeltas {w : Warp} {us : List VUse} {m : LaneMask} {j : Fin 8} {L : Nat} (hL : L < 128) {d : Int} :
    (128 * j.val + L, d) ∈ xDeltas w us m ↔ namesX us j = true ∧ L ∈ lanesOf m ∧ d = xDelta (w.xreg j.val) us j := by
  simp only [xDeltas, List.mem_flatMap, List.mem_finRange, true_and]
  constructor
  · rintro ⟨k, hk⟩
    split at hk
    · next hn =>
      obtain ⟨M, hM, he⟩ := List.mem_map.1 hk
      have hM' := (lanesOf_mem.1 hM).1
      simp only [Prod.mk.injEq] at he
      have hjk : k = j := Fin.ext (by omega)
      subst hjk
      have hLM : M = L := by omega
      subst hLM
      exact ⟨hn, hM, he.2.symm⟩
    · cases hk
  · rintro ⟨hn, hL, rfl⟩
    exact ⟨j, by rw [if_pos hn]; exact List.mem_map.2 ⟨L, hL, rfl⟩⟩

theorem xDeltas_nodup (w : Warp) (us : List VUse) (m : LaneMask) : ((xDeltas w us m).map Prod.fst).Nodup := by
  rw [xDeltas, List.map_flatMap, List.nodup_flatMap]
  constructor
  · intro j _
    split
    · rw [List.map_map]
      exact (lanesOf_nodup m).map fun a b h => by simpa using h
    · exact List.nodup_nil
  · refine (List.nodup_finRange 8).imp fun {a b} hab x hx hy => ?_
    have hin : ∀ k : Fin 8, x ∈ (if namesX us k = true then (lanesOf m).map (fun L => (128 * k.val + L, xDelta (w.xreg k.val) us k))
        else []).map Prod.fst → x / 128 = k.val := fun k hk => by
      split at hk
      · rw [List.map_map] at hk
        obtain ⟨M, hM, rfl⟩ := List.mem_map.1 hk
        have := (lanesOf_mem.1 hM).1
        simp only [Function.comp_apply]
        omega
      · cases hk
    exact hab (Fin.ext ((hin a hx).symm.trans (hin b hy)))

/-- R322, for one lane of one index register. -/
theorem index_after_word (w v : Warp) (us : List VUse) (m : LaneMask) (j : Fin 8) {L : Nat} (hL : L < 128) :
    ((applyDeltas w (xDeltas v us m)).xreg j.val).index L =
      if namesX us j = true ∧ m.getLsbD L = true then (w.xreg j.val).moved L (xDelta (v.xreg j.val) us j) else (w.xreg j.val).index L := by
  split
  · next h => exact applyDeltas_index w _ (xDeltas_nodup ..) hL ((mem_xDeltas hL).2 ⟨h.1, lanesOf_mem.2 ⟨hL, h.2⟩, rfl⟩)
  · next h =>
    refine applyDeltas_index_other w _ hL fun e he hk => h ?_
    obtain ⟨h1, h2, -⟩ := (mem_xDeltas hL).1 (show (128 * j.val + L, e.2) ∈ xDeltas v us m by rw [← hk]; exact he)
    exact ⟨h1, (lanesOf_mem.1 h2).2⟩

/-! ### XSET and XLDV -/

/-- XLDV's indexes. -/
def IdxReg.load (x : IdxReg) (v : Nat → Nat) (ls : List Nat) : IdxReg := ls.foldl (fun x L => x.setIndex L (v L)) x

theorem IdxReg.load_fields (x : IdxReg) (v : Nat → Nat) (ls : List Nat) :
    (x.load v ls).mode = x.mode ∧ (x.load v ls).step = x.step ∧ (x.load v ls).bound = x.bound ∧ (x.load v ls).base = x.base := by
  unfold IdxReg.load
  induction ls generalizing x with
  | nil => exact ⟨rfl, rfl, rfl, rfl⟩
  | cons L ls ih => exact ih (x.setIndex L (v L))

theorem IdxReg.load_index (x : IdxReg) (v : Nat → Nat) (ls : List Nat) (L : Nat) :
    (x.load v ls).index L = if L ∈ ls then v L % 65536 else x.index L := by
  unfold IdxReg.load
  induction ls generalizing x with
  | nil => simp
  | cons M ls ih =>
    rw [List.foldl_cons, ih, IdxReg.index_setIndex]
    by_cases hM : L = M
    · subst hM; simp
    · simp [hM]

/-- What a word leaves that sets index register `j` to `v`. -/
def SetsIndex (s : State) (is : Issue) (j : Nat) (i : Instr) (v : IdxReg) : Prop :=
  ∃ t, Machine.exec i s = .next t ∧
    (t.warp is.who).s = (s.warp is.who).s ∧ (t.warp is.who).p = (s.warp is.who).p ∧
    (t.warp is.who).blocks = (s.warp is.who).blocks ∧ (t.warp is.who).core = (s.warp is.who).core ∧ WordFrame s t is.who ∧
    (s.alone = true → (t.warp is.who).arstat = (s.warp is.who).arstat ∧
      (t.warp is.who).x = (applyDeltas ((s.warp is.who).setX j v) (xDeltas is.w (vuses i) is.mask)).x ∧
      ((∀ k, namesX (vuses i) k = false) → (t.warp is.who).xreg j = v ∧
        ∀ k, k ≠ j → (t.warp is.who).xreg k = (s.warp is.who).xreg k))

theorem setsIndex_of {s : State} {i : Instr} {is : Issue} {pre : Issue → State → Option (Cause × Info)}
    {body : Issue → State → Act} {j : Nat} {v : IdxReg} (h : s.readyWith i pre noCheck = some is)
    (he : Machine.exec i s = runWordWith i pre noCheck body s) (hb : body is s = .next (s.modWarp is.who (fun w => w.setX j v))) :
    SetsIndex s is j i v := by
  obtain ⟨t, ht, d⟩ := warpDone_of h he hb
  refine ⟨t, ht, d.sregs, d.preds, d.blocks, d.core, d.frame, fun ha => ?_⟩
  obtain ⟨h1, h2, -, -⟩ := d.alone ha
  rw [(State.ready_issue h).1] at h2
  refine ⟨h1, h2, fun hn => ?_⟩
  rw [xDeltas_none _ _ _ hn, applyDeltas_nil] at h2
  have hx : ∀ k, (t.warp is.who).xreg k = ((s.warp is.who).setX j v).xreg k := fun k => congrArg (fun m => mgetD m k ({} : IdxReg)) h2
  exact ⟨by rw [hx, Warp.xreg_setX], fun k hk => by rw [hx, Warp.xreg_setX_other _ _ hk]⟩

/-- A body that sets an index register from the warp at hand sets it to one value. -/
theorem modWarp_setX (s : State) (who j : Nat) (f : Warp → IdxReg) :
    s.modWarp who (fun w => w.setX j (f w)) = s.modWarp who (fun w => w.setX j (f (s.warp who))) := rfl

theorem xsetPre_none {mode : XMode} {sa sb : SOp} {is : Issue} {s : State} :
    xsetPre mode sa sb is s = none ↔ mode = .off ∨
      ((is.sv s sa).toNat ≤ 255 ∧ 1 ≤ (is.sv s sb).toNat ∧ (is.sv s sb).toNat ≤ 256 ∧ (is.sv s sa).toNat + (is.sv s sb).toNat ≤ 256) := by
  simp only [xsetPre]
  split
  · next h => simpa [and_assoc] using h
  · next h => simpa [and_assoc] using h

/-- Settles O15. -/
theorem indexRegisters : Obligations.IndexRegisters := by
  unfold Obligations.IndexRegisters
  refine ⟨fun s is j mode stp zi sa sb g a => ?_, fun s is t x j L h ha hL => ?_⟩
  · intro old base bound fits done xset
    refine ⟨fun h => ⟨xsetPre_none.1 (State.readyWith_eq h).2.2.1, setsIndex_of h rfl ?_⟩, fun h1 h2 hf => ?_, fun h => ?_⟩
    · simp only [xsetBody, beq_iff_eq]
      rfl
    · have hp : xsetPre mode sa sb is s = some (.oprange, .same 0) := by
        have hne := mt xsetPre_none.1 hf
        simp only [xsetPre] at hne ⊢
        split
        · next hc => rw [if_pos hc] at hne; exact absurd rfl hne
        · rfl
      exact runWordWith_pre _ h1 h2 hp
    · obtain ⟨h1, h2, h3, h4⟩ := old.load_fields (fun L => (is.src (useS a) L).toNat % 2 ^ 16) (lanesOf is.mask)
      refine ⟨_, h1, h2, h3, h4, fun L hL => ?_, setsIndex_of h rfl rfl⟩
      rw [IdxReg.load_index]
      simp [lanesOf_mem, hL]
  · obtain ⟨u, hu, -, -, -, -, -, hend, -⟩ := (integerResults s is t x).1 h
    refine ⟨u, hu, ?_⟩
    intro old i read written d
    have hx : ((u.warp is.who).xreg j.val) = ((applyDeltas (s.warp is.who) (xDeltas is.w (vuses (.vadd t x)) is.mask)).xreg j.val) :=
      congrArg (fun m => mgetD m j.val ({} : IdxReg)) (hend ha).2.1
    have hr : readsX (vuses (.vadd t x)) j = decide read :=
      Bool.eq_iff_iff.2 (by simp [readsX, vuses, uses3, useD, useS, read])
    have hw : writesX (vuses (.vadd t x)) j = decide written :=
      Bool.eq_iff_iff.2 (by simp [writesX, vuses, uses3, useD, useS, written])
    have hn : namesX (vuses (.vadd t x)) j = true ↔ read ∨ written := by
      simp [namesX, vuses, uses3, useD, useS, read, written]
      tauto
    have hd : read ∨ written → xDelta (is.w.xreg j.val) (vuses (.vadd t x)) j = d := fun hrw => by
      simp only [xDelta, hr, hw, d, Bool.and_eq_true, decide_eq_true_eq]
      cases (is.w.xreg j.val).mode
      case stack =>
        by_cases h1 : read
        · simp [h1]
        · simp [h1, hrw.resolve_left h1]
      all_goals rfl
    rw [hx, index_after_word _ _ _ _ j hL]
    by_cases hrw : read ∨ written
    · by_cases hm : is.mask.getLsbD L = true
      · rw [if_pos ⟨hn.2 hrw, hm⟩, hd hrw, IdxReg.moved]
        by_cases hc : d ≠ 0 ∨ old.mode = .ring
        · have hall : (read ∨ written) ∧ is.mask.getLsbD L = true ∧ (d ≠ 0 ∨ old.mode = .ring) := ⟨hrw, hm, hc⟩
          rw [if_pos hc, if_pos hall]
        · rw [if_neg hc, if_neg fun h => hc h.2.2]
      · rw [if_neg fun h => hm h.2, if_neg fun h => hm h.2.1]
    · rw [if_neg fun h => hrw (hn.1 h.1), if_neg fun h => hrw h.1]

/-! ### RGROW and RSHRINK (R56, R58, R59) -/

/-- A word whose body answers a state ends on it. -/
theorem wordEnd_of {s u : State} {i : Instr} {is : Issue} {pre align : Issue → State → Option (Cause × Info)}
    {body : Issue → State → Act} (h : s.readyWith i pre align = some is) (he : Machine.exec i s = runWordWith i pre align body s)
    (hb : body is s = .next u) (hc : u.cur = s.cur) : Machine.exec i s = .next (u.finish is) ∧ WordEnd u (u.finish is) is := by
  refine ⟨?_, State.finish_end u is fun c hcu => (State.ready_issue h).2 c (hc ▸ hcu)⟩
  rw [he, runWordWith_ready body h]
  simp [State.runBody, hb]

/-- Memory and all else outside the thread is as the body left it. -/
theorem WordFrame.mem {s t : State} {who : Nat} (h : WordFrame s t who) : t.mem = s.mem := by
  have := congrArg State.mem h.world
  exact this

theorem windowPre_some {t : BitVec 9} {least : Nat} {is : Issue} {s : State}
    (h : t.toNat % 8 ≠ 0 ∨ t.toNat < 8 * max 1 least ∨ 256 < t.toNat) :
    windowPre t least is s = some (.window, .same t.toNat) := by
  have hc : (t.toNat % 8 != 0 || t.toNat < 8 || 256 < t.toNat || t.toNat < 8 * least : Bool) = true := by
    simp only [Bool.or_eq_true, bne_iff_ne, decide_eq_true_eq]
    omega
  exact if_pos hc

theorem State.bare_settleReserve (s : State) (core : Nat) : (s.settleReserve core).bare = s.bare := by
  unfold State.settleReserve
  split <;> rfl

theorem State.mem_settleReserve (s : State) (core : Nat) : (s.settleReserve core).mem = s.mem := by
  unfold State.settleReserve
  split <;> rfl

/-- Settles O16. -/
theorem windowWords : Obligations.WindowWords := by
  unfold Obligations.WindowWords
  intro s is t n w
  refine ⟨fun h => ⟨fun hn => regFrame_of h rfl (if_pos hn), fun hn => waitBegins_of h rfl (if_neg hn.not_ge)⟩,
    fun h1 h2 h3 => runWordWith_pre _ h1 h2 (windowPre_some (by omega)), fun h1 h2 h3 => runWordWith_pre _ h1 h2 (windowPre_some h3),
    fun h => ⟨fun hn => regFrame_of h rfl (if_pos hn), fun hn hp => ?_⟩⟩
  have hb : rshrinkBody t is s = .next ((s.modWarp is.who (fun w =>
      { w with curb := n, blocks := w.blocks.filter (fun e => decide (e.1 < n)) })).settleReserve (coreOf is.who)) := by
    have hpend : (s.pendingRegs is.who false).any (fun r => decide (8 * (t.toNat / 8) ≤ r)) = false := by
      rw [List.any_eq_false]
      intro r hr
      have := hp r hr
      simp only [decide_eq_true_eq]
      omega
    simp only [rshrinkBody]
    rw [if_neg hn.not_ge, hpend]
    rfl
  obtain ⟨hu, e⟩ := wordEnd_of h rfl hb ((State.cur_of_bare (State.bare_settleReserve ..)).trans rfl)
  obtain ⟨f1, f2, f3, f4⟩ := e.fields
  have hw : (((s.modWarp is.who (fun w => { w with curb := n, blocks := w.blocks.filter (fun e => decide (e.1 < n)) })).settleReserve
      (coreOf is.who)).warp is.who) = { w with curb := n, blocks := w.blocks.filter (fun e => decide (e.1 < n)) } := by
    rw [State.warp, State.warps_of_bare (State.bare_settleReserve ..)]
    exact State.warp_modWarp ..
  rw [hw] at f1 f2 f3 f4
  have hcurb := congrArg Warp.curb f4
  have hminb := congrArg Warp.minb f4
  refine ⟨_, hu, hcurb, hminb, fun b hb => ?_, fun b hb hlt => ?_, f1, f2, e.frame.mem.trans (State.mem_settleReserve ..)⟩
  · rw [f3] at hb
    obtain ⟨h1, h2⟩ := List.mem_filter.1 hb
    exact ⟨of_decide_eq_true h2, h1⟩
  · rw [f3]
    exact List.mem_filter.2 ⟨hb, decide_eq_true hlt⟩

end Sys2Proof.Machine
end

section
/-! Where paths go: NOP, branches, calls and returns (R226, R264, R265, R270). -/

namespace Sys2Proof.Machine

/-! ### The end of a word that has moved its path itself -/

theorem State.finishJump_frame (s : State) (is : Issue) (h : ∀ c, s.cur = some c → c.who = is.who) :
    WordFrame s (s.finishJump is) is.who :=
  ((s.countDeltas_frame is).trans (State.noteIssue_frame _ is)).trans
    (State.closeGroup_frame _ is.who (State.countDeltas_cur s is h))

theorem State.finishJump_nox (s : State) (is : Issue) (h : ∀ c, s.cur = some c → c.who = is.who) :
    ((s.finishJump is).warp is.who).nox = (s.warp is.who).nox :=
  (State.closeGroup_warp ((s.countDeltas is).noteIssue is) is.who (State.countDeltas_cur s is h)).trans (State.countDeltas_nox s is)

/-- A word whose body moves its path ends on the state of the body, its index registers, ARSTAT and issue bookkeeping aside. -/
theorem jumpEnd_of {s u : State} {i : Instr} {is : Issue} {pre align : Issue → State → Option (Cause × Info)}
    {body : Issue → State → Act} (h : s.readyWith i pre align = some is) (he : Machine.exec i s = runWordWith i pre align body s)
    (hb : body is s = .jump u) (hc : u.cur = s.cur) : ∃ t, Machine.exec i s = .next t ∧ WordFrame u t is.who ∧
      (t.warp is.who).nox = (u.warp is.who).nox := by
  have hc' : ∀ c, u.cur = some c → c.who = is.who := fun c hcu => (State.ready_issue h).2 c (hc ▸ hcu)
  refine ⟨u.finishJump is, ?_, u.finishJump_frame is hc', u.finishJump_nox is hc'⟩
  rw [he, runWordWith_ready body h]
  simp [State.runBody, hb]

section
variable {v w : Warp} (h : v.nox = w.nox)
include h

theorem Warp.nox_s : v.s = w.s := by have := congrArg Warp.s h; exact this
theorem Warp.nox_p : v.p = w.p := by have := congrArg Warp.p h; exact this
theorem Warp.nox_blocks : v.blocks = w.blocks := by have := congrArg Warp.blocks h; exact this
theorem Warp.nox_paths : v.paths = w.paths := by have := congrArg Warp.paths h; exact this
theorem Warp.nox_parked : v.parked = w.parked := by have := congrArg Warp.parked h; exact this
theorem Warp.nox_k : v.k = w.k := by have := congrArg Warp.k h; exact this
theorem Warp.nox_exited : v.exited = w.exited := by have := congrArg Warp.exited h; exact this
theorem Warp.nox_l0 : v.l0 = w.l0 := by have := congrArg Warp.l0 h; exact this
theorem Warp.nox_l1 : v.l1 = w.l1 := by have := congrArg Warp.l1 h; exact this
theorem Warp.nox_core : v.core = w.core := by have := congrArg Warp.core h; exact this

end

/-! ### The loop action -/

theorem bitsOf_pc (pc : W64) : bitsOf pc 2 2 = pc.toNat / 4 % 4 := by
  simp [bitsOf, Nat.shiftRight_eq_div_pow]

theorem count_gt_one {c : W32} (h : c ≠ 0) : 1 < c.toNat ↔ c ≠ 1 := by
  have h1 : c = 1 ↔ c.toNat = 1 := ⟨fun h => by rw [h]; rfl, fun h => BitVec.eq_of_toNat_eq (by rw [h]; rfl)⟩
  have h0 : c.toNat ≠ 0 := fun h0 => h (BitVec.eq_of_toNat_eq (by rw [h0]; rfl))
  rw [ne_eq, h1]
  omega

/-- R226, as the model runs it and as it is stated. -/
theorem loopAction_eq (l0 l1 : LoopLvl) (pkt : W64) : loopAction l0 l1 pkt = levelsAtEnd l0 l1 pkt := by
  simp only [loopAction, levelsAtEnd, Bool.and_eq_true, bne_iff_ne, beq_iff_eq]
  by_cases h0 : l0.count ≠ 0 ∧ l0.stop = pkt <;> by_cases h1 : l1.count ≠ 0 ∧ l1.stop = pkt
  · simp only [h0, h1, count_gt_one h0.1, count_gt_one h1.1, ne_eq, not_false_eq_true, and_self, if_true]
  · simp only [h0, h1, count_gt_one h0.1, ne_eq, not_false_eq_true, and_self, and_false, false_and, if_true, if_false]
  · simp only [h0, h1, count_gt_one h1.1, ne_eq, not_false_eq_true, and_self, and_false, false_and, if_true, if_false]
  · simp only [h0, h1, and_self, if_false]

/-- The path, and the loop levels, after a word of `n` slots. -/
theorem Warp.advance_path {w : Warp} {lane n : Nat} {pc : W64} {p : Path} (hp : w.pathAt lane = some p) :
    let after := if pc.toNat / 4 % 4 + n ≤ 3 then (w.l0, w.l1, pc + BitVec.ofNat 64 (4 * n)) else levelsAtEnd w.l0 w.l1 (pktOf pc)
    (w.advance lane pc n).l0 = after.1 ∧ (w.advance lane pc n).l1 = after.2.1 ∧
      ∃ q ∈ (w.advance lane pc n).paths, q.mask = p.mask ∧ q.pc = after.2.2 ∧ q.handler = p.handler := by
  have hm := mask_ne (Warp.pathAt_lane hp).2
  by_cases h : bitsOf pc 2 2 + n ≤ 3
  · rw [Warp.advance_inside hp h, ← bitsOf_pc, if_pos h]
    exact ⟨rfl, rfl, _, Warp.mem_putPath.2 (.inr ⟨List.mem_singleton.2 rfl, hm⟩), rfl, rfl, rfl⟩
  · rw [Warp.advance_over hp h, ← bitsOf_pc, if_neg h, ← loopAction_eq]
    exact ⟨rfl, rfl, _, Warp.mem_putPath.2 (.inr ⟨List.mem_singleton.2 rfl, hm⟩), rfl, rfl, rfl⟩

theorem Warp.pathAt_nox (w : Warp) (L : Nat) : w.nox.pathAt L = w.pathAt L := rfl

/-- A word that goes on: the levels, and the path at the next word. -/
theorem State.finish_path (s : State) {is : Issue} {p : Path} (hc : ∀ c, s.cur = some c → c.who = is.who)
    (hp : (s.warp is.who).pathAt is.lane = some p) :
    let after := if is.pc.toNat / 4 % 4 + slotsOf is.i ≤ 3 then
        ((s.warp is.who).l0, (s.warp is.who).l1, is.pc + BitVec.ofNat 64 (4 * slotsOf is.i))
      else levelsAtEnd (s.warp is.who).l0 (s.warp is.who).l1 (pktOf is.pc)
    ((s.finish is).warp is.who).l0 = after.1 ∧ ((s.finish is).warp is.who).l1 = after.2.1 ∧
      ∃ q ∈ ((s.finish is).warp is.who).paths, q.mask = p.mask ∧ q.pc = after.2.2 ∧ q.handler = p.handler := by
  have hn := (s.finish_nox is hc)
  have ha := Warp.advance_path (w := (s.warp is.who).nox) (n := slotsOf is.i) (pc := is.pc) hp
  rw [← hn] at ha
  exact ha

/-! ### Branches -/

theorem guardMask_sub (w : Warp) (g : Option Guard) (m : LaneMask) (L : Nat) (h : (guardMask w g m).getLsbD L = true) :
    m.getLsbD L = true := by
  unfold guardMask mdiff at h
  cases g with
  | none => exact h
  | some g =>
    simp only at h
    split at h
    · exact (Bool.and_eq_true_iff.1 (BitVec.getLsbD_and ▸ h)).1
    · exact (Bool.and_eq_true_iff.1 (BitVec.getLsbD_and ▸ h)).1

theorem mdiff_get {m n : LaneMask} {L : Nat} (hL : L < 128) : (mdiff m n).getLsbD L = (m.getLsbD L && !n.getLsbD L) := by
  simp [mdiff, hL]

theorem lanesOf_nonempty {m : LaneMask} (h : m ≠ 0) : ∃ L, L ∈ lanesOf m := by
  by_contra hn
  refine h (BitVec.eq_of_getLsbD_eq fun i hi => ?_)
  by_contra hx
  exact hn ⟨i, lanesOf_mem.2 ⟨hi, by simpa using hx⟩⟩

theorem lowLane_mem {m : LaneMask} (h : m ≠ 0) : lowLane m ∈ lanesOf m := by
  obtain ⟨L, hL⟩ := lanesOf_nonempty h
  unfold lowLane
  cases hl : lanesOf m with
  | nil => rw [hl] at hL; cases hL
  | cons a as => exact List.mem_cons_self

theorem lowLane_get {m : LaneMask} (h : m ≠ 0) : m.getLsbD (lowLane m) = true := (lanesOf_mem.1 (lowLane_mem h)).2

theorem lowLane_lt {m : LaneMask} (h : m ≠ 0) : lowLane m < 128 := (lanesOf_mem.1 (lowLane_mem h)).1

theorem and_eq_zero_get {m n : LaneMask} (h : m &&& n = 0) (L : Nat) (hn : n.getLsbD L = true) : m.getLsbD L = false := by
  have := congrArg (fun x : LaneMask => x.getLsbD L) h
  simpa [hn] using this

/-- More than one value: two entries that differ. -/
theorem one_lt_eraseDups {l : List W64} (h : l ≠ []) : 1 < l.eraseDups.length ↔ ∃ a ∈ l, ∃ b ∈ l, a ≠ b := by
  cases l with
  | nil => exact absurd rfl h
  | cons a as =>
    rw [List.eraseDups_cons, List.length_cons]
    have hpos : 1 < ((as.filter (fun b => !b == a)).eraseDups).length + 1 ↔ ∃ b ∈ as, b ≠ a := by
      rw [Nat.lt_add_left_iff_pos, List.length_pos_iff_exists_mem]
      simp [List.mem_eraseDups]
    rw [hpos]
    constructor
    · rintro ⟨b, hb, hne⟩
      exact ⟨b, List.mem_cons_of_mem _ hb, a, List.mem_cons_self, hne⟩
    · rintro ⟨b, hb, c, hc, hne⟩
      by_cases hba : b = a
      · subst hba
        exact ⟨c, (List.mem_cons.1 hc).resolve_left (Ne.symm hne), Ne.symm hne⟩
      · exact ⟨b, (List.mem_cons.1 hb).resolve_left hba, hba⟩

theorem targets_split {m : LaneMask} (f : Nat → W64) (h : m ≠ 0) :
    1 < (targetsOf m f).length ↔ ∃ L ∈ lanesOf m, ∃ M ∈ lanesOf m, f L ≠ f M := by
  obtain ⟨L, hL⟩ := lanesOf_nonempty h
  rw [targetsOf, one_lt_eraseDups (List.ne_nil_of_mem (List.mem_map_of_mem hL))]
  simp

theorem targetsOf_pos {m : LaneMask} (f : Nat → W64) (h : m ≠ 0) : 0 < (targetsOf m f).length := by
  obtain ⟨L, hL⟩ := lanesOf_nonempty h
  exact List.length_pos_of_mem (List.mem_eraseDups.2 (List.mem_map_of_mem hL))

/-- A transfer leaves more than one path: lanes stay, or two lanes go apart. -/
theorem branch_splits {m rest : LaneMask} (f : Nat → W64) (h : m ≠ 0) :
    1 < (targetsOf m f).length + (if rest = 0 then 0 else 1) ↔ rest ≠ 0 ∨ ∃ L ∈ lanesOf m, ∃ M ∈ lanesOf m, f L ≠ f M := by
  rw [← targets_split f h]
  have := targetsOf_pos f h
  by_cases hr : rest = 0
  · simp [hr]
  · rw [if_neg hr]
    exact ⟨fun _ => .inl hr, fun _ => by omega⟩

theorem branchBody_jump {f : Nat → W64} {is : Issue} {s : State} (h : is.mask ≠ 0)
    (hs : ¬((mdiff is.path is.mask ≠ 0 ∨ ∃ L ∈ lanesOf is.mask, ∃ M ∈ lanesOf is.mask, f L ≠ f M) ∧
      (is.w.l0.count ≠ 0 ∨ is.w.l1.count ≠ 0))) : branchBody f is s = .jump (s.sendLanes is f) := by
  rw [← branch_splits f h] at hs
  simp only [branchBody, if_neg h, loopsActive]
  refine if_neg fun hc => hs ?_
  simpa using hc

theorem branchBody_trap {f : Nat → W64} {is : Issue} {s : State} (h : is.mask ≠ 0)
    (hs : (mdiff is.path is.mask ≠ 0 ∨ ∃ L ∈ lanesOf is.mask, ∃ M ∈ lanesOf is.mask, f L ≠ f M) ∧
      (is.w.l0.count ≠ 0 ∨ is.w.l1.count ≠ 0)) : branchBody f is s = .trap .loopdiv (.same 0) := by
  rw [← branch_splits f h] at hs
  simp only [branchBody, if_neg h, loopsActive]
  exact if_pos (by simpa using hs)

/-- The warp after a transfer. -/
def Warp.sent (w : Warp) (is : Issue) (f : Nat → W64) : Warp :=
  match w.pathAt is.lane with
  | none => w
  | some p =>
    let rest := mdiff p.mask is.mask
    let news := (targetsOf is.mask f).map (fun t => startAt (maskWhere is.mask (fun L => f L == t)) t p.handler p.num)
    let w1 := w.putPath is.lane ({ p with mask := rest } :: news)
    if rest = 0 then w1 else w1.advance (lowLane rest) is.pc 1

theorem State.sendLanes_eq (s : State) (is : Issue) (f : Nat → W64) :
    s.sendLanes is f = s.modWarp is.who (fun w => w.sent is f) := rfl

theorem Warp.advance_s (w : Warp) (lane : Nat) (pc : W64) (n : Nat) :
    (w.advance lane pc n).s = w.s ∧ (w.advance lane pc n).p = w.p ∧ (w.advance lane pc n).blocks = w.blocks ∧
      (w.advance lane pc n).core = w.core := by
  have h := Warp.advance_nopc w lane pc n
  simp only [Warp.nopc, Warp.mk.injEq] at h
  refine ⟨by simp [h], by simp [h], by simp [h], ?_⟩
  simp only [Warp.core, Warp.mk.injEq]
  simp [h]

@[simp] theorem startAt_mask (m : LaneMask) (pc : W64) (h : Bool) (n : Nat) : (startAt m pc h n).mask = m := rfl

/-- A path without the lane is not moved by its word. -/
theorem Warp.mem_advance_other {w : Warp} {lane n : Nat} {pc : W64} {q : Path} (hq : q ∈ w.paths)
    (h : q.mask.getLsbD lane = false) : q ∈ (w.advance lane pc n).paths := by
  cases hp : w.pathAt lane with
  | none => simpa [Warp.advance, hp] using hq
  | some p =>
    by_cases hb : bitsOf pc 2 2 + n ≤ 3
    · rw [Warp.advance_inside hp hb]
      exact Warp.mem_putPath.2 (.inl ⟨hq, h⟩)
    · rw [Warp.advance_over hp hb]
      exact Warp.mem_putPath.2 (.inl ⟨hq, h⟩)

theorem Warp.pathAt_isSome {w : Warp} {q : Path} {L : Nat} (hq : q ∈ w.paths) (h : q.mask.getLsbD L = true) :
    ∃ p, w.pathAt L = some p := by
  have : (w.pathAt L).isSome = true := List.find?_isSome.2 ⟨q, hq, h⟩
  exact Option.isSome_iff_exists.1 this

theorem advance_pc {pc : W64} (h : pc.toNat / 4 % 4 < 3) (l0 l1 : LoopLvl) :
    (if pc.toNat / 4 % 4 + 1 ≤ 3 then (l0, l1, pc + BitVec.ofNat 64 (4 * 1)) else levelsAtEnd l0 l1 (pktOf pc)) = (l0, l1,
    pc + 4) :=
  if_pos (by omega)

section
variable {w : Warp} {is : Issue} {f : Nat → W64} {p : Path} (hp : w.pathAt is.lane = some p) (hpath : is.path = p.mask)
include hp

theorem Warp.sent_fields : (w.sent is f).s = w.s ∧ (w.sent is f).p = w.p ∧ (w.sent is f).blocks = w.blocks ∧
    (w.sent is f).core = w.core := by
  simp only [Warp.sent, hp]
  split
  · exact ⟨rfl, rfl, rfl, rfl⟩
  · exact Warp.advance_s _ _ _ _

/-- A path of other lanes than those that stay is not moved by the words that they issue. -/
theorem Warp.mem_sent {q : Path} (hq : (q ∈ w.paths ∧ q.mask.getLsbD is.lane = false) ∨
      (q.mask ≠ 0 ∧ ∃ t ∈ targetsOf is.mask f, q = startAt (maskWhere is.mask (fun L => f L == t)) t p.handler p.num))
    (hr : mdiff p.mask is.mask ≠ 0 → q.mask.getLsbD (lowLane (mdiff p.mask is.mask)) = false) : q ∈ (w.sent is f).paths := by
  have h1 : q ∈ (w.putPath is.lane ({ p with mask := mdiff p.mask is.mask } ::
      (targetsOf is.mask f).map (fun t => startAt (maskWhere is.mask (fun L => f L == t)) t p.handler p.num))).paths := by
    refine Warp.mem_putPath.2 (hq.imp_right fun ⟨hm, t, ht, he⟩ => ⟨List.mem_cons_of_mem _ (List.mem_map.2 ⟨t, ht, he.symm⟩), hm⟩)
  simp only [Warp.sent, hp]
  split
  · exact h1
  · next hn => exact Warp.mem_advance_other h1 (hr hn)

/-- The lanes of one target form one new path. -/
theorem Warp.sent_target {L : Nat} (hL : L ∈ lanesOf is.mask) :
    ∃ q ∈ (w.sent is f).paths, q.pc = f L ∧ q.inside = false ∧
      ∀ M, M < 128 → q.mask.getLsbD M = (is.mask.getLsbD M && f M == f L) := by
  have hget : ∀ M, M < 128 → (maskWhere is.mask (fun L' => f L' == f L)).getLsbD M = (is.mask.getLsbD M && f M == f L) :=
    fun M hM => maskWhere_get _ _ M hM
  obtain ⟨hlt, hl⟩ := lanesOf_mem.1 hL
  refine ⟨startAt (maskWhere is.mask (fun L' => f L' == f L)) (f L) p.handler p.num, Warp.mem_sent hp (.inr ⟨?_, f L, ?_,
      rfl⟩) ?_,
    rfl, rfl, hget⟩
  · exact mask_ne (L := L) (by rw [startAt_mask, hget L hlt]; simp [hl])
  · exact List.mem_eraseDups.2 (List.mem_map_of_mem hL)
  · intro hr
    have h1 := lowLane_get hr
    rw [mdiff_get (lowLane_lt hr)] at h1
    rw [startAt_mask, hget _ (lowLane_lt hr)]
    simp only [Bool.and_eq_true, Bool.not_eq_true'] at h1
    simp [h1.2]

include hpath

theorem Warp.sent_rest (hr : mdiff is.path is.mask ≠ 0) :
    ∃ q ∈ (w.sent is f).paths, q.mask.getLsbD (lowLane (mdiff is.path is.mask)) = true ∧
      (w.paths.length = 1 → q.mask = mdiff is.path is.mask) ∧ (is.pc.toNat / 4 % 4 < 3 → q.pc = is.pc + 4) := by
  rw [hpath] at hr ⊢
  simp only [Warp.sent, hp, if_neg hr]
  generalize hw1 : w.putPath is.lane _ = w1
  have hmem : ({ p with mask := mdiff p.mask is.mask } : Path) ∈ w1.paths :=
    hw1 ▸ Warp.mem_putPath.2 (.inr ⟨List.mem_cons_self, hr⟩)
  obtain ⟨r, hr1⟩ := Warp.pathAt_isSome hmem (lowLane_get hr)
  obtain ⟨-, -, q, hq, hm, hpc, -⟩ := Warp.advance_path (n := 1) (pc := is.pc) hr1
  obtain ⟨hrm, hrl⟩ := Warp.pathAt_lane hr1
  refine ⟨q, hq, by rw [hm]; exact hrl, fun h1 => ?_, fun h3 => by rw [hpc, advance_pc h3]⟩
  rw [hm]
  rw [← hw1] at hrm
  rcases Warp.mem_putPath.1 hrm with ⟨hrw, hlane⟩ | ⟨hnew, -⟩
  · -- the warp's only path is the word's own
    obtain ⟨x, hx⟩ := List.length_eq_one_iff.1 h1
    have hpm := (Warp.pathAt_lane hp).1
    rw [hx, List.mem_singleton] at hpm hrw
    rw [hrw, ← hpm, (Warp.pathAt_lane hp).2] at hlane
    cases hlane
  · rcases List.mem_cons.1 hnew with rfl | hnew
    · rfl
    · obtain ⟨t, -, rfl⟩ := List.mem_map.1 hnew
      have h2 : (mdiff p.mask is.mask).getLsbD (lowLane (mdiff p.mask is.mask)) = true := lowLane_get hr
      rw [mdiff_get (lowLane_lt hr)] at h2
      rw [startAt_mask, maskWhere_get _ _ _ (lowLane_lt hr)] at hrl
      simp only [Bool.and_eq_true, Bool.not_eq_true'] at h2 hrl
      rw [h2.2] at hrl
      exact absurd hrl.1 (by simp)

/-- Paths of other lanes stay. -/
theorem Warp.sent_other {q : Path} (hq : q ∈ w.paths) (h : q.mask &&& is.path = 0) : q ∈ (w.sent is f).paths := by
  have hno : ∀ L, is.path.getLsbD L = true → q.mask.getLsbD L = false := fun L hL => and_eq_zero_get h L hL
  refine Warp.mem_sent hp (.inl ⟨hq, hno _ (by rw [hpath]; exact (Warp.pathAt_lane hp).2)⟩) fun hr => hno _ ?_
  have h2 := lowLane_get hr
  rw [mdiff_get (lowLane_lt hr)] at h2
  simp only [Bool.and_eq_true] at h2
  rw [hpath]
  exact h2.1

end

/-! ### CALL's link registers -/

/-- The warp with the return address in v54:v55 of the lanes `ls`. -/
def Warp.link (w : Warp) (ls : List Nat) (r : W64) : Warp := w.putAll (fun _ => 54) 2 (ls.map (fun L => (L, r.toNat)))

theorem Warp.link_eq (w : Warp) (ls : List Nat) (r : W64) : ls.foldl (fun w L =>
    (w.setReg 54 L ⟨r.extractLsb' 0 32, false⟩).setReg 55 L ⟨r.extractLsb' 32 32, false⟩) w = w.link ls r := by
  unfold Warp.link Warp.putAll
  rw [List.foldl_map]
  have h0 : r.extractLsb' 0 32 = BitVec.ofNat 32 r.toNat := BitVec.eq_of_toNat_eq (by simp)
  have h1 : r.extractLsb' 32 32 = BitVec.ofNat 32 (r.toNat / 2 ^ 32) :=
    BitVec.eq_of_toNat_eq (by simp [Nat.shiftRight_eq_div_pow])
  simp only [h0, h1, if_true]

section
variable (w : Warp) (m : LaneMask) (r : W64)

theorem Warp.link_fields :
    (w.link (lanesOf m) r).s = w.s ∧ (w.link (lanesOf m) r).p = w.p ∧ (w.link (lanesOf m) r).core = w.core ∧
    (w.link (lanesOf m) r).paths = w.paths := by
  refine ⟨Warp.s_putAll .., Warp.p_putAll .., Warp.core_putAll .., ?_⟩
  have := congrArg Warp.paths (Warp.putAll_noblocks w (fun _ => 54) 2 ((lanesOf m).map (fun L => (L, r.toNat))))
  exact this

theorem Warp.link_holds {L : Nat} (hL : L ∈ lanesOf m) : (w.link (lanesOf m) r).holds 54 2 L r.toNat := by
  refine Warp.putAll_holds w (fun _ => 54) 2 _ ?_ ?_ L _ (List.mem_map.2 ⟨L, hL, rfl⟩)
  · intro e he
    obtain ⟨M, hM, rfl⟩ := List.mem_map.1 he
    exact (lanesOf_mem.1 hM).1
  · rw [List.map_map]
    exact (lanesOf_nodup m).map fun a b h => h

theorem Warp.link_other {q L : Nat} (hL : L < 128) (h : m.getLsbD L = true → q ≠ 54 ∧ q ≠ 55) :
    (w.link (lanesOf m) r).reg q L = w.reg q L := by
  refine Warp.putAll_other w (fun _ => 54) 2 _ q L hL ?_ ?_
  · intro e he
    obtain ⟨M, hM, rfl⟩ := List.mem_map.1 he
    exact (lanesOf_mem.1 hM).1
  · intro e he hx
    obtain ⟨M, hM, rfl⟩ := List.mem_map.1 he
    subst hx
    obtain ⟨h1, h2⟩ := h (lanesOf_mem.1 hM).2
    exact ⟨h1, fun _ => h2⟩

end

/-! ### NOP, and branches of all lanes -/

theorem State.readyWith_path {s : State} {i : Instr} {is : Issue} {pre align : Issue → State → Option (Cause × Info)}
    (h : s.readyWith i pre align = some is) : is.mask = guardMask is.w (guardOfI i) is.path ∧
      ∃ p, (s.warp is.who).pathAt is.lane = some p ∧ is.path = p.mask ∧ is.pc = p.pc ∧ is.handler = p.handler := by
  obtain ⟨-, c, p, -, -, -, hp, h1, h2, h3, -, h4, -⟩ := State.issueOf_eq (State.readyWith_eq h).1
  exact ⟨h4, p, hp, h1, h2, h3⟩

/-- Settles O17. -/
theorem loopAction_atEnd : Obligations.LoopAction := by
  unfold Obligations.LoopAction
  intro s is w pkt after
  refine ⟨fun h => ?_, fun g off h hm h0 => ?_⟩
  · obtain ⟨-, p, hp, hpath, -, hh⟩ := State.readyWith_path h
    have hi : is.i = .nop := (State.ready_issue h).1
    obtain ⟨t, ht, hf⟩ := regFrame_of h rfl rfl
    have hf' := State.finish_path s (State.ready_issue h).2 hp
    have he : Machine.exec .nop s = .next (s.finish is) := (wordEnd_of h rfl rfl rfl).1
    have hslots : slotsOf is.i = 1 := by rw [hi]; rfl
    rw [he] at ht
    cases ht
    simp only [hslots, show (is.pc.toNat / 4 % 4 + 1 ≤ 3) = (is.pc.toNat / 4 % 4 < 3) from rfl] at hf'
    obtain ⟨h1, h2, q, hq, hqm, hqp, hqh⟩ := hf'
    exact ⟨_, he, hf, h1, h2, q, hq, hqm.trans hpath.symm, hqp, hqh.trans hh.symm⟩
  · obtain ⟨-, p, hp, hpath, -, hh⟩ := State.readyWith_path h
    have hrest : mdiff is.path is.mask = 0 := by rw [hm]; exact BitVec.eq_of_getLsbD_eq fun i hi => by simp [mdiff_get hi]
    have hb : branchBody (fun _ => branchTarget is.pc off) is s = .jump (s.sendLanes is (fun _ => branchTarget is.pc off)) := by
      refine branchBody_jump h0 fun hx => ?_
      rcases hx.1 with hr | ⟨L, -, M, -, hne⟩
      · exact hr hrest
      · exact hne rfl
    obtain ⟨t, ht, -, hnox⟩ := jumpEnd_of h rfl hb rfl
    have hw : (s.sendLanes is (fun _ => branchTarget is.pc off)).warp is.who = w.sent is (fun _ => branchTarget is.pc off) :=
      State.warp_modWarp ..
    rw [hw] at hnox
    have hnopc : (w.sent is (fun _ => branchTarget is.pc off)).l0 = w.l0 ∧
        (w.sent is (fun _ => branchTarget is.pc off)).l1 = w.l1 := by
      have hr : mdiff p.mask is.mask = 0 := hpath ▸ hrest
      have hp' : w.pathAt is.lane = some p := hp
      simp only [Warp.sent, hp', if_pos hr]
      exact ⟨rfl, rfl⟩
    refine ⟨t, ht, (Warp.nox_l0 hnox).trans hnopc.1, (Warp.nox_l1 hnox).trans hnopc.2, ?_⟩
    rw [Warp.nox_paths hnox]
    have hmem : startAt (maskWhere is.mask (fun _ => branchTarget is.pc off == branchTarget is.pc off)) (branchTarget is.pc off) p.handler p.num ∈
        (w.sent is (fun _ => branchTarget is.pc off)).paths := by
      obtain ⟨L, hL⟩ := lanesOf_nonempty h0
      refine Warp.mem_sent hp (.inr ⟨?_, _, List.mem_eraseDups.2 (List.mem_map_of_mem hL),
      rfl⟩) fun hr => absurd (hpath ▸ hrest) hr
      exact mask_ne (L := L) (by rw [startAt_mask, maskWhere_get _ _ _ (lanesOf_mem.1 hL).1]; simp [(lanesOf_mem.1 hL).2])
    refine ⟨_, hmem, ?_, rfl, hh.symm⟩
    rw [startAt_mask, ← hm]
    exact BitVec.eq_of_getLsbD_eq fun i hi => by rw [maskWhere_get _ _ _ hi]; simp

/-! ### BRA, CALL, RET and BRX -/

/-- What a transfer leaves. -/
def Moved (s : State) (is : Issue) (i : Instr) (f : Nat → W64) (call : Bool) : Prop :=
  let w := s.warp is.who
  let rest := mdiff is.path is.mask
  ∃ t, Machine.exec i s = .next t ∧
    (∀ L ∈ lanesOf is.mask, ∃ p ∈ (t.warp is.who).paths, p.pc = f L ∧ p.inside = false ∧
      ∀ M, M < 128 → p.mask.getLsbD M = (is.mask.getLsbD M && f M == f L)) ∧
    (rest ≠ 0 → ∃ p ∈ (t.warp is.who).paths, p.mask.getLsbD (lowLane rest) = true ∧ (w.paths.length = 1 → p.mask = rest) ∧
      (is.pc.toNat / 4 % 4 < 3 → p.pc = is.pc + 4)) ∧
    (∀ q ∈ w.paths, q.mask &&& is.path = 0 → q ∈ (t.warp is.who).paths) ∧
    (t.warp is.who).s = w.s ∧ (t.warp is.who).p = w.p ∧ (t.warp is.who).core = w.core ∧
    (if call then (∀ L ∈ lanesOf is.mask, (t.warp is.who).holds 54 2 L (pktOf is.pc + 16).toNat) ∧
        ∀ r L, L < 128 → (is.mask.getLsbD L = true → r ≠ 54 ∧ r ≠ 55) → (t.warp is.who).reg r L = w.reg r L
      else (t.warp is.who).blocks = w.blocks) ∧ WordFrame s t is.who

section
variable {s : State} {i : Instr} {is : Issue} {pre align : Issue → State → Option (Cause × Info)} {body : Issue → State → Act}
  {f : Nat → W64} (h : s.readyWith i pre align = some is) (he : Machine.exec i s = runWordWith i pre align body s)
include h he

theorem moved_of (hb : body is s = .jump (s.sendLanes is f)) : Moved s is i f false := by
  obtain ⟨-, p, hp, hpath, -, -⟩ := State.readyWith_path h
  obtain ⟨t, ht, hfr, hnox⟩ := jumpEnd_of h he hb rfl
  rw [State.sendLanes_eq, State.warp_modWarp] at hnox
  obtain ⟨f1, f2, f3, f4⟩ := Warp.sent_fields (f := f) hp
  have hpaths := Warp.nox_paths hnox
  refine ⟨t, ht, fun L hL => ?_, fun hr => ?_, fun q hq hd => ?_, (Warp.nox_s hnox).trans f1, (Warp.nox_p hnox).trans f2,
    (Warp.nox_core hnox).trans f4, (Warp.nox_blocks hnox).trans f3, (WordFrame.modWarp s is.who _).trans hfr⟩
  · rw [hpaths]; exact Warp.sent_target hp hL
  · rw [hpaths]; exact Warp.sent_rest hp hpath hr
  · rw [hpaths]; exact Warp.sent_other hp hpath hq hd

theorem moved_call_of (hb : body is s = .jump ((s.sendLanes is f).modWarp is.who (fun w =>
    w.link (lanesOf is.mask) (pktOf is.pc + 16)))) : Moved s is i f true := by
  obtain ⟨-, p, hp, hpath, -, -⟩ := State.readyWith_path h
  obtain ⟨t, ht, hfr, hnox⟩ := jumpEnd_of h he hb rfl
  rw [State.warp_modWarp, State.sendLanes_eq, State.warp_modWarp] at hnox
  obtain ⟨f1, f2, f3, f4⟩ := Warp.sent_fields (f := f) hp
  obtain ⟨g1, g2, g3, g4⟩ := Warp.link_fields ((s.warp is.who).sent is f) is.mask (pktOf is.pc + 16)
  have hpaths := (Warp.nox_paths hnox).trans g4
  have hreg : ∀ q L, (t.warp is.who).reg q L = (((s.warp is.who).sent is f).link (lanesOf is.mask) (pktOf is.pc + 16)).reg q L :=
    fun q L => by simp only [Warp.reg, Warp.block, Warp.nox_blocks hnox]
  have hreg0 : ∀ q L, ((s.warp is.who).sent is f).reg q L = (s.warp is.who).reg q L :=
    fun q L => by simp only [Warp.reg, Warp.block, f3]
  refine ⟨t, ht, fun L hL => ?_, fun hr => ?_, fun q hq hd => ?_, (Warp.nox_s hnox).trans (g1.trans f1),
    (Warp.nox_p hnox).trans (g2.trans f2), (Warp.nox_core hnox).trans (g3.trans f4), ⟨fun L hL => ?_, fun r L hL hr => ?_⟩,
    ((WordFrame.modWarp s is.who _).trans (WordFrame.modWarp _ is.who _)).trans hfr⟩
  · rw [hpaths]; exact Warp.sent_target hp hL
  · rw [hpaths]; exact Warp.sent_rest hp hpath hr
  · rw [hpaths]; exact Warp.sent_other hp hpath hq hd
  · have := Warp.link_holds ((s.warp is.who).sent is f) is.mask (pktOf is.pc + 16) hL
    exact ⟨(hreg _ _).trans this.1, fun hn => (hreg _ _).trans (this.2 hn)⟩
  · rw [hreg, Warp.link_other _ _ _ hL hr, hreg0]

theorem trap_of {c : Cause} {v : Info} (hb : body is s = .trap c v) : Machine.exec i s = .next (s.trapAt is c v is.pc) := by
  rw [he, runWordWith_ready body h]
  simp [State.runBody, hb]

end

/-- A transfer whose body is `branchBody f`. -/
theorem branch_holds {s : State} {i : Instr} {is : Issue} {align : Issue → State → Option (Cause × Info)}
    {f : Issue → Nat → W64} (he : Machine.exec i s = runWordWith i noCheck align (fun is s => branchBody (f is) is s) s)
    (h : s.readyWith i noCheck align = some is) :
    let splits := mdiff is.path is.mask ≠ 0 ∨ ∃ L ∈ lanesOf is.mask, ∃ M ∈ lanesOf is.mask, f is L ≠ f is M
    let looping := is.w.l0.count ≠ 0 ∨ is.w.l1.count ≠ 0
    (is.mask = 0 → ∃ t, Machine.exec i s = .next t ∧ RegFrame i s t is) ∧
    (is.mask ≠ 0 → ¬(splits ∧ looping) → Moved s is i (f is) false) ∧
    (is.mask ≠ 0 → splits ∧ looping → Machine.exec i s = .next (s.trapAt is .loopdiv (.same 0) is.pc)) :=
  ⟨fun h0 => regFrame_of h he (if_pos h0), fun h0 hs => moved_of h he (branchBody_jump h0 hs),
    fun h0 hs => trap_of h he (branchBody_trap h0 hs)⟩

theorem misaligned_of {s : State} {i : Instr} {is : Issue} {a : VOp} {n : Nat} (body : Issue → State → Act)
    (h : s.issueOf i = some is) (h1 : s.illegalHere is = false) (h2 : s.boundTrap is = none) (h3 : s.held is = false)
    (hb : ∃ L ∈ lanesOf is.mask, (is.src64 (useS a true) L).toNat % n ≠ 0) :
    ∃ v, runWordWith i noCheck (targetAlign a n) body s = .next (s.trapAt is .align (.each v) is.pc) := by
  obtain ⟨L, hL, hn⟩ := hb
  have hne : ((lanesOf is.mask).filter (fun L => (is.src64 (useS a true) L).toNat % n != 0)).isEmpty = false :=
    List.isEmpty_eq_false_iff.2 (List.ne_nil_of_mem (List.mem_filter.2 ⟨hL, by simpa using hn⟩))
  refine ⟨((lanesOf is.mask).filter (fun L => (is.src64 (useS a true) L).toNat % n != 0)).map
    (fun L => (L, (is.src64 (useS a true) L).toNat)), ?_⟩
  simp [runWordWith, h, State.issueWord, h1, noCheck, h2, h3, State.issueTrap, targetAlign, hne]

/-- Settles O18. -/
theorem branches : Obligations.Branches := by
  unfold Obligations.Branches
  intro s is g off a w rest label pair splits looping moved holdsFor misaligned
  refine ⟨fun h => branch_holds (f := fun is _ => branchTarget is.pc off) rfl h, fun h => ⟨fun h0 => ?_, fun h0 hs => ?_,
      fun h0 hs => ?_⟩,
    fun h => branch_holds (f := fun is L => is.src64 (useS a true) L) rfl h,
    fun h => branch_holds (f := fun is L => is.src64 (useS a true) L) rfl h,
    fun h h1 h2 h3 hb => misaligned_of _ h h1 h2 h3 hb, fun h h1 h2 h3 hb => misaligned_of _ h h1 h2 h3 hb⟩
  · refine regFrame_of h rfl ?_
    simp [callBody, branchBody, h0]
  · refine moved_call_of h rfl ?_
    have hb : branchBody (fun _ => branchTarget is.pc off) is s = .jump (s.sendLanes is (fun _ => branchTarget is.pc off)) :=
      branchBody_jump h0 hs
    simp only [callBody, hb, Warp.link_eq]
    rfl
  · refine trap_of h rfl (?_ : callBody off is s = _)
    have hb : branchBody (fun _ => branchTarget is.pc off) is s = .trap .loopdiv (.same 0) := branchBody_trap h0 hs
    simp only [callBody, hb]

end Sys2Proof.Machine
end

section
/-! Rejoin masks: lanes park and leave (R210 to R212). -/

namespace Sys2Proof.Machine

/-! ### Unions of masks -/

/-- The lanes of some groups together. -/
def unionOf (ms : List LaneMask) : LaneMask := ms.foldl (fun m x => m ||| x) 0

theorem foldl_or_get {α : Type} (f : α → LaneMask) (l : List α) (m : LaneMask) (L : Nat) :
    (l.foldl (fun m q => m ||| f q) m).getLsbD L = (m.getLsbD L || l.any (fun q => (f q).getLsbD L)) := by
  induction l generalizing m with
  | nil => simp
  | cons a l ih => simp [ih, Bool.or_assoc]

theorem foldl_or_eq {α : Type} (f : α → LaneMask) (l : List α) : l.foldl (fun m q => m ||| f q) 0 = unionOf (l.map f) := by
  rw [unionOf, List.foldl_map]

theorem unionOf_get (ms : List LaneMask) (L : Nat) : (unionOf ms).getLsbD L = ms.any (fun m => m.getLsbD L) := by
  have := foldl_or_get (fun m : LaneMask => m) ms 0 L
  simpa [unionOf] using this

theorem unionOf_append (a b : List LaneMask) : unionOf (a ++ b) = unionOf a ||| unionOf b :=
  BitVec.eq_of_getLsbD_eq fun i _ => by simp [unionOf_get, List.any_append]

theorem unionOf_singleton (m : LaneMask) : unionOf [m] = m := by simp [unionOf]

theorem and_eq_zero_iff {m n : LaneMask} : m &&& n = 0 ↔ ∀ L, m.getLsbD L = true → n.getLsbD L = false := by
  constructor
  · intro h L hm
    rw [BitVec.and_comm] at h
    exact and_eq_zero_get h L hm
  · intro h
    refine BitVec.eq_of_getLsbD_eq fun i _ => ?_
    by_cases hm : m.getLsbD i = true
    · simp [hm, h i hm]
    · simp [hm]

/-! ### Releases -/

/-- What goes on together: the lanes, the word they waited at, the path's number and the parked groups they come from. -/
structure Release where
  mask : LaneMask
  site : W64
  num : Nat
  from_ : List Parked

def Warp.releaseList (w : Warp) (rs : List Release) : Warp := rs.foldl (fun w r => w.releaseAt r.mask r.site r.num r.from_) w

theorem Warp.releaseAt_nopc (w : Warp) (m : LaneMask) (a : W64) (n : Nat) (qs : List Parked) : (w.releaseAt m a n qs).nopc = w.nopc := by
  unfold Warp.releaseAt
  split
  · rfl
  · exact Warp.advance_nopc _ _ _ _

theorem Warp.releaseList_nopc (w : Warp) (rs : List Release) : (w.releaseList rs).nopc = w.nopc := by
  unfold Warp.releaseList
  induction rs generalizing w with
  | nil => rfl
  | cons r rs ih => exact (ih _).trans (Warp.releaseAt_nopc w r.mask r.site r.num r.from_)

theorem Warp.parked_nopc {v w : Warp} (h : v.nopc = w.nopc) : v.parked = w.parked := by
  have := congrArg Warp.parked h
  exact this

/-- A path of the word `a` and the lanes `m` after it. -/
def GoesOn (p : Path) (m : LaneMask) (a : W64) : Prop := p.mask = m ∧ (a.toNat / 4 % 4 < 3 → p.pc = a + 4)

/-- The path of a lane, moved over a word of one slot, comes last. -/
theorem Warp.advance_paths {w : Warp} {lane : Nat} {pc : W64} {p : Path} (hp : w.pathAt lane = some p) :
    ∃ q, (w.advance lane pc 1).paths = w.paths.filter (fun p => !p.mask.getLsbD lane) ++ [q] ∧ GoesOn q p.mask pc := by
  have hm : ¬p.mask = 0#128 := mask_ne (Warp.pathAt_lane hp).2
  by_cases hb : bitsOf pc 2 2 + 1 ≤ 3
  · rw [Warp.advance_inside hp hb]
    exact ⟨{ p with pc := pc + BitVec.ofNat 64 (4 * 1) }, by simp [Warp.putPath, hm], rfl, fun _ => rfl⟩
  · rw [Warp.advance_over hp hb]
    generalize loopAction w.l0 w.l1 (pktOf pc) = la
    exact ⟨{ p with pc := la.2.2, inside := false, strict := false }, by simp [Warp.putPath, hm], rfl,
      fun h => absurd h (by rw [bitsOf_pc] at hb; omega)⟩

/-- Lanes that are on no path go on as one. -/
theorem Warp.releaseAt_paths (w : Warp) {m : LaneMask} (a : W64) (n : Nat) (qs : List Parked) (hm : m ≠ 0)
    (hw : ∀ p ∈ w.paths, p.mask &&& m = 0) : ∃ q, (w.releaseAt m a n qs).paths = w.paths ++ [q] ∧ GoesOn q m a := by
  have hm' : ¬m = 0#128 := hm
  have hno : ∀ p ∈ w.paths, p.mask.getLsbD (lowLane m) = false := fun p hp => and_eq_zero_get (hw p hp) _ (lowLane_get hm)
  unfold Warp.releaseAt
  rw [if_neg hm]
  generalize hq : ({ mask := m, pc := a, inside := true, num := n, handler := qs.any Parked.handler, gen := _ } : Path) = q
  have hqm : q.mask = m := hq ▸ rfl
  have hat : ({ w with paths := w.paths ++ [q] } : Warp).pathAt (lowLane m) = some q := by
    have hnone : w.paths.find? (fun p => p.mask.getLsbD (lowLane m)) = none := List.find?_eq_none.2 fun p hp => by simp [hno p hp]
    simp only [Warp.pathAt, List.find?_append, hnone, List.find?_cons, hqm, lowLane_get hm, Option.none_or]
  have hfil : (w.paths ++ [q]).filter (fun p => !p.mask.getLsbD (lowLane m)) = w.paths := by
    rw [List.filter_append, List.filter_eq_self.2 fun p hp => by simp [hno p hp]]
    simp [hqm, lowLane_get hm]
  obtain ⟨r, hr, hrm, hrp⟩ := Warp.advance_paths (pc := a) hat
  exact ⟨r, hr.trans (by rw [hfil]), hrm.trans hqm, hrp⟩

/-- Releases of disjoint lanes, none of them on a path: each goes on as one path. -/
theorem Warp.releaseList_paths (w : Warp) (rs : List Release) (hd : rs.Pairwise (fun a b => a.mask &&& b.mask = 0))
    (hw : ∀ p ∈ w.paths, ∀ r ∈ rs, p.mask &&& r.mask = 0) :
    (∀ p ∈ w.paths, p ∈ (w.releaseList rs).paths) ∧
      ∀ r ∈ rs, r.mask ≠ 0 → ∃ p ∈ (w.releaseList rs).paths, GoesOn p r.mask r.site := by
  induction rs generalizing w with
  | nil => exact ⟨fun p hp => hp, fun r hr => by cases hr⟩
  | cons r rs ih =>
    rw [List.pairwise_cons] at hd
    show (∀ p ∈ w.paths, p ∈ ((w.releaseAt r.mask r.site r.num r.from_).releaseList rs).paths) ∧
      ∀ x ∈ r :: rs, x.mask ≠ 0 → ∃ p ∈ ((w.releaseAt r.mask r.site r.num r.from_).releaseList rs).paths, GoesOn p x.mask x.site
    by_cases hm : r.mask = 0
    · have h1 : w.releaseAt r.mask r.site r.num r.from_ = w := by unfold Warp.releaseAt; exact if_pos hm
      rw [h1]
      obtain ⟨h2, h3⟩ := ih w hd.2 fun p hp x hx => hw p hp x (List.mem_cons_of_mem _ hx)
      refine ⟨h2, fun x hx hx0 => ?_⟩
      rcases List.mem_cons.1 hx with rfl | hx
      · exact absurd hm hx0
      · exact h3 x hx hx0
    · obtain ⟨q, hq, hg⟩ := Warp.releaseAt_paths w r.site r.num r.from_ hm fun p hp => hw p hp r List.mem_cons_self
      obtain ⟨h2, h3⟩ := ih (w.releaseAt r.mask r.site r.num r.from_) hd.2 fun p hp x hx => by
        rw [hq] at hp
        rcases List.mem_append.1 hp with hp | hp
        · exact hw p hp x (List.mem_cons_of_mem _ hx)
        · rw [List.mem_singleton.1 hp, hg.1]
          exact hd.1 x hx
      rw [hq] at h2
      refine ⟨fun p hp => h2 p (List.mem_append_left _ hp), fun x hx hx0 => ?_⟩
      rcases List.mem_cons.1 hx with rfl | hx
      · exact ⟨q, h2 q (List.mem_append_right _ List.mem_cons_self), hg⟩
      · exact h3 x hx hx0

/-! ### R211 -/

/-- The lanes of the parked groups that name `k`. -/
def Warp.parkedFor (w : Warp) (k : Nat) : LaneMask := (w.parked.filter (fun q => q.site.names k)).foldl (fun m q => m ||| q.mask) 0

/-- The parked groups at a JOIN, or a WAITK, of `k`. -/
def Warp.joinsOf (w : Warp) (k : Nat) : List Parked :=
  (w.parked.filter (fun q => q.site.names k)).filter (fun q => match q.site with | .join _ => true | _ => false)

def Warp.waitsOf (w : Warp) (k : Nat) : List Parked :=
  (w.parked.filter (fun q => q.site.names k)).filter (fun q => match q.site with | .waitk _ => true | _ => false)

/-- What R211 lets go for `k`, the lanes `m` being its members. -/
def Warp.releasesOf (w : Warp) (k : Nat) (m : LaneMask) : List Release :=
  (((w.joinsOf k).map Parked.at_).eraseDups.map (fun pc =>
    ⟨unionOf (((w.joinsOf k).filter (fun q => q.at_ == pc)).map Parked.mask) &&& m, pc, 0, (w.joinsOf k).filter (fun q => q.at_ == pc)⟩)) ++
  (w.waitsOf k).map (fun q => ⟨q.mask &&& m, q.at_, q.num, [q]⟩)

theorem Warp.releaseK_none {w : Warp} {k : Nat}
    (h : w.kmask k &&& w.live = 0 ∨ mdiff (w.kmask k &&& w.live) (w.parkedFor k) ≠ 0) : w.releaseK k = w := by
  unfold Warp.releaseK
  refine if_pos ?_
  simpa [Warp.parkedFor] using h

theorem Warp.releaseK_some {w : Warp} {k : Nat} (h0 : w.kmask k &&& w.live ≠ 0)
    (h : mdiff (w.kmask k &&& w.live) (w.parkedFor k) = 0) : w.releaseK k =
      (w.unpark (w.kmask k &&& w.live) (fun q => q.site.names k)).releaseList (w.releasesOf k (w.kmask k &&& w.live)) := by
  unfold Warp.releaseK
  rw [if_neg (by simpa [Warp.parkedFor] using ⟨h0, h⟩)]
  simp only [Warp.releaseList, Warp.releasesOf, List.foldl_append, List.foldl_map, ← foldl_or_eq]
  rfl

/-- A warp without where its paths and parked lanes stand. -/
def Warp.still (w : Warp) : Warp := { w.nopc with parked := [] }

theorem Warp.still_of_nopc {v w : Warp} (h : v.nopc = w.nopc) : v.still = w.still :=
  congrArg (fun x : Warp => ({ x with parked := [] } : Warp)) h

theorem Warp.releaseK_still (w : Warp) (k : Nat) : (w.releaseK k).still = w.still := by
  by_cases h : w.kmask k &&& w.live = 0 ∨ mdiff (w.kmask k &&& w.live) (w.parkedFor k) ≠ 0
  · rw [Warp.releaseK_none h]
  · simp only [not_or, not_not] at h
    rw [Warp.releaseK_some h.1 h.2]
    exact (Warp.still_of_nopc (Warp.releaseList_nopc _ _)).trans rfl

theorem Warp.putPath_nopc (w : Warp) (L : Nat) (ps : List Path) : (w.putPath L ps).nopc = w.nopc := rfl

section
variable {v w : Warp} (h : v.still = w.still)
include h

theorem Warp.still_s : v.s = w.s := by have := congrArg Warp.s h; exact this
theorem Warp.still_p : v.p = w.p := by have := congrArg Warp.p h; exact this
theorem Warp.still_blocks : v.blocks = w.blocks := by have := congrArg Warp.blocks h; exact this
theorem Warp.still_exited : v.exited = w.exited := by have := congrArg Warp.exited h; exact this
theorem Warp.still_filed : v.filed = w.filed := by have := congrArg Warp.filed h; exact this
theorem Warp.still_k : v.k = w.k := by have := congrArg Warp.k h; exact this
theorem Warp.still_x : v.x = w.x := by have := congrArg Warp.x h; exact this

theorem Warp.still_members (k : Nat) : v.kmask k &&& v.live = w.kmask k &&& w.live := by
  simp only [Warp.kmask, Warp.live, Warp.still_k h, Warp.still_exited h, Warp.still_filed h]

end

/-- Once released, no member is parked for the mask. -/
theorem Warp.releaseK_parkedFor {w : Warp} {k : Nat} (h0 : w.kmask k &&& w.live ≠ 0)
    (h : mdiff (w.kmask k &&& w.live) (w.parkedFor k) = 0) :
    (w.releaseK k).parkedFor k &&& (w.kmask k &&& w.live) = 0 := by
  rw [Warp.releaseK_some h0 h, Warp.parkedFor, Warp.parked_nopc (Warp.releaseList_nopc _ _), and_eq_zero_iff]
  intro L hL
  rw [foldl_or_get] at hL
  simp only [show (0 : LaneMask).getLsbD L = false from BitVec.getLsbD_zero, Bool.false_or, List.any_eq_true, List.mem_filter] at hL
  obtain ⟨q, ⟨hq, hn⟩, hql⟩ := hL
  simp only [Warp.unpark, List.mem_filter, List.mem_map] at hq
  obtain ⟨⟨r, hr, rfl⟩, -⟩ := hq
  by_cases hs : r.site.names k = true
  · rw [if_pos hs] at hql
    by_cases hlt : L < 128
    · rw [show ({ r with mask := mdiff r.mask (w.kmask k &&& w.live) } : Parked).mask = mdiff r.mask (w.kmask k &&& w.live) from rfl,
        mdiff_get hlt] at hql
      simp only [Bool.and_eq_true, Bool.not_eq_true'] at hql
      exact hql.2
    · exact BitVec.getLsbD_of_ge _ _ (by omega)
  · rw [if_neg hs] at hn
    exact absurd hn hs

/-! ### JOIN and WAITK -/

/-- The warp once the lanes `inside` of the path have parked at the word, and the others have gone on. -/
def Warp.parks (w : Warp) (is : Issue) (site : ParkSite) (inside : LaneMask) : Warp :=
  match w.pathAt is.lane with
  | none => w
  | some p =>
    let w1 : Warp := { w.putPath is.lane [{ p with mask := mdiff is.path inside }] with
      parked := w.parked ++ [{ site := site, mask := inside, at_ := is.pc, num := p.num, handler := p.handler, gen := p.gen }] }
    if mdiff is.path inside = 0 then w1 else w1.advance (lowLane (mdiff is.path inside)) is.pc 1

section
variable {w : Warp} {is : Issue} {site : ParkSite} {inside : LaneMask} {p : Path}

theorem Warp.parks_still : (w.parks is site inside).still = w.still := by
  unfold Warp.parks
  split
  · rfl
  · split
    · rfl
    · exact (Warp.still_of_nopc (Warp.advance_nopc _ _ _ _)).trans rfl

variable (hp : w.pathAt is.lane = some p)
include hp

theorem Warp.parks_parked : (w.parks is site inside).parked =
    w.parked ++ [{ site := site, mask := inside, at_ := is.pc, num := p.num, handler := p.handler, gen := p.gen }] := by
  simp only [Warp.parks, hp]
  split
  · rfl
  · exact Warp.parked_nopc (Warp.advance_nopc _ _ _ _)

/-- Every path is one of the other lanes, or that of the lanes that go on. -/
theorem Warp.parks_paths {q : Path} (hq : q ∈ (w.parks is site inside).paths) :
    (∃ r ∈ w.paths, r.mask.getLsbD is.lane = false ∧ q.mask = r.mask) ∨ q.mask = mdiff is.path inside := by
  have base : ∀ r ∈ (w.putPath is.lane [{ p with mask := mdiff is.path inside }]).paths,
      (∃ x ∈ w.paths, x.mask.getLsbD is.lane = false ∧ r.mask = x.mask) ∨ r.mask = mdiff is.path inside := fun r hr => by
    rcases Warp.mem_putPath.1 hr with ⟨h1, h2⟩ | ⟨h1, -⟩
    · exact .inl ⟨r, h1, h2, rfl⟩
    · rw [List.mem_singleton.1 h1]; exact .inr rfl
  simp only [Warp.parks, hp] at hq
  split at hq
  · exact base q hq
  · next hn =>
    obtain ⟨r, hr⟩ : ∃ r, ({ w.putPath is.lane [{ p with mask := mdiff is.path inside }] with
        parked := w.parked ++ [{ site := site, mask := inside, at_ := is.pc, num := p.num, handler := p.handler, gen := p.gen }] }
          : Warp).pathAt (lowLane (mdiff is.path inside)) = some r :=
      Warp.pathAt_isSome (q := { p with mask := mdiff is.path inside }) (Warp.mem_putPath.2 (.inr ⟨List.mem_cons_self, hn⟩))
        (lowLane_get hn)
    obtain ⟨x, hx, hxm, -⟩ := Warp.advance_paths (pc := is.pc) hr
    rw [hx] at hq
    rcases List.mem_append.1 hq with hq | hq
    · exact base q (List.mem_filter.1 hq).1
    · rw [List.mem_singleton.1 hq, hxm]
      exact base r (Warp.pathAt_lane hr).1

theorem Warp.parks_parkedFor {k : Nat} (hs : site.names k = true) :
    (w.parks is site inside).parkedFor k = w.parkedFor k ||| inside := by
  simp [Warp.parkedFor, Warp.parks_parked hp, List.filter_append, hs]

end

theorem parkBody_eq {site : ParkSite} {k : Fin 16} {is : Issue} {s : State} (h : is.path &&& is.w.kmask k.val ≠ 0) :
    parkBody site k is s = .jump (s.modWarp is.who (fun w =>
      match w.pathAt is.lane with
      | none => w
      | some _ => (w.parks is site (is.path &&& is.w.kmask k.val)).releaseK k.val)) := by
  simp only [parkBody, if_neg h]
  congr 2
  funext w
  cases hp : w.pathAt is.lane with
  | none => rfl
  | some p => simp only [Warp.parks, hp]

/-- What a rejoin word keeps. -/
def KeepsRegs (s t : State) (who : Nat) : Prop :=
  (t.warp who).s = (s.warp who).s ∧ (t.warp who).p = (s.warp who).p ∧ (t.warp who).blocks = (s.warp who).blocks ∧
    (t.warp who).exited = (s.warp who).exited ∧ WordFrame s t who

/-- A JOIN or WAITK with lanes inside the mask leaves the warp that has parked them and been released by R211. -/
theorem parked_of {s : State} {i : Instr} {is : Issue} {k : Fin 16} {site : ParkSite} (h : s.ready i = some is)
    (he : Machine.exec i s = runWord i (parkBody site k) s) (h0 : is.path &&& is.w.kmask k.val ≠ 0) :
    ∃ t, Machine.exec i s = .next t ∧ KeepsRegs s t is.who ∧ (t.warp is.who).k = (s.warp is.who).k ∧
      (t.warp is.who).parked = (((s.warp is.who).parks is site (is.path &&& is.w.kmask k.val)).releaseK k.val).parked ∧
      (t.warp is.who).paths = (((s.warp is.who).parks is site (is.path &&& is.w.kmask k.val)).releaseK k.val).paths := by
  obtain ⟨-, p, hp, -, -, -⟩ := State.readyWith_path h
  obtain ⟨t, ht, hf, hn⟩ := jumpEnd_of h he (parkBody_eq h0) rfl
  rw [State.warp_modWarp] at hn
  simp only [hp] at hn
  have hst := (Warp.releaseK_still ((s.warp is.who).parks is site (is.path &&& is.w.kmask k.val)) k.val).trans Warp.parks_still
  exact ⟨t, ht, ⟨(Warp.nox_s hn).trans (Warp.still_s hst), (Warp.nox_p hn).trans (Warp.still_p hst),
    (Warp.nox_blocks hn).trans (Warp.still_blocks hst), (Warp.nox_exited hn).trans (Warp.still_exited hst),
    (WordFrame.modWarp s is.who _).trans hf⟩, (Warp.nox_k hn).trans (Warp.still_k hst), Warp.nox_parked hn, Warp.nox_paths hn⟩

section
variable {s : State} {i : Instr} {is : Issue} {k : Fin 16} {site : ParkSite} (h : s.ready i = some is)
  (he : Machine.exec i s = runWord i (parkBody site k) s) (hs : site.names k.val = true)
include h he hs

/-- R211: lanes of the mask that is not yet complete park. -/
theorem parks_of (h0 : is.path &&& is.w.kmask k.val ≠ 0)
    (hm : mdiff ((s.warp is.who).kmask k.val &&& (s.warp is.who).live)
      ((s.warp is.who).parkedFor k.val ||| (is.path &&& is.w.kmask k.val)) ≠ 0) :
    ∃ t, Machine.exec i s = .next t ∧ KeepsRegs s t is.who ∧ (t.warp is.who).k = (s.warp is.who).k ∧
      (∃ q ∈ (t.warp is.who).parked, q.site = site ∧ q.mask = is.path &&& is.w.kmask k.val ∧ q.at_ = is.pc) ∧
      ((is.path &&& is.w.kmask k.val).getLsbD is.lane = true →
        ∀ p ∈ (t.warp is.who).paths, p.mask.getLsbD is.lane = false) := by
  obtain ⟨-, p, hp, -, -, -⟩ := State.readyWith_path h
  obtain ⟨t, ht, hk, hkk, hpk, hpp⟩ := parked_of h he h0
  have hno : (((s.warp is.who).parks is site (is.path &&& is.w.kmask k.val)).releaseK k.val) =
      (s.warp is.who).parks is site (is.path &&& is.w.kmask k.val) := by
    refine Warp.releaseK_none (.inr ?_)
    rwa [Warp.still_members Warp.parks_still, Warp.parks_parkedFor hp hs]
  rw [hno] at hpk hpp
  refine ⟨t, ht, hk, hkk, ?_, fun hl q hq => ?_⟩
  · rw [hpk, Warp.parks_parked hp]
    exact ⟨_, List.mem_append_right _ List.mem_cons_self, rfl, rfl, rfl⟩
  · rw [hpp] at hq
    rcases Warp.parks_paths hp hq with ⟨r, -, hr, hqr⟩ | hqm
    · rw [hqr]; exact hr
    · have hlt : is.lane < 128 := by
        by_contra hge
        rw [BitVec.getLsbD_of_ge _ _ (by omega)] at hl
        cases hl
      rw [hqm, mdiff_get hlt, hl]
      simp

/-- R211: once every member is parked, the members leave. -/
theorem released_of (h0 : is.path &&& is.w.kmask k.val ≠ 0)
    (hm0 : (s.warp is.who).kmask k.val &&& (s.warp is.who).live ≠ 0)
    (hm : mdiff ((s.warp is.who).kmask k.val &&& (s.warp is.who).live)
      ((s.warp is.who).parkedFor k.val ||| (is.path &&& is.w.kmask k.val)) = 0) :
    ∃ t v, Machine.exec i s = .next t ∧ KeepsRegs s t is.who ∧ (t.warp is.who).k = (s.warp is.who).k ∧
      v = (s.warp is.who).parks is site (is.path &&& is.w.kmask k.val) ∧
      (t.warp is.who).parkedFor k.val &&& ((s.warp is.who).kmask k.val &&& (s.warp is.who).live) = 0 ∧
      (t.warp is.who).paths = ((v.unpark ((s.warp is.who).kmask k.val &&& (s.warp is.who).live) (fun q => q.site.names k.val)).releaseList
        (v.releasesOf k.val ((s.warp is.who).kmask k.val &&& (s.warp is.who).live))).paths := by
  obtain ⟨-, p, hp, -, -, -⟩ := State.readyWith_path h
  obtain ⟨t, ht, hk, hkk, hpk, hpp⟩ := parked_of h he h0
  have hmem : ((s.warp is.who).parks is site (is.path &&& is.w.kmask k.val)).kmask k.val &&&
      ((s.warp is.who).parks is site (is.path &&& is.w.kmask k.val)).live = (s.warp is.who).kmask k.val &&& (s.warp is.who).live :=
    Warp.still_members Warp.parks_still _
  have h1 := hmem.symm ▸ hm0
  have h2 : mdiff (((s.warp is.who).parks is site (is.path &&& is.w.kmask k.val)).kmask k.val &&&
      ((s.warp is.who).parks is site (is.path &&& is.w.kmask k.val)).live)
        (((s.warp is.who).parks is site (is.path &&& is.w.kmask k.val)).parkedFor k.val) = 0 := by
    rwa [hmem, Warp.parks_parkedFor hp hs]
  refine ⟨t, _, ht, hk, hkk, rfl, ?_, ?_⟩
  · have := Warp.releaseK_parkedFor h1 h2
    rw [hmem] at this
    rw [Warp.parkedFor, hpk]
    exact this
  · rw [hpp, Warp.releaseK_some h1 h2, hmem]

end

/-! ### The lanes that leave -/

/-- The parked groups that name `k`. -/
def Warp.namers (w : Warp) (k : Nat) : List Parked := w.parked.filter (fun q => q.site.names k)

theorem names_iff {x : ParkSite} {k : Fin 16} : x.names k.val = true ↔ x = .join k ∨ x = .waitk k := by
  cases x with
  | join j => simp [ParkSite.names, Fin.ext_iff]
  | waitk j => simp [ParkSite.names, Fin.ext_iff]
  | bar => simp [ParkSite.names]

theorem mem_joinsOf {w : Warp} {k : Fin 16} {q : Parked} : q ∈ w.joinsOf k.val ↔ q ∈ w.namers k.val ∧ q.site = .join k := by
  simp only [Warp.joinsOf, List.mem_filter, Warp.namers]
  constructor
  · rintro ⟨⟨h1, h2⟩, h3⟩
    refine ⟨⟨h1, h2⟩, (names_iff.1 h2).resolve_right fun hx => ?_⟩
    rw [hx] at h3
    cases h3
  · rintro ⟨h, h3⟩
    exact ⟨h, by rw [h3]⟩

theorem mem_waitsOf {w : Warp} {k : Fin 16} {q : Parked} : q ∈ w.waitsOf k.val ↔ q ∈ w.namers k.val ∧ q.site = .waitk k := by
  simp only [Warp.waitsOf, List.mem_filter, Warp.namers]
  constructor
  · rintro ⟨⟨h1, h2⟩, h3⟩
    refine ⟨⟨h1, h2⟩, (names_iff.1 h2).resolve_left fun hx => ?_⟩
    rw [hx] at h3
    cases h3
  · rintro ⟨h, h3⟩
    exact ⟨h, by rw [h3]⟩

theorem joinsOf_eq (w : Warp) (k : Fin 16) : w.joinsOf k.val = (w.namers k.val).filter (fun q => q.site == .join k) := by
  unfold Warp.joinsOf
  refine List.filter_congr fun q hq => ?_
  rcases names_iff.1 (List.mem_filter.1 hq).2 with h | h
  · simp [h]
  · simp [h]

/-- Groups of disjoint lanes share none. -/
theorem eq_of_common_lane {l : List Parked} (hd : l.Pairwise (fun x y => x.mask &&& y.mask = 0)) {a b : Parked} (ha : a ∈ l)
    (hb : b ∈ l) {L : Nat} (h1 : a.mask.getLsbD L = true) (h2 : b.mask.getLsbD L = true) : a = b := by
  by_contra hne
  have hs : Std.Symm (fun x y : Parked => x.mask &&& y.mask = 0) := ⟨fun x y h => by rw [BitVec.and_comm]; exact h⟩
  have := and_eq_zero_iff.1 (hd.forall ha hb hne) L h1
  rw [h2] at this
  cases this

theorem nodup_eraseDups (l : List W64) : l.eraseDups.Nodup := by
  induction hn : l.length using Nat.strong_induction_on generalizing l with
  | _ n ih =>
    cases l with
    | nil => exact List.nodup_nil
    | cons a as =>
      rw [List.eraseDups_cons, List.nodup_cons, List.mem_eraseDups]
      have hlt : (as.filter (fun b => !b == a)).length < n := by
        rw [← hn, List.length_cons]
        exact Nat.lt_succ_of_le (List.length_filter_le _ _)
      exact ⟨by simp, ih _ hlt _ rfl⟩

theorem releasesOf_disjoint {w : Warp} {k : Fin 16} (m : LaneMask) (hd : (w.namers k.val).Pairwise (fun x y => x.mask &&& y.mask = 0)) :
    (w.releasesOf k.val m).Pairwise (fun a b => a.mask &&& b.mask = 0) := by
  have hjoin : ∀ pc L, (unionOf (((w.joinsOf k.val).filter (fun q => q.at_ == pc)).map Parked.mask) &&& m).getLsbD L = true →
      ∃ q ∈ w.namers k.val, q.site = .join k ∧ q.at_ = pc ∧ q.mask.getLsbD L = true := fun pc L h => by
    rw [BitVec.getLsbD_and, unionOf_get] at h
    simp only [List.any_map, Bool.and_eq_true, List.any_eq_true, List.mem_filter, Function.comp_apply, beq_iff_eq] at h
    obtain ⟨⟨q, ⟨hq, ha⟩, hl⟩, -⟩ := h
    exact ⟨q, (mem_joinsOf.1 hq).1, (mem_joinsOf.1 hq).2, ha, hl⟩
  unfold Warp.releasesOf
  rw [List.pairwise_append, List.pairwise_map, List.pairwise_map]
  refine ⟨?_, ?_, ?_⟩
  · refine (nodup_eraseDups _).imp fun {a b} hab => and_eq_zero_iff.2 fun L ha => ?_
    by_contra hb
    obtain ⟨x, hx, -, hxa, hxl⟩ := hjoin a L ha
    obtain ⟨y, hy, -, hya, hyl⟩ := hjoin b L (by simpa using hb)
    exact hab (hxa.symm.trans ((congrArg Parked.at_ (eq_of_common_lane hd hx hy hxl hyl)).trans hya))
  · refine ((hd.filter _).imp fun {a b} hab => and_eq_zero_iff.2 fun L ha => ?_)
    simp only [BitVec.getLsbD_and, Bool.and_eq_true] at ha ⊢
    rw [and_eq_zero_iff.1 hab L ha.1, Bool.false_and]
  · intro a ha b hb
    obtain ⟨pc, -, rfl⟩ := List.mem_map.1 ha
    obtain ⟨q, hq, rfl⟩ := List.mem_map.1 hb
    refine and_eq_zero_iff.2 fun L hl => ?_
    by_contra hb
    obtain ⟨x, hx, hxs, -, hxl⟩ := hjoin pc L hl
    have hql : q.mask.getLsbD L = true := by
      simp only [BitVec.getLsbD_and, Bool.not_eq_false, Bool.and_eq_true] at hb
      exact hb.1
    obtain ⟨hq1, hq2⟩ := mem_waitsOf.1 hq
    have := congrArg Parked.site (eq_of_common_lane hd hx hq1 hxl hql)
    rw [hxs, hq2] at this
    cases this

/-- The lanes that a parked group's word lets go, of the members `m`: all those of the JOIN, or the group's own. -/
def Warp.leaving (w : Warp) (k : Fin 16) (m : LaneMask) (q : Parked) : LaneMask :=
  m &&& (if q.site == .join k then unionOf (((w.namers k.val).filter (fun x => x.site == .join k && x.at_ == q.at_)).map Parked.mask)
    else q.mask)

theorem mem_releasesOf {w : Warp} {k : Fin 16} {m : LaneMask} {q : Parked} (hq : q ∈ w.namers k.val) :
    ∃ r ∈ w.releasesOf k.val m, r.mask = w.leaving k m q ∧ r.site = q.at_ := by
  unfold Warp.releasesOf Warp.leaving
  rcases names_iff.1 (List.mem_filter.1 hq).2 with h | h
  · refine ⟨_, List.mem_append_left _ (List.mem_map.2 ⟨q.at_, List.mem_eraseDups.2 (List.mem_map_of_mem (mem_joinsOf.2 ⟨hq, h⟩)), rfl⟩),
      ?_, rfl⟩
    simp only [h, BEq.rfl, if_true, joinsOf_eq, List.filter_filter, BitVec.and_comm m]
    simp only [Bool.and_comm]
  · refine ⟨_, List.mem_append_right _ (List.mem_map.2 ⟨q, mem_waitsOf.2 ⟨hq, h⟩, rfl⟩), ?_, rfl⟩
    rw [if_neg (by simp [h]), BitVec.and_comm]

theorem releasesOf_sub {w : Warp} {k : Nat} {m : LaneMask} {r : Release} (hr : r ∈ w.releasesOf k m) {p : LaneMask}
    (hp : p &&& m = 0) : p &&& r.mask = 0 := by
  have : ∃ x, r.mask = x &&& m := by
    unfold Warp.releasesOf at hr
    rcases List.mem_append.1 hr with hr | hr
    · obtain ⟨pc, -, rfl⟩ := List.mem_map.1 hr
      exact ⟨_, rfl⟩
    · obtain ⟨q, -, rfl⟩ := List.mem_map.1 hr
      exact ⟨_, rfl⟩
  obtain ⟨x, hx⟩ := this
  rw [hx, and_eq_zero_iff]
  intro L hL
  rw [BitVec.getLsbD_and, and_eq_zero_iff.1 hp L hL, Bool.and_false]

/-- R211: the members leave, those of one JOIN as one path and those of a WAITK as they came. -/
theorem Warp.releasesOf_paths {v : Warp} {k : Fin 16} {m : LaneMask}
    (hd : (v.namers k.val).Pairwise (fun x y => x.mask &&& y.mask = 0)) (hp : ∀ p ∈ v.paths, p.mask &&& m = 0) {q : Parked}
    (hq : q ∈ v.namers k.val) (h0 : v.leaving k m q ≠ 0) :
    ∃ p ∈ ((v.unpark m (fun q => q.site.names k.val)).releaseList (v.releasesOf k.val m)).paths, GoesOn p (v.leaving k m q) q.at_ := by
  obtain ⟨r, hr, hrm, hrs⟩ := mem_releasesOf (m := m) hq
  obtain ⟨-, h2⟩ := Warp.releaseList_paths (v.unpark m (fun q => q.site.names k.val)) (v.releasesOf k.val m) (releasesOf_disjoint m hd)
    fun p hpp r hr => releasesOf_sub hr (hp p hpp)
  rw [← hrm, ← hrs]
  exact h2 r hr (hrm ▸ h0)

theorem eraseDups_const {l : List Parked} {a : W64} (h0 : l ≠ []) (h : ∀ q ∈ l, q.at_ = a) : (l.map Parked.at_).eraseDups = [a] := by
  cases l with
  | nil => exact absurd rfl h0
  | cons x l =>
    have hf : (l.map Parked.at_).filter (fun b => !b == x.at_) = [] := by
      refine List.filter_eq_nil_iff.2 fun b hb => ?_
      obtain ⟨y, hy, rfl⟩ := List.mem_map.1 hb
      simp [h y (List.mem_cons_of_mem _ hy), h x List.mem_cons_self]
    rw [List.map_cons, List.eraseDups_cons, hf, h x List.mem_cons_self]
    simp

/-- Where every group that names `k` stands at one JOIN, there is one release. -/
theorem releasesOf_join {w : Warp} {k : Fin 16} {m : LaneMask} {a : W64} (h0 : w.namers k.val ≠ [])
    (h : ∀ q ∈ w.namers k.val, q.site = .join k ∧ q.at_ = a) :
    w.releasesOf k.val m = [⟨w.parkedFor k.val &&& m, a, 0, w.namers k.val⟩] := by
  have hj : w.joinsOf k.val = w.namers k.val := by
    rw [joinsOf_eq, List.filter_eq_self]
    exact fun q hq => by simp [(h q hq).1]
  have hw : w.waitsOf k.val = [] := by
    refine List.eq_nil_iff_forall_not_mem.2 fun q hq => ?_
    obtain ⟨h1, h2⟩ := mem_waitsOf.1 hq
    rw [(h q h1).1] at h2
    cases h2
  have hf : (w.namers k.val).filter (fun q => q.at_ == a) = w.namers k.val := List.filter_eq_self.2 fun q hq => by simp [(h q hq).2]
  rw [Warp.releasesOf, hj, hw, eraseDups_const h0 fun q hq => (h q hq).2]
  rw [List.map_nil, List.append_nil, List.map_singleton, hf, ← foldl_or_eq]
  rfl

/-- A released path, and that it is the released lanes' alone where no other path is left. -/
theorem Warp.releaseAt_path (w : Warp) {m : LaneMask} (a : W64) (n : Nat) (qs : List Parked) (hm : m ≠ 0) :
    ∃ p ∈ (w.releaseAt m a n qs).paths, p.mask.getLsbD (lowLane m) = true ∧ (w.paths = [] → p.mask = m) ∧
      (a.toNat / 4 % 4 < 3 → p.pc = a + 4) := by
  unfold Warp.releaseAt
  rw [if_neg hm]
  generalize hq : ({ mask := m, pc := a, inside := true, num := n, handler := qs.any Parked.handler, gen := _ } : Path) = q
  have hqm : q.mask = m := hq ▸ rfl
  obtain ⟨r, hr⟩ : ∃ r, ({ w with paths := w.paths ++ [q] } : Warp).pathAt (lowLane m) = some r :=
    Warp.pathAt_isSome (q := q) (List.mem_append_right _ List.mem_cons_self) (by rw [hqm]; exact lowLane_get hm)
  obtain ⟨p, hp, hpm, hpp⟩ := Warp.advance_paths (pc := a) hr
  refine ⟨p, by rw [hp]; exact List.mem_append_right _ List.mem_cons_self, by rw [hpm]; exact (Warp.pathAt_lane hr).2, fun h0 => ?_, hpp⟩
  have hmem : r ∈ w.paths ++ [q] := (Warp.pathAt_lane hr).1
  rw [h0, List.nil_append, List.mem_singleton] at hmem
  rw [hpm, hmem, hqm]

section
variable {s : State} {i : Instr} {is : Issue} {k : Fin 16} {site : ParkSite} (h : s.ready i = some is)
  (he : Machine.exec i s = runWord i (parkBody site k) s) (hs : site.names k.val = true)
include h he hs

theorem leaves_of (h0 : is.path &&& is.w.kmask k.val ≠ 0)
    (hm0 : (s.warp is.who).kmask k.val &&& (s.warp is.who).live ≠ 0)
    (hm : mdiff ((s.warp is.who).kmask k.val &&& (s.warp is.who).live)
      ((s.warp is.who).parkedFor k.val ||| (is.path &&& is.w.kmask k.val)) = 0)
    (ho : mdiff is.path (is.path &&& is.w.kmask k.val) &&& ((s.warp is.who).kmask k.val &&& (s.warp is.who).live) = 0)
    (hw : ∀ p ∈ (s.warp is.who).paths, p.mask.getLsbD is.lane = false →
      p.mask &&& ((s.warp is.who).kmask k.val &&& (s.warp is.who).live) = 0) :
    ∃ t v, Machine.exec i s = .next t ∧ KeepsRegs s t is.who ∧ (t.warp is.who).k = (s.warp is.who).k ∧
      v = (s.warp is.who).parks is site (is.path &&& is.w.kmask k.val) ∧
      (t.warp is.who).parkedFor k.val &&& ((s.warp is.who).kmask k.val &&& (s.warp is.who).live) = 0 ∧
      ((v.namers k.val).Pairwise (fun x y => x.mask &&& y.mask = 0) →
        ∀ q ∈ v.namers k.val, v.leaving k ((s.warp is.who).kmask k.val &&& (s.warp is.who).live) q ≠ 0 →
          ∃ p ∈ (t.warp is.who).paths, GoesOn p (v.leaving k ((s.warp is.who).kmask k.val &&& (s.warp is.who).live) q) q.at_) := by
  obtain ⟨-, p, hp, -, -, -⟩ := State.readyWith_path h
  obtain ⟨t, v, ht, hk, hkk, hv, hpk, hpp⟩ := released_of h he hs h0 hm0 hm
  refine ⟨t, v, ht, hk, hkk, hv, hpk, fun hd q hq hl => ?_⟩
  rw [hpp]
  refine Warp.releasesOf_paths hd (fun r hr => ?_) hq hl
  rw [hv] at hr
  rcases Warp.parks_paths hp hr with ⟨x, hx, hxl, hrx⟩ | hrx
  · rw [hrx]; exact hw x hx hxl
  · rw [hrx]; exact ho

end

/-- Settles O19. -/
theorem rejoinMasks : Obligations.RejoinMasks := by
  unfold Obligations.RejoinMasks
  intro s is k w inside names parkedAt keeps parks members releases
  have hparks : ∀ i site, s.ready i = some is → Machine.exec i s = runWord i (parkBody site k) s → site.names k.val = true →
      parks i site := fun i site h he hs =>
    ⟨fun h0 => regFrame_of h he (if_pos h0), fun h0 hm => parks_of h he hs h0 hm⟩
  have hreleases : ∀ i site, s.ready i = some is → Machine.exec i s = runWord i (parkBody site k) s → site.names k.val = true →
      releases i site := fun i site h he hs => by
    intro h0 hm0 hm ho hw hd
    obtain ⟨-, p, hp, -, -, -⟩ := State.readyWith_path h
    obtain ⟨t, v, ht, hk, hkk, hv, hpk, hpp⟩ := leaves_of h he hs h0 hm0 hm ho hw
    have hg : (w.parked.filter names).map (fun q => (q.site, q.at_, q.mask)) ++ [(site, is.pc, inside)] =
        (v.namers k.val).map (fun q => (q.site, q.at_, q.mask)) := by
      simp only [hv, Warp.namers, Warp.parks_parked hp, List.filter_append, List.map_append, List.filter_cons, hs, if_true,
        List.filter_nil, List.map_cons, List.map_nil]
      rfl
    rw [hg, List.pairwise_map] at hd
    refine ⟨t, ht, hk, hkk, hpk, fun q hq hl => ?_⟩
    have hq' := hq
    rw [hg] at hq'
    obtain ⟨x, hx, rfl⟩ := List.mem_map.1 hq'
    have hle : members &&& (if (x.site == .join k) = true then
        (((w.parked.filter names).map (fun q => (q.site, q.at_, q.mask)) ++ [(site, is.pc, inside)]).filter
          (fun y => y.1 == .join k && y.2.1 == x.at_)).foldl (fun m x => m ||| x.2.2) 0 else x.mask) = v.leaving k members x := by
      simp only [Warp.leaving, hg, List.filter_map, foldl_or_eq, List.map_map]
      rfl
    obtain ⟨r, hr, h1, h2⟩ := hpp hd x hx fun hz => hl (hle.trans hz)
    exact ⟨r, hr, h1.trans hle.symm, h2⟩
  have hj : (ParkSite.join k).names k.val = true := names_iff.2 (.inl rfl)
  have hwk : (ParkSite.waitk k).names k.val = true := names_iff.2 (.inr rfl)
  refine ⟨fun h => ?_, fun h => ⟨hparks _ _ h rfl hj, fun h0 hm hin hall => ?_, hreleases _ _ h rfl hj⟩,
    fun h => ⟨hparks _ _ h rfl hwk, hreleases _ _ h rfl hwk⟩⟩
  · have hb : splitBody k is s = .next (s.modWarp is.who (fun w => (w.setK k.val is.path).releaseK k.val)) := rfl
    obtain ⟨he, hend⟩ := wordEnd_of h rfl hb rfl
    obtain ⟨f1, f2, f3, f4⟩ := hend.fields
    rw [State.warp_modWarp] at f1 f2 f3 f4
    have hst := Warp.releaseK_still (w.setK k.val is.path) k.val
    have hx := (congrArg Warp.exited f4 : _)
    have hkk := (congrArg Warp.k f4 : _)
    have hk' : ∀ j, ((((s.modWarp is.who (fun w => (w.setK k.val is.path).releaseK k.val)).finish is).warp is.who).kmask j) =
        (w.setK k.val is.path).kmask j := fun j => congrArg (fun m => mgetD m j 0) (hkk.trans (Warp.still_k hst :))
    refine ⟨_, he, ⟨f1.trans (Warp.still_s hst :), f2.trans (Warp.still_p hst :), f3.trans (Warp.still_blocks hst :),
      hx.trans (Warp.still_exited hst :), (WordFrame.modWarp s is.who _).trans hend.frame⟩, ?_, fun j hj => ?_⟩
    · rw [hk']; exact mgetD_mset_same _ _ _ _
    · rw [hk']; exact mgetD_mset_other _ _ _ hj
  · obtain ⟨-, p, hp, hpath, -, -⟩ := State.readyWith_path h
    have hm0 : members ≠ 0 := fun hz => hin (by show inside &&& members = 0; rw [hz]; exact BitVec.and_zero)
    obtain ⟨t, v, ht, hk, hkk, hv, hpk, hpp⟩ := released_of h rfl hj h0 hm0 hm
    have hfor : v.parkedFor k.val = parkedAt w.parked ||| inside := by rw [hv]; exact Warp.parks_parkedFor hp hj
    have hn : v.namers k.val = w.parked.filter names ++
        [{ site := .join k, mask := inside, at_ := is.pc, num := p.num, handler := p.handler, gen := p.gen }] := by
      simp only [hv, Warp.namers, Warp.parks_parked hp, List.filter_append, List.filter_cons, hj, if_true, List.filter_nil]
      rfl
    have hall' : ∀ q ∈ v.namers k.val, q.site = .join k ∧ q.at_ = is.pc := fun q hq => by
      rw [hn] at hq
      rcases List.mem_append.1 hq with hq | hq
      · exact hall q (List.mem_filter.1 hq).1 (List.mem_filter.1 hq).2
      · rw [List.mem_singleton.1 hq]; exact ⟨rfl, rfl⟩
    have hne : (parkedAt w.parked ||| inside) &&& members ≠ 0 := fun hz => hin (by
      rw [and_eq_zero_iff] at hz ⊢
      exact fun L hL => hz L (by rw [BitVec.getLsbD_or, hL, Bool.or_true]))
    rw [releasesOf_join (by rw [hn]; simp) hall', hfor] at hpp
    obtain ⟨q, hq, hql, hqm, hqp⟩ := Warp.releaseAt_path (v.unpark members (fun q => q.site.names k.val)) is.pc 0 (v.namers k.val) hne
    refine ⟨t, ht, hk, hkk, hpk, q, ?_, hql, fun h1 hpi => hqm ?_, hqp⟩
    · rw [hpp]; exact hq
    · have hout : mdiff is.path inside = 0 := by
        rw [hpi]; exact BitVec.eq_of_getLsbD_eq fun i hi => by simp [mdiff_get hi]
      show v.paths = []
      refine List.eq_nil_iff_forall_not_mem.2 fun r hr => ?_
      rw [hv] at hr
      have hr' : r ∈ (w.putPath is.lane [{ p with mask := 0 }]).paths := by
        have hout' : mdiff is.path (is.path &&& is.w.kmask k.val) = 0 := hout
        simp only [Warp.parks, hp, hout', if_true] at hr
        exact hr
      rcases Warp.mem_putPath.1 hr' with ⟨hrw, hlane⟩ | ⟨hnew, hne⟩
      · obtain ⟨x, hx⟩ := List.length_eq_one_iff.1 h1
        have hpm := (Warp.pathAt_lane hp).1
        rw [hx, List.mem_singleton] at hpm hrw
        rw [hrw, ← hpm, (Warp.pathAt_lane hp).2] at hlane
        cases hlane
      · rw [List.mem_singleton.1 hnew] at hne
        exact hne rfl

end Sys2Proof.Machine
end

section
/-! Barriers and quorum groups (R214 to R218). -/

namespace Sys2Proof.Machine

/-! ### Warps of a workgroup, while warps change -/

theorem mem_mset_of_mem {α : Type} {m : SMap α} {k : Nat} {v0 : α} (v : α) (h : mget m k = some v0) {e : Nat × α} (he : e ∈ m) :
    e ∈ mset m k v ∨ e = (k, v0) := by
  induction m with
  | nil => cases he
  | cons a m ih =>
    obtain ⟨n, w⟩ := a
    simp only [mget] at h
    simp only [mset]
    by_cases hn : n = k
    · rw [if_pos hn] at h ⊢
      cases h
      rcases List.mem_cons.1 he with rfl | he
      · exact .inr (by rw [hn])
      · exact .inl (List.mem_cons_of_mem _ he)
    · rw [if_neg hn] at h ⊢
      by_cases hk : k < n
      · rw [if_pos hk]
        exact .inl (List.mem_cons_of_mem _ he)
      · rw [if_neg hk]
        rcases List.mem_cons.1 he with rfl | he
        · exact .inl List.mem_cons_self
        · exact (ih h he).imp_left (List.mem_cons_of_mem _)

theorem mset_mem {α : Type} (m : SMap α) (k : Nat) (v : α) : (k, v) ∈ mset m k v := by
  induction m with
  | nil => exact List.mem_cons_self
  | cons a m ih =>
    obtain ⟨n, w⟩ := a
    simp only [mset]
    split
    · exact List.mem_cons_self
    · split
      · exact List.mem_cons_self
      · exact List.mem_cons_of_mem _ ih

theorem mget_mem {α : Type} {m : SMap α} {k : Nat} {v : α} (h : mget m k = some v) : (k, v) ∈ m := by
  induction m with
  | nil => cases h
  | cons a m ih =>
    obtain ⟨n, w⟩ := a
    simp only [mget] at h
    split at h
    · next hn => cases h; rw [hn]; exact List.mem_cons_self
    · exact List.mem_cons_of_mem _ (ih h)

/-- A warp with a path is a resident one. -/
theorem State.mget_of_path {s : State} {who L : Nat} {p : Path} (h : (s.warp who).pathAt L = some p) :
    mget s.warps who = some (s.warp who) := by
  unfold State.warp mgetD at h ⊢
  cases hm : mget s.warps who with
  | none => rw [hm] at h; cases h
  | some w => rfl

theorem State.mem_warpsOfWg {s : State} {g n : Nat} :
    n ∈ s.warpsOfWg g ↔ ∃ w, (n, w) ∈ s.warps ∧ n < streamBase ∧ w.wg = g := by
  simp only [State.warpsOfWg, List.mem_map, List.mem_filter, Prod.exists, Bool.and_eq_true, decide_eq_true_eq, beq_iff_eq]
  constructor
  · rintro ⟨a, w, ⟨h1, h2, h3⟩, rfl⟩
    exact ⟨w, h1, h2, h3⟩
  · rintro ⟨w, h1, h2, h3⟩
    exact ⟨n, w, ⟨h1, h2, h3⟩, rfl⟩

theorem State.mem_warpsOfWg_modWarp {s : State} {who g n : Nat} {f : Warp → Warp} (hm : mget s.warps who = some (s.warp who))
    (hf : (f (s.warp who)).wg = (s.warp who).wg) : n ∈ (s.modWarp who f).warpsOfWg g ↔ n ∈ s.warpsOfWg g := by
  rw [State.mem_warpsOfWg, State.mem_warpsOfWg]
  show (∃ w, (n, w) ∈ mset s.warps who (f (s.warp who)) ∧ _) ↔ _
  constructor
  · rintro ⟨w, h1, h2, h3⟩
    rcases mem_mset h1 with he | h1
    · simp only [Prod.mk.injEq] at he
      obtain ⟨rfl, rfl⟩ := he
      exact ⟨_, mget_mem hm, h2, hf.symm.trans h3⟩
    · exact ⟨w, h1, h2, h3⟩
  · rintro ⟨w, h1, h2, h3⟩
    rcases mem_mset_of_mem (f (s.warp who)) hm h1 with h1 | he
    · exact ⟨w, h1, h2, h3⟩
    · simp only [Prod.mk.injEq] at he
      obtain ⟨rfl, rfl⟩ := he
      exact ⟨_, mset_mem _ _ _, h2, hf.trans h3⟩

theorem State.foldl_modWarp (ws : List Nat) (f : Warp → Warp) (hf : ∀ w, f (f w) = f w) (s : State) (n : Nat) :
    (ws.foldl (fun t w => t.modWarp w f) s).warp n = if n ∈ ws then f (s.warp n) else s.warp n := by
  induction ws generalizing s with
  | nil => rfl
  | cons a ws ih =>
    rw [List.foldl_cons, ih]
    by_cases ha : n = a
    · subst ha
      rw [State.warp_modWarp]
      simp [hf]
    · rw [State.warp_modWarp_other _ _ ha]
      simp [ha]

theorem State.foldl_modWarp_world (ws : List Nat) (f : Warp → Warp) (s : State) :
    { ws.foldl (fun t w => t.modWarp w f) s with warps := [] } = { s with warps := [] } := by
  induction ws generalizing s with
  | nil => rfl
  | cons a ws ih => exact (ih (s.modWarp a f)).trans rfl

/-! ### BAR -/

/-- The groups parked at BAR. -/
def Warp.atBars (w : Warp) : List Parked := w.parked.filter (fun q => q.site == .bar)

/-- What leaves when a barrier completes. -/
def Warp.barReleases (w : Warp) : List Release :=
  ((w.atBars.map Parked.at_).eraseDups).map (fun pc =>
    ⟨unionOf ((w.atBars.filter (fun q => q.at_ == pc)).map Parked.mask), pc, 0, w.atBars.filter (fun q => q.at_ == pc)⟩)

theorem Warp.leaveBar_eq (w : Warp) : w.leaveBar =
    ({ w with parked := w.parked.filter (fun q => q.site != .bar) } : Warp).releaseList w.barReleases := by
  simp only [Warp.leaveBar, Warp.releaseList, Warp.barReleases, List.foldl_map, ← foldl_or_eq]
  rfl

theorem Warp.leaveBar_parked (w : Warp) : w.leaveBar.parked = w.parked.filter (fun q => q.site != .bar) := by
  rw [Warp.leaveBar_eq]
  exact Warp.parked_nopc (Warp.releaseList_nopc _ _)

theorem Warp.leaveBar_still (w : Warp) : w.leaveBar.still = w.still := by
  rw [Warp.leaveBar_eq]
  exact (Warp.still_of_nopc (Warp.releaseList_nopc _ _)).trans rfl

theorem Warp.leaveBar_atBars (w : Warp) : w.leaveBar.atBars = [] := by
  rw [Warp.atBars, Warp.leaveBar_parked, List.filter_filter, List.filter_eq_nil_iff]
  intro q _
  simp

theorem Warp.leaveBar_none {w : Warp} (h : w.atBars = []) : w.leaveBar = w := by
  have hp : w.parked.filter (fun q => q.site != .bar) = w.parked := by
    rw [List.filter_eq_self]
    intro q hq
    have := List.filter_eq_nil_iff.1 h q hq
    simpa using this
  rw [Warp.leaveBar_eq, Warp.barReleases, h, hp]
  rfl

theorem Warp.leaveBar_leaveBar (w : Warp) : w.leaveBar.leaveBar = w.leaveBar := Warp.leaveBar_none w.leaveBar_atBars

theorem Warp.leaveBar_paths {w : Warp} (hd : w.atBars.Pairwise (fun x y => x.mask &&& y.mask = 0))
    (hp : ∀ q ∈ w.atBars, ∀ p ∈ w.paths, p.mask &&& q.mask = 0) {q : Parked} (hq : q ∈ w.atBars) (h0 : q.mask ≠ 0) :
    ∃ p ∈ w.leaveBar.paths, GoesOn p (unionOf ((w.atBars.filter (fun x => x.at_ == q.at_)).map Parked.mask)) q.at_ := by
  have hmem : ∀ pc L, (unionOf ((w.atBars.filter (fun q => q.at_ == pc)).map Parked.mask)).getLsbD L = true →
      ∃ x ∈ w.atBars, x.at_ = pc ∧ x.mask.getLsbD L = true := fun pc L h => by
    rw [unionOf_get] at h
    simp only [List.any_map, List.any_eq_true, List.mem_filter, Function.comp_apply, beq_iff_eq] at h
    obtain ⟨x, ⟨h1, h2⟩, h3⟩ := h
    exact ⟨x, h1, h2, h3⟩
  rw [Warp.leaveBar_eq]
  obtain ⟨-, h2⟩ := Warp.releaseList_paths ({ w with parked := w.parked.filter (fun q => q.site != .bar) } : Warp) w.barReleases
    (by
      rw [Warp.barReleases, List.pairwise_map]
      refine (nodup_eraseDups _).imp fun {a b} hab => and_eq_zero_iff.2 fun L ha => ?_
      by_contra hb
      obtain ⟨x, hx, hxa, hxl⟩ := hmem a L ha
      obtain ⟨y, hy, hya, hyl⟩ := hmem b L (by simpa using hb)
      exact hab (hxa.symm.trans ((congrArg Parked.at_ (eq_of_common_lane hd hx hy hxl hyl)).trans hya)))
    (fun p hpp r hr => by
      obtain ⟨pc, -, rfl⟩ := List.mem_map.1 hr
      refine and_eq_zero_iff.2 fun L hL => ?_
      by_contra hb
      obtain ⟨x, hx, -, hxl⟩ := hmem pc L (by simpa using hb)
      rw [and_eq_zero_iff.1 (hp x hx p hpp) L hL] at hxl
      cases hxl)
  have hne : unionOf ((w.atBars.filter (fun x => x.at_ == q.at_)).map Parked.mask) ≠ 0 := by
    obtain ⟨L, hL⟩ := lanesOf_nonempty h0
    refine mask_ne (L := L) ?_
    rw [unionOf_get]
    simp only [List.any_map, List.any_eq_true, List.mem_filter, Function.comp_apply, beq_iff_eq]
    exact ⟨q, ⟨hq, rfl⟩, (lanesOf_mem.1 hL).2⟩
  exact h2 ⟨_, q.at_, 0, _⟩ (List.mem_map.2 ⟨q.at_, List.mem_eraseDups.2 (List.mem_map_of_mem hq), rfl⟩) hne

/-- The barrier of a workgroup is complete. -/
def State.barDone (s : State) (g core : Nat) : Prop :=
  (∃ n ∈ s.warpsOfWg g, (s.warp n).live ≠ 0) ∧ (∀ n ∈ s.warpsOfWg g, mdiff (s.warp n).live (s.warp n).atBar = 0) ∧
    s.filedThreads g core = 0

theorem State.barrierCheck_eq (s : State) (g core : Nat) : (s.barDone g core →
      s.barrierCheck g core = (s.warpsOfWg g).foldl (fun t w => t.modWarp w Warp.leaveBar) s) ∧
    (¬s.barDone g core → s.barrierCheck g core = s) := by
  have hc : ((s.warpsOfWg g).any (fun w => (s.warp w).live != 0) &&
      (s.warpsOfWg g).all (fun w => mdiff (s.warp w).live (s.warp w).atBar == 0) && s.filedThreads g core == 0) = true ↔
      s.barDone g core := by
    simp [State.barDone, and_assoc]
  exact ⟨fun h => if_pos (hc.2 h), fun h => if_neg (mt hc.1 h)⟩

theorem State.barrierCheck_world (s : State) (g core : Nat) : { s.barrierCheck g core with warps := [] } = { s with warps := [] } := by
  by_cases h : s.barDone g core
  · rw [(s.barrierCheck_eq g core).1 h]; exact State.foldl_modWarp_world _ _ s
  · rw [(s.barrierCheck_eq g core).2 h]

theorem State.barrierCheck_warp (s : State) (g core n : Nat) : (s.barDone g core → n ∈ s.warpsOfWg g →
      (s.barrierCheck g core).warp n = (s.warp n).leaveBar) ∧
    (¬(s.barDone g core ∧ n ∈ s.warpsOfWg g) → (s.barrierCheck g core).warp n = s.warp n) := by
  refine ⟨fun h hn => ?_, fun h => ?_⟩
  · rw [(s.barrierCheck_eq g core).1 h, State.foldl_modWarp _ _ Warp.leaveBar_leaveBar, if_pos hn]
  · by_cases hb : s.barDone g core
    · rw [(s.barrierCheck_eq g core).1 hb, State.foldl_modWarp _ _ Warp.leaveBar_leaveBar, if_neg fun hn => h ⟨hb, hn⟩]
    · rw [(s.barrierCheck_eq g core).2 hb]

theorem State.barrierCheck_still (s : State) (g core n : Nat) : ((s.barrierCheck g core).warp n).still = (s.warp n).still := by
  by_cases h : s.barDone g core ∧ n ∈ s.warpsOfWg g
  · rw [(s.barrierCheck_warp g core n).1 h.1 h.2, Warp.leaveBar_still]
  · rw [(s.barrierCheck_warp g core n).2 h]

theorem hold_of {s : State} {i : Instr} {is : Issue} {pre align : Issue → State → Option (Cause × Info)}
    {body : Issue → State → Act} {u : State} (h : s.readyWith i pre align = some is)
    (he : Machine.exec i s = runWordWith i pre align body s) (hb : body is s = .hold u) :
    Machine.exec i s = .next { u with blocked := true } := by
  rw [he, runWordWith_ready body h]
  simp [State.runBody, hb]

/-- The warp once its path has parked at a BAR. -/
def Warp.barred (w : Warp) (is : Issue) : Warp :=
  match w.pathAt is.lane with
  | none => w
  | some p => { w.putPath is.lane [] with
      parked := w.parked ++ [{ site := .bar, mask := p.mask, at_ := is.pc, num := p.num, gen := p.gen }] }

theorem barBody_eq {is : Issue} {s : State} (h : s.settled is.who = true) :
    barBody is s = .jump ((s.modWarp is.who (fun w => w.barred is)).barrierCheck is.w.wg (coreOf is.who)) := by
  simp only [barBody, h]
  rfl

theorem Warp.barred_still (w : Warp) (is : Issue) : (w.barred is).still = w.still := by
  unfold Warp.barred
  split
  · rfl
  · rfl

theorem State.filedThreads_modWarp (s : State) (who g core : Nat) (f : Warp → Warp) :
    (s.modWarp who f).filedThreads g core = s.filedThreads g core := rfl

/-- The statement of BAR (R214). -/
theorem bar_holds (s : State) (is : Issue) (h : s.ready .bar = some is) :
    let wg := is.w.wg
    let core := coreOf is.who
    let mine := fun (n : Nat) => if n = is.who then [(is.path, is.pc)] else []
    let bars := fun n => (((s.warp n).parked.filter (fun q => q.site == .bar)).map (fun q => (q.mask, q.at_))) ++ mine n
    let free := fun n => (s.warp n).paths.filter (fun p => !(n == is.who && p.mask.getLsbD is.lane))
    let parkedLanes := fun n => (bars n).foldl (fun m q => m ||| q.1) 0
    let atPc := fun n pc => ((bars n).filter (fun q => q.2 == pc)).foldl (fun m q => m ||| q.1) 0
    let complete := (∀ n ∈ s.warpsOfWg wg, mdiff (s.warp n).live (parkedLanes n) = 0) ∧ s.filedThreads wg core = 0
    (s.settled is.who = false → Machine.exec .bar s = .next { s with blocked := true }) ∧
    (s.settled is.who = true → ∃ t, Machine.exec .bar s = .next t ∧ t.mem = s.mem ∧ t.wgs = s.wgs ∧
      (∀ n, (t.warp n).s = (s.warp n).s ∧ (t.warp n).p = (s.warp n).p ∧ (t.warp n).blocks = (s.warp n).blocks ∧
        (t.warp n).k = (s.warp n).k ∧ (t.warp n).exited = (s.warp n).exited ∧ (t.ctl n).waits = (s.ctl n).waits) ∧
      (¬complete → (∃ q ∈ (t.warp is.who).parked, q.site = .bar ∧ q.mask = is.path ∧ q.at_ = is.pc) ∧
        (t.warp is.who).paths = free is.who ∧ ∀ n, n ≠ is.who → t.warp n = s.warp n) ∧
      (complete → (∃ n ∈ s.warpsOfWg wg, (s.warp n).live ≠ 0) → is.who ∈ s.warpsOfWg wg → ∀ n ∈ s.warpsOfWg wg,
        (t.warp n).atBar = 0 ∧
        ((bars n).Pairwise (fun p q => p.1 &&& q.1 = 0) → (∀ q ∈ bars n, ∀ p ∈ free n, p.mask &&& q.1 = 0) →
          ∀ q ∈ bars n, q.1 ≠ 0 → ∃ p ∈ (t.warp n).paths, p.mask = atPc n q.2 ∧
            (q.2.toNat / 4 % 4 < 3 → p.pc = q.2 + 4)))) := by
  intro wg core mine bars free parkedLanes atPc complete
  refine ⟨fun hs => hold_of h rfl (by simp [barBody, hs]), fun hs => ?_⟩
  obtain ⟨-, p, hp, hpath, -, -⟩ := State.readyWith_path h
  obtain ⟨t, ht, hf, hnox⟩ := jumpEnd_of h rfl (barBody_eq hs) (by
    have := congrArg State.cur (State.barrierCheck_world (s.modWarp is.who (fun w => w.barred is)) is.w.wg (coreOf is.who))
    exact this)
  generalize hs1 : s.modWarp is.who (fun w => w.barred is) = s1 at hf hnox
  have hw1 : ∀ n, s1.warp n = if n = is.who then (s.warp n).barred is else s.warp n := fun n => by
    rw [← hs1]
    split
    · next hn => rw [hn, State.warp_modWarp]
    · next hn => rw [State.warp_modWarp_other _ _ hn]
  have hparked : ((s.warp is.who).barred is).parked = (s.warp is.who).parked ++
      [{ site := .bar, mask := is.path, at_ := is.pc, num := p.num, gen := p.gen }] := by simp only [Warp.barred, hp, hpath]
  have hbars : ∀ n, (s1.warp n).atBars.map (fun q => (q.mask, q.at_)) = bars n := fun n => by
    simp only [hw1, bars, mine]
    by_cases hn : n = is.who
    · rw [if_pos hn, if_pos hn, hn, Warp.atBars, hparked]
      simp
    · rw [if_neg hn, if_neg hn, Warp.atBars, List.append_nil]
  have hfree : ∀ n, (s1.warp n).paths = free n := fun n => by
    simp only [hw1, free]
    by_cases hn : n = is.who
    · rw [if_pos hn, hn]
      simp [Warp.barred, hp, Warp.putPath]
    · rw [if_neg hn]
      exact (List.filter_eq_self.2 fun p _ => by simp [hn]).symm
  have hatBar : ∀ n, (s1.warp n).atBar = parkedLanes n := fun n => by
    simp only [parkedLanes, ← hbars, foldl_or_eq, List.map_map]
    exact foldl_or_eq Parked.mask _
  have hlive : ∀ n, (s1.warp n).live = (s.warp n).live := fun n => by
    rw [hw1]
    split
    · have := Warp.barred_still (s.warp n) is
      simp only [Warp.live, Warp.still_exited this, Warp.still_filed this]
    · rfl
  have hmem : ∀ n, n ∈ s1.warpsOfWg wg ↔ n ∈ s.warpsOfWg wg := fun n => by
    rw [← hs1]
    refine State.mem_warpsOfWg_modWarp (State.mget_of_path hp) ?_
    have := congrArg Warp.wg (Warp.barred_still (s.warp is.who) is)
    exact this
  have hfiled : s1.filedThreads wg core = s.filedThreads wg core := by rw [← hs1]; rfl
  have hcomp : s1.barDone wg core ↔ (∃ n ∈ s.warpsOfWg wg, (s.warp n).live ≠ 0) ∧ complete := by
    simp only [State.barDone, complete, hmem, hlive, hatBar, hfiled]
  have hworld : { t with warps := [], ctls := [], mops := [], eops := [], cur := none } =
      { s with warps := [], ctls := [], mops := [], eops := [], cur := none } := by
    have h1 := congrArg (fun x : State => { x with ctls := [], mops := [], eops := [], cur := none })
      (State.barrierCheck_world s1 is.w.wg (coreOf is.who))
    refine hf.world.trans (Eq.trans h1 ?_)
    rw [← hs1]
    rfl
  have hctl : ∀ n, (s1.barrierCheck is.w.wg (coreOf is.who)).ctl n = s.ctl n := fun n => by
    have h1 := congrArg (fun x : State => x.ctl n) (State.barrierCheck_world s1 is.w.wg (coreOf is.who))
    refine Eq.trans h1 ?_
    rw [← hs1]
    rfl
  have hst : ∀ n, ((s1.barrierCheck is.w.wg (coreOf is.who)).warp n).still = (s.warp n).still := fun n => by
    rw [State.barrierCheck_still, hw1]
    split
    · exact Warp.barred_still _ _
    · rfl
  have htw : ∀ n, (t.warp n).nox = ((s1.barrierCheck is.w.wg (coreOf is.who)).warp n).nox := fun n => by
    by_cases hn : n = is.who
    · rw [hn, hnox]
    · rw [(hf.others n hn).1]
  refine ⟨t, ht, ?_, ?_, fun n => ⟨?_, ?_, ?_, ?_, ?_, ?_⟩, fun hnc => ⟨?_, ?_, fun n hn => ?_⟩, fun hc hlv hwho n hn => ?_⟩
  · have := congrArg State.mem hworld; exact this
  · have := congrArg State.wgs hworld; exact this
  · exact (Warp.nox_s (htw n)).trans (Warp.still_s (hst n))
  · exact (Warp.nox_p (htw n)).trans (Warp.still_p (hst n))
  · exact (Warp.nox_blocks (htw n)).trans (Warp.still_blocks (hst n))
  · exact (Warp.nox_k (htw n)).trans (Warp.still_k (hst n))
  · exact (Warp.nox_exited (htw n)).trans (Warp.still_exited (hst n))
  · by_cases hn : n = is.who
    · rw [hn, ← hctl is.who]
      have := congrArg WarpCtl.waits hf.ctl
      exact this
    · rw [(hf.others n hn).2, hctl]
  · have hno : (s1.barrierCheck is.w.wg (coreOf is.who)).warp is.who = s1.warp is.who :=
      (State.barrierCheck_warp s1 wg core is.who).2 fun hx => hnc (hcomp.1 hx.1).2
    rw [Warp.nox_parked hnox, hno, hw1, if_pos rfl, hparked]
    exact ⟨_, List.mem_append_right _ List.mem_cons_self, rfl, rfl, rfl⟩
  · have hno : (s1.barrierCheck is.w.wg (coreOf is.who)).warp is.who = s1.warp is.who :=
      (State.barrierCheck_warp s1 wg core is.who).2 fun hx => hnc (hcomp.1 hx.1).2
    rw [Warp.nox_paths hnox, hno, hfree]
  · have hno : (s1.barrierCheck is.w.wg (coreOf is.who)).warp n = s1.warp n :=
      (State.barrierCheck_warp s1 wg core n).2 fun hx => hnc (hcomp.1 hx.1).2
    rw [(hf.others n hn).1, hno, hw1, if_neg hn]
  · have hleave : (s1.barrierCheck is.w.wg (coreOf is.who)).warp n = (s1.warp n).leaveBar :=
      (State.barrierCheck_warp s1 wg core n).1 (hcomp.2 ⟨hlv, hc⟩) ((hmem n).2 hn)
    have hnx := htw n
    rw [hleave] at hnx
    refine ⟨?_, fun hd hfr q hq hq0 => ?_⟩
    · have h0 := (s1.warp n).leaveBar_atBars
      rw [Warp.atBars, ← Warp.nox_parked hnx] at h0
      rw [Warp.atBar, h0]
      rfl
    · rw [← hbars] at hd hfr hq
      rw [List.pairwise_map] at hd
      obtain ⟨x, hx, rfl⟩ := List.mem_map.1 hq
      obtain ⟨r, hr, hrm, hrp⟩ := Warp.leaveBar_paths hd (fun y hy p' hp' => by
        rw [hfree] at hp'
        exact hfr _ (List.mem_map.2 ⟨y, hy, rfl⟩) p' hp') hx hq0
      rw [Warp.nox_paths hnx]
      refine ⟨r, hr, hrm.trans ?_, hrp⟩
      simp only [atPc, ← hbars, foldl_or_eq, List.filter_map, List.map_map]
      rfl

end Sys2Proof.Machine
end

section
/-! CONVENE and DISBAND (R215 to R218). -/

namespace Sys2Proof.Machine

/-! ### The end of a word that leaves its path waiting -/

/-- What lies between the body of a word that waits and the state it leaves. -/
structure ParkEnd (s t : State) (who : Nat) : Prop where
  world : { t with warps := [], ctls := [], cur := none } = { s with warps := [], ctls := [], cur := none }
  others : ∀ n, n ≠ who → t.warp n = s.warp n ∧ t.ctl n = s.ctl n
  warp : (t.warp who).nox = (s.warp who).nox
  ctl : { (t.ctl who).unissued with heldGroup := [] } = { (s.ctl who).unissued with heldGroup := [] }
  alone : s.alone = true → t.warps = s.warps

theorem State.parkGroup_end (s : State) (is : Issue) (h : ∀ c, s.cur = some c → c.who = is.who) : ParkEnd s (s.parkGroup is) is.who := by
  by_cases hg : ∃ c g, s.cur = some c ∧ c.chain = true ∧ c.group = some g
  · obtain ⟨c, g, hc, h1, h2⟩ := hg
    rw [State.parkGroup_keeps hc h1 h2]
    have hw : ∀ n, ({ s.holdGroup is.who is.lane g with cur := none } : State).warp n = (s.modWarp is.who (fun w => w.endGroup g)).warp n :=
      fun _ => rfl
    have hct : ∀ n, ({ s.holdGroup is.who is.lane g with cur := none } : State).ctl n = (s.modCtl is.who (fun c =>
        { c with heldGroup := c.heldGroup ++ [(is.lane, { g with incs := [], flags := 0 })] })).ctl n := fun _ => rfl
    refine ⟨rfl, fun n hn => ⟨?_, ?_⟩, ?_, ?_, fun ha => by simp [State.alone, hc, h2] at ha⟩
    · rw [hw, State.warp_modWarp_other _ _ hn]
    · rw [hct, State.ctl_modCtl_other _ _ hn]
    · rw [hw, State.warp_modWarp]
      have k := applyDeltas_nox (s.warp is.who) g.incs
      simp only [Warp.nox]
      simp only [Warp.mk.injEq] at k ⊢
      simp [Warp.endGroup, k]
    · rw [hct, State.ctl_modCtl]
      rfl
  · have hcl : s.parkGroup is = s.closeGroup := by
      cases hc : s.cur with
      | none => simp only [State.parkGroup, State.closeGroup, hc]
      | some c => exact State.parkGroup_closes hc fun ⟨g, h1, h2⟩ => hg ⟨c, g, hc, h1, h2⟩
    have f := State.closeGroup_frame s is.who h
    rw [hcl]
    refine ⟨congrArg (fun x : State => { x with ctls := [] }) s.closeGroup_world, f.others, State.closeGroup_warp s is.who h,
      congrArg (fun c : WarpCtl => { c with heldGroup := [] }) f.ctl, fun ha => by rw [State.closeGroup_alone s ha]⟩

theorem park_of {s u : State} {i : Instr} {is : Issue} {pre align : Issue → State → Option (Cause × Info)}
    {body : Issue → State → Act} (h : s.readyWith i pre align = some is) (he : Machine.exec i s = runWordWith i pre align body s)
    (hb : body is s = .park u) (hc : u.cur = s.cur) : ∃ t, Machine.exec i s = .next t ∧ ParkEnd u t is.who := by
  have hc' : ∀ c, (u.noteIssue is).cur = some c → c.who = is.who := fun c hcu => (State.ready_issue h).2 c (hc ▸ hcu)
  have e := State.parkGroup_end (u.noteIssue is) is hc'
  have f := State.noteIssue_frame u is
  refine ⟨(u.noteIssue is).parkGroup is, ?_, ⟨e.world, fun n hn => ⟨(e.others n hn).1.trans (f.others n hn).1,
    (e.others n hn).2.trans (f.others n hn).2⟩, e.warp, e.ctl.trans (congrArg (fun c : WarpCtl => { c with heldGroup := [] }) f.ctl),
    fun ha => e.alone ha⟩⟩
  rw [he, runWordWith_ready body h]
  simp [State.runBody, hb]

/-! ### Waits that end -/

/-- The path of a lane that waited at a word of one slot goes on. -/
def endWaitAt (x : Warp × WarpCtl) (lane : Nat) : Warp × WarpCtl :=
  ((match x.1.pathAt lane with | none => x.1 | some p => x.1.advance lane p.pc 1),
    { x.2 with waits := x.2.waits.filter (fun y => y.lane != lane) })

/-- Every wait of the kinds `f` ends. -/
def endWaitsAt (f : WaitKind → Bool) (x : Warp × WarpCtl) : Warp × WarpCtl :=
  (x.2.waits.filter (fun y => f y.kind)).foldl (fun x y => endWaitAt x y.lane) x

/-- A thread's registers and control part. -/
def State.thread (s : State) (n : Nat) : Warp × WarpCtl := (s.warp n, s.ctl n)

theorem State.endWait_thread (s : State) (who lane n : Nat) :
    (s.endWait who lane 1).thread n = if n = who then endWaitAt (s.thread who) lane else s.thread n := by
  unfold State.endWait State.thread endWaitAt
  have hw : ∀ f m, (s.modCtl who f).warp m = s.warp m := fun _ _ => rfl
  have hc : ∀ (t : State) f m, (t.modWarp who f).ctl m = t.ctl m := fun _ _ _ => rfl
  simp only [hw]
  by_cases hn : n = who
  · subst hn
    rw [if_pos rfl]
    cases hp : (s.warp n).pathAt lane with
    | none => simp only [hw, State.ctl_modCtl]
    | some p =>
      simp only [State.warp_modWarp, hw, hc, State.ctl_modCtl]
  · rw [if_neg hn]
    cases hp : (s.warp who).pathAt lane with
    | none => simp only [hw, State.ctl_modCtl_other _ _ hn]
    | some p =>
      simp only [State.warp_modWarp_other _ _ hn, hw, hc, State.ctl_modCtl_other _ _ hn]

theorem State.endWait_world (s : State) (who lane n : Nat) :
    { s.endWait who lane n with warps := [], ctls := [] } = { s with warps := [], ctls := [] } := by
  unfold State.endWait
  simp only
  split <;> rfl

theorem State.endWaits_one (xs : List Waiting) (who n : Nat) (s : State) :
    (xs.foldl (fun t x => t.endWait who x.lane 1) s).thread n =
      if n = who then xs.foldl (fun x y => endWaitAt x y.lane) (s.thread who) else s.thread n := by
  induction xs generalizing s with
  | nil =>
    rw [List.foldl_nil, List.foldl_nil]
    split
    · next h => rw [h]
    · rfl
  | cons x xs ih =>
    rw [List.foldl_cons, List.foldl_cons, ih, State.endWait_thread, State.endWait_thread, if_pos rfl]
    by_cases hn : n = who
    · rw [if_pos hn, if_pos hn]
    · rw [if_neg hn, if_neg hn, if_neg hn]

theorem foldl_endWaitAt_waits (xs : List Waiting) (x : Warp × WarpCtl) : (xs.foldl (fun x y => endWaitAt x y.lane) x).2 =
    { x.2 with waits := x.2.waits.filter (fun y => xs.all (fun z => y.lane != z.lane)) } := by
  induction xs generalizing x with
  | nil => simp [List.filter_eq_self.2]
  | cons a xs ih =>
    rw [List.foldl_cons, ih]
    simp only [endWaitAt, List.filter_filter, List.all_cons]
    refine congrArg (fun l => ({ x.2 with waits := l } : WarpCtl)) (List.filter_congr fun y _ => Bool.and_comm _ _)

theorem endWaitsAt_none (f : WaitKind → Bool) (x : Warp × WarpCtl) : (endWaitsAt f x).2.waits.filter (fun y => f y.kind) = [] := by
  rw [endWaitsAt, foldl_endWaitAt_waits, List.filter_filter, List.filter_eq_nil_iff]
  intro y hy hc
  simp only [Bool.and_eq_true, List.all_eq_true, List.mem_filter, bne_iff_ne] at hc
  exact hc.2 y ⟨hy, hc.1⟩ rfl

theorem endWaitsAt_twice (f : WaitKind → Bool) (x : Warp × WarpCtl) : endWaitsAt f (endWaitsAt f x) = endWaitsAt f x := by
  conv_lhs => rw [endWaitsAt]
  rw [endWaitsAt_none]
  rfl

theorem State.endWaits_thread (ws : List Nat) (f : WaitKind → Bool) (n : Nat) (s : State) :
    (s.endWaits ws f).thread n = if n ∈ ws then endWaitsAt f (s.thread n) else s.thread n := by
  unfold State.endWaits
  induction ws generalizing s with
  | nil => rfl
  | cons a ws ih =>
    rw [List.foldl_cons, ih, State.endWaits_one]
    by_cases hn : n = a
    · subst hn
      rw [if_pos rfl, if_pos List.mem_cons_self]
      show (if n ∈ ws then endWaitsAt f (endWaitsAt f (s.thread n)) else endWaitsAt f (s.thread n)) = _
      rw [endWaitsAt_twice]
      exact ite_self _
    · rw [if_neg hn]
      simp [hn]

theorem State.endWaits_world (ws : List Nat) (f : WaitKind → Bool) (s : State) :
    { s.endWaits ws f with warps := [], ctls := [] } = { s with warps := [], ctls := [] } := by
  unfold State.endWaits
  induction ws generalizing s with
  | nil => rfl
  | cons a ws ih =>
    rw [List.foldl_cons, ih]
    generalize (s.ctl a).waits.filter (fun x => f x.kind) = xs
    induction xs generalizing s with
    | nil => rfl
    | cons x xs ihx =>
      rw [List.foldl_cons]
      exact (ihx (s.endWait a x.lane 1)).trans (State.endWait_world s a x.lane 1)

theorem foldl_endWaitAt_nopc (xs : List Waiting) (x : Warp × WarpCtl) :
    (xs.foldl (fun x y => endWaitAt x y.lane) x).1.nopc = x.1.nopc := by
  induction xs generalizing x with
  | nil => rfl
  | cons a xs ih =>
    rw [List.foldl_cons, ih]
    simp only [endWaitAt]
    split
    · rfl
    · exact Warp.advance_nopc _ _ _ _

theorem State.endWaits_nopc (ws : List Nat) (f : WaitKind → Bool) (n : Nat) (s : State) :
    ((s.endWaits ws f).warp n).nopc = (s.warp n).nopc := by
  have h := State.endWaits_thread ws f n s
  have h1 : (s.endWaits ws f).warp n = ((s.endWaits ws f).thread n).1 := rfl
  rw [h1, h]
  split
  · exact foldl_endWaitAt_nopc _ _
  · rfl

/-! ### Seats -/

theorem State.foldl_modCtl (ws : List Nat) (f : WarpCtl → WarpCtl) (hf : ∀ c, f (f c) = f c) (s : State) (n : Nat) :
    (ws.foldl (fun t w => t.modCtl w f) s).ctl n = if n ∈ ws then f (s.ctl n) else s.ctl n := by
  induction ws generalizing s with
  | nil => rfl
  | cons a ws ih =>
    rw [List.foldl_cons, ih]
    by_cases ha : n = a
    · subst ha
      rw [State.ctl_modCtl]
      simp [hf]
    · rw [State.ctl_modCtl_other _ _ ha]
      simp [ha]

theorem State.foldl_modCtl_world (ws : List Nat) (f : WarpCtl → WarpCtl) (s : State) :
    { ws.foldl (fun t w => t.modCtl w f) s with ctls := [] } = { s with ctls := [] } := by
  induction ws generalizing s with
  | nil => rfl
  | cons a ws ih => exact (ih (s.modCtl a f)).trans rfl

/-- Every warp of the list is seated, or none is, and no one has arrived; the waits of the kinds `f` end. -/
def State.seatAll (s : State) (ws : List Nat) (b : Bool) (f : WaitKind → Bool) : State :=
  (ws.foldl (fun t w => t.modCtl w (fun c => { c with seated := b, arrived := false })) s).endWaits ws f

theorem State.seatAll_thread (s : State) (ws : List Nat) (b : Bool) (f : WaitKind → Bool) (n : Nat) :
    (s.seatAll ws b f).thread n =
      if n ∈ ws then endWaitsAt f (s.warp n, { s.ctl n with seated := b, arrived := false }) else s.thread n := by
  unfold State.seatAll
  rw [State.endWaits_thread]
  have hc := State.foldl_modCtl ws (fun c => { c with seated := b, arrived := false }) (fun _ => rfl) s n
  have hw := congrArg (fun x : State => x.warp n) (State.foldl_modCtl_world ws (fun c => { c with seated := b, arrived := false }) s)
  have hw' : (ws.foldl (fun t w => t.modCtl w (fun c => { c with seated := b, arrived := false })) s).warp n = s.warp n := hw
  simp only [State.thread, hc, hw']
  split <;> rfl

theorem State.seatAll_world (s : State) (ws : List Nat) (b : Bool) (f : WaitKind → Bool) :
    { s.seatAll ws b f with warps := [], ctls := [] } = { s with warps := [], ctls := [] } :=
  (State.endWaits_world ws f _).trans (congrArg (fun x : State => { x with warps := [] }) (State.foldl_modCtl_world ws _ s))

theorem State.seatAll_nopc (s : State) (ws : List Nat) (b : Bool) (f : WaitKind → Bool) (n : Nat) :
    ((s.seatAll ws b f).warp n).nopc = (s.warp n).nopc := by
  have hw := congrArg (fun x : State => x.warp n) (State.foldl_modCtl_world ws (fun c => { c with seated := b, arrived := false }) s)
  exact (State.endWaits_nopc ws f n _).trans (congrArg Warp.nopc hw)

/-- The seats of the list, and none of their waits. -/
theorem State.seatAll_seat (s : State) {ws : List Nat} (b : Bool) (f : WaitKind → Bool) {n : Nat} (hn : n ∈ ws) :
    ((s.seatAll ws b f).ctl n).seated = b ∧ ((s.seatAll ws b f).ctl n).arrived = false ∧
      ((s.seatAll ws b f).ctl n).waits.any (fun x => f x.kind) = false := by
  have h := s.seatAll_thread ws b f n
  rw [if_pos hn] at h
  have h2 : (s.seatAll ws b f).ctl n = (endWaitsAt f (s.warp n, { s.ctl n with seated := b, arrived := false })).2 := congrArg Prod.snd h
  have hf := foldl_endWaitAt_waits ((({ s.ctl n with seated := b, arrived := false } : WarpCtl).waits).filter (fun y => f y.kind))
    (s.warp n, { s.ctl n with seated := b, arrived := false })
  rw [h2]
  refine ⟨by rw [endWaitsAt, hf], by rw [endWaitsAt, hf], ?_⟩
  have h0 := endWaitsAt_none f (s.warp n, { s.ctl n with seated := b, arrived := false })
  rw [List.filter_eq_nil_iff] at h0
  simpa using h0

theorem State.mismatchSeats_world (s : State) (ws : List Nat) : { s.mismatchSeats ws with ctls := [] } = { s with ctls := [] } := by
  unfold State.mismatchSeats
  induction ws generalizing s with
  | nil => rfl
  | cons a ws ih =>
    rw [List.foldl_cons, ih]
    split <;> rfl

theorem State.mismatchSeats_none (s : State) (ws : List Nat) (h : ∀ n ∈ ws, (s.ctl n).waits.any (fun x => isQuorum x.kind) = false) :
    s.mismatchSeats ws = s := by
  unfold State.mismatchSeats
  induction ws with
  | nil => rfl
  | cons a ws ih =>
    have hf : (s.ctl a).waits.find? (fun x => isQuorum x.kind) = none := by
      have := h a List.mem_cons_self
      rw [List.find?_eq_none]
      simpa using this
    rw [List.foldl_cons]
    simp only [hf]
    exact ih fun n hn => h n (List.mem_cons_of_mem _ hn)

theorem State.mismatchSeats_other (s : State) (ws : List Nat) {n : Nat} (hn : n ∉ ws) : (s.mismatchSeats ws).ctl n = s.ctl n := by
  unfold State.mismatchSeats
  induction ws generalizing s with
  | nil => rfl
  | cons a ws ih =>
    rw [List.foldl_cons, ih _ fun h => hn (List.mem_cons_of_mem _ h)]
    have hne : n ≠ a := fun h => hn (h ▸ List.mem_cons_self)
    split
    · exact State.ctl_modCtl_other _ _ hne
    · rfl

/-- A seat that waits at a quorum issue is to trap there. -/
theorem State.mismatchSeats_seat (s : State) (ws : List Nat) {n : Nat} (h : (n ∈ ws ∧ (s.ctl n).waits.any (fun x => isQuorum x.kind) = true) ∨
      ((s.ctl n).mismatch.isSome = true ∧ (s.ctl n).quorumIssue = none)) :
    ((s.mismatchSeats ws).ctl n).mismatch.isSome = true ∧ ((s.mismatchSeats ws).ctl n).quorumIssue = none := by
  unfold State.mismatchSeats
  induction ws generalizing s with
  | nil => exact h.resolve_left fun hx => by cases hx.1
  | cons a ws ih =>
    rw [List.foldl_cons]
    refine ih _ ?_
    by_cases hna : n = a
    · subst hna
      split
      · exact .inr (by rw [State.ctl_modCtl]; exact ⟨rfl, rfl⟩)
      · next hf =>
        refine h.imp_left fun hx => absurd hx.2 ?_
        rw [List.find?_eq_none] at hf
        simpa using hf
    · have hc : ∀ f : WarpCtl → WarpCtl, (s.modCtl a f).ctl n = s.ctl n := fun f => State.ctl_modCtl_other s f hna
      have h' : (n ∈ ws ∧ (s.ctl n).waits.any (fun x => isQuorum x.kind) = true) ∨
          ((s.ctl n).mismatch.isSome = true ∧ (s.ctl n).quorumIssue = none) :=
        h.imp_left fun hx => ⟨(List.mem_cons.1 hx.1).resolve_left hna, hx.2⟩
      split
      · rw [hc]; exact h'
      · exact h'

theorem State.quorumOf_congr {s t : State} (h : { t with ctls := [] } = { s with ctls := [] }) (who : Nat) :
    t.quorumOf who = s.quorumOf who := by
  have := congrArg (fun x : State => x.quorumOf who) h
  exact this

theorem State.warp_congr {s t : State} (h : { t with ctls := [] } = { s with ctls := [] }) (n : Nat) : t.warp n = s.warp n := by
  have := congrArg (fun x : State => x.warp n) h
  exact this

/-! ### CONVENE and DISBAND -/

/-- Memory and the registers of every warp are as before. -/
def KeepsAll (s t : State) : Prop := t.mem = s.mem ∧ t.wgs = s.wgs ∧ ∀ n, (t.warp n).s = (s.warp n).s ∧ (t.warp n).p = (s.warp n).p ∧
    (t.warp n).blocks = (s.warp n).blocks ∧ (t.warp n).exited = (s.warp n).exited

theorem keepsAll_of {s u t : State} {who : Nat} (hw : { u with warps := [], ctls := [] } = { s with warps := [], ctls := [] })
    (hn : ∀ n, (u.warp n).nopc = (s.warp n).nopc) (e : ParkEnd u t who) : KeepsAll s t := by
  have hx : ∀ n, (t.warp n).nox.nopc = (s.warp n).nox.nopc := fun n => by
    have h1 : (u.warp n).nox.nopc = (s.warp n).nox.nopc := congrArg Warp.nox (hn n)
    by_cases h : n = who
    · subst h
      exact (congrArg Warp.nopc e.warp).trans h1
    · rw [(e.others n h).1]; exact h1
  have hm := congrArg State.mem (e.world.trans (congrArg (fun x : State => { x with cur := none }) hw))
  have hg := congrArg State.wgs (e.world.trans (congrArg (fun x : State => { x with cur := none }) hw))
  refine ⟨hm, hg, fun n => ⟨?_, ?_, ?_, ?_⟩⟩
  · have := congrArg Warp.s (hx n); exact this
  · have := congrArg Warp.p (hx n); exact this
  · have := congrArg Warp.blocks (hx n); exact this
  · have := congrArg Warp.exited (hx n); exact this

/-- What the end of a waiting word keeps of its thread. -/
theorem ParkEnd.seats {u t : State} {who : Nat} (e : ParkEnd u t who) (n : Nat) : (t.ctl n).seated = (u.ctl n).seated ∧
    (t.ctl n).arrived = (u.ctl n).arrived ∧ (t.ctl n).waits = (u.ctl n).waits ∧ (t.ctl n).mismatch = (u.ctl n).mismatch ∧
    (t.ctl n).quorumIssue = (u.ctl n).quorumIssue := by
  by_cases h : n = who
  · subst h
    have hc := e.ctl
    simp only [WarpCtl.unissued, WarpCtl.mk.injEq] at hc
    simp [hc]
  · rw [(e.others n h).2]
    exact ⟨rfl, rfl, rfl, rfl, rfl⟩

/-- A word that has made its warp arrive, and waits. -/
structure ArrivesAs (s s1 : State) (is : Issue) (k : WaitKind) : Prop where
  world : { s1 with ctls := [] } = { s with ctls := [] }
  others : ∀ n, n ≠ is.who → s1.ctl n = s.ctl n
  seated : (s1.ctl is.who).seated = (s.ctl is.who).seated
  arrived : (s1.ctl is.who).arrived = true
  waits : (s1.ctl is.who).waits = (s.ctl is.who).waits ++ [⟨k, is.lane, s.clock, s.nextId⟩]

theorem arrivesAs_of (s : State) (is : Issue) (k : WaitKind) (f : WarpCtl → WarpCtl) (h1 : ∀ c, (f c).seated = c.seated)
    (h2 : ∀ c, (f c).arrived = true) (h3 : ∀ c, (f c).waits = c.waits) : ArrivesAs s ((s.modCtl is.who f).beginWait is k) is k := by
  unfold State.beginWait
  refine ⟨rfl, fun n hn => ?_, ?_, ?_, ?_⟩
  · rw [State.ctl_modCtl_other _ _ hn, State.ctl_modCtl_other _ _ hn]
  · rw [State.ctl_modCtl, State.ctl_modCtl]; exact h1 _
  · rw [State.ctl_modCtl, State.ctl_modCtl]; exact h2 _
  · rw [State.ctl_modCtl, State.ctl_modCtl]; exact congrArg (· ++ _) (h3 _)

theorem ArrivesAs.cur {s s1 : State} {is : Issue} {k : WaitKind} (a : ArrivesAs s s1 is k) : s1.cur = s.cur := by
  have := congrArg State.cur a.world
  exact this

section
variable {s s1 : State} {is : Issue} {k : WaitKind} {i : Instr} {body : Issue → State → Act} (h : s.ready i = some is)
  (he : Machine.exec i s = runWord i body s) (a : ArrivesAs s s1 is k)
include h he a

/-- The warp has arrived and waits. -/
theorem arrives_of (f : WaitKind → Bool) (hf : f k = true) (hb : body is s = .park s1) (ha : s.alone = true) :
    ∃ t, Machine.exec i s = .next t ∧ KeepsAll s t ∧ t.warps = s.warps ∧ (t.ctl is.who).seated = (s.ctl is.who).seated ∧
      (t.ctl is.who).arrived = true ∧ (t.ctl is.who).waits.any (fun x => f x.kind) = true ∧
      ∀ n, n ≠ is.who → t.ctl n = s.ctl n := by
  obtain ⟨t, ht, e⟩ := park_of h he hb (a.cur)
  obtain ⟨g1, g2, g3, -, -⟩ := e.seats is.who
  have ha1 : s1.alone = true := by rw [State.alone, a.cur]; exact ha
  have hw : s1.warps = s.warps := by have := congrArg State.warps a.world; exact this
  refine ⟨t, ht, keepsAll_of (congrArg (fun x : State => { x with warps := [] }) a.world)
    (fun n => congrArg Warp.nopc (State.warp_congr a.world n)) e, (e.alone ha1).trans hw, g1.trans a.seated, g2.trans a.arrived, ?_,
    fun n hn => (e.others n hn).2.trans (a.others n hn)⟩
  rw [g3, a.waits]
  simp [hf]

/-- The last to arrive: all are seated, or none is, and no warp of the group waits any more. -/
theorem ends_of {s2 : State} (f : WaitKind → Bool) (hf : f k = true) (b : Bool) {ws : List Nat} (hws : ws = s.quorumOf is.who)
    (hwho : is.who ∈ ws) (h2 : s2 = s1.seatAll ws b f) (hb : body is s = .park s2) :
    ∃ t, Machine.exec i s = .next t ∧ KeepsAll s t ∧
      (∀ n ∈ s.quorumOf is.who, (t.ctl n).seated = b ∧ (t.ctl n).arrived = false ∧ (t.ctl n).waits.any (fun x => f x.kind) = false) ∧
      (∀ n, n ∉ s.quorumOf is.who → t.warp n = s.warp n ∧ t.ctl n = s.ctl n) ∧
      ((∀ x ∈ (s.ctl is.who).waits, f x.kind = false) →
        ∃ p ∈ (t.warp is.who).paths, p.mask = is.path ∧ (is.pc.toNat / 4 % 4 < 3 → p.pc = is.pc + 4)) := by
  obtain ⟨-, p, hp, hpath, hpc, -⟩ := State.readyWith_path h
  have hcur : s2.cur = s.cur := by
    have := congrArg State.cur (h2 ▸ s1.seatAll_world ws b f : { s2 with warps := [], ctls := [] } = _)
    exact Eq.trans this (a.cur)
  obtain ⟨t, ht, e⟩ := park_of h he hb hcur
  subst h2
  refine ⟨t, ht, keepsAll_of ((s1.seatAll_world ws b f).trans (congrArg (fun x : State => { x with warps := [] }) a.world))
    (fun n => (s1.seatAll_nopc ws b f n).trans (congrArg Warp.nopc (State.warp_congr a.world n))) e, fun n hn => ?_, fun n hn => ?_,
    fun ho => ?_⟩
  · obtain ⟨g1, g2, g3, -, -⟩ := e.seats n
    rw [g1, g2, g3]
    exact s1.seatAll_seat b f (by rw [hws]; exact hn)
  · have hne : n ≠ is.who := fun hx => hn (by rw [hx, ← hws]; exact hwho)
    have hth := s1.seatAll_thread ws b f n
    rw [if_neg (by rw [hws]; exact hn)] at hth
    exact ⟨(e.others n hne).1.trans ((congrArg Prod.fst hth).trans (State.warp_congr a.world n)),
      (e.others n hne).2.trans ((congrArg Prod.snd hth).trans (a.others n hne))⟩
  · -- the only wait that ends is the one that has just begun
    have hth := s1.seatAll_thread ws b f is.who
    rw [if_pos hwho] at hth
    have hfil : (s1.ctl is.who).waits.filter (fun y => f y.kind) = [⟨k, is.lane, s.clock, s.nextId⟩] := by
      rw [a.waits, List.filter_append, List.filter_eq_nil_iff.2 fun x hx => by simp [ho x hx]]
      simp [hf]
    have hw1 : (s1.seatAll ws b f).warp is.who = (s.warp is.who).advance is.lane p.pc 1 := by
      have := congrArg Prod.fst hth
      simp only [endWaitsAt, hfil, List.foldl_cons, List.foldl_nil, endWaitAt, State.warp_congr a.world, hp] at this
      exact this
    have hnx := e.warp
    rw [hw1] at hnx
    obtain ⟨q, hq, hqm, hqp⟩ := Warp.advance_paths (pc := p.pc) hp
    rw [Warp.nox_paths hnx, hq, hpath, hpc]
    exact ⟨q, List.mem_append_right _ List.mem_cons_self, hqm, hqp⟩

end

theorem State.quorumOf_self {s : State} {who n : Nat} (p : Nat → Prop) (hp : p who)
    (ho : ∀ m ∈ (s.quorumOf who).filter (fun n => n != who), p m) (hn : n ∈ s.quorumOf who) : p n := by
  by_cases hne : n = who
  · rw [hne]; exact hp
  · exact ho n (List.mem_filter.2 ⟨hn, by simpa using hne⟩)

/-- Settles O20. -/
theorem barrierAndQuorum : Obligations.BarrierAndQuorum := by
  unfold Obligations.BarrierAndQuorum
  refine ⟨bar_holds, fun s is => ?_⟩
  intro q me others waits keeps goesOn only arrives ends
  refine ⟨fun h hq => regFrame_of h rfl ?_, fun h hq hs hwho => ?_, fun h hq => regFrame_of h rfl ?_, fun h hq hs hwho => ?_⟩
  · exact if_pos (by simpa using hq)
  · have a := arrivesAs_of s is .convene (fun c => { c with arrived := true }) (fun _ => rfl) (fun _ => rfl) (fun _ => rfl)
    have hqo := State.quorumOf_congr a.world is.who
    generalize hs1 : (s.modCtl is.who (fun c => { c with arrived := true })).beginWait is .convene = s1 at a hqo
    have hbody : conveneBody is s = if (s1.quorumOf is.who).length = s.qsize is.who &&
        (s1.quorumOf is.who).all (fun w => (s1.ctl w).arrived) then .park (s1.seatAll (s1.quorumOf is.who) true isConvene) else .park s1 := by
      rw [← hs1]
      exact if_neg (by simpa using ⟨hq, hs⟩)
    rw [hqo] at hbody
    refine ⟨fun hlen hall => ?_, fun ha hno => ?_⟩
    · have hb : conveneBody is s = .park (s1.seatAll (s.quorumOf is.who) true isConvene) := by
        rw [hbody]
        refine if_pos ?_
        simp only [Bool.and_eq_true, decide_eq_true_eq, List.all_eq_true]
        refine ⟨hlen, fun n hn => State.quorumOf_self (fun n => (s1.ctl n).arrived = true) a.arrived (fun m hm => ?_) hn⟩
        rw [a.others m (by simpa using (List.mem_filter.1 hm).2)]
        exact hall m hm
      exact ends_of h rfl a isConvene rfl true rfl hwho rfl hb
    · have hb : conveneBody is s = .park s1 := by
        rw [hbody]
        refine if_neg fun hc => ?_
        simp only [Bool.and_eq_true, decide_eq_true_eq, List.all_eq_true] at hc
        rcases hno with hno | ⟨n, hn, hna⟩
        · exact hno hc.1
        · obtain ⟨h1, h2⟩ := List.mem_filter.1 hn
          have := hc.2 n h1
          rw [a.others n (by simpa using h2), hna] at this
          cases this
      have := arrives_of h rfl a isConvene rfl hb ha
      rw [hs] at this
      exact this
  · exact if_pos (by simpa using hq)
  · have a := arrivesAs_of s is .disband (fun c => { c with arrived := true, qtrap := none }) (fun _ => rfl) (fun _ => rfl) (fun _ => rfl)
    have hqo := State.quorumOf_congr a.world is.who
    generalize hs1 : (s.modCtl is.who (fun c => { c with arrived := true, qtrap := none })).beginWait is .disband = s1 at a hqo
    have hb0 : disbandBody is s = .park ((s1.mismatchSeats others).disbandCheck is.who) := by
      have : disbandBody is s = .park ((s1.breakQuorum is.who).disbandCheck is.who) := by
        rw [← hs1]
        exact if_neg (by simpa using ⟨hq, hs⟩)
      rw [this, State.breakQuorum, hqo]
    have hoth : ∀ n ∈ others, n ∈ s.quorumOf is.who ∧ n ≠ is.who := fun n hn =>
      ⟨(List.mem_filter.1 hn).1, by simpa using (List.mem_filter.1 hn).2⟩
    have hchk : ∀ u : State, { u with ctls := [] } = { s with ctls := [] } → u.disbandCheck is.who =
        if (s.quorumOf is.who).all (fun w => (u.ctl w).arrived || !(u.ctl w).seated) = true then
          u.seatAll (s.quorumOf is.who) false isDisband else u := fun u hu => by
      simp only [State.disbandCheck, State.quorumOf_congr hu]
      rfl
    refine ⟨fun hnone => ?_, ?_⟩
    · have hmis : s1.mismatchSeats others = s1 := State.mismatchSeats_none s1 others fun n hn => by
        rw [a.others n (hoth n hn).2]
        exact hnone n hn
      rw [hmis, hchk s1 a.world] at hb0
      refine ⟨fun hall => ?_, fun ha hno => ?_⟩
      · have hb : disbandBody is s = .park (s1.seatAll (s.quorumOf is.who) false isDisband) := by
          rw [hb0]
          refine congrArg Act.park (if_pos (List.all_eq_true.2 fun n hn => ?_))
          refine State.quorumOf_self (fun n => ((s1.ctl n).arrived || !(s1.ctl n).seated) = true) (by simp [a.arrived]) (fun m hm => ?_) hn
          rw [a.others m (hoth m hm).2]
          simpa using hall m hm
        exact ends_of h rfl a isDisband rfl false rfl hwho rfl hb
      · have hb : disbandBody is s = .park s1 := by
          rw [hb0]
          refine congrArg Act.park (if_neg fun hc => ?_)
          obtain ⟨n, hn, hn1, hn2⟩ := hno
          have := List.all_eq_true.1 hc n (hoth n hn).1
          rw [a.others n (hoth n hn).2, hn1, hn2] at this
          cases this
        have := arrives_of h rfl a isDisband rfl hb ha
        rw [hs] at this
        exact this
    · generalize hs2 : s1.mismatchSeats others = s2 at hb0
      have hw2 : { s2 with ctls := [] } = { s with ctls := [] } := hs2 ▸ (s1.mismatchSeats_world others).trans a.world
      rw [hchk s2 hw2] at hb0
      have hseat : ∀ n ∈ others, waits isQuorum s n = true → (s2.ctl n).mismatch.isSome = true ∧ (s2.ctl n).quorumIssue = none := fun n hn hw => by
        rw [← hs2]
        exact s1.mismatchSeats_seat others (.inl ⟨hn, by rw [a.others n (hoth n hn).2]; exact hw⟩)
      by_cases hc : (s.quorumOf is.who).all (fun w => (s2.ctl w).arrived || !(s2.ctl w).seated) = true
      · rw [if_pos hc] at hb0
        obtain ⟨t, ht, e⟩ := park_of h rfl hb0 (by
          have := congrArg State.cur ((s2.seatAll_world (s.quorumOf is.who) false isDisband).trans
            (congrArg (fun x : State => { x with warps := [] }) hw2))
          exact this)
        refine ⟨t, ht, keepsAll_of ((s2.seatAll_world _ _ _).trans (congrArg (fun x : State => { x with warps := [] }) hw2))
          (fun n => (s2.seatAll_nopc _ _ _ n).trans (congrArg Warp.nopc (State.warp_congr hw2 n))) e, fun n hn hw => ?_⟩
        obtain ⟨-, -, -, g4, g5⟩ := e.seats n
        have hth := congrArg Prod.snd (s2.seatAll_thread (s.quorumOf is.who) false isDisband n)
        rw [if_pos (hoth n hn).1, endWaitsAt, foldl_endWaitAt_waits] at hth
        have hm := congrArg WarpCtl.mismatch hth
        have hi := congrArg WarpCtl.quorumIssue hth
        obtain ⟨k1, k2⟩ := hseat n hn hw
        exact ⟨(congrArg Option.isSome (g4.trans hm)).trans k1, (g5.trans hi).trans k2⟩
      · rw [if_neg hc] at hb0
        obtain ⟨t, ht, e⟩ := park_of h rfl hb0 (by have := congrArg State.cur hw2; exact this)
        refine ⟨t, ht, keepsAll_of (congrArg (fun x : State => { x with warps := [] }) hw2)
          (fun n => congrArg Warp.nopc (State.warp_congr hw2 n)) e, fun n hn hw => ?_⟩
        obtain ⟨-, -, -, g4, g5⟩ := e.seats n
        obtain ⟨k1, k2⟩ := hseat n hn hw
        exact ⟨(congrArg Option.isSome g4).trans k1, g5.trans k2⟩

end Sys2Proof.Machine
end

section
/-! LOOP (R225, R226, R270). -/

namespace Sys2Proof.Machine

/-- The levels that a LOOP names, with count operand and length. -/
def loopSet0 : LoopSpec → Option (SOp × BitVec 15)
  | .l0 c e => some (c, e)
  | .both c e _ _ => some (c, e)
  | .l1 _ _ => none

def loopSet1 : LoopSpec → Option (SOp × BitVec 15)
  | .l1 c e => some (c, e)
  | .both _ _ c e => some (c, e)
  | .l0 _ _ => none

/-- A level after LOOP. -/
def setLevel (s : State) (is : Issue) (x : Option (SOp × BitVec 15)) (old : LoopLvl) : LoopLvl :=
  match x with
  | none => old
  | some (c, e) => { start := pktOf is.pc + 16, stop := pktOf is.pc + 16 * e.setWidth 64, count := (is.sv s c).setWidth 32
                     reload := (is.sv s c).setWidth 32 }

/-- The count operand has more than 32 bits. -/
def countWide (s : State) (is : Issue) (x : Option (SOp × BitVec 15)) : Bool :=
  match x with
  | none => false
  | some (c, _) => decide (2 ^ 32 ≤ (is.sv s c).toNat)

theorem newLevel_eq (s : State) (is : Issue) (c : SOp) (e : BitVec 15) (old : LoopLvl) :
    newLevel is.pc e (is.sv s c) = setLevel s is (some (c, e)) old := by
  have h1 : (e.setWidth 64 <<< 4 : W64) = 16 * e.setWidth 64 := by
    refine BitVec.eq_of_toNat_eq ?_
    rw [BitVec.toNat_shiftLeft, BitVec.toNat_mul, Nat.shiftLeft_eq, Nat.mul_comm]
    rfl
  have h2 : (is.sv s c).extractLsb' 0 32 = (is.sv s c).setWidth 32 := BitVec.eq_of_toNat_eq (by simp)
  simp only [newLevel, setLevel, h1, h2]

theorem high_half_zero (v : W64) : v.extractLsb' 32 32 = 0#32 ↔ v.toNat < 2 ^ 32 := by
  rw [← BitVec.toNat_inj]
  have hv := v.isLt
  simp only [BitVec.extractLsb'_toNat, Nat.shiftRight_eq_div_pow, BitVec.toNat_ofNat]
  omega

/-- Where LOOP goes on where it leaves a body out. -/
def loopSkip (x0 x1 : Option (SOp × BitVec 15)) (n0 n1 : LoopLvl) : Option W64 :=
  if x0.isSome ∧ n0.count = 0 then some (n0.stop + 16) else if x1.isSome ∧ n1.count = 0 then some (n1.stop + 16) else none

/-- LOOP, in the words of its description. -/
theorem loopBody_eq (l : LoopSpec) (is : Issue) (s : State) :
    loopBody l is s =
      let n0 := setLevel s is (loopSet0 l) is.w.l0
      let n1 := setLevel s is (loopSet1 l) is.w.l1
      if is.w.paths.length ≠ 1 then .trap .loopdiv (.same 0)
      else if countWide s is (loopSet0 l) || countWide s is (loopSet1 l) then .trap .oprange (.same 0)
      else if n0.count ≠ 0 ∧ n1.count ≠ 0 ∧ n0.stop.toNat < n1.stop.toNat then .trap .loopform (.same 0)
      else match loopSkip (loopSet0 l) (loopSet1 l) n0 n1 with
        | none => .next (s.modWarp is.who (fun w => { w with l0 := n0, l1 := n1 }))
        | some t => .jump ((s.modWarp is.who (fun w => { w with l0 := n0, l1 := n1 })).modWarp is.who (fun w =>
            w.putPath is.lane [startAt is.path t is.handler 0])) := by
  have hn := newLevel_eq s is
  cases l with
  | l0 c e =>
    simp only [loopBody, loopSet0, loopSet1, Option.getD_some, hn c e is.w.l0, loopSkip, LoopLvl.active]
    simp [countWide, high_half_zero, setLevel, and_assoc] <;> rfl
  | l1 c e =>
    simp only [loopBody, loopSet0, loopSet1, Option.getD_some, hn c e is.w.l1, loopSkip, LoopLvl.active]
    simp [countWide, high_half_zero, setLevel, and_assoc] <;> rfl
  | both c0 e0 c1 e1 =>
    simp only [loopBody, loopSet0, loopSet1, Option.getD_some, hn c0 e0 is.w.l0, hn c1 e1 is.w.l1, loopSkip, LoopLvl.active]
    simp [countWide, high_half_zero, setLevel, and_assoc] <;> rfl

/-- What LOOP does, `set0` and `set1` being the levels it names. -/
def LoopDone (s : State) (is : Issue) (l : LoopSpec) (set0 set1 : Option (SOp × BitVec 15)) : Prop :=
  let w := s.warp is.who
  let new0 := setLevel s is set0 is.w.l0
  let new1 := setLevel s is set1 is.w.l1
  let wide := fun (x : Option (SOp × BitVec 15)) => countWide s is x = true
  let misformed := new0.count ≠ 0 ∧ new1.count ≠ 0 ∧ new0.stop.toNat < new1.stop.toNat
  let trap := fun c => Machine.exec (.loop l) s = .next (s.trapAt is c (.same 0) is.pc)
  (is.w.paths.length ≠ 1 → trap .loopdiv) ∧
  (is.w.paths.length = 1 → wide set0 ∨ wide set1 → trap .oprange) ∧
  (is.w.paths.length = 1 → ¬wide set0 → ¬wide set1 → misformed → trap .loopform) ∧
  (is.w.paths.length = 1 → ¬wide set0 → ¬wide set1 → ¬misformed → ∃ t, Machine.exec (.loop l) s = .next t ∧
    (t.warp is.who).s = w.s ∧ (t.warp is.who).p = w.p ∧ (t.warp is.who).blocks = w.blocks ∧
    (t.warp is.who).core = w.core ∧ WordFrame s t is.who ∧
    (match loopSkip set0 set1 new0 new1 with
     | some a => (t.warp is.who).l0 = new0 ∧ (t.warp is.who).l1 = new1 ∧
        ∃ p ∈ (t.warp is.who).paths, p.pc = a ∧ p.mask = is.path ∧ p.inside = false
     | none => let after := if is.pc.toNat / 4 % 4 < 2 then (new0, new1, is.pc + 8) else levelsAtEnd new0 new1 (pktOf is.pc)
        (t.warp is.who).l0 = after.1 ∧ (t.warp is.who).l1 = after.2.1 ∧
        ∃ p ∈ (t.warp is.who).paths, p.pc = after.2.2 ∧ p.mask = is.path))

theorem loopDone_of {s : State} {is : Issue} {l : LoopSpec} (h : s.ready (.loop l) = some is) :
    LoopDone s is l (loopSet0 l) (loopSet1 l) := by
  have heq := loopBody_eq l is s
  have hexec : Machine.exec (.loop l) s = runWordWith (.loop l) noCheck noCheck (loopBody l) s := rfl
  obtain ⟨-, p, hp, hpath, -, -⟩ := State.readyWith_path h
  unfold LoopDone
  intro w new0 new1 wide misformed trap
  refine ⟨fun h1 => trap_of h hexec ?_, fun h1 h2 => trap_of h hexec ?_, fun h1 h2 h3 h4 => trap_of h hexec ?_,
      fun h1 h2 h3 h4 => ?_⟩
  · rw [heq]
    exact if_pos h1
  · rw [heq]
    simp only [h1, ne_eq, not_true_eq_false, if_false]
    exact if_pos (by simpa [wide] using h2)
  · rw [heq]
    simp only [h1, ne_eq, not_true_eq_false, if_false]
    rw [if_neg (by simpa using ⟨Bool.eq_false_iff.2 h2, Bool.eq_false_iff.2 h3⟩)]
    exact if_pos h4
  · have hb : loopBody l is s = match loopSkip (loopSet0 l) (loopSet1 l) new0 new1 with
        | none => .next (s.modWarp is.who (fun w => { w with l0 := new0, l1 := new1 }))
        | some t => .jump ((s.modWarp is.who (fun w => { w with l0 := new0, l1 := new1 })).modWarp is.who (fun w =>
            w.putPath is.lane [startAt is.path t is.handler 0])) := by
      rw [heq]
      simp only [h1, ne_eq, not_true_eq_false, if_false]
      rw [if_neg (by simpa using ⟨Bool.eq_false_iff.2 h2, Bool.eq_false_iff.2 h3⟩)]
      exact (if_neg h4).trans (by cases loopSkip (loopSet0 l) (loopSet1 l) new0 new1 <;> rfl)
    have hw1 : (s.modWarp is.who (fun w => { w with l0 := new0, l1 := new1 })).warp is.who = { w with l0 := new0, l1 := new1 } :=
      State.warp_modWarp ..
    cases hsk : loopSkip (loopSet0 l) (loopSet1 l) new0 new1 with
    | none =>
      simp only [hsk] at hb
      obtain ⟨he, hend⟩ := wordEnd_of h hexec hb rfl
      obtain ⟨f1, f2, f3, f4⟩ := hend.fields
      rw [hw1] at f1 f2 f3 f4
      have hslots : slotsOf is.i = 2 := by rw [(State.ready_issue h).1]; cases l <;> rfl
      have hpa := State.finish_path (s.modWarp is.who (fun w => { w with l0 := new0, l1 := new1 })) (p := p)
        (fun c hc => (State.ready_issue h).2 c hc) (by rw [hw1]; exact hp)
      rw [hw1, hslots] at hpa
      simp only [show (is.pc.toNat / 4 % 4 + 2 ≤ 3) = (is.pc.toNat / 4 % 4 < 2) from
        propext ⟨fun h => by omega, fun h => by omega⟩] at hpa
      obtain ⟨g1, g2, q, hq, hqm, hqp, -⟩ := hpa
      exact ⟨_, he, f1, f2, f3, f4, (WordFrame.modWarp s is.who _).trans hend.frame, g1, g2, q, hq, hqp, hqm.trans hpath.symm⟩
    | some a =>
      simp only [hsk] at hb
      obtain ⟨t, ht, hfr, hnox⟩ := jumpEnd_of h hexec hb rfl
      rw [State.warp_modWarp, hw1] at hnox
      have hm : (startAt is.path a is.handler 0).mask ≠ 0 := by
        rw [startAt_mask, hpath]
        exact mask_ne (Warp.pathAt_lane hp).2
      refine ⟨t, ht, (Warp.nox_s hnox :), (Warp.nox_p hnox :), (Warp.nox_blocks hnox :), (Warp.nox_core hnox :),
        ((WordFrame.modWarp s is.who _).trans (WordFrame.modWarp _ is.who _)).trans hfr, (Warp.nox_l0 hnox :),
        (Warp.nox_l1 hnox :),
        startAt is.path a is.handler 0, ?_, rfl, rfl, rfl⟩
      rw [Warp.nox_paths hnox]
      exact Warp.mem_putPath.2 (.inr ⟨List.mem_singleton.2 rfl, hm⟩)

theorem countWide_iff (s : State) (is : Issue) (c : SOp) (e : BitVec 15) :
    countWide s is (some (c, e)) = true ↔ 2 ^ 32 ≤ (is.sv s c).toNat := decide_eq_true_iff

/-- Settles O21. -/
theorem loopWord : Obligations.LoopWord := by
  unfold Obligations.LoopWord
  intro s is l w pkt set0 set1 level wide new0 new1 misformed skip i trap h
  have h0 : set0 = loopSet0 l := by cases l <;> rfl
  have h1 : set1 = loopSet1 l := by cases l <;> rfl
  have hd := loopDone_of h
  have hw : ∀ x, wide x ↔ countWide s is x = true := fun x => by
    cases x with
    | none => simp [wide, countWide]
    | some y => exact (countWide_iff s is y.1 y.2).symm
  have hl : ∀ x old, level x old = setLevel s is x old := fun x old => by cases x <;> rfl
  have hn0 : new0 = setLevel s is (loopSet0 l) is.w.l0 := by rw [← h0]; exact hl _ _
  have hn1 : new1 = setLevel s is (loopSet1 l) is.w.l1 := by rw [← h1]; exact hl _ _
  have hs : skip = loopSkip (loopSet0 l) (loopSet1 l) new0 new1 := by rw [← h0, ← h1]; rfl
  unfold LoopDone at hd
  rw [← hn0, ← hn1, ← h0, ← h1] at hd
  simp only [← hw] at hd
  rw [h0, h1] at hd
  obtain ⟨d1, d2, d3, d4⟩ := hd
  refine ⟨d1, by rw [h0, h1]; exact d2, by rw [h0, h1]; exact d3, fun e1 e2 e3 e4 => ?_⟩
  rw [h0] at e2
  rw [h1] at e3
  obtain ⟨t, ht, f1, f2, f3, f4, f5, f6⟩ := d4 e1 e2 e3 e4
  refine ⟨t, ht, f1, f2, f3, f4, f5, ?_⟩
  rw [← hs] at f6
  revert f6
  cases skip with
  | none => exact id
  | some a => exact id

end Sys2Proof.Machine
end

section
/-! What an access to memory leaves: the threads, the operations, the streams and grids, the registers of the module, the
workgroups' stores. It may change memory, caches, rings, what is sent out, and the requests for translations. -/

namespace Sys2Proof.Machine

/-- A state without what an access to physical memory, or a request for a translation, may change. -/
def State.plain (s : State) : State :=
  { s with mem := {}, cores := [], clusters := [], outbox := [], fresh := 0, treqs := [], linkReqs := [], regions := [], nextId := 0 }

section
variable {s t : State} (h : t.plain = s.plain)
include h

theorem State.cur_of_plain : t.cur = s.cur := by have := congrArg State.cur h; exact this
theorem State.warps_of_plain : t.warps = s.warps := by have := congrArg State.warps h; exact this
theorem State.ctls_of_plain : t.ctls = s.ctls := by have := congrArg State.ctls h; exact this
theorem State.streams_of_plain : t.streams = s.streams := by have := congrArg State.streams h; exact this
theorem State.grids_of_plain : t.grids = s.grids := by have := congrArg State.grids h; exact this
theorem State.wgs_of_plain : t.wgs = s.wgs := by have := congrArg State.wgs h; exact this
theorem State.mops_of_plain : t.mops = s.mops := by have := congrArg State.mops h; exact this
theorem State.eops_of_plain : t.eops = s.eops := by have := congrArg State.eops h; exact this
theorem State.regs_of_plain : t.regs = s.regs := by have := congrArg State.regs h; exact this
theorem State.clock_of_plain : t.clock = s.clock := by have := congrArg State.clock h; exact this
theorem State.warp_of_plain (n : Nat) : t.warp n = s.warp n := by rw [State.warp, State.warps_of_plain h]; rfl
theorem State.ctl_of_plain (n : Nat) : t.ctl n = s.ctl n := by rw [State.ctl, State.ctls_of_plain h]; rfl

end

theorem State.plain_foldl {α : Type} {f : State → α → State} (hf : ∀ s a, (f s a).plain = s.plain) (l : List α) (s : State) :
    (l.foldl f s).plain = s.plain := by
  induction l generalizing s with
  | nil => rfl
  | cons a l ih => rw [List.foldl_cons, ih, hf]

/-- The second part of a pair that a match has named. -/
theorem State.plain_snd {α : Type} {x : α × State} {a : α} {t s : State} (h : x = (a, t)) (hx : x.2.plain = s.plain) :
    t.plain = s.plain := by
  rw [h] at hx
  exact hx

variable (s : State)

/-! ### Memory, caches and records -/

@[simp] theorem State.plain_modCore (k : Nat) (f : Core → Core) : (s.modCore k f).plain = s.plain := rfl
@[simp] theorem State.plain_setCluster (k : Nat) (c : Cluster) : (s.setCluster k c).plain = s.plain := rfl
@[simp] theorem State.plain_modCluster (k : Nat) (f : Cluster → Cluster) : (s.modCluster k f).plain = s.plain := rfl
@[simp] theorem State.plain_emit (o : Out) : (s.emit o).plain = s.plain := rfl
@[simp] theorem State.plain_setFrame (n : Nat) (f : Frame) : (s.setFrame n f).plain = s.plain := rfl
@[simp] theorem State.plain_rawWrite (pa : Nat) (bs : List Byte) : (s.rawWrite pa bs).plain = s.plain := rfl
@[simp] theorem State.plain_l2Write (pa : Nat) (bs : List Byte) : (s.l2Write pa bs).plain = s.plain := rfl
@[simp] theorem State.plain_poisonSector (k : Nat) : (s.poisonSector k).plain = s.plain := rfl
@[simp] theorem State.plain_sideWrite (line : Nat) (v : W64) : (s.sideWrite line v).plain = s.plain := rfl
@[simp] theorem State.plain_sideMark (line : Nat) (bad : Bool) : (s.sideMark line bad).plain = s.plain := rfl
@[simp] theorem State.plain_pick (n : Nat) : (s.pick n).2.plain = s.plain := rfl
@[simp] theorem State.plain_newId : s.newId.2.plain = s.plain := rfl
@[simp] theorem State.plain_setTreq (t : TReq) : (s.setTreq t).plain = s.plain := rfl
@[simp] theorem State.plain_dropAsks (who tag : Nat) : (s.dropAsks who tag).plain = s.plain := rfl
@[simp] theorem State.plain_dropLost (who tag : Nat) : (s.dropLost who tag).plain = s.plain := rfl
@[simp] theorem State.plain_mem (m : Mem) : ({ s with mem := m } : State).plain = s.plain := rfl
@[simp] theorem State.plain_fresh (n : Nat) : ({ s with fresh := n } : State).plain = s.plain := rfl
@[simp] theorem State.plain_treqs (m : SMap TReq) : ({ s with treqs := m } : State).plain = s.plain := rfl
@[simp] theorem State.plain_linkReqs (l : List LinkReq) : ({ s with linkReqs := l } : State).plain = s.plain := rfl
@[simp] theorem State.plain_regions (m : SMap W64) : ({ s with regions := m } : State).plain = s.plain := rfl

@[simp] theorem State.plain_record (core code warp : Nat) (data : W64) : (s.record core code warp data).plain = s.plain := by
  unfold State.record
  split <;> rfl

@[simp] theorem State.plain_releaseGen (q : BdReq) : (s.releaseGen q).plain = s.plain := by
  unfold State.releaseGen
  dsimp only
  split <;> rfl

theorem State.plain_holding (qs : List BdReq) {f : State → State} (hf : ∀ s, (f s).plain = s.plain) :
    (s.holding qs f).plain = s.plain := by
  unfold State.holding
  split
  · exact hf s
  · dsimp only
    rw [State.plain_foldl (fun s q => s.plain_releaseGen q), State.plain_mem, hf, State.plain_mem]

@[simp] theorem State.plain_codeLine (line : Nat) : (s.codeLine line).plain = s.plain := by
  unfold State.codeLine
  dsimp only
  split <;> rfl

@[simp] theorem State.plain_dropLine (line : Nat) : (s.dropLine line).plain = s.plain := by simp [State.dropLine]

@[simp] theorem State.plain_l2Room (line : Nat) (keep : List Nat) : (s.l2Room line keep).plain = s.plain := by
  unfold State.l2Room
  dsimp only
  split
  · rfl
  · split
    · rfl
    · simp

@[simp] theorem State.plain_takeSector (sec : Nat) (keep : List Nat) : (s.takeSector sec keep).plain = s.plain := by
  simp [State.takeSector]

@[simp] theorem State.plain_postErr (c kind sub : Nat) (addr : W64) (r : Requester) (info : Nat) (keep : List Nat) :
    (s.postErr c kind sub addr r info keep).plain = s.plain := by
  unfold State.postErr
  dsimp only
  split
  · rfl
  · split
    · split <;> simp
    · simp

@[simp] theorem State.plain_fetchSector (pa : Nat) (r : Requester) (keep : List Nat) : (s.fetchSector pa r keep).plain = s.plain := by
  unfold State.fetchSector
  split
  · rfl
  · split <;> simp

@[simp] theorem State.plain_touchSector (sec : Nat) (r : Requester) (keep : List Nat) : (s.touchSector sec r keep).plain = s.plain := by
  unfold State.touchSector
  split
  · rfl
  · dsimp only
    split <;> simp

@[simp] theorem State.plain_touch (pa n : Nat) (r : Requester) : (s.touch pa n r).plain = s.plain := by
  unfold State.touch
  split
  · rfl
  · exact s.plain_holding _ fun t => State.plain_foldl (fun t k => t.plain_touchSector k r _) _ t

@[simp] theorem State.plain_physWrite (pa : Nat) (bs : List Byte) (r : Requester) : (s.physWrite pa bs r).plain = s.plain := by
  unfold State.physWrite
  split
  · rfl
  · dsimp only
    rw [apply_ite State.plain, State.plain_l2Write, ite_self]
    refine s.plain_holding _ fun t => State.plain_foldl (fun t k => ?_) _ t
    split
    · exact t.plain_touchSector ..
    · split
      · rfl
      · exact t.plain_takeSector ..

@[simp] theorem State.plain_physMark (secs : List Nat) : (s.physMark secs).plain = s.plain :=
  State.plain_foldl (f := fun t k => t.poisonSector k) (fun _ _ => rfl) _ _

/-! ### Links that do not answer -/

@[simp] theorem State.plain_linkError (pa n : Nat) (addr : W64) (r : Requester) : (s.linkError pa n addr r).plain = s.plain := by
  unfold State.linkError
  split
  · simp
  · split
    · simp
    · rfl

@[simp] theorem State.plain_linkLost (who tag pa n addr : Nat) (r : Requester) : (s.linkLost who tag pa n addr r).plain = s.plain := by
  unfold State.linkLost
  split
  · rfl
  · simp

@[simp] theorem State.plain_noteNoPort (who tag addr : Nat) : (s.noteNoPort who tag addr).plain = s.plain := by
  unfold State.noteNoPort
  split <;> rfl

/-! ### Translation -/

@[simp] theorem State.plain_noteRegion (ctx n : Nat) (r : Requester) : (s.noteRegion ctx n r).plain = s.plain := by
  unfold State.noteRegion
  split
  · rfl
  · dsimp only
    split <;> simp

@[simp] theorem State.plain_noteVa (ctx va : Nat) (r : Requester) : (s.noteVa ctx va r).plain = s.plain := by
  unfold State.noteVa
  split <;> simp

@[simp] theorem State.plain_insertTlb (l : List TlbEntry) (cap : Nat) (e : TlbEntry) : (s.insertTlb l cap e).2.plain = s.plain := by
  unfold State.insertTlb
  dsimp only
  split <;> rfl

@[simp] theorem State.plain_keepLeaf (cl : Nat) (core : Option Nat) (e : TlbEntry) : (s.keepLeaf cl core e).plain = s.plain := by
  unfold State.keepLeaf
  dsimp only
  split <;> simp

@[simp] theorem State.plain_keepWalk (cl : Nat) (w : WalkEntry) : (s.keepWalk cl w).plain = s.plain := by
  unfold State.keepWalk
  dsimp only
  split <;> rfl

@[simp] theorem State.plain_walkReads (cl ctx : Nat) (cached : Bool) (seen : List WalkEntry) (last : Nat) (r : Requester) :
    (s.walkReads cl ctx cached seen last r).plain = s.plain := by
  unfold State.walkReads
  refine State.plain_foldl (fun t pa => ?_) _ _
  split
  · rfl
  · exact t.plain_touch ..

@[simp] theorem State.plain_walkPage (cl : Nat) (core : Option Nat) (ctx va : Nat) (acc : Acc) (root : Bool) (q : Requester) :
    (s.walkPage cl core ctx va acc root q).2.plain = s.plain := by
  unfold State.walkPage
  dsimp only
  split
  · simp
  · split
    · simp
    · split
      · rw [State.plain_foldl (fun t w => t.plain_keepWalk ..), State.plain_keepLeaf, apply_ite State.plain]
        simp
      · simp

@[simp] theorem State.plain_raiseFault (t : TReq) (cause level ptea : Nat) (pte : W64) :
    (s.raiseFault t cause level ptea pte).plain = s.plain := by
  unfold State.raiseFault
  dsimp only
  split <;> simp

@[simp] theorem State.plain_walkReq (t : TReq) (root : Bool) : (s.walkReq t root).plain = s.plain := by
  unfold State.walkReq
  dsimp only
  split
  all_goals
    next heq =>
    refine Eq.trans ?_ (State.plain_snd heq (s.plain_walkPage ..))
    simp

@[simp] theorem State.plain_newTreq (ctx va : Nat) (acc : Acc) (core who : Nat) (eng : Bool) (log : Nat) (st : TrState) :
    (s.newTreq ctx va acc core who eng log st).2.plain = s.plain := rfl

/-- An answered access: its page, or a wait for a port. -/
theorem State.plain_askDone (r : Region) (leaf : W64) (va off n who tag formed : Nat) (q : Requester) :
    (let pa := leafPa r.pgsz leaf va
      if r.mmio then (Ask.viol .mmio, s)
      else if !s.linkFails (pa + off) n then (Ask.ok pa leaf, s)
      else if s.isRemote pa && !s.portLate who tag formed then (Ask.wait, s.noteNoPort who tag formed)
      else (Ask.ok pa leaf, s.linkLost who tag (pa + off) n formed q)).2.plain = s.plain := by
  dsimp only
  split
  · rfl
  · split
    · rfl
    · split <;> simp

@[simp] theorem State.plain_ask (ctx va : Nat) (acc : Acc) (core who tag formed off n : Nat) :
    (s.ask ctx va acc core who tag formed off n).2.plain = s.plain := by
  unfold State.ask
  dsimp only
  generalize hq : ({ who := some who, eng := _, ctx := ctx, pc := 0 } : Requester) = q
  refine Eq.trans ?_ (s.plain_noteVa ctx va q)
  generalize s.noteVa ctx va q = s
  split
  · rfl
  · next r _ =>
    split
    · rfl
    · split
      · split
        · next heq => exact (State.plain_askDone ..).trans (State.plain_snd heq (s.plain_walkPage ..))
        · next heq => exact State.plain_snd heq (s.plain_walkPage ..)
        · next heq =>
          simp only [State.plain_raiseFault, State.plain_newId]
          exact State.plain_snd heq (s.plain_walkPage ..)
      · split
        · rfl
        · rfl
        · rfl
        · exact State.plain_askDone ..
        all_goals
          split
          · next heq =>
            refine (State.plain_askDone ..).trans ?_
            rw [State.plain_treqs]
            exact State.plain_snd heq (s.plain_walkPage ..)
          · next heq => exact State.plain_snd heq (s.plain_walkPage ..)
          · next heq =>
            simp only [State.plain_raiseFault]
            exact State.plain_snd heq (s.plain_walkPage ..)

@[simp] theorem State.plain_askParts (ctx va : Nat) (acc : Acc) (core who tag : Nat) (ps : List (Nat × Nat)) :
    (s.askParts ctx va acc core who tag ps).2.plain = s.plain := by
  induction ps generalizing s with
  | nil => rfl
  | cons p ps ih =>
    unfold State.askParts
    have ha := s.plain_ask ctx (va + p.1) acc core who tag (va + p.1) 0 p.2
    split
    · next heq => exact State.plain_snd heq ha
    · next heq => exact State.plain_snd heq ha
    · next heq =>
      have h1 := State.plain_snd heq ha
      split
      · next heq2 => exact (State.plain_snd heq2 (ih _)).trans h1
      · exact (ih _).trans h1

@[simp] theorem State.plain_askSpan (ctx va n : Nat) (acc : Acc) (core who tag : Nat) :
    (s.askSpan ctx va n acc core who tag).2.plain = s.plain := s.plain_askParts ..

/-! ### Reads and writes of places -/

@[simp] theorem State.plain_locTouch (l : Loc) (n : Nat) (r : Requester) : (s.locTouch l n r).plain = s.plain := by
  unfold State.locTouch
  split
  · split <;> simp
  · rfl

@[simp] theorem State.plain_writeParts (parts : List (Nat × Nat × Nat)) (bs : List Byte) (r : Requester) :
    (s.writeParts parts bs r).plain = s.plain := State.plain_foldl (fun t _ => t.plain_physWrite ..) _ _

@[simp] theorem State.plain_touchParts (parts : List (Nat × Nat × Nat)) (r : Requester) : (s.touchParts parts r).plain = s.plain :=
  State.plain_foldl (fun t _ => t.plain_locTouch ..) _ _

@[simp] theorem State.plain_openParts (parts : List (Nat × Nat × Nat)) : (s.openParts parts).2.plain = s.plain := by
  unfold State.openParts
  split <;> rfl

@[simp] theorem State.plain_l1Forget (core : Nat) (parts : List (Nat × Nat × Nat)) : (s.l1Forget core parts).plain = s.plain := rfl

@[simp] theorem State.plain_locAt (wg ctx : Nat) (sp : Bool) (addr : Nat) (acc : Acc) (core who tag : Nat) :
    (s.locAt wg ctx sp addr acc core who tag).2.plain = s.plain := by
  unfold State.locAt
  split
  · split
    · rfl
    · split
      · rfl
      · rfl
      · split
        all_goals
          next heq => exact State.plain_snd heq (s.plain_ask ..)
  · split
    all_goals
      next heq => exact State.plain_snd heq (s.plain_ask ..)

/-! ### Save areas -/

@[simp] theorem State.plain_saveReady (who va n : Nat) (acc : Acc) : (s.saveReady who va n acc).2.plain = s.plain := by
  unfold State.saveReady
  split
  all_goals
    next heq => exact State.plain_snd heq (s.plain_askSpan ..)

@[simp] theorem State.plain_saveAllReady (who : Nat) (acc : Acc) (l : List (Nat × Nat)) :
    (s.saveAllReady who acc l).2.plain = s.plain := by
  induction l generalizing s with
  | nil => rfl
  | cons p l ih =>
    unfold State.saveAllReady
    split
    · next heq => exact State.plain_snd heq (s.plain_saveReady ..)
    · next heq => exact (ih _).trans (State.plain_snd heq (s.plain_saveReady ..))

@[simp] theorem State.plain_readSaved (who va n : Nat) : (s.readSaved who va n).2.plain = s.plain := by
  unfold State.readSaved
  dsimp only
  split
  · next heq => exact State.plain_snd heq (s.plain_askSpan ..)
  · next heq => exact (State.plain_fresh ..).trans (State.plain_snd heq (s.plain_askSpan ..))
  · next heq =>
    simp only [State.plain_openParts, State.plain_touchParts]
    exact State.plain_snd heq (s.plain_askSpan ..)

omit s in
/-- What the two steps of reading a frame keep, reading it keeps. The steps are made variables in a lemma of its own, so that the
kernel does not compute with the frame's size. -/
theorem State.readFrame_keeps {P : State → Prop} {Q : Option (List Byte × List Byte) × State → Prop} {s : State} (h : P s)
    (ha : ∀ s, P s → ∀ who acc l, P (State.saveAllReady s who acc l).2) (hr : ∀ s, P s → ∀ who va n, P (State.readSaved s who va n).2)
    (hQ : ∀ x u, P u → Q (x, u)) (who : Nat) : Q (s.readFrame who) := by
  have e : State.readFrame = State.readFrame := rfl
  conv at e => rhs; delta State.readFrame
  generalize State.readFrame = readFrame at e ⊢
  generalize State.readSaved = readSaved at hr e
  generalize State.saveAllReady = saveAllReady at ha e
  as_aux_lemma =>
    subst e
    dsimp only
    have snd : ∀ {α : Type} {x : α × State} {a : α} {t : State}, x = (a, t) → P x.2 → P t := fun e hx => by rwa [e] at hx
    split
    · next heq => exact hQ _ _ (snd heq (ha _ h ..))
    · next heq =>
      have h2 := hr _ (snd heq (ha _ h ..))
      split
      · next heq => exact hQ _ _ (snd heq (h2 ..))
      · next heq =>
        have h3 := hr _ (snd heq (h2 ..))
        split <;> next heq => exact hQ _ _ (snd heq (h3 ..))

@[simp] theorem State.plain_readFrame (who : Nat) : (s.readFrame who).2.plain = s.plain :=
  State.readFrame_keeps (P := fun t => t.plain = s.plain) (Q := fun r => r.2.plain = s.plain) rfl
    (fun t ht _ _ _ => (t.plain_saveAllReady ..).trans ht) (fun t ht _ _ _ => (t.plain_readSaved ..).trans ht) (fun _ _ h => h) who

@[simp] theorem State.plain_imageParts (ctx va map_ core who tag : Nat) (acc : Acc) :
    (s.imageParts ctx va map_ core who tag acc).2.plain = s.plain := by
  unfold State.imageParts
  split
  · next heq => exact State.plain_snd heq (s.plain_askSpan ..)
  · next heq => exact State.plain_snd heq (s.plain_askSpan ..)
  · next heq =>
    have h1 := State.plain_snd heq (s.plain_askSpan ..)
    split
    · next heq2 => exact (State.plain_snd heq2 (State.plain_askSpan ..)).trans h1
    · next heq2 => exact (State.plain_snd heq2 (State.plain_askSpan ..)).trans h1
    · next heq2 =>
      have h2 := (State.plain_snd heq2 (State.plain_askSpan ..)).trans h1
      dsimp only
      split <;> simpa using h2

end Sys2Proof.Machine
end

section
/-! EXIT and REFORM (R210, R218, R219, R231, R266, R268, R421, R445), and what leaving a handler does to the warp. -/

namespace Sys2Proof.Machine

/-! ### What follows when lanes have left -/

theorem Warp.releaseAll_still (w : Warp) : w.releaseAll.still = w.still := by
  have : ∀ (l : List Nat) (v : Warp), (l.foldl (fun w k => w.releaseK k) v).still = v.still := by
    intro l
    induction l with
    | nil => exact fun _ => rfl
    | cons k l ih => exact fun v => (ih _).trans (v.releaseK_still k)
  exact this _ w

/-- A control part without its place in a quorum and its waits. -/
def WarpCtl.unseated (c : WarpCtl) : WarpCtl :=
  { c with waits := [], seated := false, arrived := false, quorumIssue := none, mismatch := none }

theorem State.mismatchSeats_unseated (s : State) (ws : List Nat) (n : Nat) :
    ((s.mismatchSeats ws).ctl n).unseated = (s.ctl n).unseated := by
  induction ws generalizing s with
  | nil => rfl
  | cons a ws ih =>
    refine (ih _).trans ?_
    dsimp only
    split
    · by_cases hn : n = a
      · subst hn; rw [State.ctl_modCtl]; rfl
      · rw [State.ctl_modCtl_other _ _ hn]
    · rfl

theorem endWaitsAt_unseated (f : WaitKind → Bool) (x : Warp × WarpCtl) : (endWaitsAt f x).2.unseated = x.2.unseated := by
  rw [endWaitsAt, foldl_endWaitAt_waits]
  rfl

theorem State.seatAll_unseated (s : State) (ws : List Nat) (b : Bool) (f : WaitKind → Bool) (n : Nat) :
    ((s.seatAll ws b f).ctl n).unseated = (s.ctl n).unseated := by
  have h := congrArg Prod.snd (s.seatAll_thread ws b f n)
  rw [show (s.seatAll ws b f).ctl n = ((s.seatAll ws b f).thread n).2 from rfl, h]
  split
  · exact endWaitsAt_unseated f _
  · rfl

theorem State.disbandCheck_cases (s : State) (who : Nat) :
    s.disbandCheck who = s.seatAll (s.quorumOf who) false isDisband ∨ s.disbandCheck who = s := by
  unfold State.disbandCheck
  dsimp only
  split
  · exact .inl rfl
  · exact .inr rfl

/-- A step of the world that leaves the registers of every warp, and the control parts but for seats and waits. -/
structure Leaves (s t : State) : Prop where
  world : { t with warps := [], ctls := [], cores := [] } = { s with warps := [], ctls := [], cores := [] }
  still : ∀ n, (t.warp n).still = (s.warp n).still
  ctl : ∀ n, (t.ctl n).unseated = (s.ctl n).unseated

theorem Leaves.refl (s : State) : Leaves s s := ⟨rfl, fun _ => rfl, fun _ => rfl⟩

theorem Leaves.trans {s t u : State} (h : Leaves s t) (k : Leaves t u) : Leaves s u :=
  ⟨k.world.trans h.world, fun n => (k.still n).trans (h.still n), fun n => (k.ctl n).trans (h.ctl n)⟩

theorem State.barrierCheck_leaves (s : State) (g core : Nat) : Leaves s (s.barrierCheck g core) := by
  have h := s.barrierCheck_world g core
  refine ⟨congrArg (fun x : State => { x with ctls := [], cores := [] }) h, s.barrierCheck_still g core, fun n => ?_⟩
  have hc : (s.barrierCheck g core).ctls = s.ctls := by have := congrArg State.ctls h; exact this
  rw [State.ctl, hc]
  rfl

theorem State.allFiled_leaves (s : State) (g core : Nat) : Leaves s (s.allFiled g core) := by
  unfold State.allFiled
  split
  · exact ⟨rfl, fun _ => rfl, fun _ => rfl⟩
  · exact .refl s

theorem State.modCtl_leaves (s : State) (who : Nat) {f : WarpCtl → WarpCtl} (hf : ∀ c, (f c).unseated = c.unseated) :
    Leaves s (s.modCtl who f) := by
  refine ⟨rfl, fun _ => rfl, fun n => ?_⟩
  by_cases hn : n = who
  · subst hn; rw [State.ctl_modCtl, hf]
  · rw [State.ctl_modCtl_other _ _ hn]

theorem State.modWarp_leaves (s : State) (who : Nat) {f : Warp → Warp} (hf : ∀ w, (f w).still = w.still) :
    Leaves s (s.modWarp who f) := by
  refine ⟨rfl, fun n => ?_, fun _ => rfl⟩
  by_cases hn : n = who
  · subst hn; rw [State.warp_modWarp, hf]
  · rw [State.warp_modWarp_other _ _ hn]

theorem State.mismatchSeats_leaves (s : State) (ws : List Nat) : Leaves s (s.mismatchSeats ws) := by
  have h := s.mismatchSeats_world ws
  exact ⟨congrArg (fun x : State => { x with warps := [], cores := [] }) h, fun n => by rw [State.warp_congr h],
    s.mismatchSeats_unseated ws⟩

theorem State.disbandCheck_leaves (s : State) (who : Nat) : Leaves s (s.disbandCheck who) := by
  rcases s.disbandCheck_cases who with h | h <;> rw [h]
  · exact ⟨congrArg (fun x : State => { x with cores := [] }) (s.seatAll_world _ _ _),
      fun n => Warp.still_of_nopc (s.seatAll_nopc _ _ _ n), s.seatAll_unseated _ _ _⟩
  · exact .refl s

theorem State.breakQuorum_leaves (s : State) (who : Nat) : Leaves s (s.breakQuorum who) := s.mismatchSeats_leaves _

theorem State.lanesGone_leaves (s : State) (who : Nat) : Leaves s (s.lanesGone who) := by
  have h1 := ((s.modWarp_leaves who Warp.releaseAll_still).trans
    (State.barrierCheck_leaves _ (s.warp who).wg (coreOf who))).trans (State.allFiled_leaves _ (s.warp who).wg (coreOf who))
  unfold State.lanesGone
  generalize ((s.modWarp who Warp.releaseAll).barrierCheck (s.warp who).wg (coreOf who)).allFiled (s.warp who).wg (coreOf who) = u at h1 ⊢
  dsimp only
  split
  · have h2 := u.modCtl_leaves who (f := fun c => { c with arrived := true }) fun _ => rfl
    exact ((h1.trans h2).trans (State.breakQuorum_leaves _ who)).trans (State.disbandCheck_leaves _ who)
  · exact h1

section
variable {c d : WarpCtl} (h : c.unseated = d.unseated)
include h

theorem WarpCtl.unseated_inTrap : c.inTrap = d.inTrap := by have := congrArg WarpCtl.inTrap h; exact this
theorem WarpCtl.unseated_cause : c.cause = d.cause := by have := congrArg WarpCtl.cause h; exact this
theorem WarpCtl.unseated_tvec : c.tvec = d.tvec := by have := congrArg WarpCtl.tvec h; exact this

end

section
variable {c d : WarpCtl} (h : c.unissued = d.unissued)
include h

theorem WarpCtl.unissued_inTrap : c.inTrap = d.inTrap := by have := congrArg WarpCtl.inTrap h; exact this
theorem WarpCtl.unissued_cause : c.cause = d.cause := by have := congrArg WarpCtl.cause h; exact this
theorem WarpCtl.unissued_tvec : c.tvec = d.tvec := by have := congrArg WarpCtl.tvec h; exact this
theorem WarpCtl.unissued_fatal : c.fatal = d.fatal := by have := congrArg WarpCtl.fatal h; exact this
theorem WarpCtl.unissued_waits : c.waits = d.waits := by have := congrArg WarpCtl.waits h; exact this
theorem WarpCtl.unissued_trapMask : c.trapMask = d.trapMask := by have := congrArg WarpCtl.trapMask h; exact this

end

theorem WordFrame.streams {s t : State} {who : Nat} (h : WordFrame s t who) : t.streams = s.streams := by
  have := congrArg State.streams h.world
  exact this

theorem WordFrame.wgs {s t : State} {who : Nat} (h : WordFrame s t who) : t.wgs = s.wgs := by
  have := congrArg State.wgs h.world
  exact this

/-! ### Lanes that exit -/

theorem mgetD_mdiff (k : SMap LaneMask) (m : LaneMask) (n : Nat) :
    mgetD (k.map (fun e => (e.1, mdiff e.2 m))) n 0 = mdiff (mgetD k n 0) m := by
  induction k with
  | nil => simp [mgetD, mget, mdiff]
  | cons e k ih =>
    simp only [mgetD, mget, List.map_cons] at ih ⊢
    split
    · rfl
    · exact ih

/-- What EXIT leaves of the warp, where its paths and parked lanes stand aside (R210, R266). -/
theorem Warp.exitLanes_still {w : Warp} {lane : Nat} {p : Path} (m : LaneMask) (pc : W64) (hp : w.pathAt lane = some p) :
    (w.exitLanes lane m pc).still = ({ w with exited := w.exited ||| m } : Warp).still.clearK m := by
  unfold Warp.exitLanes
  rw [hp]
  dsimp only
  split
  · rfl
  · exact Warp.still_of_nopc (Warp.advance_nopc _ _ _ _)

/-- The warp whose lanes have exited, as EXIT leaves it. -/
structure Exited (w v : Warp) (m : LaneMask) : Prop where
  exited : v.exited = w.exited ||| m
  k : ∀ n, v.kmask n = mdiff (w.kmask n) m
  scalars : v.s = w.s
  preds : v.p = w.p
  blocks : v.blocks = w.blocks

theorem exited_of {w v : Warp} {lane : Nat} {p : Path} {m : LaneMask} {pc : W64} (hp : w.pathAt lane = some p)
    (h : v.still = (w.exitLanes lane m pc).still) : Exited w v m := by
  rw [Warp.exitLanes_still m pc hp] at h
  have hk : v.k = w.k.map (fun e => (e.1, mdiff e.2 m)) := by have := congrArg Warp.k h; exact this
  refine ⟨by have := congrArg Warp.exited h; exact this, fun n => ?_, by have := congrArg Warp.s h; exact this,
    by have := congrArg Warp.p h; exact this, by have := congrArg Warp.blocks h; exact this⟩
  rw [Warp.kmask, hk, mgetD_mdiff]
  rfl

/-! ### The end of a handler -/

theorem State.noteMoved_ctl (s : State) (who n : Nat) : { (s.noteMoved who).ctl n with qtrap := none } = { s.ctl n with qtrap := none } := by
  unfold State.noteMoved
  split
  · split
    · rfl
    · by_cases hn : n = who
      · subst hn; rw [State.ctl_modCtl]
      · rw [State.ctl_modCtl_other _ _ hn]
  · rfl

theorem State.noteMoved_world (s : State) (who : Nat) : { s.noteMoved who with ctls := [] } = { s with ctls := [] } := by
  unfold State.noteMoved
  split
  · split <;> rfl
  · rfl

theorem Warp.resume_some {w v : Warp} {bs : List Byte} {words : Nat → W64} {c : WarpCtl} (h : w.resume bs words c = some v) :
    v = { w.ofLayout bs with
      paths := resumePaths bs words (mdiff c.trapMask w.exited) w.exited c.frozen
      blocks := (List.range (handlerBlocks c)).foldl (fun m b =>
        mset m b { absentBlock (w.block b).group (w.block b).row with lost := c.trapLost.contains b }) w.blocks } := by
  unfold Warp.resume at h
  dsimp only at h
  split at h
  · cases h
  · exact (Option.some.inj h).symm

/-- The state after a handler whose frame passes the loop check, before what follows from the frame's rejoin masks. -/
structure TrapLeft (s t : State) (who : Nat) (v : Warp) : Prop where
  warp : t.warp who = { v with parked := v.parked.map (fun q => { q with gen := (s.ctl who).gen }) }
  inTrap : (t.ctl who).inTrap = false
  cause : (t.ctl who).cause = 0
  tvec : (t.ctl who).tvec = (s.ctl who).tvec
  cur : t.cur = s.cur

theorem State.leaveTrap_some {s : State} {who : Nat} {pc : W64} {f : List Byte × List Byte} {v : Warp}
    (h : (s.warp who).resume f.1 (fun L => BitVec.ofNat 64 (sub f.2 (32 * L) 8)) (s.ctl who) = some v) :
    TrapLeft s ((s.leaveTrap who pc f).noteMoved who) who v := by
  have hp : (s.leaveTrap who pc f).plain = ((s.setWarp who { v with parked := v.parked.map (fun q => { q with gen := (s.ctl who).gen }) }).setCtl
      who { s.ctl who with inTrap := false, stall := none, cause := 0, trapMask := 0, trapCurb := 0, trapLost := [], frozen := [], frozenParked := [] }).plain := by
    unfold State.leaveTrap
    dsimp only
    rw [h]
    simp only [State.plain_record, State.plain_dropAsks]
  have hq := (s.leaveTrap who pc f).noteMoved_ctl who who
  rw [State.ctl_of_plain hp, State.ctl_setCtl] at hq
  have hw := (s.leaveTrap who pc f).noteMoved_world who
  refine ⟨?_, ?_, ?_, ?_, ?_⟩
  · rw [State.warp_congr hw, State.warp_of_plain hp, State.warp_setCtl, State.warp_setWarp]
  · have := congrArg WarpCtl.inTrap hq; exact this
  · have := congrArg WarpCtl.cause hq; exact this
  · have := congrArg WarpCtl.tvec hq; exact this
  · have h1 : ((s.leaveTrap who pc f).noteMoved who).cur = (s.leaveTrap who pc f).cur := by have := congrArg State.cur hw; exact this
    have h2 := State.cur_of_plain hp
    exact h1.trans h2

/-- Leaving a handler ends trap context, with the scalars, predicates and masks of the frame and the handler's blocks absent. -/
theorem State.returnTrap_cases (s : State) (who : Nat) (pc : W64) (f : List Byte × List Byte) {v : Warp}
    (h : (s.warp who).resume f.1 (fun L => BitVec.ofNat 64 (sub f.2 (32 * L) 8)) (s.ctl who) = some v) :
    Leaves ((s.leaveTrap who pc f).noteMoved who) (s.returnTrap who pc f) ∧
      ((s.ctl who).trapMask &&& (s.warp who).exited = 0 → v.exited = (s.warp who).exited →
        s.returnTrap who pc f = ((s.leaveTrap who pc f).noteMoved who).modWarp who Warp.releaseAll) := by
  have l := State.leaveTrap_some (pc := pc) h
  unfold State.returnTrap
  dsimp only
  have hx : (((s.leaveTrap who pc f).noteMoved who).warp who).exited = v.exited := by rw [l.warp]
  rw [if_neg (by simp [l.inTrap]), hx]
  split
  · next hc =>
    refine ⟨State.lanesGone_leaves _ who, fun h1 h2 => ?_⟩
    simp [h1, h2] at hc
  · exact ⟨State.modWarp_leaves _ who Warp.releaseAll_still, fun _ _ => rfl⟩

theorem block_absent (w : Warp) (lost : Nat → Bool) (n b : Nat) :
    let m := (List.range n).foldl (fun m b => mset m b { absentBlock (w.block b).group (w.block b).row with lost := lost b }) w.blocks
    (b < n → (mgetD m b {}).absent = true) ∧ (n ≤ b → mgetD m b {} = w.block b) := by
  induction n with
  | zero => exact ⟨fun h => absurd h (Nat.not_lt_zero _), fun _ => rfl⟩
  | succ n ih =>
    dsimp only at ih ⊢
    rw [List.range_succ, List.foldl_append, List.foldl_cons, List.foldl_nil]
    by_cases hb : b = n
    · subst hb
      rw [mgetD_mset_same]
      exact ⟨fun _ => rfl, fun h => by omega⟩
    · rw [mgetD_mset_other _ _ _ hb]
      exact ⟨fun h => ih.1 (by omega), fun h => ih.2 (by omega)⟩

/-! ### Event records -/

/-- What posting a record leaves: all that an access leaves but the stream's queue. -/
structure Posts (s t : State) (j : Nat) : Prop where
  world : { t.plain with streams := [] } = { s.plain with streams := [] }
  stream : { t.stream j with evqhead := 0, held := [] } = { s.stream j with evqhead := 0, held := [] }

theorem State.stream_setStream (s : State) (j : Nat) (x : Stream) : (s.setStream j x).stream j = x := mgetD_mset_same _ _ _ _

theorem State.stream_of_plain {s t : State} (h : t.plain = s.plain) (j : Nat) : t.stream j = s.stream j := by
  rw [State.stream, State.streams_of_plain h]
  rfl

theorem State.putRecord_posts (s : State) (j : Nat) (r : BitVec 256) : Posts s (s.putRecord j r) j := by
  have h : ∀ (u : State) (x : Stream), u.plain = s.plain → { x with evqhead := 0, held := [] } = { s.stream j with evqhead := 0, held := [] } →
      Posts s (u.setStream j x) j := fun u x hu hx =>
    ⟨congrArg (fun x : State => { x with streams := [] }) hu, by rw [State.stream_setStream]; exact hx⟩
  unfold State.putRecord
  dsimp only
  generalize hw : s.physWrite _ _ _ = u
  have hu : u.plain = s.plain := hw ▸ s.plain_physWrite _ _ _
  have k := h u { s.stream j with evqhead := (s.stream j).evqhead + 1 } hu rfl
  split
  · exact ⟨k.world, k.stream⟩
  · exact k

theorem State.postRecord_posts (s : State) (j kind : Nat) (irq : Bool) (pay0 pc : W64) : Posts s (s.postRecord j kind irq pay0 pc) j := by
  unfold State.postRecord
  dsimp only
  split
  · exact ⟨rfl, by rw [State.stream_setStream]⟩
  · exact State.putRecord_posts _ _ _

section
variable {s t : State} {j : Nat} (h : Posts s t j)
include h

theorem Posts.warp (n : Nat) : t.warp n = s.warp n := by
  have : t.warps = s.warps := by have := congrArg State.warps h.world; exact this
  rw [State.warp, this]
  rfl

theorem Posts.ctl (n : Nat) : t.ctl n = s.ctl n := by
  have : t.ctls = s.ctls := by have := congrArg State.ctls h.world; exact this
  rw [State.ctl, this]
  rfl

theorem Posts.cur : t.cur = s.cur := by have := congrArg State.cur h.world; exact this
theorem Posts.state : (t.stream j).state = (s.stream j).state := by have := congrArg Stream.state h.stream; exact this
theorem Posts.strpc : (t.stream j).strpc = (s.stream j).strpc := by have := congrArg Stream.strpc h.stream; exact this

end

/-- The program of a stream stops: no path is left, and the stream stands in its last state at this packet (R421, R449). -/
structure ProgramEnds (s t : State) (who st : Nat) (pc : W64) : Prop where
  state : (t.stream (who - streamBase)).state = st
  strpc : (t.stream (who - streamBase)).strpc = pktOf pc
  warp : t.warp who = { s.warp who with paths := [], parked := [] }
  waits : (t.ctl who).waits = []
  cur : t.cur = s.cur

theorem State.stopThread_ends (s : State) (who st : Nat) (pc : W64) (kind : Nat) (irq : Bool) (pay : W64) (at_ : W64) :
    ProgramEnds s (((s.stopThread who).modStream (who - streamBase) (fun x => { x with state := st, strpc := pktOf pc })).postRecord
      (who - streamBase) kind irq pay at_) who st pc := by
  have h := State.postRecord_posts ((s.stopThread who).modStream (who - streamBase) (fun x => { x with state := st, strpc := pktOf pc }))
    (who - streamBase) kind irq pay at_
  refine ⟨?_, ?_, ?_, ?_, h.cur⟩
  · rw [h.state, State.modStream, State.stream_setStream]
  · rw [h.strpc, State.modStream, State.stream_setStream]
  · rw [h.warp]
    exact (State.warp_modWarp s who (fun w => { w with paths := [], parked := [] }) :)
  · rw [h.ctl]
    exact congrArg WarpCtl.waits (State.ctl_modCtl s who (fun c => { c with waits := [] }) :)

/-! ### EXIT -/

theorem mdiff_sub {m n : LaneMask} (h : mdiff m n = 0) : m &&& n = m := by
  refine BitVec.eq_of_getLsbD_eq fun L hL => ?_
  have := congrArg (fun x : LaneMask => x.getLsbD L) h
  simp only [mdiff_get hL] at this
  rw [BitVec.getLsbD_and]
  cases hm : m.getLsbD L with
  | false => rfl
  | true => simpa [hm] using this

theorem lanesOf_zero : lanesOf 0 = [] := by
  rw [List.eq_nil_iff_forall_not_mem]
  intro L hL
  simp [lanesOf_mem] at hL

/-- No lane of the handler is left: nothing of the interrupted path resumes, so the loop check passes. -/
theorem Warp.resume_gone {w : Warp} {bs : List Byte} {words : Nat → W64} {c : WarpCtl} (h : mdiff c.trapMask w.exited = 0) :
    ∃ v, w.resume bs words c = some v := by
  unfold Warp.resume
  dsimp only
  rw [h, lanesOf_zero, if_neg (by simp)]
  exact ⟨_, rfl⟩

/-- Which way EXIT goes: on, its program's end, or the lanes' exit and what follows. -/
theorem exitBody_lanes {is : Issue} {s : State} (hm : is.mask ≠ 0) (hs : isStream is.who = false)
    (ht : (s.ctl is.who).inTrap = false) : exitBody is s =
      .jump ((s.modWarp is.who (fun w => w.exitLanes is.lane is.mask is.pc)).lanesGone is.who) := by
  rw [exitBody]
  exact (if_neg hm).trans ((if_neg (by simp [hs])).trans (if_pos (by simp [ht])))

theorem exitBody_lives {is : Issue} {s : State} (hm : is.mask ≠ 0) (hs : isStream is.who = false)
    (ht : (s.ctl is.who).inTrap = true) (hl : s.handlerLives is.who is.mask = true) : exitBody is s =
      .jump ((s.modWarp is.who (fun w => w.exitLanes is.lane is.mask is.pc)).modWarp is.who Warp.releaseAll) := by
  rw [exitBody]
  exact (if_neg hm).trans ((if_neg (by simp [hs])).trans ((if_neg (by simp [ht])).trans (if_pos hl)))

theorem exitBody_waits {is : Issue} {s : State} (hm : is.mask ≠ 0) (hs : isStream is.who = false)
    (ht : (s.ctl is.who).inTrap = true) (hl : s.handlerLives is.who is.mask = false) (hw : s.handlerSettled is.who = false) :
    exitBody is s = .hold s := by
  rw [exitBody]
  exact (if_neg hm).trans ((if_neg (by simp [hs])).trans ((if_neg (by simp [ht])).trans ((if_neg (by simp [hl])).trans
    (if_pos (by simp [hw])))))

theorem exitBody_fetches {is : Issue} {s u : State} (hm : is.mask ≠ 0) (hs : isStream is.who = false)
    (ht : (s.ctl is.who).inTrap = true) (hl : s.handlerLives is.who is.mask = false) (hw : s.handlerSettled is.who = true)
    (hf : s.readFrame is.who = (none, u)) : exitBody is s = .hold u := by
  simp only [exitBody, hm, hs, ht, hl, hw, hf, if_false, Bool.false_eq_true, Bool.not_true]

theorem exitBody_returns {is : Issue} {s u : State} {f : List Byte × List Byte} (hm : is.mask ≠ 0) (hs : isStream is.who = false)
    (ht : (s.ctl is.who).inTrap = true) (hl : s.handlerLives is.who is.mask = false) (hw : s.handlerSettled is.who = true)
    (hf : s.readFrame is.who = (some f, u)) : exitBody is s =
      .jump ((u.modWarp is.who (fun w => w.exitLanes is.lane is.mask is.pc)).returnTrap is.who is.pc f) := by
  simp only [exitBody, hm, hs, ht, hl, hw, hf, if_false, Bool.false_eq_true, Bool.not_true]

theorem exitBody_ends {is : Issue} {s : State} (hm : is.mask ≠ 0) (hs : isStream is.who = true) :
    exitBody is s = .jump (s.endProgram is.who is.pc) := by
  rw [exitBody]
  exact (if_neg hm).trans (if_pos hs)

section
variable {s : State} {is : Issue} {g : Guard} (h : s.ready (.exit g) = some is)
include h

theorem exit_lanes (hm : is.mask ≠ 0) (hs : isStream is.who = false) (hl : (s.ctl is.who).inTrap = false ∨
      mdiff (s.ctl is.who).trapMask (is.mask ||| (s.warp is.who).exited) ≠ 0) :
    ∃ t, Machine.exec (.exit g) s = .next t ∧ t.mem = s.mem ∧ t.wgs = s.wgs ∧ (t.ctl is.who).inTrap = (s.ctl is.who).inTrap ∧
      Exited (s.warp is.who) (t.warp is.who) is.mask := by
  obtain ⟨-, p, hp, -⟩ := State.readyWith_path h
  -- the lanes exit, and what follows leaves the registers of every warp
  have hb : ∃ u, exitBody is s = .jump u ∧ Leaves (s.modWarp is.who (fun w => w.exitLanes is.lane is.mask is.pc)) u := by
    by_cases ht : (s.ctl is.who).inTrap = false
    · exact ⟨_, exitBody_lanes hm hs ht, State.lanesGone_leaves _ _⟩
    · exact ⟨_, exitBody_lives hm hs (Bool.eq_true_of_not_eq_false ht) (by simpa [State.handlerLives] using hl.resolve_left ht),
        State.modWarp_leaves _ _ Warp.releaseAll_still⟩
  obtain ⟨u, hb, l⟩ := hb
  have hcur : u.cur = s.cur := by have := congrArg State.cur l.world; exact this
  obtain ⟨t, he, f, hn⟩ := jumpEnd_of h rfl hb hcur
  have hmem : u.mem = s.mem := by have := congrArg State.mem l.world; exact this
  have hwgs : u.wgs = s.wgs := by have := congrArg State.wgs l.world; exact this
  have e : Exited (s.warp is.who) (u.warp is.who) is.mask := by
    refine exited_of (lane := is.lane) (pc := is.pc) hp ?_
    rw [l.still, State.warp_modWarp]
  refine ⟨t, he, f.mem.trans hmem, f.wgs.trans hwgs, ?_, ?_⟩
  · rw [WarpCtl.unissued_inTrap f.ctl, WarpCtl.unseated_inTrap (l.ctl is.who)]
    rfl
  · refine ⟨(Warp.nox_exited hn).trans e.exited, fun n => ?_, (Warp.nox_s hn).trans e.scalars, (Warp.nox_p hn).trans e.preds,
      (Warp.nox_blocks hn).trans e.blocks⟩
    rw [← e.k n, Warp.kmask, Warp.nox_k hn]
    rfl

theorem exit_program (hm : is.mask ≠ 0) (hs : isStream is.who = true) : ∃ t, Machine.exec (.exit g) s = .next t ∧
    (t.stream (is.who - streamBase)).state = 3 ∧ (t.stream (is.who - streamBase)).strpc = pktOf is.pc ∧
    (t.warp is.who).paths = [] ∧ (t.warp is.who).s = (s.warp is.who).s := by
  have e := s.stopThread_ends is.who 3 is.pc 2 false 0 is.pc
  obtain ⟨t, he, f, hn⟩ := jumpEnd_of h rfl (exitBody_ends hm hs) e.cur
  have hst : t.stream (is.who - streamBase) = (s.endProgram is.who is.pc).stream (is.who - streamBase) := by
    rw [State.stream, f.streams]
    rfl
  refine ⟨t, he, ?_, ?_, ?_, ?_⟩
  · rw [hst]; exact e.state
  · rw [hst]; exact e.strpc
  · have hp : ((s.endProgram is.who is.pc).warp is.who).paths = [] := congrArg Warp.paths e.warp
    exact (Warp.nox_paths hn).trans hp
  · have hr : ((s.endProgram is.who is.pc).warp is.who).s = (s.warp is.who).s := by have := congrArg Warp.s e.warp; exact this
    exact (Warp.nox_s hn).trans hr

end

/-- What is left once a handler has ended and the frame's rejoin masks have been looked at. -/
structure Returned (s t : State) (who : Nat) (f : List Byte × List Byte) : Prop where
  inTrap : (t.ctl who).inTrap = false
  cause : (t.ctl who).cause = 0
  tvec : (t.ctl who).tvec = (s.ctl who).tvec
  scalars : (t.warp who).s = ((s.warp who).ofLayout f.1).s
  preds : (t.warp who).p = ((s.warp who).ofLayout f.1).p
  k : (t.warp who).k = ((s.warp who).ofLayout f.1).k
  exited : (t.warp who).exited = ((s.warp who).ofLayout f.1).exited
  own : ∀ b, b < min 2 (s.ctl who).trapCurb → ((t.warp who).block b).absent = true
  others : ∀ b, min 2 (s.ctl who).trapCurb ≤ b → (t.warp who).block b = (s.warp who).block b

theorem returned_of {t : State} {is : Issue} {pc : W64} {f : List Byte × List Byte} {v : Warp} {u : State}
    (hv : (u.warp is.who).resume f.1 (fun L => BitVec.ofNat 64 (sub f.2 (32 * L) 8)) (u.ctl is.who) = some v)
    (w : WordFrame (u.returnTrap is.who pc f) t is.who) (hn : (t.warp is.who).nox = ((u.returnTrap is.who pc f).warp is.who).nox) :
    Returned u t is.who f := by
  have l := State.leaveTrap_some (pc := pc) hv
  have r := (u.returnTrap_cases is.who pc f hv).1
  have hs := r.still is.who
  rw [l.warp] at hs
  have hc := r.ctl is.who
  have e := Warp.resume_some hv
  have hb : ∀ b, (t.warp is.who).block b = v.block b := fun b => by
    rw [Warp.block, Warp.nox_blocks hn, Warp.still_blocks hs]
    rfl
  have ha := block_absent (u.warp is.who) (u.ctl is.who).trapLost.contains (handlerBlocks (u.ctl is.who))
  refine ⟨?_, ?_, ?_, ?_, ?_, ?_, ?_, fun b hlt => ?_, fun b hle => ?_⟩
  · rw [WarpCtl.unissued_inTrap w.ctl, WarpCtl.unseated_inTrap hc, l.inTrap]
  · rw [WarpCtl.unissued_cause w.ctl, WarpCtl.unseated_cause hc, l.cause]
  · rw [WarpCtl.unissued_tvec w.ctl, WarpCtl.unseated_tvec hc, l.tvec]
  · have hv : v.s = ((u.warp is.who).ofLayout f.1).s := by have := congrArg Warp.s e; exact this
    exact ((Warp.nox_s hn).trans (Warp.still_s hs)).trans hv
  · have hv : v.p = ((u.warp is.who).ofLayout f.1).p := by have := congrArg Warp.p e; exact this
    exact ((Warp.nox_p hn).trans (Warp.still_p hs)).trans hv
  · have hv : v.k = ((u.warp is.who).ofLayout f.1).k := by have := congrArg Warp.k e; exact this
    exact ((Warp.nox_k hn).trans (Warp.still_k hs)).trans hv
  · have hv : v.exited = ((u.warp is.who).ofLayout f.1).exited := by have := congrArg Warp.exited e; exact this
    exact ((Warp.nox_exited hn).trans (Warp.still_exited hs)).trans hv
  · rw [hb, e]
    exact (ha b).1 hlt
  · rw [hb, e]
    exact (ha b).2 hle

theorem exit_handler {s u : State} {is : Issue} {g : Guard} {f : List Byte × List Byte} (h : s.ready (.exit g) = some is)
    (hm : is.mask ≠ 0) (hs : isStream is.who = false) (ht : (s.ctl is.who).inTrap = true)
    (hl : mdiff (s.ctl is.who).trapMask (is.mask ||| (s.warp is.who).exited) = 0) (hw : s.handlerSettled is.who = true)
    (hf : s.readFrame is.who = (some f, u)) :
    ∃ t, Machine.exec (.exit g) s = .next t ∧ (t.warp is.who).exited &&& is.mask = is.mask ∧
      Returned (u.modWarp is.who (fun w => w.exitLanes is.lane is.mask is.pc)) t is.who f := by
  obtain ⟨-, p, hp, -⟩ := State.readyWith_path h
  have hu : u.plain = s.plain := State.plain_snd hf (s.plain_readFrame is.who)
  have hl' : s.handlerLives is.who is.mask = false := by simp [State.handlerLives, hl]
  have hb := exitBody_returns hm hs ht hl' hw hf
  generalize hy : u.modWarp is.who (fun w => w.exitLanes is.lane is.mask is.pc) = y at hb
  have hyc : y.ctl is.who = s.ctl is.who := by rw [← hy, State.ctl_modWarp, State.ctl_of_plain hu]
  have hyx : (y.warp is.who).exited = (s.warp is.who).exited ||| is.mask := by
    have e := exited_of (v := y.warp is.who) (m := is.mask) (pc := is.pc) hp (by rw [← hy, State.warp_modWarp, State.warp_of_plain hu])
    exact e.exited
  -- no lane of the handler is left, so the frame passes the loop check
  obtain ⟨v, hv⟩ := Warp.resume_gone (w := y.warp is.who) (bs := f.1) (words := fun L => BitVec.ofNat 64 (sub f.2 (32 * L) 8))
    (c := y.ctl is.who) (by rw [hyc, hyx, BitVec.or_comm]; exact hl)
  have l := State.leaveTrap_some (pc := is.pc) hv
  have hcur : (y.returnTrap is.who is.pc f).cur = s.cur := by
    have hr := (y.returnTrap_cases is.who is.pc f hv).1.world
    have hr' : (y.returnTrap is.who is.pc f).cur = ((y.leaveTrap is.who is.pc f).noteMoved is.who).cur := by
      have := congrArg State.cur hr; exact this
    rw [hr', l.cur, ← hy, State.modWarp_cur, State.cur_of_plain hu]
  obtain ⟨t, he, w, hn⟩ := jumpEnd_of h rfl hb hcur
  have r := returned_of hv w hn
  refine ⟨t, he, ?_, r⟩
  rw [r.exited]
  show (maskOf _ ||| (y.warp is.who).exited) &&& is.mask = is.mask
  rw [hyx]
  refine BitVec.eq_of_getLsbD_eq fun L _ => ?_
  simp only [BitVec.getLsbD_and, BitVec.getLsbD_or]
  cases is.mask.getLsbD L <;> simp

/-- Settles O22. -/
theorem exitAndReform : Obligations.ExitAndReform := by
  refine ⟨fun s is g h => ⟨fun hm => ?_, fun hm hs hl => ?_, fun hm hs ht hl => ⟨fun hw => ?_, fun u hw hf => ?_, fun bs ws u hw hf => ?_⟩,
    fun hm hs => exit_program h hm hs⟩, fun s is g a n => ⟨fun h hl hseat => ?_, fun h => ⟨?_, fun hm => ?_, fun hm => ?_⟩⟩⟩
  · refine regFrame_of h rfl ?_
    rw [exitBody]
    exact if_pos hm
  · obtain ⟨t, he, h1, h2, h3, e⟩ := exit_lanes h hm hs hl
    exact ⟨t, he, h1, h2, h3, e.exited, e.k, e.scalars, e.preds, e.blocks⟩
  · have hl' : s.handlerLives is.who is.mask = false := by simpa [State.handlerLives] using hl
    exact hold_of h rfl (exitBody_waits hm hs ht hl' hw)
  · have hl' : s.handlerLives is.who is.mask = false := by simpa [State.handlerLives] using hl
    exact hold_of h rfl (exitBody_fetches hm hs ht hl' hw hf)
  · obtain ⟨t, he, hx, r⟩ := exit_handler h hm hs ht (not_not.1 hl) hw hf
    obtain ⟨-, p, hp, -⟩ := State.readyWith_path h
    have hu : u.plain = s.plain := State.plain_snd hf (s.plain_readFrame is.who)
    have e : Exited (u.warp is.who) ((u.modWarp is.who (fun w => w.exitLanes is.lane is.mask is.pc)).warp is.who) is.mask :=
      exited_of (pc := is.pc) (by rw [State.warp_of_plain hu]; exact hp) (by rw [State.warp_modWarp])
    refine ⟨t, he, r.inTrap, r.cause, r.tvec, r.scalars, r.preds, hx, r.own, fun b hb => ?_⟩
    rw [r.others b hb, Warp.block, e.blocks]
    rfl
  · refine runWordWith_pre (reformBody a n) h hl ?_
    simp [reformPre, hseat]
  · obtain ⟨-, -, hp, -⟩ := State.readyWith_eq h
    rintro ⟨h1, h2⟩
    simp [reformPre, h1, h2] at hp
  · refine regFrame_of h rfl ?_
    rw [reformBody]
    exact if_pos hm
  · refine waitBegins_of h rfl ?_
    rw [reformBody]
    exact if_neg hm

end Sys2Proof.Machine
end

section
/-! Traps that end a warp or a program (R440, R449). -/

namespace Sys2Proof.Machine

/-- The state in which a word's trap is taken: the seat's issue noted (R217), its group closed (R249). -/
def State.trapping (s : State) (is : Issue) : State :=
  (((s.warp is.who).pathAt is.lane).elim s (fun p => s.noteQtrap is.who p is.pc)).closeGroup

theorem State.noteQtrap_ctl (s : State) (who n : Nat) (p : Path) (pc : W64) :
    { (s.noteQtrap who p pc).ctl n with qtrap := none } = { s.ctl n with qtrap := none } := by
  unfold State.noteQtrap
  split
  · rfl
  · split
    · by_cases hn : n = who
      · subst hn; rw [State.ctl_modCtl]
      · rw [State.ctl_modCtl_other _ _ hn]
    · rfl

theorem State.noteQtrap_world (s : State) (who : Nat) (p : Path) (pc : W64) : { s.noteQtrap who p pc with ctls := [] } = { s with ctls := [] } := by
  unfold State.noteQtrap
  split
  · rfl
  · split <;> rfl

theorem State.closeGroup_cur (s : State) : s.closeGroup.cur = none := by
  unfold State.closeGroup
  split
  · assumption
  · dsimp only
    split <;> rfl

/-- What a trap finds: the registers, but for what an open group gathered, and the control part, but for the issue noted. -/
structure TrapAt (s e : State) (is : Issue) : Prop where
  cur : e.cur = none
  world : { e with warps := [], ctls := [], cur := none } = { s with warps := [], ctls := [], cur := none }
  warp : (e.warp is.who).nox = (s.warp is.who).nox
  ctl : { e.ctl is.who with qtrap := none } = { s.ctl is.who with qtrap := none }
  alone : s.alone = true → e.warps = s.warps

theorem State.trapping_at {s : State} {is : Issue} (h : ∀ c, s.cur = some c → c.who = is.who) : TrapAt s (s.trapping is) is := by
  have hq : ∃ u : State, (((s.warp is.who).pathAt is.lane).elim s (fun p => s.noteQtrap is.who p is.pc)) = u ∧
      { u with ctls := [] } = { s with ctls := [] } ∧ { u.ctl is.who with qtrap := none } = { s.ctl is.who with qtrap := none } := by
    cases (s.warp is.who).pathAt is.lane with
    | none => exact ⟨s, rfl, rfl, rfl⟩
    | some p => exact ⟨_, rfl, s.noteQtrap_world _ _ _, s.noteQtrap_ctl _ _ _ _⟩
  obtain ⟨u, hu, hw, hc⟩ := hq
  have hcur : u.cur = s.cur := by have := congrArg State.cur hw; exact this
  have hwarps : u.warps = s.warps := by have := congrArg State.warps hw; exact this
  have hctls : u.closeGroup.ctls = u.ctls := by have := congrArg State.ctls u.closeGroup_world; exact this
  unfold State.trapping
  rw [hu]
  refine ⟨u.closeGroup_cur, ?_, ?_, ?_, fun ha => ?_⟩
  · exact (congrArg (fun x : State => { x with ctls := [] }) u.closeGroup_world).trans
      (congrArg (fun x : State => { x with warps := [], cur := none }) hw)
  · exact (u.closeGroup_warp is.who (fun c hcu => h c (hcur ▸ hcu))).trans (by rw [State.warp_congr hw]; rfl)
  · rw [← hc]
    unfold State.ctl
    rw [hctls]
  · have ha' : u.alone = true := by rw [State.alone, hcur]; exact ha
    rw [u.closeGroup_alone ha']
    exact hwarps

section
variable {c d : WarpCtl} (h : { c with qtrap := none } = { d with qtrap := none })
include h

theorem WarpCtl.noted_tvec : c.tvec = d.tvec := by have := congrArg WarpCtl.tvec h; exact this
theorem WarpCtl.noted_inTrap : c.inTrap = d.inTrap := by have := congrArg WarpCtl.inTrap h; exact this

end

theorem State.fatalTrap_plain (s : State) (who : Nat) (t : Trap) :
    (s.fatalTrap who t).plain = (s.setCtl who { s.ctl who with fatal := true, waits := [] }).plain := by
  simp only [State.fatalTrap, State.plain_record, State.plain_postErr]

/-- A word whose trap is taken at once. -/
theorem trapEnd_of {s u : State} {i : Instr} {is : Issue} {pre align : Issue → State → Option (Cause × Info)}
    {body : Issue → State → Act} (h : s.readyWith i pre align = some is) (he : Machine.exec i s = runWordWith i pre align body s)
    (hb : body is s = .jump u) (hc : u.cur = none) : ∃ t, Machine.exec i s = .next t ∧ WordFrame u t is.who ∧
      (t.warp is.who).nox = (u.warp is.who).nox := by
  have hc' : ∀ c, u.cur = some c → c.who = is.who := fun c hcu => by rw [hc] at hcu; cases hcu
  refine ⟨u.finishJump is, ?_, u.finishJump_frame is hc', u.finishJump_nox is hc'⟩
  rw [he, runWordWith_ready body h]
  simp [State.runBody, hb]

/-- What the trap of a TRAP says. -/
def swTrap (is : Issue) (code : BitVec 17) : Trap :=
  { cause := .swtrap, info := .same code.toNat, issue := is.mask, resume := afterWord is.pc, pc := is.pc, iword := is.iword, xword := is.xword }

theorem trapBody_now {s : State} {is : Issue} (code : BitVec 17) (h : s.entryWaits is.who = none) :
    trapBody code is s = .jump ((s.trapping is).takeTrap is.who is.lane (swTrap is code)) := by
  simp only [trapBody, State.trapAt, State.trapWaits, h, Option.map_none]
  rfl

/-- Settles O24. -/
theorem fatalAndStreamTraps : Obligations.FatalAndStreamTraps := by
  intro s is code h
  have a := State.trapping_at (is := is) (State.ready_issue h).2
  refine ⟨fun hs hf => ?_, fun hs => ?_⟩
  · have hw : s.entryWaits is.who = none := by
      have hc : (isStream is.who || (s.ctl is.who).tvec == 0 || (s.ctl is.who).inTrap) = true := by
        rcases hf with hf | hf <;> simp [hf]
      rw [State.entryWaits]
      exact if_pos hc
    have hb := trapBody_now code hw
    have hp := (s.trapping is).fatalTrap_plain is.who (swTrap is code)
    rw [State.takeTrap, if_neg (by simp [hs]), WarpCtl.noted_tvec a.ctl, WarpCtl.noted_inTrap a.ctl, if_pos hf] at hb
    obtain ⟨t, he, f, hn⟩ := trapEnd_of h rfl hb ((State.cur_of_plain hp).trans a.cur)
    have hc := State.ctl_of_plain hp is.who
    rw [State.ctl_setCtl] at hc
    have hfatal : (t.ctl is.who).fatal = true := by rw [WarpCtl.unissued_fatal f.ctl, hc]
    rw [State.warp_of_plain hp, State.warp_setCtl, a.warp] at hn
    refine ⟨t, he, hfatal, ?_, Warp.nox_s hn, Warp.nox_blocks hn, ?_⟩
    · rw [WarpCtl.unissued_waits f.ctl, hc]
    · simp [State.warpMay, hfatal]
  · have hw : s.entryWaits is.who = none := by
      rw [State.entryWaits]
      exact if_pos (by simp [hs])
    have hb := trapBody_now code hw
    have e := (s.trapping is).stopThread_ends is.who 4 is.pc 3 true (BitVec.ofNat 64 Cause.swtrap.code) is.pc
    rw [State.takeTrap, if_pos hs] at hb
    obtain ⟨t, he, f, hn⟩ := trapEnd_of h rfl hb (e.cur.trans a.cur)
    have hst : t.stream (is.who - streamBase) = ((s.trapping is).streamTrap is.who (swTrap is code)).stream (is.who - streamBase) := by
      rw [State.stream, f.streams]
      rfl
    have h4 : (t.stream (is.who - streamBase)).state = 4 := hst ▸ e.state
    have hp : (((s.trapping is).streamTrap is.who (swTrap is code)).warp is.who).paths = [] := congrArg Warp.paths e.warp
    exact ⟨t, he, h4, hst ▸ e.strpc, (Warp.nox_paths hn).trans hp, by simp [State.streamMay, h4]⟩

end Sys2Proof.Machine
end

section
/-! RTE (R285, R446, R211). -/

namespace Sys2Proof.Machine

/-! ### Releasing for every mask -/

theorem names_unique {x : ParkSite} {j k : Nat} (h : j ≠ k) (hj : x.names j = true) : x.names k = false := by
  cases x with
  | join a => simp only [ParkSite.names, beq_iff_eq] at hj; simp [ParkSite.names, hj, h]
  | waitk a => simp only [ParkSite.names, beq_iff_eq] at hj; simp [ParkSite.names, hj, h]
  | bar => simp [ParkSite.names] at hj

theorem Warp.parkedFor_get (w : Warp) (k L : Nat) :
    (w.parkedFor k).getLsbD L = w.parked.any (fun q => q.site.names k && q.mask.getLsbD L) := by
  rw [Warp.parkedFor, foldl_or_get]
  simp only [show (0 : LaneMask).getLsbD L = false from BitVec.getLsbD_zero, Bool.false_or, List.any_filter]

/-- A release for one mask leaves the lanes that wait for another. -/
theorem Warp.releaseK_parkedFor_other (w : Warp) {j k : Nat} (h : j ≠ k) : (w.releaseK j).parkedFor k = w.parkedFor k := by
  by_cases hc : w.kmask j &&& w.live = 0 ∨ mdiff (w.kmask j &&& w.live) (w.parkedFor j) ≠ 0
  · rw [Warp.releaseK_none hc]
  · simp only [not_or, not_not] at hc
    rw [Warp.releaseK_some hc.1 hc.2]
    refine BitVec.eq_of_getLsbD_eq fun L _ => ?_
    rw [Warp.parkedFor_get, Warp.parkedFor_get, Warp.parked_nopc (Warp.releaseList_nopc _ _), Warp.unpark]
    simp only [List.any_filter, List.any_map]
    refine congrArg (fun f => w.parked.any f) (funext fun q => ?_)
    simp only [Function.comp_apply]
    cases hk : q.site.names k with
    | true =>
      rw [if_neg (by simp [names_unique h.symm hk])]
      cases hq : q.mask.getLsbD L with
      | false => simp [hk]
      | true =>
        have : q.mask ≠ 0 := fun h0 => by rw [h0] at hq; simp at hq
        simpa [hk] using this
    | false =>
      split <;> simp [hk]

/-- The releases for the masks of a list. -/
def Warp.releaseKs (w : Warp) (ks : List Nat) : Warp := ks.foldl (fun w k => w.releaseK k) w

theorem Warp.releaseKs_none {w : Warp} {ks : List Nat}
    (h : ∀ k ∈ ks, w.kmask k &&& w.live = 0 ∨ mdiff (w.kmask k &&& w.live) (w.parkedFor k) ≠ 0) : w.releaseKs ks = w := by
  induction ks with
  | nil => rfl
  | cons k ks ih =>
    rw [Warp.releaseKs, List.foldl_cons, Warp.releaseK_none (h k List.mem_cons_self)]
    exact ih fun j hj => h j (List.mem_cons_of_mem _ hj)

/-- No member of a mask waits for it: a release leaves that so. -/
theorem Warp.releaseK_keeps_free {w : Warp} {k : Nat} (j : Nat) (h : w.parkedFor k &&& (w.kmask k &&& w.live) = 0) :
    (w.releaseK j).parkedFor k &&& (w.kmask k &&& w.live) = 0 := by
  by_cases hj : j = k
  · subst hj
    by_cases hc : w.kmask j &&& w.live = 0 ∨ mdiff (w.kmask j &&& w.live) (w.parkedFor j) ≠ 0
    · rw [Warp.releaseK_none hc, h]
    · simp only [not_or, not_not] at hc
      exact Warp.releaseK_parkedFor hc.1 hc.2
  · rw [Warp.releaseK_parkedFor_other w hj, h]

theorem Warp.releaseKs_free {w : Warp} {k : Nat} (ks : List Nat) (h : w.parkedFor k &&& (w.kmask k &&& w.live) = 0) :
    (w.releaseKs ks).parkedFor k &&& (w.kmask k &&& w.live) = 0 := by
  induction ks generalizing w with
  | nil => exact h
  | cons j ks ih =>
    have hm := Warp.still_members (w.releaseK_still j) k
    rw [Warp.releaseKs, List.foldl_cons, ← hm]
    exact ih (by rw [hm]; exact Warp.releaseK_keeps_free j h)

theorem Warp.releaseKs_met {w : Warp} {k : Nat} {ks : List Nat} (hk : k ∈ ks) (h0 : w.kmask k &&& w.live ≠ 0)
    (h : mdiff (w.kmask k &&& w.live) (w.parkedFor k) = 0) :
    (w.releaseKs ks).parkedFor k &&& (w.kmask k &&& w.live) = 0 := by
  induction ks generalizing w with
  | nil => cases hk
  | cons j ks ih =>
    have hm := Warp.still_members (w.releaseK_still j) k
    rw [Warp.releaseKs, List.foldl_cons, ← hm]
    by_cases hj : j = k
    · subst hj
      exact Warp.releaseKs_free ks (by rw [hm]; exact Warp.releaseK_parkedFor h0 h)
    · exact ih ((List.mem_cons.1 hk).resolve_left (Ne.symm hj)) (by rw [hm]; exact h0)
        (by rw [hm, Warp.releaseK_parkedFor_other w hj]; exact h)

theorem Warp.releaseAll_eq (w : Warp) : w.releaseAll = w.releaseKs (List.range 16) := rfl

/-! ### The end of a word that names no vector register -/

theorem State.finishJump_alone {s : State} {is : Issue} (ha : s.alone = true) (hx : xDeltas is.w (vuses is.i) is.mask = []) :
    (s.finishJump is).warp is.who = s.warp is.who := by
  have hg : s.cur.bind Cur.group = none := by simpa [State.alone] using ha
  have hc : s.countDeltas is = s.modWarp is.who (fun w => applyDeltas w []) := by
    unfold State.countDeltas
    rw [hx, hg]
  have ha' : ((s.countDeltas is).noteIssue is).alone = true := by
    rw [hc]
    exact ha
  rw [State.finishJump, State.closeGroup_alone _ ha']
  show ((s.countDeltas is).noteIssue is).warp is.who = _
  rw [hc]
  exact (State.warp_modWarp s is.who (fun w => applyDeltas w []) :)

/-! ### RTE -/

theorem rteBody_waits {is : Issue} {s : State} (hw : s.handlerSettled is.who = false) : rteBody is s = .hold s := by
  rw [rteBody]
  exact if_pos (by simp [hw])

theorem rteBody_fetches {is : Issue} {s u : State} (hw : s.handlerSettled is.who = true) (hf : s.readFrame is.who = (none, u)) :
    rteBody is s = .hold u := by
  simp only [rteBody, hw, hf, if_false, Bool.false_eq_true, Bool.not_true]

theorem rteBody_returns {is : Issue} {s u : State} {f : List Byte × List Byte} (hw : s.handlerSettled is.who = true)
    (hf : s.readFrame is.who = (some f, u)) : rteBody is s = .jump (u.returnTrap is.who is.pc f) := by
  simp only [rteBody, hw, hf, if_false, Bool.false_eq_true, Bool.not_true]

/-- The lanes of the interrupted path that are still live, and where they go on. -/
def resumeLanes (w : Warp) (c : WarpCtl) : LaneMask := mdiff c.trapMask w.exited
def resumeAt (ws : List Byte) (L : Nat) : W64 := BitVec.ofNat 64 (sub ws (32 * L) 8) &&& ~~~3#64

/-- Whether the lanes go on at more than one word, and whether the frame has a level active. -/
def resumeSplits (w : Warp) (c : WarpCtl) (ws : List Byte) : Prop :=
  ∃ L ∈ lanesOf (resumeLanes w c), ∃ M ∈ lanesOf (resumeLanes w c), resumeAt ws L ≠ resumeAt ws M

def frameLoops (w : Warp) (bs : List Byte) : Prop := (w.ofLayout bs).l0.count ≠ 0 ∨ (w.ofLayout bs).l1.count ≠ 0

/-- The warp as the frame gives it back. -/
def Warp.restored (w : Warp) (bs ws : List Byte) (c : WarpCtl) : Warp :=
  { w.ofLayout bs with
    paths := resumePaths bs (fun L => BitVec.ofNat 64 (sub ws (32 * L) 8)) (mdiff c.trapMask w.exited) w.exited c.frozen
    blocks := (List.range (handlerBlocks c)).foldl (fun m b =>
      mset m b { absentBlock (w.block b).group (w.block b).row with lost := c.trapLost.contains b }) w.blocks }

/-- The loop check of R446 step 5. -/
theorem Warp.resume_check (w : Warp) (bs ws : List Byte) (c : WarpCtl) :
    (resumeSplits w c ws ∧ frameLoops w bs → w.resume bs (fun L => BitVec.ofNat 64 (sub ws (32 * L) 8)) c = none) ∧
    (¬(resumeSplits w c ws ∧ frameLoops w bs) → w.resume bs (fun L => BitVec.ofNat 64 (sub ws (32 * L) 8)) c = some (w.restored bs ws c)) := by
  have hm : (1 < ((lanesOf (mdiff c.trapMask w.exited)).map (resumeAt ws)).eraseDups.length) ↔ resumeSplits w c ws := by
    by_cases hl : lanesOf (mdiff c.trapMask w.exited) = []
    · rw [resumeSplits, resumeLanes, hl]
      simp
    · rw [one_lt_eraseDups (by simpa using hl), resumeSplits, resumeLanes]
      simp only [List.mem_map]
      constructor
      · rintro ⟨_, ⟨L, hL, rfl⟩, _, ⟨M, hM, rfl⟩, hne⟩
        exact ⟨L, hL, M, hM, hne⟩
      · rintro ⟨L, hL, M, hM, hne⟩
        exact ⟨_, ⟨L, hL, rfl⟩, _, ⟨M, hM, rfl⟩, hne⟩
  have hc : (decide (1 < ((lanesOf (mdiff c.trapMask w.exited)).map (resumeAt ws)).eraseDups.length) &&
      ((w.ofLayout bs).l0.count != 0 || (w.ofLayout bs).l1.count != 0)) = true ↔ resumeSplits w c ws ∧ frameLoops w bs := by
    simp [hm, frameLoops]
  unfold Warp.resume
  exact ⟨fun h => if_pos (hc.2 h), fun h => if_neg (fun hk => h (hc.1 hk))⟩

/-- The path of a resume word among those that go on. -/
theorem resumePaths_lane (bs : List Byte) (words : Nat → W64) (mask exited : LaneMask) (frozen : List Path) {L : Nat} (hL : L ∈ lanesOf mask) :
    ∃ p ∈ resumePaths bs words mask exited frozen, p.pc = words L &&& ~~~3#64 ∧ p.handler = false ∧ p.inside = false ∧
      ∀ M, M < 128 → p.mask.getLsbD M = (mask.getLsbD M && words M &&& ~~~3#64 == words L &&& ~~~3#64) := by
  refine ⟨{ startAt (maskWhere mask (fun M => words M &&& ~~~3#64 == words L &&& ~~~3#64)) (words L &&& ~~~3#64) false 0 with strict := true },
    ?_, rfl, rfl, rfl, fun M hM => maskWhere_get _ _ _ hM⟩
  rw [resumePaths]
  refine List.mem_append_left _ (List.mem_map.2 ⟨words L &&& ~~~3#64, ?_, rfl⟩)
  rw [List.mem_eraseDups]
  exact List.mem_map.2 ⟨L, hL, rfl⟩

/-- The other paths go on as they were. -/
theorem resumePaths_other {bs : List Byte} (words : Nat → W64) {mask exited : LaneMask} (frozen : List Path) {p : Path}
    (hp : p ∈ layoutPaths bs) (h0 : mdiff p.mask (mask ||| exited) ≠ 0) :
    ∃ q ∈ resumePaths bs words mask exited frozen, q.mask = mdiff p.mask (mask ||| exited) ∧ q.pc = p.pc := by
  rw [resumePaths]
  cases hf : frozen.find? (fun f => f.mask == mdiff p.mask (mask ||| exited) && f.pc == p.pc) with
  | none =>
    refine ⟨{ p with mask := mdiff p.mask (mask ||| exited), handler := false }, List.mem_append_right _ ?_, rfl, rfl⟩
    rw [List.mem_filterMap]
    exact ⟨p, hp, by simpa [hf] using h0⟩
  | some f =>
    have h := List.find?_some hf
    simp only [Bool.and_eq_true, beq_iff_eq] at h
    refine ⟨f, List.mem_append_right _ ?_, h.1, h.2⟩
    rw [List.mem_filterMap]
    exact ⟨p, hp, by simpa [hf] using h0⟩

section
variable {s u : State} {is : Issue} {bs ws : List Byte} (h : s.ready .rte = some is) (ha : s.alone = true)
  (hw : s.handlerSettled is.who = true) (hf : s.readFrame is.who = (some (bs, ws), u))
include h hw hf

theorem rte_fatal (ht : (s.ctl is.who).inTrap = true) (hc : resumeSplits (u.warp is.who) (u.ctl is.who) ws ∧ frameLoops (u.warp is.who) bs) :
    ∃ t, Machine.exec .rte s = .next t ∧ (t.ctl is.who).fatal = true := by
  have hu : u.plain = s.plain := State.plain_snd hf (s.plain_readFrame is.who)
  have hv := ((u.warp is.who).resume_check bs ws (u.ctl is.who)).1 hc
  have hl : u.leaveTrap is.who is.pc (bs, ws) = u.fatalTrap is.who { cause := .loopdiv, pc := is.pc } := by
    unfold State.leaveTrap
    dsimp only
    rw [hv]
  have hp := u.fatalTrap_plain is.who { cause := .loopdiv, pc := is.pc }
  have hq := (u.leaveTrap is.who is.pc (bs, ws)).noteMoved_ctl is.who is.who
  have hwd := (u.leaveTrap is.who is.pc (bs, ws)).noteMoved_world is.who
  rw [hl, State.ctl_of_plain hp, State.ctl_setCtl] at hq
  rw [hl] at hwd
  generalize hy : (u.leaveTrap is.who is.pc (bs, ws)).noteMoved is.who = y
  rw [hl] at hy
  rw [hy] at hq hwd
  have hyt : (y.ctl is.who).inTrap = true := by
    have : (y.ctl is.who).inTrap = (u.ctl is.who).inTrap := by have := congrArg WarpCtl.inTrap hq; exact this
    rw [this, State.ctl_of_plain hu, ht]
  have hyf : (y.ctl is.who).fatal = true := by have := congrArg WarpCtl.fatal hq; exact this
  have hb : rteBody is s = .jump y := by
    rw [rteBody_returns hw hf]
    unfold State.returnTrap
    dsimp only
    rw [hl, hy, if_pos hyt]
  have hcur : y.cur = s.cur := by
    have h1 : y.cur = (u.fatalTrap is.who { cause := .loopdiv, pc := is.pc }).cur := by have := congrArg State.cur hwd; exact this
    have h2 := State.cur_of_plain hp
    rw [h1, h2]
    exact (State.cur_of_plain hu :)
  obtain ⟨t, he, f, -⟩ := jumpEnd_of h rfl hb hcur
  exact ⟨t, he, by rw [WarpCtl.unissued_fatal f.ctl, hyf]⟩

include ha

theorem rte_returns (hc : ¬(resumeSplits (u.warp is.who) (u.ctl is.who) ws ∧ frameLoops (u.warp is.who) bs)) :
    ∃ t, Machine.exec .rte s = .next t ∧ Returned u t is.who (bs, ws) ∧
      ((u.ctl is.who).trapMask &&& (u.warp is.who).exited = 0 → ((u.warp is.who).ofLayout bs).exited = (u.warp is.who).exited →
        t.warp is.who = ({ (u.warp is.who).restored bs ws (u.ctl is.who) with
          parked := ((u.warp is.who).ofLayout bs).parked.map (fun q => { q with gen := (u.ctl is.who).gen }) } : Warp).releaseAll) := by
  have hu : u.plain = s.plain := State.plain_snd hf (s.plain_readFrame is.who)
  have hv := ((u.warp is.who).resume_check bs ws (u.ctl is.who)).2 hc
  have hb := rteBody_returns hw hf
  have l := State.leaveTrap_some (pc := is.pc) (f := (bs, ws)) hv
  obtain ⟨r, rel⟩ := u.returnTrap_cases is.who is.pc (bs, ws) hv
  generalize hy : u.returnTrap is.who is.pc (bs, ws) = y at hb r rel
  have hcur : y.cur = s.cur := by
    have hr : y.cur = ((u.leaveTrap is.who is.pc (bs, ws)).noteMoved is.who).cur := by have := congrArg State.cur r.world; exact this
    rw [hr, l.cur]
    exact State.cur_of_plain hu
  have hc' : ∀ c, y.cur = some c → c.who = is.who := fun c hcy => (State.ready_issue h).2 c (hcur ▸ hcy)
  refine ⟨y.finishJump is, ?_, returned_of (pc := is.pc) hv ?_ ?_, fun h1 h2 => ?_⟩
  · rw [show Machine.exec .rte s = runWordWith .rte noCheck noCheck rteBody s from rfl, runWordWith_ready rteBody h]
    simp [State.runBody, hb]
  · rw [hy]
    exact y.finishJump_frame is hc'
  · rw [hy]
    exact y.finishJump_nox is hc'
  · have hya : y.alone = true := by rw [State.alone, hcur]; exact ha
    have hx : xDeltas is.w (vuses is.i) is.mask = [] := by
      rw [(State.ready_issue h).1]
      exact xDeltas_none _ _ _ fun _ => rfl
    rw [State.finishJump_alone hya hx, rel h1 h2, State.warp_modWarp, l.warp]
    rfl

end

/-- Settles O25. -/
theorem returnFromTrap : Obligations.ReturnFromTrap := by
  intro s is h ha
  have ht : (s.ctl is.who).inTrap = true := by
    obtain ⟨-, hl, -⟩ := State.readyWith_eq h
    rw [State.illegalHere, (State.ready_issue h).1] at hl
    simp only [Bool.or_eq_false_iff, Bool.and_eq_false_iff] at hl
    simpa using hl.1.1.2
  refine ⟨ht, fun hw => hold_of h rfl (rteBody_waits hw), fun u hw hf => hold_of h rfl (rteBody_fetches hw hf), fun bs ws u hw hf => ⟨
    fun hc => rte_fatal h hw hf ht hc, fun hc => ?_⟩⟩
  obtain ⟨t, he, r, hr⟩ := rte_returns h ha hw hf hc
  refine ⟨t, he, r.inTrap, r.cause, r.tvec, r.scalars, r.preds, r.k, r.own, r.others, fun h1 h2 k hk hm => ?_, fun h1 h2 hn => ?_⟩
  all_goals
    have hr := hr h1 h2
    generalize hv : ({ (u.warp is.who).restored bs ws (u.ctl is.who) with
          parked := ((u.warp is.who).ofLayout bs).parked.map (fun q => { q with gen := (u.ctl is.who).gen }) } : Warp) = v at hr
    have hpk : ∀ k, v.parkedFor k = ((u.warp is.who).ofLayout bs).parkedFor k := fun k => by
      refine BitVec.eq_of_getLsbD_eq fun L _ => ?_
      rw [Warp.parkedFor_get, Warp.parkedFor_get, ← hv]
      simp only [List.any_map]
      rfl
    have hmem : ∀ k, v.kmask k &&& v.live = ((u.warp is.who).ofLayout bs).kmask k &&& ((u.warp is.who).ofLayout bs).live := fun k => by
      rw [← hv]
      rfl
  · have := Warp.releaseKs_met (w := v) (ks := List.range 16) (List.mem_range.2 hk) (by rw [hmem]; exact hm.1)
      (by rw [hmem, hpk]; exact hm.2)
    rw [hmem] at this
    rw [hr]
    exact this
  · have hrel : v.releaseAll = v := Warp.releaseKs_none fun k hk => by
      rw [hmem, hpk]
      by_cases h0 : ((u.warp is.who).ofLayout bs).kmask k &&& ((u.warp is.who).ofLayout bs).live = 0
      · exact .inl h0
      · exact .inr fun hz => hn k (List.mem_range.1 hk) ⟨h0, hz⟩
    rw [hrel, ← hv] at hr
    rw [hr]
    exact ⟨rfl, rfl, rfl, rfl, rfl, fun L hL => resumePaths_lane _ _ _ _ _ hL, fun p hp h0 => resumePaths_other _ _ hp h0⟩

end Sys2Proof.Machine
end

section
/-! TRAP's entry (R441, R443): the statement speaks of every state, and so of one whose table of translation requests lists a
request under a number that is not its own. Such a request is never taken out of the table, and every access that it stands for walks
anew. Where the leaf it reads lies in the page that takes the frame, the frame's own bytes end the translation of the save area, and
the lanes' trap words are not written. -/

namespace Sys2Proof.Machine

/-! ### The state -/

/-- The leaf at which the save area is mapped: 1 GiB of device memory from 1 GiB on, writable and dirty. -/
def selfLeaf : W64 := 0x4000002F#64

/-- Warp slot 0 at a TRAP, with a handler. Its context has one region of one level at VA 0, whose table is the page 0x24 of the save
area itself, and the save area is at VA 0. The request for that page stands in the table under the number 5, not its own 7. -/
def selfMapped : State :=
  { clock := 10
    warps := [(0, { paths := [{ mask := 3, pc := 0x1004, inside := true }], exited := ~~~3#128 })]
    ctls := [(0, { tvec := 0x1000 })]
    ctxs := [(0, BitVec.ofNat 512 (2 ^ 512 - 2 ^ 384))]
    cur := some { who := 0, lane := 0 }
    regions := [(0, BitVec.ofNat 64 (2 ^ 63 + 4 * 2 ^ 60 + 31 * 2 ^ 54 + 0x40024000))]
    mem := { cells := [(0x40024000, 0x2F), (0x40024003, 0x40)], present := [(0x40024000 / 128, 0xF)] }
    clusters := [(0, { tlb := [⟨0, 0, 4, selfLeaf⟩] })]
    cores := [(0, { tlb := [⟨0, 0, 4, selfLeaf⟩] })]
    treqs := [(5, { id := 7, ctx := 0, va := 0, acc := .store, eng := true })] }

/-- TRAP 5 at its issue there. -/
def selfIssue : Issue :=
  { who := 0, lane := 0, i := .trap 5, w := selfMapped.warp 0, path := 3, mask := 3, pc := 0x1004 }

/-- The state at the entry, as the statement builds it. -/
def selfEntry : State :=
  (((selfMapped.warp selfIssue.who).pathAt selfIssue.lane).elim selfMapped
    (fun p => selfMapped.noteQtrap selfIssue.who p selfIssue.pc)).closeGroup.modCtl selfIssue.who (fun d => d.dropGroups selfIssue.path)

/-- The pages of the save area as they lie in memory. -/
def selfPage (k : Nat) : Nat := 0x40000000 + 4096 * k

/-! ### What the statement's hypotheses ask of it -/

theorem selfMapped_ready : selfMapped.ready (.trap 5) = some selfIssue := by decide +kernel

theorem selfMapped_enters : selfMapped.alone = true ∧ isStream selfIssue.who = false ∧ (selfMapped.ctl selfIssue.who).tvec ≠ 0 ∧
    (selfMapped.ctl selfIssue.who).inTrap = false := by decide +kernel

theorem selfMapped_waits : (selfMapped.entryWaits selfIssue.who).isNone = true := by decide +kernel

theorem selfEntry_ready : selfEntry.saveAllReady selfIssue.who .store (selfEntry.entryRanges selfIssue.who) = (true, selfEntry) := by
  decide +kernel

/-- The handler has no block to save. -/
theorem selfEntry_blocks : (List.range (min 2 (selfMapped.warp selfIssue.who).curb)).filter (fun b =>
    !((selfMapped.warp selfIssue.who).block b).absent && ((selfMapped.warp selfIssue.who).block b).dirty) = [] := by decide +kernel

/-- Every page of the save area answers at once, and leaves the machine as it was. -/
theorem selfEntry_answers : ∀ x ∈ [(0x24000, 0x1000), (0x25000, 0x400)] ++ (lanesOf selfIssue.path).map (fun L => (0x27000 + 32 * L, 32)),
    selfEntry.ask (selfMapped.warp selfIssue.who).ctx (selfEntry.tsave selfIssue.who + x.1) .store (coreOf selfIssue.who) selfIssue.who 0
      (selfEntry.tsave selfIssue.who + x.1) 0 x.2 = (.ok (selfPage (x.1 / 4096) + x.1 % 4096) selfLeaf, selfEntry) := by
  decide +kernel

/-! ### What TRAP leaves -/

/-- The first byte of lane 0's trap words, as memory holds it after TRAP. -/
def selfByte : Option (List Byte) :=
  match Machine.exec (.trap 5) selfMapped with
  | .next t => some (t.physRead (selfPage 0x27 + 32 * 0 + 0) 1)
  | _ => none

theorem selfByte_zero : selfByte = some [0] := by decide +kernel

/-- Refutes O23: in `selfMapped` the pages of the save area answer at once, but the frame overwrites the leaf that maps them, the
request for that leaf walks again, and lane 0's trap words, whose first byte is 8, are not written. -/
theorem not_trapEntry : ¬ Obligations.TrapEntry := by
  unfold Obligations.TrapEntry
  intro h
  obtain ⟨ha, hs, hv, ht⟩ := selfMapped_enters
  obtain ⟨t, he, hm, -⟩ := h selfMapped selfIssue 5 selfMapped_ready ha hs hv ht
    (Option.isNone_iff_eq_none.1 selfMapped_waits) selfEntry selfEntry_ready
  obtain ⟨-, hl⟩ := hm selfPage (by decide +kernel) (by decide) (by decide) (by decide) (by decide) (fun x hx => by
    rw [selfEntry_blocks]
    exact ⟨selfLeaf, selfEntry_answers x hx⟩)
  have h8 := hl 0 (by decide) 0 (by decide)
  have hb : selfByte = some (t.physRead (selfPage 0x27 + 32 * 0 + 0) 1) := by rw [selfByte, he]
  rw [selfByte_zero, h8] at hb
  exact absurd hb (by decide)

end Sys2Proof.Machine
end

section
/-! The cases that R189 fixes: invalid operations, division by zero, zero sums. -/

namespace Sys2Proof.Machine

/-! ### The sign of a code -/

/-- An IEEE format: a sign bit above a magnitude, an infinity and a canonical NaN (R177). -/
structure IsIeee (f : Fmt) (k : Nat) : Prop where
  width : f.width = k + 1
  signed : f.signed = true
  fixed : f.fixed = false
  ieee : f.ieee = true
  negZero : f.negZero = true
  inf : f.inf.isSome = true
  nan : f.nan.isSome = true
  mbits : f.mbits - 1 < k

theorem isIeee_ty (t : FTy) : ∃ k, IsIeee (fmtOfTy t) k := by
  cases t with
  | f32 => exact ⟨31, rfl, rfl, rfl, rfl, rfl, rfl, rfl, by decide⟩
  | f64 => exact ⟨63, rfl, rfl, rfl, rfl, rfl, rfl, rfl, by decide⟩
  | bf16 => exact ⟨15, rfl, rfl, rfl, rfl, rfl, rfl, rfl, by decide⟩
  | f16 => exact ⟨15, rfl, rfl, rfl, rfl, rfl, rfl, rfl, by decide⟩

/-- The value of a magnitude code with a sign, in an IEEE format. -/
def Fmt.magValue (f : Fmt) (neg : Bool) (a : Nat) : XVal :=
  if f.inf.elim false (fun i => decide (i < a)) then .nan
  else if f.inf == some a then .inf neg
  else if a / 2 ^ f.mbits = 0 then mkFin neg (a % 2 ^ f.mbits) f.qmin
  else mkFin neg (2 ^ f.mbits + a % 2 ^ f.mbits) (f.qmin + (a / 2 ^ f.mbits - 1 : Nat))

theorem mkFin_neg (n : Bool) (m : Nat) (e : Int) : mkFin (!n) m e = (mkFin n m e).neg := by
  unfold mkFin
  split <;> rfl

theorem Fmt.magValue_neg (f : Fmt) (n : Bool) (a : Nat) : f.magValue (!n) a = (f.magValue n a).neg := by
  unfold Fmt.magValue
  split
  · rfl
  · split
    · rfl
    · split <;> exact mkFin_neg _ _ _

theorem XVal.neg_eq_nan {x : XVal} : x.neg = .nan ↔ x = .nan := by
  cases x <;> simp [XVal.neg]

section
variable {f : Fmt} {k : Nat} (h : IsIeee f k)
include h

theorem IsIeee.decode_eq (code : Nat) : f.decode code =
    f.magValue (decide (2 ^ k ≤ code % 2 ^ (k + 1))) (if 2 ^ k ≤ code % 2 ^ (k + 1) then code % 2 ^ (k + 1) - 2 ^ k else code % 2 ^ (k + 1)) := by
  simp only [Fmt.decode, h.fixed, h.signed, h.ieee, h.width, Bool.true_and, decide_eq_true_eq, if_true, Bool.false_eq_true, if_false,
    Nat.add_sub_cancel]
  rfl

/-- The sign bit of a code and its other bits, once the sign is inverted. -/
theorem IsIeee.negCode_parts (code : Nat) :
    (2 ^ k ≤ code % 2 ^ (k + 1) → f.negCode code = code % 2 ^ (k + 1) - 2 ^ k) ∧
    (code % 2 ^ (k + 1) < 2 ^ k → f.negCode code = 2 ^ k + code % 2 ^ (k + 1)) := by
  have hn : f.negCode code = code % 2 ^ (k + 1) ^^^ 2 ^ k := by
    rw [Fmt.negCode, Fmt.signBit, h.signed, h.width, if_pos rfl, Nat.add_sub_cancel, Nat.xor_mod_two_pow,
      Nat.mod_eq_of_lt (a := 2 ^ k) (Nat.pow_lt_pow_right (by decide) (Nat.lt_succ_self k))]
  have hlt := Nat.mod_lt code (Nat.two_pow_pos (k + 1))
  rw [hn]
  generalize code % 2 ^ (k + 1) = c at hlt ⊢
  rw [Nat.pow_succ] at hlt
  refine ⟨fun hge => ?_, fun hl => xor_two_pow hl⟩
  have hv : c - 2 ^ k < 2 ^ k := by omega
  have hx := xor_two_pow hv
  calc c ^^^ 2 ^ k = (2 ^ k + (c - 2 ^ k)) ^^^ 2 ^ k := by rw [Nat.add_sub_cancel' hge]
    _ = ((c - 2 ^ k) ^^^ 2 ^ k) ^^^ 2 ^ k := by rw [hx]
    _ = c - 2 ^ k := by rw [Nat.xor_assoc, Nat.xor_self, Nat.xor_zero]

theorem IsIeee.decode_negCode (code : Nat) : f.decode (f.negCode code) = (f.decode code).neg := by
  have hlt := Nat.mod_lt code (Nat.two_pow_pos (k + 1))
  have h2 : 2 ^ (k + 1) = 2 ^ k + 2 ^ k := by rw [Nat.pow_succ, Nat.mul_two]
  have hneg := h.negCode_parts code
  rw [h.decode_eq (f.negCode code), h.decode_eq code]
  by_cases hge : 2 ^ k ≤ code % 2 ^ (k + 1)
  · have hl : code % 2 ^ (k + 1) - 2 ^ k < 2 ^ k := by omega
    rw [hneg.1 hge, Nat.mod_eq_of_lt (a := code % 2 ^ (k + 1) - 2 ^ k) (by omega), if_neg (by omega), if_pos hge, ← Fmt.magValue_neg,
      decide_eq_false (by omega), decide_eq_true hge]
    rfl
  · have hl : code % 2 ^ (k + 1) < 2 ^ k := by omega
    rw [hneg.2 hl, Nat.mod_eq_of_lt (a := 2 ^ k + code % 2 ^ (k + 1)) (by omega), if_pos (by omega), if_neg hge, ← Fmt.magValue_neg,
      Nat.add_sub_cancel_left, decide_eq_true (by omega), decide_eq_false (by omega)]
    rfl

theorem IsIeee.isSnan_negCode (code : Nat) : f.isSnan (f.negCode code) = f.isSnan code := by
  have hk : (f.negCode code).testBit (f.mbits - 1) = code.testBit (f.mbits - 1) := by
    have hm := h.mbits
    rw [Fmt.negCode, Fmt.signBit, h.signed, h.width, if_pos rfl, Nat.testBit_mod_two_pow, Nat.testBit_xor, Nat.add_sub_cancel,
      Nat.testBit_two_pow]
    have h1 : f.mbits - 1 < k + 1 := by omega
    have h2 : k ≠ f.mbits - 1 := by omega
    simp [h1, h2]
  have hn : f.isNan (f.negCode code) = f.isNan code := by
    rw [Bool.eq_iff_iff, Fmt.isNan, Fmt.isNan, beq_iff_eq, beq_iff_eq, h.decode_negCode, XVal.neg_eq_nan]
  rw [Fmt.isSnan, Fmt.isSnan, hk, hn]

/-! ### Rounding what is no finite nonzero value -/

theorem IsIeee.round_nan (rm : RM) (d : Draw) : f.round .nan rm d = (f.canonNan, 0) := if_pos h.nan

theorem IsIeee.round_inf (n : Bool) (rm : RM) (d : Draw) : ∃ v, f.infCode n = some v ∧ f.round (.inf n) rm d = (v, 0) := by
  obtain ⟨i, hi⟩ := Option.isSome_iff_exists.1 h.inf
  refine ⟨f.withSign n i, by rw [Fmt.infCode, hi]; rfl, ?_⟩
  simp [Fmt.round, Fmt.infCode, hi, h.signed]

theorem IsIeee.round_zero (n : Bool) (rm : RM) (d : Draw) : f.round (.zero n) rm d = (f.zeroCode n, 0) := by
  simp [Fmt.round, h.signed]

end

/-! ### The flag of signaling NaNs -/

theorem Fmt.isSnan_of_ne {f : Fmt} {a : Nat} {x : XVal} (h : f.decode a = x) (hx : x ≠ .nan) : f.isSnan a = false := by
  have : f.isNan a = false := by rw [Fmt.isNan, h]; simpa using hx
  simp [Fmt.isSnan, this]

theorem Fmt.decode_of_isSnan {f : Fmt} {a : Nat} (h : f.isSnan a = true) : f.decode a = .nan := by
  simp only [Fmt.isSnan, Fmt.isNan, Bool.and_eq_true, beq_iff_eq] at h
  exact h.1.2

theorem snanFlag_two {f : Fmt} {a b : Nat} (ha : f.isSnan a = false) (hb : f.isSnan b = false) : snanFlag f [a, b] = 0 := by
  simp [snanFlag, ha, hb, flagIf]

theorem snanFlag_one {f : Fmt} {a : Nat} (ha : f.isSnan a = false) : snanFlag f [a] = 0 := by simp [snanFlag, ha, flagIf]

theorem snanFlag_any {f : Fmt} {cs : List Nat} {a : Nat} (ha : f.isSnan a = true) (hm : a ∈ cs) : snanFlag f cs = fNV := by
  rw [snanFlag, flagIf, if_pos (List.any_eq_true.2 ⟨a, hm, ha⟩)]

theorem or_fNV (x y : W32) : (x ||| y ||| fNV) &&& fNV = fNV := by
  rw [BitVec.and_comm]
  refine BitVec.eq_of_getLsbD_eq fun i _ => ?_
  simp only [BitVec.getLsbD_and, BitVec.getLsbD_or]
  cases fNV.getLsbD i <;> simp

/-! ### The operations -/

theorem XVal.add_nan_left (y : XVal) (r : Bool) : XVal.nan.add y r = (.nan, false) := by cases y <;> rfl
theorem XVal.add_nan_right (x : XVal) (r : Bool) : x.add .nan r = (.nan, false) := by cases x <;> rfl
theorem XVal.mul_nan_left (y : XVal) : XVal.nan.mul y = (.nan, false) := by cases y <;> rfl
theorem XVal.mul_nan_right (x : XVal) : x.mul .nan = (.nan, false) := by cases x <;> rfl
theorem XVal.div_nan_left (y : XVal) : XVal.nan.div y = (.nan, 0) := by cases y <;> rfl
theorem XVal.div_nan_right (x : XVal) : x.div .nan = (.nan, 0) := by cases x <;> rfl

/-- Opposite values of one magnitude cancel. -/
theorem XVal.add_opposite (n r : Bool) (m : Nat) (e : Int) :
    (XVal.fin n m e false).add (.fin (!n) m e false) r = (.zero r, false) := by
  have : (XVal.fin n m e false).scaled (min e e) + (XVal.fin (!n) m e false).scaled (min e e) = 0 := by
    cases n <;> simp [XVal.scaled]
  simp only [XVal.add, this, ofScaled, if_true]

section
variable {f : Fmt} {k : Nat} (h : IsIeee f k) (rm : RM) (dr : Draw) {a b : Nat}
include h

theorem IsIeee.fadd_inf {n : Bool} (ha : f.decode a = .inf n) (hb : f.decode b = .inf (!n)) : f.fadd rm dr a b = (f.canonNan, fNV) := by
  have hs := snanFlag_two (Fmt.isSnan_of_ne ha nofun) (Fmt.isSnan_of_ne hb nofun)
  have hadd : (XVal.inf n).add (.inf (!n)) (rm == .rdn) = (.nan, true) := by simp [XVal.add]
  simp only [Fmt.fadd, ha, hb, hadd, h.round_nan, hs]
  rfl

/-- An operand that makes the exact value a NaN gives the canonical NaN, whatever raises NV. -/
theorem IsIeee.fadd_nan (hn : f.decode a = .nan ∨ f.decode b = .nan) :
    (f.fadd rm dr a b).1 = f.canonNan ∧ (f.fadd rm dr a b).2 = 0 ||| 0 ||| snanFlag f [a, b] := by
  have hadd : (f.decode a).add (f.decode b) (rm == .rdn) = (.nan, false) := by
    rcases hn with hn | hn <;> rw [hn]
    · exact XVal.add_nan_left _ _
    · exact XVal.add_nan_right _ _
  simp only [Fmt.fadd, hadd, h.round_nan]
  exact ⟨trivial, rfl⟩

theorem IsIeee.fmul_nan (hn : f.decode a = .nan ∨ f.decode b = .nan) :
    (f.fmul rm dr a b).1 = f.canonNan ∧ (f.fmul rm dr a b).2 = 0 ||| 0 ||| snanFlag f [a, b] := by
  have hmul : (f.decode a).mul (f.decode b) = (.nan, false) := by
    rcases hn with hn | hn <;> rw [hn]
    · exact XVal.mul_nan_left _
    · exact XVal.mul_nan_right _
  simp only [Fmt.fmul, hmul, h.round_nan]
  exact ⟨trivial, rfl⟩

theorem IsIeee.ffma_nan (c : Nat) (hn : f.decode a = .nan ∨ f.decode b = .nan) :
    (f.ffma rm dr a b c).1 = f.canonNan ∧ (f.ffma rm dr a b c).2 = 0 ||| 0 ||| snanFlag f [a, b, c] := by
  have hmul : (f.decode a).mul (f.decode b) = (.nan, false) := by
    rcases hn with hn | hn <;> rw [hn]
    · exact XVal.mul_nan_left _
    · exact XVal.mul_nan_right _
  simp only [Fmt.ffma, hmul, XVal.add_nan_left, h.round_nan]
  exact ⟨trivial, rfl⟩

theorem IsIeee.fdiv_nan (hn : f.decode a = .nan ∨ f.decode b = .nan) :
    (f.fdiv rm dr a b).1 = f.canonNan ∧ (f.fdiv rm dr a b).2 = 0 ||| 0 ||| snanFlag f [a, b] := by
  have hdiv : (f.decode a).div (f.decode b) = (.nan, 0) := by
    rcases hn with hn | hn <;> rw [hn]
    · exact XVal.div_nan_left _
    · exact XVal.div_nan_right _
  simp only [Fmt.fdiv, hdiv, h.round_nan]
  exact ⟨trivial, trivial⟩

theorem IsIeee.fsqrt_nan (hn : f.decode a = .nan) :
    (f.fsqrt rm dr a).1 = f.canonNan ∧ (f.fsqrt rm dr a).2 = 0 ||| 0 ||| snanFlag f [a] := by
  have hsq : XVal.nan.sqrt = (.nan, 0) := rfl
  simp only [Fmt.fsqrt, hn, hsq, h.round_nan]
  exact ⟨trivial, trivial⟩

/-- A signaling NaN among the two operands raises NV and gives the canonical NaN, in every operation that reads it. -/
theorem IsIeee.apply_snan (op : FOp) (c : Nat) (hs : f.isSnan a = true ∨ op ≠ .sqrt ∧ f.isSnan b = true) :
    (f.apply op rm dr [a, b, c]).1 = f.canonNan ∧ (f.apply op rm dr [a, b, c]).2 &&& fNV = fNV := by
  have raised : ∀ {r : Rounded} {cs : List Nat}, r.1 = f.canonNan ∧ r.2 = 0 ||| 0 ||| snanFlag f cs → snanFlag f cs = fNV →
      r.1 = f.canonNan ∧ r.2 &&& fNV = fNV := fun hr hf => ⟨hr.1, by rw [hr.2, hf]; exact or_fNV 0 0⟩
  have two : op ≠ .sqrt → f.isSnan a = true ∨ f.isSnan b = true := fun _ => hs.imp_right And.right
  have nan2 : ∀ {a b : Nat}, f.isSnan a = true ∨ f.isSnan b = true → (f.decode a = .nan ∨ f.decode b = .nan) := fun h2 =>
    h2.imp Fmt.decode_of_isSnan Fmt.decode_of_isSnan
  have flag2 : ∀ {a b : Nat} {cs : List Nat}, f.isSnan a = true ∨ f.isSnan b = true → a ∈ cs → b ∈ cs → snanFlag f cs = fNV :=
    fun h2 ma mb => h2.elim (fun ha => snanFlag_any ha ma) (fun hb => snanFlag_any hb mb)
  cases op with
  | add => exact raised (h.fadd_nan rm dr (nan2 (two nofun))) (flag2 (two nofun) (by simp) (by simp))
  | sub =>
    have h2 : f.isSnan a = true ∨ f.isSnan (f.negCode b) = true := (two nofun).imp_right fun hb => by rw [h.isSnan_negCode, hb]
    exact raised (h.fadd_nan rm dr (nan2 h2)) (flag2 h2 (by simp) (by simp))
  | mul => exact raised (h.fmul_nan rm dr (nan2 (two nofun))) (flag2 (two nofun) (by simp) (by simp))
  | fma => exact raised (h.ffma_nan rm dr c (nan2 (two nofun))) (flag2 (two nofun) (by simp) (by simp))
  | div => exact raised (h.fdiv_nan rm dr (nan2 (two nofun))) (flag2 (two nofun) (by simp) (by simp))
  | sqrt =>
    have ha : f.isSnan a = true := hs.resolve_right fun hb => hb.1 rfl
    exact raised (h.fsqrt_nan rm dr (Fmt.decode_of_isSnan ha)) (snanFlag_any ha (by simp))

end

/-- Settles O8. -/
theorem floatSpecialCases : Obligations.FloatSpecialCases := by
  intro t rm dr a b c n k
  obtain ⟨w, h⟩ := isIeee_ty t
  refine ⟨fun ha hb => h.fadd_inf rm dr ha hb, fun ha hb => h.fadd_inf rm dr ha (by rw [h.decode_negCode, hb]; rfl),
    fun ha hb => ?_, fun ha hb => ?_, fun ha hb => ?_, fun ha => ?_, fun op ha => h.apply_snan rm dr op c (.inl ha),
    fun op ho hb => h.apply_snan rm dr op c (.inr ⟨ho, hb⟩), fun m e z ha hb => ?_, fun m e ha hb => ?_, fun ha hb => ?_⟩
  · have hs := snanFlag_two (Fmt.isSnan_of_ne ha nofun) (Fmt.isSnan_of_ne hb nofun)
    have hs' := snanFlag_two (Fmt.isSnan_of_ne hb nofun) (Fmt.isSnan_of_ne ha nofun)
    simp only [Fmt.fmul, ha, hb, XVal.mul, h.round_nan, hs, hs']
    exact ⟨rfl, rfl⟩
  · have hs := snanFlag_two (Fmt.isSnan_of_ne ha nofun) (Fmt.isSnan_of_ne hb nofun)
    simp only [Fmt.fdiv, ha, hb, XVal.div, h.round_nan, hs]
    rfl
  · have hs := snanFlag_two (Fmt.isSnan_of_ne ha nofun) (Fmt.isSnan_of_ne hb nofun)
    simp only [Fmt.fdiv, ha, hb, XVal.div, h.round_nan, hs]
    rfl
  · have hq : (f : Fmt) → f = fmtOfTy t → f.isSnan a = false ∧ (f.decode a).sqrt = (.nan, fNV) := by
      rintro f rfl
      rcases ha with ⟨m, e, z, ha⟩ | ha
      · exact ⟨Fmt.isSnan_of_ne ha nofun, by rw [ha]; rfl⟩
      · exact ⟨Fmt.isSnan_of_ne ha nofun, by rw [ha]; rfl⟩
    obtain ⟨hs, hv⟩ := hq _ rfl
    simp only [Fmt.fsqrt, hv, h.round_nan, snanFlag_one hs]
    rfl
  · have hs := snanFlag_two (Fmt.isSnan_of_ne ha nofun) (Fmt.isSnan_of_ne hb nofun)
    obtain ⟨v, hv, hr⟩ := h.round_inf (n != k) rm dr
    have hd : (XVal.fin n m e z).div (.zero k) = (.inf (n != k), fDZ) := rfl
    simp only [Fmt.fdiv, ha, hb, hd, hr, hv, hs]
    rfl
  · have hs := snanFlag_two (Fmt.isSnan_of_ne ha nofun) (Fmt.isSnan_of_ne hb nofun)
    have hz := XVal.add_opposite n (rm == .rdn) m e
    simp only [Fmt.fadd, ha, hb, hz, h.round_zero, hs]
    rfl
  · have hs := snanFlag_two (Fmt.isSnan_of_ne ha nofun) (Fmt.isSnan_of_ne hb nofun)
    have hz : (XVal.zero n).add (.zero n) (rm == .rdn) = (.zero n, false) := by simp [XVal.add]
    simp only [Fmt.fadd, ha, hb, hz, h.round_zero, hs]
    rfl

end Sys2Proof.Machine
end

section
/-! Rounding the value of a code gives the code back (R185). -/

namespace Sys2Proof.Machine

/-- The sign of a code and its magnitude, in a format that is no fixed-point one. -/
def Fmt.negOf (f : Fmt) (c : Nat) : Bool := f.signed && decide (2 ^ (f.width - 1) ≤ c)
def Fmt.magOf (f : Fmt) (c : Nat) : Nat := if f.negOf c then c - 2 ^ (f.width - 1) else c

/-- The value of a magnitude that is finite. -/
def Fmt.finValue (f : Fmt) (neg : Bool) (a : Nat) : XVal :=
  if a / 2 ^ f.mbits = 0 then mkFin neg (a % 2 ^ f.mbits) f.qmin
  else mkFin neg (2 ^ f.mbits + a % 2 ^ f.mbits) (f.qmin + (a / 2 ^ f.mbits - 1 : Nat))

/-- A floating format in which a code that is no NaN is an infinity's or lies on the grid, and no zero with a sign has a code but
where the format has one. -/
structure Regular (f : Fmt) : Prop where
  fixed : f.fixed = false
  decode : ∀ c, c < 2 ^ f.width → f.isNan c = false →
    f.decode c = (if f.inf == some (f.magOf c) then .inf (f.negOf c) else f.finValue (f.negOf c) (f.magOf c)) ∧
    (f.inf ≠ some (f.magOf c) → f.magOf c ≤ f.top) ∧ (f.inf = some (f.magOf c) → f.magOf c ≠ 0) ∧
    (f.negOf c = true → f.magOf c = 0 → f.negZero = true)

/-! ### A finite magnitude -/

section
variable {f : Fmt} (hf : f.fixed = false) {a : Nat} (neg : Bool) (rm : RM) (d : Draw)
include hf

theorem Fmt.qmin_eq : f.qmin = f.emin - f.mbits := by rw [Fmt.qmin, hf]; rfl

/-- A value on the grid is met exactly: no bit lies below a step. -/
theorem Fmt.roundFin_exact {m : Nat} {e : Int} (hq : max (leadExp m e) f.emin - f.mbits = e)
    (ha : (e - f.qmin).toNat * 2 ^ f.mbits + m ≤ f.top) :
    f.roundFin neg m e false rm d = (f.withSign neg ((e - f.qmin).toNat * 2 ^ f.mbits + m), 0) := by
  have hg : ∀ odd, toGrid rm neg m e false e odd d = (m, false) := fun odd => by simp [toGrid]
  simp only [Fmt.roundFin, hf, Bool.false_eq_true, if_false, hq, hg]
  rw [if_neg (by omega)]
  simp [flagIf]

theorem Fmt.round_finValue (h0 : a ≠ 0) (ht : a ≤ f.top) (hs : (neg && !f.signed) = false) :
    f.round (f.finValue neg a) rm d = (f.withSign neg a, 0) := by
  have hqm := Fmt.qmin_eq hf
  have hd := Nat.div_add_mod a (2 ^ f.mbits)
  have hpos := Nat.two_pow_pos f.mbits
  have hlt := Nat.mod_lt a hpos
  unfold Fmt.finValue
  by_cases he : a / 2 ^ f.mbits = 0
  · rw [he, Nat.mul_zero, Nat.zero_add] at hd
    have hlog : Nat.log2 a < f.mbits := (Nat.log2_lt h0).2 (hd ▸ hlt)
    rw [if_pos he, hd, mkFin, if_neg h0]
    have hq : max (leadExp a f.qmin) f.emin - f.mbits = f.qmin := by
      rw [leadExp]
      omega
    have hr := Fmt.roundFin_exact hf neg rm d (m := a) hq (by rw [Int.sub_self]; simpa using ht)
    rw [Fmt.round, hs, if_neg Bool.false_ne_true, hr, Int.sub_self]
    simp
  · have h1 : 1 ≤ a / 2 ^ f.mbits := Nat.pos_of_ne_zero he
    have hm0 : 2 ^ f.mbits + a % 2 ^ f.mbits ≠ 0 := by omega
    have hlog : Nat.log2 (2 ^ f.mbits + a % 2 ^ f.mbits) = f.mbits :=
      (Nat.log2_eq_iff hm0).2 ⟨by omega, by rw [Nat.pow_succ]; omega⟩
    rw [if_neg he, mkFin, if_neg hm0]
    have hq : max (leadExp (2 ^ f.mbits + a % 2 ^ f.mbits) (f.qmin + (a / 2 ^ f.mbits - 1 : Nat))) f.emin - f.mbits =
        f.qmin + (a / 2 ^ f.mbits - 1 : Nat) := by
      rw [leadExp, hlog]
      omega
    have hcode : (f.qmin + (a / 2 ^ f.mbits - 1 : Nat) - f.qmin).toNat * 2 ^ f.mbits + (2 ^ f.mbits + a % 2 ^ f.mbits) = a := by
      rw [show (f.qmin + (a / 2 ^ f.mbits - 1 : Nat) - f.qmin).toNat = a / 2 ^ f.mbits - 1 by omega, ← Nat.add_assoc, ← Nat.succ_mul,
        Nat.succ_eq_add_one, Nat.sub_add_cancel h1, Nat.mul_comm]
      exact hd
    have hr := Fmt.roundFin_exact hf neg rm d hq (by rw [hcode]; exact ht)
    rw [hcode] at hr
    rw [Fmt.round, hs, if_neg Bool.false_ne_true, hr]

end

/-! ### A code and its sign -/

section
variable {f : Fmt} {c : Nat}

theorem Fmt.negOf_signed (h : f.negOf c = true) : f.signed = true ∧ 2 ^ (f.width - 1) ≤ c := by
  simpa [Fmt.negOf] using h

theorem Fmt.negOf_unsigned : (f.negOf c && !f.signed) = false := by
  cases h : f.negOf c with
  | false => rfl
  | true => simp [(Fmt.negOf_signed h).1]

theorem Fmt.withSign_magOf (hf : f.fixed = false) (h0 : f.magOf c ≠ 0) : f.withSign (f.negOf c) (f.magOf c) = c := by
  cases h : f.negOf c with
  | false => simp [Fmt.withSign, Fmt.magOf, h]
  | true =>
    obtain ⟨hs, hc⟩ := Fmt.negOf_signed h
    simp only [Fmt.magOf, h, if_true] at h0 ⊢
    simp only [Fmt.withSign, hs, hf, Fmt.signBit, if_true, Bool.not_true, Bool.or_self, Bool.false_eq_true, if_false, if_neg h0]
    exact Nat.sub_add_cancel hc

theorem Regular.round_decode (h : Regular f) (hc : c < 2 ^ f.width) (hn : f.isNan c = false) (rm : RM) (d : Draw) :
    f.round (f.decode c) rm d = (c, 0) := by
  obtain ⟨hd, htop, hinf, hz⟩ := h.decode c hc hn
  rw [hd]
  by_cases hi : f.inf = some (f.magOf c)
  · have hw := Fmt.withSign_magOf (c := c) h.fixed (hinf hi)
    rw [if_pos (by simp [hi]), Fmt.round, Fmt.negOf_unsigned, if_neg Bool.false_ne_true, Fmt.infCode, hi, Option.map_some, hw]
  · rw [if_neg (by simp [hi])]
    by_cases h0 : f.magOf c = 0
    · -- a zero: its code is 0, or the sign bit alone
      have hv : f.finValue (f.negOf c) (f.magOf c) = .zero (f.negOf c) := by
        simp [Fmt.finValue, h0, mkFin]
      rw [hv, Fmt.round]
      cases hs : f.negOf c with
      | false =>
        have : c = 0 := by simpa [Fmt.magOf, hs] using h0
        simp [Fmt.zeroCode, this]
      | true =>
        obtain ⟨h1, h2⟩ := Fmt.negOf_signed hs
        simp only [Fmt.magOf, hs, if_true] at h0
        simp only [Fmt.zeroCode, h1, hz hs (by simp [Fmt.magOf, hs, h0]), Fmt.signBit, Bool.and_self, if_true]
        rw [Nat.le_antisymm (Nat.sub_eq_zero_iff_le.1 h0) h2]
    · rw [Fmt.round_finValue h.fixed _ _ _ h0 (htop hi) Fmt.negOf_unsigned, Fmt.withSign_magOf h.fixed h0]

end

/-! ### The formats -/

/-- How a code is read once it is no NaN. -/
theorem Fmt.decode_of_number {f : Fmt} {c : Nat} (hf : f.fixed = false) (hc : c < 2 ^ f.width) (hn : f.isNan c = false) :
    f.decode c = (if f.inf == some (f.magOf c) then .inf (f.negOf c) else f.finValue (f.negOf c) (f.magOf c)) ∧
      (if f.ieee then f.inf.elim false (fun i => decide (i < f.magOf c))
        else if f.negZero then (f.nan.isSome && decide (f.top < f.magOf c) && f.inf != some (f.magOf c)) else f.nan == some c) = false := by
  have hd : f.decode c = (if (if f.ieee then f.inf.elim false (fun i => decide (i < f.magOf c))
      else if f.negZero then (f.nan.isSome && decide (f.top < f.magOf c) && f.inf != some (f.magOf c)) else f.nan == some c) then .nan
      else if f.inf == some (f.magOf c) then .inf (f.negOf c) else f.finValue (f.negOf c) (f.magOf c)) := by
    simp only [Fmt.decode, hf, Bool.false_eq_true, if_false, Nat.mod_eq_of_lt hc]
    rfl
  rw [Fmt.isNan, hd] at hn
  rw [hd]
  generalize (if f.ieee then f.inf.elim false (fun i => decide (i < f.magOf c))
      else if f.negZero then (f.nan.isSome && decide (f.top < f.magOf c) && f.inf != some (f.magOf c)) else f.nan == some c) = nan at hn ⊢
  cases nan with
  | true => simp at hn
  | false => exact ⟨rfl, rfl⟩

theorem Fmt.magOf_lt {f : Fmt} {c k : Nat} (hw : f.width = k + 1) (hs : f.signed = true) (hc : c < 2 ^ f.width) : f.magOf c < 2 ^ k := by
  rw [hw, Nat.pow_succ] at hc
  rw [Fmt.magOf, Fmt.negOf, hs, hw, Nat.add_sub_cancel]
  split
  · omega
  · next h => simpa using h

/-- The IEEE formats: what follows the largest magnitude is the infinity. -/
theorem regular_ieee {f : Fmt} (hf : f.fixed = false) (hi : f.ieee = true) (hz : f.negZero = true) {i : Nat} (hinf : f.inf = some i)
    (hi1 : f.top + 1 = i) : Regular f := by
  have ht : f.inf = some (f.top + 1) := by rw [hi1, hinf]
  refine ⟨hf, fun c hc hn => ?_⟩
  obtain ⟨hd, hk⟩ := Fmt.decode_of_number hf hc hn
  refine ⟨hd, fun h => ?_, fun h h0 => ?_, fun _ _ => hz⟩
  · rw [hi, if_pos rfl, ht] at hk
    rw [ht] at h
    have h1 : ¬f.top + 1 < f.magOf c := by simpa using hk
    have h2 : f.magOf c ≠ f.top + 1 := fun he => h (by rw [he])
    omega
  · rw [ht, h0] at h
    exact absurd (Option.some.inj h) (Nat.succ_ne_zero _)

/-- The other formats with two zeros: what lies above the largest magnitude is a NaN or the infinity, or there is nothing. -/
theorem regular_signed {f : Fmt} {k : Nat} (hf : f.fixed = false) (hi : f.ieee = false) (hz : f.negZero = true) (hw : f.width = k + 1)
    (hs : f.signed = true) (ht : f.nan.isSome = true ∨ f.top + 1 = 2 ^ k) (h0 : f.inf ≠ some 0) : Regular f := by
  refine ⟨hf, fun c hc hn => ?_⟩
  obtain ⟨hd, hk⟩ := Fmt.decode_of_number hf hc hn
  refine ⟨hd, fun h => ?_, fun h hm => h0 (hm ▸ h), fun _ _ => hz⟩
  rcases ht with ht | ht
  · rw [hi, hz, ht] at hk
    have hne : (f.inf != some (f.magOf c)) = true := by simpa using h
    rw [hne] at hk
    simpa using hk
  · have := Fmt.magOf_lt hw hs hc
    omega

/-- The binary8 formats: the code of the one NaN is the sign bit alone, or the greatest code. -/
theorem regular_single {f : Fmt} (hf : f.fixed = false) (hi : f.ieee = false) (hz : f.negZero = false)
    (h0 : f.inf ≠ some 0) (h : ∀ c, c < 2 ^ f.width → f.nan ≠ some c → (f.inf ≠ some (f.magOf c) → f.magOf c ≤ f.top) ∧
      (f.negOf c = true → f.magOf c ≠ 0)) : Regular f := by
  refine ⟨hf, fun c hc hn => ?_⟩
  obtain ⟨hd, hk⟩ := Fmt.decode_of_number hf hc hn
  rw [hi, hz, if_neg Bool.false_ne_true, if_neg Bool.false_ne_true] at hk
  obtain ⟨h1, h2⟩ := h c hc (by simpa using hk)
  exact ⟨hd, h1, fun hm he => h0 (he ▸ hm), fun hn h0 => absurd h0 (h2 hn)⟩

/-- The codes of a signed binary8 format. -/
theorem regular_b8 {f : Fmt} (hf : f.fixed = false) (hi : f.ieee = false) (hz : f.negZero = false) (hw : f.width = 8)
    (hs : f.signed = true) (hn : f.nan = some 0x80) (ht : f.inf = none ∧ f.top = 0x7F ∨ f.inf = some 0x7F ∧ f.top = 0x7E) : Regular f := by
  refine regular_single hf hi hz (by rcases ht with ⟨h, -⟩ | ⟨h, -⟩ <;> simp [h]) fun c hc hne => ?_
  have hm := Fmt.magOf_lt (k := 7) hw hs hc
  refine ⟨fun h => ?_, fun hneg h0 => ?_⟩
  · rcases ht with ⟨-, h2⟩ | ⟨h1, h2⟩
    · omega
    · have : f.magOf c ≠ 0x7F := fun he => h (by rw [h1, he])
      omega
  · have hge := (Fmt.negOf_signed hneg).2
    rw [Fmt.magOf, hneg, if_pos rfl] at h0
    rw [hw] at hge h0
    have hc80 : c = 0x80 := by omega
    exact hne (by rw [hn, hc80])

theorem regular_of {n : NFC} (h : n ≠ .mxi8) : Regular (fmtOf n) := by
  cases n with
  | f32 => exact regular_ieee (f := fmtF32) (i := 0x7F800000) rfl rfl rfl rfl (by norm_num [fmtF32])
  | f64 => exact regular_ieee (f := fmtF64) (i := 0x7FF0000000000000) rfl rfl rfl rfl (by norm_num [fmtF64])
  | bf16 => exact regular_ieee (f := fmtBf16) (i := 0x7F80) rfl rfl rfl rfl (by norm_num [fmtBf16])
  | f16 => exact regular_ieee (f := fmtF16) (i := 0x7C00) rfl rfl rfl rfl (by norm_num [fmtF16])
  | e4m3 => exact regular_signed (k := 7) rfl rfl rfl rfl rfl (.inl rfl) (by decide)
  | e5m2 => exact regular_signed (k := 7) rfl rfl rfl rfl rfl (.inl rfl) (by decide)
  | e3m2 => exact regular_signed (k := 5) rfl rfl rfl rfl rfl (.inr rfl) (by decide)
  | e2m3 => exact regular_signed (k := 5) rfl rfl rfl rfl rfl (.inr rfl) (by decide)
  | e2m1 => exact regular_signed (k := 3) rfl rfl rfl rfl rfl (.inr rfl) (by decide)
  | mxi8 => exact absurd rfl h
  | b8s p => exact regular_b8 rfl rfl rfl rfl rfl rfl (.inl ⟨rfl, rfl⟩)
  | b8x p => exact regular_b8 rfl rfl rfl rfl rfl rfl (.inr ⟨rfl, rfl⟩)
  | b8z p =>
    refine regular_single rfl rfl rfl nofun fun c hc hn => ⟨fun _ => ?_, fun h => ?_⟩
    · have hne : c ≠ 0xFF := fun h => hn (by rw [h]; rfl)
      have hlt : c < 256 := hc
      show c ≤ 0xFE
      omega
    · exact absurd (Fmt.negOf_signed h).1 (by simp [fmtOf, fmtB8z])

/-! ### MXINT8 -/

theorem fmtMxi8_round {c : Nat} (hc : c < 256) (h : c ≠ 0x80) (rm : RM) (d : Draw) : fmtMxi8.round (fmtMxi8.decode c) rm d = (c, 0) := by
  have hv : fmtMxi8.decode c = if c < 128 then mkFin false c (-6) else mkFin true (256 - c) (-6) := by
    have hi : (BitVec.ofNat 8 c).toInt = if c < 128 then (c : Int) else (c : Int) - 256 := by
      rw [BitVec.toInt_eq_toNat_cond, BitVec.toNat_ofNat, Nat.mod_eq_of_lt hc]
      split <;> split <;> omega
    have hd : fmtMxi8.decode c = mkFin (decide ((BitVec.ofNat 8 c).toInt < 0)) (BitVec.ofNat 8 c).toInt.natAbs (-6) := by
      show (let q := (BitVec.ofNat 8 (c % 256)).toInt; mkFin (decide (q < 0)) q.natAbs (-6)) = _
      rw [Nat.mod_eq_of_lt hc]
    rw [hd, hi]
    split
    · next hlt =>
      rw [decide_eq_false (by omega)]
      rfl
    · next hge =>
      rw [decide_eq_true (by omega), show ((c : Int) - 256).natAbs = 256 - c by omega]
  have hr : ∀ neg m, m ≤ 127 → fmtMxi8.roundFin neg m (-6) false rm d = (fmtMxi8.withSign neg m, 0) := fun neg m hm => by
    have hg : ∀ odd, toGrid rm neg m (-6) false (-6) odd d = (m, false) := fun odd => by simp [toGrid]
    have hq : fmtMxi8.qmin = -6 := rfl
    have hf : fmtMxi8.fixed = true := rfl
    simp only [Fmt.roundFin, hf, if_true, hq, hg, Nat.zero_add]
    rw [if_neg (show ¬fmtMxi8.top < m from Nat.not_lt.2 hm)]
    simp [flagIf]
  rw [hv]
  by_cases hlt : c < 128
  · rw [if_pos hlt, mkFin]
    by_cases h0 : c = 0
    · rw [if_pos h0, h0]
      rfl
    · rw [if_neg h0]
      exact hr false c (by omega)
  · rw [if_neg hlt, mkFin, if_neg (by omega)]
    refine (hr true (256 - c) (by omega)).trans ?_
    have : fmtMxi8.withSign true (256 - c) = (256 - (256 - c)) % 256 := rfl
    rw [this, show (256 - (256 - c)) % 256 = c by omega]

/-- Settles O9. -/
theorem roundingKeepsCodes : Obligations.RoundingKeepsCodes := by
  intro n rm dr c f hc hn h
  by_cases hm : n = .mxi8
  · subst hm
    exact fmtMxi8_round hc (fun h0 => h ⟨rfl, h0⟩) rm dr
  · exact (regular_of hm).round_decode hc hn rm dr

end Sys2Proof.Machine
end

section
/-! Canonical memories: what the operations on the state, and the words that act at once, keep of the form. -/

namespace Sys2Proof
open Machine

/-- The states that the body of a word leaves are in canonical form. -/
def Machine.Act.Wf : Act → Prop
  | .next s | .jump s | .hold s | .park s => MemWf s
  | .trap _ _ => True
  | .trapIn s _ _ => MemWf s


theorem MemWf.setWarp {s : State} (h : MemWf s) (who : Nat) (w : Warp) : MemWf (s.setWarp who w) := h.congr rfl rfl

theorem MemWf.setCtl {s : State} (h : MemWf s) (who : Nat) (c : WarpCtl) : MemWf (s.setCtl who c) := h.congr rfl rfl

theorem MemWf.setCore {s : State} (h : MemWf s) (k : Nat) (c : Core) : MemWf (s.setCore k c) := h.congr rfl rfl

theorem MemWf.setCluster {s : State} (h : MemWf s) (c : Nat) (x : Cluster) : MemWf (s.setCluster c x) := h.congr rfl rfl

theorem MemWf.setStream {s : State} (h : MemWf s) (j : Nat) (x : Stream) : MemWf (s.setStream j x) := h.congr rfl rfl

theorem MemWf.setGrid {s : State} (h : MemWf s) (g : Grid) : MemWf (s.setGrid g) := h.congr rfl rfl

theorem MemWf.setMop {s : State} (h : MemWf s) (o : MemOp) : MemWf (s.setMop o) := h.congr rfl rfl

theorem MemWf.setEop {s : State} (h : MemWf s) (o : EngOp) : MemWf (s.setEop o) := h.congr rfl rfl

theorem MemWf.setTreq {s : State} (h : MemWf s) (t : TReq) : MemWf (s.setTreq t) := h.congr rfl rfl

theorem MemWf.modCtl {s : State} (h : MemWf s) (who : Nat) (f : WarpCtl → WarpCtl) :
    MemWf (s.modCtl who f) := h.congr rfl rfl

theorem MemWf.modWarp {s : State} (h : MemWf s) (who : Nat) (f : Warp → Warp) : MemWf (s.modWarp who f) := h.congr rfl rfl

theorem MemWf.modCore {s : State} (h : MemWf s) (k : Nat) (f : Core → Core) : MemWf (s.modCore k f) := h.congr rfl rfl

theorem MemWf.modCluster {s : State} (h : MemWf s) (c : Nat) (f : Cluster → Cluster) :
    MemWf (s.modCluster c f) := h.congr rfl rfl

theorem MemWf.modStream {s : State} (h : MemWf s) (j : Nat) (f : Stream → Stream) :
    MemWf (s.modStream j f) := h.congr rfl rfl

theorem MemWf.newId {s : State} (h : MemWf s) : MemWf s.newId.2 := by
  unfold State.newId
  grind [MemWf]

theorem MemWf.freeWord {s : State} (h : MemWf s) : MemWf s.freeWord.2 := by
  unfold State.freeWord
  grind [MemWf]

theorem MemWf.emit {s : State} (h : MemWf s) (o : Out) : MemWf (s.emit o) := h.congr rfl rfl

theorem MemWf.setFrame {s : State} (h : MemWf s) (n : Nat) (f : Frame) : MemWf (s.setFrame n f) := h.congr rfl rfl

theorem MemWf.correct {s : State} (h : MemWf s) (c : Nat) : MemWf (s.correct c) := h.congr rfl rfl

theorem MemWf.poisonSector {s : State} (h : MemWf s) (sec : Nat) : MemWf (s.poisonSector sec) := h.congr rfl rfl

theorem MemWf.linkError {s : State} (h : MemWf s) (pa : Nat) (n : Nat) (addr : W64) (r : Requester) :
    MemWf (s.linkError pa n addr r) := by
  unfold State.linkError
  grind [MemWf.postErr, MemWf.pick]

theorem MemWf.linkLost {s : State} (h : MemWf s) (who : Nat) (tag : Nat) (pa : Nat) (n : Nat) (addr : Nat) (r : Requester) :
    MemWf (s.linkLost who tag pa n addr r) := by
  unfold State.linkLost
  grind [MemWf.linkError, MemWf]

theorem MemWf.noteNoPort {s : State} (h : MemWf s) (who : Nat) (tag : Nat) (addr : Nat) :
    MemWf (s.noteNoPort who tag addr) := by
  unfold State.noteNoPort
  grind [MemWf]

theorem MemWf.dropLost {s : State} (h : MemWf s) (who : Nat) (tag : Nat) : MemWf (s.dropLost who tag) := h.congr rfl rfl

theorem MemWf.sideWrite {s : State} (h : MemWf s) (line : Nat) (v : W64) : MemWf (s.sideWrite line v) := h.congr rfl rfl

theorem MemWf.sideMark {s : State} (h : MemWf s) (line : Nat) (bad : Bool) :
    MemWf (s.sideMark line bad) := h.congr rfl rfl

theorem MemWf.logViol {s : State} (h : MemWf s) (who : Nat) (spc : Nat) (c : VClass) (acc : Acc) (lane : Nat) (eng : Bool) (addr : W64) (pc : W64) :
    MemWf (s.logViol who spc c acc lane eng addr pc) := by
  unfold State.logViol
  grind [MemWf.setWarp, MemWf.record]

theorem MemWf.noteBad {s : State} (h : MemWf s) (pa : Nat) (n : Nat) (r : Requester) : MemWf (s.noteBad pa n r) := by
  unfold State.noteBad
  grind [MemWf.touch]

theorem MemWf.noteDescr {s : State} (h : MemWf s) (cl : Nat) (ctx : Nat) : MemWf (s.noteDescr cl ctx) := by
  unfold State.noteDescr
  grind [MemWf.noteBad]

theorem MemWf.noteRegion {s : State} (h : MemWf s) (ctx : Nat) (n : Nat) (r : Requester) :
    MemWf (s.noteRegion ctx n r) := by
  unfold State.noteRegion
  grind [MemWf.touch, MemWf]

theorem MemWf.noteVa {s : State} (h : MemWf s) (ctx : Nat) (va : Nat) (r : Requester) : MemWf (s.noteVa ctx va r) := by
  unfold State.noteVa
  grind [MemWf.noteRegion]

theorem MemWf.insertTlb {s : State} (h : MemWf s) (l : List TlbEntry) (cap : Nat) (e : TlbEntry) :
    MemWf (s.insertTlb l cap e).2 := by
  unfold State.insertTlb
  grind [MemWf.pick]

theorem MemWf.keepLeaf {s : State} (h : MemWf s) (cl : Nat) (core : Option Nat) (e : TlbEntry) :
    MemWf (s.keepLeaf cl core e) := by
  unfold State.keepLeaf
  grind [MemWf.insertTlb, MemWf.modCluster, MemWf.modCore]

theorem MemWf.keepWalk {s : State} (h : MemWf s) (cl : Nat) (w : WalkEntry) : MemWf (s.keepWalk cl w) := by
  unfold State.keepWalk
  grind [MemWf.modCluster, MemWf.pick]

theorem MemWf.walkReads {s : State} (h : MemWf s) (cl ctx : Nat) (cached : Bool) (seen : List WalkEntry) (last : Nat) (r : Requester) :
    MemWf (s.walkReads cl ctx cached seen last r) := by
  unfold State.walkReads
  refine MemWf.foldl (fun t pa ht => ?_) _ h
  split
  · exact ht
  · exact ht.touch _ _ _

theorem MemWf.keepWalks {s : State} (h : MemWf s) (cl : Nat) (l : List WalkEntry) :
    MemWf (l.foldl (fun u w => u.keepWalk cl w) s) :=
  MemWf.foldl (fun _ w ht => ht.keepWalk cl w) l h

theorem MemWf.walkPage {s : State} (h : MemWf s) (cl : Nat) (core : Option Nat) (ctx va : Nat) (acc : Acc) (root : Bool) (q : Requester) :
    MemWf (s.walkPage cl core ctx va acc root q).2 := by
  have h1 := h.noteVa ctx va q
  unfold State.walkPage
  dsimp only
  split
  · exact h1
  · split
    · exact h1.keepLeaf _ _ _
    · split
      · refine MemWf.keepWalks (MemWf.keepLeaf ?_ _ _ _) _ _
        have h2 := fun cl ctx cached seen last r => h1.walkReads cl ctx cached seen last r
        grind [MemWf.physWrite]
      · exact h1.walkReads _ _ _ _ _ _

theorem MemWf.raiseFault {s : State} (h : MemWf s) (t : TReq) (cause : Nat) (level : Nat) (ptea : Nat) (pte : W64) :
    MemWf (s.raiseFault t cause level ptea pte) := by
  unfold State.raiseFault
  grind [MemWf.setTreq, MemWf.setCluster]

theorem MemWf.walkReq {s : State} (h : MemWf s) (t : TReq) (root : Bool) : MemWf (s.walkReq t root) := by
  unfold State.walkReq
  grind [MemWf.walkPage, MemWf.setTreq, MemWf.raiseFault]

theorem MemWf.newTreq {s : State} (h : MemWf s) (ctx : Nat) (va : Nat) (acc : Acc) (core : Nat) (who : Nat) (eng : Bool) (log : Nat) (st : TrState) :
    MemWf (s.newTreq ctx va acc core who eng log st).2 := by
  unfold State.newTreq
  grind [MemWf.newId, MemWf.setTreq]

theorem MemWf.locSideMark {s : State} (h : MemWf s) (l : Loc) (bad : Bool) : MemWf (s.locSideMark l bad) := by
  unfold State.locSideMark
  grind [MemWf.sideMark, MemWf.modWg]

theorem MemWf.snd {α : Type} {x : α × State} {a : α} {t : State} (e : x = (a, t)) (h : MemWf x.2) : MemWf t := by
  rw [e] at h
  exact h

theorem MemWf.dropTreq {s : State} (h : MemWf s) (id : Nat) : MemWf { s with treqs := mdel s.treqs id } := h.congr rfl rfl

theorem MemWf.ask {s : State} (h : MemWf s) (ctx va : Nat) (acc : Acc) (core who tag formed off n : Nat) :
    MemWf (s.ask ctx va acc core who tag formed off n).2 := by
  have h1 := h.noteVa ctx va ⟨some who, tag != twaitTag && tag != fetchTag, ctx, 0⟩
  have hw := fun cl core root => h1.walkPage cl core ctx va acc root ⟨some who, tag != twaitTag && tag != fetchTag, ctx, 0⟩
  unfold State.ask
  dsimp only
  split
  · exact h1
  · split
    · exact h1
    · split
      · split
        · next heq =>
          have ht := MemWf.snd heq (hw ..)
          grind [MemWf.noteNoPort, MemWf.linkLost]
        · next heq => exact MemWf.snd heq (hw ..)
        · next heq => exact (MemWf.newId (MemWf.snd heq (hw ..))).raiseFault _ _ _ _ _
      · split
        · exact h1
        · exact h1
        · exact h1
        · grind [MemWf.noteNoPort, MemWf.linkLost]
        -- the request waits, or has not been looked up
        all_goals
          split
          · next heq =>
            have ht := MemWf.dropTreq (MemWf.snd heq (hw ..))
            grind [MemWf.noteNoPort, MemWf.linkLost]
          · next heq => exact MemWf.snd heq (hw ..)
          · next heq => exact (MemWf.snd heq (hw ..)).raiseFault _ _ _ _ _

theorem MemWf.dropAsks {s : State} (h : MemWf s) (who : Nat) (tag : Nat) : MemWf (s.dropAsks who tag) := h.congr rfl rfl

theorem MemWf.askParts {s : State} (h : MemWf s) (ctx va : Nat) (acc : Acc) (core who tag : Nat) (ps : List (Nat × Nat)) :
    MemWf (s.askParts ctx va acc core who tag ps).2 := by
  induction ps generalizing s with
  | nil => exact h
  | cons p ps ih =>
    unfold State.askParts
    grind [MemWf.ask]

theorem MemWf.askSpan {s : State} (h : MemWf s) (ctx : Nat) (va : Nat) (n : Nat) (acc : Acc) (core : Nat) (who : Nat) (tag : Nat) :
    MemWf (s.askSpan ctx va n acc core who tag).2 := by
  unfold State.askSpan
  grind [MemWf.askParts]

theorem MemWf.openParts {s : State} (h : MemWf s) (parts : List (Nat × Nat × Nat)) : MemWf (s.openParts parts).2 := by
  unfold State.openParts
  grind [MemWf]

theorem MemWf.l1Forget {s : State} (h : MemWf s) (core : Nat) (parts : List (Nat × Nat × Nat)) :
    MemWf (s.l1Forget core parts) := h.congr rfl rfl

theorem MemWf.incFlag {s : State} (h : MemWf s) (who : Nat) (f : Option Nat) : MemWf (s.incFlag who f) := by
  unfold State.incFlag
  grind [MemWf.modWarp]

theorem MemWf.decFlag {s : State} (h : MemWf s) (who : Nat) (f : Option Nat) : MemWf (s.decFlag who f) := by
  unfold State.decFlag
  grind [MemWf.modWarp]

theorem MemWf.locAt {s : State} (h : MemWf s) (wg : Nat) (ctx : Nat) (sp : Bool) (addr : Nat) (acc : Acc) (core : Nat) (who : Nat) (tag : Nat) :
    MemWf (s.locAt wg ctx sp addr acc core who tag).2 := by
  unfold State.locAt
  grind [MemWf.ask]

theorem MemWf.giveBlocks {s : State} (h : MemWf s) (who : Nat) (bs : List Nat) (mk : Nat → Nat → Block) :
    MemWf (s.giveBlocks who bs mk) := by
  unfold State.giveBlocks
  refine MemWf.foldl (fun t b ht => ?_) _ h
  dsimp only
  split
  · exact ht.modWarp _ _
  · exact ht

theorem MemWf.giveReserve {s : State} (h : MemWf s) (who : Nat) (bs : List Nat) : MemWf (s.giveReserve who bs) := by
  unfold State.giveReserve
  refine MemWf.foldl (fun t b ht => ?_) _ h
  dsimp only
  split
  · exact ht.modWarp _ _
  · exact ht

theorem MemWf.settleReserve {s : State} (h : MemWf s) (core : Nat) : MemWf (s.settleReserve core) := by
  unfold State.settleReserve
  grind [MemWf.modCore]

theorem MemWf.postRecord {s : State} (h : MemWf s) (j : Nat) (kind : Nat) (irq : Bool) (pay0 : W64) (pc : W64) :
    MemWf (s.postRecord j kind irq pay0 pc) := by
  unfold State.postRecord
  grind [MemWf.setStream, MemWf.putRecord]

theorem MemWf.stopThread {s : State} (h : MemWf s) (who : Nat) : MemWf (s.stopThread who) := h.congr rfl rfl

theorem MemWf.fatalTrap {s : State} (h : MemWf s) (who : Nat) (t : Trap) : MemWf (s.fatalTrap who t) := by
  unfold State.fatalTrap
  grind [MemWf.setCtl, MemWf.postErr, MemWf.record]

theorem MemWf.firmwareTraps {s : State} (h : MemWf s) (cl : Nat) : ∀ t, s.firmwareTraps cl = some t → MemWf t := by
  intro t ht
  obtain ⟨c, -, rfl⟩ := Option.map_eq_some_iff.1 ht
  exact (h.congr rfl rfl : MemWf { s with fwTraps := mdel s.fwTraps cl }).postErr _ _ _ _ _ _ _

theorem MemWf.saveWrite {s : State} (h : MemWf s) (who : Nat) (va : Nat) (bs : List Byte) :
    MemWf (s.saveWrite who va bs) := by
  unfold State.saveWrite
  grind [MemWf.askSpan, MemWf.l1Forget, MemWf.writeParts, MemWf.logViol]

theorem MemWf.saveReady {s : State} (h : MemWf s) (who : Nat) (va : Nat) (n : Nat) (acc : Acc) :
    MemWf (s.saveReady who va n acc).2 := by
  unfold State.saveReady
  grind [MemWf.askSpan]

theorem MemWf.saveAllReady {s : State} (h : MemWf s) (who : Nat) (acc : Acc) (l : List (Nat × Nat)) :
    MemWf (s.saveAllReady who acc l).2 := by
  induction l generalizing s with
  | nil => exact h
  | cons p l ih =>
    unfold State.saveAllReady
    grind [MemWf.saveReady]

theorem MemWf.imageParts {s : State} (h : MemWf s) (ctx : Nat) (va : Nat) (map_ : Nat) (core : Nat) (who : Nat) (tag : Nat) (acc : Acc) :
    MemWf (s.imageParts ctx va map_ core who tag acc).2 := by
  unfold State.imageParts
  grind [MemWf.askSpan, MemWf.touchParts]

theorem MemWf.loseBlock {s : State} (h : MemWf s) (who : Nat) (blk : Nat) (va : Nat) (ctx : Nat) :
    MemWf (s.loseBlock who blk va ctx) := by
  unfold State.loseBlock
  grind [MemWf.modCtl, MemWf.postErr]

theorem MemWf.saveBlock {s : State} (h : MemWf s) (who : Nat) (base : Nat) (blk : Nat) (b : Block) :
    MemWf (s.saveBlock who base blk b) := by
  unfold State.saveBlock
  grind [MemWf.imageParts, MemWf.l1Forget, MemWf.writeParts, MemWf.loseBlock]

theorem MemWf.entryWaits {s : State} (h : MemWf s) (who : Nat) : ∀ t, s.entryWaits who = some t → MemWf t := by
  intro t ht
  have hs := h.saveAllReady who .store (s.entryRanges who)
  refine State.entryWaits.fun_cases_unfolding s who (fun r => r = some t → MemWf t) ?_ ?_ ?_ ht
  · intro _ h; cases h
  · intro _ _ _ h; cases h
  · intro _ u hu hut
    cases hut
    exact MemWf.snd hu hs

theorem MemWf.trapWaits {s : State} (h : MemWf s) (who lane : Nat) : ∀ t, s.trapWaits who lane = some t → MemWf t := by
  intro t ht
  obtain ⟨u, hu, rfl⟩ := Option.map_eq_some_iff.1 ht
  exact (h.entryWaits who u hu).modCtl _ _

theorem MemWf.whenEntry {s : State} (h : MemWf s) (who : Nat) {f : State → State} (hf : MemWf s → MemWf (f s)) :
    MemWf (s.whenEntry who f) := by
  unfold State.whenEntry
  cases he : s.entryWaits who with
  | none => exact hf h
  | some t => exact h.entryWaits who t he

theorem MemWf.holdGroup {s : State} (h : MemWf s) (who : Nat) (lane : Nat) (g : Group) :
    MemWf (s.holdGroup who lane g) := h.congr rfl rfl

theorem MemWf.saveBlocks {s : State} (h : MemWf s) (who base : Nat) (f : Nat → Block) (l : List Nat) :
    MemWf (l.foldl (fun u b => u.saveBlock who base b (f b)) s) := MemWf.foldl (fun _ b ht => ht.saveBlock who base b (f b)) l h

theorem MemWf.saveLanes {s : State} (h : MemWf s) (who base : Nat) (t : Trap) (l : List Nat) :
    MemWf (l.foldl (fun u L => u.saveWrite who (base + 0x27000 + 32 * L) (trapWords t L)) s) := MemWf.foldl (fun _ _ ht => ht.saveWrite ..) l h

theorem MemWf.enterTrap {s : State} (h : MemWf s) (who lane : Nat) (t : Trap) : MemWf (s.enterTrap who lane t) := by
  have h1 := fun (p : Path) ranges => (h.modCtl who (fun c => c.dropGroups p.mask)).saveAllReady who .store ranges
  refine State.enterTrap.fun_cases_unfolding s who lane t MemWf (fun _ => h) (fun p _ u hu => ?_) (fun p _ u hu => ?_)
  · exact (MemWf.snd hu (h1 p _)).congr rfl rfl
  · have h2 := MemWf.snd hu (h1 p _)
    refine MemWf.record (MemWf.setCtl (MemWf.modWarp (MemWf.dropAsks (MemWf.saveLanes ?_ ..) ..) ..) ..) ..
    exact ((h2.saveBlocks ..).setWarp ..).saveWrite ..

theorem MemWf.streamTrap {s : State} (h : MemWf s) (who : Nat) (t : Trap) : MemWf (s.streamTrap who t) := by
  unfold State.streamTrap
  grind [MemWf.modStream, MemWf.stopThread, MemWf.postRecord]

theorem MemWf.takeTrap {s : State} (h : MemWf s) (who : Nat) (lane : Nat) (t : Trap) : MemWf (s.takeTrap who lane t) := by
  unfold State.takeTrap
  grind [MemWf.streamTrap, MemWf.fatalTrap, MemWf.enterTrap]

theorem MemWf.readSaved {s : State} (h : MemWf s) (who : Nat) (va : Nat) (n : Nat) : MemWf (s.readSaved who va n).2 := by
  unfold State.readSaved
  grind [MemWf.askSpan, MemWf.openParts, MemWf.touchParts, MemWf]

theorem MemWf.readFrame {s : State} (h : MemWf s) (who : Nat) : MemWf (s.readFrame who).2 :=
  State.readFrame_keeps (P := MemWf) (Q := fun r => MemWf r.2) h (fun _ ht => ht.saveAllReady) (fun _ ht => ht.readSaved) (fun _ _ h => h) who

theorem MemWf.leaveTrap {s : State} (h : MemWf s) (who : Nat) (pc : W64) (frame : List Byte × List Byte) :
    MemWf (s.leaveTrap who pc frame) := by
  unfold State.leaveTrap
  grind [MemWf.fatalTrap, MemWf.setCtl, MemWf.setWarp, MemWf.record, MemWf.dropAsks]

theorem MemWf.wantBlocks {s : State} (h : MemWf s) (who : Nat) (bs : List Nat) :
    MemWf (s.wantBlocks who bs) := h.congr rfl rfl

theorem MemWf.waitHere {s : State} (h : MemWf s) (is : Issue) : MemWf (s.waitHere is) := h.congr rfl rfl

theorem MemWf.closeGroup {s : State} (h : MemWf s) : MemWf s.closeGroup := by
  unfold State.closeGroup
  grind [MemWf.modWarp, MemWf]

theorem MemWf.addFlags {s : State} (h : MemWf s) (who : Nat) (f : W32) : MemWf (s.addFlags who f) := by
  unfold State.addFlags
  grind [MemWf.modWarp, MemWf]

theorem MemWf.countDeltas {s : State} (h : MemWf s) (is : Issue) : MemWf (s.countDeltas is) := by
  unfold State.countDeltas
  grind [MemWf.modWarp, MemWf]

theorem MemWf.noteIssue {s : State} (h : MemWf s) (is : Issue) : MemWf (s.noteIssue is) := h.congr rfl rfl

theorem MemWf.outwrite {s : State} (h : MemWf s) (is : Issue) : MemWf (s.outwrite is) := by
  unfold State.outwrite
  grind [MemWf]

theorem MemWf.finish {s : State} (h : MemWf s) (is : Issue) : MemWf (s.finish is) := by
  unfold State.finish
  grind [MemWf.outwrite, MemWf.noteIssue, MemWf.modWarp, MemWf.countDeltas, MemWf.closeGroup]

theorem MemWf.finishJump {s : State} (h : MemWf s) (is : Issue) : MemWf (s.finishJump is) := by
  unfold State.finishJump
  grind [MemWf.closeGroup, MemWf.noteIssue, MemWf.countDeltas]

theorem MemWf.parkGroup {s : State} (h : MemWf s) (is : Issue) : MemWf (s.parkGroup is) := by
  unfold State.parkGroup
  grind [MemWf.holdGroup, MemWf.closeGroup, MemWf]

theorem MemWf.noteQtrap {s : State} (h : MemWf s) (who : Nat) (p : Path) (pc : W64) : MemWf (s.noteQtrap who p pc) := by
  unfold State.noteQtrap
  grind [MemWf.modCtl]

theorem MemWf.trapAt {s : State} (h : MemWf s) (is : Issue) (c : Cause) (info : Info) (resume : W64) :
    MemWf (s.trapAt is c info resume) := by
  unfold State.trapAt
  cases hw : s.trapWaits is.who is.lane with
  | some t => exact (h.trapWaits _ _ t hw).congr rfl rfl
  | none =>
    refine MemWf.takeTrap (MemWf.closeGroup ?_) _ _ _
    cases (s.warp is.who).pathAt is.lane with
    | none => exact h
    | some p => exact h.noteQtrap _ _ _

theorem MemWf.endWait {s : State} (h : MemWf s) (who : Nat) (lane : Nat) (n : Nat) : MemWf (s.endWait who lane n) := by
  unfold State.endWait
  grind [MemWf.modCtl, MemWf.modWarp]

theorem MemWf.beginWait {s : State} (h : MemWf s) (is : Issue) (k : WaitKind) :
    MemWf (s.beginWait is k) := h.congr rfl rfl

theorem MemWf.runBody {s : State} (h : MemWf s) (is : Issue) {body : Issue → State → Act} (hb : (body is s).Wf) :
    MemWf (s.runBody is body) := by
  unfold State.runBody
  cases hs : body is s with
  | next t => rw [hs] at hb; exact MemWf.finish hb is
  | jump t => rw [hs] at hb; exact MemWf.finishJump hb is
  | hold t => rw [hs] at hb; exact MemWf.congr hb rfl rfl
  | park t => rw [hs] at hb; exact MemWf.parkGroup (MemWf.noteIssue hb is) is
  | trap c v => exact h.trapAt _ _ _ _
  | trapIn t c v => rw [hs] at hb; exact MemWf.trapAt hb _ _ _ _

theorem MemWf.issueWord {s : State} (h : MemWf s) (is : Issue) (pre align : Issue → State →
    Option (Cause × Info)) {body : Issue → State → Act}
    (hb : (body is s).Wf) : MemWf (s.issueWord is pre align body) := by
  unfold State.issueWord
  split
  · exact h.trapAt _ _ _ _
  · split
    · exact h.trapAt _ _ _ _
    · split
      · exact h.trapAt _ _ _ _
      · split
        · exact h.waitHere is
        · split
          · exact h.trapAt _ _ _ _
          · exact h.runBody is hb

theorem MemWf.putVec {s : State} (h : MemWf s) (is : Issue) (u : VUse) (rs : SMap Nat) :
    MemWf (s.putVec is u rs) := h.congr rfl rfl

theorem MemWf.writePred {s : State} (h : MemWf s) (is : Issue) (pd : Nat) (f : Nat → Bool) :
    MemWf (s.writePred is pd f) := h.congr rfl rfl

theorem MemWf.writeS {s : State} (h : MemWf s) (is : Issue) (n : Nat) (v : W64) :
    MemWf (s.writeS is n v) := h.congr rfl rfl

theorem MemWf.sendLanes {s : State} (h : MemWf s) (is : Issue) (f : Nat → W64) :
    MemWf (s.sendLanes is f) := h.congr rfl rfl

theorem branchBody_wf {s : State} (h : MemWf s) (f : Nat → W64) (is : Issue) : (branchBody f is s).Wf := by
  unfold branchBody
  grind [MemWf.sendLanes, Act.Wf]

theorem callBody_wf {s : State} (h : MemWf s) (off : BitVec 20) (is : Issue) : (callBody off is s).Wf := by
  unfold callBody
  grind [branchBody_wf, MemWf.modWarp, Act.Wf]

theorem splitBody_wf {s : State} (h : MemWf s) (k : Fin 16) (is : Issue) : (splitBody k is s).Wf := by
  unfold splitBody
  grind [MemWf.modWarp, Act.Wf]

theorem parkBody_wf {s : State} (h : MemWf s) (site : ParkSite) (k : Fin 16) (is : Issue) : (parkBody site k is s).Wf := by
  unfold parkBody
  grind [MemWf.modWarp, Act.Wf]

theorem MemWf.barrierCheck {s : State} (h : MemWf s) (g core : Nat) : MemWf (s.barrierCheck g core) := by
  unfold State.barrierCheck
  dsimp only
  split
  · exact MemWf.foldl (fun _ w ht => ht.modWarp w _) _ h
  · exact h

theorem barBody_wf {s : State} (h : MemWf s) (is : Issue) : (barBody is s).Wf := by
  unfold barBody
  grind [MemWf.modWarp, MemWf.barrierCheck, Act.Wf]

theorem MemWf.endWaits {s : State} (h : MemWf s) (ws : List Nat) (f : WaitKind → Bool) : MemWf (s.endWaits ws f) := by
  unfold State.endWaits
  exact MemWf.foldl (fun _ _ ht => MemWf.foldl (fun _ _ hu => hu.endWait _ _ _) _ ht) _ h

theorem MemWf.modCtls {s : State} (h : MemWf s) (f : WarpCtl → WarpCtl) (ws : List Nat) :
    MemWf (ws.foldl (fun t w => t.modCtl w f) s) :=
  MemWf.foldl (fun _ w ht => ht.modCtl w f) ws h

theorem conveneBody_wf {s : State} (h : MemWf s) (is : Issue) : (conveneBody is s).Wf := by
  have h1 := (h.modCtl is.who (fun c => { c with arrived := true })).beginWait is .convene
  unfold conveneBody
  dsimp only
  split
  · exact h
  · split
    · exact MemWf.endWaits (h1.modCtls _ _) _ _
    · exact h1

theorem MemWf.mismatchSeats {s : State} (h : MemWf s) (ws : List Nat) : MemWf (s.mismatchSeats ws) := by
  unfold State.mismatchSeats
  refine MemWf.foldl (fun t w ht => ?_) _ h
  split
  · exact ht.modCtl _ _
  · exact ht

theorem MemWf.breakQuorum {s : State} (h : MemWf s) (who : Nat) : MemWf (s.breakQuorum who) := by
  unfold State.breakQuorum
  grind [MemWf.mismatchSeats]

theorem MemWf.disbandCheck {s : State} (h : MemWf s) (who : Nat) : MemWf (s.disbandCheck who) := by
  unfold State.disbandCheck
  dsimp only
  split
  · exact MemWf.endWaits (h.modCtls _ _) _ _
  · exact h

theorem disbandBody_wf {s : State} (h : MemWf s) (is : Issue) : (disbandBody is s).Wf := by
  unfold disbandBody
  grind [MemWf.beginWait, MemWf.modCtl, MemWf.disbandCheck, MemWf.breakQuorum, Act.Wf]

theorem loopBody_wf {s : State} (h : MemWf s) (l : LoopSpec) (is : Issue) : (loopBody l is s).Wf := by
  unfold loopBody
  grind [MemWf.modWarp, Act.Wf]

theorem MemWf.allFiled {s : State} (h : MemWf s) (g : Nat) (core : Nat) : MemWf (s.allFiled g core) := by
  unfold State.allFiled
  grind [MemWf.modCore]

theorem MemWf.lanesGone {s : State} (h : MemWf s) (who : Nat) : MemWf (s.lanesGone who) := by
  unfold State.lanesGone
  grind [MemWf.allFiled, MemWf.barrierCheck, MemWf.modWarp, MemWf.disbandCheck, MemWf.breakQuorum, MemWf.modCtl]

theorem MemWf.noteMoved {s : State} (h : MemWf s) (who : Nat) : MemWf (s.noteMoved who) := by
  unfold State.noteMoved
  grind [MemWf.modCtl]

theorem MemWf.returnTrap {s : State} (h : MemWf s) (who : Nat) (pc : W64) (frame : List Byte × List Byte) :
    MemWf (s.returnTrap who pc frame) := by
  unfold State.returnTrap
  grind [MemWf.noteMoved, MemWf.leaveTrap, MemWf.lanesGone, MemWf.modWarp]

theorem MemWf.endProgram {s : State} (h : MemWf s) (who : Nat) (pc : W64) : MemWf (s.endProgram who pc) := by
  unfold State.endProgram
  grind [MemWf.postRecord, MemWf.modStream, MemWf.stopThread]

theorem exitBody_wf {s : State} (h : MemWf s) (is : Issue) : (exitBody is s).Wf := by
  have hr := h.readFrame is.who
  by_cases hm : is.mask = 0
  · rw [exitBody, if_pos hm]
    exact h
  · cases hs : isStream is.who with
    | true => rw [exitBody_ends hm hs]; exact h.endProgram _ _
    | false =>
      cases ht : (s.ctl is.who).inTrap with
      | false => rw [exitBody_lanes hm hs ht]; exact (h.modWarp _ _).lanesGone _
      | true =>
        cases hl : s.handlerLives is.who is.mask with
        | true => rw [exitBody_lives hm hs ht hl]; exact (h.modWarp _ _).modWarp _ _
        | false =>
          cases hw : s.handlerSettled is.who with
          | false => rw [exitBody_waits hm hs ht hl hw]; exact h
          | true =>
            rcases hf : s.readFrame is.who with ⟨f, u⟩
            have hu : MemWf u := MemWf.snd hf hr
            cases f with
            | none => rw [exitBody_fetches hm hs ht hl hw hf]; exact hu
            | some f => rw [exitBody_returns hm hs ht hl hw hf]; exact (hu.modWarp _ _).returnTrap _ _ _

theorem reformBody_wf {s : State} (h : MemWf s) (a : VOp) (n : BitVec 5) (is : Issue) : (reformBody a n is s).Wf := by
  unfold reformBody
  grind [MemWf.beginWait, Act.Wf]

theorem trapBody_wf {s : State} (h : MemWf s) (code : BitVec 17) (is : Issue) : (trapBody code is s).Wf := by
  unfold trapBody
  grind [MemWf.trapAt, Act.Wf]

theorem rteBody_wf {s : State} (h : MemWf s) (is : Issue) : (rteBody is s).Wf := by
  have hr := h.readFrame is.who
  cases hw : s.handlerSettled is.who with
  | false => rw [rteBody_waits hw]; exact h
  | true =>
    rcases hf : s.readFrame is.who with ⟨f, u⟩
    have hu : MemWf u := MemWf.snd hf hr
    cases f with
    | none => rw [rteBody_fetches hw hf]; exact hu
    | some f => rw [rteBody_returns hw hf]; exact hu.returnTrap _ _ _

theorem predBody_wf {s : State} (h : MemWf s) (f : Bool → Bool → Bool) (x : P3) (is : Issue) : (predBody f x is s).Wf := by
  unfold predBody
  grind [MemWf.writePred, Act.Wf]

theorem MemWf.saveByte {s : State} (h : MemWf s) (who : Nat) (off : Nat) : MemWf (s.saveByte who off).2 := by
  unfold State.saveByte
  grind [MemWf.ask, MemWf.locTouch, MemWf.freeWord]

theorem MemWf.putSaveByte {s : State} (h : MemWf s) (who : Nat) (off : Nat) (v : Nat) :
    MemWf (s.putSaveByte who off v) := by
  unfold State.putSaveByte
  grind [MemWf.saveWrite]

theorem MemWf.saveBit {s : State} (h : MemWf s) (who : Nat) (p : Nat × Nat) : MemWf (s.saveBit who p).2 := by
  unfold State.saveBit
  grind [MemWf.saveByte]

theorem MemWf.putSaveBit {s : State} (h : MemWf s) (who : Nat) (p : Nat × Nat) (b : Bool) :
    MemWf (s.putSaveBit who p b) := by
  unfold State.putSaveBit
  grind [MemWf.saveByte, MemWf.putSaveByte]

theorem MemWf.framePreds {s : State} (h : MemWf s) (who L n : Nat) : MemWf (s.framePreds who L n).2 := by
  induction n with
  | zero => exact h
  | succ n ih =>
    unfold State.framePreds
    grind [MemWf.saveBit]

theorem MemWf.readView {s : State} (h : MemWf s) (who : Nat) (a : Nat) (L : Nat) : MemWf (s.readView who a L).2 := by
  unfold State.readView
  grind [MemWf.framePreds, MemWf.saveByte, MemWf.saveBit]

theorem MemWf.readViewN {s : State} (h : MemWf s) (who L a n : Nat) : MemWf (s.readViewN who L a n).2 := by
  induction n generalizing s a with
  | zero => exact h
  | succ n ih =>
    unfold State.readViewN
    grind [MemWf.readView]

theorem MemWf.writeView {s : State} (h : MemWf s) (who a L v : Nat) (whole : Bool) : MemWf (s.writeView who a L v whole) := by
  have h1 := MemWf.foldl (f := fun t j => t.putSaveBit who (predByte j L) (v.testBit j)) (fun _ _ ht => ht.putSaveBit _ _ _) (List.range 7) h
  unfold State.writeView
  grind [MemWf.modWarp, MemWf.putSaveByte, MemWf.putSaveBit]

theorem MemWf.writeViewN {s : State} (h : MemWf s) (who L : Nat) (whole : Bool) (a : Nat) (vs : List Nat) :
    MemWf (s.writeViewN who L whole a vs) := by
  induction vs generalizing s a with
  | nil => exact h
  | cons v vs ih => exact ih (h.writeView ..) _

theorem MemWf.makeTreqs {s : State} (h : MemWf s) (who core ctx : Nat) (acc : Acc) (log : Nat) (hold : Bool) (ps : List Nat) :
    MemWf (s.makeTreqs who core ctx acc log hold ps).2 := by
  induction ps generalizing s with
  | nil => exact h
  | cons p ps ih => exact ih (h.newTreq ..)

theorem MemWf.viewLoads {s : State} (h : MemWf s) (is : Issue) (n : Nat) (ls : List Nat) : MemWf (s.viewLoads is n ls).2 := by
  induction ls generalizing s with
  | nil => exact h
  | cons L ls ih =>
    unfold State.viewLoads
    grind [MemWf.readViewN]

theorem rwLoad_wf {s : State} (h : MemWf s) (sz : LdSize) (x : MemArgs) (is : Issue) : (rwLoad sz x is s).Wf := by
  unfold rwLoad
  grind [MemWf.wantBlocks, MemWf.viewLoads, MemWf.setWarp, MemWf.modWarp, Act.Wf]

theorem rwStore_wf {s : State} (h : MemWf s) (sz : StSize) (is : Issue) : (rwStore sz is s).Wf := by
  have hv := h.viewLoads is (stBytes sz) (lanesOf is.mask)
  unfold rwStore
  dsimp only
  split
  · exact h.wantBlocks _ _
  · split
    · exact h
    · split
      · next heq => exact MemWf.snd heq hv
      · next heq => exact MemWf.foldl (fun _ _ ht => ht.writeViewN ..) _ (MemWf.snd heq hv)

theorem MemWf.l1Drop {s : State} (h : MemWf s) (core : Nat) (line : Nat) : MemWf (s.l1Drop core line) := h.congr rfl rfl

theorem MemWf.dropAtomLines {s : State} (h : MemWf s) (o : MemOp) : MemWf (s.dropAtomLines o) := by
  unfold State.dropAtomLines
  exact MemWf.foldl (fun _ _ ht => ht.l1Drop _ _) _ h

theorem MemWf.noteAll {s : State} (h : MemWf s) (who ctx : Nat) (i : Instr) (eas : SMap Int) (r : Requester) :
    MemWf (s.noteAll who ctx i eas r) := by
  unfold State.noteAll
  exact MemWf.foldl (fun _ _ ht => ht.noteVa _ _ _) _ h

theorem MemWf.lookupPages {s : State} (h : MemWf s) (who : Nat) (core : Nat) (ctx : Nat) (acc : Acc) (keys : List (Nat × Nat)) (pages : List Nat) :
    MemWf (s.lookupPages who core ctx acc keys pages).2.2 := by
  unfold State.lookupPages
  grind [MemWf.makeTreqs]

theorem memStart_wf {s : State} (h : MemWf s) (is : Issue) : (memStart is s).Wf := by
  unfold memStart
  grind [MemWf.modCtl, MemWf.noteAll, MemWf.lookupPages, MemWf.newId, MemWf.incFlag, MemWf.setMop, MemWf.dropAtomLines, Act.Wf]

theorem memBody_wf {s : State} (h : MemWf s) (is : Issue) : (memBody is s).Wf := by
  unfold memBody
  grind [memStart_wf, Act.Wf]

theorem stmxBody_wf {s : State} (h : MemWf s) (x : MxMemArgs) (is : Issue) : (stmxBody x is s).Wf := by
  unfold stmxBody
  grind [memBody_wf, Act.Wf]

theorem MemWf.startFill {s : State} (h : MemWf s) (core line : Nat) (secs : BitVec 4) (whole stream : Bool) (for_ : Nat × Nat)
    (r : Requester) : MemWf (s.startFill core line secs whole stream for_ r) := by
  unfold State.startFill
  refine MemWf.modCore (MemWf.foldl (fun t i ht => ?_) _ h) _ _
  split
  · exact ht.locTouch _ _ _
  · exact ht

theorem MemWf.miss {s : State} (h : MemWf s) (core : Nat) (line : Nat) (secs : BitVec 4) (whole : Bool) (stream : Bool) (for_ : Nat × Nat) (r : Requester) :
    MemWf (s.miss core line secs whole stream for_ r) := by
  unfold State.miss
  grind [MemWf.startFill, MemWf.modCore]

theorem MemWf.l1Room {s : State} (h : MemWf s) (core : Nat) (line : Nat) : MemWf (s.l1Room core line) := by
  unfold State.l1Room
  grind [MemWf.pick, MemWf.modCore]

theorem MemWf.l1Install {s : State} (h : MemWf s) (core : Nat) (f : L1Fill) : MemWf (s.l1Install core f) := by
  unfold State.l1Install
  grind [MemWf.modCore, MemWf.l1Room]

theorem MemWf.markFills {s : State} (h : MemWf s) (core : Nat) (pa : Nat) (n : Nat) : MemWf (s.markFills core pa n) := by
  unfold State.markFills
  grind [MemWf.modCore]

theorem MemWf.l1Store {s : State} (h : MemWf s) (core : Nat) (pa : Nat) (bs : List Byte) :
    MemWf (s.l1Store core pa bs) := by
  unfold State.l1Store
  grind [MemWf.modCore]

theorem MemWf.l1StoreSide {s : State} (h : MemWf s) (core : Nat) (line : Nat) (f : W64 → W64) :
    MemWf (s.l1StoreSide core line f) := h.congr rfl rfl

theorem MemWf.l1StoreAll {s : State} (h : MemWf s) (core pa : Nat) (bs : List Byte) : MemWf (s.l1StoreAll core pa bs) := by
  unfold State.l1StoreAll
  exact MemWf.foldl (fun _ _ ht => (ht.markFills ..).l1Store ..) _ h

theorem MemWf.markFillsAll {s : State} (h : MemWf s) (core pa : Nat) (bs : List Byte) : MemWf (s.markFillsAll core pa bs) := by
  unfold State.markFillsAll
  exact MemWf.foldl (fun _ _ ht => ht.markFills ..) _ h

theorem MemWf.flash {s : State} (h : MemWf s) (core : Nat) : MemWf (s.flash core) := h.congr rfl rfl

theorem MemWf.acquireL1 {s : State} (h : MemWf s) (who : Nat) : MemWf (s.acquireL1 who) := by
  unfold State.acquireL1
  grind [MemWf.flash]

theorem MemWf.engWrite {s : State} (h : MemWf s) (core : Nat) (l : Loc) (bs : List Byte) (r : Requester) :
    MemWf (s.engWrite core l bs r) := by
  unfold State.engWrite
  grind [MemWf.locWrite, MemWf.l1StoreAll]

theorem MemWf.dropPoisoned {s : State} (h : MemWf s) (core : Nat) (l : Loc) (n : Nat) :
    MemWf (s.dropPoisoned core l n) := by
  unfold State.dropPoisoned
  grind [MemWf.modCore]

theorem MemWf.dropPoisonedSide {s : State} (h : MemWf s) (core : Nat) (l : Loc) : MemWf (s.dropPoisonedSide core l) := by
  unfold State.dropPoisonedSide
  grind [MemWf.modCore]

theorem MemWf.putLong {s : State} (h : MemWf s) (who r L : Nat) (handler : Bool) (v m : W32) (p : Bool) :
    MemWf (s.putLong who r L handler v m p) := by
  have h1 : MemWf ((List.range 4).foldl (fun t i => if m.getLsbD (8 * i) then
      t.putSaveByte who (s.imageOff who r handler + 0x200 * (r % 8) + 4 * L + i) (v.toNat / 2 ^ (8 * i) % 256) else t) s) := by
    refine MemWf.foldl (fun t i ht => ?_) _ h
    split
    · exact ht.putSaveByte _ _ _
    · exact ht
  unfold State.putLong
  split
  · exact h.modWarp _ _
  · exact h.modCore _ _
  · dsimp only
    split
    · exact h1.putSaveBit _ _ _
    · exact h1

end Sys2Proof
end

section
/-! Canonical memories: traps, the host's registers, loads, stores, atomics and copies. -/

namespace Sys2Proof
open Machine

theorem MemWf.longReady {s : State} (h : MemWf s) (who : Nat) (handler : Bool) (regs : List Nat) :
    MemWf (s.longReady who handler regs).2 := by
  unfold State.longReady
  grind [MemWf.saveAllReady]

theorem MemWf.writeFqtail {s : State} (h : MemWf s) (c : Nat) (v : W64) : MemWf (s.writeFqtail c v) := h.congr rfl rfl

theorem MemWf.writeErrtail {s : State} (h : MemWf s) (c : Nat) (v : W64) : MemWf (s.writeErrtail c v) := h.congr rfl rfl

theorem MemWf.writeEvqtail {s : State} (h : MemWf s) (j : Nat) (v : W64) : MemWf (s.writeEvqtail j v) := h.congr rfl rfl

theorem MemWf.answerFault {s : State} (h : MemWf s) (c fid : Nat) (f : State → TReq → State) (hf : ∀ s a,
    MemWf s → MemWf (f s a)) :
    MemWf (s.answerFault c fid f) := by
  unfold State.answerFault
  split
  · exact MemWf.foldl hf _ (h.modCluster _ _)
  · exact h

theorem MemWf.frespReplay {s : State} (h : MemWf s) (c : Nat) (fid : Nat) : MemWf (s.frespReplay c fid) := by
  unfold State.frespReplay
  grind [MemWf.answerFault, MemWf.walkReq]

theorem MemWf.frespViol {s : State} (h : MemWf s) (c : Nat) (fid : Nat) (v : VClass) : MemWf (s.frespViol c fid v) := by
  unfold State.frespViol
  grind [MemWf.answerFault, MemWf.setTreq]

theorem MemWf.rejectStream {s : State} (h : MemWf s) (j : Nat) (errc : Nat) : MemWf (s.rejectStream j errc) := by
  unfold State.rejectStream
  grind [MemWf.postRecord, MemWf.modStream]

theorem MemWf.disown {s : State} (h : MemWf s) (who : Nat) : MemWf (s.disown who) := h.congr rfl rfl

theorem MemWf.streamGo {s : State} (h : MemWf s) (j : Nat) : MemWf (s.streamGo j) := by
  unfold State.streamGo
  grind [MemWf.rejectStream, MemWf.noteDescr, MemWf.dropAsks, MemWf.disown, MemWf.modStream, MemWf.setCtl, MemWf.setWarp, MemWf]

theorem MemWf.abandonSem {s : State} (h : MemWf s) (who : Nat) : MemWf (s.abandonSem who) := h.congr rfl rfl

theorem MemWf.haltNow {s : State} (h : MemWf s) (j : Nat) : MemWf (s.haltNow j) := by
  unfold State.haltNow
  grind [MemWf.modStream, MemWf.stopThread]

theorem MemWf.streamHalt {s : State} (h : MemWf s) (j : Nat) : MemWf (s.streamHalt j) := by
  unfold State.streamHalt
  grind [MemWf.modStream, MemWf.haltNow, MemWf.modWarp, MemWf.abandonSem]

theorem MemWf.startInval {s : State} (h : MemWf s) (kind : Nat) (ctx : Nat) (va : Nat) (pages : Nat) (who : Option (Nat × Nat)) (host : Bool) :
    MemWf (s.startInval kind ctx va pages who host).2 := by
  unfold State.startInval
  grind [MemWf.newId, MemWf]

theorem MemWf.hostInval {s : State} (h : MemWf s) (op : Nat) : MemWf (s.hostInval op) := by
  have hb : ∀ {t : State} (_ : MemWf t) (r : Regs), MemWf { t with regs := r } := fun ht _ => ht.congr rfl rfl
  unfold State.hostInval
  dsimp only
  split
  · exact hb h _
  split
  · exact h
  split
  · split
    · exact hb (h.startInval ..) _
    · refine hb ?_ _
      cases s.readDescr 0 s.regs.tlbCtx.toNat with
      | none => exact h.noteDescr _ _
      | some d => exact h.noteBad _ _ _
  · exact hb (h.startInval ..) _

theorem MemWf.preemptReq {s : State} (h : MemWf s) (gs : List Nat) : MemWf (s.preemptReq gs) := by
  unfold State.preemptReq
  refine MemWf.foldl (fun t g ht => ht.modWg _ _ fun w hs ha => ?_) _ h
  split <;> exact ⟨hs, ha⟩

theorem MemWf.suspendStream {s : State} (h : MemWf s) (j : Nat) : MemWf (s.suspendStream j) := by
  unfold State.suspendStream
  grind [MemWf.modStream, MemWf.modCtl, MemWf.abandonSem]

theorem MemWf.startSuspend {s : State} (h : MemWf s) (ctx : Nat) : MemWf (s.startSuspend ctx) := by
  unfold State.startSuspend
  exact (MemWf.foldl (fun t j ht => ht.suspendStream j) _ (h.preemptReq _)).congr rfl rfl

theorem MemWf.startCtxcmd {s : State} (h : MemWf s) (op : Nat) : MemWf (s.startCtxcmd op) := by
  unfold State.startCtxcmd
  grind [MemWf.noteDescr, MemWf.startSuspend, MemWf]

theorem MemWf.streamRegWrite {s : State} (h : MemWf s) (j : Nat) (o : Nat) (m : W64) (v : W64) :
    MemWf (s.streamRegWrite j o m v) := by
  unfold State.streamRegWrite
  grind [MemWf.setStream, MemWf.streamHalt, MemWf.streamGo, MemWf.writeEvqtail]

theorem MemWf.fresp {s : State} (h : MemWf s) (c : Nat) (v : W64) : MemWf (s.fresp c v) := by
  unfold State.fresp
  grind [MemWf.frespReplay, MemWf.frespViol]

theorem MemWf.clusterRegWrite {s : State} (h : MemWf s) (c : Nat) (num : Nat) (m : W64) (v : W64) :
    MemWf (s.clusterRegWrite c num m v) := by
  unfold State.clusterRegWrite
  grind [MemWf.streamRegWrite, MemWf.setCluster, MemWf.writeFqtail, MemWf.fresp, MemWf.writeErrtail]

theorem MemWf.bootctl {s : State} (h : MemWf s) (v : W64) : MemWf (s.bootctl v) := by
  unfold State.bootctl
  grind [MemWf]

theorem MemWf.attcmd {s : State} (h : MemWf s) (v : W64) : MemWf (s.attcmd v) := by
  unfold State.attcmd
  grind [MemWf]

theorem MemWf.tlbireq {s : State} (h : MemWf s) (v : W64) : MemWf (s.tlbireq v) := by
  unfold State.tlbireq
  grind [MemWf.hostInval, MemWf]

theorem MemWf.ctxcmd {s : State} (h : MemWf s) (v : W64) : MemWf (s.ctxcmd v) := by
  unfold State.ctxcmd
  grind [MemWf.startCtxcmd, MemWf]

theorem MemWf.cxcmd {s : State} (h : MemWf s) (v : W64) : MemWf (s.cxcmd v) := by
  unfold State.cxcmd
  grind [MemWf]

theorem MemWf.ite {s t : State} {c : Prop} [Decidable c] (hs : MemWf s) (ht : MemWf t) : MemWf (if c then s else t) := by
  split
  · exact hs
  · exact ht

theorem MemWf.moduleWrite {s : State} (h : MemWf s) (off : Nat) (m v : W64) : MemWf (s.moduleWrite off m v) := by
  have hb : ∀ r : Regs, MemWf { s with regs := r } := fun _ => h.congr rfl rfl
  unfold State.moduleWrite
  dsimp only
  refine .ite (.ite (h.bootctl v) h) (.ite (hb _) (.ite (.ite (h.attcmd v) h) (.ite (hb _) (.ite (hb _) (.ite (.ite (h.cxcmd v) h) ?_)))))
  exact .ite (hb _) (.ite (hb _) (.ite (hb _) (.ite (.ite (h.tlbireq v) h) (.ite (hb _) (.ite (.ite (h.ctxcmd v) h) h)))))

theorem MemWf.regWrite {s : State} (h : MemWf s) (off : Nat) (m : W64) (v : W64) : MemWf (s.regWrite off m v) := by
  unfold State.regWrite
  grind [MemWf.moduleWrite, MemWf.clusterRegWrite]

theorem MemWf.mmioWrite {s : State} (h : MemWf s) (off : Nat) (n : Nat) (v : Nat) :
    ∀ t, State.mmioWrite s off n v = some t → MemWf t := by
  unfold State.mmioWrite
  grind [MemWf.regWrite]

theorem scalarBody_wf {s : State} (h : MemWf s) (f : W64 → W64 → W64) (x : S3) (is : Issue) : (scalarBody f x is s).Wf := by
  unfold scalarBody
  grind [MemWf.writeS, Act.Wf]

theorem scalarBody1_wf {s : State} (h : MemWf s) (f : W64 → W64) (sd : Fin 96) (sa : SOp) (is : Issue) :
    (scalarBody1 f sd sa is s).Wf := by
  unfold scalarBody1
  grind [MemWf.writeS, Act.Wf]

theorem scalarBodyI_wf {s : State} (h : MemWf s) (f : W64 → W64) (sd : Fin 96) (is : Issue) : (scalarBodyI f sd is s).Wf := by
  unfold scalarBodyI
  grind [MemWf.writeS, Act.Wf]

theorem intBody_wf {s : State} (h : MemWf s) (t : ITy) (x : V3) (f : Bool → Nat → Nat → Nat → Nat × W32) (is : Issue) :
    (intBody t x f is s).Wf := by
  unfold intBody
  grind [MemWf.addFlags, MemWf.putVec, Act.Wf]

theorem logicBody_wf {s : State} (h : MemWf s) (t : BTy) (x : V3) (f : Nat → Nat → Nat) (is : Issue) :
    (logicBody t x f is s).Wf := by
  unfold logicBody
  grind [MemWf.putVec, Act.Wf]

theorem vcmpBody_wf {s : State} (h : MemWf s) (t : ITy) (c : Cond) (x : VC) (is : Issue) : (vcmpBody t c x is s).Wf := by
  unfold vcmpBody
  grind [MemWf.writePred, Act.Wf]

theorem unBody_wf {s : State} (h : MemWf s) (wide : Bool) (x : V2) (f : Nat → Nat) (is : Issue) :
    (unBody wide x f is s).Wf := by
  unfold unBody
  grind [MemWf.putVec, Act.Wf]

theorem vmoviBody_wf {s : State} (h : MemWf s) (d : VOp) (imm : BitVec 8) (is : Issue) : (vmoviBody d imm is s).Wf := by
  unfold vmoviBody
  grind [MemWf.putVec, Act.Wf]

theorem vclmulBody_wf {s : State} (h : MemWf s) (hi : Bool) (x : V3) (is : Issue) : (vclmulBody hi x is s).Wf := by
  unfold vclmulBody
  grind [MemWf.putVec, Act.Wf]

theorem vmad24Body_wf {s : State} (h : MemWf s) (uns : Bool) (x : V3) (is : Issue) : (vmad24Body uns x is s).Wf := by
  unfold vmad24Body
  grind [MemWf.putVec, Act.Wf]

theorem deliver_wf {s : State} (h : MemWf s) (is : Issue) (u : VUse) (rs : SMap Rounded) : (deliver s is u rs).Wf := by
  unfold deliver
  grind [MemWf.addFlags, MemWf.putVec, Act.Wf]

theorem fpBody_wf {s : State} (h : MemWf s) (op : FOp) (t : FTy) (rm : RM) (sids : SOp) (x : V3) (is : Issue) :
    (fpBody op t rm sids x is s).Wf := by
  unfold fpBody
  grind [deliver_wf, Act.Wf]

theorem fmmBody_wf {s : State} (h : MemWf s) (mx : Bool) (t : FTy) (x : V3) (is : Issue) : (fmmBody mx t x is s).Wf := by
  unfold fmmBody
  grind [deliver_wf, Act.Wf]

theorem vfcmpBody_wf {s : State} (h : MemWf s) (t : FTy) (c : FCond) (x : VC) (is : Issue) : (vfcmpBody t c x is s).Wf := by
  unfold vfcmpBody
  grind [MemWf.addFlags, MemWf.writePred, Act.Wf]

theorem vcvtBody_wf {s : State} (h : MemWf s) (k : CvtKind) (p : Fin 4) (rm : RM) (sids : SOp) (x : V2) (is : Issue) :
    (vcvtBody k p rm sids x is s).Wf := by
  unfold vcvtBody
  grind [deliver_wf, Act.Wf]

theorem mxmaxBody_wf {s : State} (h : MemWf s) (x : V2) (is : Issue) : (mxmaxBody x is s).Wf := by
  unfold mxmaxBody
  grind [MemWf.putVec, Act.Wf]

theorem mxscaleBody_wf {s : State} (h : MemWf s) (f : MxFmt) (p : Fin 4) (x : V2) (is : Issue) :
    (mxscaleBody f p x is s).Wf := by
  unfold mxscaleBody
  grind [deliver_wf, Act.Wf]

theorem mxqBody_wf {s : State} (h : MemWf s) (f : MxFmt) (p : Fin 4) (rm : RM) (sids : SOp) (x : V3) (is : Issue) :
    (mxqBody f p rm sids x is s).Wf := by
  unfold mxqBody
  grind [deliver_wf, Act.Wf]

theorem mxdqBody_wf {s : State} (h : MemWf s) (f : MxFmt) (p : Fin 4) (x : V3) (is : Issue) : (mxdqBody f p x is s).Wf := by
  unfold mxdqBody
  grind [deliver_wf, Act.Wf]

theorem MemWf.logOp {s : State} (h : MemWf s) (o : MemOp) (ps : SMap Place) : MemWf (s.logOp o ps) := by
  unfold State.logOp
  grind [MemWf.logViol]

theorem MemWf.endMop {s : State} (h : MemWf s) (o : MemOp) : MemWf (s.endMop o) := by
  unfold State.endMop
  grind [MemWf.decFlag, MemWf.dropLost, MemWf]

theorem MemWf.closeMop {s : State} (h : MemWf s) (o : MemOp) : MemWf (s.closeMop o) := by
  unfold State.closeMop
  grind [MemWf.endMop, MemWf.acquireL1, MemWf.modCore, MemWf.setMop]

theorem MemWf.regsReady {s : State} (h : MemWf s) (o : MemOp) : MemWf (s.regsReady o).2 := by
  unfold State.regsReady
  grind [MemWf.wantBlocks, MemWf.longReady]

theorem MemWf.putResult {s : State} (h : MemWf s) (o : MemOp) (L v : Nat) (p : Bool) : MemWf (s.putResult o L v p) := by
  unfold State.putResult
  dsimp only
  split
  · exact h
  · split
    · grind [MemWf.putLong]
    · refine MemWf.foldl (fun t k ht => ?_) _ h
      split
      · exact ht
      · exact ht.putLong ..

theorem MemWf.laneError {s : State} (h : MemWf s) (o : MemOp) (L : Nat) (p : Place) : MemWf (s.laneError o L p) := by
  unfold State.laneError
  grind [MemWf.linkError]

theorem MemWf.waitPort {s : State} (h : MemWf s) (o : MemOp) : MemWf (s.waitPort o) := by
  unfold State.waitPort
  grind [MemWf.noteNoPort]

theorem MemWf.readDirect {s : State} (h : MemWf s) (o : MemOp) (L : Nat) (p : Place) :
    MemWf (s.readDirect o L p).2.2 := by
  unfold State.readDirect
  grind [MemWf.locTouch]

theorem MemWf.lookupLane {s : State} (h : MemWf s) (o : MemOp) (L : Nat) (p : Place) : MemWf (s.lookupLane o L p).2 := by
  unfold State.lookupLane
  grind [MemWf.laneError, MemWf.readDirect, MemWf.miss]

theorem MemWf.lookupAll {s : State} (h : MemWf s) (o : MemOp) (l : List (Nat × Place)) : MemWf (s.lookupAll o l).2 := by
  induction l generalizing s o with
  | nil => exact h
  | cons e l ih =>
    unfold State.lookupAll
    dsimp only
    split
    · exact ih h o
    · exact ih (h.lookupLane ..) _

theorem MemWf.finishLoad {s : State} (h : MemWf s) (o : MemOp) : MemWf (s.finishLoad o) := by
  have hr := h.regsReady o
  unfold State.finishLoad
  split
  · next heq => exact (MemWf.snd heq hr).setMop _
  · next heq => exact (MemWf.foldl (fun t L ht => ht.putResult ..) _ (MemWf.snd heq hr)).closeMop _

theorem MemWf.loadStep {s : State} (h : MemWf s) (o : MemOp) (lost : Bool) : MemWf (s.loadStep o lost) := by
  unfold State.loadStep
  grind [MemWf.finishLoad, MemWf.lookupAll, MemWf.setMop, MemWf.waitPort, MemWf.logOp]

theorem MemWf.fillOps {s : State} (h : MemWf s) (core : Nat) (f : L1Fill) : MemWf (s.fillOps core f) := by
  unfold State.fillOps
  refine MemWf.foldl (fun t o ht => ?_) _ h
  split
  · exact ht.setMop _
  · exact ht

theorem MemWf.writeBlock {s : State} (h : MemWf s) (f : MxFmt) (l : Loc) (off : Nat) (codes : List Nat) (scale : Nat) (r : Requester) :
    MemWf (s.writeBlock f l off codes scale r) := by
  unfold State.writeBlock
  grind [MemWf.locTouch, MemWf.locWrite, MemWf.locSetSide]

theorem MemWf.ackL1 {s : State} (h : MemWf s) (o : MemOp) (leaf : W64) (pa : Nat) (bs : List Byte) :
    MemWf (s.ackL1 o leaf pa bs) := by
  unfold State.ackL1
  grind [MemWf.markFillsAll, MemWf.l1StoreAll]

theorem MemWf.writeUnit {s : State} (h : MemWf s) (o : MemOp) (at_ : Nat → Loc) (lanes : List (Nat × Nat)) (base : Nat) :
    MemWf (s.writeUnit o at_ lanes base) := by
  unfold State.writeUnit
  split
  · exact h.locWrite _ _ _
  · exact MemWf.foldl (fun t e ht => ht.locWrite _ _ _) _ h

theorem MemWf.storeGroup {s : State} (h : MemWf s) (o : MemOp) (ls : List Nat) (p : Place) :
    MemWf (s.storeGroup o ls p) := by
  unfold State.storeGroup
  grind [MemWf.writeBlock, MemWf.ackL1, MemWf.l1StoreSide]

theorem MemWf.laneErrors {s : State} (h : MemWf s) (o : MemOp) (ps : SMap Place) (ls : List Nat) :
    MemWf (ls.foldl (fun t L => (mget ps L).elim t (t.laneError o L)) s) := by
  refine MemWf.foldl (fun t L ht => ?_) _ h
  cases mget ps L with
  | none => exact ht
  | some p => exact ht.laneError ..

theorem MemWf.storeUnit {s : State} (h : MemWf s) (o : MemOp) (ps : SMap Place) (k : Nat × Nat) : MemWf (s.storeUnit o ps k) := by
  have hs := h.laneErrors o ps (unitLanes o ps k)
  unfold State.storeUnit
  dsimp only
  split
  · refine MemWf.foldl (fun t j ht => ?_) _ hs
    split
    · exact ht.storeGroup ..
    · exact ht
  · split
    · split
      · exact hs
      · refine MemWf.foldl (fun u L hu => ?_) _ (hs.writeUnit ..)
        split
        · exact hu.ackL1 ..
        · exact hu
    · exact hs.writeUnit ..
    · exact hs.writeUnit ..
    · refine MemWf.foldl (fun u L hu => ?_) _ hs
      cases hm : u.mmioWrite _ (accBytes o.instr) (mgetD o.data L 0).toNat with
      | none => exact hu
      | some t => exact hu.mmioWrite _ _ _ t hm
    · exact hs

theorem MemWf.ackStores {s : State} (h : MemWf s) (who : Nat) (n : Nat) : MemWf (s.ackStores who n) := by
  unfold State.ackStores
  grind [MemWf.modCtl]

theorem MemWf.storeStep {s : State} (h : MemWf s) (o : MemOp) (lost : Bool) : MemWf (s.storeStep o lost) := by
  unfold State.storeStep
  grind [MemWf.waitPort, MemWf.logOp, MemWf.ackStores, MemWf.endMop, MemWf.storeUnit, MemWf.setMop]

theorem MemWf.atomAt {s : State} (h : MemWf s) (l : Loc) (op : AOp) (t : ITy) (b : Nat) (cmp : Nat) (r : Requester) :
    MemWf (s.atomAt l op t b cmp r).2.2 := by
  unfold State.atomAt
  grind [MemWf.locTouch, MemWf.locWrite]

theorem MemWf.atomLane {s : State} (h : MemWf s) (o : MemOp) (x : AtomArgs) (L : Nat) (p : Place) :
    MemWf (s.atomLane o x L p).2.2 := by
  unfold State.atomLane
  grind [MemWf.atomAt, MemWf.laneError]

theorem MemWf.atomLanes {s : State} (h : MemWf s) (o : MemOp) (x : AtomArgs) (l : List (Nat × Place)) :
    MemWf (s.atomLanes o x l) := by
  induction l generalizing s with
  | nil => exact h
  | cons e l ih =>
    unfold State.atomLanes
    dsimp only
    split
    · exact ih (h.atomLane ..)
    · exact ih ((h.atomLane ..).putResult ..)

theorem MemWf.ackAtoms {s : State} (h : MemWf s) (o : MemOp) (ps : SMap Place) : MemWf (s.ackAtoms o ps) := by
  unfold State.ackAtoms
  split
  · exact h
  · refine MemWf.foldl (fun t e ht => ?_) _ h
    split
    · exact ht.markFills _ _ _
    · exact ht

theorem MemWf.atomStep {s : State} (h : MemWf s) (o : MemOp) (x : AtomArgs) (lost : Bool) :
    MemWf (s.atomStep o x lost) := by
  unfold State.atomStep
  grind [MemWf.waitPort, MemWf.regsReady, MemWf.ackAtoms, MemWf.atomLanes, MemWf.dropAtomLines, MemWf.logOp, MemWf.closeMop,
      MemWf.ackStores]

theorem fenceBody_wf {s : State} (h : MemWf s) (o : FOrd) (sc : Scope) (is : Issue) : (fenceBody o sc is s).Wf := by
  unfold fenceBody
  grind [MemWf.flash, Act.Wf]

theorem ifenceBody_wf {s : State} (h : MemWf s) (is : Issue) : (ifenceBody is s).Wf := by
  unfold ifenceBody
  grind [MemWf.modCore, MemWf.modCtl, Act.Wf]

theorem MemWf.tokApply {s : State} (h : MemWf s) (core : Nat) (l : Loc) (f : W128 → W128) (r : Requester) :
    MemWf (s.tokApply core l f r) := by
  unfold State.tokApply
  grind [MemWf.locTouch, MemWf.engWrite]

theorem MemWf.tokUpdate {s : State} (h : MemWf s) (o : EngOp) (f : W128 → W128) : MemWf (s.tokUpdate o f).2 := by
  unfold State.tokUpdate
  grind [MemWf.locAt, MemWf.tokApply, MemWf.logViol]

theorem MemWf.tokStart {s : State} (h : MemWf s) (o : EngOp) : MemWf (s.tokStart o) := by
  unfold State.tokStart
  grind [MemWf.setEop, MemWf.tokUpdate]

theorem MemWf.countDown {s : State} (h : MemWf s) (f : Nat × Nat) : MemWf (s.countDown f) := by
  unfold State.countDown
  grind [MemWf.decFlag, MemWf.dropAsks, MemWf.saveWrite]

theorem MemWf.dropEop {s : State} (h : MemWf s) (id : Nat) : MemWf { s with eops := mdel s.eops id } := h.congr rfl rfl

theorem MemWf.endEng {s : State} (h : MemWf s) (o : EngOp) : MemWf (s.endEng o) := by
  have hr := h.tokUpdate o (fun v => tokDone v (o.err || s.opLost o) o.dmg o.skip)
  unfold State.endEng
  split
  · next heq => exact (MemWf.snd heq hr).setEop _
  · next heq =>
    exact ((((MemWf.foldl (fun t L ht => ht.countDown _) _ (MemWf.snd heq hr)).dropAsks _ _).dropLost _ _).dropLost _ _).dropEop _

theorem MemWf.fork {s : State} (h : MemWf s) (is : Issue) (vals : List W64) (tok : Option (Nat × Bool)) (rel : Bool) :
    MemWf (s.fork is vals tok rel).2 := by
  unfold State.fork
  grind [MemWf.newId, MemWf.incFlag]

theorem MemWf.noteEa {s : State} (h : MemWf s) (who ctx : Nat) (sp : Space) (ea : Int) (r : Requester) :
    MemWf (s.noteEa who ctx sp ea r) := by
  unfold State.noteEa
  cases s.spaceVa who sp ea with
  | none => exact h
  | some va => exact h.noteVa ..

theorem MemWf.engAt {s : State} (h : MemWf s) (o : EngOp) (sp : Space) (ea : Int) (n : Nat) (acc : Acc) (off : Nat) :
    MemWf (s.engAt o sp ea n acc off).2 := by
  unfold State.engAt
  grind [MemWf.noteEa, MemWf.ask]

theorem MemWf.engTouch {s : State} (h : MemWf s) (o : EngOp) (l : ELoc) (n : Nat) : MemWf (s.engTouch o l n) := by
  unfold State.engTouch
  grind [MemWf.locTouch]

theorem MemWf.engStore {s : State} (h : MemWf s) (o : EngOp) (l : ELoc) (bs : List Byte) (bad : List Bool) :
    MemWf (s.engStore o l bs bad) := by
  unfold State.engStore
  split
  · exact MemWf.foldl (fun t e ht => (ht.locMark _ _).dropPoisoned ..) _ (h.engWrite ..)
  · exact MemWf.foldl (fun t c ht => ht.putLong ..) _ h

theorem MemWf.engViol {s : State} (h : MemWf s) (o : EngOp) (sp : Space) (c : VClass) (acc : Acc) (addr : Int) :
    MemWf (s.engViol o sp c acc addr).2 := by
  unfold State.engViol
  grind [MemWf.logViol]

theorem twaitBody_wf {s : State} (h : MemWf s) (sd : Fin 96) (sa : SOp) (tsp : Bool) (is : Issue) :
    (twaitBody sd sa tsp is s).Wf := by
  unfold twaitBody
  grind [MemWf.beginWait, Act.Wf]

theorem MemWf.waitTrap {s : State} (h : MemWf s) (who : Nat) (lane : Nat) (c : Cause) (info : Info) :
    MemWf (s.waitTrap who lane c info) := by
  unfold State.waitTrap
  grind [MemWf.modCtl, MemWf.takeTrap]

theorem MemWf.twaitRead {s : State} (h : MemWf s) (who : Nat) (x : Waiting) (sd : Fin 96) (addr : Nat) (sp : Bool) :
    MemWf (s.twaitRead who x sd addr sp) := by
  unfold State.twaitRead
  grind [MemWf.locAt, MemWf.whenEntry, MemWf.waitTrap, MemWf.logViol, MemWf.dropAsks, MemWf.locTouch, MemWf.modWarp,
      MemWf.endWait, MemWf.acquireL1]

theorem MemWf.twaitStep {s : State} (h : MemWf s) (who : Nat) (x : Waiting) : MemWf (s.twaitStep who x) := by
  unfold State.twaitStep
  grind [MemWf.waitTrap, MemWf.logViol, MemWf.twaitRead]

theorem MemWf.eccError {s : State} (h : MemWf s) (kind : Nat) (pa : Nat) (secs : List Nat) (by_ : Requester) :
    MemWf (s.eccError kind pa secs by_) := by
  unfold State.eccError
  grind [MemWf.postErr, MemWf.physMark]

theorem MemWf.memUpset {s : State} (h : MemWf s) (kind : Nat) (pa : Nat) (secs : List Nat) (side : Bool) (u : Upset) :
    MemWf (s.memUpset kind pa secs side u) := by
  unfold State.memUpset
  grind [MemWf.correct, MemWf.eccError, MemWf.sideMark]

theorem MemWf.coreStoreUpset {s : State} (h : MemWf s) (core : Nat) (addr : W64) (mark : State → State) (u : Upset) (hmark : ∀ s,
    MemWf s → MemWf (mark s)) :
    MemWf (s.coreStoreUpset core addr mark u) := by
  unfold State.coreStoreUpset
  grind [MemWf.correct, MemWf.postErr]

theorem MemWf.regAddr {s : State} (h : MemWf s) (core : Nat) (b : Block) (j : Nat) (lane : Nat) :
    MemWf (s.regAddr core b j lane).2 := by
  unfold State.regAddr
  grind [MemWf.freeWord]

theorem MemWf.detectAt {s : State} (h : MemWf s) (u : Upset) : MemWf (s.detectAt u) := by
  unfold State.detectAt
  grind [MemWf.correct, MemWf.modCore, MemWf.memUpset, MemWf.setFrame, MemWf.regAddr, MemWf.coreStoreUpset, MemWf.modWarp,
      MemWf.locMark]

theorem MemWf.detect {s : State} (h : MemWf s) : MemWf s.detect := by
  unfold State.detect
  exact MemWf.foldl (fun t u ht => ht.detectAt u) _ (h.congr rfl rfl)

theorem MemWf.resolveUnits {s : State} (h : MemWf s) (o : EngOp) (space : Space) (acc : Acc) (mx : Bool) (us : List EUnit) :
    MemWf (s.resolveUnits o space acc mx us).2 := by
  induction us generalizing s with
  | nil => exact h
  | cons u us ih =>
    obtain ⟨base, ea, hi⟩ := u
    have h2 := ih (h.engAt o space base (hi - ea).toNat acc (ea - base).toNat)
    unfold State.resolveUnits
    dsimp only
    split
    · exact h2
    · exact h2
    · split <;> exact h2

theorem MemWf.stopAt {s : State} (h : MemWf s) (o : EngOp) (vs : List (Space × Acc × VClass × Int)) :
    MemWf (s.stopAt o vs).2 := by
  unfold State.stopAt
  grind [MemWf.pick, MemWf.engViol]

theorem MemWf.viewReady {s : State} (h : MemWf s) (who : Nat) (regs : List Nat) : MemWf (s.viewReady who regs).2 := by
  unfold State.viewReady
  grind [MemWf.wantBlocks, MemWf.longReady]

theorem copyBody_wf {s : State} (h : MemWf s) (x : CopyArgs) (is : Issue) : (copyBody x is s).Wf := by
  unfold copyBody
  grind [MemWf.fork, MemWf.tokStart, MemWf.modCore, Act.Wf]

theorem MemWf.engBlock {s : State} (h : MemWf s) (o : EngOp) (f : MxFmt) (l : Loc) (off : Nat) (codes : List Nat) (scale : Nat) (bad : Bool) :
    MemWf (s.engBlock o f l off codes scale bad) := by
  unfold State.engBlock
  grind [MemWf.writeBlock, MemWf.l1StoreAll, MemWf.l1StoreSide, MemWf.dropPoisoned, MemWf.locMark]

theorem CopyPlan.perform_wf {s : State} (h : MemWf s) (p : CopyPlan) (o : EngOp) (src dst : Resolved) (k : CopyChunk) :
    MemWf (p.perform s o src dst k).2 := by
  unfold CopyPlan.perform
  dsimp only
  split
  · dsimp only
    split
    · exact MemWf.foldl (fun t b ht => ht.engBlock ..) _ h
    · exact h
  · dsimp only
    split
    · exact h.engStore ..
    · exact h

theorem MemWf.putSide {s : State} (h : MemWf s) (o : EngOp) (l : Loc) (v : W64) (bad : Bool) :
    MemWf (s.putSide o l v bad) := by
  unfold State.putSide
  grind [MemWf.locSideMark, MemWf.locSetSide, MemWf.dropPoisonedSide, MemWf.l1StoreSide]

theorem MemWf.copySide {s : State} (h : MemWf s) (o : EngOp) (src : Option ELoc) (dst : Option ELoc) :
    MemWf (s.copySide o src dst) := by
  unfold State.copySide
  grind [MemWf.putSide]

theorem CopyPlan.performRaw_wf {s : State} (h : MemWf s) (p : CopyPlan) (o : EngOp) (src : Resolved) (dst : Resolved) (k : CopyChunk) :
    MemWf (CopyPlan.performRaw p s o src dst k).2 := by
  unfold CopyPlan.performRaw
  grind [MemWf.engStore, MemWf.copySide]

theorem MemWf.pieceDone {s : State} (h : MemWf s) (o : EngOp) : MemWf (s.pieceDone o) := h.congr rfl rfl

theorem MemWf.engTouches {s : State} (h : MemWf s) (o : EngOp) (l : List (Int × ELoc)) (n : Nat) :
    MemWf (l.foldl (fun u e => u.engTouch o e.2 n) s) := MemWf.foldl (fun _ _ ht => ht.engTouch ..) l h

theorem MemWf.performPart {s : State} (h : MemWf s) (p : CopyPlan) (o : EngOp) (src dst : Resolved) (k : CopyChunk) :
    MemWf (if p.isRaw then p.performRaw s o src dst k else p.perform s o src dst k).2 := by
  split
  · exact CopyPlan.performRaw_wf h ..
  · exact CopyPlan.perform_wf h ..

theorem MemWf.resolveOld {s : State} (h : MemWf s) (b : Bool) (o : EngOp) (space : Space) (acc : Acc) (mx : Bool) (us : List EUnit) :
    MemWf (if b then s.resolveUnits o space acc mx us else ({}, s)).2 := by
  split
  · exact h.resolveUnits ..
  · exact h

theorem MemWf.copyChunk {s : State} (h : MemWf s) (o : EngOp) : MemWf (s.copyChunk o) := by
  unfold State.copyChunk
  split
  · next x _ =>
    cases copyPlan x o.vals with
    | none => exact h
    | some p =>
      dsimp only
      generalize p.chunk (o.nums.getD 0 0) (o.nums.getD 1 0) = k
      generalize (if x.dmx then 128 else k.n) = dn
      have h1 := h.resolveUnits o x.ssp .engRead x.smx (unitsOf (p.srcEas k).2 (p.srcEas k).1)
      generalize s.resolveUnits o x.ssp .engRead x.smx (unitsOf (p.srcEas k).2 (p.srcEas k).1) = src at h1 ⊢
      have h2 := h1.resolveOld (x.xf == .reduce) o x.dsp .engRead x.dmx (unitsOf dn [k.ea])
      generalize (if x.xf == .reduce then src.2.resolveUnits o x.dsp .engRead x.dmx (unitsOf dn [k.ea]) else ({},
      src.2)) = old at h2 ⊢
      have h3 := h2.resolveUnits o x.dsp .engWrite x.dmx (unitsOf dn [k.ea])
      generalize old.2.resolveUnits o x.dsp .engWrite x.dmx (unitsOf dn [k.ea]) = dst at h3 ⊢
      refine .ite h3 (.ite ((h3.stopAt ..).pieceDone _) ?_)
      have h4 := h3.viewReady o.who (regsOfLocs (src.1.locs ++ dst.1.locs))
      generalize dst.2.viewReady o.who (regsOfLocs (src.1.locs ++ dst.1.locs)) = v at h4 ⊢
      obtain ⟨b, t⟩ := v
      cases b
      · exact h4
      · have ht := (MemWf.engTouches h4 o (src.1.locs ++ old.1.locs) 128).performPart p o src.1 dst.1 k
        dsimp only at ht ⊢
        generalize (if p.isRaw then p.performRaw _ o src.1 dst.1 k else p.perform _ o src.1 dst.1 k) = q at ht ⊢
        exact .ite (ht.pieceDone _) (ht.setEop _)
  · exact h

theorem MemWf.writeSums {s : State} (h : MemWf s) (o : EngOp) (p : CopyPlan) : MemWf (s.writeSums o p).2 := by
  have h1 := fun us => h.resolveUnits o .sp .engWrite false us
  unfold State.writeSums
  dsimp only
  split
  · exact h1 _
  split
  · exact (h1 _).stopAt ..
  · refine MemWf.foldl (fun t e ht => ?_) _ (h1 _)
    split
    · exact ht.engStore ..
    · exact ht

theorem MemWf.copyEnd {s : State} (h : MemWf s) (o : EngOp) : MemWf (s.copyEnd o) := by
  unfold State.copyEnd
  grind [MemWf.endEng, MemWf.writeSums]

end Sys2Proof
end

section
/-! Canonical memories: the engines, the walker, the geometric unit, blocks and collectives. -/

namespace Sys2Proof
open Machine

theorem prefetchBody_wf {s : State} (h : MemWf s) (sa : SOp) (sb : SOp) (stok : Fin 96) (tsp : Bool) (is : Issue) :
    (prefetchBody sa sb stok tsp is s).Wf := by
  unfold prefetchBody
  grind [MemWf.fork, MemWf.tokStart, Act.Wf]

theorem MemWf.installLine {s : State} (h : MemWf s) (o : EngOp) (line : Nat) : MemWf (s.installLine o line).2 := by
  unfold State.installLine
  grind [MemWf.touchLine, MemWf]

theorem MemWf.foldlPair {α β : Type} {f : β × State → α → β × State} (hf : ∀ a x,
    MemWf a.2 → MemWf (f a x).2) (l : List α) {a : β × State}
    (h : MemWf a.2) : MemWf (l.foldl f a).2 := by
  induction l generalizing a with
  | nil => exact h
  | cons x l ih => exact ih (hf a x h)

theorem MemWf.prefetchPage {s : State} (h : MemWf s) (o : EngOp) : MemWf (s.prefetchPage o).2.2 := by
  unfold State.prefetchPage
  dsimp only
  generalize (o.vals.getD 0 0).toNat + o.pos = va
  generalize min (s.pageEnd o.ctx va) ((o.vals.getD 0 0).toNat + (o.vals.getD 1 0).toNat) - va = n
  have ha := h.ask o.ctx va .prefetch o.core o.who o.id va 0 n
  split
  · next heq => exact MemWf.snd heq ha
  · next heq => exact (MemWf.snd heq ha).logViol ..
  · next heq =>
    have ht := MemWf.snd heq ha
    split
    · exact ht
    split
    · exact ht
    · exact MemWf.foldlPair (f := fun a l => ((a.1 || (a.2.installLine o l).1), (a.2.installLine o l).2))
        (fun a l hl => hl.installLine ..) _ (a := (false, _)) ht

theorem MemWf.prefetchPages {s : State} (h : MemWf s) (o : EngOp) (n : Nat) : MemWf (s.prefetchPages o n).2 := by
  induction n generalizing s o with
  | zero => exact h
  | succ n ih =>
    have hp := h.prefetchPage o
    unfold State.prefetchPages
    split
    · exact h
    split
    · next heq => rw [heq] at hp; exact hp
    · next heq => rw [heq] at hp; exact ih hp _

theorem MemWf.prefetchStep {s : State} (h : MemWf s) (o : EngOp) : MemWf (s.prefetchStep o) := by
  unfold State.prefetchStep
  grind [MemWf.prefetchPages, MemWf.endEng, MemWf.setEop]

theorem MemWf.incFlags {s : State} (h : MemWf s) (l : List (Nat × Nat)) :
    MemWf (l.foldl (fun t f => t.incFlag f.1 (some f.2)) s) :=
  MemWf.foldl (fun _ _ ht => ht.incFlag ..) l h

theorem MemWf.endQuorumWaits {s : State} (h : MemWf s) (ws : List Nat) : MemWf (ws.foldl (fun t w =>
      ((t.ctl w).waits.filter (fun x => isQuorum x.kind)).foldl (fun t x =>
        (t.modCtl w (fun c => { c with quorumIssue := none, quorumFlag := none })).endWait w x.lane 2) t) s) :=
  MemWf.foldl (fun _ _ ht => MemWf.foldl (fun _ _ hu => (hu.modCtl _ _).endWait ..) _ ht) _ h

theorem MemWf.quorumStart {s : State} (h : MemWf s) (ws : List Nat) : MemWf (s.quorumStart ws) := by
  unfold State.quorumStart
  refine MemWf.endQuorumWaits (.ite (MemWf.modCluster ?_ _ _) ?_) _
  all_goals exact (MemWf.incFlags (h.newId.setEop _) _).modCore _ _

theorem MemWf.quorumCheck {s : State} (h : MemWf s) (who : Nat) : MemWf (s.quorumCheck who) := by
  unfold State.quorumCheck
  grind [MemWf.mismatchSeats, MemWf.quorumStart]

theorem quorumBody_wf {s : State} (h : MemWf s) (own : Issue → State → List W64 → Option (Cause × Info)) (is : Issue) :
    (quorumBody own is s).Wf := by
  unfold quorumBody
  grind [MemWf.modCtl, MemWf.beginWait, MemWf.quorumCheck, MemWf.breakQuorum, Act.Wf]

theorem MemWf.readOperands {s : State} (h : MemWf s) (o : EngOp) (gs : List Ranges) : MemWf (s.readOperands o gs).2 := by
  induction gs generalizing s with
  | nil => exact h
  | cons g gs ih =>
    have h1 := h.resolveUnits o g.space .operand g.mx (rangeUnits g.rs)
    exact ih (.ite h1 (h1.engTouches o _ 128))

theorem MemWf.logOperand {s : State} (h : MemWf s) (o : EngOp) (vs : List (Space × Acc × VClass × Int)) (eng : Bool) :
    MemWf (s.logOperand o vs eng) := by
  unfold State.logOperand
  grind [MemWf.logViol]

theorem MemWf.logOperr {s : State} (h : MemWf s) (o : EngOp) (a : Nat) : MemWf (s.logOperr o a) := by
  unfold State.logOperr
  grind [MemWf.postErr]

theorem MemWf.noteErrors {s : State} (h : MemWf s) (o : EngOp) (q : Operands) : MemWf (s.noteErrors o q) := by
  unfold State.noteErrors
  grind [MemWf.logOperand, MemWf.logOperr]

theorem MemWf.raiseMtxerr {s : State} (h : MemWf s) (o : EngOp) : MemWf (s.raiseMtxerr o) :=
  MemWf.foldl (fun _ _ ht => ht.modCtl _ _) _ h

theorem MemWf.putTile {s : State} (h : MemWf s) (o : EngOp) (T : Nat) (es : List Nat) : MemWf (s.putTile o T es) := by
  unfold State.putTile
  grind [MemWf.locWrite]

theorem MemWf.scatter {s : State} (h : MemWf s) (o : EngOp) (space : Space) (ws : List (Nat × List Byte)) :
    MemWf (s.scatter o space ws).2 := by
  have h1 := h.resolveUnits o space .engWrite false (rangeUnits (ws.map (fun w => (w.1, w.2.length))))
  unfold State.scatter
  dsimp only
  split
  · exact h1
  · refine MemWf.foldl (fun t w ht => MemWf.foldl (fun t i hi => ?_) _ ht) _ h1
    split
    · exact hi.engStore ..
    · exact hi

theorem MemWf.reportAbft {s : State} (h : MemWf s) (o : EngOp) (x : MmaArgs) (m : Option (Bool × Nat)) :
    MemWf (s.reportAbft o x m) := by
  unfold State.reportAbft
  split
  · exact h
  · exact .ite (h.postErr ..) (MemWf.foldl (fun _ _ ht => ht.modCtl _ _) _ (h.postErr ..))

theorem MemWf.endMatrix {s : State} (h : MemWf s) (o : EngOp) (err : Bool) : MemWf (s.endMatrix o err) := by
  unfold State.endMatrix
  grind [MemWf.modCore, MemWf.raiseMtxerr, MemWf.endEng]

theorem MemWf.runMma {s : State} (h : MemWf s) (o : EngOp) (x : MmaArgs) : MemWf (s.runMma o x) := by
  unfold State.runMma
  dsimp only
  generalize eq : s.readOperands o _ = q
  have h1 : MemWf q.2 := eq ▸ h.readOperands ..
  refine .ite h1 ?_
  generalize (if (!x.zc && _) = true then _ else q.1 : Operands) = p
  refine .ite (((h1.noteErrors o p).putTile ..).endMatrix ..) ?_
  exact ((h1.putTile ..).reportAbft ..).endMatrix ..

theorem MemWf.logBad {s : State} (h : MemWf s) (b : Bool) (o : EngOp) (vs : List (Space × Acc × VClass × Int)) (e : Bool) :
    MemWf (if b then s else s.logOperand o vs e) := .ite h (h.logOperand ..)

theorem MemWf.runCompress {s : State} (h : MemWf s) (o : EngOp) (f : NFC) : MemWf (s.runCompress o f) := by
  unfold State.runCompress
  dsimp only
  generalize eq : s.readOperands o _ = q
  have h1 : MemWf q.2 := eq ▸ h.readOperands ..
  refine .ite h1 ?_
  generalize er : q.2.scatter o _ _ = r
  have h2 : MemWf r.2 := er ▸ h1.scatter ..
  exact .ite h2 (((h2.noteErrors o q.1).logBad ..).endMatrix ..)

theorem MemWf.runAccz {s : State} (h : MemWf s) (o : EngOp) (toff : BitVec 11) (nsel : Fin 4) :
    MemWf (s.runAccz o toff nsel) := by
  unfold State.runAccz
  grind [MemWf.endMatrix, MemWf.putTile]

theorem MemWf.logOperrIf {s : State} (h : MemWf s) (b : Bool) (o : EngOp) (n : Nat) : MemWf (if b then s.logOperr o n else s) :=
  .ite (h.logOperr ..) h

theorem MemWf.runAccmvOut {s : State} (h : MemWf s) (o : EngOp) (toff : BitVec 11) (nsel : Fin 4) (df : NFC) :
    MemWf (s.runAccmvOut o toff nsel df) := by
  unfold State.runAccmvOut
  dsimp only
  generalize s.locPoison _ _ = bad
  generalize er : s.scatter o _ _ = r
  have h2 : MemWf r.2 := er ▸ h.scatter ..
  exact .ite h2 (((h2.logOperrIf ..).logBad ..).endMatrix ..)

theorem MemWf.runAccmvIn {s : State} (h : MemWf s) (o : EngOp) (toff : BitVec 11) (nsel : Fin 4) :
    MemWf (s.runAccmvIn o toff nsel) := by
  unfold State.runAccmvIn
  grind [MemWf.readOperands, MemWf.endMatrix, MemWf.putTile, MemWf.noteErrors]

theorem MemWf.runMatrix {s : State} (h : MemWf s) (o : EngOp) : MemWf (s.runMatrix o) := by
  unfold State.runMatrix
  grind [MemWf.runMma, MemWf.runCompress, MemWf.runAccz, MemWf.runAccmvOut, MemWf.runAccmvIn]

theorem MemWf.emulFails {s : State} (h : MemWf s) (o : EngOp) : MemWf (s.emulFails o) := by
  unfold State.emulFails
  grind [MemWf.endMatrix, MemWf.putTile, MemWf.dropAsks]

theorem MemWf.quorumChecks {s : State} (h : MemWf s) (l : List (Nat × WarpCtl)) :
    MemWf (l.foldl (fun v e => v.quorumCheck e.1) s) :=
  MemWf.foldl (fun _ _ ht => ht.quorumCheck _) l h

theorem MemWf.emulStep {s : State} (h : MemWf s) (cl : Nat) : MemWf (s.emulStep cl) := by
  unfold State.emulStep
  split
  · exact h
  · split
    · exact h.modCluster _ _
    · next o _ =>
      have ht : MemWf (if !s.matrixReady o then s else match s.firmwareTraps cl with
        | some u => u.emulFails o
        | none => s.runMatrix o) := by
        refine .ite h ?_
        split
        · next u hu => exact (h.firmwareTraps cl u hu).emulFails o
        · exact h.runMatrix o
      exact .ite ht ((ht.modCluster _ _).quorumChecks _)

theorem MemWf.kvRead {s : State} (h : MemWf s) (o : EngOp) (va : Nat) (n : Nat) : MemWf (s.kvRead o va n).2 := by
  unfold State.kvRead
  grind [MemWf.askSpan, MemWf.touchParts]

theorem MemWf.kvSpan {s : State} (h : MemWf s) (o : EngOp) (va : Nat) (n : Nat) (acc : Acc) :
    MemWf (s.kvSpan o va n acc).2 := by
  unfold State.kvSpan
  grind [MemWf.askSpan]

theorem MemWf.kvPut {s : State} (h : MemWf s) (o : EngOp) (ps : List (Nat × Nat × Nat)) (bs : List Byte) :
    MemWf (s.kvPut o ps bs) :=
  MemWf.foldl (fun _ _ ht => ht.engWrite ..) _ h

theorem MemWf.kvClimb {s : State} (h : MemWf s) (o : EngOp) (pos fuel va : Nat) : MemWf (s.kvClimb o pos fuel va).2 := by
  induction fuel generalizing s va with
  | zero => exact h
  | succ n ih =>
    have hr := h.kvRead o va 64
    unfold State.kvClimb
    split <;> next heq => have ht := MemWf.snd heq hr; grind

theorem MemWf.kvResolve {s : State} (h : MemWf s) (o : EngOp) (r : KvRec) (pos : Nat) (limit : Nat) :
    MemWf (s.kvResolve o r pos limit).2 := by
  unfold State.kvResolve
  grind [MemWf.kvClimb, MemWf.kvRead]

theorem MemWf.kvEst {s : State} (h : MemWf s) (o : EngOp) (rec_ : Nat) (k : Nat) : MemWf (s.kvEst o rec_ k).2 := by
  unfold State.kvEst
  grind [MemWf.kvSpan, MemWf.touchParts, MemWf.kvPut]

theorem MemWf.kvEnd {s : State} (h : MemWf s) (o : EngOp) : MemWf (s.kvEnd o) := by
  unfold State.kvEnd
  grind [MemWf.endEng]

theorem MemWf.kvViol {s : State} (h : MemWf s) (o : EngOp) (spc : Nat) (c : VClass) (va : Nat) :
    MemWf (s.kvViol o spc c va) := by
  unfold State.kvViol
  grind [MemWf.kvEnd, MemWf.logViol]

theorem MemWf.kvDmg {s : State} (h : MemWf s) (o : EngOp) (va : Nat) : MemWf (s.kvDmg o va) := by
  unfold State.kvDmg
  grind [MemWf.kvEnd, MemWf.logOperr]

theorem MemWf.kvStop {s : State} (h : MemWf s) (o : EngOp) (rec_ : Nat) (k : Nat) : MemWf (s.kvStop o rec_ k) := by
  unfold State.kvStop
  grind [MemWf.kvEst, MemWf.setEop, MemWf.kvViol, MemWf.kvDmg, MemWf.kvEnd]

theorem MemWf.kvRecord {s : State} (h : MemWf s) (o : EngOp) (rec_ : Nat) : MemWf (s.kvRecord o rec_).2 := by
  unfold State.kvRecord
  grind [MemWf.kvRead]

theorem kvStart_wf {s : State} (h : MemWf s) (is : Issue) (vals : List W64) (tok : Option (Nat × Bool)) (rel : Bool) :
    (kvStart is s vals tok rel).Wf := by
  unfold kvStart
  grind [MemWf.fork, MemWf.tokStart, Act.Wf]

theorem kvwalkBody_wf {s : State} (h : MemWf s) (x : KvWalkArgs) (is : Issue) : (kvwalkBody x is s).Wf := by
  unfold kvwalkBody
  grind [kvStart_wf, Act.Wf]

theorem kvappendBody_wf {s : State} (h : MemWf s) (x : KvAppendArgs) (is : Issue) : (kvappendBody x is s).Wf := by
  unfold kvappendBody
  grind [kvStart_wf, Act.Wf]

theorem kvcommitBody_wf {s : State} (h : MemWf s) (x : KvCommitArgs) (is : Issue) : (kvcommitBody x is s).Wf := by
  unfold kvcommitBody
  grind [kvStart_wf, Act.Wf]

theorem MemWf.kvLimit {s : State} (h : MemWf s) (o : EngOp) (r : KvRec) (unc : Bool) : MemWf (s.kvLimit o r unc).2 := by
  unfold State.kvLimit
  grind [MemWf.kvRead]

theorem MemWf.kvEntryAt {s : State} (h : MemWf s) (o : EngOp) (x : KvWalkArgs) (addr : Nat) :
    MemWf (s.kvEntryAt o x addr).2 := by
  unfold State.kvEntryAt
  grind [MemWf.engAt]

theorem MemWf.kvWalkLoop {s : State} (h : MemWf s) (o : EngOp) (x : KvWalkArgs) (r : KvRec) (limit n : Nat) :
    MemWf (s.kvWalkLoop o x r limit n) := by
  induction n generalizing s o with
  | zero => exact h.kvEnd o
  | succ n ih =>
    have hr := h.kvResolve o r ((o.vals.getD 1 0).toNat + o.pos) limit
    unfold State.kvWalkLoop
    dsimp only
    split
    · next heq => exact (MemWf.snd heq hr).setEop _
    · next heq => exact (MemWf.snd heq hr).kvViol ..
    · next heq => exact (MemWf.snd heq hr).kvDmg ..
    · next w t heq =>
      have he := (MemWf.snd heq hr).kvEntryAt o x ((o.vals.getD 2 0).toNat + 8 * o.pos)
      split
      · next heq => exact (MemWf.snd heq he).setEop _
      · next heq => exact (MemWf.snd heq he).kvViol ..
      · next heq => exact (MemWf.snd heq he).kvDmg ..
      · next l t1 heq =>
        have h1 := MemWf.snd heq he
        have key : ∀ (e : KvGot Unit × State) (b : Bool) (v : Nat), MemWf e.2 → MemWf (match e.1 with
            | .wait => e.2.setEop o
            | .viol c v => e.2.kvViol o 0 c v
            | .dmg v => e.2.kvDmg o v
            | .ok _ =>
              (e.2.engStore o l (toLe 8 v) []).kvWalkLoop { o with err := o.err || b, pos := o.pos + 1 } x r limit n) := by
          rintro ⟨g, t2⟩ b v h2
          cases g with
          | wait => exact h2.setEop _
          | viol c v => exact h2.kvViol ..
          | dmg v => exact h2.kvDmg ..
          | ok _ => exact ih (h2.engStore ..) _
        cases w with
        | none => exact key (.ok (), t1) _ _ h1
        | page p k q => exact key (.ok (), t1) _ _ h1
        | form => exact key _ _ _ (h1.kvEst ..)
        | range => exact key _ _ _ (h1.kvEst ..)

theorem MemWf.kvwalkStep {s : State} (h : MemWf s) (o : EngOp) (x : KvWalkArgs) : MemWf (s.kvwalkStep o x) := by
  unfold State.kvwalkStep
  grind [MemWf.kvRecord, MemWf.setEop, MemWf.kvViol, MemWf.kvDmg, MemWf.kvLimit, MemWf.kvWalkLoop]

theorem MemWf.storeAt {s : State} (h : MemWf s) (o : EngOp) (l : Option ELoc) (bs : List Byte) (bad : List Bool) :
    MemWf (match l with | some l => s.engStore o l bs bad | none => s) := by
  cases l with
  | none => exact h
  | some l => exact h.engStore ..

theorem MemWf.kvMove {s : State} (h : MemWf s) (o : EngOp) (src : Resolved) (sa : Nat) (dst : Resolved) (da n : Nat) :
    MemWf (s.kvMove o src sa dst da n).2 := by
  unfold State.kvMove
  refine MemWf.foldlPair (fun a u ha => ?_) _ h
  exact .ite (MemWf.copySide (ha.storeAt ..) ..) (ha.storeAt ..)

theorem MemWf.kvLockSpan {s : State} (h : MemWf s) (o : EngOp) (leaf : Nat) : MemWf (s.kvLockSpan o leaf).2 := by
  unfold State.kvLockSpan
  grind [MemWf.kvSpan]

theorem MemWf.kvLocked {s : State} (h : MemWf s) (o : EngOp) (leaf : Nat) : MemWf (s.kvLocked o leaf) := by
  unfold State.kvLocked
  grind [MemWf.kvLockSpan, MemWf.touchParts, MemWf.kvPut]

theorem MemWf.kvPick {s : State} (h : MemWf s) (o : EngOp) (r : KvRec) (n : KvNode) (pos : Nat) :
    MemWf (s.kvPick o r n pos).2 := by
  unfold State.kvPick
  grind [MemWf.kvLockSpan, MemWf.kvRead]

theorem MemWf.kvFind {s : State} (h : MemWf s) (o : EngOp) (r : KvRec) (pos : Nat) : MemWf (s.kvFind o r pos).2 := by
  unfold State.kvFind
  grind [MemWf.kvRead, MemWf.kvResolve, MemWf.kvPick]

theorem MemWf.kvTake {s : State} (h : MemWf s) (o : EngOp) (leaf : Nat) (p : KvSpot) : MemWf (s.kvTake o leaf p).2 := by
  unfold State.kvTake
  grind [MemWf.kvSpan, MemWf.kvPut, MemWf.kvLocked]

theorem MemWf.kvLockedIf {s : State} (h : MemWf s) (o : EngOp) (leaf k : Nat) :
    MemWf (if k = estPool then s.kvLocked o leaf else s) :=
  .ite (h.kvLocked ..) h

theorem MemWf.kvToken {s : State} (h : MemWf s) (o : EngOp) (x : KvAppendArgs) (r : KvRec) (t n : Nat) :
    MemWf (s.kvToken o x r t n).2.2 := by
  have hf := h.kvFind o r (r.len + (o.vals.getD 1 0).toNat + t)
  unfold State.kvToken
  dsimp only
  split
  · next heq => exact (MemWf.snd heq hf).setEop _
  · next heq => exact (MemWf.snd heq hf).kvViol ..
  · next heq => exact (MemWf.snd heq hf).kvDmg ..
  · next heq => exact (MemWf.snd heq hf).setEop _
  · next heq => exact ((MemWf.snd heq hf).kvLockedIf ..).kvStop ..
  · next p s1 heq =>
    generalize (if x.ssp then Space.g else .sp) = space
    generalize esrc : s1.resolveUnits o space .operand false _ = src
    have h2 : MemWf src.2 := esrc ▸ (MemWf.snd heq hf).resolveUnits ..
    generalize edst : src.2.resolveUnits o .g .engWrite false _ = dst
    have h3 : MemWf dst.2 := edst ▸ h2.resolveUnits ..
    split
    · exact h3.setEop _
    split
    · exact (h3.logOperand ..).kvEnd _
    have h4 := h3.kvTake o r.leaf p
    split
    · next heq => exact (MemWf.snd heq h4).setEop _
    · next heq => exact (MemWf.snd heq h4).kvViol ..
    · next heq => exact (MemWf.snd heq h4).kvDmg ..
    · next heq => exact (((MemWf.snd heq h4).engTouches o _ 128).kvMove ..).kvMove ..

theorem MemWf.kvAppendLoop {s : State} (h : MemWf s) (o : EngOp) (x : KvAppendArgs) (r : KvRec) (n k : Nat) :
    MemWf (s.kvAppendLoop o x r n k) := by
  induction k generalizing s o with
  | zero => exact h.kvEnd o
  | succ k ih =>
    have ht := h.kvToken o x r o.pos n
    unfold State.kvAppendLoop
    split
    · next heq => rw [heq] at ht; exact ht
    · next heq => rw [heq] at ht; exact ih ht _

theorem MemWf.kvappendStep {s : State} (h : MemWf s) (o : EngOp) (x : KvAppendArgs) : MemWf (s.kvappendStep o x) := by
  unfold State.kvappendStep
  grind [MemWf.kvRecord, MemWf.setEop, MemWf.kvViol, MemWf.kvDmg, MemWf.kvStop, MemWf.kvAppendLoop]

theorem MemWf.kvPages {s : State} (h : MemWf s) (o : EngOp) (n : KvNode) (k : Nat) : MemWf (s.kvPages o n k).2 := by
  induction k generalizing s with
  | zero => exact h
  | succ k ih =>
    have hr := h.kvRead o (n.plist + 8 * k) 8
    unfold State.kvPages
    split <;> next heq => have ht := MemWf.snd heq hr; grind

theorem MemWf.kvCommitCheck {s : State} (h : MemWf s) (o : EngOp) (r : KvRec) (len : Nat) :
    MemWf (s.kvCommitCheck o r len).2 := by
  unfold State.kvCommitCheck
  grind [MemWf.kvRead, MemWf.kvPages]

theorem MemWf.kvcommitStep {s : State} (h : MemWf s) (o : EngOp) : MemWf (s.kvcommitStep o) := by
  unfold State.kvcommitStep
  grind [MemWf.kvRecord, MemWf.setEop, MemWf.kvViol, MemWf.kvDmg, MemWf.kvCommitCheck, MemWf.kvStop, MemWf.kvSpan, MemWf.kvEnd,
      MemWf.kvPut]

theorem MemWf.kvStep {s : State} (h : MemWf s) (o : EngOp) : MemWf (s.kvStep o) := by
  unfold State.kvStep
  grind [MemWf.endEng, MemWf.kvwalkStep, MemWf.kvappendStep]

theorem MemWf.seqKeys {s : State} (h : MemWf s) (o : EngOp) (r : KvRec) (hd p n : Nat) : MemWf (s.seqKeys o r hd p n).2 := by
  induction n generalizing s p with
  | zero => exact h
  | succ n ih =>
    have hr := h.kvResolve o r p r.len
    unfold State.seqKeys
    split
    · next heq => exact MemWf.snd heq hr
    · next heq => exact MemWf.snd heq hr
    · next heq => exact MemWf.snd heq hr
    · next heq => exact MemWf.snd heq hr
    · next heq => exact MemWf.snd heq hr
    · next heq => exact MemWf.snd heq hr
    · next heq =>
      have hu := ih (MemWf.snd heq hr) (p + 1)
      split
      · next heq => exact (MemWf.snd heq hu :)
      · exact hu

theorem MemWf.seqRead {s : State} (h : MemWf s) (o : EngOp) (x : AttnArgs) (d : AttnDesc) :
    MemWf (s.seqRead o x d).2.2 := by
  unfold State.seqRead
  grind [MemWf.kvRecord, MemWf.flash, MemWf.seqKeys]

theorem MemWf.setFresh {s : State} (h : MemWf s) {n : Nat} : MemWf { s with fresh := n } := h.congr rfl rfl

theorem MemWf.attnRun {s : State} (h : MemWf s) (o : EngOp) (x : AttnArgs) (d : AttnDesc) (keys : List KeyAt) :
    MemWf (s.attnRun o x d keys) := by
  unfold State.attnRun
  extract_lets H D qm kspace vspace qr
  generalize eq : s.readOperands o _ = q
  have h1 : MemWf q.2 := eq ▸ h.readOperands ..
  obtain ⟨q, s1⟩ := q
  refine .ite (h1.setEop _) (.ite (h1.endMatrix ..) ?_)
  extract_lets stBad p
  refine .ite (((h1.noteErrors o p).putTile ..).endMatrix ..) ?_
  extract_lets
  exact ((h1.setFresh.putTile ..).putTile ..).endMatrix ..

theorem MemWf.seqError {s : State} (h : MemWf s) (o : EngOp) (x : AttnArgs) (d : AttnDesc) :
    MemWf (s.seqError o x d) := by
  unfold State.seqError
  grind [MemWf.endMatrix, MemWf.putTile]

theorem MemWf.runAttn {s : State} (h : MemWf s) (o : EngOp) (x : AttnArgs) : MemWf (s.runAttn o x) := by
  unfold State.runAttn
  grind [MemWf.attnRun, MemWf.seqRead, MemWf.setEop, MemWf.seqError, MemWf.logOperand, MemWf.logOperr, MemWf.kvEst]

theorem geoBody_wf {s : State} (h : MemWf s) (x : GeoArgs) (is : Issue) : (geoBody x is s).Wf := by
  unfold geoBody
  grind [MemWf.fork, MemWf.modCore, MemWf.setEop, MemWf.addFlags, Act.Wf]

theorem MemWf.takeExact {s : State} (h : MemWf s) (core : Nat) : MemWf (s.takeExact core) := h.congr rfl rfl

theorem MemWf.geoStageA {s : State} (h : MemWf s) (core : Nat) : MemWf (s.geoStageA core) := by
  unfold State.geoStageA
  grind [MemWf.modCore, MemWf.takeExact, MemWf.setEop]

theorem MemWf.leaveGeo {s : State} (h : MemWf s) (who : Nat) : MemWf (s.leaveGeo who) := by
  unfold State.leaveGeo
  grind [MemWf.geoStageA, MemWf.modCore]

theorem MemWf.returnGeo {s : State} (h : MemWf s) (who : Nat) : MemWf (s.returnGeo who) :=
  (MemWf.foldl (fun _ _ ht => ht.setEop _) _ h).modCore _ _

theorem MemWf.writeGeoSlots {s : State} (h : MemWf s) (who : Nat) : MemWf (s.writeGeoSlots who) := by
  unfold State.writeGeoSlots
  refine MemWf.foldl (fun t k ht => ?_) _ h
  split
  · exact MemWf.foldl (fun _ _ hu => hu.saveWrite ..) _ ht
  · exact ht.saveWrite ..

theorem MemWf.refillGeo {s : State} (h : MemWf s) (who : Nat) : MemWf (s.refillGeo who) := by
  unfold State.refillGeo
  refine MemWf.foldl (fun t e ht => ?_) _ h
  dsimp only
  have hr := fun va n => ht.readSaved who va n
  split
  · next heq => exact (MemWf.snd heq (hr _ _)).setEop _
  · next heq => exact (MemWf.snd heq (hr _ _))

theorem MemWf.putPred {s : State} (h : MemWf s) (o : EngOp) (pd : Nat) : MemWf (s.putPred o pd) :=
  .ite (MemWf.foldl (fun _ _ ht => ht.putSaveBit ..) _ h) (h.modWarp _ _)

theorem MemWf.geoReady {s : State} (h : MemWf s) (o : EngOp) (pd : Nat) : MemWf (s.geoReady o pd).2 := by
  unfold State.geoReady
  grind [MemWf.wantBlocks, MemWf.longReady, MemWf.saveAllReady]

theorem MemWf.geoEnd {s : State} (h : MemWf s) (o : EngOp) (x : GeoArgs) : MemWf (s.geoEnd o x) := by
  have hr := h.geoReady o x.pd.val
  unfold State.geoEnd
  split
  · exact h
  split
  · next heq => exact MemWf.snd heq hr
  · next t heq =>
    have h1 : MemWf ((lanesOf o.mask).foldl (fun u L =>
        let r := (mgetD o.dst L []).headD 0
        if o.outdone.contains (128 * r + L) then u
        else u.putLong o.who r L o.handler (BitVec.ofNat 32 (mgetD o.res L 0)) (BitVec.allOnes 32) false) t) :=
      MemWf.foldl (fun _ _ ht => .ite ht (ht.putLong ..)) _ (MemWf.snd heq hr)
    exact (MemWf.ite h1 (h1.putPred ..)).endEng _

theorem MemWf.csrTouch {s : State} (h : MemWf s) (is : Issue) (num : Nat) : MemWf (s.csrTouch is num) := by
  unfold State.csrTouch
  grind [MemWf.noteRegion]

theorem csrrBody_wf {s : State} (h : MemWf s) (sd : Fin 96) (num : BitVec 12) (is : Issue) : (csrrBody sd num is s).Wf := by
  unfold csrrBody
  grind [MemWf.csrTouch, MemWf.writeS, MemWf.freeWord, Act.Wf]

theorem MemWf.csrWrite {s : State} (h : MemWf s) (who : Nat) (num : Nat) (v : W64) : MemWf (s.csrWrite who num v) := by
  unfold State.csrWrite
  grind [MemWf.modWarp, MemWf.modCluster, MemWf.clusterRegWrite, MemWf.modCtl]

theorem csrwBody_wf {s : State} (h : MemWf s) (ss : SOp) (num : BitVec 12) (is : Issue) : (csrwBody ss num is s).Wf := by
  unfold csrwBody
  grind [MemWf.csrWrite, Act.Wf]

theorem featqBody_wf {s : State} (h : MemWf s) (sd : Fin 96) (f : FeatWord) (is : Issue) : (featqBody sd f is s).Wf := by
  unfold featqBody
  grind [MemWf.writeS, Act.Wf]

theorem tlbinvStart_wf {s : State} (h : MemWf s) (kind : Nat) (va : Nat) (pages : Nat) (is : Issue) :
    (tlbinvStart kind va pages is s).Wf := by
  unfold tlbinvStart
  grind [MemWf.startInval, MemWf.beginWait, Act.Wf]

theorem tlbinvPageBody_wf {s : State} (h : MemWf s) (sa : SOp) (sb : SOp) (is : Issue) : (tlbinvPageBody sa sb is s).Wf := by
  unfold tlbinvPageBody
  grind [MemWf.noteVa, tlbinvStart_wf, Act.Wf]

theorem launchBody_wf {s : State} (h : MemWf s) (sa : SOp) (sb : SOp) (cfirst : BitVec 5) (ccnt : BitVec 6) (is : Issue) :
    (launchBody sa sb cfirst ccnt is s).Wf := by
  unfold launchBody
  grind [MemWf.fork, MemWf.setEop, Act.Wf]

theorem MemWf.launchStatus {s : State} (h : MemWf s) (o : EngOp) (v : Nat) : MemWf (s.launchStatus o v).2 := by
  unfold State.launchStatus
  grind [MemWf.ask, MemWf.physWrite, MemWf.dropAsks, MemWf.logViol]

theorem MemWf.launchAnswer {s : State} (h : MemWf s) (o : EngOp) : MemWf (s.launchAnswer o) := by
  unfold State.launchAnswer
  grind [MemWf.launchStatus, MemWf.setEop, MemWf.endEng]

theorem MemWf.launchGot {s : State} (h : MemWf s) (o : EngOp) (err : Nat) (ws : List W64) :
    MemWf (s.launchGot o err ws) := by
  unfold State.launchGot
  grind [MemWf.launchAnswer]

theorem MemWf.launchRead {s : State} (h : MemWf s) (o : EngOp) : MemWf (s.launchRead o) := by
  unfold State.launchRead
  grind [MemWf.launchAnswer, MemWf.ask, MemWf.launchGot, MemWf.logViol, MemWf.locTouch]

theorem MemWf.launchAccept {s : State} (h : MemWf s) (o : EngOp) : MemWf (s.launchAccept o) := by
  unfold State.launchAccept
  dsimp only
  grind [MemWf.noteDescr, MemWf.newId, MemWf.setEop, MemWf.setGrid, MemWf.congr]

theorem MemWf.retireGrid {s : State} (h : MemWf s) (g : Grid) : MemWf (s.retireGrid g) := by
  unfold State.retireGrid
  grind [MemWf.setGrid, MemWf.launchStatus, MemWf.endEng, MemWf]

theorem waitsemBody_wf {s : State} (h : MemWf s) (c : SemCmp) (sa : SOp) (sb : SOp) (is : Issue) :
    (waitsemBody c sa sb is s).Wf := by
  unfold waitsemBody
  grind [MemWf.modCtl, MemWf.beginWait, Act.Wf]

theorem MemWf.semRead {s : State} (h : MemWf s) (who : Nat) (x : Waiting) (c : SemCmp) (addr : Nat) (v : W64) :
    MemWf (s.semRead who x c addr v) := by
  unfold State.semRead
  grind [MemWf.ask, MemWf.waitTrap, MemWf.logViol, MemWf.dropAsks, MemWf.locTouch, MemWf.modStream, MemWf.endWait]

theorem MemWf.semPoll {s : State} (h : MemWf s) (who : Nat) : MemWf (s.semPoll who) := by
  unfold State.semPoll
  refine MemWf.foldl (fun t x ht => ?_) _ h
  split
  · exact ht.semRead ..
  · exact ht

theorem signalsemBody_wf {s : State} (h : MemWf s) (add : Bool) (sa : SOp) (sb : SOp) (is : Issue) :
    (signalsemBody add sa sb is s).Wf := by
  unfold signalsemBody
  grind [MemWf.ask, MemWf.logViol, MemWf.dropAsks, MemWf.locTouch, MemWf.physWrite, Act.Wf]

theorem MemWf.noteFull {s : State} (h : MemWf s) (j : Nat) : MemWf (s.noteFull j) := by
  unfold State.noteFull
  grind [MemWf.modStream]

theorem eventBody_wf {s : State} (h : MemWf s) (irq : Bool) (sa : SOp) (sb : SOp) (is : Issue) :
    (eventBody irq sa sb is s).Wf := by
  unfold eventBody
  grind [MemWf.noteFull, MemWf.beginWait, MemWf.putRecord, Act.Wf]

theorem MemWf.postHeld {s : State} (h : MemWf s) (j : Nat) : MemWf (s.postHeld j) := by
  unfold State.postHeld
  grind [MemWf.noteFull, MemWf.putRecord, MemWf.setStream, MemWf.modStream, MemWf.endWait]

theorem MemWf.endRgrow {s : State} (h : MemWf s) (who : Nat) : MemWf (s.endRgrow who) :=
  MemWf.foldl (fun _ _ ht => ht.endWait ..) _ h

theorem MemWf.grantBlocks {s : State} (h : MemWf s) (core : Nat) : MemWf (s.grantBlocks core) := by
  unfold State.grantBlocks
  grind [MemWf.endRgrow, MemWf.modWarp, MemWf.giveBlocks]

theorem MemWf.releaseBlocks {s : State} (h : MemWf s) (who : Nat) (base : Nat) (handler : Bool) :
    MemWf (s.releaseBlocks who base handler) := by
  unfold State.releaseBlocks
  grind [MemWf.settleReserve, MemWf.modCore, MemWf.modCtl, MemWf.modWarp]

theorem MemWf.spillWarp {s : State} (h : MemWf s) (who : Nat) : MemWf (s.spillWarp who) := by
  rw [State.spillWarp]
  refine .ite h ?_
  have hr := h.saveAllReady who .store [(s.tsave who + 0x21000, 0x1400), (s.tsave who + 0x40000, 0x40000)]
  generalize s.saveAllReady who .store [(s.tsave who + 0x21000, 0x1400), (s.tsave who + 0x40000, 0x40000)] = r at hr ⊢
  obtain ⟨b, t⟩ := r
  cases b with
  | false => exact hr
  | true =>
    exact (((((((hr.leaveGeo who).saveWrite ..).writeGeoSlots who).dropAsks ..).releaseBlocks ..).modCtl ..).takeExact _).record ..

theorem MemWf.reserveGrant {s : State} (h : MemWf s) (core : Nat) (who : Nat) (n : Nat) :
    MemWf (s.reserveGrant core who n) := by
  unfold State.reserveGrant
  grind [MemWf.giveReserve, MemWf.giveBlocks, MemWf.modWarp, MemWf.modCore, MemWf.record, MemWf.endRgrow]

theorem MemWf.spillVictimOf {s : State} (h : MemWf s) (v : Option Nat) : MemWf (v.elim s s.spillWarp) := by
  cases v with
  | none => exact h
  | some w => exact h.spillWarp w

theorem MemWf.resolveDeadlock {s : State} (h : MemWf s) (core : Nat) : MemWf (s.resolveDeadlock core) := by
  unfold State.resolveDeadlock
  dsimp only
  refine .ite h ?_
  split
  · exact .ite (h.reserveGrant ..) (h.spillVictimOf _)
  · exact h.spillVictimOf _

theorem MemWf.giveAbsent {s : State} (h : MemWf s) (who : Nat) (bs : List Nat) : MemWf (s.giveAbsent who bs) := by
  unfold State.giveAbsent
  grind [MemWf.modCtl, MemWf.modWarp, MemWf.giveBlocks]

theorem MemWf.readmit {s : State} (h : MemWf s) (core : Nat) : MemWf (s.readmit core) := by
  unfold State.readmit
  grind [MemWf.giveBlocks, MemWf.giveAbsent, MemWf.modCtl, MemWf.modWarp, MemWf.endRgrow, MemWf.takeExact, MemWf.returnGeo]

theorem MemWf.fillWith {s : State} (h : MemWf s) (who : Nat) (b : Nat) (cells : SMap LaneReg) (valid : Bool) :
    MemWf (s.fillWith who b cells valid) := h.congr rfl rfl

theorem MemWf.fillFails {s : State} (h : MemWf s) (who : Nat) (b : Nat) (va : Nat) : MemWf (s.fillFails who b va) := by
  unfold State.fillFails
  grind [MemWf.fillWith, MemWf.postErr]

theorem MemWf.fillBlock {s : State} (h : MemWf s) (who : Nat) (b : Nat) : MemWf (s.fillBlock who b) := by
  unfold State.fillBlock
  grind [MemWf.fillWith, MemWf.imageParts, MemWf.fillFails]

theorem MemWf.writebackFails {s : State} (h : MemWf s) (w : WriteBack) : MemWf (s.writebackFails w) := by
  unfold State.writebackFails
  grind [MemWf.loseBlock, MemWf.saveWrite]

theorem MemWf.writeBackBlock {s : State} (h : MemWf s) (core : Nat) (idx : Nat) : MemWf (s.writeBackBlock core idx) := by
  unfold State.writeBackBlock
  grind [MemWf.settleReserve, MemWf.dropAsks, MemWf.modCore, MemWf.imageParts, MemWf.writebackFails, MemWf.writeParts]

theorem MemWf.awayKey {s : State} (h : MemWf s) (who : Nat) : MemWf (s.awayKey who).2 := by
  unfold State.awayKey
  grind [MemWf.newId]

theorem MemWf.renameWho {s : State} (h : MemWf s) (a : Nat) (b : Nat) : MemWf (s.renameWho a b) := h.congr rfl rfl

theorem MemWf.sweep {s : State} (h : MemWf s) : MemWf s.sweep := by
  unfold State.sweep
  grind [MemWf]

theorem MemWf.retireWg {s : State} (h : MemWf s) (g : Nat) : MemWf (s.retireWg g) := by
  unfold State.retireWg
  split
  · exact h
  · next x hx =>
    obtain ⟨-, hs, ha⟩ := h.2 _ (mem_of_mget hx)
    refine .ite h (MemWf.sweep ?_)
    have h1 : MemWf (s.setWg { x with st := .retired }) := h.setWg _ hs ha
    split
    · exact h1.setGrid _
    · exact h1

theorem MemWf.retireWarp {s : State} (h : MemWf s) (who : Nat) : MemWf (s.retireWarp who) := by
  unfold State.retireWarp
  grind [MemWf.record, MemWf.awayKey, MemWf.renameWho, MemWf.sweep, MemWf.retireWg, MemWf.settleReserve, MemWf]

theorem MemWf.setCslot {s : State} (h : MemWf s) (n : Nat) (c : CSlot) : MemWf (s.setCslot n c) := h.congr rfl rfl

theorem MemWf.modCslot {s : State} (h : MemWf s) (n : Nat) (f : CSlot → CSlot) : MemWf (s.modCslot n f) := h.congr rfl rfl

theorem collLoadBody_wf {s : State} (h : MemWf s) (x : CollArgs) (is : Issue) : (collLoadBody x is s).Wf := by
  unfold collLoadBody
  grind [MemWf.fork, MemWf.modCslot, MemWf.tokStart, Act.Wf]

theorem collRunBody_wf {s : State} (h : MemWf s) (x : CollArgs) (is : Issue) : (collRunBody x is s).Wf := by
  unfold collRunBody
  grind [MemWf.fork, MemWf.modCslot, MemWf.tokStart, Act.Wf]

theorem MemWf.collRead {s : State} (h : MemWf s) (o : EngOp) (va : Nat) (n : Nat) : MemWf (s.collRead o va n).2 := by
  unfold State.collRead
  grind [MemWf.askSpan, MemWf.logViol, MemWf.touchParts]

theorem MemWf.endLoad {s : State} (h : MemWf s) (n : Nat) (o : EngOp) : MemWf (s.endLoad n o) := by
  unfold State.endLoad
  grind [MemWf.endEng, MemWf.modCslot]

theorem MemWf.loadEnd {s : State} (h : MemWf s) (n : Nat) (o : EngOp) (lerr : Nat) (c : CSlot) :
    MemWf (s.loadEnd n o lerr c) := by
  unfold State.loadEnd
  grind [MemWf.endLoad, MemWf.setCslot]

theorem MemWf.loadGraph {s : State} (h : MemWf s) (n : Nat) (o : EngOp) (c : CSlot) : MemWf (s.loadGraph n o c) := by
  unfold State.loadGraph
  grind [MemWf.setCslot, MemWf.collRead, MemWf.loadEnd]

theorem MemWf.loadStart {s : State} (h : MemWf s) (n : Nat) : MemWf (s.loadStart n) := by
  unfold State.loadStart
  grind [MemWf.endLoad, MemWf.loadEnd, MemWf.loadGraph]

theorem MemWf.nodeReady {s : State} (h : MemWf s) (n : Nat) (i : Nat) : MemWf (s.nodeReady n i) := by
  unfold State.nodeReady
  grind [MemWf.setCslot, MemWf.emit]

theorem MemWf.settleNodes {s : State} (h : MemWf s) (n k : Nat) : MemWf (s.settleNodes n k) := by
  induction k generalizing s with
  | zero => exact h
  | succ k ih => exact ih (MemWf.foldl (fun _ _ ht => ht.nodeReady ..) _ h)

theorem MemWf.endRun {s : State} (h : MemWf s) (n : Nat) (o : EngOp) : MemWf (s.endRun n o) := by
  unfold State.endRun
  grind [MemWf.endEng, MemWf.modCslot]

theorem MemWf.runFinish {s : State} (h : MemWf s) (n : Nat) : MemWf (s.runFinish n) := by
  unfold State.runFinish
  grind [MemWf.endRun, MemWf.modCslot]

theorem MemWf.runSettle {s : State} (h : MemWf s) (n : Nat) : MemWf (s.runSettle n) := by
  unfold State.runSettle
  grind [MemWf.runFinish, MemWf.settleNodes]

theorem MemWf.runError {s : State} (h : MemWf s) (n : Nat) : MemWf (s.runError n) := by
  unfold State.runError
  grind [MemWf.runFinish, MemWf.modCslot, MemWf.setEop]

theorem MemWf.runStart {s : State} (h : MemWf s) (n : Nat) : MemWf (s.runStart n) := by
  unfold State.runStart
  grind [MemWf.endRun, MemWf.runSettle, MemWf.setCslot]

theorem MemWf.creditArrives {s : State} (h : MemWf s) (n : Nat) (src : Nat) (stp : Nat) (chunk : Nat) (seq : Nat) :
    MemWf (s.creditArrives n src stp chunk seq) := by
  unfold State.creditArrives
  grind [MemWf.setCslot, MemWf.runSettle]

theorem MemWf.ackTo {s : State} (h : MemWf s) (c : CSlot) (src : Nat) (stp : Nat) (chunk : Nat) (seq : Nat) :
    MemWf (s.ackTo c src stp chunk seq) := h.congr rfl rfl

theorem MemWf.stageLines {s : State} (h : MemWf s) (o : EngOp) (va : Nat) (es : List (Nat × BitVec 1024 × W64 × BitVec 5)) :
    MemWf (s.stageLines o va es).2 := by
  unfold State.stageLines
  dsimp only
  generalize er : s.resolveUnits o .g .engWrite false _ = r
  have h1 : MemWf r.2 := er ▸ h.resolveUnits ..
  split
  · exact h1
  split
  · exact h1.engViol ..
  · refine MemWf.foldl (fun t e ht => ?_) _ h1
    split
    · exact (ht.engStore ..).putSide ..
    · exact ht

theorem MemWf.chunkArrives {s : State} (h : MemWf s) (n : Nat) (src : Nat) (stp : Nat) (chunk : Nat) (seq : Nat) (bm : List Bool) (lines : List (BitVec 1024 × W64 × BitVec 5)) :
    MemWf (s.chunkArrives n src stp chunk seq bm lines) := by
  unfold State.chunkArrives
  grind [MemWf.setCslot, MemWf.ackTo, MemWf.stageLines, MemWf.runError, MemWf.modCslot]

theorem MemWf.ackArrives {s : State} (h : MemWf s) (n : Nat) (src : Nat) (stp : Nat) (chunk : Nat) (seq : Nat) :
    MemWf (s.ackArrives n src stp chunk seq) := by
  unfold State.ackArrives
  grind [MemWf.runSettle, MemWf.setCslot]

theorem MemWf.touchLines {s : State} (h : MemWf s) (o : EngOp) (r : Resolved) : MemWf (s.touchLines o r) := h.engTouches o _ 128

theorem MemWf.countResend {s : State} (h : MemWf s) (p : Nat) : MemWf (s.countResend p) := h.congr rfl rfl

theorem MemWf.pickPort {s : State} (h : MemWf s) (last : Nat) : MemWf (s.pickPort last).2 := by
  unfold State.pickPort
  grind [MemWf.pick]

theorem MemWf.sendChunk {s : State} (h : MemWf s) (n : Nat) (i : Nat) (o : EngOp) : MemWf (s.sendChunk n i o).2 := by
  unfold State.sendChunk
  grind [MemWf.resolveUnits, MemWf.runError, MemWf.modCslot, MemWf.engViol, MemWf.touchLines, MemWf.setEop, MemWf.pickPort,
      MemWf.emit]

theorem MemWf.putCLine {s : State} (h : MemWf s) (o : EngOp) (r : Resolved) (ea : Int) (mx : Bool) (l : CLine) :
    MemWf (s.putCLine o r ea mx l) := by
  unfold State.putCLine
  grind [MemWf.engStore, MemWf.putSide]

theorem MemWf.setEopIf {s : State} (h : MemWf s) (b : Bool) (o : EngOp) :
    MemWf (if b then s.setEop o else s) := .ite (h.setEop _) h

theorem MemWf.applyChunk {s : State} (h : MemWf s) (n i : Nat) (o : EngOp) : MemWf (s.applyChunk n i o).2 := by
  unfold State.applyChunk
  dsimp only
  generalize eg : s.resolveUnits o .g .engRead false _ = g
  have h1 : MemWf g.2 := eg ▸ h.resolveUnits ..
  generalize el : g.2.resolveUnits o _ .engRead _ _ = l
  have h2 : MemWf l.2 := el ▸ h1.resolveUnits ..
  generalize et : l.2.resolveUnits o _ .engWrite _ _ = t
  have h3 : MemWf t.2 := et ▸ h2.resolveUnits ..
  split
  · exact h3
  split
  · exact ((h3.stopAt ..).modCslot ..).runError _
  · refine MemWf.runSettle (MemWf.modCslot (MemWf.setEopIf ?_ _ _) _ _) _
    exact MemWf.foldl (fun _ _ hu => hu.putCLine ..) _ ((h3.touchLines ..).touchLines ..)

theorem MemWf.chunkPiece {s : State} (h : MemWf s) (n : Nat) (i : Nat) : MemWf (s.chunkPiece n i) := by
  unfold State.chunkPiece
  grind [MemWf.modCslot, MemWf.sendChunk, MemWf.applyChunk, MemWf.runFinish, MemWf.modCore]

theorem MemWf.datapath {s : State} (h : MemWf s) (k : Nat) : MemWf (s.datapath k) := by
  unfold State.datapath
  grind [MemWf.copyChunk, MemWf.chunkPiece, MemWf.setCore]

end Sys2Proof
end

section
/-! Canonical memories: the dispatcher, what comes from outside, bring-up, the words of lanes and the attempt of a word. -/

namespace Sys2Proof
open Machine

theorem MemWf.semNode {s : State} (h : MemWf s) (n i kind : Nat) (acc : Acc) (f : EngOp → Loc → State → State)
    (hf : ∀ o l t, MemWf t → MemWf (f o l t)) : MemWf (s.semNode n i kind acc f) := by
  unfold State.semNode
  dsimp only
  split
  · exact h
  · next o _ =>
    refine .ite h ?_
    generalize (s.cslot n).bufAt _ _ = b
    have ha := h.engAt o b.1 b.2 8 acc 0
    split
    · next heq => exact MemWf.snd heq ha
    · next heq => exact ((MemWf.snd heq ha).engViol ..).runError n
    · next heq => exact hf _ _ _ (MemWf.snd heq ha)
    · next heq => exact MemWf.snd heq ha

theorem MemWf.retransmit {s : State} (h : MemWf s) (n : Nat) (i : Nat) : MemWf (s.retransmit n i) := by
  unfold State.retransmit
  grind [MemWf.pick, MemWf.runError, MemWf.postErr, MemWf.pickPort, MemWf.modCslot, MemWf.sendChunk, MemWf.countResend]

theorem MemWf.fileLanes {s : State} (h : MemWf s) (who : Nat) (x : Waiting) (a : VOp) (n : Nat) (mask : LaneMask) :
    MemWf (s.fileLanes who x a n mask) := by
  unfold State.fileLanes
  grind [MemWf.wantBlocks, MemWf.modCore, MemWf.modWarp, MemWf.modCtl, MemWf.allFiled, MemWf.barrierCheck, MemWf]

theorem MemWf.reformFile {s : State} (h : MemWf s) (who : Nat) : MemWf (s.reformFile who) := by
  unfold State.reformFile
  grind [MemWf.fileLanes]

theorem MemWf.ageBins {s : State} (h : MemWf s) : MemWf s.ageBins := h.congr rfl rfl

theorem MemWf.issueBin {s : State} (h : MemWf s) (core : Nat) : MemWf (s.issueBin core) := by
  unfold State.issueBin
  grind [MemWf.setCtl, MemWf.setWarp, MemWf.modWarp, MemWf.giveBlocks, MemWf.record, MemWf.modCore]

theorem MemWf.startWarp {s : State} (h : MemWf s) (core : Nat) (g : Grid) (wg : Nat) (age : Nat) (w : Nat) :
    MemWf (s.startWarp core g wg age w) := by
  unfold State.startWarp
  grind [MemWf.setCtl, MemWf.setWarp, MemWf.giveBlocks]

theorem MemWf.startWarps {s : State} (h : MemWf s) (core : Nat) (g : Grid) (wg age : Nat) : MemWf (s.startWarps core g wg age) :=
  MemWf.foldl (fun _ _ ht => ht.startWarp ..) _ h

theorem MemWf.placeNew {s : State} (h : MemWf s) (core : Nat) (g : Grid) (u : Unit_) (n : Need) :
    MemWf (s.placeNew core g u n) := by
  unfold State.placeNew
  exact (MemWf.startWarps (h.newId.setWg _ rfl rfl) ..).record ..

theorem MemWf.reassignOp {s : State} (h : MemWf s) (who : Nat) (o : MemOp) : MemWf (s.reassignOp who o) := by
  unfold State.reassignOp
  grind [MemWf.makeTreqs, MemWf.setMop, MemWf]

theorem MemWf.reassign {s : State} (h : MemWf s) (who : Nat) :
    MemWf (s.reassign who) := MemWf.foldl (fun _ _ ht => ht.reassignOp ..) _ h

theorem MemWf.refillLog {s : State} (h : MemWf s) (who : Nat) : MemWf (s.refillLog who) := by
  unfold State.refillLog
  refine MemWf.foldl (fun t e ht => ?_) _ h
  have hr := fun va n => ht.readSaved who va n
  split
  · next heq => exact (MemWf.snd heq (hr _ _)).setMop _
  · next heq => exact (MemWf.snd heq (hr _ _))

theorem MemWf.resumeWarp {s : State} (h : MemWf s) (core away : Nat) : MemWf (s.resumeWarp core away) := by
  rw [State.resumeWarp]
  cases s.freeSlot core with
  | none => exact h
  | some k =>
    have h0 := h.readSaved away (s.tsave away + 0x21000) 0x1400
    generalize s.readSaved away (s.tsave away + 0x21000) 0x1400 = r at h0 ⊢
    obtain ⟨bs, r0⟩ := r
    have h1 := (((MemWf.refillLog h0 away).refillGeo away).dropAsks away 0).renameWho away (64 * core + k)
    refine MemWf.record (MemWf.returnGeo (MemWf.reassign (MemWf.giveAbsent ?_ _ _) _) _) _ _ _ _
    exact h1.congr rfl rfl

theorem MemWf.recordsReady {s : State} (h : MemWf s) (l : List Nat) : MemWf (s.recordsReady l).2 := by
  have hs : ∀ {s : State}, MemWf s → ∀ who acc l, MemWf (State.saveAllReady s who acc l).2 := fun h => h.saveAllReady
  have e : State.recordsReady = State.recordsReady := rfl
  conv at e => rhs; delta State.recordsReady State.recordsReady._f
  generalize State.recordsReady = recordsReady at e ⊢
  generalize State.saveAllReady = saveAllReady at hs e
  as_aux_lemma =>
    induction l generalizing s with
    | nil => subst e; exact h
    | cons k l ih =>
      have hr := hs h k .load (recordRanges (s.tsave k))
      have hc : recordsReady s (k :: l) = match saveAllReady s k .load (recordRanges (s.tsave k)) with
        | (false, t) => (false, t)
        | (true, t) => recordsReady t l := by subst e; rfl
      rw [hc]
      split
      · next heq => rwa [heq] at hr
      · next heq => exact ih (by rwa [heq] at hr)

theorem MemWf.placeSaved {s : State} (h : MemWf s) (core : Nat) (g : Grid) (id : Nat) : MemWf (s.placeSaved core g id) := by
  unfold State.placeSaved
  split
  · exact h
  · next w hw =>
    obtain ⟨-, hs, ha⟩ := h.2 _ (mem_of_mget hw)
    refine MemWf.takeExact ?_ _
    exact MemWf.foldl (fun _ _ ht => ht.resumeWarp ..) _ ((h.setWg _ (by exact hs) (by exact ha)).modCore _ _)

theorem MemWf.placeUnit {s : State} (h : MemWf s) (c : Nat) (g : Grid) (u : Unit_) (cores : List Nat) :
    MemWf (s.placeUnit c g u cores) := by
  unfold State.placeUnit
  refine MemWf.modCluster ?_ _ _
  have h1 : MemWf ((cores.zip u.needs).foldl (fun t p => match p.2.wg with
    | some id => t.placeSaved p.1 g id
    | none => t.placeNew p.1 g u p.2) s) := by
    refine MemWf.foldl (fun t p ht => ?_) _ h
    split
    · exact ht.placeSaved ..
    · exact ht.placeNew ..
  generalize (cores.zip u.needs).foldl _ s = s1 at h1 ⊢
  split
  · exact h1.setGrid _
  · exact h1

theorem MemWf.windowMarks {s : State} (h : MemWf s) (g : Wg) (w : Nat) (parts : List (Nat × Nat × Nat)) :
    MemWf (s.windowMarks g w parts) :=
  MemWf.foldl (fun _ _ ht => MemWf.foldl (fun _ _ hu => hu.locMark _ _) _ (MemWf.foldl (fun _ _ hu => (hu.locSetSide _ _).locSideMark _ _) _ ht)) _ h

theorem MemWf.windowParts {s : State} (h : MemWf s) (g : Wg) (w : Nat) (acc : Acc) (l : List (Nat × Nat)) :
    MemWf (s.windowParts g w acc l).2 := by
  induction l generalizing s with
  | nil => exact h
  | cons e l ih =>
    obtain ⟨o, n⟩ := e
    have ha := h.ask g.ctx (g.spillVa w + o) acc g.core (64 * g.core) (winTag g.id) (g.spillVa w + o) 0 n
    unfold State.windowParts
    dsimp only
    split
    · next heq => exact MemWf.snd heq ha
    · next heq => exact ih (MemWf.snd heq ha)
    · next heq =>
      have hi := ih (MemWf.snd heq ha)
      split
      · next heq => exact (MemWf.snd heq hi :)
      · next heq => exact (MemWf.snd heq hi :)

theorem MemWf.askWindow {s : State} (h : MemWf s) (g : Wg) (w : Nat) (acc : Acc) : MemWf (s.askWindow g w acc).2 := by
  have hr := h.windowParts g w acc (piecesOf (g.spillVa w) 65536)
  rw [State.askWindow]
  generalize s.windowParts g w acc (piecesOf (g.spillVa w) 65536) = r at hr ⊢
  obtain ⟨ps, t⟩ := r
  cases ps with
  | none => exact hr
  | some ps => exact hr.dropAsks ..

theorem MemWf.fillWindow {s : State} (h : MemWf s) (g : Wg) (w : Nat) : MemWf (s.fillWindow g w) := by
  have hr := h.askWindow g w .engWrite
  rw [State.fillWindow]
  generalize s.askWindow g w .engWrite = r at hr ⊢
  obtain ⟨ps, t⟩ := r
  cases ps with
  | none => exact hr
  | some ps => exact ((MemWf.writeParts hr ..).windowMarks ..).modWg _ _ fun _ hs ha => ⟨hs, ha⟩

theorem MemWf.fillWindows {s : State} (h : MemWf s) (c : Nat) : MemWf (s.fillWindows c) := by
  unfold State.fillWindows
  refine MemWf.foldl (fun t g ht => .ite ?_ ht) _ h
  cases g.fillWin.head? with
  | none => exact ht
  | some w =>
    rw [Option.elim_some]
    exact ht.fillWindow g w

theorem MemWf.notePassed {s : State} (h : MemWf s) (c : Nat) (late : List (Grid × Unit_)) :
    MemWf (s.notePassed c late) := h.congr rfl rfl

theorem MemWf.decidePreempt {s : State} (h : MemWf s) (c : Nat) (late : List (Grid × Unit_)) :
    MemWf (s.decidePreempt c late) := by
  unfold State.decidePreempt
  grind [MemWf.modCluster, MemWf.preemptReq]

theorem MemWf.dispatch {s : State} (h : MemWf s) (c : Nat) : MemWf (s.dispatch c) := by
  have h0 : MemWf ((s.sweep.fillWindows c).modCluster c (fun k => { k with nextStep := s.clock + 16 })) := (h.sweep.fillWindows c).modCluster _ _
  unfold State.dispatch
  dsimp only
  refine MemWf.decidePreempt ?_ _ _
  generalize (s.sweep.fillWindows c).modCluster c (fun k => { k with nextStep := s.clock + 16 }) = s0 at h0 ⊢
  generalize s0.firstFit c (s0.unitOrder c) = q
  obtain ⟨late, fit⟩ := q
  have h1 := h0.notePassed c late
  cases fit with
  | none => exact h1
  | some e =>
    obtain ⟨g, u, cs⟩ := e
    have hr := h1.recordsReady ((u.needs.filterMap Need.wg).flatMap (s0.notePassed c late).awayWarps)
    dsimp only
    generalize (s0.notePassed c late).recordsReady ((u.needs.filterMap Need.wg).flatMap (s0.notePassed c late).awayWarps) =
    r at hr ⊢
    obtain ⟨b, t⟩ := r
    cases b with
    | false => exact hr
    | true => exact hr.placeUnit ..

theorem MemWf.reserveFor {s : State} (h : MemWf s) (c : Nat) : MemWf (s.reserveFor c) := by
  unfold State.reserveFor
  grind [MemWf.modCluster]

theorem MemWf.changePart {s : State} (h : MemWf s) (core : Nat) : MemWf (s.changePart core) := by
  unfold State.changePart
  grind [MemWf.modCore]

theorem MemWf.toBoundary {s : State} (h : MemWf s) (who : Nat) : MemWf (s.toBoundary who) := by
  unfold State.toBoundary
  grind [MemWf.dropAsks, MemWf.modCtl]

theorem MemWf.boundaryOf {s : State} (h : MemWf s) (g : Nat) : MemWf (s.boundaryOf g) := by
  unfold State.boundaryOf
  split
  · exact h
  · exact .ite (MemWf.foldl (fun _ _ ht => ht.toBoundary _) _ h) h

theorem MemWf.handOver {s : State} (h : MemWf s) (who : Nat) : MemWf (s.handOver who) := by
  unfold State.handOver
  grind [MemWf.record, MemWf.releaseBlocks, MemWf.awayKey, MemWf.renameWho, MemWf.leaveGeo, MemWf.takeExact, MemWf.dropAsks,
      MemWf]

theorem MemWf.takeBins {s : State} (h : MemWf s) (g : Wg) : MemWf (s.takeBins g) := by
  unfold State.takeBins
  grind [MemWf.modWg, MemWf.modCore]

theorem MemWf.handUnit {s : State} (h : MemWf s) (g : Nat) : MemWf (s.handUnit g) := by
  unfold State.handUnit
  split
  · exact h
  · exact .ite (MemWf.foldl (fun _ _ ht => ht.takeBins _) _ (MemWf.foldl (fun _ _ ht => ht.handOver _) _ h)) h

theorem MemWf.takeParts {s : State} (h : MemWf s) (g : Nat) (t : State) (o : Nat × Nat × Nat →
    Nat) (ps : List (Nat × Nat × Nat)) :
    MemWf (ps.foldl (fun u p => u.modWg g (fun x => x.takePart t (o p) p.2.1 p.2.2)) s) :=
  MemWf.foldl (fun _ _ hu => hu.modWg _ _ fun _ hs ha => by exact ⟨Memory.write_wf _ _ hs, ha⟩) _ h

theorem MemWf.readWindow {s : State} (h : MemWf s) (g : Wg) (w : Nat) : MemWf (s.readWindow g w).2 := by
  have hr := h.askWindow g w .engRead
  rw [State.readWindow]
  generalize s.askWindow g w .engRead = r at hr ⊢
  obtain ⟨ps, t⟩ := r
  cases ps with
  | none => exact hr
  | some ps => exact (MemWf.touchParts hr ..).takeParts _ _ (fun p => w * 65536 + p.1) _

theorem MemWf.readWindows {s : State} (h : MemWf s) (g : Wg) (l : List Nat) : MemWf (s.readWindows g l).2 := by
  have hs : ∀ {s : State}, MemWf s → ∀ g w, MemWf (State.readWindow s g w).2 := fun h => h.readWindow
  have e : State.readWindows = State.readWindows := rfl
  conv at e => rhs; delta State.readWindows State.readWindows._f
  generalize State.readWindows = readWindows at e ⊢
  generalize State.readWindow = readWindow at hs e
  as_aux_lemma =>
    induction l generalizing s with
    | nil => subst e; exact h
    | cons w l ih =>
      have hr := hs h g w
      have hc : readWindows s g (w :: l) = match readWindow s g w with
        | (false, t) => (false, t)
        | (true, t) => readWindows t g l := by subst e; rfl
      rw [hc]
      split
      · next heq => rwa [heq] at hr
      · next heq => exact ih (by rwa [heq] at hr)

theorem MemWf.writeLogSlots {s : State} (h : MemWf s) (who : Nat) : MemWf (s.writeLogSlots who) := by
  unfold State.writeLogSlots
  refine MemWf.foldl (fun t k ht => ?_) _ h
  split
  · exact MemWf.foldl (fun _ _ hu => hu.saveWrite ..) _ ht
  · exact ht.saveWrite ..

/-- The record of warp `k`, once its pages answer. -/
def Machine.State.writeRecord (s : State) (k base : Nat) : State :=
  (((s.saveWrite k (base + 0x21000) (s.layout k (s.ctl k).trapMask)).writeLogSlots k).writeGeoSlots k).dropAsks k 0

theorem MemWf.writeRecord {s : State} (h : MemWf s) (k base : Nat) : MemWf (s.writeRecord k base) :=
  (((MemWf.saveWrite h ..).writeLogSlots k).writeGeoSlots k).dropAsks ..

theorem MemWf.writeRecords {s : State} (h : MemWf s) (l : List Nat) : MemWf (s.writeRecords l).2 := by
  have hs : ∀ {s : State}, MemWf s → ∀ who acc l, MemWf (State.saveAllReady s who acc l).2 := fun h => h.saveAllReady
  have e : State.writeRecords = State.writeRecords := rfl
  conv at e => rhs; delta State.writeRecords State.writeRecords._f
  generalize State.writeRecords = writeRecords at e ⊢
  generalize State.saveAllReady = saveAllReady at hs e
  as_aux_lemma =>
    induction l generalizing s with
    | nil => subst e; exact h
    | cons k l ih =>
      have hr := hs h k .store (recordRanges (s.tsave k))
      have hc : writeRecords s (k :: l) = match saveAllReady s k .store (recordRanges (s.tsave k)) with
        | (false, t) => (false, t)
        | (true, t) => writeRecords (t.writeRecord k (s.tsave k)) l := by subst e; rfl
      rw [hc]
      split
      · next heq => rwa [heq] at hr
      · next heq => exact ih (MemWf.writeRecord (by rwa [heq] at hr) ..)

theorem MemWf.completeSave {s : State} (h : MemWf s) (g : Nat) : MemWf (s.completeSave g) := by
  unfold State.completeSave
  grind [MemWf.readWindows, MemWf.writeRecords, MemWf.modWg]

theorem MemWf.hostHolds {s : State} (h : MemWf s) (pa : Nat) (n : Nat) : MemWf (s.hostHolds pa n) := h.congr rfl rfl

theorem MemWf.hostWrite {s : State} (h : MemWf s) (pa : Nat) (bs : List Byte) : MemWf (s.hostWrite pa bs) := by
  unfold State.hostWrite
  grind [MemWf.physWrite, MemWf]

theorem MemWf.serveRequest {s : State} (h : MemWf s) (q : MemReq) (host : Bool) : MemWf (s.serveRequest q host) := by
  unfold State.serveRequest
  grind [MemWf.touch, MemWf.emit, MemWf.hostHolds, MemWf.hostWrite, MemWf.physWrite, MemWf.sideMark, MemWf.sideWrite,
      MemWf.atomAt]

theorem MemWf.setPort {s : State} (h : MemWf s) (p : Nat) (up : Bool) : MemWf (s.setPort p up) := h.congr rfl rfl

theorem MemWf.finishRequest {s : State} (h : MemWf s) : MemWf s.finishRequest := by
  unfold State.finishRequest
  grind [MemWf.releaseGen, MemWf]

theorem MemWf.baseDie {s : State} (h : MemWf s) (e : BdEvent) : MemWf (s.baseDie e) := by
  unfold State.baseDie
  grind [MemWf.touchSector, MemWf.evictLine, MemWf.finishRequest, MemWf]

theorem MemWf.endCx {s : State} (h : MemWf s) (errc : Nat) : MemWf (s.endCx errc) := h.congr rfl rfl

theorem MemWf.setSlot {s : State} (h : MemWf s) (n : Nat) (c : CodeSlot) : MemWf (s.setSlot n c) := h.congr rfl rfl

theorem MemWf.loadSlot {s : State} (h : MemWf s) (slot : Nat) : MemWf (s.loadSlot slot) := by
  unfold State.loadSlot
  grind [MemWf.endCx, MemWf.touch, MemWf.setSlot]

theorem MemWf.drainSlot {s : State} (h : MemWf s) (n : Nat) : MemWf (s.drainSlot n) := by
  unfold State.drainSlot
  grind [MemWf.setSlot, MemWf.endCx]

theorem MemWf.recodeSector {s : State} (h : MemWf s) (pa : Nat) : MemWf (s.recodeSector pa).1 := by
  unfold State.recodeSector
  grind [MemWf.poisonSector, MemWf.postErr]

theorem MemWf.foldlFst {α β : Type} {f : State × β → α → State × β} (hf : ∀ a x,
    MemWf a.1 → MemWf (f a x).1) (l : List α) {a : State × β}
    (h : MemWf a.1) : MemWf (l.foldl f a).1 := by
  induction l generalizing a with
  | nil => exact h
  | cons x l ih => exact ih (hf a x h)

theorem MemWf.recodeFrame {s : State} (h : MemWf s) (n slot fmt : Nat) : MemWf (s.recodeFrame n slot fmt) := by
  unfold State.recodeFrame
  extract_lets bad c gen new q u
  have hu : MemWf u := by
    refine MemWf.holding h _ fun t ht => ?_
    dsimp only
    refine MemWf.setFrame (MemWf.foldlFst (fun a i ha => ?_) _ ht) _ _
    exact .ite (ha.recodeSector _) ((ha.recodeSector _).rawWrite _ _)
  exact hu.congr rfl rfl

theorem MemWf.recode {s : State} (h : MemWf s) (slot : Nat) (fmt : Nat) (cntm1 : Nat) :
    MemWf (s.recode slot fmt cntm1) := by
  unfold State.recode
  grind [MemWf.endCx, MemWf.recodeFrame]

theorem MemWf.dumpFrame {s : State} (h : MemWf s) (cntm1 : Nat) : MemWf (s.dumpFrame cntm1) := by
  unfold State.dumpFrame
  grind [MemWf.endCx, MemWf.physWrite, MemWf]

theorem ctxFree_wf {s : State} (h : MemWf s) : MemWf (ctxFree s) := h.congr rfl rfl

theorem MemWf.resumeCtx {s : State} (h : MemWf s) (ctx : Nat) : MemWf (s.resumeCtx ctx) :=
  MemWf.congr (MemWf.foldl (fun _ _ ht => (ht.modStream _ _).modCtl _ _) _ h) rfl rfl

/-- A change of workgroups that keeps each one's number and its two stores. -/
theorem MemWf.mapWgs {s t : State} (h : MemWf s) (f : Nat × Wg → Nat × Wg)
    (hf : ∀ e, (f e).1 = e.1 ∧ (f e).2.id = e.2.id ∧ (f e).2.sp = e.2.sp ∧ (f e).2.ac = e.2.ac)
    (hc : t.mem.cells = s.mem.cells) (hw : t.wgs = s.wgs.map f) : MemWf t := by
  refine ⟨hc ▸ h.1, fun e he => ?_⟩
  obtain ⟨d, hd, rfl⟩ := List.mem_map.1 (hw ▸ he)
  obtain ⟨h1, h2, h3, h4⟩ := hf d
  rw [h1, h2, h3, h4]
  exact h.2 d hd

theorem MemWf.discardCtx {s : State} (h : MemWf s) (ctx : Nat) : MemWf (s.discardCtx ctx) := by
  unfold State.discardCtx
  extract_lets mine ids js s1 gone s2 s3
  have h1 : MemWf s1 := MemWf.foldl (fun _ _ ht => (ht.stopThread _).modStream _ _) _ h
  have h2 : MemWf s2 := by
    refine h1.mapWgs (fun e => if e.2.ctx == ctx then (e.1, { e.2 with st := .retired, bins := [] }) else e) (fun e => ?_) rfl rfl
    dsimp only
    split <;> exact ⟨rfl, rfl, rfl, rfl⟩
  exact (h2.startInval ..).sweep.congr rfl rfl

theorem MemWf.endedCtx {s : State} (h : MemWf s) (ctx : Nat) : MemWf (s.endedCtx ctx) := by
  unfold State.endedCtx
  grind [MemWf.sweep, MemWf]

theorem MemWf.setRegs {s : State} (h : MemWf s) (r : Regs) : MemWf (s.setRegs r) := h.congr rfl rfl

theorem MemWf.bootGo {s : State} (h : MemWf s) : MemWf s.bootGo := by
  unfold State.bootGo
  grind [MemWf.setRegs]

theorem MemWf.bootFail {s : State} (h : MemWf s) (errc : Nat) : MemWf (s.bootFail errc) := h.congr rfl rfl

theorem MemWf.selftestDone {s : State} (h : MemWf s) (ok : Bool) : MemWf (s.selftestDone ok) := by
  unfold State.selftestDone
  grind [MemWf.bootFail, MemWf.setRegs]

theorem MemWf.verifyImage {s : State} (h : MemWf s) : MemWf s.verifyImage := by
  unfold State.verifyImage
  grind [MemWf.bootFail, MemWf.setRegs]

theorem MemWf.keepInputs {s t : State} (h : MemWf t) : MemWf (s.keepInputs t) := h.congr rfl rfl

theorem MemWf.bootWarm {s : State} (h : MemWf s) :
    MemWf s.bootWarm := (MemWf.foldl (fun _ c ht => ht.startSuspend c) _ h).setRegs _

theorem MemWf.loseLine {s : State} (h : MemWf s) (line : Nat) : MemWf (s.loseLine line) := by
  unfold State.loseLine
  grind [MemWf.sideMark, MemWf.physMark]

theorem MemWf.warmReset {s : State} (h : MemWf s) :
    MemWf s.warmReset := ⟨h.1, fun _ he => by simp [State.warmReset, State.keepInputs, State.reset] at he⟩

theorem MemWf.warmDone {s : State} (h : MemWf s) (failed : List Nat) : MemWf (s.warmDone failed) :=
  .ite h (MemWf.warmReset (MemWf.foldl (fun _ l ht => ht.evictLine l) _ (MemWf.foldl (fun _ l ht => ht.loseLine l) _ h)))

theorem MemWf.powerTick {s : State} (h : MemWf s) (avg : BitVec 12) (junction : Nat) :
    MemWf (s.powerTick avg junction) := h.congr rfl rfl

theorem MemWf.attDone {s : State} (h : MemWf s) (err : Bool) : MemWf (s.attDone err) := h.congr rfl rfl

theorem MemWf.attLost {s : State} (h : MemWf s) (a : Nat) (n : Nat) : MemWf (s.attLost a n) := by
  unfold State.attLost
  grind [MemWf.attDone, MemWf.linkError]

theorem MemWf.quote {s : State} (h : MemWf s) : MemWf s.quote := by
  unfold State.quote
  grind [MemWf.attLost, MemWf.attDone, MemWf.physWrite]

theorem MemWf.dumpRings {s : State} (h : MemWf s) (a : Nat) : MemWf (s.dumpRings a) :=
  MemWf.foldl (fun _ _ ht => ht.physWrite ..) _ ((h.physWrite ..).physWrite ..)

theorem MemWf.dumpRecorder {s : State} (h : MemWf s) : MemWf s.dumpRecorder := by
  unfold State.dumpRecorder
  grind [MemWf.attDone, MemWf.attLost, MemWf.dumpRings, MemWf.physWrite]

theorem vshflBody_wf {s : State} (h : MemWf s) (m : ShflMode) (x : V3) (is : Issue) : (vshflBody m x is s).Wf := by
  unfold vshflBody
  grind [MemWf.putVec, Act.Wf]

theorem vreadlBody_wf {s : State} (h : MemWf s) (sd : Fin 96) (a : VOp) (lane : Fin 128) (is : Issue) :
    (vreadlBody sd a lane is s).Wf := by
  unfold vreadlBody
  grind [MemWf.writeS, Act.Wf]

theorem vbcastBody_wf {s : State} (h : MemWf s) (t : BTy) (d : VOp) (o : SOp) (is : Issue) : (vbcastBody t d o is s).Wf := by
  unfold vbcastBody
  grind [MemWf.putVec, Act.Wf]

theorem vballotBody_wf {s : State} (h : MemWf s) (sd : Fin 96) (p : Fin 8) (is : Issue) : (vballotBody sd p is s).Wf := by
  unfold vballotBody
  grind [MemWf.writeS, Act.Wf]

theorem vidBody_wf {s : State} (h : MemWf s) (lane : Bool) (d : VOp) (is : Issue) : (vidBody lane d is s).Wf := by
  unfold vidBody
  grind [MemWf.putVec, Act.Wf]

theorem vredBody_wf {s : State} (h : MemWf s) (o : RedOpr) (t : RedTy) (segp : Fin 8) (x : V2) (is : Issue) :
    (vredBody o t segp x is s).Wf := by
  unfold vredBody
  grind [deliver_wf, Act.Wf]

theorem vscanBody_wf {s : State} (h : MemWf s) (o : RedOpr) (t : RedTy) (segp : Fin 8) (exc : Bool) (x : V2) (is : Issue) :
    (vscanBody o t segp exc x is s).Wf := by
  unfold vscanBody
  grind [deliver_wf, Act.Wf]

theorem vmergeBody_wf {s : State} (h : MemWf s) (t : MergeTy) (dh : VOp) (org : Bool) (x : V3) (is : Issue) :
    (vmergeBody t dh org x is s).Wf := by
  unfold vmergeBody
  grind [MemWf.putVec, Act.Wf]

theorem MemWf.lookupAgain {s : State} (h : MemWf s) (o : MemOp) : MemWf (s.lookupAgain o) := by
  unfold State.lookupAgain
  exact .ite h (.ite h (MemWf.foldl (fun _ _ ht => ht.setTreq _) _ (h.setMop _)))

theorem MemWf.pageWalk {s : State} (h : MemWf s) (req : Nat) : MemWf (s.pageWalk req) := by
  unfold State.pageWalk
  split
  · exact h
  · next t _ =>
    refine .ite ?_ (.ite (h.walkReq ..) h)
    cases s.mopOf t with
    | none => exact h
    | some o => exact h.lookupAgain o

theorem MemWf.postFault {s : State} (h : MemWf s) (c : Nat) : MemWf (s.postFault c) := by
  unfold State.postFault
  grind [MemWf.firmwareTraps, MemWf.physWrite, MemWf.modCluster, MemWf.record]

theorem MemWf.dropScope {s : State} (h : MemWf s) (x : Inval) : MemWf (s.dropScope x) := h.congr rfl rfl

theorem MemWf.completeInval {s : State} (h : MemWf s) (inv : Nat) : MemWf (s.completeInval inv) := by
  unfold State.completeInval
  grind [MemWf.dropScope, MemWf.endWait, MemWf]

theorem xsetBody_wf {s : State} (h : MemWf s) (j : Fin 8) (mode : XMode) (stp : BitVec 4) (zi : Bool) (sa : SOp) (sb : SOp) (is : Issue) :
    (xsetBody j mode stp zi sa sb is s).Wf := by
  unfold xsetBody
  grind [MemWf.modWarp, Act.Wf]

theorem xldvBody_wf {s : State} (h : MemWf s) (j : Fin 8) (a : VOp) (is : Issue) : (xldvBody j a is s).Wf := by
  unfold xldvBody
  grind [MemWf.modWarp, Act.Wf]

theorem xgetvBody_wf {s : State} (h : MemWf s) (d : VOp) (j : Fin 8) (desc : Bool) (is : Issue) :
    (xgetvBody d j desc is s).Wf := by
  unfold xgetvBody
  grind [MemWf.putVec, Act.Wf]

theorem rgrowBody_wf {s : State} (h : MemWf s) (t : BitVec 9) (is : Issue) : (rgrowBody t is s).Wf := by
  unfold rgrowBody
  grind [MemWf.beginWait, Act.Wf]

theorem rshrinkBody_wf {s : State} (h : MemWf s) (t : BitVec 9) (is : Issue) : (rshrinkBody t is s).Wf := by
  unfold rshrinkBody
  grind [MemWf.settleReserve, MemWf.modWarp, Act.Wf]

theorem MemWf.keepPacket {s : State} (h : MemWf s) (who : Nat) (addr : Nat) (b : W128) :
    MemWf (s.keepPacket who addr b) := h.congr rfl rfl

theorem MemWf.dropFetch {s : State} (h : MemWf s) (who : Nat) (page : Nat) :
    MemWf (s.dropFetch who page) := h.congr rfl rfl

theorem MemWf.block {s : State} (h : MemWf s) : MemWf { s with blocked := true } := h.congr rfl rfl

theorem MemWf.fetchTrap {s : State} (h : MemWf s) (who lane : Nat) (p : Path) (damaged : Bool) (first : State → State)
    (hf : ∀ s, MemWf s → MemWf (first s)) : MemWf (s.fetchTrap who lane p damaged first) := by
  unfold State.fetchTrap
  dsimp only
  split
  · next t ht => exact (h.trapWaits who lane t ht).block
  · exact ((hf s h).noteQtrap ..).takeTrap ..

theorem MemWf.fetchAt {s : State} (h : MemWf s) (who : Nat) (lane : Nat) (p : Path) (pa : Nat) :
    MemWf (s.fetchAt who lane p pa) := by
  unfold State.fetchAt
  grind [MemWf.keepPacket, MemWf.locTouch, MemWf.fetchTrap, MemWf.modCore]

theorem MemWf.owedAcquire {s : State} (h : MemWf s) (who : Nat) : MemWf (s.owedAcquire who) := by
  unfold State.owedAcquire
  grind [MemWf.modCtl, MemWf.acquireL1, MemWf]

theorem MemWf.fetchPacket {s : State} (h : MemWf s) (who : Nat) (lane : Nat) : MemWf (s.fetchPacket who lane) := by
  unfold State.fetchPacket
  grind [MemWf.owedAcquire, MemWf.ask, MemWf.fetchTrap, MemWf.logViol, MemWf.dropFetch, MemWf.fetchAt]

theorem MemWf.deliverAsync {s : State} (h : MemWf s) (who lane : Nat) : MemWf (s.deliverAsync who lane) := by
  unfold State.deliverAsync
  dsimp only
  split
  · refine .ite h ?_
    split
    · next t ht => exact (h.trapWaits who lane t ht).block
    · exact ((h.setCtl _ _).noteQtrap ..).takeTrap ..
  · exact h

/-- The states that an attempt of a word leaves are in canonical form. -/
def Machine.Attempt.Wf : Attempt → Prop
  | .run _ s | .done s | .wait s => MemWf s

theorem MemWf.wordTrap {s : State} (h : MemWf s) (who lane : Nat) (p : Path) (c : Cause) (pc : W64) (iw xw : W32) :
    (s.wordTrap who lane p c pc iw xw).Wf := by
  unfold State.wordTrap
  split
  · next t ht => exact h.trapWaits who lane t ht
  · exact ((h.noteQtrap ..).closeGroup).takeTrap ..

theorem MemWf.setCur {s : State} (h : MemWf s) (c : Option Cur) : MemWf { s with cur := c } := h.congr rfl rfl

theorem MemWf.wordAttempt {s : State} (h : MemWf s) (who lane : Nat) (p : Path) (pk : Packet) (k : Nat) :
    (s.wordAttempt who lane p pk k).Wf := by
  unfold State.wordAttempt
  extract_lets held opening g s0 s1
  have h1 : MemWf s1 := (MemWf.ite (h.modCtl _ _) h).setCur _
  split
  · exact h1
  · exact h1.wordTrap ..

theorem MemWf.laterMembers {s t : State} (h : MemWf t) (who lane : Nat) : ∀ e ∈ s.laterMembers t who lane, MemWf e.2 := by
  intro e he
  unfold State.laterMembers at he
  split at he
  · split at he
    · simp at he
    split at he
    · simp at he
    · obtain ⟨j, -, hj⟩ := List.mem_filterMap.1 he
      obtain ⟨i, -, rfl⟩ := Option.map_eq_some_iff.1 hj
      exact h.setCur _
  · simp at he

theorem MemWf.enterPacket {s : State} (h : MemWf s) (who lane : Nat) (p : Path) (pk : Packet) :
    (s.enterPacket who lane p pk).Wf := by
  unfold State.enterPacket
  dsimp only
  split
  · exact h.wordTrap ..
  split
  · exact h
  · exact (MemWf.ite (((h.modWarp _ _).modCtl _ _).modCluster _ _) ((h.modWarp _ _).modCtl _ _)).wordAttempt ..

theorem MemWf.countFirmware {s : State} (h : MemWf s) (i : Instr) : MemWf (s.countFirmware i) := by
  unfold State.countFirmware
  grind [MemWf.modCluster]

theorem MemWf.attempt {s : State} (h : MemWf s) (who lane : Nat) : (s.attempt who lane).Wf := by
  unfold State.attempt
  split
  · exact h
  split
  · exact h.haltNow _
  split
  · exact h.modCtl _ _
  split
  · exact h.countFirmware _
  split
  · exact h
  split
  · exact h
  split
  · split <;> exact h
  · dsimp only
    split
    · exact h.wordAttempt ..
    · exact h.enterPacket ..

theorem MemWf.bumpWarp {s : State} (h : MemWf s) (who : Nat) : MemWf (s.bumpWarp who) := by
  unfold State.bumpWarp
  grind [MemWf.modCtl]

theorem MemWf.tick {s : State} (h : MemWf s) : MemWf s.tick := by
  unfold State.tick
  grind [MemWf.ageBins, MemWf.detect, MemWf]

theorem MemWf.unblock {s t : State} (h : MemWf t) (who : Nat) : MemWf (s.unblock who t) := by
  have hu : MemWf { t with blocked := false, cur := none } := h.congr rfl rfl
  unfold State.unblock
  dsimp only
  split
  · exact hu.holdGroup ..
  · exact .ite hu (hu.modCtl _ _)

theorem MemWf.useTurn {s : State} (h : MemWf s) : MemWf s.useTurn := h.congr rfl rfl

end Sys2Proof
end

section
/-! Canonical memories: instructions, events and the step. -/

namespace Sys2Proof
open Machine

/-- What an instruction leaves, where it completes, is in canonical form. -/
structure Machine.KeepsWf (o : Host.Outcome State Fault Refusal) : Prop where
  wf : ∀ t, o = .next t → MemWf t

theorem keeps_next {s : State} (h : MemWf s) : KeepsWf (.next s) := by
  constructor
  rintro t ⟨⟩
  exact h

theorem runWordWith_keeps {s : State} (h : MemWf s) {i : Instr} {pre align : Issue → State → Option (Cause × Info)}
    {body : Issue → State → Act} (hb : ∀ is s, MemWf s → (body is s).Wf) : KeepsWf (runWordWith i pre align body s) := by
  unfold runWordWith
  split
  · exact keeps_next h
  · exact keeps_next (h.issueWord _ _ _ (hb _ s h))

theorem runWord_keeps {s : State} (h : MemWf s) {i : Instr} {body : Issue → State → Act} (hb : ∀ is s, MemWf s → (body is s).Wf) :
    KeepsWf (runWord i body s) := runWordWith_keeps h hb

theorem execLd_keeps {s : State} (h : MemWf s) (sz : LdSize) (x : MemArgs) : KeepsWf (execLd sz x s) := by
  refine runWordWith_keeps h fun is t ht => ?_
  split
  · exact rwLoad_wf ht ..
  · exact memBody_wf ht ..

theorem execSt_keeps {s : State} (h : MemWf s) (sz : StSize) (x : MemArgs) : KeepsWf (execSt sz x s) := by
  refine runWordWith_keeps h fun is t ht => ?_
  split
  · exact rwStore_wf ht ..
  · exact memBody_wf ht ..

theorem execVmerge_keeps {s : State} (h : MemWf s) (y : MergeTy) (dh : VOp) (org : Bool) (x : V3) :
    KeepsWf (execVmerge y dh org x s) := by
  refine runWord_keeps h fun is t ht => ?_
  split
  · trivial
  · exact vmergeBody_wf ht ..

theorem execL1Fill_keeps {s : State} (h : MemWf s) (core idx : Nat) : KeepsWf (execL1Fill core idx s) := by
  unfold execL1Fill
  split
  · exact keeps_next h
  · exact keeps_next (((h.fillOps ..).l1Install ..).modCore _ _)

theorem execHeldInvalidate_keeps {s : State} (h : MemWf s) (core : Nat) : KeepsWf (execHeldInvalidate core s) := by
  refine keeps_next ?_
  split
  · exact h
  · refine .ite h ?_
    dsimp only
    split
    · exact ((h.flash core).modCore _ _).endMop _
    · exact (h.flash core).modCore _ _

/-- The units of a store that a timeout ends. -/
theorem MemWf.storeSteps {s : State} (h : MemWf s) (op n : Nat) :
    MemWf (n.repeat (fun t => match mget t.mops op with | some o => t.storeStep o true | none => t) s) := by
  induction n with
  | zero => exact h
  | succ n ih =>
    unfold Nat.repeat
    split
    · exact ih.storeStep ..
    · exact ih

theorem execUalRequestTimeout_keeps {s : State} (h : MemWf s) (op : Nat) : KeepsWf (execUalRequestTimeout op s) := by
  unfold execUalRequestTimeout
  split
  · exact keeps_next h
  next o _ =>
  refine keeps_next (.ite ?_ h)
  refine .ite (h.waitPort o) ?_
  split
  · exact (h.waitPort o).loadStep ..
  · exact (h.waitPort o).loadStep ..
  · exact (h.waitPort o).storeSteps ..
  · exact (h.waitPort o).storeSteps ..
  · exact (h.waitPort o).atomStep ..
  · exact h

theorem execGeoExactLane_keeps {s : State} (h : MemWf s) (core op lane : Nat) : KeepsWf (execGeoExactLane core op lane s) := by
  unfold execGeoExactLane
  split
  · exact keeps_next h
  split
  · exact keeps_next h
  split
  · exact keeps_next (((h.setEop _).modCore _ _).takeExact _)
  · exact keeps_next h

theorem execGeoComplete_keeps {s : State} (h : MemWf s) (op : Nat) : KeepsWf (execGeoComplete op s) := by
  unfold execGeoComplete
  split
  · exact keeps_next h
  split
  · exact keeps_next h
  · exact keeps_next (h.geoEnd ..)

theorem execCollSignal_keeps {s : State} (h : MemWf s) (slot : Fin 64) (node : Nat) : KeepsWf (execCollSignal slot node s) :=
  keeps_next (h.semNode _ _ _ _ _ fun _ _ _ ht => ((ht.engWrite ..).modCslot _ _).runSettle _)

theorem execCollWaitPoll_keeps {s : State} (h : MemWf s) (slot : Fin 64) (node : Nat) : KeepsWf (execCollWaitPoll slot node s) :=
  keeps_next (h.semNode _ _ _ _ _ fun _ _ _ ht =>
    .ite ((ht.locTouch ..).setEop _) (.ite (((ht.locTouch ..).modCslot _ _).runSettle _) (ht.locTouch ..)))

theorem execAtomComplete_keeps {s : State} (h : MemWf s) (op : Nat) : KeepsWf (execAtomComplete op s) := by
  unfold execAtomComplete
  split
  · exact keeps_next h
  refine keeps_next ?_
  split
  · exact h.atomStep ..
  · exact h

theorem execAttnComplete_keeps {s : State} (h : MemWf s) (op : Nat) : KeepsWf (execAttnComplete op s) := by
  unfold execAttnComplete
  split
  · exact keeps_next h
  refine keeps_next ?_
  split
  · exact .ite (h.runAttn ..) h
  · exact h

theorem execKvcommitWrite_keeps {s : State} (h : MemWf s) (op : Nat) : KeepsWf (execKvcommitWrite op s) := by
  unfold execKvcommitWrite
  split
  · exact keeps_next h
  refine keeps_next ?_
  split
  · exact .ite (h.endEng _) (.ite (h.kvcommitStep _) h)
  · exact h

theorem execCxcmdLoadslot_keeps {s : State} (h : MemWf s) : KeepsWf (execCxcmdLoadslot s) := by
  refine keeps_next ?_
  split
  · exact h.loadSlot _
  · exact h

theorem execCxcmdRecode_keeps {s : State} (h : MemWf s) : KeepsWf (execCxcmdRecode s) := by
  refine keeps_next ?_
  split
  · exact h.recode ..
  · exact h

theorem execCxcmdDump_keeps {s : State} (h : MemWf s) : KeepsWf (execCxcmdDump s) := by
  refine keeps_next ?_
  split
  · exact h.dumpFrame _
  · exact h

theorem execCtxcmdSuspend_keeps {s : State} (h : MemWf s) : KeepsWf (execCtxcmdSuspend s) := by
  refine keeps_next ?_
  split
  · exact h.startCtxcmd _
  · exact .ite (ctxFree_wf h) h
  · exact h

theorem execCtxcmdResume_keeps {s : State} (h : MemWf s) : KeepsWf (execCtxcmdResume s) := by
  refine keeps_next ?_
  split
  · exact h.startCtxcmd _
  · exact h.resumeCtx _
  · exact h

theorem execCtxcmdEnd_keeps {s : State} (h : MemWf s) : KeepsWf (execCtxcmdEnd s) := by
  refine keeps_next ?_
  split
  · exact h.startCtxcmd _
  · exact .ite (h.discardCtx _) h
  · exact h.endedCtx _
  · exact h

theorem execRegisterWrite_keeps {s : State} (h : MemWf s) (off n : Nat) (v : W64) : KeepsWf (execRegisterWrite off n v s) := by
  refine keeps_next (.ite h ?_)
  cases hm : s.mmioWrite off n v.toNat with
  | none => exact h
  | some t => exact h.mmioWrite _ _ _ t hm

theorem execGridRetire_keeps {s : State} (h : MemWf s) (grid : Nat) : KeepsWf (execGridRetire grid s) := by
  unfold execGridRetire
  split
  · exact keeps_next h
  · exact keeps_next (h.retireGrid _)

theorem execLaunchDescriptorRead_keeps {s : State} (h : MemWf s) (op : Nat) : KeepsWf (execLaunchDescriptorRead op s) := by
  unfold execLaunchDescriptorRead
  split
  · exact keeps_next h
  · exact keeps_next (.ite (h.launchRead _) h)

theorem execLaunchAccept_keeps {s : State} (h : MemWf s) (op : Nat) : KeepsWf (execLaunchAccept op s) := by
  unfold execLaunchAccept
  split
  · exact keeps_next h
  · exact keeps_next (h.launchAccept _)

theorem execLdComplete_keeps {s : State} (h : MemWf s) (op : Nat) : KeepsWf (execLdComplete op s) := by
  unfold execLdComplete
  split
  · exact keeps_next h
  · exact keeps_next (.ite (h.loadStep ..) h)

theorem execStorePerformed_keeps {s : State} (h : MemWf s) (op : Nat) : KeepsWf (execStorePerformed op s) := by
  unfold execStorePerformed
  split
  · exact keeps_next h
  · exact keeps_next (.ite (h.storeStep ..) h)

theorem execCopyComplete_keeps {s : State} (h : MemWf s) (op : Nat) : KeepsWf (execCopyComplete op s) := by
  unfold execCopyComplete
  split
  · exact keeps_next h
  · exact keeps_next (h.copyEnd _)

theorem execPrefetchComplete_keeps {s : State} (h : MemWf s) (op : Nat) : KeepsWf (execPrefetchComplete op s) := by
  unfold execPrefetchComplete
  split
  · exact keeps_next h
  · exact keeps_next (h.prefetchStep _)

theorem execMatrixOpComplete_keeps {s : State} (h : MemWf s) (op : Nat) : KeepsWf (execMatrixOpComplete op s) := by
  unfold execMatrixOpComplete
  split
  · exact keeps_next h
  · exact keeps_next (.ite h (h.runMatrix _))

theorem execKvWordComplete_keeps {s : State} (h : MemWf s) (op : Nat) : KeepsWf (execKvWordComplete op s) := by
  unfold execKvWordComplete
  split
  · exact keeps_next h
  · exact keeps_next (h.kvStep _)

theorem execKvLockRetry_keeps {s : State} (h : MemWf s) (op : Nat) : KeepsWf (execKvLockRetry op s) := by
  unfold execKvLockRetry
  split
  · exact keeps_next h
  · exact keeps_next (.ite (h.kvStep _) h)

theorem exec_keeps {s : State} (h : MemWf s) (i : Instr) : KeepsWf (exec i s) := by
  cases i with
  | nop => exact runWord_keeps h fun _ _ ht => ht
  | bra => exact runWord_keeps h fun _ _ ht => branchBody_wf ht ..
  | call => exact runWord_keeps h fun _ _ ht => callBody_wf ht ..
  | ret => exact runWordWith_keeps h fun _ _ ht => branchBody_wf ht ..
  | brx => exact runWordWith_keeps h fun _ _ ht => branchBody_wf ht ..
  | split => exact runWord_keeps h fun _ _ ht => splitBody_wf ht ..
  | join => exact runWord_keeps h fun _ _ ht => parkBody_wf ht ..
  | waitk => exact runWord_keeps h fun _ _ ht => parkBody_wf ht ..
  | reform => exact runWordWith_keeps h fun _ _ ht => reformBody_wf ht ..
  | loop => exact runWord_keeps h fun _ _ ht => loopBody_wf ht ..
  | bar => exact runWord_keeps h fun _ _ ht => barBody_wf ht ..
  | convene => exact runWord_keeps h fun _ _ ht => conveneBody_wf ht ..
  | disband => exact runWord_keeps h fun _ _ ht => disbandBody_wf ht ..
  | exit => exact runWord_keeps h fun _ _ ht => exitBody_wf ht ..
  | pand => exact runWord_keeps h fun _ _ ht => predBody_wf ht ..
  | por => exact runWord_keeps h fun _ _ ht => predBody_wf ht ..
  | pxor => exact runWord_keeps h fun _ _ ht => predBody_wf ht ..
  | pandn => exact runWord_keeps h fun _ _ ht => predBody_wf ht ..
  | trap => exact runWord_keeps h fun _ _ ht => trapBody_wf ht ..
  | sadd => exact runWord_keeps h fun _ _ ht => scalarBody_wf ht ..
  | ssub => exact runWord_keeps h fun _ _ ht => scalarBody_wf ht ..
  | sand => exact runWord_keeps h fun _ _ ht => scalarBody_wf ht ..
  | sor => exact runWord_keeps h fun _ _ ht => scalarBody_wf ht ..
  | sxor => exact runWord_keeps h fun _ _ ht => scalarBody_wf ht ..
  | sshl => exact runWord_keeps h fun _ _ ht => scalarBody_wf ht ..
  | sshr => exact runWord_keeps h fun _ _ ht => scalarBody_wf ht ..
  | ssra => exact runWord_keeps h fun _ _ ht => scalarBody_wf ht ..
  | smul => exact runWord_keeps h fun _ _ ht => scalarBody_wf ht ..
  | smulh => exact runWord_keeps h fun _ _ ht => scalarBody_wf ht ..
  | smulhn => exact runWord_keeps h fun _ _ ht => scalarBody_wf ht ..
  | smin => exact runWord_keeps h fun _ _ ht => scalarBody_wf ht ..
  | sminn => exact runWord_keeps h fun _ _ ht => scalarBody_wf ht ..
  | smax => exact runWord_keeps h fun _ _ ht => scalarBody_wf ht ..
  | smaxn => exact runWord_keeps h fun _ _ ht => scalarBody_wf ht ..
  | scmp => exact runWord_keeps h fun _ _ ht => scalarBody_wf ht ..
  | sdiv => exact runWord_keeps h fun _ _ ht => scalarBody_wf ht ..
  | sdivn => exact runWord_keeps h fun _ _ ht => scalarBody_wf ht ..
  | srem => exact runWord_keeps h fun _ _ ht => scalarBody_wf ht ..
  | sremn => exact runWord_keeps h fun _ _ ht => scalarBody_wf ht ..
  | sclz => exact runWord_keeps h fun _ _ ht => scalarBody1_wf ht ..
  | spopc => exact runWord_keeps h fun _ _ ht => scalarBody1_wf ht ..
  | sbrev => exact runWord_keeps h fun _ _ ht => scalarBody1_wf ht ..
  | saddi => exact runWord_keeps h fun _ _ ht => scalarBodyI_wf ht ..
  | smovi => exact runWord_keeps h fun _ _ ht => scalarBodyI_wf ht ..
  | sshin => exact runWord_keeps h fun _ _ ht => scalarBodyI_wf ht ..
  | rte => exact runWord_keeps h fun _ _ ht => rteBody_wf ht ..
  | vadd => exact runWord_keeps h fun _ _ ht => intBody_wf ht ..
  | vsub => exact runWord_keeps h fun _ _ ht => intBody_wf ht ..
  | vmul => exact runWord_keeps h fun _ _ ht => intBody_wf ht ..
  | vmulh => exact runWord_keeps h fun _ _ ht => intBody_wf ht ..
  | vaddsat => exact runWord_keeps h fun _ _ ht => intBody_wf ht ..
  | vsubsat => exact runWord_keeps h fun _ _ ht => intBody_wf ht ..
  | vmin => exact runWord_keeps h fun _ _ ht => intBody_wf ht ..
  | vmax => exact runWord_keeps h fun _ _ ht => intBody_wf ht ..
  | vand => exact runWord_keeps h fun _ _ ht => logicBody_wf ht ..
  | vor => exact runWord_keeps h fun _ _ ht => logicBody_wf ht ..
  | vxor => exact runWord_keeps h fun _ _ ht => logicBody_wf ht ..
  | vshl => exact runWord_keeps h fun _ _ ht => intBody_wf ht ..
  | vshr => exact runWord_keeps h fun _ _ ht => intBody_wf ht ..
  | vcmp => exact runWord_keeps h fun _ _ ht => vcmpBody_wf ht ..
  | vmov => exact runWord_keeps h fun _ _ ht => unBody_wf ht ..
  | vclz => exact runWord_keeps h fun _ _ ht => unBody_wf ht ..
  | vpopc => exact runWord_keeps h fun _ _ ht => unBody_wf ht ..
  | vbrev => exact runWord_keeps h fun _ _ ht => unBody_wf ht ..
  | vaddi => exact runWord_keeps h fun _ _ ht => unBody_wf ht ..
  | vshli => exact runWord_keeps h fun _ _ ht => unBody_wf ht ..
  | vshri => exact runWord_keeps h fun _ _ ht => unBody_wf ht ..
  | vsrai => exact runWord_keeps h fun _ _ ht => unBody_wf ht ..
  | vmovi => exact runWord_keeps h fun _ _ ht => vmoviBody_wf ht ..
  | vbcast => exact runWord_keeps h fun _ _ ht => vbcastBody_wf ht ..
  | vreadl => exact runWord_keeps h fun _ _ ht => vreadlBody_wf ht ..
  | vfadd => exact runWord_keeps h fun _ _ ht => fpBody_wf ht ..
  | vfsub => exact runWord_keeps h fun _ _ ht => fpBody_wf ht ..
  | vfmul => exact runWord_keeps h fun _ _ ht => fpBody_wf ht ..
  | vfma => exact runWord_keeps h fun _ _ ht => fpBody_wf ht ..
  | vfmin => exact runWord_keeps h fun _ _ ht => fmmBody_wf ht ..
  | vfmax => exact runWord_keeps h fun _ _ ht => fmmBody_wf ht ..
  | vfcmp => exact runWord_keeps h fun _ _ ht => vfcmpBody_wf ht ..
  | vfdiv => exact runWord_keeps h fun _ _ ht => fpBody_wf ht ..
  | vfsqrt => exact runWord_keeps h fun _ _ ht => fpBody_wf ht ..
  | vfopx => exact runWord_keeps h fun _ _ ht => fpBody_wf ht ..
  | vcvt => exact runWord_keeps h fun _ _ ht => vcvtBody_wf ht ..
  | mxmax => exact runWord_keeps h fun _ _ ht => mxmaxBody_wf ht ..
  | mxscale => exact runWord_keeps h fun _ _ ht => mxscaleBody_wf ht ..
  | mxq => exact runWord_keeps h fun _ _ ht => mxqBody_wf ht ..
  | mxdq => exact runWord_keeps h fun _ _ ht => mxdqBody_wf ht ..
  | vshfl => exact runWord_keeps h fun _ _ ht => vshflBody_wf ht ..
  | vred => exact runWord_keeps h fun _ _ ht => vredBody_wf ht ..
  | vscan => exact runWord_keeps h fun _ _ ht => vscanBody_wf ht ..
  | vballot => exact runWord_keeps h fun _ _ ht => vballotBody_wf ht ..
  | vmerge => exact execVmerge_keeps h ..
  | vid => exact runWord_keeps h fun _ _ ht => vidBody_wf ht ..
  | xset => exact runWordWith_keeps h fun _ _ ht => xsetBody_wf ht ..
  | xldv => exact runWord_keeps h fun _ _ ht => xldvBody_wf ht ..
  | xgetv => exact runWord_keeps h fun _ _ ht => xgetvBody_wf ht ..
  | rgrow => exact runWordWith_keeps h fun _ _ ht => rgrowBody_wf ht ..
  | rshrink => exact runWordWith_keeps h fun _ _ ht => rshrinkBody_wf ht ..
  | vclmul => exact runWord_keeps h fun _ _ ht => vclmulBody_wf ht ..
  | vmad24 => exact runWord_keeps h fun _ _ ht => vmad24Body_wf ht ..
  | ld => exact execLd_keeps h ..
  | st => exact execSt_keeps h ..
  | atom => exact runWordWith_keeps h fun _ _ ht => memBody_wf ht ..
  | ldmx => exact runWordWith_keeps h fun _ _ ht => memBody_wf ht ..
  | stmx => exact runWordWith_keeps h fun _ _ ht => stmxBody_wf ht ..
  | fence => exact runWord_keeps h fun _ _ ht => fenceBody_wf ht ..
  | prefetchL2 => exact runWordWith_keeps h fun _ _ ht => prefetchBody_wf ht ..
  | twait => exact runWordWith_keeps h fun _ _ ht => twaitBody_wf ht ..
  | ifence => exact runWord_keeps h fun _ _ ht => ifenceBody_wf ht ..
  | copy => exact runWord_keeps h fun _ _ ht => copyBody_wf ht ..
  | collLoad => exact runWord_keeps h fun _ _ ht => collLoadBody_wf ht ..
  | collRun => exact runWord_keeps h fun _ _ ht => collRunBody_wf ht ..
  | mma => exact runWord_keeps h fun _ _ ht => quorumBody_wf ht ..
  | compress => exact runWord_keeps h fun _ _ ht => quorumBody_wf ht ..
  | accz => exact runWord_keeps h fun _ _ ht => quorumBody_wf ht ..
  | accmvOut => exact runWord_keeps h fun _ _ ht => quorumBody_wf ht ..
  | accmvIn => exact runWord_keeps h fun _ _ ht => quorumBody_wf ht ..
  | attn => exact runWord_keeps h fun _ _ ht => quorumBody_wf ht ..
  | kvwalk => exact runWord_keeps h fun _ _ ht => kvwalkBody_wf ht ..
  | kvappend => exact runWord_keeps h fun _ _ ht => kvappendBody_wf ht ..
  | kvcommit => exact runWord_keeps h fun _ _ ht => kvcommitBody_wf ht ..
  | geoOrient2 => exact runWord_keeps h fun _ _ ht => geoBody_wf ht ..
  | geoOrient3 => exact runWord_keeps h fun _ _ ht => geoBody_wf ht ..
  | geoIncirc => exact runWord_keeps h fun _ _ ht => geoBody_wf ht ..
  | geoInsphr => exact runWord_keeps h fun _ _ ht => geoBody_wf ht ..
  | geoSegx => exact runWord_keeps h fun _ _ ht => geoBody_wf ht ..
  | launch => exact runWordWith_keeps h fun _ _ ht => launchBody_wf ht ..
  | waitsem => exact runWordWith_keeps h fun _ _ ht => waitsemBody_wf ht ..
  | signalsemSet => exact runWordWith_keeps h fun _ _ ht => signalsemBody_wf ht ..
  | signalsemAdd => exact runWordWith_keeps h fun _ _ ht => signalsemBody_wf ht ..
  | event => exact runWord_keeps h fun _ _ ht => eventBody_wf ht ..
  | csrr => exact runWordWith_keeps h fun _ _ ht => csrrBody_wf ht ..
  | csrw => exact runWordWith_keeps h fun _ _ ht => csrwBody_wf ht ..
  | featq => exact runWord_keeps h fun _ _ ht => featqBody_wf ht ..
  | tlbinvPage => exact runWord_keeps h fun _ _ ht => tlbinvPageBody_wf ht ..
  | tlbinvCtx => exact runWord_keeps h fun _ _ ht => tlbinvStart_wf ht ..
  | tlbinvAll => exact runWord_keeps h fun _ _ ht => tlbinvStart_wf ht ..
  | instructionFetch => exact keeps_next (h.fetchPacket ..)
  | asyncTrapDelivery => exact keeps_next (h.deliverAsync ..)
  | reformFile => exact keeps_next (h.reformFile ..)
  | reformBinAge => exact keeps_next (h.modCore _ _)
  | reformBinIssue => exact keeps_next (h.issueBin ..)
  | blockGrant => exact keeps_next (h.grantBlocks ..)
  | growthDeadlock => exact keeps_next (h.resolveDeadlock ..)
  | readmission => exact keeps_next (h.readmit ..)
  | blockFill => exact keeps_next (h.fillBlock ..)
  | blockWriteback => exact keeps_next (h.writeBackBlock ..)
  | warpRetire => exact keeps_next (h.retireWarp ..)
  | gridRetire => exact execGridRetire_keeps h ..
  | launchDescriptorRead => exact execLaunchDescriptorRead_keeps h ..
  | launchAccept => exact execLaunchAccept_keeps h ..
  | pageWalk => exact keeps_next (h.pageWalk ..)
  | faultRecordPost => exact keeps_next (h.postFault ..)
  | frespReplay => exact keeps_next (h.frespReplay ..)
  | frespNomap => exact keeps_next (h.frespViol ..)
  | frespProt => exact keeps_next (h.frespViol ..)
  | fqtailWrite => exact keeps_next (h.writeFqtail ..)
  | evqtailWrite => exact keeps_next (h.writeEvqtail ..)
  | errtailWrite => exact keeps_next (h.writeErrtail ..)
  | tlbInvalidationComplete => exact keeps_next (h.completeInval ..)
  | ldComplete => exact execLdComplete_keeps h ..
  | storePerformed => exact execStorePerformed_keeps h ..
  | atomComplete => exact execAtomComplete_keeps h ..
  | l1Fill => exact execL1Fill_keeps h ..
  | heldInvalidate => exact execHeldInvalidate_keeps h ..
  | baseDieRequest => exact keeps_next (h.baseDie ..)
  | hostMemRequest => exact keeps_next (.ite (h.serveRequest ..) h)
  | ualRemoteRequest => exact keeps_next (h.serveRequest ..)
  | ualRequestTimeout => exact execUalRequestTimeout_keeps h ..
  | ualPortDown => exact keeps_next (h.setPort ..)
  | ualPortUp => exact keeps_next (h.setPort ..)
  | cxcmdLoadslot => exact execCxcmdLoadslot_keeps h
  | slotGenerationInstall => exact keeps_next (h.drainSlot ..)
  | cxcmdRecode => exact execCxcmdRecode_keeps h
  | cxcmdDump => exact execCxcmdDump_keeps h
  | copyComplete => exact execCopyComplete_keeps h ..
  | prefetchComplete => exact execPrefetchComplete_keeps h ..
  | twaitPoll => exact keeps_next (MemWf.foldl (fun _ _ ht => ht.twaitStep ..) _ h)
  | matrixOpComplete => exact execMatrixOpComplete_keeps h ..
  | attnComplete => exact execAttnComplete_keeps h ..
  | emulatedOpComplete => exact keeps_next (h.emulStep ..)
  | kvWordComplete => exact execKvWordComplete_keeps h ..
  | kvcommitWrite => exact execKvcommitWrite_keeps h ..
  | kvLockRetry => exact execKvLockRetry_keeps h ..
  | geoStageA => exact keeps_next (h.geoStageA ..)
  | geoExactLane => exact execGeoExactLane_keeps h ..
  | geoComplete => exact execGeoComplete_keeps h ..
  | collLoadExecute => exact keeps_next (h.loadStart ..)
  | collRunStart => exact keeps_next (h.runStart ..)
  | creditArrival => exact keeps_next (h.creditArrives ..)
  | chunkArrival => exact keeps_next (h.chunkArrives ..)
  | chunkAckArrival => exact keeps_next (h.ackArrives ..)
  | datapathPiece => exact keeps_next (h.datapath ..)
  | collSignal => exact execCollSignal_keeps h ..
  | collWaitPoll => exact execCollWaitPoll_keeps h ..
  | chunkRetransmit => exact keeps_next (h.retransmit ..)
  | chunkAbandon => exact keeps_next (.ite (h.setCslot ..) h)
  | collRunTimeout => exact keeps_next (.ite (h.runError _) h)
  | dispatchStep => exact keeps_next (.ite (h.dispatch _) h)
  | dispatchReserveTimeout => exact keeps_next (h.reserveFor ..)
  | partitionChange => exact keeps_next (h.changePart ..)
  | preemptBoundary => exact keeps_next (h.boundaryOf ..)
  | preemptHandover => exact keeps_next (h.handUnit ..)
  | saveRecordComplete => exact keeps_next (h.completeSave ..)
  | warpBump => exact keeps_next (h.bumpWarp ..)
  | strctlGo => exact keeps_next (h.streamGo ..)
  | strctlHalt => exact keeps_next (h.streamHalt ..)
  | waitsemPoll => exact keeps_next (h.semPoll ..)
  | eventRecordPost => exact keeps_next (h.postHeld ..)
  | tlbireqPage => exact keeps_next (h.hostInval ..)
  | tlbireqContext => exact keeps_next (h.hostInval ..)
  | tlbireqAll => exact keeps_next (h.hostInval ..)
  | ctxcmdSuspend => exact execCtxcmdSuspend_keeps h
  | ctxcmdResume => exact execCtxcmdResume_keeps h
  | ctxcmdEnd => exact execCtxcmdEnd_keeps h
  | attcmdQuote => exact keeps_next (.ite h.quote h)
  | attcmdDump => exact keeps_next (.ite h.dumpRecorder h)
  | bootctlGo => exact keeps_next (h.bootGo)
  | bootctlWarm => exact keeps_next (h.bootWarm)
  | coldReset => exact keeps_next (h.coldReset)
  | warmWritebackDone => exact keeps_next (h.warmDone ..)
  | bootSelftestDone => exact keeps_next (h.selftestDone ..)
  | imageVerified => exact keeps_next (h.verifyImage)
  | bootZeroingDone => exact keeps_next (.ite (h.zeroDevice _) h)
  | bootReady => exact keeps_next (.ite (h.setRegs _) h)
  | powerWindow => exact keeps_next (h.powerTick ..)
  | thermalTrip => exact keeps_next (.ite ((h.setRegs _).emit _) h)
  | registerWrite => exact execRegisterWrite_keeps h ..
  | cxlCacheSnoop => exact keeps_next (h.snoop ..)
  | linkLevelRetry => exact keeps_next (h.congr rfl rfl)

theorem stepEvent_keeps {s : State} (h : MemWf s) : KeepsWf (stepEvent s) := by
  unfold stepEvent
  split
  · exact exec_keeps (h.countFirmware _) _
  · exact keeps_next h

theorem MemWf.execWaits {s u : State} (h : MemWf s) {i : Instr} (hu : execWaits i s = some u) : MemWf u := by
  unfold Machine.execWaits at hu
  split at hu
  · next v hv =>
    split at hu
    · obtain rfl := Option.some.inj hu
      exact (exec_keeps h i).wf _ hv
    · simp at hu
  · simp at hu

theorem stepWord_keeps (l : List (Nat × Nat)) {s : State} (h : MemWf s) : KeepsWf (stepWord l s) := by
  induction l generalizing s with
  | nil => exact stepEvent_keeps h
  | cons e l ih =>
    obtain ⟨who, lane⟩ := e
    have ha := h.attempt who lane
    unfold stepWord
    split
    · next heq => rw [heq] at ha; exact ih (MemWf.unblock ha ..)
    · next heq => rw [heq] at ha; exact keeps_next (MemWf.useTurn ha)
    · next i t heq =>
      rw [heq] at ha
      split
      · next u hu =>
        obtain ⟨x, hx, hw⟩ := List.exists_of_findSome?_eq_some hu
        exact ih (MemWf.unblock ((MemWf.laterMembers ha who lane x hx).execWaits hw) ..)
      · have he := exec_keeps ha i
        split
        · next u hu =>
          split
          · exact ih (MemWf.unblock (he.wf u hu) ..)
          · exact keeps_next (he.wf u hu).useTurn
        · exact he

theorem MemWf.setAgenda {s : State} (h : MemWf s) (l : List Instr) : MemWf { s with agenda := l } := h.congr rfl rfl

theorem step_keeps {s : State} (h : MemWf s) : KeepsWf (step s) := by
  unfold step
  dsimp only
  split
  · exact stepWord_keeps _ h.tick
  split
  · exact exec_keeps (h.tick.setAgenda _) _
  · split
    · exact stepEvent_keeps h.tick
    · exact stepWord_keeps _ h.tick

/-- Settles O41: each function of the model that changes the state keeps the form, so each instruction does and each step. -/
theorem Machine.memWfStep : Obligations.MemWfStep := by
  unfold Obligations.MemWfStep
  exact fun s t h hs => (step_keeps h).wf t hs

end Sys2Proof
end

section
/-! An access to memory keeps the registers, the operations and the counters of the machine. -/

namespace Sys2Proof.Machine

section
variable {s t : State} (h : t.bare = s.bare)
include h

theorem State.nextId_of_bare : t.nextId = s.nextId := by have := congrArg State.nextId h; exact this
theorem State.mops_of_bare : t.mops = s.mops := by have := congrArg State.mops h; exact this
theorem State.eops_of_bare : t.eops = s.eops := by have := congrArg State.eops h; exact this
theorem State.treqs_of_bare : t.treqs = s.treqs := by have := congrArg State.treqs h; exact this
theorem State.regs_of_bare : t.regs = s.regs := by have := congrArg State.regs h; exact this
theorem State.streams_of_bare : t.streams = s.streams := by have := congrArg State.streams h; exact this
theorem State.grids_of_bare : t.grids = s.grids := by have := congrArg State.grids h; exact this
theorem State.cslots_of_bare : t.cslots = s.cslots := by have := congrArg State.cslots h; exact this
theorem State.clock_of_bare : t.clock = s.clock := by have := congrArg State.clock h; exact this

theorem State.warp_of_bare (n : Nat) : t.warp n = s.warp n := by
  unfold State.warp
  rw [State.warps_of_bare h]

theorem State.ctl_of_bare (n : Nat) : t.ctl n = s.ctl n := by
  unfold State.ctl
  rw [State.ctls_of_bare h]

end

variable (s : State)

@[simp] theorem State.bare_sideWrite (line : Nat) (v : W64) : (s.sideWrite line v).bare = s.bare := rfl

theorem State.bare_holding (qs : List BdReq) {f : State → State} (hf : ∀ s, (f s).bare = s.bare) : (s.holding qs f).bare = s.bare := by
  unfold State.holding
  split
  · exact hf s
  · dsimp only
    rw [State.bare_foldl (fun s q => s.bare_releaseGen q), State.bare_memChange, hf, State.bare_memChange]

@[simp] theorem State.bare_fetchSector (pa : Nat) (r : Requester) (keep : List Nat) : (s.fetchSector pa r keep).bare = s.bare := by
  unfold State.fetchSector
  split
  · rfl
  · split <;> simp

@[simp] theorem State.bare_touchSector (sec : Nat) (r : Requester) (keep : List Nat) : (s.touchSector sec r keep).bare = s.bare := by
  unfold State.touchSector
  split
  · rfl
  · dsimp only
    split <;> simp

@[simp] theorem State.bare_touch (pa n : Nat) (r : Requester) : (s.touch pa n r).bare = s.bare := by
  unfold State.touch
  split
  · rfl
  · exact s.bare_holding _ fun t => State.bare_foldl (fun t k => t.bare_touchSector k r _) _ t

@[simp] theorem State.bare_physWrite (pa : Nat) (bs : List Byte) (r : Requester) : (s.physWrite pa bs r).bare = s.bare := by
  unfold State.physWrite
  split
  · rfl
  · dsimp only
    rw [apply_ite State.bare, State.bare_l2Write, ite_self]
    refine s.bare_holding _ fun t => State.bare_foldl (fun t k => ?_) _ t
    split
    · exact t.bare_touchSector ..
    · split
      · rfl
      · exact t.bare_takeSector ..

@[simp] theorem State.bare_locTouch (l : Loc) (n : Nat) (r : Requester) : (s.locTouch l n r).bare = s.bare := by
  unfold State.locTouch
  split
  · split <;> simp
  · rfl

@[simp] theorem State.bare_locWrite (l : Loc) (bs : List Byte) (r : Requester) : (s.locWrite l bs r).bare = s.bare := by
  unfold State.locWrite
  split <;> simp

@[simp] theorem State.bare_locSetSide (l : Loc) (v : W64) : (s.locSetSide l v).bare = s.bare := by
  unfold State.locSetSide
  split
  · split <;> simp
  · simp
  · rfl

/-- Reading a region entry takes no number of the machine's. -/
@[simp] theorem State.noteRegion_nextId (ctx n : Nat) (r : Requester) : (s.noteRegion ctx n r).nextId = s.nextId := by
  unfold State.noteRegion
  split
  · rfl
  · dsimp only
    split <;> exact (State.nextId_of_bare (s.bare_touch ..) :)

@[simp] theorem State.noteVa_nextId (ctx va : Nat) (r : Requester) : (s.noteVa ctx va r).nextId = s.nextId := by
  unfold State.noteVa
  split
  · exact s.noteRegion_nextId ..
  · rfl

end Sys2Proof.Machine
end

section
/-! Issue of the lane memory words: their addresses, the operation they start and the traps before it (R18, R19, R82, R117, R328, R333). -/

namespace Sys2Proof.Machine

/-! ### The operation -/

theorem State.makeTreqs_frame (s : State) (who core ctx : Nat) (acc : Acc) (log : Nat) (hold : Bool) (ps : List Nat) :
    (s.makeTreqs who core ctx acc log hold ps).2.plain = s.plain ∧ s.nextId ≤ (s.makeTreqs who core ctx acc log hold ps).2.nextId ∧
      (s.makeTreqs who core ctx acc log hold ps).2.mem = s.mem := by
  induction ps generalizing s with
  | nil => exact ⟨rfl, Nat.le_refl _, rfl⟩
  | cons p ps ih =>
    obtain ⟨h1, h2, h3⟩ := ih (s.newTreq ctx p acc core who false log (if hold then .wait else s.tlbState who core ctx p acc)).2
    exact ⟨h1.trans (s.plain_newTreq ..), Nat.le_trans (Nat.le_succ _) h2, h3⟩

theorem State.noteAll_frame (s : State) (who ctx : Nat) (i : Instr) (eas : SMap Int) (r : Requester) :
    (s.noteAll who ctx i eas r).plain = s.plain ∧ (s.noteAll who ctx i eas r).nextId = s.nextId := by
  unfold State.noteAll
  refine ⟨State.plain_foldl (fun t a => t.plain_noteVa ctx a r) _ s, ?_⟩
  generalize s.readsAt who i eas = l
  induction l generalizing s with
  | nil => rfl
  | cons a l ih => exact (ih _).trans (s.noteVa_nextId ctx a r)

theorem State.dropAtomLines_frame (s : State) (o : MemOp) :
    (s.dropAtomLines o).plain = s.plain ∧ (s.dropAtomLines o).mem = s.mem := by
  unfold State.dropAtomLines
  generalize o.place.filterMap (fun e => s.lineAt e.2) = l
  refine ⟨State.plain_foldl (f := fun t l => t.l1Drop o.core l) (fun _ _ => rfl) _ s, ?_⟩
  induction l generalizing s with
  | nil => rfl
  | cons a l ih => exact ih _

/-- What a lane memory word that starts knows of its lanes: the place, the page requests and the log entry are left open. -/
structure Captures (is : Issue) (s : State) (o : MemOp) : Prop where
  who : o.who = is.who
  instr : o.instr = is.i
  pc : o.pc = is.pc
  mask : o.mask = is.mask
  flag : o.flag = is.flag
  started : o.started = false
  ea : o.ea = is.over (eaOf is s)
  data : o.data = is.over (dataOf is)
  cmp : o.cmp = is.over (cmpOf is)
  dst : o.dst = (memDst is.i).elim [] (fun u => is.over (regOf is.w (vuses is.i) u))

/-- The state in which operation `o` of the word has been started, with `n` stores more that are not acknowledged. -/
def State.started (s : State) (is : Issue) (o : MemOp) (n : Nat) : State :=
  ((s.setMop o).incFlag is.who is.flag).modCtl is.who (fun c => { c with unacked := c.unacked + n })

theorem State.started_mem (s : State) (is : Issue) (o : MemOp) (n : Nat) : (s.started is o n).mem = s.mem := by
  unfold State.started
  cases is.flag <;> rfl

/-- With room the word starts its operation, whose number is new. -/
theorem memStart_room {is : Issue} {s : State} (h : s.memRoom is = true) :
    ∃ (u v : State) (o : MemOp), memStart is s = .next v ∧ Captures is s o ∧ s.nextId ≤ o.id ∧ u.plain = s.plain ∧
      (s.noteAll is.who is.ctx is.i (is.over (eaOf is s)) (reqOf is.who false is.ctx is.pc) = s → v.mem = s.mem) ∧
      v.plain = (u.started is o (storeCost is.i (is.over (eaOf is s)))).plain := by
  obtain ⟨n1, n2⟩ := s.noteAll_frame is.who is.ctx is.i (is.over (eaOf is s)) (reqOf is.who false is.ctx is.pc)
  unfold memStart
  dsimp only
  rw [if_neg (by simp [h])]
  generalize s.noteAll is.who is.ctx is.i (is.over (eaOf is s)) (reqOf is.who false is.ctx is.pc) = s0 at n1 n2 ⊢
  generalize s0.presOf is.who is.ctx is.i (is.over (eaOf is s)) = pres
  obtain ⟨m1, m2, m3⟩ := s0.makeTreqs_frame is.who (coreOf is.who) is.ctx (memAcc is.i)
    ((s0.lookupPages is.who (coreOf is.who) is.ctx (memAcc is.i) (s0.memKeys is.ctx pres) (s0.pagesOf is.ctx pres)).1.getD 0)
    (s0.keyHeld is.who (s0.memKeys is.ctx pres) s0.nextId) (s0.pagesOf is.ctx pres)
  refine ⟨?u, _, ?o, rfl, ?caps, ?fresh, ?same, ?mem, ?last⟩
  case last =>
    split
    · exact (State.dropAtomLines_frame _ _).1
    · rfl
  · exact ⟨rfl, rfl, rfl, rfl, rfl, rfl, rfl, rfl, rfl, rfl⟩
  · exact n2 ▸ m2
  · exact m1.trans n1
  · intro hs
    have hm := m3.trans (congrArg State.mem hs)
    split
    · exact (State.dropAtomLines_frame _ _).2.trans ((State.started_mem _ is _ _).trans hm)
    · exact (State.started_mem _ is _ _).trans hm

theorem memStart_full {is : Issue} {s : State} (h : s.memRoom is = false) :
    memStart is s = .hold (s.modCtl is.who (fun c => { c with stall := some is.lane })) := by
  simp [memStart, h]

/-! ### The word as it issues -/

theorem mget_map {α β : Type} (f : α → β) (m : SMap α) (k : Nat) : mget (m.map (fun e => (e.1, f e.2))) k = (mget m k).map f := by
  induction m with
  | nil => rfl
  | cons e m ih =>
    rw [List.map_cons, mget, mget]
    split
    · rfl
    · exact ih

/-- An operation that the end of a word leaves is as before, but for the note of what a higher slot has written. -/
theorem WordFrame.mop {s t : State} {who id : Nat} {o : MemOp} (h : WordFrame s t who) (ho : mget s.mops id = some o) :
    ∃ l, mget t.mops id = some { o with outdone := l } := by
  have hm := congrArg (fun m => mget m id) h.mops
  simp only [State.mopsPlain, mget_map (fun o : MemOp => { o with outdone := [] }), ho, Option.map_some] at hm
  obtain ⟨p, hp, he⟩ := Option.map_eq_some_iff.1 hm
  refine ⟨p.outdone, hp.trans (congrArg some ?_)⟩
  have := congrArg (fun x : MemOp => ({ x with outdone := p.outdone } : MemOp)) he
  exact this

theorem Warp.core_flag {v w : Warp} (h : v.core = w.core) (k : Nat) : v.flag k = w.flag k := by
  have := congrArg Warp.cf h
  unfold Warp.flag
  exact congrArg (fun m => mgetD m k 0) this

theorem WarpCtl.unissued_unacked {c d : WarpCtl} (h : c.unissued = d.unissued) : c.unacked = d.unacked := by
  have := congrArg WarpCtl.unacked h
  exact this

section
variable (s : State) (is : Issue) (o : MemOp) (n : Nat)

@[simp] theorem State.warp_setMop (m : Nat) : (s.setMop o).warp m = s.warp m := rfl
@[simp] theorem State.ctl_setMop (m : Nat) : (s.setMop o).ctl m = s.ctl m := rfl

theorem State.started_warp_same : (s.started is o n).warp is.who = (s.incFlag is.who is.flag).warp is.who := by
  unfold State.started State.incFlag
  cases is.flag <;> simp

theorem State.started_others {m : Nat} (hm : m ≠ is.who) : (s.started is o n).warp m = s.warp m ∧ (s.started is o n).ctl m = s.ctl m := by
  unfold State.started State.incFlag
  cases is.flag <;> simp [State.warp_modWarp_other _ _ hm, State.ctl_modCtl_other _ _ hm]

theorem State.started_ctl : ((s.started is o n).ctl is.who).unacked = (s.ctl is.who).unacked + n := by
  unfold State.started State.incFlag
  cases is.flag <;> simp

theorem State.started_mops : (s.started is o n).mops = mset s.mops o.id o := by
  unfold State.started State.incFlag
  cases is.flag <;> rfl

theorem State.started_wgs : (s.started is o n).wgs = s.wgs := by
  unfold State.started State.incFlag
  cases is.flag <;> rfl

theorem State.started_cur : (s.started is o n).cur = s.cur := by
  unfold State.started State.incFlag
  cases is.flag <;> rfl

/-- Counting a flag up leaves the registers. -/
theorem State.incFlag_warp (who : Nat) (f : Option Nat) : ((s.incFlag who f).warp who).s = (s.warp who).s ∧
    ((s.incFlag who f).warp who).p = (s.warp who).p ∧ ((s.incFlag who f).warp who).blocks = (s.warp who).blocks ∧
    ∀ k, ((s.incFlag who f).warp who).flag k = (s.warp who).flag k + if f = some k then 1 else 0 := by
  unfold State.incFlag
  cases f with
  | none => simp
  | some j =>
    simp only [State.warp_modWarp]
    refine ⟨rfl, rfl, rfl, fun k => ?_⟩
    by_cases hk : k = j
    · subst hk
      simp [Warp.setFlag, Warp.flag, mgetD]
    · simp [Warp.setFlag, Warp.flag, mgetD, mget_mset_other _ _ hk, Ne.symm hk]

end

/-- A lane memory word with room begins its operation, with the values its registers hold now. -/
theorem memBegins_of {s : State} {i : Instr} {is : Issue} {body : Issue → State → Act} {ea : Nat → Int}
    (h : s.readyWith i noCheck memAlign = some is) (he : Machine.exec i s = runWordWith i noCheck memAlign body s)
    (hb : body is s = memStart is s) (hr : s.memRoom is = true) (hea : eaOf is s = ea) :
    ∃ t o, Machine.exec i s = .next t ∧ MemBegins s t is ea o ∧ o.data = is.over (dataOf is) ∧ o.cmp = is.over (cmpOf is) ∧
      o.dst = (memDst i).elim [] (fun u => is.over (regOf is.w (vuses i) u)) := by
  subst hea
  obtain ⟨rfl, -⟩ := State.ready_issue h
  obtain ⟨u, v, o, hv, c, hf, hu, hm, hp⟩ := memStart_room hr
  have hw : ∀ m, v.warp m = (u.started is o (storeCost is.i (is.over (eaOf is s)))).warp m := State.warp_of_plain hp
  have hx : ∀ m, v.ctl m = (u.started is o (storeCost is.i (is.over (eaOf is s)))).ctl m := State.ctl_of_plain hp
  obtain ⟨ht, e⟩ := wordEnd_of h he (hb.trans hv)
    ((State.cur_of_plain hp).trans ((State.started_cur ..).trans (State.cur_of_plain hu)))
  generalize v.finish is = t at ht e
  obtain ⟨l, hl⟩ := e.frame.mop (id := o.id) (o := o) (by rw [State.mops_of_plain hp, State.started_mops]; simp)
  obtain ⟨f1, f2, f3, f4⟩ := e.fields
  obtain ⟨g1, g2, g3, g4⟩ := u.incFlag_warp is.who is.flag
  rw [hw, State.started_warp_same] at f1 f2 f3 f4
  rw [g1, State.warp_of_plain hu] at f1
  rw [g2, State.warp_of_plain hu] at f2
  rw [g3, State.warp_of_plain hu] at f3
  refine ⟨t, { o with outdone := l }, ht, ⟨hl, hf, ⟨c.who, c.instr, c.pc, c.mask, c.flag, c.started⟩, fun L hL => ?_, ?_, fun hn => ?_, ?_,
    ⟨f1, f2, f3, fun k => ?_, fun m hm => ?_⟩⟩, c.data, c.cmp, c.dst⟩
  · show mget o.ea L = _
    rw [c.ea]
    exact mget_over _ _ hL
  · rw [WarpCtl.unissued_unacked e.frame.ctl, hx, State.started_ctl, State.ctl_of_plain hu]
  · exact e.frame.mem.trans (hm hn)
  · exact e.frame.wgs.trans ((State.wgs_of_plain hp).trans ((State.started_wgs ..).trans (State.wgs_of_plain hu)))
  · rw [Warp.core_flag f4, g4, State.warp_of_plain hu]
  · obtain ⟨a, b⟩ := e.frame.others m hm
    obtain ⟨a', b'⟩ := u.started_others is o (storeCost is.i (is.over (eaOf is s))) hm
    exact ⟨a.trans ((hw m).trans (a'.trans (State.warp_of_plain hu m))), b.trans ((hx m).trans (b'.trans (State.ctl_of_plain hu m)))⟩

/-- A lane memory word whose body is the common one goes on, begins its operation or stalls. -/
theorem memStarts_of {s : State} {i : Instr} {is : Issue} {body : Issue → State → Act} {ea : Nat → Int} {more : MemOp → Prop}
    (he : Machine.exec i s = runWordWith i noCheck memAlign body s) (hb : is.i = i → body is s = memBody is s)
    (hea : is.i = i → eaOf is s = ea)
    (hm : ∀ o : MemOp, is.i = i → o.data = is.over (dataOf is) → o.cmp = is.over (cmpOf is) →
      o.dst = (memDst i).elim [] (fun u => is.over (regOf is.w (vuses i) u)) → more o)
    (h : s.readyWith i noCheck memAlign = some is) :
    (is.mask = 0 → ∃ t, Machine.exec i s = .next t ∧ RegFrame i s t is) ∧
    (is.mask ≠ 0 → s.memRoom is = true → ∃ t o, Machine.exec i s = .next t ∧ MemBegins s t is ea o ∧ more o) ∧
    (is.mask ≠ 0 → s.memRoom is = false → Machine.exec i s =
      .next { s.modCtl is.who (fun c => { c with stall := some is.lane }) with blocked := true }) := by
  have hi := (State.ready_issue h).1
  refine ⟨fun h0 => regFrame_of h he ((hb hi).trans (if_pos h0)), fun h0 hr => ?_, fun h0 hr => ?_⟩
  · obtain ⟨t, o, ht, hbg, h1, h2, h3⟩ := memBegins_of h he ((hb hi).trans (if_neg h0)) hr (hea hi)
    exact ⟨t, o, ht, hbg, hm o hi h1 h2 h3⟩
  · exact hold_of h he ((hb hi).trans ((if_neg h0).trans (memStart_full hr)))

theorem Issue.mget_over (is : Issue) {α : Type} (f : Nat → α) {L : Nat} (h : L ∈ lanesOf is.mask) : mget (is.over f) L = some (f L) :=
  Machine.mget_over _ f h

theorem byteOf_eq (v p : Nat) : byteOf v p = v / 256 ^ p % 256 := by
  unfold byteOf
  rw [Nat.pow_mul]

theorem pair_words (a b : W32) (k : Nat) (hk : k < 2) :
    ((a ++ b : W64).setWidth 128).extractLsb' (32 * k) 32 = if k = 0 then b else a := by
  have hab : (a ++ b : W64).toNat = a.toNat * 2 ^ 32 + b.toNat := by
    rw [show (a ++ b : W64).toNat = _ from BitVec.toNat_append a b, ← Nat.shiftLeft_add_eq_or_of_lt b.isLt, Nat.shiftLeft_eq]
  refine BitVec.eq_of_toNat_eq ?_
  rw [BitVec.extractLsb'_toNat, BitVec.toNat_setWidth, hab, Nat.shiftRight_eq_div_pow]
  have := a.isLt
  have := b.isLt
  obtain rfl | rfl : k = 0 ∨ k = 1 := by omega
  · simp; omega
  · simp; omega

theorem quad_words (a b c d : W32) (k : Nat) (hk : k < 4) :
    (a ++ b ++ c ++ d : W128).extractLsb' (32 * k) 32 = if k = 0 then d else if k = 1 then c else if k = 2 then b else a := by
  have hab : (a ++ b ++ c ++ d : W128).toNat = a.toNat * 2 ^ 96 + b.toNat * 2 ^ 64 + c.toNat * 2 ^ 32 + d.toNat := by
    rw [show (a ++ b ++ c ++ d : W128).toNat = _ from BitVec.toNat_append (a ++ b ++ c) d,
      ← Nat.shiftLeft_add_eq_or_of_lt d.isLt, Nat.shiftLeft_eq, BitVec.toNat_append, ← Nat.shiftLeft_add_eq_or_of_lt c.isLt,
      Nat.shiftLeft_eq, BitVec.toNat_append, ← Nat.shiftLeft_add_eq_or_of_lt b.isLt, Nat.shiftLeft_eq]
    ring
  refine BitVec.eq_of_toNat_eq ?_
  rw [BitVec.extractLsb'_toNat, hab, Nat.shiftRight_eq_div_pow]
  have := a.isLt
  have := b.isLt
  have := c.isLt
  have := d.isLt
  obtain rfl | rfl | rfl | rfl : k = 0 ∨ k = 1 ∨ k = 2 ∨ k = 3 := by omega
  all_goals (simp; omega)

/-- The words of a stored value are the registers it was made of. -/
theorem dataOf_st_words {is : Issue} {sz : StSize} {x : MemArgs} (hi : is.i = .st sz x) (L k : Nat) (hk : k < stRegs sz) :
    (dataOf is L).extractLsb' (32 * k) 32 = is.w.val (regOf is.w (vuses is.i) (useMem x.d (stRegs sz) true false) L + k) L := by
  unfold dataOf
  rw [hi]
  dsimp only
  have hs : stRegs sz = 1 ∨ stRegs sz = 2 ∨ stRegs sz = 4 := by cases sz <;> simp [stRegs]
  rcases hs with hs | hs | hs <;> rw [hs] at hk ⊢
  · obtain rfl : k = 0 := by omega
    rw [Issue.src, hi]
    refine BitVec.eq_of_toNat_eq ?_
    have := (is.w.val (regOf is.w (vuses (.st sz x)) (useMem x.d 1 true false) L) L).isLt
    simp only [Nat.mul_zero, Nat.add_zero, BitVec.extractLsb'_toNat, BitVec.toNat_setWidth, Nat.shiftRight_zero]
    omega
  · rw [Issue.src64, Warp.val64, hi]
    refine (pair_words _ _ k hk).trans ?_
    obtain rfl | rfl : k = 0 ∨ k = 1 := by omega
    all_goals rfl
  · rw [quadVal, hi]
    refine (quad_words _ _ _ _ k hk).trans ?_
    obtain rfl | rfl | rfl | rfl : k = 0 ∨ k = 1 ∨ k = 2 ∨ k = 3 := by omega
    all_goals rfl

/-- Settles O26: `memBody` goes on, starts the operation with the operands captured, or holds the word. -/
theorem memoryIssue : Obligations.MemoryIssue := by
  unfold Obligations.MemoryIssue
  intro s is lz sz x y m off plain atom block starts dest words
  refine ⟨fun hsp => ?_, fun hsp => ?_, ?_, ?_, fun hf => ?_⟩
  · refine memStarts_of rfl (fun _ => if_neg (by simpa using hsp)) (fun hi => ?_) (fun o hi _ _ hd L hL => ?_)
    · funext L
      simp only [eaOf, hi]
      rfl
    · rw [hd]
      exact is.mget_over _ hL
  · refine memStarts_of rfl (fun _ => if_neg (by simpa using hsp)) (fun hi => ?_) (fun o hi hd _ _ L hL => ?_)
    · funext L
      simp only [eaOf, hi]
      rfl
    · refine ⟨dataOf is L, by rw [hd]; exact is.mget_over _ hL, fun k hk => ?_⟩
      rw [dataOf_st_words hi L k hk, hi]
  · refine memStarts_of rfl (fun _ => rfl) (fun hi => ?_) (fun o hi hd hc hdst => ⟨fun hn L hL => ?_, fun hn => ?_, fun L hL => ⟨?_, fun hcas => ?_⟩⟩)
    · funext L
      simp only [eaOf, hi, accBytes]
      show _ = ((is.sv s y.base).toNat : Int) + offOf is y.nov y.uofs y.a L + y.imm.toInt * (if y.ty.is64 then 8 else 4)
      split <;> rfl
    · rw [hdst]
      simp only [memDst, hn]
      exact is.mget_over _ hL
    · rw [hdst]
      simp only [memDst, hn]
      rfl
    · rw [hd, is.mget_over _ hL]
      simp only [dataOf, hi]
    · rw [hc, is.mget_over _ hL]
      simp only [cmpOf, hi, hcas]
      rfl
  · refine memStarts_of rfl (fun _ => rfl) (fun hi => ?_) (fun o hi _ _ hd L hL => ?_)
    · funext L
      simp only [eaOf, mxBase, hi]
      rfl
    · rw [hd]
      exact is.mget_over _ hL
  · refine memStarts_of rfl (fun _ => ?_) (fun hi => ?_) (fun o hi hd hc _ L hL => ⟨?_, ?_⟩)
    · simp only [stmxBody, hf]
    · funext L
      simp only [eaOf, mxBase, hi]
      rfl
    · rw [hd, is.mget_over _ hL]
      simp only [dataOf, hi, byteOf_eq, Issue.src]
      rfl
    · rw [hc, is.mget_over _ hL]
      simp only [cmpOf, hi, byteOf_eq]

/-! ### The traps before it -/

/-- Outside the register view an address that is no multiple of the access's size stops the word. -/
theorem memAlign_lane {is : Issue} {s : State} (hr : memSpace is.i ≠ .rw) (hx : isMx is.i = false)
    (h : ∃ L ∈ lanesOf is.mask, eaOf is s L % (accBytes is.i : Int) ≠ 0) : ∃ v, memAlign is s = some (.align, .each v) := by
  obtain ⟨L, hL, hn⟩ := h
  have hne : ((is.over (eaOf is s)).filter (fun e => e.2 % (accBytes is.i : Int) != 0)).isEmpty = false :=
    List.isEmpty_eq_false_iff.2 (List.ne_nil_of_mem (List.mem_filter.2 ⟨List.mem_map_of_mem hL, by simpa using hn⟩))
  simp [memAlign, hr, hx, hne]

/-- An array of MX blocks that does not start on a line stops the word. -/
theorem memAlign_array {is : Issue} {s : State} (hr : memSpace is.i ≠ .rw) (hx : isMx is.i = true) (h0 : is.mask ≠ 0)
    (h : mxBase is s % 128 ≠ 0) : ∃ v, memAlign is s = some (.align, .each v) := by
  obtain ⟨L, hL⟩ := lanesOf_nonempty h0
  have hne : (is.over (eaOf is s)).isEmpty = false := List.isEmpty_eq_false_iff.2 (List.ne_nil_of_mem (List.mem_map_of_mem hL))
  simp [memAlign, hr, hx, hne, h]

/-- A check on the addresses that fails traps the word before its body. -/
theorem runWordWith_align {s : State} {i : Instr} {is : Issue} {align : Issue → State → Option (Cause × Info)}
    (body : Issue → State → Act) {c : Cause} {v : Info} (h : s.issueOf i = some is) (h1 : s.illegalHere is = false)
    (h2 : s.boundTrap is = none) (h3 : s.held is = false) (ha : align is s = some (c, v)) :
    runWordWith i noCheck align body s = .next (s.trapAt is c v is.pc) := by
  simp [runWordWith, h, State.issueWord, h1, noCheck, h2, h3, State.issueTrap, ha]

/-- A lane that issues beside one that does not, in one group of 32, breaks the form of STMX. -/
theorem mxformBad_of {is : Issue} (a : VOp) {j L M : Nat} (hj : j < 4) (h1 : L / 32 = j) (h2 : M / 32 = j) (h3 : L < 128)
    (h4 : is.mask.getLsbD L = true) (h5 : is.mask.getLsbD M = false) : ∃ k, mxformBad is a = some k := by
  have hL : L ∈ (lanesOf is.mask).filter (fun L => L / 32 == j) := List.mem_filter.2 ⟨lanesOf_mem.2 ⟨h3, h4⟩, by simpa using h1⟩
  have hlt : ((lanesOf is.mask).filter (fun L => L / 32 == j)).length < 32 := by
    have hsub : ((lanesOf is.mask).filter (fun L => L / 32 == j)).toFinset ⊆ (Finset.Ico (32 * j) (32 * j + 32)).erase M := by
      intro x hx
      simp only [List.mem_toFinset, List.mem_filter, lanesOf_mem, beq_iff_eq] at hx
      obtain ⟨⟨-, hm⟩, hd⟩ := hx
      refine Finset.mem_erase.2 ⟨fun he => ?_, Finset.mem_Ico.2 ⟨by omega, by omega⟩⟩
      rw [he, h5] at hm
      cases hm
    have hnd : ((lanesOf is.mask).filter (fun L => L / 32 == j)).Nodup := (lanesOf_nodup is.mask).filter _
    have hc := Finset.card_le_card hsub
    rw [List.toFinset_card_of_nodup hnd, Finset.card_erase_of_mem (Finset.mem_Ico.2 ⟨by omega, by omega⟩), Nat.card_Ico] at hc
    omega
  unfold mxformBad
  refine Option.isSome_iff_exists.1 (List.find?_isSome.2 ⟨j, List.mem_range.2 hj, ?_⟩)
  have hne : ((lanesOf is.mask).filter (fun L => L / 32 == j)).isEmpty = false := List.isEmpty_eq_false_iff.2 (List.ne_nil_of_mem hL)
  simp only [hne, decide_eq_false (Nat.ne_of_lt hlt)]
  rfl

/-- Settles O27: `memAlign` names the lanes, and `stmxBody` the group. -/
theorem memoryTraps : Obligations.MemoryTraps := by
  unfold Obligations.MemoryTraps
  intro s is lz sz x y m misaligned array
  have lane : ∀ i n, memSpace i ≠ .rw → isMx i = false → accBytes i = n →
      (∃ b, ∀ s, Machine.exec i s = runWordWith i noCheck memAlign b s) → misaligned i n := by
    rintro i n hr hx rfl ⟨b, he⟩ h h1 h2 h3 h4
    obtain rfl := (State.issueOf_eq h).1
    obtain ⟨v, hv⟩ := memAlign_lane hr hx h4
    exact ⟨v, (he s).trans (runWordWith_align _ h h1 h2 h3 hv)⟩
  have block : ∀ i, i = .ldmx m ∨ i = .stmx m → memSpace i ≠ .rw →
      (∃ b, ∀ s, Machine.exec i s = runWordWith i noCheck memAlign b s) → array i := by
    rintro i hi hr ⟨b, he⟩ h h1 h2 h3 h0 h4
    obtain rfl := (State.issueOf_eq h).1
    have hx : isMx is.i = true := by rcases hi with hi | hi <;> rw [hi] <;> rfl
    have hb : mxBase is s = ((is.sv s m.xm.base).toNat : Int) + m.xm.imm.toInt := by
      unfold mxBase
      rcases hi with hi | hi <;> rw [hi]
    obtain ⟨v, hv⟩ := memAlign_array hr hx h0 (hb ▸ h4)
    exact ⟨v, (he s).trans (runWordWith_align _ h h1 h2 h3 hv)⟩
  refine ⟨fun hr => lane _ _ hr rfl ?_ ⟨_, fun _ => rfl⟩, fun hr => lane _ _ hr rfl ?_ ⟨_, fun _ => rfl⟩,
    fun hr => lane _ _ hr rfl rfl ⟨_, fun _ => rfl⟩,
    fun hr => ⟨block _ (.inl rfl) hr ⟨_, fun _ => rfl⟩, block _ (.inr rfl) hr ⟨_, fun _ => rfl⟩⟩, fun h hf => ?_⟩
  · cases lz <;> rfl
  · cases sz <;> rfl
  · obtain ⟨j, L, M, hj, h1, h2, h3, -, h4, h5⟩ := hf
    obtain ⟨k, hk⟩ := mxformBad_of m.a hj h1 h2 h3 h4 h5
    exact ⟨k, trap_of h rfl (by simp only [stmxBody, hk])⟩

end Sys2Proof.Machine
end

section
/-! LD through the register view (R33, R35): the statement speaks of every state, and so of one whose open group took its snapshot of a
warp with another number. The base WARPN then names one address where the word's checks form it, and another where the lanes' bytes
are read, in the state that shows the snapshot. -/

namespace Sys2Proof.Machine

/-- A warp whose register 0 holds 7 and register 1 holds 5. -/
def viewWarp (n : Nat) : Warp :=
  { num := n, curb := 4, paths := [{ mask := 1, pc := 0x1004, inside := true }], exited := ~~~1#128
    blocks := [(0, { cells := [(0, ⟨7, false⟩), (128, ⟨5, false⟩)] })] }

/-- Warp slot 0, of number 0, at a word of a group whose snapshot is that of a warp of number 4. -/
def viewState : State :=
  { warps := [(0, viewWarp 0)], cur := some { who := 0, lane := 0, group := some { snap := viewWarp 4 } } }

/-- LD.B4 from WARPN through the register view to register 16. -/
def viewArgs : MemArgs :=
  { g := ⟨false, 7⟩, d := .dir 16, a := .dir 0, uofs := false, nov := true
    xm := { base := .special .warpn, space := .rw, ord := .relaxed, scope := .workgroup, nol1 := false, imm := 0 } }

def viewIssue : Issue :=
  { who := 0, lane := 0, i := .ld .b4 viewArgs, w := viewWarp 4, path := 1, mask := 1, pc := 0x1004 }

theorem viewState_ready : viewState.readyWith (.ld .b4 viewArgs) noCheck memAlign = some viewIssue := by decide +kernel

/-- The lane's address is 0, in register 0; no block is absent and nothing waits. -/
theorem viewState_free : (∀ r ∈ viewState.viewTouch viewIssue 4, ((viewState.warp viewIssue.who).block (r / 8)).absent = false) ∧
    viewState.viewWaits viewIssue 4 = false := by decide +kernel

/-- What register 16 holds after the word. -/
def viewLoaded : Option W32 :=
  match Machine.exec (.ld .b4 viewArgs) viewState with
  | .next t => some ((t.warp 0).reg 16 0).val
  | _ => none

theorem viewLoaded_eq : viewLoaded = some 5 := by decide +kernel

/-- What the statement asks register 16 to hold: the bytes of register 0. -/
theorem viewRaw_eq : leNat ((List.range 4).map (fun j => BitVec.ofNat 8 ((viewIssue.w.val (((eaOf viewIssue viewState 0).toNat + j) / 4) 0).toNat /
    2 ^ (8 * (((eaOf viewIssue viewState 0).toNat + j) % 4))))) = 7 := by decide +kernel

/-- Refutes O28: in `viewState` the lane's address is 0, and the load takes the bytes from address 4 on. -/
theorem not_registerView : ¬ Obligations.RegisterView := by
  unfold Obligations.RegisterView
  intro h
  obtain ⟨t, he, hv, -⟩ := (h viewState viewIssue .b4 .b4 viewArgs rfl rfl).1 viewState_ready viewState_free
  have h0 := congrArg LaneReg.val (hv 0 (by decide) 0 (by decide))
  have hl : viewLoaded = some ((t.warp 0).reg 16 0).val := by rw [viewLoaded, he]
  rw [viewLoaded_eq] at hl
  have h1 : ((t.warp 0).reg 16 0).val = BitVec.ofNat 32 (7 / 2 ^ (32 * 0)) := viewRaw_eq ▸ h0
  rw [h1] at hl
  exact absurd hl (by decide)

end Sys2Proof.Machine
end

section
/-! FENCE, IFENCE and TLBINV (R144, R145, R155, R286, R339, R343). -/

namespace Sys2Proof.Machine

theorem State.closeGroup_mops (s : State) : s.closeGroup.mops = s.mops := by
  unfold State.closeGroup
  split
  · rfl
  · split <;> rfl

/-- A word that writes no register leaves the outstanding operations, in a group too. -/
theorem State.finish_mops (s : State) {is : Issue} (h : is.writes = []) : (s.finish is).mops = s.mops := by
  have ho : (s.outwrite is).mops = s.mops := by
    unfold State.outwrite
    split
    · rfl
    · dsimp only
      rw [h]
      exact (List.map_congr_left fun e _ => by split <;> simp).trans (List.map_id' _)
  have hd := ((s.outwrite is).mops_countDeltas is).1
  unfold State.finish
  dsimp only
  split
  · exact hd.trans ho
  · exact (State.closeGroup_mops _).trans (hd.trans ho)

/-- What such a word leaves where its body ends on `u`. -/
structure Keeps (u t : State) (is : Issue) : Prop where
  ops : t.mops = u.mops
  frame : WordFrame u t is.who
  sregs : (t.warp is.who).s = (u.warp is.who).s
  preds : (t.warp is.who).p = (u.warp is.who).p
  blocks : (t.warp is.who).blocks = (u.warp is.who).blocks
  core : (t.warp is.who).core = (u.warp is.who).core

theorem keeps_of {s u : State} {i : Instr} {is : Issue} {body : Issue → State → Act} (h : s.ready i = some is)
    (he : Machine.exec i s = runWord i body s) (hw : is.writes = []) (hb : body is s = .next u) (hc : u.cur = s.cur) :
    ∃ t, Machine.exec i s = .next t ∧ Keeps u t is := by
  obtain ⟨ht, e⟩ := wordEnd_of h he hb hc
  obtain ⟨f1, f2, f3, f4⟩ := e.fields
  exact ⟨_, ht, u.finish_mops hw, e.frame, f1, f2, f3, f4⟩

theorem WordFrame.cores {s t : State} {who : Nat} (h : WordFrame s t who) : t.cores = s.cores := by
  have := congrArg State.cores h.world
  exact this

theorem WordFrame.core {s t : State} {who : Nat} (h : WordFrame s t who) (k : Nat) : t.core k = s.core k := by
  unfold State.core
  rw [h.cores]

theorem wide_iff (sc : Scope) : isWide sc = true ↔ sc = .cluster ∨ sc = .device ∨ sc = .system := by
  cases sc <;> simp [isWide]

theorem fenceReady_iff (s : State) (who : Nat) (o : FOrd) : s.fenceReady who o = false ↔ (match o with
    | .acquire => s.loadsDone who = false
    | _ => s.settled who = false) := by
  cases o <;> rfl

/-- The invalidate of a fence: an order that is no release, of a wide scope, on a compute core. -/
theorem fenceDrops_iff (o : FOrd) (sc : Scope) (b : Bool) : (o != .release && isWide sc && !b) = true ↔
    (o ≠ .release ∧ (sc = .cluster ∨ sc = .device ∨ sc = .system) ∧ b = false) := by
  rw [← wide_iff]
  simp [and_assoc]

@[simp] theorem State.core_modCore_same (s : State) (k : Nat) (f : Core → Core) : (s.modCore k f).core k = f (s.core k) := by
  simp [State.modCore, State.setCore, State.core]

theorem State.core_flash (s : State) (k : Nat) : ((s.flash k).core k).l1 = [] ∧ ((s.flash k).core k).epoch = (s.core k).epoch + 1 := by
  simp [State.flash]

/-- FENCE and IFENCE. -/
theorem fences_hold (s : State) (is : Issue) (o : FOrd) (sc : Scope) :
    let core := coreOf is.who
    let blocked : State := { s with blocked := true }
    let early := match o with
      | .acquire => s.loadsDone is.who = false
      | _ => s.settled is.who = false
    let drops := o ≠ .release ∧ (sc = .cluster ∨ sc = .device ∨ sc = .system) ∧ isStream is.who = false
    s.ready (.fence o sc) = some is →
      (early → Machine.exec (.fence o sc) s = .next blocked) ∧
      (¬early → ¬drops → ∃ t, Machine.exec (.fence o sc) s = .next t ∧ RegFrame (.fence o sc) s t is) ∧
      (¬early → drops → s.canFlash core = false → Machine.exec (.fence o sc) s = .next blocked) ∧
      (¬early → drops → s.canFlash core = true → ∃ t, Machine.exec (.fence o sc) s = .next t ∧ Keeps (s.flash core) t is) := by
  intro core blocked early drops h
  have hr : early ↔ s.fenceReady is.who o = false := (fenceReady_iff s is.who o).symm
  have hd : drops ↔ (o != .release && isWide sc && !isStream is.who) = true := (fenceDrops_iff o sc _).symm
  have hi := (State.ready_issue h).1
  have hw : is.writes = [] := by simp [Issue.writes, hi, vuses, predDst]
  rw [hr, hd]
  refine ⟨fun h1 => hold_of h rfl ?_, fun h1 h2 => regFrame_of h rfl ?_, fun h1 h2 h3 => hold_of h rfl ?_,
    fun h1 h2 h3 => keeps_of h rfl hw ?_ rfl⟩
  · simp [fenceBody, h1]
  · simp only [Bool.not_eq_false, Bool.not_eq_true] at h1 h2
    simp [fenceBody, h1, h2]
  · simp only [Bool.not_eq_false] at h1
    unfold fenceBody
    dsimp only
    rw [h1, h2, h3]
    rfl
  · simp only [Bool.not_eq_false] at h1
    unfold fenceBody
    dsimp only
    rw [h1, h2, h3]
    rfl

theorem WarpCtl.unissued_fetch {c d : WarpCtl} (h : c.unissued = d.unissued) : c.fetched = d.fetched ∧ c.gen = d.gen := by
  have h1 := congrArg WarpCtl.fetched h
  have h2 := congrArg WarpCtl.gen h
  exact ⟨h1, h2⟩

/-- What IFENCE does: the core's instruction cache is dropped, and a new generation of fetches begins. -/
def State.ifenced (s : State) (who : Nat) : State :=
  (if isStream who then s else s.modCore (coreOf who) (fun c => { c with icache := [] })).modCtl who (fun c => { c with gen := c.gen + 1 })

theorem State.ifenced_bare (s : State) (who : Nat) : (s.ifenced who).bare = (s.modCtl who (fun c => { c with gen := c.gen + 1 })).bare ∧
    (s.ifenced who).mem = s.mem ∧ (s.ifenced who).wgs = s.wgs := by
  unfold State.ifenced
  cases isStream who <;> exact ⟨rfl, rfl, rfl⟩

theorem State.ifenced_icache (s : State) {who : Nat} (h : isStream who = false) : ((s.ifenced who).core (coreOf who)).icache = [] := by
  unfold State.ifenced
  rw [if_neg (by simp [h])]
  exact congrArg Core.icache (s.core_modCore_same (coreOf who) fun c => { c with icache := [] })

/-! ### TLBINV -/

/-- The invalidation that TLBINV starts: its wait is the last of the path's. -/
theorem tlbinv_of {s b : State} {i : Instr} {is : Issue} {body : Issue → State → Act} {kind va n : Nat} (h : s.ready i = some is)
    (he : Machine.exec i s = runWord i body s) (hb : body is s = tlbinvStart kind va n is b) (hp : b.plain = s.plain) :
    (s.settled is.who = false → Machine.exec i s = .next { b with blocked := true }) ∧
    (s.settled is.who = true → ∃ t x, Machine.exec i s = .next t ∧ t.invals = b.invals ++ [x] ∧ x.id = b.nextId ∧ x.kind = kind ∧
      x.ctx = is.ctx ∧ x.va = va ∧ x.pages = n ∧ x.who = some (is.who, is.lane) ∧ x.host = false ∧
      (t.ctl is.who).waits = (b.ctl is.who).waits ++ [⟨.tlbinv x.id, is.lane, s.clock, b.nextId + 1⟩] ∧ t.mem = b.mem ∧
      t.cores = b.cores ∧ t.clusters = b.clusters ∧ t.regions = b.regions ∧ (t.warp is.who).s = (s.warp is.who).s ∧
      (t.warp is.who).p = (s.warp is.who).p ∧ (t.warp is.who).blocks = (s.warp is.who).blocks ∧
      (t.warp is.who).paths = (s.warp is.who).paths) := by
  have hset : b.settled is.who = s.settled is.who := by
    unfold State.settled
    rw [State.mops_of_plain hp, State.ctl_of_plain hp]
  have hclk : b.clock = s.clock := by
    have := congrArg State.clock hp
    exact this
  constructor
  · intro h0
    refine hold_of h he (hb.trans ?_)
    simp [tlbinvStart, hset, h0]
  · intro h0
    obtain ⟨t, ht, e⟩ := park_of (u := (b.startInval kind is.ctx va n (some (is.who, is.lane)) false).2.beginWait is
      (.tlbinv b.nextId)) h he (hb.trans (by simp [tlbinvStart, hset, h0, State.startInval, State.newId]))
      ((State.cur_of_plain hp :))
    refine ⟨t, { id := b.nextId, kind := kind, ctx := is.ctx, va := va, pages := n, who := some (is.who, is.lane), host := false }, ht,
      ?_, rfl, rfl, rfl, rfl, rfl, rfl, rfl, ?_, ?_, ?_, ?_, ?_, ?_, ?_, ?_, ?_⟩
    · have := congrArg State.invals e.world
      exact this
    · have hw := congrArg WarpCtl.waits e.ctl
      refine (show (t.ctl is.who).waits = _ from hw).trans ?_
      rw [← hclk]
      simp [State.beginWait, WarpCtl.unissued, State.startInval, State.newId]
      rfl
    · have := congrArg State.mem e.world
      exact this
    · have := congrArg State.cores e.world
      exact this
    · have := congrArg State.clusters e.world
      exact this
    · have := congrArg State.regions e.world
      exact this
    · exact (Warp.nox_s e.warp).trans (congrArg Warp.s (State.warp_of_plain hp _))
    · exact (Warp.nox_p e.warp).trans (congrArg Warp.p (State.warp_of_plain hp _))
    · exact (Warp.nox_blocks e.warp).trans (congrArg Warp.blocks (State.warp_of_plain hp _))
    · exact (Warp.nox_paths e.warp).trans (congrArg Warp.paths (State.warp_of_plain hp _))

theorem rangeOk_iff (e : Option W64) (va n : Nat) : rangeOk e va n = true ↔ ∃ r, e.bind Region.ofEntry = some r ∧ 1 ≤ n ∧ n ≤ 65536 ∧
    va < 2 ^ 57 ∧ va % 2 ^ 51 / 2 ^ pageBits r.pgsz * 2 ^ pageBits r.pgsz + n * 2 ^ pageBits r.pgsz ≤ 2 ^ 51 := by
  unfold rangeOk
  cases e.bind Region.ofEntry with
  | none => simp
  | some r =>
    simp only [Option.some.injEq, exists_eq_left', Region.pageOf, Bool.and_eq_true, decide_eq_true_eq, and_assoc]
    exact ⟨fun ⟨a, b, c, d⟩ => ⟨a, b, c, of_decide_eq_true d⟩, fun ⟨a, b, c, d⟩ => ⟨a, b, c, decide_eq_true d⟩⟩

/-- A region entry that was read is kept, as the machine reads it from then on. -/
theorem State.noteVa_keeps (s : State) (ctx va : Nat) (q : Requester) (h : va < 2 ^ 57) {e : W64}
    (he : (s.noteVa ctx va q).regionEntry ctx (va / 2 ^ 51 % 64) = some e) :
    mget (s.noteVa ctx va q).regions (64 * ctx + va / 2 ^ 51 % 64) = some e := by
  unfold State.noteVa at he ⊢
  rw [if_pos h] at he ⊢
  unfold State.noteRegion at he ⊢
  split
  · next hm =>
    rw [if_pos hm] at he
    obtain ⟨v, hv⟩ := Option.isSome_iff_exists.1 hm
    simp only [State.regionEntry, hv] at he
    rw [hv, he]
  · next hm =>
    rw [if_neg hm] at he
    dsimp only at he ⊢
    split at he
    · next x hx =>
      simp only [State.regionEntry, mget_mset_same] at he
      simp [he]
    · next hx =>
      rw [hx] at he
      cases he

/-- TLBINV in its three forms. -/
theorem tlbinv_holds (s : State) (is : Issue) (sa sb : SOp) :
    let va := (is.sv s sa).toNat
    let n := (is.sv s sb).toNat
    let read := s.noteVa is.ctx va (reqOf is.who false is.ctx is.pc)
    s.ready (.tlbinvPage sa sb) = some is → rangeOk (read.regionEntry is.ctx (va / 2 ^ 51 % 64)) va n = false →
      Machine.exec (.tlbinvPage sa sb) s = .next (read.trapAt is .oprange (.same 0) is.pc) := by
  intro va n read h hr
  show runWord (.tlbinvPage sa sb) (tlbinvPageBody sa sb) s = _
  rw [runWord_ready _ h]
  have hb : tlbinvPageBody sa sb is s = .trapIn read .oprange (.same 0) := by
    unfold tlbinvPageBody
    exact if_pos (by simpa using hr)
  simp [State.runBody, hb]

/-- Settles O29. -/
theorem orderingWords : Obligations.OrderingWords := by
  unfold Obligations.OrderingWords
  refine ⟨fun s is o sc => ?_, fun s is sa sb => ?_⟩
  · intro core wide blocked early drops keeps
    refine ⟨fun h => ?_, fun h => ⟨fun h0 => hold_of h rfl ?_, fun h0 => ?_⟩⟩
    · obtain ⟨h1, h2, h3, h4⟩ := fences_hold s is o sc h
      refine ⟨h1, h2, h3, fun e d c => ?_⟩
      obtain ⟨t, ht, k⟩ := h4 e d c
      refine ⟨t, ht, ⟨k.frame.mem, k.frame.wgs, k.ops, k.sregs, k.preds, k.blocks, k.core⟩, ?_, ?_⟩
      · exact (congrArg Core.l1 (k.frame.core _)).trans (s.core_flash _).1
      · exact (congrArg Core.epoch (k.frame.core _)).trans (s.core_flash _).2
    · simp [ifenceBody, h0]
    · have hi := (State.ready_issue h).1
      obtain ⟨b1, b2, b3⟩ := s.ifenced_bare is.who
      obtain ⟨t, ht, k⟩ := keeps_of (u := s.ifenced is.who) h rfl (by simp [Issue.writes, hi, vuses, predDst])
        (by simp [ifenceBody, h0, State.ifenced]) (State.cur_of_bare b1 :)
      obtain ⟨hf, hg⟩ := WarpCtl.unissued_fetch k.frame.ctl
      have hw := State.warp_of_bare b1 is.who
      have hx := State.ctl_of_bare b1 is.who
      rw [State.warp_modCtl] at hw
      rw [State.ctl_modCtl] at hx
      exact ⟨t, ht, ⟨k.frame.mem.trans b2, k.frame.wgs.trans b3, k.ops.trans (State.mops_of_bare b1 :), k.sregs.trans (congrArg Warp.s hw),
        k.preds.trans (congrArg Warp.p hw), k.blocks.trans (congrArg Warp.blocks hw), k.core.trans (congrArg Warp.core hw)⟩,
        fun hs => (congrArg Core.icache (k.frame.core _)).trans (s.ifenced_icache hs), hf.trans (congrArg WarpCtl.fetched hx :),
        hg.trans (congrArg WarpCtl.gen hx :)⟩
  · intro va n read entry inside starts
    have hp : read.plain = s.plain := State.plain_noteVa ..
    have hin : inside ↔ rangeOk (read.regionEntry is.ctx (va / 2 ^ 51 % 64)) va n = true := (rangeOk_iff _ _ _).symm
    refine ⟨fun h => ⟨fun h0 => ?_, fun h0 => ⟨?_, ?_⟩⟩, fun h => tlbinv_of h rfl rfl rfl, fun h => tlbinv_of h rfl rfl rfl⟩
    · exact tlbinv_holds s is sa sb h (by simpa [hin] using h0)
    · exact tlbinv_of h rfl (if_neg (by simpa using hin.1 h0)) hp
    · obtain ⟨r, hr, -, -, hv, -⟩ := h0
      obtain ⟨e, he, -⟩ := Option.bind_eq_some_iff.1 hr
      show (mget read.regions _).bind Region.ofEntry = (read.regionEntry is.ctx _).bind Region.ofEntry
      rw [s.noteVa_keeps is.ctx va _ hv he, he]

end Sys2Proof.Machine
end

section
/-! FEATQ and CSRR (R277, R280 to R283, R437). -/

namespace Sys2Proof.Machine

theorem State.rTstat_eq (s : State) (who : Nat) : s.rTstat who = (if (s.ctl who).inTrap then 2 ^ 10 + (s.ctl who).cause else 0) +
    (if (s.ctl who).pabft then 2 ^ 9 else 0) + (if (s.ctl who).pmtx then 2 ^ 8 else 0) := by
  unfold State.rTstat bit64
  dsimp only
  split <;> omega

/-- What a compute core's CSRs hold. -/
theorem State.csrValue_core {s : State} {is : Issue} (h : isStream is.who = false) {k : Nat}
    (hk : k ∈ [0x000, 0x002, 0x010, 0x011, 0x012, 0x100, 0x101, 0x102] ∨ (0x040 ≤ k ∧ k ≤ 0x05F)) :
    s.csrValue is k = some (some (
      if k = 0x000 then is.w.arstat.setWidth 64
      else if k = 0x002 then (s.core (coreOf is.who)).partw.setWidth 64
      else if k = 0x010 then (s.warp is.who).viol.info
      else if k = 0x011 then (s.warp is.who).viol.addr
      else if k = 0x012 then (s.warp is.who).viol.pc
      else if k = 0x100 then (s.ctl is.who).tvec
      else if k = 0x101 then BitVec.ofNat 64 ((if (s.ctl is.who).inTrap then 2 ^ 10 + (s.ctl is.who).cause else 0) +
        (if (s.ctl is.who).pabft then 2 ^ 9 else 0) + (if (s.ctl is.who).pmtx then 2 ^ 8 else 0))
      else if k = 0x102 then BitVec.ofNat 64 (s.tsave is.who)
      else (s.wgOf is.who).elim 0 (fun g => mgetD g.spxt (k - 0x40) 0))) := by
  rw [← s.rTstat_eq]
  unfold State.csrValue
  simp only [h]
  rcases hk with hk | ⟨h1, h2⟩
  · simp only [List.mem_cons, List.not_mem_nil, or_false] at hk
    rcases hk with rfl | rfl | rfl | rfl | rfl | rfl | rfl | rfl <;> rfl
  · rw [if_neg (by omega), if_neg (by omega), if_neg (by omega), if_neg (by omega), if_neg (by omega), if_neg (by omega), if_neg (by omega),
      if_neg (by omega), if_neg (by decide), if_neg (by omega), if_neg (by omega), if_neg (by omega), if_neg (by omega), if_neg (by omega),
      if_pos ⟨h1, h2⟩, if_neg (by omega), if_neg (by omega), if_neg (by omega), if_neg (by omega), if_neg (by omega), if_neg (by omega),
      if_neg (by omega), if_neg (by omega)]

/-- A region entry is read without its reserved bits. -/
theorem State.csrValue_table (s : State) (is : Issue) {k : Nat} (h1 : 0x080 ≤ k) (h2 : k ≤ 0x0BF) :
    s.csrValue is k = some ((s.regionEntry is.ctx (k - 0x080)).map (fun e => e &&& ~~~0xFFF#64)) := by
  unfold State.csrValue
  dsimp only
  rw [if_neg (by omega), if_neg (by omega), if_neg (by omega), if_neg (by omega), if_neg (by omega), if_neg (by omega), if_pos ⟨h1, h2⟩]

theorem State.csrValue_stream_none {s : State} {is : Issue} (h : isStream is.who = true) {k : Nat}
    (hk : k ∈ [0x001, 0x002, 0x010, 0x011, 0x012, 0x100, 0x101, 0x102]) : s.csrValue is k = none := by
  unfold State.csrValue
  simp only [h]
  simp only [List.mem_cons, List.not_mem_nil, or_false] at hk
  rcases hk with rfl | rfl | rfl | rfl | rfl | rfl | rfl | rfl <;> rfl

theorem State.csrValue_core_none {s : State} {is : Issue} (h : isStream is.who = false) {k : Nat}
    (hk : (0x0C0 ≤ k ∧ k ≤ 0x0C3) ∨ (0x110 ≤ k ∧ k ≤ 0x114)) : s.csrValue is k = none := by
  unfold State.csrValue
  simp only [h]
  rw [if_neg (by omega), if_neg (by omega), if_neg (by omega), if_neg (by omega), if_neg (by omega), if_neg (by omega), if_neg (by omega),
    if_neg (by omega), if_neg (by decide), if_neg (by omega), if_neg (by omega), if_neg (by omega), if_neg (by omega), if_neg (by omega),
    if_neg (by omega), if_neg (by omega), if_neg (by omega), if_neg (by omega)]

/-- An entry that has been read is the one the machine keeps. -/
theorem State.noteRegion_keeps (s : State) (ctx n : Nat) (q : Requester) {e : W64} (he : (s.noteRegion ctx n q).regionEntry ctx n = some e) :
    mget (s.noteRegion ctx n q).regions (64 * ctx + n) = some e := by
  unfold State.noteRegion at he ⊢
  split
  · next hm =>
    rw [if_pos hm] at he
    obtain ⟨v, hv⟩ := Option.isSome_iff_exists.1 hm
    simp only [State.regionEntry, hv] at he
    rw [hv, he]
  · next hm =>
    rw [if_neg hm] at he
    dsimp only at he ⊢
    split at he
    · next x hx =>
      simp only [State.regionEntry, mget_mset_same] at he
      simp [he]
    · next hx =>
      rw [hx] at he
      cases he

theorem State.noteRegion_held (s : State) {ctx n : Nat} (q : Requester) (h : mhas s.regions (64 * ctx + n) = true) :
    s.noteRegion ctx n q = s := if_pos h

/-- CSRR of a region entry ends on what reading the entry left. -/
theorem csrrEnd_of {s u : State} {is : Issue} {sd : Fin 96} {n : BitVec 12} {v : W64}
    (h : s.readyWith (.csrr sd n) (csrrPre n) noCheck = some is) (hp : u.plain = s.plain)
    (hb : csrrBody sd n is s = .next (u.writeS is sd.val v)) :
    ∃ t, Machine.exec (.csrr sd n) s = .next t ∧ (t.warp is.who).sreg sd.val = v ∧ t.mem = u.mem ∧ t.regions = u.regions ∧
      (∀ k, k ≠ sd.val → (t.warp is.who).sreg k = (s.warp is.who).sreg k) ∧
      (t.warp is.who).p = (s.warp is.who).p ∧ (t.warp is.who).blocks = (s.warp is.who).blocks := by
  obtain ⟨ht, e⟩ := wordEnd_of h rfl hb (State.cur_of_plain hp :)
  obtain ⟨f1, f2, f3, -⟩ := e.fields
  have hw : (u.writeS is sd.val v).warp is.who = (s.warp is.who).setS sd.val v := by
    rw [State.writeS, State.warp_modWarp, State.warp_of_plain hp]
  rw [hw] at f1 f2 f3
  have hs : ∀ k, (((u.writeS is sd.val v).finish is).warp is.who).sreg k = ((s.warp is.who).setS sd.val v).sreg k := fun k => by
    simp [Warp.sreg, f1]
  refine ⟨_, ht, (hs _).trans (by simp), ?_, ?_, fun k hk => (hs k).trans (Warp.sreg_setS_other _ _ hk), f2, f3⟩
  · exact e.frame.mem
  · have := congrArg State.regions e.frame.world
    exact this

/-- Settles O30. -/
theorem systemReads : Obligations.SystemReads := by
  unfold Obligations.SystemReads
  intro s is sd n i w c held
  have held_of : ∀ v, s.csrValue is n.toNat = some (some v) → s.csrTouch is n.toNat = s → csrrBody sd n is s = .next (s.writeS is sd.val v) := by
    intro v hv ht
    simp only [csrrBody, ht, hv]
  refine ⟨fun f h => scalarDone_of h rfl (by cases f <;> rfl), fun h hs hk => scalarDone_of h rfl ?_, ?_⟩
  · refine held_of _ (State.csrValue_core hs hk) (if_neg ?_)
    rcases hk with hk | ⟨h1, h2⟩
    · simp only [List.mem_cons, List.not_mem_nil, or_false] at hk
      omega
    · omega
  intro m table first
  refine ⟨fun h v hv ht => scalarDone_of h rfl (held_of v hv ?_), fun h ht e he => ?_, fun h ht he => ?_, fun h hl hv => ?_,
    fun hs hk => State.csrValue_stream_none hs hk, fun hs hk => State.csrValue_core_none hs hk⟩
  · unfold State.csrTouch
    split
    · next hk => exact s.noteRegion_held _ (ht hk)
    · rfl
  · have hte : s.csrTouch is n.toNat = first := if_pos ht
    have hv := first.csrValue_table is ht.1 ht.2
    rw [show first.regionEntry is.ctx (n.toNat - 0x080) = some e from he] at hv
    obtain ⟨t, h1, h2, h3, h4, h5⟩ := csrrEnd_of (u := first) (v := e &&& ~~~0xFFF#64) h (State.plain_noteRegion ..)
      (by simp only [csrrBody, hte, hv]; rfl)
    exact ⟨t, h1, h2, by rw [h4]; exact s.noteRegion_keeps _ _ _ he, h3, h5⟩
  · have hte : s.csrTouch is n.toNat = first := if_pos ht
    have hv := first.csrValue_table is ht.1 ht.2
    rw [show first.regionEntry is.ctx (n.toNat - 0x080) = none from he] at hv
    obtain ⟨t, h1, h2, h3, -⟩ := csrrEnd_of (u := { first with fresh := first.fresh + 1 }) (v := Config.freeWord first.fresh) h
      ((State.plain_fresh ..).trans (State.plain_noteRegion ..))
      (by simp only [csrrBody, hte, hv]; rfl)
    exact ⟨t, h1, h2, h3⟩
  · exact runWordWith_pre _ h hl (by simp [csrrPre, hv])

end Sys2Proof.Machine
end

section
/-! Words that fork an engine operation (R100, R148, R237): what the fork keeps of the thread and of the others. -/

namespace Sys2Proof.Machine

/-! ### What the first update of a token leaves -/

/-- The operations, the control parts and the registers of every thread are as before; of the thread `who` the log of violations and
ARSTAT are left open. -/
structure Quiet (s t : State) (who : Nat) : Prop where
  eops : t.eops = s.eops
  mops : t.mops = s.mops
  ctls : t.ctls = s.ctls
  cslots : t.cslots = s.cslots
  cur : t.cur.map Cur.who = s.cur.map Cur.who
  others : ∀ n, n ≠ who → t.warp n = s.warp n
  regs : { t.warp who with viol := {}, arstat := 0 } = { s.warp who with viol := {}, arstat := 0 }

theorem Quiet.refl (s : State) (who : Nat) : Quiet s s who := ⟨rfl, rfl, rfl, rfl, rfl, fun _ _ => rfl, rfl⟩

theorem Quiet.trans {s t u : State} {who : Nat} (h : Quiet s t who) (k : Quiet t u who) : Quiet s u who :=
  ⟨k.eops.trans h.eops, k.mops.trans h.mops, k.ctls.trans h.ctls, k.cslots.trans h.cslots, k.cur.trans h.cur,
    fun n hn => (k.others n hn).trans (h.others n hn), k.regs.trans h.regs⟩

theorem Quiet.of_plain {s t : State} (who : Nat) (h : t.plain = s.plain) : Quiet s t who :=
  ⟨State.eops_of_plain h, State.mops_of_plain h, by have := congrArg State.ctls h; exact this,
    by have := congrArg State.cslots h; exact this, congrArg _ (State.cur_of_plain h), fun n _ => State.warp_of_plain h n,
    by rw [State.warp_of_plain h]⟩

theorem Quiet.of_bare {s t : State} (who : Nat) (h : t.bare = s.bare) : Quiet s t who :=
  ⟨State.eops_of_bare h, State.mops_of_bare h, State.ctls_of_bare h, State.cslots_of_bare h, congrArg _ (State.cur_of_bare h),
    fun n _ => State.warp_of_bare h n, by rw [State.warp_of_bare h]⟩

theorem Quiet.modWarp (s : State) {who : Nat} {f : Warp → Warp}
    (h : ∀ w, { f w with viol := {}, arstat := 0 } = { w with viol := {}, arstat := 0 }) : Quiet s (s.modWarp who f) who :=
  ⟨rfl, rfl, rfl, rfl, rfl, fun _ hn => State.warp_modWarp_other s f hn, by rw [State.warp_modWarp]; exact h _⟩

theorem State.bare_l1StoreAll (s : State) (core pa : Nat) (bs : List Byte) : (s.l1StoreAll core pa bs).bare = s.bare := by
  unfold State.l1StoreAll
  refine State.bare_foldl (fun t p => ?_) _ s
  unfold State.l1Store State.markFills
  split <;> split <;> rfl

theorem State.bare_engWrite (s : State) (core : Nat) (l : Loc) (bs : List Byte) (r : Requester) :
    (s.engWrite core l bs r).bare = s.bare := by
  unfold State.engWrite
  split
  · split
    · simp
    · simp [State.bare_l1StoreAll]
  · simp

theorem State.bare_tokApply (s : State) (core : Nat) (l : Loc) (f : W128 → W128) (r : Requester) :
    (s.tokApply core l f r).bare = s.bare := by
  unfold State.tokApply
  dsimp only
  split <;> simp [State.bare_engWrite]

theorem Quiet.logViol (s : State) (who spc : Nat) (c : VClass) (acc : Acc) (lane : Nat) (eng : Bool) (addr pc : W64) :
    Quiet s (s.logViol who spc c acc lane eng addr pc) who := by
  unfold State.logViol
  split
  · exact Quiet.refl s who
  · next w hw =>
    have hs : s.warp who = w := by simp [State.warp, mgetD, hw]
    have q : ∀ v, Quiet s (s.setWarp who { w with viol := v }) who := fun v => by
      have := Quiet.modWarp s (who := who) (f := fun w => { w with viol := v }) fun _ => rfl
      rwa [State.modWarp, hs] at this
    dsimp only
    split
    · exact q _
    · exact (q _).trans (Quiet.of_bare who (State.bare_record ..))

theorem State.tokUpdate_quiet (s : State) (o : EngOp) (f : W128 → W128) : Quiet s (s.tokUpdate o f).2 o.who := by
  unfold State.tokUpdate
  split
  · exact Quiet.refl s _
  · next addr sp _ =>
    have hp := s.plain_locAt o.wg o.ctx sp addr .atomic o.core o.who o.id
    generalize s.locAt o.wg o.ctx sp addr .atomic o.core o.who o.id = r at hp ⊢
    obtain ⟨a, t⟩ := r
    have q := Quiet.of_plain o.who hp
    cases a with
    | at_ l => exact q.trans (Quiet.of_bare _ (State.bare_tokApply ..))
    | viol c spc => exact q.trans (Quiet.logViol ..)
    | wait => exact q

/-! ### The fork -/

section
variable {s t u : State} {is : Issue} {o : EngOp}

theorem Counts.quiet {up : Nat} (h : Counts s t is up) (k : Quiet t u is.who) : Counts s u is up := by
  have hc : ∀ n, (u.warp is.who).flag n = (t.warp is.who).flag n := fun n => by
    have := congrArg (fun w => Warp.flag w n) k.regs
    exact this
  have hs := congrArg Warp.s k.regs
  have hp := congrArg Warp.p k.regs
  have hb := congrArg Warp.blocks k.regs
  refine ⟨Eq.trans hs h.sregs, Eq.trans hp h.preds, Eq.trans hb h.blocks, fun n => (hc n).trans (h.flags n), fun n hn => ?_⟩
  obtain ⟨h1, h2⟩ := h.others n hn
  refine ⟨(k.others n hn).trans h1, ?_⟩
  rw [← h2]
  unfold State.ctl
  rw [k.ctls]

theorem Forks.quiet (h : Forks s t is o) (k : Quiet t u is.who) : Forks s u is o :=
  ⟨by rw [k.eops]; exact h.op, h.fresh, h.mine, h.flag, h.counts.quiet k⟩

/-- The state after the fork, before the operation has done anything. -/
theorem State.fork_counts (s : State) (is : Issue) (vals : List W64) (tok : Option (Nat × Bool)) (rel : Bool) :
    Counts s (s.fork is vals tok rel).2 is 1 := by
  obtain ⟨h1, h2, h3, h4⟩ := State.incFlag_warp (s.newId).2 is.who is.flag
  refine ⟨h1, h2, h3, h4, fun n hn => ?_⟩
  show ((s.newId).2.incFlag is.who is.flag).warp n = _ ∧ ((s.newId).2.incFlag is.who is.flag).ctl n = _
  unfold State.incFlag
  cases is.flag with
  | none => exact ⟨rfl, rfl⟩
  | some k => exact ⟨State.warp_modWarp_other _ _ hn, rfl⟩

theorem State.fork_cur (s : State) (is : Issue) (vals : List W64) (tok : Option (Nat × Bool)) (rel : Bool) :
    (s.fork is vals tok rel).2.cur = s.cur := by
  show ((s.newId).2.incFlag is.who is.flag).cur = _
  unfold State.incFlag
  cases is.flag <;> rfl

theorem State.fork_keeps (s : State) (is : Issue) (vals : List W64) (tok : Option (Nat × Bool)) (rel : Bool) :
    (s.fork is vals tok rel).2.cores = s.cores ∧ (s.fork is vals tok rel).2.cslots = s.cslots ∧
      (s.fork is vals tok rel).2.mem = s.mem ∧ ((s.fork is vals tok rel).2.warp is.who).arstat = (s.warp is.who).arstat := by
  show ((s.newId).2.incFlag is.who is.flag).cores = _ ∧ ((s.newId).2.incFlag is.who is.flag).cslots = _ ∧
    ((s.newId).2.incFlag is.who is.flag).mem = _ ∧ (((s.newId).2.incFlag is.who is.flag).warp is.who).arstat = _
  unfold State.incFlag
  cases is.flag with
  | none => exact ⟨rfl, rfl, rfl, rfl⟩
  | some k => exact ⟨rfl, rfl, rfl, by rw [State.warp_modWarp]; rfl⟩

/-- The operation as the fork makes it, with whatever the word adds to it, is the word's operation. -/
theorem forks_setEop {s1 : State} {f : EngOp → EngOp} {vals : List W64} {tok : Option (Nat × Bool)} {rel : Bool}
    (hk : ∀ o, (f o).id = o.id ∧ (f o).who = o.who ∧ (f o).instr = o.instr ∧ (f o).pc = o.pc ∧ (f o).wg = o.wg ∧ (f o).mask = o.mask ∧
      (f o).flags = o.flags) (q : Quiet (s.fork is vals tok rel).2 s1 is.who) :
    Forks s (s1.setEop (f (s.fork is vals tok rel).1)) is (f (s.fork is vals tok rel).1) := by
  obtain ⟨h1, h2, h3, h4, h5, h6, h7⟩ := hk (s.fork is vals tok rel).1
  have c := (s.fork_counts is vals tok rel).quiet q
  refine ⟨mget_mset_same .., h1, ⟨h2, h3, h4, h5, h6⟩, h7, c.sregs, c.preds, c.blocks, c.flags, c.others⟩

/-- The operation whose token has been updated, or waits for its page. -/
theorem State.tokStart_forks (s : State) (is : Issue) (vals : List W64) (tok : Option (Nat × Bool)) (rel : Bool) {f : EngOp → EngOp}
    (hk : ∀ o, (f o).id = o.id ∧ (f o).who = o.who ∧ (f o).instr = o.instr ∧ (f o).pc = o.pc ∧ (f o).wg = o.wg ∧ (f o).mask = o.mask ∧
      (f o).flags = o.flags) :
    ∃ p, Forks s ((s.fork is vals tok rel).2.tokStart (f (s.fork is vals tok rel).1)) is { f (s.fork is vals tok rel).1 with phase := p } ∧
      ∃ s1, Quiet (s.fork is vals tok rel).2 s1 is.who ∧
        (s.fork is vals tok rel).2.tokStart (f (s.fork is vals tok rel).1) = s1.setEop { f (s.fork is vals tok rel).1 with phase := p } := by
  have hw : (f (s.fork is vals tok rel).1).who = is.who := (hk _).2.1
  have q : Quiet _ _ _ := hw ▸ (s.fork is vals tok rel).2.tokUpdate_quiet (f (s.fork is vals tok rel).1) tokIssue
  have go : ∀ p s1, Quiet (s.fork is vals tok rel).2 s1 is.who →
      Forks s (s1.setEop { f (s.fork is vals tok rel).1 with phase := p }) is { f (s.fork is vals tok rel).1 with phase := p } :=
    fun p s1 q => forks_setEop (f := fun o => { f o with phase := p }) hk q
  unfold State.tokStart
  split
  · exact ⟨0, go 0 _ (Quiet.refl ..), _, Quiet.refl .., rfl⟩
  · generalize (s.fork is vals tok rel).2.tokUpdate (f (s.fork is vals tok rel).1) tokIssue = r at q ⊢
    obtain ⟨b, t⟩ := r
    cases b with
    | true => exact ⟨1, go 1 t q, t, q, rfl⟩
    | false => exact ⟨0, go 0 t q, t, q, rfl⟩

/-! ### The end of the word -/

/-- An operation that the end of a word leaves is as before, but for the note of what a higher slot has written. -/
theorem WordFrame.eop {who id : Nat} (h : WordFrame s t who) (ho : mget s.eops id = some o) :
    ∃ l, mget t.eops id = some { o with outdone := l } := by
  have hm := congrArg (fun m => mget m id) h.eops
  simp only [State.eopsPlain, mget_map (fun o : EngOp => { o with outdone := [] }), ho, Option.map_some] at hm
  obtain ⟨p, hp, he⟩ := Option.map_eq_some_iff.1 hm
  refine ⟨p.outdone, hp.trans (congrArg some ?_)⟩
  have := congrArg (fun x : EngOp => ({ x with outdone := p.outdone } : EngOp)) he
  exact this

/-- A word whose body forks `o` completes, with the operation forked. -/
theorem forks_of {v : State} {i : Instr} {pre align : Issue → State → Option (Cause × Info)} {body : Issue → State → Act}
    (h : s.readyWith i pre align = some is) (he : Machine.exec i s = runWordWith i pre align body s) (hb : body is s = .next v)
    (hv : Forks s v is o) (hc : v.cur.map Cur.who = s.cur.map Cur.who) :
    ∃ t l, Machine.exec i s = .next t ∧ Forks s t is { o with outdone := l } ∧ WordEnd v t is := by
  have hcur : ∀ c, v.cur = some c → c.who = is.who := fun c hcv => by
    rw [hcv, Option.map_some] at hc
    obtain ⟨d, hd, hdc⟩ := Option.map_eq_some_iff.1 hc.symm
    exact hdc ▸ (State.ready_issue h).2 d hd
  have e := State.finish_end v is hcur
  have ht : Machine.exec i s = .next (v.finish is) := by
    rw [he, runWordWith_ready body h]
    simp [State.runBody, hb]
  generalize v.finish is = t at ht e
  obtain ⟨l, hl⟩ := e.frame.eop hv.op
  obtain ⟨f1, f2, f3, f4⟩ := e.fields
  refine ⟨t, l, ht, ⟨hl, hv.fresh, hv.mine, hv.flag, f1.trans hv.counts.sregs, f2.trans hv.counts.preds, f3.trans hv.counts.blocks,
    fun k => (Warp.core_flag f4 k).trans (hv.counts.flags k), fun n hn => ?_⟩, e⟩
  obtain ⟨a, b⟩ := e.frame.others n hn
  obtain ⟨a', b'⟩ := hv.counts.others n hn
  exact ⟨a.trans a', b.trans b'⟩

end

end Sys2Proof.Machine
end

section
/-! GEO words at issue (R385, R391, R392). -/

namespace Sys2Proof.Machine

theorem State.addFlags_core (s : State) (who : Nat) (f : W32) (k : Nat) : (s.addFlags who f).core k = s.core k := by
  have := congrArg State.cores (s.addFlags_frame who f).world
  unfold State.core
  exact congrArg (fun m => mgetD m k _) this

theorem State.addFlags_quiet (s : State) (who : Nat) (f : W32) : Quiet s (s.addFlags who f) who := by
  unfold State.addFlags
  split
  · next c hc =>
    split
    · exact ⟨rfl, rfl, rfl, rfl, by simp [hc], fun _ _ => rfl, rfl⟩
    · exact Quiet.modWarp s fun _ => rfl
  · exact Quiet.modWarp s fun _ => rfl

theorem badCoord_any (is : Issue) (x : GeoArgs) : ((is.over (geoCoords is x)).any (fun e => badCoord e.2) = true) ↔
    ∃ L ∈ lanesOf is.mask, ∃ c ∈ geoCoords is x L, isFinite (fmtF64.decode c) = false := by
  simp only [Issue.over, List.any_map, List.any_eq_true, Function.comp_apply, badCoord, Bool.not_eq_true', f64]

/-- The operation of a GEO word as the queue takes it. -/
def Issue.geoOp (is : Issue) (x : GeoArgs) (o : EngOp) : EngOp :=
  { o with
    phase := 1
    lanes := (is.over (geoCoords is x)).map (fun e => (e.1, (e.2 ++ geoIds is x e.1).map (BitVec.ofNat 64)))
    dst := is.over (fun L => [regOf is.w (vuses is.i) ((vuses is.i).getD 0 { op := .dir 0 }) L]) }

theorem Issue.geoOp_lane (is : Issue) (x : GeoArgs) (o : EngOp) {L : Nat} (h : L ∈ lanesOf is.mask) :
    mget (is.geoOp x o).lanes L = some ((geoCoords is x L ++ geoIds is x L).map (BitVec.ofNat 64)) ∧
      mget (is.geoOp x o).dst L = some [regOf is.w (vuses is.i) ((vuses is.i).getD 0 { op := .dir 0 }) L] := by
  refine ⟨?_, is.mget_over _ h⟩
  show mget ((lanesOf is.mask).map _ |>.map _) L = _
  rw [List.map_map]
  exact is.mget_over (fun L => (geoCoords is x L ++ geoIds is x L).map (BitVec.ofNat 64)) h

/-- The state in which the operation has joined the queue of its core. -/
def State.geoQueued (s : State) (is : Issue) (x : GeoArgs) : State :=
  ((s.fork is [] none false).2.setEop (is.geoOp x (s.fork is [] none false).1)).modCore (coreOf is.who)
    (fun c => { c with geo := c.geo ++ [s.nextId] })

/-- One GEO word. -/
theorem geoWord_of {s : State} {i : Instr} {is : Issue} {x : GeoArgs} (he : Machine.exec i s = runWord i (geoBody x) s)
    (h : s.ready i = some is) (bad : Prop) (hbad : bad ↔ ∃ L ∈ lanesOf is.mask, ∃ c ∈ geoCoords is x L, isFinite (fmtF64.decode c) = false) :
    (is.mask = 0 → ∃ t, Machine.exec i s = .next t ∧ RegFrame i s t is) ∧
    (is.mask ≠ 0 → x.trapnf = true → bad → Machine.exec i s = .next (s.trapAt is .geonf (.same 0) is.pc)) ∧
    (is.mask ≠ 0 → ¬(x.trapnf = true ∧ bad) → 8 ≤ (s.core (coreOf is.who)).geo.length → Machine.exec i s = .next { s with blocked := true }) ∧
    (is.mask ≠ 0 → ¬(x.trapnf = true ∧ bad) → (s.core (coreOf is.who)).geo.length < 8 → ∃ t o, Machine.exec i s = .next t ∧
      Forks s t is o ∧ (t.core (coreOf is.who)).geo = (s.core (coreOf is.who)).geo ++ [o.id] ∧
      (∀ L ∈ lanesOf is.mask, mget o.lanes L = some ((geoCoords is x L ++ geoIds is x L).map (BitVec.ofNat 64)) ∧
        mget o.dst L = some [regOf is.w (vuses i) ((vuses i).getD 0 { op := .dir 0 }) L]) ∧
      (bad → s.alone = true → (t.warp is.who).arstat = (s.warp is.who).arstat ||| fGNF) ∧
      (¬bad → s.alone = true → (t.warp is.who).arstat = (s.warp is.who).arstat)) := by
  have hi := (State.ready_issue h).1
  have hb := (badCoord_any is x).trans hbad.symm
  have body_eq : geoBody x is s = if is.mask = 0 then .next s else
      if x.trapnf && (is.over (geoCoords is x)).any (fun e => badCoord e.2) then .trap .geonf (.same 0)
      else if 8 ≤ (s.core (coreOf is.who)).geo.length then .hold s
      else .next (if (is.over (geoCoords is x)).any (fun e => badCoord e.2) then (s.geoQueued is x).addFlags is.who fGNF else s.geoQueued is x) := rfl
  have clean : ¬(x.trapnf = true ∧ bad) → ¬(x.trapnf && (is.over (geoCoords is x)).any (fun e => badCoord e.2)) = true := by
    rw [Bool.and_eq_true, hb]
    exact id
  refine ⟨fun h0 => regFrame_of h he (if_pos h0), fun h0 hx hbd => ?_, fun h0 hn hl => ?_, fun h0 hn hl => ?_⟩
  · exact trap_of h he (by rw [body_eq, if_neg h0, hx, hb.2 hbd]; rfl)
  · exact hold_of h he (by rw [body_eq, if_neg h0, if_neg (clean hn), if_pos hl])
  rw [if_neg h0, if_neg (clean hn), if_neg (by omega)] at body_eq
  obtain ⟨k1, k2, k3, k4⟩ := s.fork_keeps is [] none false
  have hq : Quiet ((s.fork is [] none false).2.setEop (is.geoOp x (s.fork is [] none false).1)) (s.geoQueued is x) is.who :=
    Quiet.of_plain _ (State.plain_modCore ..)
  have f0 : Forks s (s.geoQueued is x) is (is.geoOp x (s.fork is [] none false).1) :=
    (forks_setEop (f := is.geoOp x) (fun _ => ⟨rfl, rfl, rfl, rfl, rfl, rfl, rfl⟩) (Quiet.refl ..)).quiet hq
  have c0 : (s.geoQueued is x).cur = s.cur := s.fork_cur is [] none false
  have a0 : ((s.geoQueued is x).warp is.who).arstat = (s.warp is.who).arstat := k4
  have g0 : ((s.geoQueued is x).core (coreOf is.who)).geo = (s.core (coreOf is.who)).geo ++ [s.nextId] := by
    refine (congrArg Core.geo (State.core_modCore_same ..)).trans ?_
    show (mgetD (s.fork is [] none false).2.cores (coreOf is.who) {}).geo ++ _ = _
    rw [k1]
    rfl
  have alone0 : s.alone = true → (s.geoQueued is x).alone = true := fun ha => by rw [State.alone, c0]; exact ha
  generalize s.geoQueued is x = v at *
  have q1 : Quiet v (v.addFlags is.who fGNF) is.who := v.addFlags_quiet _ _
  have g1 := v.addFlags_core is.who fGNF (coreOf is.who)
  by_cases hbd : bad
  · rw [if_pos (hb.2 hbd)] at body_eq
    obtain ⟨t, l, ht, hf, e⟩ := forks_of h he body_eq (f0.quiet q1) (q1.cur.trans (congrArg _ c0))
    refine ⟨t, _, ht, hf, ?_, fun L hL => hi ▸ is.geoOp_lane x (s.fork is [] none false).1 hL, fun _ ha => ?_, fun hg => absurd hbd hg⟩
    · rw [e.frame.core, g1]; exact g0
    · have ha1 : (v.addFlags is.who fGNF).alone = true := by rw [State.addFlags_alone _ _ _ (alone0 ha)]; exact alone0 ha
      rw [(e.alone ha1).1, State.addFlags_alone _ _ _ (alone0 ha), State.warp_modWarp, ← a0]
  · rw [if_neg (fun hh => hbd (hb.1 hh))] at body_eq
    obtain ⟨t, l, ht, hf, e⟩ := forks_of h he body_eq f0 (congrArg _ c0)
    refine ⟨t, _, ht, hf, ?_, fun L hL => hi ▸ is.geoOp_lane x (s.fork is [] none false).1 hL, fun hg => absurd hg hbd, fun _ ha => ?_⟩
    · rw [e.frame.core]; exact g0
    · rw [(e.alone (alone0 ha)).1, a0]

/-- Settles O35. -/
theorem geoWords : Obligations.GeoWords := by
  unfold Obligations.GeoWords
  intro s is x core bad word
  exact ⟨fun h => geoWord_of rfl h bad Iff.rfl, fun h => geoWord_of rfl h bad Iff.rfl, fun h => geoWord_of rfl h bad Iff.rfl,
    fun h => geoWord_of rfl h bad Iff.rfl, fun h => geoWord_of rfl h bad Iff.rfl⟩

end Sys2Proof.Machine
end

section
/-! LAUNCH, PREFETCH.L2 and COPY at issue (R287, R342, R344 to R346). -/

namespace Sys2Proof.Machine

theorem statusOf_eq (is : Issue) (s : State) (sb : SOp) :
    statusOf is s sb = if sb = .special .zero then none else some (is.sv s sb).toNat := by
  unfold statusOf
  split
  · rfl
  · next h => exact (if_neg (fun e => h e)).symm

/-- The state in which a word has forked its operation and updated its token, and what the operation is. -/
theorem State.tokStart_word {s : State} {i : Instr} {is : Issue} {pre align : Issue → State → Option (Cause × Info)}
    {body : Issue → State → Act} {vals : List W64} {tok : Option (Nat × Bool)} {rel : Bool} {f : EngOp → EngOp} {after : State → State}
    (h : s.readyWith i pre align = some is) (he : Machine.exec i s = runWordWith i pre align body s)
    (hk : ∀ o, (f o).id = o.id ∧ (f o).who = o.who ∧ (f o).instr = o.instr ∧ (f o).pc = o.pc ∧ (f o).wg = o.wg ∧ (f o).mask = o.mask ∧
      (f o).flags = o.flags)
    (hb : body is s = .next (after ((s.fork is vals tok rel).2.tokStart (f (s.fork is vals tok rel).1))))
    (ha : ∀ u, (after u).eops = u.eops ∧ (after u).warps = u.warps ∧ (after u).ctls = u.ctls ∧ (after u).cur = u.cur) :
    ∃ t v p l, Machine.exec i s = .next t ∧ Forks s t is { f (s.fork is vals tok rel).1 with phase := p, outdone := l } ∧
      WordEnd (after v) t is ∧ v.cslots = s.cslots := by
  obtain ⟨p, hf, s1, q, h1⟩ := s.tokStart_forks is vals tok rel hk
  rw [h1] at hb hf
  obtain ⟨a1, a2, a3, a4⟩ := ha (s1.setEop { f (s.fork is vals tok rel).1 with phase := p })
  have hv : Forks s (after (s1.setEop { f (s.fork is vals tok rel).1 with phase := p })) is { f (s.fork is vals tok rel).1 with phase := p } := by
    refine ⟨by rw [a1]; exact hf.op, hf.fresh, hf.mine, hf.flag, ?_⟩
    have c := hf.counts
    have hw : ∀ n, (after (s1.setEop { f (s.fork is vals tok rel).1 with phase := p })).warp n =
        (s1.setEop { f (s.fork is vals tok rel).1 with phase := p }).warp n := fun n => by unfold State.warp; rw [a2]
    have hc : ∀ n, (after (s1.setEop { f (s.fork is vals tok rel).1 with phase := p })).ctl n =
        (s1.setEop { f (s.fork is vals tok rel).1 with phase := p }).ctl n := fun n => by unfold State.ctl; rw [a3]
    exact ⟨by rw [hw]; exact c.sregs, by rw [hw]; exact c.preds, by rw [hw]; exact c.blocks, fun k => by rw [hw]; exact c.flags k,
      fun n hn => by rw [hw, hc]; exact c.others n hn⟩
  obtain ⟨t, l, ht, hft, e⟩ := forks_of h he hb hv (by rw [a4]; exact q.cur.trans (congrArg _ (s.fork_cur is vals tok rel)))
  exact ⟨t, _, p, l, ht, hft, e, q.cslots.trans (s.fork_keeps is vals tok rel).2.1⟩

/-- LAUNCH forks its operation, which has no token. -/
theorem launch_of {s : State} {is : Issue} {sa sb : SOp} {cf : BitVec 5} {cc : BitVec 6}
    (h : s.readyWith (.launch sa sb cf cc) noCheck (launchAlign sa sb) = some is) :
    ∃ t o, Machine.exec (.launch sa sb cf cc) s = .next t ∧ Forks s t is o ∧
      o.vals = [is.sv s sa, BitVec.ofNat 64 ((statusOf is s sb).getD 0)] ∧ o.rel = true ∧ o.after = s.forkAfter is.who true ∧
      o.phase = 0 ∧ t.mem = s.mem := by
  have k := s.fork_keeps is [is.sv s sa, BitVec.ofNat 64 ((statusOf is s sb).getD 0)] none true
  have c := s.fork_cur is [is.sv s sa, BitVec.ofNat 64 ((statusOf is s sb).getD 0)] none true
  obtain ⟨t, l, ht, hf, e⟩ := forks_of h (body := launchBody sa sb cf cc) rfl rfl
    (forks_setEop (f := fun o => { o with nums := _ }) (fun _ => ⟨rfl, rfl, rfl, rfl, rfl, rfl, rfl⟩) (Quiet.refl ..)) (congrArg _ c)
  exact ⟨t, _, ht, hf, rfl, rfl, rfl, rfl, e.frame.mem.trans k.2.2.1⟩

/-- The state in which COPY's operation has joined the pieces of its core. -/
def State.pieceAdded (s : State) (is : Issue) (q : CopyPlan) (u : State) : State :=
  if q.nc = 0 then u else u.modCore (coreOf is.who) (fun c => { c with pieces := c.pieces ++ [s.nextId] })

/-- The operation of a COPY with plan `q`. -/
def CopyPlan.op (q : CopyPlan) (o : EngOp) : EngOp :=
  { o with dst := [(0, q.dstRegs)], nums := [0, 0], ready := if q.nc = 0 then 1 else 0 }

theorem copyBody_starts {x : CopyArgs} {is : Issue} {s : State} {q : CopyPlan} (hq : copyPlan x (copyVals x is s) = some q)
    (hr : q.inRange (copyVals x is s) = true) (hv : q.misaligned (tokOf is s x.sb) = none) (hb : q.bound (s.viewRegs is.who) = none)
    (hf : (is.flag.isNone && ((tokOf is s x.sb).isNone || x.dsp == .rw)) = false) :
    copyBody x is s = .next (s.pieceAdded is q ((s.fork is (copyVals x is s) ((tokOf is s x.sb).map fun v => (v, x.tsp)) x.rel).2.tokStart
      (q.op (s.fork is (copyVals x is s) ((tokOf is s x.sb).map fun v => (v, x.tsp)) x.rel).1))) := by
  simp only [copyBody, hq, hr, hv, hb, hf, Bool.not_true, Bool.false_eq_true, if_false]
  rfl

/-- Settles O33. Of two misaligned fields LAUNCH reports the descriptor's and COPY the first of `CopyPlan.misaligned`: the first is
this model's order of the checks, the second its log entry 36. -/
theorem engineWords : Obligations.EngineWords := by
  unfold Obligations.EngineWords
  intro s is sa sb cf cc stok tsp x a n own mine status l p vals tok
  have hst : statusOf is s sb = status := statusOf_eq is s sb
  refine ⟨fun h => ?_, fun h h1 h2 h3 ha => ?_, fun h h1 h2 h3 ha b hb hm => ?_, fun h => ⟨fun hn => ?_, fun hn => ?_⟩, fun h q hq => ⟨fun hr => ?_, fun hr v hv => ?_, fun hr hv hbd hfl => ?_⟩⟩
  · have := launch_of h
    rw [hst] at this
    exact this
  · exact runWordWith_align (launchBody sa sb cf cc) h h1 h2 h3 (by unfold launchAlign; dsimp only; rw [if_pos (bne_iff_ne.2 ha)])
  · refine runWordWith_align (launchBody sa sb cf cc) h h1 h2 h3 ?_
    unfold launchAlign
    dsimp only
    rw [if_neg (by simpa using ha), hst, hb]
    exact if_pos (bne_iff_ne.2 hm)
  · obtain ⟨t, v, ph, k, ht, hf, -⟩ := State.tokStart_word h (body := prefetchBody sa sb stok tsp) (f := id) (after := id) rfl
      (fun _ => ⟨rfl, rfl, rfl, rfl, rfl, rfl, rfl⟩) (if_neg (Nat.not_lt.2 hn)) (fun _ => ⟨rfl, rfl, rfl, rfl⟩)
    exact ⟨t, _, ht, hf, rfl, rfl⟩
  · exact trap_of h rfl (if_pos hn)
  · refine trap_of h rfl ?_
    unfold copyBody
    dsimp only
    rw [hq]
    dsimp only
    rw [hr]
    rfl
  · refine trap_of h rfl ?_
    unfold copyBody
    dsimp only
    rw [hq]
    dsimp only
    rw [hr, hv]
    rfl
  · have hnf : (is.flag.isNone && (tok.isNone || x.dsp == .rw)) = false := by
      rcases hfl with h3 | ⟨h3, h4⟩
      · simp [Option.isNone_eq_false_iff.2 h3]
      · simp [Option.isNone_eq_false_iff.2 h3, h4]
    have hb := copyBody_starts hq hr hv hbd hnf
    obtain ⟨t, v, ph, k, ht, hf, -⟩ := State.tokStart_word (f := q.op) (after := s.pieceAdded is q) h rfl (fun _ => ⟨rfl, rfl, rfl, rfl, rfl, rfl, rfl⟩) hb
      (fun _ => by unfold State.pieceAdded; split <;> exact ⟨rfl, rfl, rfl, rfl⟩)
    exact ⟨t, _, ht, hf, rfl, rfl, rfl⟩

end Sys2Proof.Machine
end

section
/-! COLL and KV words at issue (R403, R477, R478). -/

namespace Sys2Proof.Machine

@[simp] theorem State.cslot_modCslot (s : State) (n : Nat) (f : CSlot → CSlot) : (s.modCslot n f).cslot n = f (s.cslot n) := by
  simp [State.modCslot, State.setCslot, State.cslot]

theorem WordFrame.cslot {s t : State} {who : Nat} (h : WordFrame s t who) (n : Nat) : t.cslot n = s.cslot n := by
  have := congrArg State.cslots h.world
  unfold State.cslot
  exact congrArg (fun m => mgetD m n {}) this

section
variable {is : Issue} {tok : Option Nat}

theorem tok_flagged (h : tok.isSome = true ∨ is.flag.isSome = true) : (tok.isNone && is.flag.isNone) = false := by
  rcases h with h | h <;> simp [Option.isNone_eq_false_iff.2 h]

theorem tok_aligned (h : ∀ v, tok = some v → v % 16 = 0) : tok.bind (fun t => if t % 16 != 0 then some t else none) = none := by
  cases tok with
  | none => rfl
  | some v => simp [h v rfl]

theorem collAlignErr_none {vas : List Nat} {n : Nat} (hv : ∀ v ∈ vas, v % n = 0) (h : ∀ v, tok = some v → v % 16 = 0) :
    collAlignErr vas n tok = none := by
  unfold collAlignErr
  rw [List.find?_eq_none.2 fun v hm => by simp [hv v hm]]
  exact tok_aligned h

/-- The checks of a KV word whose record, scalars, list, source and token are fine. -/
theorem kvChecks_none {rec_ : W64} {wide32 wide16 : List W64} {list src : Option W64} (hr : rec_.toNat < 2 ^ 57 ∧ rec_.toNat % 64 = 0)
    (h32 : ∀ v ∈ wide32, v.toNat < 2 ^ 32) (h16 : ∀ v ∈ wide16, v.toNat < 2 ^ 16) (hl : ∀ v, list = some v → v.toNat % 8 = 0)
    (hs : ∀ v, src = some v → v.toNat % 128 = 0) (ht : ∀ v, tok = some v → v % 16 = 0)
    (hf : tok.isSome = true ∨ is.flag.isSome = true) : kvChecks [rec_] wide32 wide16 list src tok is.flag false = none := by
  have e1 : wide32.any (fun v => decide (2 ^ 32 ≤ v.toNat)) = false :=
    List.any_eq_false.2 fun v hv => by simpa using h32 v hv
  have e2 : wide16.any (fun v => decide (2 ^ 16 ≤ v.toNat)) = false :=
    List.any_eq_false.2 fun v hv => by simpa using h16 v hv
  have e3 : [rec_].any kvRecBad = false := List.any_eq_false.2 fun v hv => by
    rw [List.mem_singleton.1 hv]
    simpa [kvRecBad] using hr.1
  have e4 : (list.bind fun a => if a.toNat % 8 != 0 then some a.toNat else none) = none := by
    cases list with
    | none => rfl
    | some v => simp [hl v rfl]
  have e5 : (src.bind fun a => if a.toNat % 128 != 0 then some a.toNat else none) = none := by
    cases src with
    | none => rfl
    | some v => simp [hs v rfl]
  have e0 : ([rec_].head?.bind fun a => if a.toNat % 64 != 0 then some a.toNat else none) = none := by simp [hr.2]
  simp only [kvChecks, e0, e1, e2, e3, e4, e5, tok_aligned ht, tok_flagged hf, Bool.or_self, Bool.false_eq_true, if_false]
  rfl

theorem kvChecks_far {rec_ : W64} {wide32 wide16 : List W64} {list src : Option W64} {flag : Option Nat} {extra : Bool} (h : 2 ^ 57 ≤ rec_.toNat) :
    kvChecks [rec_] wide32 wide16 list src tok flag extra = some (.oprange, .same 0) := by
  have e : [rec_].any kvRecBad = true := List.any_eq_true.2 ⟨rec_, List.mem_singleton.2 rfl, by simpa [kvRecBad] using h⟩
  unfold kvChecks
  rw [e]
  rfl

end

section
variable {s : State} {i : Instr} {is : Issue} {body : Issue → State → Act}

/-- A word that starts its operation and does nothing else. -/
theorem kvStart_of {vals : List W64} {tok : Option (Nat × Bool)} {rel : Bool} (h : s.ready i = some is)
    (he : Machine.exec i s = runWord i body s) (hb : body is s = kvStart is s vals tok rel) :
    ∃ t o, Machine.exec i s = .next t ∧ Forks s t is o ∧ o.vals = vals ∧ o.tok = tok ∧ o.rel = rel := by
  obtain ⟨t, v, p, l, ht, hf, -⟩ := State.tokStart_word (f := id) (after := id) h he (fun _ => ⟨rfl, rfl, rfl, rfl, rfl, rfl, rfl⟩) hb
    (fun _ => ⟨rfl, rfl, rfl, rfl⟩)
  exact ⟨t, _, ht, hf, rfl, rfl, rfl⟩

/-- A word that starts its operation and takes a place in slot `n`. -/
theorem slotStart_of {vals : List W64} {tok : Option (Nat × Bool)} {rel : Bool} {n : Nat} {g : Nat → CSlot → CSlot} (h : s.ready i = some is)
    (he : Machine.exec i s = runWord i body s)
    (hb : body is s = .next (((s.fork is vals tok rel).2.tokStart (s.fork is vals tok rel).1).modCslot n (g (s.fork is vals tok rel).1.id))) :
    ∃ t o, Machine.exec i s = .next t ∧ Forks s t is o ∧ o.vals = vals ∧ o.tok = tok ∧ t.cslot n = g o.id (s.cslot n) := by
  obtain ⟨t, v, p, l, ht, hf, e, hc⟩ := State.tokStart_word (f := id) (after := fun u => u.modCslot n (g (s.fork is vals tok rel).1.id)) h he
    (fun _ => ⟨rfl, rfl, rfl, rfl, rfl, rfl, rfl⟩) hb (fun _ => ⟨rfl, rfl, rfl, rfl⟩)
  refine ⟨t, _, ht, hf, rfl, rfl, ?_⟩
  rw [e.frame.cslot, State.cslot_modCslot, State.cslot, hc]
  rfl

end

section
variable {x : CollArgs} {is : Issue} {s : State}

theorem collLoadBody_starts (hd : (is.sv s x.sa).toNat < 2 ^ 57) (hg : (is.sv s x.sb).toNat < 2 ^ 57) (hd' : (is.sv s x.sa).toNat % 64 = 0)
    (hg' : (is.sv s x.sb).toNat % 64 = 0) (ht : ∀ v, tokOf is s x.stok = some v → v % 16 = 0)
    (hf : (tokOf is s x.stok).isSome = true ∨ is.flag.isSome = true) :
    collLoadBody x is s = .next (((s.fork is [is.sv s x.sa, is.sv s x.sb] ((tokOf is s x.stok).map (fun t => (t, x.tsp))) false).2.tokStart
      (s.fork is [is.sv s x.sa, is.sv s x.sb] ((tokOf is s x.stok).map (fun t => (t, x.tsp))) false).1).modCslot x.slot.val
      (fun c => { c with loads := c.loads ++ [(s.fork is [is.sv s x.sa, is.sv s x.sb] ((tokOf is s x.stok).map (fun t => (t, x.tsp))) false).1.id] })) := by
  have e := collAlignErr_none (vas := [(is.sv s x.sa).toNat, (is.sv s x.sb).toNat]) (n := 64) (by simp [hd', hg']) ht
  have e1 : (decide (2 ^ 57 ≤ (is.sv s x.sa).toNat) || decide (2 ^ 57 ≤ (is.sv s x.sb).toNat)) = false := by
    simp only [Bool.or_eq_false_iff, decide_eq_false_iff_not]
    omega
  simp only [collLoadBody, collTok, e1, e, tok_flagged hf, Bool.false_eq_true, if_false]

/-- What the base registers and SEQ hold. -/
theorem collVals_eq (x : CollArgs) (is : Issue) (s : State) : ∃ more, collVals x is s =
    ((List.range 8).map (fun i => is.w.sreg (sopNum x.sa + i)) ++ [is.sv s x.sb]) ++ more :=
  ⟨_, (List.append_assoc _ [_] _).symm⟩

theorem collRunBody_checked (hg : (is.sv s x.sb).extractLsb' 32 32 = 0)
    (hb : ∀ b ∈ (List.range 8).map (fun i => is.w.sreg (sopNum x.sa + i)), baseForm b = true ∧ b.toNat % 128 = 0)
    (ht : ∀ v, tokOf is s x.stok = some v → v % 16 = 0) (hf : (tokOf is s x.stok).isSome = true ∨ is.flag.isSome = true) :
    collRunBody x is s = if 4 ≤ (s.cslot x.slot.val).queue.length then .hold s else
      .next (((s.fork is (collVals x is s) ((tokOf is s x.stok).map (fun t => (t, x.tsp))) x.rel).2.tokStart
        (s.fork is (collVals x is s) ((tokOf is s x.stok).map (fun t => (t, x.tsp))) x.rel).1).modCslot x.slot.val
        (fun c => { c with queue := c.queue ++ [(s.fork is (collVals x is s) ((tokOf is s x.stok).map (fun t => (t, x.tsp))) x.rel).1.id] })) := by
  have h8 : (collVals x is s).take 8 = (List.range 8).map (fun i => is.w.sreg (sopNum x.sa + i)) := List.take_left' (by simp)
  have h9 : (collVals x is s).getD 8 0 = is.sv s x.sb := rfl
  have e := collAlignErr_none (vas := ((List.range 8).map (fun i => is.w.sreg (sopNum x.sa + i))).map BitVec.toNat) (n := 128)
    (fun v hv => by obtain ⟨b, hm, rfl⟩ := List.mem_map.1 hv; exact (hb b hm).2) ht
  have e1 : ((List.range 8).map (fun i => is.w.sreg (sopNum x.sa + i))).any (fun b => !baseForm b) = false :=
    List.any_eq_false.2 fun b hm => by simp [(hb b hm).1]
  simp only [collRunBody, collTok, h8, h9, hg, e1, e, tok_flagged hf, bne_self_eq_false, Bool.or_self, Bool.false_eq_true, if_false]

end

/-- Settles O34. -/
theorem listWords : Obligations.ListWords := by
  unfold Obligations.ListWords
  intro s is x w a c d g ctok tokOk bases slot starts recOk wtok atok ktok
  refine ⟨fun h => ⟨fun hf => ?_, fun h1 h2 h3 h4 h5 => ?_⟩, fun h hg hb htok => ⟨fun hq => ?_, fun hq => ?_⟩, fun h hr hc hl htok => ?_,
    fun h hr h1 h2 hs htok => ?_, fun h hr h1 htok => ?_, fun h hf => ?_, fun h hf => ?_, fun h hf => ?_⟩
  · refine trap_of h rfl (if_pos ?_)
    rw [Bool.or_eq_true, decide_eq_true_iff, decide_eq_true_iff]
    exact hf
  · obtain ⟨t, o, ht, hf, hv, hk, hs⟩ := slotStart_of h rfl (g := fun n c => { c with loads := c.loads ++ [n] })
      (collLoadBody_starts h1 h2 h3 h4 h5.1 h5.2)
    exact ⟨t, o, ht, hf, by rw [hv]; rfl, hk, congrArg CSlot.loads hs⟩
  · exact hold_of h rfl ((collRunBody_checked hg hb htok.1 htok.2).trans (if_pos hq))
  · obtain ⟨t, o, ht, hf, hv, hk, hs⟩ := slotStart_of h rfl (g := fun n c => { c with queue := c.queue ++ [n] })
      ((collRunBody_checked hg hb htok.1 htok.2).trans (if_neg (Nat.not_le.2 hq)))
    obtain ⟨more, hm⟩ := collVals_eq x is s
    exact ⟨t, o, ht, hf, by rw [hv, hm]; exact List.take_left, hk, congrArg CSlot.queue hs⟩
  · have e := kvChecks_none (is := is) (rec_ := is.sv s w.sa) (wide32 := [is.sv s w.sb]) (wide16 := [])
      (list := some (is.w.sreg w.sdst.val)) (src := none) (tok := tokOf is s w.stok) hr
      (by simp only [List.mem_singleton]; rintro _ rfl; omega) (by simp) (by rintro _ ⟨⟩; exact hl) (by simp) htok.1 htok.2
    obtain ⟨t, o, ht, hf, hv, hk, -⟩ := kvStart_of (body := kvwalkBody w) h rfl
      (by simp only [kvwalkBody, decide_eq_false (Nat.not_le.2 hc), e]; rfl)
    exact ⟨t, o, ht, hf, by rw [hv]; rfl, hk, trivial⟩
  · have e := kvChecks_none (is := is) (rec_ := is.sv s a.sa) (wide32 := []) (wide16 := [is.sv s a.sb])
      (list := none) (src := some (is.w.sreg a.ssrc.val)) (tok := tokOf is s a.stok) hr
      (by simp) (by simp only [List.mem_singleton]; rintro _ rfl; exact h1) (by simp) (by rintro _ ⟨⟩; exact hs) htok.1 htok.2
    obtain ⟨t, o, ht, hf, hv, hk, -⟩ := kvStart_of (body := kvappendBody a) h rfl
      (by simp only [kvappendBody, decide_eq_false (show ¬65535 < (is.sv s a.sd).toNat by omega), e]; rfl)
    exact ⟨t, o, ht, hf, by rw [hv]; rfl, hk, trivial⟩
  · have e := kvChecks_none (is := is) (rec_ := is.sv s c.sa) (wide32 := [is.sv s c.sb]) (wide16 := [])
      (list := none) (src := none) (tok := tokOf is s c.stok) hr
      (by simp only [List.mem_singleton]; rintro _ rfl; exact h1) (by simp) (by simp) (by simp) htok.1 htok.2
    obtain ⟨t, o, ht, hf, hv, hk, hrel⟩ := kvStart_of (body := kvcommitBody c) h rfl (by simp only [kvcommitBody, e]; rfl)
    exact ⟨t, o, ht, hf, by rw [hv]; rfl, hk, hrel⟩
  · exact trap_of h rfl (by simp only [kvwalkBody, kvChecks_far hf])
  · exact trap_of h rfl (by simp only [kvappendBody, kvChecks_far hf])
  · exact trap_of h rfl (by simp only [kvcommitBody, kvChecks_far hf])

end Sys2Proof.Machine
end

section
/-! CSRW (R277, R420, R421, R437). -/

namespace Sys2Proof.Machine

theorem merge_allOnes {n : Nat} (old v : BitVec n) : merge old (BitVec.allOnes n) v = v := by
  simp [merge]

/-! ### The end of a word leaves the world as the body left it -/

/-- The state without its threads and their operations. -/
def State.noThreads (s : State) : State := { s with warps := [], ctls := [], mops := [], eops := [], cur := none }

theorem State.noThreads_outwrite (s : State) (is : Issue) : (s.outwrite is).noThreads = s.noThreads := by
  unfold State.outwrite
  split <;> rfl

theorem State.noThreads_countDeltas (s : State) (is : Issue) : (s.countDeltas is).noThreads = s.noThreads := by
  unfold State.countDeltas
  dsimp only
  split <;> rfl

theorem State.noThreads_closeGroup (s : State) : s.closeGroup.noThreads = s.noThreads := by
  unfold State.closeGroup
  split
  · rfl
  · split <;> rfl

theorem State.noThreads_finish (s : State) (is : Issue) : (s.finish is).noThreads = s.noThreads := by
  have h : ((((s.outwrite is).countDeltas is).modWarp is.who (fun w => w.advance is.lane is.pc (slotsOf is.i))).noteIssue is).noThreads =
      s.noThreads :=
    (State.noThreads_countDeltas _ is).trans (s.noThreads_outwrite is)
  unfold State.finish
  dsimp only
  split
  · exact h
  · exact (State.noThreads_closeGroup _).trans h

/-! ### CSRW -/

theorem tailOk_iff {base head v : W64} : tailOk base head v = true ↔ (head - v).toNat ≤ ringSize base := by
  simp [tailOk]

section
variable {s u : State} {is : Issue} {ss : SOp} {n : BitVec 12}

/-- CSRW ends on what the write of the register left. -/
theorem csrw_next (h : s.readyWith (.csrw ss n) (csrwPre n) noCheck = some is) :
    Machine.exec (.csrw ss n) s = .next ((s.csrWrite is.who n.toNat (is.sv s ss)).finish is) := by
  show runWordWith _ _ _ _ s = _
  rw [runWordWith_ready _ h]
  rfl

/-- What CSRW leaves of the thread, and what of the rest, where the register is not one of the warp's. -/
theorem csrw_keeps (h : s.readyWith (.csrw ss n) (csrwPre n) noCheck = some is) (hu : s.csrWrite is.who n.toNat (is.sv s ss) = u)
    (hc : u.cur = s.cur) (hm : u.mem = s.mem) (hw : (u.warp is.who).s = (s.warp is.who).s ∧ (u.warp is.who).p = (s.warp is.who).p ∧
      (u.warp is.who).blocks = (s.warp is.who).blocks) (f : State → Prop) (hf : ∀ t, WordEnd u t is → f t) :
    ∃ t, Machine.exec (.csrw ss n) s = .next t ∧ f t ∧ t.mem = s.mem ∧ (t.warp is.who).s = (s.warp is.who).s ∧
      (t.warp is.who).p = (s.warp is.who).p ∧ (t.warp is.who).blocks = (s.warp is.who).blocks := by
  subst hu
  have e := State.finish_end (s.csrWrite is.who n.toNat (is.sv s ss)) is fun c hcu => (State.ready_issue h).2 c (hc ▸ hcu)
  obtain ⟨f1, f2, f3, -⟩ := e.fields
  exact ⟨_, csrw_next h, hf _ e, e.frame.mem.trans hm, f1.trans hw.1, f2.trans hw.2.1, f3.trans hw.2.2⟩

end

theorem WordFrame.ctl_tvec {s t : State} {who : Nat} (h : WordFrame s t who) :
    (t.ctl who).tvec = (s.ctl who).tvec ∧ (t.ctl who).inTrap = (s.ctl who).inTrap := by
  have h1 := congrArg WarpCtl.tvec h.ctl
  have h2 := congrArg WarpCtl.inTrap h.ctl
  exact ⟨h1, h2⟩

theorem WordEnd.viol {s t : State} {is : Issue} (h : WordEnd s t is) : (t.warp is.who).viol = (s.warp is.who).viol := by
  have := congrArg Warp.viol h.regs
  exact this

/-- The cluster's registers, its streams and the other clusters after a word. -/
theorem WordEnd.worlds {s t : State} {is : Issue} (h : WordEnd s t is) : t.clusters = s.clusters ∧ t.streams = s.streams := by
  have h1 := congrArg State.clusters h.frame.world
  have h2 := congrArg State.streams h.frame.world
  exact ⟨h1, h2⟩

theorem violWrite_clear {info v : W64} (h : v.getLsbD 63 = true) :
    bitsOf (violWrite info v) 48 16 = 0 ∧ bitsOf (violWrite info v) 0 48 = bitsOf info 0 48 := by
  have e : (violWrite info v).toNat = info.toNat % 2 ^ 48 := by
    rw [violWrite, if_pos h, BitVec.toNat_and]
    exact Nat.and_two_pow_sub_one_eq_mod _ 48
  simp only [bitsOf, e, Nat.shiftRight_eq_div_pow]
  omega

section
variable {s : State} {is : Issue} {ss : SOp} {n : BitVec 12}

/-- A register of the cluster's that a control core writes. -/
theorem State.csrWrite_stream (s : State) {who num : Nat} (v : W64) (hs : isStream who = true) (h0 : num ≠ 0) (h1 : num ≠ 0x120) :
    s.csrWrite who num v = s.clusterRegWrite (clusterOf who) num (BitVec.allOnes 64) v := by
  unfold State.csrWrite
  rw [if_neg h0, if_pos hs, if_neg h1]

/-- A write that leaves the cluster's registers as `k`. -/
theorem csrw_cluster (h : s.readyWith (.csrw ss n) (csrwPre n) noCheck = some is) {k : Cluster}
    (hu : s.csrWrite is.who n.toNat (is.sv s ss) = s.setCluster (clusterOf is.who) k) :
    ∃ t, Machine.exec (.csrw ss n) s = .next t ∧ (t.cluster (clusterOf is.who) = k ∧
      (∀ c, c ≠ clusterOf is.who → t.cluster c = s.cluster c) ∧ t.streams = s.streams) ∧ t.mem = s.mem ∧
      (t.warp is.who).s = (s.warp is.who).s ∧ (t.warp is.who).p = (s.warp is.who).p ∧ (t.warp is.who).blocks = (s.warp is.who).blocks := by
  refine csrw_keeps h hu rfl rfl ⟨rfl, rfl, rfl⟩ _ fun t e => ?_
  obtain ⟨h1, h2⟩ := e.worlds
  unfold State.cluster
  rw [h1]
  exact ⟨mgetD_mset_same .., fun c hc => mgetD_mset_other _ _ _ hc, h2⟩

/-- A write that leaves stream `j` as `y`. -/
theorem csrw_streams (h : s.readyWith (.csrw ss n) (csrwPre n) noCheck = some is) {j : Nat} {y : Stream}
    (hu : s.csrWrite is.who n.toNat (is.sv s ss) = s.setStream j y) :
    ∃ t, Machine.exec (.csrw ss n) s = .next t ∧ (t.stream j = y ∧
      (∀ l, l ≠ j → t.stream l = s.stream l) ∧ t.clusters = s.clusters) ∧ t.mem = s.mem ∧
      (t.warp is.who).s = (s.warp is.who).s ∧ (t.warp is.who).p = (s.warp is.who).p ∧ (t.warp is.who).blocks = (s.warp is.who).blocks := by
  refine csrw_keeps h hu rfl rfl ⟨rfl, rfl, rfl⟩ _ fun t e => ?_
  obtain ⟨h1, h2⟩ := e.worlds
  unfold State.stream
  rw [h2]
  exact ⟨mgetD_mset_same .., fun c hc => mgetD_mset_other _ _ _ hc, h1⟩

/-- A write that leaves everything, where `y` is what stream `j` is. -/
theorem csrw_streams_same (h : s.readyWith (.csrw ss n) (csrwPre n) noCheck = some is) {j : Nat} {y : Stream} (hy : y = s.stream j)
    (hu : s.csrWrite is.who n.toNat (is.sv s ss) = s) :
    ∃ t, Machine.exec (.csrw ss n) s = .next t ∧ (t.stream j = y ∧
      (∀ l, l ≠ j → t.stream l = s.stream l) ∧ t.clusters = s.clusters) ∧ t.mem = s.mem ∧
      (t.warp is.who).s = (s.warp is.who).s ∧ (t.warp is.who).p = (s.warp is.who).p ∧ (t.warp is.who).blocks = (s.warp is.who).blocks := by
  refine csrw_keeps h hu rfl rfl ⟨rfl, rfl, rfl⟩ _ fun t e => ?_
  obtain ⟨h1, h2⟩ := e.worlds
  unfold State.stream
  rw [h2]
  exact ⟨hy.symm, fun _ _ => rfl, h1⟩

/-- A stream's register: which one the number names. -/
theorem State.csrWrite_streamReg (s : State) {who num m o : Nat} (v : W64) (hs : isStream who = true) (hm : m < 16) (ho : o < 8)
    (hn : num = 0x200 + 8 * m + o) :
    s.csrWrite who num v = s.streamRegWrite (16 * clusterOf who + m) o (BitVec.allOnes 64) v := by
  rw [State.csrWrite_stream s v hs (by omega) (by omega), State.clusterRegWrite,
    if_pos (by simp only [Bool.and_eq_true, decide_eq_true_iff]; omega), show (num - 0x200) / 8 = m by omega, show num % 8 = o by omega]

end

section
variable (s : State) (c : Nat) (v : W64)

theorem State.clusterRegWrite_fqbase : s.clusterRegWrite c 0x0C0 (BitVec.allOnes 64) v =
    s.setCluster c { s.cluster c with fqbase := v &&& baseMask } := by
  conv_rhs => rw [← merge_allOnes (s.cluster c).fqbase v]
  rfl

theorem State.clusterRegWrite_errbase : s.clusterRegWrite c 0x110 (BitVec.allOnes 64) v =
    s.setCluster c { s.cluster c with errbase := v &&& baseMask } := by
  conv_rhs => rw [← merge_allOnes (s.cluster c).errbase v]
  rfl

theorem State.clusterRegWrite_errlost : s.clusterRegWrite c 0x113 (BitVec.allOnes 64) v =
    s.setCluster c { s.cluster c with errlost := v.extractLsb' 0 16 } := by
  conv_rhs => rw [← merge_allOnes (s.cluster c).errlost (v.extractLsb' 0 16)]
  rfl

theorem State.clusterRegWrite_fqtail : s.clusterRegWrite c 0x0C2 (BitVec.allOnes 64) v = s.setCluster c
    { s.cluster c with fqtail := if ((s.cluster c).fqhead - v).toNat ≤ ringSize (s.cluster c).fqbase then v else (s.cluster c).fqtail } := by
  have e : s.clusterRegWrite c 0x0C2 (BitVec.allOnes 64) v = s.writeFqtail c (merge (s.cluster c).fqtail (BitVec.allOnes 64) v) := rfl
  rw [e, merge_allOnes, State.writeFqtail, State.modCluster]
  simp only [tailOk_iff]
  split <;> rfl

theorem State.clusterRegWrite_errtail : s.clusterRegWrite c 0x112 (BitVec.allOnes 64) v = s.setCluster c
    { s.cluster c with errtail := if ((s.cluster c).errhead - v).toNat ≤ ringSize (s.cluster c).errbase then v else (s.cluster c).errtail } := by
  have e : s.clusterRegWrite c 0x112 (BitVec.allOnes 64) v = s.writeErrtail c (merge (s.cluster c).errtail (BitVec.allOnes 64) v) := rfl
  rw [e, merge_allOnes, State.writeErrtail, State.modCluster]
  simp only [tailOk_iff]
  split <;> rfl

variable (j : Nat)

theorem State.streamRegWrite_strpc : s.streamRegWrite j 1 (BitVec.allOnes 64) v =
    if streamActive (s.stream j) then s else s.setStream j { s.stream j with strpc := v &&& ~~~0xF#64 } := by
  rw [State.streamRegWrite, merge_allOnes]

theorem State.streamRegWrite_strarg : s.streamRegWrite j 2 (BitVec.allOnes 64) v = s.setStream j { s.stream j with strarg := v } := by
  rw [State.streamRegWrite, merge_allOnes]

theorem State.streamRegWrite_evqbase : s.streamRegWrite j 3 (BitVec.allOnes 64) v =
    s.setStream j { s.stream j with evqbase := v &&& baseMask } := by
  rw [State.streamRegWrite, merge_allOnes]

theorem State.streamRegWrite_evqtail : s.streamRegWrite j 5 (BitVec.allOnes 64) v = s.setStream j
    { s.stream j with evqtail := if ((s.stream j).evqhead - v).toNat ≤ ringSize (s.stream j).evqbase then v else (s.stream j).evqtail } := by
  rw [State.streamRegWrite, merge_allOnes, State.writeEvqtail, State.modStream]
  simp only [tailOk_iff]
  split <;> rfl

/-- The stream once CTXID has been taken: an active stream keeps its own. -/
def State.takeCtx : State :=
  if streamActive (s.stream j) then s else s.setStream j { s.stream j with ctx := bitsOf v 0 12 }

theorem State.streamRegWrite_strctl : s.streamRegWrite j 0 (BitVec.allOnes 64) v =
    if v.getLsbD 62 then (s.takeCtx v j).streamHalt j else if v.getLsbD 63 then (s.takeCtx v j).streamGo j else s.takeCtx v j := by
  simp [State.streamRegWrite, State.takeCtx]

/-- FRESP does what its STATUS names. -/
theorem State.clusterRegWrite_fresp : s.clusterRegWrite c 0x0C3 (BitVec.allOnes 64) v = s.fresp c v := by
  simp [State.clusterRegWrite]

theorem State.fresp_exec {u : State} (h : Machine.exec (if bitsOf v 0 2 = 0 then Instr.frespReplay c (bitsOf v 48 16)
    else if bitsOf v 0 2 = 2 then Instr.frespProt c (bitsOf v 48 16) else Instr.frespNomap c (bitsOf v 48 16)) s = .next u) :
    u = s.fresp c v := by
  unfold State.fresp
  split at h
  · next h0 =>
    simp only [h0]
    exact (Host.Outcome.next.inj h).symm
  · split at h
    · next h2 =>
      simp only [h2]
      exact (Host.Outcome.next.inj h).symm
    · next h0 h2 =>
      split
      · next h => exact absurd h h0
      · next h => exact absurd h h2
      · exact (Host.Outcome.next.inj h).symm

end

section
variable {s : State} {is : Issue} {ss : SOp} {n : BitVec 12}

/-- The registers of the warp itself. -/
theorem csrw_arstat (h : s.readyWith (.csrw ss n) (csrwPre n) noCheck = some is) (hn : n.toNat = 0) :
    ∃ t, Machine.exec (.csrw ss n) s = .next t ∧ ((t.ctl is.who).tvec = (s.ctl is.who).tvec ∧ (t.warp is.who).viol = (s.warp is.who).viol ∧
      (s.alone = true → (t.warp is.who).arstat = (s.warp is.who).arstat &&& ~~~((is.sv s ss).extractLsb' 0 32 &&& 0x7F))) ∧ t.mem = s.mem ∧
      (t.warp is.who).s = (s.warp is.who).s ∧ (t.warp is.who).p = (s.warp is.who).p ∧ (t.warp is.who).blocks = (s.warp is.who).blocks := by
  have hu : s.csrWrite is.who n.toNat (is.sv s ss) = s.modWarp is.who
      (fun w => { w with arstat := w.arstat &&& ~~~((is.sv s ss).extractLsb' 0 32 &&& 0x7F#32) }) := by
    rw [hn]
    rfl
  refine csrw_keeps h hu rfl rfl (by rw [State.warp_modWarp]; exact ⟨rfl, rfl, rfl⟩) _ fun t e => ?_
  have hv := e.viol
  have ha := fun a => (e.alone a).1
  rw [State.warp_modWarp] at hv ha
  exact ⟨e.frame.ctl_tvec.1, hv, ha⟩

theorem csrw_tvec (h : s.readyWith (.csrw ss n) (csrwPre n) noCheck = some is) (hn : n.toNat = 0x100) (hs : isStream is.who = false) :
    ∃ t, Machine.exec (.csrw ss n) s = .next t ∧ ((t.ctl is.who).tvec = is.sv s ss &&& 0x01FFFFFFFFFFFFF0 ∧
      (t.ctl is.who).inTrap = (s.ctl is.who).inTrap ∧ (t.warp is.who).viol = (s.warp is.who).viol ∧
      (s.alone = true → (t.warp is.who).arstat = (s.warp is.who).arstat)) ∧ t.mem = s.mem ∧
      (t.warp is.who).s = (s.warp is.who).s ∧ (t.warp is.who).p = (s.warp is.who).p ∧ (t.warp is.who).blocks = (s.warp is.who).blocks := by
  have hu : s.csrWrite is.who n.toNat (is.sv s ss) = s.modCtl is.who (fun c => { c with tvec := is.sv s ss &&& 0x01FFFFFFFFFFFFF0#64 }) := by
    rw [hn]
    simp [State.csrWrite, hs]
  refine csrw_keeps h hu rfl rfl ⟨rfl, rfl, rfl⟩ _ fun t e => ?_
  obtain ⟨h1, h2⟩ := e.frame.ctl_tvec
  rw [State.ctl_modCtl] at h1 h2
  exact ⟨h1, h2, e.viol, fun ha => (e.alone ha).1⟩

theorem csrw_viol (h : s.readyWith (.csrw ss n) (csrwPre n) noCheck = some is) (hn : n.toNat = 0x010) (hs : isStream is.who = false) :
    ∃ t, Machine.exec (.csrw ss n) s = .next t ∧ ((t.ctl is.who).tvec = (s.ctl is.who).tvec ∧
      (t.warp is.who).viol = { (s.warp is.who).viol with info := violWrite (s.warp is.who).viol.info (is.sv s ss) } ∧
      (s.alone = true → (t.warp is.who).arstat = (s.warp is.who).arstat)) ∧ t.mem = s.mem ∧
      (t.warp is.who).s = (s.warp is.who).s ∧ (t.warp is.who).p = (s.warp is.who).p ∧ (t.warp is.who).blocks = (s.warp is.who).blocks := by
  have hu : s.csrWrite is.who n.toNat (is.sv s ss) = s.modWarp is.who
      (fun w => { w with viol := { w.viol with info := violWrite w.viol.info (is.sv s ss) } }) := by
    rw [hn]
    simp [State.csrWrite, hs]
  refine csrw_keeps h hu rfl rfl (by rw [State.warp_modWarp]; exact ⟨rfl, rfl, rfl⟩) _ fun t e => ?_
  have hv := e.viol
  have ha := fun a => (e.alone a).1
  rw [State.warp_modWarp] at hv ha
  exact ⟨e.frame.ctl_tvec.1, hv, ha⟩

/-- A register that a requester may not write. -/
theorem State.csrWritable_of {who k : Nat} (h : ¬(k = 0 ∨ (isStream who = true ∧ ((0x0C0 ≤ k ∧ k ≤ 0x0C3) ∨ (0x110 ≤ k ∧ k ≤ 0x114) ∨
    k = 0x120 ∨ (0x200 ≤ k ∧ k < 0x280 ∧ k % 8 < 6))) ∨ (isStream who = false ∧ (k = 0x100 ∨ (k = 0x010 ∧ (s.ctl who).inTrap = true))))) :
    s.csrWritable who k = false := by
  simp only [not_or, not_and] at h
  obtain ⟨h0, h1, h2⟩ := h
  unfold State.csrWritable
  rw [if_neg h0]
  split
  · next hs =>
    have := h1 hs
    simp only [Bool.or_eq_false_iff, Bool.and_eq_false_iff, decide_eq_false_iff_not, beq_eq_false_iff_ne]
    omega
  · next hs =>
    obtain ⟨h3, h4⟩ := h2 (Bool.eq_false_iff.2 hs)
    simp only [Bool.or_eq_false_iff, Bool.and_eq_false_iff, beq_eq_false_iff_ne]
    refine ⟨h3, ?_⟩
    by_cases hk : k = 0x010
    · exact .inr (Bool.eq_false_iff.2 (h4 hk))
    · exact .inl hk

end

/-- Settles O31. -/
theorem csrWrites : Obligations.CsrWrites := by
  unfold Obligations.CsrWrites
  intro s is ss n i w c v to_ writable
  refine ⟨fun hn h => csrw_arstat h (hn ▸ rfl), fun hn hs h => csrw_tvec h (hn ▸ rfl) hs, fun hn hs h => ?_, ?_⟩
  · obtain ⟨t, ht, ⟨h1, h2, h3⟩, hk⟩ := csrw_viol h (hn ▸ rfl) hs
    refine ⟨t, ht, ⟨h1, by rw [h2], by rw [h2], h3, ?_, fun h4 h5 => ?_, fun h4 h5 => ?_⟩, hk⟩
    · rw [h2]
      exact violWrite_clear
    · rw [h2]
      exact (if_neg (Bool.eq_false_iff.1 h4)).trans (if_pos h5)
    · rw [h2]
      exact (if_neg (Bool.eq_false_iff.1 h4)).trans (if_neg (Bool.eq_false_iff.1 h5))
  intro cl k base only
  refine ⟨fun hs => ?_, fun m hm hs => ?_, fun h hl hk => ?_⟩
  · have reg : ∀ num, n.toNat = num → num ≠ 0 → num ≠ 0x120 → ∀ {u}, s.clusterRegWrite cl num (BitVec.allOnes 64) v = u →
        s.csrWrite is.who n.toNat v = u := fun num hn h0 h1 u hu => by rw [hn, s.csrWrite_stream v hs h0 h1]; exact hu
    refine ⟨fun hn h => csrw_cluster h ?_, fun hn h => csrw_cluster h (reg 0x0C0 (hn ▸ rfl) (by decide) (by decide) (s.clusterRegWrite_fqbase cl v)),
      fun hn h => csrw_cluster h (reg 0x0C2 (hn ▸ rfl) (by decide) (by decide) (s.clusterRegWrite_fqtail cl v)),
      fun hn h => csrw_cluster h (reg 0x110 (hn ▸ rfl) (by decide) (by decide) (s.clusterRegWrite_errbase cl v)),
      fun hn h => csrw_cluster h (reg 0x112 (hn ▸ rfl) (by decide) (by decide) (s.clusterRegWrite_errtail cl v)),
      fun hn h => csrw_cluster h (reg 0x113 (hn ▸ rfl) (by decide) (by decide) (s.clusterRegWrite_errlost cl v)), fun hn h => ?_, fun hn h => ?_⟩
    · rw [show n.toNat = 0x120 from hn ▸ rfl, State.csrWrite, if_neg (by decide), if_pos hs, if_pos rfl]
      rfl
    · have hu : s.csrWrite is.who n.toNat v = s := by
        rcases hn with hn | hn | hn
        · exact reg 0x0C1 (hn ▸ rfl) (by decide) (by decide) rfl
        · exact reg 0x111 (hn ▸ rfl) (by decide) (by decide) rfl
        · exact reg 0x114 (hn ▸ rfl) (by decide) (by decide) rfl
      refine csrw_keeps h hu rfl rfl ⟨rfl, rfl, rfl⟩ _ fun t e => ?_
      obtain ⟨h1, h2⟩ := e.worlds
      simp only [only, State.cluster, h1]
      exact ⟨rfl, fun _ _ => trivial, h2⟩
    · refine ⟨_, csrw_next h, fun u hu => ?_⟩
      have hw : s.csrWrite is.who n.toNat v = u :=
        (reg 0x0C3 (hn ▸ rfl) (by decide) (by decide) (s.clusterRegWrite_fresp cl v)).trans (s.fresp_exec cl v hu).symm
      have hk := State.noThreads_finish (s.csrWrite is.who n.toNat v) is
      rw [hw] at hk
      have h1 := congrArg State.treqs hk
      have h2 := congrArg State.clusters hk
      have h3 := congrArg State.mem hk
      rw [show is.sv s ss = v from rfl, hw]
      exact ⟨h1, h2, h3⟩
  · intro j x active reg sets
    have sreg : ∀ o, o < 8 → reg o → ∀ {u}, s.streamRegWrite j o (BitVec.allOnes 64) v = u → s.csrWrite is.who n.toNat v = u :=
      fun o ho hn u hu => (s.csrWrite_streamReg v hs hm ho hn).trans hu
    have hact : active = streamActive x := rfl
    refine ⟨fun hn h => ?_, fun hn h => csrw_streams h (sreg 2 (by decide) hn (s.streamRegWrite_strarg v j)),
      fun hn h => csrw_streams h (sreg 3 (by decide) hn (s.streamRegWrite_evqbase v j)),
      fun hn h => csrw_streams_same h rfl (sreg 4 (by decide) hn rfl),
      fun hn h => csrw_streams h (sreg 5 (by decide) hn (s.streamRegWrite_evqtail v j)), fun hn => ?_⟩
    · have hu := sreg 1 (by decide) hn (s.streamRegWrite_strpc v j)
      rw [hact]
      split
      · next ha => exact csrw_streams_same h rfl (hu.trans (if_pos ha))
      · next ha => exact csrw_streams h (hu.trans (if_neg ha))
    · intro y
      have hy : y = s.takeCtx v j := rfl
      have hu := sreg 0 (by decide) hn (s.streamRegWrite_strctl v j)
      rw [hy]
      refine ⟨fun h1 h2 h => ?_, fun hv h => ?_⟩
      · rw [if_neg (Bool.eq_false_iff.1 h1), if_neg (Bool.eq_false_iff.1 h2)] at hu
        unfold State.takeCtx at hu ⊢
        split at hu
        · next ha =>
          rw [if_pos ha]
          exact csrw_streams_same h rfl hu
        · next ha =>
          rw [if_neg ha]
          have := csrw_streams h hu
          rwa [State.stream, State.setStream, mgetD_mset_same]
      · have hw : Machine.exec (if v.getLsbD 62 then .strctlHalt j else .strctlGo j) (s.takeCtx v j) = .next (s.csrWrite is.who n.toNat v) := by
          rw [hu]
          by_cases h62 : v.getLsbD 62 = true
          · rw [if_pos h62, if_pos h62]
            rfl
          · rw [if_neg h62, if_neg h62, if_pos (hv.resolve_left h62)]
            rfl
        have hk := State.noThreads_finish (s.csrWrite is.who n.toNat v) is
        have h1 := congrArg State.streams hk
        have h2 := congrArg State.mem hk
        exact ⟨_, _, csrw_next h, hw, h1, h2⟩
  · exact runWordWith_pre _ h hl (by simp [csrwPre, s.csrWritable_of hk])

end Sys2Proof.Machine
end

section
/-! What is read after a write to memory (R89, R133): a write comes after the sectors it needs, which stay in the L2. -/

namespace Sys2Proof.Machine

/-! ### Byte strings -/

theorem Memory.readN_length (m : List Host.Cell) (a n : Nat) : (Memory.readN m a n).length = n := by
  induction n generalizing a with
  | zero => rfl
  | succ n ih => simp [Memory.readN, ih]

theorem Memory.readN_get (m : List Host.Cell) (a n i : Nat) (h : i < n) : (Memory.readN m a n)[i]? = some (Memory.read m (a + i)) := by
  induction n generalizing a i with
  | zero => omega
  | succ n ih =>
    cases i with
    | zero => rfl
    | succ i =>
      rw [Memory.readN, List.getElem?_cons_succ, ih _ _ (by omega)]
      congr 2
      omega

/-- What was written is read back. -/
theorem Memory.readN_write (m : List Host.Cell) (a : Nat) (bs : List Byte) : Memory.readN (Memory.write m a bs) a bs.length = bs := by
  refine List.ext_getElem? fun i => ?_
  by_cases h : i < bs.length
  · rw [Memory.readN_get _ _ _ _ h, Memory.read_write_same _ _ _ _ h, List.getElem?_eq_getElem h]
  · rw [List.getElem?_eq_none (by rw [Memory.readN_length]; omega), List.getElem?_eq_none (by omega)]

theorem toLe_length (n v : Nat) : (toLe n v).length = n := by
  induction n generalizing v with
  | zero => rfl
  | succ n ih => simp [toLe, ih]

theorem leNat_toLe (n v : Nat) : leNat (toLe n v) = v % 256 ^ n := by
  induction n generalizing v with
  | zero => simp [toLe, leNat, Nat.mod_one]
  | succ n ih =>
    rw [toLe, leNat, ih, BitVec.toNat_ofNat, show 256 ^ (n + 1) = 256 * 256 ^ n from Nat.pow_succ', Nat.mod_mul]

theorem leWord_toLe {n : Nat} (v : BitVec (8 * n)) : leWord (8 * n) (toLe n v.toNat) = v := by
  have h : v.toNat < 256 ^ n := by
    have := v.isLt
    rwa [show (256 : Nat) = 2 ^ 8 from rfl, ← Nat.pow_mul]
  rw [leWord, leNat_toLe, Nat.mod_eq_of_lt h, BitVec.ofNat_toNat, BitVec.setWidth_eq]

theorem mget_mdel_other {α : Type} (m : SMap α) {k n : Nat} (h : n ≠ k) : mget (mdel m k) n = mget m n := by
  induction m with
  | nil => rfl
  | cons e m ih =>
    rw [mdel, List.filter_cons]
    by_cases he : e.1 = k
    · rw [if_neg (by simp [he]), mget, if_neg (by omega)]
      exact ih
    · rw [if_pos (by simpa using he), mget, mget]
      split
      · rfl
      · exact ih

theorem mget_mdel_same {α : Type} (m : SMap α) (k : Nat) : mget (mdel m k) k = none := by
  induction m with
  | nil => rfl
  | cons e m ih =>
    rw [mdel, List.filter_cons]
    by_cases he : e.1 = k
    · rw [if_neg (by simp [he])]
      exact ih
    · rw [if_pos (by simpa using he), mget, if_neg he]
      exact ih

/-! ### Sectors that stay in the L2 -/

/-- The sectors of the lines `keep` that are in the L2 are still there. -/
structure KeepsL2 (keep : List Nat) (s t : State) : Prop where
  stays : ∀ k, k / 4 ∈ keep → s.mem.inL2 k = true → t.mem.inL2 k = true

section
variable {keep : List Nat} {s t u : State}

theorem KeepsL2.refl (s : State) : KeepsL2 keep s s := ⟨fun _ _ h => h⟩

theorem KeepsL2.trans (h : KeepsL2 keep s t) (g : KeepsL2 keep t u) : KeepsL2 keep s u :=
  ⟨fun k hk hs => g.stays k hk (h.stays k hk hs)⟩

theorem KeepsL2.of_present (h : t.mem.present = s.mem.present) : KeepsL2 keep s t :=
  ⟨fun k _ hs => by rw [Mem.inL2, h]; exact hs⟩

theorem KeepsL2.foldl {α : Type} {f : State → α → State} (hf : ∀ s a, KeepsL2 keep s (f s a)) (l : List α) (s : State) :
    KeepsL2 keep s (l.foldl f s) := by
  induction l generalizing s with
  | nil => exact KeepsL2.refl s
  | cons a l ih => exact (hf s a).trans (ih _)

theorem KeepsL2.releaseGen (s : State) (q : BdReq) : KeepsL2 keep s (s.releaseGen q) := by
  refine KeepsL2.of_present ?_
  unfold State.releaseGen
  dsimp only
  split <;> rfl

theorem KeepsL2.dropLine {line : Nat} (h : line ∉ keep) (s : State) : KeepsL2 keep s (s.dropLine line) := by
  refine KeepsL2.trans (t := s.codeLine line) ⟨fun k hk hs => ?_⟩ (KeepsL2.releaseGen _ _)
  have hne : k / 4 ≠ line := fun e => h (e ▸ hk)
  have hp : (s.codeLine line).mem.present = mdel s.mem.present line := by
    unfold State.codeLine
    dsimp only
    split <;> rfl
  unfold Mem.inL2 mgetD at hs ⊢
  rw [hp, mget_mdel_other _ hne]
  exact hs

theorem KeepsL2.l2Room (s : State) (line : Nat) : KeepsL2 keep s (s.l2Room line keep) := by
  unfold State.l2Room
  split
  · exact KeepsL2.refl s
  · extract_lets ls out
    split
    · exact KeepsL2.refl s
    · next h =>
      have hne : out ≠ [] := by
        intro e
        simp [e] at h
      have hk : (s.pick out.length).1 < out.length := by
        have := List.length_pos_iff.2 hne
        unfold State.pick
        dsimp only
        split
        · exact this
        · exact Nat.mod_lt _ this
      refine KeepsL2.trans (t := (s.pick out.length).2) (KeepsL2.of_present rfl) (KeepsL2.dropLine (fun hm => ?_) _)
      replace hm : out.getD (s.pick out.length).1 0 ∈ keep := hm
      rw [List.getD_eq_getElem _ _ hk] at hm
      have := (List.mem_filter.1 (List.getElem_mem hk)).2
      simp [hm] at this

theorem KeepsL2.takeSector (s : State) (sec : Nat) : KeepsL2 keep s (s.takeSector sec keep) := by
  refine KeepsL2.trans (KeepsL2.l2Room s (sec / 4)) ⟨fun k _ hs => ?_⟩
  unfold State.takeSector
  unfold Mem.inL2 at hs ⊢
  dsimp only
  by_cases e : k / 4 = sec / 4
  · rw [e] at hs ⊢
    rw [mgetD_mset_same, BitVec.getLsbD_or, hs, Bool.true_or]
  · rw [mgetD_mset_other _ _ _ e]
    exact hs

theorem KeepsL2.postErr (s : State) (c kind sub : Nat) (addr : W64) (r : Requester) (info : Nat) :
    KeepsL2 keep s (s.postErr c kind sub addr r info keep) := by
  unfold State.postErr
  extract_lets k slot s1 s2
  split
  · exact KeepsL2.of_present rfl
  · have hp : s2.mem.present = (s.takeSector (slot / 32) keep).mem.present := rfl
    have h2 : KeepsL2 keep s s2 := (KeepsL2.takeSector s (slot / 32)).trans (KeepsL2.of_present hp)
    clear_value s2
    split
    · split
      · exact h2
      · refine h2.trans (KeepsL2.of_present ?_)
        unfold State.record
        split <;> rfl
    · exact h2

theorem KeepsL2.fetchSector (s : State) (pa : Nat) (r : Requester) : KeepsL2 keep s (s.fetchSector pa r keep) := by
  unfold State.fetchSector
  split
  · exact KeepsL2.refl s
  · split
    · exact KeepsL2.refl s
    · exact KeepsL2.of_present rfl
    · exact KeepsL2.of_present rfl
    · exact KeepsL2.trans (t := s.poisonSector (pa / 32)) (KeepsL2.of_present rfl) (KeepsL2.postErr ..)

theorem KeepsL2.touchSector (s : State) (sec : Nat) (r : Requester) : KeepsL2 keep s (s.touchSector sec r keep) := by
  unfold State.touchSector
  split
  · exact KeepsL2.refl s
  · dsimp only
    split
    · exact (KeepsL2.fetchSector ..).trans (KeepsL2.takeSector ..)
    · exact KeepsL2.takeSector ..

theorem KeepsL2.holding (s : State) (qs : List BdReq) {f : State → State} (hf : ∀ s, KeepsL2 keep s (f s)) :
    KeepsL2 keep s (s.holding qs f) := by
  unfold State.holding
  split
  · exact hf s
  · refine KeepsL2.trans ?_ (KeepsL2.foldl (fun s q => KeepsL2.releaseGen s q) qs _)
    exact ⟨fun k hk hs => (hf { s with mem := { s.mem with bdq := s.mem.bdq ++ qs } }).stays k hk hs⟩

end

/-! ### The write -/

theorem State.normPa_idem (s : State) (pa : Nat) : s.normPa (s.normPa pa) = s.normPa pa := by
  by_cases h : (isWindow pa && winAcc pa == s.ownAcc) = true
  · have e : s.normPa pa = winPa pa := if_pos h
    have : winPa pa < 2 ^ 40 := Nat.mod_lt _ (by decide)
    rw [e]
    refine if_neg ?_
    simp only [isWindow, Bool.and_eq_true, decide_eq_true_iff]
    rintro ⟨⟨h1, -⟩, -⟩
    exact absurd (Nat.lt_of_le_of_lt h1 this) (by decide)
  · have e : s.normPa pa = pa := if_neg h
    rw [e, e]

theorem State.normPa_bare {s t : State} (h : t.bare = s.bare) (pa : Nat) : t.normPa pa = s.normPa pa := by
  unfold State.normPa State.ownAcc
  rw [State.regs_of_bare h]

theorem sectorsOf_line {pa n k : Nat} (h : k ∈ sectorsOf pa n) : k / 4 ∈ linesOf pa n := by
  simp only [sectorsOf, linesOf, List.mem_map, List.mem_range] at h ⊢
  obtain ⟨i, hi, rfl⟩ := h
  exact ⟨(pa / 32 + i) / 4 - pa / 128, by omega, by omega⟩

/-- Sectors that stay keep a request from failing. -/
theorem State.linkFails_keeps {s t : State} {pa n : Nat} (hb : t.bare = s.bare) (hk : KeepsL2 (linesOf (s.normPa pa) n) s t)
    (h : s.linkFails pa n = false) : t.linkFails pa n = false := by
  have hr := State.regs_of_bare hb
  have hn := State.normPa_bare hb
  rw [State.linkFails, Bool.or_eq_false_iff] at h ⊢
  refine ⟨?_, ?_⟩
  · rw [hn]
    have h1 := h.1
    unfold State.hostFails at h1 ⊢
    rw [hr]
    simp only [Bool.and_eq_false_iff, List.any_eq_false, Bool.and_eq_true, not_and, Bool.not_eq_true', Bool.not_eq_false] at h1 ⊢
    exact h1.imp id fun h1 k hm hh => hk.stays k (sectorsOf_line hm) (h1 k hm hh)
  · have h2 := h.2
    unfold State.isRemote State.linkUp at h2 ⊢
    rw [hr, hn]
    exact h2

theorem State.linkFails_normPa (s : State) (pa n : Nat) : s.linkFails (s.normPa pa) n = s.linkFails pa n := by
  unfold State.linkFails State.isRemote
  rw [s.normPa_idem]

/-- A write whose place answers ends with the bytes in memory. -/
theorem State.physWrite_l2 (s : State) (pa : Nat) {bs : List Byte} (r : Requester) (h0 : bs ≠ []) (h : s.linkFails pa bs.length = false) :
    ∃ s1 : State, s.physWrite pa bs r = s1.l2Write (s.normPa pa) bs ∧ s1.bare = s.bare := by
  unfold State.physWrite
  rw [if_neg h0]
  extract_lets a cov keep part s1
  have hk : KeepsL2 keep s s1 := KeepsL2.holding s _ fun t => KeepsL2.foldl (fun t k => by
    split
    · exact KeepsL2.touchSector ..
    · split
      · exact KeepsL2.refl t
      · exact KeepsL2.takeSector ..) _ t
  have hb : s1.bare = s.bare := State.bare_holding s _ fun t => State.bare_foldl (fun t k => by
    split
    · simp
    · split <;> simp) _ t
  refine ⟨_, if_neg (Bool.eq_false_iff.1 ?_), hb⟩
  refine State.linkFails_keeps hb ?_ ((s.linkFails_normPa pa bs.length).trans h)
  rw [s.normPa_idem]
  exact hk

theorem State.physRead_physWrite (s : State) (pa : Nat) {bs : List Byte} (r : Requester) (h0 : bs ≠ [])
    (h : s.linkFails pa bs.length = false) : (s.physWrite pa bs r).physRead pa bs.length = bs := by
  obtain ⟨s1, e, hb⟩ := s.physWrite_l2 pa r h0 h
  have hn : (s1.l2Write (s.normPa pa) bs).normPa pa = s.normPa pa := State.normPa_bare ((s1.bare_l2Write ..).trans hb) pa
  rw [e, State.physRead, hn]
  exact Memory.readN_write ..

/-- A word written is read back. -/
theorem State.leWord_physWrite {n : Nat} (s : State) (pa : Nat) (v : BitVec (8 * n)) (r : Requester) (hn : n ≠ 0)
    (h : s.linkFails pa n = false) : leWord (8 * n) ((s.physWrite pa (toLe n v.toNat) r).physRead pa n) = v := by
  have hl := toLe_length n v.toNat
  have h0 : toLe n v.toNat ≠ [] := fun e => hn (by rw [← hl, e]; rfl)
  have e := s.physRead_physWrite pa r h0 (by rw [hl]; exact h)
  rw [hl] at e
  rw [e, leWord_toLe]

end Sys2Proof.Machine
end

section
/-! Semaphores, tokens and event records at issue (R291 to R293, R424). -/

namespace Sys2Proof.Machine

/-! ### The record of an event -/

theorem seqMask_get (i : Nat) : (0x3FFFFFFFFFFF#256).getLsbD i = decide (i < 46) := by
  show (BitVec.ofNat 256 (2 ^ 46 - 1)).getLsbD i = _
  rw [BitVec.getLsbD_ofNat, Nat.testBit_two_pow_sub_one]
  by_cases h : i < 46
  · simp [h]; omega
  · simp [h]

section
variable (j : Nat) (irq : Bool) (pay0 pay1 pc seq : W64)

/-- Which field of an event record a bit lies in. -/
theorem eventRecord_get (i : Nat) : (eventRecord 1 j irq pay0 pay1 pc seq).getLsbD i =
    if i < 46 then seq.getLsbD i else if i < 47 then irq else if i < 52 then (BitVec.ofNat 5 (j / 16)).getLsbD (i - 47)
    else if i < 56 then (BitVec.ofNat 4 (j % 16)).getLsbD (i - 52) else if i < 64 then (1#8).getLsbD (i - 56)
    else if i < 128 then pc.getLsbD (i - 64) else if i < 192 then pay0.getLsbD (i - 128) else pay1.getLsbD (i - 192) := by
  unfold eventRecord
  simp only [BitVec.getLsbD_append, BitVec.getLsbD_extractLsb', BitVec.getLsbD_ofBool]
  by_cases h1 : i < 46
  · simp [h1]
  by_cases h2 : i < 47
  · have : i = 46 := by omega
    subst this
    simp
  simp only [h1, h2, if_false, show ¬i - 46 < 1 by omega]
  have e1 : i - 46 - 1 = i - 47 := by omega
  rw [e1]
  by_cases h3 : i < 52
  · simp [h3, show i - 47 < 5 by omega]
  simp only [h3, show ¬i - 47 < 5 by omega, if_false]
  rw [show i - 47 - 5 = i - 52 by omega]
  by_cases h4 : i < 56
  · simp [h4, show i - 52 < 4 by omega]
  simp only [h4, show ¬i - 52 < 4 by omega, if_false]
  rw [show i - 52 - 4 = i - 56 by omega]
  by_cases h5 : i < 64
  · simp [h5, show i - 56 < 8 by omega]
  simp only [h5, show ¬i - 56 < 8 by omega, if_false]
  rw [show i - 56 - 8 = i - 64 by omega]
  by_cases h6 : i < 128
  · simp [h6, show i - 64 < 64 by omega]
  simp only [h6, show ¬i - 64 < 64 by omega, if_false]
  rw [show i - 64 - 64 = i - 128 by omega]
  by_cases h7 : i < 192
  · simp [h7, show i - 128 < 64 by omega]
  · simp only [h7, show ¬i - 128 < 64 by omega, if_false]
    rw [show i - 128 - 64 = i - 192 by omega]

/-- The sequence number of a record is the head that it is written at. -/
theorem eventRecord_merge : merge (eventRecord 1 j irq pay0 pay1 pc seq) 0x3FFFFFFFFFFF#256 (seq.setWidth 256) =
    eventRecord 1 j irq pay0 pay1 pc seq := by
  refine BitVec.eq_of_getLsbD_eq fun i hi => ?_
  simp only [merge, BitVec.getLsbD_or, BitVec.getLsbD_and, BitVec.getLsbD_not, seqMask_get, BitVec.getLsbD_setWidth, hi, decide_true,
    Bool.true_and]
  by_cases h : i < 46
  · simp [h, eventRecord_get]
  · simp [h]

theorem eventRecord_fields : (eventRecord 1 j irq pay0 pay1 pc seq).extractLsb' 0 46 = seq.extractLsb' 0 46 ∧
    (eventRecord 1 j irq pay0 pay1 pc seq).getLsbD 46 = irq ∧ bitsOf (eventRecord 1 j irq pay0 pay1 pc seq) 56 8 = 1 ∧
    (eventRecord 1 j irq pay0 pay1 pc seq).extractLsb' 64 64 = pc ∧ (eventRecord 1 j irq pay0 pay1 pc seq).extractLsb' 128 64 = pay0 ∧
    (eventRecord 1 j irq pay0 pay1 pc seq).extractLsb' 192 64 = pay1 := by
  have h8 : (eventRecord 1 j irq pay0 pay1 pc seq).extractLsb' 56 8 = 1#8 := BitVec.eq_of_getLsbD_eq fun i hi => by
    simp only [BitVec.getLsbD_extractLsb', eventRecord_get, hi, decide_true, Bool.true_and]
    rw [if_neg (by omega), if_neg (by omega), if_neg (by omega), if_neg (by omega), if_pos (by omega), Nat.add_sub_cancel_left]
  refine ⟨BitVec.eq_of_getLsbD_eq fun i hi => ?_, by rw [eventRecord_get]; rfl, ?_, BitVec.eq_of_getLsbD_eq fun i hi => ?_,
    BitVec.eq_of_getLsbD_eq fun i hi => ?_, BitVec.eq_of_getLsbD_eq fun i hi => ?_⟩
  · simp only [BitVec.getLsbD_extractLsb', eventRecord_get, hi, decide_true, Bool.true_and, Nat.zero_add, if_true]
  · have := congrArg BitVec.toNat h8
    rwa [BitVec.extractLsb'_toNat] at this
  · simp only [BitVec.getLsbD_extractLsb', eventRecord_get, hi, decide_true, Bool.true_and]
    rw [if_neg (by omega), if_neg (by omega), if_neg (by omega), if_neg (by omega), if_neg (by omega), if_pos (by omega),
      Nat.add_sub_cancel_left]
  · simp only [BitVec.getLsbD_extractLsb', eventRecord_get, hi, decide_true, Bool.true_and]
    rw [if_neg (by omega), if_neg (by omega), if_neg (by omega), if_neg (by omega), if_neg (by omega), if_neg (by omega),
      if_pos (by omega), Nat.add_sub_cancel_left]
  · simp only [BitVec.getLsbD_extractLsb', eventRecord_get, hi, decide_true, Bool.true_and]
    rw [if_neg (by omega), if_neg (by omega), if_neg (by omega), if_neg (by omega), if_neg (by omega), if_neg (by omega),
      if_neg (by omega), Nat.add_sub_cancel_left]

end

/-! ### Posting it -/

theorem State.physRead_congr {s t : State} (hm : t.mem = s.mem) (hr : t.regs = s.regs) (pa n : Nat) : t.physRead pa n = s.physRead pa n := by
  unfold State.physRead State.normPa State.ownAcc
  rw [hm, hr]

/-- What putting a record leaves of the stream, of memory, of the outbox and of the open group. -/
structure RecordPut (s t : State) (j : Nat) (r : BitVec 256) : Prop where
  record : leWord 256 (t.physRead (ringSlot (s.stream j).evqbase (s.stream j).evqhead 32) 32) = r
  stream : t.stream j = { s.stream j with evqhead := (s.stream j).evqhead + 1 }
  irq : r.getLsbD 46 = true → Out.msix j ∈ t.outbox
  cur : t.cur = s.cur

theorem State.putRecord_put (s : State) (j : Nat) (r : BitVec 256)
    (hm : merge r 0x3FFFFFFFFFFF#256 ((s.stream j).evqhead.setWidth 256) = r)
    (h : s.linkFails (ringSlot (s.stream j).evqbase (s.stream j).evqhead 32) 32 = false) : RecordPut s (s.putRecord j r) j r := by
  have hw : leWord 256 ((s.physWrite (ringSlot (s.stream j).evqbase (s.stream j).evqhead 32) (toLe 32 r.toNat) {}).physRead
      (ringSlot (s.stream j).evqbase (s.stream j).evqhead 32) 32) = r := State.leWord_physWrite (n := 32) s _ r {} (by decide) h
  have hp := s.plain_physWrite (ringSlot (s.stream j).evqbase (s.stream j).evqhead 32) (toLe 32 r.toNat) {}
  unfold State.putRecord
  dsimp only
  rw [hm]
  generalize toLe 32 r.toNat = bs at hw hp ⊢
  generalize s.physWrite (ringSlot (s.stream j).evqbase (s.stream j).evqhead 32) bs {} = u at hw hp ⊢
  have hc : u.cur = s.cur := State.cur_of_plain hp
  split
  · next hi =>
    refine ⟨?_, State.stream_setStream .., fun _ => List.mem_append_right _ (List.mem_singleton.2 rfl), hc⟩
    exact (congrArg (leWord 256) (State.physRead_congr (s := u) rfl rfl _ _)).trans hw
  · next hi =>
    refine ⟨?_, State.stream_setStream .., fun h => absurd h hi, hc⟩
    exact (congrArg (leWord 256) (State.physRead_congr (s := u) rfl rfl _ _)).trans hw

/-! ### The words -/

/-- A trap of a stream ends its program at the trapping packet. -/
theorem State.trapAt_stream (s : State) {is : Issue} (c : Cause) (v : Info) (hs : isStream is.who = true) :
    ((s.trapAt is c v is.pc).stream (is.who - streamBase)).state = 4 ∧
      ((s.trapAt is c v is.pc).stream (is.who - streamBase)).strpc = pktOf is.pc := by
  have he : s.entryWaits is.who = none := by
    rw [State.entryWaits]
    exact if_pos (by simp [hs])
  unfold State.trapAt
  rw [State.trapWaits, he]
  dsimp only [Option.map_none]
  rw [State.takeTrap, if_pos hs]
  exact ⟨(State.stopThread_ends ..).state, (State.stopThread_ends ..).strpc⟩

theorem WordEnd.stream {s t : State} {is : Issue} (h : WordEnd s t is) (j : Nat) : t.stream j = s.stream j := by
  unfold State.stream
  rw [h.worlds.2]

/-- A word of the control core's that is ready is a stream's. -/
theorem stream_of_ready {s : State} {i : Instr} {is : Issue} {pre align : Issue → State → Option (Cause × Info)}
    (h : s.readyWith i pre align = some is) (hc : onlyControl i = true) : isStream is.who = true := by
  have hi := (State.ready_issue h).1
  have hl := (State.readyWith_eq h).2.1
  unfold State.illegalHere at hl
  simp only [Bool.or_eq_false_iff, Bool.and_eq_false_iff, hi, hc, Bool.not_eq_false'] at hl
  simpa using hl.1.1.1.1.2

/-- The touch before an access leaves the place within reach. -/
theorem State.locTouch_linkFails {t : State} {pa n : Nat} {r : Requester} (h : t.linkFails pa n = false) :
    (t.locTouch (.phys pa) n r).linkFails pa n = false := by
  refine State.linkFails_keeps (t.bare_locTouch ..) ?_ h
  unfold State.locTouch
  dsimp only
  split
  · exact KeepsL2.refl t
  · unfold State.touch
    split
    · exact KeepsL2.refl t
    · exact KeepsL2.holding t _ fun s => KeepsL2.foldl (fun t k => KeepsL2.touchSector ..) _ s

/-- EVENT that may not post yet: it waits, in STATE 2 where the queue is full. -/
theorem eventBody_waits {s : State} {is : Issue} {irq : Bool} {sa sb : SOp} (hs : isStream is.who = true)
    (h : s.settled is.who = false ∨ (s.stream (is.who - streamBase)).full = true ∨ (s.stream (is.who - streamBase)).held ≠ []) :
    ∃ u, eventBody irq sa sb is s = .park u ∧ u.ctls = (s.beginWait is (.event irq (is.sv s sa) (is.sv s sb))).ctls ∧ u.mem = s.mem ∧
      u.cur = s.cur ∧ u.stream (is.who - streamBase) = { s.stream (is.who - streamBase) with
        state := if (s.stream (is.who - streamBase)).full = true then 2 else (s.stream (is.who - streamBase)).state } := by
  have hc : ((s.stream (is.who - streamBase)).full || !(s.stream (is.who - streamBase)).held.isEmpty || !s.settled is.who) = true := by
    simp only [Bool.or_eq_true, Bool.not_eq_true', List.isEmpty_eq_false_iff]
    tauto
  have hw : streamBase + (is.who - streamBase) = is.who := by
    simp only [isStream, Bool.and_eq_true, decide_eq_true_iff] at hs
    omega
  refine ⟨_, if_pos hc, ?_⟩
  have hwait : ((s.beginWait is (.event irq (is.sv s sa) (is.sv s sb))).ctl is.who).waitsFor isEventWait = true := by
    simp [State.beginWait, WarpCtl.waitsFor, isEventWait]
  unfold State.noteFull
  rw [hw, hwait, Bool.and_true]
  split
  · next hf =>
    replace hf : (s.stream (is.who - streamBase)).full = true := hf
    refine ⟨rfl, rfl, rfl, ?_⟩
    rw [if_pos hf, State.modStream, State.stream_setStream]
    rfl
  · next hf =>
    replace hf : ¬(s.stream (is.who - streamBase)).full = true := hf
    refine ⟨rfl, rfl, rfl, ?_⟩
    rw [if_neg hf]
    rfl

section
variable {s : State} {i : Instr} {is : Issue} {add : Bool} {sa sb : SOp}

/-- One SIGNALSEM, by what its address answers. -/
theorem signalsem_of (he : Machine.exec i s = runWordWith i noCheck (semAlign sa) (signalsemBody add sa sb) s) (hc : onlyControl i = true)
    (h : s.readyWith i noCheck (semAlign sa) = some is) :
    (s.settled is.who = false → Machine.exec i s = .next { s with blocked := true }) ∧
    (s.settled is.who = true → ∀ pa leaf t, s.ask is.ctx (is.sv s sa).toNat (if add then .atomic else .store) (coreOf is.who) is.who twaitTag
        (is.sv s sa).toNat 0 8 = (.ok pa leaf, t) → t.linkFails pa 8 = false →
      (t.locTouch (.phys pa) 8 (reqOf is.who false is.ctx is.pc)).locPoison (.phys pa) 8 = false →
      ∃ v, Machine.exec i s = .next v ∧ leWord 64 (v.physRead pa 8) =
        (if add then leWord 64 ((t.locTouch (.phys pa) 8 (reqOf is.who false is.ctx is.pc)).locRead (.phys pa) 8) + is.sv s sb else is.sv s sb) ∧
        (v.warp is.who).s = (s.warp is.who).s ∧ (v.warp is.who).p = (s.warp is.who).p ∧
        (v.stream (is.who - streamBase)).state = (s.stream (is.who - streamBase)).state) ∧
    (s.settled is.who = true → ∀ k t, s.ask is.ctx (is.sv s sa).toNat (if add then .atomic else .store) (coreOf is.who) is.who twaitTag
        (is.sv s sa).toNat 0 8 = (.viol k, t) →
      ∃ v, Machine.exec i s = .next v ∧ (v.stream (is.who - streamBase)).state = 4 ∧
        (v.stream (is.who - streamBase)).strpc = pktOf is.pc) := by
  have hs := stream_of_ready h hc
  refine ⟨fun hn => hold_of h he (if_pos (by simp [hn])), fun hn pa leaf t ha hl hp => ?_, fun hn k t ha => ?_⟩
  · have hplain : t.plain = s.plain := State.plain_snd ha (State.plain_ask ..)
    have hb : ∃ v, signalsemBody add sa sb is s = .next (((t.locTouch (.phys pa) 8 (reqOf is.who false is.ctx is.pc)).dropAsks is.who twaitTag).physWrite
        pa (toLe 8 (v : W64).toNat) (reqOf is.who false is.ctx is.pc)) ∧ v = (if add then
          leWord 64 ((t.locTouch (.phys pa) 8 (reqOf is.who false is.ctx is.pc)).locRead (.phys pa) 8) + is.sv s sb else is.sv s sb) := by
      refine ⟨_, ?_, rfl⟩
      unfold signalsemBody
      dsimp only
      rw [if_neg (by simp [hn]), ha]
      dsimp only
      rw [if_neg]
      · rfl
      · rw [Bool.and_eq_true]
        rintro ⟨-, h2⟩
        exact Bool.false_ne_true (hp.symm.trans h2)
    obtain ⟨v, hb, hv⟩ := hb
    have hu : ((t.locTouch (.phys pa) 8 (reqOf is.who false is.ctx is.pc)).dropAsks is.who twaitTag).plain = s.plain :=
      (State.plain_dropAsks ..).trans ((State.plain_locTouch ..).trans hplain)
    have hlu : ((t.locTouch (.phys pa) 8 (reqOf is.who false is.ctx is.pc)).dropAsks is.who twaitTag).linkFails pa 8 = false :=
      State.locTouch_linkFails hl
    generalize (t.locTouch (.phys pa) 8 (reqOf is.who false is.ctx is.pc)).dropAsks is.who twaitTag = u at hb hu hlu
    have hw : leWord 64 ((u.physWrite pa (toLe 8 v.toNat) (reqOf is.who false is.ctx is.pc)).physRead pa 8) = v :=
      State.leWord_physWrite (n := 8) u pa v _ (by decide) hlu
    have hup := (u.plain_physWrite pa (toLe 8 v.toNat) (reqOf is.who false is.ctx is.pc)).trans hu
    generalize u.physWrite pa (toLe 8 v.toNat) (reqOf is.who false is.ctx is.pc) = y at hb hw hup
    obtain ⟨ht, e⟩ := wordEnd_of h he hb (State.cur_of_plain hup)
    obtain ⟨f1, f2, -⟩ := e.fields
    rw [State.warp_of_plain hup] at f1 f2
    refine ⟨_, ht, ?_, f1, f2, by rw [e.stream, State.stream_of_plain hup]⟩
    rw [State.physRead_congr (s := y) e.frame.mem (by have := congrArg State.regs e.frame.world; exact this), hw, hv]
  · have hb : ∃ u, signalsemBody add sa sb is s = .trapIn u .semv (.same 0) := by
      unfold signalsemBody
      dsimp only
      rw [if_neg (by simp [hn]), ha]
      exact ⟨_, rfl⟩
    obtain ⟨u, hb⟩ := hb
    refine ⟨u.trapAt is .semv (.same 0) is.pc, ?_, u.trapAt_stream _ _ hs⟩
    rw [he, runWordWith_ready _ h]
    simp [State.runBody, hb]

/-- A misaligned address of one of these words. -/
theorem misalignedWord_of {n : Nat} {align : Issue → State → Option (Cause × Info)} {body : Issue → State → Act} {x : Nat}
    (he : Machine.exec i s = runWordWith i noCheck align body s) (ha : align is s = if x % n = 0 then none else some (.align, .same x)) :
    s.issueOf i = some is → s.illegalHere is = false → s.boundTrap is = none → s.held is = false → x % n ≠ 0 →
    Machine.exec i s = .next (s.trapAt is .align (.same x) is.pc) :=
  fun h h1 h2 h3 hx => he.trans (runWordWith_align body h h1 h2 h3 (ha.trans (if_neg hx)))

end

/-- Settles O32. -/
theorem semaphoreWords : Obligations.SemaphoreWords := by
  unfold Obligations.SemaphoreWords
  intro s is c sa sb sd sp irq addr j x blocked e rec_ signal misaligned
  refine ⟨fun h hx => hold_of h rfl (if_pos hx), fun h hx => waitBegins_of h rfl (if_neg (Bool.eq_false_iff.1 hx)),
    fun h => waitBegins_of h rfl rfl, fun h => ?_, fun h => ?_, misalignedWord_of rfl rfl, misalignedWord_of rfl rfl,
    misalignedWord_of rfl rfl, misalignedWord_of rfl rfl, fun h => ⟨fun hw => ?_, fun h1 h2 h3 h4 => ?_⟩⟩
  · exact signalsem_of (add := false) rfl rfl h
  · exact signalsem_of (add := true) rfl rfl h
  · obtain ⟨u, hb, hc, hm, hcur, hst⟩ := eventBody_waits (irq := irq) (sa := sa) (sb := sb) (stream_of_ready h rfl) hw
    obtain ⟨t, ht, k⟩ := park_of h rfl hb hcur
    have h1 : t.stream j = u.stream j := by
      have := congrArg State.streams k.world
      unfold State.stream
      rw [show t.streams = u.streams from this]
    have h2 : t.mem = u.mem := by
      have := congrArg State.mem k.world
      exact this
    have h3 : (t.ctl is.who).waits = (u.ctl is.who).waits := by
      have := congrArg WarpCtl.waits k.ctl
      exact this
    refine ⟨t, ht, by rw [h1, hst], by rw [h1, hst], h2.trans hm, ?_⟩
    rw [h3, State.ctl, hc]
    exact congrArg WarpCtl.waits (State.ctl_modCtl s is.who _)
  · have hb : eventBody irq sa sb is s = .next (s.putRecord j (eventRecord 1 j irq (is.sv s sa) (is.sv s sb) is.pc x.evqhead)) :=
      if_neg (by simp [x, j] at h2 h3; simp [h1, h2, h3])
    have p := s.putRecord_put j (eventRecord 1 j irq (is.sv s sa) (is.sv s sb) is.pc x.evqhead) (eventRecord_merge ..) h4
    obtain ⟨f1, f2, f3, f4, f5, f6⟩ := eventRecord_fields j irq (is.sv s sa) (is.sv s sb) is.pc x.evqhead
    obtain ⟨ht, k⟩ := wordEnd_of h rfl hb p.cur
    have hr : rec_ ((s.putRecord j (eventRecord 1 j irq (is.sv s sa) (is.sv s sb) is.pc x.evqhead)).finish is) =
        eventRecord 1 j irq (is.sv s sa) (is.sv s sb) is.pc x.evqhead :=
      (congrArg (leWord 256) (State.physRead_congr k.frame.mem (by have := congrArg State.regs k.frame.world; exact this) _ _)).trans p.record
    refine ⟨_, ht, by rw [k.stream, p.stream], by rw [k.stream, p.stream], ?_⟩
    rw [hr]
    refine ⟨f1, f2, f3, f4, f5, f6, fun hi => ?_⟩
    have ho := congrArg State.outbox k.frame.world
    rw [show ((s.putRecord j (eventRecord 1 j irq (is.sv s sa) (is.sv s sb) is.pc x.evqhead)).finish is).outbox = _ from ho]
    exact p.irq (f2.trans hi)

end Sys2Proof.Machine
end

section
/-! Quorum words (R216, R351, R353, R450): seats, the comparison of the seats, the start of the operation. -/

namespace Sys2Proof.Machine

/-! ### The seats of a started operation go on -/

section
variable (s : State) (who lane k : Nat)

theorem State.endWait_ctl (n : Nat) : (s.endWait who lane k).ctl n =
    if n = who then { s.ctl who with waits := (s.ctl who).waits.filter (fun x => x.lane != lane) } else s.ctl n := by
  have h : (s.endWait who lane k).ctl n = (s.modCtl who (fun c => { c with waits := c.waits.filter (fun x => x.lane != lane) })).ctl n := by
    unfold State.endWait
    dsimp only
    split <;> rfl
  rw [h]
  split
  · next e => rw [e, State.ctl_modCtl]
  · next e => rw [State.ctl_modCtl_other _ _ e]

theorem State.endWait_nopc (n : Nat) : ((s.endWait who lane k).warp n).nopc = (s.warp n).nopc ∧
    (n ≠ who → (s.endWait who lane k).warp n = s.warp n) := by
  unfold State.endWait
  dsimp only
  split
  · exact ⟨rfl, fun _ => rfl⟩
  · refine ⟨?_, fun hn => State.warp_modWarp_other _ _ hn⟩
    by_cases hn : n = who
    · subst hn
      rw [State.warp_modWarp]
      exact Warp.advance_nopc ..
    · rw [State.warp_modWarp_other _ _ hn]
      rfl

end

/-- One waiting path of seat `w` goes on after the quorum word. -/
def State.seatGoes (w : Nat) (t : State) (x : Waiting) : State :=
  (t.modCtl w (fun c => { c with quorumIssue := none, quorumFlag := none })).endWait w x.lane 2

/-- Every path of seat `w` that waits at a quorum word goes on. -/
def State.seatGoesOn (t : State) (w : Nat) : State := ((t.ctl w).waits.filter (fun x => isQuorum x.kind)).foldl (State.seatGoes w) t

/-- The seats `ws` may have gone on: the rest is as before, and so are the registers. -/
structure SeatsGo (s t : State) (ws : List Nat) : Prop where
  world : { t with warps := [], ctls := [] } = { s with warps := [], ctls := [] }
  others : ∀ n, n ∉ ws → t.warp n = s.warp n ∧ t.ctl n = s.ctl n
  nopc : ∀ n, (t.warp n).nopc = (s.warp n).nopc

theorem SeatsGo.refl (s : State) (ws : List Nat) : SeatsGo s s ws := ⟨rfl, fun _ _ => ⟨rfl, rfl⟩, fun _ => rfl⟩

theorem SeatsGo.trans {s t u : State} {ws : List Nat} (h : SeatsGo s t ws) (k : SeatsGo t u ws) : SeatsGo s u ws :=
  ⟨k.world.trans h.world, fun n hn => ⟨(k.others n hn).1.trans (h.others n hn).1, (k.others n hn).2.trans (h.others n hn).2⟩,
    fun n => (k.nopc n).trans (h.nopc n)⟩

theorem State.seatGoes_go (t : State) {w : Nat} {ws : List Nat} (hw : w ∈ ws) (x : Waiting) : SeatsGo t (t.seatGoes w x) ws := by
  refine ⟨State.endWait_world .., fun n hn => ?_, fun n => (State.endWait_nopc ..).1⟩
  have hne : n ≠ w := fun e => hn (e ▸ hw)
  refine ⟨(State.endWait_nopc ..).2 hne, ?_⟩
  rw [State.seatGoes, State.endWait_ctl, if_neg hne, State.ctl_modCtl_other _ _ hne]

theorem State.foldl_seatGoes (w : Nat) (xs : List Waiting) (t : State) : SeatsGo t (xs.foldl (State.seatGoes w) t) [w] ∧
    ((xs.foldl (State.seatGoes w) t).ctl w).waits = (t.ctl w).waits.filter (fun y => xs.all (fun z => y.lane != z.lane)) ∧
    (xs ≠ [] ∨ (t.ctl w).quorumIssue = none → ((xs.foldl (State.seatGoes w) t).ctl w).quorumIssue = none) := by
  induction xs generalizing t with
  | nil => exact ⟨SeatsGo.refl .., by simp [List.filter_eq_self.2], fun h => h.resolve_left fun h => h rfl⟩
  | cons x xs ih =>
    obtain ⟨h1, h2, h3⟩ := ih (t.seatGoes w x)
    have hc : (t.seatGoes w x).ctl w = { t.ctl w with
        quorumIssue := none, quorumFlag := none, waits := (t.ctl w).waits.filter (fun y => y.lane != x.lane) } := by
      rw [State.seatGoes, State.endWait_ctl, if_pos rfl, State.ctl_modCtl]
    rw [List.foldl_cons]
    refine ⟨(t.seatGoes_go (List.mem_singleton.2 rfl) x).trans h1, ?_, fun _ => h3 (.inr (by rw [hc]))⟩
    rw [h2, hc]
    dsimp only
    rw [List.filter_filter]
    exact List.filter_congr fun y _ => by rw [List.all_cons, Bool.and_comm]

/-- A seat whose quorum issue is over: nothing is left of it. -/
def seatFree (c : WarpCtl) : Prop := c.quorumIssue = none ∧ c.waits.any (fun x => isQuorum x.kind) = false

/-- One seat that waits at a quorum word, or has gone on before, has gone on after. -/
theorem State.seatGoesOn_free (t : State) (w n : Nat) (h : seatFree (t.ctl n) ∨ (n = w ∧ (t.ctl n).waits.any (fun x => isQuorum x.kind) = true)) :
    seatFree ((t.seatGoesOn w).ctl n) := by
  obtain ⟨h1, h2, h3⟩ := State.foldl_seatGoes w ((t.ctl w).waits.filter (fun x => isQuorum x.kind)) t
  by_cases hn : n = w
  · subst hn
    refine ⟨h3 ?_, ?_⟩
    · rcases h with h | h
      · exact .inr h.1
      · obtain ⟨x, hx, hq⟩ := List.any_eq_true.1 h.2
        exact .inl (List.ne_nil_of_mem (List.mem_filter.2 ⟨hx, hq⟩))
    · rw [State.seatGoesOn, h2, List.any_eq_false]
      intro y hy hq
      obtain ⟨hy1, hy2⟩ := List.mem_filter.1 hy
      have := List.all_eq_true.1 hy2 y (List.mem_filter.2 ⟨hy1, hq⟩)
      simp at this
  · rw [State.seatGoesOn, (h1.others n (by simpa using hn)).2]
    exact h.resolve_right fun e => hn e.1

theorem State.foldl_seatGoesOn (ws : List Nat) (t : State) : SeatsGo t (ws.foldl State.seatGoesOn t) ws ∧
    ∀ n, seatFree (t.ctl n) ∨ (n ∈ ws ∧ (t.ctl n).waits.any (fun x => isQuorum x.kind) = true) → seatFree ((ws.foldl State.seatGoesOn t).ctl n) := by
  induction ws generalizing t with
  | nil => exact ⟨SeatsGo.refl .., fun n h => h.resolve_right fun e => absurd e.1 List.not_mem_nil⟩
  | cons w ws ih =>
    obtain ⟨h1, h2⟩ := ih (t.seatGoesOn w)
    have g := (State.foldl_seatGoes w ((t.ctl w).waits.filter (fun x => isQuorum x.kind)) t).1
    have g' : SeatsGo t (t.seatGoesOn w) (w :: ws) := ⟨g.world, fun n hn => g.others n (fun h => hn (by rw [List.mem_singleton.1 h]; exact List.mem_cons_self)), g.nopc⟩
    rw [List.foldl_cons]
    refine ⟨g'.trans ⟨h1.world, fun n hn => h1.others n (fun h => hn (List.mem_cons_of_mem _ h)), h1.nopc⟩, fun n hn => h2 n ?_⟩
    by_cases hw : n = w
    · exact .inl (t.seatGoesOn_free w n (hn.imp_right fun e => ⟨hw, e.2⟩))
    · have hc : (t.seatGoesOn w).ctl n = t.ctl n := (g.others n (by simpa using hw)).2
      rw [hc]
      exact hn.imp_right fun e => ⟨(List.mem_cons.1 e.1).resolve_left hw, e.2⟩

/-! ### The start -/

theorem State.foldl_incFlag (fs : List (Nat × Nat)) (s : State) :
    { fs.foldl (fun t f => t.incFlag f.1 (some f.2)) s with warps := [] } = { s with warps := [] } := by
  induction fs generalizing s with
  | nil => rfl
  | cons f fs ih => exact ih _

/-- The flags of the seats that carry one. -/
def State.seatFlags (s : State) (ws : List Nat) : List (Nat × Nat) := ws.filterMap (fun w => (s.ctl w).quorumFlag.map (fun f => (w, f)))

/-- The operation that the seats `ws` start, by seat 0's issue. -/
def State.quorumOp (s : State) (ws : List Nat) (w0 : Nat) (iw : W32) (vals : List W64) (i : Instr) : EngOp :=
  { id := s.nextId, who := w0, core := coreOf w0, wg := (s.warp w0).wg, ctx := (s.warp w0).ctx, instr := i
    pc := ((s.warp w0).paths.head?).elim 0 Path.pc, iword := iw, mask := fullMask, vals := vals, flags := s.seatFlags ws
    after := ws.flatMap (fun w => s.forkAfter w false), phase := 1, born := s.clock, emul := emulates i, nums := [s.qsize w0]
    seats := ws.map (fun w => (s.warp w).num) }

/-- The state with the operation `o` started, the seats still at their words. -/
def State.quorumForked (s : State) (o : EngOp) : State :=
  let t := (o.flags.foldl (fun t f => t.incFlag f.1 (some f.2)) ((s.newId).2.setEop o)).modCore (coreOf o.who) (fun c => { c with mtx := c.mtx ++ [o.id] })
  if o.emul then t.modCluster (clusterOf o.who) (fun c => { c with emulQ := c.emulQ ++ [o.id] }) else t

theorem State.quorumStart_eq {s : State} {ws : List Nat} {w0 : Nat} {iw xw : W32} {vals : List W64} {i : Instr}
    (hf : ws.find? (fun w => s.qseat w == 0) = some w0) (hq : (s.ctl w0).quorumIssue = some (iw, xw, vals, i)) :
    s.quorumStart ws = ws.foldl State.seatGoesOn (s.quorumForked (s.quorumOp ws w0 iw vals i)) := by
  unfold State.quorumStart
  dsimp only
  rw [hf, Option.getD_some, hq, Option.getD_some]
  rfl

theorem State.quorumForked_forks (s : State) (o : EngOp) :
    mget (s.quorumForked o).eops o.id = some o ∧ (s.quorumForked o).ctls = s.ctls ∧ (s.quorumForked o).mem = s.mem ∧
      (s.quorumForked o).wgs = s.wgs ∧ (s.quorumForked o).cur = s.cur ∧
      ((s.quorumForked o).core (coreOf o.who)).mtx = (s.core (coreOf o.who)).mtx ++ [o.id] ∧
      (s.quorumForked o).warps = (o.flags.foldl (fun t f => t.incFlag f.1 (some f.2)) ((s.newId).2.setEop o)).warps := by
  have hw := State.foldl_incFlag o.flags ((s.newId).2.setEop o)
  unfold State.quorumForked
  generalize o.flags.foldl (fun t f => t.incFlag f.1 (some f.2)) ((s.newId).2.setEop o) = v at hw
  have h1 := congrArg State.eops hw
  have h2 := congrArg State.ctls hw
  have h3 := congrArg State.mem hw
  have h4 := congrArg State.wgs hw
  have h5 := congrArg State.cur hw
  have h6 := congrArg State.cores hw
  have hc : ∀ k, v.core k = s.core k := fun k => by
    unfold State.core
    exact congrArg (fun m => mgetD m k {}) h6
  have hm : ((v.modCore (coreOf o.who) (fun c => { c with mtx := c.mtx ++ [o.id] })).core (coreOf o.who)).mtx = (s.core (coreOf o.who)).mtx ++ [o.id] := by
    rw [State.core_modCore_same, hc]
  have he : mget v.eops o.id = some o := by
    rw [show v.eops = mset s.eops o.id o from h1]
    exact mget_mset_same ..
  dsimp only
  split
  · exact ⟨he, h2, h3, h4, h5, hm, rfl⟩
  · exact ⟨he, h2, h3, h4, h5, hm, rfl⟩

/-! ### The issue -/

/-- The state in which the seat has issued the word and waits. -/
def State.quorumIssued (s : State) (is : Issue) : State :=
  (s.beginWait is .quorum).modCtl is.who (fun c => {
    c with quorumIssue := some (is.iword, is.xword, quorumVals is.i is.w, is.i), quorumFlag := is.flag, qtrap := none })

section
variable (s : State) (is : Issue)

theorem State.quorumIssued_world : { s.quorumIssued is with ctls := [] } = { s with ctls := [] } := rfl

theorem State.quorumIssued_same : (s.quorumIssued is).ctl is.who = { s.ctl is.who with
    waits := (s.ctl is.who).waits ++ [⟨.quorum, is.lane, s.clock, s.nextId⟩]
    quorumIssue := some (is.iword, is.xword, quorumVals is.i is.w, is.i), quorumFlag := is.flag, qtrap := none } := by
  rw [State.quorumIssued, State.ctl_modCtl, State.beginWait, State.ctl_modCtl]

theorem State.quorumIssued_other {n : Nat} (h : n ≠ is.who) : (s.quorumIssued is).ctl n = s.ctl n := by
  rw [State.quorumIssued, State.ctl_modCtl_other _ _ h, State.beginWait, State.ctl_modCtl_other _ _ h]

end

/-- What lets a seat issue: a seat or a group of one, no comparison that failed, the whole warp, the word's own checks. -/
structure SeatPasses (s : State) (is : Issue) (own : Issue → State → List W64 → Option (Cause × Info)) : Prop where
  seated : s.qsize is.who ≤ 1 ∨ (s.ctl is.who).seated = true
  matched : (s.ctl is.who).mismatch.any is.path.getLsbD = false
  whole : is.path = mdiff fullMask ((s.warp is.who).exited ||| (s.warp is.who).filed)
  checked : own is s (quorumVals is.i is.w) = none

section
variable {s : State} {i : Instr} {is : Issue} {own : Issue → State → List W64 → Option (Cause × Info)}

theorem quorumBody_seated (h1 : s.qsize is.who ≤ 1 ∨ (s.ctl is.who).seated = true) (h2 : (s.ctl is.who).mismatch.any is.path.getLsbD = false) :
    quorumBody own is s = if is.path != mdiff fullMask ((s.warp is.who).exited ||| (s.warp is.who).filed) then .trap .partmask (.same 0)
      else match own is s (quorumVals is.i is.w) with
        | some (c, info) => .trap c info
        | none => if s.seatLeft is.who then .trap .qmismatch (.same 0)
          else .park ((if (s.ctl is.who).qtrap.any Prod.snd then (s.quorumIssued is).breakQuorum is.who else s.quorumIssued is).quorumCheck is.who) := by
  have h3 : ¬(decide (1 < s.qsize is.who) && !(s.ctl is.who).seated) = true := by
    simp only [Bool.and_eq_true, decide_eq_true_iff, Bool.not_eq_true']
    rintro ⟨h3, h4⟩
    rcases h1 with h1 | h1
    · omega
    · exact Bool.false_ne_true (h4.symm.trans h1)
  unfold quorumBody
  rw [if_neg (Bool.eq_false_iff.1 h2), if_neg h3]
  rfl

/-- A seat that issues, and whose group is whole, waits or completes the group. -/
theorem quorumBody_parks (p : SeatPasses s is own) (hl : s.seatLeft is.who = false)
    (hm : (s.ctl is.who).qtrap.any Prod.snd = false ∨ s.quorumOf is.who = [is.who]) :
    quorumBody own is s = .park ((s.quorumIssued is).quorumCheck is.who) := by
  rw [quorumBody_seated p.seated p.matched, if_neg (by simp [p.whole]), p.checked]
  dsimp only
  rw [if_neg (Bool.eq_false_iff.1 hl)]
  split
  · next hb =>
    have hg := hm.resolve_left (fun h => Bool.false_ne_true (h.symm.trans hb))
    have : (s.quorumIssued is).breakQuorum is.who = s.quorumIssued is := by
      unfold State.breakQuorum
      rw [State.quorumOf_congr (s.quorumIssued_world is), hg]
      simp [State.mismatchSeats]
    rw [this]
  · rfl

/-- The seat waits where the check of its group starts nothing. -/
theorem quorumWaits_of (h : s.ready i = some is) (he : Machine.exec i s = runWord i (quorumBody own) s) (p : SeatPasses s is own)
    (hl : s.seatLeft is.who = false) (hm : (s.ctl is.who).qtrap.any Prod.snd = false ∨ s.quorumOf is.who = [is.who])
    (hc : (s.quorumIssued is).quorumCheck is.who = s.quorumIssued is) :
    ∃ t, Machine.exec i s = .next t ∧ (t.ctl is.who).quorumIssue = some (is.iword, is.xword, quorumVals is.i is.w, is.i) ∧ t.eops = s.eops ∧
      t.mem = s.mem ∧ (t.ctl is.who).waits = (s.ctl is.who).waits ++ [⟨.quorum, is.lane, s.clock, s.nextId⟩] ∧ Counts s t is 0 := by
  obtain ⟨t, ht, e⟩ := park_of h he ((quorumBody_parks p hl hm).trans (congrArg Act.park hc)) rfl
  obtain ⟨-, -, h3, -, h5⟩ := e.seats is.who
  have hw := e.warp
  have h1 := congrArg State.eops e.world
  have h2 := congrArg State.mem e.world
  rw [State.quorumIssued_same] at h3 h5
  refine ⟨t, ht, h5, h1, h2, h3, ?_, ?_, ?_, fun k => ?_, fun n hn => ?_⟩
  · have := congrArg Warp.s hw; exact this
  · have := congrArg Warp.p hw; exact this
  · have := congrArg Warp.blocks hw; exact this
  · have := congrArg (fun w => Warp.flag w k) hw
    rw [ite_self]
    exact this
  · obtain ⟨a, b⟩ := e.others n hn
    exact ⟨a, b.trans (s.quorumIssued_other is hn)⟩

end

/-! ### The comparison -/

section
variable {s : State} {is : Issue}

theorem State.quorumFull_issued (hg : (s.quorumOf is.who).length = s.qsize is.who)
    (h : ∀ n ∈ s.quorumOf is.who, n ≠ is.who → (s.ctl n).quorumIssue.isSome = true) : (s.quorumIssued is).quorumFull is.who = true := by
  unfold State.quorumFull
  dsimp only
  rw [State.quorumOf_congr (s.quorumIssued_world is), show (s.quorumIssued is).qsize is.who = s.qsize is.who from rfl, hg,
    beq_self_eq_true, Bool.true_and, List.all_eq_true]
  intro n hn
  by_cases e : n = is.who
  · rw [e, s.quorumIssued_same]
    rfl
  · rw [s.quorumIssued_other is e]
    exact h n hn e

/-- A seat that has not issued keeps the others waiting. -/
theorem State.quorumCheck_waits (h : ∃ n ∈ s.quorumOf is.who, n ≠ is.who ∧ (s.ctl n).quorumIssue = none) :
    (s.quorumIssued is).quorumCheck is.who = s.quorumIssued is := by
  obtain ⟨n, hn, hne, hq⟩ := h
  refine if_pos ?_
  have : (s.quorumIssued is).quorumFull is.who = false := by
    unfold State.quorumFull
    dsimp only
    rw [State.quorumOf_congr (s.quorumIssued_world is), Bool.and_eq_false_iff]
    refine .inr (List.all_eq_false.2 ⟨n, hn, ?_⟩)
    rw [s.quorumIssued_other is hne, hq]
    exact Bool.false_ne_true
  rw [this]
  rfl

/-- The key that the seats compare: first word, extension word, values. -/
def WarpCtl.quorumKey (c : WarpCtl) : Option (W32 × W32 × List W64) := c.quorumIssue.map (fun q => (q.1, q.2.1, q.2.2.1))

theorem State.quorumKey_issued : ((s.quorumIssued is).ctl is.who).quorumKey = some (is.iword, is.xword, quorumVals is.i is.w) := by
  rw [WarpCtl.quorumKey, s.quorumIssued_same]
  rfl

theorem State.quorumCheck_full (hf : (s.quorumIssued is).quorumFull is.who = true) : (s.quorumIssued is).quorumCheck is.who =
    if !((s.quorumOf is.who).all (fun w => ((s.quorumIssued is).ctl w).quorumKey == some (is.iword, is.xword, quorumVals is.i is.w)))
    then (s.quorumIssued is).mismatchSeats (s.quorumOf is.who)
    else if emulates is.i && decide (16 ≤ (s.cluster (clusterOf is.who)).emulQ.length) then s.quorumIssued is
      else (s.quorumIssued is).quorumStart (s.quorumOf is.who) := by
  have hk : (((s.quorumIssued is).ctl is.who).quorumIssue.getD (0, 0, [], .nop)).2.2.2 = is.i := by
    rw [s.quorumIssued_same]
    rfl
  unfold State.quorumCheck
  rw [if_neg (by simp [hf])]
  dsimp only
  rw [State.quorumOf_congr (s.quorumIssued_world is), hk]
  have key : ∀ c : WarpCtl, c.quorumIssue.map (fun q => (q.1, q.2.1, q.2.2.1)) = c.quorumKey := fun _ => rfl
  simp only [key, State.quorumKey_issued]
  rfl

/-- All seats have issued the same word with the same values. -/
theorem State.quorumKeys_same (h : ∀ n ∈ s.quorumOf is.who, n ≠ is.who → (s.ctl n).quorumIssue = some (is.iword, is.xword, quorumVals is.i is.w, is.i)) :
    (s.quorumOf is.who).all (fun w => ((s.quorumIssued is).ctl w).quorumKey == some (is.iword, is.xword, quorumVals is.i is.w)) = true := by
  rw [List.all_eq_true]
  intro n hn
  by_cases e : n = is.who
  · rw [e, s.quorumKey_issued, beq_self_eq_true]
  · rw [s.quorumIssued_other is e, WarpCtl.quorumKey, h n hn e, Option.map_some, beq_self_eq_true]

/-- The operation starts, the seats gone on. -/
structure QuorumStarts (s t : State) (is : Issue) (o : EngOp) : Prop where
  op : mget t.eops o.id = some o
  made : o.id = s.nextId ∧ o.instr = is.i ∧ o.vals = quorumVals is.i is.w ∧ o.wg = (s.warp o.who).wg
  seat : s.qseat o.who = 0 ∧ o.who ∈ s.quorumOf is.who
  flags : o.flags = (s.quorumIssued is).seatFlags (s.quorumOf is.who)
  memory : t.mem = s.mem ∧ t.wgs = s.wgs
  queue : (t.core (coreOf o.who)).mtx = (s.core (coreOf o.who)).mtx ++ [o.id]
  free : ∀ n ∈ s.quorumOf is.who, (t.ctl n).quorumIssue = none ∧ (t.ctl n).waits.any (fun x => isQuorum x.kind) = false
  others : ∀ n, n ∉ s.quorumOf is.who → n ≠ is.who → t.ctl n = s.ctl n ∧
    t.warp n = (o.flags.foldl (fun t f => t.incFlag f.1 (some f.2)) (((s.quorumIssued is).newId).2.setEop o)).warp n
  nopc : ((t.warp is.who).nox).nopc =
    (((o.flags.foldl (fun t f => t.incFlag f.1 (some f.2)) (((s.quorumIssued is).newId).2.setEop o)).warp is.who).nox).nopc

theorem quorumStarts_of {i : Instr} {own : Issue → State → List W64 → Option (Cause × Info)} (h : s.ready i = some is)
    (he : Machine.exec i s = runWord i (quorumBody own) s) (p : SeatPasses s is own) (hl : s.seatLeft is.who = false)
    (hm : (s.ctl is.who).qtrap.any Prod.snd = false ∨ s.quorumOf is.who = [is.who])
    (hg : (s.quorumOf is.who).length = s.qsize is.who)
    (hsame : ∀ n ∈ s.quorumOf is.who, n ≠ is.who → (s.ctl n).quorumIssue = some (is.iword, is.xword, quorumVals is.i is.w, is.i))
    (hwait : ∀ n ∈ s.quorumOf is.who, n ≠ is.who → (s.ctl n).waits.any (fun x => isQuorum x.kind) = true)
    (h0 : ∃ n ∈ s.quorumOf is.who, s.qseat n = 0) (hroom : emulates is.i = true → (s.cluster (clusterOf is.who)).emulQ.length < 16) :
    ∃ t o, Machine.exec i s = .next t ∧ QuorumStarts s t is o := by
  obtain ⟨w0, hw0⟩ : ∃ w0, (s.quorumOf is.who).find? (fun w => s.qseat w == 0) = some w0 := by
    obtain ⟨n, hn, hq⟩ := h0
    exact Option.isSome_iff_exists.1 (List.find?_isSome.2 ⟨n, hn, by simp [hq]⟩)
  have hmem := List.mem_of_find?_eq_some hw0
  have hseat : s.qseat w0 = 0 := by simpa using List.find?_some hw0
  have hq : ((s.quorumIssued is).ctl w0).quorumIssue = some (is.iword, is.xword, quorumVals is.i is.w, is.i) := by
    by_cases e : w0 = is.who
    · rw [e, s.quorumIssued_same]
    · rw [s.quorumIssued_other is e]
      exact hsame w0 hmem e
  have hfull := State.quorumFull_issued hg fun n hn hne => by rw [hsame n hn hne]; rfl
  have hroom' : ¬(emulates is.i && decide (16 ≤ (s.cluster (clusterOf is.who)).emulQ.length)) = true := by
    rw [Bool.and_eq_true, decide_eq_true_iff]
    rintro ⟨h1, h2⟩
    exact absurd (hroom h1) (Nat.not_lt.2 h2)
  have hb := (State.quorumCheck_full hfull).trans ((if_neg (by rw [State.quorumKeys_same hsame]; exact Bool.false_ne_true)).trans (if_neg hroom'))
  rw [State.quorumStart_eq (s := s.quorumIssued is) hw0 hq] at hb
  obtain ⟨f1, f2, f3, f4, f5, f6, f7⟩ := (s.quorumIssued is).quorumForked_forks
    ((s.quorumIssued is).quorumOp (s.quorumOf is.who) w0 is.iword (quorumVals is.i is.w) is.i)
  have made : ∀ o, o = (s.quorumIssued is).quorumOp (s.quorumOf is.who) w0 is.iword (quorumVals is.i is.w) is.i →
      (o.id = s.nextId ∧ o.instr = is.i ∧ o.vals = quorumVals is.i is.w ∧ o.wg = (s.warp o.who).wg) ∧ o.who = w0 ∧
        o.flags = (s.quorumIssued is).seatFlags (s.quorumOf is.who) := by
    rintro o rfl
    exact ⟨⟨rfl, rfl, rfl, rfl⟩, rfl, rfl⟩
  generalize (s.quorumIssued is).quorumOp (s.quorumOf is.who) w0 is.iword (quorumVals is.i is.w) is.i = o at hb f1 f2 f3 f4 f5 f6 f7 made
  obtain ⟨m1, m2, m3⟩ := made o rfl
  generalize (s.quorumIssued is).quorumForked o = u at hb f1 f2 f3 f4 f5 f6 f7
  obtain ⟨g, hfree⟩ := State.foldl_seatGoesOn (s.quorumOf is.who) u
  have hcur : ((s.quorumOf is.who).foldl State.seatGoesOn u).cur = s.cur := by
    have := congrArg State.cur g.world
    exact Eq.trans this f5
  obtain ⟨t, ht, e⟩ := park_of h he ((quorumBody_parks p hl hm).trans (congrArg Act.park hb)) hcur
  have hctl : ∀ n, u.ctl n = (s.quorumIssued is).ctl n := fun n => by unfold State.ctl; rw [f2]
  have hwarp : ∀ n, u.warp n = (o.flags.foldl (fun t f => t.incFlag f.1 (some f.2)) (((s.quorumIssued is).newId).2.setEop o)).warp n :=
    fun n => by unfold State.warp; rw [f7]
  generalize (s.quorumOf is.who).foldl State.seatGoesOn u = v at g hfree e
  have w1 := e.world.trans (congrArg (fun x : State => { x with cur := none }) g.world)
  have e1 := congrArg State.eops w1
  have e2 := congrArg State.mem w1
  have e3 := congrArg State.wgs w1
  have e4 := congrArg State.cores w1
  have hcore : ∀ k, t.core k = u.core k := fun k => by
    unfold State.core
    exact congrArg (fun m => mgetD m k {}) e4
  refine ⟨t, o, ht, by rw [show t.eops = u.eops from e1]; exact f1, m1, ⟨by rw [m2]; exact hseat, by rw [m2]; exact hmem⟩, m3,
    ⟨Eq.trans e2 f3, Eq.trans e3 f4⟩, (congrArg Core.mtx (hcore _)).trans f6, fun n hn => ?_, fun n hn hne => ?_, ?_⟩
  · obtain ⟨-, -, h3, -, h5⟩ := e.seats n
    rw [h3, h5]
    refine hfree n (.inr ⟨hn, ?_⟩)
    rw [hctl]
    by_cases hne : n = is.who
    · rw [hne, s.quorumIssued_same, List.any_append, Bool.or_eq_true]
      exact .inr rfl
    · rw [s.quorumIssued_other is hne]
      exact hwait n hn hne
  · obtain ⟨a, b⟩ := e.others n hne
    obtain ⟨a', b'⟩ := g.others n hn
    exact ⟨b.trans (b'.trans ((hctl n).trans (s.quorumIssued_other is hne))), a.trans (a'.trans (hwarp n))⟩
  · rw [e.warp]
    exact (congrArg Warp.nox (g.nopc is.who)).trans (by rw [hwarp]; rfl)

end

/-! ### The outcomes -/

section
variable {s : State} {i : Instr} {is : Issue} {own : Issue → State → List W64 → Option (Cause × Info)}

/-- A group of more than one that no seat has left is whole. -/
theorem State.seatLeft_whole (hl : s.seatLeft is.who = false) (hq : 1 < s.qsize is.who) : (s.quorumOf is.who).length = s.qsize is.who := by
  unfold State.seatLeft at hl
  simp only [Bool.and_eq_false_iff, Bool.or_eq_false_iff, decide_eq_false_iff_not, bne_eq_false_iff_eq] at hl
  exact (hl.resolve_left (fun h => h hq)).1

theorem State.seatLeft_one (hq : s.qsize is.who = 1) : s.seatLeft is.who = false := by
  simp [State.seatLeft, hq]

theorem State.qseat_one (hq : s.qsize is.who = 1) : s.qseat is.who = 0 := by
  unfold State.qseat
  rw [hq]
  split
  · rfl
  · exact Nat.mod_one _

/-- A group of one starts its operation at once. -/
theorem quorumOne_of (h : s.ready i = some is) (he : Machine.exec i s = runWord i (quorumBody own) s) (p : SeatPasses s is own)
    (hq : s.qsize is.who = 1) (hg : s.quorumOf is.who = [is.who])
    (hroom : emulates i = true → (s.cluster (clusterOf is.who)).emulQ.length < 16) :
    ∃ t o, Machine.exec i s = .next t ∧ mget t.eops o.id = some o ∧ o.id = s.nextId ∧ o.who = is.who ∧ o.instr = i ∧
      o.vals = quorumVals i is.w ∧ o.wg = (s.warp is.who).wg ∧ o.flags = is.flag.elim [] (fun k => [(is.who, k)]) ∧
      (t.core (coreOf is.who)).mtx = (s.core (coreOf is.who)).mtx ++ [o.id] ∧ t.mem = s.mem ∧ t.wgs = s.wgs ∧ Counts s t is 1 := by
  obtain rfl := (State.ready_issue h).1
  have alone : ∀ {P : Nat → Prop}, ∀ n ∈ s.quorumOf is.who, n ≠ is.who → P n := fun n hn hne => by
    rw [hg, List.mem_singleton] at hn
    exact absurd hn hne
  obtain ⟨t, o, ht, c⟩ := quorumStarts_of h he p (State.seatLeft_one hq) (.inr hg) (by rw [hg, hq]; rfl) alone alone
    ⟨is.who, by simp [hg], State.qseat_one hq⟩ hroom
  have hwho : o.who = is.who := by
    have := c.seat.2
    rwa [hg, List.mem_singleton] at this
  obtain ⟨m1, m2, m3, m4⟩ := c.made
  have hfl : o.flags = is.flag.elim [] (fun k => [(is.who, k)]) := by
    rw [c.flags, hg]
    unfold State.seatFlags
    rw [List.filterMap_cons, s.quorumIssued_same]
    cases is.flag <;> rfl
  have hinc : ∀ v : State, (is.flag.elim [] (fun k => [(is.who, k)])).foldl (fun t f => t.incFlag f.1 (some f.2)) v = v.incFlag is.who is.flag := by
    intro v
    cases is.flag <;> rfl
  have hn := c.nopc
  have ho := fun n hne => c.others n (by simpa [hg] using hne) hne
  simp only [hfl, hinc] at hn ho
  obtain ⟨g1, g2, g3, g4⟩ := ((s.quorumIssued is).newId.2.setEop o).incFlag_warp is.who is.flag
  refine ⟨t, o, ht, c.op, m1, hwho, m2, m3, by rw [m4, hwho], hfl, by rw [← hwho]; exact c.queue, c.memory.1, c.memory.2, ?_, ?_, ?_,
    fun k => ?_, fun n hne => ?_⟩
  · have := congrArg Warp.s hn
    exact Eq.trans this g1
  · have := congrArg Warp.p hn
    exact Eq.trans this g2
  · have := congrArg Warp.blocks hn
    exact Eq.trans this g3
  · have := congrArg (fun w => Warp.flag w k) hn
    exact Eq.trans this (g4 k)
  · obtain ⟨a, b⟩ := ho n hne
    refine ⟨b.trans ?_, a⟩
    unfold State.incFlag
    cases is.flag with
    | none => rfl
    | some k => exact State.warp_modWarp_other _ _ hne

/-- Seats whose words or values differ are to trap. -/
theorem quorumDiffers_of (h : s.ready i = some is) (he : Machine.exec i s = runWord i (quorumBody own) s) (p : SeatPasses s is own)
    (hl : s.seatLeft is.who = false) (hq : 1 < s.qsize is.who) (hm : (s.ctl is.who).qtrap.any Prod.snd = false)
    (hwait : ∀ n ∈ s.quorumOf is.who, n ≠ is.who → (s.ctl n).waits.any (fun x => isQuorum x.kind) = true)
    (hkey : ∃ n ∈ s.quorumOf is.who, n ≠ is.who ∧ (s.ctl n).quorumKey ≠ some (is.iword, is.xword, quorumVals is.i is.w))
    (hall : ∀ n ∈ s.quorumOf is.who, n ≠ is.who → (s.ctl n).quorumKey.isSome = true) :
    ∃ t, Machine.exec i s = .next t ∧ t.eops = s.eops ∧ t.mem = s.mem ∧ ∀ n ∈ s.quorumOf is.who, (t.ctl n).mismatch.isSome = true := by
  have hfull := State.quorumFull_issued (State.seatLeft_whole hl hq) fun n hn hne => by
    have := hall n hn hne
    unfold WarpCtl.quorumKey at this
    simpa using this
  obtain ⟨n, hn, hne, hk⟩ := hkey
  have hd : (s.quorumOf is.who).all (fun w => ((s.quorumIssued is).ctl w).quorumKey == some (is.iword, is.xword, quorumVals is.i is.w)) = false := by
    rw [List.all_eq_false]
    exact ⟨n, hn, by rw [s.quorumIssued_other is hne]; simpa using hk⟩
  have hb := (State.quorumCheck_full hfull).trans (if_pos (by rw [hd]; rfl))
  have hw := (s.quorumIssued is).mismatchSeats_world (s.quorumOf is.who)
  obtain ⟨t, ht, e⟩ := park_of h he ((quorumBody_parks p hl (.inl hm)).trans (congrArg Act.park hb)) (by have := congrArg State.cur hw; exact this)
  have e1 := congrArg State.eops e.world
  have e2 := congrArg State.mem e.world
  have k1 := congrArg State.eops hw
  have k2 := congrArg State.mem hw
  refine ⟨t, ht, Eq.trans e1 k1, Eq.trans e2 k2, fun m hm => ?_⟩
  rw [(e.seats m).2.2.2.1]
  refine (State.mismatchSeats_seat _ _ (.inl ⟨hm, ?_⟩)).1
  by_cases hme : m = is.who
  · rw [hme, s.quorumIssued_same, List.any_append, Bool.or_eq_true]
    exact .inr rfl
  · rw [s.quorumIssued_other is hme]
    exact hwait m hm hme

/-- With an emulated format and a full queue of the firmware the seats wait. -/
theorem State.quorumCheck_queued (hg : (s.quorumOf is.who).length = s.qsize is.who)
    (hsame : ∀ n ∈ s.quorumOf is.who, n ≠ is.who → (s.ctl n).quorumIssue = some (is.iword, is.xword, quorumVals is.i is.w, is.i))
    (he : emulates is.i = true) (hr : 16 ≤ (s.cluster (clusterOf is.who)).emulQ.length) :
    (s.quorumIssued is).quorumCheck is.who = s.quorumIssued is := by
  have hfull := State.quorumFull_issued hg fun n hn hne => by rw [hsame n hn hne]; rfl
  refine (State.quorumCheck_full hfull).trans ((if_neg (by rw [State.quorumKeys_same hsame]; exact Bool.false_ne_true)).trans (if_pos ?_))
  rw [he, decide_eq_true hr]
  rfl

end

/-- Settles O36. -/
theorem quorumWords : Obligations.QuorumWords := by
  unfold Obligations.QuorumWords
  intro s is x a sa sb f toff nsel me q w whole word
  have all : ∀ i own, (∀ s, Machine.exec i s = runWord i (quorumBody own) s) → word i own := by
    intro i own he h vals passes issues group key rest room here waits
    obtain rfl := (State.ready_issue h).1
    have he := he s
    have seat : ∀ hi : issues, SeatPasses s is own := fun ⟨⟨h1, h2⟩, h3, h4⟩ => ⟨h1, h2, h3, h4⟩
    have others : ∀ {P : Nat → Prop}, (∀ n ∈ rest, P n) → ∀ n ∈ s.quorumOf is.who, n ≠ is.who → P n :=
      fun hr n hn hne => hr n (List.mem_filter.2 ⟨hn, bne_iff_ne.2 hne⟩)
    refine ⟨fun hm => ?_, fun hq hs hm => ?_, fun hp hw => ?_, fun hp hw c v hc => ?_, fun hi hl => ?_, fun hq hi hl hm hg hh => ⟨fun hs h0 hr => ?_, fun hk hs => ?_⟩,
      fun hq hp hw hc hg hr => ?_, fun hq hi hl hm hn => ?_, fun hem hr => ⟨fun hq hp hw hc hg => ?_, fun hq hi hl hm hg hlen hs => ?_⟩⟩
    · exact trap_of h he (if_pos hm)
    · exact trap_of h he ((if_neg (Bool.eq_false_iff.1 hm)).trans (if_pos (by
        rw [Bool.and_eq_true, decide_eq_true_iff, Bool.not_eq_true']; exact ⟨hq, hs⟩)))
    · exact trap_of h he ((quorumBody_seated hp.1 hp.2).trans (if_pos (bne_iff_ne.2 hw)))
    · refine trap_of h he ((quorumBody_seated hp.1 hp.2).trans ((if_neg (by simpa using hw)).trans ?_))
      rw [hc]
    · refine trap_of h he ((quorumBody_seated hi.1.1 hi.1.2).trans ((if_neg (by simpa using hi.2.1)).trans ?_))
      rw [hi.2.2]
      exact if_pos hl
    · obtain ⟨t, o, ht, c⟩ := quorumStarts_of h he (seat hi) hl (.inl hm) (State.seatLeft_whole hl hq) (others hs) (others hh) h0 hr
      exact ⟨t, o, ht, c.op, c.made.1, c.made.2.1, c.made.2.2.1, c.made.2.2.2, c.seat.1, c.seat.2, c.memory.1, c.memory.2, c.free⟩
    · obtain ⟨n, hn, hne⟩ := hk
      obtain ⟨hn1, hn2⟩ := List.mem_filter.1 hn
      exact quorumDiffers_of h he (seat hi) hl hq hm (others hh) ⟨n, hn1, bne_iff_ne.1 hn2, hne⟩ (others hs)
    · exact quorumOne_of h he (seat ⟨hp, hw, hc⟩) hq hg hr
    · exact quorumWaits_of h he (seat hi) hl (.inl hm) (State.quorumCheck_waits hn)
    · refine quorumWaits_of h he (seat ⟨hp, hw, hc⟩) (State.seatLeft_one hq) (.inr hg) (State.quorumCheck_queued (by rw [hg]; exact hq.symm) ?_ hem hr)
      intro n hn hne
      rw [hg, List.mem_singleton] at hn
      exact absurd hn hne
    · exact quorumWaits_of h he (seat hi) hl (.inl hm) (State.quorumCheck_queued hlen (others hs) hem hr)
  exact ⟨all _ _ fun _ => rfl, all _ _ fun _ => rfl, all _ _ fun _ => rfl, all _ _ fun _ => rfl, all _ _ fun _ => rfl, all _ _ fun _ => rfl⟩

end Sys2Proof.Machine
end

section
/-! LD_COMPLETE over a violation register (R41, R118, R517): the operation logs its violation before its lanes read, and a lane may
read that very log through the register space. -/

namespace Sys2Proof.Machine

/-- Warp 0 with lanes 0 and 1, and nothing in its violation log. -/
def violWarp : Warp :=
  { num := 0, curb := 4, paths := [{ mask := 3, pc := 0x1004, inside := true }], exited := ~~~3#128, blocks := [(2, {})] }

/-- LD.B4 through `g:` to register 16. -/
def violArgs : MemArgs :=
  { g := ⟨false, 7⟩, d := .dir 16, a := .dir 0, uofs := false, nov := true
    xm := { base := .special .warpn, space := .g, ord := .relaxed, scope := .workgroup, nol1 := false, imm := 0 } }

/-- Lane 0 violates at address 0x5000; lane 1 is on VIOLADDR of warp 0. -/
def violPlaces : SMap Place := [(0, .bad .nomap), (1, .mmio 0x400808)]

def violOp : MemOp :=
  { id := 1, who := 0, core := 0, ctx := 0, instr := .ld .b4 violArgs, pc := 0x1004, mask := 3, ea := [(0, 0x5000), (1, 0)]
    place := violPlaces, dst := [(0, 16), (1, 16)] }

def violState : State := { warps := [(0, violWarp)], mops := [(1, violOp)] }

/-- What register 16 of lane 1 holds when the load has completed. -/
def violLoaded : Option W32 :=
  match Machine.exec (.ldComplete violOp.id) violState with
  | .next t => some ((t.warp 0).reg 16 1).val
  | _ => none

/-- The load delivers the address that it has logged itself. -/
theorem violLoaded_eq : violLoaded = some 0x5000 := by decide +kernel

/-- Before the load the log is empty, and VIOLADDR reads as 0. -/
theorem violReads_eq : violState.laneReads violOp 1 (.mmio 0x400808) = some (0, false) := by decide +kernel

/-- The operation may be performed at once. -/
theorem violOp_ready : violState.finalPlaces violOp = some violPlaces ∧ violState.mayPerform violOp = true ∧
    violState.lookupFree violOp violPlaces = true ∧ (violState.ctl 0).inTrap = false ∧
    violState.longAbsent 0 false (opRegs violOp) = [] ∧ (∀ e ∈ violPlaces, (violState.laneReads violOp e.1 e.2).isSome = true) ∧
    (∀ L ∈ lanesOf violOp.mask, mhas violPlaces L = true) := by decide +kernel

/-- Refutes O44: a load whose lane 0 violates and whose lane 1 reads the VIOLADDR of its own warp. The statement gives lane 1 what
VIOLADDR held before the load; the load logs its violation first (R118), so lane 1 takes the address 0x5000 of lane 0. -/
theorem not_loadCompletes : ¬ Obligations.LoadCompletes := by
  unfold Obligations.LoadCompletes
  intro h
  obtain ⟨hps, hmay, hfree, htrap, hlong, hreads, hmask⟩ := violOp_ready
  obtain ⟨t, he, -, -, -, -, -, -, -, hv, -⟩ := h violState violOp violPlaces rfl rfl rfl hps hmay hfree rfl rfl htrap hlong hreads hmask
    (fun f hf => absurd hf List.not_mem_nil)
  have h1 := congrArg LaneReg.val (hv 1 (by decide) (.mmio 0x400808) 0 false 16 rfl violReads_eq rfl 0 (by decide) rfl :
    (t.warp 0).reg 16 1 = ⟨BitVec.ofNat 32 (ldValue .b4 0 / 2 ^ (32 * 0)), false⟩)
  have hl : violLoaded = some ((t.warp 0).reg 16 1).val := by rw [violLoaded, he]
  exact absurd ((violLoaded_eq.symm.trans hl).trans (congrArg some h1)) (by decide)

end Sys2Proof.Machine
end

section
/-! STORE_PERFORMED of an STMX (R335): the statement speaks of every operation record, and so of one that lists lanes above the warp's
128. The model performs the four groups of 32 lanes that a warp has, and so stores nothing for such lanes. -/

namespace Sys2Proof.Machine

/-- Warp 0 with its first 32 lanes. -/
def groupWarp : Warp :=
  { num := 0, curb := 4, paths := [{ mask := 0xFFFFFFFF, pc := 0x1004, inside := true }], exited := ~~~0xFFFFFFFF#128 }

/-- STMX of E4M3 elements to the scratchpad. -/
def groupArgs : MxMemArgs :=
  { g := ⟨false, 7⟩, d := .dir 16, a := .dir 0, fe := .e4m3, plane := 0
    xm := { base := .special .warpn, space := .sp, ord := .relaxed, scope := .workgroup, nol1 := false, imm := 0 } }

/-- Lanes 128 to 159 are on the first line of the scratchpad. -/
def groupPlaces : SMap Place := (List.range 32).map (fun L => (128 + L, .sp 0 0))

/-- Lane 129 stores the element 1, the others 0. -/
def groupOp : MemOp :=
  { id := 1, who := 0, core := 0, ctx := 0, instr := .stmx groupArgs, pc := 0x1004, mask := 0xFFFFFFFF, place := groupPlaces
    data := [(129, 1)] }

def groupState : State := { warps := [(0, groupWarp)], ctls := [(0, {})], wgs := [(0, { id := 0 })], mops := [(1, groupOp)] }

/-- The second element of the block, with the block's scale, when the store has been performed. -/
def groupStored : Option Nat :=
  match Machine.exec (.storePerformed groupOp.id) groupState with
  | .next t => some (mxElement .e4m3 (leWord 1024 (t.locRead (.sp 0 0) 128)) ((t.locSide (.sp 0 0)).getD 0) 0 1)
  | _ => none

/-- Nothing has been stored. -/
theorem groupStored_eq : groupStored = some 0 := by decide +kernel

/-- The operation may be performed at once, and stands for the one line. -/
theorem groupOp_ready : groupState.finalPlaces groupOp = some groupPlaces ∧ groupState.mayPerform groupOp = true ∧
    groupState.opRemote groupOp = false ∧ groupOp.unitsLeft groupPlaces = [(2, 0)] ∧ (groupPlaces.map Prod.fst).Nodup ∧
    unitLanes groupOp groupPlaces (2, 0) = List.range' 128 32 ∧ groupState.atHand (.sp 0 0) 128 = true := by decide +kernel

theorem groupLanes_fifth : ∀ L ∈ List.range' 128 32, L / 32 = 4 := by decide

/-- Refutes O45: an STMX whose record lists lanes 128 to 159, which no warp has. The statement asks for their block in the
scratchpad, and the model stores none. -/
theorem not_storePerforms : ¬ Obligations.StorePerforms := by
  unfold Obligations.StorePerforms
  intro h
  obtain ⟨hps, hmay, hrem, hleft, hnodup, hlanes, hhand⟩ := groupOp_ready
  obtain ⟨-, hmx, -⟩ := h groupState groupOp groupPlaces (2, 0) [] rfl rfl hps (Or.inr hmay) hrem hleft rfl rfl
    ⟨rfl, fun e he => by rw [List.mem_singleton.1 he]; exact ⟨rfl, rfl, rfl⟩⟩ hnodup rfl
  obtain ⟨t, he, -, hv, -⟩ := hmx rfl 4 128 (.sp 0 0) (congrArg List.length hlanes) (fun L hL => groupLanes_fifth L (hlanes ▸ hL))
    (congrArg List.head? hlanes) rfl hhand rfl rfl (by decide)
  have h1 := hv 1 129 (congrArg (·[1]?) hlanes)
  have hs : groupStored = some (mxElement .e4m3 (leWord 1024 (t.locRead (.sp 0 0) 128)) ((t.locSide (.sp 0 0)).getD 0) 0 1) := by
    rw [groupStored, he]
  exact absurd ((groupStored_eq.symm.trans hs).trans (congrArg some h1)) (by decide)

end Sys2Proof.Machine
end

section
/-! UAL_REQUEST_TIMEOUT of a load (R471): the statement gives its lanes 0 with poison; the model delivers, with the poison, the bytes that
the other module's address held in its memory map. -/

namespace Sys2Proof.Machine

/-- An address in the memory of module 1; the module itself is module 0. -/
def farPa : Nat := 0x8010000000000

/-- Warp 0 with lane 0. -/
def farWarp : Warp :=
  { num := 0, curb := 4, paths := [{ mask := 1, pc := 0x1004, inside := true }], exited := ~~~1#128, blocks := [(2, {})] }

/-- LD.B4 through `g:` to register 16. -/
def farArgs : MemArgs :=
  { g := ⟨false, 7⟩, d := .dir 16, a := .dir 0, uofs := false, nov := true
    xm := { base := .special .warpn, space := .g, ord := .relaxed, scope := .workgroup, nol1 := false, imm := 0 } }

def farOp : MemOp :=
  { id := 1, who := 0, core := 0, ctx := 0, instr := .ld .b4 farArgs, pc := 0x1004, mask := 1, ea := [(0, 0x5000)]
    place := [(0, .phys farPa 0)], dst := [(0, 16)] }

/-- No port is up, the request has waited its time, and the byte at the address is 5. The ring of error records is full. -/
def farState : State :=
  { warps := [(0, farWarp)], mops := [(1, farOp)], linkReqs := [{ who := 0, tag := 1, addr := 0, failed := true }]
    clusters := [(0, { errhead := BitVec.ofNat 64 (ringSize 0) })], mem := { cells := [(farPa, 5)] }, regs := { ports := [] } }

/-- What register 16 holds when the load has ended. -/
def farLoaded : Option LaneReg :=
  match Machine.exec (.ualRequestTimeout farOp.id) farState with
  | .next t => some ((t.warp 0).reg 16 0)
  | _ => none

theorem farLoaded_eq : farLoaded = some ⟨5, true⟩ := by decide +kernel

/-- The operation's lane is on another module, and nothing holds it up but the port. -/
theorem farOp_ready : farState.isRemote farPa = true ∧ farState.mayAcquire 0 = true ∧ farState.tokenFirst farOp = false ∧
    (farState.ctl 0).inTrap = false ∧ farState.longAbsent 0 false (opRegs farOp) = [] ∧ farState.linkUp = false ∧
    farState.portLate 0 1 0 = true ∧ (∀ L ∈ lanesOf farOp.mask, mhas farOp.place L = true) ∧
    ((farState.cluster (clusterOf 0)).errhead - (farState.cluster (clusterOf 0)).errtail).toNat ≤
      ringSize (farState.cluster (clusterOf 0)).errbase := by decide +kernel

/-- Refutes O47: a load from another module whose address reads as 5 and whose port is down. When its time is over the register takes
5 with poison, and not the 0 that the statement asks for. -/
theorem not_fillsAndTimeouts : ¬ Obligations.FillsAndTimeouts := by
  unfold Obligations.FillsAndTimeouts
  intro h
  obtain ⟨hrem, hacq, htok, htrap, hlong, hlink, hlate, hmask, hring⟩ := farOp_ready
  obtain ⟨-, -, hout⟩ := h.2 farState farOp (0, .phys farPa 0) [] rfl rfl rfl (by decide) hring rfl rfl (fun f hf => absurd hf List.not_mem_nil)
    (fun p hp => by rw [List.mem_singleton.1 hp]; exact ⟨farPa, 0, rfl, hrem⟩) hmask hacq rfl htok rfl rfl rfl htrap hlong
    (Or.inl ⟨.b4, farArgs, rfl⟩)
  obtain ⟨t, he, -, -, -, -, -, -, -, hv, -⟩ := hout hlink hlate
  have h1 := hv rfl 0 (by decide) 16 rfl (fun x hx => nomatch hx) 0 (by decide) rfl
  have hl : farLoaded = some ((t.warp 0).reg 16 0) := by rw [farLoaded, he]
  exact absurd ((farLoaded_eq.symm.trans hl).trans (congrArg some h1)) (by decide)

end Sys2Proof.Machine
end

section
/-! COPY.RAW within the scratchpad (R347, R350): the statement speaks of every operation record, and so of one that asks for an MX
destination beside RAW, which the word's checks refuse (log entry 36). Such a chunk reaches for a whole line of its destination, and
where the end of that line is not mapped it stops. -/

namespace Sys2Proof.Machine

/-- Warp 0 of workgroup 0. -/
def mxRawWarp : Warp := { wg := 0, num := 0, curb := 4, paths := [{ mask := 1, pc := 0x1004, inside := true }], exited := ~~~1#128 }

/-- COPY.RAW from the scratchpad to the scratchpad, with the flag of an MX destination. -/
def mxRawArgs : CopyArgs :=
  { sa := 0, sb := .special .zero, rel := false, xf := .raw, tr := false, smx := false, dmx := true, sums := false, ssp := .sp, dsp := .sp
    redop := .add, tsp := false }

/-- One row of 32 elements, one E4M3 block, from address 0 to address 65472. -/
def mxRawOp : EngOp :=
  { id := 1, who := 0, core := 0, wg := 0, ctx := 0, instr := .copy mxRawArgs, pc := 0x1004
    vals := [0, 65472, 32, 0, 0, 0x4000, 0, 0, 0, 0], nums := [0, 0], phase := 1 }

/-- The scratchpad holds 1 at address 0, and has a granule for its first 64 KiB alone. -/
def mxRawState : State :=
  { warps := [(0, mxRawWarp)], ctls := [(0, {})], eops := [(1, mxRawOp)], cores := [(0, { running := some 1 })]
    wgs := [(0, { id := 0, sp := [(0, 1)], spxt := [(0, BitVec.ofNat 64 (2 ^ 62))] })] }

/-- The byte at the destination once the chunk has been performed. -/
def mxRawCopied : Option (List Byte) :=
  match Machine.exec (.datapathPiece mxRawOp.core) mxRawState with
  | .next t => some (t.locRead (.sp 0 65472) 1)
  | _ => none

/-- The second half of the destination's line is not mapped: nothing has been copied. -/
theorem mxRawCopied_eq : mxRawCopied = some [0] := by decide +kernel

def mxRawPlan : CopyPlan := (copyPlan mxRawArgs mxRawOp.vals).getD
  { nr := 0, nc := 0, src := 0, dst := 0, sstr := 0, dstr := 0, sid := 0, shift := 0, sf := .f32, df := .f32, rm := .rne, idx0 := 0, suma := 0, seed := 0
    x := mxRawArgs }

theorem mxRawPlan_eq : copyPlan mxRawArgs mxRawOp.vals = some mxRawPlan := rfl

/-- The chunk: one byte, from address 0 to address 65472. -/
def mxRawSrc : Int := mxRawPlan.src + ((mxRawPlan.chunk 0 0).row : Int) * mxRawPlan.sstr + ((mxRawPlan.chunk 0 0).pos : Int)

theorem mxRawChunk_eq : (mxRawPlan.chunk 0 0).ea = 65472 ∧ (mxRawPlan.chunk 0 0).n = 1 ∧ mxRawSrc = 0 := by decide +kernel

/-- Source and destination bytes lie in the granule. -/
theorem mxRaw_inGranules {a : Nat} (ha : a < 65536) : mxRawState.inGranules 0 0 a 1 :=
  ⟨rfl, rfl, by omega, _, rfl, fun i hi => by
    obtain rfl : i = 0 := by omega
    have h0 : a / 65536 = 0 := by omega
    have h1 : ¬2 ^ 21 ≤ a := by omega
    simp only [Wg.spRes, Wg.entry, Nat.add_zero, h0, if_neg h1]
    rfl⟩

/-- Refutes O52: a RAW copy between scratchpad addresses that also has the flag of an MX destination. Its chunk of one byte lies in
the workgroup's granule, but the line it reaches for does not, and so nothing is copied. Beside the clause that fails the statement
holds choices of the model alone: REDUCE reads its destination in the destination's own format (log entry 38), the CHK record has ENG 1
(log entry 40), and ATTN's functions and running maximum follow log entries 17 and 45. -/
theorem not_engineEvents : ¬ Obligations.EngineEvents := by
  unfold Obligations.EngineEvents
  intro h
  obtain ⟨hea, hn, hsrc⟩ := mxRawChunk_eq
  obtain ⟨hcopy, -⟩ := h mxRawState mxRawOp mxRawArgs mxRawPlan 0 
    ⟨0, 0, false, 0, .f16, .f16, false, false, false, 0⟩ ⟨0, .f16, .f16, 0, false, false, false, false⟩ rfl (fun f hf => absurd hf List.not_mem_nil)
    ⟨rfl, fun e he => by rw [List.mem_singleton.1 he]; exact ⟨rfl, rfl, rfl⟩⟩
  obtain ⟨hraw, -⟩ := hcopy rfl mxRawPlan_eq
  have hsrcIn : mxRawState.inGranules mxRawOp.who 0 mxRawSrc.toNat (mxRawPlan.chunk 0 0).n := by
    rw [hsrc, hn]
    exact mxRaw_inGranules (by decide)
  have hdstIn : mxRawState.inGranules mxRawOp.who 0 (mxRawPlan.chunk 0 0).ea.toNat (mxRawPlan.chunk 0 0).n := by
    rw [hea, hn]
    exact mxRaw_inGranules (by decide)
  obtain ⟨t, he, -, hv, -⟩ := hraw rfl rfl rfl rfl (le_of_eq hsrc.symm) (hea ▸ (by decide : (0 : Int) ≤ 65472))
    (hn ▸ Nat.one_pos : 0 < (mxRawPlan.chunk 0 0).n) hsrcIn hdstIn
  have h1 : t.locRead (.sp 0 (mxRawPlan.chunk 0 0).ea.toNat) (mxRawPlan.chunk 0 0).n =
      mxRawState.locRead (.sp 0 mxRawSrc.toNat) (mxRawPlan.chunk 0 0).n := hv
  rw [hea, hn, hsrc] at h1
  have hl : mxRawCopied = some (t.locRead (.sp 0 65472) 1) := by rw [mxRawCopied, he]
  exact absurd ((mxRawCopied_eq.symm.trans hl).trans (congrArg some h1)) (by decide)

end Sys2Proof.Machine
end

section
/-! An access whose sectors the L2 holds (R98): nothing is fetched for it, and a write is its bytes. -/

namespace Sys2Proof.Machine

/-- The L2 holds every sector of the range, which lies in this module's or the host's memory. -/
structure Held (s : State) (pa n : Nat) : Prop where
  near : isWindow pa = false
  held : ∀ k ∈ sectorsOf pa n, s.mem.inL2 k = true

section
variable {s : State} {pa n : Nat}

theorem held_of_atHand (h : s.atHand (.phys pa) n = true) : Held s pa n := by
  obtain ⟨hw, hk⟩ := (Bool.and_eq_true _ _ ▸ h : _ ∧ _)
  exact ⟨by simpa using hw, List.all_eq_true.1 hk⟩

theorem Held.normPa (h : Held s pa n) : s.normPa pa = pa := by
  rw [State.normPa, h.near]
  rfl

theorem Held.isRemote (h : Held s pa n) : s.isRemote pa = false := by
  rw [State.isRemote, h.normPa, h.near]

theorem Held.linkFails (h : Held s pa n) : s.linkFails pa n = false := by
  have hk : (sectorsOf pa n).any (fun k => isHostPa (32 * k) && !s.mem.inL2 k) = false :=
    List.any_eq_false.2 fun k hk => by simp [h.held k hk]
  rw [State.linkFails, State.hostFails, h.normPa, h.isRemote, hk]
  simp

theorem State.fetches_held (l : List Nat) (h : ∀ k ∈ l, s.mem.inL2 k = true) : s.fetches l = [] := by
  have e : l.filter (fun k => !s.mem.inL2 k && isDev (32 * k) && mhas s.mem.frames (k / 128)) = [] :=
    List.filter_eq_nil_iff.2 fun k hk => by simp [h k hk]
  unfold State.fetches
  rw [e]
  rfl

theorem State.touchSector_held {k : Nat} (h : s.mem.inL2 k = true) (r : Requester) (keep : List Nat) : s.touchSector k r keep = s := by
  rw [State.touchSector, h]
  rfl

theorem State.foldl_touchSector_held (l : List Nat) (h : ∀ k ∈ l, s.mem.inL2 k = true) (r : Requester) (keep : List Nat) :
    l.foldl (fun t k => t.touchSector k r keep) s = s := by
  induction l with
  | nil => rfl
  | cons a l ih =>
    rw [List.foldl_cons, State.touchSector_held (h a List.mem_cons_self)]
    exact ih fun k hk => h k (List.mem_cons_of_mem _ hk)

theorem State.holding_nil (s : State) (f : State → State) : s.holding [] f = f s := rfl

/-- A touch of sectors that the L2 holds does nothing (R98). -/
theorem Held.touch (h : Held s pa n) (r : Requester) : s.touch pa n r = s := by
  unfold State.touch
  rw [State.fetches_held _ h.held, State.holding_nil, State.foldl_touchSector_held _ h.held]
  exact ite_self ..

theorem State.locTouch_atHand {l : Loc} (h : s.atHand l n = true) (r : Requester) : s.locTouch l n r = s := by
  match l, h with
  | .phys a, h =>
    have hh := held_of_atHand h
    unfold State.locTouch
    dsimp only
    rw [hh.isRemote, hh.normPa, hh.touch]
    rfl
  | .sp _ _, _ => rfl
  | .ac _ _, _ => rfl

/-- The same sectors are in the L2, listed anew. -/
structure SameHeld (s t : State) : Prop where
  same : ∃ p : SMap (BitVec 4), t = { s with mem := { s.mem with present := p } } ∧ ∀ k, mget p k = mget s.mem.present k

theorem SameHeld.refl (s : State) : SameHeld s s := ⟨⟨s.mem.present, rfl, fun _ => rfl⟩⟩

theorem SameHeld.trans {t u : State} (h : SameHeld s t) (g : SameHeld t u) : SameHeld s u := by
  obtain ⟨p, rfl, hp⟩ := h.same
  obtain ⟨q, rfl, hq⟩ := g.same
  exact ⟨⟨q, rfl, fun k => (hq k).trans (hp k)⟩⟩

theorem SameHeld.inL2 {t : State} (h : SameHeld s t) (k : Nat) : t.mem.inL2 k = s.mem.inL2 k := by
  obtain ⟨p, rfl, hp⟩ := h.same
  exact congrArg (fun o : Option (BitVec 4) => (o.getD 0).getLsbD (k % 4)) (hp (k / 4))

theorem mget_of_inL2 {k : Nat} (h : s.mem.inL2 k = true) :
    ∃ v : BitVec 4, mget s.mem.present (k / 4) = some v ∧ v.getLsbD (k % 4) = true := by
  unfold Mem.inL2 mgetD at h
  cases hm : mget s.mem.present (k / 4) with
  | none => rw [hm] at h; simp at h
  | some v => rw [hm] at h; exact ⟨v, rfl, h⟩

/-- The L2 takes a sector that it holds. -/
theorem State.takeSector_held {k : Nat} (h : s.mem.inL2 k = true) (keep : List Nat) : SameHeld s (s.takeSector k keep) := by
  obtain ⟨v, hv, hb⟩ := mget_of_inL2 h
  have hm : mhas s.mem.present (k / 4) = true := by rw [mhas, hv]; rfl
  unfold State.takeSector State.l2Room
  rw [if_pos hm]
  refine ⟨⟨_, rfl, fun n => ?_⟩⟩
  rw [mget_mset]
  split
  · next e =>
    rw [e, hv, mgetD, hv]
    refine congrArg some ?_
    show v ||| 1#4 <<< (k % 4) = v
    have : k % 4 < 4 := Nat.mod_lt _ (by decide)
    refine BitVec.eq_of_getLsbD_eq fun i hi => ?_
    rw [BitVec.getLsbD_or, BitVec.getLsbD_shiftLeft, BitVec.getLsbD_one]
    by_cases e2 : i = k % 4
    · rw [e2, hb]; rfl
    · have : decide (i - k % 4 = 0) = (decide (i ≤ k % 4)) := by congr 1; exact propext (by omega)
      simp [this]
      omega
  · rfl

/-- A write to sectors that the L2 holds puts its bytes there and does nothing else (R89, R98). -/
theorem Held.physWrite {bs : List Byte} (h : Held s pa bs.length) (h0 : bs ≠ []) (r : Requester) :
    ∃ t, SameHeld s t ∧ s.physWrite pa bs r = t.l2Write pa bs := by
  unfold State.physWrite
  rw [if_neg h0, h.normPa]
  extract_lets a cov keep part s1
  have hf : s.fetches part = [] := State.fetches_held _ fun k hk => h.held k (List.mem_of_mem_filter hk)
  have hfold : ∀ (l : List Nat) (t : State), SameHeld s t → (∀ k ∈ l, s.mem.inL2 k = true) → SameHeld s (l.foldl (fun t k =>
      if !cov.contains k then t.touchSector k r keep else if t.noSector k then t else t.takeSector k keep) t) := by
    intro l
    induction l with
    | nil => exact fun t ht _ => ht
    | cons a l ih =>
      intro t ht hl
      have ha : t.mem.inL2 a = true := (ht.inL2 a).trans (hl a List.mem_cons_self)
      refine ih _ ?_ fun k hk => hl k (List.mem_cons_of_mem _ hk)
      dsimp only
      split
      · rw [State.touchSector_held ha]; exact ht
      · split
        · exact ht
        · exact ht.trans (State.takeSector_held ha keep)
  have h1 : SameHeld s s1 := by
    show SameHeld s (s.holding (s.fetches part) _)
    rw [hf, State.holding_nil]
    exact hfold _ s (SameHeld.refl s) h.held
  refine ⟨s1, h1, if_neg ?_⟩
  have hh : Held s1 pa bs.length := ⟨h.near, fun k hk => (h1.inL2 k).trans (h.held k hk)⟩
  rw [hh.linkFails]
  decide

end

/-- A write at the L2 of what it holds: what memory reads, and what stays. -/
structure HeldWrite (s t : State) (pa : Nat) (bs : List Byte) : Prop where
  cells : t.mem.cells = Memory.write s.mem.cells pa bs
  inL2 : ∀ k, t.mem.inL2 k = s.mem.inL2 k
  side : t.mem.side = s.mem.side
  sbPoison : t.mem.sbPoison = s.mem.sbPoison
  rest : { t with mem := s.mem, outbox := s.outbox } = s

section
variable {s t : State} {pa n : Nat} {bs : List Byte}

theorem Held.write (h : Held s pa bs.length) (h0 : bs ≠ []) (r : Requester) : HeldWrite s (s.physWrite pa bs r) pa bs := by
  obtain ⟨t, ht, e⟩ := h.physWrite h0 r
  rw [e]
  have hi := ht.inL2
  obtain ⟨p, rfl, -⟩ := ht.same
  exact ⟨rfl, hi, rfl, rfl, rfl⟩

theorem HeldWrite.regs (h : HeldWrite s t pa bs) : t.regs = s.regs := by have := congrArg State.regs h.rest; exact this

theorem HeldWrite.wgs (h : HeldWrite s t pa bs) : t.wgs = s.wgs := by have := congrArg State.wgs h.rest; exact this

theorem HeldWrite.normPa (h : HeldWrite s t pa bs) (a : Nat) : t.normPa a = s.normPa a := by
  unfold State.normPa State.ownAcc
  rw [h.regs]

theorem HeldWrite.frame (h : HeldWrite s t pa bs) {m : Nat} (hm : m < pa ∨ pa + bs.length ≤ m) :
    Memory.read t.mem.cells m = Memory.read s.mem.cells m := by
  rw [h.cells]
  exact Memory.read_write_other _ _ _ hm

theorem HeldWrite.held (h : HeldWrite s t pa bs) {a k : Nat} (hh : Held s a k) : Held t a k :=
  ⟨hh.near, fun i hi => (h.inL2 i).trans (hh.held i hi)⟩

theorem HeldWrite.physRead (h : HeldWrite s t pa bs) (hn : s.normPa pa = pa) : t.physRead pa bs.length = bs := by
  rw [State.physRead, h.normPa, hn, h.cells]
  exact Memory.readN_write ..

end

end Sys2Proof.Machine
end

section
/-! Requests from the host and other modules, ports and snoops (R22, R89, R90, R469 to R473). -/

namespace Sys2Proof.Machine

section
variable {s : State} {pa n : Nat}

theorem inL2_of_whole {k : Nat} (h : s.mem.whole (k / 4) = true) : s.mem.inL2 k = true := by
  rw [Mem.inL2, eq_of_beq (h : (mgetD s.mem.present (k / 4) 0 == 0xF#4) = true)]
  have hk : k % 4 < 4 := Nat.mod_lt _ (by decide)
  generalize k % 4 = i at hk
  interval_cases i <;> rfl

theorem inDev_iff : inDev pa n = true ↔ 0 < n ∧ pa + n ≤ devTop := by simp [inDev]

theorem held_of_whole (hd : inDev pa n = true) (h : ∀ l ∈ linesOf pa n, s.mem.whole l = true) : Held s pa n := by
  obtain ⟨h0, h1⟩ := inDev_iff.1 hd
  refine ⟨?_, fun k hk => inL2_of_whole (h _ (sectorsOf_line hk))⟩
  have : pa < hostTop := lt_of_lt_of_le (by omega : pa < devTop) (by decide)
  rw [isWindow, decide_eq_false (by omega), Bool.false_and]

/-- Lines are put on a list of lines. -/
theorem mhas_foldl_mset (l : List Nat) (m : SMap Unit) (k : Nat) :
    mhas (l.foldl (fun m l => mset m l ()) m) k = (mhas m k || l.contains k) := by
  induction l generalizing m with
  | nil => simp
  | cons a l ih =>
    rw [List.foldl_cons, ih, mhas, mhas, mget_mset]
    by_cases e : k = a <;> simp [e]

theorem mhas_filter_key {α : Type} (m : SMap α) (p : Nat → Bool) (k : Nat) :
    mhas (m.filter (fun e => p e.1)) k = (mhas m k && p k) := by
  induction m with
  | nil => rfl
  | cons e m ih =>
    unfold mhas at ih ⊢
    by_cases he : e.1 = k
    · subst he
      by_cases hp : p e.1 = true
      · simp [mget, hp]
      · rw [List.filter_cons, if_neg hp, ih]
        simp [hp]
    · rw [mget, if_neg he, ← ih, List.filter_cons]
      split
      · rw [mget, if_neg he]
      · rfl

theorem State.serveRequest_read (h : Held s pa n) (hd : inDev pa n = true) (host : Bool) :
    s.serveRequest (.read pa n) host =
      if host then (s.emit (.readData (s.physRead pa n) (s.badSectors pa n))).hostHolds pa n
      else s.emit (.readData (s.physRead pa n) (s.badSectors pa n)) := by
  unfold State.serveRequest
  dsimp only
  rw [hd, h.touch]
  rfl

/-- The lines of a range that the host may hold. -/
def State.heldLines (s : State) (pa n : Nat) : List Nat := (linesOf pa n).filter (fun l => mhas s.mem.hostHeld l)

/-- The lines are no longer noted as held by the host. -/
def State.letGo (s : State) (ls : List Nat) : State :=
  { s with mem := { s.mem with hostHeld := s.mem.hostHeld.filter (fun e => !ls.contains e.1) } }

theorem State.hostWrite_eq (s : State) (pa : Nat) (bs : List Byte) :
    s.hostWrite pa bs =
      let t := (s.letGo (s.heldLines pa bs.length)).physWrite pa bs {}
      { t with mem := { t.mem with hostHeld := (s.heldLines pa bs.length).foldl (fun m l => mset m l ()) t.mem.hostHeld } } := rfl

theorem State.mhas_letGo (s : State) (ls : List Nat) (l : Nat) :
    mhas (s.letGo ls).mem.hostHeld l = (mhas s.mem.hostHeld l && !ls.contains l) := mhas_filter_key _ (fun l => !ls.contains l) l

theorem State.heldLines_letGo (s : State) (pa n : Nat) : (s.letGo (s.heldLines pa n)).heldLines pa n = [] := by
  refine List.filter_eq_nil_iff.2 fun l hl => ?_
  rw [State.mhas_letGo]
  by_cases hh : mhas s.mem.hostHeld l = true
  · have : (s.heldLines pa n).contains l = true := List.contains_iff_mem.2 (List.mem_filter.2 ⟨hl, hh⟩)
    rw [this]
    simp
  · simp [hh]

theorem Held.physWrite_fields {bs : List Byte} (h : Held s pa bs.length) (h0 : bs ≠ []) (r : Requester) :
    (s.physWrite pa bs r).outbox = s.outbox ++ (s.heldLines pa bs.length).map Out.invalidateHost ∧
    (s.physWrite pa bs r).mem.hostHeld = (s.letGo (s.heldLines pa bs.length)).mem.hostHeld ∧
    (s.physWrite pa bs r).mem.cells = Memory.write s.mem.cells pa bs ∧ (s.physWrite pa bs r).regs = s.regs ∧
    ∀ k, mhas (s.physWrite pa bs r).mem.poison k = (mhas s.mem.poison k && !(coveredSectors pa bs.length).contains k) := by
  obtain ⟨u, hu, e⟩ := h.physWrite h0 r
  obtain ⟨p, rfl, -⟩ := hu.same
  rw [e]
  exact ⟨rfl, rfl, rfl, rfl, fun k => mhas_filter_key s.mem.poison (fun k => !(coveredSectors pa bs.length).contains k) k⟩

/-- The bytes of a write that is the host's own: no line is called back (log entry 101). -/
theorem State.hostWrite_held {bs : List Byte} (h : Held s pa bs.length) (h0 : bs ≠ []) :
    (s.hostWrite pa bs).outbox = s.outbox ∧ (∀ l, mhas (s.hostWrite pa bs).mem.hostHeld l = mhas s.mem.hostHeld l) ∧
    (s.hostWrite pa bs).mem.cells = Memory.write s.mem.cells pa bs ∧ (s.hostWrite pa bs).regs = s.regs := by
  have hg : Held (s.letGo (s.heldLines pa bs.length)) pa bs.length := ⟨h.near, h.held⟩
  obtain ⟨ho, hh, hc, hr, -⟩ := hg.physWrite_fields h0 {}
  rw [State.hostWrite_eq]
  refine ⟨?_, fun l => ?_, hc, hr⟩
  · rw [State.heldLines_letGo] at ho
    exact ho.trans (List.append_nil _)
  · rw [State.heldLines_letGo] at hh
    dsimp only
    rw [hh, mhas_foldl_mset, State.mhas_letGo, State.mhas_letGo]
    by_cases hl : (s.heldLines pa bs.length).contains l = true
    · rw [hl, (List.mem_filter.1 (List.contains_iff_mem.1 hl)).2]
      rfl
    · rw [Bool.eq_false_iff.2 hl]
      simp

theorem ITy.width_pos (ty : ITy) : 0 < ty.width / 8 ∧ ty.width = 8 * (ty.width / 8) := by cases ty <;> decide

theorem State.locTouch_held (h : Held s pa n) (r : Requester) : s.locTouch (.phys pa) n r = s := by
  unfold State.locTouch
  dsimp only
  rw [h.isRemote, h.normPa, h.touch]
  rfl

/-- An atomic of another module at a place the L2 holds (R337). -/
theorem State.atomAt_held (ty : ITy) (op : AOp) (b c : Nat) (h : Held s pa (ty.width / 8)) (hp : s.physPoison pa (ty.width / 8) = false)
    (r : Requester) :
    s.atomAt (.phys pa) op ty b c r = (leNat (s.physRead pa (ty.width / 8)), false,
      (atomNew op ty (leNat (s.physRead pa (ty.width / 8))) b c).elim s fun v => s.physWrite pa (toLe (ty.width / 8) v) r) := by
  unfold State.atomAt
  dsimp only
  rw [State.locTouch_held h, if_neg (by rw [State.locPoison, hp]; decide)]
  cases e : atomNew op ty (leNat (s.locRead (.phys pa) (ty.width / 8))) b c with
  | none => rw [show atomNew op ty (leNat (s.physRead pa (ty.width / 8))) b c = none from e]; rfl
  | some v => rw [show atomNew op ty (leNat (s.physRead pa (ty.width / 8))) b c = some v from e]; rfl

theorem leNat_lt (bs : List Byte) : leNat bs < 256 ^ bs.length := by
  induction bs with
  | nil => decide
  | cons b bs ih =>
    rw [leNat, List.length_cons, Nat.pow_succ]
    have := b.isLt
    omega

end

section
variable {s : State}

theorem inDev_ne_nil {pa : Nat} {bs : List Byte} (h : inDev pa bs.length = true) : bs ≠ [] := by
  rintro rfl
  exact absurd (inDev_iff.1 h).1 (by decide)

theorem State.mhas_hostHolds (s : State) {pa n l : Nat} (h : l ∈ linesOf pa n) : mhas (s.hostHolds pa n).mem.hostHeld l = true := by
  show mhas ((linesOf pa n).foldl (fun m l => mset m l ()) s.mem.hostHeld) l = true
  rw [mhas_foldl_mset, List.contains_iff_mem.2 h, Bool.or_true]

/-- Bytes that memory reads where its cells are those of a write. -/
theorem State.physRead_of_cells {s t : State} {pa : Nat} {bs : List Byte} (hr : t.regs = s.regs) (hn : s.normPa pa = pa)
    (hc : t.mem.cells = Memory.write s.mem.cells pa bs) : t.physRead pa bs.length = bs := by
  have : t.normPa pa = pa := by
    unfold State.normPa State.ownAcc at hn ⊢
    rw [hr]
    exact hn
  rw [State.physRead, this, hc]
  exact Memory.readN_write ..

/-- Every sector of a line that a write covers is covered. -/
theorem coveredSectors_line {pa k : Nat} (h : pa % 128 = 0) (hk : k ∈ sectorsOf pa 128) : k ∈ coveredSectors pa 128 := by
  refine List.mem_filter.2 ⟨hk, ?_⟩
  simp only [sectorsOf, List.mem_map, List.mem_range] at hk
  obtain ⟨i, hi, rfl⟩ := hk
  simp
  omega

theorem State.physPoison_held {pa n : Nat} (h : Held s pa n) :
    s.physPoison pa n = (n != 0 && (sectorsOf pa n).any fun k => mhas s.mem.poison k) := by
  rw [State.physPoison, h.linkFails, h.normPa, Bool.or_false]

end

section
variable {s : State} {pa n : Nat}

theorem State.exec_ualWrite {bs : List Byte} (hd : inDev pa bs.length = true) :
    Machine.exec (.ualRemoteRequest (.write pa bs)) s = .next (s.physWrite pa bs {}) := by
  show Host.Outcome.next (s.serveRequest (.write pa bs) false) = _
  unfold State.serveRequest
  dsimp only
  rw [hd]
  rfl

theorem State.exec_hostWrite {bs : List Byte} (hd : inDev pa bs.length = true) :
    Machine.exec (.hostMemRequest (.write pa bs)) s = .next (s.hostWrite pa bs) := by
  show Host.Outcome.next (s.serveRequest (.write pa bs) true) = _
  unfold State.serveRequest
  dsimp only
  rw [hd]
  rfl

/-- A whole line of another module's with its side band (R471). -/
theorem State.exec_writeLine {d : BitVec 1024} {sb : W64} (hd : inDev pa 128 = true) (ha : pa % 128 = 0) :
    Machine.exec (.ualRemoteRequest (.writeLine pa d sb)) s =
      .next (((s.physWrite pa (toLe 128 d.toNat) {}).sideWrite (pa / 128) sb).sideMark (pa / 128) false) := by
  show Host.Outcome.next (s.serveRequest (.writeLine pa d sb) false) = _
  unfold State.serveRequest
  dsimp only
  rw [hd, ha]
  rfl

theorem State.exec_readLine (hd : inDev pa 128 = true) (ha : pa % 128 = 0) (h : Held s pa 128) :
    Machine.exec (.ualRemoteRequest (.readLine pa)) s =
      .next ((s.emit (.readData (s.physRead pa 128) (s.badSectors pa 128))).emit
        (.oldValue (s.sideRead (pa / 128)) (s.sidePoison (pa / 128)))) := by
  show Host.Outcome.next (s.serveRequest (.readLine pa) false) = _
  unfold State.serveRequest
  dsimp only
  rw [hd, ha, h.touch]
  rfl

theorem State.exec_atomic {op : AOp} {ty : ITy} {v c : W64} (hd : inDev pa (ty.width / 8) = true) (ha : pa % (ty.width / 8) = 0) :
    Machine.exec (.ualRemoteRequest (.atomic pa op ty v c)) s =
      .next ((s.atomAt (.phys pa) op ty (v.toNat % 2 ^ ty.width) (c.toNat % 2 ^ ty.width) {}).2.2.emit
        (.oldValue (BitVec.ofNat 64 (s.atomAt (.phys pa) op ty (v.toNat % 2 ^ ty.width) (c.toNat % 2 ^ ty.width) {}).1)
          (s.atomAt (.phys pa) op ty (v.toNat % 2 ^ ty.width) (c.toNat % 2 ^ ty.width) {}).2.1)) := by
  show Host.Outcome.next (s.serveRequest (.atomic pa op ty v c) false) = _
  unfold State.serveRequest
  dsimp only
  rw [hd, ha]
  rfl

end

section
variable {s : State} {pa n : Nat}

/-- A write that reaches the lines the L2 holds (R473). -/
theorem State.write_requests {bs : List Byte} (hd : inDev pa bs.length = true) (h : Held s pa bs.length) :
    ∃ t u, Machine.exec (.hostMemRequest (.write pa bs)) s = .next t ∧ Machine.exec (.ualRemoteRequest (.write pa bs)) s = .next u ∧
      t.outbox = s.outbox ∧ u.outbox = s.outbox ++ (s.heldLines pa bs.length).map Out.invalidateHost ∧
      (∀ l, mhas t.mem.hostHeld l = mhas s.mem.hostHeld l) ∧
      ∀ x ∈ [t, u], x.physRead pa bs.length = bs ∧
        ∀ m, m < pa ∨ pa + bs.length ≤ m → Memory.read x.mem.cells m = Memory.read s.mem.cells m := by
  have h0 := inDev_ne_nil hd
  obtain ⟨htOut, htHeld, htCells, htRegs⟩ := State.hostWrite_held h h0
  obtain ⟨huOut, -, huCells, huRegs, -⟩ := h.physWrite_fields h0 {}
  refine ⟨_, _, State.exec_hostWrite hd, State.exec_ualWrite hd, htOut, huOut, htHeld, fun x hx => ?_⟩
  have hx : x.regs = s.regs ∧ x.mem.cells = Memory.write s.mem.cells pa bs := by
    rcases List.mem_pair.1 hx with rfl | rfl
    exacts [⟨htRegs, htCells⟩, ⟨huRegs, huCells⟩]
  refine ⟨State.physRead_of_cells hx.1 h.normPa hx.2, fun m hm => ?_⟩
  rw [hx.2]
  exact Memory.read_write_other _ _ _ hm

/-- A line written with its side band is clean (R90, R471). -/
theorem State.writeLine_request (d : BitVec 1024) (sb : W64) (hd : inDev pa 128 = true) (h : Held s pa 128) (ha : pa % 128 = 0) :
    ∃ t, Machine.exec (.ualRemoteRequest (.writeLine pa d sb)) s = .next t ∧ t.physRead pa 128 = toLe 128 d.toNat ∧
      (∀ m, m < pa ∨ pa + 128 ≤ m → Memory.read t.mem.cells m = Memory.read s.mem.cells m) ∧
      t.sideRead (pa / 128) = sb ∧ t.sidePoison (pa / 128) = false ∧ t.physPoison pa 128 = false := by
  have hlen := toLe_length 128 d.toNat
  have hb : Held s pa (toLe 128 d.toNat).length := by rw [hlen]; exact h
  have h0 : toLe 128 d.toNat ≠ [] := fun e => by rw [e] at hlen; exact absurd hlen (by decide)
  have hw := hb.write h0 {}
  obtain ⟨-, -, hc, hr, hp⟩ := hb.physWrite_fields h0 {}
  refine ⟨_, State.exec_writeLine hd ha, ?_⟩
  generalize toLe 128 d.toNat = bs at *
  generalize s.physWrite pa bs {} = x at *
  rw [hlen] at hp
  have hx : Held ((x.sideWrite (pa / 128) sb).sideMark (pa / 128) false) pa 128 := ⟨h.near, fun k hk => (hw.inL2 k).trans (h.held k hk)⟩
  refine ⟨?_, fun m hm => ?_, ?_, ?_, ?_⟩
  · rw [← hlen]
    exact State.physRead_of_cells (s := s) hr h.normPa hc
  · exact hw.frame (by rw [hlen]; exact hm)
  · show mgetD (mset x.mem.side (x.normPa (128 * (pa / 128)) / 128) sb) (x.normPa (128 * (pa / 128)) / 128) 0 = sb
    rw [mgetD, mget_mset_same]
    rfl
  · show mhas (mdel x.mem.sbPoison (x.normPa (128 * (pa / 128)) / 128)) (x.normPa (128 * (pa / 128)) / 128) = false
    rw [mhas, mget_mdel_same]
    rfl
  · rw [State.physPoison_held hx, List.any_eq_false.2, Bool.and_false]
    intro k hk
    show ¬ mhas x.mem.poison k = true
    rw [hp, List.contains_iff_mem.2 (coveredSectors_line ha hk)]
    simp

/-- An atomic of another module (R337, R471). -/
theorem State.atomic_request (op : AOp) (ty : ITy) (v c : W64) (hd : inDev pa (ty.width / 8) = true) (h : Held s pa (ty.width / 8))
    (ha : pa % (ty.width / 8) = 0) (hp : s.physPoison pa (ty.width / 8) = false) :
    let old := leNat (s.physRead pa (ty.width / 8))
    ∃ t, Machine.exec (.ualRemoteRequest (.atomic pa op ty v c)) s = .next t ∧ .oldValue (BitVec.ofNat 64 old) false ∈ t.outbox ∧
      (∀ m, m < pa ∨ pa + ty.width / 8 ≤ m → Memory.read t.mem.cells m = Memory.read s.mem.cells m) ∧
      leNat (t.physRead pa (ty.width / 8)) =
        ((atomNew op ty old (v.toNat % 2 ^ ty.width) (c.toNat % 2 ^ ty.width)).getD old) % 2 ^ ty.width := by
  intro old
  obtain ⟨hk, hw⟩ := ITy.width_pos ty
  have hpow : 2 ^ ty.width = 256 ^ (ty.width / 8) := by rw [show (256 : Nat) = 2 ^ 8 from rfl, ← Nat.pow_mul, ← hw]
  refine ⟨_, State.exec_atomic hd ha, ?_⟩
  rw [State.atomAt_held ty op _ _ h hp]
  refine ⟨List.mem_append_right _ (List.mem_singleton.2 rfl), ?_⟩
  show (∀ m, _ → Memory.read (Option.elim (atomNew op ty old _ _) s fun v => s.physWrite pa (toLe (ty.width / 8) v) {}).mem.cells m = _) ∧
    leNat ((Option.elim (atomNew op ty old _ _) s fun v => s.physWrite pa (toLe (ty.width / 8) v) {}).physRead pa _) = _
  cases atomNew op ty old (v.toNat % 2 ^ ty.width) (c.toNat % 2 ^ ty.width) with
  | none =>
    refine ⟨fun _ _ => rfl, (Nat.mod_eq_of_lt ?_).symm⟩
    have := leNat_lt (s.physRead pa (ty.width / 8))
    rwa [State.physRead, Memory.readN_length, ← hpow] at this
  | some w =>
    have hlen := toLe_length (ty.width / 8) w
    have hb : Held s pa (toLe (ty.width / 8) w).length := by rw [hlen]; exact h
    have h0 : toLe (ty.width / 8) w ≠ [] := fun e => by rw [e] at hlen; exact absurd hlen.symm (by simp; omega)
    have hx := hb.write h0 {}
    have hv : leNat (toLe (ty.width / 8) w) = w % 2 ^ ty.width := by rw [leNat_toLe, hpow]
    rw [Option.elim_some]
    generalize toLe (ty.width / 8) w = bs at *
    rw [← hlen]
    refine ⟨fun m hm => hx.frame hm, ?_⟩
    exact (congrArg leNat (hx.physRead h.normPa)).trans hv

theorem State.atomic_poisoned (op : AOp) (ty : ITy) (v c : W64) (hd : inDev pa (ty.width / 8) = true) (h : Held s pa (ty.width / 8))
    (ha : pa % (ty.width / 8) = 0) (hp : s.physPoison pa (ty.width / 8) = true) :
    Machine.exec (.ualRemoteRequest (.atomic pa op ty v c)) s = .next (s.emit (.oldValue 0 true)) := by
  have e : s.atomAt (.phys pa) op ty (v.toNat % 2 ^ ty.width) (c.toNat % 2 ^ ty.width) {} = (0, true, s) := by
    unfold State.atomAt
    dsimp only
    rw [State.locTouch_held h, State.locPoison, hp]
    rfl
  rw [State.exec_atomic hd ha, e]
  rfl

/-- The ports (R469, R472). -/
theorem State.port_events (s : State) (p : Fin 18) :
    ∃ t u w, Machine.exec (.ualPortDown p) s = .next t ∧
      mgetD t.regs.ports p.val (false, 0, 0) = (false, (mgetD s.regs.ports p.val (false, 0, 0)).2) ∧
      Machine.exec (.ualPortUp p) s = .next u ∧
      mgetD u.regs.ports p.val (false, 0, 0) = (true, (mgetD s.regs.ports p.val (false, 0, 0)).2) ∧
      Machine.exec (.linkLevelRetry p) s = .next w ∧
      mgetD w.regs.ports p.val (false, 0, 0) = ((mgetD s.regs.ports p.val (false, 0, 0)).1, (mgetD s.regs.ports p.val (false, 0, 0)).2.1,
        (mgetD s.regs.ports p.val (false, 0, 0)).2.2 + 1) ∧
      ∀ q, q ≠ p.val → ∀ x ∈ [t, u, w],
        mgetD x.regs.ports q (false, 0, 0) = mgetD s.regs.ports q (false, 0, 0) ∧ x.mem = s.mem := by
  refine ⟨_, _, _, rfl, mgetD_mset_same .., rfl, mgetD_mset_same .., rfl, mgetD_mset_same .., fun q hq x hx => ?_⟩
  rcases hx with _ | ⟨_, _ | ⟨_, _ | ⟨_, ⟨⟩⟩⟩⟩ <;> exact ⟨mgetD_mset_other _ _ _ hq, rfl⟩

/-- The host takes a line of its own memory, and may have written it (R22). -/
theorem State.snoop_events {line : Nat} (d : BitVec 1024) (h : isHostPa (128 * line) = true) (hl : s.regs.hostLost = false) :
    ∃ t u, Machine.exec (.cxlCacheSnoop line none) s = .next t ∧ t.mem.cells = s.mem.cells ∧
      Machine.exec (.cxlCacheSnoop line (some d)) s = .next u ∧ u.physRead (128 * line) 128 = toLe 128 d.toNat ∧
      (∀ m, m < 128 * line ∨ 128 * line + 128 ≤ m → Memory.read u.mem.cells m = Memory.read s.mem.cells m) ∧
      u.physPoison (128 * line) 128 = false ∧ ∀ x ∈ [t, u], mhas x.mem.present line = false := by
  have e : ∀ o, s.snoop line o = match o with
      | none => { s with mem := { s.mem with present := mdel s.mem.present line } }
      | some d => { s with mem := { s.mem with
          present := mdel s.mem.present line
          cells := Memory.write s.mem.cells (128 * line) (toLe 128 d.toNat)
          poison := s.mem.poison.filter (fun e => e.1 / 4 != line) } } := fun o => by
    unfold State.snoop
    rw [h]
    cases o <;> rfl
  have hlen := toLe_length 128 d.toNat
  have hw : isWindow (128 * line) = false := by
    obtain ⟨-, h2⟩ := (Bool.and_eq_true _ _ ▸ h : _ ∧ _)
    have := of_decide_eq_true h2
    rw [isWindow, decide_eq_false (by omega), Bool.false_and]
  have hn : ∀ t : State, t.normPa (128 * line) = 128 * line := fun t => by rw [State.normPa, hw]; rfl
  refine ⟨_, _, congrArg Host.Outcome.next (e none), rfl, congrArg Host.Outcome.next (e (some d)), ?_, fun m hm => ?_, ?_, fun x hx => ?_⟩
  · dsimp only
    generalize toLe 128 d.toNat = bs at *
    have := State.physRead_of_cells (s := s) (t := { s with mem := { s.mem with
      present := mdel s.mem.present line, cells := Memory.write s.mem.cells (128 * line) bs,
      poison := s.mem.poison.filter (fun e => e.1 / 4 != line) } }) rfl (hn s) rfl
    rwa [hlen] at this
  · exact Memory.read_write_other _ _ _ (by rw [hlen]; exact hm)
  · dsimp only
    rw [State.physPoison, State.linkFails, State.hostFails, State.isRemote, hn, hw]
    dsimp only
    rw [hl, List.any_eq_false.2]
    · simp
    intro k hk
    rw [mhas_filter_key s.mem.poison (fun k => k / 4 != line)]
    simp only [sectorsOf, List.mem_map, List.mem_range] at hk
    obtain ⟨i, hi, rfl⟩ := hk
    have : (128 * line / 32 + i) / 4 = line := by omega
    simp [this]
  · have : x.mem.present = mdel s.mem.present line := by
      rcases List.mem_pair.1 hx with rfl | rfl <;> rfl
    rw [this, mhas, mget_mdel_same]
    rfl

end

/-- Settles O56: a request is served from the lines that the L2 holds; ports and snoops by their definitions. -/
theorem outsideEvents : Obligations.OutsideEvents := by
  unfold Obligations.OutsideEvents
  intro s pa n line bs p d sb v c op ty here port same calls hwf
  have hh : ∀ {a k}, here a k → Held s a k := fun h => held_of_whole h.1 h.2
  refine ⟨fun h => ?_, fun h => ?_, fun h => State.write_requests h.1 (hh h), fun h => ?_, fun h => ?_,
    fun h ha => ⟨State.exec_readLine h.1 ha (hh h), State.writeLine_request d sb h.1 (hh h) ha⟩,
    fun h ha hp => State.atomic_request op ty v c h.1 (hh h) ha hp, fun h ha hp => State.atomic_poisoned op ty v c h.1 (hh h) ha hp,
    State.port_events s p, fun h => ?_, fun h hl => State.snoop_events d h hl⟩
  · exact ⟨_, congrArg Host.Outcome.next (State.serveRequest_read (hh h) h.1 true), rfl, rfl, fun l hl => State.mhas_hostHolds _ hl⟩
  · exact congrArg Host.Outcome.next (State.serveRequest_read (hh h) h.1 false)
  · have e : ∀ b, s.serveRequest (.read pa n) b = s := fun b => by
      unfold State.serveRequest
      dsimp only
      rw [h]
      rfl
    exact ⟨congrArg Host.Outcome.next (e true), congrArg Host.Outcome.next (e false)⟩
  · refine congrArg Host.Outcome.next (?_ : s.serveRequest (.write pa bs) true = s)
    unfold State.serveRequest
    dsimp only
    rw [h]
    rfl
  · have e : ∀ o, s.snoop line o = s := fun o => by
      unfold State.snoop
      rw [h]
      rfl
    exact ⟨congrArg Host.Outcome.next (e _), congrArg Host.Outcome.next (e _)⟩

end Sys2Proof.Machine
end

section
/-! Power, resets and bring-up (R511 to R515). -/

namespace Sys2Proof.Machine

/-! ### The contexts that WARM ends -/

/-- Every workgroup is listed under its own number. -/
def OwnNumbers (s : State) : Prop := ∀ e ∈ s.wgs, e.2.id = e.1

/-- A workgroup that is resident is asked to leave. -/
def Wg.leave (w : Wg) : Wg := if w.st == .resident then { w with st := .leaving } else w

theorem Wg.leave_fields (w : Wg) : w.leave.id = w.id ∧ w.leave.ctx = w.ctx ∧ w.leave.st ≠ .resident := by
  unfold Wg.leave
  split
  · exact ⟨rfl, rfl, nofun⟩
  · next h => exact ⟨rfl, rfl, fun e => h (by rw [e]; rfl)⟩

/-- What a command that ends contexts leaves: the grids with what holds them, and the workgroups, none of which comes back. -/
structure Departs (s t : State) : Prop where
  boot : t.regs.bootState = s.regs.bootState
  grids : ∀ g ∈ t.grids, ∃ h ∈ s.grids, g.2.ctx = h.2.ctx ∧ (h.2.held = true → g.2.held = true)
  own : OwnNumbers s → OwnNumbers t
  wg : OwnNumbers s → ∀ k w, mget s.wgs k = some w → ∃ w', mget t.wgs k = some w' ∧ w'.ctx = w.ctx ∧ (w.st ≠ .resident → w'.st ≠ .resident)

theorem Departs.refl (s : State) : Departs s s := ⟨rfl, fun g hg => ⟨g, hg, rfl, id⟩, id, fun _ _ w hw => ⟨w, hw, rfl, id⟩⟩

theorem Departs.trans {s t u : State} (h : Departs s t) (g : Departs t u) : Departs s u := by
  refine ⟨g.boot.trans h.boot, fun x hx => ?_, g.own ∘ h.own, fun ho k w hw => ?_⟩
  · obtain ⟨y, hy, ey, py⟩ := g.grids x hx
    obtain ⟨z, hz, ez, pz⟩ := h.grids y hy
    exact ⟨z, hz, ey.trans ez, py ∘ pz⟩
  · obtain ⟨y, hy, ey, py⟩ := h.wg ho k w hw
    obtain ⟨z, hz, ez, pz⟩ := g.wg (h.own ho) k y hy
    exact ⟨z, hz, ez.trans ey, pz ∘ py⟩

theorem Departs.of_same {s t : State} (hr : t.regs.bootState = s.regs.bootState) (hg : t.grids = s.grids) (hw : t.wgs = s.wgs) : Departs s t :=
  ⟨hr, fun g h => ⟨g, hg ▸ h, rfl, id⟩, fun h => by unfold OwnNumbers at *; rw [hw]; exact h, fun _ k w h => ⟨w, by rw [hw]; exact h, rfl, id⟩⟩

theorem Departs.foldl {α : Type} {f : State → α → State} (hf : ∀ s a, Departs s (f s a)) (l : List α) (s : State) : Departs s (l.foldl f s) := by
  induction l generalizing s with
  | nil => exact Departs.refl s
  | cons a l ih => exact (hf s a).trans (ih _)

theorem State.mget_modWg_leave {s : State} (ho : OwnNumbers s) (g k : Nat) :
    mget (s.modWg g Wg.leave).wgs k = if k = g then (mget s.wgs g).map Wg.leave else mget s.wgs k := by
  unfold State.modWg
  cases hm : mget s.wgs g with
  | none =>
    dsimp only
    split
    · next e => rw [e, hm]; rfl
    · rfl
  | some w =>
    have hi : w.leave.id = g := w.leave_fields.1.trans (ho _ (mem_of_mget hm))
    show mget (mset s.wgs w.leave.id w.leave) k = _
    rw [hi, mget_mset]
    rfl

theorem Departs.modWg_leave (s : State) (g : Nat) : Departs s (s.modWg g Wg.leave) := by
  refine ⟨?_, fun x hx => ⟨x, ?_, rfl, id⟩, fun ho e he => ?_, fun ho k w hw => ?_⟩
  · unfold State.modWg
    split <;> rfl
  · have : (s.modWg g Wg.leave).grids = s.grids := by unfold State.modWg; split <;> rfl
    rwa [this] at hx
  · unfold State.modWg at he
    split at he
    · next w hm =>
      rcases mem_mset he with rfl | he
      · rfl
      · exact ho e he
    · exact ho e he
  · rw [State.mget_modWg_leave ho]
    split
    · next e =>
      rw [← e, hw]
      exact ⟨_, rfl, w.leave_fields.2.1, fun _ => w.leave_fields.2.2⟩
    · exact ⟨w, hw, rfl, id⟩

/-- Every workgroup of the list is on its way out. -/
theorem State.foldl_leave {s : State} (ho : OwnNumbers s) (l : List Nat) {k : Nat} (hk : k ∈ l) {w : Wg} (hw : mget s.wgs k = some w) :
    ∃ w', mget (l.foldl (fun t g => t.modWg g Wg.leave) s).wgs k = some w' ∧ w'.st ≠ .resident := by
  induction l generalizing s w with
  | nil => exact absurd hk List.not_mem_nil
  | cons a l ih =>
    have h1 := Departs.modWg_leave s a
    by_cases e : k = a
    · subst e
      have hm := State.mget_modWg_leave ho k k
      rw [if_pos rfl, hw] at hm
      obtain ⟨w', hw', -, hs⟩ := (Departs.foldl (fun s g => Departs.modWg_leave s g) l (s.modWg k Wg.leave)).wg (h1.own ho) k _ hm
      exact ⟨w', hw', hs w.leave_fields.2.2⟩
    · have hm := State.mget_modWg_leave ho a k
      rw [if_neg e, hw] at hm
      exact ih (h1.own ho) ((List.mem_cons.1 hk).resolve_left e) hm

theorem State.preemptReq_eq (s : State) (gs : List Nat) :
    s.preemptReq gs = (s.unitsWith gs).foldl (fun t g => t.modWg g Wg.leave) s := rfl

theorem State.mem_unitsWith {s : State} (ho : OwnNumbers s) {gs : List Nat} {k : Nat} (hk : k ∈ gs) {w : Wg} (hw : mget s.wgs k = some w) :
    k ∈ s.unitsWith gs := by
  have hm : (k, w) ∈ s.wgs := mem_of_mget hw
  refine List.mem_map.2 ⟨w, List.mem_filter.2 ⟨List.mem_map.2 ⟨_, hm, rfl⟩, ?_⟩, ho _ hm⟩
  exact List.contains_iff_mem.2 (List.mem_filterMap.2 ⟨k, hk, by rw [hw]; rfl⟩)

theorem Departs.suspendStream (s : State) (j : Nat) : Departs s (s.suspendStream j) := by
  unfold State.suspendStream
  extract_lets who s1
  split
  · exact Departs.of_same rfl rfl rfl
  · exact Departs.of_same rfl rfl rfl

/-- SUSPEND holds the grids of its context and asks its workgroups to leave (R519). -/
theorem State.startSuspend_leaves (s : State) (ctx : Nat) :
    Departs s (s.startSuspend ctx) ∧ (∀ g ∈ (s.startSuspend ctx).grids, g.2.ctx = ctx → g.2.held = true) ∧
    (OwnNumbers s → ∀ k w, mget s.wgs k = some w → w.ctx = ctx → ∃ w', mget (s.startSuspend ctx).wgs k = some w' ∧ w'.st ≠ .resident) := by
  unfold State.startSuspend
  extract_lets s1 s2
  have h1 : Departs s s1 := Departs.foldl (fun s g => Departs.modWg_leave s g) _ s
  have h12 : Departs s1 s2 := Departs.foldl Departs.suspendStream _ s1
  refine ⟨(h1.trans h12).trans ⟨rfl, fun g hg => ?_, id, fun _ k w hw => ⟨w, hw, rfl, id⟩⟩, fun g hg hc => ?_, fun ho k w hw hc => ?_⟩
  · obtain ⟨h, hh, rfl⟩ := List.mem_map.1 hg
    refine ⟨h, hh, ?_⟩
    split
    · exact ⟨rfl, fun _ => rfl⟩
    · exact ⟨rfl, id⟩
  · obtain ⟨h, hh, rfl⟩ := List.mem_map.1 hg
    split
    · rfl
    · next hn =>
      rw [if_neg hn] at hc
      exact absurd (beq_iff_eq.2 hc) hn
  · have hm : (k, w) ∈ s.wgs := mem_of_mget hw
    have hk : k ∈ ((mvals s.wgs).filter (fun w => w.ctx == ctx)).map Wg.id :=
      List.mem_map.2 ⟨w, List.mem_filter.2 ⟨List.mem_map.2 ⟨_, hm, rfl⟩, beq_iff_eq.2 hc⟩, ho _ hm⟩
    obtain ⟨w1, hw1, hs1⟩ := State.foldl_leave ho _ (State.mem_unitsWith ho hk hw) hw
    obtain ⟨w2, hw2, -, hs2⟩ := h12.wg (h1.own ho) k w1 hw1
    exact ⟨w2, hw2, hs2 hs1⟩

theorem State.foldl_startSuspend (l : List Nat) (s : State) :
    let t := l.foldl (fun u c => u.startSuspend c) s
    Departs s t ∧ (∀ g ∈ t.grids, g.2.ctx ∈ l → g.2.held = true) ∧
    (OwnNumbers s → ∀ k w, mget s.wgs k = some w → w.ctx ∈ l → ∃ w', mget t.wgs k = some w' ∧ w'.st ≠ .resident) := by
  induction l generalizing s with
  | nil => exact ⟨Departs.refl s, fun _ _ h => absurd h List.not_mem_nil, fun _ _ _ _ h => absurd h List.not_mem_nil⟩
  | cons a l ih =>
    obtain ⟨hl, hg, hw⟩ := s.startSuspend_leaves a
    obtain ⟨il, ig, iw⟩ := ih (s.startSuspend a)
    refine ⟨hl.trans il, fun g hm hc => ?_, fun ho k w hk hc => ?_⟩
    · rcases List.mem_cons.1 hc with e | hc
      · obtain ⟨h, hh, he, hp⟩ := il.grids g hm
        exact hp (hg h hh (he ▸ e))
      · exact ig g hm hc
    · rcases List.mem_cons.1 hc with e | hc
      · obtain ⟨w1, hw1, hs1⟩ := hw ho k w hk e
        obtain ⟨w2, hw2, -, hs2⟩ := il.wg (hl.own ho) k w1 hw1
        exact ⟨w2, hw2, hs2 hs1⟩
      · obtain ⟨w1, hw1, he, -⟩ := hl.wg ho k w hk
        exact iw (hl.own ho) k w1 hw1 (he ▸ hc)

/-- WARM ends every context and leaves STATE as it is (log entry 82). -/
theorem State.bootWarm_ends (s : State) :
    s.bootWarm.regs.bootStep = 0 ∧ s.bootWarm.regs.bootState = s.regs.bootState ∧ (∀ g ∈ s.bootWarm.grids, g.2.held = true) ∧
    (OwnNumbers s → ∀ k w, mget s.wgs k = some w → ∃ w', mget s.bootWarm.wgs k = some w' ∧ w'.st ≠ .resident) := by
  obtain ⟨hl, hg, hw⟩ := State.foldl_startSuspend s.liveCtxs s
  refine ⟨rfl, hl.boot, fun g hm => ?_, fun ho k w hk => hw ho k w hk ?_⟩
  · obtain ⟨h, hh, he, -⟩ := hl.grids g hm
    refine hg g hm (List.mem_eraseDups.2 ?_)
    rw [he]
    exact List.mem_append_left _ (List.mem_append_right _ (List.mem_map.2 ⟨h.2, List.mem_map.2 ⟨h, hh, rfl⟩, rfl⟩))
  · exact List.mem_eraseDups.2 (List.mem_append_left _ (List.mem_append_left _ (List.mem_map.2 ⟨w, List.mem_map.2 ⟨_, mem_of_mget hk, rfl⟩, rfl⟩)))

/-! ### The write-back of a warm reset -/

/-- What the write-back of lines leaves: memory's bytes, the poison it has, RECCTL, the recorders and the registers. -/
structure WritesBack (s t : State) : Prop where
  rest : { t with mem := s.mem, fresh := s.fresh } = s
  cells : t.mem.cells = s.mem.cells
  poison : ∀ k, mhas s.mem.poison k = true → mhas t.mem.poison k = true

theorem WritesBack.refl (s : State) : WritesBack s s := ⟨rfl, rfl, fun _ h => h⟩

theorem WritesBack.trans {s t u : State} (h : WritesBack s t) (g : WritesBack t u) : WritesBack s u := by
  refine ⟨?_, g.cells.trans h.cells, fun k hk => g.poison k (h.poison k hk)⟩
  have := congrArg (fun x : State => { x with mem := s.mem, fresh := s.fresh }) g.rest
  exact this.trans h.rest

theorem WritesBack.foldl {α : Type} {f : State → α → State} (hf : ∀ s a, WritesBack s (f s a)) (l : List α) (s : State) :
    WritesBack s (l.foldl f s) := by
  induction l generalizing s with
  | nil => exact WritesBack.refl s
  | cons a l ih => exact (hf s a).trans (ih _)

theorem WritesBack.evictLine (s : State) (line : Nat) : WritesBack s (s.evictLine line) := by
  unfold State.evictLine State.codeLine
  dsimp only
  split <;> exact ⟨rfl, rfl, fun _ h => h⟩

theorem State.mhas_poisonSector (s : State) (k n : Nat) :
    mhas (s.poisonSector k).mem.poison n = (mhas s.mem.poison n || decide (n = k)) := by
  show mhas (mset s.mem.poison k ()) n = _
  rw [mhas, mget_mset, mhas]
  split <;> next h => simp [h]

theorem WritesBack.poisonSector (s : State) (k : Nat) : WritesBack s (s.poisonSector k) :=
  ⟨rfl, rfl, fun n h => by rw [State.mhas_poisonSector, h]; rfl⟩

theorem State.mhas_physMark {secs : List Nat} {k : Nat} (h : k ∈ secs) (s : State) : mhas (s.physMark secs).mem.poison k = true := by
  induction secs generalizing s with
  | nil => exact absurd h List.not_mem_nil
  | cons a l ih =>
    rcases List.mem_cons.1 h with rfl | h
    · refine (WritesBack.foldl (fun s k => WritesBack.poisonSector s k) l (s.poisonSector k)).poison k ?_
      rw [State.mhas_poisonSector]
      simp
    · exact ih h _

theorem WritesBack.loseLine (s : State) (line : Nat) : WritesBack s (s.loseLine line) := by
  have h := WritesBack.foldl (fun s k => WritesBack.poisonSector s k) (sectorsOf (128 * line) 128) s
  exact h.trans ⟨rfl, rfl, fun _ h => h⟩

theorem mem_sectorsOf_line (line : Nat) {j : Nat} (h : j < 4) : 4 * line + j ∈ sectorsOf (128 * line) 128 := by
  simp only [sectorsOf, List.mem_map, List.mem_range]
  exact ⟨j, by omega, by omega⟩

/-- A line that fails is poisoned and stays so (R512). -/
theorem State.foldl_loseLine {l : List Nat} {line : Nat} (h : line ∈ l) (s : State) {j : Nat} (hj : j < 4) :
    mhas (l.foldl (fun t l => t.loseLine l) s).mem.poison (4 * line + j) = true := by
  induction l generalizing s with
  | nil => exact absurd h List.not_mem_nil
  | cons a l ih =>
    rcases List.mem_cons.1 h with rfl | h
    · refine (WritesBack.foldl WritesBack.loseLine l _).poison _ ?_
      exact State.mhas_physMark (mem_sectorsOf_line line hj) s
    · exact ih h _

theorem mget_map_snd {α β : Type} (f : α → β) (m : SMap α) (k : Nat) : mget (m.map fun e => (e.1, f e.2)) k = (mget m k).map f := by
  induction m with
  | nil => rfl
  | cons e m ih =>
    rw [List.map_cons, mget, mget]
    split
    · rfl
    · exact ih

/-- A warm reset keeps RECCTL and the recorders, MODID, the image and its measurement, and device memory (R512). -/
theorem State.warmReset_keeps (s : State) :
    s.warmReset.regs.bootState = 0 ∧ s.warmReset.regs.bootStep = 1 ∧ s.warmReset.regs.warm = true ∧
    s.warmReset.regs.warms.toNat = min 0xFFFF (s.regs.warms.toNat + 1) ∧ s.warmReset.regs.image = s.regs.image ∧
    s.warmReset.regs.measurement = s.regs.measurement ∧ s.warmReset.regs.modid = s.regs.modid ∧
    s.warmReset.mem = { s.mem with present := [], slots := [], bdq := [] } ∧ s.warmReset.warps = State.reset.warps ∧
    ∀ c, (s.warmReset.cluster c).recctl = (s.cluster c).recctl ∧ (s.warmReset.core c).recidx = (s.core c).recidx := by
  refine ⟨rfl, rfl, rfl, ?_, rfl, rfl, rfl, rfl, rfl, fun c => ⟨?_, ?_⟩⟩
  · show (if s.regs.warms = 0xFFFF#16 then s.regs.warms else s.regs.warms + 1).toNat = _
    split
    · next h => rw [h]; rfl
    · next h =>
      have : s.regs.warms.toNat ≠ 0xFFFF := fun e => h (BitVec.eq_of_toNat_eq e)
      have := s.regs.warms.isLt
      rw [BitVec.toNat_add]
      simp
      omega
  · show (mgetD (s.clusters.map fun e => (e.1, ({ recctl := e.2.recctl } : Cluster))) c {}).recctl = _
    rw [mgetD, mget_map_snd (fun k : Cluster => ({ recctl := k.recctl } : Cluster))]
    unfold State.cluster mgetD
    cases mget s.clusters c <;> rfl
  · show (mgetD (s.cores.map fun e => (e.1, ({ recorder := e.2.recorder, recidx := e.2.recidx } : Core))) c {}).recidx = _
    rw [mgetD, mget_map_snd (fun k : Core => ({ recorder := k.recorder, recidx := k.recidx } : Core))]
    unfold State.core mgetD
    cases mget s.cores c <;> rfl

theorem State.warmDone_resets {s : State} {failed : List Nat} (h0 : s.regs.bootStep = 0) (hc : s.liveCtxs.all s.ctxAtRest = true)
    (he : s.eops = []) :
    ∃ u, s.warmDone failed = State.warmReset u ∧ WritesBack s u ∧
      ∀ l, mhas s.mem.present l = true → l ∈ failed → ∀ j < 4, mhas u.mem.poison (4 * l + j) = true := by
  unfold State.warmDone
  extract_lets rest lost good
  have hr : rest = true := by
    show (s.liveCtxs.all s.ctxAtRest && (mvals s.eops).all (fun o => endsWith o.ctx o)) = true
    rw [hc, he]
    rfl
  have hlost := WritesBack.foldl WritesBack.loseLine lost s
  have hgood := WritesBack.foldl WritesBack.evictLine good (lost.foldl (fun t l => t.loseLine l) s)
  rw [h0, hr]
  refine ⟨_, rfl, hlost.trans hgood, fun l hl hf j hj => hgood.poison _ (State.foldl_loseLine (List.mem_filter.2 ⟨?_, ?_⟩) s hj)⟩
  · obtain ⟨v, hv⟩ := Option.isSome_iff_exists.1 hl
    exact List.mem_map.2 ⟨_, mem_of_mget hv, rfl⟩
  · exact List.contains_iff_mem.2 hf

/-- What a finished write-back of a warm reset leaves. -/
theorem State.warm_writeback {s : State} {failed : List Nat} (h0 : s.regs.bootStep = 0) (hc : s.liveCtxs.all s.ctxAtRest = true)
    (he : s.eops = []) :
    ∃ t, Machine.exec (.warmWritebackDone failed) s = .next t ∧
      t.regs.bootState = 0 ∧ t.regs.bootStep = 1 ∧ t.regs.warm = true ∧ t.regs.warms.toNat = min 0xFFFF (s.regs.warms.toNat + 1) ∧
      t.regs.image = s.regs.image ∧ t.regs.measurement = s.regs.measurement ∧ t.regs.modid = s.regs.modid ∧ t.mem.present = [] ∧
      t.mem.slots = [] ∧ t.mem.cells = s.mem.cells ∧ t.warps = State.reset.warps ∧
      (∀ l, mhas s.mem.present l = true → l ∈ failed → ∀ j < 4, mhas t.mem.poison (4 * l + j) = true) ∧
      ∀ c, (t.cluster c).recctl = (s.cluster c).recctl ∧ (t.core c).recidx = (s.core c).recidx := by
  obtain ⟨u, hu, hw, hp⟩ := State.warmDone_resets (failed := failed) h0 hc he
  have hregs : u.regs = s.regs := by have := congrArg State.regs hw.rest; exact this
  have hcl : u.clusters = s.clusters := by have := congrArg State.clusters hw.rest; exact this
  have hco : u.cores = s.cores := by have := congrArg State.cores hw.rest; exact this
  obtain ⟨r1, r2, r3, r4, r5, r6, r7, rm, rw_, rc⟩ := u.warmReset_keeps
  rw [hregs] at r4 r5 r6 r7
  refine ⟨u.warmReset, congrArg Host.Outcome.next hu, r1, r2, r3, r4, r5, r6, r7, by rw [rm], by rw [rm], by rw [rm]; exact hw.cells, rw_,
    fun l hl hf j hj => by rw [rm]; exact hp l hl hf j hj, fun c => ?_⟩
  obtain ⟨h1, h2⟩ := rc c
  exact ⟨h1.trans (by rw [State.cluster, hcl]; rfl), h2.trans (by rw [State.core, hco]; rfl)⟩

/-! ### Bring-up -/

theorem State.fetchImage_badAddr {s : State} (hw : s.regs.warm = false) (h : s.regs.imgaddr.toNat % 4096 ≠ 0 ∨ isHostPa s.regs.imgaddr.toNat = false) :
    s.fetchImage = .error 5 := by
  unfold State.fetchImage
  extract_lets r a
  rw [if_neg (by rw [show r.warm = false from hw]; simp)]
  rcases h with h | h
  · exact if_pos (by simpa using h)
  · split
    · rfl
    · have hn : s.hostRead a 4096 = none := by
        unfold State.hostRead
        rw [show isHostPa a = false from h]
        rfl
      rw [hn]

theorem State.verifyImage_cases {s : State} (h3 : s.regs.bootStep = 3) (h1 : s.regs.bootState = 1) (e : Nat) (bs : List Byte) :
    (s.fetchImage = .error e → s.verifyImage = s.bootFail e) ∧
    (s.fetchImage = .ok bs → imgForm bs = false → s.verifyImage = s.bootFail 1) ∧
    (s.fetchImage = .ok bs → imgForm bs = true → imgCheck bs ≠ 0 → s.verifyImage = s.bootFail (imgCheck bs)) ∧
    (s.fetchImage = .ok bs → imgForm bs = true → imgCheck bs = 0 → s.verifyImage = s.setRegs { s.regs with
      image := bs, measurement := Config.shake256 bs 64, bootErrc := 0, bootStep := if s.regs.warm then 5 else 4 }) := by
  unfold State.verifyImage
  dsimp only
  rw [h3, h1]
  generalize s.fetchImage = f
  refine ⟨fun h => ?_, fun h hf => ?_, fun h hf hc => ?_, fun h hf hc => ?_⟩ <;> subst h
  · rfl
  · dsimp only
    rw [hf]
    rfl
  · dsimp only
    rw [hf]
    exact (if_neg (by decide)).trans ((if_neg (by decide)).trans (if_pos (by simp [hc])))
  · dsimp only
    rw [hf]
    exact (if_neg (by decide)).trans ((if_neg (by decide)).trans (if_neg (by simp [hc])))

theorem State.zeroing {s : State} (h : s.regs.bootStep = 4) :
    ∃ t, Machine.exec .bootZeroingDone s = .next t ∧ t.regs = { s.regs with bootStep := 5 } ∧ t.mem.present = [] ∧ t.mem.frames = [] ∧
      ∀ a, (a < devTop → Memory.read t.mem.cells a = 0) ∧
        (devTop ≤ a → MemWf s → Memory.read t.mem.cells a = Memory.read s.mem.cells a) := by
  refine ⟨_, congrArg Host.Outcome.next (if_pos h), rfl, rfl, rfl, fun a => ⟨fun ha => ?_, fun ha _ => ?_⟩⟩
  · refine Memory.read_absent fun c hc e => ?_
    have := of_decide_eq_true (List.mem_filter.1 hc).2
    omega
  · exact Memory.read_filter _ _ _ fun b => decide_eq_true ha

/-- The clock steps by the power window (R511). -/
theorem State.power_steps (s : State) (avg : BitVec 12) (junction : Nat) :
    let r := s.regs
    let down := r.pwrcap.toNat < avg.toNat ∨ 100 < junction
    let up := 100 * avg.toNat < 95 * r.pwrcap.toNat ∧ junction ≤ 95
    (down → Machine.exec (.powerWindow avg junction) s = .next (s.setRegs { r with avg := avg, cclk := max 1500 (r.cclk - 100) })) ∧
    (¬down → up → Machine.exec (.powerWindow avg junction) s = .next (s.setRegs { r with avg := avg, cclk := min 3000 (r.cclk + 100) })) ∧
    (¬down → ¬up → Machine.exec (.powerWindow avg junction) s = .next (s.setRegs { r with avg := avg })) := by
  intro r down up
  have e : Machine.exec (.powerWindow avg junction) s = .next (s.setRegs { r with
      avg := avg, cclk := if down then max 1500 (r.cclk - 100) else if up then min 3000 (r.cclk + 100) else r.cclk }) := by
    show Host.Outcome.next (s.powerTick avg junction) = _
    unfold State.powerTick
    simp only [Bool.or_eq_true, Bool.and_eq_true, decide_eq_true_eq]
    rfl
  rw [e]
  exact ⟨fun h => by rw [if_pos h], fun h g => by rw [if_neg h, if_pos g], fun h g => by rw [if_neg h, if_neg g]⟩

theorem State.bootGo_cases (s : State) :
    let r := s.regs
    (r.bootState = 1 ∨ r.bootState = 2 ∨ r.bootStep = 0 ∨ (r.warm = true ∧ r.bootStep = 1) → s.bootGo = s) ∧
    (r.bootState ≠ 1 → r.bootState ≠ 2 → r.bootStep = 1 → r.warm = false → s.bootGo = s.setRegs { r with bootGo := true }) ∧
    (r.bootState ≠ 1 → r.bootState ≠ 2 → r.bootStep ≠ 0 → r.bootStep ≠ 1 →
      s.bootGo = s.setRegs { r with bootState := 1, bootErrc := 0, bootStep := 3, image := [] }) := by
  intro r
  have e : s.bootGo = if r.bootState = 1 ∨ r.bootState = 2 ∨ r.bootStep = 0 ∨ (r.warm = true ∧ r.bootStep = 1) then s
      else if r.bootStep = 1 then s.setRegs { r with bootGo := true }
      else s.setRegs { r with bootState := 1, bootErrc := 0, bootStep := 3, image := [] } := by
    unfold State.bootGo
    simp only [Bool.and_eq_true, beq_iff_eq]
    rfl
  rw [e]
  refine ⟨fun h => if_pos h, fun h1 h2 h3 h4 => ?_, fun h1 h2 h3 h4 => ?_⟩
  · rw [if_neg (by rw [h3, h4]; simp [h1, h2]), if_pos h3]
  · rw [if_neg (by simp [h1, h2, h3, h4]), if_neg h4]

theorem State.selftest_cases {s : State} (h1 : s.regs.bootStep = 1) (h0 : s.regs.bootState = 0) :
    s.selftestDone false = s.bootFail 6 ∧
    (s.regs.warm = true ∨ s.regs.bootGo = true → s.selftestDone true = s.setRegs { s.regs with bootState := 1, bootStep := 3, bootGo := false }) ∧
    (s.regs.warm = false → s.regs.bootGo = false → s.selftestDone true = s.setRegs { s.regs with bootStep := 2 }) := by
  unfold State.selftestDone
  dsimp only
  rw [h1, h0]
  refine ⟨rfl, fun h => (if_neg (by decide)).trans ((if_neg (by decide)).trans (if_pos (by simpa using h))), fun h g => ?_⟩
  rw [h, g]
  rfl

/-- Settles O59. STATE stays as it is while a warm reset's contexts end (log entry 82); GO is kept in step 1 and lost during the
write-back (log entry 81), a warm reset empties the code slots (log entry 80), and a cold reset leaves no line in the L2, no
translation and epoch 0 (log entries 3, 4 and 5). -/
theorem bootEvents : Obligations.BootEvents := by
  unfold Obligations.BootEvents
  intro s ok bs e junction failed avg r fails
  have next : ∀ {t u : State}, t = u → (Host.Outcome.next t : Host.Outcome State Fault Refusal) = .next u := congrArg _
  obtain ⟨hgo1, hgo2, hgo3⟩ := s.bootGo_cases
  refine ⟨fun h => next (hgo1 h), fun a b c d => next (hgo2 a b c d), fun a b c d => next (hgo3 a b c d), fun h => next ?_, fun h1 h0 => ?_,
    fun h => next ?_, fun h3 h1 => ?_, fun hw h => State.fetchImage_badAddr hw h, fun h => next (if_neg h), State.zeroing,
    fun h => next (if_neg h), fun h => next (if_pos h), ⟨_, rfl, rfl, rfl, rfl, rfl, rfl, rfl, rfl, rfl, rfl, rfl, rfl⟩,
    ⟨_, rfl, s.bootWarm_ends⟩, fun h => next ?_, State.warm_writeback, s.power_steps avg junction, fun h => next (if_neg h),
    fun h => next (if_pos h)⟩
  · unfold State.selftestDone
    exact if_pos (by rcases h with h | h <;> simp [r] at h <;> simp [h])
  · obtain ⟨h2, h3, h4⟩ := State.selftest_cases h1 h0
    exact ⟨next h2, fun h => next (h3 h), fun h g => next (h4 h g)⟩
  · unfold State.verifyImage
    exact if_pos (by rcases h with h | h <;> simp [r] at h <;> simp [h])
  · obtain ⟨he, hf, hc, hok⟩ := State.verifyImage_cases h3 h1 e bs
    exact ⟨fun h => next (he h), fun h f => next (hf h f), fun h f c => next (hc h f c), fun h f c => next (hok h f c)⟩
  · unfold State.warmDone
    exact if_pos (by simp [show s.regs.bootStep ≠ 0 from h])

end Sys2Proof.Machine
end

section
/-! A write at a place that is at hand, in memory or in a workgroup's store: its bytes, and every other byte as it was. -/

namespace Sys2Proof.Machine

section
variable {s t : State}

theorem State.locRead_congr (hm : t.mem = s.mem) (hr : t.regs = s.regs) (hw : t.wgs = s.wgs) (l : Loc) (n : Nat) :
    t.locRead l n = s.locRead l n := by
  cases l with
  | phys a => exact State.physRead_congr hm hr a n
  | sp g a => show (mget t.wgs g).elim _ _ = _; rw [hw]; rfl
  | ac g a => show (mget t.wgs g).elim _ _ = _; rw [hw]; rfl

theorem State.linkFails_congr (hm : t.mem = s.mem) (hr : t.regs = s.regs) (pa n : Nat) : t.linkFails pa n = s.linkFails pa n := by
  unfold State.linkFails State.hostFails State.isRemote State.linkUp State.normPa State.ownAcc
  rw [hm, hr]

theorem State.locPoison_congr (hm : t.mem = s.mem) (hr : t.regs = s.regs) (hw : t.wgs = s.wgs) (l : Loc) (n : Nat) :
    t.locPoison l n = s.locPoison l n := by
  cases l with
  | phys a =>
    show t.physPoison a n = s.physPoison a n
    unfold State.physPoison State.normPa State.ownAcc
    rw [State.linkFails_congr hm hr, hm, hr]
  | sp g a => show (mget t.wgs g).elim _ _ = _; rw [hw]; rfl
  | ac g a => show (mget t.wgs g).elim _ _ = _; rw [hw]; rfl

theorem State.atHand_congr (hm : t.mem = s.mem) (hw : t.wgs = s.wgs) (l : Loc) (n : Nat) : t.atHand l n = s.atHand l n := by
  cases l with
  | phys a => show (_ && _) = _; rw [hm]; rfl
  | sp g a => show mhas t.wgs g = _; rw [hw]; rfl
  | ac g a => show mhas t.wgs g = _; rw [hw]; rfl

end

/-- A write at a place: what is read there and elsewhere, and what stays. -/
structure LocWrite (s t : State) (l : Loc) (bs : List Byte) : Prop where
  rest : { t with mem := s.mem, wgs := s.wgs, outbox := s.outbox } = s
  atHand : ∀ m k, t.atHand m k = s.atHand m k
  read : t.locRead l bs.length = bs
  frame : ∀ m, s.byteIn l bs.length m = none → t.locRead m 1 = s.locRead m 1
  clean : ∀ m k, s.locPoison m k = false → t.locPoison m k = false

section
variable {s : State}

theorem Memory.readN_one (m : List Host.Cell) (a : Nat) : Memory.readN m a 1 = [Memory.read m a] := rfl

theorem Memory.readN_write_other (m : List Host.Cell) {a b : Nat} (bs : List Byte) (h : ¬ (a ≤ b ∧ b < a + bs.length)) :
    Memory.readN (Memory.write m a bs) b 1 = Memory.readN m b 1 := by
  rw [Memory.readN_one, Memory.readN_one, Memory.read_write_other _ _ _ (by omega)]

theorem any_uncover {m : SMap Unit} {l : List Nat} (o n : Nat) (h : l.any (fun k => mhas m k) = false) :
    l.any (fun k => mhas (uncover m o n) k) = false := by
  refine List.any_eq_false.2 fun k hk hu => List.any_eq_false.1 h k hk ?_
  rw [uncover, mhas_filter_key m (fun k => !(coveredSectors o n).contains k)] at hu
  exact (Bool.and_eq_true _ _ ▸ hu : _ ∧ _).1

theorem mhas_of_mget {α : Type} {m : SMap α} {k : Nat} {v : α} (h : mget m k = some v) : mhas m k = true := by rw [mhas, h]; rfl

theorem mhas_mset_present {α : Type} {m : SMap α} {k : Nat} {v w : α} (h : mget m k = some v) (n : Nat) : mhas (mset m k w) n = mhas m n := by
  rw [mhas, mget_mset]
  split
  · next e => rw [e, mhas, h]; rfl
  · rfl

theorem State.locWrite_phys {pa : Nat} {bs : List Byte} (h : Held s pa bs.length) (h0 : bs ≠ []) (r : Requester) :
    LocWrite s (s.locWrite (.phys pa) bs r) (.phys pa) bs := by
  have hw := h.write h0 r
  obtain ⟨-, -, -, hr, hp⟩ := h.physWrite_fields h0 r
  have hn := h.normPa
  show LocWrite s (s.physWrite pa bs r) (.phys pa) bs
  generalize s.physWrite pa bs r = t at *
  have hwg : t.wgs = s.wgs := hw.wgs
  refine ⟨?_, fun m k => ?_, hw.physRead hn, fun m hm => ?_, fun m k hc => ?_⟩
  · have hrest := hw.rest
    have := congrArg (fun x : State => { x with wgs := s.wgs }) hrest
    exact this
  · cases m with
    | phys b =>
      show (!isWindow b && (sectorsOf b k).all t.mem.inL2) = _
      rw [funext hw.inL2]
      rfl
    | sp g a => show mhas t.wgs g = _; rw [hwg]; rfl
    | ac g a => show mhas t.wgs g = _; rw [hwg]; rfl
  · cases m with
    | phys b =>
      show Memory.readN t.mem.cells (t.normPa b) 1 = Memory.readN s.mem.cells (s.normPa b) 1
      rw [hw.normPa, hw.cells]
      refine Memory.readN_write_other _ _ fun hc => ?_
      have : s.byteIn (.phys pa) bs.length (.phys b) = some (s.normPa b - pa) := if_pos hc
      rw [this] at hm
      exact absurd hm nofun
    | sp g a => show (mget t.wgs g).elim _ _ = _; rw [hwg]; rfl
    | ac g a => show (mget t.wgs g).elim _ _ = _; rw [hwg]; rfl
  · cases m with
    | phys b =>
      obtain ⟨h1, h2⟩ := Bool.or_eq_false_iff.1 (hc : s.physPoison b k = false)
      have hl : t.linkFails b k = s.linkFails b k := by
        unfold State.linkFails State.hostFails State.isRemote State.linkUp
        rw [hw.normPa, hr, funext hw.inL2]
      show (_ || _) = false
      rw [hl, h2, Bool.or_false, hw.normPa]
      rcases Bool.and_eq_false_iff.1 h1 with h1 | h1
      · rw [h1, Bool.false_and]
      · rw [Bool.and_eq_false_iff]
        refine .inr (List.any_eq_false.2 fun i hi hu => List.any_eq_false.1 h1 i hi ?_)
        rw [hp] at hu
        exact (Bool.and_eq_true _ _ ▸ hu : _ ∧ _).1
    | sp g a => show (mget t.wgs g).elim _ _ = _; rw [hwg]; exact hc
    | ac g a => show (mget t.wgs g).elim _ _ = _; rw [hwg]; exact hc

theorem ownNumber_of_wf (h : MemWf s) {g : Nat} {w : Wg} (hw : mget s.wgs g = some w) : w.id = g := (h.2 _ (mem_of_mget hw)).1

theorem State.modWg_eq {g : Nat} {w : Wg} {f : Wg → Wg} (hw : mget s.wgs g = some w) (hf : (f w).id = g) :
    s.modWg g f = { s with wgs := mset s.wgs g (f w) } := by
  unfold State.modWg
  rw [hw]
  show { s with wgs := mset s.wgs (f w).id (f w) } = _
  rw [hf]

/-- A change of a workgroup's scratchpad or accumulators that leaves what `q` reads of it. -/
theorem elim_mset_wg {α : Type} {m : SMap Wg} {g : Nat} {w w' : Wg} (hw : mget m g = some w) (k : Nat) (d : α) (q : Wg → α)
    (hq : k = g → q w' = q w) : (mget (mset m g w') k).elim d q = (mget m k).elim d q := by
  rw [mget_mset]
  split
  · next e =>
    rw [e, hw]
    exact hq e
  · rfl

/-- Where a workgroup's poison only goes, what was clean stays clean. -/
theorem elim_mset_clean {m : SMap Wg} {g : Nat} {w w' : Wg} (hw : mget m g = some w) (k : Nat) (q : Wg → Bool)
    (hq : q w = false → q w' = false) (hc : (mget m k).elim false q = false) : (mget (mset m g w') k).elim false q = false := by
  rw [mget_mset]
  split
  · next e =>
    rw [e, hw] at hc
    exact hq hc
  · exact hc

theorem and_any_uncover {m : SMap Unit} {l : List Nat} (b : Bool) (o n : Nat) (h : (b && l.any (fun k => mhas m k)) = false) :
    (b && l.any (fun k => mhas (uncover m o n) k)) = false := by
  rcases Bool.and_eq_false_iff.1 h with h | h
  · exact Bool.and_eq_false_iff.2 (.inl h)
  · exact Bool.and_eq_false_iff.2 (.inr (any_uncover _ _ h))

theorem State.locWrite_sp {g a : Nat} {bs : List Byte} (hwf : MemWf s) (h : mhas s.wgs g = true) (r : Requester) :
    LocWrite s (s.locWrite (.sp g a) bs r) (.sp g a) bs := by
  obtain ⟨w, hw⟩ := Option.isSome_iff_exists.1 h
  rw [show s.locWrite (.sp g a) bs r = _ from State.modWg_eq hw (ownNumber_of_wf hwf hw :)]
  refine ⟨rfl, fun m k => ?_, ?_, fun m hm => ?_, fun m k hc => ?_⟩
  · cases m with
    | phys b => rfl
    | sp u b => exact mhas_mset_present hw u
    | ac u b => exact mhas_mset_present hw u
  · show (mget (mset s.wgs g _) g).elim _ _ = bs
    rw [mget_mset_same]
    exact Memory.readN_write ..
  · cases m with
    | phys b => rfl
    | sp u b =>
      refine elim_mset_wg hw u _ _ fun e => Memory.readN_write_other _ _ fun hc => ?_
      have : s.byteIn (.sp g a) bs.length (.sp u b) = some (b - a) := if_pos ⟨e.symm, hc.1, hc.2⟩
      rw [this] at hm
      exact absurd hm nofun
    | ac u b => exact elim_mset_wg hw u _ _ fun _ => rfl
  · cases m with
    | phys b => exact hc
    | sp u b => exact elim_mset_clean hw u _ (and_any_uncover _ _ _) hc
    | ac u b => exact elim_mset_clean hw u _ id hc

theorem State.locWrite_ac {g a : Nat} {bs : List Byte} (hwf : MemWf s) (h : mhas s.wgs g = true) (r : Requester) :
    LocWrite s (s.locWrite (.ac g a) bs r) (.ac g a) bs := by
  obtain ⟨w, hw⟩ := Option.isSome_iff_exists.1 h
  rw [show s.locWrite (.ac g a) bs r = _ from State.modWg_eq hw (ownNumber_of_wf hwf hw :)]
  refine ⟨rfl, fun m k => ?_, ?_, fun m hm => ?_, fun m k hc => ?_⟩
  · cases m with
    | phys b => rfl
    | sp u b => exact mhas_mset_present hw u
    | ac u b => exact mhas_mset_present hw u
  · show (mget (mset s.wgs g _) g).elim _ _ = bs
    rw [mget_mset_same]
    exact Memory.readN_write ..
  · cases m with
    | phys b => rfl
    | sp u b => exact elim_mset_wg hw u _ _ fun _ => rfl
    | ac u b =>
      refine elim_mset_wg hw u _ _ fun e => Memory.readN_write_other _ _ fun hc => ?_
      have : s.byteIn (.ac g a) bs.length (.ac u b) = some (b - a) := if_pos ⟨e.symm, hc.1, hc.2⟩
      rw [this] at hm
      exact absurd hm nofun
  · cases m with
    | phys b => exact hc
    | sp u b => exact elim_mset_clean hw u _ id hc
    | ac u b => exact elim_mset_clean hw u _ (and_any_uncover _ _ _) hc

/-- A write at a place that is at hand. -/
theorem State.locWrite_atHand {l : Loc} {bs : List Byte} (hwf : MemWf s) (h : s.atHand l bs.length = true) (h0 : bs ≠ []) (r : Requester) :
    LocWrite s (s.locWrite l bs r) l bs := by
  match l, h with
  | .phys a, h => exact State.locWrite_phys (held_of_atHand h) h0 r
  | .sp g a, h => exact State.locWrite_sp hwf h r
  | .ac g a, h => exact State.locWrite_ac hwf h r

end

end Sys2Proof.Machine
end

section
/-! ATOM_COMPLETE (R134, R337): the lanes of an atomic at one place, in ascending order. -/

namespace Sys2Proof.Machine

/-- The value that a location takes from an atomic of lane `L`. -/
def atomLaneValue (o : MemOp) (x : AtomArgs) (m L : Nat) : Nat :=
  (atomNew x.aop x.ty m ((mgetD o.data L 0).toNat % 2 ^ x.ty.width) (mgetD o.cmp L 0).toNat).getD m % 2 ^ x.ty.width

section
variable {s : State} {l : Loc} {ty : ITy} {op : AOp} {b c : Nat} {r : Requester}

theorem State.atomAt_poisoned (h : s.atHand l (ty.width / 8) = true) (hp : s.locPoison l (ty.width / 8) = true) :
    s.atomAt l op ty b c r = (0, true, s) := by
  unfold State.atomAt
  dsimp only
  rw [State.locTouch_atHand h, if_pos hp]

theorem State.atomAt_clean (h : s.atHand l (ty.width / 8) = true) (hp : s.locPoison l (ty.width / 8) = false) :
    s.atomAt l op ty b c r = (leNat (s.locRead l (ty.width / 8)), false,
      (atomNew op ty (leNat (s.locRead l (ty.width / 8))) b c).elim s fun v => s.locWrite l (toLe (ty.width / 8) v) r) := by
  unfold State.atomAt
  dsimp only
  rw [State.locTouch_atHand h, if_neg (by rw [hp]; decide)]
  cases atomNew op ty (leNat (s.locRead l (ty.width / 8))) b c <;> rfl

theorem ITy.pow_width (ty : ITy) : 2 ^ ty.width = 256 ^ (ty.width / 8) := by
  rw [show (256 : Nat) = 2 ^ 8 from rfl, ← Nat.pow_mul, ← (ITy.width_pos ty).2]

theorem State.locRead_length (s : State) (l : Loc) (n : Nat) : (s.locRead l n).length = n := by
  cases l with
  | phys a => exact Memory.readN_length ..
  | sp g a =>
    unfold State.locRead
    dsimp only
    cases mget s.wgs g with
    | none => simp
    | some w => exact Memory.readN_length ..
  | ac g a =>
    unfold State.locRead
    dsimp only
    cases mget s.wgs g with
    | none => simp
    | some w => exact Memory.readN_length ..

end

/-- What lanes of an atomic at the place `l` leave, besides the place's own bytes and the registers of `who`. -/
structure AtomFrame (who : Nat) (l : Loc) (n : Nat) (s t : State) : Prop where
  rest : { t with mem := s.mem, wgs := s.wgs, outbox := s.outbox, warps := s.warps } = s
  warps : ∀ j, j ≠ who → t.warp j = s.warp j
  noblocks : { t.warp who with blocks := [] } = { s.warp who with blocks := [] }
  atHand : t.atHand l n = s.atHand l n
  frame : ∀ m, s.byteIn l n m = none → t.locRead m 1 = s.locRead m 1
  byteIn : ∀ m, t.byteIn l n m = s.byteIn l n m
  clean : s.locPoison l n = false → t.locPoison l n = false
  wf : MemWf s → MemWf t
  has : mhas s.warps who = true → mhas t.warps who = true

section
variable {who n : Nat} {l : Loc} {s t u : State}

theorem AtomFrame.refl (s : State) : AtomFrame who l n s s :=
  ⟨rfl, fun _ _ => rfl, rfl, rfl, fun _ _ => rfl, fun _ => rfl, id, id, id⟩

theorem AtomFrame.trans (h : AtomFrame who l n s t) (g : AtomFrame who l n t u) : AtomFrame who l n s u where
  rest := by
    have := congrArg (fun x : State => { x with mem := s.mem, wgs := s.wgs, outbox := s.outbox, warps := s.warps }) g.rest
    exact this.trans h.rest
  warps j hj := (g.warps j hj).trans (h.warps j hj)
  noblocks := g.noblocks.trans h.noblocks
  atHand := g.atHand.trans h.atHand
  frame m hm := (g.frame m ((h.byteIn m).trans hm)).trans (h.frame m hm)
  byteIn m := (g.byteIn m).trans (h.byteIn m)
  clean := g.clean ∘ h.clean
  wf := g.wf ∘ h.wf
  has := g.has ∘ h.has

theorem State.byteIn_congr (hr : t.regs = s.regs) (m : Loc) : t.byteIn l n m = s.byteIn l n m := by
  unfold State.byteIn State.normPa State.ownAcc
  rw [hr]

theorem LocWrite.atomFrame {bs : List Byte} (h : LocWrite s t l bs) (hn : bs.length = n) (hwf : MemWf s → MemWf t) :
    AtomFrame who l n s t := by
  have hw : t.warps = s.warps := by have := congrArg State.warps h.rest; exact this
  have hr : t.regs = s.regs := by have := congrArg State.regs h.rest; exact this
  refine ⟨?_, fun j _ => by rw [State.warp, hw]; rfl, by rw [State.warp, hw]; rfl, h.atHand l n, fun m hm => h.frame m (hn ▸ hm),
    State.byteIn_congr hr, fun hc => h.clean l n hc, hwf, by rw [hw]; exact id⟩
  have := congrArg (fun x : State => { x with warps := s.warps }) h.rest
  exact this

end

/-- A thread whose long-latency results go to its own registers: it is on its slot, and outside trap context. -/
structure LiveRegs (s : State) (who : Nat) : Prop where
  home : s.isAway who = false
  calm : (s.ctl who).inTrap = false

section
variable {s : State} {who : Nat}

theorem LiveRegs.regAt (h : LiveRegs s who) (r : Nat) (handler : Bool) : s.regAt who r handler = .live := by
  unfold State.regAt
  rw [h.home, h.calm]
  simp

theorem LiveRegs.putLong (h : LiveRegs s who) (r L : Nat) (handler : Bool) (v m : W32) (p : Bool) :
    s.putLong who r L handler v m p = s.modWarp who (fun w => w.setReg r L ((w.reg r L).put v m p)) := by
  unfold State.putLong
  rw [h.regAt]

theorem LaneReg.put_all (old : LaneReg) (v : W32) (p : Bool) : old.put v (BitVec.allOnes 32) p = ⟨v, p⟩ := by
  rw [LaneReg.put, merge_allOnes]
  simp

end

/-- Registers `r` to `r + n - 1` of lane `L` take the 32-bit parts of a value, but for those of `keep`. -/
def Warp.putParts (w : Warp) (keep : Nat → Bool) (r L v : Nat) (p : Bool) : Nat → Warp
  | 0 => w
  | n + 1 =>
    let u := w.putParts keep r L v p n
    if keep (r + n) then u else u.setReg (r + n) L ⟨BitVec.ofNat 32 (v / 2 ^ (32 * n)), p⟩

section
variable {w : Warp} {keep : Nat → Bool} {r L v : Nat} {p : Bool}

theorem Warp.putParts_noblocks (n : Nat) : { w.putParts keep r L v p n with blocks := [] } = { w with blocks := [] } := by
  induction n with
  | zero => rfl
  | succ n ih =>
    unfold Warp.putParts
    dsimp only
    split
    · exact ih
    · exact ih

theorem Warp.putParts_reg (hL : L < 128) (n q M : Nat) (hM : M < 128) :
    (w.putParts keep r L v p n).reg q M = if M = L ∧ r ≤ q ∧ q < r + n ∧ keep q = false then ⟨BitVec.ofNat 32 (v / 2 ^ (32 * (q - r))), p⟩
      else w.reg q M := by
  induction n with
  | zero => rw [if_neg (by omega)]; rfl
  | succ n ih =>
    unfold Warp.putParts
    dsimp only
    by_cases hk : keep (r + n) = true
    · rw [if_pos hk, ih]
      refine if_congr ⟨fun ⟨a, b, c, d⟩ => ⟨a, b, by omega, d⟩, fun ⟨a, b, c, d⟩ => ⟨a, b, ?_, d⟩⟩ rfl rfl
      have : q ≠ r + n := fun e => by rw [e, hk] at d; exact absurd d nofun
      omega
    · rw [if_neg hk]
      by_cases e : q = r + n ∧ M = L
      · rw [e.1, e.2, Warp.reg_setReg, if_pos ⟨rfl, by omega, by omega, by simpa using hk⟩, Nat.add_sub_cancel_left]
      · rw [Warp.reg_setReg_other _ _ hL hM (by omega), ih]
        exact if_congr ⟨fun ⟨a, b, c, d⟩ => ⟨a, b, by omega, d⟩, fun ⟨a, b, c, d⟩ => ⟨a, b, by omega, d⟩⟩ rfl rfl

end

/-- One thread's registers are those of `w`, and nothing else is touched. -/
structure OnlyWarp (who : Nat) (s t : State) (w : Warp) : Prop where
  rest : { t with warps := s.warps } = s
  warp : t.warp who = w
  others : ∀ j, j ≠ who → t.warp j = s.warp j
  has : ∀ j, mhas s.warps j = true → mhas t.warps j = true

section
variable {s t : State} {who : Nat} {w : Warp}

theorem OnlyWarp.refl (s : State) (who : Nat) : OnlyWarp who s s (s.warp who) := ⟨rfl, rfl, fun _ _ => rfl, fun _ => id⟩

theorem OnlyWarp.modWarp (h : OnlyWarp who s t w) (f : Warp → Warp) : OnlyWarp who s (t.modWarp who f) (f w) where
  rest := by
    have := h.rest
    exact this
  warp := by
    show mgetD (mset t.warps who (f (t.warp who))) who {} = f w
    rw [mgetD_mset_same, h.warp]
  others j hj := (mgetD_mset_other t.warps (f (t.warp who)) {} hj).trans (h.others j hj)
  has j hj := by
    show mhas (mset t.warps who _) j = true
    rw [mhas, mget_mset]
    split
    · rfl
    · exact h.has j hj

theorem OnlyWarp.live (h : OnlyWarp who s t w) (hl : LiveRegs s who) : LiveRegs t who := by
  have hc : t.ctls = s.ctls := by have := congrArg State.ctls h.rest; exact this
  refine ⟨?_, ?_⟩
  · rw [State.isAway, hc]
    exact hl.home
  · rw [State.ctl, hc]
    exact hl.calm

/-- The result of a lane of an atomic in the registers of a thread that is on its slot (R249, R337). -/
theorem State.putResult_atom (hl : LiveRegs s who) {o : MemOp} (ho : o.who = who) {x : AtomArgs} (hi : o.instr = .atom x) (L v : Nat) (p : Bool) :
    OnlyWarp who s (s.putResult o L v p) ((mget o.dst L).elim (s.warp who) fun r =>
      (s.warp who).putParts (fun q => o.outdone.contains (128 * q + L)) r L v p (dstWidth o.instr)) := by
  unfold State.putResult
  cases mget o.dst L with
  | none => exact OnlyWarp.refl s who
  | some r =>
    rw [hi]
    dsimp only [Option.elim_some]
    generalize dstWidth (.atom x) = n
    induction n with
    | zero => exact OnlyWarp.refl s who
    | succ n ih =>
      rw [List.range_succ, List.foldl_append]
      generalize (List.range n).foldl _ s = t at ih ⊢
      unfold Warp.putParts
      dsimp only [List.foldl_cons, List.foldl_nil]
      split
      · exact ih
      · rw [ho, (ih.live hl).putLong]
        simp only [LaneReg.put_all]
        exact ih.modWarp _

end

section
variable {s : State} {who : Nat} {l : Loc} {o : MemOp} {x : AtomArgs} {p : Place}

/-- A lane of an atomic at a place that is at hand: what it delivers, and what the place holds then. -/
theorem State.atomLane_atHand (hp : p.loc = some l) (hac : ∀ g a, l ≠ .ac g a) (hi : o.instr = .atom x)
    (h : s.atHand l (x.ty.width / 8) = true) (L : Nat) :
    s.atomLane o x L p = s.atomAt l x.aop x.ty ((mgetD o.data L 0).toNat % 2 ^ x.ty.width) (mgetD o.cmp L 0).toNat (opReq o) := by
  unfold State.atomLane
  cases p with
  | phys pa leaf =>
    cases Option.some.inj hp
    have hn : accBytes o.instr = x.ty.width / 8 := by
      rw [hi]
      show (if x.ty.is64 then 8 else 4) = (if x.ty.is64 then 64 else 32) / 8
      split <;> rfl
    have hf := (held_of_atHand h).linkFails
    have : s.laneError o L (.phys pa leaf) = s := by
      unfold State.laneError State.linkError
      dsimp only
      rw [hn, hf, if_neg (by rw [(Bool.or_eq_false_iff.1 hf).1]; decide)]
      rfl
    dsimp only
    rw [this]
  | sp w off => cases Option.some.inj hp; rfl
  | ac w off => cases Option.some.inj hp; exact absurd rfl (hac _ _)
  | bad c => exact absurd hp nofun
  | mmio a => exact absurd hp nofun
  | reg r => exact absurd hp nofun
  | page t off spc cl => exact absurd hp nofun

/-- What one lane's atomic at the place leaves, and what the place holds then. -/
theorem State.atomLane_step (hp : p.loc = some l) (hac : ∀ g a, l ≠ .ac g a) (hi : o.instr = .atom x) (hwf : MemWf s)
    (h : s.atHand l (x.ty.width / 8) = true) (L : Nat) :
    ∃ t, s.atomLane o x L p = (if s.locPoison l (x.ty.width / 8) = true then 0 else leNat (s.locRead l (x.ty.width / 8)),
        s.locPoison l (x.ty.width / 8), t) ∧ AtomFrame who l (x.ty.width / 8) s t ∧ t.warps = s.warps ∧
      (s.locPoison l (x.ty.width / 8) = true → t = s) ∧
      (s.locPoison l (x.ty.width / 8) = false →
        leNat (t.locRead l (x.ty.width / 8)) = atomLaneValue o x (leNat (s.locRead l (x.ty.width / 8))) L) := by
  rw [State.atomLane_atHand hp hac hi h]
  cases hq : s.locPoison l (x.ty.width / 8) with
  | true => exact ⟨s, by rw [State.atomAt_poisoned h hq]; rfl, AtomFrame.refl s, rfl, fun _ => rfl, nofun⟩
  | false =>
    rw [State.atomAt_clean h hq]
    refine ⟨_, rfl, ?_⟩
    unfold atomLaneValue
    cases atomNew x.aop x.ty (leNat (s.locRead l (x.ty.width / 8))) ((mgetD o.data L 0).toNat % 2 ^ x.ty.width) (mgetD o.cmp L 0).toNat with
    | none =>
      refine ⟨AtomFrame.refl s, rfl, nofun, fun _ => (Nat.mod_eq_of_lt ?_).symm⟩
      have := leNat_lt (s.locRead l (x.ty.width / 8))
      rwa [State.locRead_length, ← ITy.pow_width] at this
    | some v =>
      have hlen := toLe_length (x.ty.width / 8) v
      have h0 : toLe (x.ty.width / 8) v ≠ [] := fun e => by rw [e] at hlen; exact absurd hlen.symm (ITy.width_pos x.ty).1.ne'
      have hw := State.locWrite_atHand hwf (by rw [hlen]; exact h) h0 (opReq o)
      rw [Option.elim_some]
      refine ⟨hw.atomFrame hlen fun g => g.locWrite .., ?_, nofun, fun _ => ?_⟩
      · have := congrArg State.warps hw.rest
        exact this
      · have hr := hw.read
        rw [hlen] at hr
        rw [hr, leNat_toLe, ITy.pow_width]
        rfl

/-- What the lanes of an atomic leave: the place with the last lane's value, and each lane's registers with what it saw. -/
structure AtomLanes (who : Nat) (l : Loc) (o : MemOp) (x : AtomArgs) (ls : List Nat) (s t : State) : Prop where
  frame : AtomFrame who l (x.ty.width / 8) s t
  value : s.locPoison l (x.ty.width / 8) = false →
    leNat (t.locRead l (x.ty.width / 8)) = ls.foldl (atomLaneValue o x) (leNat (s.locRead l (x.ty.width / 8)))
  poisoned : s.locPoison l (x.ty.width / 8) = true → t.locRead l (x.ty.width / 8) = s.locRead l (x.ty.width / 8)
  others : ∀ L < 128, L ∉ ls → ∀ q, (t.warp who).reg q L = (s.warp who).reg q L
  delivers : x.noret = false → ∀ i L r, ls[i]? = some L → mget o.dst L = some r → ∀ k < dstWidth o.instr,
    (t.warp who).reg (r + k) L = if o.outdone.contains (128 * (r + k) + L) = true then (s.warp who).reg (r + k) L
      else if s.locPoison l (x.ty.width / 8) = true then ⟨0, true⟩
      else ⟨BitVec.ofNat 32 ((ls.take i |>.foldl (atomLaneValue o x) (leNat (s.locRead l (x.ty.width / 8)))) / 2 ^ (32 * k)), false⟩
  quiet : x.noret = true → (t.warp who).blocks = (s.warp who).blocks

theorem OnlyWarp.atomFrame {n : Nat} {t : State} {w : Warp} (h : OnlyWarp who s t w)
    (hw : { w with blocks := [] } = { s.warp who with blocks := [] }) : AtomFrame who l n s t := by
  have hm : t.mem = s.mem := by have := congrArg State.mem h.rest; exact this
  have hr : t.regs = s.regs := by have := congrArg State.regs h.rest; exact this
  have hg : t.wgs = s.wgs := by have := congrArg State.wgs h.rest; exact this
  refine ⟨?_, h.others, by rw [h.warp]; exact hw, State.atHand_congr hm hg l n, fun m _ => State.locRead_congr hm hr hg m 1,
    State.byteIn_congr hr, fun hc => (State.locPoison_congr hm hr hg l n).trans hc, fun g => g.congr (by rw [hm]) hg, h.has who⟩
  have := congrArg (fun x : State => { x with mem := s.mem, wgs := s.wgs, outbox := s.outbox }) h.rest
  exact this

theorem AtomFrame.live {n : Nat} {t : State} (h : AtomFrame who l n s t) (hl : LiveRegs s who) : LiveRegs t who := by
  have hc : t.ctls = s.ctls := by have := congrArg State.ctls h.rest; exact this
  refine ⟨?_, ?_⟩
  · rw [State.isAway, hc]
    exact hl.home
  · rw [State.ctl, hc]
    exact hl.calm

end

section
variable {s : State} {who : Nat} {l : Loc} {o : MemOp} {x : AtomArgs} {p : Place}

/-- One lane with its registers. -/
theorem State.atomLane_result (hp : p.loc = some l) (hac : ∀ g a, l ≠ .ac g a) (hi : o.instr = .atom x) (ho : o.who = who) (hwf : MemWf s)
    (hl : LiveRegs s who) (h : s.atHand l (x.ty.width / 8) = true) {L : Nat} (hL : L < 128) :
    let n := x.ty.width / 8
    ∃ u, (∀ rest, s.atomLanes o x ((L, p) :: rest) = u.atomLanes o x rest) ∧ AtomLanes who l o x [L] s u ∧
      u.locPoison l n = s.locPoison l n := by
  intro n
  obtain ⟨t, ht, hf, hw, hpo, hcl⟩ := State.atomLane_step (who := who) hp hac hi hwf h L
  have hpt : t.locPoison l n = s.locPoison l n := by
    cases hq : s.locPoison l n with
    | true => rw [hpo hq]; exact hq
    | false => exact hf.clean hq
  have hreg : ∀ j, t.warp j = s.warp j := fun j => by rw [State.warp, hw]; rfl
  generalize hv : (if s.locPoison l n = true then 0 else leNat (s.locRead l n)) = v at ht
  refine ⟨if x.noret then t else t.putResult o L v (s.locPoison l n), fun rest => ?_, ?_⟩
  · rw [State.atomLanes, ht]
  cases hx : x.noret with
  | true =>
    refine ⟨⟨hf, hcl, fun e => by rw [if_pos rfl, hpo e], fun M _ _ q => by rw [if_pos rfl, hreg], fun e => absurd (hx.symm.trans e) nofun,
      fun _ => by rw [if_pos rfl, hreg]⟩, hpt⟩
  | false =>
    rw [if_neg Bool.false_ne_true]
    have hr := State.putResult_atom (hf.live hl) ho hi L v (s.locPoison l n)
    rw [hreg] at hr
    generalize t.putResult o L v (s.locPoison l n) = u at hr ⊢
    have hnb : ∀ w : Warp, w = ((mget o.dst L).elim (s.warp who) fun r =>
        (s.warp who).putParts (fun q => o.outdone.contains (128 * q + L)) r L v (s.locPoison l n) (dstWidth o.instr)) →
        { w with blocks := [] } = { s.warp who with blocks := [] } := by
      rintro _ rfl
      cases mget o.dst L with
      | none => rfl
      | some r => exact Warp.putParts_noblocks _
    have hmem : u.mem = t.mem := by have := congrArg State.mem hr.rest; exact this
    have hregs : u.regs = t.regs := by have := congrArg State.regs hr.rest; exact this
    have hwgs : u.wgs = t.wgs := by have := congrArg State.wgs hr.rest; exact this
    have hread : ∀ m k, u.locRead m k = t.locRead m k := State.locRead_congr hmem hregs hwgs
    have hwho := hr.warp
    have hfu : AtomFrame who l n t u := hr.atomFrame (by rw [hreg]; exact hnb _ rfl)
    refine ⟨⟨hf.trans hfu, fun e => by rw [hread]; exact hcl e, fun e => by rw [hread, hpo e], fun M hM hne q => ?_, fun _ i M r hi' hd k hk => ?_,
      fun e => absurd (hx.symm.trans e) nofun⟩, (State.locPoison_congr hmem hregs hwgs l n).trans hpt⟩
    · rw [hwho]
      cases mget o.dst L with
      | none => rfl
      | some r =>
        rw [Option.elim_some, Warp.putParts_reg hL _ _ _ hM, if_neg]
        rintro ⟨rfl, -⟩
        exact hne (List.mem_singleton.2 rfl)
    · have hi0 : i = 0 := by
        cases i with
        | zero => rfl
        | succ i => exact absurd hi' nofun
      subst hi0
      cases Option.some.inj hi'
      rw [hwho, hd, Option.elim_some, Warp.putParts_reg hL _ _ _ hL]
      by_cases hs : o.outdone.contains (128 * (r + k) + L) = true
      · rw [if_pos hs, if_neg]
        rintro ⟨-, -, -, h⟩
        rw [hs] at h
        exact absurd h nofun
      · rw [if_neg hs, if_pos ⟨rfl, by omega, by omega, by simpa using hs⟩, Nat.add_sub_cancel_left, ← hv]
        cases s.locPoison l n with
        | true =>
          rw [if_pos rfl, if_pos rfl]
          simp
        | false => rfl

/-- All lanes, in ascending order (R134, R337). -/
theorem State.atomLanes_all (hp : p.loc = some l) (hac : ∀ g a, l ≠ .ac g a) (hi : o.instr = .atom x) (ho : o.who = who) (ls : List Nat)
    (s : State) (hwf : MemWf s) (hl : LiveRegs s who) (h : s.atHand l (x.ty.width / 8) = true) (hn : ls.Nodup) (hb : ∀ L ∈ ls, L < 128) :
    AtomLanes who l o x ls s (s.atomLanes o x (ls.map fun L => (L, p))) := by
  induction ls generalizing s with
  | nil =>
    exact ⟨AtomFrame.refl s, fun _ => rfl, fun _ => rfl, fun _ _ _ _ => rfl, fun _ i L r hL => absurd hL (by simp), fun _ => rfl⟩
  | cons L ls ih =>
    obtain ⟨hnL, hn⟩ := List.nodup_cons.1 hn
    have hL := hb L List.mem_cons_self
    obtain ⟨u, hu, h1, hpu⟩ := State.atomLane_result hp hac hi ho hwf hl h hL
    rw [List.map_cons, hu]
    have h2 := ih u (h1.frame.wf hwf) (h1.frame.live hl) (h1.frame.atHand.trans h) hn fun M hM => hb M (List.mem_cons_of_mem _ hM)
    generalize u.atomLanes o x (ls.map fun L => (L, p)) = t at h2 ⊢
    refine ⟨h1.frame.trans h2.frame, fun e => ?_, fun e => ?_, fun M hM hne q => ?_, fun e i M r hM hd k hk => ?_, fun e => ?_⟩
    · rw [h2.value (hpu.trans e), h1.value e]
      rfl
    · rw [h2.poisoned (hpu.trans e), h1.poisoned e]
    · obtain ⟨hne1, hne2⟩ := not_or.1 (mt List.mem_cons.2 hne)
      rw [h2.others M hM hne2, h1.others M hM (mt List.mem_singleton.1 hne1)]
    · cases i with
      | zero =>
        cases Option.some.inj hM
        rw [h2.others L hL hnL, h1.delivers e 0 L r rfl hd k hk]
        rfl
      | succ i =>
        have hM' : ls[i]? = some M := hM
        have hMb := hb M (List.mem_cons_of_mem _ (List.mem_of_getElem? hM'))
        have hne : M ∉ [L] := fun hc => hnL (List.mem_singleton.1 hc ▸ List.mem_of_getElem? hM')
        rw [h2.delivers e i M r hM' hd k hk, h1.others M hMb hne, hpu]
        cases hq : s.locPoison l (x.ty.width / 8) with
        | true => rfl
        | false => rw [h1.value hq]; rfl
    · exact (h2.quiet e).trans (h1.quiet e)

end

/-! ### How the operation ends -/

section
variable {s : State} {o : MemOp}

/-- An acquire that must wait with its invalidate (R84). -/
def heldAcquire (s : State) (o : MemOp) : Prop :=
  isAcquire o.instr = true ∧ isWide (memScope o.instr) = true ∧ s.canFlash (coreOf o.who) = false

/-- What the end of an operation leaves of the memories and the warps. -/
structure ClosedMop (o : MemOp) (s t : State) : Prop where
  mem : t.mem = s.mem
  regs : t.regs = s.regs
  wgs : t.wgs = s.wgs
  others : ∀ j, j ≠ o.who → t.warp j = s.warp j
  blocks : (t.warp o.who).blocks = (s.warp o.who).blocks

theorem State.decFlag_warp (who : Nat) (hm : mhas s.warps who = true) (f : Option Nat) :
    (∀ j, j ≠ who → (s.decFlag who f).warp j = s.warp j) ∧ ((s.decFlag who f).warp who).blocks = (s.warp who).blocks ∧
    ∀ j, ((s.decFlag who f).warp who).flag j = (s.warp who).flag j - if f = some j then 1 else 0 := by
  unfold State.decFlag
  cases f with
  | none => exact ⟨fun _ _ => rfl, rfl, fun j => by rw [if_neg nofun]; rfl⟩
  | some k =>
    dsimp only
    rw [if_pos hm]
    have e : (s.modWarp who fun w => w.setFlag k (w.flag k - 1)).warp who = (s.warp who).setFlag k ((s.warp who).flag k - 1) :=
      mgetD_mset_same ..
    refine ⟨fun j hj => mgetD_mset_other _ _ _ hj, by rw [e]; rfl, fun j => ?_⟩
    rw [e]
    by_cases hk : k = j
    · subst hk
      rw [if_pos rfl]
      exact mgetD_mset_same ..
    · rw [if_neg fun h => hk (Option.some.inj h)]
      exact mgetD_mset_other _ _ _ (Ne.symm hk)

theorem State.endMop_closed (hm : mhas s.warps o.who = true) :
    ClosedMop o s (s.endMop o) ∧ mget (s.endMop o).mops o.id = none ∧
    ∀ j, ((s.endMop o).warp o.who).flag j = (s.warp o.who).flag j - if o.flag = some j then 1 else 0 := by
  unfold State.endMop
  generalize hu : ({ s with mops := mdel s.mops o.id, treqs := s.treqs.filter (fun e => !(o.treqs.contains e.1)) } : State).dropLost o.who o.id = u
  have hw : u.warps = s.warps := by subst hu; rfl
  have hwarp : ∀ j, u.warp j = s.warp j := fun j => by rw [State.warp, hw]; rfl
  obtain ⟨h1, h2, h3⟩ := State.decFlag_warp (s := u) o.who (hw ▸ hm) o.flag
  have hrest : { u.decFlag o.who o.flag with warps := u.warps } = u := by
    unfold State.decFlag
    split
    · rfl
    · split <;> rfl
  have hmops : u.mops = mdel s.mops o.id := by subst hu; rfl
  have m1 : (u.decFlag o.who o.flag).mem = u.mem := by have := congrArg State.mem hrest; exact this
  have m2 : (u.decFlag o.who o.flag).regs = u.regs := by have := congrArg State.regs hrest; exact this
  have m3 : (u.decFlag o.who o.flag).wgs = u.wgs := by have := congrArg State.wgs hrest; exact this
  have m4 : (u.decFlag o.who o.flag).mops = u.mops := by have := congrArg State.mops hrest; exact this
  refine ⟨⟨m1.trans (by subst hu; rfl), m2.trans (by subst hu; rfl), m3.trans (by subst hu; rfl), fun j hj => (h1 j hj).trans (hwarp j),
    h2.trans (by rw [hwarp])⟩, by rw [m4, hmops, mget_mdel_same], fun j => by rw [h3, hwarp]⟩

/-- An operation whose accesses are done ends, or waits with its invalidate (R84, R145). -/
theorem State.closeMop_closed (hs : isStream o.who = false) (hm : mhas s.warps o.who = true) :
    ClosedMop o s (s.closeMop o) ∧
    (¬ heldAcquire s o → mget (s.closeMop o).mops o.id = none ∧
      ∀ j, ((s.closeMop o).warp o.who).flag j = (s.warp o.who).flag j - if o.flag = some j then 1 else 0) ∧
    (heldAcquire s o → (∃ o', mget (s.closeMop o).mops o.id = some o' ∧ o'.held = true) ∧
      ((s.closeMop o).core o.core).heldInv = (s.core o.core).heldInv ++ [o.id]) := by
  obtain ⟨hc, hg, hf⟩ := State.endMop_closed (o := o) hm
  unfold State.closeMop
  by_cases ha : (isAcquire o.instr && isWide (memScope o.instr)) = true
  · rw [ha, State.mayAcquire, hs, Bool.false_or]
    obtain ⟨ha1, ha2⟩ := (Bool.and_eq_true _ _ ▸ ha : _ ∧ _)
    by_cases hk : s.canFlash (coreOf o.who) = true
    · rw [if_neg (by decide), if_pos hk]
      have e : (s.endMop o).acquireL1 o.who = (s.endMop o).flash (coreOf o.who) := by rw [State.acquireL1, hs]; rfl
      rw [e]
      exact ⟨⟨hc.mem, hc.regs, hc.wgs, hc.others, hc.blocks⟩, fun _ => ⟨hg, hf⟩, fun h => absurd (hk.symm.trans h.2.2) nofun⟩
    · rw [if_neg (by decide), if_neg hk]
      refine ⟨⟨rfl, rfl, rfl, fun _ _ => rfl, rfl⟩, fun h => absurd ⟨ha1, ha2, by simpa using hk⟩ h, fun _ => ⟨⟨_, mget_mset_same .., rfl⟩, ?_⟩⟩
      show (mgetD (mset s.cores o.core _) o.core {}).heldInv = _
      rw [mgetD_mset_same]
      rfl
  · rw [if_pos (by rw [Bool.eq_false_iff.2 ha]; rfl)]
    exact ⟨hc, fun _ => ⟨hg, hf⟩, fun h => absurd (by rw [h.1, h.2.1]; rfl) ha⟩

end

/-! ### The whole operation -/

section
variable {s : State} {o : MemOp} {ps : SMap Place} {p : Place} {l : Loc} {x : AtomArgs}

theorem mem_mapM_option {α β : Type} {f : α → Option β} {as : List α} {bs : List β} (h : as.mapM f = some bs) {a : α} (ha : a ∈ as) :
    ∃ b ∈ bs, f a = some b := by
  induction as generalizing bs with
  | nil => exact absurd ha List.not_mem_nil
  | cons c as ih =>
    rw [List.mapM_cons] at h
    obtain ⟨b, hb, h⟩ := Option.bind_eq_some_iff.1 h
    obtain ⟨bs', hbs, h⟩ := Option.bind_eq_some_iff.1 h
    cases Option.some.inj h
    rcases List.mem_cons.1 ha with rfl | ha
    · exact ⟨b, List.mem_cons_self, hb⟩
    · obtain ⟨b', hb', e⟩ := ih hbs ha
      exact ⟨b', List.mem_cons_of_mem _ hb', e⟩

/-- No lane of an operation whose places are all `p` reaches another module, where `p` is at hand. -/
theorem State.opRemote_atHand {n : Nat} (hps : s.finalPlaces o = some ps) (hp : p.loc = some l) (h : s.atHand l n = true)
    (hall : ∀ e ∈ ps, e.2 = p) : s.opRemote o = false := by
  refine List.any_eq_false.2 fun e he => ?_
  obtain ⟨b, hb, hf⟩ := mem_mapM_option hps he
  obtain ⟨q, hq, e2⟩ := Option.map_eq_some_iff.1 hf
  have hqp : q = p := by rw [← hall b hb, ← e2]
  rw [hq, hqp]
  cases p with
  | phys pa leaf =>
    cases Option.some.inj hp
    simp [(held_of_atHand h).isRemote]
  | _ => exact Bool.false_ne_true

theorem State.logOp_good (hp : p.loc = some l) (hall : ∀ e ∈ ps, e.2 = p) : s.logOp o ps = s := by
  unfold State.logOp
  split
  · next e =>
    have := hall _ (List.mem_of_find?_eq_some e)
    rw [← this] at hp
    exact absurd hp nofun
  · rfl

theorem State.regsReady_live (hl : LiveRegs s o.who) (ha : s.longAbsent o.who o.handler (opRegs o) = []) : s.regsReady o = (true, s) := by
  unfold State.regsReady State.longReady
  dsimp only
  rw [ha]
  have : ((opRegs o).map (fun r => r / 8)).eraseDups.filter (fun b => s.regAt o.who (8 * b) o.handler == .image) = [] := by
    refine List.filter_eq_nil_iff.2 fun b _ => ?_
    rw [hl.regAt]
    decide
  rw [this]
  rfl

end

/-- What an atomic changes around its lanes: lines and fills of cores, and the count of its thread's stores. -/
structure AroundAtom (s t : State) : Prop where
  rest : { t with cores := s.cores, ctls := s.ctls } = s
  epoch : ∀ k, (t.core k).epoch = (s.core k).epoch
  fills : ∀ k, (t.core k).fills.map L1Fill.epoch = (s.core k).fills.map L1Fill.epoch
  heldInv : ∀ k, (t.core k).heldInv = (s.core k).heldInv
  trap : ∀ k, (t.ctl k).inTrap = (s.ctl k).inTrap
  hasCtl : ∀ k, mhas t.ctls k = mhas s.ctls k

section
variable {s t u : State}

theorem AroundAtom.refl (s : State) : AroundAtom s s := ⟨rfl, fun _ => rfl, fun _ => rfl, fun _ => rfl, fun _ => rfl, fun _ => rfl⟩

theorem AroundAtom.trans (h : AroundAtom s t) (g : AroundAtom t u) : AroundAtom s u where
  rest := by
    have := congrArg (fun x : State => { x with cores := s.cores, ctls := s.ctls }) g.rest
    exact this.trans h.rest
  epoch k := (g.epoch k).trans (h.epoch k)
  fills k := (g.fills k).trans (h.fills k)
  heldInv k := (g.heldInv k).trans (h.heldInv k)
  trap k := (g.trap k).trans (h.trap k)
  hasCtl k := (g.hasCtl k).trans (h.hasCtl k)

theorem AroundAtom.foldl {α : Type} {f : State → α → State} (hf : ∀ s a, AroundAtom s (f s a)) (l : List α) (s : State) :
    AroundAtom s (l.foldl f s) := by
  induction l generalizing s with
  | nil => exact AroundAtom.refl s
  | cons a l ih => exact (hf s a).trans (ih _)

theorem AroundAtom.modCore (s : State) (core : Nat) {f : Core → Core} (he : ∀ c, (f c).epoch = c.epoch)
    (hf : ∀ c, (f c).fills.map L1Fill.epoch = c.fills.map L1Fill.epoch) (hh : ∀ c, (f c).heldInv = c.heldInv) :
    AroundAtom s (s.modCore core f) := by
  have key : ∀ {α : Type} (q : Core → α), (∀ c, q (f c) = q c) → ∀ k, q ((s.modCore core f).core k) = q (s.core k) := by
    intro α q hq k
    by_cases e : k = core
    · subst e
      exact (congrArg q (mgetD_mset_same s.cores k (f (s.core k)) {})).trans (hq _)
    · exact congrArg q (mgetD_mset_other s.cores (f (s.core core)) {} e)
  exact ⟨rfl, key Core.epoch he, key (fun c => c.fills.map L1Fill.epoch) hf, key Core.heldInv hh, fun _ => rfl, fun _ => rfl⟩

theorem AroundAtom.markFills (s : State) (core pa n : Nat) : AroundAtom s (s.markFills core pa n) := by
  unfold State.markFills
  split
  · exact AroundAtom.refl s
  · refine AroundAtom.modCore s core (fun _ => rfl) (fun c => ?_) fun _ => rfl
    rw [List.map_map]
    refine List.map_congr_left fun f _ => ?_
    show (if _ then _ else f).epoch = f.epoch
    split <;> rfl

theorem AroundAtom.ackAtoms (s : State) (o : MemOp) (ps : SMap Place) : AroundAtom s (s.ackAtoms o ps) := by
  unfold State.ackAtoms
  split
  · exact AroundAtom.refl s
  · refine AroundAtom.foldl (fun s e => ?_) ps s
    split
    · exact AroundAtom.markFills ..
    · exact AroundAtom.refl s

theorem AroundAtom.dropAtomLines (s : State) (o : MemOp) : AroundAtom s (s.dropAtomLines o) :=
  AroundAtom.foldl (f := fun t l => t.l1Drop o.core l)
    (fun s _ => AroundAtom.modCore s o.core (fun _ => rfl) (fun _ => rfl) fun _ => rfl) _ s

theorem AroundAtom.ackStores (s : State) (who n : Nat) : AroundAtom s (s.ackStores who n) := by
  unfold State.ackStores
  split
  · next h =>
    obtain ⟨c, hc⟩ := Option.isSome_iff_exists.1 h
    refine ⟨rfl, fun _ => rfl, fun _ => rfl, fun _ => rfl, fun k => ?_, mhas_mset_present hc⟩
    show (mgetD (mset s.ctls who _) k {}).inTrap = _
    by_cases e : k = who
    · subst e
      rw [mgetD_mset_same]
    · rw [mgetD_mset_other _ _ _ e]
      rfl
  · exact AroundAtom.refl s

theorem AroundAtom.canFlash (h : AroundAtom s t) (k : Nat) : t.canFlash k = s.canFlash k := by
  have e : ∀ u : State, u.canFlash k = ((u.core k).fills.map L1Fill.epoch).all (fun n => n != (u.core k).epoch + 1) := fun u => by
    rw [List.all_map]
    rfl
  rw [e, e, h.epoch, h.fills]

theorem AroundAtom.live (h : AroundAtom s t) {who : Nat} (hl : LiveRegs s who) : LiveRegs t who := by
  refine ⟨?_, (h.trap who).trans hl.calm⟩
  rw [State.isAway, h.hasCtl]
  exact hl.home

theorem AroundAtom.same (h : AroundAtom s t) : t.mem = s.mem ∧ t.regs = s.regs ∧ t.wgs = s.wgs ∧ t.warps = s.warps := by
  have h1 := congrArg State.mem h.rest
  have h2 := congrArg State.regs h.rest
  have h3 := congrArg State.wgs h.rest
  have h4 := congrArg State.warps h.rest
  exact ⟨h1, h2, h3, h4⟩

end

section
variable {s : State} {o : MemOp} {ps : SMap Place} {p : Place} {l : Loc} {x : AtomArgs}

/-- An atomic that may be performed, at one place that is at hand. -/
theorem State.atomStep_runs {n : Nat} (hps : s.finalPlaces o = some ps) (hmay : s.mayPerform o = true) (hp : p.loc = some l)
    (hat : s.atHand l n = true) (hall : ∀ e ∈ ps, e.2 = p) (hl : LiveRegs s o.who) (ha : s.longAbsent o.who o.handler (opRegs o) = []) :
    s.atomStep o x false = ((((s.dropAtomLines o).atomLanes o x ps).ackAtoms o ps).ackStores o.who
      (if x.noret then storeCost o.instr o.ea else 0)).closeMop o := by
  have hr := State.regsReady_live hl ha
  have hlog := State.logOp_good (s := s) (o := o) hp hall
  unfold State.atomStep
  rw [hps, hmay, State.opRemote_atHand hps hp hat hall, hr]
  show ((((((s.logOp o ps).dropAtomLines o).atomLanes o x ps).ackAtoms o ps).ackStores o.who _).closeMop o) = _
  rw [hlog]

theorem State.exec_atomComplete {t : State} (hi : o.instr = .atom x) (ho : mget s.mops o.id = some o) (h : s.atomStep o x false = t) :
    Machine.exec (.atomComplete o.id) s = .next t := by
  show execAtomComplete o.id s = _
  unfold execAtomComplete
  rw [ho]
  dsimp only
  rw [hi]
  exact congrArg _ h

end

/-- Settles O46: the lanes in ascending order, then the end of the operation or its wait with an invalidate. -/
theorem atomPerforms : Obligations.AtomPerforms := by
  unfold Obligations.AtomPerforms
  intro s o x ps p l who n lane old hi ho hps hmay hs hm htrap habs hwf hp hac hat hall hnd hb waits
  have haway : s.isAway who = false := by
    have := hmay
    simp only [State.mayPerform, Bool.and_eq_true, Bool.not_eq_true'] at this
    exact this.1.1.1.1.1
  have hl : LiveRegs s who := ⟨haway, htrap⟩
  have hmap : ps = (ps.map Prod.fst).map (fun L => (L, p)) := by
    rw [List.map_map]
    exact (List.map_id ps).symm.trans (List.map_congr_left fun e he => by rw [← hall e he]; rfl)
  generalize hls : ps.map Prod.fst = ls at hmap hnd ⊢
  have hb' : ∀ L ∈ ls, L < 128 := fun L hL => by
    rw [← hls] at hL
    obtain ⟨e, he, rfl⟩ := List.mem_map.1 hL
    exact hb e he
  have h1 := AroundAtom.dropAtomLines s o
  obtain ⟨m1, r1, g1, w1⟩ := h1.same
  generalize hs1 : s.dropAtomLines o = s1 at h1 m1 r1 g1 w1
  have h2 := State.atomLanes_all (x := x) hp hac hi (rfl : o.who = who) ls s1 (hwf.congr (by rw [m1]) g1) (h1.live hl)
    ((State.atHand_congr m1 g1 l n).trans hat) hnd hb'
  rw [← hmap] at h2
  generalize hs2 : s1.atomLanes o x ps = s2 at h2
  have h3 := (AroundAtom.ackAtoms s2 o ps).trans (AroundAtom.ackStores _ o.who (if x.noret then storeCost o.instr o.ea else 0))
  obtain ⟨m3, r3, g3, w3⟩ := h3.same
  generalize hs3 : (s2.ackAtoms o ps).ackStores o.who (if x.noret then storeCost o.instr o.ea else 0) = s3 at h3 m3 r3 g3 w3
  have hm3 : mhas s3.warps o.who = true := by rw [w3]; exact h2.frame.has (by rw [w1]; exact hm)
  obtain ⟨hcl, hend, hheld⟩ := State.closeMop_closed (o := o) hs hm3
  have hexec : Machine.exec (.atomComplete o.id) s = .next (s3.closeMop o) := by
    subst hs3 hs2 hs1
    exact State.exec_atomComplete hi ho (State.atomStep_runs hps hmay hp hat hall hl habs)
  have hwarp3 : ∀ j, s3.warp j = s2.warp j := fun j => by rw [State.warp, w3]; rfl
  have hwarp1 : ∀ j, s1.warp j = s.warp j := fun j => by rw [State.warp, w1]; rfl
  have hread3 : ∀ m k, (s3.closeMop o).locRead m k = s2.locRead m k := fun m k =>
    State.locRead_congr (hcl.mem.trans m3) (hcl.regs.trans r3) (hcl.wgs.trans g3) m k
  have hread1 : ∀ m k, s1.locRead m k = s.locRead m k := State.locRead_congr m1 r1 g1
  have hpois : s1.locPoison l n = s.locPoison l n := State.locPoison_congr m1 r1 g1 l n
  have hwaits : heldAcquire s3 o ↔ waits := by
    have hk : s3.canFlash (coreOf who) = s.canFlash (coreOf who) := by
      have hcores : s2.cores = s1.cores := by have := congrArg State.cores h2.frame.rest; exact this
      rw [h3.canFlash, ← h1.canFlash]
      unfold State.canFlash State.core
      rw [hcores]
    show _ ∧ _ ∧ s3.canFlash (coreOf o.who) = false ↔ _ ∧ _ ∧ _
    rw [show s3.canFlash (coreOf o.who) = s.canFlash (coreOf who) from hk]
  have hregs : ∀ q L, ((s3.closeMop o).warp who).reg q L = (s2.warp who).reg q L := fun q L => by
    unfold Warp.reg Warp.block
    rw [hcl.blocks, hwarp3]
  refine ⟨_, hexec, fun h => (hend (mt hwaits.1 h)).1, fun h => ?_, fun h j => ?_, fun j hj => ?_, fun m hmb => ?_, fun hq => ?_, fun hq => ?_,
    fun hx i L r hL hd k hk => ?_, fun hx => ?_⟩
  · obtain ⟨hmop, hinv⟩ := hheld (hwaits.2 h)
    have hcores : s2.cores = s1.cores := by have := congrArg State.cores h2.frame.rest; exact this
    refine ⟨hmop, hinv.trans ?_⟩
    rw [h3.heldInv, ← h1.heldInv, State.core, hcores]
    rfl
  · have hnb := congrArg (fun w : Warp => w.flag j) h2.frame.noblocks
    have hflag : (s3.warp who).flag j = (s.warp who).flag j := by
      rw [hwarp3, ← hwarp1]
      exact hnb
    rw [(hend (mt hwaits.1 h)).2, hflag]
  · rw [hcl.others j hj, hwarp3, h2.frame.warps j hj, hwarp1]
  · rw [hread3, h2.frame.frame m ((State.byteIn_congr r1 m).trans hmb), hread1]
  · rw [hread3, h2.value (hpois.trans hq), hread1]
    rfl
  · rw [hread3, h2.poisoned (hpois.trans hq), hread1]
  · rw [hregs, h2.delivers hx i L r hL hd k hk, hpois, hread1, hwarp1]
    rfl
  · rw [hcl.blocks, hwarp3, h2.quiet hx, hwarp1]

end Sys2Proof.Machine
end

section
/-! The reform unit (R219 to R223): filing threads, bins by age, and warps built from ready bins. -/

namespace Sys2Proof.Machine

/-! ### Filing threads -/

/-- A bin of the pair of `b`, with the threads of `b` and maybe more. -/
structure Bin.Within (b c : Bin) : Prop where
  wg : c.wg = b.wg
  pc : c.pc = b.pc
  key : c.key = b.key
  threads : ∀ t ∈ b.threads, t ∈ c.threads

/-- Threads that a list of bins holds. -/
def threadCount (bs : List Bin) : Nat := (bs.map (fun b => b.threads.length)).sum

/-- The bins `bs` hold the thread `t` in a bin of the pair of `b`. -/
def FiledIn (bs : List Bin) (b : Bin) (t : RThread) : Prop := ∃ y ∈ bs, y.wg = b.wg ∧ y.pc = b.pc ∧ y.key = b.key ∧ t ∈ y.threads

/-- Every bin of a list goes on in another. -/
def BinsWithin (bs cs : List Bin) : Prop := ∀ b ∈ bs, ∃ c ∈ cs, b.Within c

theorem Bin.Within.refl (b : Bin) : b.Within b := ⟨rfl, rfl, rfl, fun _ h => h⟩

theorem BinsWithin.refl (bs : List Bin) : BinsWithin bs bs := fun b hb => ⟨b, hb, Bin.Within.refl b⟩

theorem BinsWithin.trans {as bs cs : List Bin} (h : BinsWithin as bs) (g : BinsWithin bs cs) : BinsWithin as cs := fun a ha => by
  obtain ⟨b, hb, hab⟩ := h a ha
  obtain ⟨c, hc, hbc⟩ := g b hb
  exact ⟨c, hc, hbc.wg.trans hab.wg, hbc.pc.trans hab.pc, hbc.key.trans hab.key, fun t ht => hbc.threads t (hab.threads t ht)⟩

theorem FiledIn.mono {bs cs : List Bin} {b : Bin} {t : RThread} (h : FiledIn bs b t) (g : BinsWithin bs cs) : FiledIn cs b t := by
  obtain ⟨y, hy, h1, h2, h3, h4⟩ := h
  obtain ⟨c, hc, hw⟩ := g y hy
  exact ⟨c, hc, hw.wg.trans h1, hw.pc.trans h2, hw.key.trans h3, hw.threads t h4⟩

theorem threadCount_cons (b : Bin) (bs : List Bin) : threadCount (b :: bs) = b.threads.length + threadCount bs := List.sum_cons ..

theorem threadCount_append (bs cs : List Bin) : threadCount (bs ++ cs) = threadCount bs + threadCount cs := by
  simp [threadCount]

theorem Bin.makeReady_fields (b : Bin) (clock : Nat) :
    (b.makeReady clock).wg = b.wg ∧ (b.makeReady clock).pc = b.pc ∧ (b.makeReady clock).key = b.key ∧ (b.makeReady clock).threads = b.threads := by
  unfold Bin.makeReady
  split <;> exact ⟨rfl, rfl, rfl, rfl⟩

/-- The open bin of a pair, once it has taken a thread. -/
def Bin.take (b new_ : Bin) (t : RThread) : Bin :=
  let c : Bin := { b with threads := b.threads ++ [t], acq := b.acq || new_.acq }
  if b.threads.length + 1 = 128 then c.makeReady new_.since else c

/-- A bin that is open for the pair of another. -/
def Bin.open_ (new_ b : Bin) : Bool := b.wg == new_.wg && b.pc == new_.pc && b.key == new_.key && !b.ready && decide (b.threads.length < 128)

theorem fileThread_eq (bins : List Bin) (new_ : Bin) (t : RThread) : fileThread bins new_ t =
    if bins.any new_.open_ then some (bins.map (fun b => if new_.open_ b then b.take new_ t else b))
    else if bins.length < 256 then some (bins ++ [{ new_ with threads := [t] }]) else none := rfl

theorem Bin.take_fields (b new_ : Bin) (t : RThread) :
    (b.take new_ t).wg = b.wg ∧ (b.take new_ t).pc = b.pc ∧ (b.take new_ t).key = b.key ∧ (b.take new_ t).threads = b.threads ++ [t] := by
  unfold Bin.take
  dsimp only
  split
  · exact Bin.makeReady_fields _ _
  · exact ⟨rfl, rfl, rfl, rfl⟩

theorem Bin.open_pair {new_ b : Bin} (h : new_.open_ b = true) : b.wg = new_.wg ∧ b.pc = new_.pc ∧ b.key = new_.key := by
  simp only [Bin.open_, Bool.and_eq_true, beq_iff_eq] at h
  exact ⟨h.1.1.1.1, h.1.1.1.2, h.1.1.2⟩

theorem threadCount_map_take (bins : List Bin) (new_ : Bin) (t : RThread) :
    threadCount (bins.map (fun b => if new_.open_ b then b.take new_ t else b)) = threadCount bins + bins.countP new_.open_ := by
  induction bins with
  | nil => rfl
  | cons b bs ih =>
    rw [List.map_cons, threadCount_cons, threadCount_cons, ih, List.countP_cons]
    split
    · rw [(b.take_fields new_ t).2.2.2, List.length_append, List.length_singleton]
      omega
    · omega

/-- A thread is filed, where a bin is open or free (R219, R221). -/
theorem fileThread_files (bins : List Bin) (new_ : Bin) (t : RThread) (h : bins.length < 256) :
    ∃ bs, fileThread bins new_ t = some bs ∧ bs.length ≤ bins.length + 1 ∧ threadCount bins + 1 ≤ threadCount bs ∧ BinsWithin bins bs ∧
      FiledIn bs new_ t := by
  rw [fileThread_eq]
  by_cases ho : bins.any new_.open_ = true
  · rw [if_pos ho]
    obtain ⟨y, hy, hyo⟩ := List.any_eq_true.1 ho
    refine ⟨_, rfl, by simp, ?_, fun b hb => ?_, ?_⟩
    · rw [threadCount_map_take]
      have : 0 < bins.countP new_.open_ := List.countP_pos_iff.2 ⟨y, hy, hyo⟩
      omega
    · refine ⟨_, List.mem_map.2 ⟨b, hb, rfl⟩, ?_⟩
      obtain ⟨h1, h2, h3, h4⟩ := b.take_fields new_ t
      split
      · exact ⟨h1, h2, h3, fun u hu => by rw [h4]; exact List.mem_append_left _ hu⟩
      · exact Bin.Within.refl b
    · refine ⟨_, List.mem_map.2 ⟨y, hy, rfl⟩, ?_⟩
      rw [if_pos hyo]
      obtain ⟨h1, h2, h3, h4⟩ := y.take_fields new_ t
      obtain ⟨p1, p2, p3⟩ := Bin.open_pair hyo
      exact ⟨h1.trans p1, h2.trans p2, h3.trans p3, by rw [h4]; exact List.mem_append_right _ (List.mem_singleton.2 rfl)⟩
  · rw [if_neg ho, if_pos h]
    refine ⟨_, rfl, by simp, ?_, fun b hb => ⟨b, List.mem_append_left _ hb, Bin.Within.refl b⟩,
      ⟨_, List.mem_append_right _ (List.mem_singleton.2 rfl), rfl, rfl, rfl, List.mem_singleton.2 rfl⟩⟩
    rw [threadCount_append]
    exact Nat.le_refl _

/-- All the threads of a REFORM are filed, where there are bins enough for each. -/
theorem fileAll_files (es : List (Bin × RThread)) (bins : List Bin) (nextId : Nat) (h : bins.length + es.length ≤ 256) :
    ∃ bs next, fileAll bins nextId es = some (bs, next) ∧ threadCount bins + es.length ≤ threadCount bs ∧ BinsWithin bins bs ∧
      ∀ e ∈ es, FiledIn bs e.1 e.2 := by
  induction es generalizing bins nextId with
  | nil => exact ⟨bins, nextId, rfl, Nat.le_refl _, BinsWithin.refl bins, fun _ h => absurd h List.not_mem_nil⟩
  | cons e es ih =>
    rw [List.length_cons] at h
    obtain ⟨b1, h1, hl, hc, hw, hf⟩ := fileThread_files bins { e.1 with id := nextId } e.2 (by omega)
    obtain ⟨bs, next, h2, hc2, hw2, hf2⟩ := ih b1 (nextId + 1) (by omega)
    refine ⟨bs, next, ?_, by rw [List.length_cons]; omega, hw.trans hw2, fun f hm => ?_⟩
    · rw [fileAll, h1]
      exact h2
    · rcases List.mem_cons.1 hm with rfl | hm
      · exact hf.mono hw2
      · exact hf2 f hm

/-! ### REFORM_FILE -/

theorem State.allFiled_bins (s : State) (g core : Nat) :
    threadCount ((s.allFiled g core).core core).bins = threadCount (s.core core).bins ∧
      BinsWithin (s.core core).bins ((s.allFiled g core).core core).bins := by
  unfold State.allFiled
  split
  · have e : ∀ f : Core → Core, (s.modCore core f).core core = f (s.core core) := fun f => mgetD_mset_same ..
    rw [e]
    refine ⟨?_, fun b hb => ⟨_, List.mem_map.2 ⟨b, hb, rfl⟩, ?_⟩⟩
    · unfold threadCount
      dsimp only
      rw [List.map_map]
      refine congrArg List.sum (List.map_congr_left fun b _ => ?_)
      show (if _ then _ else b).threads.length = b.threads.length
      split <;> rfl
    · split
      · exact ⟨rfl, rfl, rfl, fun _ h => h⟩
      · exact Bin.Within.refl b
  · exact ⟨rfl, BinsWithin.refl _⟩

/-- A warp from which lanes have been filed (R219, R220); `w` is the warp with its indexes moved. -/
def Warp.fileOut (w : Warp) (lane : Nat) (p : Path) (mask : LaneMask) : Warp :=
  let w1 := ({ w.putPath lane [{ p with mask := mdiff p.mask mask }] with filed := w.filed ||| mask } : Warp).clearK mask
  (if mdiff p.mask mask = 0 then w1 else w1.advance (lowLane (mdiff p.mask mask)) p.pc 1).releaseAll

theorem Warp.filed_of_still {v w : Warp} (h : v.still = w.still) : v.filed = w.filed := by
  have := congrArg Warp.filed h
  exact this

theorem Warp.fileOut_filed (w : Warp) (lane : Nat) (p : Path) (mask : LaneMask) : (w.fileOut lane p mask).filed = w.filed ||| mask := by
  unfold Warp.fileOut
  dsimp only
  rw [Warp.filed_of_still (Warp.releaseAll_still _)]
  split
  · rfl
  · have := congrArg Warp.filed (Warp.advance_nopc 
      (({ w.putPath lane [{ p with mask := mdiff p.mask mask }] with filed := w.filed ||| mask } : Warp).clearK mask)
      (lowLane (mdiff p.mask mask)) p.pc 1)
    exact this

section
variable {s : State} {who : Nat} {x : Waiting} {p : Path} {a : VOp} {n : Nat} {m : LaneMask}

/-- The state once the lanes are in the unit, before the barrier and the bins are looked at again. -/
def State.filedState (s : State) (who : Nat) (x : Waiting) (p : Path) (a : VOp) (n : Nat) (m : LaneMask) (bins : List Bin) (next : Nat) : State :=
  (((({ s with nextId := next } : State).modCore (coreOf who) (fun c => { c with bins := bins })).modWarp who (fun _ =>
    (applyDeltas (s.warp who) (xDeltas (s.warp who) (vuses (reformWord a n)) m)).fileOut x.lane p m))).modCtl who
      (fun c => { c with waits := c.waits.filter (fun y => y.lane != x.lane) })

theorem State.fileLanes_eq (hp : (s.warp who).pathAt x.lane = some p)
    (ha : (reformIssue (s.warp who) who x.lane p a n m).absentBlocks (s.warp who) = [])
    (hc : ¬ 8192 < s.reformCount (coreOf who) + countLanes m) {bins : List Bin} {next : Nat}
    (hr : s.reformRoom who x.lane p a n m = some (bins, next)) :
    s.fileLanes who x a n m = ((s.filedState who x p a n m bins next).barrierCheck
      (applyDeltas (s.warp who) (xDeltas (s.warp who) (vuses (reformWord a n)) m)).wg (coreOf who)).allFiled
      (applyDeltas (s.warp who) (xDeltas (s.warp who) (vuses (reformWord a n)) m)).wg (coreOf who) := by
  unfold State.fileLanes
  dsimp only
  rw [hp]
  dsimp only
  rw [ha, if_neg (by simp), if_neg hc, hr]
  rfl

theorem countLanes_le (m : LaneMask) : countLanes m ≤ 128 := by
  unfold countLanes lanesOf
  split
  · exact Nat.zero_le _
  · exact (List.length_filter_le _ _).trans (by simp)

/-- The lanes of a REFORM go to the unit, whole (R219). -/
theorem State.fileLanes_files (hp : (s.warp who).pathAt x.lane = some p)
    (ha : (reformIssue (s.warp who) who x.lane p a n m).absentBlocks (s.warp who) = [])
    (hc : s.reformCount (coreOf who) + countLanes m ≤ 8192) (hb : (s.core (coreOf who)).bins.length + countLanes m ≤ 256) :
    let t := s.fileLanes who x a n m
    let moved := applyDeltas (s.warp who) (xDeltas (s.warp who) (vuses (reformWord a n)) m)
    s.reformCount (coreOf who) + countLanes m ≤ t.reformCount (coreOf who) ∧ (t.warp who).filed = (s.warp who).filed ||| m ∧
    (∀ y ∈ (t.ctl who).waits, y.lane ≠ x.lane) ∧ t.mem = s.mem ∧
    ∀ L ∈ lanesOf m, ∃ y ∈ (t.core (coreOf who)).bins, y.wg = (s.warp who).wg ∧ y.pc = afterWord p.pc ∧
      y.key = (reformIssue (s.warp who) who x.lane p a n m).src (useS a) L ∧ carried moved n L ∈ y.threads := by
  intro t moved
  have hnox : { moved with x := [] } = { s.warp who with x := [] } := applyDeltas_nox (s.warp who) _
  have hwg : moved.wg = (s.warp who).wg := by have := congrArg Warp.wg hnox; exact this
  have hfiled : moved.filed = (s.warp who).filed := by have := congrArg Warp.filed hnox; exact this
  have hlen : (s.reformEntries who x.lane p a n m).length = countLanes m := List.length_map ..
  obtain ⟨bins, next, hf, hcount, -, hin⟩ := fileAll_files (s.reformEntries who x.lane p a n m) (s.core (coreOf who)).bins s.nextId
    (by rw [hlen]; exact hb)
  have hr : s.reformRoom who x.lane p a n m = some (bins, next) := (if_neg (Nat.not_lt.2 hc)).trans hf
  have ht : t = ((s.filedState who x p a n m bins next).barrierCheck moved.wg (coreOf who)).allFiled moved.wg (coreOf who) :=
    State.fileLanes_eq hp ha (Nat.not_lt.2 hc) hr
  generalize hu : s.filedState who x p a n m bins next = u at ht
  have hworld := u.barrierCheck_world moved.wg (coreOf who)
  have hcores : (u.barrierCheck moved.wg (coreOf who)).cores = u.cores := by have := congrArg State.cores hworld; exact this
  have hctls : (u.barrierCheck moved.wg (coreOf who)).ctls = u.ctls := by have := congrArg State.ctls hworld; exact this
  have hleaves := (u.barrierCheck_leaves moved.wg (coreOf who)).trans (State.allFiled_leaves _ moved.wg (coreOf who))
  have hbins : ((u.barrierCheck moved.wg (coreOf who)).core (coreOf who)).bins = bins := by
    rw [State.core, hcores, ← hu]
    exact congrArg Core.bins (mgetD_mset_same ..)
  obtain ⟨hsame, hwithin⟩ := State.allFiled_bins (u.barrierCheck moved.wg (coreOf who)) moved.wg (coreOf who)
  rw [← ht, hbins] at hsame hwithin
  rw [← ht] at hleaves
  refine ⟨?_, ?_, fun y hy => ?_, ?_, fun L hL => ?_⟩
  · rw [hlen] at hcount
    exact hcount.trans (le_of_eq hsame.symm)
  · rw [Warp.filed_of_still (hleaves.still who), ← hfiled, ← hu]
    exact (congrArg Warp.filed (mgetD_mset_same ..)).trans (Warp.fileOut_filed ..)
  · have hc : t.ctls = u.ctls := by
      rw [ht, ← hctls]
      unfold State.allFiled
      split <;> rfl
    have hw : (t.ctl who).waits = (u.ctl who).waits := by rw [State.ctl, hc]; rfl
    rw [hw, ← hu] at hy
    have hm : (State.ctl (s.filedState who x p a n m bins next) who).waits = (s.ctl who).waits.filter (fun y => y.lane != x.lane) :=
      congrArg WarpCtl.waits (mgetD_mset_same ..)
    rw [hm] at hy
    simpa using (List.mem_filter.1 hy).2
  · have hm := congrArg State.mem hleaves.world
    exact Eq.trans hm (by subst hu; rfl)
  · obtain ⟨y, hy, h1, h2, h3, h4⟩ := (hin _ (List.mem_map.2 ⟨L, hL, rfl⟩)).mono hwithin
    exact ⟨y, hy, h1.trans hwg, h2, h3, h4⟩

end

/-! ### Bins by age -/

/-- REFORM_BIN_AGE (R221). -/
theorem State.binAge (s : State) (core bin : Nat) :
    ∃ t, Machine.exec (.reformBinAge core bin) s = .next t ∧ t.mem = s.mem ∧ t.warps = s.warps ∧ (∀ k, k ≠ core → t.core k = s.core k) ∧
      (t.core core).bins = (s.core core).bins.map (fun y =>
        if y.id = bin ∧ y.since + 2048 ≤ s.clock ∧ y.ready = false then { y with ready := true, readyAt := s.clock } else y) := by
  refine ⟨_, rfl, rfl, rfl, fun k hk => mgetD_mset_other _ _ _ hk, (congrArg Core.bins (mgetD_mset_same ..)).trans ?_⟩
  refine List.map_congr_left fun y _ => ?_
  have e : (y.id == bin && decide (2048 ≤ s.clock - y.since)) = true ↔ y.id = bin ∧ y.since + 2048 ≤ s.clock := by
    simp only [Bool.and_eq_true, beq_iff_eq, decide_eq_true_eq]
    exact and_congr_right fun _ => by omega
  unfold Bin.makeReady
  by_cases h : y.id = bin ∧ y.since + 2048 ≤ s.clock
  · rw [if_pos (e.2 h)]
    cases hr : y.ready with
    | true => rw [if_pos rfl, if_neg (by simp)]
    | false => rw [if_neg (by decide), if_pos ⟨h.1, h.2, rfl⟩]
  · rw [if_neg (mt e.1 h), if_neg fun g => h ⟨g.1, g.2.1⟩]

/-! ### A warp from a bin -/

theorem mget_map_zipIdx {α β : Type} (f : α → β) (l : List α) (i k : Nat) :
    mget ((l.zipIdx i).map fun e => (e.2, f e.1)) k = if i ≤ k then (l[k - i]?).map f else none := by
  induction l generalizing i with
  | nil => simp
  | cons a l ih =>
    rw [List.zipIdx_cons, List.map_cons, mget]
    by_cases e : i = k
    · rw [if_pos e, if_pos (by omega), e, Nat.sub_self]
      rfl
    · rw [if_neg e, ih]
      by_cases h : i + 1 ≤ k
      · rw [if_pos h, if_pos (by omega), show k - i = (k - (i + 1)) + 1 by omega]
        rfl
      · rw [if_neg h, if_neg (by omega)]

theorem mget_map_keys {α : Type} (f : Nat → α) {l : List Nat} {k : Nat} (h : k ∈ l) : mget (l.map fun j => (j, f j)) k = some (f k) := by
  induction l with
  | nil => exact absurd h List.not_mem_nil
  | cons a l ih =>
    rw [List.map_cons, mget]
    by_cases e : a = k
    · rw [if_pos e, e]
    · rw [if_neg e]
      exact ih ((List.mem_cons.1 h).resolve_left (Ne.symm e))

/-- The carried registers of one thread in its lane. -/
def Warp.fillLane (w : Warp) (L i : Nat) (regs : List LaneReg) : Warp := (regs.zipIdx i).foldl (fun w r => w.setReg r.2 L r.1) w

/-- The carried registers of threads, in lanes from `i` on. -/
def Warp.fillLanes (w : Warp) (i : Nat) (ts : List RThread) : Warp := (ts.zipIdx i).foldl (fun w t => w.fillLane t.2 0 t.1.regs) w

theorem Bin.fillRegs_eq (b : Bin) (w : Warp) : b.fillRegs w = w.fillLanes 0 b.threads := rfl

theorem Warp.fillLane_cons (w : Warp) (L i : Nat) (y : LaneReg) (regs : List LaneReg) :
    w.fillLane L i (y :: regs) = (w.setReg i L y).fillLane L (i + 1) regs := by
  rw [Warp.fillLane, List.zipIdx_cons]
  rfl

theorem Warp.fillLanes_cons (w : Warp) (i : Nat) (t : RThread) (ts : List RThread) :
    w.fillLanes i (t :: ts) = (w.fillLane i 0 t.regs).fillLanes (i + 1) ts := by
  rw [Warp.fillLanes, List.zipIdx_cons]
  rfl

theorem Warp.fillLane_noblocks (regs : List LaneReg) (w : Warp) (L i : Nat) : { w.fillLane L i regs with blocks := [] } = { w with blocks := [] } := by
  induction regs generalizing w i with
  | nil => rfl
  | cons y regs ih => rw [Warp.fillLane_cons]; exact ih _ _

theorem Warp.fillLanes_noblocks (ts : List RThread) (w : Warp) (i : Nat) : { w.fillLanes i ts with blocks := [] } = { w with blocks := [] } := by
  induction ts generalizing w i with
  | nil => rfl
  | cons t ts ih => rw [Warp.fillLanes_cons]; exact (ih _ _).trans (Warp.fillLane_noblocks ..)

theorem Warp.fillLane_other (regs : List LaneReg) (w : Warp) {L q M : Nat} (i : Nat) (hL : L < 128) (hM : M < 128) (h : M ≠ L ∨ q < i) :
    (w.fillLane L i regs).reg q M = w.reg q M := by
  induction regs generalizing w i with
  | nil => rfl
  | cons y regs ih =>
    rw [Warp.fillLane_cons, ih _ _ (h.imp_right fun g => by omega), Warp.reg_setReg_other _ _ hL hM]
    rcases h with h | h
    · exact .inr h
    · exact .inl (by omega)

theorem Warp.fillLane_reg (regs : List LaneReg) (w : Warp) {L : Nat} (i r : Nat) (hL : L < 128) {y : LaneReg} (h : regs[r]? = some y) :
    (w.fillLane L i regs).reg (i + r) L = y := by
  induction regs generalizing w i r with
  | nil => exact absurd h nofun
  | cons z regs ih =>
    rw [Warp.fillLane_cons]
    cases r with
    | zero =>
      cases Option.some.inj h
      rw [Nat.add_zero i, Warp.fillLane_other _ _ _ hL hL (.inr (Nat.lt_add_one i)), Warp.reg_setReg]
    | succ r =>
      rw [show i + (r + 1) = (i + 1) + r by omega]
      exact ih _ _ _ h

theorem Warp.fillLanes_below (ts : List RThread) (w : Warp) (i q : Nat) {M : Nat} (hi : i + ts.length ≤ 128) (hM : M < i) :
    (w.fillLanes i ts).reg q M = w.reg q M := by
  induction ts generalizing w i with
  | nil => rfl
  | cons t ts ih =>
    rw [List.length_cons] at hi
    rw [Warp.fillLanes_cons, ih _ _ (by omega) (by omega), Warp.fillLane_other _ _ _ (by omega) (by omega) (.inl (by omega))]

/-- A lane of a new warp has the registers that its thread carried (R223). -/
theorem Warp.fillLanes_reg (ts : List RThread) (w : Warp) (i L r : Nat) (hi : i + ts.length ≤ 128) {h : RThread} (ht : ts[L]? = some h)
    {y : LaneReg} (hr : h.regs[r]? = some y) : (w.fillLanes i ts).reg r (i + L) = y := by
  induction ts generalizing w i L with
  | nil => exact absurd ht nofun
  | cons t ts ih =>
    rw [List.length_cons] at hi
    rw [Warp.fillLanes_cons]
    cases L with
    | zero =>
      cases Option.some.inj ht
      rw [Nat.add_zero i, Warp.fillLanes_below _ _ _ _ (by omega) (Nat.lt_add_one i)]
      have := Warp.fillLane_reg h.regs w 0 r (by omega : i < 128) hr
      rwa [Nat.zero_add] at this
    | succ L =>
      rw [show i + (L + 1) = (i + 1) + L by omega]
      exact ih _ _ _ (by omega) ht

/-- The warp of a bin: its identifiers and predicates by lane (R222, R223). -/
theorem Bin.warp_lane (b : Bin) (num : Nat) (g : Wg) (minb : Nat) (hb : b.threads.length ≤ 128) {L : Nat} {h : RThread}
    (hL : b.threads[L]? = some h) :
    (b.warp num g minb).tidOf L = h.tid ∧ ∀ q < 7, ((b.warp num g minb).pred q).getLsbD L = h.preds.getLsbD q := by
  have hlt : L < 128 := lt_of_lt_of_le (List.getElem?_eq_some_iff.1 hL).1 hb
  refine ⟨?_, fun q hq => ?_⟩
  · have := mget_map_zipIdx RThread.tid b.threads 0 L
    rw [if_pos (Nat.zero_le L), Nat.sub_zero, hL] at this
    show mgetD (b.threads.zipIdx.map fun e => (e.2, e.1.tid)) L _ = _
    rw [mgetD, this]
    rfl
  · have hp : (b.warp num g minb).pred q = maskOf ((b.threads.zipIdx.filter (fun e => e.1.preds.getLsbD q)).map Prod.snd) := by
      show (if q = 7 then fullMask else mgetD ((List.range 7).map fun j => (j, _)) q 0) = _
      rw [if_neg (by omega), mgetD, mget_map_keys _ (List.mem_range.2 hq)]
      rfl
    rw [hp, maskOf_get _ _ hlt]
    have hm : (h, L) ∈ b.threads.zipIdx := List.mem_zipIdx_iff_getElem?.2 hL
    cases hq' : h.preds.getLsbD q with
    | true => exact decide_eq_true (List.mem_map.2 ⟨_, List.mem_filter.2 ⟨hm, hq'⟩, rfl⟩)
    | false =>
      refine decide_eq_false fun hc => ?_
      obtain ⟨⟨u, M⟩, he, rfl⟩ := List.mem_map.1 hc
      obtain ⟨hz, hpr⟩ := List.mem_filter.1 he
      have : u = h := Option.some.inj ((List.mem_zipIdx_iff_getElem?.1 hz).symm.trans hL)
      rw [← this] at hq'
      exact absurd (hpr.symm.trans hq') nofun

section
variable {s : State}

theorem State.giveBlocks_only (who : Nat) (bs : List Nat) (mk : Nat → Nat → Block) (s : State) :
    ∃ w, OnlyWarp who s (s.giveBlocks who bs mk) w ∧ { w with blocks := [] } = { s.warp who with blocks := [] } := by
  unfold State.giveBlocks
  have : ∀ (t : State) (w : Warp), OnlyWarp who s t w → { w with blocks := [] } = { s.warp who with blocks := [] } →
      ∃ w, OnlyWarp who s (bs.foldl (fun t b =>
        let core := coreOf who
        match placeBlock (t.usedRows core) (t.groups core) (slotOf who) b with
        | some (g, r) => t.modWarp who (fun w => w.setBlock b (mk g r))
        | none => t) t) w ∧ { w with blocks := [] } = { s.warp who with blocks := [] } := by
    induction bs with
    | nil => exact fun t w h hw => ⟨w, h, hw⟩
    | cons b bs ih =>
      intro t w h hw
      rw [List.foldl_cons]
      dsimp only
      split
      · exact ih _ _ (h.modWarp _) hw
      · exact ih _ _ h hw
  exact this s _ (OnlyWarp.refl s who) rfl

theorem State.record_keeps (s : State) (core code warp : Nat) (data : W64) :
    { s.record core code warp data with cores := s.cores } = s ∧ ((s.record core code warp data).core core).bins = (s.core core).bins := by
  unfold State.record
  split
  · refine ⟨rfl, ?_⟩
    show (mgetD (mset s.cores core _) core {}).bins = _
    rw [mgetD_mset_same]
  · exact ⟨rfl, rfl⟩

/-- The warp that REFORM_BIN_ISSUE builds, with its control part, before its blocks. -/
def State.startBin (s : State) (b : Bin) (g : Wg) (core k num sv q : Nat) : State :=
  (s.setWarp (64 * core + k) (b.warp num g b.src.minb)).setCtl (64 * core + k)
    { tvec := b.tvec, saveNum := sv, seated := q == 1, lastIssue := s.clock, acq := b.acq }

theorem State.issueBin_eq {core k num sv : Nat} {b : Bin} {g : Wg} (hb : s.nextBin core = some b) (hg : mget s.wgs b.wg = some g)
    (hr : g.st = .resident) (hk : s.freeSlot core = some k) (hnum : s.freeNum b.wg = some num)
    (hsv : s.freeSaveNum b.src.ctx (core / 8) = some sv) (hfree : max b.src.minb ((b.n + 7) / 8) ≤ s.freeOrdinary core) :
    s.issueBin core = (((((s.startBin b g core k num sv ((mget s.grids g.grid).elim 1 (fun d => 2 ^ d.descr.qlog))).giveBlocks (64 * core + k)
      (blockList 0 (b.warp num g b.src.minb).curb) freshBlock).modWarp (64 * core + k) b.fillRegs).modCore core
        (fun c => { c with bins := c.bins.filter (fun x => x.id != b.id) })).record core 12 k (BitVec.ofNat 64 b.threads.length)) := by
  unfold State.issueBin
  rw [hb]
  dsimp only
  rw [hg, hk, hnum, hsv]
  refine (if_neg ?_).trans rfl
  have : ¬ s.freeOrdinary core < (b.warp num g b.src.minb).curb := Nat.not_lt.2 hfree
  simp [this, hr]

/-- REFORM_BIN_ISSUE (R222, R223). -/
theorem State.issueBin_warp {core k num sv : Nat} {b : Bin} {g : Wg} (hb : s.nextBin core = some b) (hg : mget s.wgs b.wg = some g)
    (hr : g.st = .resident) (hk : s.freeSlot core = some k) (hnum : s.freeNum b.wg = some num)
    (hsv : s.freeSaveNum b.src.ctx (core / 8) = some sv) (hfree : max b.src.minb ((b.n + 7) / 8) ≤ s.freeOrdinary core)
    (hlen : b.threads.length ≤ 128) :
    ∃ t, Machine.exec (.reformBinIssue core) s = .next t ∧
      let v := t.warp (64 * core + k)
      v.paths = [{ mask := maskOf (List.range b.threads.length), pc := b.pc }] ∧ v.wg = b.wg ∧ v.num = num ∧ v.s = b.src.s ∧
      v.curb = max b.src.minb ((b.n + 7) / 8) ∧ (∀ y ∈ (t.core core).bins, y.id ≠ b.id) ∧ t.mem = s.mem ∧
      (∀ L h, b.threads[L]? = some h → v.tidOf L = h.tid ∧ (∀ q < 7, (v.pred q).getLsbD L = h.preds.getLsbD q) ∧
        ∀ r y, h.regs[r]? = some y → v.reg r L = y) ∧
      ∀ o, o ≠ 64 * core + k → t.warp o = s.warp o ∧ t.ctl o = s.ctl o := by
  generalize hq : (mget s.grids g.grid).elim 1 (fun d => 2 ^ d.descr.qlog) = q
  obtain ⟨w, hw, hnb⟩ := State.giveBlocks_only (64 * core + k) (blockList 0 (b.warp num g b.src.minb).curb) freshBlock
    (s.startBin b g core k num sv q)
  have hw2 := hw.modWarp b.fillRegs
  have he := State.issueBin_eq hb hg hr hk hnum hsv hfree
  rw [hq] at he
  generalize (s.startBin b g core k num sv q).giveBlocks _ _ _ = t1 at hw hw2 he
  have hstart : (s.startBin b g core k num sv q).warp (64 * core + k) = b.warp num g b.src.minb := mgetD_mset_same ..
  rw [hstart] at hnb
  generalize t1.modWarp (64 * core + k) b.fillRegs = t2 at hw2 he
  obtain ⟨hrec, hbins⟩ := (t2.modCore core (fun c => { c with bins := c.bins.filter (fun x => x.id != b.id) })).record_keeps core 12 k
    (BitVec.ofNat 64 b.threads.length)
  refine ⟨_, congrArg Host.Outcome.next he, ?_⟩
  generalize (t2.modCore core (fun c => { c with bins := c.bins.filter (fun x => x.id != b.id) })).record core 12 k
    (BitVec.ofNat 64 b.threads.length) = t at hrec hbins
  have hwarps : t.warps = t2.warps := by have := congrArg State.warps hrec; exact this
  have hctls : t.ctls = t2.ctls := by have := congrArg State.ctls hrec; exact this
  have hv : t.warp (64 * core + k) = b.fillRegs w := by rw [State.warp, hwarps]; exact hw2.warp
  have hfields : { t.warp (64 * core + k) with blocks := [] } = { b.warp num g b.src.minb with blocks := [] } := by
    rw [hv, Bin.fillRegs_eq]
    exact (Warp.fillLanes_noblocks ..).trans hnb
  intro v
  refine ⟨?_, ?_, ?_, ?_, ?_, fun y hy => ?_, ?_, fun L h hL => ⟨?_, fun p hp => ?_, fun r y hr => ?_⟩, fun o ho => ⟨?_, ?_⟩⟩
  · have := congrArg Warp.paths hfields; exact this
  · have := congrArg Warp.wg hfields; exact this
  · have := congrArg Warp.num hfields; exact this
  · have := congrArg Warp.s hfields; exact this
  · have := congrArg Warp.curb hfields; exact this
  · rw [hbins] at hy
    change y ∈ (mgetD (mset t2.cores core _) core {}).bins at hy
    rw [mgetD_mset_same] at hy
    simpa using (List.mem_filter.1 hy).2
  · have h1 : t.mem = t2.mem := by have := congrArg State.mem hrec; exact this
    have h2 : t2.mem = s.mem := by have := congrArg State.mem hw2.rest; exact this
    exact h1.trans h2
  · have := congrArg (fun w : Warp => w.tidOf L) hfields
    exact Eq.trans this (Bin.warp_lane b num g b.src.minb hlen hL).1
  · have := congrArg (fun w : Warp => (w.pred p).getLsbD L) hfields
    exact Eq.trans this ((Bin.warp_lane b num g b.src.minb hlen hL).2 p hp)
  · show (t.warp (64 * core + k)).reg r L = y
    rw [hv, Bin.fillRegs_eq]
    have := Warp.fillLanes_reg b.threads w 0 L r (by omega) hL hr
    rwa [Nat.zero_add] at this
  · have h1 : t.warp o = t2.warp o := by rw [State.warp, hwarps]; rfl
    exact h1.trans ((hw2.others o ho).trans (mgetD_mset_other _ _ _ ho))
  · have h2 : t2.ctls = (s.startBin b g core k num sv q).ctls := by have := congrArg State.ctls hw2.rest; exact this
    rw [State.ctl, hctls, h2]
    exact mgetD_mset_other _ _ _ ho

end

theorem State.exec_reformFile {s : State} {who : Nat} {x : Waiting} {a : VOp} {n : Nat} {m : LaneMask} (hm : s.reformMay who = true)
    (hs : (s.ctl who).spilled = none)
    (hx : (s.pollable who).find? (fun y => match y.kind with | .reform _ _ _ => true | _ => false) = some x) (hk : x.kind = .reform a n m) :
    Machine.exec (.reformFile who) s = .next (s.fileLanes who x a n m) := by
  refine congrArg Host.Outcome.next (?_ : s.reformFile who = _)
  unfold State.reformFile
  rw [if_neg (by rw [hm, hs]; decide)]
  split
  · next y hy =>
    cases Option.some.inj (hy.symm.trans hx)
    rw [hk]
  · next hy => exact absurd (hy.symm.trans hx) nofun

/-- Settles O51: what a bin takes from a REFORM, its age, and the warp that it becomes. -/
theorem reformEvents : Obligations.ReformEvents := by
  unfold Obligations.ReformEvents
  intro s core who bin x p a n m b w i moved is all
  refine ⟨fun hm hs hc hx hk hp ha h1 h2 => ?_, s.binAge core bin, fun g k num sv => State.issueBin_warp⟩
  subst hc
  obtain ⟨hcount, hfiled, hwaits, hmem, hin⟩ := State.fileLanes_files hp ha h1 h2
  exact ⟨_, State.exec_reformFile hm hs hx hk, hcount, hfiled, hwaits, hmem, hin⟩

end Sys2Proof.Machine
end

section
/-! The end of an engine operation (R99, R100, R130, R237): its flags, its token, and what it leaves. -/

namespace Sys2Proof.Machine

/-! ### The token's fields (R99, R100) -/

theorem toNat_tokDone (v : W128) (err dmg : Bool) (skip : Nat) :
    (tokDone v err dmg skip).toNat = (bitsOf v 0 32 + 2 ^ 32 - 1) % 2 ^ 32 + (bitsOf v 32 32 + 1) % 2 ^ 32 * 2 ^ 32 +
      min 0xFFFF (bitsOf v 64 16 + skip) * 2 ^ 64 + (if err || v.getLsbD 80 then 2 ^ 80 else 0) +
      (if dmg || v.getLsbD 81 then 2 ^ 81 else 0) + bitsOf v 88 3 * 2 ^ 88 := by
  unfold tokDone
  dsimp only
  rw [BitVec.toNat_ofNat]
  refine Nat.mod_eq_of_lt ?_
  have h1 : (bitsOf v 0 32 + 2 ^ 32 - 1) % 2 ^ 32 < 2 ^ 32 := Nat.mod_lt _ (by decide)
  have h2 : (bitsOf v 32 32 + 1) % 2 ^ 32 < 2 ^ 32 := Nat.mod_lt _ (by decide)
  have h3 : min 0xFFFF (bitsOf v 64 16 + skip) ≤ 0xFFFF := Nat.min_le_left _ _
  have h4 : bitsOf v 88 3 < 2 ^ 3 := Nat.mod_lt _ (by decide)
  have h5 : (if (err || v.getLsbD 80) = true then 2 ^ 80 else 0) ≤ 2 ^ 80 := by split <;> decide
  have h6 : (if (dmg || v.getLsbD 81) = true then 2 ^ 81 else 0) ≤ 2 ^ 81 := by split <;> decide
  generalize (bitsOf v 0 32 + 2 ^ 32 - 1) % 2 ^ 32 = a at *
  generalize (bitsOf v 32 32 + 1) % 2 ^ 32 = b at *
  generalize min 0xFFFF (bitsOf v 64 16 + skip) = c at *
  generalize bitsOf v 88 3 = d at *
  generalize (if (err || v.getLsbD 80) = true then 2 ^ 80 else 0) = e at *
  generalize (if (dmg || v.getLsbD 81) = true then 2 ^ 81 else 0) = f at *
  omega

/-- What a token shows of an operation that is done. -/
theorem tokDone_fields (v : W128) (err dmg : Bool) (skip : Nat) :
    let w := tokDone v err dmg skip
    w.extractLsb' 0 32 = v.extractLsb' 0 32 - 1 ∧ w.extractLsb' 32 32 = v.extractLsb' 32 32 + 1 ∧
    bitsOf w 64 16 = min 0xFFFF (bitsOf v 64 16 + skip) ∧ w.getLsbD 80 = (err || v.getLsbD 80) ∧ w.getLsbD 81 = (dmg || v.getLsbD 81) := by
  intro w
  have hw : w.toNat = _ := toNat_tokDone v err dmg skip
  have h1 : (bitsOf v 0 32 + 2 ^ 32 - 1) % 2 ^ 32 < 2 ^ 32 := Nat.mod_lt _ (by decide)
  have h2 : (bitsOf v 32 32 + 1) % 2 ^ 32 < 2 ^ 32 := Nat.mod_lt _ (by decide)
  have h3 : min 0xFFFF (bitsOf v 64 16 + skip) ≤ 0xFFFF := Nat.min_le_left _ _
  have h4 : bitsOf v 88 3 < 2 ^ 3 := Nat.mod_lt _ (by decide)
  have e0 : bitsOf v 0 32 = (v.extractLsb' 0 32).toNat := by simp [bitsOf, BitVec.extractLsb'_toNat]
  have e1 : bitsOf v 32 32 = (v.extractLsb' 32 32).toNat := by simp [bitsOf, BitVec.extractLsb'_toNat]
  have hdec : (v.extractLsb' 0 32 - 1).toNat = (bitsOf v 0 32 + 2 ^ 32 - 1) % 2 ^ 32 := by
    rw [e0, BitVec.toNat_sub]
    show (2 ^ 32 - 1 + _) % 2 ^ 32 = _
    congr 1
    omega
  have hinc : (v.extractLsb' 32 32 + 1).toNat = (bitsOf v 32 32 + 1) % 2 ^ 32 := by
    rw [e1, BitVec.toNat_add]
    rfl
  generalize (bitsOf v 0 32 + 2 ^ 32 - 1) % 2 ^ 32 = a at *
  generalize (bitsOf v 32 32 + 1) % 2 ^ 32 = b at *
  generalize min 0xFFFF (bitsOf v 64 16 + skip) = c at *
  generalize bitsOf v 88 3 = d at *
  have hx : ∃ e f, w.toNat = a + b * 2 ^ 32 + c * 2 ^ 64 + e * 2 ^ 80 + f * 2 ^ 81 + d * 2 ^ 88 ∧ e < 2 ∧ f < 2 ∧
      (err || v.getLsbD 80) = decide (e = 1) ∧ (dmg || v.getLsbD 81) = decide (f = 1) := by
    refine ⟨(err || v.getLsbD 80).toNat, (dmg || v.getLsbD 81).toNat, ?_⟩
    rw [hw]
    cases err || v.getLsbD 80 <;> cases dmg || v.getLsbD 81 <;> simp
  obtain ⟨e, f, hx, he, hf, hE, hF⟩ := hx
  have hbit : ∀ i, w.getLsbD i = decide (w.toNat / 2 ^ i % 2 = 1) := fun i => by
    rw [BitVec.getLsbD, Nat.testBit_eq_decide_div_mod_eq]
  refine ⟨BitVec.eq_of_toNat_eq ?_, BitVec.eq_of_toNat_eq ?_, ?_, ?_, ?_⟩
  · rw [hdec, BitVec.extractLsb'_toNat, Nat.shiftRight_zero, hx]
    omega
  · rw [hinc, BitVec.extractLsb'_toNat, Nat.shiftRight_eq_div_pow, hx]
    omega
  · rw [bitsOf, Nat.shiftRight_eq_div_pow, hx]
    omega
  · rw [hbit, hE, hx]
    exact decide_eq_decide.2 (by omega)
  · rw [hbit, hF, hx]
    exact decide_eq_decide.2 (by omega)

/-! ### The flags (R237) -/

/-- What counting flags down leaves, where none is a saved warp's. -/
structure FlagsDown (fs : List (Nat × Nat)) (s t : State) : Prop where
  rest : { t with warps := s.warps } = s
  flags : ∀ n k, mhas s.warps n = true → (t.warp n).flag k = (s.warp n).flag k - fs.count (n, k)
  noflags : ∀ n, { t.warp n with cf := [] } = { s.warp n with cf := [] }
  has : ∀ n, mhas t.warps n = mhas s.warps n

theorem State.countDown_flags (s : State) {f : Nat × Nat} (hf : isSaved f.1 = false) : FlagsDown [f] s (s.countDown f) := by
  have e : s.countDown f = s.decFlag f.1 (some f.2) := by
    unfold State.countDown
    rw [hf]
    rfl
  rw [e]
  unfold State.decFlag
  dsimp only
  by_cases hm : mhas s.warps f.1 = true
  · rw [if_pos hm]
    obtain ⟨w, hw⟩ := Option.isSome_iff_exists.1 hm
    have hwarp : ∀ n, (s.modWarp f.1 fun w => w.setFlag f.2 (w.flag f.2 - 1)).warp n =
        if n = f.1 then (s.warp f.1).setFlag f.2 ((s.warp f.1).flag f.2 - 1) else s.warp n := fun n => by
      by_cases h : n = f.1
      · rw [if_pos h, h]
        exact mgetD_mset_same ..
      · rw [if_neg h]
        exact mgetD_mset_other _ _ _ h
    refine ⟨rfl, fun n k _ => ?_, fun n => ?_, mhas_mset_present hw⟩
    · rw [hwarp, List.count_singleton]
      by_cases h : n = f.1
      · rw [if_pos h, h]
        by_cases hk : k = f.2
        · rw [hk]
          simp [Warp.flag, Warp.setFlag]
        · rw [if_neg (by simp [Prod.ext_iff, Ne.symm hk])]
          exact mgetD_mset_other _ _ _ hk
      · rw [if_neg h, if_neg (by simp [Prod.ext_iff, Ne.symm h])]
        rfl
    · rw [hwarp]
      split
      · next h => rw [h]; rfl
      · rfl
  · rw [if_neg hm]
    refine ⟨rfl, fun n k h => ?_, fun _ => rfl, fun _ => rfl⟩
    rw [List.count_singleton, if_neg, Nat.sub_zero]
    intro h2
    have h2 := beq_iff_eq.1 h2
    exact hm (by rw [h2]; exact h)

theorem FlagsDown.nil (s : State) : FlagsDown [] s s := ⟨rfl, fun _ _ _ => rfl, fun _ => rfl, fun _ => rfl⟩

theorem FlagsDown.append {fs gs : List (Nat × Nat)} {s t u : State} (h : FlagsDown fs s t) (g : FlagsDown gs t u) :
    FlagsDown (fs ++ gs) s u where
  rest := by
    have := congrArg (fun x : State => { x with warps := s.warps }) g.rest
    exact this.trans h.rest
  flags n k hn := by
    rw [g.flags n k ((h.has n).trans hn), h.flags n k hn, List.count_append, Nat.sub_sub]
  noflags n := (g.noflags n).trans (h.noflags n)
  has n := (g.has n).trans (h.has n)

theorem State.foldl_countDown (fs : List (Nat × Nat)) (s : State) (hf : ∀ f ∈ fs, isSaved f.1 = false) :
    FlagsDown fs s (fs.foldl (fun u f => u.countDown f) s) := by
  induction fs generalizing s with
  | nil => exact FlagsDown.nil s
  | cons f fs ih =>
    exact (State.countDown_flags s (hf f List.mem_cons_self)).append (ih _ fun g hg => hf g (List.mem_cons_of_mem _ hg))

/-! ### The end -/

/-- What the last step of an operation changes besides the flags. -/
theorem State.endEng_of {s t : State} {o : EngOp}
    (h : s.tokUpdate o (fun v => tokDone v (o.err || s.opLost o) o.dmg o.skip) = (true, t)) (hf : ∀ f ∈ o.flags, isSaved f.1 = false) :
    ∃ u, FlagsDown o.flags t u ∧ s.endEng o =
      { ((u.dropAsks o.asker o.id).dropLost o.asker o.id).dropLost o.who o.id with eops := mdel t.eops o.id } := by
  refine ⟨_, State.foldl_countDown o.flags t hf, ?_⟩
  have he := congrArg State.eops (State.foldl_countDown o.flags t hf).rest
  unfold State.endEng
  rw [h]
  dsimp only
  have : (o.flags.foldl (fun u f => u.countDown f) t).eops = t.eops := he
  rw [← this]
  rfl

/-- An operation is gone: its flags, its requests and its lost accesses with it. -/
structure OpGone (o : EngOp) (t u : State) : Prop where
  rest : { u with warps := t.warps, eops := t.eops, treqs := t.treqs, linkReqs := t.linkReqs } = t
  eops : u.eops = mdel t.eops o.id
  flags : ∀ n k, mhas t.warps n = true → (u.warp n).flag k = (t.warp n).flag k - o.flags.count (n, k)
  noflags : ∀ n, { u.warp n with cf := [] } = { t.warp n with cf := [] }

theorem State.endEng_gone {s t : State} {o : EngOp}
    (h : s.tokUpdate o (fun v => tokDone v (o.err || s.opLost o) o.dmg o.skip) = (true, t)) (hf : ∀ f ∈ o.flags, isSaved f.1 = false) :
    OpGone o t (s.endEng o) := by
  obtain ⟨u, hu, e⟩ := State.endEng_of h hf
  rw [e]
  refine ⟨?_, rfl, hu.flags, hu.noflags⟩
  have := congrArg (fun x : State => { x with eops := t.eops, treqs := t.treqs, linkReqs := t.linkReqs }) hu.rest
  exact this

theorem OpGone.mem {o : EngOp} {t u : State} (h : OpGone o t u) : u.mem = t.mem := by have := congrArg State.mem h.rest; exact this
theorem OpGone.regs {o : EngOp} {t u : State} (h : OpGone o t u) : u.regs = t.regs := by have := congrArg State.regs h.rest; exact this
theorem OpGone.wgs {o : EngOp} {t u : State} (h : OpGone o t u) : u.wgs = t.wgs := by have := congrArg State.wgs h.rest; exact this
theorem OpGone.cores {o : EngOp} {t u : State} (h : OpGone o t u) : u.cores = t.cores := by have := congrArg State.cores h.rest; exact this
theorem OpGone.grids {o : EngOp} {t u : State} (h : OpGone o t u) : u.grids = t.grids := by have := congrArg State.grids h.rest; exact this
theorem OpGone.cslots {o : EngOp} {t u : State} (h : OpGone o t u) : u.cslots = t.cslots := by have := congrArg State.cslots h.rest; exact this

theorem OpGone.gone {o : EngOp} {t u : State} (h : OpGone o t u) : mget u.eops o.id = none := by rw [h.eops, mget_mdel_same]

/-- An operation without a token ends at once. -/
theorem State.endEng_noToken {s : State} {o : EngOp} (ht : o.tok = none) (hf : ∀ f ∈ o.flags, isSaved f.1 = false) :
    OpGone o s (s.endEng o) :=
  State.endEng_gone (by unfold State.tokUpdate; rw [ht]) hf

/-- What the statements say of an operation that has ended, from what is gone. -/
theorem OpGone.ended {s t u : State} {o o' : EngOp} (h : OpGone o' t u) (hid : o'.id = o.id) (hfl : o'.flags = o.flags)
    (he : t.eops = s.eops) (hw : t.warps = s.warps) (hm : o.tok = none → t.mem = s.mem)
    (htok : MemWf s → (∀ f ∈ o.flags, isSaved f.1 = false) → ∀ a sp l u', o.tok = some (a, sp) →
      s.locAt o.wg o.ctx sp a .atomic o.core o.who o.id = (.at_ l, u') → u'.atHand l 16 = true → u'.locPoison l 16 = false →
      let v : W128 := leWord 128 (u'.locRead l 16)
      leWord 128 (u.locRead l 16) = tokDone v (o.err || s.opLost o) o.dmg o.skip) : Ended s u o where
  gone := by rw [← hid]; exact h.gone
  others i hi := by rw [h.eops, he, hid]; exact mget_mdel_other _ hi
  flags n k hn := by
    have hwn : t.warp n = s.warp n := by rw [State.warp, hw]; rfl
    rw [h.flags n k (hw ▸ hn), hwn, hfl]
  regs n := by
    have hwn : t.warp n = s.warp n := by rw [State.warp, hw]; rfl
    have hn := h.noflags n
    rw [hwn] at hn
    have h1 := congrArg Warp.s hn
    have h2 := congrArg Warp.p hn
    have h3 := congrArg Warp.blocks hn
    exact ⟨h1, h2, h3⟩
  plain ho _ := h.mem.trans (hm ho)
  token hwf hf a sp l u' ho hl hat hp := by
    intro v v'
    have e : v' = _ := htok hwf hf a sp l u' ho hl hat hp
    rw [e]
    obtain ⟨h1, h2, h3, h4, h5⟩ := tokDone_fields v (o.err || s.opLost o) o.dmg o.skip
    exact ⟨h1, h2, h3, h4, h5⟩

/-- An operation without a token has ended, with whatever error it shows. -/
theorem State.endEng_ended_noToken {s : State} {o o' : EngOp} (hid : o'.id = o.id) (hfl : o'.flags = o.flags) (ht : o.tok = none)
    (ht' : o'.tok = none) (hf : ∀ f ∈ o.flags, isSaved f.1 = false) : Ended s (s.endEng o') o :=
  (State.endEng_noToken ht' (hfl ▸ hf)).ended hid hfl rfl rfl (fun _ => rfl) fun _ _ a sp _ _ h => absurd (ht.symm.trans h) nofun

theorem State.l1StoreAll_cores (s : State) (core pa : Nat) (bs : List Byte) : { s.l1StoreAll core pa bs with cores := s.cores } = s := by
  have step : ∀ (t : State) (p : Nat × List Byte),
      { (t.markFills core p.1 p.2.length).l1Store core p.1 p.2 with cores := s.cores } = { t with cores := s.cores } := fun t p => by
    unfold State.l1Store State.markFills
    split <;> split <;> rfl
  have : ∀ (l : List (Nat × List Byte)) (t : State),
      { l.foldl (fun t p => (t.markFills core p.1 p.2.length).l1Store core p.1 p.2) t with cores := s.cores } = { t with cores := s.cores } := by
    intro l
    induction l with
    | nil => exact fun _ => rfl
    | cons p l ih => exact fun t => (ih _).trans (step t p)
  exact this (linePieces pa bs) s

theorem State.l1StoreAll_locRead (s : State) (core pa : Nat) (bs : List Byte) (l : Loc) (n : Nat) :
    (s.l1StoreAll core pa bs).locRead l n = s.locRead l n := by
  have h := s.l1StoreAll_cores core pa bs
  have h1 := congrArg State.mem h
  have h2 := congrArg State.regs h
  have h3 := congrArg State.wgs h
  exact State.locRead_congr h1 h2 h3 l n

/-- A token at hand takes what is written to it. -/
theorem State.tokApply_atHand {s : State} {l : Loc} (hwf : MemWf s) (h : s.atHand l 16 = true) (hp : s.locPoison l 16 = false) (core : Nat)
    (f : W128 → W128) (r : Requester) :
    leWord 128 ((s.tokApply core l f r).locRead l 16) = f (leWord 128 (s.locRead l 16)) := by
  unfold State.tokApply
  dsimp only
  rw [State.locTouch_atHand h, if_neg (by rw [hp]; decide)]
  have hlen := toLe_length 16 (f (leWord 128 (s.locRead l 16))).toNat
  have h0 : toLe 16 (f (leWord 128 (s.locRead l 16))).toNat ≠ [] := fun e => by rw [e] at hlen; exact absurd hlen (by decide)
  have hw := State.locWrite_atHand hwf (by rw [hlen]; exact h) h0 r
  have hv : leWord (8 * 16) (toLe 16 (f (leWord 128 (s.locRead l 16))).toNat) = f (leWord 128 (s.locRead l 16)) := leWord_toLe _
  generalize toLe 16 (f (leWord 128 (s.locRead l 16))).toNat = bs at *
  have hr := hw.read
  rw [hlen] at hr
  have he : (s.engWrite core l bs r).locRead l 16 = bs := by
    unfold State.engWrite
    cases l with
    | phys a =>
      dsimp only
      rw [hlen, (held_of_atHand h).linkFails]
      exact ((State.l1StoreAll_locRead ..).trans hr)
    | sp g a => exact hr
    | ac g a => exact hr
  rw [he]
  exact hv

theorem State.bare_tokApply_eops (s : State) (core : Nat) (l : Loc) (f : W128 → W128) (r : Requester) :
    (s.tokApply core l f r).eops = s.eops ∧ (s.tokApply core l f r).warps = s.warps :=
  ⟨State.eops_of_bare (s.bare_tokApply core l f r), State.warps_of_bare (s.bare_tokApply core l f r)⟩

/-- An operation whose token is at hand ends (R99, R100, R130, R237). -/
theorem State.endEng_ended {s : State} {o : EngOp} (hat : s.tokenAtHand o) (hf : ∀ f ∈ o.flags, isSaved f.1 = false) :
    Ended s (s.endEng o) o := by
  rcases hat with ht | ⟨a, sp, l, u, ht, hl, hu, hp⟩
  · exact State.endEng_ended_noToken rfl rfl ht ht hf
  · have hplain : u.plain = s.plain := State.plain_snd hl (State.plain_locAt ..)
    have hupd : s.tokUpdate o (fun v => tokDone v (o.err || s.opLost o) o.dmg o.skip) =
        (true, u.tokApply o.core l (fun v => tokDone v (o.err || s.opLost o) o.dmg o.skip) (reqOf o.who true o.ctx o.pc)) := by
      unfold State.tokUpdate
      rw [ht]
      dsimp only
      rw [hl]
    obtain ⟨he, hw⟩ := u.bare_tokApply_eops o.core l (fun v => tokDone v (o.err || s.opLost o) o.dmg o.skip) (reqOf o.who true o.ctx o.pc)
    have hgone := State.endEng_gone hupd hf
    refine hgone.ended rfl rfl (he.trans (State.eops_of_plain hplain)) (hw.trans (State.warps_of_plain hplain))
      (fun h => absurd (h.symm.trans ht) nofun) fun hwf _ a' sp' l' u' ht' hl' _ _ => ?_
    cases Option.some.inj (ht.symm.trans ht')
    cases (hl.symm.trans hl')
    have hwfu : MemWf u := by
      have := hwf.locAt o.wg o.ctx sp a .atomic o.core o.who o.id
      rwa [hl] at this
    rw [State.locRead_congr hgone.mem hgone.regs hgone.wgs]
    exact State.tokApply_atHand hwfu hu hp ..

end Sys2Proof.Machine
end

section
/-! Launches and grids (R229, R287 to R290, R425, R426). -/

namespace Sys2Proof.Machine

/-! ### The descriptor -/

theorem leNat_append (a b : List Byte) : leNat (a ++ b) = leNat a + 256 ^ a.length * leNat b := by
  induction a with
  | nil => simp [leNat]
  | cons x a ih =>
    rw [List.cons_append, leNat, leNat, ih, List.length_cons, Nat.pow_succ, Nat.mul_add]
    ring

/-- Eight bytes at a time, a byte string is its number. -/
theorem sum_leNat_words (n : Nat) (bs : List Byte) (h : bs.length = 8 * n) :
    ((List.range n).map fun i => leNat ((bs.drop (8 * i)).take 8) * 2 ^ (64 * i)).sum = leNat bs := by
  induction n generalizing bs with
  | zero => rw [List.length_eq_zero_iff.1 (by omega : bs.length = 0)]; rfl
  | succ n ih =>
    have hd : (bs.drop 8).length = 8 * n := by rw [List.length_drop]; omega
    have e : leNat bs = leNat (bs.take 8) + 2 ^ 64 * leNat (bs.drop 8) := by
      conv_lhs => rw [← List.take_append_drop 8 bs, leNat_append, List.length_take, Nat.min_eq_left (by omega)]
      norm_num
    have hstep : ∀ i, leNat ((bs.drop (8 * (i + 1))).take 8) * 2 ^ (64 * (i + 1)) =
        2 ^ 64 * (leNat (((bs.drop 8).drop (8 * i)).take 8) * 2 ^ (64 * i)) := fun i => by
      rw [List.drop_drop, Nat.add_comm 8, ← Nat.mul_succ, Nat.mul_succ 64, Nat.pow_add, Nat.mul_comm (2 ^ 64)]
      exact (Nat.mul_assoc _ _ _).symm
    rw [e, ← ih _ hd, List.range_succ_eq_map, List.map_cons, List.sum_cons, List.map_map, ← List.sum_map_mul_left]
    refine congrArg₂ (· + ·) ?_ (congrArg List.sum (List.map_congr_left fun i _ => hstep i))
    exact Nat.mul_one _

theorem toNat_leWord_64 (bs : List Byte) (h : bs.length ≤ 8) : (leWord 64 bs).toNat = leNat bs := by
  rw [leWord, BitVec.toNat_ofNat, Nat.mod_eq_of_lt]
  exact (leNat_lt bs).trans_le (Nat.pow_le_pow_right (by decide) h)

/-- The descriptor that a launch keeps is the one it has read. -/
theorem EngOp.descr_of_words {o : EngOp} {a b : W64} {bs : List Byte} (hl : bs.length = 64)
    (hv : o.vals = [a, b] ++ (List.range 8).map (fun i => leWord 64 ((bs.drop (8 * i)).take 8))) :
    o.descr = Descr.ofBits (leWord 512 bs) := by
  unfold EngOp.descr leWord
  rw [← sum_leNat_words 8 bs hl]
  congr 2
  refine congrArg List.sum (List.map_congr_left fun i hi => ?_)
  have hi := List.mem_range.1 hi
  rw [hv, List.getD_append_right _ _ _ _ (by simp), List.getD_eq_getElem?_getD, List.getElem?_map]
  have : 2 + i - [a, b].length = i := by simp
  rw [this, List.getElem?_range hi]
  show (leWord 64 _).toNat * _ = _
  rw [toNat_leWord_64 _ (by simp)]

/-! ### Reading a descriptor and answering it -/

/-- The operation once its descriptor is known. -/
def EngOp.answered (o : EngOp) (err : Nat) (ws : List W64) : EngOp :=
  { o with phase := 1, vals := o.vals ++ ws, nums := o.nums.set 2 err }

section
variable {s : State} {o : EngOp}

theorem EngOp.answered_nums (o : EngOp) (err : Nat) (ws : List W64) (hn : o.nums.length = 6) :
    (o.answered err ws).nums.getD 2 0 = err ∧ (o.answered err ws).nums.getD 3 0 = o.nums.getD 3 0 := by
  unfold EngOp.answered
  dsimp only
  rw [List.getD_eq_getElem?_getD, List.getD_eq_getElem?_getD, List.getD_eq_getElem?_getD, List.getElem?_set, List.getElem?_set]
  simp [hn]

theorem State.launchStatus_none (h3 : o.nums.getD 3 0 = 0) (v : Nat) : s.launchStatus o v = (true, s) := if_pos h3

/-- Without a status word the answer is made at once. -/
theorem State.launchGot_noStatus (hn : o.nums.length = 6) (h3 : o.nums.getD 3 0 = 0) (err : Nat) (ws : List W64) :
    s.launchGot o err ws = if err = 0 then s.setEop { o.answered err ws with phase := 2 } else s.endEng (o.answered err ws) := by
  obtain ⟨h2, h3'⟩ := o.answered_nums err ws hn
  show s.launchAnswer (o.answered err ws) = _
  unfold State.launchAnswer
  rw [h2]
  dsimp only
  rw [State.launchStatus_none (h3'.trans h3)]

theorem State.launchRead_eq {u : State} {pa : Nat} {leaf : W64} (hp : o.phase = 0) (hf : s.forkDone o = true)
    (ha : s.ask o.ctx (o.vals.getD 0 0).toNat .engRead o.core o.who o.id (o.vals.getD 0 0).toNat 0 64 = (.ok pa leaf, u))
    (hat : u.atHand (.phys pa) 64 = true) (hpo : u.locPoison (.phys pa) 64 = false) :
    s.launchRead o = u.launchGot o (launchErr (leWord 512 (u.physRead pa 64)) (o.nums.getD 1 0))
      ((List.range 8).map (fun i => leWord 64 (((u.physRead pa 64).drop (8 * i)).take 8))) := by
  unfold State.launchRead
  rw [if_neg (by rw [hp]; decide), if_neg (by rw [hp, hf]; decide)]
  dsimp only
  rw [ha]
  dsimp only
  rw [State.locTouch_atHand hat, if_neg (by rw [hpo]; decide)]
  rfl

/-- A descriptor that has been read, where the launch names no status word (R288 to R290). -/
theorem State.launch_read {u : State} {sa sb : SOp} {cf : BitVec 5} {cc : BitVec 6} {pa : Nat} {leaf : W64} (hi : o.instr = .launch sa sb cf cc)
    (hn : o.nums.length = 6) (ht : o.tok = none) (ho : mget s.eops o.id = some o) (hfl : ∀ f ∈ o.flags, isSaved f.1 = false)
    (hp : o.phase = 0) (hv : o.vals.length = 2) (hf : s.forkDone o = true) (h3 : o.nums.getD 3 0 = 0)
    (ha : s.ask o.ctx (o.vals.getD 0 0).toNat .engRead o.core o.who o.id (o.vals.getD 0 0).toNat 0 64 = (.ok pa leaf, u))
    (hat : u.atHand (.phys pa) 64 = true) (hpo : u.locPoison (.phys pa) 64 = false) :
    let bits : BitVec 512 := leWord 512 (u.physRead pa 64)
    let err := launchErr bits (o.nums.getD 1 0)
    (err = 0 → ∃ t e, Machine.exec (.launchDescriptorRead o.id) s = .next t ∧ mget t.eops o.id = some e ∧ e.phase = 2 ∧
      e.descr = Descr.ofBits bits ∧ t.mem = u.mem) ∧
    (err ≠ 0 → ∃ t, Machine.exec (.launchDescriptorRead o.id) s = .next t ∧ Ended u t o) := by
  intro bits err
  have hexec : Machine.exec (.launchDescriptorRead o.id) s = .next (s.launchRead o) := by
    show execLaunchDescriptorRead o.id s = _
    unfold execLaunchDescriptorRead
    rw [ho]
    dsimp only
    rw [hi]
    rfl
  rw [hexec, State.launchRead_eq hp hf ha hat hpo, State.launchGot_noStatus hn h3]
  refine ⟨fun h => ?_, fun h => ⟨_, rfl, ?_⟩⟩
  · rw [if_pos h]
    refine ⟨_, { o.answered err ((List.range 8).map (fun i => leWord 64 (((u.physRead pa 64).drop (8 * i)).take 8))) with phase := 2 }, rfl, ?_⟩
    obtain ⟨a, b, hab⟩ := List.length_eq_two.1 hv
    have hl : (u.physRead pa 64).length = 64 := Memory.readN_length ..
    refine ⟨mget_mset_same .., rfl, ?_, rfl⟩
    refine EngOp.descr_of_words (a := a) (b := b) hl ?_
    rw [← hab]
    rfl
  · rw [if_neg h]
    exact State.endEng_ended_noToken rfl rfl ht ht hfl

/-- The status word is one store, at a place that is at hand (R289, R422). -/
theorem State.launchStatus_writes {u : State} {pa : Nat} {leaf : W64} (h3 : o.nums.getD 3 0 = 1)
    (ha : s.ask o.ctx (o.vals.getD 1 0).toNat .engWrite o.core (firmwareOf (clusterOf o.who)) o.id (o.vals.getD 1 0).toNat 0 8 = (.ok pa leaf, u))
    (hat : u.atHand (.phys pa) 8 = true) (v : Nat) :
    ∃ t, s.launchStatus o v = (true, t) ∧ leNat (t.physRead pa 8) = v % 2 ^ 64 ∧
      (∀ m, m < pa ∨ pa + 8 ≤ m → Memory.read t.mem.cells m = Memory.read u.mem.cells m) ∧ t.eops = s.eops ∧ t.grids = s.grids := by
  have hplain : u.plain = s.plain := State.plain_snd ha (State.plain_ask ..)
  have hh : Held (u.dropAsks (firmwareOf (clusterOf o.who)) o.id) pa 8 := ⟨(held_of_atHand hat).near, (held_of_atHand hat).held⟩
  have hlen := toLe_length 8 v
  have h0 : toLe 8 v ≠ [] := fun e => by rw [e] at hlen; exact absurd hlen (by decide)
  have hw := Held.write (by rw [hlen]; exact hh) h0 (reqOf o.who true o.ctx o.pc)
  refine ⟨(u.dropAsks (firmwareOf (clusterOf o.who)) o.id).physWrite pa (toLe 8 v) (reqOf o.who true o.ctx o.pc), ?_, ?_, fun m hm => ?_, ?_, ?_⟩
  · unfold State.launchStatus
    rw [if_neg (by rw [h3]; decide)]
    dsimp only
    rw [ha]
  · have hr := hw.physRead hh.normPa
    rw [hlen] at hr
    rw [hr, leNat_toLe]
    norm_num
  · exact hw.frame (by rw [hlen]; exact hm)
  · have := congrArg State.eops hw.rest
    exact Eq.trans this (State.eops_of_plain hplain)
  · have := congrArg State.grids hw.rest
    exact Eq.trans this (State.grids_of_plain hplain)

/-- The answer to a launch with a status word (R289). -/
theorem State.launch_answer {u : State} {sa sb : SOp} {cf : BitVec 5} {cc : BitVec 6} {pa : Nat} {leaf : W64} (hi : o.instr = .launch sa sb cf cc)
    (ht : o.tok = none) (ho : mget s.eops o.id = some o) (hfl : ∀ f ∈ o.flags, isSaved f.1 = false) (hp : o.phase = 1) (h3 : o.nums.getD 3 0 = 1)
    (ha : s.ask o.ctx (o.vals.getD 1 0).toNat .engWrite o.core (firmwareOf (clusterOf o.who)) o.id (o.vals.getD 1 0).toNat 0 8 = (.ok pa leaf, u))
    (hat : u.atHand (.phys pa) 8 = true) :
    ∃ t, Machine.exec (.launchDescriptorRead o.id) s = .next t ∧
      leNat (t.physRead pa 8) = statusWord (o.nums.getD 2 0 != 0) (o.nums.getD 2 0) % 2 ^ 64 ∧
      (∀ m, m < pa ∨ pa + 8 ≤ m → Memory.read t.mem.cells m = Memory.read u.mem.cells m) ∧
      (o.nums.getD 2 0 = 0 → mget t.eops o.id = some { o with phase := 2 }) ∧ (o.nums.getD 2 0 ≠ 0 → mget t.eops o.id = none) := by
  obtain ⟨t, hs, hv, hm, -, -⟩ := State.launchStatus_writes h3 ha hat (statusWord (o.nums.getD 2 0 != 0) (o.nums.getD 2 0))
  have hread : s.launchRead o = if o.nums.getD 2 0 = 0 then t.setEop { o with phase := 2 } else t.endEng o := by
    unfold State.launchRead
    rw [if_pos hp]
    unfold State.launchAnswer
    dsimp only
    rw [hs]
  have hexec : Machine.exec (.launchDescriptorRead o.id) s = .next (s.launchRead o) := by
    show execLaunchDescriptorRead o.id s = _
    unfold execLaunchDescriptorRead
    rw [ho]
    dsimp only
    rw [hi]
    rfl
  rw [hexec, hread]
  refine ⟨_, rfl, ?_⟩
  by_cases h : o.nums.getD 2 0 = 0
  · rw [if_pos h]
    exact ⟨hv, hm, fun _ => mget_mset_same .., fun g => absurd h g⟩
  · rw [if_neg h]
    have hg := State.endEng_noToken (s := t) ht hfl
    refine ⟨?_, fun m hmm => ?_, fun g => absurd g h, fun _ => hg.gone⟩
    · rw [State.physRead_congr hg.mem hg.regs]
      exact hv
    · rw [hg.mem]
      exact hm m hmm

end

/-! ### Acceptance -/

section
variable {s : State} {o : EngOp} {sa sb : SOp} {cf : BitVec 5} {cc : BitVec 6}

theorem State.launchAccept_waits (hr : s.launchRoom o = false) : s.launchAccept o = s := by
  unfold State.launchAccept
  exact if_pos (by rw [hr]; simp)

/-- The state once the read of the launching context's descriptor has given `d` (R417). -/
def State.refreshWith (s : State) (o : EngOp) (d : Option (BitVec 512)) : State :=
  match d with
  | some d => if descrValid d then { s with ctxs := mset s.ctxs o.ctx d } else s
  | none => s.noteDescr (clusterOf o.who) o.ctx

/-- The descriptor of the launching context, read anew where its memory answers (R417). -/
def State.refreshCtx (s : State) (o : EngOp) : State := s.refreshWith o (s.readDescr (clusterOf o.who) o.ctx)

theorem State.refreshCtx_keeps (s : State) (o : EngOp) :
    (s.refreshCtx o).nextId = s.nextId ∧ (s.refreshCtx o).grids = s.grids ∧ (s.refreshCtx o).regs = s.regs ∧
      (s.readDescr (clusterOf o.who) o.ctx ≠ none → (s.refreshCtx o).mem = s.mem) := by
  unfold State.refreshCtx
  generalize s.readDescr (clusterOf o.who) o.ctx = d
  unfold State.refreshWith
  cases d with
  | some d =>
    dsimp only
    split <;> exact ⟨rfl, rfl, rfl, fun _ => rfl⟩
  | none =>
    have hb : (s.noteDescr (clusterOf o.who) o.ctx).bare = s.bare := by
      unfold State.noteDescr State.noteBad
      split
      · rfl
      · exact State.bare_touch ..
    exact ⟨State.nextId_of_bare hb, State.grids_of_bare hb, State.regs_of_bare hb, fun h => absurd rfl h⟩

/-- The grid of an accepted launch (R425, R426). -/
def EngOp.grid (o : EngOp) (id prio : Nat) (held : Bool) : Grid :=
  { id := id, ctx := o.ctx, depth := o.nums.getD 1 0, parent := if o.nums.getD 0 0 = 0 then none else some (o.nums.getD 0 0 - 1), op := o.id
    cfirst := o.nums.getD 4 0, ccnt := o.nums.getD 5 0, descr := o.descr, prio := prio, held := held }

/-- A parent counts one child more. -/
def State.countChild (s : State) (par : Nat) : State :=
  match (if par = 0 then none else mget s.grids (par - 1)) with
  | some p => s.setGrid { p with children := p.children + 1 }
  | none => s

theorem State.launchAccept_eq (hi : o.instr = .launch sa sb cf cc) (hp : o.phase = 2) (hr : s.launchRoom o = true) :
    s.launchAccept o = ((({ s.refreshCtx o with nextId := (s.refreshCtx o).nextId + 1 } : State).setGrid (o.grid (s.refreshCtx o).nextId
      (min o.descr.prio ((s.refreshCtx o).ctxField o.ctx 58 5)) ((s.refreshCtx o).regs.suspended.contains o.ctx))).setEop
        { o with phase := 3 }).countChild (o.nums.getD 0 0) := by
  unfold State.launchAccept
  rw [if_neg (by rw [hi, hp, hr]; exact Bool.false_ne_true)]
  unfold State.refreshCtx State.refreshWith
  generalize s.readDescr (clusterOf o.who) o.ctx = d
  rfl

theorem State.countChild_keeps (s : State) (par : Nat) (hg : ∀ e ∈ s.grids, e.2.id = e.1) :
    { s.countChild par with grids := s.grids } = s ∧ (∀ k, k ≠ par - 1 → mget (s.countChild par).grids k = mget s.grids k) ∧
    (par ≠ 0 → ∀ p, mget s.grids (par - 1) = some p → mget (s.countChild par).grids (par - 1) = some { p with children := p.children + 1 }) := by
  unfold State.countChild
  by_cases h : par = 0
  · rw [if_pos h]
    exact ⟨rfl, fun _ _ => rfl, fun g => absurd h g⟩
  · rw [if_neg h]
    cases hq : mget s.grids (par - 1) with
    | none => exact ⟨rfl, fun _ _ => rfl, fun _ _ hp => absurd hp nofun⟩
    | some q =>
      have hid : q.id = par - 1 := hg _ (mem_of_mget hq)
      refine ⟨rfl, fun k hk => mget_mset_other _ _ (by rw [show ({ q with children := q.children + 1 } : Grid).id = par - 1 from hid]; exact hk),
        fun _ p hp => ?_⟩
      cases Option.some.inj hp
      show mget (mset s.grids q.id _) (par - 1) = _
      rw [hid, mget_mset_same]

/-- An accepted launch joins the queues (R425, R426). -/
theorem State.launch_accept (hi : o.instr = .launch sa sb cf cc) (ho : mget s.eops o.id = some o) (hp : o.phase = 2) (hr : s.launchRoom o = true)
    (hg : ∀ e ∈ s.grids, e.2.id = e.1 ∧ e.1 < s.nextId) (hpar : o.nums.getD 0 0 ≤ s.nextId) :
    ∃ t h e, Machine.exec (.launchAccept o.id) s = .next t ∧
      mget t.grids s.nextId = some h ∧ h.descr = o.descr ∧ h.ctx = o.ctx ∧ h.prio = min o.descr.prio (t.ctxField o.ctx 58 5) ∧
      h.cfirst = o.nums.getD 4 0 ∧ h.ccnt = o.nums.getD 5 0 ∧ h.placed = [] ∧ h.retired = 0 ∧ h.children = 0 ∧
      h.held = s.regs.suspended.contains o.ctx ∧ mget t.eops o.id = some e ∧ e.phase = 3 ∧
      (s.readDescr (clusterOf o.who) o.ctx ≠ none → t.mem = s.mem) ∧
      (o.nums.getD 0 0 ≠ 0 → ∀ p, mget s.grids (o.nums.getD 0 0 - 1) = some p →
        mget t.grids (o.nums.getD 0 0 - 1) = some { p with children := p.children + 1 }) := by
  have hexec : Machine.exec (.launchAccept o.id) s = .next (s.launchAccept o) := by
    show execLaunchAccept o.id s = _
    unfold execLaunchAccept
    rw [ho]
  obtain ⟨hnext, hgrids, hregs, hmem⟩ := s.refreshCtx_keeps o
  rw [hexec, State.launchAccept_eq hi hp hr]
  generalize s.refreshCtx o = s0 at *
  generalize hgr : o.grid s0.nextId (min o.descr.prio (s0.ctxField o.ctx 58 5)) (s0.regs.suspended.contains o.ctx) = gr
  have hgrid : gr.id = s.nextId := by rw [← hgr]; exact hnext
  generalize hs2 : (({ s0 with nextId := s0.nextId + 1 } : State).setGrid gr).setEop { o with phase := 3 } = s2
  have hs2g : s2.grids = mset s.grids s.nextId gr := by
    rw [← hs2, ← hgrids, ← hgrid]
    rfl
  have hown : ∀ e ∈ s2.grids, e.2.id = e.1 := fun e he => by
    rw [hs2g] at he
    rcases mem_mset he with rfl | he
    · exact hgrid
    · exact (hg e he).1
  obtain ⟨hrest, hother, hchild⟩ := s2.countChild_keeps (o.nums.getD 0 0) hown
  have heops : (s2.countChild (o.nums.getD 0 0)).eops = s2.eops := by have := congrArg State.eops hrest; exact this
  have hctxs : (s2.countChild (o.nums.getD 0 0)).ctxs = s2.ctxs := by have := congrArg State.ctxs hrest; exact this
  have hmem2 : (s2.countChild (o.nums.getD 0 0)).mem = s2.mem := by have := congrArg State.mem hrest; exact this
  have hnew : mget (s2.countChild (o.nums.getD 0 0)).grids s.nextId = some gr := by
    by_cases h0 : o.nums.getD 0 0 = 0
    · have : s2.countChild (o.nums.getD 0 0) = s2 := by rw [h0]; rfl
      rw [this, hs2g, mget_mset_same]
    · rw [hother _ (by omega), hs2g, mget_mset_same]
  refine ⟨_, gr, { o with phase := 3 }, rfl, hnew, by rw [← hgr]; rfl, by rw [← hgr]; rfl, ?_, by rw [← hgr]; rfl, by rw [← hgr]; rfl,
    by rw [← hgr]; rfl, by rw [← hgr]; rfl, by rw [← hgr]; rfl, by rw [← hgr, ← hregs]; rfl, ?_, rfl, fun h => ?_, fun h p hp => ?_⟩
  · rw [State.ctxField, State.ctxDescr, hctxs, ← hs2, ← hgr]
    rfl
  · rw [heops, ← hs2]
    exact mget_mset_same ..
  · rw [hmem2, ← hs2]
    exact hmem h
  · have hlt : o.nums.getD 0 0 - 1 ≠ s.nextId := by omega
    exact hchild h p (by rw [hs2g, mget_mset_other _ _ hlt]; exact hp)

end

/-! ### Retirement -/

section
variable {s u : State} {o : EngOp} {g : Grid}

/-- A grid leaves, and its parent counts one child less. -/
def State.dropGrid (s : State) (g : Grid) : State :=
  match g.parent.bind (mget (mdel s.grids g.id)) with
  | some p => ({ s with grids := mdel s.grids g.id } : State).setGrid { p with children := p.children - 1 }
  | none => { s with grids := mdel s.grids g.id }

theorem State.dropGrid_keeps (s : State) (g : Grid) (hg : ∀ e ∈ s.grids, e.2.id = e.1) :
    { s.dropGrid g with grids := s.grids } = s ∧ mget (s.dropGrid g).grids g.id = none ∧
    ∀ p q, g.parent = some p → p ≠ g.id → mget s.grids p = some q → mget (s.dropGrid g).grids p = some { q with children := q.children - 1 } := by
  unfold State.dropGrid
  cases hq : g.parent.bind (mget (mdel s.grids g.id)) with
  | none =>
    refine ⟨rfl, mget_mdel_same .., fun p q hp hne hm => ?_⟩
    rw [hp, Option.bind_some, mget_mdel_other _ hne, hm] at hq
    exact absurd hq nofun
  | some r =>
    obtain ⟨p', hp', hr⟩ := Option.bind_eq_some_iff.1 hq
    have hne : p' ≠ g.id := by
      rintro rfl
      rw [mget_mdel_same] at hr
      exact absurd hr nofun
    rw [mget_mdel_other _ hne] at hr
    have hid : r.id = p' := hg _ (mem_of_mget hr)
    refine ⟨rfl, ?_, fun p q hp _ hm => ?_⟩
    · show mget (mset (mdel s.grids g.id) r.id _) g.id = none
      rw [hid, mget_mset_other _ _ (Ne.symm hne), mget_mdel_same]
    · cases Option.some.inj (hp'.symm.trans hp)
      cases Option.some.inj (hr.symm.trans hm)
      show mget (mset (mdel s.grids g.id) r.id _) p' = _
      rw [hid, mget_mset_same]

theorem State.retireGrid_eq (hd : s.gridDone g = true) (ho : mget s.eops g.op = some o) {t : State}
    (hs : s.launchStatus o (statusWord true 0) = (true, t)) : s.retireGrid g = (t.endEng o).dropGrid g := by
  unfold State.retireGrid
  rw [if_neg (by rw [hd]; decide)]
  dsimp only
  rw [ho]
  dsimp only
  rw [hs]
  rfl

theorem State.exec_gridRetire (hg : mget s.grids g.id = some g) : Machine.exec (.gridRetire g.id) s = .next (s.retireGrid g) := by
  show execGridRetire g.id s = _
  unfold execGridRetire
  rw [hg]

/-- A grid that has retired leaves, and its launch ends (R229, R289). -/
theorem State.grid_retire {pa : Nat} {leaf : W64} (hg : ∀ e ∈ s.grids, e.2.id = e.1) (ht : o.tok = none) (hfl : ∀ f ∈ o.flags, isSaved f.1 = false)
    (ho : mget s.eops o.id = some o) (hgm : mget s.grids g.id = some g) (hop : g.op = o.id) :
    (s.gridDone g = false → Machine.exec (.gridRetire g.id) s = .next s) ∧
    (s.gridDone g = true → o.nums.getD 3 0 = 0 → ∃ t, Machine.exec (.gridRetire g.id) s = .next t ∧ mget t.grids g.id = none ∧ Ended s t o ∧
      ∀ p q, g.parent = some p → p ≠ g.id → mget s.grids p = some q → mget t.grids p = some { q with children := q.children - 1 }) ∧
    (s.gridDone g = true → o.nums.getD 3 0 = 1 →
      s.ask o.ctx (o.vals.getD 1 0).toNat .engWrite o.core (firmwareOf (clusterOf o.who)) o.id (o.vals.getD 1 0).toNat 0 8 = (.ok pa leaf, u) →
      u.atHand (.phys pa) 8 = true → ∃ t, Machine.exec (.gridRetire g.id) s = .next t ∧ mget t.grids g.id = none ∧
        mget t.eops o.id = none ∧ leNat (t.physRead pa 8) = 2 ^ 63 + 2 ^ 62) := by
  rw [State.exec_gridRetire hgm]
  refine ⟨fun hd => ?_, fun hd h3 => ?_, fun hd h3 ha hat => ?_⟩
  · unfold State.retireGrid
    rw [hd]
    rfl
  · rw [State.retireGrid_eq hd (hop ▸ ho) (State.launchStatus_none h3 _)]
    have hgone := State.endEng_noToken (s := s) ht hfl
    have hend := State.endEng_ended_noToken (s := s) (o' := o) rfl rfl ht ht hfl
    obtain ⟨hrest, hnone, hpar⟩ := (s.endEng o).dropGrid_keeps g (by rw [hgone.grids]; exact hg)
    refine ⟨_, rfl, hnone, ?_, fun p q hp hne hq => hpar p q hp hne (by rw [hgone.grids]; exact hq)⟩
    generalize (s.endEng o).dropGrid g = t at hrest
    generalize s.endEng o = e at hrest hend
    have h1 : t.eops = e.eops := by have := congrArg State.eops hrest; exact this
    have h2 : t.mem = e.mem := by have := congrArg State.mem hrest; exact this
    have h3 : t.warps = e.warps := by have := congrArg State.warps hrest; exact this
    have hw : ∀ n, t.warp n = e.warp n := fun n => by rw [State.warp, h3]; rfl
    exact ⟨by rw [h1]; exact hend.gone, fun i hi => by rw [h1]; exact hend.others i hi, fun n k hn => by rw [hw]; exact hend.flags n k hn,
      fun n => by rw [hw]; exact hend.regs n, fun a b => h2.trans (hend.plain a b), fun _ _ a sp _ _ h => absurd (ht.symm.trans h) nofun⟩
  · obtain ⟨t, hs, hv, -, -, hgr⟩ := State.launchStatus_writes h3 ha hat (statusWord true 0)
    rw [State.retireGrid_eq hd (hop ▸ ho) hs]
    have hgone := State.endEng_noToken (s := t) ht hfl
    obtain ⟨hrest, hnone, -⟩ := (t.endEng o).dropGrid_keeps g (by rw [hgone.grids, hgr]; exact hg)
    have h1 : ((t.endEng o).dropGrid g).eops = (t.endEng o).eops := by have := congrArg State.eops hrest; exact this
    have h2 : ((t.endEng o).dropGrid g).mem = (t.endEng o).mem := by have := congrArg State.mem hrest; exact this
    have h3 : ((t.endEng o).dropGrid g).regs = (t.endEng o).regs := by have := congrArg State.regs hrest; exact this
    refine ⟨_, rfl, hnone, by rw [h1]; exact hgone.gone, ?_⟩
    rw [State.physRead_congr (h2.trans hgone.mem) (h3.trans hgone.regs), hv]
    rfl

end

/-- Settles O54: the descriptor read, its answer, its acceptance, and the end of its grid. -/
theorem gridEvents : Obligations.GridEvents := by
  unfold Obligations.GridEvents
  intro s u o sa sb cf cc g pa leaf desc status par bits err hwf hwfu hgr ht hn hi ho hfl
  exact ⟨fun hp hv hf h3 ha hat hpo => State.launch_read hi hn ht ho hfl hp hv hf h3 ha hat hpo,
    fun hp h3 ha hat => State.launch_answer hi ht ho hfl hp h3 ha hat,
    fun _ hr => by
      show execLaunchAccept o.id s = _
      unfold execLaunchAccept
      rw [ho]
      exact congrArg _ (State.launchAccept_waits hr),
    fun hp hr hpar => State.launch_accept hi ho hp hr hgr hpar,
    fun hgm hop => State.grid_retire (fun e he => (hgr e he).1) ht hfl ho hgm hop⟩

end Sys2Proof.Machine
end
